-- ==== Sys2Proof/Word.lean ====
section
/-! DEFINITION. The word types of the W9 and their plainest readings (00_scope.md R3, R9). -/
namespace Sys2Proof

/-- A 64-bit word: a uniform register, an instruction word, an address as a register holds it (R25, R41). -/
abbrev Word := BitVec 64

/-- A lane's 32-bit word of a vector register (02_words_and_registers.md R41). -/
abbrev LaneWord := BitVec 32

/-- A byte of memory (R3). -/
abbrev Byte := BitVec 8

end Sys2Proof
end

