-- ==== Sys2Proof/Syntax.lean ====
section
/-! DEFINITION. The instructions and events of the W9 as syntax: one constructor of `Instr` for each row of the opcode table, and the types of their operands. -/
namespace Sys2Proof

/-- The flag select field (02_words_and_registers.md R25): none, the SETA flag or the SETB flag of the clause. -/
inductive FSel where
  | none | a | b
  deriving DecidableEq, Repr

/-- The element types of Table 9 (R46). -/
inductive ET where
  | int32 | uint32 | int16 | uint16 | int8 | uint8 | int4 | int2
  | fp32 | bf16 | fp16 | e4m3 | e5m2 | e2m1 | sc12 | int64
  deriving DecidableEq, Repr

/-- The storage width e of an element, in bits (R46). -/
def ET.width : ET → Nat
  | .int32 | .uint32 | .fp32 => 32
  | .int16 | .uint16 | .bf16 | .fp16 | .sc12 => 16
  | .int8 | .uint8 | .e4m3 | .e5m2 => 8
  | .int4 | .e2m1 => 4
  | .int2 => 2
  | .int64 => 64

/-- Codes 0 to 7: the vector integer types (07_lengths_and_integer.md R162). -/
def ET.isInt : ET → Bool
  | .int32 | .uint32 | .int16 | .uint16 | .int8 | .uint8 | .int4 | .int2 => true
  | .fp32 | .bf16 | .fp16 | .e4m3 | .e5m2 | .e2m1 | .sc12 | .int64 => false

/-- The signed integer types of the vector instructions: INT32, INT16, INT8, INT4, INT2 (R162). -/
def ET.isSigned : ET → Bool
  | .int32 | .int16 | .int8 | .int4 | .int2 => true
  | .uint32 | .uint16 | .uint8 | .fp32 | .bf16 | .fp16 | .e4m3 | .e5m2 | .e2m1 | .sc12 | .int64 => false

/-- Codes 8 to 10: the floating types of the vector arithmetic (06_numbers_and_float.md R139). -/
def ET.isF : ET → Bool
  | .fp32 | .bf16 | .fp16 => true
  | .int32 | .uint32 | .int16 | .uint16 | .int8 | .uint8 | .int4 | .int2 | .e4m3 | .e5m2 | .e2m1 | .sc12 | .int64 => false

/-- Codes 11 to 13: the narrow floating types (R139). -/
def ET.isNarrowF : ET → Bool
  | .e4m3 | .e5m2 | .e2m1 => true
  | .int32 | .uint32 | .int16 | .uint16 | .int8 | .uint8 | .int4 | .int2 | .fp32 | .bf16 | .fp16 | .sc12 | .int64 => false

/-- The two FP8 types (R306). -/
def ET.isF8 : ET → Bool
  | .e4m3 | .e5m2 => true
  | .int32 | .uint32 | .int16 | .uint16 | .int8 | .uint8 | .int4 | .int2 | .fp32 | .bf16 | .fp16 | .e2m1 | .sc12 | .int64 => false

/-- The types of the strided and indexed accesses: 0–5, 8–12 and 14 (09_loads_stores_streams.md R186). -/
def ET.isStrided : ET → Bool
  | .int32 | .uint32 | .int16 | .uint16 | .int8 | .uint8 | .fp32 | .bf16 | .fp16 | .e4m3 | .e5m2 | .sc12 => true
  | .int4 | .int2 | .e2m1 | .int64 => false

/-- The types of `LDS` and `STS`: 0–5, 8–10, 14 and 15 (R186). -/
def ET.isScalarMem : ET → Bool
  | .int32 | .uint32 | .int16 | .uint16 | .int8 | .uint8 | .fp32 | .bf16 | .fp16 | .sc12 | .int64 => true
  | .int4 | .int2 | .e4m3 | .e5m2 | .e2m1 => false

/-- The destination types of a drain: 0, 2, 4 and 8–12 (14_matrix_instructions.md R305). -/
def ET.isDrain : ET → Bool
  | .int32 | .int16 | .int8 | .fp32 | .bf16 | .fp16 | .e4m3 | .e5m2 => true
  | .uint32 | .uint16 | .uint8 | .int4 | .int2 | .e2m1 | .sc12 | .int64 => false

/-- The floating operand types of a tile (13_matrix_grants_and_engine.md R284). -/
def ET.isTileFloat : ET → Bool
  | .bf16 | .fp16 | .e4m3 | .e5m2 | .e2m1 => true
  | .int32 | .uint32 | .int16 | .uint16 | .int8 | .uint8 | .int4 | .int2 | .fp32 | .sc12 | .int64 => false

/-- The integer operand types of a tile (R284). -/
def ET.isTileInt : ET → Bool
  | .int8 | .int4 | .int2 => true
  | .int32 | .uint32 | .int16 | .uint16 | .uint8 | .fp32 | .bf16 | .fp16 | .e4m3 | .e5m2 | .e2m1 | .sc12 | .int64 => false

/-- The types that `VCVT` converts to and from integers: 0–5 (R146). -/
def ET.isCvtInt : ET → Bool
  | .int32 | .uint32 | .int16 | .uint16 | .int8 | .uint8 => true
  | .int4 | .int2 | .fp32 | .bf16 | .fp16 | .e4m3 | .e5m2 | .e2m1 | .sc12 | .int64 => false

/-- The rounding modes of the MODE field (R27). -/
inductive Mode where
  | rne | rz | ru | rd
  deriving DecidableEq, Repr

/-- The condition codes (04_scalar_and_flow.md R73). -/
inductive Cond where
  | eq | ne | lt | le | ltu | leu
  deriving DecidableEq, Repr

/-- The `.S` and `.U` variants (R73). -/
inductive Sgn where
  | signed | unsigned
  deriving DecidableEq, Repr

/-- The selections of `GETID` (05_teams_and_warps.md R110). -/
inductive GetIdSel where
  | tx | ty | tz | gx | gy | gz | warp | team
  deriving DecidableEq, Repr

/-- The selections of `GETVL` (R159). -/
inductive GetVlSel where
  | vl | pad | max | cap | desc | start
  deriving DecidableEq, Repr

/-- The selections of `MSET` (R160). -/
inductive MsetSel where
  | lt | all | none | live
  deriving DecidableEq, Repr

/-- The conditions of `VFCMP` (R144). -/
inductive FCond where
  | eq | ne | lt | le | un | or
  deriving DecidableEq, Repr

/-- The operations of `VSCAN` (08_permute_and_reduce.md R178). -/
inductive ScanOp where
  | add | max | min
  deriving DecidableEq, Repr

/-- The operations of `ATOM` and `VATOM` (11_atomics_and_ordering.md R247). -/
inductive AtomOp where
  | swap | add | and | or | xor | mins | minu | maxs | maxu | fadd | fmin | fmax | ld | st
  deriving DecidableEq, Repr

/-- The orders of an atomic (R246). -/
inductive Ord4 where
  | rlx | acq | rel | ar
  deriving DecidableEq, Repr

/-- The kinds of a fence (R246). -/
inductive FenceKind where
  | acq | rel | full
  deriving DecidableEq, Repr

/-- The scopes (R233, R246). -/
inductive Scope where
  | lane | warp | team | cluster | dev | sys
  deriving DecidableEq, Repr

/-- The operations of `CPYTRAIN` (12_copies.md R277). -/
inductive TrainOp where
  | st | add | fadd
  deriving DecidableEq, Repr

/-- The selections of `CSTAT` that do not clear (R271). -/
inductive CstatSel where
  | id | c | next | err
  deriving DecidableEq, Repr

/-- The address modes of `TSTR` (14_matrix_instructions.md R323). -/
inductive TstrMode where
  | u | s | x
  deriving DecidableEq, Repr

/-- The immediate of `STRDEF` (R202, Table 8); bit [7] is zero. -/
structure StreamImm where
  count : BitVec 23
  unit : Bool
  /-- DIR: true for a store stream. -/
  store : Bool
  depth : BitVec 2
  et : ET
  deriving DecidableEq, Repr

/-- The two core classes (01_machine.md R14). -/
inductive CoreClass where
  | m | e
  deriving DecidableEq, Repr

/-- A core by class and number (R13). -/
structure CoreRef where
  cls : CoreClass
  num : Nat
  deriving DecidableEq, Repr

/-- A warp by its team's identity in the model and its warp index. -/
structure WarpRef where
  team : Nat
  warp : Nat
  deriving DecidableEq, Repr

/-- A copy by team, channel and transfer ID (12_copies.md R261). -/
structure CopyRef where
  team : Nat
  ch : BitVec 4
  id : Nat
  deriving DecidableEq, Repr

/-- A unit that TRAIN tests (17_cryogenic_and_power.md R378). -/
inductive TestUnit where
  | cluster (n : Nat)
  | core (c : CoreRef)
  | column (core : Nat) (group : Nat)
  | stack (n : Nat)
  deriving DecidableEq, Repr

/-- A host request through a window of Cucel Link (18_host_link_and_management.md R380): `vf = none` is the PF. -/
inductive HostReq where
  | read (vf : Option (BitVec 4)) (addr : BitVec 52) (len : Nat)
  | write (vf : Option (BitVec 4)) (addr : BitVec 52) (data : List (BitVec 8))
  | readRegister (vf : Option (BitVec 4)) (part : BitVec 4) (offset : BitVec 12)
  | readGlobal (offset : BitVec 16)
  deriving DecidableEq, Repr

/-- An inbound request of a peer device (R389). -/
inductive PeerReq where
  | read (port : BitVec 3) (pa : BitVec 45) (len : Nat)
  | write (port : BitVec 3) (pa : BitVec 45) (data : List (BitVec 8))
  | atomic (port : BitVec 3) (pa : BitVec 45) (op : AtomOp) (et : ET) (operand : BitVec 64)
  | cas (port : BitVec 3) (pa : BitVec 45) (et : ET) (expected new : BitVec 64)
  /-- An element train: the target and the value of each element (11_atomics_and_ordering.md R245). -/
  | train (port : BitVec 3) (op : TrainOp) (et : ET) (elems : List (BitVec 45 × BitVec 64))
  deriving DecidableEq, Repr

/-- The registers that hold an aligned address (R383). -/
inductive AddrReg where
  | qbase | fqbase | prqbase | wbrbase | wbfbase | errbase | savebase | wmbase
  deriving DecidableEq, Repr

/-- The registers whose write has no further behaviour of its own (R5, R382). -/
inductive PlainReg where
  | capq | tcap | trapvec | savesize | xlctl | s1root | s2root
  | fqctl | fqstat | prqctl | prqstat | wbrctl | wbfcount
  | intstat | inten | errlog | wmcount
  | peerkey (port : BitVec 3)
  | keydata (index : BitVec 3)
  deriving DecidableEq, Repr

/-- A signed configuration record (R391). -/
structure ConfigRecord where
  magic : BitVec 32
  seq : Nat
  clusters : BitVec 52
  /-- Six bits for each cluster: M0–M3 in bits 0–3, E0 and E1 in bits 4 and 5. -/
  cores : List (BitVec 6)
  /-- Sixteen bits for each M-core, a set bit for an enabled column group. -/
  columns : List (BitVec 16)
  margins : List (BitVec 8)
  signature : BitVec 512
  deriving DecidableEq, Repr

/-- What an invalidation names (10_translation_and_faults.md R218). -/
inductive InvRange where
  | va (lo len : Nat)
  | gpa (lo len : Nat)
  | all
  deriving DecidableEq, Repr

/-- The instructions and events of the opcode table (02_words_and_registers.md R50, 95_what_each_step_holds.md): one constructor for each row. The first part are instruction words, in the order of the opcode map; the second part are the steps of the device's agents and of the outside world. -/
inductive Instr where
  /-- `MOV`: plain move; `.U` moves a uniform register into the lane's word (R75, R84). -/
  | mov (u : Bool) (d : BitVec 6) (a : BitVec 6)
  /-- `MOVI`: zero-extended immediate (R75). -/
  | movi (d : BitVec 6) (imm : BitVec 32)
  /-- `MOVHI`: immediate into bits [63:32] (R75). -/
  | movhi (d : BitVec 6) (a : BitVec 6) (imm : BitVec 32)
  /-- `ADRC`: clause header address plus 8 times the immediate (R75). -/
  | adrc (d : BitVec 6) (imm : BitVec 32)
  /-- `ADD`: sum (R76). -/
  | add (d : BitVec 6) (a : BitVec 6) (b : BitVec 6)
  /-- `ADDI`: sum with the sign-extended immediate (R76). -/
  | addi (d : BitVec 6) (a : BitVec 6) (imm : BitVec 32)
  /-- `SUB`: difference (R76). -/
  | sub (d : BitVec 6) (a : BitVec 6) (b : BitVec 6)
  /-- `MUL`: low half of the product (R76). -/
  | mul (d : BitVec 6) (a : BitVec 6) (b : BitVec 6)
  /-- `MULHI`: high half of the product (R76). -/
  | mulhi (sg : Sgn) (d : BitVec 6) (a : BitVec 6) (b : BitVec 6)
  /-- `DIV`: quotient (R77). -/
  | div (fs : FSel) (sg : Sgn) (d : BitVec 6) (a : BitVec 6) (b : BitVec 6)
  /-- `REM`: remainder (R77). -/
  | rem (fs : FSel) (sg : Sgn) (d : BitVec 6) (a : BitVec 6) (b : BitVec 6)
  /-- `AND`: bitwise and (R76). -/
  | and (d : BitVec 6) (a : BitVec 6) (b : BitVec 6)
  /-- `ANDI`: bitwise and with the sign-extended immediate (R76). -/
  | andi (d : BitVec 6) (a : BitVec 6) (imm : BitVec 32)
  /-- `OR`: bitwise or (R76). -/
  | or (d : BitVec 6) (a : BitVec 6) (b : BitVec 6)
  /-- `ORI`: bitwise or with the sign-extended immediate (R76). -/
  | ori (d : BitVec 6) (a : BitVec 6) (imm : BitVec 32)
  /-- `XOR`: bitwise exclusive or (R76). -/
  | xor (d : BitVec 6) (a : BitVec 6) (b : BitVec 6)
  /-- `XORI`: bitwise exclusive or with the sign-extended immediate (R76). -/
  | xori (d : BitVec 6) (a : BitVec 6) (imm : BitVec 32)
  /-- `SHL`: shift left (R76). -/
  | shl (d : BitVec 6) (a : BitVec 6) (b : BitVec 6)
  /-- `SHR`: logical shift right (R76). -/
  | shr (d : BitVec 6) (a : BitVec 6) (b : BitVec 6)
  /-- `SAR`: arithmetic shift right (R76). -/
  | sar (d : BitVec 6) (a : BitVec 6) (b : BitVec 6)
  /-- `SHLI`: shift left by an immediate (R76). -/
  | shli (d : BitVec 6) (a : BitVec 6) (imm : BitVec 6)
  /-- `SHRI`: logical shift right by an immediate (R76). -/
  | shri (d : BitVec 6) (a : BitVec 6) (imm : BitVec 6)
  /-- `SARI`: arithmetic shift right by an immediate (R76). -/
  | sari (d : BitVec 6) (a : BitVec 6) (imm : BitVec 6)
  /-- `CLZ`: leading zeros (R76). -/
  | clz (d : BitVec 6) (a : BitVec 6)
  /-- `POPC`: one bits (R76). -/
  | popc (d : BitVec 6) (a : BitVec 6)
  /-- `MIN`: smaller (R76). -/
  | min (sg : Sgn) (d : BitVec 6) (a : BitVec 6) (b : BitVec 6)
  /-- `MAX`: larger (R76). -/
  | max (sg : Sgn) (d : BitVec 6) (a : BitVec 6) (b : BitVec 6)
  /-- `CMP`: compare (R78). -/
  | cmp (cc : Cond) (d : BitVec 6) (a : BitVec 6) (b : BitVec 6)
  /-- `CMPI`: compare with the sign-extended immediate (R78). -/
  | cmpi (cc : Cond) (d : BitVec 6) (a : BitVec 6) (imm : BitVec 32)
  /-- `SEL`: select by a zero test (R78). -/
  | sel (d : BitVec 6) (a : BitVec 6) (b : BitVec 6) (c : BitVec 6)
  /-- `NOP`: no effect (R78). -/
  | nop
  /-- `BR`: branch (R79). -/
  | br (disp : BitVec 32)
  /-- `BRC`: branch on a comparison (R79). -/
  | brc (cc : Cond) (a : BitVec 6) (b : BitVec 6) (disp : BitVec 32)
  /-- `BRZ`: branch if zero (R79). -/
  | brz (a : BitVec 6) (disp : BitVec 32)
  /-- `BRNZ`: branch if not zero (R79). -/
  | brnz (a : BitVec 6) (disp : BitVec 32)
  /-- `CALL`: call (R79). -/
  | call (disp : BitVec 32)
  /-- `CALLR`: call through a register (R79). -/
  | callr (a : BitVec 6)
  /-- `RET`: jump to s63 (R79). -/
  | ret
  /-- `JMPR`: jump through a register (R79). -/
  | jmpr (a : BitVec 6)
  /-- `GETID`: identifier (R110). -/
  | getid (sel : GetIdSel) (d : BitVec 6)
  /-- `TGROW`: attach warps to an elastic team (R111). -/
  | tgrow (d : BitVec 6) (a : BitVec 6)
  /-- `TLEAVE`: end the warp (R112). -/
  | tleave
  /-- `TSTAT`: team state (R113). -/
  | tstat (d : BitVec 6)
  /-- `BARARV`: arrive at a barrier (R101, R114). -/
  | bararv (b : BitVec 4)
  /-- `BARWAIT`: wait for the phase arrived in (R114). -/
  | barwait (b : BitVec 4)
  /-- `BARSYNC`: arrive and wait (R114). -/
  | barsync (b : BitVec 4)
  /-- `BARMASK`: set barrier membership (R115). -/
  | barmask (imm : BitVec 16)
  /-- `WSYNC`: wait on a set of lanes (R107, R116). -/
  | wsync (n : BitVec 4) (a : BitVec 6)
  /-- `VFORK`: enter lane mode (R104, R117). -/
  | vfork (a : BitVec 3) (disp : BitVec 32)
  /-- `LJOIN`: join the lane (R106, R117). -/
  | ljoin
  /-- `KLAUNCH`: append a launch record to a queue (R118). -/
  | klaunch (d : BitVec 6) (a : BitVec 6) (b : BitVec 6)
  /-- `YIELD`: pre-emption point (R119). -/
  | yield
  /-- `SETVL`: grant a strip (R154-R156). -/
  | setvl (d : BitVec 6) (a : BitVec 6) (et : ET) (blk : BitVec 3) (grp : BitVec 2)
  /-- `SVLOOP`: close a strip (R158). -/
  | svloop (a : BitVec 6) (disp : BitVec 32)
  /-- `GETVL`: read strip state (R159). -/
  | getvl (sel : GetVlSel) (d : BitVec 6)
  /-- `MAND`: mask and (R160). -/
  | mand (d : BitVec 3) (a : BitVec 3) (b : BitVec 3)
  /-- `MOR`: mask or (R160). -/
  | mor (d : BitVec 3) (a : BitVec 3) (b : BitVec 3)
  /-- `MXOR`: mask exclusive or (R160). -/
  | mxor (d : BitVec 3) (a : BitVec 3) (b : BitVec 3)
  /-- `MANDN`: mask and not (R160). -/
  | mandn (d : BitVec 3) (a : BitVec 3) (b : BitVec 3)
  /-- `MNOT`: mask complement (R160). -/
  | mnot (d : BitVec 3) (a : BitVec 3)
  /-- `MMOV`: mask move (R160). -/
  | mmov (d : BitVec 3) (a : BitVec 3)
  /-- `MSET`: set a mask from the strip (R160). -/
  | mset (sel : MsetSel) (d : BitVec 3) (a : BitVec 6)
  /-- `MPOPC`: count mask bits (R160). -/
  | mpopc (d : BitVec 6) (a : BitVec 3)
  /-- `MFIRST`: first mask bit (R160). -/
  | mfirst (d : BitVec 6) (a : BitVec 3)
  /-- `VADD`: sum (R164). -/
  | vadd (mk : BitVec 3) (mz : Bool) (et : ET) (d : BitVec 6) (a : BitVec 6) (b : BitVec 6)
  /-- `VADDS`: saturating sum (R164). -/
  | vadds (mk : BitVec 3) (mz : Bool) (et : ET) (d : BitVec 6) (a : BitVec 6) (b : BitVec 6)
  /-- `VSUB`: difference (R164). -/
  | vsub (mk : BitVec 3) (mz : Bool) (et : ET) (d : BitVec 6) (a : BitVec 6) (b : BitVec 6)
  /-- `VSUBS`: saturating difference (R164). -/
  | vsubs (mk : BitVec 3) (mz : Bool) (et : ET) (d : BitVec 6) (a : BitVec 6) (b : BitVec 6)
  /-- `VMUL`: low half of the product (R164). -/
  | vmul (mk : BitVec 3) (mz : Bool) (et : ET) (d : BitVec 6) (a : BitVec 6) (b : BitVec 6)
  /-- `VMULHI`: high half of the product (R164). -/
  | vmulhi (mk : BitVec 3) (mz : Bool) (et : ET) (d : BitVec 6) (a : BitVec 6) (b : BitVec 6)
  /-- `VMAD`: multiply and add (R164). -/
  | vmad (mk : BitVec 3) (mz : Bool) (et : ET) (d : BitVec 6) (a : BitVec 6) (b : BitVec 6) (c : BitVec 6)
  /-- `VMIN`: smaller (R164). -/
  | vmin (mk : BitVec 3) (mz : Bool) (et : ET) (d : BitVec 6) (a : BitVec 6) (b : BitVec 6)
  /-- `VMAX`: larger (R164). -/
  | vmax (mk : BitVec 3) (mz : Bool) (et : ET) (d : BitVec 6) (a : BitVec 6) (b : BitVec 6)
  /-- `VABS`: absolute value; `.S` saturates (R164). -/
  | vabs (mk : BitVec 3) (mz : Bool) (sat : Bool) (et : ET) (d : BitVec 6) (a : BitVec 6)
  /-- `VAND`: bitwise and (R164). -/
  | vand (mk : BitVec 3) (mz : Bool) (et : ET) (d : BitVec 6) (a : BitVec 6) (b : BitVec 6)
  /-- `VOR`: bitwise or (R164). -/
  | vor (mk : BitVec 3) (mz : Bool) (et : ET) (d : BitVec 6) (a : BitVec 6) (b : BitVec 6)
  /-- `VXOR`: bitwise exclusive or (R164). -/
  | vxor (mk : BitVec 3) (mz : Bool) (et : ET) (d : BitVec 6) (a : BitVec 6) (b : BitVec 6)
  /-- `VSHL`: shift left (R164). -/
  | vshl (mk : BitVec 3) (mz : Bool) (et : ET) (d : BitVec 6) (a : BitVec 6) (b : BitVec 6)
  /-- `VSHR`: logical shift right (R164). -/
  | vshr (mk : BitVec 3) (mz : Bool) (et : ET) (d : BitVec 6) (a : BitVec 6) (b : BitVec 6)
  /-- `VSAR`: arithmetic shift right (R164). -/
  | vsar (mk : BitVec 3) (mz : Bool) (et : ET) (d : BitVec 6) (a : BitVec 6) (b : BitVec 6)
  /-- `VCMP`: compare into a mask (R165). -/
  | vcmp (mk : BitVec 3) (mz : Bool) (cc : Cond) (et : ET) (d : BitVec 3) (a : BitVec 6) (b : BitVec 6)
  /-- `VMRG`: merge by mask (R165). -/
  | vmrg (mk : BitVec 3) (et : ET) (d : BitVec 6) (a : BitVec 6) (b : BitVec 6)
  /-- `VWID`: widen (R168). -/
  | vwid (mk : BitVec 3) (mz : Bool) (src : ET) (et : ET) (d : BitVec 6) (a : BitVec 6)
  /-- `VSATN`: narrow with saturation (R168). -/
  | vsatn (mk : BitVec 3) (mz : Bool) (src : ET) (et : ET) (d : BitVec 6) (a : BitVec 6)
  /-- `VIOTA`: index or prefix count (R166). -/
  | viota (mk : BitVec 3) (mz : Bool) (byMask : Bool) (et : ET) (d : BitVec 6) (a : BitVec 3)
  /-- `VBCS`: broadcast a uniform register (R166). -/
  | vbcs (mk : BitVec 3) (mz : Bool) (et : ET) (d : BitVec 6) (a : BitVec 6)
  /-- `VPOPC`: one bits (R164). -/
  | vpopc (mk : BitVec 3) (mz : Bool) (et : ET) (d : BitVec 6) (a : BitVec 6)
  /-- `VADDI`: sum with an immediate, in the strip's type (R167). -/
  | vaddi (mk : BitVec 3) (mz : Bool) (d : BitVec 6) (a : BitVec 6) (imm : BitVec 32)
  /-- `VCLZ`: leading zeros (R164). -/
  | vclz (mk : BitVec 3) (mz : Bool) (et : ET) (d : BitVec 6) (a : BitVec 6)
  /-- `VFADD`: sum (R140). -/
  | vfadd (mk : BitVec 3) (mz : Bool) (md : Mode) (et : ET) (d : BitVec 6) (a : BitVec 6) (b : BitVec 6)
  /-- `VFSUB`: difference (R140). -/
  | vfsub (mk : BitVec 3) (mz : Bool) (md : Mode) (et : ET) (d : BitVec 6) (a : BitVec 6) (b : BitVec 6)
  /-- `VFMUL`: product (R140). -/
  | vfmul (mk : BitVec 3) (mz : Bool) (md : Mode) (et : ET) (d : BitVec 6) (a : BitVec 6) (b : BitVec 6)
  /-- `VFMA`: fused multiply-add (R140). -/
  | vfma (mk : BitVec 3) (mz : Bool) (md : Mode) (et : ET) (d : BitVec 6) (a : BitVec 6) (b : BitVec 6) (c : BitVec 6)
  /-- `VFNMA`: fused negated multiply-add (R140). -/
  | vfnma (mk : BitVec 3) (mz : Bool) (md : Mode) (et : ET) (d : BitVec 6) (a : BitVec 6) (b : BitVec 6) (c : BitVec 6)
  /-- `VFMIN`: smaller (R141). -/
  | vfmin (mk : BitVec 3) (mz : Bool) (et : ET) (d : BitVec 6) (a : BitVec 6) (b : BitVec 6)
  /-- `VFMAX`: larger (R141). -/
  | vfmax (mk : BitVec 3) (mz : Bool) (et : ET) (d : BitVec 6) (a : BitVec 6) (b : BitVec 6)
  /-- `VFDIV`: quotient (R142). -/
  | vfdiv (fs : FSel) (mk : BitVec 3) (mz : Bool) (md : Mode) (et : ET) (d : BitVec 6) (a : BitVec 6) (b : BitVec 6)
  /-- `VFSQRT`: square root (R142). -/
  | vfsqrt (fs : FSel) (mk : BitVec 3) (mz : Bool) (md : Mode) (et : ET) (d : BitVec 6) (a : BitVec 6)
  /-- `VFRSQ`: reciprocal square root (R142). -/
  | vfrsq (fs : FSel) (mk : BitVec 3) (mz : Bool) (md : Mode) (et : ET) (d : BitVec 6) (a : BitVec 6)
  /-- `VFRCP`: reciprocal (R142). -/
  | vfrcp (fs : FSel) (mk : BitVec 3) (mz : Bool) (md : Mode) (et : ET) (d : BitVec 6) (a : BitVec 6)
  /-- `VFEXP2`: power of two (R142). -/
  | vfexp2 (fs : FSel) (mk : BitVec 3) (mz : Bool) (md : Mode) (et : ET) (d : BitVec 6) (a : BitVec 6)
  /-- `VFLOG2`: binary logarithm (R142). -/
  | vflog2 (fs : FSel) (mk : BitVec 3) (mz : Bool) (md : Mode) (et : ET) (d : BitVec 6) (a : BitVec 6)
  /-- `VFCMP`: compare into a mask (R143, R144). -/
  | vfcmp (mk : BitVec 3) (mz : Bool) (cc : FCond) (et : ET) (d : BitVec 3) (a : BitVec 6) (b : BitVec 6)
  /-- `VFCLASS`: classify (R145). -/
  | vfclass (mk : BitVec 3) (mz : Bool) (et : ET) (d : BitVec 6) (a : BitVec 6)
  /-- `VCVT`: convert (R146, R147). -/
  | vcvt (mk : BitVec 3) (mz : Bool) (md : Mode) (nsat : Bool) (src : ET) (et : ET) (d : BitVec 6) (a : BitVec 6)
  /-- `VQNT`: quantise with block scales (R148, R149). -/
  | vqnt (tr : Bool) (src : ET) (et : ET) (d : BitVec 6) (a : BitVec 6) (b : BitVec 6)
  /-- `VDQNT`: dequantise (R150). -/
  | vdqnt (mk : BitVec 3) (mz : Bool) (md : Mode) (src : ET) (et : ET) (d : BitVec 6) (a : BitVec 6) (b : BitVec 6)
  /-- `VFABS`: absolute value (R141). -/
  | vfabs (mk : BitVec 3) (mz : Bool) (et : ET) (d : BitVec 6) (a : BitVec 6)
  /-- `VPERM`: permute by an index group (R173). -/
  | vperm (mk : BitVec 3) (mz : Bool) (et : ET) (d : BitVec 6) (a : BitVec 6) (b : BitVec 6)
  /-- `VSLUP`: slide up (R173). -/
  | vslup (mk : BitVec 3) (mz : Bool) (et : ET) (d : BitVec 6) (a : BitVec 6) (b : BitVec 6)
  /-- `VSLDN`: slide down (R173). -/
  | vsldn (mk : BitVec 3) (mz : Bool) (et : ET) (d : BitVec 6) (a : BitVec 6) (b : BitVec 6)
  /-- `VBCAST`: broadcast an element (R173). -/
  | vbcast (mk : BitVec 3) (mz : Bool) (et : ET) (d : BitVec 6) (a : BitVec 6) (b : BitVec 6)
  /-- `VCMPRS`: compress (R174). -/
  | vcmprs (et : ET) (d : BitVec 6) (a : BitVec 6) (b : BitVec 3)
  /-- `VEXPND`: expand (R174). -/
  | vexpnd (et : ET) (d : BitVec 6) (a : BitVec 6) (b : BitVec 3)
  /-- `VTR8`: transpose eight registers (R175). -/
  | vtr8 (mk : BitVec 3) (mz : Bool) (et : ET) (d : BitVec 6) (a : BitVec 6)
  /-- `VREDSUM`: sum (R176, R177). -/
  | vredsum (mk : BitVec 3) (md : Mode) (et : ET) (d : BitVec 6) (a : BitVec 6)
  /-- `VREDMAX`: largest (R176). -/
  | vredmax (mk : BitVec 3) (et : ET) (d : BitVec 6) (a : BitVec 6)
  /-- `VREDMIN`: smallest (R176). -/
  | vredmin (mk : BitVec 3) (et : ET) (d : BitVec 6) (a : BitVec 6)
  /-- `VSCAN`: running sum, largest or smallest (R178). -/
  | vscan (mk : BitVec 3) (mz : Bool) (md : Mode) (op : ScanOp) (et : ET) (d : BitVec 6) (a : BitVec 6)
  /-- `VEXTR`: extract an element (R179). -/
  | vextr (et : ET) (d : BitVec 6) (a : BitVec 6) (b : BitVec 6)
  /-- `VINS`: insert an element (R179). -/
  | vins (et : ET) (d : BitVec 6) (a : BitVec 6) (b : BitVec 6)
  /-- `LDS`: scalar load (R195, R196). -/
  | lds (fs : FSel) (et : ET) (ch : BitVec 2) (d : BitVec 6) (a : BitVec 6) (off : BitVec 16)
  /-- `STS`: scalar store (R195, R196). -/
  | sts (et : ET) (ch : BitVec 2) (a : BitVec 6) (b : BitVec 6) (off : BitVec 16)
  /-- `VLD`: unit-stride load (R197). -/
  | vld (fs : FSel) (mk : BitVec 3) (mz : Bool) (et : ET) (ch : BitVec 2) (d : BitVec 6) (a : BitVec 6) (off : BitVec 16)
  /-- `VST`: unit-stride store (R197). -/
  | vst (mk : BitVec 3) (et : ET) (ch : BitVec 2) (a : BitVec 6) (b : BitVec 6) (off : BitVec 16)
  /-- `VLDS`: strided load (R197). -/
  | vlds (fs : FSel) (mk : BitVec 3) (mz : Bool) (et : ET) (ch : BitVec 2) (d : BitVec 6) (a : BitVec 6) (c : BitVec 6) (off : BitVec 16)
  /-- `VSTS`: strided store (R197). -/
  | vsts (mk : BitVec 3) (et : ET) (ch : BitVec 2) (a : BitVec 6) (b : BitVec 6) (c : BitVec 6) (off : BitVec 16)
  /-- `VLDX`: gather (R197, R198). -/
  | vldx (fs : FSel) (mk : BitVec 3) (mz : Bool) (et : ET) (ch : BitVec 2) (d : BitVec 6) (a : BitVec 6) (c : BitVec 6) (off : BitVec 16)
  /-- `VSTX`: scatter (R197). -/
  | vstx (mk : BitVec 3) (et : ET) (ch : BitVec 2) (a : BitVec 6) (b : BitVec 6) (c : BitVec 6) (off : BitVec 16)
  /-- `STRDEF`: define a stream (R202). -/
  | strdef (si : StreamImm) (d : BitVec 3) (a : BitVec 6) (b : BitVec 6)
  /-- `VLDST`: load the next strip of a stream (R204). -/
  | vldst (fs : FSel) (mk : BitVec 3) (mz : Bool) (ch : BitVec 2) (d : BitVec 6) (a : BitVec 3)
  /-- `VSTST`: store the next strip of a stream (R204). -/
  | vstst (mk : BitVec 3) (ch : BitVec 2) (a : BitVec 3) (b : BitVec 6)
  /-- `PREF`: prefetch (R206). -/
  | pref (ch : BitVec 2) (a : BitVec 6) (off : BitVec 16)
  /-- `ATOM`: atomic (R247, R248). -/
  | atom (fs : FSel) (op : AtomOp) (ord : Ord4) (md : Mode) (et : ET) (d : BitVec 6) (a : BitVec 6) (b : BitVec 6)
  /-- `VATOM`: vector atomic (R247, R249). -/
  | vatom (fs : FSel) (mk : BitVec 3) (mz : Bool) (op : AtomOp) (ord : Ord4) (md : Mode) (et : ET) (d : BitVec 6) (a : BitVec 6) (b : BitVec 6) (c : BitVec 6)
  /-- `CAS`: compare and swap (R248). -/
  | cas (fs : FSel) (ord : Ord4) (et : ET) (d : BitVec 6) (a : BitVec 6) (b : BitVec 6) (c : BitVec 6)
  /-- `VCAS`: vector compare and swap (R249). -/
  | vcas (fs : FSel) (mk : BitVec 3) (mz : Bool) (ord : Ord4) (et : ET) (d : BitVec 6) (a : BitVec 6) (b : BitVec 6) (c : BitVec 6)
  /-- `REDORD`: ordered reduction (R253). -/
  | redord (md : Mode) (d : BitVec 6) (a : BitVec 6) (b : BitVec 6) (c : BitVec 6)
  /-- `FENCE`: fence (R254). -/
  | fence (kind : FenceKind) (scope : Scope)
  /-- `CPYBOX_IN`: copy a record box into a dense box (R263). -/
  | cpyboxIn (fs : FSel) (d : BitVec 6) (a : BitVec 6) (b : BitVec 6) (c : BitVec 6) (ch : BitVec 4)
  /-- `CPYBOX_OUT`: copy a dense box out to a record box (R263). -/
  | cpyboxOut (fs : FSel) (d : BitVec 6) (a : BitVec 6) (b : BitVec 6) (c : BitVec 6) (ch : BitVec 4)
  /-- `CPYA`: copy an A operand box (R263, R264). -/
  | cpya (fs : FSel) (t : BitVec 3) (d : BitVec 6) (a : BitVec 6) (b : BitVec 6) (ch : BitVec 4)
  /-- `CPYB`: copy a B operand box (R263, R264). -/
  | cpyb (fs : FSel) (t : BitVec 3) (d : BitVec 6) (a : BitVec 6) (b : BitVec 6) (ch : BitVec 4)
  /-- `CPYTRAIN`: element trains (R277). -/
  | cpytrain (fs : FSel) (op : TrainOp) (et : ET) (d : BitVec 6) (a : BitVec 6) (b : BitVec 6) (ch : BitVec 4)
  /-- `CWAIT`: wait for a transfer ID (R270). -/
  | cwait (a : BitVec 6) (ch : BitVec 4)
  /-- `CSTAT`: read a channel (R271). -/
  | cstat (sel : CstatSel) (d : BitVec 6) (a : BitVec 6) (ch : BitVec 4)
  /-- `CSTAT_CLR`: read and clear a channel's error (R271). -/
  | cstatClr (d : BitVec 6) (ch : BitVec 4)
  /-- `TEN`: enable tile state (R286). -/
  | ten
  /-- `TDIS`: disable tile state (R287). -/
  | tdis
  /-- `TSET`: grant a tile shape (R284, R291). -/
  | tset (t : BitVec 3) (d : BitVec 6) (a : BitVec 6) (aty : ET) (bty : ET) (blk : BitVec 3)
  /-- `TGRANT`: read a grant (R295). -/
  | tgrant (t : BitVec 3) (d : BitVec 6)
  /-- `TZERO`: zero a slot (R315). -/
  | tzero (t : BitVec 3)
  /-- `TLDB`: record and load B (R316). -/
  | tldb (fs : FSel) (t : BitVec 3) (a : BitVec 6) (b : BitVec 6)
  /-- `TMMA`: multiply (R317). -/
  | tmma (fs : FSel) (t : BitVec 3) (a : BitVec 6)
  /-- `TMMAS`: multiply with A scales (R317). -/
  | tmmas (fs : FSel) (t : BitVec 3) (a : BitVec 6) (b : BitVec 6)
  /-- `TCSCL_LD`: load channel scales (R319). -/
  | tcsclLd (fs : FSel) (t : BitVec 3) (a : BitVec 6)
  /-- `TCSCL_ONE`: channel scales to 1.0 (R319). -/
  | tcsclOne (fs : FSel) (t : BitVec 3)
  /-- `TSLV`: drain a row or column to a vector (R321). -/
  | tslv (mk : BitVec 3) (mz : Bool) (col : Bool) (md : Mode) (nsat : Bool) (et : ET) (t : BitVec 3) (d : BitVec 6) (a : BitVec 6)
  /-- `TSVL`: write a row or column of a slot (R322). -/
  | tsvl (mk : BitVec 3) (col : Bool) (md : Mode) (et : ET) (t : BitVec 3) (a : BitVec 6) (b : BitVec 6)
  /-- `TSTR`: store a row (R323). -/
  | tstr (fs : FSel) (mk : BitVec 3) (tm : TstrMode) (md : Mode) (nsat : Bool) (et : ET) (t : BitVec 3) (a : BitVec 6) (b : BitVec 6) (c : BitVec 6)
  /-- `TSAVE`: save a slot's image (R325). -/
  | tsave (fs : FSel) (t : BitVec 3) (a : BitVec 6)
  /-- `TLOAD`: load a slot's image (R326). -/
  | tload (fs : FSel) (t : BitVec 3) (a : BitVec 6)
  /-- `TRAP`: software trap (R338). -/
  | trap (imm : BitVec 16)
  /-- `ERET`: return from the handler (R339). -/
  | eret
  /-- `GETSR`: read a system register (R340). -/
  | getsr (d : BitVec 6) (sr : BitVec 12)
  /-- `SETSR`: write a system register (R340). -/
  | setsr (sr : BitVec 12) (a : BitVec 6)
  /-- `CACHE_CLEAN`: write a line back (R341). -/
  | cacheClean (a : BitVec 6)
  /-- `CACHE_FLUSH`: write a line back and remove it (R341). -/
  | cacheFlush (a : BitVec 6)
  /-- `CACHE_INV`: remove a line without writing it back (R341). -/
  | cacheInv (a : BitVec 6)
  /-- `ICINV_RANGE`: remove instruction-cache lines of a range (R342). -/
  | icinvRange (a : BitVec 6) (b : BitVec 6)
  /-- `ICINV_ALL`: remove every instruction-cache line (R342). -/
  | icinvAll
  /-- `XLINV_VA`: invalidate translations of a range (R343). -/
  | xlinvVa (a : BitVec 6) (b : BitVec 6)
  /-- `XLINV_ALL`: invalidate every translation (R343). -/
  | xlinvAll
  /-- `LEASE`: ask for boost credits (R344). -/
  | lease (d : BitVec 6) (a : BitVec 6)
  /-- `HALT_WARP`: end the warp (R345). -/
  | haltWarp
  /-- `HALT_TEAM`: kill the team (R345). -/
  | haltTeam (a : BitVec 6)
  /-- `CLAUSE_START`: the focused warp starts its next clause (R33). -/
  | clauseStart
  /-- `INSTRUCTION_COMPLETION`: outstanding instruction `seq` of warp `w` completes (R33). -/
  | instructionCompletion (w : WarpRef) (seq : Nat)
  /-- `URGENT`: warp `w` becomes urgent (R70). -/
  | urgent (w : WarpRef)
  /-- `CLASS_GROUP_CLOSE`: the class group of core `c` closes (R69). -/
  | classGroupClose (c : CoreRef)
  /-- `PREEMPTION_REQUEST`: a pre-emption request is raised for team `t` (R346). -/
  | preemptionRequest (t : Nat)
  /-- `FORCED_FULL_SAVE`: warp `w` is saved whole (R348). -/
  | forcedFullSave (w : WarpRef)
  /-- `TEAM_SAVE`: team `t`, all of whose warps are saved, is saved (R349). -/
  | teamSave (t : Nat)
  /-- `TEAM_RESUME`: team `t` is resumed (R349). -/
  | teamResume (t : Nat)
  /-- `SHRINK_REQUEST`: team `t`'s shrink request is raised by `k` (R97). -/
  | shrinkRequest (t : Nat) (k : Nat)
  /-- `SCHEDULER_ATTACH`: the scheduler attaches a warp to team `t` (R99). -/
  | schedulerAttach (t : Nat)
  /-- `MILESTONE_FIRE`: the oldest unfired milestone of warp `w` fires (R101). -/
  | milestoneFire (w : WarpRef)
  /-- `TAIL_OBSERVED`: the caravan master observes a queue's TAIL (R87). -/
  | tailObserved (part : BitVec 4) (q : BitVec 3)
  /-- `QUEUE_DISABLE_WRITE`: the caravan master observes ENABLE := 0 (R87). -/
  | queueDisableWrite (part : BitVec 4) (q : BitVec 3)
  /-- `QUEUE_ENABLE_WRITE`: the caravan master observes ENABLE := 1 (R87). -/
  | queueEnableWrite (part : BitVec 4) (q : BitVec 3)
  /-- `TEAM_PLACEMENT`: the next team of grid `g` is placed (R94). -/
  | teamPlacement (g : Nat)
  /-- `TEAM_COMPLETE`: team `t` completes (R103). -/
  | teamComplete (t : Nat)
  /-- `HOST_KILL`: system software kills team `t` (R350). -/
  | hostKill (t : Nat)
  /-- `LINE_ARRIVAL`: a copied scratchpad line arrives (R268). -/
  | lineArrival (line : Nat)
  /-- `RUN_AHEAD`: the stream engine reads ahead (R203). -/
  | runAhead (w : WarpRef) (st : BitVec 3)
  /-- `REDORD_UNPARK`: waiters of a reduction cell are examined (R253). -/
  | redordUnpark (cell : Nat)
  /-- `FQRESP`: the guest answers a manifest (R229). -/
  | fqresp (part : BitVec 4) (failmask : BitVec 14) (mid : BitVec 32)
  /-- `PRRESP`: the host answers a page request (R229). -/
  | prresp (part : BitVec 4) (fail : Bool) (tag : BitVec 32)
  /-- `FAULT_REISSUE`: the requester of a complete manifest unparks (R229). -/
  | faultReissue (part : BitVec 4) (mid : BitVec 32)
  /-- `FQHEAD_WRITE`: software writes FQHEAD (R383). -/
  | fqheadWrite (part : BitVec 4) (v : BitVec 32)
  /-- `PRQHEAD_WRITE`: the host writes PRQHEAD (R383). -/
  | prqheadWrite (part : BitVec 4) (v : BitVec 32)
  /-- `WBRHEAD_WRITE`: software writes WBRHEAD (R383). -/
  | wbrheadWrite (part : BitVec 4) (v : BitVec 32)
  /-- `ERRHEAD_WRITE`: the host writes ERRHEAD (R383). -/
  | errheadWrite (part : BitVec 4) (v : BitVec 32)
  /-- `INVALIDATION_COMPLETE`: invalidation `n` completes (R218). -/
  | invalidationComplete (n : Nat)
  /-- `COPY_SEGMENT`: the Porter performs the next segment of copy `c` (R267). -/
  | copySegment (c : CopyRef)
  /-- `COPY_RESUME`: parked copy `c` resumes (R275). -/
  | copyResume (c : CopyRef)
  /-- `COPY_COMPLETE`: copy `c` completes (R262). -/
  | copyComplete (c : CopyRef)
  /-- `TRAIN_DELIVERY`: the next train of copy `c` is delivered (R245). -/
  | trainDelivery (c : CopyRef)
  /-- `BALE_WHOLE_WRITE`: a whole bale is written (R364). -/
  | baleWholeWrite (bale : Nat) (data : List (BitVec 8)) (baled : Bool) (key : BitVec 9)
  /-- `BALE_MERGE`: a partial write to a bale (R364). -/
  | baleMerge (pa : Nat) (data : List (BitVec 8)) (baled : Bool) (key : BitVec 9)
  /-- `BALE_READ`: a bale is read at the controller (R363). -/
  | baleRead (bale : Nat) (key : BitVec 9)
  /-- `UNCORRECTABLE_EVICTION`: a dirty line found uncorrectable is written back (R200). -/
  | uncorrectableEviction (line : Nat)
  /-- `PATROL_SCRUB`: a DRAM row is scrubbed (R374). -/
  | patrolScrub (row : Nat)
  /-- `TRAIN`: training; `failed` are the units that fail their test (R371). -/
  | train (failed : List TestUnit)
  /-- `TOLL_SETTING_CHANGE`: CAP and REFILL of core `c` change (R375). -/
  | tollSettingChange (c : CoreRef) (cap : Nat) (refill : Nat)
  /-- `POOL_FILL`: `n` credits join a cluster's pool (R377). -/
  | poolFill (cluster : Nat) (n : Nat)
  /-- `HOST_WINDOW_ACCESS`: a host request through a window (R380). -/
  | hostWindowAccess (r : HostReq)
  /-- `PEER_REQUEST`: an inbound peer request (R389). -/
  | peerRequest (r : PeerReq)
  /-- `LINK_FAILURE`: Cucel Link or a peer port fails (R381). -/
  | linkFailure (port : Option (BitVec 3))
  /-- `LINK_RECOVERY`: Cucel Link or a peer port recovers (R381). -/
  | linkRecovery (port : Option (BitVec 3))
  /-- `KEY_RANGE_WRITE`: a full write of register 0x410 (R382). -/
  | keyRangeWrite (part : BitVec 4) (v : BitVec 32)
  /-- `ADDRESS_REGISTER_WRITE`: a write of an aligned base register (R383, R438). -/
  | addressRegisterWrite (pf : Bool) (part : BitVec 4) (r : AddrReg) (v : BitVec 64)
  /-- `REGISTER_WRITE`: a write of a register without behaviour of its own (R382). -/
  | registerWrite (pf : Bool) (part : BitVec 4) (r : PlainReg) (v : BitVec 64)
  /-- `KEYCMD_LOAD`: load KEYDATA into a key slot (R387). -/
  | keycmdLoad (slot : BitVec 9)
  /-- `KEYCMD_RANDOM`: a fresh random pair for a key slot (R387). -/
  | keycmdRandom (slot : BitVec 9)
  /-- `HOLD_SET`: HOLD := 1 (R405). -/
  | holdSet (part : BitVec 4)
  /-- `HOLD_CLEAR`: HOLD := 0 (R405). -/
  | holdClear (part : BitVec 4)
  /-- `ATTEST`: management command 0x06 (R392). -/
  | attest (nonce : BitVec 256)
  /-- `WRITE_CONFIGURATION_RECORD`: management command 0x07 (R391). -/
  | writeConfigurationRecord (r : ConfigRecord)
  /-- `CYCLE`: a cycle of core `c` starts (R336, R375). -/
  | cycle (c : CoreRef)
  /-- `HOST_INVALIDATION`: the host requests an invalidation (R218). -/
  | hostInvalidation (part : BitVec 4) (r : InvRange)
  /-- `SENSOR_READING`: new sensor readings (R368). -/
  | sensorReading (readings : List (BitVec 8))
  /-- `KEY_SLOT_CHANGE`: the memory controllers switch a key slot (R388). -/
  | keySlotChange (slot : BitVec 9)
  /-- `RECORD_TAKE`: the caravan master takes one ready record (R93). -/
  | recordTake
  /-- `BAND_RISE`: the band rises (R368). -/
  | bandRise
  /-- `BAND_FALL`: the band falls one step (R368). -/
  | bandFall
  /-- `POWER_UP`: power-up (R371). -/
  | powerUp
  /-- `SOAK_END`: 600 s of soak have passed (R371). -/
  | soakEnd
  /-- `ENABLE_COMPUTE`: the host driver enables compute (R371). -/
  | enableCompute
  /-- `EXCURSION_SAVED`: every team is saved (R371). -/
  | excursionSaved
  /-- `WARMING_DONE`: warming is done (R371). -/
  | warmingDone
  /-- `AGEING_REPLAN`: margins are re-planned (R378). -/
  | ageingReplan
  /-- `PACKAGE_RESET`: package reset (R184). -/
  | packageReset
  /-- `READ_SENSORS`: management command 0x01 (R390). -/
  | readSensors
  /-- `READ_BAND_AND_STATE`: management command 0x02 (R390). -/
  | readBandAndState
  /-- `READ_MANAGEMENT_LOG`: management command 0x03 (R390). -/
  | readManagementLog
  /-- `READ_UNIT_MAP`: management command 0x04 (R390). -/
  | readUnitMap
  /-- `WARM_UP`: management command 0x05 (R371, R390). -/
  | warmUp
  deriving DecidableEq, Repr

end Sys2Proof
end

