-- ==== Sys2Proof/WellFormed.lean ====
section
/-! DEFINITION. Well-formed instructions: what the spec asks of operands beside their kinds, one check for each. -/
namespace Sys2Proof

/-- The static checks of an instruction's operands, by the condition of R32 they belong to; a check the spec does not make is true. -/
structure Checks where
  /-- Condition 11, reason 0x02. -/
  operand : Bool := true
  /-- Condition 12, reason 0x04. -/
  flag : Bool := true
  /-- Condition 13, reason 0x08. -/
  elementType : Bool := true
  /-- Condition 14, reason 0x03, for what does not depend on the warp. -/
  register : Bool := true
  deriving DecidableEq, Repr

/-- The element types that each atomic operation takes in `ATOM` (11_atomics_and_ordering.md R247, Table 4). -/
def AtomOp.etOk (op : AtomOp) (et : ET) : Bool :=
  match op with
  | .swap | .ld | .st => et == .int32 || et == .uint32 || et == .fp32 || et == .int64
  | .add | .and | .or | .xor | .mins | .minu | .maxs | .maxu => et == .int32 || et == .uint32 || et == .int64
  | .fadd => et == .fp32 || et == .bf16
  | .fmin | .fmax => et == .fp32

/-- The conditions of Table 4 of R247 and of the RM column of R246 on an atomic's other fields. -/
def atomOperands (op : AtomOp) (ord : Ord4) (md : Mode) (d b : BitVec 6) (fs : FSel) : Bool :=
  (md == .rne || op == .fadd) &&
  (match op with
  | .ld => b == 0#6 && (ord == .rlx || ord == .acq)
  | .st => d == 0#6 && fs == .none && (ord == .rlx || ord == .rel)
  | .swap | .add | .and | .or | .xor | .mins | .minu | .maxs | .maxu | .fadd | .fmin | .fmax => true)

/-- The pairings of `CPYTRAIN` (12_copies.md R260). -/
def TrainOp.etOk (op : TrainOp) (et : ET) : Bool :=
  match op with
  | .st => et == .int32 || et == .uint32 || et == .fp32 || et == .int64
  | .add => et == .int32 || et == .uint32 || et == .int64
  | .fadd => et == .fp32

/-- The accepted pairs of `VCVT` (06_numbers_and_float.md R146, Table 11). -/
def cvtPair (src dst : ET) : Bool :=
  ((src.isF || src.isNarrowF) && (dst.isF || dst.isNarrowF) && src != dst) ||
  (src == .fp32 && dst == .sc12) || (src == .sc12 && dst == .fp32) ||
  (src.isCvtInt && dst.isF) || (src.isF && dst.isCvtInt)

/-- The type pairs of `TSET` (13_matrix_grants_and_engine.md R284). -/
def tilePair (aty bty : ET) : Bool :=
  (aty.isTileFloat && bty.isTileFloat) || (aty.isTileInt && bty.isTileInt)

/-- The block codes of `TSET`: 6 and 7 are refused, and a code other than 0 needs a narrow floating operand (R284). -/
def tileBlock (aty bty : ET) (blk : BitVec 3) : Bool :=
  blk.toNat ≤ 5 && (blk == 0#3 || aty.isNarrowF || bty.isNarrowF)

/-- The element types of `STRDEF` (09_loads_stores_streams.md R202). -/
def StreamImm.etOk (si : StreamImm) : Bool :=
  si.et != .int64 && (si.unit || 8 ≤ si.et.width)

/-- What the spec asks of the operands of each instruction, beside what their types say: the rules are those the constructors of `Instr` name. -/
def operandChecks : Instr → Checks
  | .mov _ _ _ => {}
  | .movi _ _ => {}
  | .movhi _ _ _ => {}
  | .adrc _ _ => {}
  | .add _ _ _ => {}
  | .addi _ _ _ => {}
  | .sub _ _ _ => {}
  | .mul _ _ _ => {}
  | .mulhi _ _ _ _ => {}
  | .div _ _ _ _ _ => {}
  | .rem _ _ _ _ _ => {}
  | .and _ _ _ => {}
  | .andi _ _ _ => {}
  | .or _ _ _ => {}
  | .ori _ _ _ => {}
  | .xor _ _ _ => {}
  | .xori _ _ _ => {}
  | .shl _ _ _ => {}
  | .shr _ _ _ => {}
  | .sar _ _ _ => {}
  | .shli _ _ _ => {}
  | .shri _ _ _ => {}
  | .sari _ _ _ => {}
  | .clz _ _ => {}
  | .popc _ _ => {}
  | .min _ _ _ _ => {}
  | .max _ _ _ _ => {}
  | .cmp _ _ _ _ => {}
  | .cmpi _ _ _ _ => {}
  | .sel _ _ _ _ => {}
  | .nop => {}
  | .br _ => {}
  | .brc _ _ _ _ => {}
  | .brz _ _ => {}
  | .brnz _ _ => {}
  | .call _ => {}
  | .callr _ => {}
  | .ret => {}
  | .jmpr _ => {}
  | .getid _ _ => {}
  | .tgrow _ _ => {}
  | .tleave => {}
  | .tstat _ => {}
  | .bararv _ => {}
  | .barwait _ => {}
  | .barsync _ => {}
  | .barmask _ => {}
  | .wsync _ _ => {}
  | .vfork _ _ => {}
  | .ljoin => {}
  | .klaunch _ _ _ => {}
  | .yield => {}
  | .setvl _ _ et blk _ => { operand := blk.toNat ≤ 5, elementType := et != .int64 }
  | .svloop _ _ => {}
  | .getvl _ _ => {}
  | .mand _ _ _ => {}
  | .mor _ _ _ => {}
  | .mxor _ _ _ => {}
  | .mandn _ _ _ => {}
  | .mnot _ _ => {}
  | .mmov _ _ => {}
  | .mset sel _ a => { operand := sel == .lt || a == 0#6 }
  | .mpopc _ _ => {}
  | .mfirst _ _ => {}
  | .vadd _ _ et _ _ _ => { elementType := et.isInt }
  | .vadds _ _ et _ _ _ => { elementType := et.isInt }
  | .vsub _ _ et _ _ _ => { elementType := et.isInt }
  | .vsubs _ _ et _ _ _ => { elementType := et.isInt }
  | .vmul _ _ et _ _ _ => { elementType := et.isInt }
  | .vmulhi _ _ et _ _ _ => { elementType := et.isInt }
  | .vmad _ _ et _ _ _ _ => { elementType := et.isInt }
  | .vmin _ _ et _ _ _ => { elementType := et.isInt }
  | .vmax _ _ et _ _ _ => { elementType := et.isInt }
  | .vabs _ _ _ et _ _ => { elementType := et.isSigned }
  | .vand _ _ et _ _ _ => { elementType := et != .int64 }
  | .vor _ _ et _ _ _ => { elementType := et != .int64 }
  | .vxor _ _ et _ _ _ => { elementType := et != .int64 }
  | .vshl _ _ et _ _ _ => { elementType := et.isInt }
  | .vshr _ _ et _ _ _ => { elementType := et.isInt }
  | .vsar _ _ et _ _ _ => { elementType := et.isInt }
  | .vcmp _ _ _ et _ _ _ => { elementType := et.isInt }
  | .vmrg _ et _ _ _ => { elementType := et != .int64 }
  | .vwid _ _ src et _ _ => { operand := src.isInt, elementType := et.isInt && src.width < et.width }
  | .vsatn _ _ src et _ _ => { operand := src.isInt, elementType := et.isInt && et.width < src.width }
  | .viota _ _ byMask et _ a => { operand := byMask || a == 0#3, elementType := et.isInt }
  | .vbcs _ _ et _ _ => { elementType := et != .int64 }
  | .vpopc _ _ et _ _ => { elementType := et.isInt }
  | .vaddi _ _ _ _ _ => {}
  | .vclz _ _ et _ _ => { elementType := et.isInt }
  | .vfadd _ _ _ et _ _ _ => { elementType := et.isF }
  | .vfsub _ _ _ et _ _ _ => { elementType := et.isF }
  | .vfmul _ _ _ et _ _ _ => { elementType := et.isF }
  | .vfma _ _ _ et _ _ _ _ => { elementType := et.isF }
  | .vfnma _ _ _ et _ _ _ _ => { elementType := et.isF }
  | .vfmin _ _ et _ _ _ => { elementType := et.isF }
  | .vfmax _ _ et _ _ _ => { elementType := et.isF }
  | .vfdiv _ _ _ _ et _ _ _ => { elementType := et.isF }
  | .vfsqrt _ _ _ _ et _ _ => { elementType := et.isF }
  | .vfrsq _ _ _ _ et _ _ => { elementType := et.isF }
  | .vfrcp _ _ _ _ et _ _ => { elementType := et.isF }
  | .vfexp2 _ _ _ _ et _ _ => { elementType := et.isF }
  | .vflog2 _ _ _ _ et _ _ => { elementType := et.isF }
  | .vfcmp _ _ _ et _ _ _ => { elementType := et.isF }
  | .vfclass _ _ et _ _ => { elementType := et.isF }
  | .vcvt _ _ _ nsat src et _ _ => { operand := !nsat || et.isNarrowF, elementType := cvtPair src et }
  | .vqnt _ src et _ _ _ => { operand := src.isF, elementType := et.isNarrowF }
  | .vdqnt _ _ _ src et _ _ _ => { operand := src.isNarrowF, elementType := et.isF }
  | .vfabs _ _ et _ _ => { elementType := et.isF }
  | .vperm _ _ et _ _ _ => { elementType := et != .int64 }
  | .vslup _ _ et _ _ _ => { elementType := et != .int64 }
  | .vsldn _ _ et _ _ _ => { elementType := et != .int64 }
  | .vbcast _ _ et _ _ _ => { elementType := et != .int64 }
  | .vcmprs et _ _ _ => { elementType := et != .int64 }
  | .vexpnd et _ _ _ => { elementType := et != .int64 }
  | .vtr8 _ _ et d a => { elementType := et != .int64, register := d.toNat % 8 == 0 && a.toNat % 8 == 0 }
  | .vredsum _ md et _ _ => { operand := et.isF || md == .rne, elementType := (et.isInt || et.isF) }
  | .vredmax _ et _ _ => { elementType := (et.isInt || et.isF) }
  | .vredmin _ et _ _ => { elementType := (et.isInt || et.isF) }
  | .vscan _ _ md op et _ _ => { operand := md == .rne || (et.isF && op == .add), elementType := (et.isInt || et.isF) }
  | .vextr et _ _ _ => { elementType := et != .int64 }
  | .vins et _ _ _ => { elementType := et != .int64 }
  | .lds _ et _ _ _ _ => { elementType := et.isScalarMem }
  | .sts et _ _ _ _ => { elementType := et.isScalarMem }
  | .vld _ _ _ et _ _ _ _ => { elementType := et != .int64 }
  | .vst _ et _ _ _ _ => { elementType := et != .int64 }
  | .vlds _ _ _ et _ _ _ _ _ => { elementType := et.isStrided }
  | .vsts _ et _ _ _ _ _ => { elementType := et.isStrided }
  | .vldx _ _ _ et _ _ _ _ _ => { elementType := et.isStrided }
  | .vstx _ et _ _ _ _ _ => { elementType := et.isStrided }
  | .strdef si _ _ b => { operand := !si.unit || b == 0#6, elementType := si.etOk }
  | .vldst _ _ _ _ _ _ => {}
  | .vstst _ _ _ _ => {}
  | .pref _ _ _ => {}
  | .atom fs op ord md et d _ b => { operand := atomOperands op ord md d b fs, flag := fs == .none || d != 0#6, elementType := op.etOk et }
  | .vatom fs _ _ op ord md et d _ b _ => { operand := atomOperands op ord md d b fs, elementType := (op.etOk et && et != .int64) }
  | .cas fs _ et d _ _ _ => { flag := fs == .none || d != 0#6, elementType := (et == .int32 || et == .uint32 || et == .fp32 || et == .int64) }
  | .vcas _ _ _ _ et _ _ _ _ => { elementType := (et == .int32 || et == .uint32 || et == .fp32) }
  | .redord _ _ _ _ _ => {}
  | .fence _ _ => {}
  | .cpyboxIn _ _ _ _ _ _ => {}
  | .cpyboxOut _ _ _ _ _ _ => {}
  | .cpya _ _ _ _ _ _ => {}
  | .cpyb _ _ _ _ _ _ => {}
  | .cpytrain _ op et _ _ _ _ => { elementType := op.etOk et }
  | .cwait _ _ => {}
  | .cstat sel _ a _ => { operand := sel == .id || a == 0#6 }
  | .cstatClr _ _ => {}
  | .ten => {}
  | .tdis => {}
  | .tset _ _ _ aty bty blk => { operand := tileBlock aty bty blk, elementType := tilePair aty bty }
  | .tgrant _ _ => {}
  | .tzero _ => {}
  | .tldb _ _ _ _ => {}
  | .tmma _ _ _ => {}
  | .tmmas _ _ _ _ => {}
  | .tcsclLd _ _ _ => {}
  | .tcsclOne _ _ => {}
  | .tslv _ _ _ _ nsat et _ _ _ => { operand := !nsat || et.isF8, elementType := et.isDrain }
  | .tsvl _ _ _ et _ _ _ => { elementType := (et == .int32 || et == .fp32) }
  | .tstr _ _ tm _ nsat et _ _ _ c => { operand := (!nsat || et.isF8) && (tm != .u || c == 0#6), elementType := et.isDrain }
  | .tsave _ _ _ => {}
  | .tload _ _ _ => {}
  | .trap _ => {}
  | .eret => {}
  | .getsr _ _ => {}
  | .setsr _ _ => {}
  | .cacheClean _ => {}
  | .cacheFlush _ => {}
  | .cacheInv _ => {}
  | .icinvRange _ _ => {}
  | .icinvAll => {}
  | .xlinvVa _ _ => {}
  | .xlinvAll => {}
  | .lease _ _ => {}
  | .haltWarp => {}
  | .haltTeam _ => {}
  | .clauseStart => {}
  | .instructionCompletion _ _ => {}
  | .urgent _ => {}
  | .classGroupClose _ => {}
  | .preemptionRequest _ => {}
  | .forcedFullSave _ => {}
  | .teamSave _ => {}
  | .teamResume _ => {}
  | .shrinkRequest _ _ => {}
  | .schedulerAttach _ => {}
  | .milestoneFire _ => {}
  | .tailObserved _ _ => {}
  | .queueDisableWrite _ _ => {}
  | .queueEnableWrite _ _ => {}
  | .teamPlacement _ => {}
  | .teamComplete _ => {}
  | .hostKill _ => {}
  | .lineArrival _ => {}
  | .runAhead _ _ => {}
  | .redordUnpark _ => {}
  | .fqresp _ _ _ => {}
  | .prresp _ _ _ => {}
  | .faultReissue _ _ => {}
  | .fqheadWrite _ _ => {}
  | .prqheadWrite _ _ => {}
  | .wbrheadWrite _ _ => {}
  | .errheadWrite _ _ => {}
  | .invalidationComplete _ => {}
  | .copySegment _ => {}
  | .copyResume _ => {}
  | .copyComplete _ => {}
  | .trainDelivery _ => {}
  | .baleWholeWrite _ _ _ _ => {}
  | .baleMerge _ _ _ _ => {}
  | .baleRead _ _ => {}
  | .uncorrectableEviction _ => {}
  | .patrolScrub _ => {}
  | .train _ => {}
  | .tollSettingChange _ _ _ => {}
  | .poolFill _ _ => {}
  | .hostWindowAccess _ => {}
  | .peerRequest _ => {}
  | .linkFailure _ => {}
  | .linkRecovery _ => {}
  | .keyRangeWrite _ _ => {}
  | .addressRegisterWrite _ _ _ _ => {}
  | .registerWrite _ _ _ _ => {}
  | .keycmdLoad _ => {}
  | .keycmdRandom _ => {}
  | .holdSet _ => {}
  | .holdClear _ => {}
  | .attest _ => {}
  | .writeConfigurationRecord _ => {}
  | .cycle _ => {}
  | .hostInvalidation _ _ => {}
  | .sensorReading _ => {}
  | .keySlotChange _ => {}
  | .recordTake => {}
  | .bandRise => {}
  | .bandFall => {}
  | .powerUp => {}
  | .soakEnd => {}
  | .enableCompute => {}
  | .excursionSaved => {}
  | .warmingDone => {}
  | .ageingReplan => {}
  | .packageReset => {}
  | .readSensors => {}
  | .readBandAndState => {}
  | .readManagementLog => {}
  | .readUnitMap => {}
  | .warmUp => {}

/-- An instruction is well formed when each of its static checks holds. -/
def Instr.wf (i : Instr) : Bool :=
  (operandChecks i).operand && (operandChecks i).flag && (operandChecks i).elementType && (operandChecks i).register

end Sys2Proof
end

