-- ==== Sys2Proof/Decode.lean ====
section
/-! DEFINITION. The decoder, total on every word and rejecting by name (02_words_and_registers.md R25–R32, R50), and after it the encoder, written from the same tables. -/
namespace Sys2Proof

/-- The reasons of the illegal-instruction trap (R32, R335, R337, R155, R148, R204). -/
inductive IllegalReason where
  /-- 0x01: a reserved opcode. -/
  | opcode
  /-- 0x02: a nonzero field that must be zero, or an unlisted value. -/
  | operand
  /-- 0x03: a register number outside the allocation, or a misaligned group. -/
  | register
  /-- 0x04: a flag select that is not allowed. -/
  | flag
  /-- 0x05: a control transfer before the last word of its clause. -/
  | position
  /-- 0x06: a word with OP = 0xF8. -/
  | marker
  /-- 0x07: more than 16 pending destinations. -/
  | pending
  /-- 0x08: an element type that is not accepted. -/
  | elementType
  /-- 0x09: a word that is not permitted in lane mode, or not outside it. -/
  | laneMode
  /-- 0x0A: `VQNT` or `VDQNT` on a strip without blocks. -/
  | noBlocks
  /-- 0x0B: a `SETVL` whose block does not fit. -/
  | blockFit
  /-- 0x0C: a stream that is undefined or of the other direction. -/
  | stream
  /-- 0x0D: a privileged word or register without privilege. -/
  | privilege
  /-- 0x0E: an unassigned system-register number. -/
  | sysreg
  deriving DecidableEq, Repr

/-- The reason codes of the illegal-instruction trap (R32, Table 5). -/
def IllegalReason.code : IllegalReason → BitVec 8
  | .opcode => 0x01#8 | .operand => 0x02#8 | .register => 0x03#8 | .flag => 0x04#8
  | .position => 0x05#8 | .marker => 0x06#8 | .pending => 0x07#8 | .elementType => 0x08#8
  | .laneMode => 0x09#8 | .noBlocks => 0x0A#8 | .blockFit => 0x0B#8 | .stream => 0x0C#8
  | .privilege => 0x0D#8 | .sysreg => 0x0E#8

/-! ## The codes of the operand fields -/

/-- FS (R25); the reserved value 3 is refused by `flagAllowed`. -/
def fselOf (v : BitVec 2) : FSel :=
  if v == 0#2 then .none else if v == 1#2 then .a else .b

def FSel.code : FSel → BitVec 2
  | .none => 0#2 | .a => 1#2 | .b => 2#2

/-- ET (R46, Table 9). -/
def ET.code : ET → BitVec 4
  | .int32 => 0#4 | .uint32 => 1#4 | .int16 => 2#4 | .uint16 => 3#4
  | .int8 => 4#4 | .uint8 => 5#4 | .int4 => 6#4 | .int2 => 7#4
  | .fp32 => 8#4 | .bf16 => 9#4 | .fp16 => 10#4 | .e4m3 => 11#4
  | .e5m2 => 12#4 | .e2m1 => 13#4 | .sc12 => 14#4 | .int64 => 15#4

def ET.ofCode (v : BitVec 4) : ET :=
  match v.toNat with
  | 0 => .int32 | 1 => .uint32 | 2 => .int16 | 3 => .uint16
  | 4 => .int8 | 5 => .uint8 | 6 => .int4 | 7 => .int2
  | 8 => .fp32 | 9 => .bf16 | 10 => .fp16 | 11 => .e4m3
  | 12 => .e5m2 | 13 => .e2m1 | 14 => .sc12 | _ => .int64

/-- MODE in bits [1:0] of a four-bit RM field (R27, Table 3). -/
def Mode.ofRm (v : BitVec 4) : Mode :=
  match v.toNat % 4 with
  | 0 => .rne | 1 => .rz | 2 => .ru | _ => .rd

def Mode.rm : Mode → BitVec 4
  | .rne => 0#4 | .rz => 1#4 | .ru => 2#4 | .rd => 3#4

/-- A condition code (R73); values above 5 are refused before this is read. -/
def Cond.ofCode (v : BitVec 6) : Cond :=
  match v.toNat with
  | 0 => .eq | 1 => .ne | 2 => .lt | 3 => .le | 4 => .ltu | _ => .leu

def Cond.code : Cond → BitVec 6
  | .eq => 0#6 | .ne => 1#6 | .lt => 2#6 | .le => 3#6 | .ltu => 4#6 | .leu => 5#6

def Sgn.ofCode (v : BitVec 6) : Sgn := if v == 0#6 then .signed else .unsigned

def Sgn.code : Sgn → BitVec 6
  | .signed => 0#6 | .unsigned => 1#6

def GetIdSel.ofCode (v : BitVec 6) : GetIdSel :=
  match v.toNat with
  | 0 => .tx | 1 => .ty | 2 => .tz | 3 => .gx | 4 => .gy | 5 => .gz | 6 => .warp | _ => .team

def GetIdSel.code : GetIdSel → BitVec 6
  | .tx => 0#6 | .ty => 1#6 | .tz => 2#6 | .gx => 3#6 | .gy => 4#6 | .gz => 5#6 | .warp => 6#6 | .team => 7#6

def GetVlSel.ofCode (v : BitVec 6) : GetVlSel :=
  match v.toNat with
  | 0 => .vl | 1 => .pad | 2 => .max | 3 => .cap | 4 => .desc | _ => .start

def GetVlSel.code : GetVlSel → BitVec 6
  | .vl => 0#6 | .pad => 1#6 | .max => 2#6 | .cap => 3#6 | .desc => 4#6 | .start => 5#6

def MsetSel.ofCode (v : BitVec 6) : MsetSel :=
  match v.toNat with
  | 0 => .lt | 1 => .all | 2 => .none | _ => .live

def MsetSel.code : MsetSel → BitVec 6
  | .lt => 0#6 | .all => 1#6 | .none => 2#6 | .live => 3#6

/-- The conditions of `VFCMP` (R144). -/
def FCond.ofCode (v : BitVec 6) : FCond :=
  match v.toNat with
  | 0 => .eq | 1 => .ne | 2 => .lt | 3 => .le | 4 => .un | _ => .or

def FCond.code : FCond → BitVec 6
  | .eq => 0#6 | .ne => 1#6 | .lt => 2#6 | .le => 3#6 | .un => 4#6 | .or => 5#6

def ScanOp.ofCode (v : BitVec 6) : ScanOp :=
  match v.toNat with
  | 0 => .add | 1 => .max | _ => .min

def ScanOp.code : ScanOp → BitVec 6
  | .add => 0#6 | .max => 1#6 | .min => 2#6

def AtomOp.ofCode (v : BitVec 4) : AtomOp :=
  match v.toNat with
  | 0 => .swap | 1 => .add | 2 => .and | 3 => .or | 4 => .xor | 5 => .mins | 6 => .minu
  | 7 => .maxs | 8 => .maxu | 9 => .fadd | 10 => .fmin | 11 => .fmax | 12 => .ld | _ => .st

def AtomOp.code : AtomOp → BitVec 4
  | .swap => 0#4 | .add => 1#4 | .and => 2#4 | .or => 3#4 | .xor => 4#4 | .mins => 5#4 | .minu => 6#4
  | .maxs => 7#4 | .maxu => 8#4 | .fadd => 9#4 | .fmin => 10#4 | .fmax => 11#4 | .ld => 12#4 | .st => 13#4

def Ord4.ofCode (v : BitVec 2) : Ord4 :=
  match v.toNat with
  | 0 => .rlx | 1 => .acq | 2 => .rel | _ => .ar

def Ord4.code : Ord4 → BitVec 2
  | .rlx => 0#2 | .acq => 1#2 | .rel => 2#2 | .ar => 3#2

/-- The FN field of `ATOM` and `VATOM`: OP · 4 + ORD (R246). -/
def atomFn (op : AtomOp) (ord : Ord4) : BitVec 6 := op.code ++ ord.code

/-- The kind of a fence in FN [21:20] (R246); kind 0 is refused before this is read. -/
def FenceKind.ofCode (v : BitVec 2) : FenceKind :=
  match v.toNat with
  | 0 => .acq | 1 => .acq | 2 => .rel | _ => .full

def FenceKind.code : FenceKind → BitVec 2
  | .acq => 1#2 | .rel => 2#2 | .full => 3#2

/-- The scope of a fence in FN [24:22] (R246, R233); 6 and 7 are refused before this is read. -/
def Scope.ofCode (v : BitVec 4) : Scope :=
  match v.toNat with
  | 0 => .lane | 1 => .warp | 2 => .team | 3 => .cluster | 4 => .dev | _ => .sys

def Scope.code : Scope → BitVec 4
  | .lane => 0#4 | .warp => 1#4 | .team => 2#4 | .cluster => 3#4 | .dev => 4#4 | .sys => 5#4

/-- The FN field of `FENCE`: scope · 4 + kind (R246). -/
def fenceFn (k : FenceKind) (sc : Scope) : BitVec 6 := sc.code ++ k.code

/-- The listed FN values of `FENCE`: kind 1 to 3, scope 0 to 5, bit [25] zero (R246). -/
def fenceListed (fn : BitVec 6) : Bool := fn.toNat % 4 != 0 && fn.toNat / 4 ≤ 5

def TrainOp.ofCode (v : BitVec 3) : TrainOp :=
  match v.toNat with
  | 0 => .st | 1 => .add | _ => .fadd

def TrainOp.code : TrainOp → BitVec 3
  | .st => 0#3 | .add => 1#3 | .fadd => 2#3

def CstatSel.ofCode (v : BitVec 3) : CstatSel :=
  match v.toNat with
  | 0 => .id | 1 => .c | 2 => .next | _ => .err

def CstatSel.code : CstatSel → BitVec 3
  | .id => 0#3 | .c => 1#3 | .next => 2#3 | .err => 3#3

def TstrMode.ofCode (v : BitVec 3) : TstrMode :=
  match v.toNat with
  | 0 => .u | 1 => .s | _ => .x

def TstrMode.code : TstrMode → BitVec 3
  | .u => 0#3 | .s => 1#3 | .x => 2#3

/-- The STRDEF immediate (R202, Table 8): COUNT [31:9], UNIT [8], zero [7], DIR [6], DEPTH [5:4], ET [3:0]. -/
def StreamImm.ofBits (v : BitVec 32) : StreamImm :=
  { count := v.extractLsb' 9 23, unit := v.getLsbD 8, store := v.getLsbD 6,
    depth := v.extractLsb' 4 2, et := ET.ofCode (v.extractLsb' 0 4) }

def StreamImm.bits (si : StreamImm) : BitVec 32 :=
  si.count ++ BitVec.ofBool si.unit ++ 0#1 ++ BitVec.ofBool si.store ++ si.depth ++ si.et.code

/-- The SETVL immediate (R154): group code [8:7], block code [6:4], ET [3:0]. -/
def StripImm.bits (et : ET) (blk : BitVec 3) (grp : BitVec 2) : BitVec 32 :=
  0#23 ++ grp ++ blk ++ et.code

/-- The TSET immediate (R283): block code [10:8], B type [7:4], A type [3:0]. -/
def tsetImm (aty bty : ET) (blk : BitVec 3) : BitVec 16 := 0#5 ++ blk ++ bty.code ++ aty.code

/-- IMM16 of the drains carries RM (R306): bit [15] and bits [11:0] are zero. -/
def immRound (imm : BitVec 16) : Bool := imm.getLsbD 15 == false && imm.extractLsb' 0 12 == 0#12

def roundImm (md : Mode) (nsat : Bool) : BitVec 16 := 0#1 ++ BitVec.ofBool nsat ++ md.rm.extractLsb' 0 2 ++ 0#12

/-- The RM field of `VCVT`: NSAT in bit [14], MODE in bits [13:12] (R27). -/
def convRm (md : Mode) (nsat : Bool) : BitVec 4 := 0#1 ++ BitVec.ofBool nsat ++ md.rm.extractLsb' 0 2

/-- The FN field of `VQNT`: the source type, plus 16 for T (R139). -/
def vqntFn (tr : Bool) (src : ET) : BitVec 6 := 0#1 ++ BitVec.ofBool tr ++ src.code

/-- A variant bit held in FN. -/
def flagFn (b : Bool) : BitVec 6 := if b then 1#6 else 0#6

def flagFn3 (b : Bool) : BitVec 3 := if b then 1#3 else 0#3

/-- A mask, stream or slot number in a six-bit field (R27). -/
def wide (n : BitVec 3) : BitVec 6 := n.setWidth 6

def low3 (n : BitVec 6) : BitVec 3 := n.setWidth 3

/-! ## The layout of a word (R25, R26) -/

/-- Bits [63:32] of a word, and bits [31:0] whole (R25, Table 1). -/
structure Head where
  ofFields ::
  op : BitVec 8
  fs : BitVec 2 := 0#2
  mk : BitVec 3 := 0#3
  mz : BitVec 1 := 0#1
  d : BitVec 6 := 0#6
  a : BitVec 6 := 0#6
  b : BitVec 6 := 0#6
  low : BitVec 32 := 0#32
  deriving DecidableEq, Repr

def Head.ofBits (w : BitVec 64) : Head :=
  { op := w.extractLsb' 56 8, fs := w.extractLsb' 54 2, mk := w.extractLsb' 51 3, mz := w.extractLsb' 50 1,
    d := w.extractLsb' 44 6, a := w.extractLsb' 38 6, b := w.extractLsb' 32 6, low := w.extractLsb' 0 32 }

def Head.toBits (h : Head) : BitVec 64 :=
  h.op ++ h.fs ++ h.mk ++ h.mz ++ h.d ++ h.a ++ h.b ++ h.low

/-- Form R (R26, Table 2): C, FN, ET, RM, twelve zeros. -/
structure RLow where
  c : BitVec 6 := 0#6
  fn : BitVec 6 := 0#6
  et : BitVec 4 := 0#4
  rm : BitVec 4 := 0#4
  z : BitVec 12 := 0#12
  deriving DecidableEq, Repr

def RLow.ofBits (v : BitVec 32) : RLow :=
  { c := v.extractLsb' 26 6, fn := v.extractLsb' 20 6, et := v.extractLsb' 16 4, rm := v.extractLsb' 12 4, z := v.extractLsb' 0 12 }

def RLow.toBits (l : RLow) : BitVec 32 := l.c ++ l.fn ++ l.et ++ l.rm ++ l.z

/-- Form M (R26, Table 2): C, two zeros, ET, CH, OFF. -/
structure MLow where
  c : BitVec 6 := 0#6
  z : BitVec 2 := 0#2
  et : BitVec 4 := 0#4
  ch : BitVec 4 := 0#4
  off : BitVec 16 := 0#16
  deriving DecidableEq, Repr

def MLow.ofBits (v : BitVec 32) : MLow :=
  { c := v.extractLsb' 26 6, z := v.extractLsb' 24 2, et := v.extractLsb' 20 4, ch := v.extractLsb' 16 4, off := v.extractLsb' 0 16 }

def MLow.toBits (l : MLow) : BitVec 32 := l.c ++ l.z ++ l.et ++ l.ch ++ l.off

/-- Form T (R26, Table 2): C, TS, FN, ET, IMM16. -/
structure TLow where
  c : BitVec 6 := 0#6
  ts : BitVec 3 := 0#3
  fn : BitVec 3 := 0#3
  et : BitVec 4 := 0#4
  imm : BitVec 16 := 0#16
  deriving DecidableEq, Repr

def TLow.ofBits (v : BitVec 32) : TLow :=
  { c := v.extractLsb' 26 6, ts := v.extractLsb' 23 3, fn := v.extractLsb' 20 3, et := v.extractLsb' 16 4, imm := v.extractLsb' 0 16 }

def TLow.toBits (l : TLow) : BitVec 32 := l.c ++ l.ts ++ l.fn ++ l.et ++ l.imm

/-- A word whose opcode is assigned, before its checks. -/
structure Parsed where
  /-- Every field that must be zero is zero, and every field holds a listed value (condition 11). -/
  operands : Bool
  /-- The instruction the fields give. -/
  instr : Instr
  /-- The instruction has a flag select (R34). -/
  flagged : Bool := false
  /-- An element type field with one accepted value holds it. -/
  typed : Bool := true
  /-- Mask and stream fields lie in 0–7 (R27). -/
  small : Bool := true

/-! ## The words, in the order of the opcode map (R50) -/

/-- The word of `MOV`, opcode 0x01, form R (R75, R84). -/
def wordMov (h : Head) : Parsed :=
  let l := RLow.ofBits h.low
  { operands := h.b == 0#6 && h.mk == 0#3 && h.mz == 0#1 && l.z == 0#12 && l.c == 0#6 && l.et == 0#4 && l.rm == 0#4 && l.fn.toNat ≤ 1, instr := .mov (l.fn == 1#6) h.d h.a }

/-- The word of `MOVI`, opcode 0x02, form I (R75). -/
def wordMovi (h : Head) : Parsed :=
  { operands := h.a == 0#6 && h.b == 0#6 && h.mk == 0#3 && h.mz == 0#1, instr := .movi h.d h.low }

/-- The word of `MOVHI`, opcode 0x03, form I (R75). -/
def wordMovhi (h : Head) : Parsed :=
  { operands := h.b == 0#6 && h.mk == 0#3 && h.mz == 0#1, instr := .movhi h.d h.a h.low }

/-- The word of `ADRC`, opcode 0x04, form I (R75). -/
def wordAdrc (h : Head) : Parsed :=
  { operands := h.a == 0#6 && h.b == 0#6 && h.mk == 0#3 && h.mz == 0#1, instr := .adrc h.d h.low }

/-- The word of `ADD`, opcode 0x05, form R (R76). -/
def wordAdd (h : Head) : Parsed :=
  let l := RLow.ofBits h.low
  { operands := h.mk == 0#3 && h.mz == 0#1 && l.z == 0#12 && l.c == 0#6 && l.fn == 0#6 && l.et == 0#4 && l.rm == 0#4, instr := .add h.d h.a h.b }

/-- The word of `ADDI`, opcode 0x06, form I (R76). -/
def wordAddi (h : Head) : Parsed :=
  { operands := h.b == 0#6 && h.mk == 0#3 && h.mz == 0#1, instr := .addi h.d h.a h.low }

/-- The word of `SUB`, opcode 0x07, form R (R76). -/
def wordSub (h : Head) : Parsed :=
  let l := RLow.ofBits h.low
  { operands := h.mk == 0#3 && h.mz == 0#1 && l.z == 0#12 && l.c == 0#6 && l.fn == 0#6 && l.et == 0#4 && l.rm == 0#4, instr := .sub h.d h.a h.b }

/-- The word of `MUL`, opcode 0x08, form R (R76). -/
def wordMul (h : Head) : Parsed :=
  let l := RLow.ofBits h.low
  { operands := h.mk == 0#3 && h.mz == 0#1 && l.z == 0#12 && l.c == 0#6 && l.fn == 0#6 && l.et == 0#4 && l.rm == 0#4, instr := .mul h.d h.a h.b }

/-- The word of `MULHI`, opcode 0x09, form R (R76). -/
def wordMulhi (h : Head) : Parsed :=
  let l := RLow.ofBits h.low
  { operands := h.mk == 0#3 && h.mz == 0#1 && l.z == 0#12 && l.c == 0#6 && l.et == 0#4 && l.rm == 0#4 && l.fn.toNat ≤ 1, instr := .mulhi (Sgn.ofCode l.fn) h.d h.a h.b }

/-- The word of `DIV`, opcode 0x0A, form R (R77). -/
def wordDiv (h : Head) : Parsed :=
  let l := RLow.ofBits h.low
  { operands := h.mk == 0#3 && h.mz == 0#1 && l.z == 0#12 && l.c == 0#6 && l.et == 0#4 && l.rm == 0#4 && l.fn.toNat ≤ 1, instr := .div (fselOf h.fs) (Sgn.ofCode l.fn) h.d h.a h.b, flagged := true }

/-- The word of `REM`, opcode 0x0B, form R (R77). -/
def wordRem (h : Head) : Parsed :=
  let l := RLow.ofBits h.low
  { operands := h.mk == 0#3 && h.mz == 0#1 && l.z == 0#12 && l.c == 0#6 && l.et == 0#4 && l.rm == 0#4 && l.fn.toNat ≤ 1, instr := .rem (fselOf h.fs) (Sgn.ofCode l.fn) h.d h.a h.b, flagged := true }

/-- The word of `AND`, opcode 0x0C, form R (R76). -/
def wordAnd (h : Head) : Parsed :=
  let l := RLow.ofBits h.low
  { operands := h.mk == 0#3 && h.mz == 0#1 && l.z == 0#12 && l.c == 0#6 && l.fn == 0#6 && l.et == 0#4 && l.rm == 0#4, instr := .and h.d h.a h.b }

/-- The word of `ANDI`, opcode 0x0D, form I (R76). -/
def wordAndi (h : Head) : Parsed :=
  { operands := h.b == 0#6 && h.mk == 0#3 && h.mz == 0#1, instr := .andi h.d h.a h.low }

/-- The word of `OR`, opcode 0x0E, form R (R76). -/
def wordOr (h : Head) : Parsed :=
  let l := RLow.ofBits h.low
  { operands := h.mk == 0#3 && h.mz == 0#1 && l.z == 0#12 && l.c == 0#6 && l.fn == 0#6 && l.et == 0#4 && l.rm == 0#4, instr := .or h.d h.a h.b }

/-- The word of `ORI`, opcode 0x0F, form I (R76). -/
def wordOri (h : Head) : Parsed :=
  { operands := h.b == 0#6 && h.mk == 0#3 && h.mz == 0#1, instr := .ori h.d h.a h.low }

/-- The word of `XOR`, opcode 0x10, form R (R76). -/
def wordXor (h : Head) : Parsed :=
  let l := RLow.ofBits h.low
  { operands := h.mk == 0#3 && h.mz == 0#1 && l.z == 0#12 && l.c == 0#6 && l.fn == 0#6 && l.et == 0#4 && l.rm == 0#4, instr := .xor h.d h.a h.b }

/-- The word of `XORI`, opcode 0x11, form I (R76). -/
def wordXori (h : Head) : Parsed :=
  { operands := h.b == 0#6 && h.mk == 0#3 && h.mz == 0#1, instr := .xori h.d h.a h.low }

/-- The word of `SHL`, opcode 0x12, form R (R76). -/
def wordShl (h : Head) : Parsed :=
  let l := RLow.ofBits h.low
  { operands := h.mk == 0#3 && h.mz == 0#1 && l.z == 0#12 && l.c == 0#6 && l.fn == 0#6 && l.et == 0#4 && l.rm == 0#4, instr := .shl h.d h.a h.b }

/-- The word of `SHR`, opcode 0x13, form R (R76). -/
def wordShr (h : Head) : Parsed :=
  let l := RLow.ofBits h.low
  { operands := h.mk == 0#3 && h.mz == 0#1 && l.z == 0#12 && l.c == 0#6 && l.fn == 0#6 && l.et == 0#4 && l.rm == 0#4, instr := .shr h.d h.a h.b }

/-- The word of `SAR`, opcode 0x14, form R (R76). -/
def wordSar (h : Head) : Parsed :=
  let l := RLow.ofBits h.low
  { operands := h.mk == 0#3 && h.mz == 0#1 && l.z == 0#12 && l.c == 0#6 && l.fn == 0#6 && l.et == 0#4 && l.rm == 0#4, instr := .sar h.d h.a h.b }

/-- The word of `SHLI`, opcode 0x15, form I (R76). -/
def wordShli (h : Head) : Parsed :=
  { operands := h.b == 0#6 && h.mk == 0#3 && h.mz == 0#1 && h.low.toNat < 64, instr := .shli h.d h.a (h.low.setWidth 6) }

/-- The word of `SHRI`, opcode 0x16, form I (R76). -/
def wordShri (h : Head) : Parsed :=
  { operands := h.b == 0#6 && h.mk == 0#3 && h.mz == 0#1 && h.low.toNat < 64, instr := .shri h.d h.a (h.low.setWidth 6) }

/-- The word of `SARI`, opcode 0x17, form I (R76). -/
def wordSari (h : Head) : Parsed :=
  { operands := h.b == 0#6 && h.mk == 0#3 && h.mz == 0#1 && h.low.toNat < 64, instr := .sari h.d h.a (h.low.setWidth 6) }

/-- The word of `CLZ`, opcode 0x18, form R (R76). -/
def wordClz (h : Head) : Parsed :=
  let l := RLow.ofBits h.low
  { operands := h.b == 0#6 && h.mk == 0#3 && h.mz == 0#1 && l.z == 0#12 && l.c == 0#6 && l.fn == 0#6 && l.et == 0#4 && l.rm == 0#4, instr := .clz h.d h.a }

/-- The word of `POPC`, opcode 0x19, form R (R76). -/
def wordPopc (h : Head) : Parsed :=
  let l := RLow.ofBits h.low
  { operands := h.b == 0#6 && h.mk == 0#3 && h.mz == 0#1 && l.z == 0#12 && l.c == 0#6 && l.fn == 0#6 && l.et == 0#4 && l.rm == 0#4, instr := .popc h.d h.a }

/-- The word of `MIN`, opcode 0x1A, form R (R76). -/
def wordMin (h : Head) : Parsed :=
  let l := RLow.ofBits h.low
  { operands := h.mk == 0#3 && h.mz == 0#1 && l.z == 0#12 && l.c == 0#6 && l.et == 0#4 && l.rm == 0#4 && l.fn.toNat ≤ 1, instr := .min (Sgn.ofCode l.fn) h.d h.a h.b }

/-- The word of `MAX`, opcode 0x1B, form R (R76). -/
def wordMax (h : Head) : Parsed :=
  let l := RLow.ofBits h.low
  { operands := h.mk == 0#3 && h.mz == 0#1 && l.z == 0#12 && l.c == 0#6 && l.et == 0#4 && l.rm == 0#4 && l.fn.toNat ≤ 1, instr := .max (Sgn.ofCode l.fn) h.d h.a h.b }

/-- The word of `CMP`, opcode 0x1C, form R (R78). -/
def wordCmp (h : Head) : Parsed :=
  let l := RLow.ofBits h.low
  { operands := h.mk == 0#3 && h.mz == 0#1 && l.z == 0#12 && l.c == 0#6 && l.et == 0#4 && l.rm == 0#4 && l.fn.toNat ≤ 5, instr := .cmp (Cond.ofCode l.fn) h.d h.a h.b }

/-- The word of `CMPI`, opcode 0x1D, form I (R78). -/
def wordCmpi (h : Head) : Parsed :=
  { operands := h.mk == 0#3 && h.mz == 0#1 && h.b.toNat ≤ 5, instr := .cmpi (Cond.ofCode h.b) h.d h.a h.low }

/-- The word of `SEL`, opcode 0x1E, form R (R78). -/
def wordSel (h : Head) : Parsed :=
  let l := RLow.ofBits h.low
  { operands := h.mk == 0#3 && h.mz == 0#1 && l.z == 0#12 && l.fn == 0#6 && l.et == 0#4 && l.rm == 0#4, instr := .sel h.d h.a h.b l.c }

/-- The word of `NOP`, opcode 0x1F, form R (R78). -/
def wordNop (h : Head) : Parsed :=
  let l := RLow.ofBits h.low
  { operands := h.d == 0#6 && h.a == 0#6 && h.b == 0#6 && h.mk == 0#3 && h.mz == 0#1 && l.z == 0#12 && l.c == 0#6 && l.fn == 0#6 && l.et == 0#4 && l.rm == 0#4, instr := .nop }

/-- The word of `BR`, opcode 0x20, form B (R79). -/
def wordBr (h : Head) : Parsed :=
  { operands := h.d == 0#6 && h.a == 0#6 && h.b == 0#6 && h.mk == 0#3 && h.mz == 0#1, instr := .br h.low }

/-- The word of `BRC`, opcode 0x21, form B (R79). -/
def wordBrc (h : Head) : Parsed :=
  { operands := h.mk == 0#3 && h.mz == 0#1 && h.d.toNat ≤ 5, instr := .brc (Cond.ofCode h.d) h.a h.b h.low }

/-- The word of `BRZ`, opcode 0x22, form B (R79). -/
def wordBrz (h : Head) : Parsed :=
  { operands := h.d == 0#6 && h.b == 0#6 && h.mk == 0#3 && h.mz == 0#1, instr := .brz h.a h.low }

/-- The word of `BRNZ`, opcode 0x23, form B (R79). -/
def wordBrnz (h : Head) : Parsed :=
  { operands := h.d == 0#6 && h.b == 0#6 && h.mk == 0#3 && h.mz == 0#1, instr := .brnz h.a h.low }

/-- The word of `CALL`, opcode 0x24, form B (R79). -/
def wordCall (h : Head) : Parsed :=
  { operands := h.d == 0#6 && h.a == 0#6 && h.b == 0#6 && h.mk == 0#3 && h.mz == 0#1, instr := .call h.low }

/-- The word of `CALLR`, opcode 0x25, form R (R79). -/
def wordCallr (h : Head) : Parsed :=
  let l := RLow.ofBits h.low
  { operands := h.d == 0#6 && h.b == 0#6 && h.mk == 0#3 && h.mz == 0#1 && l.z == 0#12 && l.c == 0#6 && l.fn == 0#6 && l.et == 0#4 && l.rm == 0#4, instr := .callr h.a }

/-- The word of `RET`, opcode 0x26, form R (R79). -/
def wordRet (h : Head) : Parsed :=
  let l := RLow.ofBits h.low
  { operands := h.d == 0#6 && h.a == 0#6 && h.b == 0#6 && h.mk == 0#3 && h.mz == 0#1 && l.z == 0#12 && l.c == 0#6 && l.fn == 0#6 && l.et == 0#4 && l.rm == 0#4, instr := .ret }

/-- The word of `JMPR`, opcode 0x27, form R (R79). -/
def wordJmpr (h : Head) : Parsed :=
  let l := RLow.ofBits h.low
  { operands := h.d == 0#6 && h.b == 0#6 && h.mk == 0#3 && h.mz == 0#1 && l.z == 0#12 && l.c == 0#6 && l.fn == 0#6 && l.et == 0#4 && l.rm == 0#4, instr := .jmpr h.a }

/-- The word of `GETID`, opcode 0x30, form R (R110). -/
def wordGetid (h : Head) : Parsed :=
  let l := RLow.ofBits h.low
  { operands := h.a == 0#6 && h.b == 0#6 && h.mk == 0#3 && h.mz == 0#1 && l.z == 0#12 && l.c == 0#6 && l.et == 0#4 && l.rm == 0#4 && l.fn.toNat ≤ 7, instr := .getid (GetIdSel.ofCode l.fn) h.d }

/-- The word of `TGROW`, opcode 0x31, form R (R111). -/
def wordTgrow (h : Head) : Parsed :=
  let l := RLow.ofBits h.low
  { operands := h.b == 0#6 && h.mk == 0#3 && h.mz == 0#1 && l.z == 0#12 && l.c == 0#6 && l.fn == 0#6 && l.et == 0#4 && l.rm == 0#4, instr := .tgrow h.d h.a }

/-- The word of `TLEAVE`, opcode 0x32, form R (R112). -/
def wordTleave (h : Head) : Parsed :=
  let l := RLow.ofBits h.low
  { operands := h.d == 0#6 && h.a == 0#6 && h.b == 0#6 && h.mk == 0#3 && h.mz == 0#1 && l.z == 0#12 && l.c == 0#6 && l.fn == 0#6 && l.et == 0#4 && l.rm == 0#4, instr := .tleave }

/-- The word of `TSTAT`, opcode 0x33, form R (R113). -/
def wordTstat (h : Head) : Parsed :=
  let l := RLow.ofBits h.low
  { operands := h.a == 0#6 && h.b == 0#6 && h.mk == 0#3 && h.mz == 0#1 && l.z == 0#12 && l.c == 0#6 && l.fn == 0#6 && l.et == 0#4 && l.rm == 0#4, instr := .tstat h.d }

/-- The word of `BARARV`, opcode 0x34, form I (R101, R114). -/
def wordBararv (h : Head) : Parsed :=
  { operands := h.d == 0#6 && h.a == 0#6 && h.b == 0#6 && h.mk == 0#3 && h.mz == 0#1 && h.low.toNat < 16, instr := .bararv (h.low.setWidth 4) }

/-- The word of `BARWAIT`, opcode 0x35, form I (R114). -/
def wordBarwait (h : Head) : Parsed :=
  { operands := h.d == 0#6 && h.a == 0#6 && h.b == 0#6 && h.mk == 0#3 && h.mz == 0#1 && h.low.toNat < 16, instr := .barwait (h.low.setWidth 4) }

/-- The word of `BARSYNC`, opcode 0x36, form I (R114). -/
def wordBarsync (h : Head) : Parsed :=
  { operands := h.d == 0#6 && h.a == 0#6 && h.b == 0#6 && h.mk == 0#3 && h.mz == 0#1 && h.low.toNat < 16, instr := .barsync (h.low.setWidth 4) }

/-- The word of `BARMASK`, opcode 0x37, form I (R115). -/
def wordBarmask (h : Head) : Parsed :=
  { operands := h.d == 0#6 && h.a == 0#6 && h.b == 0#6 && h.mk == 0#3 && h.mz == 0#1 && h.low.toNat < 65536, instr := .barmask (h.low.setWidth 16) }

/-- The word of `WSYNC`, opcode 0x38, form I (R107, R116). -/
def wordWsync (h : Head) : Parsed :=
  { operands := h.d == 0#6 && h.b == 0#6 && h.mk == 0#3 && h.mz == 0#1 && h.low.toNat < 16, instr := .wsync (h.low.setWidth 4) h.a }

/-- The word of `VFORK`, opcode 0x39, form B (R104, R117). -/
def wordVfork (h : Head) : Parsed :=
  { operands := h.d == 0#6 && h.b == 0#6 && h.mk == 0#3 && h.mz == 0#1, instr := .vfork (low3 h.a) h.low, small := h.a.toNat < 8 }

/-- The word of `LJOIN`, opcode 0x3A, form R (R106, R117). -/
def wordLjoin (h : Head) : Parsed :=
  let l := RLow.ofBits h.low
  { operands := h.d == 0#6 && h.a == 0#6 && h.b == 0#6 && h.mk == 0#3 && h.mz == 0#1 && l.z == 0#12 && l.c == 0#6 && l.fn == 0#6 && l.et == 0#4 && l.rm == 0#4, instr := .ljoin }

/-- The word of `KLAUNCH`, opcode 0x3B, form R (R118). -/
def wordKlaunch (h : Head) : Parsed :=
  let l := RLow.ofBits h.low
  { operands := h.mk == 0#3 && h.mz == 0#1 && l.z == 0#12 && l.c == 0#6 && l.fn == 0#6 && l.et == 0#4 && l.rm == 0#4, instr := .klaunch h.d h.a h.b }

/-- The word of `YIELD`, opcode 0x3C, form R (R119). -/
def wordYield (h : Head) : Parsed :=
  let l := RLow.ofBits h.low
  { operands := h.d == 0#6 && h.a == 0#6 && h.b == 0#6 && h.mk == 0#3 && h.mz == 0#1 && l.z == 0#12 && l.c == 0#6 && l.fn == 0#6 && l.et == 0#4 && l.rm == 0#4, instr := .yield }

/-- The word of `SETVL`, opcode 0x40, form I (R154-R156). -/
def wordSetvl (h : Head) : Parsed :=
  { operands := h.b == 0#6 && h.mk == 0#3 && h.mz == 0#1 && h.low.toNat < 512, instr := .setvl h.d h.a (ET.ofCode (h.low.setWidth 4)) (h.low.extractLsb' 4 3) (h.low.extractLsb' 7 2) }

/-- The word of `SVLOOP`, opcode 0x41, form B (R158). -/
def wordSvloop (h : Head) : Parsed :=
  { operands := h.d == 0#6 && h.b == 0#6 && h.mk == 0#3 && h.mz == 0#1, instr := .svloop h.a h.low }

/-- The word of `GETVL`, opcode 0x42, form R (R159). -/
def wordGetvl (h : Head) : Parsed :=
  let l := RLow.ofBits h.low
  { operands := h.a == 0#6 && h.b == 0#6 && h.mk == 0#3 && h.mz == 0#1 && l.z == 0#12 && l.c == 0#6 && l.et == 0#4 && l.rm == 0#4 && l.fn.toNat ≤ 5, instr := .getvl (GetVlSel.ofCode l.fn) h.d }

/-- The word of `MAND`, opcode 0x44, form R (R160). -/
def wordMand (h : Head) : Parsed :=
  let l := RLow.ofBits h.low
  { operands := h.mk == 0#3 && h.mz == 0#1 && l.z == 0#12 && l.c == 0#6 && l.fn == 0#6 && l.et == 0#4 && l.rm == 0#4, instr := .mand (low3 h.d) (low3 h.a) (low3 h.b), small := h.d.toNat < 8 && h.a.toNat < 8 && h.b.toNat < 8 }

/-- The word of `MOR`, opcode 0x45, form R (R160). -/
def wordMor (h : Head) : Parsed :=
  let l := RLow.ofBits h.low
  { operands := h.mk == 0#3 && h.mz == 0#1 && l.z == 0#12 && l.c == 0#6 && l.fn == 0#6 && l.et == 0#4 && l.rm == 0#4, instr := .mor (low3 h.d) (low3 h.a) (low3 h.b), small := h.d.toNat < 8 && h.a.toNat < 8 && h.b.toNat < 8 }

/-- The word of `MXOR`, opcode 0x46, form R (R160). -/
def wordMxor (h : Head) : Parsed :=
  let l := RLow.ofBits h.low
  { operands := h.mk == 0#3 && h.mz == 0#1 && l.z == 0#12 && l.c == 0#6 && l.fn == 0#6 && l.et == 0#4 && l.rm == 0#4, instr := .mxor (low3 h.d) (low3 h.a) (low3 h.b), small := h.d.toNat < 8 && h.a.toNat < 8 && h.b.toNat < 8 }

/-- The word of `MANDN`, opcode 0x47, form R (R160). -/
def wordMandn (h : Head) : Parsed :=
  let l := RLow.ofBits h.low
  { operands := h.mk == 0#3 && h.mz == 0#1 && l.z == 0#12 && l.c == 0#6 && l.fn == 0#6 && l.et == 0#4 && l.rm == 0#4, instr := .mandn (low3 h.d) (low3 h.a) (low3 h.b), small := h.d.toNat < 8 && h.a.toNat < 8 && h.b.toNat < 8 }

/-- The word of `MNOT`, opcode 0x48, form R (R160). -/
def wordMnot (h : Head) : Parsed :=
  let l := RLow.ofBits h.low
  { operands := h.b == 0#6 && h.mk == 0#3 && h.mz == 0#1 && l.z == 0#12 && l.c == 0#6 && l.fn == 0#6 && l.et == 0#4 && l.rm == 0#4, instr := .mnot (low3 h.d) (low3 h.a), small := h.d.toNat < 8 && h.a.toNat < 8 }

/-- The word of `MMOV`, opcode 0x49, form R (R160). -/
def wordMmov (h : Head) : Parsed :=
  let l := RLow.ofBits h.low
  { operands := h.b == 0#6 && h.mk == 0#3 && h.mz == 0#1 && l.z == 0#12 && l.c == 0#6 && l.fn == 0#6 && l.et == 0#4 && l.rm == 0#4, instr := .mmov (low3 h.d) (low3 h.a), small := h.d.toNat < 8 && h.a.toNat < 8 }

/-- The word of `MSET`, opcode 0x4A, form R (R160). -/
def wordMset (h : Head) : Parsed :=
  let l := RLow.ofBits h.low
  { operands := h.b == 0#6 && h.mk == 0#3 && h.mz == 0#1 && l.z == 0#12 && l.c == 0#6 && l.et == 0#4 && l.rm == 0#4 && l.fn.toNat ≤ 3, instr := .mset (MsetSel.ofCode l.fn) (low3 h.d) h.a, small := h.d.toNat < 8 }

/-- The word of `MPOPC`, opcode 0x4B, form R (R160). -/
def wordMpopc (h : Head) : Parsed :=
  let l := RLow.ofBits h.low
  { operands := h.b == 0#6 && h.mk == 0#3 && h.mz == 0#1 && l.z == 0#12 && l.c == 0#6 && l.fn == 0#6 && l.et == 0#4 && l.rm == 0#4, instr := .mpopc h.d (low3 h.a), small := h.a.toNat < 8 }

/-- The word of `MFIRST`, opcode 0x4C, form R (R160). -/
def wordMfirst (h : Head) : Parsed :=
  let l := RLow.ofBits h.low
  { operands := h.b == 0#6 && h.mk == 0#3 && h.mz == 0#1 && l.z == 0#12 && l.c == 0#6 && l.fn == 0#6 && l.et == 0#4 && l.rm == 0#4, instr := .mfirst h.d (low3 h.a), small := h.a.toNat < 8 }

/-- The word of `VADD`, opcode 0x50, form R (R164). -/
def wordVadd (h : Head) : Parsed :=
  let l := RLow.ofBits h.low
  { operands := l.z == 0#12 && l.c == 0#6 && l.fn == 0#6 && l.rm == 0#4, instr := .vadd h.mk (h.mz == 1#1) (ET.ofCode l.et) h.d h.a h.b }

/-- The word of `VADDS`, opcode 0x51, form R (R164). -/
def wordVadds (h : Head) : Parsed :=
  let l := RLow.ofBits h.low
  { operands := l.z == 0#12 && l.c == 0#6 && l.fn == 0#6 && l.rm == 0#4, instr := .vadds h.mk (h.mz == 1#1) (ET.ofCode l.et) h.d h.a h.b }

/-- The word of `VSUB`, opcode 0x52, form R (R164). -/
def wordVsub (h : Head) : Parsed :=
  let l := RLow.ofBits h.low
  { operands := l.z == 0#12 && l.c == 0#6 && l.fn == 0#6 && l.rm == 0#4, instr := .vsub h.mk (h.mz == 1#1) (ET.ofCode l.et) h.d h.a h.b }

/-- The word of `VSUBS`, opcode 0x53, form R (R164). -/
def wordVsubs (h : Head) : Parsed :=
  let l := RLow.ofBits h.low
  { operands := l.z == 0#12 && l.c == 0#6 && l.fn == 0#6 && l.rm == 0#4, instr := .vsubs h.mk (h.mz == 1#1) (ET.ofCode l.et) h.d h.a h.b }

/-- The word of `VMUL`, opcode 0x54, form R (R164). -/
def wordVmul (h : Head) : Parsed :=
  let l := RLow.ofBits h.low
  { operands := l.z == 0#12 && l.c == 0#6 && l.fn == 0#6 && l.rm == 0#4, instr := .vmul h.mk (h.mz == 1#1) (ET.ofCode l.et) h.d h.a h.b }

/-- The word of `VMULHI`, opcode 0x55, form R (R164). -/
def wordVmulhi (h : Head) : Parsed :=
  let l := RLow.ofBits h.low
  { operands := l.z == 0#12 && l.c == 0#6 && l.fn == 0#6 && l.rm == 0#4, instr := .vmulhi h.mk (h.mz == 1#1) (ET.ofCode l.et) h.d h.a h.b }

/-- The word of `VMAD`, opcode 0x56, form R (R164). -/
def wordVmad (h : Head) : Parsed :=
  let l := RLow.ofBits h.low
  { operands := l.z == 0#12 && l.fn == 0#6 && l.rm == 0#4, instr := .vmad h.mk (h.mz == 1#1) (ET.ofCode l.et) h.d h.a h.b l.c }

/-- The word of `VMIN`, opcode 0x57, form R (R164). -/
def wordVmin (h : Head) : Parsed :=
  let l := RLow.ofBits h.low
  { operands := l.z == 0#12 && l.c == 0#6 && l.fn == 0#6 && l.rm == 0#4, instr := .vmin h.mk (h.mz == 1#1) (ET.ofCode l.et) h.d h.a h.b }

/-- The word of `VMAX`, opcode 0x58, form R (R164). -/
def wordVmax (h : Head) : Parsed :=
  let l := RLow.ofBits h.low
  { operands := l.z == 0#12 && l.c == 0#6 && l.fn == 0#6 && l.rm == 0#4, instr := .vmax h.mk (h.mz == 1#1) (ET.ofCode l.et) h.d h.a h.b }

/-- The word of `VABS`, opcode 0x59, form R (R164). -/
def wordVabs (h : Head) : Parsed :=
  let l := RLow.ofBits h.low
  { operands := h.b == 0#6 && l.z == 0#12 && l.c == 0#6 && l.rm == 0#4 && l.fn.toNat ≤ 1, instr := .vabs h.mk (h.mz == 1#1) (l.fn == 1#6) (ET.ofCode l.et) h.d h.a }

/-- The word of `VAND`, opcode 0x5A, form R (R164). -/
def wordVand (h : Head) : Parsed :=
  let l := RLow.ofBits h.low
  { operands := l.z == 0#12 && l.c == 0#6 && l.fn == 0#6 && l.rm == 0#4, instr := .vand h.mk (h.mz == 1#1) (ET.ofCode l.et) h.d h.a h.b }

/-- The word of `VOR`, opcode 0x5B, form R (R164). -/
def wordVor (h : Head) : Parsed :=
  let l := RLow.ofBits h.low
  { operands := l.z == 0#12 && l.c == 0#6 && l.fn == 0#6 && l.rm == 0#4, instr := .vor h.mk (h.mz == 1#1) (ET.ofCode l.et) h.d h.a h.b }

/-- The word of `VXOR`, opcode 0x5C, form R (R164). -/
def wordVxor (h : Head) : Parsed :=
  let l := RLow.ofBits h.low
  { operands := l.z == 0#12 && l.c == 0#6 && l.fn == 0#6 && l.rm == 0#4, instr := .vxor h.mk (h.mz == 1#1) (ET.ofCode l.et) h.d h.a h.b }

/-- The word of `VSHL`, opcode 0x5D, form R (R164). -/
def wordVshl (h : Head) : Parsed :=
  let l := RLow.ofBits h.low
  { operands := l.z == 0#12 && l.c == 0#6 && l.fn == 0#6 && l.rm == 0#4, instr := .vshl h.mk (h.mz == 1#1) (ET.ofCode l.et) h.d h.a h.b }

/-- The word of `VSHR`, opcode 0x5E, form R (R164). -/
def wordVshr (h : Head) : Parsed :=
  let l := RLow.ofBits h.low
  { operands := l.z == 0#12 && l.c == 0#6 && l.fn == 0#6 && l.rm == 0#4, instr := .vshr h.mk (h.mz == 1#1) (ET.ofCode l.et) h.d h.a h.b }

/-- The word of `VSAR`, opcode 0x5F, form R (R164). -/
def wordVsar (h : Head) : Parsed :=
  let l := RLow.ofBits h.low
  { operands := l.z == 0#12 && l.c == 0#6 && l.fn == 0#6 && l.rm == 0#4, instr := .vsar h.mk (h.mz == 1#1) (ET.ofCode l.et) h.d h.a h.b }

/-- The word of `VCMP`, opcode 0x60, form R (R165). -/
def wordVcmp (h : Head) : Parsed :=
  let l := RLow.ofBits h.low
  { operands := l.z == 0#12 && l.c == 0#6 && l.rm == 0#4 && l.fn.toNat ≤ 5, instr := .vcmp h.mk (h.mz == 1#1) (Cond.ofCode l.fn) (ET.ofCode l.et) (low3 h.d) h.a h.b, small := h.d.toNat < 8 }

/-- The word of `VMRG`, opcode 0x61, form R (R165). -/
def wordVmrg (h : Head) : Parsed :=
  let l := RLow.ofBits h.low
  { operands := h.mz == 0#1 && l.z == 0#12 && l.c == 0#6 && l.fn == 0#6 && l.rm == 0#4, instr := .vmrg h.mk (ET.ofCode l.et) h.d h.a h.b }

/-- The word of `VWID`, opcode 0x62, form R (R168). -/
def wordVwid (h : Head) : Parsed :=
  let l := RLow.ofBits h.low
  { operands := h.b == 0#6 && l.z == 0#12 && l.c == 0#6 && l.rm == 0#4 && l.fn.toNat ≤ 7, instr := .vwid h.mk (h.mz == 1#1) (ET.ofCode (l.fn.setWidth 4)) (ET.ofCode l.et) h.d h.a }

/-- The word of `VSATN`, opcode 0x63, form R (R168). -/
def wordVsatn (h : Head) : Parsed :=
  let l := RLow.ofBits h.low
  { operands := h.b == 0#6 && l.z == 0#12 && l.c == 0#6 && l.rm == 0#4 && l.fn.toNat ≤ 7, instr := .vsatn h.mk (h.mz == 1#1) (ET.ofCode (l.fn.setWidth 4)) (ET.ofCode l.et) h.d h.a }

/-- The word of `VIOTA`, opcode 0x64, form R (R166). -/
def wordViota (h : Head) : Parsed :=
  let l := RLow.ofBits h.low
  { operands := h.b == 0#6 && l.z == 0#12 && l.c == 0#6 && l.rm == 0#4 && l.fn.toNat ≤ 1 && (l.fn == 1#6 || h.a == 0#6), instr := .viota h.mk (h.mz == 1#1) (l.fn == 1#6) (ET.ofCode l.et) h.d (low3 h.a), small := h.a.toNat < 8 }

/-- The word of `VBCS`, opcode 0x65, form R (R166). -/
def wordVbcs (h : Head) : Parsed :=
  let l := RLow.ofBits h.low
  { operands := h.b == 0#6 && l.z == 0#12 && l.c == 0#6 && l.fn == 0#6 && l.rm == 0#4, instr := .vbcs h.mk (h.mz == 1#1) (ET.ofCode l.et) h.d h.a }

/-- The word of `VPOPC`, opcode 0x66, form R (R164). -/
def wordVpopc (h : Head) : Parsed :=
  let l := RLow.ofBits h.low
  { operands := h.b == 0#6 && l.z == 0#12 && l.c == 0#6 && l.fn == 0#6 && l.rm == 0#4, instr := .vpopc h.mk (h.mz == 1#1) (ET.ofCode l.et) h.d h.a }

/-- The word of `VADDI`, opcode 0x67, form I (R167). -/
def wordVaddi (h : Head) : Parsed :=
  { operands := h.b == 0#6, instr := .vaddi h.mk (h.mz == 1#1) h.d h.a h.low }

/-- The word of `VCLZ`, opcode 0x68, form R (R164). -/
def wordVclz (h : Head) : Parsed :=
  let l := RLow.ofBits h.low
  { operands := h.b == 0#6 && l.z == 0#12 && l.c == 0#6 && l.fn == 0#6 && l.rm == 0#4, instr := .vclz h.mk (h.mz == 1#1) (ET.ofCode l.et) h.d h.a }

/-- The word of `VFADD`, opcode 0x70, form R (R140). -/
def wordVfadd (h : Head) : Parsed :=
  let l := RLow.ofBits h.low
  { operands := l.z == 0#12 && l.c == 0#6 && l.fn == 0#6 && l.rm.toNat < 4, instr := .vfadd h.mk (h.mz == 1#1) (Mode.ofRm l.rm) (ET.ofCode l.et) h.d h.a h.b }

/-- The word of `VFSUB`, opcode 0x71, form R (R140). -/
def wordVfsub (h : Head) : Parsed :=
  let l := RLow.ofBits h.low
  { operands := l.z == 0#12 && l.c == 0#6 && l.fn == 0#6 && l.rm.toNat < 4, instr := .vfsub h.mk (h.mz == 1#1) (Mode.ofRm l.rm) (ET.ofCode l.et) h.d h.a h.b }

/-- The word of `VFMUL`, opcode 0x72, form R (R140). -/
def wordVfmul (h : Head) : Parsed :=
  let l := RLow.ofBits h.low
  { operands := l.z == 0#12 && l.c == 0#6 && l.fn == 0#6 && l.rm.toNat < 4, instr := .vfmul h.mk (h.mz == 1#1) (Mode.ofRm l.rm) (ET.ofCode l.et) h.d h.a h.b }

/-- The word of `VFMA`, opcode 0x73, form R (R140). -/
def wordVfma (h : Head) : Parsed :=
  let l := RLow.ofBits h.low
  { operands := l.z == 0#12 && l.fn == 0#6 && l.rm.toNat < 4, instr := .vfma h.mk (h.mz == 1#1) (Mode.ofRm l.rm) (ET.ofCode l.et) h.d h.a h.b l.c }

/-- The word of `VFNMA`, opcode 0x74, form R (R140). -/
def wordVfnma (h : Head) : Parsed :=
  let l := RLow.ofBits h.low
  { operands := l.z == 0#12 && l.fn == 0#6 && l.rm.toNat < 4, instr := .vfnma h.mk (h.mz == 1#1) (Mode.ofRm l.rm) (ET.ofCode l.et) h.d h.a h.b l.c }

/-- The word of `VFMIN`, opcode 0x75, form R (R141). -/
def wordVfmin (h : Head) : Parsed :=
  let l := RLow.ofBits h.low
  { operands := l.z == 0#12 && l.c == 0#6 && l.fn == 0#6 && l.rm == 0#4, instr := .vfmin h.mk (h.mz == 1#1) (ET.ofCode l.et) h.d h.a h.b }

/-- The word of `VFMAX`, opcode 0x76, form R (R141). -/
def wordVfmax (h : Head) : Parsed :=
  let l := RLow.ofBits h.low
  { operands := l.z == 0#12 && l.c == 0#6 && l.fn == 0#6 && l.rm == 0#4, instr := .vfmax h.mk (h.mz == 1#1) (ET.ofCode l.et) h.d h.a h.b }

/-- The word of `VFDIV`, opcode 0x77, form R (R142). -/
def wordVfdiv (h : Head) : Parsed :=
  let l := RLow.ofBits h.low
  { operands := l.z == 0#12 && l.c == 0#6 && l.fn == 0#6 && l.rm.toNat < 4, instr := .vfdiv (fselOf h.fs) h.mk (h.mz == 1#1) (Mode.ofRm l.rm) (ET.ofCode l.et) h.d h.a h.b, flagged := true }

/-- The word of `VFSQRT`, opcode 0x78, form R (R142). -/
def wordVfsqrt (h : Head) : Parsed :=
  let l := RLow.ofBits h.low
  { operands := h.b == 0#6 && l.z == 0#12 && l.c == 0#6 && l.fn == 0#6 && l.rm.toNat < 4, instr := .vfsqrt (fselOf h.fs) h.mk (h.mz == 1#1) (Mode.ofRm l.rm) (ET.ofCode l.et) h.d h.a, flagged := true }

/-- The word of `VFRSQ`, opcode 0x79, form R (R142). -/
def wordVfrsq (h : Head) : Parsed :=
  let l := RLow.ofBits h.low
  { operands := h.b == 0#6 && l.z == 0#12 && l.c == 0#6 && l.fn == 0#6 && l.rm.toNat < 4, instr := .vfrsq (fselOf h.fs) h.mk (h.mz == 1#1) (Mode.ofRm l.rm) (ET.ofCode l.et) h.d h.a, flagged := true }

/-- The word of `VFRCP`, opcode 0x7A, form R (R142). -/
def wordVfrcp (h : Head) : Parsed :=
  let l := RLow.ofBits h.low
  { operands := h.b == 0#6 && l.z == 0#12 && l.c == 0#6 && l.fn == 0#6 && l.rm.toNat < 4, instr := .vfrcp (fselOf h.fs) h.mk (h.mz == 1#1) (Mode.ofRm l.rm) (ET.ofCode l.et) h.d h.a, flagged := true }

/-- The word of `VFEXP2`, opcode 0x7B, form R (R142). -/
def wordVfexp2 (h : Head) : Parsed :=
  let l := RLow.ofBits h.low
  { operands := h.b == 0#6 && l.z == 0#12 && l.c == 0#6 && l.fn == 0#6 && l.rm.toNat < 4, instr := .vfexp2 (fselOf h.fs) h.mk (h.mz == 1#1) (Mode.ofRm l.rm) (ET.ofCode l.et) h.d h.a, flagged := true }

/-- The word of `VFLOG2`, opcode 0x7C, form R (R142). -/
def wordVflog2 (h : Head) : Parsed :=
  let l := RLow.ofBits h.low
  { operands := h.b == 0#6 && l.z == 0#12 && l.c == 0#6 && l.fn == 0#6 && l.rm.toNat < 4, instr := .vflog2 (fselOf h.fs) h.mk (h.mz == 1#1) (Mode.ofRm l.rm) (ET.ofCode l.et) h.d h.a, flagged := true }

/-- The word of `VFCMP`, opcode 0x7D, form R (R143, R144). -/
def wordVfcmp (h : Head) : Parsed :=
  let l := RLow.ofBits h.low
  { operands := l.z == 0#12 && l.c == 0#6 && l.rm == 0#4 && l.fn.toNat ≤ 5, instr := .vfcmp h.mk (h.mz == 1#1) (FCond.ofCode l.fn) (ET.ofCode l.et) (low3 h.d) h.a h.b, small := h.d.toNat < 8 }

/-- The word of `VFCLASS`, opcode 0x7E, form R (R145). -/
def wordVfclass (h : Head) : Parsed :=
  let l := RLow.ofBits h.low
  { operands := h.b == 0#6 && l.z == 0#12 && l.c == 0#6 && l.fn == 0#6 && l.rm == 0#4, instr := .vfclass h.mk (h.mz == 1#1) (ET.ofCode l.et) h.d h.a }

/-- The word of `VCVT`, opcode 0x7F, form R (R146, R147). -/
def wordVcvt (h : Head) : Parsed :=
  let l := RLow.ofBits h.low
  { operands := h.b == 0#6 && l.z == 0#12 && l.c == 0#6 && l.rm.toNat < 8 && (l.fn.toNat ≤ 5 || (8 ≤ l.fn.toNat && l.fn.toNat ≤ 14)), instr := .vcvt h.mk (h.mz == 1#1) (Mode.ofRm l.rm) (l.rm.getLsbD 2) (ET.ofCode (l.fn.setWidth 4)) (ET.ofCode l.et) h.d h.a }

/-- The word of `VQNT`, opcode 0x80, form R (R148, R149). -/
def wordVqnt (h : Head) : Parsed :=
  let l := RLow.ofBits h.low
  { operands := h.mk == 0#3 && h.mz == 0#1 && l.z == 0#12 && l.c == 0#6 && l.rm == 0#4 && l.fn.toNat < 32, instr := .vqnt (l.fn.getLsbD 4) (ET.ofCode (l.fn.setWidth 4)) (ET.ofCode l.et) h.d h.a h.b }

/-- The word of `VDQNT`, opcode 0x81, form R (R150). -/
def wordVdqnt (h : Head) : Parsed :=
  let l := RLow.ofBits h.low
  { operands := l.z == 0#12 && l.c == 0#6 && l.rm.toNat < 4 && l.fn.toNat < 16, instr := .vdqnt h.mk (h.mz == 1#1) (Mode.ofRm l.rm) (ET.ofCode (l.fn.setWidth 4)) (ET.ofCode l.et) h.d h.a h.b }

/-- The word of `VFABS`, opcode 0x82, form R (R141). -/
def wordVfabs (h : Head) : Parsed :=
  let l := RLow.ofBits h.low
  { operands := h.b == 0#6 && l.z == 0#12 && l.c == 0#6 && l.fn == 0#6 && l.rm == 0#4, instr := .vfabs h.mk (h.mz == 1#1) (ET.ofCode l.et) h.d h.a }

/-- The word of `VPERM`, opcode 0x90, form R (R173). -/
def wordVperm (h : Head) : Parsed :=
  let l := RLow.ofBits h.low
  { operands := l.z == 0#12 && l.c == 0#6 && l.fn == 0#6 && l.rm == 0#4, instr := .vperm h.mk (h.mz == 1#1) (ET.ofCode l.et) h.d h.a h.b }

/-- The word of `VSLUP`, opcode 0x91, form R (R173). -/
def wordVslup (h : Head) : Parsed :=
  let l := RLow.ofBits h.low
  { operands := l.z == 0#12 && l.c == 0#6 && l.fn == 0#6 && l.rm == 0#4, instr := .vslup h.mk (h.mz == 1#1) (ET.ofCode l.et) h.d h.a h.b }

/-- The word of `VSLDN`, opcode 0x92, form R (R173). -/
def wordVsldn (h : Head) : Parsed :=
  let l := RLow.ofBits h.low
  { operands := l.z == 0#12 && l.c == 0#6 && l.fn == 0#6 && l.rm == 0#4, instr := .vsldn h.mk (h.mz == 1#1) (ET.ofCode l.et) h.d h.a h.b }

/-- The word of `VBCAST`, opcode 0x93, form R (R173). -/
def wordVbcast (h : Head) : Parsed :=
  let l := RLow.ofBits h.low
  { operands := l.z == 0#12 && l.c == 0#6 && l.fn == 0#6 && l.rm == 0#4, instr := .vbcast h.mk (h.mz == 1#1) (ET.ofCode l.et) h.d h.a h.b }

/-- The word of `VCMPRS`, opcode 0x94, form R (R174). -/
def wordVcmprs (h : Head) : Parsed :=
  let l := RLow.ofBits h.low
  { operands := h.mk == 0#3 && h.mz == 0#1 && l.z == 0#12 && l.c == 0#6 && l.fn == 0#6 && l.rm == 0#4, instr := .vcmprs (ET.ofCode l.et) h.d h.a (low3 h.b), small := h.b.toNat < 8 }

/-- The word of `VEXPND`, opcode 0x95, form R (R174). -/
def wordVexpnd (h : Head) : Parsed :=
  let l := RLow.ofBits h.low
  { operands := h.mk == 0#3 && h.mz == 0#1 && l.z == 0#12 && l.c == 0#6 && l.fn == 0#6 && l.rm == 0#4, instr := .vexpnd (ET.ofCode l.et) h.d h.a (low3 h.b), small := h.b.toNat < 8 }

/-- The word of `VTR8`, opcode 0x96, form R (R175). -/
def wordVtr8 (h : Head) : Parsed :=
  let l := RLow.ofBits h.low
  { operands := h.b == 0#6 && l.z == 0#12 && l.c == 0#6 && l.fn == 0#6 && l.rm == 0#4, instr := .vtr8 h.mk (h.mz == 1#1) (ET.ofCode l.et) h.d h.a }

/-- The word of `VREDSUM`, opcode 0x97, form R (R176, R177). -/
def wordVredsum (h : Head) : Parsed :=
  let l := RLow.ofBits h.low
  { operands := h.b == 0#6 && h.mz == 0#1 && l.z == 0#12 && l.c == 0#6 && l.fn == 0#6 && l.rm.toNat < 4, instr := .vredsum h.mk (Mode.ofRm l.rm) (ET.ofCode l.et) h.d h.a }

/-- The word of `VREDMAX`, opcode 0x98, form R (R176). -/
def wordVredmax (h : Head) : Parsed :=
  let l := RLow.ofBits h.low
  { operands := h.b == 0#6 && h.mz == 0#1 && l.z == 0#12 && l.c == 0#6 && l.fn == 0#6 && l.rm == 0#4, instr := .vredmax h.mk (ET.ofCode l.et) h.d h.a }

/-- The word of `VREDMIN`, opcode 0x99, form R (R176). -/
def wordVredmin (h : Head) : Parsed :=
  let l := RLow.ofBits h.low
  { operands := h.b == 0#6 && h.mz == 0#1 && l.z == 0#12 && l.c == 0#6 && l.fn == 0#6 && l.rm == 0#4, instr := .vredmin h.mk (ET.ofCode l.et) h.d h.a }

/-- The word of `VSCAN`, opcode 0x9A, form R (R178). -/
def wordVscan (h : Head) : Parsed :=
  let l := RLow.ofBits h.low
  { operands := h.b == 0#6 && l.z == 0#12 && l.c == 0#6 && l.rm.toNat < 4 && l.fn.toNat ≤ 2, instr := .vscan h.mk (h.mz == 1#1) (Mode.ofRm l.rm) (ScanOp.ofCode l.fn) (ET.ofCode l.et) h.d h.a }

/-- The word of `VEXTR`, opcode 0x9B, form R (R179). -/
def wordVextr (h : Head) : Parsed :=
  let l := RLow.ofBits h.low
  { operands := h.mk == 0#3 && h.mz == 0#1 && l.z == 0#12 && l.c == 0#6 && l.fn == 0#6 && l.rm == 0#4, instr := .vextr (ET.ofCode l.et) h.d h.a h.b }

/-- The word of `VINS`, opcode 0x9C, form R (R179). -/
def wordVins (h : Head) : Parsed :=
  let l := RLow.ofBits h.low
  { operands := h.mk == 0#3 && h.mz == 0#1 && l.z == 0#12 && l.c == 0#6 && l.fn == 0#6 && l.rm == 0#4, instr := .vins (ET.ofCode l.et) h.d h.a h.b }

/-- The word of `LDS`, opcode 0xA0, form M (R195, R196). -/
def wordLds (h : Head) : Parsed :=
  let l := MLow.ofBits h.low
  { operands := h.b == 0#6 && h.mk == 0#3 && h.mz == 0#1 && l.z == 0#2 && l.c == 0#6 && l.ch.toNat < 4, instr := .lds (fselOf h.fs) (ET.ofCode l.et) (l.ch.setWidth 2) h.d h.a l.off, flagged := true }

/-- The word of `STS`, opcode 0xA1, form M (R195, R196). -/
def wordSts (h : Head) : Parsed :=
  let l := MLow.ofBits h.low
  { operands := h.d == 0#6 && h.mk == 0#3 && h.mz == 0#1 && l.z == 0#2 && l.c == 0#6 && l.ch.toNat < 4, instr := .sts (ET.ofCode l.et) (l.ch.setWidth 2) h.a h.b l.off }

/-- The word of `VLD`, opcode 0xA2, form M (R197). -/
def wordVld (h : Head) : Parsed :=
  let l := MLow.ofBits h.low
  { operands := h.b == 0#6 && l.z == 0#2 && l.c == 0#6 && l.ch.toNat < 4, instr := .vld (fselOf h.fs) h.mk (h.mz == 1#1) (ET.ofCode l.et) (l.ch.setWidth 2) h.d h.a l.off, flagged := true }

/-- The word of `VST`, opcode 0xA3, form M (R197). -/
def wordVst (h : Head) : Parsed :=
  let l := MLow.ofBits h.low
  { operands := h.d == 0#6 && h.mz == 0#1 && l.z == 0#2 && l.c == 0#6 && l.ch.toNat < 4, instr := .vst h.mk (ET.ofCode l.et) (l.ch.setWidth 2) h.a h.b l.off }

/-- The word of `VLDS`, opcode 0xA4, form M (R197). -/
def wordVlds (h : Head) : Parsed :=
  let l := MLow.ofBits h.low
  { operands := h.b == 0#6 && l.z == 0#2 && l.ch.toNat < 4, instr := .vlds (fselOf h.fs) h.mk (h.mz == 1#1) (ET.ofCode l.et) (l.ch.setWidth 2) h.d h.a l.c l.off, flagged := true }

/-- The word of `VSTS`, opcode 0xA5, form M (R197). -/
def wordVsts (h : Head) : Parsed :=
  let l := MLow.ofBits h.low
  { operands := h.d == 0#6 && h.mz == 0#1 && l.z == 0#2 && l.ch.toNat < 4, instr := .vsts h.mk (ET.ofCode l.et) (l.ch.setWidth 2) h.a h.b l.c l.off }

/-- The word of `VLDX`, opcode 0xA6, form M (R197, R198). -/
def wordVldx (h : Head) : Parsed :=
  let l := MLow.ofBits h.low
  { operands := h.b == 0#6 && l.z == 0#2 && l.ch.toNat < 4, instr := .vldx (fselOf h.fs) h.mk (h.mz == 1#1) (ET.ofCode l.et) (l.ch.setWidth 2) h.d h.a l.c l.off, flagged := true }

/-- The word of `VSTX`, opcode 0xA7, form M (R197). -/
def wordVstx (h : Head) : Parsed :=
  let l := MLow.ofBits h.low
  { operands := h.d == 0#6 && h.mz == 0#1 && l.z == 0#2 && l.ch.toNat < 4, instr := .vstx h.mk (ET.ofCode l.et) (l.ch.setWidth 2) h.a h.b l.c l.off }

/-- The word of `STRDEF`, opcode 0xA8, form I (R202). -/
def wordStrdef (h : Head) : Parsed :=
  { operands := h.mk == 0#3 && h.mz == 0#1 && h.low.getLsbD 7 == false, instr := .strdef (StreamImm.ofBits h.low) (low3 h.d) h.a h.b, small := h.d.toNat < 8 }

/-- The word of `VLDST`, opcode 0xA9, form M (R204). -/
def wordVldst (h : Head) : Parsed :=
  let l := MLow.ofBits h.low
  { operands := h.b == 0#6 && l.z == 0#2 && l.c == 0#6 && l.et == 0#4 && l.off == 0#16 && l.ch.toNat < 4, instr := .vldst (fselOf h.fs) h.mk (h.mz == 1#1) (l.ch.setWidth 2) h.d (low3 h.a), flagged := true, small := h.a.toNat < 8 }

/-- The word of `VSTST`, opcode 0xAA, form M (R204). -/
def wordVstst (h : Head) : Parsed :=
  let l := MLow.ofBits h.low
  { operands := h.d == 0#6 && h.mz == 0#1 && l.z == 0#2 && l.c == 0#6 && l.et == 0#4 && l.off == 0#16 && l.ch.toNat < 4, instr := .vstst h.mk (l.ch.setWidth 2) (low3 h.a) h.b, small := h.a.toNat < 8 }

/-- The word of `PREF`, opcode 0xAB, form M (R206). -/
def wordPref (h : Head) : Parsed :=
  let l := MLow.ofBits h.low
  { operands := h.d == 0#6 && h.b == 0#6 && h.mk == 0#3 && h.mz == 0#1 && l.z == 0#2 && l.c == 0#6 && l.et == 0#4 && l.ch.toNat < 4, instr := .pref (l.ch.setWidth 2) h.a l.off }

/-- The word of `ATOM`, opcode 0xB0, form R (R247, R248). -/
def wordAtom (h : Head) : Parsed :=
  let l := RLow.ofBits h.low
  { operands := h.mk == 0#3 && h.mz == 0#1 && l.z == 0#12 && l.c == 0#6 && l.rm.toNat < 4 && (l.fn.extractLsb' 2 4).toNat ≤ 13, instr := .atom (fselOf h.fs) (AtomOp.ofCode (l.fn.extractLsb' 2 4)) (Ord4.ofCode (l.fn.setWidth 2)) (Mode.ofRm l.rm) (ET.ofCode l.et) h.d h.a h.b, flagged := true }

/-- The word of `VATOM`, opcode 0xB1, form R (R247, R249). -/
def wordVatom (h : Head) : Parsed :=
  let l := RLow.ofBits h.low
  { operands := l.z == 0#12 && l.rm.toNat < 4 && (l.fn.extractLsb' 2 4).toNat ≤ 13, instr := .vatom (fselOf h.fs) h.mk (h.mz == 1#1) (AtomOp.ofCode (l.fn.extractLsb' 2 4)) (Ord4.ofCode (l.fn.setWidth 2)) (Mode.ofRm l.rm) (ET.ofCode l.et) h.d h.a h.b l.c, flagged := true }

/-- The word of `CAS`, opcode 0xB2, form R (R248). -/
def wordCas (h : Head) : Parsed :=
  let l := RLow.ofBits h.low
  { operands := h.mk == 0#3 && h.mz == 0#1 && l.z == 0#12 && l.rm == 0#4 && l.fn.toNat ≤ 3, instr := .cas (fselOf h.fs) (Ord4.ofCode (l.fn.setWidth 2)) (ET.ofCode l.et) h.d h.a h.b l.c, flagged := true }

/-- The word of `VCAS`, opcode 0xB3, form R (R249). -/
def wordVcas (h : Head) : Parsed :=
  let l := RLow.ofBits h.low
  { operands := l.z == 0#12 && l.rm == 0#4 && l.fn.toNat ≤ 3, instr := .vcas (fselOf h.fs) h.mk (h.mz == 1#1) (Ord4.ofCode (l.fn.setWidth 2)) (ET.ofCode l.et) h.d h.a h.b l.c, flagged := true }

/-- The word of `REDORD`, opcode 0xB4, form R (R253). -/
def wordRedord (h : Head) : Parsed :=
  let l := RLow.ofBits h.low
  { operands := h.mk == 0#3 && h.mz == 0#1 && l.z == 0#12 && l.fn == 0#6 && l.rm.toNat < 4, instr := .redord (Mode.ofRm l.rm) h.d h.a h.b l.c, typed := l.et == ET.code .fp32 }

/-- The word of `FENCE`, opcode 0xB5, form R (R254). -/
def wordFence (h : Head) : Parsed :=
  let l := RLow.ofBits h.low
  { operands := h.d == 0#6 && h.a == 0#6 && h.b == 0#6 && h.mk == 0#3 && h.mz == 0#1 && l.z == 0#12 && l.c == 0#6 && l.et == 0#4 && l.rm == 0#4 && fenceListed l.fn, instr := .fence (FenceKind.ofCode (l.fn.setWidth 2)) (Scope.ofCode (l.fn.extractLsb' 2 4)) }

/-- The word of `CPYBOX_IN`, `CPYBOX_OUT`, opcode 0xB8, form T (R263). -/
def wordCpybox (h : Head) : Parsed :=
  let l := TLow.ofBits h.low
  if l.fn == 0#3 then { operands := h.mk == 0#3 && h.mz == 0#1 && l.ts == 0#3 && l.et == 0#4 && l.imm.toNat < 16, instr := .cpyboxIn (fselOf h.fs) h.d h.a h.b l.c (l.imm.setWidth 4), flagged := true }
  else if l.fn == 1#3 then { operands := h.mk == 0#3 && h.mz == 0#1 && l.ts == 0#3 && l.et == 0#4 && l.imm.toNat < 16, instr := .cpyboxOut (fselOf h.fs) h.d h.a h.b l.c (l.imm.setWidth 4), flagged := true }
  else { operands := false, instr := .cpyboxIn (fselOf h.fs) h.d h.a h.b l.c (l.imm.setWidth 4), flagged := true }

/-- The word of `CPYA`, opcode 0xB9, form T (R263, R264). -/
def wordCpya (h : Head) : Parsed :=
  let l := TLow.ofBits h.low
  { operands := h.mk == 0#3 && h.mz == 0#1 && l.c == 0#6 && l.fn == 0#3 && l.et == 0#4 && l.imm.toNat < 16, instr := .cpya (fselOf h.fs) l.ts h.d h.a h.b (l.imm.setWidth 4), flagged := true }

/-- The word of `CPYB`, opcode 0xBA, form T (R263, R264). -/
def wordCpyb (h : Head) : Parsed :=
  let l := TLow.ofBits h.low
  { operands := h.mk == 0#3 && h.mz == 0#1 && l.c == 0#6 && l.fn == 0#3 && l.et == 0#4 && l.imm.toNat < 16, instr := .cpyb (fselOf h.fs) l.ts h.d h.a h.b (l.imm.setWidth 4), flagged := true }

/-- The word of `CPYTRAIN`, opcode 0xBB, form T (R277). -/
def wordCpytrain (h : Head) : Parsed :=
  let l := TLow.ofBits h.low
  { operands := h.mk == 0#3 && h.mz == 0#1 && l.c == 0#6 && l.ts == 0#3 && l.fn.toNat ≤ 2 && l.imm.toNat < 16, instr := .cpytrain (fselOf h.fs) (TrainOp.ofCode l.fn) (ET.ofCode l.et) h.d h.a h.b (l.imm.setWidth 4), flagged := true }

/-- The word of `CWAIT`, opcode 0xBC, form T (R270). -/
def wordCwait (h : Head) : Parsed :=
  let l := TLow.ofBits h.low
  { operands := h.d == 0#6 && h.b == 0#6 && h.mk == 0#3 && h.mz == 0#1 && l.c == 0#6 && l.ts == 0#3 && l.fn == 0#3 && l.et == 0#4 && l.imm.toNat < 16, instr := .cwait h.a (l.imm.setWidth 4) }

/-- The word of `CSTAT`, `CSTAT_CLR`, opcode 0xBD, form T (R271). -/
def wordCstat (h : Head) : Parsed :=
  let l := TLow.ofBits h.low
  if l.fn.toNat < 4 then { operands := h.b == 0#6 && h.mk == 0#3 && h.mz == 0#1 && l.c == 0#6 && l.ts == 0#3 && l.et == 0#4 && l.imm.toNat < 16, instr := .cstat (CstatSel.ofCode l.fn) h.d h.a (l.imm.setWidth 4) }
  else if l.fn == 4#3 then { operands := h.a == 0#6 && h.b == 0#6 && h.mk == 0#3 && h.mz == 0#1 && l.c == 0#6 && l.ts == 0#3 && l.et == 0#4 && l.imm.toNat < 16, instr := .cstatClr h.d (l.imm.setWidth 4) }
  else { operands := false, instr := .cstat (CstatSel.ofCode l.fn) h.d h.a (l.imm.setWidth 4) }

/-- The word of `TEN`, opcode 0xC0, form T (R286). -/
def wordTen (h : Head) : Parsed :=
  let l := TLow.ofBits h.low
  { operands := h.d == 0#6 && h.a == 0#6 && h.b == 0#6 && h.mk == 0#3 && h.mz == 0#1 && l.c == 0#6 && l.ts == 0#3 && l.fn == 0#3 && l.et == 0#4 && l.imm == 0#16, instr := .ten }

/-- The word of `TDIS`, opcode 0xC1, form T (R287). -/
def wordTdis (h : Head) : Parsed :=
  let l := TLow.ofBits h.low
  { operands := h.d == 0#6 && h.a == 0#6 && h.b == 0#6 && h.mk == 0#3 && h.mz == 0#1 && l.c == 0#6 && l.ts == 0#3 && l.fn == 0#3 && l.et == 0#4 && l.imm == 0#16, instr := .tdis }

/-- The word of `TSET`, opcode 0xC2, form T (R284, R291). -/
def wordTset (h : Head) : Parsed :=
  let l := TLow.ofBits h.low
  { operands := h.b == 0#6 && h.mk == 0#3 && h.mz == 0#1 && l.c == 0#6 && l.fn == 0#3 && l.et == 0#4 && l.imm.toNat < 2048, instr := .tset l.ts h.d h.a (ET.ofCode (l.imm.setWidth 4)) (ET.ofCode (l.imm.extractLsb' 4 4)) (l.imm.extractLsb' 8 3) }

/-- The word of `TGRANT`, opcode 0xC3, form T (R295). -/
def wordTgrant (h : Head) : Parsed :=
  let l := TLow.ofBits h.low
  { operands := h.a == 0#6 && h.b == 0#6 && h.mk == 0#3 && h.mz == 0#1 && l.c == 0#6 && l.fn == 0#3 && l.et == 0#4 && l.imm == 0#16, instr := .tgrant l.ts h.d }

/-- The word of `TZERO`, opcode 0xC4, form T (R315). -/
def wordTzero (h : Head) : Parsed :=
  let l := TLow.ofBits h.low
  { operands := h.d == 0#6 && h.a == 0#6 && h.b == 0#6 && h.mk == 0#3 && h.mz == 0#1 && l.c == 0#6 && l.fn == 0#3 && l.et == 0#4 && l.imm == 0#16, instr := .tzero l.ts }

/-- The word of `TLDB`, opcode 0xC5, form T (R316). -/
def wordTldb (h : Head) : Parsed :=
  let l := TLow.ofBits h.low
  { operands := h.d == 0#6 && h.mk == 0#3 && h.mz == 0#1 && l.c == 0#6 && l.fn == 0#3 && l.et == 0#4 && l.imm == 0#16, instr := .tldb (fselOf h.fs) l.ts h.a h.b, flagged := true }

/-- The word of `TMMA`, opcode 0xC6, form T (R317). -/
def wordTmma (h : Head) : Parsed :=
  let l := TLow.ofBits h.low
  { operands := h.d == 0#6 && h.b == 0#6 && h.mk == 0#3 && h.mz == 0#1 && l.c == 0#6 && l.fn == 0#3 && l.et == 0#4 && l.imm == 0#16, instr := .tmma (fselOf h.fs) l.ts h.a, flagged := true }

/-- The word of `TMMAS`, opcode 0xC7, form T (R317). -/
def wordTmmas (h : Head) : Parsed :=
  let l := TLow.ofBits h.low
  { operands := h.d == 0#6 && h.mk == 0#3 && h.mz == 0#1 && l.c == 0#6 && l.fn == 0#3 && l.et == 0#4 && l.imm == 0#16, instr := .tmmas (fselOf h.fs) l.ts h.a h.b, flagged := true }

/-- The word of `TCSCL_LD`, `TCSCL_ONE`, opcode 0xC8, form T (R319). -/
def wordTcscl (h : Head) : Parsed :=
  let l := TLow.ofBits h.low
  if l.fn == 0#3 then { operands := h.d == 0#6 && h.b == 0#6 && h.mk == 0#3 && h.mz == 0#1 && l.c == 0#6 && l.et == 0#4 && l.imm == 0#16, instr := .tcsclLd (fselOf h.fs) l.ts h.a, flagged := true }
  else if l.fn == 1#3 then { operands := h.d == 0#6 && h.a == 0#6 && h.b == 0#6 && h.mk == 0#3 && h.mz == 0#1 && l.c == 0#6 && l.et == 0#4 && l.imm == 0#16, instr := .tcsclOne (fselOf h.fs) l.ts, flagged := true }
  else { operands := false, instr := .tcsclLd (fselOf h.fs) l.ts h.a, flagged := true }

/-- The word of `TSLV`, opcode 0xC9, form T (R321). -/
def wordTslv (h : Head) : Parsed :=
  let l := TLow.ofBits h.low
  { operands := h.b == 0#6 && l.c == 0#6 && l.fn.toNat ≤ 1 && immRound l.imm, instr := .tslv h.mk (h.mz == 1#1) (l.fn == 1#3) (Mode.ofRm (l.imm.extractLsb' 12 4)) (l.imm.getLsbD 14) (ET.ofCode l.et) l.ts h.d h.a }

/-- The word of `TSVL`, opcode 0xCA, form T (R322). -/
def wordTsvl (h : Head) : Parsed :=
  let l := TLow.ofBits h.low
  { operands := h.d == 0#6 && h.mz == 0#1 && l.c == 0#6 && l.fn.toNat ≤ 1 && immRound l.imm && l.imm.getLsbD 14 == false, instr := .tsvl h.mk (l.fn == 1#3) (Mode.ofRm (l.imm.extractLsb' 12 4)) (ET.ofCode l.et) l.ts h.a h.b }

/-- The word of `TSTR`, opcode 0xCB, form T (R323). -/
def wordTstr (h : Head) : Parsed :=
  let l := TLow.ofBits h.low
  { operands := h.d == 0#6 && h.mz == 0#1 && l.fn.toNat ≤ 2 && immRound l.imm, instr := .tstr (fselOf h.fs) h.mk (TstrMode.ofCode l.fn) (Mode.ofRm (l.imm.extractLsb' 12 4)) (l.imm.getLsbD 14) (ET.ofCode l.et) l.ts h.a h.b l.c, flagged := true }

/-- The word of `TSAVE`, opcode 0xCC, form T (R325). -/
def wordTsave (h : Head) : Parsed :=
  let l := TLow.ofBits h.low
  { operands := h.d == 0#6 && h.b == 0#6 && h.mk == 0#3 && h.mz == 0#1 && l.c == 0#6 && l.fn == 0#3 && l.et == 0#4 && l.imm == 0#16, instr := .tsave (fselOf h.fs) l.ts h.a, flagged := true }

/-- The word of `TLOAD`, opcode 0xCD, form T (R326). -/
def wordTload (h : Head) : Parsed :=
  let l := TLow.ofBits h.low
  { operands := h.d == 0#6 && h.b == 0#6 && h.mk == 0#3 && h.mz == 0#1 && l.c == 0#6 && l.fn == 0#3 && l.et == 0#4 && l.imm == 0#16, instr := .tload (fselOf h.fs) l.ts h.a, flagged := true }

/-- The word of `TRAP`, opcode 0xD0, form I (R338). -/
def wordTrap (h : Head) : Parsed :=
  { operands := h.d == 0#6 && h.a == 0#6 && h.b == 0#6 && h.mk == 0#3 && h.mz == 0#1 && h.low.toNat < 65536, instr := .trap (h.low.setWidth 16) }

/-- The word of `ERET`, opcode 0xD1, form R (R339). -/
def wordEret (h : Head) : Parsed :=
  let l := RLow.ofBits h.low
  { operands := h.d == 0#6 && h.a == 0#6 && h.b == 0#6 && h.mk == 0#3 && h.mz == 0#1 && l.z == 0#12 && l.c == 0#6 && l.fn == 0#6 && l.et == 0#4 && l.rm == 0#4, instr := .eret }

/-- The word of `GETSR`, opcode 0xD2, form I (R340). -/
def wordGetsr (h : Head) : Parsed :=
  { operands := h.a == 0#6 && h.b == 0#6 && h.mk == 0#3 && h.mz == 0#1 && h.low.toNat < 4096, instr := .getsr h.d (h.low.setWidth 12) }

/-- The word of `SETSR`, opcode 0xD3, form I (R340). -/
def wordSetsr (h : Head) : Parsed :=
  { operands := h.d == 0#6 && h.b == 0#6 && h.mk == 0#3 && h.mz == 0#1 && h.low.toNat < 4096, instr := .setsr (h.low.setWidth 12) h.a }

/-- The word of `CACHE_CLEAN`, `CACHE_FLUSH`, `CACHE_INV`, opcode 0xD4, form R (R341). -/
def wordCache (h : Head) : Parsed :=
  let l := RLow.ofBits h.low
  if l.fn == 0#6 then { operands := h.d == 0#6 && h.b == 0#6 && h.mk == 0#3 && h.mz == 0#1 && l.z == 0#12 && l.c == 0#6 && l.et == 0#4 && l.rm == 0#4, instr := .cacheClean h.a }
  else if l.fn == 1#6 then { operands := h.d == 0#6 && h.b == 0#6 && h.mk == 0#3 && h.mz == 0#1 && l.z == 0#12 && l.c == 0#6 && l.et == 0#4 && l.rm == 0#4, instr := .cacheFlush h.a }
  else if l.fn == 2#6 then { operands := h.d == 0#6 && h.b == 0#6 && h.mk == 0#3 && h.mz == 0#1 && l.z == 0#12 && l.c == 0#6 && l.et == 0#4 && l.rm == 0#4, instr := .cacheInv h.a }
  else { operands := false, instr := .cacheClean h.a }

/-- The word of `ICINV_RANGE`, `ICINV_ALL`, opcode 0xD5, form R (R342). -/
def wordIcinv (h : Head) : Parsed :=
  let l := RLow.ofBits h.low
  if l.fn == 0#6 then { operands := h.d == 0#6 && h.mk == 0#3 && h.mz == 0#1 && l.z == 0#12 && l.c == 0#6 && l.et == 0#4 && l.rm == 0#4, instr := .icinvRange h.a h.b }
  else if l.fn == 1#6 then { operands := h.d == 0#6 && h.a == 0#6 && h.b == 0#6 && h.mk == 0#3 && h.mz == 0#1 && l.z == 0#12 && l.c == 0#6 && l.et == 0#4 && l.rm == 0#4, instr := .icinvAll }
  else { operands := false, instr := .icinvRange h.a h.b }

/-- The word of `XLINV_VA`, `XLINV_ALL`, opcode 0xD6, form R (R343). -/
def wordXlinv (h : Head) : Parsed :=
  let l := RLow.ofBits h.low
  if l.fn == 0#6 then { operands := h.d == 0#6 && h.mk == 0#3 && h.mz == 0#1 && l.z == 0#12 && l.c == 0#6 && l.et == 0#4 && l.rm == 0#4, instr := .xlinvVa h.a h.b }
  else if l.fn == 1#6 then { operands := h.d == 0#6 && h.a == 0#6 && h.b == 0#6 && h.mk == 0#3 && h.mz == 0#1 && l.z == 0#12 && l.c == 0#6 && l.et == 0#4 && l.rm == 0#4, instr := .xlinvAll }
  else { operands := false, instr := .xlinvVa h.a h.b }

/-- The word of `LEASE`, opcode 0xD7, form R (R344). -/
def wordLease (h : Head) : Parsed :=
  let l := RLow.ofBits h.low
  { operands := h.b == 0#6 && h.mk == 0#3 && h.mz == 0#1 && l.z == 0#12 && l.c == 0#6 && l.fn == 0#6 && l.et == 0#4 && l.rm == 0#4, instr := .lease h.d h.a }

/-- The word of `HALT_WARP`, `HALT_TEAM`, opcode 0xD8, form R (R345). -/
def wordHalt (h : Head) : Parsed :=
  let l := RLow.ofBits h.low
  if l.fn == 0#6 then { operands := h.d == 0#6 && h.a == 0#6 && h.b == 0#6 && h.mk == 0#3 && h.mz == 0#1 && l.z == 0#12 && l.c == 0#6 && l.et == 0#4 && l.rm == 0#4, instr := .haltWarp }
  else if l.fn == 1#6 then { operands := h.d == 0#6 && h.b == 0#6 && h.mk == 0#3 && h.mz == 0#1 && l.z == 0#12 && l.c == 0#6 && l.et == 0#4 && l.rm == 0#4, instr := .haltTeam h.a }
  else { operands := false, instr := .haltWarp }

/-- Opcodes 0x00 to 0x0F (R50, Table 10, row 0x0). -/
def parseRow0 (h : Head) : Option Parsed :=
  if h.op = 0x01#8 then some (wordMov h) else
  if h.op = 0x02#8 then some (wordMovi h) else
  if h.op = 0x03#8 then some (wordMovhi h) else
  if h.op = 0x04#8 then some (wordAdrc h) else
  if h.op = 0x05#8 then some (wordAdd h) else
  if h.op = 0x06#8 then some (wordAddi h) else
  if h.op = 0x07#8 then some (wordSub h) else
  if h.op = 0x08#8 then some (wordMul h) else
  if h.op = 0x09#8 then some (wordMulhi h) else
  if h.op = 0x0A#8 then some (wordDiv h) else
  if h.op = 0x0B#8 then some (wordRem h) else
  if h.op = 0x0C#8 then some (wordAnd h) else
  if h.op = 0x0D#8 then some (wordAndi h) else
  if h.op = 0x0E#8 then some (wordOr h) else
  if h.op = 0x0F#8 then some (wordOri h) else
  none

/-- Opcodes 0x10 to 0x1F (R50, Table 10, row 0x1). -/
def parseRow1 (h : Head) : Option Parsed :=
  if h.op = 0x10#8 then some (wordXor h) else
  if h.op = 0x11#8 then some (wordXori h) else
  if h.op = 0x12#8 then some (wordShl h) else
  if h.op = 0x13#8 then some (wordShr h) else
  if h.op = 0x14#8 then some (wordSar h) else
  if h.op = 0x15#8 then some (wordShli h) else
  if h.op = 0x16#8 then some (wordShri h) else
  if h.op = 0x17#8 then some (wordSari h) else
  if h.op = 0x18#8 then some (wordClz h) else
  if h.op = 0x19#8 then some (wordPopc h) else
  if h.op = 0x1A#8 then some (wordMin h) else
  if h.op = 0x1B#8 then some (wordMax h) else
  if h.op = 0x1C#8 then some (wordCmp h) else
  if h.op = 0x1D#8 then some (wordCmpi h) else
  if h.op = 0x1E#8 then some (wordSel h) else
  if h.op = 0x1F#8 then some (wordNop h) else
  none

/-- Opcodes 0x20 to 0x2F (R50, Table 10, row 0x2). -/
def parseRow2 (h : Head) : Option Parsed :=
  if h.op = 0x20#8 then some (wordBr h) else
  if h.op = 0x21#8 then some (wordBrc h) else
  if h.op = 0x22#8 then some (wordBrz h) else
  if h.op = 0x23#8 then some (wordBrnz h) else
  if h.op = 0x24#8 then some (wordCall h) else
  if h.op = 0x25#8 then some (wordCallr h) else
  if h.op = 0x26#8 then some (wordRet h) else
  if h.op = 0x27#8 then some (wordJmpr h) else
  none

/-- Opcodes 0x30 to 0x3F (R50, Table 10, row 0x3). -/
def parseRow3 (h : Head) : Option Parsed :=
  if h.op = 0x30#8 then some (wordGetid h) else
  if h.op = 0x31#8 then some (wordTgrow h) else
  if h.op = 0x32#8 then some (wordTleave h) else
  if h.op = 0x33#8 then some (wordTstat h) else
  if h.op = 0x34#8 then some (wordBararv h) else
  if h.op = 0x35#8 then some (wordBarwait h) else
  if h.op = 0x36#8 then some (wordBarsync h) else
  if h.op = 0x37#8 then some (wordBarmask h) else
  if h.op = 0x38#8 then some (wordWsync h) else
  if h.op = 0x39#8 then some (wordVfork h) else
  if h.op = 0x3A#8 then some (wordLjoin h) else
  if h.op = 0x3B#8 then some (wordKlaunch h) else
  if h.op = 0x3C#8 then some (wordYield h) else
  none

/-- Opcodes 0x40 to 0x4F (R50, Table 10, row 0x4). -/
def parseRow4 (h : Head) : Option Parsed :=
  if h.op = 0x40#8 then some (wordSetvl h) else
  if h.op = 0x41#8 then some (wordSvloop h) else
  if h.op = 0x42#8 then some (wordGetvl h) else
  if h.op = 0x44#8 then some (wordMand h) else
  if h.op = 0x45#8 then some (wordMor h) else
  if h.op = 0x46#8 then some (wordMxor h) else
  if h.op = 0x47#8 then some (wordMandn h) else
  if h.op = 0x48#8 then some (wordMnot h) else
  if h.op = 0x49#8 then some (wordMmov h) else
  if h.op = 0x4A#8 then some (wordMset h) else
  if h.op = 0x4B#8 then some (wordMpopc h) else
  if h.op = 0x4C#8 then some (wordMfirst h) else
  none

/-- Opcodes 0x50 to 0x5F (R50, Table 10, row 0x5). -/
def parseRow5 (h : Head) : Option Parsed :=
  if h.op = 0x50#8 then some (wordVadd h) else
  if h.op = 0x51#8 then some (wordVadds h) else
  if h.op = 0x52#8 then some (wordVsub h) else
  if h.op = 0x53#8 then some (wordVsubs h) else
  if h.op = 0x54#8 then some (wordVmul h) else
  if h.op = 0x55#8 then some (wordVmulhi h) else
  if h.op = 0x56#8 then some (wordVmad h) else
  if h.op = 0x57#8 then some (wordVmin h) else
  if h.op = 0x58#8 then some (wordVmax h) else
  if h.op = 0x59#8 then some (wordVabs h) else
  if h.op = 0x5A#8 then some (wordVand h) else
  if h.op = 0x5B#8 then some (wordVor h) else
  if h.op = 0x5C#8 then some (wordVxor h) else
  if h.op = 0x5D#8 then some (wordVshl h) else
  if h.op = 0x5E#8 then some (wordVshr h) else
  if h.op = 0x5F#8 then some (wordVsar h) else
  none

/-- Opcodes 0x60 to 0x6F (R50, Table 10, row 0x6). -/
def parseRow6 (h : Head) : Option Parsed :=
  if h.op = 0x60#8 then some (wordVcmp h) else
  if h.op = 0x61#8 then some (wordVmrg h) else
  if h.op = 0x62#8 then some (wordVwid h) else
  if h.op = 0x63#8 then some (wordVsatn h) else
  if h.op = 0x64#8 then some (wordViota h) else
  if h.op = 0x65#8 then some (wordVbcs h) else
  if h.op = 0x66#8 then some (wordVpopc h) else
  if h.op = 0x67#8 then some (wordVaddi h) else
  if h.op = 0x68#8 then some (wordVclz h) else
  none

/-- Opcodes 0x70 to 0x7F (R50, Table 10, row 0x7). -/
def parseRow7 (h : Head) : Option Parsed :=
  if h.op = 0x70#8 then some (wordVfadd h) else
  if h.op = 0x71#8 then some (wordVfsub h) else
  if h.op = 0x72#8 then some (wordVfmul h) else
  if h.op = 0x73#8 then some (wordVfma h) else
  if h.op = 0x74#8 then some (wordVfnma h) else
  if h.op = 0x75#8 then some (wordVfmin h) else
  if h.op = 0x76#8 then some (wordVfmax h) else
  if h.op = 0x77#8 then some (wordVfdiv h) else
  if h.op = 0x78#8 then some (wordVfsqrt h) else
  if h.op = 0x79#8 then some (wordVfrsq h) else
  if h.op = 0x7A#8 then some (wordVfrcp h) else
  if h.op = 0x7B#8 then some (wordVfexp2 h) else
  if h.op = 0x7C#8 then some (wordVflog2 h) else
  if h.op = 0x7D#8 then some (wordVfcmp h) else
  if h.op = 0x7E#8 then some (wordVfclass h) else
  if h.op = 0x7F#8 then some (wordVcvt h) else
  none

/-- Opcodes 0x80 to 0x8F (R50, Table 10, row 0x8). -/
def parseRow8 (h : Head) : Option Parsed :=
  if h.op = 0x80#8 then some (wordVqnt h) else
  if h.op = 0x81#8 then some (wordVdqnt h) else
  if h.op = 0x82#8 then some (wordVfabs h) else
  none

/-- Opcodes 0x90 to 0x9F (R50, Table 10, row 0x9). -/
def parseRow9 (h : Head) : Option Parsed :=
  if h.op = 0x90#8 then some (wordVperm h) else
  if h.op = 0x91#8 then some (wordVslup h) else
  if h.op = 0x92#8 then some (wordVsldn h) else
  if h.op = 0x93#8 then some (wordVbcast h) else
  if h.op = 0x94#8 then some (wordVcmprs h) else
  if h.op = 0x95#8 then some (wordVexpnd h) else
  if h.op = 0x96#8 then some (wordVtr8 h) else
  if h.op = 0x97#8 then some (wordVredsum h) else
  if h.op = 0x98#8 then some (wordVredmax h) else
  if h.op = 0x99#8 then some (wordVredmin h) else
  if h.op = 0x9A#8 then some (wordVscan h) else
  if h.op = 0x9B#8 then some (wordVextr h) else
  if h.op = 0x9C#8 then some (wordVins h) else
  none

/-- Opcodes 0xA0 to 0xAF (R50, Table 10, row 0xA). -/
def parseRowA (h : Head) : Option Parsed :=
  if h.op = 0xA0#8 then some (wordLds h) else
  if h.op = 0xA1#8 then some (wordSts h) else
  if h.op = 0xA2#8 then some (wordVld h) else
  if h.op = 0xA3#8 then some (wordVst h) else
  if h.op = 0xA4#8 then some (wordVlds h) else
  if h.op = 0xA5#8 then some (wordVsts h) else
  if h.op = 0xA6#8 then some (wordVldx h) else
  if h.op = 0xA7#8 then some (wordVstx h) else
  if h.op = 0xA8#8 then some (wordStrdef h) else
  if h.op = 0xA9#8 then some (wordVldst h) else
  if h.op = 0xAA#8 then some (wordVstst h) else
  if h.op = 0xAB#8 then some (wordPref h) else
  none

/-- Opcodes 0xB0 to 0xBF (R50, Table 10, row 0xB). -/
def parseRowB (h : Head) : Option Parsed :=
  if h.op = 0xB0#8 then some (wordAtom h) else
  if h.op = 0xB1#8 then some (wordVatom h) else
  if h.op = 0xB2#8 then some (wordCas h) else
  if h.op = 0xB3#8 then some (wordVcas h) else
  if h.op = 0xB4#8 then some (wordRedord h) else
  if h.op = 0xB5#8 then some (wordFence h) else
  if h.op = 0xB8#8 then some (wordCpybox h) else
  if h.op = 0xB9#8 then some (wordCpya h) else
  if h.op = 0xBA#8 then some (wordCpyb h) else
  if h.op = 0xBB#8 then some (wordCpytrain h) else
  if h.op = 0xBC#8 then some (wordCwait h) else
  if h.op = 0xBD#8 then some (wordCstat h) else
  none

/-- Opcodes 0xC0 to 0xCF (R50, Table 10, row 0xC). -/
def parseRowC (h : Head) : Option Parsed :=
  if h.op = 0xC0#8 then some (wordTen h) else
  if h.op = 0xC1#8 then some (wordTdis h) else
  if h.op = 0xC2#8 then some (wordTset h) else
  if h.op = 0xC3#8 then some (wordTgrant h) else
  if h.op = 0xC4#8 then some (wordTzero h) else
  if h.op = 0xC5#8 then some (wordTldb h) else
  if h.op = 0xC6#8 then some (wordTmma h) else
  if h.op = 0xC7#8 then some (wordTmmas h) else
  if h.op = 0xC8#8 then some (wordTcscl h) else
  if h.op = 0xC9#8 then some (wordTslv h) else
  if h.op = 0xCA#8 then some (wordTsvl h) else
  if h.op = 0xCB#8 then some (wordTstr h) else
  if h.op = 0xCC#8 then some (wordTsave h) else
  if h.op = 0xCD#8 then some (wordTload h) else
  none

/-- Opcodes 0xD0 to 0xDF (R50, Table 10, row 0xD). -/
def parseRowD (h : Head) : Option Parsed :=
  if h.op = 0xD0#8 then some (wordTrap h) else
  if h.op = 0xD1#8 then some (wordEret h) else
  if h.op = 0xD2#8 then some (wordGetsr h) else
  if h.op = 0xD3#8 then some (wordSetsr h) else
  if h.op = 0xD4#8 then some (wordCache h) else
  if h.op = 0xD5#8 then some (wordIcinv h) else
  if h.op = 0xD6#8 then some (wordXlinv h) else
  if h.op = 0xD7#8 then some (wordLease h) else
  if h.op = 0xD8#8 then some (wordHalt h) else
  none

/-- The instruction a word names before its checks: `none` for a reserved opcode (R50). -/
def parse (h : Head) : Option Parsed :=
  match h.op.toNat / 16 with
  | 0 => parseRow0 h
  | 1 => parseRow1 h
  | 2 => parseRow2 h
  | 3 => parseRow3 h
  | 4 => parseRow4 h
  | 5 => parseRow5 h
  | 6 => parseRow6 h
  | 7 => parseRow7 h
  | 8 => parseRow8 h
  | 9 => parseRow9 h
  | 10 => parseRowA h
  | 11 => parseRowB h
  | 12 => parseRowC h
  | 13 => parseRowD h
  | _ => none

/-! ## The checks of a word (R32) -/

/-- Whether the enclosing header names a SETA and a SETB flag (R28). -/
structure FlagContext where
  setA : Bool
  setB : Bool
  deriving DecidableEq, Repr

/-- Condition 12 of R32 on the FS field: 3 is reserved, 1 needs a SETA flag, 2 a SETB flag, and only a flag-capable instruction takes either. -/
def flagAllowed (ctx : FlagContext) (capable : Bool) (fs : BitVec 2) : Bool :=
  if fs == 0#2 then true
  else capable && (if fs == 1#2 then ctx.setA else if fs == 2#2 then ctx.setB else false)

/-- The decoder: conditions 9 to 13 of R32 in order, and what condition 14 asks that does not depend on the warp. -/
def decodeWord (ctx : FlagContext) (w : BitVec 64) : Except IllegalReason Instr :=
  let h := Head.ofBits w
  if h.op == 0xF8#8 then .error .marker else
  match parse h with
  | none => .error .opcode
  | some p =>
    let c := operandChecks p.instr
    if !(p.operands && c.operand) then .error .operand
    else if !(flagAllowed ctx p.flagged h.fs && c.flag) then .error .flag
    else if !(p.typed && c.elementType) then .error .elementType
    else if !(p.small && c.register) then .error .register
    else .ok p.instr

/-- The opcodes that transfer control and must stand last in their clause (R30). -/
def isTransfer (w : BitVec 64) : Bool :=
  let op := (w.extractLsb' 56 8).toNat
  (0x20 ≤ op && op ≤ 0x27) || op == 0x41 || op == 0x39 || op == 0x3A || op == 0xD0 || op == 0xD1

/-! ## The clause header (R28) -/

/-- A clause header, by the fields of Table 4 of R28. -/
structure Header where
  n : BitVec 3
  wait : BitVec 12
  setA : BitVec 4
  setB : BitVec 4
  yld : BitVec 2
  cls : BitVec 3
  zero : BitVec 28
  deriving DecidableEq, Repr

def Header.ofBits (w : BitVec 64) : Header :=
  { n := w.extractLsb' 53 3, wait := w.extractLsb' 41 12, setA := w.extractLsb' 37 4, setB := w.extractLsb' 33 4,
    yld := w.extractLsb' 31 2, cls := w.extractLsb' 28 3, zero := w.extractLsb' 0 28 }

def Header.toBits (h : Header) : BitVec 64 :=
  0xF8#8 ++ h.n ++ h.wait ++ h.setA ++ h.setB ++ h.yld ++ h.cls ++ h.zero

/-- The flags that a header names, for condition 12 of R32. -/
def Header.context (h : Header) : FlagContext := { setA := h.setA != 15#4, setB := h.setB != 15#4 }

/-- The reasons of the misformed-clause trap (R32, Table 5). -/
inductive ClauseReason where
  /-- 0x10: N = 0. -/
  | count
  /-- 0x11: SETA or SETB in 12–14, or equal and not 15. -/
  | flags
  /-- 0x12: YLD = 3 or CLS = 7. -/
  | hints
  /-- 0x13: bits [27:0] nonzero. -/
  | zero
  /-- 0x14: the span crosses a 4 KiB boundary. -/
  | span
  /-- 0x15: a misaligned or unmarked header. -/
  | target
  deriving DecidableEq, Repr

def ClauseReason.code : ClauseReason → BitVec 8
  | .count => 0x10#8 | .flags => 0x11#8 | .hints => 0x12#8 | .zero => 0x13#8 | .span => 0x14#8 | .target => 0x15#8

/-- Conditions 2 to 7 of R32 on the word `w` fetched at the clause address `h`. -/
def headerCheck (h : Nat) (w : BitVec 64) : Option ClauseReason :=
  let f := Header.ofBits w
  let flagBad (v : BitVec 4) : Bool := 12 ≤ v.toNat && v.toNat ≤ 14
  if w.extractLsb' 56 8 != 0xF8#8 then some .target
  else if f.n == 0#3 then some .count
  else if flagBad f.setA || flagBad f.setB || (f.setA == f.setB && f.setA != 15#4) then some .flags
  else if f.yld == 3#2 || f.cls == 7#3 then some .hints
  else if f.zero != 0#28 then some .zero
  else if 4096 < h % 4096 + 8 * (f.n.toNat + 1) then some .span
  else none

/-! ## The encoder -/

/-- The word of an instruction, written from the same tables of the spec (R25, R26 and the encoding table of each chapter): `none` for an event, which has no word. Fields that no argument fills are zero (R27). -/
def encode : Instr → Option (BitVec 64)
  | .mov u d a => some (Head.toBits { op := 0x01#8, d := d, a := a, low := RLow.toBits { fn := flagFn u } })
  | .movi d imm => some (Head.toBits { op := 0x02#8, d := d, low := imm })
  | .movhi d a imm => some (Head.toBits { op := 0x03#8, d := d, a := a, low := imm })
  | .adrc d imm => some (Head.toBits { op := 0x04#8, d := d, low := imm })
  | .add d a b => some (Head.toBits { op := 0x05#8, d := d, a := a, b := b })
  | .addi d a imm => some (Head.toBits { op := 0x06#8, d := d, a := a, low := imm })
  | .sub d a b => some (Head.toBits { op := 0x07#8, d := d, a := a, b := b })
  | .mul d a b => some (Head.toBits { op := 0x08#8, d := d, a := a, b := b })
  | .mulhi sg d a b => some (Head.toBits { op := 0x09#8, d := d, a := a, b := b, low := RLow.toBits { fn := Sgn.code sg } })
  | .div fs sg d a b => some (Head.toBits { op := 0x0A#8, fs := FSel.code fs, d := d, a := a, b := b, low := RLow.toBits { fn := Sgn.code sg } })
  | .rem fs sg d a b => some (Head.toBits { op := 0x0B#8, fs := FSel.code fs, d := d, a := a, b := b, low := RLow.toBits { fn := Sgn.code sg } })
  | .and d a b => some (Head.toBits { op := 0x0C#8, d := d, a := a, b := b })
  | .andi d a imm => some (Head.toBits { op := 0x0D#8, d := d, a := a, low := imm })
  | .or d a b => some (Head.toBits { op := 0x0E#8, d := d, a := a, b := b })
  | .ori d a imm => some (Head.toBits { op := 0x0F#8, d := d, a := a, low := imm })
  | .xor d a b => some (Head.toBits { op := 0x10#8, d := d, a := a, b := b })
  | .xori d a imm => some (Head.toBits { op := 0x11#8, d := d, a := a, low := imm })
  | .shl d a b => some (Head.toBits { op := 0x12#8, d := d, a := a, b := b })
  | .shr d a b => some (Head.toBits { op := 0x13#8, d := d, a := a, b := b })
  | .sar d a b => some (Head.toBits { op := 0x14#8, d := d, a := a, b := b })
  | .shli d a imm => some (Head.toBits { op := 0x15#8, d := d, a := a, low := BitVec.setWidth 32 imm })
  | .shri d a imm => some (Head.toBits { op := 0x16#8, d := d, a := a, low := BitVec.setWidth 32 imm })
  | .sari d a imm => some (Head.toBits { op := 0x17#8, d := d, a := a, low := BitVec.setWidth 32 imm })
  | .clz d a => some (Head.toBits { op := 0x18#8, d := d, a := a })
  | .popc d a => some (Head.toBits { op := 0x19#8, d := d, a := a })
  | .min sg d a b => some (Head.toBits { op := 0x1A#8, d := d, a := a, b := b, low := RLow.toBits { fn := Sgn.code sg } })
  | .max sg d a b => some (Head.toBits { op := 0x1B#8, d := d, a := a, b := b, low := RLow.toBits { fn := Sgn.code sg } })
  | .cmp cc d a b => some (Head.toBits { op := 0x1C#8, d := d, a := a, b := b, low := RLow.toBits { fn := Cond.code cc } })
  | .cmpi cc d a imm => some (Head.toBits { op := 0x1D#8, b := Cond.code cc, d := d, a := a, low := imm })
  | .sel d a b c => some (Head.toBits { op := 0x1E#8, d := d, a := a, b := b, low := RLow.toBits { c := c } })
  | .nop => some (Head.toBits { op := 0x1F#8 })
  | .br disp => some (Head.toBits { op := 0x20#8, low := disp })
  | .brc cc a b disp => some (Head.toBits { op := 0x21#8, d := Cond.code cc, a := a, b := b, low := disp })
  | .brz a disp => some (Head.toBits { op := 0x22#8, a := a, low := disp })
  | .brnz a disp => some (Head.toBits { op := 0x23#8, a := a, low := disp })
  | .call disp => some (Head.toBits { op := 0x24#8, low := disp })
  | .callr a => some (Head.toBits { op := 0x25#8, a := a })
  | .ret => some (Head.toBits { op := 0x26#8 })
  | .jmpr a => some (Head.toBits { op := 0x27#8, a := a })
  | .getid sel d => some (Head.toBits { op := 0x30#8, d := d, low := RLow.toBits { fn := GetIdSel.code sel } })
  | .tgrow d a => some (Head.toBits { op := 0x31#8, d := d, a := a })
  | .tleave => some (Head.toBits { op := 0x32#8 })
  | .tstat d => some (Head.toBits { op := 0x33#8, d := d })
  | .bararv b => some (Head.toBits { op := 0x34#8, low := BitVec.setWidth 32 b })
  | .barwait b => some (Head.toBits { op := 0x35#8, low := BitVec.setWidth 32 b })
  | .barsync b => some (Head.toBits { op := 0x36#8, low := BitVec.setWidth 32 b })
  | .barmask imm => some (Head.toBits { op := 0x37#8, low := BitVec.setWidth 32 imm })
  | .wsync n a => some (Head.toBits { op := 0x38#8, low := BitVec.setWidth 32 n, a := a })
  | .vfork a disp => some (Head.toBits { op := 0x39#8, a := wide a, low := disp })
  | .ljoin => some (Head.toBits { op := 0x3A#8 })
  | .klaunch d a b => some (Head.toBits { op := 0x3B#8, d := d, a := a, b := b })
  | .yield => some (Head.toBits { op := 0x3C#8 })
  | .setvl d a et blk grp => some (Head.toBits { op := 0x40#8, d := d, a := a, low := StripImm.bits et blk grp })
  | .svloop a disp => some (Head.toBits { op := 0x41#8, a := a, low := disp })
  | .getvl sel d => some (Head.toBits { op := 0x42#8, d := d, low := RLow.toBits { fn := GetVlSel.code sel } })
  | .mand d a b => some (Head.toBits { op := 0x44#8, d := wide d, a := wide a, b := wide b })
  | .mor d a b => some (Head.toBits { op := 0x45#8, d := wide d, a := wide a, b := wide b })
  | .mxor d a b => some (Head.toBits { op := 0x46#8, d := wide d, a := wide a, b := wide b })
  | .mandn d a b => some (Head.toBits { op := 0x47#8, d := wide d, a := wide a, b := wide b })
  | .mnot d a => some (Head.toBits { op := 0x48#8, d := wide d, a := wide a })
  | .mmov d a => some (Head.toBits { op := 0x49#8, d := wide d, a := wide a })
  | .mset sel d a => some (Head.toBits { op := 0x4A#8, d := wide d, a := a, low := RLow.toBits { fn := MsetSel.code sel } })
  | .mpopc d a => some (Head.toBits { op := 0x4B#8, d := d, a := wide a })
  | .mfirst d a => some (Head.toBits { op := 0x4C#8, d := d, a := wide a })
  | .vadd mk mz et d a b => some (Head.toBits { op := 0x50#8, mk := mk, mz := BitVec.ofBool mz, d := d, a := a, b := b, low := RLow.toBits { et := ET.code et } })
  | .vadds mk mz et d a b => some (Head.toBits { op := 0x51#8, mk := mk, mz := BitVec.ofBool mz, d := d, a := a, b := b, low := RLow.toBits { et := ET.code et } })
  | .vsub mk mz et d a b => some (Head.toBits { op := 0x52#8, mk := mk, mz := BitVec.ofBool mz, d := d, a := a, b := b, low := RLow.toBits { et := ET.code et } })
  | .vsubs mk mz et d a b => some (Head.toBits { op := 0x53#8, mk := mk, mz := BitVec.ofBool mz, d := d, a := a, b := b, low := RLow.toBits { et := ET.code et } })
  | .vmul mk mz et d a b => some (Head.toBits { op := 0x54#8, mk := mk, mz := BitVec.ofBool mz, d := d, a := a, b := b, low := RLow.toBits { et := ET.code et } })
  | .vmulhi mk mz et d a b => some (Head.toBits { op := 0x55#8, mk := mk, mz := BitVec.ofBool mz, d := d, a := a, b := b, low := RLow.toBits { et := ET.code et } })
  | .vmad mk mz et d a b c => some (Head.toBits { op := 0x56#8, mk := mk, mz := BitVec.ofBool mz, d := d, a := a, b := b, low := RLow.toBits { et := ET.code et, c := c } })
  | .vmin mk mz et d a b => some (Head.toBits { op := 0x57#8, mk := mk, mz := BitVec.ofBool mz, d := d, a := a, b := b, low := RLow.toBits { et := ET.code et } })
  | .vmax mk mz et d a b => some (Head.toBits { op := 0x58#8, mk := mk, mz := BitVec.ofBool mz, d := d, a := a, b := b, low := RLow.toBits { et := ET.code et } })
  | .vabs mk mz sat et d a => some (Head.toBits { op := 0x59#8, mk := mk, mz := BitVec.ofBool mz, d := d, a := a, low := RLow.toBits { fn := flagFn sat, et := ET.code et } })
  | .vand mk mz et d a b => some (Head.toBits { op := 0x5A#8, mk := mk, mz := BitVec.ofBool mz, d := d, a := a, b := b, low := RLow.toBits { et := ET.code et } })
  | .vor mk mz et d a b => some (Head.toBits { op := 0x5B#8, mk := mk, mz := BitVec.ofBool mz, d := d, a := a, b := b, low := RLow.toBits { et := ET.code et } })
  | .vxor mk mz et d a b => some (Head.toBits { op := 0x5C#8, mk := mk, mz := BitVec.ofBool mz, d := d, a := a, b := b, low := RLow.toBits { et := ET.code et } })
  | .vshl mk mz et d a b => some (Head.toBits { op := 0x5D#8, mk := mk, mz := BitVec.ofBool mz, d := d, a := a, b := b, low := RLow.toBits { et := ET.code et } })
  | .vshr mk mz et d a b => some (Head.toBits { op := 0x5E#8, mk := mk, mz := BitVec.ofBool mz, d := d, a := a, b := b, low := RLow.toBits { et := ET.code et } })
  | .vsar mk mz et d a b => some (Head.toBits { op := 0x5F#8, mk := mk, mz := BitVec.ofBool mz, d := d, a := a, b := b, low := RLow.toBits { et := ET.code et } })
  | .vcmp mk mz cc et d a b => some (Head.toBits { op := 0x60#8, mk := mk, mz := BitVec.ofBool mz, d := wide d, a := a, b := b, low := RLow.toBits { fn := Cond.code cc, et := ET.code et } })
  | .vmrg mk et d a b => some (Head.toBits { op := 0x61#8, mk := mk, d := d, a := a, b := b, low := RLow.toBits { et := ET.code et } })
  | .vwid mk mz src et d a => some (Head.toBits { op := 0x62#8, mk := mk, mz := BitVec.ofBool mz, d := d, a := a, low := RLow.toBits { fn := BitVec.setWidth 6 (ET.code src), et := ET.code et } })
  | .vsatn mk mz src et d a => some (Head.toBits { op := 0x63#8, mk := mk, mz := BitVec.ofBool mz, d := d, a := a, low := RLow.toBits { fn := BitVec.setWidth 6 (ET.code src), et := ET.code et } })
  | .viota mk mz byMask et d a => some (Head.toBits { op := 0x64#8, mk := mk, mz := BitVec.ofBool mz, d := d, a := wide a, low := RLow.toBits { fn := flagFn byMask, et := ET.code et } })
  | .vbcs mk mz et d a => some (Head.toBits { op := 0x65#8, mk := mk, mz := BitVec.ofBool mz, d := d, a := a, low := RLow.toBits { et := ET.code et } })
  | .vpopc mk mz et d a => some (Head.toBits { op := 0x66#8, mk := mk, mz := BitVec.ofBool mz, d := d, a := a, low := RLow.toBits { et := ET.code et } })
  | .vaddi mk mz d a imm => some (Head.toBits { op := 0x67#8, mk := mk, mz := BitVec.ofBool mz, d := d, a := a, low := imm })
  | .vclz mk mz et d a => some (Head.toBits { op := 0x68#8, mk := mk, mz := BitVec.ofBool mz, d := d, a := a, low := RLow.toBits { et := ET.code et } })
  | .vfadd mk mz md et d a b => some (Head.toBits { op := 0x70#8, mk := mk, mz := BitVec.ofBool mz, d := d, a := a, b := b, low := RLow.toBits { rm := Mode.rm md, et := ET.code et } })
  | .vfsub mk mz md et d a b => some (Head.toBits { op := 0x71#8, mk := mk, mz := BitVec.ofBool mz, d := d, a := a, b := b, low := RLow.toBits { rm := Mode.rm md, et := ET.code et } })
  | .vfmul mk mz md et d a b => some (Head.toBits { op := 0x72#8, mk := mk, mz := BitVec.ofBool mz, d := d, a := a, b := b, low := RLow.toBits { rm := Mode.rm md, et := ET.code et } })
  | .vfma mk mz md et d a b c => some (Head.toBits { op := 0x73#8, mk := mk, mz := BitVec.ofBool mz, d := d, a := a, b := b, low := RLow.toBits { rm := Mode.rm md, et := ET.code et, c := c } })
  | .vfnma mk mz md et d a b c => some (Head.toBits { op := 0x74#8, mk := mk, mz := BitVec.ofBool mz, d := d, a := a, b := b, low := RLow.toBits { rm := Mode.rm md, et := ET.code et, c := c } })
  | .vfmin mk mz et d a b => some (Head.toBits { op := 0x75#8, mk := mk, mz := BitVec.ofBool mz, d := d, a := a, b := b, low := RLow.toBits { et := ET.code et } })
  | .vfmax mk mz et d a b => some (Head.toBits { op := 0x76#8, mk := mk, mz := BitVec.ofBool mz, d := d, a := a, b := b, low := RLow.toBits { et := ET.code et } })
  | .vfdiv fs mk mz md et d a b => some (Head.toBits { op := 0x77#8, fs := FSel.code fs, mk := mk, mz := BitVec.ofBool mz, d := d, a := a, b := b, low := RLow.toBits { rm := Mode.rm md, et := ET.code et } })
  | .vfsqrt fs mk mz md et d a => some (Head.toBits { op := 0x78#8, fs := FSel.code fs, mk := mk, mz := BitVec.ofBool mz, d := d, a := a, low := RLow.toBits { rm := Mode.rm md, et := ET.code et } })
  | .vfrsq fs mk mz md et d a => some (Head.toBits { op := 0x79#8, fs := FSel.code fs, mk := mk, mz := BitVec.ofBool mz, d := d, a := a, low := RLow.toBits { rm := Mode.rm md, et := ET.code et } })
  | .vfrcp fs mk mz md et d a => some (Head.toBits { op := 0x7A#8, fs := FSel.code fs, mk := mk, mz := BitVec.ofBool mz, d := d, a := a, low := RLow.toBits { rm := Mode.rm md, et := ET.code et } })
  | .vfexp2 fs mk mz md et d a => some (Head.toBits { op := 0x7B#8, fs := FSel.code fs, mk := mk, mz := BitVec.ofBool mz, d := d, a := a, low := RLow.toBits { rm := Mode.rm md, et := ET.code et } })
  | .vflog2 fs mk mz md et d a => some (Head.toBits { op := 0x7C#8, fs := FSel.code fs, mk := mk, mz := BitVec.ofBool mz, d := d, a := a, low := RLow.toBits { rm := Mode.rm md, et := ET.code et } })
  | .vfcmp mk mz cc et d a b => some (Head.toBits { op := 0x7D#8, mk := mk, mz := BitVec.ofBool mz, d := wide d, a := a, b := b, low := RLow.toBits { fn := FCond.code cc, et := ET.code et } })
  | .vfclass mk mz et d a => some (Head.toBits { op := 0x7E#8, mk := mk, mz := BitVec.ofBool mz, d := d, a := a, low := RLow.toBits { et := ET.code et } })
  | .vcvt mk mz md nsat src et d a => some (Head.toBits { op := 0x7F#8, mk := mk, mz := BitVec.ofBool mz, d := d, a := a, low := RLow.toBits { fn := BitVec.setWidth 6 (ET.code src), et := ET.code et, rm := convRm md nsat } })
  | .vqnt tr src et d a b => some (Head.toBits { op := 0x80#8, d := d, a := a, b := b, low := RLow.toBits { fn := vqntFn tr src, et := ET.code et } })
  | .vdqnt mk mz md src et d a b => some (Head.toBits { op := 0x81#8, mk := mk, mz := BitVec.ofBool mz, d := d, a := a, b := b, low := RLow.toBits { rm := Mode.rm md, fn := BitVec.setWidth 6 (ET.code src), et := ET.code et } })
  | .vfabs mk mz et d a => some (Head.toBits { op := 0x82#8, mk := mk, mz := BitVec.ofBool mz, d := d, a := a, low := RLow.toBits { et := ET.code et } })
  | .vperm mk mz et d a b => some (Head.toBits { op := 0x90#8, mk := mk, mz := BitVec.ofBool mz, d := d, a := a, b := b, low := RLow.toBits { et := ET.code et } })
  | .vslup mk mz et d a b => some (Head.toBits { op := 0x91#8, mk := mk, mz := BitVec.ofBool mz, d := d, a := a, b := b, low := RLow.toBits { et := ET.code et } })
  | .vsldn mk mz et d a b => some (Head.toBits { op := 0x92#8, mk := mk, mz := BitVec.ofBool mz, d := d, a := a, b := b, low := RLow.toBits { et := ET.code et } })
  | .vbcast mk mz et d a b => some (Head.toBits { op := 0x93#8, mk := mk, mz := BitVec.ofBool mz, d := d, a := a, b := b, low := RLow.toBits { et := ET.code et } })
  | .vcmprs et d a b => some (Head.toBits { op := 0x94#8, d := d, a := a, b := wide b, low := RLow.toBits { et := ET.code et } })
  | .vexpnd et d a b => some (Head.toBits { op := 0x95#8, d := d, a := a, b := wide b, low := RLow.toBits { et := ET.code et } })
  | .vtr8 mk mz et d a => some (Head.toBits { op := 0x96#8, mk := mk, mz := BitVec.ofBool mz, d := d, a := a, low := RLow.toBits { et := ET.code et } })
  | .vredsum mk md et d a => some (Head.toBits { op := 0x97#8, mk := mk, d := d, a := a, low := RLow.toBits { rm := Mode.rm md, et := ET.code et } })
  | .vredmax mk et d a => some (Head.toBits { op := 0x98#8, mk := mk, d := d, a := a, low := RLow.toBits { et := ET.code et } })
  | .vredmin mk et d a => some (Head.toBits { op := 0x99#8, mk := mk, d := d, a := a, low := RLow.toBits { et := ET.code et } })
  | .vscan mk mz md op et d a => some (Head.toBits { op := 0x9A#8, mk := mk, mz := BitVec.ofBool mz, d := d, a := a, low := RLow.toBits { rm := Mode.rm md, fn := ScanOp.code op, et := ET.code et } })
  | .vextr et d a b => some (Head.toBits { op := 0x9B#8, d := d, a := a, b := b, low := RLow.toBits { et := ET.code et } })
  | .vins et d a b => some (Head.toBits { op := 0x9C#8, d := d, a := a, b := b, low := RLow.toBits { et := ET.code et } })
  | .lds fs et ch d a off => some (Head.toBits { op := 0xA0#8, fs := FSel.code fs, d := d, a := a, low := MLow.toBits { et := ET.code et, ch := BitVec.setWidth 4 ch, off := off } })
  | .sts et ch a b off => some (Head.toBits { op := 0xA1#8, a := a, b := b, low := MLow.toBits { et := ET.code et, ch := BitVec.setWidth 4 ch, off := off } })
  | .vld fs mk mz et ch d a off => some (Head.toBits { op := 0xA2#8, fs := FSel.code fs, mk := mk, mz := BitVec.ofBool mz, d := d, a := a, low := MLow.toBits { et := ET.code et, ch := BitVec.setWidth 4 ch, off := off } })
  | .vst mk et ch a b off => some (Head.toBits { op := 0xA3#8, mk := mk, a := a, b := b, low := MLow.toBits { et := ET.code et, ch := BitVec.setWidth 4 ch, off := off } })
  | .vlds fs mk mz et ch d a c off => some (Head.toBits { op := 0xA4#8, fs := FSel.code fs, mk := mk, mz := BitVec.ofBool mz, d := d, a := a, low := MLow.toBits { et := ET.code et, ch := BitVec.setWidth 4 ch, c := c, off := off } })
  | .vsts mk et ch a b c off => some (Head.toBits { op := 0xA5#8, mk := mk, a := a, b := b, low := MLow.toBits { et := ET.code et, ch := BitVec.setWidth 4 ch, c := c, off := off } })
  | .vldx fs mk mz et ch d a c off => some (Head.toBits { op := 0xA6#8, fs := FSel.code fs, mk := mk, mz := BitVec.ofBool mz, d := d, a := a, low := MLow.toBits { et := ET.code et, ch := BitVec.setWidth 4 ch, c := c, off := off } })
  | .vstx mk et ch a b c off => some (Head.toBits { op := 0xA7#8, mk := mk, a := a, b := b, low := MLow.toBits { et := ET.code et, ch := BitVec.setWidth 4 ch, c := c, off := off } })
  | .strdef si d a b => some (Head.toBits { op := 0xA8#8, low := StreamImm.bits si, d := wide d, a := a, b := b })
  | .vldst fs mk mz ch d a => some (Head.toBits { op := 0xA9#8, fs := FSel.code fs, mk := mk, mz := BitVec.ofBool mz, d := d, a := wide a, low := MLow.toBits { ch := BitVec.setWidth 4 ch } })
  | .vstst mk ch a b => some (Head.toBits { op := 0xAA#8, mk := mk, a := wide a, b := b, low := MLow.toBits { ch := BitVec.setWidth 4 ch } })
  | .pref ch a off => some (Head.toBits { op := 0xAB#8, a := a, low := MLow.toBits { ch := BitVec.setWidth 4 ch, off := off } })
  | .atom fs op ord md et d a b => some (Head.toBits { op := 0xB0#8, fs := FSel.code fs, d := d, a := a, b := b, low := RLow.toBits { rm := Mode.rm md, et := ET.code et, fn := atomFn op ord } })
  | .vatom fs mk mz op ord md et d a b c => some (Head.toBits { op := 0xB1#8, fs := FSel.code fs, mk := mk, mz := BitVec.ofBool mz, d := d, a := a, b := b, low := RLow.toBits { rm := Mode.rm md, et := ET.code et, c := c, fn := atomFn op ord } })
  | .cas fs ord et d a b c => some (Head.toBits { op := 0xB2#8, fs := FSel.code fs, d := d, a := a, b := b, low := RLow.toBits { fn := BitVec.setWidth 6 (Ord4.code ord), et := ET.code et, c := c } })
  | .vcas fs mk mz ord et d a b c => some (Head.toBits { op := 0xB3#8, fs := FSel.code fs, mk := mk, mz := BitVec.ofBool mz, d := d, a := a, b := b, low := RLow.toBits { fn := BitVec.setWidth 6 (Ord4.code ord), et := ET.code et, c := c } })
  | .redord md d a b c => some (Head.toBits { op := 0xB4#8, d := d, a := a, b := b, low := RLow.toBits { rm := Mode.rm md, c := c, et := ET.code .fp32 } })
  | .fence kind scope => some (Head.toBits { op := 0xB5#8, low := RLow.toBits { fn := fenceFn kind scope } })
  | .cpyboxIn fs d a b c ch => some (Head.toBits { op := 0xB8#8, fs := FSel.code fs, d := d, a := a, b := b, low := TLow.toBits { c := c, imm := BitVec.setWidth 16 ch } })
  | .cpyboxOut fs d a b c ch => some (Head.toBits { op := 0xB8#8, fs := FSel.code fs, d := d, a := a, b := b, low := TLow.toBits { c := c, imm := BitVec.setWidth 16 ch, fn := 1 } })
  | .cpya fs t d a b ch => some (Head.toBits { op := 0xB9#8, fs := FSel.code fs, d := d, a := a, b := b, low := TLow.toBits { ts := t, imm := BitVec.setWidth 16 ch } })
  | .cpyb fs t d a b ch => some (Head.toBits { op := 0xBA#8, fs := FSel.code fs, d := d, a := a, b := b, low := TLow.toBits { ts := t, imm := BitVec.setWidth 16 ch } })
  | .cpytrain fs op et d a b ch => some (Head.toBits { op := 0xBB#8, fs := FSel.code fs, d := d, a := a, b := b, low := TLow.toBits { fn := TrainOp.code op, et := ET.code et, imm := BitVec.setWidth 16 ch } })
  | .cwait a ch => some (Head.toBits { op := 0xBC#8, a := a, low := TLow.toBits { imm := BitVec.setWidth 16 ch } })
  | .cstat sel d a ch => some (Head.toBits { op := 0xBD#8, d := d, a := a, low := TLow.toBits { fn := CstatSel.code sel, imm := BitVec.setWidth 16 ch } })
  | .cstatClr d ch => some (Head.toBits { op := 0xBD#8, d := d, low := TLow.toBits { imm := BitVec.setWidth 16 ch, fn := 4 } })
  | .ten => some (Head.toBits { op := 0xC0#8 })
  | .tdis => some (Head.toBits { op := 0xC1#8 })
  | .tset t d a aty bty blk => some (Head.toBits { op := 0xC2#8, d := d, a := a, low := TLow.toBits { ts := t, imm := tsetImm aty bty blk } })
  | .tgrant t d => some (Head.toBits { op := 0xC3#8, d := d, low := TLow.toBits { ts := t } })
  | .tzero t => some (Head.toBits { op := 0xC4#8, low := TLow.toBits { ts := t } })
  | .tldb fs t a b => some (Head.toBits { op := 0xC5#8, fs := FSel.code fs, a := a, b := b, low := TLow.toBits { ts := t } })
  | .tmma fs t a => some (Head.toBits { op := 0xC6#8, fs := FSel.code fs, a := a, low := TLow.toBits { ts := t } })
  | .tmmas fs t a b => some (Head.toBits { op := 0xC7#8, fs := FSel.code fs, a := a, b := b, low := TLow.toBits { ts := t } })
  | .tcsclLd fs t a => some (Head.toBits { op := 0xC8#8, fs := FSel.code fs, a := a, low := TLow.toBits { ts := t } })
  | .tcsclOne fs t => some (Head.toBits { op := 0xC8#8, fs := FSel.code fs, low := TLow.toBits { ts := t, fn := 1 } })
  | .tslv mk mz col md nsat et t d a => some (Head.toBits { op := 0xC9#8, mk := mk, mz := BitVec.ofBool mz, d := d, a := a, low := TLow.toBits { fn := flagFn3 col, et := ET.code et, ts := t, imm := roundImm md nsat } })
  | .tsvl mk col md et t a b => some (Head.toBits { op := 0xCA#8, mk := mk, a := a, b := b, low := TLow.toBits { fn := flagFn3 col, et := ET.code et, ts := t, imm := roundImm md false } })
  | .tstr fs mk tm md nsat et t a b c => some (Head.toBits { op := 0xCB#8, fs := FSel.code fs, mk := mk, a := a, b := b, low := TLow.toBits { fn := TstrMode.code tm, et := ET.code et, ts := t, c := c, imm := roundImm md nsat } })
  | .tsave fs t a => some (Head.toBits { op := 0xCC#8, fs := FSel.code fs, a := a, low := TLow.toBits { ts := t } })
  | .tload fs t a => some (Head.toBits { op := 0xCD#8, fs := FSel.code fs, a := a, low := TLow.toBits { ts := t } })
  | .trap imm => some (Head.toBits { op := 0xD0#8, low := BitVec.setWidth 32 imm })
  | .eret => some (Head.toBits { op := 0xD1#8 })
  | .getsr d sr => some (Head.toBits { op := 0xD2#8, d := d, low := BitVec.setWidth 32 sr })
  | .setsr sr a => some (Head.toBits { op := 0xD3#8, low := BitVec.setWidth 32 sr, a := a })
  | .cacheClean a => some (Head.toBits { op := 0xD4#8, a := a })
  | .cacheFlush a => some (Head.toBits { op := 0xD4#8, a := a, low := RLow.toBits { fn := 1 } })
  | .cacheInv a => some (Head.toBits { op := 0xD4#8, a := a, low := RLow.toBits { fn := 2 } })
  | .icinvRange a b => some (Head.toBits { op := 0xD5#8, a := a, b := b })
  | .icinvAll => some (Head.toBits { op := 0xD5#8, low := RLow.toBits { fn := 1 } })
  | .xlinvVa a b => some (Head.toBits { op := 0xD6#8, a := a, b := b })
  | .xlinvAll => some (Head.toBits { op := 0xD6#8, low := RLow.toBits { fn := 1 } })
  | .lease d a => some (Head.toBits { op := 0xD7#8, d := d, a := a })
  | .haltWarp => some (Head.toBits { op := 0xD8#8 })
  | .haltTeam a => some (Head.toBits { op := 0xD8#8, a := a, low := RLow.toBits { fn := 1 } })
  | .clauseStart => none
  | .instructionCompletion _ _ => none
  | .urgent _ => none
  | .classGroupClose _ => none
  | .preemptionRequest _ => none
  | .forcedFullSave _ => none
  | .teamSave _ => none
  | .teamResume _ => none
  | .shrinkRequest _ _ => none
  | .schedulerAttach _ => none
  | .milestoneFire _ => none
  | .tailObserved _ _ => none
  | .queueDisableWrite _ _ => none
  | .queueEnableWrite _ _ => none
  | .teamPlacement _ => none
  | .teamComplete _ => none
  | .hostKill _ => none
  | .lineArrival _ => none
  | .runAhead _ _ => none
  | .redordUnpark _ => none
  | .fqresp _ _ _ => none
  | .prresp _ _ _ => none
  | .faultReissue _ _ => none
  | .fqheadWrite _ _ => none
  | .prqheadWrite _ _ => none
  | .wbrheadWrite _ _ => none
  | .errheadWrite _ _ => none
  | .invalidationComplete _ => none
  | .copySegment _ => none
  | .copyResume _ => none
  | .copyComplete _ => none
  | .trainDelivery _ => none
  | .baleWholeWrite _ _ _ _ => none
  | .baleMerge _ _ _ _ => none
  | .baleRead _ _ => none
  | .uncorrectableEviction _ => none
  | .patrolScrub _ => none
  | .train _ => none
  | .tollSettingChange _ _ _ => none
  | .poolFill _ _ => none
  | .hostWindowAccess _ => none
  | .peerRequest _ => none
  | .linkFailure _ => none
  | .linkRecovery _ => none
  | .keyRangeWrite _ _ => none
  | .addressRegisterWrite _ _ _ _ => none
  | .registerWrite _ _ _ _ => none
  | .keycmdLoad _ => none
  | .keycmdRandom _ => none
  | .holdSet _ => none
  | .holdClear _ => none
  | .attest _ => none
  | .writeConfigurationRecord _ => none
  | .cycle _ => none
  | .hostInvalidation _ _ => none
  | .sensorReading _ => none
  | .keySlotChange _ => none
  | .recordTake => none
  | .bandRise => none
  | .bandFall => none
  | .powerUp => none
  | .soakEnd => none
  | .enableCompute => none
  | .excursionSaved => none
  | .warmingDone => none
  | .ageingReplan => none
  | .packageReset => none
  | .readSensors => none
  | .readBandAndState => none
  | .readManagementLog => none
  | .readUnitMap => none
  | .warmUp => none

/-- The instruction the decoder reads from a word of the opcode table's width, under a header that names both flags. -/
def decodeTableWord (nbits w : Nat) : Option Instr :=
  if nbits ≤ 64 then
    match decodeWord { setA := true, setB := true } (BitVec.ofNat 64 w) with
    | .ok i => some i
    | .error _ => none
  else none

end Sys2Proof
end

