-- ==== Sys2Proof/Config.lean ====
section
/-! DEFINITION. What is fixed for the package, and the free values: opaque constants that nothing can evaluate (notes/assumptions 5, 8, 9). -/
namespace Sys2Proof.Config

/-- Free values for what the spec leaves open, applied to the state's counter of draws (log 5, DESIGN CHOICE). -/
opaque freeWord : Nat → BitVec 64

/-- Free choices between two outcomes that the spec allows, applied to the counter of draws (log 5, DESIGN CHOICE). -/
opaque freeChoice : Nat → Bool

/-- Which of the entries that the translation caches keep an access uses, by its place, or none: the counter of draws, the stage (0 for a combined translation), the level, the input address over what an entry covers (10_translation_and_faults.md R217, R232, log 8, DESIGN CHOICE). -/
opaque cachedPick : Nat → Nat → Nat → Nat → Nat

/-- Whether an instruction fetch uses a cached line: the counter of draws, the line (15_system_and_traps.md R342, log 8, DESIGN CHOICE). -/
opaque usesFetched : Nat → Nat → Bool

/-- Whether a dirty line has been written back before a `CACHE.INV`: the counter of draws, the line (R341, log 8, DESIGN CHOICE). -/
opaque writtenBack : Nat → Nat → Bool

/-- A fresh random key pair (R387, log 5, DESIGN CHOICE). -/
opaque freeKey : Nat → BitVec 512

/-- Whether the signature of a configuration record verifies against the key in the controller's boot ROM (R391, log 9, DESIGN CHOICE). -/
opaque signatureGood : ConfigRecord → Bool

/-- The SHA-256 hashes of the controller firmware, of the compute firmware and of a configuration record (R392, log 9, DESIGN CHOICE). -/
opaque controllerHash : BitVec 256
opaque computeHash : BitVec 256
opaque recordHash : ConfigRecord → BitVec 256

/-- The signature of some bytes by the device identity key, which may differ from one signing to the next: the counter of draws, the bytes (R392, log 9, DESIGN CHOICE). -/
opaque deviceSignature : Nat → List (BitVec 8) → BitVec 512

/-- The certificate of the device identity key (R392, log 9, DESIGN CHOICE). -/
opaque deviceCertificate : List (BitVec 8)

/-- A decimal exponent-free reading: the cluster clock in MHz at a read, from the counter of draws and the cluster (17_cryogenic_and_power.md R369, log 5, DESIGN CHOICE). -/
opaque clockReading : Nat → Nat → Nat

/-- The base of the SRAM window (09_loads_stores_streams.md R181). -/
def windowBase : Nat := 0x1FF00000000000

/-- The bytes of the SRAM window (R181). -/
def windowBytes : Nat := 0x40000000

/-- The backed bytes of a scratchpad slice (R182). -/
def sliceBytes : Nat := 12 * 1024 * 1024

/-- The spacing of the slices in the window (R182). -/
def sliceSpan : Nat := 16 * 1024 * 1024

/-- The bytes of one DRAM stack (10_translation_and_faults.md R210). -/
def stackBytes : Nat := 48 * 1024 * 1024 * 1024

/-- The clusters of the package (01_machine.md R12). -/
def clusters : Nat := 52

/-- The pages of translation: 64 KiB (R211). -/
def pageBytes : Nat := 65536

end Sys2Proof.Config
end

