-- ==== Sys2Proof/Machine/Aes.lean ====
section
/-! DEFINITION. AES-256-XTS, which encrypts local DRAM: the cipher and its mode as FIPS 197 and IEEE 1619 define them, since the spec names them only (10_translation_and_faults.md R215; 16_bales.md R362; 18_host_link_and_management.md R387, R388; log 69, PRESUMED). -/
namespace Sys2Proof.Machine.Aes
open Sys2Proof

/-! ## Bytes as polynomials over GF(2), modulo x^8 + x^4 + x^3 + x + 1 -/

/-- A byte times x. -/
def xtime (a : Byte) : Byte := if a.getLsbD 7 then (a <<< 1) ^^^ 0x1B#8 else a <<< 1

/-- A byte times another, whose lowest bits are used up one by one. -/
def mulBits : Nat → Byte → Byte → Byte
  | 0, _, _ => 0#8
  | n + 1, a, b => (if b.getLsbD 0 then a else 0#8) ^^^ mulBits n (xtime a) (b >>> 1)

def mul (a b : Byte) : Byte := mulBits 8 a b

/-- The product of a^2, a^4, ..., 2^n of them: a^254 for n = 7, which is the inverse of a byte that is not zero. -/
def squares : Nat → Byte → Byte
  | 0, _ => 1#8
  | n + 1, a => mul (mul a a) (squares n (mul a a))

def inverse (a : Byte) : Byte := squares 7 a

/-- S-box: the inverse, then the affine map. -/
def sub (a : Byte) : Byte :=
  let b := inverse a
  b ^^^ b.rotateLeft 1 ^^^ b.rotateLeft 2 ^^^ b.rotateLeft 3 ^^^ b.rotateLeft 4 ^^^ 0x63#8

/-- The inverse of the S-box. -/
def unsub (a : Byte) : Byte := inverse (a.rotateLeft 1 ^^^ a.rotateLeft 3 ^^^ a.rotateLeft 6 ^^^ 0x05#8)

/-! ## The key schedule of 256-bit keys: sixty words of four bytes -/

def xor (a b : List Byte) : List Byte := List.zipWith (· ^^^ ·) a b

/-- Rcon of a round. -/
def rcon : Nat → Byte
  | 0 => 1#8
  | n + 1 => xtime (rcon n)

/-- The word that word i is made from, of the word before it. -/
def scheduled (i : Nat) (w : List Byte) : List Byte :=
  if i % 8 = 0 then xor ((w.drop 1 ++ w.take 1).map sub) [rcon (i / 8 - 1), 0#8, 0#8, 0#8]
  else if i % 8 = 4 then w.map sub
  else w

/-- The words of the schedule, from those that stand already. -/
def extend : Nat → List (List Byte) → List (List Byte)
  | 0, ws => ws
  | n + 1, ws => extend n (ws ++ [xor (ws.getD (ws.length - 8) []) (scheduled ws.length (ws.getD (ws.length - 1) []))])

/-- The fifteen round keys of a key, given by its 32 bytes. -/
def roundKeys (key : List Byte) : List (List Byte) :=
  let ws := extend 52 ((List.range 8).map fun i => (key.drop (4 * i)).take 4)
  (List.range 15).map fun r => ((ws.drop (4 * r)).take 4).flatten

/-! ## Rounds, on sixteen bytes column by column -/

def shiftRows (st : List Byte) : List Byte := (List.range 16).map fun i => st.getD ((i + 4 * (i % 4)) % 16) 0#8

def unshiftRows (st : List Byte) : List Byte := (List.range 16).map fun i => st.getD ((i + 12 * (i % 4)) % 16) 0#8

/-- Each column times a circulant matrix, given by its first row. -/
def mixColumns (row : List Byte) (st : List Byte) : List Byte :=
  (List.range 16).map fun i =>
    ((List.range 4).map fun k => mul (row.getD ((k + 4 - i % 4) % 4) 0#8) (st.getD (4 * (i / 4) + k) 0#8)).foldl (· ^^^ ·) 0#8

/-- The cipher on one block. -/
def encryptWith (ks : List (List Byte)) (block : List Byte) : List Byte :=
  let st := xor block (ks.getD 0 [])
  let st := (List.range 13).foldl (fun st r => xor (mixColumns [2#8, 3#8, 1#8, 1#8] (shiftRows (st.map sub))) (ks.getD (r + 1) [])) st
  xor (shiftRows (st.map sub)) (ks.getD 14 [])

/-- The inverse cipher on one block. -/
def decryptWith (ks : List (List Byte)) (block : List Byte) : List Byte :=
  let st := (unshiftRows (xor block (ks.getD 14 []))).map unsub
  let st := (List.range 13).foldl (fun st r =>
    (unshiftRows (mixColumns [14#8, 11#8, 13#8, 9#8] (xor st (ks.getD (13 - r) [])))).map unsub) st
  xor st (ks.getD 0 [])

/-! ## XTS: key pairs, tweaks and data units -/

/-- The bytes of a number, the lowest first. -/
def bytesOf {w : Nat} (n : Nat) (x : BitVec w) : List Byte := (List.range n).map fun i => x.extractLsb' (8 * i) 8

/-- The number that sixteen bytes hold, the first lowest. -/
def numberOf (bs : List Byte) : BitVec 128 := bs.foldr (fun b n => (n <<< 8) ||| b.setWidth 128) 0#128

/-- The data key of a pair stands in its low half, the tweak key above it (18 R387). -/
def dataKeys (pair : BitVec 512) : List (List Byte) := roundKeys (bytesOf 32 pair)
def tweakKeys (pair : BitVec 512) : List (List Byte) := roundKeys (bytesOf 32 (pair >>> 256))

/-- A tweak times x, modulo x^128 + x^7 + x^2 + x + 1. -/
def tweakTime (t : BitVec 128) : BitVec 128 := if t.getLsbD 127 then (t <<< 1) ^^^ 0x87#128 else t <<< 1

/-- The tweak of block j of a data unit. -/
def tweakAt (t : BitVec 128) : Nat → BitVec 128
  | 0 => t
  | j + 1 => tweakTime (tweakAt t j)

/-- The mask of block j of the data unit with a tweak. -/
def maskOf (pair : BitVec 512) (unit j : Nat) : List Byte :=
  bytesOf 16 (tweakAt (numberOf (encryptWith (tweakKeys pair) (bytesOf 16 (BitVec.ofNat 128 unit)))) j)

/-- Sixteen bytes encrypted as block j of a data unit. -/
def encryptBlock (pair : BitVec 512) (unit j : Nat) (block : List Byte) : List Byte :=
  let m := maskOf pair unit j
  xor (encryptWith (dataKeys pair) (xor block m)) m

/-- Sixteen bytes decrypted as block j of a data unit. -/
def decryptBlock (pair : BitVec 512) (unit j : Nat) (block : List Byte) : List Byte :=
  let m := maskOf pair unit j
  xor (decryptWith (dataKeys pair) (xor block m)) m

end Sys2Proof.Machine.Aes
end

