-- ==== Sys2Proof/Machine/Bale.lean ====
section
/-! DEFINITION. The compressor and the decompressor of bales (16_bales.md R360, R361). -/
namespace Sys2Proof.Machine
open Sys2Proof

/-- The bytes of a number, the lowest first (00_scope.md R3). -/
def leBytes : Nat → Nat → List Byte
  | 0, _ => []
  | n + 1, v => BitVec.ofNat 8 v :: leBytes n (v / 256)

/-- The number that bytes hold, the first lowest (R3). -/
def leValue : List Byte → Nat
  | [] => 0
  | b :: bs => b.toNat + 256 * leValue bs

/-! ## The compressor (R360, R361) -/

/-- The bytes of a plane: 0 the even ones, 1 the odd ones. -/
def plane (x : List Byte) (p : Nat) : List Byte := (List.range 1024).map fun j => x.getD (2 * j + p) 0#8

/-- How often each byte value stands in a plane. -/
def byteCounts (y : List Byte) : List Nat := y.foldl (fun acc b => acc.modify b.toNat (· + 1)) (List.replicate 256 0)

/-- The place of a byte value in the order by count, descending, then by value. -/
def dictRank (counts : List Nat) (v : Nat) : Nat :=
  let c := counts.getD v 0
  ((List.range 256).filter fun u => c < counts.getD u 0 || (counts.getD u 0 == c && u < v)).length

/-- The sixteen values of a dictionary, in order. -/
def dictOf (y : List Byte) : List Byte :=
  let ranks := (List.range 256).map (dictRank (byteCounts y))
  (List.range 16).map fun i => BitVec.ofNat 8 (((List.range 256).find? fun v => ranks.getD v 256 == i).getD 0)

/-- Group g of a plane. -/
def groupBytes (y : List Byte) (g : Nat) : List Byte := (y.drop (64 * g)).take 64

/-- The mode of a group. -/
def groupMode (dict : List Byte) (ys : List Byte) : Nat :=
  if ys.all (· == 0#8) then 0
  else if ys.all (· == ys.headD 0#8) then 1
  else if ys.all dict.contains then 2
  else 3

/-- The payload of a group (Table 2). -/
def groupPayload (dict : List Byte) (ys : List Byte) : List Byte :=
  match groupMode dict ys with
  | 0 => []
  | 1 => [ys.headD 0#8]
  | 2 => (List.range 32).map fun i =>
      BitVec.ofNat 8 (dict.idxOf (ys.getD (2 * i) 0#8) + 16 * dict.idxOf (ys.getD (2 * i + 1) 0#8))
  | _ => ys

/-- What the stream holds of a plane: its mode word, its dictionary when some group uses it, its payloads. -/
structure PlaneCode where
  mode : List Byte
  dict : List Byte
  payload : List Byte
  deriving DecidableEq, Repr

def planeCode (y : List Byte) : PlaneCode :=
  let dict := dictOf y
  let groups := (List.range 16).map (groupBytes y)
  let modes := groups.map (groupMode dict)
  { mode := leBytes 4 ((modes.zipIdx.map fun m => m.1 * 4 ^ m.2).sum), dict := if modes.contains 2 then dict else [],
    payload := groups.flatMap (groupPayload dict) }

/-- The stream of a bale (Table 3). -/
def baleStream (x : List Byte) : List Byte :=
  let e := planeCode (plane x 0)
  let o := planeCode (plane x 1)
  e.mode ++ o.mode ++ e.dict ++ o.dict ++ e.payload ++ o.payload

/-- FORM of a bale's bytes. -/
def baleForm (x : List Byte) : Nat :=
  if x.all (· == 0#8) then 0
  else
    let l := (baleStream x).length
    if 1792 < l then 8 else (l + 255) / 256

/-! ## The decompressor (R361) -/

/-- The modes of a plane's groups, from its mode word. -/
def modesOf (w : Nat) : List Nat := (List.range 16).map fun g => w / 4 ^ g % 4

/-- The payload bytes of a group of a mode (Table 2). -/
def payloadLen : Nat → Nat
  | 0 => 0
  | 1 => 1
  | 2 => 32
  | _ => 64

/-- The bytes of a plane's dictionary: none when no group uses it. -/
def dictLen (modes : List Nat) : Nat := if modes.contains 2 then 16 else 0

/-- The length of a stream, which its two mode words determine. -/
def streamLen (st : List Byte) : Nat :=
  let e := modesOf (leValue (st.take 4))
  let o := modesOf (leValue ((st.drop 4).take 4))
  8 + dictLen e + dictLen o + (e.map payloadLen).sum + (o.map payloadLen).sum

/-- The 64 bytes of a group, from its payload. -/
def groupOfPayload (mode : Nat) (dict p : List Byte) : List Byte :=
  match mode with
  | 0 => List.replicate 64 0#8
  | 1 => List.replicate 64 (p.headD 0#8)
  | 2 => (List.range 64).map fun i => dict.getD ((p.getD (i / 2) 0#8).toNat / 16 ^ (i % 2) % 16) 0#8
  | _ => (List.range 64).map fun i => p.getD i 0#8

/-- A plane, from its modes, its dictionary and its payloads. -/
def planeOf : List Nat → List Byte → List Byte → List Byte
  | [], _, _ => []
  | m :: ms, dict, p => groupOfPayload m dict (p.take (payloadLen m)) ++ planeOf ms dict (p.drop (payloadLen m))

/-- The plain bytes of a stream; what follows the stream in its last sector is ignored. -/
def decompress (st : List Byte) : List Byte :=
  let em := modesOf (leValue (st.take 4))
  let om := modesOf (leValue ((st.drop 4).take 4))
  let rest := st.drop 8
  let ed := rest.take (dictLen em)
  let rest := rest.drop (dictLen em)
  let od := rest.take (dictLen om)
  let rest := rest.drop (dictLen om)
  let even := planeOf em ed rest
  let odd := planeOf om od (rest.drop ((em.map payloadLen).sum))
  (List.range 2048).map fun i => if i % 2 = 0 then even.getD (i / 2) 0#8 else odd.getD (i / 2) 0#8

/-- The stored sectors of a bale in forms 1 to 7: its stream, and zeros up to FORM · 256. -/
def storedSectors (form : Nat) (x : List Byte) : List Byte :=
  let st := (baleStream x).take (256 * form)
  st ++ List.replicate (256 * form - st.length) 0#8

/-- Bytes over the bytes of a bale from an offset. -/
def overlay (x : List Byte) (off : Nat) (data : List Byte) : List Byte := x.take off ++ data ++ x.drop (off + data.length)

end Sys2Proof.Machine
end

