-- ==== Sys2Proof/Machine/State.lean ====
section
/-! DEFINITION. The state of the machine as plain data: everything the spec names, and the faults and refusals of a step. INVENTORY.md lists each field with its rule and reset value. -/
namespace Sys2Proof.Machine
open Sys2Proof

/-! ## Faults of warps -/

/-- The trap causes of Table 1 (15_system_and_traps.md R329). -/
inductive Cause where
  | illegal | misformed | tileDisabled | nonCanonical | access | translation | protection | machineCheck
  | sync | replay | fp | copy | software | preemption | double
  deriving DecidableEq, Repr

/-- Some bytes of memory that an access reads, with its key ID. -/
structure Span where
  start : Nat
  kid : Nat := 0
  len : Nat
  deriving DecidableEq, Repr

/-- What a trap reports beside its place: the cause, TRAPINFO, FAULTVA and FAULTGPA (R330, R335); for a machine check of a memory, the span in which the error was met, which no later reader meets (09 R200); and the 54-bit address for whose translation tables were walked, whose valid entries the caches may keep (10 R217). -/
structure Report where
  cause : Cause
  info : Word
  va : Word := 0#64
  gpa : Word := 0#64
  met : Option Span := none
  walk : Option Nat := none
  deriving DecidableEq, Repr

/-! ## Places and translations -/

/-- Where an access performs: the memory key, the key ID, the memory type and the BALE attribute. -/
structure Loc where
  key : Nat
  kid : Nat := 0
  mt : Nat := 0
  bale : Bool := false
  deriving DecidableEq, Repr

/-- A combined translation of a VA page, as a cache keeps it or a requester pins it (10 R217, R219): partition, page, the stage-1 leaf and its level, and, where stage 2 was enabled when it was made, the stage-2 leaf and its level. -/
structure CachedPage where
  part : BitVec 4
  page : Nat
  leaf1 : Word
  level1 : Nat
  leaf2 : Option (Word × Nat)
  deriving DecidableEq, Repr

/-- A valid table entry that a translation cache keeps, a PTP or a leaf (R217): the stage, the level, and the input address over what an entry of that level covers. -/
structure CachedEntry where
  part : BitVec 4
  stage : Nat
  level : Nat
  cover : Nat
  entry : Word
  deriving DecidableEq, Repr

/-! ## Warps -/

/-- Where a warp or a lane stands: its clause header address (exact, since a target is computed without wraparound, R80), the header word and the words fetched when the clause started, and the index of the next word; index 0 is a clause that has not started (02_words_and_registers.md R29, R31). -/
structure Position where
  hdr : Int
  header : Word := 0#64
  words : List Word := []
  idx : Nat := 0
  deriving DecidableEq, Repr

/-- What a pending write does to one lane word of a vector register: flat lane index, the bits it enables, their values (R36). -/
structure LaneWrite where
  lane : Nat
  mask : LaneWord
  value : LaneWord
  deriving DecidableEq, Repr

/-- An outstanding or completed and uncommitted flag-capable instruction (R33–R38). -/
structure Outstanding where
  /-- Program-order position. -/
  seq : Nat
  /-- The address of its word, and that of its clause header. -/
  pc : Word
  home : Int := 0
  /-- Its flag; none for a synchronous instruction. -/
  flag : Option Nat
  /-- It has completed. -/
  done : Bool := false
  /-- The fault recorded against it, and the element it was met at (R38). -/
  fault : Option (Report × Nat) := none
  /-- The copy it waits for, if it is a copy (R262). -/
  copy : Option CopyRef := none
  /-- It is an accepted matrix operation that reads its operands later (14_matrix_instructions.md R309). -/
  late : Bool := false
  /-- Its pending destinations (R37). -/
  dests : Nat := 0
  /-- Its pending uniform destination. -/
  sWrite : Option (BitVec 6 × Word) := none
  /-- Its pending vector destination. -/
  vWrites : List LaneWrite := []
  /-- The FPSTAT bits it brings (06_numbers_and_float.md R132, 14_matrix_instructions.md R314). -/
  status : BitVec 7 := 0#7
  deriving DecidableEq, Repr

/-- An element that the stream engine has read ahead (09_loads_stores_streams.md R203): its number, the memory key of its first byte, its bits. -/
structure Ahead where
  elem : Nat
  key : Nat
  bits : LaneWord
  deriving DecidableEq, Repr

/-- What the stream engine holds against an element (R203, R221): a fault or an uncorrectable error, or a miss, with its stage, level, address and TABLE bit. -/
inductive Held where
  | fault (r : Report)
  | miss (stage level addr : Nat) (table : Bool)
  deriving DecidableEq, Repr

/-- A stream register (R201, Table 7), its run-ahead buffers and what it holds (R203). -/
structure Stream where
  defined : Bool := false
  base : Word := 0#64
  stride : Word := 0#64
  et : ET := .int32
  depth : BitVec 2 := 0#2
  store : Bool := false
  unit : Bool := false
  count : BitVec 23 := 0#23
  p : Nat := 0
  ahead : List Ahead := []
  held : List (Nat × Held) := []
  deriving DecidableEq, Repr

/-- A lane in lane mode (05_teams_and_warps.md R104–R107). -/
structure Lane where
  pos : Position
  /-- The lane counts as joined: it was not forked, or it has executed `LJOIN`. -/
  joined : Bool
  /-- The address of the `LJOIN` it executed, for a forked lane. -/
  joinAt : Option Int := none
  /-- c(L, i): the `WSYNC`s it has executed on each index. -/
  counts : List Nat := List.replicate 16 0
  /-- The index and set of the `WSYNC` it waits at. -/
  blocked : Option (Nat × BitVec 64) := none
  deriving DecidableEq, Repr

/-- Lane mode: the lanes, and the lane number from which the rotation of groups goes on (R105). -/
structure LaneMode where
  lanes : List Lane
  next : Nat := 0
  deriving DecidableEq, Repr

/-- Why a warp is parked or not ready (04_scalar_and_flow.md R67). -/
inductive Park where
  /-- Not parked. -/
  | none
  /-- On the copies named, and on its own matrix operations at the program-order positions named, whose completion clears the flags, or lets the clause start, that it waits for (02_words_and_registers.md R33, R34). -/
  | flags (copies : List CopyRef) (late : List Nat)
  /-- On the operations accepted earlier on a tile slot (14_matrix_instructions.md R307). -/
  | slot (t : BitVec 3)
  /-- On a line that an engine holds: the presence bit of a scratchpad line, or a line in exclusive ownership (09_loads_stores_streams.md R185; 11_atomics_and_ordering.md R242). -/
  | presence (line : Nat)
  /-- On a manifest of its own (10_translation_and_faults.md R223). -/
  | manifest
  /-- In `BARWAIT` (`point`, a pre-emption point) or `BARSYNC` until phase `phase` of barrier `b` has completed (05 R114). -/
  | barrier (b : Nat) (phase : Nat) (point : Bool)
  /-- In a `BARARV` or `BARSYNC` that would target two phases ahead (R101). -/
  | stall (b : Nat)
  /-- In `CWAIT` (12_copies.md R270). -/
  | copy (ch : BitVec 4) (id : Nat)
  /-- On a free context of its cluster's Porter (R256). -/
  | porter
  /-- In `REDORD` on a cell, seen under a key ID, until its turn (11_atomics_and_ordering.md R253). -/
  | cell (key kid turn : Nat)
  /-- In `XLINV` until an invalidation completes (15_system_and_traps.md R343). -/
  | invalidation (n : Nat)
  /-- On room in the waybill ring (R353). -/
  | waybill
  /-- On toll credit for a dispatch of a charge (17 R375). -/
  | toll (n : Nat)
  deriving DecidableEq, Repr

/-- A warp's part in one barrier (05 R100–R102). -/
structure Membership where
  member : Bool := true
  /-- The first phase it is counted in. -/
  first : Nat := 0
  /-- The last phase it arrived in since it became a member. -/
  last : Option Nat := none
  /-- The phase of its last arrival, and whether it has arrived since its last `BARWAIT` returned (R114). -/
  arrived : Option Nat := none
  awaited : Bool := false
  deriving DecidableEq, Repr

/-- What becomes of a warp (05 R112, 15 R334, R345–R348). -/
inductive WarpStatus where
  /-- Not a warp: the place is empty. -/
  | absent
  /-- Resident. -/
  | running
  /-- Stopped by the double fault (R334). -/
  | stopped
  /-- Saved at a pre-emption point; `dead` says that its vector and mask state was not saved (R347). -/
  | saved (dead : Bool)
  /-- Saved whole (R348). -/
  | savedWhole
  deriving DecidableEq, Repr

/-- What an `ERET` with DEFER = 1 does after the word that it reissues: where the warp goes on, or the misformed clause or fetch fault that it meets there (15 R339). -/
inductive Resume where
  | goOn (p : Position)
  | stop (r : Report) (va : Int)
  deriving DecidableEq, Repr

/-- What a parked instruction keeps: the gathered bits of elements already performed (R198, R223), the pages whose service failed: page, stage, level, stage-2 GPA (R230), and the translations that it has pinned (R190, R219). -/
structure Service where
  gathered : List (Nat × LaneWord) := []
  failed : List (Nat × Nat × Nat × Nat) := []
  pins : List CachedPage := []
  deriving DecidableEq, Repr

/-- A warp (02 R41, Table 7; 15 R335). -/
structure Warp where
  idx : Nat := 0
  status : WarpStatus := .absent
  /-- The core it is resident on (05 R434) and its warp slot (04 R66). -/
  core : CoreRef := { cls := .m, num := 0 }
  slot : Nat := 0
  s : Vector Word 64 := Vector.replicate 64 0#64
  /-- v0 to v(R − 1), W lane words each, in order. -/
  v : List LaneWord := []
  m : Vector (BitVec 1024) 8 := Vector.replicate 8 0
  st : Vector Stream 8 := Vector.replicate 8 {}
  vl : Nat := 0
  vpad : Nat := 0
  vstart : Nat := 0
  /-- The strip descriptor (07_lengths_and_integer.md R152). -/
  desc : BitVec 9 := 0x008#9
  fpstat : BitVec 7 := 0#7
  fpctl : BitVec 6 := 0#6
  pos : Position := { hdr := 0 }
  /-- The program-order position of the next flag-capable instruction. -/
  seq : Nat := 0
  pending : List Outstanding := []
  lanes : Option LaneMode := none
  /-- The lane state frozen while a handler runs (15 R333). -/
  frozen : Option LaneMode := none
  intrap : Bool := false
  trapcause : Word := 0#64
  trappc : Word := 0#64
  trapnpc : Word := 0#64
  traphdr : Word := 0#64
  trapinfo : Word := 0#64
  faultva : Word := 0#64
  faultgpa : Word := 0#64
  faultmask : BitVec 1024 := 0#1024
  /-- The register VSTART that `ERET` copies to `vstart` (15 R335, R339; log 7, DEDUCED). -/
  trapvstart : Nat := 0
  /-- The clause header of the word at TRAPPC when DEFER = 1 (R339). -/
  traphome : Int := 0
  /-- The word at the warp's position is one that `ERET` reissues alone; what follows it, and whether lane mode is restored (R339). -/
  reissue : Option (Resume × Bool) := none
  /-- A trap that the warp takes before it issues again (14 R327; 15 R354). -/
  due : Option Report := none
  trapscr : Vector Word 4 := Vector.replicate 4 0#64
  /-- UNSPENT: the warp's unspent lease (17 R377). -/
  lease : Nat := 0
  /-- The toll of the word at its position has been charged (17 R375). -/
  paid : Bool := false
  /-- CYCLES of its core when the pending pre-emption was requested (15 R348). -/
  stopAt : Word := 0#64
  park : Park := .none
  service : Service := {}
  bars : Vector Membership 16 := Vector.replicate 16 {}
  /-- Wait count, urgency, and the cycles left of a YLD window of each kind (04 R68–R71). -/
  wait : Nat := 0
  urgent : Bool := false
  yieldOff : Nat := 0
  yieldLow : Nat := 0
  /-- The cycles, with the present one, in which it issues nothing more: one after a word has issued, two where the word holds its slot for two (04 R65, R66). -/
  taken : Nat := 0
  /-- How many waybill events of each kind 0–7 the warp has had (15 R354). -/
  events : List Nat := List.replicate 8 0
  deriving DecidableEq, Repr

/-! ## Teams -/

/-- A launch record (05 R88, Table 2), as its fields. -/
structure LaunchRecord where
  entry : Word := 0#64
  attach : Word := 0#64
  gridX : Nat := 1
  gridY : Nat := 1
  gridZ : Nat := 1
  kernelId : BitVec 32 := 0#32
  scratch : Nat := 0
  accum : Nat := 0
  donech : BitVec 4 := 0#4
  donev : Bool := false
  rfollow : Bool := false
  rrecord : Bool := false
  elastic : Bool := false
  coop : Bool := false
  prio : BitVec 2 := 0#2
  cls : BitVec 2 := 1#2
  tiles : Nat := 0
  /-- R. -/
  vregs : Nat := 16
  /-- W. -/
  warpw : Nat := 16
  maxw : Nat := 1
  minw : Nat := 1
  initw : Nat := 1
  waits : List (BitVec 4 × Nat) := []
  args : List Word := []
  comprec : Word := 0#64
  deriving DecidableEq, Repr

/-- The cores a team runs on: one core, or the pair whose lower core is `num` (05 R94). -/
structure Site where
  cls : CoreClass := .m
  num : Nat := 0
  pair : Bool := false
  deriving DecidableEq, Repr

/-- A named barrier (05 R100); its members are the warps whose `Membership` says so. -/
structure Barrier where
  p : Nat := 0
  /-- E(p), A(p), A(p+1), D. -/
  e : Nat := 0
  a : Nat := 0
  a1 : Nat := 0
  d : Nat := 0
  deriving DecidableEq, Repr

/-- An arrival that has not fired (R101): warp index, barrier, target phase, and the core in whose register room the warp's vector instruction queue stands (R112). -/
structure Milestone where
  warp : Nat
  bar : Nat
  phase : Nat
  core : CoreRef := { cls := .m, num := 0 }
  /-- Its warp has left; the number tells apart the warps that have. -/
  gone : Option Nat := none
  deriving DecidableEq, Repr

/-- The error state of a channel (12 R275, R276). -/
structure ChannelError where
  eid : Nat
  reason : BitVec 8
  elem : Nat
  va : Word
  /-- The cause's further TRAPINFO bits are not kept; only REASON, ELEM and the address are (R275). -/
  reported : Bool := false
  deriving DecidableEq, Repr

/-- A copy channel (12 R261): N, C, the completed IDs at or above C, the error state. -/
structure Channel where
  n : Nat := 0
  c : Nat := 0
  done : List Nat := []
  err : Option ChannelError := none
  deriving DecidableEq, Repr

/-- A grant (13 R291, R292): the extent, the types, the block code and the status bits [63:48] of s_d. -/
structure Grant where
  m : Nat
  n : Nat
  k : Nat
  aty : ET
  bty : ET
  blk : BitVec 3
  status : BitVec 16
  deriving DecidableEq, Repr

/-- The recorded B operand (14 R316): element box, scale box when scaled, and the grant fields at acceptance. -/
structure RecordedB where
  box : Nat
  scales : Option Nat
  k : Nat
  n : Nat
  bty : ET
  blk : BitVec 3
  deriving DecidableEq, Repr

/-- A tile slot (13 R280–R295, 14 R311–R327); values are row-major, 32 bits each. -/
structure Slot where
  grant : Option Grant := none
  restored : Option (Nat × Nat) := none
  acc : List LaneWord := []
  chunks : BitVec 64 := 0#64
  ca : List (BitVec 16) := []
  cb : List (BitVec 16) := []
  recB : Option RecordedB := none
  /-- Values of the store that are uncorrectable, by their place in `acc` (14 R310). -/
  bad : List Nat := []
  deriving DecidableEq, Repr

/-- A box in the window as an engine reads it: its first byte, rows, columns, element width, row pitch (13 R303, Table 6). -/
structure Tablet where
  base : Nat
  rows : Nat
  cols : Nat
  e : Nat
  pitch : Nat
  deriving DecidableEq, Repr

/-! ## Copies -/

/-- The kinds of copy (12 R263, R277). -/
inductive CopyKind where
  | boxIn | boxOut | operandA | operandB
  | train (op : TrainOp) (et : ET)
  deriving DecidableEq, Repr

/-- A shape record (12 R257) with its box extents. -/
structure Shape where
  base : Word
  lim : List Nat
  str : List Int
  trans : Bool := false
  fsel : Bool := false
  fill : BitVec 16 := 0#16
  sh : Nat := 0
  et : ET
  bale : Bool := false
  deriving DecidableEq, Repr

/-- A box of a copy: record side, dense side, row pitch and extents (12 R258, R263, R264). -/
structure Box where
  shape : Shape
  dense : Nat
  pitch : Nat
  ext : List Nat
  deriving DecidableEq, Repr

/-- A source line that a copy has read (12 R269; 11 R243): key / 128, the key ID, its 128 bytes, and those of them that could not be read. -/
structure ReadLine where
  line : Nat
  kid : Nat
  bytes : List Byte
  bad : List Nat := []
  deriving DecidableEq, Repr

/-- An accepted `TLDB`, `TMMA` or `TMMAS` that has not performed: its warp and program-order position, its slot and the grant at its acceptance, its A boxes unless it loads B, its B boxes, and the lines that it has read (14 R307, R309). -/
structure LateOp where
  warp : Nat
  seq : Nat
  slot : BitVec 3
  grant : Grant
  as : Option (List Tablet)
  bs : List Tablet
  buffer : List ReadLine := []
  deriving DecidableEq, Repr

/-- A train entry that has been sorted and not yet delivered: its number, its destination, the place of its target and its address, its value (11 R245). -/
structure TrainItem where
  k : Nat
  dest : Nat
  loc : Loc
  va : Word
  value : Word
  deriving DecidableEq, Repr

/-- A copy in flight (12 R256–R278). -/
structure Copy where
  ref : CopyRef
  kind : CopyKind
  cluster : Nat
  part : BitVec 4
  /-- The privilege of the issuing warp (10 R214). -/
  priv : Bool
  boxes : List Box
  /-- Slices written besides the destination's own window offsets: the named clusters of a multicast (12 R265). -/
  mcast : Option (List Nat) := none
  /-- List address and count of a train (12 R277). -/
  list : Nat := 0
  count : Nat := 0
  /-- The element at which the next segment starts. -/
  vstart : Nat := 0
  /-- Parked on a manifest. -/
  parked : Bool := false
  /-- Pages whose fault service failed: page, stage, level, stage-2 GPA (10 R230). -/
  failed : List (Nat × Nat × Nat × Nat) := []
  /-- The lines that it holds: of the window those it cleared and has not yet made present, in order (12 R268), and those it owns (11 R242). -/
  held : List Nat := []
  /-- Some of its destination had no line to hold when it issued, since its translation missed: such a line is held as soon as there is one (11 R242). -/
  unheld : Bool := false
  /-- Lines whose bytes have all arrived. -/
  arrived : List Nat := []
  trains : List TrainItem := []
  /-- The translations that its segment has pinned (12 R267). -/
  pins : List CachedPage := []
  /-- The element below which its segment has been read and checked, or sorted into trains. -/
  cleared : Nat := 0
  /-- The elements of its segment that have performed. -/
  performed : List Nat := []
  /-- The source lines that it has read. -/
  buffer : List ReadLine := []
  /-- The element at which it fails, once the elements below have performed, with the report (12 R275). -/
  failing : Option (Nat × Report) := none
  /-- Every element has performed, or the copy has failed. -/
  finished : Bool := false
  /-- The order of issue. -/
  order : Nat := 0
  deriving DecidableEq, Repr

/-- What becomes of a team. -/
inductive TeamStatus where
  /-- Not a team: the place is empty. -/
  | absent
  | running
  /-- Saved (15 R349). -/
  | saved
  deriving DecidableEq, Repr

/-- A team (05 R96–R103). The warps other than the one that moves next stand in `peers`. -/
structure Team where
  tid : Nat := 0
  gid : Nat := 0
  part : BitVec 4 := 0#4
  lin : Nat := 0
  launch : LaunchRecord := {}
  status : TeamStatus := .absent
  site : Site := {}
  /-- The offset of the team's scratchpad bytes in the window. -/
  base : Nat := 0
  /-- The order in which the placer placed it (R95). -/
  order : Nat := 0
  /-- The shrink request count (R97). -/
  k : Nat := 0
  /-- A pre-emption request is pending (15 R346). -/
  preempt : Bool := false
  killed : Bool := false
  bars : Vector Barrier 16 := Vector.replicate 16 {}
  miles : List Milestone := []
  chans : Vector Channel 16 := Vector.replicate 16 {}
  /-- Tile state is enabled (13 R286). -/
  tiles : Bool := false
  slots : Vector Slot 8 := Vector.replicate 8 {}
  /-- The matrix operations that have been accepted and have not performed, in order of acceptance (14 R307, R309). -/
  late : List LateOp := []
  /-- The scratchpad contents of a saved team, by offset (15 R349). -/
  image : List Host.Cell := []
  /-- The copies that were saved parked, as they stood at the old base (12 R278). -/
  copies : List Copy := []
  /-- The save block of a saved team: its address in the save area, and its length (15 R349). -/
  block : Option (Nat × Nat) := none
  /-- How many placement events it has had (15 R354). -/
  placements : Nat := 0
  peers : List Warp := []
  deriving DecidableEq, Repr

/-- A grid that is being placed or runs (05 R89–R94). -/
structure Grid where
  gid : Nat
  part : BitVec 4
  queue : BitVec 3
  launch : LaunchRecord
  /-- The linear index of the next team to place. -/
  next : Nat := 0
  /-- Teams that have completed. -/
  teams : Nat := 0
  /-- A team of it was killed. -/
  killed : Bool := false
  /-- The FAULT field from the lowest-numbered team with an unreported copy fault (12 R276). -/
  fault : Option (Nat × Word) := none
  doneId : Nat := 0
  /-- The grid itself is killed: no more of its teams are placed (05 R90; 17 R371). -/
  ended : Bool := false
  /-- The status with which its record was rejected, while its completion record waits for a line (05 R91; 11 R242). -/
  refusal : Option Nat := none
  deriving DecidableEq, Repr

/-! ## Partitions -/

/-- A ring of the fault-service, waybill or error block (10 R224, 15 R351, 18 R385). -/
structure Ring where
  base : Word := 0#64
  en : Bool := false
  log : Nat := 0
  head : BitVec 32 := 0#32
  tail : BitVec 32 := 0#32
  bad : Bool := false
  ovf : Bool := false
  /-- A failed access has stopped it until its base is written again (18 R438). -/
  stopped : Bool := false
  deriving DecidableEq, Repr

/-- Who waits for a manifest (10 R223). -/
inductive Requester where
  | warp (w : WarpRef)
  | copy (c : CopyRef)
  /-- The completion of a grid waits for a TYPE 2 entry (12 R276). -/
  | grid (g : Nat)
  /-- The requester has been killed or saved (10 R229). -/
  | gone
  deriving DecidableEq, Repr

/-- A page record (10 R226). -/
structure PageRecord where
  addr : Nat
  /-- The VA page whose element missed. -/
  page : Nat
  stage : Nat
  level : Nat
  table : Bool
  access : Nat
  elem : Nat
  tag : BitVec 32 := 0#32
  deriving DecidableEq, Repr

/-- A manifest, written and outstanding or held (10 R225–R231). -/
structure Manifest where
  who : Requester
  /-- TYPE 2 entries carry the channel error instead of records. -/
  type2 : Option (BitVec 4 × ChannelError) := none
  mid : BitVec 32 := 0#32
  header : List Word := []
  records : List PageRecord := []
  more : Bool := false
  /-- It has its MID and its page requests have been written. -/
  numbered : Bool := false
  /-- It has been written; a held manifest has not. -/
  written : Bool := false
  /-- The FQRESP it still waits for. -/
  waitS1 : Bool := false
  /-- The page-request tags it still waits for. -/
  waitTags : List (BitVec 32) := []
  /-- The records whose service failed. -/
  failed : List Nat := []
  deriving DecidableEq, Repr

/-- An error-record entry (18 R385, Table 5). -/
structure ErrorEntry where
  kind : BitVec 8
  addr : Word := 0#64
  team : BitVec 32 := 0#32
  value : BitVec 32 := 0#32
  core : BitVec 16 := 0xFFFF#16
  lost : Bool := false
  deriving DecidableEq, Repr

/-- A waybill entry (15 R352, Table 9) but for its SEQ, which it gets when it is written; it waits while the ring has no room (R353). -/
structure WaybillEntry where
  lin : Nat
  kernel : BitVec 32
  slot : Nat := 0
  event : Nat
  warp : Nat := 0
  cls : CoreClass
  core : Nat
  value : Word := 0#64
  deriving DecidableEq, Repr

/-- A launch channel (05 R89). -/
structure LaunchChannel where
  n : Nat := 0
  c : Nat := 0
  done : List Nat := []
  deriving DecidableEq, Repr

/-- What the caravan master keeps of a launch queue, whose descriptor lies in memory (05 R87, R93). -/
structure QueueService where
  /-- The ENABLE it has observed. -/
  enabled : Bool := false
  /-- It serves the queue: ENABLE observed as 1 and ERR = 0. -/
  serving : Bool := false
  /-- The TAIL it has observed. -/
  tail : BitVec 32 := 0#32
  deriving DecidableEq, Repr

/-- A partition's register block (18 R382) and what the device keeps for it. -/
structure Partition where
  qbase : Word := 0#64
  s2en : Bool := true
  s1root : Word := 0#64
  s2root : Word := 0#64
  fq : Ring := {}
  prq : Ring := {}
  wbr : Ring := {}
  wbfbase : Word := 0#64
  wbfcount : BitVec 32 := 0#32
  capq : BitVec 4 := 0#4
  tcap : Word := 0#64
  keycnt : BitVec 9 := 0#9
  keybase : BitVec 9 := 0#9
  trapvec : Word := 0#64
  savebase : Word := 0#64
  savesize : Word := 0#64
  intstat : BitVec 10 := 0#10
  inten : BitVec 10 := 0#10
  err : Ring := {}
  /-- SEQ of the next error entry, and the entries that wait (18 R385). -/
  errSeq : Nat := 0
  errWait : List ErrorEntry := []
  wmbase : Word := 0#64
  hold : Bool := false
  wmcount : BitVec 16 := 0#16
  nextMid : BitVec 32 := 0#32
  nextTag : BitVec 32 := 0#32
  /-- Page requests that are outstanding: tag and GPA page (10 R227). -/
  requests : List (BitVec 32 × Nat) := []
  manifests : List Manifest := []
  chans : Vector LaunchChannel 16 := Vector.replicate 16 {}
  queues : Vector QueueService 8 := Vector.replicate 8 {}
  /-- The queue last served at each priority (05 R93; log 16, DESIGN CHOICE). -/
  served : Vector (BitVec 3) 4 := Vector.replicate 4 7#3
  /-- SEQ of the next waybill entry (15 R352). -/
  wbSeq : Nat := 0
  /-- Waybill entries that wait for room, oldest first (15 R353). -/
  wbWait : List WaybillEntry := []
  /-- A save waits for SAVEBASE to be written again (18 R438). -/
  saveStopped : Bool := false
  deriving DecidableEq, Repr

/-! ## Cores, clusters, management -/

/-- A slot of the CIM array: its byte of the significand array and its byte of the sidecar (13 R297). -/
structure ArraySlot where
  sig : Byte
  side : Byte
  deriving DecidableEq, Repr

/-- The B operand that the CIM array of an M-core holds (13 R297, 14 R318): whose it is, its rows and columns, its type and block code, and its slots, row by row; every other slot of the array holds zero. -/
structure Resident where
  team : Nat
  slot : Nat
  k : Nat
  n : Nat
  bty : ET
  blk : BitVec 3
  slots : List ArraySlot
  deriving DecidableEq, Repr

/-- What a core keeps (15 R336, 17 R375, 04 R69, 14 R318). -/
structure Core where
  cycles : BitVec 64 := 0#64
  level : Int := 0
  cap : Nat := 0
  refill : Nat := 0
  /-- The open class group: its class and age in cycles; whether a word of it has issued in this cycle, and whether a group has closed in this cycle. -/
  group : Option (Nat × Nat) := none
  seen : Bool := false
  closed : Bool := false
  /-- The issue slots taken in this cycle, and for how many cycles: the uniform one, or that of a lane group (04 R65). -/
  used : List (Option Nat × Nat) := []
  /-- Those of them that a word issued in the cycle before holds for its second cycle (04 R65). -/
  second : List (Option Nat) := []
  /-- The divider's state holds an uncorrectable error (04 R77). -/
  divBad : Bool := false
  resident : Option Resident := none
  deriving DecidableEq, Repr

/-- What a cluster keeps: its lease pool (17 R377). -/
structure Cluster where
  pool : Nat := 0
  deriving DecidableEq, Repr

/-- The management states (17 R369, R371). -/
inductive Phase where
  | off | bench | cooling | soak | train | ready | run | excursion | retreat | warming
  deriving DecidableEq, Repr

/-- The management controller (17 R368–R378, 18 R387–R392). -/
structure Mgmt where
  phase : Phase := .off
  band : Nat := 0
  sensors : List (BitVec 8) := List.replicate 224 0#8
  /-- The stored configuration record and the one in effect. -/
  stored : ConfigRecord
  config : ConfigRecord
  /-- Units that failed their test at TRAIN (17 R378). -/
  failed : List TestUnit := []
  /-- Requests of the host and the service of page requests are held: since band 3, until band 2 or WARMING (17 R373). -/
  holding : Bool := false
  linkUp : Bool := true
  portsUp : BitVec 8 := 0xFF#8
  peerkey : Vector (BitVec 9) 8 := Vector.replicate 8 0#9
  keydata : Vector Word 8 := Vector.replicate 8 0#64
  /-- KEYCMD BUSY: the slot that is changing, and the pair that it will hold (18 R387, R388). -/
  busy : Option (BitVec 9 × BitVec 512) := none
  /-- The key pairs of the slots, data key then tweak key; a slot that is not listed holds the pair 0 (R387). -/
  keys : List (Nat × BitVec 512) := []
  log : List ErrorEntry := []
  logSeq : Nat := 0
  /-- The reply of the last management command. -/
  reply : List (BitVec 8) := []
  /-- The controller has raised its in-band interrupt this often (18 R390). -/
  inband : Nat := 0
  deriving DecidableEq, Repr

/-- What the outside sees of the device. -/
inductive Message where
  /-- An interrupt message: partition and INTSTAT bit, and whether it goes to the partition's VF, as the guest vectors do, or to the PF (18 R384). -/
  | interrupt (part : BitVec 4) (bit : Nat) (vf : Bool)
  /-- The response to a host or peer request: data, or none for the link's error response (18 R380, R389). -/
  | response (data : Option (List Byte))
  deriving DecidableEq, Repr

/-- An invalidation in progress (10 R218). -/
structure Invalidation where
  num : Nat
  part : BitVec 4
  range : InvRange
  /-- The warps and copies that held a matching pinned translation when it began. -/
  holders : List Requester
  deriving DecidableEq, Repr

/-- A line that is dirty in a cluster cache: its byte address; what its memory holds, byte by byte with the key pair that each was written under; the key ID and BALE attribute of its last write; and the granules of the cached copy that hold an uncorrectable error (15 R341; 16 R358; 09 R200). -/
structure DirtyLine where
  line : Nat
  old : List (Byte × BitVec 512)
  kid : Nat
  bale : Bool
  bad : List Nat := []
  deriving DecidableEq, Repr

/-- A line that an instruction cache holds (15 R342): partition, line address, its sixteen words. -/
structure CachedLine where
  part : BitVec 4
  line : Nat
  words : List Word
  deriving DecidableEq, Repr

/-! ## The machine -/

/-- The state of the package. -/
structure State where
  /-- The warp that moves next, and its team; `team.peers` holds the team's other warps. -/
  warp : Warp := {}
  team : Team := {}
  /-- Every other team, placed or saved. -/
  teams : List Team := []
  grids : List Grid := []
  parts : Vector Partition 16 := Vector.replicate 16 {}
  cores : Vector Core 312 := Vector.replicate 312 {}
  clusters : Vector Cluster 52 := Vector.replicate 52 {}
  copies : List Copy := []
  /-- Local DRAM, host and peer memory by PA, and the scratchpad slices by window address: sorted by address, no entry zero. -/
  mem : List Host.Cell := []
  /-- The 128-byte lines that engines hold, by key / 128: window lines whose presence bit is clear (09 R184), and DRAM and host lines in exclusive ownership (11 R242). -/
  absent : List Nat := []
  /-- The aligned 64-bit granules of memory that hold an uncorrectable error (09 R199); those of a dirty line's cached copy stand beside it. -/
  bad : List Nat := []
  /-- Lines that are dirty in a cluster cache (15 R341). -/
  dirty : List DirtyLine := []
  icache : List CachedLine := []
  /-- The translations and the table entries that the translation caches keep (10 R217). -/
  xlate : List CachedPage := []
  tables : List CachedEntry := []
  /-- The key pair under which a DRAM byte was written, where it is not the pair 0 (18 R388). -/
  keytags : List (Nat × BitVec 512) := []
  /-- Bale-map entries other than 8, and the bales whose entry holds an uncorrectable error (16 R357, R359). -/
  bales : List (Nat × BitVec 8) := []
  badMap : List Nat := []
  mgmt : Mgmt
  invalidations : List Invalidation := []
  /-- Numbers given out: teams, grids, invalidations, copies, placements. -/
  nextTeam : Nat := 0
  nextGrid : Nat := 0
  nextInv : Nat := 0
  nextCopy : Nat := 0
  nextPlace : Nat := 0
  outbox : List Message := []
  /-- The model's own: steps of agents and of the outside world that come next, whose turn it is, and the counter of free values (logs 4 and 5, DESIGN CHOICE). -/
  agenda : List Instr := []
  agentTurn : Bool := false
  draws : Nat := 0
  deriving DecidableEq, Repr

/-- The faults of a step of the model. -/
inductive Fault where
  /-- Raised by `step` in a state whose focused warp stands in a clause that has no word at its index: no run reaches such a state. Safe. -/
  | noWord
  deriving DecidableEq, Repr

/-- The refusals of a step of the model. -/
inductive Refusal where
  /-- Raised by the dispatch for an instruction that has no meaning yet. Safe. -/
  | notModelled (mnemonic : String)
  deriving DecidableEq, Repr

/-- The configuration record at reset: every unit enabled (18 R391; log 15, DESIGN CHOICE). -/
def ConfigRecord.full : ConfigRecord :=
  { magic := 0x5A574346#32, seq := 0, clusters := BitVec.allOnes 52, cores := List.replicate 52 (BitVec.allOnes 6),
    columns := List.replicate 208 (BitVec.allOnes 16), margins := [], signature := 0 }

/-- The machine right after package reset: every field at its default, which is the value INVENTORY.md gives for it. -/
def State.reset : State :=
  { mgmt := { stored := ConfigRecord.full, config := ConfigRecord.full } }

end Sys2Proof.Machine
end

