-- ==== Sys2Proof/Machine/Numbers.lean ====
section
/-! DEFINITION. Numbers: the integer and floating formats (06_numbers_and_float.md R122–R127), exact values, the rounding primitives of R10 and the window sum of R11. -/
namespace Sys2Proof.Machine
open Sys2Proof

/-! ## Exact values -/

/-- An exact value: a NaN, an infinity, or (−1)^neg · m · 2^e. A result that no such product gives is carried with more bits than any format rounds to and a last bit that says it is inexact (log 6, DEDUCED). -/
inductive Exact where
  | nan
  | inf (neg : Bool)
  | fin (neg : Bool) (m : Nat) (e : Int)
  deriving DecidableEq, Repr

def Exact.zero : Exact := .fin false 0 0

/-- The exact value of an integer. -/
def Exact.ofInt (i : Int) : Exact := .fin (i < 0) i.natAbs 0

def Exact.isNaN : Exact → Bool
  | .nan => true
  | .inf _ | .fin _ _ _ => false

def Exact.isInf : Exact → Bool
  | .inf _ => true
  | .nan | .fin _ _ _ => false

def Exact.isZero : Exact → Bool
  | .fin _ m _ => m == 0
  | .nan | .inf _ => false

def Exact.isNeg : Exact → Bool
  | .nan => false
  | .inf n => n
  | .fin n _ _ => n

def Exact.neg : Exact → Exact
  | .nan => .nan
  | .inf n => .inf (!n)
  | .fin n m e => .fin (!n) m e

def Exact.abs : Exact → Exact
  | .nan => .nan
  | .inf _ => .inf false
  | .fin _ m e => .fin false m e

/-- m · 2^e scaled to the grid 2^g, for g ≤ e. -/
def onGrid (m : Nat) (e g : Int) : Nat := m * 2 ^ (e - g).toNat

/-- Compare two finite magnitudes: m · 2^e < m' · 2^e'. -/
def magLt (m : Nat) (e : Int) (m' : Nat) (e' : Int) : Bool :=
  onGrid m e (min e e') < onGrid m' e' (min e e')

/-- The order of values that are not NaN, with −0 equal to +0. -/
def Exact.lt : Exact → Exact → Bool
  | .nan, _ => false
  | _, .nan => false
  | .inf a, .inf b => a && !b
  | .inf a, .fin _ _ _ => a
  | .fin _ _ _, .inf b => !b
  | .fin n m e, .fin n' m' e' =>
    if m == 0 && m' == 0 then false
    else if m == 0 then !n'
    else if m' == 0 then n
    else if n && !n' then true
    else if !n && n' then false
    else if n then magLt m' e' m e
    else magLt m e m' e'

/-- Equality of values that are not NaN, with −0 equal to +0. -/
def Exact.eq (a b : Exact) : Bool := !a.isNaN && !b.isNaN && !a.lt b && !b.lt a

/-! ## Floating formats -/

/-- What the all-ones exponent field of a format means (R123, R126). -/
inductive Special where
  /-- Infinities and NaNs, as IEEE 754. -/
  | ieee
  /-- Only the all-ones code is a NaN: E4M3 and SC12. -/
  | topNaN
  /-- Nothing special: E2M1. -/
  | plain
  deriving DecidableEq, Repr

/-- A floating format (R123, Table 2; R126). -/
structure FloatFmt where
  /-- Bits of the exponent and mantissa fields. -/
  ebits : Nat
  mbits : Nat
  bias : Int
  special : Special
  signed : Bool
  canonicalNaN : LaneWord
  deriving DecidableEq, Repr

/-- The floating format of an element type; integer types answer FP32's, which nothing reads. -/
def fmtOf : ET → FloatFmt
  | .bf16 => { ebits := 8, mbits := 7, bias := 127, special := .ieee, signed := true, canonicalNaN := 0x7FC0#32 }
  | .fp16 => { ebits := 5, mbits := 10, bias := 15, special := .ieee, signed := true, canonicalNaN := 0x7E00#32 }
  | .e4m3 => { ebits := 4, mbits := 3, bias := 7, special := .topNaN, signed := true, canonicalNaN := 0x7F#32 }
  | .e5m2 => { ebits := 5, mbits := 2, bias := 15, special := .ieee, signed := true, canonicalNaN := 0x7E#32 }
  | .e2m1 => { ebits := 2, mbits := 1, bias := 1, special := .plain, signed := true, canonicalNaN := 0x0#32 }
  | .sc12 => { ebits := 4, mbits := 8, bias := 7, special := .topNaN, signed := false, canonicalNaN := 0xFFF#32 }
  | .fp32 | .int32 | .uint32 | .int16 | .uint16 | .int8 | .uint8 | .int4 | .int2 | .int64 =>
    { ebits := 8, mbits := 23, bias := 127, special := .ieee, signed := true, canonicalNaN := 0x7FC00000#32 }

/-- The exponent of the smallest normal value: 1 − b. -/
def FloatFmt.emin (f : FloatFmt) : Int := 1 - f.bias

/-- The exponent of the unit of the lowest binade, which is that of the subnormals. -/
def FloatFmt.ulpMin (f : FloatFmt) : Int := f.emin - f.mbits

/-- The code of the largest finite magnitude (R123, R126). -/
def FloatFmt.maxCode (f : FloatFmt) : Nat :=
  match f.special with
  | .ieee => (2 ^ f.ebits - 1) * 2 ^ f.mbits - 1
  | .topNaN => 2 ^ (f.ebits + f.mbits) - 2
  | .plain => 2 ^ (f.ebits + f.mbits) - 1

/-- The magnitude of a code without its sign, as m · 2^e. -/
def FloatFmt.magnitude (f : FloatFmt) (code : Nat) : Nat × Int :=
  let e := code / 2 ^ f.mbits
  let m := code % 2 ^ f.mbits
  if e == 0 then (m, f.ulpMin) else (m + 2 ^ f.mbits, f.ulpMin + (e - 1 : Nat))

/-- The value of an element's bits (R123, R124, R126). -/
def FloatFmt.value (f : FloatFmt) (x : LaneWord) : Exact :=
  let code := x.toNat % 2 ^ (f.ebits + f.mbits)
  let neg := f.signed && x.getLsbD (f.ebits + f.mbits)
  let special : Exact :=
    match f.special with
    | .ieee => if code % 2 ^ f.mbits == 0 then .inf neg else .nan
    | .topNaN | .plain => .nan
  let isSpecial : Bool :=
    match f.special with
    | .ieee => code / 2 ^ f.mbits == 2 ^ f.ebits - 1
    | .topNaN => code == 2 ^ (f.ebits + f.mbits) - 1
    | .plain => false
  if isSpecial then special
  else .fin neg (f.magnitude code).1 (f.magnitude code).2

/-- A code with its sign bit. -/
def FloatFmt.withSign (f : FloatFmt) (neg : Bool) (code : Nat) : LaneWord :=
  BitVec.ofNat 32 (code + if neg && f.signed then 2 ^ (f.ebits + f.mbits) else 0)

/-! ## Status (R132) -/

/-- The bits of FPSTAT that one element raises. -/
structure FpFlags where
  nv : Bool := false
  dz : Bool := false
  ovf : Bool := false
  unf : Bool := false
  nx : Bool := false
  ss : Bool := false
  is : Bool := false
  deriving DecidableEq, Repr

/-- FPSTAT's layout (R132, Table 5). -/
def FpFlags.bits (f : FpFlags) : BitVec 7 :=
  BitVec.ofBool f.is ++ BitVec.ofBool f.ss ++ BitVec.ofBool f.nx ++ BitVec.ofBool f.unf ++ BitVec.ofBool f.ovf ++
    BitVec.ofBool f.dz ++ BitVec.ofBool f.nv

def FpFlags.or (f g : FpFlags) : FpFlags :=
  { nv := f.nv || g.nv, dz := f.dz || g.dz, ovf := f.ovf || g.ovf, unf := f.unf || g.unf,
    nx := f.nx || g.nx, ss := f.ss || g.ss, is := f.is || g.is }

/-! ## Rounding (R10) -/

/-- m / 2^k rounded to an integer under a mode, for a value of the given sign: IEEE 754's rounding of a magnitude. -/
def roundShift (md : Mode) (neg : Bool) (m k : Nat) : Nat :=
  let q := m / 2 ^ k
  let r := m % 2 ^ k
  match md with
  | .rne => if 2 ^ k < 2 * r || (2 * r == 2 ^ k && q % 2 == 1) then q + 1 else q
  | .rz => q
  | .ru => if r != 0 && !neg then q + 1 else q
  | .rd => if r != 0 && neg then q + 1 else q

/-- m · 2^e rounded to a multiple of 2^g: the multiple's count. -/
def roundAt (md : Mode) (neg : Bool) (m : Nat) (e g : Int) : Nat :=
  if g ≤ e then onGrid m e g else roundShift md neg m (g - e).toNat

/-- A rounded result and the status of the rounding. -/
structure Rounded where
  bits : LaneWord
  flags : FpFlags := {}
  deriving DecidableEq, Repr

/-- What an overflow gives (R10): IEEE 754's result under the mode, NaN, or the largest finite value. -/
def FloatFmt.overflow (f : FloatFmt) (md : Mode) (neg : Bool) : LaneWord :=
  match f.special with
  | .ieee =>
    let toInf : Bool :=
      match md with
      | .rne => true
      | .rz => false
      | .ru => !neg
      | .rd => neg
    f.withSign neg (if toInf then f.maxCode + 1 else f.maxCode)
  | .topNaN => f.canonicalNaN
  | .plain => f.withSign neg f.maxCode

/-- `rnd_fmt(x, mode)` (R10) with the OF, UF and NX of R132. Overflow is judged on the significand grid with an unbounded exponent, and tininess before rounding. -/
def rnd (f : FloatFmt) (md : Mode) : Exact → Rounded
  | .nan => { bits := f.canonicalNaN }
  | .inf neg =>
    match f.special with
    | .ieee => { bits := f.withSign neg (f.maxCode + 1) }
    | .topNaN => { bits := f.canonicalNaN }
    | .plain => { bits := f.withSign neg f.maxCode }
  | .fin neg m e =>
    if m == 0 then { bits := f.withSign neg 0 } else
    let lead := e + (Nat.log2 m : Nat)
    let g := max (lead - f.mbits) f.ulpMin
    let r := roundAt md neg m e g
    let inexact := !(onGrid r g (min e g) == onGrid m e (min e g))
    let top := f.magnitude f.maxCode
    if magLt top.1 top.2 r g then
      { bits := f.overflow md neg, flags := { ovf := true, nx := true } }
    else
      { bits := f.withSign neg ((g - f.ulpMin).toNat * 2 ^ f.mbits + r),
        flags := { nx := inexact, unf := inexact && lead < f.emin } }

/-- `sat_fmt(x)` (R10): a magnitude above the largest finite value becomes that value, and NaN stays. -/
def sat (f : FloatFmt) (x : Exact) : Exact :=
  let top := f.magnitude f.maxCode
  match x with
  | .nan => .nan
  | .inf neg => .fin neg top.1 top.2
  | .fin neg m e => if magLt top.1 top.2 m e then .fin neg top.1 top.2 else .fin neg m e

/-! ## Exact arithmetic (R131, R140) -/

/-- The sign of an exactly zero sum of two finite terms (R131). -/
def zeroSumSign (md : Mode) (a b : Bool) : Bool := (a && b) || ((a || b) && md == .rd)

/-- a + b exactly, with its invalid case ∞ − ∞. The mode decides only the sign of a zero (R131). -/
def Exact.add (md : Mode) : Exact → Exact → Exact × Bool
  | .nan, _ => (.nan, false)
  | _, .nan => (.nan, false)
  | .inf a, .inf b => if a == b then (.inf a, false) else (.nan, true)
  | .inf a, .fin _ _ _ => (.inf a, false)
  | .fin _ _ _, .inf b => (.inf b, false)
  | .fin na ma ea, .fin nb mb eb =>
    let g := min ea eb
    let x : Int := (onGrid ma ea g : Nat)
    let y : Int := (onGrid mb eb g : Nat)
    let z := (if na then -x else x) + (if nb then -y else y)
    if z == 0 then (.fin (zeroSumSign md na nb) 0 0, false)
    else (.fin (z < 0) z.natAbs g, false)

/-- a · b exactly, with its invalid case 0 · ∞. -/
def Exact.mul : Exact → Exact → Exact × Bool
  | .nan, _ => (.nan, false)
  | _, .nan => (.nan, false)
  | .inf a, .inf b => (.inf (a != b), false)
  | .inf a, .fin n m _ => if m == 0 then (.nan, true) else (.inf (a != n), false)
  | .fin n m _, .inf b => if m == 0 then (.nan, true) else (.inf (n != b), false)
  | .fin na ma ea, .fin nb mb eb => (.fin (na != nb) (ma * mb) (ea + eb), false)

/-- a · b + c exactly: the invalid product counts whatever c is (R140). -/
def Exact.fma (md : Mode) (negate : Bool) (a b c : Exact) : Exact × Bool :=
  let p := a.mul b
  let q := (if negate then p.1.neg else p.1).add md c
  (q.1, p.2 || q.2)

/-! ## The long operations (R142), with a last bit that stands for what lies below (log 6, DEDUCED) -/

/-- The bits kept below the leading bit of a quotient or root. -/
def guardBits : Nat := 96

/-- A magnitude q plus, when inexact, something below its last bit. -/
def withSticky (neg : Bool) (q : Nat) (inexact : Bool) (e : Int) : Exact :=
  .fin neg (2 * q + if inexact then 1 else 0) (e - 1)

/-- floor(√n), by one bit for each step of the fuel. -/
def isqrtStep (n : Nat) : Nat → Nat → Nat
  | 0, r => r
  | k + 1, r => isqrtStep n k (let t := r + 2 ^ k; if t * t ≤ n then t else r)

def isqrt (n : Nat) : Nat := isqrtStep n (Nat.log2 n / 2 + 1) 0

/-- a / b for finite nonzero operands. -/
def quotient (na : Bool) (ma : Nat) (ea : Int) (nb : Bool) (mb : Nat) (eb : Int) : Exact :=
  let k := guardBits + Nat.log2 mb + 1
  let n := ma * 2 ^ k
  withSticky (na != nb) (n / mb) (n % mb != 0) (ea - eb - (k : Nat))

/-- √(m · 2^e) for m ≠ 0. -/
def squareRoot (m : Nat) (e : Int) : Exact :=
  let m' := if e % 2 == 0 then m else 2 * m
  let e' := if e % 2 == 0 then e else e - 1
  let n := m' * 2 ^ (2 * guardBits)
  let q := isqrt n
  withSticky false q (q * q != n) (e' / 2 - (guardBits : Nat))

/-- 1 / √(m · 2^e) for m ≠ 0. -/
def reciprocalRoot (m : Nat) (e : Int) : Exact :=
  let m' := if e % 2 == 0 then m else 2 * m
  let e' := if e % 2 == 0 then e else e - 1
  let k := guardBits + Nat.log2 m' + 1
  let q := isqrt (2 ^ (2 * k) / m')
  withSticky false q (q * q * m' != 2 ^ (2 * k)) (-(e' / 2) - (k : Nat))

/-- The bits kept of 2^x and log2 x (log 6, DEDUCED). -/
def longBits : Nat := 320

/-- 2^f · 2^longBits for a fraction f given by its bits from the lowest: one square root for each bit. -/
def exp2Frac (n : Nat) : Nat → Nat → Nat
  | 0, r => r
  | k + 1, r => exp2Frac (n / 2) k (isqrt (r * 2 ^ longBits * (if n % 2 == 1 then 2 else 1)))

/-- 2^x for a finite x. -/
def exp2 (neg : Bool) (m : Nat) (e : Int) : Exact :=
  if m == 0 then .fin false 1 0
  else if magLt 16384 0 m e then .fin false 1 (if neg then -16384 else 16384)
  else
    let frac := (-e).toNat
    let x : Int := if 0 ≤ e then (m * 2 ^ e.toNat : Nat) else (m : Nat)
    let y := if neg then -x else x
    if 0 ≤ e then .fin false 1 y
    else
      let whole := y / (2 ^ frac : Nat)
      let part := (y % (2 ^ frac : Nat)).toNat
      if part == 0 then .fin false 1 whole
      else withSticky false (exp2Frac part frac (2 ^ longBits)) true (whole - (longBits : Nat))

/-- The fraction bits of log2 y, from the highest, for y · 2^longBits with 1 ≤ y < 2: one squaring for each bit. -/
def log2Frac : Nat → Nat → Nat → Nat
  | 0, _, acc => acc
  | k + 1, y, acc =>
    let z := y * y / 2 ^ longBits
    if 2 ^ (longBits + 1) ≤ z then log2Frac k (z / 2) (2 * acc + 1) else log2Frac k z (2 * acc)

/-- The fraction bits that log2 keeps: each squaring doubles the error of the last. -/
def logBits : Nat := 160

/-- log2 (m · 2^e) for m ≠ 0. -/
def binaryLog (m : Nat) (e : Int) : Exact :=
  let l := Nat.log2 m
  let whole := e + (l : Nat)
  if m == 2 ^ l then Exact.ofInt whole
  else
    let f := log2Frac logBits (m * 2 ^ longBits / 2 ^ l) 0
    let n : Int := 2 * (whole * (2 ^ logBits : Nat) + (f : Nat)) + 1
    .fin (n < 0) n.natAbs (-((logBits : Nat) : Int) - 1)

/-! ## Integers (R122) -/

/-- The low `w` bits of an integer. -/
def wrapTo (w : Nat) (i : Int) : LaneWord := BitVec.ofNat 32 (i % (2 ^ w : Nat)).toNat

/-- The two's-complement value of the low `w` bits. -/
def signedOf (w : Nat) (x : LaneWord) : Int :=
  let u := x.toNat % 2 ^ w
  if 2 ^ (w - 1) ≤ u then (u : Int) - (2 ^ w : Nat) else u

/-- The unsigned value of the low `w` bits. -/
def unsignedOf (w : Nat) (x : LaneWord) : Nat := x.toNat % 2 ^ w

/-- The range of an integer type (R122, Table 1). -/
def intMin (et : ET) : Int := if et.isSigned then -(2 ^ (et.width - 1) : Nat) else 0

def intMax (et : ET) : Int := if et.isSigned then (2 ^ (et.width - 1) : Nat) - 1 else (2 ^ et.width : Nat) - 1

/-- The value of an integer element. -/
def intValue (et : ET) (x : LaneWord) : Int :=
  if et.isSigned then signedOf et.width x else (unsignedOf et.width x : Nat)

/-- The nearest limit of a type, and whether the value lay outside (R162). -/
def clampTo (et : ET) (i : Int) : Int × Bool :=
  if i < intMin et then (intMin et, true) else if intMax et < i then (intMax et, true) else (i, false)

/-- An integer as bits of its type. -/
def intBits (et : ET) (i : Int) : LaneWord := wrapTo et.width i

/-! ## Elements -/

/-- The value of an element of any type: floats, scales and integers. -/
def elemValue (et : ET) (x : LaneWord) : Exact :=
  if et.isInt || et == .int64 then Exact.ofInt (intValue et x) else (fmtOf et).value x

/-- Conversion to an integer type (R147, case 5). -/
def cvtInt (et : ET) (md : Mode) : Exact → Rounded
  | .nan => { bits := 0#32, flags := { nv := true } }
  | .inf neg => { bits := intBits et (if neg then intMin et else intMax et), flags := { nv := true } }
  | .fin neg m e =>
    let r := roundAt md neg m e 0
    let i : Int := if neg then -(r : Nat) else (r : Nat)
    let c := clampTo et i
    if c.2 then { bits := intBits et c.1, flags := { nv := true } }
    else { bits := intBits et i, flags := { nx := !(onGrid r 0 (min e 0) == onGrid m e (min e 0)) } }

/-- Conversion to SC12 (R147, case 4). -/
def cvtScale (md : Mode) (x : Exact) : Rounded :=
  if x.isZero then { bits := 0#32 }
  else if x.isNaN || x.isInf || x.isNeg then { bits := 0xFFF#32, flags := { nv := true } }
  else rnd (fmtOf .sc12) md x

/-- Conversion to a narrow floating type (R147, cases 2 and 3). -/
def cvtNarrow (et : ET) (md : Mode) (nsat : Bool) (x : Exact) : Rounded :=
  if x.isNaN then { bits := (fmtOf et).canonicalNaN, flags := { nv := et == .e2m1 } }
  else
    let r := rnd (fmtOf et) md x
    if nsat then r else { r with bits := (rnd (fmtOf et) md (sat (fmtOf et) x)).bits }

/-- Conversion of an exact value to any type, by the first case of R147 that fits the destination. -/
def convert (et : ET) (md : Mode) (nsat : Bool) (x : Exact) : Rounded :=
  if et.isNarrowF then cvtNarrow et md nsat x
  else if et == .sc12 then cvtScale md x
  else if et.isCvtInt then cvtInt et md x
  else rnd (fmtOf et) md x

/-! ## The window sum (R11) -/

/-- The terms that are not numbers decide first: NaN, opposite infinities, an infinity. -/
def windowSpecial (xs : List Exact) : Option Exact :=
  if xs.any Exact.isNaN then some .nan
  else
    let p := xs.any (· == .inf false)
    let n := xs.any (· == .inf true)
    if p && n then some .nan else if p then some (.inf false) else if n then some (.inf true) else none

/-- floor(log2 |x|) of a nonzero finite term. -/
def leadOf : Exact → Option Int
  | .nan | .inf _ => none
  | .fin _ m e => if m == 0 then none else some (e + (Nat.log2 m : Nat))

/-- A term truncated toward zero to a multiple of 2^g, as a count. -/
def truncTerm (g : Int) : Exact → Int
  | .nan | .inf _ => 0
  | .fin neg m e =>
    let r : Int := (roundAt .rz false m e g : Nat)
    if neg then -r else r

/-- `window_sum(acc, t, n)` of R11: a 48-bit window below the largest term, an exact sum of the truncated terms, one rounding. -/
def windowSum (acc : LaneWord) (t : List Exact) : LaneWord :=
  let xs := (fmtOf .fp32).value acc :: t
  match windowSpecial xs with
  | some x => (rnd (fmtOf .fp32) .rne x).bits
  | none =>
    match (xs.filterMap leadOf).max? with
    | none => (fmtOf .fp32).withSign (xs.all Exact.isNeg) 0
    | some e =>
      let g := e - 47
      let z := (xs.map (truncTerm g)).sum
      (rnd (fmtOf .fp32) .rne (.fin (z < 0) z.natAbs g)).bits

end Sys2Proof.Machine
end

