-- ==== Sys2Proof/Machine/Memory.lean ====
section
/-! DEFINITION. Memory as a canonical list of cells, enabled units, the physical address map, and the reads and writes that every access goes through (09_loads_stores_streams.md R181–R185, R199; 10_translation_and_faults.md R210, R435). -/
namespace Sys2Proof.Machine
open Sys2Proof

/-! ## Cells -/

/-- What an address that the list does not name reads as (log 1, DESIGN CHOICE). -/
def emptyByte : Byte := 0#8

/-- The canonical form: addresses strictly rising, no entry equal to `emptyByte`. -/
def Memory.wf : List Host.Cell → Bool
  | [] => true
  | [c] => c.2 != emptyByte
  | c :: d :: rest => c.2 != emptyByte && c.1 < d.1 && Memory.wf (d :: rest)

/-- The byte at an address. -/
def cellRead : List Host.Cell → Nat → Byte
  | [], _ => emptyByte
  | c :: rest, a => if c.1 = a then c.2 else cellRead rest a

/-- The list with one byte written; writing `emptyByte` removes the entry. -/
def cellWrite : List Host.Cell → Nat → Byte → List Host.Cell
  | [], a, b => if b = emptyByte then [] else [(a, b)]
  | c :: rest, a, b =>
    if a < c.1 then (if b = emptyByte then c :: rest else (a, b) :: c :: rest)
    else if a = c.1 then (if b = emptyByte then rest else (a, b) :: rest)
    else c :: cellWrite rest a b

/-- Bytes written at consecutive addresses. -/
def cellsWrite : List Host.Cell → Nat → List Byte → List Host.Cell
  | mem, _, [] => mem
  | mem, a, b :: bs => cellsWrite (cellWrite mem a b) (a + 1) bs

/-- Bytes read from consecutive addresses. -/
def cellsRead (mem : List Host.Cell) (a n : Nat) : List Byte :=
  (List.range n).map fun i => cellRead mem (a + i)

/-! ## Enabled units (01_machine.md R13, R20) -/

/-- A cluster that the configuration record enables and that has not failed its test. -/
def clusterOn (s : State) (n : Nat) : Bool :=
  n < Config.clusters && s.mgmt.config.clusters.getLsbD n && !s.mgmt.failed.contains (.cluster n)

/-- The cluster of a core (R13). -/
def coreCluster (c : CoreRef) : Nat :=
  match c.cls with
  | .m => c.num / 4
  | .e => c.num / 2

/-- An enabled core. -/
def coreOn (s : State) (c : CoreRef) : Bool :=
  let bit := match c.cls with
    | .m => c.num % 4
    | .e => 4 + c.num % 2
  clusterOn s (coreCluster c) && (s.mgmt.config.cores.getD (coreCluster c) 0#6).getLsbD bit && !s.mgmt.failed.contains (.core c)

/-- The place of a core in `State.cores`: M-cores first. -/
def corePlace (c : CoreRef) : Nat :=
  match c.cls with
  | .m => c.num
  | .e => 208 + c.num

/-- A column group of an M-core is enabled. -/
def columnOn (s : State) (core g : Nat) : Bool :=
  (s.mgmt.config.columns.getD core (BitVec.allOnes 16)).getLsbD g && !s.mgmt.failed.contains (.column core g)

/-- The enabled column groups of an M-core, in order (13_matrix_grants_and_engine.md R297). -/
def columnGroups (s : State) (core : Nat) : List Nat := (List.range 16).filter (columnOn s core)

/-- The mapped-out column groups of an M-core (13_matrix_grants_and_engine.md R289). -/
def mappedOut (s : State) (core : Nat) : Nat := ((List.range 16).filter fun g => !columnOn s core g).length

/-- The number of enabled DRAM stacks, S (R210, R435). -/
def stacksOn (s : State) : Nat :=
  ((List.range 8).filter fun n => !s.mgmt.failed.contains (.stack n)).length

/-! ## The physical address map (R210) -/

/-- Where a memory key lies: PAs lie below 2^52, window addresses above. -/
inductive Region where
  | dram | host | peer (port : Nat) | window (x : Nat) | none
  deriving DecidableEq, Repr

def regionOf (s : State) (pa : Nat) : Region :=
  if Config.windowBase ≤ pa then .window (pa - Config.windowBase)
  else if pa / 2 ^ 48 = 0 then (if pa < Config.stackBytes * stacksOn s then .dram else .none)
  else if pa / 2 ^ 48 = 8 then .host
  else if pa / 2 ^ 48 = 9 then .peer (pa % 2 ^ 48 / 2 ^ 45)
  else .none

/-- The stack that holds a local-DRAM address: granules of 2,048 bytes over 32 channels of each enabled stack (R435). -/
def stackOf (s : State) (pa : Nat) : Nat :=
  let on := (List.range 8).filter fun n => !s.mgmt.failed.contains (.stack n)
  on.getD (pa / 2048 % (32 * stacksOn s) / 32) 0

/-- UNIT of a machine check for a memory (R194, Table 5). -/
def unitOf (s : State) (pa : Nat) : Nat :=
  match regionOf s pa with
  | .dram | .none => 0x40 + stackOf s pa
  | .host => 0x80
  | .peer _ => 0x81
  | .window x => x / Config.sliceSpan

/-- REASON of an uncorrectable error in a memory (R194): SRAM data or DRAM data, or an error over a link. -/
def errorReason (s : State) (pa : Nat) : BitVec 8 :=
  match regionOf s pa with
  | .window _ => 0x40#8
  | .dram | .none => 0x41#8
  | .host | .peer _ => 0x42#8

/-- A link that the access needs is down (18_host_link_and_management.md R381, R389). -/
def linkDown (s : State) (pa : Nat) : Bool :=
  match regionOf s pa with
  | .host => !s.mgmt.linkUp
  | .peer p => !s.mgmt.portsUp.getLsbD p
  | .dram | .window _ | .none => false

/-- An address beyond a link. -/
def overLinkAt (s : State) (pa : Nat) : Bool :=
  match regionOf s pa with
  | .host | .peer _ => true
  | .dram | .window _ | .none => false

/-! ## Key pairs (R215, R387, R388; log 9, DESIGN CHOICE) -/

/-- The key pair that a slot holds. -/
def keyPair (s : State) (slot : Nat) : BitVec 512 :=
  match s.mgmt.keys.find? fun k => k.1 == slot with
  | some k => k.2
  | none => 0

/-- The key pair under which a DRAM byte was written. -/
def pairOf (s : State) (pa : Nat) : BitVec 512 :=
  match s.keytags.find? fun t => t.1 == pa with
  | some t => t.2
  | none => 0

/-- The list of key tags with one byte's tag set. -/
def setTag (tags : List (Nat × BitVec 512)) (pa : Nat) (pair : BitVec 512) : List (Nat × BitVec 512) :=
  let rest := tags.filter fun t => t.1 != pa
  if pair = 0 then rest else (pa, pair) :: rest

/-- The sixteen bytes of an address, encrypted under a writer's pair, as a reader's pair decrypts them: sixteen such blocks make a data unit of 256 bytes (10 R215; 16 R362). -/
def crossed (writer reader : BitVec 512) (b : Nat) (block : List Byte) : List Byte :=
  if writer = reader then block else Aes.decryptBlock reader (b / 16) (b % 16) (Aes.encryptBlock writer (b / 16) (b % 16) block)

/-! ## What the memories hold under the cluster caches (16_bales.md R357–R363; 15_system_and_traps.md R341) -/

/-- The dirty line of an address. -/
def dirtyAt (s : State) (pa : Nat) : Option DirtyLine := s.dirty.find? fun d => d.line == pa / 128 * 128

/-- A byte of memory with the pair that it was written under, dirty cached copies aside. -/
def sideCell (s : State) (pa : Nat) : Byte × BitVec 512 :=
  match dirtyAt s pa with
  | some d => d.old.getD (pa % 128) (emptyByte, 0)
  | none => (cellRead s.mem pa, pairOf s pa)

/-- The sixteen bytes of a block of memory. -/
def sideBlock (s : State) (b : Nat) : List Byte := (List.range 16).map fun i => (sideCell s (16 * b + i)).1

/-- The map entry of a bale. -/
def formOf (s : State) (n : Nat) : Nat :=
  match s.bales.find? fun e => e.1 == n with
  | some e => e.2.toNat
  | none => 8

/-- A map entry that no access can use: malformed, or uncorrectable (R359). -/
def mapBad (s : State) (n : Nat) : Bool := 8 < formOf s n || s.badMap.contains n

/-- The sectors of a bale in forms 1 to 7 as a requester's key pair decrypts them (R362). -/
def seenSectors (s : State) (n kid : Nat) : List Byte :=
  let plain := (List.range 2048).map fun i => (sideCell s (2048 * n + i)).1
  let stored := storedSectors (formOf s n) plain
  (List.range (16 * formOf s n)).flatMap fun j => crossed (sideCell s (2048 * n)).2 (keyPair s kid) (128 * n + j) ((stored.drop (16 * j)).take 16)

/-- The stream under its mode words is longer than its sectors (R359). -/
def streamLong (s : State) (n kid : Nat) : Bool :=
  let plain := (List.range 2048).map fun i => (sideCell s (2048 * n + i)).1
  if (sideCell s (2048 * n)).2 = keyPair s kid then 256 * formOf s n < (baleStream plain).length
  else 256 * formOf s n < streamLen (seenSectors s n kid)

/-- A byte of local DRAM as its controller gives it to a requester with a key ID: zero in form 0; the decompressed stream in forms 1 to 7; the decrypted byte in form 8 (R358, R362, R363). -/
def sideByte (s : State) (pa kid : Nat) : Byte :=
  let c := sideCell s pa
  match formOf s (pa / 2048) with
  | 0 => 0#8
  | 1 | 2 | 3 | 4 | 5 | 6 | 7 => if c.2 = keyPair s kid then c.1 else (decompress (seenSectors s (pa / 2048) kid)).getD (pa % 2048) 0#8
  | _ => if c.2 = keyPair s kid then c.1 else (crossed c.2 (keyPair s kid) (pa / 16) (sideBlock s (pa / 16))).getD (pa % 16) 0#8

/-- One byte as a requester with a key ID sees it: a dirty cached line holds plain bytes; the blocks of DRAM that were written under another pair decrypt to others (R388). -/
def readByte (s : State) (pa kid : Nat) : Byte :=
  match regionOf s pa with
  | .dram => if (dirtyAt s pa).isSome then cellRead s.mem pa else sideByte s pa kid
  | .host | .peer _ | .window _ | .none => cellRead s.mem pa

/-- One byte written under a key ID, without regard to caches. -/
def writeByte (s : State) (pa kid : Nat) (b : Byte) : State :=
  match regionOf s pa with
  | .dram => { s with mem := cellWrite s.mem pa b, keytags := setTag s.keytags pa (keyPair s kid) }
  | .host | .peer _ | .window _ | .none => { s with mem := cellWrite s.mem pa b }

def readBytes (s : State) (pa kid n : Nat) : List Byte :=
  (List.range n).map fun i => readByte s (pa + i) kid

def writeBytes : State → Nat → Nat → List Byte → State
  | s, _, _, [] => s
  | s, pa, kid, b :: bs => writeBytes (writeByte s pa kid b) (pa + 1) kid bs

/-- A little-endian number read from memory. -/
def readLE (s : State) (pa kid n : Nat) : Nat := leValue (readBytes s pa kid n)

/-- A little-endian number written to memory. -/
def writeLE (s : State) (pa kid n v : Nat) : State := writeBytes s pa kid (leBytes n v)

/-! ## Uncorrectable errors (09 R199, R200; R359, R363) -/

/-- The granules of a bale's stored form: none in form 0, those of FORM sectors in forms 1 to 7, all in form 8. -/
def storedGranule (s : State) (n g : Nat) : Bool := 256 * n ≤ g && g < 256 * n + 32 * min 8 (formOf s n)

/-- The stored form of a bale cannot be read: by its map entry, by its length, or by an error in it. -/
def storedError (s : State) (n kid : Nat) : Bool :=
  mapBad s n || s.bad.any (storedGranule s n) || (1 ≤ formOf s n && formOf s n ≤ 7 && streamLong s n kid)

/-- A byte that cannot be read: by an error of the dirty cached copy of its line, else of its granule, or of the stored form of its bale where that is compressed. -/
def errorByte (s : State) (pa kid : Nat) : Bool :=
  match dirtyAt s pa with
  | some d => d.bad.contains (pa / 8)
  | none =>
    match regionOf s pa with
    | .dram => if formOf s (pa / 2048) = 8 then s.badMap.contains (pa / 2048) || s.bad.contains (pa / 8) else storedError s (pa / 2048) kid
    | .host | .peer _ | .window _ | .none => s.bad.contains (pa / 8)

/-- No error stands anywhere, and no bale is compressed. -/
def quiet (s : State) : Bool := s.bad.isEmpty && s.bales.isEmpty && s.badMap.isEmpty && s.dirty.all fun d => d.bad.isEmpty

/-- An access that meets an uncorrectable error, or a link that is down, at one of `n` bytes (R199, R381). -/
def errorAt (s : State) (pa kid n : Nat) : Bool :=
  linkDown s pa || (!quiet s && (List.range n).any fun i => errorByte s (pa + i) kid)

/-- An access that a link that is down or a map entry fails, whatever it covers. -/
def brokenAt (s : State) (pa : Nat) : Bool :=
  linkDown s pa ||
  (match regionOf s pa with
  | .dram => (dirtyAt s pa).isNone && mapBad s (pa / 2048)
  | .host | .peer _ | .window _ | .none => false)

/-- What a write at a place reads first: the line, or the whole bale where the controller merges it (R199; R364). -/
def mergeSpan (s : State) (l : Loc) (atController : Bool) : Span :=
  if regionOf s l.key == .dram && atController && (l.bale || formOf s (l.key / 2048) != 8) then
    { start := l.key / 2048 * 2048, kid := l.kid, len := 2048 }
  else { start := l.key / 128 * 128, kid := l.kid, len := 128 }

/-- A write at a place meets an uncorrectable error: in the span that it reads, unless the bytes written with it cover all of that. -/
def writeError (s : State) (l : Loc) (atController : Bool) (covered : Nat → Bool) : Bool :=
  brokenAt s l.key ||
    (!quiet s &&
      let sp := mergeSpan s l atController
      errorAt s sp.start sp.kid sp.len && !(List.range sp.len).all fun i => covered (sp.start + i))

/-- An error that has been reported is met by no later reader (R200): the granules that a span takes in, those of the stored form of a compressed bale with them, and its map entry where that was found uncorrectable, have fresh check bits. -/
def metErrors (s : State) (sp : Span) : State :=
  if quiet s then s
  else
    let met (g : Nat) : Bool := sp.start < 8 * g + 8 && 8 * g < sp.start + sp.len
    let inBale (g : Nat) : Bool := formOf s (g / 256) != 8 && g / 256 == sp.start / 2048 && storedGranule s (g / 256) g
    { s with
      bad := s.bad.filter fun g => !(met g || inBale g)
      badMap := s.badMap.filter fun n => !(n == sp.start / 2048)
      dirty := s.dirty.map fun d => { d with bad := d.bad.filter fun g => !met g } }

/-! ## Cluster caches and memory controllers (R181, R341; R358, R364, R365; log 8, DESIGN CHOICE) -/

/-- The list of bytes of a line as a requester with a key ID sees it. -/
def seenLine (s : State) (line kid : Nat) : List Byte := readBytes s line kid 128

/-- A line becomes dirty in the caches under a key ID: what its memory holds is kept beside it, and the cached copy holds its plain bytes. -/
def markDirty (s : State) (l : Loc) : State :=
  let line := l.key / 128 * 128
  if (dirtyAt s l.key).isSome then
    { s with dirty := s.dirty.map fun d => if d.line == line then { d with kid := l.kid, bale := l.bale } else d }
  else
    let seen := seenLine s line l.kid
    { s with
      mem := if seen = cellsRead s.mem line 128 then s.mem else cellsWrite s.mem line seen
      dirty := { line := line, old := (List.range 128).map fun i => sideCell s (line + i), kid := l.kid, bale := l.bale } :: s.dirty }

/-- A line is in no cluster cache any more. -/
def cleanLine (s : State) (line : Nat) : State := { s with dirty := s.dirty.filter fun d => d.line != line }

/-- Bytes with their tags written at consecutive addresses. -/
def restoreCells : List Host.Cell → List (Nat × BitVec 512) → Nat → List (Byte × BitVec 512) → List Host.Cell × List (Nat × BitVec 512)
  | mem, tags, _, [] => (mem, tags)
  | mem, tags, a, x :: xs => restoreCells (cellWrite mem a x.1) (setTag tags a x.2) (a + 1) xs

/-- A line is dropped without being written back: what its memory holds is what every reader sees. -/
def dropLine (s : State) (line : Nat) : State :=
  match s.dirty.find? (fun d => d.line == line) with
  | some d =>
    let r := restoreCells s.mem s.keytags line d.old
    { cleanLine s line with mem := r.1, keytags := r.2 }
  | none => s

/-- One byte of memory written under a pair: under the dirty cached copy of its line, where it has one. -/
def sideWrite (s : State) (pa : Nat) (pair : BitVec 512) (b : Byte) : State :=
  if (dirtyAt s pa).isSome then
    { s with dirty := s.dirty.map fun d => if d.line == pa / 128 * 128 then { d with old := d.old.set (pa % 128) (b, pair) } else d }
  else { s with mem := cellWrite s.mem pa b, keytags := setTag s.keytags pa pair }

/-- The same for a run of bytes. -/
def sideRun : State → Nat → BitVec 512 → List Byte → State
  | s, _, _, [] => s
  | s, pa, pair, b :: bs => sideRun (sideWrite s pa pair b) (pa + 1) pair bs

/-- A block that a write takes in part is read and written back whole, under the writer's pair (R388). -/
def takeOver (pair : BitVec 512) (s : State) (b : Nat) : State :=
  let old := (sideCell s (16 * b)).2
  if old = pair then s else sideRun s (16 * b) pair (crossed old pair b (sideBlock s b))

/-- The blocks that a run of bytes covers in part. -/
def partBlocks (pa n : Nat) : List Nat :=
  if n = 0 then [] else ([pa / 16, (pa + n - 1) / 16].eraseDups).filter fun b => !(pa ≤ 16 * b && 16 * b + 16 ≤ pa + n)

/-- A run of bytes of memory written under a pair. -/
def sideWrites (s : State) (pa : Nat) (pair : BitVec 512) (bs : List Byte) : State :=
  sideRun ((partBlocks pa bs.length).foldl (takeOver pair) s) pa pair bs

/-- The map entry of a bale set. -/
def setBale (s : State) (n : Nat) (form : Nat) : State :=
  let rest := s.bales.filter fun e => e.1 != n
  { s with bales := if form = 8 then rest else (n, BitVec.ofNat 8 form) :: rest }

/-- The plain bytes of a bale at its controller. -/
def sidePlain (s : State) (n kid : Nat) : List Byte := (List.range 2048).map fun i => sideByte s (2048 * n + i) kid

/-- A bale stored whole in a form, under one key: its entry and its sectors in one step, with fresh check bits (R362, R365). -/
def putStored (s : State) (n kid : Nat) (x : List Byte) (form : Nat) : State :=
  let s := sideWrites s (2048 * n) (keyPair s kid) x
  setBale { s with bad := s.bad.filter fun g => g / 256 != n, badMap := s.badMap.filter (· != n) } n form

/-- The form that a write translated with BALE as given leaves. -/
def formFor (bale : Bool) (x : List Byte) : Nat := if bale then baleForm x else 8

/-- A write at the controller within one bale: raw bytes into a raw bale, or a merge of the whole bale (R364). -/
def mergeStored (s : State) (n off kid : Nat) (bale : Bool) (data : List Byte) : State :=
  if !bale && formOf s n = 8 then sideWrites s (2048 * n + off) (keyPair s kid) data
  else
    let x := overlay (sidePlain s n kid) off data
    putStored s n kid x (formFor bale x)

/-- A dirty line leaves the caches: its bytes go to its memory under its key and its BALE attribute, as a write of one line. -/
def recallLine (s : State) (line : Nat) : State :=
  match s.dirty.find? (fun d => d.line == line) with
  | none => s
  | some d =>
    let data := cellsRead s.mem line 128
    match regionOf s line with
    | .dram =>
      if !d.bale && formOf s (line / 2048) = 8 then
        let u := sideWrites (cleanLine s line) line (keyPair s d.kid) data
        { u with bad := u.bad.filter fun g => g / 16 != line / 128 }
      else
        let x := overlay (sidePlain s (line / 2048) d.kid) (line % 2048) data
        putStored (cleanLine s line) (line / 2048) d.kid x (formFor d.bale x)
    | .host | .peer _ | .window _ | .none => { cleanLine s line with bad := s.bad.filter fun g => g / 16 != line / 128 }

/-- Bytes written at a controller, bale by bale. -/
def controllerWrites : Nat → State → Loc → List Byte → State
  | 0, s, _, _ => s
  | fuel + 1, s, l, bs =>
    let room := 2048 - l.key % 2048
    let s := mergeStored s (l.key / 2048) (l.key % 2048) l.kid l.bale (bs.take room)
    if bs.length ≤ room then s else controllerWrites fuel s { l with key := l.key + room } (bs.drop room)

/-! ## Presence bits and owned lines (R184, R185; 11_atomics_and_ordering.md R242) -/

/-- A line that an engine holds. -/
def lineAbsent (s : State) (line : Nat) : Bool := s.absent.contains line

/-- The 128-byte lines of `n` bytes at a key. -/
def linesOf (key n : Nat) : List Nat := if n = 0 then [] else (List.range ((key + n - 1) / 128 + 1 - key / 128)).map (key / 128 + ·)

/-- Bytes written at a memory, cached copies aside. -/
def sideStore (s : State) (l : Loc) (bs : List Byte) : State :=
  match regionOf s l.key with
  | .dram => controllerWrites (bs.length / 2048 + 2) s l bs
  | .host | .peer _ | .window _ | .none => writeBytes s l.key l.kid bs

/-- The first held line among `n` bytes at a key. -/
def absentIn (s : State) (key n : Nat) : Option Nat :=
  if s.absent.isEmpty then none else (linesOf key n).find? (lineAbsent s)

def clearPresence (s : State) (lines : List Nat) : State :=
  { s with absent := lines.foldl (fun acc l => if acc.contains l then acc else l :: acc) s.absent }

def setPresence (s : State) (lines : List Nat) : State :=
  { s with absent := s.absent.filter fun l => !lines.contains l }

/-! ## Scratchpad ownership (R182, R183) -/

/-- Every team, the focus's own first. -/
def allTeams (s : State) : List Team := s.team :: s.teams

/-- A window byte that is backed (R182). -/
def backed (s : State) (x : Nat) : Bool :=
  x < Config.windowBytes && clusterOn s (x / Config.sliceSpan) && x % Config.sliceSpan < Config.sliceBytes

/-- The placed team that owns a window byte. -/
def ownerOf (s : State) (x : Nat) : Option Team :=
  (allTeams s).find? fun t => t.status == .running && t.base ≤ x && x < t.base + t.launch.scratch

/-- A range of addresses. -/
def inRange (lo n a : Nat) : Bool := lo ≤ a && a < lo + n

/-- The lines that the parked copies of saved teams still hold, with the order of each copy: those outside the scratchpad bytes that were saved with the team (12_copies.md R268, R278; log 47, DEDUCED). -/
def keptLines (s : State) : List (Nat × List Nat) :=
  (allTeams s).flatMap fun t =>
    if t.status == .saved then
      t.copies.map fun c => (c.order, c.held.filter fun l => !inRange (Config.windowBase + t.base) t.launch.scratch (128 * l))
    else []

/-- A window byte that lies in a line of the partition (R183). -/
def ownedBy (s : State) (part : BitVec 4) (x : Nat) : Bool :=
  (allTeams s).any fun t => t.status == .running && t.part == part && t.base ≤ x && x < t.base + t.launch.scratch

end Sys2Proof.Machine
end

