-- ==== Sys2Proof/Machine/Translate.lean ====
section
/-! DEFINITION. Addresses, the two-stage walk, permissions and the checks of an element's translation in their order (10_translation_and_faults.md R209–R217, R436). -/
namespace Sys2Proof.Machine
open Sys2Proof

/-- What an access does (R214). -/
inductive Access where
  | read | write | readWrite | fetch
  deriving DecidableEq, Repr

/-- ACCESS of a page record (R226). -/
def Access.code : Access → Nat
  | .read => 0 | .write => 1 | .readWrite => 2 | .fetch => 3

/-- What a translation gives (R220). -/
inductive Xlat where
  | ok (l : Loc)
  /-- A miss: stage, level, the page's address in its space, and whether it was met on a stage-1 table read (R226). -/
  | miss (stage level addr : Nat) (table : Bool)
  /-- A translation or protection fault: cause, reason, stage, level, and the stage-2 GPA that failed. -/
  | fault (cause : Cause) (reason : BitVec 8) (stage level gpa : Nat)
  /-- A machine check on a table read, at its address and under its key ID (R213). -/
  | check (pa kid : Nat)
  /-- An engine holds the line of a table entry: the walk waits (11_atomics_and_ordering.md R242). -/
  | held (line : Nat)
  deriving DecidableEq, Repr

/-! ## Table entries (R211, R212) -/

/-- The index of a table: `wide` is the stage-2 or stage-1 width at L0. -/
def tableIndex (stage level x : Nat) : Nat :=
  match level with
  | 0 => x / 2 ^ 39 % (if stage == 1 then 2 ^ 15 else 2 ^ 13)
  | 1 => x / 2 ^ 30 % 2 ^ 9
  | 2 => x / 2 ^ 21 % 2 ^ 9
  | _ => x / 2 ^ 16 % 2 ^ 5

def pteValid (e : Word) : Bool := e.getLsbD 0
def pteTable (e : Word) : Bool := e.getLsbD 1
def pteRead (e : Word) : Bool := e.getLsbD 2
def pteWrite (e : Word) : Bool := e.getLsbD 3
def pteExec (e : Word) : Bool := e.getLsbD 4
def pteUser (e : Word) : Bool := e.getLsbD 5
def pteMt (e : Word) : Nat := (e.extractLsb' 8 2).toNat
def pteBale (e : Word) : Bool := e.getLsbD 11
def pteKey (e : Word) : Nat := (e.extractLsb' 54 9).toNat
def pteOut (e : Word) : Nat := (e.extractLsb' 16 36).toNat * 65536
def ptpNext (e : Word) : Nat := (e.extractLsb' 8 44).toNat * 256

/-- A malformed entry (R212). -/
def pteMalformed (stage level : Nat) (s2en : Bool) (e : Word) : Bool :=
  if pteTable e then
    level == 3 || e.extractLsb' 52 12 != 0#12 || e.extractLsb' 2 6 != 0#6 ||
    (level != 2 && e.extractLsb' 8 4 != 0#4)
  else
    level == 0 || e.getLsbD 63 || e.extractLsb' 52 2 != 0#2 || e.extractLsb' 12 4 != 0#4 || e.getLsbD 10 ||
    e.extractLsb' 6 2 != 0#2 || pteMt e == 3 || (level == 2 && e.extractLsb' 16 5 != 0#5) ||
    (level == 1 && e.extractLsb' 16 14 != 0#14) || (stage == 2 && pteUser e) ||
    (stage == 1 && s2en && (pteKey e != 0 || pteBale e))

/-- The bytes a leaf maps (R211). -/
def leafSize (level : Nat) : Nat :=
  match level with
  | 1 => 2 ^ 30
  | 2 => 2 ^ 21
  | _ => 2 ^ 16

/-- The output address of a leaf for an input address (R213). -/
def leafOut (e : Word) (level x : Nat) : Nat := pteOut e / leafSize level * leafSize level + x % leafSize level

/-- A key ID in the partition's range (R215, R382). -/
def keyAllowed (p : Partition) (kid : Nat) : Bool := p.keybase.toNat ≤ kid && kid < p.keybase.toNat + p.keycnt.toNat

/-! ## What the translation caches keep (R217, R232) -/

/-- The input addresses that an entry of a level covers. -/
def levelSpan : Nat → Nat
  | 0 => 2 ^ 39
  | 1 => 2 ^ 30
  | 2 => 2 ^ 21
  | _ => 2 ^ 16

/-- The kept entries of a level for an input address. -/
def keptAt (s : State) (part : BitVec 4) (stage level x : Nat) : List Word :=
  (s.tables.filter fun c => c.part == part && c.stage == stage && c.level == level && c.cover == x / levelSpan level).map (·.entry)

/-- The one that an access uses, if it uses one (log 8, DESIGN CHOICE). -/
def keptEntry (s : State) (part : BitVec 4) (stage level x : Nat) : Option Word :=
  match keptAt s part stage level x with
  | [] => none
  | e :: es => (e :: es)[Config.cachedPick s.draws stage level (x / levelSpan level)]?

/-- Where a walk starts: behind the lowest level of which it uses a kept entry. -/
def keptStart (s : State) (part : BitVec 4) (stage x : Nat) : Option (Nat × Word) :=
  if s.tables.isEmpty then none
  else [3, 2, 1, 0].findSome? fun l => (keptEntry s part stage l x).map fun e => (l, e)

/-! ## The walk (R213) -/

/-- What a walk gives: its leaf with its level, or what stopped it. -/
inductive Walk where
  | leaf (e : Word) (level : Nat)
  | stop (x : Xlat)
  deriving DecidableEq, Repr

/-- A table entry read at a physical address: the PA map, then the wait for a held line, then the error check, then the entry. -/
def readEntry (s : State) (stage level pa kid gpa : Nat) : Except Xlat Word :=
  if regionOf s pa == .none then .error (.fault .translation 0x52#8 stage level gpa)
  else if lineAbsent s (pa / 128) then .error (.held (pa / 128))
  else if errorAt s pa kid 8 then .error (.check pa kid)
  else .ok (BitVec.ofNat 64 (readLE s pa kid 8))

/-- The stage-2 walk of a GPA; `table` says that it serves a stage-1 table read. -/
def walk2 (s : State) (gpa : Nat) (table : Bool) : Nat → Nat → Nat → Walk
  | 0, level, _ => .stop (.fault .translation 0x51#8 2 level (gpa / 65536 * 65536))
  | fuel + 1, level, t =>
    match readEntry s 2 level (t + 8 * tableIndex 2 level gpa) 0 (gpa / 65536 * 65536) with
    | .error x => .stop x
    | .ok e =>
      if !pteValid e then .stop (.miss 2 level (gpa / 65536 * 65536) table)
      else if pteMalformed 2 level true e then .stop (.fault .translation 0x51#8 2 level (gpa / 65536 * 65536))
      else if pteTable e then walk2 s gpa table fuel (level + 1) (ptpNext e)
      else .leaf e level

/-- A walk from the root of a stage, or behind a kept entry. -/
def walkFrom (start : Option (Nat × Word)) (root : Nat) (walk : Nat → Nat → Nat → Walk) : Walk :=
  match start with
  | none => walk 4 0 root
  | some (l, e) => if pteTable e then walk (3 - l) (l + 1) (ptpNext e) else .leaf e l

/-- The stage-2 walk of a partition. -/
def walkStage2 (s : State) (part : BitVec 4) (gpa : Nat) (table : Bool) : Walk :=
  walkFrom (keptStart s part 2 gpa) ((s.parts.get part.toFin).s2root.toNat / 65536 * 65536) (walk2 s gpa table)

/-- The physical place of a stage-1 table entry, with its key ID: through stage 2 when enabled, in the order of step 2 of R436. -/
def tablePlace (s : State) (part : BitVec 4) (level a : Nat) : Except Xlat (Nat × Nat) :=
  let p := s.parts.get part.toFin
  if p.s2en then
    match walkStage2 s part a true with
    | .stop x => .error x
    | .leaf e l2 =>
      let pa := leafOut e l2 a
      let gpa := a / 65536 * 65536
      if regionOf s pa == .none then .error (.fault .translation 0x52#8 2 l2 gpa)
      else if !pteRead e then .error (.fault .protection 0x58#8 2 l2 gpa)
      else if regionOf s pa == .dram && !keyAllowed p (pteKey e) then .error (.fault .protection 0x5C#8 1 level 0)
      else .ok (pa, pteKey e)
  else .ok (a, 0)

/-- The stage-1 walk of a 54-bit VA. -/
def walk1 (s : State) (part : BitVec 4) (va : Nat) : Nat → Nat → Nat → Walk
  | 0, level, _ => .stop (.fault .translation 0x51#8 1 level 0)
  | fuel + 1, level, t =>
    match tablePlace s part level (t + 8 * tableIndex 1 level va) with
    | .error x => .stop x
    | .ok (pa, kid) =>
      match readEntry s 1 level pa kid 0 with
      | .error x => .stop x
      | .ok e =>
        if !pteValid e then .stop (.miss 1 level (va / 65536 * 65536) false)
        else if pteMalformed 1 level (s.parts.get part.toFin).s2en e then .stop (.fault .translation 0x51#8 1 level 0)
        else if pteTable e then walk1 s part va fuel (level + 1) (ptpNext e)
        else .leaf e level

/-- The stage-1 walk of a partition. -/
def walkStage1 (s : State) (part : BitVec 4) (va : Nat) : Walk :=
  walkFrom (keptStart s part 1 va) (((s.parts.get part.toFin).s1root.extractLsb' 18 34).toNat * 2 ^ 18) (walk1 s part va)

/-! ## Permissions (R214) -/

/-- The first failing permission check of a leaf for an access kind. -/
def permFault (acc : Access) (e : Word) : Option (BitVec 8) :=
  match acc with
  | .read => if pteRead e then none else some 0x58#8
  | .write => if pteWrite e then none else some 0x59#8
  | .readWrite => if !pteRead e then some 0x58#8 else if pteWrite e then none else some 0x59#8
  | .fetch => if pteExec e then none else some 0x5A#8

/-- The stage-1 checks: the access kind, then privilege. -/
def permFault1 (acc : Access) (priv : Bool) (e : Word) : Option (BitVec 8) :=
  match permFault acc e with
  | some r => some r
  | none => if !priv && !pteUser e then some 0x5B#8 else none

/-! ## A translation (R436) -/

/-- Steps 5 to 8 of R436, for a physical address reached through `stage` at `level`, its key ID and BALE attribute. -/
def placeChecks (s : State) (p : Partition) (acc : Access) (stage level gpa pa kid mt : Nat) (bale : Bool) (leaf2 : Option Word) : Xlat :=
  if regionOf s pa == .none then .fault .translation 0x52#8 stage level gpa
  else
    match leaf2.bind (permFault acc) with
    | some r => .fault .protection r 2 level gpa
    | none =>
      if regionOf s pa == .dram && !keyAllowed p kid then .fault .protection 0x5C#8 stage level gpa
      else if bale && regionOf s pa != .dram then .fault .protection 0x5D#8 stage level gpa
      else .ok { key := pa, kid := kid, mt := mt, bale := bale }

/-- What the two leaves of a page give an access: steps 3 to 8 of R436. The stage-2 walk is given by `second`; none where stage 2 takes no part. -/
def combine (s : State) (p : Partition) (acc : Access) (priv : Bool) (va : Nat) (e1 : Word) (l1 : Nat) (second : Nat → Option Walk) : Xlat :=
  match permFault1 acc priv e1 with
  | some r => .fault .protection r 1 l1 0
  | none =>
    let gpa := leafOut e1 l1 va
    match second gpa with
    | some (.stop x) => x
    | some (.leaf e2 l2) =>
      placeChecks s p acc 2 l2 (gpa / 65536 * 65536) (leafOut e2 l2 gpa) (pteKey e2) (max (pteMt e1) (pteMt e2)) (pteBale e2) (some e2)
    | none => placeChecks s p acc 1 l1 0 gpa (pteKey e1) (pteMt e1) (pteBale e1) none

/-- A translation by walks. -/
def walkedXlat (s : State) (part : BitVec 4) (acc : Access) (priv : Bool) (va : Nat) : Xlat :=
  let p := s.parts.get part.toFin
  match walkStage1 s part va with
  | .stop x => x
  | .leaf e1 l1 => combine s p acc priv va e1 l1 fun gpa => if p.s2en then some (walkStage2 s part gpa false) else none

/-- A translation by a combined entry; whether stage 2 took part was settled when it was made (R216). -/
def combinedXlat (s : State) (part : BitVec 4) (acc : Access) (priv : Bool) (va : Nat) (c : CachedPage) : Xlat :=
  combine s (s.parts.get part.toFin) acc priv va c.leaf1 c.level1 fun _ => c.leaf2.map fun x => .leaf x.1 x.2

/-- A combined entry of a page. -/
def CachedPage.of (c : CachedPage) (part : BitVec 4) (va : Nat) : Bool := c.part == part && c.page == va / 65536

/-- The kept combined translation that an access uses, if it uses one (log 8, DESIGN CHOICE). -/
def keptPage (s : State) (part : BitVec 4) (va : Nat) : Option CachedPage :=
  match s.xlate.filter fun c => c.of part va with
  | [] => none
  | c :: cs => (c :: cs)[Config.cachedPick s.draws 0 0 (va / 65536)]?

/-- The translation an access makes: one that its requester has pinned, a kept combined one, or walks of the tables, from kept entries or from the root, as each access is free to use (R217, R219). -/
def translate (s : State) (part : BitVec 4) (acc : Access) (priv : Bool) (va : Nat) (pins : List CachedPage := []) : Xlat :=
  match pins.find? fun c => c.of part va with
  | some c => combinedXlat s part acc priv va c
  | none =>
    match keptPage s part va with
    | some c => combinedXlat s part acc priv va c
    | none => walkedXlat s part acc priv va

/-- The two leaves of a page, as walks give them. -/
def walkedPage (s : State) (part : BitVec 4) (va : Nat) : Option CachedPage :=
  match walkStage1 s part va with
  | .stop _ => none
  | .leaf e1 l1 =>
    let c : CachedPage := { part := part, page := va / 65536, leaf1 := e1, level1 := l1, leaf2 := none }
    if (s.parts.get part.toFin).s2en then
      match walkStage2 s part (leafOut e1 l1 va) false with
      | .leaf e2 l2 => some { c with leaf2 := some (e2, l2) }
      | .stop _ => none
    else some c

/-- The two leaves of a page that an access uses. -/
def usedPage (s : State) (part : BitVec 4) (va : Nat) (pins : List CachedPage) : Option CachedPage :=
  match pins.find? fun c => c.of part va with
  | some c => some c
  | none =>
    match keptPage s part va with
    | some c => some c
    | none => walkedPage s part va

/-- The valid entries that a stage-2 walk reads. -/
def trace2 (s : State) (part : BitVec 4) (gpa : Nat) : Nat → Nat → Nat → List CachedEntry
  | 0, _, _ => []
  | fuel + 1, level, t =>
    match readEntry s 2 level (t + 8 * tableIndex 2 level gpa) 0 0 with
    | .error _ => []
    | .ok e =>
      if !pteValid e || pteMalformed 2 level true e then []
      else { part, stage := 2, level, cover := gpa / levelSpan level, entry := e } ::
        (if pteTable e then trace2 s part gpa fuel (level + 1) (ptpNext e) else [])

/-- What is read from the root of a stage, or behind a kept entry. -/
def traceFrom (start : Option (Nat × Word)) (root : Nat) (trace : Nat → Nat → Nat → List CachedEntry) : List CachedEntry :=
  match start with
  | none => trace 4 0 root
  | some (l, e) => if pteTable e then trace (3 - l) (l + 1) (ptpNext e) else []

def traceStage2 (s : State) (part : BitVec 4) (gpa : Nat) : List CachedEntry :=
  traceFrom (keptStart s part 2 gpa) ((s.parts.get part.toFin).s2root.toNat / 65536 * 65536) (trace2 s part gpa)

/-- The valid entries that a stage-1 walk reads, those of the stage-2 walks of its tables among them. -/
def trace1 (s : State) (part : BitVec 4) (va : Nat) : Nat → Nat → Nat → List CachedEntry
  | 0, _, _ => []
  | fuel + 1, level, t =>
    let a := t + 8 * tableIndex 1 level va
    (if (s.parts.get part.toFin).s2en then traceStage2 s part a else []) ++
    match tablePlace s part level a with
    | .error _ => []
    | .ok (pa, kid) =>
      match readEntry s 1 level pa kid 0 with
      | .error _ => []
      | .ok e =>
        if !pteValid e || pteMalformed 1 level (s.parts.get part.toFin).s2en e then []
        else { part, stage := 1, level, cover := va / levelSpan level, entry := e } ::
          (if pteTable e then trace1 s part va fuel (level + 1) (ptpNext e) else [])

def traceStage1 (s : State) (part : BitVec 4) (va : Nat) : List CachedEntry :=
  traceFrom (keptStart s part 1 va) (((s.parts.get part.toFin).s1root.extractLsb' 18 34).toNat * 2 ^ 18) (trace1 s part va)

/-- Every valid entry that the walks of an address read. -/
def tracePage (s : State) (part : BitVec 4) (va : Nat) : List CachedEntry :=
  traceStage1 s part va ++
    match walkStage1 s part va with
    | .stop _ => []
    | .leaf e1 l1 => if (s.parts.get part.toFin).s2en then traceStage2 s part (leafOut e1 l1 va) else []

/-- What an access at an address leaves in the translation caches: what its walks read, and the combined translation. An access by a kept combined translation reads nothing. -/
def keepPage (s : State) (part : BitVec 4) (va : Nat) : State :=
  if (keptPage s part va).isSome then s
  else
    { s with
      tables := (tracePage s part va).filter (fun c => !s.tables.contains c) ++ s.tables
      xlate := match walkedPage s part va with
        | some c => if s.xlate.contains c then s.xlate else c :: s.xlate
        | none => s.xlate }

/-- The caches keep what the accesses at some addresses read, one for each page. -/
def keepPages (s : State) (part : BitVec 4) (vas : List Nat) : State :=
  ((vas.map (· / 65536)).eraseDups).foldl (fun s page => keepPage s part (65536 * page)) s

/-! ## Exact addresses (R209) -/

/-- The reason of the non-canonical fault of an exact address, if it is not canonical. -/
def canonicalFault (a : Int) : Option (BitVec 8) :=
  if a < 0 || (2 ^ 64 : Int) ≤ a then some 0x49#8
  else if a / 2 ^ 53 == 0 || a / 2 ^ 53 == 2047 then none
  else some 0x48#8

/-- The 54 bits that translation uses (R209). -/
def va54 (a : Int) : Nat := (a % 2 ^ 54).toNat

/-- An address in the SRAM window (R181). -/
def inWindow (a : Nat) : Bool := Config.windowBase ≤ a && a < Config.windowBase + Config.windowBytes

end Sys2Proof.Machine
end

