-- ==== Sys2Proof/Machine/Ops.lean ====
section
/-! DEFINITION. The named operations that every meaning is made of: registers, visibility of results, the position of a warp, commit, taking a trap and the double fault, checks at issue, interrupts and the error record, the toll gate, and access to other warps. -/
namespace Sys2Proof.Machine
open Sys2Proof

/-- The outcome of a step of this machine. -/
abbrev Result := Host.Outcome State Fault Refusal

/-! ## Registers (02_words_and_registers.md R41, R43) -/

/-- `s0` reads zero. -/
def Warp.readS (w : Warp) (r : BitVec 6) : Word := if r = 0#6 then 0#64 else w.s.get r.toFin

/-- A write to `s0` is discarded. -/
def Warp.setS (w : Warp) (r : BitVec 6) (v : Word) : Warp :=
  if r = 0#6 then w else { w with s := w.s.set r.toNat v r.isLt }

/-- `m0` reads all ones. -/
def Warp.readM (w : Warp) (r : BitVec 3) : BitVec 1024 := if r = 0#3 then BitVec.allOnes 1024 else w.m.get r.toFin

/-- A write to `m0` is discarded. -/
def Warp.setM (w : Warp) (r : BitVec 3) (v : BitVec 1024) : Warp :=
  if r = 0#3 then w else { w with m := w.m.set r.toNat v r.isLt }

/-- A lane word by its flat index: register · W + lane. -/
def Warp.readLane (w : Warp) (i : Nat) : LaneWord := w.v.getD i 0#32

/-- The bits of a word that a mask enables, replaced. -/
def blend (mask old new : LaneWord) : LaneWord := (old &&& ~~~mask) ||| (new &&& mask)

/-- Lane words written at their flat indices, the first in the list first. -/
def applyWrites (v : List LaneWord) (ws : List LaneWrite) : List LaneWord :=
  ws.foldl (fun acc x => acc.modify x.lane fun old => blend x.mask old x.value) v

/-- What an earlier pending write still writes after later writes became visible (R36). -/
def stripWrites (later : List LaneWrite) (ws : List LaneWrite) : List LaneWrite :=
  ws.map fun x =>
    { x with mask := later.foldl (fun m y => if y.lane = x.lane then m &&& ~~~y.mask else m) x.mask }

/-- A pending uniform result that a later visible write to the same register has overtaken does not change it any more. -/
def stripS (r : BitVec 6) (o : Option (BitVec 6 × Word)) : Option (BitVec 6 × Word) :=
  match o with
  | some (d, v) => if d = r then none else some (d, v)
  | none => none

/-- A visible write of lane words by the instruction at program-order position `seq` (R36). -/
def Warp.showLanes (w : Warp) (seq : Nat) (ws : List LaneWrite) : Warp :=
  { w with
    v := applyWrites w.v ws
    pending := w.pending.map fun o => if o.seq < seq then { o with vWrites := stripWrites ws o.vWrites } else o }

/-- A visible write of a uniform register by the instruction at program-order position `seq` (R36). -/
def Warp.showS (w : Warp) (seq : Nat) (r : BitVec 6) (v : Word) : Warp :=
  { w.setS r v with
    pending := w.pending.map fun o => if o.seq < seq then { o with sWrite := stripS r o.sWrite } else o }

/-- An interlocked write of a uniform register: every pending instruction is earlier in program order. -/
def Warp.writeS (w : Warp) (r : BitVec 6) (v : Word) : Warp := w.showS w.seq r v

/-- An interlocked write of lane words. -/
def Warp.writeLanes (w : Warp) (ws : List LaneWrite) : Warp := w.showLanes w.seq ws

/-- FPSTAT bits set (06_numbers_and_float.md R132). -/
def Warp.raise (w : Warp) (bits : BitVec 7) : Warp := { w with fpstat := w.fpstat ||| bits }

/-! ## The state's focus -/

def State.onWarp (s : State) (f : Warp → Warp) : State := { s with warp := f s.warp }

def State.onTeam (s : State) (f : Team → Team) : State := { s with team := f s.team }

/-- The partition of the focused team. -/
def State.part (s : State) : Partition := s.parts.get s.team.part.toFin

def onPart (s : State) (p : BitVec 4) (f : Partition → Partition) : State :=
  { s with parts := s.parts.set p.toNat (f (s.parts.get p.toFin)) p.isLt }

def partOf (s : State) (p : BitVec 4) : Partition := s.parts.get p.toFin

def coreOf (s : State) (c : CoreRef) : Core := s.cores.toList.getD (corePlace c) {}

def onCore (s : State) (c : CoreRef) (f : Core → Core) : State :=
  { s with cores := s.cores.setIfInBounds (corePlace c) (f (coreOf s c)) }

def clusterOf (s : State) (n : Nat) : Cluster := s.clusters.toList.getD n {}

def onCluster (s : State) (n : Nat) (f : Cluster → Cluster) : State :=
  { s with clusters := s.clusters.setIfInBounds n (f (clusterOf s n)) }

/-- W and R of the focused warp's team (R16). -/
def State.w (s : State) : Nat := s.team.launch.warpw
def State.r (s : State) : Nat := s.team.launch.vregs

/-- The identity of the focused warp. -/
def State.me (s : State) : WarpRef := { team := s.team.tid, warp := s.warp.idx }

/-- One draw of a free value. -/
def State.draw (s : State) : State := { s with draws := s.draws + 1 }

/-- The focus put back among the others, so that no warp is focused. -/
def unfocus (s : State) : State :=
  let t := if s.warp.status == .absent then s.team else { s.team with peers := s.warp :: s.team.peers }
  { s with warp := {}, team := {}, teams := if t.status == .absent then s.teams else t :: s.teams }

/-- A team brought into focus, with no warp of it focused. -/
def focusTeam (s : State) (tid : Nat) : State :=
  let s := unfocus s
  match s.teams.find? (fun t => t.tid == tid) with
  | some t => { s with team := t, teams := s.teams.filter fun u => u.tid != tid }
  | none => s

/-- A warp brought into focus; without such a warp the team alone is. -/
def focusOn (s : State) (r : WarpRef) : State :=
  if s.team.status != .absent && s.team.tid == r.team && s.warp.status != .absent && s.warp.idx == r.warp then s
  else
    let s := focusTeam s r.team
    match s.team.peers.find? (fun w => w.idx == r.warp) with
    | some w => { s with warp := w, team := { s.team with peers := s.team.peers.filter fun x => x.idx != r.warp } }
    | none => s

/-- The focus put back where it was in an earlier state. -/
def refocus (old s : State) : State :=
  if old.team.status == .absent then unfocus s
  else if old.warp.status == .absent then focusTeam s old.team.tid
  else focusOn s old.me

/-- An action on another warp, after which the focus is where it was. -/
def withWarp (s : State) (r : WarpRef) (f : State → State) : State := refocus s (f (focusOn s r))

/-- An action on another team, after which the focus is where it was. -/
def withTeam (s : State) (tid : Nat) (f : State → State) : State :=
  if s.team.status != .absent && s.team.tid == tid then f s else refocus s (f (focusTeam s tid))

/-- The warps of the focused team. -/
def State.mates (s : State) : List Warp :=
  if s.warp.status == .absent then s.team.peers else s.warp :: s.team.peers

/-- A function on every warp of the focused team. -/
def State.onMates (s : State) (f : Warp → Warp) : State :=
  { s with warp := if s.warp.status == .absent then s.warp else f s.warp,
           team := { s.team with peers := s.team.peers.map f } }

/-- Every warp of a team (R97: its warp count is their number). -/
def Team.count (t : Team) : Nat := t.peers.length

def State.count (s : State) : Nat := s.mates.length

/-! ## Lane groups (05_teams_and_warps.md R105) -/

/-- A lane that may issue. -/
def Lane.ready (l : Lane) : Bool := !l.joined && l.blocked.isNone

/-- Two positions name one word. -/
def Position.same (p q : Position) : Bool := p.hdr == q.hdr && p.idx == q.idx

def LaneMode.lane (lm : LaneMode) (i : Nat) : Lane := lm.lanes.getD i { pos := { hdr := 0 }, joined := true }

/-- The lowest lane of each group that may issue. -/
def LaneMode.leaders (lm : LaneMode) : List Nat :=
  (List.range lm.lanes.length).filter fun i =>
    (lm.lane i).ready && !((List.range i).any fun j => (lm.lane j).ready && (lm.lane j).pos.same (lm.lane i).pos)

/-- The group that issues next, by its lowest lane: the rotation goes on from `next`. -/
def LaneMode.leader (lm : LaneMode) : Option Nat :=
  match lm.leaders.find? (fun i => lm.next ≤ i) with
  | some i => some i
  | none => lm.leaders.head?

/-- The lanes of a lane's group. -/
def LaneMode.groupOf (lm : LaneMode) (i : Nat) : List Nat :=
  (List.range lm.lanes.length).filter fun j => (lm.lane j).ready && (lm.lane j).pos.same (lm.lane i).pos

/-- The lanes that issue the next word. -/
def LaneMode.group (lm : LaneMode) : List Nat :=
  match lm.leader with
  | some i => lm.groupOf i
  | none => []

/-- A change of some lanes. -/
def LaneMode.onLanes (lm : LaneMode) (is : List Nat) (f : Nat → Lane → Lane) : LaneMode :=
  { lm with lanes := lm.lanes.mapIdx fun i l => if is.contains i then f i l else l }

/-- The lanes that the current word acts on; none outside lane mode. -/
def Warp.group (w : Warp) : List Nat :=
  match w.lanes with
  | some lm => lm.group
  | none => []

def Warp.inLanes (w : Warp) : Bool := w.lanes.isSome

/-! ## Positions (R29, R31) -/

/-- The position of the word that issues: the warp's, or that of the issuing lane group. -/
def Warp.at (w : Warp) : Position :=
  match w.lanes with
  | none => w.pos
  | some lm =>
    match lm.leader with
    | some i => (lm.lane i).pos
    | none => w.pos

/-- N of the clause a position stands in. -/
def Position.n (p : Position) : Nat := (Header.ofBits p.header).n.toNat

/-- The address of the word at a position: h + 8 · idx. -/
def Position.pc (p : Position) : Int := p.hdr + 8 * (p.idx : Int)

/-- The header of the next clause: h + 8(N + 1) (R29). -/
def Position.nextHdr (p : Position) : Int := p.hdr + 8 * ((p.n : Int) + 1)

/-- The position after the word: the next word of the clause, or the next clause. -/
def Position.after (p : Position) : Position :=
  if p.idx < p.n then { p with idx := p.idx + 1 } else { hdr := p.nextHdr }

/-- An exact address as a register holds it. -/
def addrWord (a : Int) : Word := BitVec.ofInt 64 a

/-- The YLD field acts after the last word of a clause issues: for the rest of that cycle and the eight after it, in the first four of which YLD = 2 holds the warp back (04_scalar_and_flow.md R71). -/
def Warp.yieldHint (w : Warp) (p : Position) : Warp :=
  if p.idx < p.n then w
  else if (Header.ofBits p.header).yld = 1#2 then { w with yieldLow := 9 }
  else if (Header.ofBits p.header).yld = 2#2 then { w with yieldOff := 5, yieldLow := 9 }
  else w

/-- The position of the warp, or of the issuing lanes, moved; the lane rotation goes on behind the group. -/
def Warp.moveTo (w : Warp) (f : Nat → Position → Position) : Warp :=
  match w.lanes with
  | none => { w with pos := f 0 w.pos }
  | some lm =>
    match lm.leader with
    | some i => { w with lanes := some { lm.onLanes (lm.groupOf i) (fun j l => { l with pos := f j l.pos }) with next := i + 1 } }
    | none => w

/-- Issue bookkeeping: an issued warp waits no longer (R68), and nothing is left of a parked access. -/
def Warp.issued (w : Warp) : Warp := { w with wait := 0, urgent := false, park := .none, service := {}, paid := false }

/-- The warp goes on at the word after the one that issued. -/
def Warp.advance (w : Warp) : Warp := ((w.yieldHint w.at).moveTo fun _ p => p.after).issued

def State.advance (s : State) : State := s.onWarp Warp.advance

/-- The warp, or the issuing lanes, go on at the clause at an exact address (R80; the checks of the target are those of the clause's start). -/
def Warp.goto (w : Warp) (target : Int) : Warp := ((w.yieldHint w.at).moveTo fun _ _ => { hdr := target }).issued

/-! ## Reports -/

/-- The code of a cause (15_system_and_traps.md R329, Table 1). -/
def Cause.code : Cause → BitVec 8
  | .illegal => 1#8 | .misformed => 2#8 | .tileDisabled => 3#8 | .nonCanonical => 4#8 | .access => 5#8
  | .translation => 6#8 | .protection => 7#8 | .machineCheck => 8#8 | .sync => 9#8 | .replay => 10#8
  | .fp => 11#8 | .copy => 12#8 | .software => 13#8 | .preemption => 14#8 | .double => 15#8

/-- TRAPINFO with an element and a reason (R194, R222, R135): ELEM in [18:8], REASON in [7:0]. -/
def infoElem (k : Nat) (reason : BitVec 8) : Word := BitVec.ofNat 64 (k % 2048 * 256 + reason.toNat)

/-- An access fault (R194). -/
def accessReport (reason : BitVec 8) (k : Nat) (va : Int) : Report :=
  { cause := .access, info := infoElem k reason, va := addrWord va }

/-- A machine check at a memory address: UNIT in [31:24] (R194); the span in which it was met. -/
def checkReport (s : State) (sp : Span) (pa k : Nat) (va : Int) : Report :=
  { cause := .machineCheck,
    info := infoElem k (errorReason s pa) ||| BitVec.ofNat 64 (unitOf s pa % 256 * 2 ^ 24), va := addrWord va, met := some sp
    walk := if Config.windowBase ≤ pa then none else some (va54 va) }

/-- A fault is met: the caches may keep the valid entries that its walks read (10 R217), and its uncorrectable error is met by no later reader (09 R200). -/
def metFor (s : State) (part : BitVec 4) (r : Report) : State :=
  let s := match r.walk with
    | none => s
    | some va => keepPages s part [va]
  match r.met with
  | none => s
  | some sp => metErrors s sp

/-- The same for the focused team's partition. -/
def State.met (s : State) (r : Report) : State := metFor s s.team.part r

/-- A translation or protection fault: STAGE in [27:26], LEVEL in [25:24] (R222). -/
def xlatReport (cause : Cause) (reason : BitVec 8) (stage level gpa k : Nat) (va : Int) : Report :=
  { cause := cause, info := infoElem k reason ||| BitVec.ofNat 64 (stage * 2 ^ 26 + level * 2 ^ 24),
    va := addrWord va, gpa := if stage = 2 then BitVec.ofNat 64 gpa else 0#64, walk := some (va54 va) }

/-- A non-canonical fault (R209, R222). -/
def canonReport (reason : BitVec 8) (k : Nat) (va : Int) : Report :=
  { cause := .nonCanonical, info := infoElem k reason, va := addrWord va }

/-! ## Interrupts and the error record (18_host_link_and_management.md R384–R386, R438) -/

/-- The guest vectors, which go to the partition's VF; the others are host vectors, which go to the PF (R384). -/
def guestVector (bit : Nat) : Bool := bit == 1 || bit == 3

/-- An event sets its INTSTAT bit; the message is sent once for each rise when INTEN has the bit. -/
def interrupt (s : State) (p : BitVec 4) (bit : Nat) : State :=
  let q := partOf s p
  if q.intstat.getLsbD bit then s
  else
    let s := onPart s p fun q => { q with intstat := q.intstat ||| BitVec.ofNat 10 (2 ^ bit) }
    if q.inten.getLsbD bit then { s with outbox := s.outbox ++ [.interrupt p bit (guestVector bit)] } else s

/-- A response to the outside: data, or the link's error response. -/
def respond (s : State) (data : Option (List Byte)) : State := { s with outbox := s.outbox ++ [.response data] }

/-- A write of the host over the link; with the link down it ends with the error response (R381). -/
def overLink (s : State) (t : State) : Result := .next (if s.mgmt.linkUp then t else respond s none)

/-- The free entries of a ring that takes 2^log entries, for the log values that enable it. -/
def Ring.room (r : Ring) (maxLog : Nat) : Nat :=
  if r.stopped || r.log < 1 || maxLog < r.log then 0 else 2 ^ r.log - (r.tail - r.head).toNat

/-- The place of the next entry of a ring. -/
def Ring.place (r : Ring) (bytes : Nat) : Nat := r.base.toNat + bytes * (r.tail.toNat % 2 ^ r.log)

/-- A line among n bytes at a key is held by an engine: an access waits (11_atomics_and_ordering.md R242). -/
def heldLine (s : State) (key n : Nat) : Bool := (absentIn s key n).isSome

/-- A write at the memory of n bytes at a place meets an uncorrectable error in a line or bale that it covers in part (09 R199; 16_bales.md R366). -/
def memoryError (s : State) (l : Loc) (n : Nat) : Bool :=
  (linesOf l.key n).any fun x => writeError s { l with key := max l.key (128 * x) } true fun a => l.key ≤ a && a < l.key + n

/-- The first byte of a write at which it fails. -/
def memoryErrorAt (s : State) (l : Loc) (n : Nat) : Nat :=
  match (linesOf l.key n).find? fun x => writeError s { l with key := max l.key (128 * x) } true fun a => l.key ≤ a && a < l.key + n with
  | some x => max l.key (128 * x)
  | none => l.key

/-! ## Losses without a requester (09 R200; 16_bales.md R364, R366; 18 R385, R386) -/

/-- An entry waits for its place in the partition's error record, or is dropped with LOST on the oldest waiting entry (R385). -/
def queueError (s : State) (p : BitVec 4) (e : ErrorEntry) : State :=
  onPart s p fun q =>
    { q with errWait := if q.errWait.length < 64 then q.errWait ++ [e]
        else match q.errWait with
          | [] => []
          | x :: rest => { x with lost := true } :: rest }

/-- A partition whose key range has a slot with the key pair of a byte. -/
def holdsPair (s : State) (p : Partition) (pa : Nat) : Bool :=
  (List.range p.keycnt.toNat).any fun i => keyPair s (p.keybase.toNat + i) = (sideCell s pa).2

/-- The partition that owns a DRAM address: the lowest whose key range holds the key pair of its byte (log 36, DEDUCED). -/
def ownerPart (s : State) (pa : Nat) : Option (BitVec 4) :=
  match regionOf s pa with
  | .dram => ((List.range 16).find? fun p => holdsPair s (partOf s (BitVec.ofNat 4 p)) pa).map (BitVec.ofNat 4)
  | .host | .peer _ | .window _ | .none => none

/-- A loss has an entry of the error record with the machine-check interrupt; without an owning partition it goes to partition 0 and to the management log. -/
def noteLoss (s : State) (kind : BitVec 8) (pa : Nat) : State :=
  let e : ErrorEntry := { kind := kind, addr := BitVec.ofNat 64 pa }
  match ownerPart s pa with
  | some p => interrupt (queueError s p e) p 6
  | none =>
    let s := interrupt (queueError s 0#4 e) 0#4 6
    { s with mgmt := { s.mgmt with log := s.mgmt.log ++ [e] } }

/-- A write to a bale for which the controller reads the stored form: all that it finds compressed, that it compresses, or whose map entry it cannot use (R359, R364). -/
def merges (s : State) (n : Nat) (bale : Bool) : Bool := bale || formOf s n != 8 || mapBad s n

/-- A merge without a requester that meets an error in the stored form: the bale is written raw, zero but for the written bytes, and is reported (R366). -/
def loseBale (s : State) (n off kid : Nat) (data : List Byte) : State :=
  noteLoss (putStored s n kid (overlay (List.replicate 2048 0#8) off data) 8) 6#8 (2048 * n)

/-- All bytes of a bale written by one request: no cached copy of it is left, and nothing of what was stored is read (R364, R365). -/
def wholeWrite (s : State) (n kid : Nat) (bale : Bool) (data : List Byte) : State :=
  putStored { s with dirty := s.dirty.filter fun d => d.line / 2048 != n } n kid data (formFor bale data)

/-- A dirty line leaves the caches; one found uncorrectable has fresh check bits over its bits as read, and is reported (R200). -/
def evict (s : State) (pa : Nat) : State :=
  let line := pa / 128 * 128
  match dirtyAt s pa with
  | none => s
  | some d =>
    if regionOf s line == .dram && merges s (line / 2048) d.bale && storedError s (line / 2048) d.kid then
      loseBale (cleanLine s line) (line / 2048) (line % 2048) d.kid (cellsRead s.mem line 128)
    else
      let u := recallLine s line
      if d.bad.isEmpty then u else noteLoss u 2#8 line

/-- A write that is not made in a cluster cache: a cached copy of a line that it touches is recalled first (R364), and the bytes go to the memory. -/
def memoryWrite (s : State) (l : Loc) (bs : List Byte) : State :=
  sideStore ((linesOf l.key bs.length).foldl (fun s x => evict s (128 * x)) s) l bs

/-- A physical write by the device itself, with KEYID 0: none when it fails (R437, R438). -/
def physWrite (s : State) (pa : Nat) (bytes : List Byte) : Option State :=
  if Config.windowBase ≤ pa || regionOf s pa == .none || regionOf s (pa + bytes.length - 1) == .none ||
      memoryError s { key := pa } bytes.length then none
  else some (memoryWrite s { key := pa } bytes)

/-- A physical read by the device itself, with KEYID 0. -/
def physRead (s : State) (pa n : Nat) : Option (List Byte) :=
  if Config.windowBase ≤ pa || regionOf s pa == .none || regionOf s (pa + n - 1) == .none || errorAt s pa 0 n then none
  else some (readBytes s pa 0 n)

/-- An access of the device itself to n bytes has failed: the errors in the lines that it touched have been met (09 R200). -/
def metLines (s : State) (key kid n : Nat) : State :=
  metErrors s { start := key / 128 * 128, kid := kid, len := 128 * (linesOf key n).length }

/-- The 32 bytes of an error-record entry (R385, Table 5). -/
def ErrorEntry.bytes (e : ErrorEntry) (seq : Nat) : List Byte :=
  leBytes 8 (seq % 2 ^ 48 * 65536 + (if e.lost then 32768 else 0) + e.kind.toNat) ++ leBytes 8 e.addr.toNat ++
    leBytes 8 (e.team.toNat * 2 ^ 32 + e.value.toNat) ++ leBytes 8 e.core.toNat

/-- Entries that wait are written oldest first while the ring has room and no engine holds the place (R385; 11_atomics_and_ordering.md R242); a failed write stops the ring and goes to the management log (R438). -/
def drainErrors : Nat → State → BitVec 4 → State
  | 0, s, _ => s
  | fuel + 1, s, p =>
    let q := partOf s p
    match q.errWait with
    | [] => s
    | e :: rest =>
      if q.err.room 12 = 0 || heldLine s (q.err.place 32) 32 then s
      else
        match physWrite s (q.err.place 32) (e.bytes q.errSeq) with
        | none =>
          let s := onPart (metLines s (q.err.place 32) 0 32) p fun q => { q with err := { q.err with stopped := true } }
          { s with mgmt := { s.mgmt with log := s.mgmt.log ++ [{ kind := 9#8, addr := BitVec.ofNat 64 (q.err.place 32), value := 5#32 }] } }
        | some s =>
          let s := onPart s p fun q => { q with errWait := rest, errSeq := q.errSeq + 1, err := { q.err with tail := q.err.tail + 1#32 } }
          drainErrors fuel (interrupt s p 5) p

/-- An entry goes to the partition's error record: written, or waiting, or dropped (R385). -/
def recordError (s : State) (p : BitVec 4) (e : ErrorEntry) : State := drainErrors 65 (queueError s p e) p

/-- Every partition. -/
def allParts : List (BitVec 4) := (List.range 16).map (BitVec.ofNat 4)

/-- The entries that wait are written in every partition. -/
def drainAll (s : State) : State :=
  if allParts.all (fun p => (partOf s p).errWait.isEmpty) then s else allParts.foldl (drainErrors 65) s

/-- The core number of a warp, as an entry carries it (R385). -/
def coreCode (c : CoreRef) : BitVec 16 := BitVec.ofNat 16 c.num

/-! ## Commit (R33–R38) -/

/-- A flag is outstanding while an instruction attached to it has not completed (R33). -/
def Warp.flagBusy (w : Warp) (f : Nat) : Bool := w.pending.any fun o => o.flag == some f && !o.done

/-- Instructions that an engine completes in its own time. -/
def Outstanding.onEngine (o : Outstanding) : Bool := (o.copy.isSome || o.late) && !o.done

/-- A wait for the outstanding flags that a predicate names ends when the copies and matrix operations attached to them have completed; every other instruction completes during the wait. -/
def Warp.mustWait (w : Warp) (p : Outstanding → Bool) : Bool := w.pending.any fun o => p o && o.onEngine

/-- The park of such a wait: on the copies and operations it waits for. -/
def Warp.waitOn (w : Warp) (p : Outstanding → Bool) : Park :=
  let os := w.pending.filter fun o => p o && o.onEngine
  .flags (os.filterMap (·.copy)) ((os.filter (·.late)).map (·.seq))

/-- The pending results that a predicate names become visible, in program order; the instruction with the earliest recorded fault is returned (R35, R36, R38). -/
def Warp.commit (w : Warp) (p : Outstanding → Bool) : Warp × Option Outstanding :=
  let chosen := w.pending.filter p
  let w := { w with pending := w.pending.filter fun o => !p o }
  let show1 (w : Warp) (o : Outstanding) : Warp :=
    let w := w.showLanes o.seq o.vWrites
    let w := match o.sWrite with
      | some (r, v) => w.showS o.seq r v
      | none => w
    w.raise o.status
  (chosen.foldl show1 w, chosen.find? fun o => o.fault.isSome)

/-- An instruction with a flag, whose result is pending until a commit point (R35). -/
def flagged (o : Outstanding) : Bool := o.flag.isSome

/-- Every flag and every pending result, and what is recorded against an instruction without a flag. A copy without a flag that is still in flight holds no result; the next clause start waits for it (R34). -/
def everyFlag (o : Outstanding) : Bool := o.flag.isSome || !o.onEngine

/-- The pending destinations of a warp (R37). -/
def Warp.dests (w : Warp) : Nat := (w.pending.map fun o => if o.flag.isSome then o.dests else 0).sum

/-! ## Taking a trap (15_system_and_traps.md R330, R331, R334) -/

/-- Where a trap is taken: TRAPPC, TRAPNPC, TRAPHDR, DEFER, and the value of `vstart`. -/
structure TrapSite where
  pc : Int
  npc : Int
  hdr : Int
  defer : Bool := false
  vstart : Nat
  /-- The clause header of the word at TRAPPC. -/
  home : Int := 0
  deriving DecidableEq, Repr

/-- The site of a trap at the word that issues. -/
def Warp.site (w : Warp) : TrapSite := { pc := w.at.pc, npc := w.at.pc, hdr := w.at.hdr, vstart := w.vstart }

/-- TRAPCAUSE: SECOND [17:10], LANE [9], DEFER [8], CAUSE [7:0] (R331, Table 2). -/
def trapcauseOf (second : BitVec 8) (lane defer : Bool) (cause : BitVec 8) : Word :=
  (second ++ BitVec.ofBool lane ++ BitVec.ofBool defer ++ cause).setWidth 64

/-- Step 2 of R330: the trap-state registers. -/
def Warp.setTrapState (w : Warp) (r : Report) (t : TrapSite) : Warp :=
  { w with
    trapcause := trapcauseOf 0#8 w.inLanes t.defer r.cause.code
    trappc := addrWord t.pc
    trapnpc := addrWord t.npc
    traphdr := addrWord t.hdr
    trapinfo := r.info
    faultva := r.va
    faultgpa := r.gpa
    vstart := t.vstart
    trapvstart := t.vstart
    traphome := t.home
    due := none
    reissue := none }

/-- The lanes frozen for the handler; the rotation stands at the trapping group (R333). -/
def LaneMode.freeze (lm : LaneMode) : LaneMode :=
  match lm.leader with
  | some i => { lm with next := i }
  | none => lm

/-- The double fault (R334): the second trap's values, cause 15 with SECOND; the warp stops, and an error entry of kind 1 is made. -/
def doubleFault (s : State) (r : Report) (t : TrapSite) : State :=
  let s := (s.met r).onWarp fun w =>
    { w.setTrapState r t with
      trapcause := trapcauseOf r.cause.code w.inLanes t.defer 15#8
      status := .stopped
      park := .none }
  recordError s s.team.part
    { kind := 1#8, addr := addrWord t.pc, team := BitVec.ofNat 32 s.team.lin, value := r.info.setWidth 32,
      core := coreCode s.warp.core }

/-- Steps 2 to 4 of R330, after the commit: the trap state, then the double fault inside a handler, or the handler at TRAPVEC. -/
def enterTrap (s : State) (r : Report) (t : TrapSite) : State :=
  if s.warp.intrap then doubleFault s r t
  else
    let vec : Int := (s.part.trapvec.toNat : Nat)
    (s.met r).onWarp fun w =>
      { w.setTrapState r t with
        intrap := true
        frozen := w.lanes.map LaneMode.freeze
        lanes := none
        pos := { hdr := vec }
        park := .none
        wait := 0
        urgent := false
        service := {}
        paid := false }

/-- A trap (R330): the warp waits for its outstanding flags and commits; a fault recorded at that commit is taken in its place, with DEFER = 1 and the displaced word as TRAPNPC. While a copy holds one of the flags the warp is parked where it stands and meets its trap again. -/
def takeTrap (s : State) (r : Report) (t : TrapSite) (displaced : Int) : State :=
  if s.warp.mustWait flagged then s.onWarp fun w => { w with park := w.waitOn flagged, vstart := t.vstart }
  else
    match s.warp.commit everyFlag with
    | (w, none) => enterTrap { s with warp := w } r t
    | (w, some o) =>
      match o.fault with
      | some (r', k) =>
        enterTrap { s with warp := w } r'
          { pc := (o.pc.toNat : Nat), npc := displaced, hdr := s.warp.at.hdr, defer := true, vstart := k, home := o.home }
      | none => enterTrap { s with warp := w } r t

/-- A trap that is met now is taken in its own right: no flag is to be waited for, and the commit finds no recorded fault (R330). -/
def trapTaken (s : State) : Bool := !s.warp.mustWait flagged && (s.warp.commit everyFlag).2.isNone

/-- A trap at the word that issues. -/
def trapHere (s : State) (r : Report) (vstart : Nat) : State :=
  takeTrap s r { s.warp.site with vstart := vstart } s.warp.at.pc

/-- The illegal-instruction trap at the word that issues (R32). -/
def illegal (s : State) (reason : IllegalReason) : State :=
  trapHere s { cause := .illegal, info := reason.code.setWidth 64 } s.warp.vstart

/-- The checks of a word at issue, in the order given: the first that fails decides the reason (R32). -/
def guarded (checks : List (Bool × IllegalReason)) (s : State) (k : State → State) : Result :=
  match checks.find? (fun c => !c.1) with
  | some c => .next (illegal s c.2)
  | none => .next (k s)

/-- The check of a word that lane mode does not permit (R84, R104). -/
def vectorOnly (s : State) : Bool × IllegalReason := (!s.warp.inLanes, .laneMode)

/-- The check of privilege (R335, R337). -/
def privileged (s : State) : Bool × IllegalReason := (s.warp.intrap, .privilege)

/-- A vector register number below R (R42). -/
def regOk (s : State) (n : BitVec 6) : Bool := n.toNat < s.r

/-- A register group (R42, R136). -/
def groupOk (s : State) (n : BitVec 6) (g : Nat) : Bool := g ≤ 8 && n.toNat % g == 0 && n.toNat + g ≤ s.r

/-- The flag that a flag select names in the enclosing clause (R25). -/
def flagOf (p : Position) (fs : FSel) : Option Nat :=
  match fs with
  | .none => none
  | .a => some (Header.ofBits p.header).setA.toNat
  | .b => some (Header.ofBits p.header).setB.toNat

/-- Condition 15 of R32: a flag-bearing issue that adds `n` pending destinations (R37). -/
def pendingOk (s : State) (fs : FSel) (n : Nat) : Bool × IllegalReason :=
  (fs == .none || s.warp.dests + n ≤ 16, .pending)

/-- A word that outside lane mode acts once, on the uniform datapath, and goes on at the next word. -/
def uniformWord (s : State) (f : State → State) : Result := guarded [vectorOnly s] s fun s => (f s).advance

/-! ## Pre-emption points (R35, R98, R346) -/

/-- A warp takes a pending pre-emption at the word that issues, which executes again after restore: cause 14 with that word in TRAPPC and TRAPNPC and its clause header in TRAPHDR, and no handler (R331, R346, R347); `dead` says that its vector and mask state is not saved. -/
def takePreemption (s : State) (dead : Bool) : State :=
  let s := onCluster s (coreCluster s.warp.core) fun c => { c with pool := c.pool + s.warp.lease }
  { s with
    warp := { s.warp with
      status := .saved dead
      trapcause := trapcauseOf 0#8 false false Cause.preemption.code
      trappc := addrWord s.warp.at.pc
      trapnpc := addrWord s.warp.at.pc
      traphdr := addrWord s.warp.at.hdr
      park := .none
      wait := 0
      urgent := false
      lease := 0
      service := {}
      paid := false
      st := s.warp.st.map fun x => { x with ahead := [], held := [] } }
    team := { s.team with k := 0 } }

/-- A commit of what a predicate names, after the wait for outstanding flags: a recorded fault taken with DEFER = 1, or the action (R35, R38). -/
def commitOf (p : Outstanding → Bool) (s : State) (k : State → State) : State :=
  if s.warp.mustWait flagged then s.onWarp fun w => { w with park := w.waitOn flagged }
  else
    match s.warp.commit p with
    | (w, none) => k { s with warp := w }
    | (w, some o) =>
      match o.fault with
      | some (r, e) =>
        enterTrap { s with warp := w } r
          { pc := (o.pc.toNat : Nat), npc := s.warp.at.pc, hdr := s.warp.at.hdr, defer := true, vstart := e, home := o.home }
      | none => k { s with warp := w }

/-- The commit of an instruction that commits every pending result; what is recorded against an instruction without a flag waits for the next clause (14_matrix_instructions.md R310). -/
def commitPoint (s : State) (k : State → State) : State := commitOf flagged s k

/-- The commit of a warp that leaves: no clause follows, so what is recorded against an instruction without a flag is taken here as well (05_teams_and_warps.md R112; log 70, DEDUCED). -/
def exitPoint (s : State) (k : State → State) : State := commitOf everyFlag s k

/-- A pre-emption point: the commit, then a pending pre-emption unless a handler runs (R332), then the action. -/
def preemptPoint (s : State) (dead : Bool) (k : State → State) : State :=
  commitPoint s fun s =>
    if s.team.preempt && !s.warp.intrap then takePreemption s dead else k s

/-- The warp parks at the word that issues. -/
def State.parkOn (s : State) (p : Park) : State := s.onWarp fun w => { w with park := p }

/-! ## The toll gate (17_cryogenic_and_power.md R375, R377) -/

/-- LEVEL ≥ charge, or LEVEL = CAP. -/
def Core.credit (c : Core) (n : Nat) : Bool := (n : Int) ≤ c.level || c.level = c.cap

/-- A dispatch that lacks credit draws min(UNSPENT, charge − LEVEL) from its warp's lease into LEVEL (R377). -/
def drawLease (s : State) (n : Nat) : State :=
  let c := coreOf s s.warp.core
  if c.credit n then s
  else
    let d := min s.warp.lease ((n : Int) - c.level).toNat
    (onCore s s.warp.core fun c => { c with level := c.level + (d : Int) }).onWarp fun w => { w with lease := w.lease - d }

/-- A dispatch of a charge finds credit, its lease drawn; a word that executes again after a park was dispatched before it (log 55, DEDUCED). -/
def State.credit (s : State) (n : Nat) : Bool :=
  n = 0 || s.warp.paid || (coreOf (drawLease s n) s.warp.core).credit n

/-- A dispatch is charged. -/
def State.dispatched (s : State) (n : Nat) : State :=
  if n = 0 || s.warp.paid then s
  else (onCore (drawLease s n) s.warp.core fun c => { c with level := c.level - (n : Int) }).onWarp fun w => { w with paid := true }

/-- A dispatch at the toll gate: charged when it finds credit; without credit its warp is not ready until the bucket holds it. -/
def tolled (s : State) (n : Nat) (k : State → State) : State :=
  if s.credit n then k (s.dispatched n) else (drawLease s n).parkOn (.toll n)

/-! ## Accesses in the partition's space by the caravan master (05_teams_and_warps.md R91) -/

/-- Where one byte of a partition's space lies, with privilege; none when it meets a miss or a fault, or while its walk waits. A window byte must lie in a line of the partition (09 R183). -/
def partLoc (s : State) (p : BitVec 4) (acc : Access) (va : Nat) : Option Loc :=
  if (canonicalFault (va : Int)).isSome then none
  else if inWindow va then
    (if backed s (va - Config.windowBase) && ownedBy s p (va - Config.windowBase) then some { key := va } else none)
  else
    match translate s p acc true (va54 (va : Int)) with
    | .ok l => some l
    | .miss _ _ _ _ | .fault _ _ _ _ _ | .check _ _ | .held _ => none

/-- The line held by an engine for which an access to one byte waits, as it walks or at its place (11_atomics_and_ordering.md R242). -/
def byteHeld (s : State) (p : BitVec 4) (acc : Access) (va : Nat) : Option Nat :=
  if (canonicalFault (va : Int)).isNone && !inWindow va then
    match translate s p acc true (va54 (va : Int)) with
    | .held line => some line
    | .ok l => if lineAbsent s (l.key / 128) then some (l.key / 128) else none
    | .miss _ _ _ _ | .fault _ _ _ _ _ | .check _ _ => none
  else ((partLoc s p acc va).filter fun l => lineAbsent s (l.key / 128)).map fun l => l.key / 128

/-- The place of one byte; none when it meets an error as well. -/
def partPlace (s : State) (p : BitVec 4) (acc : Access) (va : Nat) : Option Loc :=
  (partLoc s p acc va).bind fun l => if (acc != .write && errorAt s l.key l.kid 1) || brokenAt s l.key then none else some l

/-- The places of `n` bytes; none when any byte has none. -/
def partPlaces (s : State) (p : BitVec 4) (acc : Access) (va n : Nat) : Option (List Loc) :=
  (List.range n).mapM fun i => partPlace s p acc (va + i)

/-- A byte of a write at some places in a line or a bale that holds an error and is not written whole. -/
def placesError (s : State) (ls : List Loc) : Bool := !quiet s && ls.any fun l => writeError s l true fun a => ls.any fun m => m.key == a

/-- Bytes written at some places, through the memories. -/
def placesWrite (s : State) (ls : List Loc) (bytes : List Byte) : State := (ls.zip bytes).foldl (fun s x => memoryWrite s x.1 [x.2]) s

/-- A read in the partition's space. -/
def partRead (s : State) (p : BitVec 4) (va n : Nat) : Option (List Byte) :=
  (partPlaces s p .read va n).map fun ls => ls.map fun l => readByte s l.key l.kid

/-- A write in the partition's space: no byte is written unless every byte can be. -/
def partWrite (s : State) (p : BitVec 4) (va : Nat) (bytes : List Byte) : Option State :=
  (partPlaces s p .write va bytes.length).bind fun ls => if placesError s ls then none else some (placesWrite s ls bytes)

/-- The line held by an engine for which an access of n bytes in the partition's space waits (11_atomics_and_ordering.md R242). -/
def partHeld (s : State) (p : BitVec 4) (acc : Access) (va n : Nat) : Option Nat :=
  if s.absent.isEmpty then none
  else (List.range n).findSome? fun i => byteHeld s p acc (va + i)

/-- An access of n bytes in the partition's space has failed: the errors in the lines that it touched have been met (09 R200). -/
def partMet (s : State) (p : BitVec 4) (acc : Access) (va n : Nat) : State :=
  if quiet s then s
  else
    ((((List.range n).filterMap fun i => partLoc s p acc (va + i)).map fun l => (l.key / 128, l.kid)).eraseDups).foldl
      (fun s x => metLines s (128 * x.1) x.2 128) s

end Sys2Proof.Machine
end

