-- ==== Sys2Proof/Machine/Flags.lean ====
section
/-! DEFINITION. Conditions, and the status bits that a vector instruction brings with its FP trap (04_scalar_and_flow.md R78; 06_numbers_and_float.md R132–R135). -/
namespace Sys2Proof.Machine
open Sys2Proof

/-- `cond(c, x, y)` of R78 at any width. -/
def condHolds {n : Nat} (c : Cond) (x y : BitVec n) : Bool :=
  match c with
  | .eq => x == y
  | .ne => x != y
  | .lt => x.slt y
  | .le => x.sle y
  | .ltu => x.ult y
  | .leu => x.ule y

/-- The conditions of `VFCMP`, and the NV they set with a NaN operand (R144). -/
def fcondHolds (c : FCond) (x y : Exact) : Bool × Bool :=
  let un := x.isNaN || y.isNaN
  match c with
  | .eq => (x.eq y, false)
  | .ne => (!x.eq y, false)
  | .lt => (x.lt y, un)
  | .le => (!un && !y.lt x, un)
  | .un => (un, false)
  | .or => (!un, false)

/-- The classes of R145, one bit each. -/
def fclass (f : FloatFmt) (x : Exact) : LaneWord :=
  match x with
  | .nan => 0x100#32
  | .inf true => 0x001#32
  | .inf false => 0x080#32
  | .fin neg m e =>
    if m == 0 then (if neg then 0x008#32 else 0x010#32)
    else if e + (Nat.log2 m : Nat) < f.emin then (if neg then 0x004#32 else 0x020#32)
    else (if neg then 0x002#32 else 0x040#32)

/-- The exceptions of an element that FPCTL enables (R133, R134): IS never traps. -/
def enabledTrap (fpctl : BitVec 6) (f : FpFlags) : Bool := f.bits.setWidth 6 &&& fpctl != 0#6

/-- TRAPINFO of the FP trap (R135, Table 7). -/
def fpInfo (f : FpFlags) (elem : Nat) (reason : BitVec 8) : Word :=
  BitVec.ofNat 64 ((f.bits.toNat % 64) * 2 ^ 24) ||| infoElem elem reason

def fpReport (f : FpFlags) (elem : Nat) (reason : BitVec 8) : Report :=
  { cause := .fp, info := fpInfo f elem reason }

end Sys2Proof.Machine
end

