-- ==== Sys2Proof/Machine/Operands.lean ====
section
/-! DEFINITION. Operand forms: lane words in lane mode, elements packed in register groups, masks and the strip, and the general form of a vector instruction (02_words_and_registers.md R48; 06_numbers_and_float.md R134–R138). -/
namespace Sys2Proof.Machine
open Sys2Proof

/-! ## Flag-capable results (R34–R37) -/

/-- A report whose walks have been kept and whose error nothing meets any more. -/
def Report.settled (r : Report) : Report := { r with met := none, walk := none }

/-- A recorded fault has met its error (09 R200). -/
def State.meeting (s : State) (x : Option (Report × Nat)) : State :=
  match x with
  | none => s
  | some (r, _) => s.met r

/-- A result of a flag-capable instruction: nothing yet visible when a flag is named, visible at once otherwise (R34, R35). -/
def State.bear (s : State) (fs : FSel) (o : Outstanding) : State :=
  match fs with
  | .none =>
    s.onWarp fun w =>
      let w := w.writeLanes o.vWrites
      let w := match o.sWrite with
        | some (r, v) => w.writeS r v
        | none => w
      w.raise o.status
  | .a | .b =>
    (s.meeting o.fault).onWarp fun w =>
      { w with
        pending := w.pending ++ [{ o with seq := w.seq, pc := addrWord w.at.pc, home := w.at.hdr, flag := flagOf w.at fs,
                                          fault := o.fault.map fun x => (x.1.settled, x.2) }]
        seq := w.seq + 1 }

/-- A pending uniform result; `s0` holds no pending destination (R43). -/
def sResult (d : BitVec 6) (v : Word) : Outstanding :=
  { seq := 0, pc := 0#64, flag := none, dests := if d = 0#6 then 0 else 1,
    sWrite := if d = 0#6 then none else some (d, v) }

/-! ## Lane mode (R84, R104) -/

/-- A lane's own word of a register. -/
def laneOf (s : State) (r : BitVec 6) (lane : Nat) : LaneWord := s.warp.readLane (r.toNat * s.w + lane)

/-- A write of a lane's own word. -/
def laneWrite (s : State) (r : BitVec 6) (lane : Nat) (v : LaneWord) : LaneWrite :=
  { lane := r.toNat * s.w + lane, mask := BitVec.allOnes 32, value := v }

/-- A word in lane mode: its register fields below R (condition 14), then each lane of the group computes its own word. -/
def laneWord (s : State) (regs : List (BitVec 6)) (d : BitVec 6) (f : Nat → LaneWord) : Result :=
  guarded (regs.map fun r => (regOk s r, .register)) s fun s =>
    (s.onWarp fun w => w.writeLanes (w.group.map fun l => laneWrite s d l (f l))).advance

/-- A scalar word with one destination: on the uniform registers, or on each lane's words (R74, R84). -/
def scalarWord (s : State) (regs : List (BitVec 6)) (d : BitVec 6) (f : Word) (g : Nat → LaneWord) : Result :=
  if s.warp.inLanes then laneWord s regs d g
  else .next ((s.onWarp fun w => w.writeS d f).advance)

/-! ## Elements in register groups (R48) -/

/-- The low `e` bits. -/
def lowMask (e : Nat) : LaneWord := BitVec.ofNat 32 (2 ^ e - 1)

/-- Element k of width e of the group at register `base`. -/
def readElem (s : State) (base : BitVec 6) (e k : Nat) : LaneWord :=
  (s.warp.readLane (base.toNat * s.w + k * e / 32) >>> (k * e % 32)) &&& lowMask e

/-- The write of element k of width e of the group at register `base`. -/
def elemWrite (s : State) (base : BitVec 6) (e k : Nat) (v : LaneWord) : LaneWrite :=
  { lane := base.toNat * s.w + k * e / 32, mask := lowMask e <<< (k * e % 32), value := (v &&& lowMask e) <<< (k * e % 32) }

/-- Every write of an SC12 element sets bits [15:12] to zero (06_numbers_and_float.md R126). -/
def container (et : ET) (x : LaneWord) : LaneWord := if et == .sc12 then x &&& 0xFFF#32 else x

/-! ## The strip (07_lengths_and_integer.md R152–R154; R136) -/

/-- ET, block code and group code of the strip descriptor. -/
def stripEt (w : Warp) : ET := ET.ofCode (w.desc.extractLsb' 0 4)
def stripBlock (w : Warp) : Nat := (w.desc.extractLsb' 4 3).toNat
def stripGroup (w : Warp) : Nat := 2 ^ (w.desc.extractLsb' 7 2).toNat

/-- B of a block code: 0 for none, else 2^(code + 2) (R154, R284). -/
def blockLen (code : Nat) : Nat := if code = 0 then 0 else 2 ^ (code + 2)

/-- ceil(a / b). -/
def ceilDiv (a b : Nat) : Nat := (a + b - 1) / b

/-- A scaled matrix operand: FP8 or E2M1 under a nonzero block code (13_matrix_grants_and_engine.md R284). -/
def scaledType (et : ET) (blk : BitVec 3) : Bool := blk != 0#3 && et.isNarrowF

/-- G(e) = max(1, G_s · e / e_s) (R136). -/
def groupSize (w : Warp) (e : Nat) : Nat := max 1 (stripGroup w * e / (stripEt w).width)

/-- A group operand of width e (R42, R136). -/
def vecOk (s : State) (r : BitVec 6) (e : Nat) : Bool × IllegalReason := (groupOk s r (groupSize s.warp e), .register)

/-- mask(k): the register that MK names (R137). -/
def maskBit (w : Warp) (mk : BitVec 3) (k : Nat) : Bool := (w.readM mk).getLsbD k

/-- The elements that an instruction acts on: vstart to VL − 1. -/
def activeElems (w : Warp) : List Nat := (List.range w.vl).drop w.vstart

/-- A pad element: one of the last vpad below VL (R137). -/
def isPad (w : Warp) (k : Nat) : Bool := w.vl - w.vpad ≤ k

/-! ## The general vector instruction (R134, R137) -/

/-- `vstart` := 0, as an instruction that acts on elements completes. -/
def State.fromStart (s : State) : State := s.onWarp fun w => { w with vstart := 0 }

/-- What an element gives. -/
structure Elem where
  bits : LaneWord
  flags : FpFlags := {}
  deriving DecidableEq, Repr

/-- The first enabled element whose exceptions FPCTL enables, with them; pad elements raise no trap (R134, R137). -/
def trapElem (w : Warp) (mk : BitVec 3) (f : Nat → Elem) : Option (Nat × FpFlags) :=
  ((activeElems w).find? fun k => maskBit w mk k && !isPad w k && enabledTrap w.fpctl (f k).flags).map
    fun k => (k, (f k).flags)

/-- The writes of elements below `stop`: the result where the mask enables it, zero where MZ does (R137). -/
def elemWrites (s : State) (d : BitVec 6) (e : Nat) (mk : BitVec 3) (mz : Bool) (stop : Nat) (f : Nat → Elem) : List LaneWrite :=
  (activeElems s.warp).filterMap fun k =>
    if stop ≤ k then none
    else if maskBit s.warp mk k then some (elemWrite s d e k (f k).bits)
    else if mz then some (elemWrite s d e k 0#32)
    else none

/-- The status bits of the enabled elements below `stop`, pad aside. -/
def elemStatus (w : Warp) (mk : BitVec 3) (stop : Nat) (f : Nat → Elem) : BitVec 7 :=
  (activeElems w).foldl (fun acc k =>
    if k < stop && maskBit w mk k && !isPad w k then acc ||| (f k).flags.bits else acc) 0#7

/-- A vector instruction that writes elements of width e into the group at d: the checks, the toll, the elements, and the FP trap at the lowest element that raises an enabled exception. -/
def vectorWord (s : State) (checks : List (Bool × IllegalReason)) (toll : Nat) (fs : FSel) (d : BitVec 6) (e : Nat)
    (mk : BitVec 3) (mz : Bool) (f : State → Nat → Elem) : Result :=
  guarded ([vecOk s d e] ++ checks ++ [vectorOnly s, pendingOk s fs (groupSize s.warp e)]) s fun s =>
    tolled s (s.warp.vl * toll) fun s =>
      let g := f s
      match trapElem s.warp mk g with
      | none =>
        let o : Outstanding := { seq := 0, pc := 0#64, flag := none, dests := groupSize s.warp e,
                                 vWrites := elemWrites s d e mk mz s.warp.vl g, status := elemStatus s.warp mk s.warp.vl g }
        (s.bear fs o).fromStart.advance
      | some (k, x) =>
        match fs with
        | .none =>
          trapHere (s.onWarp fun w => (w.writeLanes (elemWrites s d e mk mz k g)).raise (elemStatus w mk k g)) (fpReport x k 0x20#8) k
        | .a | .b =>
          let o : Outstanding := { seq := 0, pc := 0#64, flag := none, dests := groupSize s.warp e,
                                   fault := some (fpReport x k 0x20#8, 0) }
          (s.bear fs o).fromStart.advance

/-- A vector instruction of the uniform kinds: interlocked, without exceptions. -/
def plainVector (s : State) (checks : List (Bool × IllegalReason)) (d : BitVec 6) (e : Nat) (mk : BitVec 3) (mz : Bool)
    (f : State → Nat → LaneWord) : Result :=
  vectorWord s checks 1 .none d e mk mz fun s k => { bits := f s k }

/-- The bits of a mask register written: for each element from vstart to VL − 1, the result, zero or nothing (R143, R165). -/
def maskResult (w : Warp) (old : BitVec 1024) (mk : BitVec 3) (mz : Bool) (f : Nat → Bool) : BitVec 1024 :=
  (activeElems w).foldl (fun acc k =>
    let bit : BitVec 1024 := 1#1024 <<< k
    if maskBit w mk k then (if f k then acc ||| bit else acc &&& ~~~bit)
    else if mz then acc &&& ~~~bit
    else acc) old

end Sys2Proof.Machine
end

