-- ==== Sys2Proof/Machine/Faults.lean ====
section
/-! DEFINITION. Misses, page records, manifests and page requests: how they are formed, written and held (10_translation_and_faults.md R220–R231; 12_copies.md R276; 18_host_link_and_management.md R438). -/
namespace Sys2Proof.Machine
open Sys2Proof

/-- A miss met at an element (R220): the element, its exact address, its access, and where the walk stopped. -/
structure Miss where
  elem : Nat
  va : Int
  acc : Access
  stage : Nat
  level : Nat
  addr : Nat
  table : Bool
  deriving DecidableEq, Repr

/-- The 64 KiB page of a 54-bit address. -/
def pageOf (a : Int) : Nat := va54 a / 65536

/-- ADDR of a record: the VA page as the register file holds it, or the GPA page (R226). -/
def Miss.recordAddr (m : Miss) : Nat :=
  if m.stage = 1 then (addrWord m.va).toNat / 65536 * 65536 else m.addr

/-- ACCESS over every element that missed on a page (R226). -/
def joinAccess (a b : Nat) : Nat := if a = b then a else 2

/-- One record per distinct page, by the lowest element (R223); the accesses are joined. -/
def recordsOf (ms : List Miss) : List PageRecord :=
  let pages := (ms.map fun m => pageOf m.va).eraseDups
  pages.filterMap fun p =>
    match ms.find? fun m => pageOf m.va == p with
    | none => none
    | some m =>
      some { addr := m.recordAddr, page := p, stage := m.stage, level := m.level, table := m.table, elem := m.elem,
             access := ((ms.filter fun x => pageOf x.va == p).map fun x => x.acc.code).foldl joinAccess m.acc.code }

/-- The page record's 16 bytes (R226, Table 8); of an element number above 2,047, which a copy may have, ELEM holds the low 11 bits (log 79, DESIGN CHOICE). -/
def PageRecord.bytes (r : PageRecord) : List Byte :=
  leBytes 8 r.addr ++
    leBytes 8 (r.tag.toNat * 2 ^ 32 + r.elem % 2048 * 65536 + 0x50 * 256 + r.access * 32 + (if r.table then 16 else 0) +
      r.level * 4 + r.stage)

/-- What identifies a requester in an entry's header (R225, Table 7). -/
structure HeaderInfo where
  cls : CoreClass := .m
  engine : Bool := false
  pc : Word := 0#64
  lin : Nat
  slot : Nat := 0
  core : Nat
  ch : Nat := 0
  tid : Nat := 0
  deriving DecidableEq, Repr

/-- The header's words that are known when the manifest is formed: the CLASS and ENGINE bits, then the words at 0x08, 0x10 and 0x18. -/
def HeaderInfo.words (h : HeaderInfo) : List Word :=
  [ BitVec.ofNat 64 ((match h.cls with
      | .m => 0
      | .e => 2 ^ 19) + if h.engine then 2 ^ 18 else 0),
    h.pc,
    BitVec.ofNat 64 (h.lin % 2 ^ 32 * 2 ^ 32 + h.slot % 64 * 65536 + h.core % 65536),
    BitVec.ofNat 64 (h.ch % 16 * 2 ^ 48 + h.tid % 2 ^ 48) ]

/-- S1RESP: a stage-1 record stands in the manifest. -/
def Manifest.s1resp (m : Manifest) : Bool := m.records.any fun r => r.stage = 1

/-- The 256 bytes of an entry (R225; R276 for TYPE 2). -/
def Manifest.bytes (m : Manifest) : List Byte :=
  let bits := (m.header.getD 0 0#64).toNat
  let tail := (m.header.drop 1).flatMap fun w => leBytes 8 w.toNat
  match m.type2 with
  | none =>
    let w0 := m.mid.toNat * 2 ^ 32 + bits + (if m.s1resp then 2 ^ 17 else 0) + (if m.more then 2 ^ 16 else 0) +
      m.records.length * 256 + 1
    let body := leBytes 8 w0 ++ tail ++ m.records.flatMap PageRecord.bytes
    body ++ List.replicate (256 - body.length) 0#8
  | some (_, e) =>
    let body := leBytes 8 (bits + 2) ++ tail ++ leBytes 8 e.va.toNat ++ leBytes 8 (e.reason.toNat * 2 ^ 24 + e.elem % 2 ^ 24)
    body ++ List.replicate (256 - body.length) 0#8

/-- Free entries of the fault queue and of the page-request queue (R224). -/
def fqRoom (p : Partition) : Nat := if p.fq.en then p.fq.room 12 else 0
def prqRoom (p : Partition) : Nat := if p.prq.en then p.prq.room 12 else 0

/-- The GPA pages that a manifest must request anew (R227). -/
def newRequests (p : Partition) (m : Manifest) : List (Nat × Nat) :=
  let s2 := m.records.filter fun r => r.stage = 2
  ((s2.map fun r => r.addr).eraseDups.filter fun a => !p.requests.any fun q => q.2 == a).map fun a =>
    (a, ((s2.find? fun r => r.addr == a).map (·.access)).getD 0)

/-- The queues have room for a manifest (R228). -/
def hasRoom (p : Partition) (m : Manifest) : Bool := 1 ≤ fqRoom p && (newRequests p m).length ≤ prqRoom p

/-- The places that a manifest's entries take in the queues wait for an engine (11_atomics_and_ordering.md R242). -/
def ringsHeld (s : State) (part : BitVec 4) (m : Manifest) : Bool :=
  let p := partOf s part
  (partHeld s part .write (p.fq.place 256) 256).isSome ||
    (List.range (newRequests p m).length).any fun i => heldLine s ({ p.prq with tail := p.prq.tail + BitVec.ofNat 32 i }.place 32) 32

/-- A manifest may be written now. -/
def canWrite (s : State) (part : BitVec 4) (m : Manifest) : Bool := hasRoom (partOf s part) m && !ringsHeld s part m

/-- The page-request entries, one after another, with PRQTAIL (R227, R228); a failed write stops the queue (R438). The first PRTAG of a partition is 0, as its first MID is (log 77, DESIGN CHOICE). -/
def writeRequests (part : BitVec 4) (mid : BitVec 32) : List (Nat × Nat) → State → Option State × State
  | [], s => (some s, s)
  | (gpa, acc) :: rest, s =>
    let p := partOf s part
    let entry := leBytes 8 gpa ++ leBytes 8 (acc * 2 ^ 32 + p.nextTag.toNat) ++ leBytes 8 mid.toNat ++ leBytes 8 0
    match physWrite s (p.prq.place 32) entry with
    | none =>
      let s := onPart (metLines s (p.prq.place 32) 0 32) part fun p => { p with prq := { p.prq with stopped := true } }
      (none, recordError s part { kind := 9#8, addr := BitVec.ofNat 64 (p.prq.place 32), value := 2#32 })
    | some s =>
      let s := onPart s part fun p =>
        { p with requests := p.requests ++ [(p.nextTag, gpa)], nextTag := p.nextTag + 1#32,
                 prq := { p.prq with tail := p.prq.tail + 1#32 } }
      writeRequests part mid rest (interrupt s part 2)

/-- The records with the tags of their outstanding requests. -/
def tagRecords (p : Partition) (m : Manifest) : Manifest :=
  { m with
    records := m.records.map fun r =>
      if r.stage = 2 then { r with tag := ((p.requests.find? fun q => q.2 == r.addr).map (·.1)).getD 0#32 } else r }

/-- A manifest gets its MID (R225). -/
def numberManifest (s : State) (part : BitVec 4) (m : Manifest) : State × Manifest :=
  if m.numbered || m.type2.isSome then (s, m)
  else
    let p := partOf s part
    (onPart s part fun p => { p with nextMid := p.nextMid + 1#32 }, { m with mid := p.nextMid, numbered := true })

/-- The entry at FQTAIL, then FQTAIL and its interrupt; a failed write stops the queue (R228, R438). -/
def writeEntry (s : State) (part : BitVec 4) (m : Manifest) : State × Manifest :=
  let p := partOf s part
  match partWrite s part (p.fq.place 256) m.bytes with
  | none =>
    let s := onPart (partMet s part .write (p.fq.place 256) 256) part fun p => { p with fq := { p.fq with stopped := true } }
    (recordError s part { kind := 9#8, addr := BitVec.ofNat 64 (p.fq.place 256), value := 1#32 }, m)
  | some s =>
    (interrupt (onPart s part fun p => { p with fq := { p.fq with tail := p.fq.tail + 1#32 } }) part 1,
      { m with written := true, waitS1 := m.s1resp && m.type2.isNone,
               waitTags := ((m.records.filter fun r => r.stage = 2).map (·.tag)).eraseDups })

/-- The steps of R228, in order. -/
def tryWrite (s : State) (part : BitVec 4) (m : Manifest) : State × Manifest :=
  let (s, m) := numberManifest s part m
  match writeRequests part m.mid (newRequests (partOf s part) m) s with
  | (none, s) => (s, m)
  | (some s, _) => writeEntry s part (tagRecords (partOf s part) m)

/-- A written TYPE 2 entry is forgotten; every other manifest is kept until its requester goes on. -/
def keepManifest (s : State) (part : BitVec 4) (m : Manifest) : State :=
  if m.written && m.type2.isSome then s
  else onPart s part fun p => { p with manifests := p.manifests ++ [m] }

/-- The overflow bits and interrupts of a manifest that is held (R231). -/
def noteHeld (s : State) (part : BitVec 4) (m : Manifest) : State :=
  let p := partOf s part
  let s := if fqRoom p = 0 then interrupt (onPart s part fun p => { p with fq := { p.fq with ovf := true } }) part 3 else s
  if prqRoom p < (newRequests p m).length then
    interrupt (onPart s part fun p => { p with prq := { p.prq with ovf := true } }) part 4
  else s

/-- A new manifest: written when both queues have room, held otherwise (R228, R231). -/
def postManifest (s : State) (part : BitVec 4) (m : Manifest) : State :=
  if canWrite s part m then
    let (s, m) := tryWrite s part m
    keepManifest (if m.written then s else noteHeld s part m) part m
  else keepManifest (noteHeld s part m) part m

/-- Held manifests are written oldest first while there is room (R231). -/
def drainManifests : Nat → State → BitVec 4 → State
  | 0, s, _ => s
  | fuel + 1, s, part =>
    match (partOf s part).manifests.find? fun m => !m.written with
    | none => s
    | some m =>
      if canWrite s part m then
        let (s, m') := tryWrite s part m
        let s := onPart s part fun p =>
          { p with manifests := if m'.written && m'.type2.isSome then p.manifests.erase m
                                else p.manifests.map fun x => if x == m then m' else x }
        if m'.written then drainManifests fuel s part else s
      else s

/-- The manifest of a requester: up to 14 records, MORE when there are more (R223). -/
def manifestOf (who : Requester) (h : HeaderInfo) (ms : List Miss) : Manifest :=
  let rs := recordsOf ms
  { who := who, header := h.words, records := rs.take 14, more := 14 < rs.length }

/-- The header of the focused warp's manifest (R225). -/
def warpHeader (s : State) (pc : Int) : HeaderInfo :=
  { cls := s.warp.core.cls, pc := addrWord pc, lin := s.team.lin, slot := s.warp.slot, core := s.warp.core.num }

/-- The addresses of some misses, as their walks take them. -/
def missAddrs (ms : List Miss) : List Nat := ms.map fun m => va54 m.va

/-- The focused warp writes a manifest, releases its pins, and parks (R219, R223); the caches may keep the valid entries that the walks of its misses read (R217). -/
def parkOnMisses (s : State) (pc : Int) (ms : List Miss) : State :=
  (postManifest (keepPages s s.team.part (missAddrs ms)) s.team.part (manifestOf (.warp s.me) (warpHeader s pc) ms)).onWarp fun w =>
    { w with park := .manifest, service := { w.service with pins := [] } }

/-- A manifest is complete (R229). -/
def Manifest.complete (m : Manifest) : Bool := m.written && !m.waitS1 && m.waitTags.isEmpty && m.type2.isNone

/-- A requester still waits for a manifest. -/
def awaiting (s : State) (part : BitVec 4) (who : Requester) : Bool := (partOf s part).manifests.any fun m => m.who == who

/-- Manifests of a requester that is gone or saved: a held one is discarded, a written one only frees its records when it is answered (R229, R231). -/
def dropManifests (s : State) (part : BitVec 4) (who : Requester) : State :=
  onPart s part fun p =>
    { p with manifests := (p.manifests.filter fun m => m.who != who || m.written).map fun m =>
        if m.who == who then { m with who := .gone } else m }

/-- A failed service of a page: its miss is the fatal translation fault 0x50 (R230). -/
def failedFault (failed : List (Nat × Nat × Nat × Nat)) (va : Int) : Option (Nat × Nat × Nat) :=
  (failed.find? fun f => f.1 == pageOf va).map (·.2)

end Sys2Proof.Machine
end

