-- ==== Sys2Proof/Machine/Upkeep.lean ====
section
/-! DEFINITION. What the memory controllers and cluster caches do on their own: requests to bales, write-backs, the patrol scrub, and errors without a requester (09_loads_stores_streams.md R200; 16_bales.md R357–R366; 17_cryogenic_and_power.md R374; 18_host_link_and_management.md R386). -/
namespace Sys2Proof.Machine
open Sys2Proof

/-! ## Errors without a requester (R200, R374, R386) -/

/-- An entry of the error record with the machine-check interrupt, written where its ring has room. -/
def reportLoss (s : State) (kind : BitVec 8) (pa : Nat) : State := drainAll (noteLoss s kind pa)

/-- The granules of a span of addresses are errors no more: they carry fresh check bits. -/
def freshCheck (s : State) (pa n : Nat) : State :=
  { s with bad := s.bad.filter fun g => !(pa / 8 ≤ g && g < (pa + n) / 8) }

/-- The scrub of one granule of a row: an uncorrectable error is reported, and the bits as read get fresh check bits. -/
def scrubGranule (s : State) (g : Nat) : State :=
  if s.bad.contains g then reportLoss (freshCheck s (8 * g) 8) 5#8 (8 * g) else s

/-- The scrub of the map entry of a bale: one found uncorrectable is reported, and gets fresh check bits. -/
def scrubEntry (s : State) (n : Nat) : State :=
  if s.badMap.contains n then reportLoss { s with badMap := s.badMap.filter (· != n) } 5#8 (2048 * n) else s

/-- `PATROL_SCRUB`: in band 0, the row of 2,048 bytes of local DRAM at 2,048 · row, with the map entry of its bale (log 20, DESIGN CHOICE). -/
def execPatrolScrub (row : Nat) (s : State) : Result :=
  .next (if s.mgmt.band = 0 && regionOf s (2048 * row) == .dram then
      scrubEntry (((List.range 256).map (256 * row + ·)).foldl scrubGranule s) row
    else s)

/-! ## Write-backs (R200; 16_bales.md R364, R366) -/

/-- A dirty line is written back, and what is lost with it is reported. -/
def writeBack (s : State) (pa : Nat) : State := if (dirtyAt s pa).isSome then drainAll (evict s pa) else s

/-- A dirty line whose cached copy holds an uncorrectable error. -/
def badDirty (s : State) (pa : Nat) : Bool := (dirtyAt s pa).any fun d => !d.bad.isEmpty

/-- `UNCORRECTABLE_EVICTION`: a dirty line, by its number, that is found uncorrectable is evicted. -/
def execUncorrectableEviction (line : Nat) (s : State) : Result :=
  .next (if badDirty s (line * 128) then writeBack s (line * 128) else s)

/-! ## Requests to a bale's controller (R358–R366) -/

/-- A bale of backed DRAM. -/
def baleThere (s : State) (n : Nat) : Bool := regionOf s (2048 * n) == .dram && regionOf s (2048 * n + 2047) == .dram

/-- The cached copies of n bytes at an address are recalled; a dirty copy is merged first (R364). -/
def recallSpan (s : State) (pa n : Nat) : State := (linesOf pa n).foldl (fun s x => writeBack s (128 * x)) s

/-- A request to a bale that meets an error: its requester has it, and no later reader meets it (R200, R359). -/
def baleFails (s : State) (bale kid : Nat) : State :=
  let s := if baleThere s bale then metErrors s { start := 2048 * bale, kid := kid, len := 2048 } else s
  { s with outbox := s.outbox ++ [.response none] }

/-- `BALE_WHOLE_WRITE`: one request writes all 2,048 bytes; an unusable map entry, or an address that is not backed, is an error to its requester (R359). -/
def execBaleWholeWrite (bale : Nat) (data : List (BitVec 8)) (baled : Bool) (key : BitVec 9) (s : State) : Result :=
  .next (if data.length != 2048 then s
    else if baleThere s bale && !mapBad s bale then wholeWrite s bale key.toNat baled data
    else baleFails s bale key.toNat)

/-- A partial write-back: merged with the plain bytes, or, when the stored form is uncorrectable, with zeros and a report (R366). -/
def mergeBale (s : State) (n off : Nat) (data : List Byte) (baled : Bool) (key : Nat) : State :=
  let s := recallSpan s (2048 * n + off) data.length
  if merges s n baled && storedError s n key then drainAll (loseBale s n off key data) else mergeStored s n off key baled data

/-- `BALE_MERGE`: a partial write-back to a bale, one indivisible step (R364, R365). -/
def execBaleMerge (pa : Nat) (data : List (BitVec 8)) (baled : Bool) (key : BitVec 9) (s : State) : Result :=
  .next (if data.length ≤ 2048 - pa % 2048 && baleThere s (pa / 2048) then
      mergeBale s (pa / 2048) (pa % 2048) data baled key.toNat
    else s)

/-- `BALE_READ`: a bale read at the controller gives its plain bytes in every form; a stored form that cannot be read, or an address that is not backed, gives an error to its requester, which no later reader meets (R200, R358, R359, R363). -/
def execBaleRead (bale : Nat) (key : BitVec 9) (s : State) : Result :=
  .next (if baleThere s bale && !mapBad s bale && !errorAt s (2048 * bale) key.toNat 2048 then
      { s with outbox := s.outbox ++ [.response (some (readBytes s (2048 * bale) key.toNat 2048))] }
    else baleFails s bale key.toNat)

end Sys2Proof.Machine
end

