-- ==== Sys2Proof/Machine/Access.lean ====
section
/-! DEFINITION. Accesses element by element: the checks of R192, misses, presence, uncorrectable errors, and the reads and writes of elements (09_loads_stores_streams.md R185–R200; 10_translation_and_faults.md R215, R220, R223). -/
namespace Sys2Proof.Machine
open Sys2Proof

/-- An element of an access: its number, its exact byte address, the bit it starts at in that byte (R188). -/
structure Elt where
  k : Nat
  va : Int
  bit : Nat := 0
  deriving DecidableEq, Repr

/-- What an access is made with: its kind, the element's width, the requester's privilege, whether an out-of-range element after the first trims, the pages whose service failed, the translations pinned. -/
structure Ask where
  part : BitVec 4
  acc : Access
  e : Nat
  priv : Bool
  trims : Bool := true
  failed : List (Nat × Nat × Nat × Nat) := []
  /-- An atomic: none performs on a page of the device memory type (11_atomics_and_ordering.md R251). -/
  atomic : Bool := false
  /-- The first element asked is the first live one (R192). -/
  fresh : Bool := true
  /-- What the stream engine holds against elements (R203, R204). -/
  held : List (Nat × Held) := []
  pins : List CachedPage := []
  /-- Each element is an access of its own: the lanes of a group (R196), the elements of a vector atomic (11 R249). -/
  each : Bool := false
  deriving DecidableEq, Repr

/-- The bytes of an element of width e. -/
def eltBytes (e : Nat) : Nat := (e + 7) / 8

/-- What the checks of one element give. -/
inductive Check where
  | ok (l : Loc)
  | miss (m : Miss)
  | trim
  | fault (r : Report)
  /-- Its walk waits for a line that an engine holds. -/
  | held (line : Nat)
  deriving DecidableEq, Repr

/-- A miss of an element. -/
def Elt.miss (x : Elt) (acc : Access) (stage level addr : Nat) (table : Bool) : Check :=
  .miss { elem := x.k, va := x.va, acc := acc, stage := stage, level := level, addr := addr, table := table }

/-- Where a translated element performs: an atomic not on a device page, and on a baled page at the memory controller (11 R251). -/
def placed (q : Ask) (x : Elt) (l : Loc) : Check :=
  if q.atomic && l.mt = 2 then .fault { accessReport 0x33#8 x.k x.va with walk := some (va54 x.va) }
  else .ok (if q.atomic && l.bale then { l with mt := max 1 l.mt } else l)

/-- The check of an element outside the window (R436); a page whose service failed is the fault 0x50 (R230). -/
def checkMapped (s : State) (q : Ask) (x : Elt) : Check :=
  match failedFault q.failed x.va with
  | some (st, lv, gpa) => .fault (xlatReport .translation 0x50#8 st lv gpa x.k x.va)
  | none =>
    match translate s q.part q.acc q.priv (va54 x.va) q.pins with
    | .ok l => placed q x l
    | .miss stage level addr table => x.miss q.acc stage level addr table
    | .fault cause reason stage level gpa => .fault (xlatReport cause reason stage level gpa x.k x.va)
    | .check pa kid => .fault (checkReport s { start := pa, kid := kid, len := 8 } pa x.k x.va)
    | .held line => .held line

/-- The check of an element in the window (R182, R183, R192). -/
def checkWindow (s : State) (q : Ask) (first : Bool) (x : Elt) : Check :=
  let a := va54 x.va
  if !backed s (a - Config.windowBase) then
    (if first || !q.trims then .fault (accessReport 0x31#8 x.k x.va) else .trim)
  else if !ownedBy s q.part (a - Config.windowBase) then .fault (accessReport 0x32#8 x.k x.va)
  else .ok { key := a }

/-- The checks of R192, in order. -/
def checkFresh (s : State) (q : Ask) (first : Bool) (x : Elt) : Check :=
  match canonicalFault x.va with
  | some r => .fault (canonReport r x.k x.va)
  | none =>
    if 8 < q.e && x.va % (q.e / 8 : Nat) != 0 then .fault (accessReport 0x30#8 x.k x.va)
    else if inWindow (va54 x.va) then checkWindow s q first x
    else checkMapped s q x

/-- What is held against an element, at the instruction that consumes it: its ELEM is the element of the instruction. -/
def heldCheck (q : Ask) (x : Elt) : Held → Check
  | .fault r => .fault { r with info := r.info ||| BitVec.ofNat 64 (x.k % 2048 * 256) }
  | .miss stage level addr table => x.miss q.acc stage level addr table

/-- The check of an element: what is held against it, unless the service of its page has failed, or the checks of R192. -/
def checkElt (s : State) (q : Ask) (first : Bool) (x : Elt) : Check :=
  match q.held.find? fun h => h.1 == x.k && (failedFault q.failed x.va).isNone with
  | some h => heldCheck q x h.2
  | none => checkFresh s q first x

/-- Where an access ends before its last element: a trim, a fault of the address phase, or an uncorrectable error met as an element performs. -/
inductive Stop where
  | trim (k : Nat)
  | fault (k : Nat) (r : Report)
  | error (k : Nat) (r : Report)
  deriving DecidableEq, Repr

def Stop.at : Stop → Nat
  | .trim k => k
  | .fault k _ => k
  | .error k _ => k

/-- What the checks of an access give: the elements with their places, the misses and the first line for which a walk waits, below the first trim or fatal fault. -/
structure Probe where
  oks : List (Elt × Loc) := []
  misses : List Miss := []
  held : Option Nat := none
  stop : Option Stop := none
  deriving DecidableEq, Repr

/-- The elements checked in ascending order (R192, R198). -/
def probe (s : State) (q : Ask) : Bool → List Elt → Probe
  | _, [] => {}
  | first, x :: rest =>
    match checkElt s q first x with
    | .ok l => let p := probe s q false rest; { p with oks := (x, l) :: p.oks }
    | .miss m => let p := probe s q false rest; { p with misses := m :: p.misses }
    | .held line => let p := probe s q false rest; { p with held := some line }
    | .trim => { stop := some (.trim x.k) }
    | .fault r => { stop := some (.fault x.k r) }

/-! ## Uncorrectable errors and presence (R185, R199) -/

/-- The elements store a byte, in all its bits. -/
def coversByte (e : Nat) (xs : List (Elt × Loc)) (a : Nat) : Bool :=
  if 8 ≤ e then xs.any fun x => x.2.key ≤ a && a < x.2.key + eltBytes e
  else (List.range 8).all fun b => xs.any fun x => x.2.key == a && x.1.bit ≤ b && b < x.1.bit + e

/-- The elements that one store covers lines with: lanes store each for itself (R196, R199). -/
def Ask.together (q : Ask) (xs : List (Elt × Loc)) (x : Elt × Loc) : List (Elt × Loc) := if q.each then [x] else xs

/-- A place whose writes are made at the memory, not in a cluster cache (R181). -/
def Loc.atMemory (l : Loc) : Bool := l.mt != 0

/-- What an element reads: its bytes, or the line or bale that its write first reads (R199; 16_bales.md R364). -/
def eltSpan (s : State) (q : Ask) (x : Elt × Loc) : Span :=
  match q.acc with
  | .write | .readWrite => mergeSpan s x.2 x.2.atMemory
  | .read | .fetch => { start := x.2.key, kid := x.2.kid, len := eltBytes q.e }

/-- An element meets an uncorrectable error in what it reads; a store reads nothing of a line that it covers. -/
def eltError (s : State) (q : Ask) (xs : List (Elt × Loc)) (x : Elt × Loc) : Bool :=
  match q.acc with
  | .write => writeError s x.2 x.2.atMemory (coversByte q.e (q.together xs x))
  | .readWrite => writeError s x.2 x.2.atMemory fun _ => false
  | .read | .fetch => errorAt s x.2.key x.2.kid (eltBytes q.e)

/-- The machine check of an element. -/
def eltReport (s : State) (q : Ask) (x : Elt × Loc) : Report := checkReport s (eltSpan s q x) x.2.key x.1.k x.1.va

/-- The element at which an access first meets an uncorrectable error; what is stored ends below it. -/
def errorStop (s : State) (q : Ask) : Nat → List (Elt × Loc) → Option Stop
  | 0, _ => none
  | fuel + 1, xs =>
    match xs.find? (eltError s q xs) with
    | none => none
    | some x => (errorStop s q fuel (xs.filter fun y => y.1.k < x.1.k)).or (some (.error x.1.k (eltReport s q x)))

/-- What an access does now. -/
inductive Plan where
  /-- It parks on a manifest; the elements that translated are named. -/
  | misses (oks : List (Elt × Loc)) (ms : List Miss)
  /-- It parks on a line, with its translations pinned. -/
  | wait (line : Nat) (oks : List (Elt × Loc))
  /-- It performs the elements, and ends early at the stop. -/
  | run (oks : List (Elt × Loc)) (stop : Option Stop)
  deriving DecidableEq, Repr

/-- The elements below a stop. -/
def belowStop (stop : Option Stop) (xs : List (Elt × Loc)) : List (Elt × Loc) :=
  match stop with
  | none => xs
  | some st => xs.filter fun x => x.1.k < st.at

/-- The first line held by an engine among those of some elements. -/
def absentOf (s : State) (e : Nat) (xs : List (Elt × Loc)) : Option Nat := xs.findSome? fun x => absentIn s x.2.key (eltBytes e)

/-- The plan of an access: the walks that wait, then the misses; then, below the first uncorrectable error of a line that is present, the lines that are not (R185, R190, R198, R220). -/
def planOf (s : State) (q : Ask) (xs : List Elt) : Plan :=
  let p := probe s q q.fresh xs
  if let some line := p.held then .wait line p.oks
  else if !p.misses.isEmpty then .misses p.oks p.misses
  else
    let here := p.oks.filter fun x => (absentIn s x.2.key (eltBytes q.e)).isNone
    let stop := (errorStop s q here.length here).or p.stop
    let oks := belowStop stop p.oks
    match absentOf s q.e oks with
    | some line => .wait line oks
    | none => .run oks stop

/-- Where the address phase alone ends an access, once nothing in it waits or misses: an instruction that is accepted as a whole takes this first (14_matrix_instructions.md R307, R323). -/
def addressStop (s : State) (q : Ask) (xs : List Elt) : Option Stop :=
  let p := probe s q q.fresh xs
  if p.held.isSome || !p.misses.isEmpty then none else p.stop

/-- The translations that an access has used, as it pins them (10 R219). -/
def pinned (s : State) (q : Ask) (xs : List (Elt × Loc)) : List CachedPage :=
  (((xs.filter fun x => x.2.key < Config.windowBase).map fun x => va54 x.1.va / 65536).eraseDups).filterMap fun p =>
    usedPage s q.part (65536 * p) q.pins

/-! ## Elements of memory -/

/-- The bits of an element. -/
def loadElt (s : State) (e : Nat) (x : Elt × Loc) : Word :=
  BitVec.ofNat 64 (readLE s x.2.key x.2.kid (eltBytes e) / 2 ^ x.1.bit % 2 ^ e)

/-- A write by the device's own agents: in a cluster cache, where the line becomes dirty, or at the memory (R181; 16_bales.md R358, R364). -/
def storeBytes (s : State) (l : Loc) (bs : List Byte) : State :=
  match regionOf s l.key with
  | .dram | .host => if l.atMemory then memoryWrite s l bs else writeBytes (markDirty s l) l.key l.kid bs
  | .peer _ | .window _ | .none => writeBytes s l.key l.kid bs

/-- The write of an element: the bits of a sub-byte element alone (R197). -/
def storeElt (s : State) (e : Nat) (x : Elt × Loc) (v : Word) : State :=
  if 8 ≤ e then storeBytes s x.2 (leBytes (eltBytes e) v.toNat)
  else
    let old := (readByte s x.2.key x.2.kid).toNat
    let m := (2 ^ e - 1) * 2 ^ x.1.bit
    let new := (old &&& (255 - m)) ||| (v.toNat % 2 ^ e * 2 ^ x.1.bit)
    storeBytes s x.2 [BitVec.ofNat 8 new]

/-- Elements stored in order. -/
def storeElts (e : Nat) (val : Nat → Word) : List (Elt × Loc) → State → State
  | [], s => s
  | x :: rest, s => storeElts e val rest (storeElt s e x (val x.1.k))

/-- A line whose memory holds its bytes as they are written: no dirty copy stands over it, and no compressed form. -/
def plainLine (s : State) (line : Nat) : Bool :=
  (dirtyAt s (128 * line)).isNone &&
  (match regionOf s (128 * line) with
  | .dram => formOf s (line / 16) = 8
  | .host | .peer _ | .window _ | .none => true)

/-- The errors of lines that have been written whole are gone, in the copy that was written (R199). -/
def healCovered (s : State) (covered : Nat → Bool) : State :=
  if quiet s then s
  else
    let whole (line : Nat) : Bool := (List.range 128).all fun i => covered (128 * line + i)
    { s with
      bad := s.bad.filter fun g => !(whole (g / 16) && plainLine s (g / 16))
      dirty := s.dirty.map fun d => if whole (d.line / 128) then { d with bad := [] } else d }

/-- The lines that a store's elements cover. -/
def healLines (s : State) (e : Nat) (xs : List (Elt × Loc)) : State := healCovered s (coversByte e xs)

/-- A write discards the run-ahead data of its lines in the focused warp's load streams (R205). -/
def dropAhead (w : Warp) (keys : List Nat) : Warp :=
  { w with st := w.st.map fun x => { x with ahead := x.ahead.filter fun a => !keys.any fun k => k / 128 == a.key / 128 } }

/-- The pages of elements that have their places: the caches may keep what the walks read (10 R217). -/
def keepOks (s : State) (part : BitVec 4) (xs : List (Elt × Loc)) : State :=
  keepPages s part ((xs.filter fun x => x.2.key < Config.windowBase).map fun x => va54 x.1.va)

/-- The end of an access: its pages may be kept by the caches, and the free choices move on. -/
def settle (s : State) (part : BitVec 4) (xs : List (Elt × Loc)) : State := (keepOks s part xs).draw

/-- The focused warp parks on the misses of an access, whose other elements have their places. -/
def parkAsked (s : State) (q : Ask) (oks : List (Elt × Loc)) (ms : List Miss) : State :=
  parkOnMisses (keepOks s q.part oks) s.warp.at.pc ms

/-- The privilege of the focused warp (10 R214; 15 R332). -/
def State.ask (s : State) (acc : Access) (e : Nat) : Ask :=
  { part := s.team.part, acc := acc, e := e, priv := s.warp.intrap, failed := s.warp.service.failed,
    pins := s.warp.service.pins }

/-- The focused warp parks on a line, its translations pinned until it has performed (R190; 10 R219). -/
def parkOnLine (s : State) (q : Ask) (line : Nat) (oks : List (Elt × Loc)) : State :=
  (settle s q.part oks).onWarp fun w => { w with park := .presence line, service := { w.service with pins := pinned s q oks } }

end Sys2Proof.Machine
end

