-- ==== Sys2Proof/Machine/Scalar.lean ====
section
/-! DEFINITION. The scalar instructions 0x01–0x1F, on the uniform registers and, in lane mode, on each lane's words (04_scalar_and_flow.md R74–R78, R84). -/
namespace Sys2Proof.Machine
open Sys2Proof

/-- The sign-extended immediate si at a width (R74). -/
def signImm (n : Nat) (imm : BitVec 32) : BitVec n := imm.signExtend n

/-- A two-operand instruction: one function at both widths. -/
def binary (s : State) (d a b : BitVec 6) (f : (n : Nat) → BitVec n → BitVec n → BitVec n) : Result :=
  scalarWord s [d, a, b] d (f 64 (s.warp.readS a) (s.warp.readS b)) fun l => f 32 (laneOf s a l) (laneOf s b l)

/-- An instruction with a sign-extended immediate. -/
def immediate (s : State) (d a : BitVec 6) (imm : BitVec 32) (f : (n : Nat) → BitVec n → BitVec n → BitVec n) : Result :=
  scalarWord s [d, a] d (f 64 (s.warp.readS a) (signImm 64 imm)) fun l => f 32 (laneOf s a l) (signImm 32 imm)

/-- A one-operand instruction. -/
def unary (s : State) (d a : BitVec 6) (f : (n : Nat) → BitVec n → BitVec n) : Result :=
  scalarWord s [d, a] d (f 64 (s.warp.readS a)) fun l => f 32 (laneOf s a l)

/-- A shift by an immediate count mod n (R76, R84). -/
def shiftImm (s : State) (d a : BitVec 6) (k : BitVec 6) (f : (n : Nat) → BitVec n → Nat → BitVec n) : Result :=
  scalarWord s [d, a] d (f 64 (s.warp.readS a) (k.toNat % 64)) fun l => f 32 (laneOf s a l) (k.toNat % 32)

/-! ## Moves and immediates (R75) -/

def execMov (u : Bool) (d a : BitVec 6) (s : State) : Result :=
  if u then
    if s.warp.inLanes then laneWord s [d] d fun _ => (s.warp.readS a).setWidth 32
    else guarded [(regOk s d, .register), (false, .laneMode)] s id
  else unary s d a fun _ x => x

def execMovi (d : BitVec 6) (imm : BitVec 32) (s : State) : Result :=
  scalarWord s [d] d (imm.setWidth 64) fun _ => imm

/-- A scalar word that lane mode does not permit: there, its register fields are checked first (condition 14, R84). -/
def uniformScalar (s : State) (regs : List (BitVec 6)) (f : State → State) : Result :=
  guarded [(!s.warp.inLanes || regs.all (regOk s), .register), vectorOnly s] s f

def execMovhi (d a : BitVec 6) (imm : BitVec 32) (s : State) : Result :=
  uniformScalar s [d, a] fun s => State.advance <| s.onWarp fun w => w.writeS d (imm ++ (w.readS a).setWidth 32)

def execAdrc (d : BitVec 6) (imm : BitVec 32) (s : State) : Result :=
  uniformScalar s [d] fun s => State.advance <| s.onWarp fun w => w.writeS d (addrWord (w.at.hdr + imm.toInt * 8))

/-! ## Arithmetic, logic and shifts (R76) -/

def execAdd (d a b : BitVec 6) (s : State) : Result := binary s d a b fun _ x y => x + y

def execAddi (d a : BitVec 6) (imm : BitVec 32) (s : State) : Result := immediate s d a imm fun _ x y => x + y

def execSub (d a b : BitVec 6) (s : State) : Result := binary s d a b fun _ x y => x - y

def execMul (d a b : BitVec 6) (s : State) : Result := binary s d a b fun _ x y => x * y

/-- floor(x · y / 2^n), signed or unsigned. -/
def mulHigh (sg : Sgn) (n : Nat) (x y : BitVec n) : BitVec n :=
  match sg with
  | .signed => BitVec.ofInt n (x.toInt * y.toInt / (2 ^ n : Nat))
  | .unsigned => BitVec.ofNat n (x.toNat * y.toNat / 2 ^ n)

def execMulhi (sg : Sgn) (d a b : BitVec 6) (s : State) : Result := binary s d a b (mulHigh sg)

def execAnd (d a b : BitVec 6) (s : State) : Result := binary s d a b fun _ x y => x &&& y

def execAndi (d a : BitVec 6) (imm : BitVec 32) (s : State) : Result := immediate s d a imm fun _ x y => x &&& y

def execOr (d a b : BitVec 6) (s : State) : Result := binary s d a b fun _ x y => x ||| y

def execOri (d a : BitVec 6) (imm : BitVec 32) (s : State) : Result := immediate s d a imm fun _ x y => x ||| y

def execXor (d a b : BitVec 6) (s : State) : Result := binary s d a b fun _ x y => x ^^^ y

def execXori (d a : BitVec 6) (imm : BitVec 32) (s : State) : Result := immediate s d a imm fun _ x y => x ^^^ y

def execShl (d a b : BitVec 6) (s : State) : Result := binary s d a b fun n x y => x <<< (y.toNat % n)

def execShr (d a b : BitVec 6) (s : State) : Result := binary s d a b fun n x y => x >>> (y.toNat % n)

def execSar (d a b : BitVec 6) (s : State) : Result := binary s d a b fun n x y => x.sshiftRight (y.toNat % n)

def execShli (d a : BitVec 6) (imm : BitVec 6) (s : State) : Result := shiftImm s d a imm fun _ x k => x <<< k

def execShri (d a : BitVec 6) (imm : BitVec 6) (s : State) : Result := shiftImm s d a imm fun _ x k => x >>> k

def execSari (d a : BitVec 6) (imm : BitVec 6) (s : State) : Result := shiftImm s d a imm fun _ x k => x.sshiftRight k

/-- The number of leading zero bits; n for zero. -/
def leadingZeros {n : Nat} (x : BitVec n) : Nat := if x.toNat = 0 then n else n - 1 - Nat.log2 x.toNat

/-- The number of one bits. -/
def oneBits {n : Nat} (x : BitVec n) : Nat := ((List.range n).filter fun i => x.getLsbD i).length

def execClz (d a : BitVec 6) (s : State) : Result := unary s d a fun n x => BitVec.ofNat n (leadingZeros x)

def execPopc (d a : BitVec 6) (s : State) : Result := unary s d a fun n x => BitVec.ofNat n (oneBits x)

/-- x is below y, signed or unsigned. -/
def below (sg : Sgn) {n : Nat} (x y : BitVec n) : Bool :=
  match sg with
  | .signed => x.slt y
  | .unsigned => x.ult y

def execMin (sg : Sgn) (d a b : BitVec 6) (s : State) : Result :=
  binary s d a b fun _ x y => if below sg y x then y else x

def execMax (sg : Sgn) (d a b : BitVec 6) (s : State) : Result :=
  binary s d a b fun _ x y => if below sg x y then y else x

/-! ## Division (R77) -/

/-- The quotient and remainder of R77 at a width. -/
def divide (sg : Sgn) (n : Nat) (x y : BitVec n) : BitVec n × BitVec n :=
  match sg with
  | .signed =>
    if y = 0#n then (BitVec.allOnes n, x)
    else if x = BitVec.intMin n && y = BitVec.allOnes n then (x, 0#n)
    else (BitVec.ofInt n (Int.tdiv x.toInt y.toInt), BitVec.ofInt n (Int.tmod x.toInt y.toInt))
  | .unsigned =>
    if y = 0#n then (BitVec.allOnes n, x)
    else (BitVec.ofNat n (x.toNat / y.toNat), BitVec.ofNat n (x.toNat % y.toNat))

/-- The divider's state of the warp's core holds an uncorrectable error. -/
def dividerBad (s : State) : Bool := (coreOf s s.warp.core).divBad

/-- The machine check in the divider's state, whose TRAPINFO and FAULTVA the spec does not state (log 62, DESIGN CHOICE). -/
def dividerReport (s : State) : Report :=
  { cause := .machineCheck, info := Config.freeWord s.draws, va := Config.freeWord (s.draws + 1) }

/-- A division that meets the machine check: it traps, or it is recorded against its flag; the divider holds nothing of it any more (R77, R83). -/
def dividerCheck (s : State) (fs : FSel) (d : BitVec 6) : State :=
  let r := dividerReport s
  let s := { s with draws := s.draws + 2 }
  let sound (s : State) : State := onCore s s.warp.core fun c => { c with divBad := false }
  match fs with
  | .none => trapHere (if trapTaken s then sound s else s) r s.warp.vstart
  | .a | .b => ((sound s).bear fs { sResult d 0#64 with sWrite := none, fault := some (r, s.warp.vstart) }).advance

/-- A division under a flag select: synchronous, pending, or per lane; a flag in lane mode takes reason 0x09 (R104). -/
def division (s : State) (fs : FSel) (d a b : BitVec 6) (f : (n : Nat) → BitVec n → BitVec n → BitVec n) : Result :=
  if s.warp.inLanes then
    if fs = .none then
      (if dividerBad s then guarded ([d, a, b].map fun r => (regOk s r, .register)) s fun s => dividerCheck s fs d
       else laneWord s [d, a, b] d fun l => f 32 (laneOf s a l) (laneOf s b l))
    else guarded ([d, a, b].map (fun r => (regOk s r, .register)) ++ [(false, .laneMode)]) s id
  else
    guarded [pendingOk s fs (if d = 0#6 then 0 else 1)] s fun s =>
      if dividerBad s then dividerCheck s fs d
      else (s.bear fs (sResult d (f 64 (s.warp.readS a) (s.warp.readS b)))).advance

def execDiv (fs : FSel) (sg : Sgn) (d a b : BitVec 6) (s : State) : Result :=
  division s fs d a b fun n x y => (divide sg n x y).1

def execRem (fs : FSel) (sg : Sgn) (d a b : BitVec 6) (s : State) : Result :=
  division s fs d a b fun n x y => (divide sg n x y).2

/-! ## Compare and select (R78) -/

/-- A condition as a register value. -/
def boolWord (n : Nat) (b : Bool) : BitVec n := if b then 1#n else 0#n

def execCmp (cc : Cond) (d a b : BitVec 6) (s : State) : Result :=
  binary s d a b fun n x y => boolWord n (condHolds cc x y)

def execCmpi (cc : Cond) (d a : BitVec 6) (imm : BitVec 32) (s : State) : Result :=
  immediate s d a imm fun n x y => boolWord n (condHolds cc x y)

def execSel (d a b c : BitVec 6) (s : State) : Result :=
  scalarWord s [d, a, b, c] d (if s.warp.readS c ≠ 0#64 then s.warp.readS a else s.warp.readS b) fun l =>
    if laneOf s c l ≠ 0#32 then laneOf s a l else laneOf s b l

def execNop (s : State) : Result := .next s.advance

end Sys2Proof.Machine
end

