-- ==== Sys2Proof/Machine/VecInt.lean ====
section
/-! DEFINITION. The vector integer instructions 0x50–0x68 (07_lengths_and_integer.md R162–R168). -/
namespace Sys2Proof.Machine
open Sys2Proof

/-- w(y): the low e bits (R162). -/
def wrapped (et : ET) (y : Int) : Elem := { bits := intBits et y }

/-- sat(y), with IS when the value was outside the range (R162). -/
def saturated (et : ET) (y : Int) : Elem :=
  { bits := intBits et (clampTo et y).1, flags := { is := (clampTo et y).2 } }

/-- Element k of a register group, at the width of a type. -/
def vElem (s : State) (et : ET) (r : BitVec 6) (k : Nat) : LaneWord := readElem s r et.width k

/-- val of element k (R162). -/
def vVal (s : State) (et : ET) (r : BitVec 6) (k : Nat) : Int := intValue et (vElem s et r k)

/-- An interlocked vector instruction of one type, with its source groups. -/
def vecWord (s : State) (mk : BitVec 3) (mz : Bool) (et : ET) (d : BitVec 6) (srcs : List (BitVec 6)) (f : State → Nat → Elem) : Result :=
  vectorWord s (srcs.map fun r => vecOk s r et.width) 1 .none d et.width mk mz f

/-- A two-operand instruction on values. -/
def vBinary (s : State) (mk : BitVec 3) (mz : Bool) (et : ET) (d a b : BitVec 6) (f : Int → Int → Elem) : Result :=
  vecWord s mk mz et d [a, b] fun s k => f (vVal s et a k) (vVal s et b k)

def execVadd (mk : BitVec 3) (mz : Bool) (et : ET) (d a b : BitVec 6) (s : State) : Result :=
  vBinary s mk mz et d a b fun x y => wrapped et (x + y)

def execVadds (mk : BitVec 3) (mz : Bool) (et : ET) (d a b : BitVec 6) (s : State) : Result :=
  vBinary s mk mz et d a b fun x y => saturated et (x + y)

def execVsub (mk : BitVec 3) (mz : Bool) (et : ET) (d a b : BitVec 6) (s : State) : Result :=
  vBinary s mk mz et d a b fun x y => wrapped et (x - y)

def execVsubs (mk : BitVec 3) (mz : Bool) (et : ET) (d a b : BitVec 6) (s : State) : Result :=
  vBinary s mk mz et d a b fun x y => saturated et (x - y)

def execVmul (mk : BitVec 3) (mz : Bool) (et : ET) (d a b : BitVec 6) (s : State) : Result :=
  vBinary s mk mz et d a b fun x y => wrapped et (x * y)

def execVmulhi (mk : BitVec 3) (mz : Bool) (et : ET) (d a b : BitVec 6) (s : State) : Result :=
  vBinary s mk mz et d a b fun x y => wrapped et (x * y / (2 ^ et.width : Nat))

def execVmad (mk : BitVec 3) (mz : Bool) (et : ET) (d a b c : BitVec 6) (s : State) : Result :=
  vecWord s mk mz et d [a, b, c] fun s k => wrapped et (vVal s et a k * vVal s et b k + vVal s et c k)

def execVmin (mk : BitVec 3) (mz : Bool) (et : ET) (d a b : BitVec 6) (s : State) : Result :=
  vBinary s mk mz et d a b fun x y => wrapped et (min x y)

def execVmax (mk : BitVec 3) (mz : Bool) (et : ET) (d a b : BitVec 6) (s : State) : Result :=
  vBinary s mk mz et d a b fun x y => wrapped et (max x y)

def execVabs (mk : BitVec 3) (mz : Bool) (sat : Bool) (et : ET) (d a : BitVec 6) (s : State) : Result :=
  vecWord s mk mz et d [a] fun s k =>
    let y : Int := ((vVal s et a k).natAbs : Nat)
    if sat then saturated et y else wrapped et y

/-- A bitwise instruction, on the patterns of any type. -/
def vBits (s : State) (mk : BitVec 3) (mz : Bool) (et : ET) (d a b : BitVec 6) (f : LaneWord → LaneWord → LaneWord) : Result :=
  vecWord s mk mz et d [a, b] fun s k => { bits := container et (f (vElem s et a k) (vElem s et b k)) }

def execVand (mk : BitVec 3) (mz : Bool) (et : ET) (d a b : BitVec 6) (s : State) : Result :=
  vBits s mk mz et d a b fun x y => x &&& y

def execVor (mk : BitVec 3) (mz : Bool) (et : ET) (d a b : BitVec 6) (s : State) : Result :=
  vBits s mk mz et d a b fun x y => x ||| y

def execVxor (mk : BitVec 3) (mz : Bool) (et : ET) (d a b : BitVec 6) (s : State) : Result :=
  vBits s mk mz et d a b fun x y => x ^^^ y

/-- u(b) mod e. -/
def vShift (et : ET) (y : LaneWord) : Nat := unsignedOf et.width y % et.width

def execVshl (mk : BitVec 3) (mz : Bool) (et : ET) (d a b : BitVec 6) (s : State) : Result :=
  vBits s mk mz et d a b fun x y => x <<< vShift et y

def execVshr (mk : BitVec 3) (mz : Bool) (et : ET) (d a b : BitVec 6) (s : State) : Result :=
  vBits s mk mz et d a b fun x y => x >>> vShift et y

def execVsar (mk : BitVec 3) (mz : Bool) (et : ET) (d a b : BitVec 6) (s : State) : Result :=
  vBits s mk mz et d a b fun x y => wrapTo et.width (signedOf et.width x / (2 ^ vShift et y : Nat))

/-- `cond` with i and u taken at width e (R165). -/
def condElem (c : Cond) (et : ET) (x y : LaneWord) : Bool :=
  condHolds c (x.setWidth et.width) (y.setWidth et.width)

def execVcmp (mk : BitVec 3) (mz : Bool) (cc : Cond) (et : ET) (d : BitVec 3) (a b : BitVec 6) (s : State) : Result :=
  guarded [vecOk s a et.width, vecOk s b et.width, vectorOnly s] s fun s => tolled s s.warp.vl fun s =>
    (s.onWarp fun w =>
      { w.setM d (maskResult w (w.readM d) mk mz fun k => condElem cc et (vElem s et a k) (vElem s et b k)) with vstart := 0 }).advance

def execVmrg (mk : BitVec 3) (et : ET) (d a b : BitVec 6) (s : State) : Result :=
  vecWord s 0#3 false et d [a, b] fun s k =>
    { bits := container et (if maskBit s.warp mk k then vElem s et b k else vElem s et a k) }

def execVwid (mk : BitVec 3) (mz : Bool) (src et : ET) (d a : BitVec 6) (s : State) : Result :=
  vectorWord s [vecOk s a src.width] 1 .none d et.width mk mz fun s k => wrapped et (vVal s src a k)

def execVsatn (mk : BitVec 3) (mz : Bool) (src et : ET) (d a : BitVec 6) (s : State) : Result :=
  vectorWord s [vecOk s a src.width] 1 .none d et.width mk mz fun s k => saturated et (vVal s src a k)

/-- The number of set bits of a mask below k (R166). -/
def countBelow (m : BitVec 1024) (k : Nat) : Nat := ((List.range k).filter fun j => m.getLsbD j).length

def execViota (mk : BitVec 3) (mz : Bool) (byMask : Bool) (et : ET) (d : BitVec 6) (a : BitVec 3) (s : State) : Result :=
  vecWord s mk mz et d [] fun s k =>
    wrapped et ((if byMask then countBelow (s.warp.readM a) k else k : Nat) : Int)

def execVbcs (mk : BitVec 3) (mz : Bool) (et : ET) (d a : BitVec 6) (s : State) : Result :=
  vecWord s mk mz et d [] fun s _ => { bits := container et ((s.warp.readS a).setWidth 32) }

/-- The one bits of a word. -/
def onesIn (n : Nat) (x : LaneWord) : Nat := ((List.range n).filter fun i => x.getLsbD i).length

/-- The leading zeros of the low n bits. -/
def leadingIn (n : Nat) (x : LaneWord) : Nat := if x == 0#32 then n else n - 1 - Nat.log2 x.toNat

def execVpopc (mk : BitVec 3) (mz : Bool) (et : ET) (d a : BitVec 6) (s : State) : Result :=
  vecWord s mk mz et d [a] fun s k => wrapped et ((onesIn et.width (vElem s et a k) : Nat) : Int)

def execVclz (mk : BitVec 3) (mz : Bool) (et : ET) (d a : BitVec 6) (s : State) : Result :=
  vecWord s mk mz et d [a] fun s k => wrapped et ((leadingIn et.width (vElem s et a k) : Nat) : Int)

/-- The type of the strip (R167): an integer type, or reason 0x08 at issue. -/
def execVaddi (mk : BitVec 3) (mz : Bool) (d a : BitVec 6) (imm : BitVec 32) (s : State) : Result :=
  let et := stripEt s.warp
  if et.isInt then vecWord s mk mz et d [a] fun s k => wrapped et (vVal s et a k + imm.toInt)
  else .next (illegal s .elementType)

end Sys2Proof.Machine
end

