-- ==== Sys2Proof/Machine/LoadStore.lean ====
section
/-! DEFINITION. Loads and stores 0xA0–0xA7 and the prefetch 0xAB (09_loads_stores_streams.md R186–R199, R206). -/
namespace Sys2Proof.Machine
open Sys2Proof

/-- base := u(s_a) + sext(OFF, 64) (R188). -/
def baseOf (s : State) (a : BitVec 6) (off : BitVec 16) : Int := ((s.warp.readS a).toNat : Nat) + off.toInt

/-- An element read, extended to a uniform register (R195). -/
def extended (et : ET) (v : Word) : Word :=
  match et with
  | .int32 => (v.setWidth 32).signExtend 64
  | .int16 => (v.setWidth 16).signExtend 64
  | .int8 => (v.setWidth 8).signExtend 64
  | .sc12 => v &&& 0xFFF#64
  | .uint32 | .uint16 | .uint8 | .int4 | .int2 | .fp32 | .bf16 | .fp16 | .e4m3 | .e5m2 | .e2m1 | .int64 => v

/-- The bits that a store writes: SC12 writes bits [15:12] zero (06_numbers_and_float.md R126). -/
def stored (et : ET) (v : Word) : Word := if et == .sc12 then v &&& 0xFFF#64 else v

/-! ## Scalar loads and stores, outside and inside lane mode (R195, R196) -/

/-- The lane's address: the words of v_a and v(a + 1), and OFF. -/
def laneAddr (s : State) (a : BitVec 6) (off : BitVec 16) (l : Nat) : Int :=
  ((laneOf s a l).toNat + 2 ^ 32 * (laneOf s (a + 1#6) l).toNat : Nat) + off.toInt

/-- The checks of a lane-mode access: no 64-bit type, an even address pair, the data register, no flag. -/
def laneAccessChecks (s : State) (fs : FSel) (et : ET) (a r : BitVec 6) : List (Bool × IllegalReason) :=
  [(et != .int64, .elementType), (regOk s r, .register), (groupOk s a 2, .register), (fs == .none, .laneMode)]

/-- The elements of a lane-mode access: one for each lane of the group. -/
def laneElts (s : State) (addr : Nat → Int) : List Elt := s.warp.group.map fun l => { k := l, va := addr l }

/-- Lanes that have performed go on at the next word; the lowest of the others leads (R105; 15 R333). -/
def Warp.passLanes (w : Warp) (ls : List Nat) (next : Nat) : Warp :=
  match w.lanes with
  | none => w
  | some lm => { w with lanes := some { lm.onLanes ls (fun _ l => { l with pos := l.pos.after }) with next := next } }

/-- A lane-mode access: each lane of the group accesses for itself, and a fault stops the lanes from the lowest faulting one upward (R192, R196; log 18, DEDUCED). -/
def laneAccess (s : State) (q : Ask) (xs : List Elt) (k : State → List (Elt × Loc) → State) : State :=
  tolled s xs.length fun s =>
    let q := { q with each := true }
    match planOf s q xs with
    | .misses oks ms => parkAsked s q oks ms
    | .wait line oks => parkOnLine s q line oks
    | .run oks none => (settle (k s oks) q.part oks).advance
    | .run oks (some (.fault l r)) | .run oks (some (.error l r)) =>
      trapHere ((settle (k s oks) q.part oks).onWarp fun w => w.passLanes (oks.map fun x => x.1.k) l) r s.warp.vstart
    | .run _ (some (.trim _)) => s.advance

/-- A one-element access outside lane mode, with what its fault does. -/
def oneAccess (s : State) (q : Ask) (va : Int) (k : State → Elt × Loc → State) (onFault : State → Report → State) : State :=
  match planOf s q [{ k := 0, va := va }] with
  | .misses oks ms => parkAsked s q oks ms
  | .wait line oks => parkOnLine s q line oks
  | .run (x :: _) _ => (settle (k s x) q.part [x]).fromStart.advance
  | .run [] (some (.fault _ r)) => onFault s r
  | .run [] (some (.error _ r)) => onFault s r
  | .run [] _ => s.advance

/-- A fault of a load of one element: taken at once, or recorded with its flag; `vstart` := 0 (R192, R195). -/
def loadFault (fs : FSel) (d : BitVec 6) (s : State) (r : Report) : State :=
  match fs with
  | .none => trapHere s r 0
  | .a | .b => (s.bear fs { sResult d 0#64 with sWrite := none, fault := some (r, 0) }).fromStart.advance

def execLds (fs : FSel) (et : ET) (_ch : BitVec 2) (d a : BitVec 6) (off : BitVec 16) (s : State) : Result :=
  let q := { s.ask .read et.width with trims := false }
  if s.warp.inLanes then
    guarded (laneAccessChecks s fs et a d) s fun s =>
      laneAccess s q (laneElts s (laneAddr s a off)) fun s oks =>
        s.onWarp fun w => w.writeLanes (oks.map fun x => laneWrite s d x.1.k ((extended et (loadElt s et.width x)).setWidth 32))
  else
    guarded [pendingOk s fs (if d = 0#6 then 0 else 1)] s fun s =>
      oneAccess s q (baseOf s a off)
        (fun s x => s.bear fs (sResult d (extended et (loadElt s et.width x)))) (loadFault fs d)

def execSts (et : ET) (_ch : BitVec 2) (a b : BitVec 6) (off : BitVec 16) (s : State) : Result :=
  let q := { s.ask .write et.width with trims := false }
  if s.warp.inLanes then
    guarded (laneAccessChecks s .none et a b) s fun s =>
      laneAccess s q (laneElts s (laneAddr s a off)) fun s oks =>
        (storeElts et.width (fun l => stored et ((laneOf s b l).setWidth 64)) oks s).onWarp fun w =>
          dropAhead w (oks.map fun x => x.2.key)
  else
    .next (oneAccess s q (baseOf s a off)
      (fun s x => (storeElt s et.width x (stored et (s.warp.readS b))).onWarp fun w => dropAhead w [x.2.key])
      (fun s r => trapHere s r 0))

/-! ## Vector loads (R192, R193, R197, R198) -/

/-- A vector access: the width, and for element k its address and bit; and what a stream adds: elements past its end, elements read early and what is held (R203, R204), and what its completion, and a park on a manifest or a fault, do to it. -/
structure VecAccess where
  et : ET
  place : Nat → Int × Nat
  past : Nat → Bool := fun _ => false
  early : List (Nat × LaneWord) := []
  held : List (Nat × Held) := []
  done : Warp → Warp := id
  parked : Warp → Warp := id

/-- An element that is not accessed although its mask bit is set (R192). -/
def VecAccess.padAt (v : VecAccess) (w : Warp) (k : Nat) : Bool := isPad w k || v.past k

/-- The live elements, in ascending order. -/
def VecAccess.live (v : VecAccess) (w : Warp) (mk : BitVec 3) : List Elt :=
  ((activeElems w).filter fun k => maskBit w mk k && !v.padAt w k).map fun k => { k := k, va := (v.place k).1, bit := (v.place k).2 }

/-- The zeros that a load writes below a stop: masked-off elements under MZ, and pad elements. -/
def zeroWrites (s : State) (v : VecAccess) (d : BitVec 6) (mk : BitVec 3) (mz : Bool) (stop : Nat) : List LaneWrite :=
  (activeElems s.warp).filterMap fun k =>
    if stop ≤ k then none
    else if maskBit s.warp mk k then (if v.padAt s.warp k then some (elemWrite s d v.et.width k 0#32) else none)
    else if mz then some (elemWrite s d v.et.width k 0#32)
    else none

/-- The writes of a load below `stop`: zeros, the elements that were read early, and the elements that performed now. -/
def loadWrites (s : State) (v : VecAccess) (d : BitVec 6) (mk : BitVec 3) (mz : Bool) (early : List (Nat × LaneWord))
    (oks : List (Elt × Loc)) (stop : Nat) : List LaneWrite :=
  zeroWrites s v d mk mz stop ++
    ((early.filter fun p => p.1 < stop).map fun p => elemWrite s d v.et.width p.1 (container v.et p.2)) ++
    oks.map fun x => elemWrite s d v.et.width x.1.k (container v.et ((loadElt s v.et.width x).setWidth 32))

/-- The strip after a trim at k (R193). -/
def trimStrip (w : Warp) (k : Nat) : Warp := { w with vl := k, vpad := 0, vstart := 0 }

/-- The elements of a gather that perform while others miss: present, free of error, and on a device page only below every miss (R198; 10 R215). -/
def gatherable (s : State) (q : Ask) (oks : List (Elt × Loc)) (ms : List Miss) : List (Elt × Loc) :=
  oks.filter fun x =>
    (absentIn s x.2.key (eltBytes q.e)).isNone && !errorAt s x.2.key x.2.kid (eltBytes q.e) &&
      (x.2.mt != 2 || ms.all fun m => x.1.k < m.elem)

/-- A gather that meets misses: what translated is read and kept, `FAULTMASK` names the rest (R198). -/
def gatherSome (s : State) (q : Ask) (todo : List Elt) (oks : List (Elt × Loc)) (ms : List Miss) : State :=
  let new := (gatherable s q oks ms).map fun x => (x.1.k, (loadElt s q.e x).setWidth 32)
  let rest := todo.filter fun x => !new.any fun p => p.1 == x.k
  s.onWarp fun w =>
    { w with
      faultmask := rest.foldl (fun acc x => acc ||| (1#1024 <<< x.k)) 0#1024
      service := { w.service with gathered := w.service.gathered ++ new } }

/-- What a vector load is made of: its destination, its mask, and whether it is a gather. -/
structure LoadForm where
  d : BitVec 6
  mask : BitVec 3
  mz : Bool
  gather : Bool := false

/-- A vector load after its checks at issue. -/
def vecLoad (s : State) (fs : FSel) (v : VecAccess) (f : LoadForm) : State :=
  tolled s s.warp.vl fun s =>
    let live := v.live s.warp f.mask
    let early := (s.warp.service.gathered ++ v.early).filter fun p => live.any fun x => x.k == p.1
    let todo := live.filter fun x => !early.any fun p => p.1 == x.k
    let q := { s.ask .read v.et.width with held := v.held, fresh := todo.head? == live.head? }
    match planOf s q todo with
    | .misses oks ms => (parkAsked (if f.gather then gatherSome s q todo oks ms else s) q oks ms).onWarp v.parked
    | .wait line oks => parkOnLine s q line oks
    | .run oks stop =>
      let bound := match stop with
        | none => s.warp.vl
        | some st => st.at
      let o : Outstanding := { seq := 0, pc := 0#64, flag := none, dests := groupSize s.warp v.et.width,
                               vWrites := loadWrites s v f.d f.mask f.mz early oks bound }
      match stop with
      | none => ((settle (s.bear fs o) q.part oks).onWarp v.done).fromStart.advance
      | some (.trim k) => ((settle (s.bear fs o) q.part oks).onWarp fun w => v.done (trimStrip w k)).advance
      | some (.fault k r) | some (.error k r) =>
        match fs with
        | .none => trapHere (settle (s.onWarp fun w => v.parked (w.writeLanes o.vWrites)) q.part oks) r k
        | .a | .b => ((settle (s.bear fs { o with vWrites := [], fault := some (r, 0) }) q.part oks).onWarp v.parked).fromStart.advance

/-- The checks at issue of a vector access: its groups, lane mode, pending destinations. -/
def vecChecks (s : State) (groups : List (Bool × IllegalReason)) (fs : FSel) (n : Nat) : List (Bool × IllegalReason) :=
  groups ++ [vectorOnly s, pendingOk s fs n]

/-- Unit stride: byte base + floor(k·e / 8), bit k·e mod 8 (R188). -/
def unitAccess (et : ET) (base : Int) : VecAccess :=
  { et := et, place := fun k => (base + (k * et.width / 8 : Nat), k * et.width % 8) }

/-- Strided: base + k · stride. -/
def stridedAccess (et : ET) (base stride : Int) : VecAccess := { et := et, place := fun k => (base + k * stride, 0) }

/-- Indexed: base + the sign-extended INT32 index. -/
def indexedAccess (s : State) (et : ET) (base : Int) (c : BitVec 6) : VecAccess :=
  { et := et, place := fun k => (base + (readElem s c 32 k).toInt, 0) }

def execVld (fs : FSel) (mk : BitVec 3) (mz : Bool) (et : ET) (_ch : BitVec 2) (d a : BitVec 6) (off : BitVec 16) (s : State) : Result :=
  guarded (vecChecks s [vecOk s d et.width] fs (groupSize s.warp et.width)) s fun s =>
    vecLoad s fs (unitAccess et (baseOf s a off)) { d := d, mask := mk, mz := mz }

def execVlds (fs : FSel) (mk : BitVec 3) (mz : Bool) (et : ET) (_ch : BitVec 2) (d a c : BitVec 6) (off : BitVec 16) (s : State) : Result :=
  guarded (vecChecks s [vecOk s d et.width] fs (groupSize s.warp et.width)) s fun s =>
    vecLoad s fs (stridedAccess et (baseOf s a off) (s.warp.readS c).toInt) { d := d, mask := mk, mz := mz }

def execVldx (fs : FSel) (mk : BitVec 3) (mz : Bool) (et : ET) (_ch : BitVec 2) (d a c : BitVec 6) (off : BitVec 16) (s : State) : Result :=
  guarded (vecChecks s [vecOk s d et.width, vecOk s c 32] fs (groupSize s.warp et.width)) s fun s =>
    vecLoad s fs (indexedAccess s et (baseOf s a off) c) { d := d, mask := mk, mz := mz, gather := true }

/-! ## Vector stores -/

/-- A vector store after its checks at issue. -/
def vecStore (s : State) (v : VecAccess) (b : BitVec 6) (mk : BitVec 3) : State :=
  tolled s s.warp.vl fun s =>
    let q := { s.ask .write v.et.width with held := v.held }
    match planOf s q (v.live s.warp mk) with
    | .misses oks ms => (parkAsked s q oks ms).onWarp v.parked
    | .wait line oks => parkOnLine s q line oks
    | .run oks stop =>
      let val (k : Nat) : Word := stored v.et ((vElem s v.et b k).setWidth 64)
      let s := (healLines (storeElts v.et.width val oks s) v.et.width oks).onWarp fun w => dropAhead w (oks.map fun x => x.2.key)
      let s := settle s q.part oks
      match stop with
      | none => (s.onWarp v.done).fromStart.advance
      | some (.trim k) => (s.onWarp fun w => v.done (trimStrip w k)).advance
      | some (.fault k r) | some (.error k r) => trapHere (s.onWarp v.parked) r k

def execVst (mk : BitVec 3) (et : ET) (_ch : BitVec 2) (a b : BitVec 6) (off : BitVec 16) (s : State) : Result :=
  guarded (vecChecks s [vecOk s b et.width] .none 0) s fun s => vecStore s (unitAccess et (baseOf s a off)) b mk

def execVsts (mk : BitVec 3) (et : ET) (_ch : BitVec 2) (a b c : BitVec 6) (off : BitVec 16) (s : State) : Result :=
  guarded (vecChecks s [vecOk s b et.width] .none 0) s fun s =>
    vecStore s (stridedAccess et (baseOf s a off) (s.warp.readS c).toInt) b mk

def execVstx (mk : BitVec 3) (et : ET) (_ch : BitVec 2) (a b c : BitVec 6) (off : BitVec 16) (s : State) : Result :=
  guarded (vecChecks s [vecOk s b et.width, vecOk s c 32] .none 0) s fun s =>
    vecStore s (indexedAccess s et (baseOf s a off) c) b mk

/-! ## Prefetch (R206) -/

/-- The prefetch changes no register and no memory; the caches may keep what the walks of its page read. -/
def execPref (ch : BitVec 2) (a : BitVec 6) (off : BitVec 16) (s : State) : Result :=
  guarded [vectorOnly s] s fun s =>
    let va := baseOf s a off
    if ch = 3#2 || (canonicalFault va).isSome || inWindow (va54 va) then s.advance
    else
      (keepPages s s.team.part [va54 va]).draw.advance

end Sys2Proof.Machine
end

