-- ==== Sys2Proof/Machine/VecFloat.lean ====
section
/-! DEFINITION. The floating instructions 0x70–0x82, outside and inside lane mode (06_numbers_and_float.md R137–R150). -/
namespace Sys2Proof.Machine
open Sys2Proof

/-! ## Elements -/

/-- An exact value rounded once, with the NV of its operation (R131, R132). -/
def roundElem (et : ET) (md : Mode) (x : Exact × Bool) : Elem :=
  let r := rnd (fmtOf et) md x.1
  { bits := r.bits, flags := { r.flags with nv := x.2 } }

/-- A special result of a long operation with its DZ (R142). -/
def specialElem (et : ET) (x : Exact) (nv dz : Bool) : Elem :=
  { bits := (rnd (fmtOf et) .rne x).bits, flags := { nv := nv, dz := dz } }

def fVal (et : ET) (x : LaneWord) : Exact := (fmtOf et).value x

def faddElem (et : ET) (md : Mode) (x y : LaneWord) : Elem := roundElem et md ((fVal et x).add md (fVal et y))

def fsubElem (et : ET) (md : Mode) (x y : LaneWord) : Elem := roundElem et md ((fVal et x).add md (fVal et y).neg)

def fmulElem (et : ET) (md : Mode) (x y : LaneWord) : Elem := roundElem et md ((fVal et x).mul (fVal et y))

def ffmaElem (et : ET) (md : Mode) (negate : Bool) (x y z : LaneWord) : Elem :=
  roundElem et md ((fVal et x).fma md negate (fVal et y) (fVal et z))

/-- −0 counts as smaller than +0 (R141). -/
def fless (x y : Exact) : Bool := x.lt y || (x.isZero && y.isZero && x.isNeg && !y.isNeg)

/-- The smaller or larger of two elements (R141). -/
def fpick (et : ET) (largest : Bool) (x y : LaneWord) : LaneWord :=
  let a := fVal et x
  let b := fVal et y
  if a.isNaN then (if b.isNaN then (fmtOf et).canonicalNaN else y)
  else if b.isNaN then x
  else if largest then (if fless a b then y else x)
  else if fless b a then y else x

def fabsBits (et : ET) (x : LaneWord) : LaneWord :=
  if (fVal et x).isNaN then (fmtOf et).canonicalNaN
  else x &&& BitVec.ofNat 32 (2 ^ ((fmtOf et).ebits + (fmtOf et).mbits) - 1)

/-- a / b (R142, Table 9). -/
def fdivElem (et : ET) (md : Mode) (x y : LaneWord) : Elem :=
  match fVal et x, fVal et y with
  | .nan, _ => specialElem et .nan false false
  | _, .nan => specialElem et .nan false false
  | .inf _, .inf _ => specialElem et .nan true false
  | .inf a, .fin n _ _ => specialElem et (.inf (a != n)) false false
  | .fin n _ _, .inf b => specialElem et (.fin (n != b) 0 0) false false
  | .fin na ma ea, .fin nb mb eb =>
    if mb == 0 then
      (if ma == 0 then specialElem et .nan true false else specialElem et (.inf (na != nb)) false true)
    else if ma == 0 then specialElem et (.fin (na != nb) 0 0) false false
    else roundElem et md (quotient na ma ea nb mb eb, false)

/-- √a. -/
def fsqrtElem (et : ET) (md : Mode) (x : LaneWord) : Elem :=
  match fVal et x with
  | .nan => specialElem et .nan false false
  | .inf n => if n then specialElem et .nan true false else specialElem et (.inf false) false false
  | .fin n m e =>
    if m == 0 then specialElem et (.fin n 0 0) false false
    else if n then specialElem et .nan true false
    else roundElem et md (squareRoot m e, false)

/-- 1 / √a. -/
def frsqElem (et : ET) (md : Mode) (x : LaneWord) : Elem :=
  match fVal et x with
  | .nan => specialElem et .nan false false
  | .inf n => if n then specialElem et .nan true false else specialElem et (.fin false 0 0) false false
  | .fin n m e =>
    if m == 0 then specialElem et (.inf n) false true
    else if n then specialElem et .nan true false
    else roundElem et md (reciprocalRoot m e, false)

/-- 1 / a. -/
def frcpElem (et : ET) (md : Mode) (x : LaneWord) : Elem :=
  match fVal et x with
  | .nan => specialElem et .nan false false
  | .inf n => specialElem et (.fin n 0 0) false false
  | .fin n m e =>
    if m == 0 then specialElem et (.inf n) false true else roundElem et md (quotient false 1 0 n m e, false)

/-- 2^a. -/
def fexp2Elem (et : ET) (md : Mode) (x : LaneWord) : Elem :=
  match fVal et x with
  | .nan => specialElem et .nan false false
  | .inf n => if n then specialElem et (.fin false 0 0) false false else specialElem et (.inf false) false false
  | .fin n m e => roundElem et md (exp2 n m e, false)

/-- log2 a. -/
def flog2Elem (et : ET) (md : Mode) (x : LaneWord) : Elem :=
  match fVal et x with
  | .nan => specialElem et .nan false false
  | .inf n => if n then specialElem et .nan true false else specialElem et (.inf false) false false
  | .fin n m e =>
    if m == 0 then specialElem et (.inf true) false true
    else if n then specialElem et .nan true false
    else roundElem et md (binaryLog m e, false)

/-! ## Words -/

/-- A word in lane mode: one FP32 operation for each lane of the group, all or nothing (R138). -/
def laneFloat (s : State) (checks : List (Bool × IllegalReason)) (toll : Nat) (d : BitVec 6) (f : State → Nat → Elem) : Result :=
  guarded checks s fun s => tolled s (s.warp.group.length * toll) fun s =>
    let lanes := s.warp.group
    match lanes.find? fun l => enabledTrap s.warp.fpctl (f s l).flags with
    | some l => trapHere s (fpReport (f s l).flags l 0x21#8) s.warp.vstart
    | none =>
      (s.onWarp fun w =>
        (w.writeLanes (lanes.map fun l => laneWrite s d l (f s l).bits)).raise
          (lanes.foldl (fun acc l => acc ||| (f s l).flags.bits) 0#7)).advance

/-- A word of 0x70–0x7C or 0x82: lane mode permits it with ET = FP32, FS = 0 and MK = 0 (05_teams_and_warps.md R104); there its register fields name the lane's words, and groups do not apply (R138). -/
def floatWord (s : State) (fs : FSel) (mk : BitVec 3) (mz : Bool) (et : ET) (toll : Nat) (d : BitVec 6) (srcs : List (BitVec 6))
    (f : List LaneWord → Elem) : Result :=
  if s.warp.inLanes && et == .fp32 then
    laneFloat s (((d :: srcs).map fun r => (regOk s r, .register)) ++ [(fs == .none && mk == 0#3, .laneMode)]) toll d fun s l =>
      f (srcs.map fun r => laneOf s r l)
  else
    vectorWord s (srcs.map fun r => vecOk s r et.width) toll fs d et.width mk mz fun s k =>
      f (srcs.map fun r => vElem s et r k)

/-- The n-th source word. -/
def nth (xs : List LaneWord) (n : Nat) : LaneWord := xs.getD n 0#32

def execVfadd (mk : BitVec 3) (mz : Bool) (md : Mode) (et : ET) (d a b : BitVec 6) (s : State) : Result :=
  floatWord s .none mk mz et 2 d [a, b] fun x => faddElem et md (nth x 0) (nth x 1)

def execVfsub (mk : BitVec 3) (mz : Bool) (md : Mode) (et : ET) (d a b : BitVec 6) (s : State) : Result :=
  floatWord s .none mk mz et 2 d [a, b] fun x => fsubElem et md (nth x 0) (nth x 1)

def execVfmul (mk : BitVec 3) (mz : Bool) (md : Mode) (et : ET) (d a b : BitVec 6) (s : State) : Result :=
  floatWord s .none mk mz et 2 d [a, b] fun x => fmulElem et md (nth x 0) (nth x 1)

def execVfma (mk : BitVec 3) (mz : Bool) (md : Mode) (et : ET) (d a b c : BitVec 6) (s : State) : Result :=
  floatWord s .none mk mz et 2 d [a, b, c] fun x => ffmaElem et md false (nth x 0) (nth x 1) (nth x 2)

def execVfnma (mk : BitVec 3) (mz : Bool) (md : Mode) (et : ET) (d a b c : BitVec 6) (s : State) : Result :=
  floatWord s .none mk mz et 2 d [a, b, c] fun x => ffmaElem et md true (nth x 0) (nth x 1) (nth x 2)

def execVfmin (mk : BitVec 3) (mz : Bool) (et : ET) (d a b : BitVec 6) (s : State) : Result :=
  floatWord s .none mk mz et 2 d [a, b] fun x => { bits := fpick et false (nth x 0) (nth x 1) }

def execVfmax (mk : BitVec 3) (mz : Bool) (et : ET) (d a b : BitVec 6) (s : State) : Result :=
  floatWord s .none mk mz et 2 d [a, b] fun x => { bits := fpick et true (nth x 0) (nth x 1) }

def execVfdiv (fs : FSel) (mk : BitVec 3) (mz : Bool) (md : Mode) (et : ET) (d a b : BitVec 6) (s : State) : Result :=
  floatWord s fs mk mz et 8 d [a, b] fun x => fdivElem et md (nth x 0) (nth x 1)

def execVfsqrt (fs : FSel) (mk : BitVec 3) (mz : Bool) (md : Mode) (et : ET) (d a : BitVec 6) (s : State) : Result :=
  floatWord s fs mk mz et 8 d [a] fun x => fsqrtElem et md (nth x 0)

def execVfrsq (fs : FSel) (mk : BitVec 3) (mz : Bool) (md : Mode) (et : ET) (d a : BitVec 6) (s : State) : Result :=
  floatWord s fs mk mz et 8 d [a] fun x => frsqElem et md (nth x 0)

def execVfrcp (fs : FSel) (mk : BitVec 3) (mz : Bool) (md : Mode) (et : ET) (d a : BitVec 6) (s : State) : Result :=
  floatWord s fs mk mz et 8 d [a] fun x => frcpElem et md (nth x 0)

def execVfexp2 (fs : FSel) (mk : BitVec 3) (mz : Bool) (md : Mode) (et : ET) (d a : BitVec 6) (s : State) : Result :=
  floatWord s fs mk mz et 8 d [a] fun x => fexp2Elem et md (nth x 0)

def execVflog2 (fs : FSel) (mk : BitVec 3) (mz : Bool) (md : Mode) (et : ET) (d a : BitVec 6) (s : State) : Result :=
  floatWord s fs mk mz et 8 d [a] fun x => flog2Elem et md (nth x 0)

def execVfabs (mk : BitVec 3) (mz : Bool) (et : ET) (d a : BitVec 6) (s : State) : Result :=
  floatWord s .none mk mz et 2 d [a] fun x => { bits := fabsBits et (nth x 0) }

/-! ## Compare, class, conversion (R143–R147) -/

/-- The mask bits of elements below `stop`. -/
def cmpMask (w : Warp) (old : BitVec 1024) (mk : BitVec 3) (mz : Bool) (stop : Nat) (f : Nat → Bool) : BitVec 1024 :=
  maskResult { w with vl := min w.vl stop } old mk mz f

def execVfcmp (mk : BitVec 3) (mz : Bool) (cc : FCond) (et : ET) (d : BitVec 3) (a b : BitVec 6) (s : State) : Result :=
  guarded [vecOk s a et.width, vecOk s b et.width, vectorOnly s] s fun s => tolled s (s.warp.vl * 2) fun s =>
    let c (k : Nat) : Bool × Bool := fcondHolds cc (fVal et (vElem s et a k)) (fVal et (vElem s et b k))
    let g (k : Nat) : Elem := { bits := 0#32, flags := { nv := (c k).2 } }
    match trapElem s.warp mk g with
    | none =>
      (s.onWarp fun w =>
        { (w.setM d (maskResult w (w.readM d) mk mz fun k => (c k).1)).raise (elemStatus w mk w.vl g) with vstart := 0 }).advance
    | some (k, x) =>
      let s := s.onWarp fun w =>
        (w.setM d (cmpMask w (w.readM d) mk mz k fun k => (c k).1)).raise (elemStatus w mk k g)
      trapHere s (fpReport x k 0x20#8) k

def execVfclass (mk : BitVec 3) (mz : Bool) (et : ET) (d a : BitVec 6) (s : State) : Result :=
  vectorWord s [vecOk s a et.width] 2 .none d et.width mk mz fun s k => { bits := fclass (fmtOf et) (fVal et (vElem s et a k)) }

def execVcvt (mk : BitVec 3) (mz : Bool) (md : Mode) (nsat : Bool) (src et : ET) (d a : BitVec 6) (s : State) : Result :=
  vectorWord s [vecOk s a src.width] 2 .none d et.width mk mz fun s k =>
    let r := convert et md nsat (elemValue src (vElem s src a k))
    { bits := r.bits, flags := r.flags }

/-! ## Quantisation (R148–R150) -/

/-- The checks of the scale operand: block code 0, then the scale group (R136, R148). R32 and R148 do not say where reason 0x0A stands; it is tested behind the groups of source and destination, and before the scale group, which has no size without blocks, and reason 0x09 (log 60, DESIGN CHOICE). -/
def scaleOk (s : State) (r : BitVec 6) : List (Bool × IllegalReason) :=
  let b := blockLen (stripBlock s.warp)
  let g := max 1 (stripGroup s.warp * 16 / ((stripEt s.warp).width * b))
  [(b != 0, .noBlocks), (groupOk s r g, .register)]

/-- Scale element j of the group at a register. -/
def scaleElem (s : State) (r : BitVec 6) (j : Nat) : LaneWord := readElem s r 16 j

/-- What a block quantises to: its scale code, NV, SS, and for each element its bits and NX. -/
structure QuantBlock where
  scale : LaneWord
  nv : Bool := false
  ss : Bool := false
  elems : List (LaneWord × Bool)
  deriving DecidableEq, Repr

/-- The larger magnitude. -/
def maxMag (x y : Exact) : Exact := if x.lt y then y else x

/-- x / s for finite values, with a zero x keeping its sign. -/
def ratio (x s : Exact) : Exact :=
  match x, s with
  | .fin n m e, .fin _ ms es => if m == 0 then .fin n 0 0 else quotient n m e false ms es
  | .nan, _ => .nan
  | .inf n, _ => .inf n
  | .fin n _ _, .nan => .fin n 0 0
  | .fin n _ _, .inf _ => .fin n 0 0

/-- One element over its scale: the code and whether its value differs from the quotient. -/
def quantElem (et : ET) (s x : Exact) : LaneWord × Bool :=
  let q := ratio x s
  let r := rnd (fmtOf et) .rne (sat (fmtOf et) q)
  (r.bits, r.flags.nx || !(sat (fmtOf et) q == q))

/-- A block (R148): the elements are the values of its B positions, pad and missing ones +0. -/
def quantBlock (et : ET) (xs : List Exact) (live : Nat) : QuantBlock :=
  let zeros := xs.map fun _ => (0#32, false)
  if xs.any fun x => x.isNaN || x.isInf then { scale := (fmtOf .sc12).canonicalNaN, nv := true, elems := zeros }
  else
    let amax := (xs.map Exact.abs).foldl maxMag Exact.zero
    let top := (fmtOf et).magnitude (fmtOf et).maxCode
    let elemmax : Exact := .fin false top.1 top.2
    if amax.isZero then { scale := 0#32, elems := zeros }
    else
      let scale := cvtScale .ru (ratio amax elemmax)
      let big := (Exact.mul elemmax (Exact.ofInt 510)).1.lt amax
      let code := if big then 0xFFE#32 else scale.bits
      let sv := (fmtOf .sc12).value code
      { scale := code, ss := big,
        elems := xs.mapIdx fun i x => if i < live then quantElem et sv x else (0#32, false) }

/-- The blocks of a `VQNT`, from floor(vstart / B) to ceil(VL / B) − 1; none with vstart ≥ VL (R137). -/
def quantBlocks (w : Warp) (b : Nat) : List Nat := if w.vl ≤ w.vstart then [] else (List.range ((w.vl + b - 1) / b)).drop (w.vstart / b)

/-- The writes of one block: its scale, and its elements below VL. -/
def quantWrites (s : State) (et : ET) (d sc : BitVec 6) (b j : Nat) (q : QuantBlock) : List LaneWrite :=
  elemWrite s sc 16 j q.scale ::
    (q.elems.mapIdx fun i x => (j * b + i, x.1)).filterMap fun p =>
      if p.1 < s.warp.vl then some (elemWrite s d et.width p.1 p.2) else none

/-- The status of a block. -/
def QuantBlock.flags (q : QuantBlock) : FpFlags := { nv := q.nv, ss := q.ss, nx := q.elems.any (·.2) }

/-- The status bits of an element of a block: NV and SS are those of its first element (R135, R148). -/
def QuantBlock.elemFlags (q : QuantBlock) (i : Nat) : FpFlags :=
  { nv := q.nv && i == 0, ss := q.ss && i == 0, nx := (q.elems.getD i (0#32, false)).2 }

/-- The trap of a block: NV or SS at its first element, else NX at its lowest inexact element. -/
def QuantBlock.trap (q : QuantBlock) (fpctl : BitVec 6) : Option (Nat × FpFlags) :=
  if enabledTrap fpctl { nv := q.nv, ss := q.ss } then some (0, q.elemFlags 0)
  else if enabledTrap fpctl { nx := true } then (q.elems.findIdx? (·.2)).map fun i => (i, q.elemFlags i)
  else none

/-- A `VQNT` over the values that `x` gives. -/
def quantise (s : State) (et : ET) (d sc : BitVec 6) (x : Nat → Exact) : State :=
  let w := s.warp
  let b := blockLen (stripBlock w)
  let block (j : Nat) : QuantBlock :=
    quantBlock et ((List.range b).map fun i => if j * b + i < w.vl - w.vpad then x (j * b + i) else Exact.zero)
      (w.vl - w.vpad - j * b)
  let js := quantBlocks w b
  match js.find? fun j => ((block j).trap w.fpctl).isSome with
  | none =>
    let s := s.onWarp fun w =>
      (w.writeLanes (js.flatMap fun j => quantWrites s et d sc b j (block j))).raise
        (js.foldl (fun acc j => acc ||| (block j).flags.bits) 0#7)
    (s.onWarp fun w => { w with vstart := 0 }).advance
  | some j =>
    let before := js.filter (· < j)
    let s := s.onWarp fun w =>
      (w.writeLanes (before.flatMap fun j => quantWrites s et d sc b j (block j))).raise
        (before.foldl (fun acc j => acc ||| (block j).flags.bits) 0#7)
    match (block j).trap w.fpctl with
    | some (i, f) => trapHere s (fpReport f (j * b + i) 0x20#8) (j * b + i)
    | none => s

/-- Element k of the transpose of the eight registers at `a` (R149; 08_permute_and_reduce.md R175): row k mod 8, column floor(k / 8). -/
def transposed (s : State) (e : Nat) (a : BitVec 6) (k : Nat) : LaneWord :=
  readElem s a e (k % 8 * (s.w * 32 / e) + k / 8)

def execVqnt (tr : Bool) (src et : ET) (d a b : BitVec 6) (s : State) : Result :=
  guarded ([vecOk s d et.width, (groupSize s.warp src.width ≤ 8, .register),
      (if tr then groupOk s a 8 else groupOk s a (groupSize s.warp src.width), .register)] ++ scaleOk s b ++ [vectorOnly s]) s fun s => tolled s (s.warp.vl * 2) fun s =>
    quantise s et d b fun k => fVal src (if tr then transposed s src.width a k else vElem s src a k)

/-- One element times its scale (R150). -/
def dequantElem (src et : ET) (md : Mode) (y sc : LaneWord) : Elem :=
  let s := (fmtOf .sc12).value sc
  let v := fVal src y
  if s.isNaN || v.isNaN then roundElem et md (.nan, false) else roundElem et md (v.mul s)

def execVdqnt (mk : BitVec 3) (mz : Bool) (md : Mode) (src et : ET) (d a b : BitVec 6) (s : State) : Result :=
  vectorWord s (vecOk s a src.width :: scaleOk s b) 2 .none d et.width mk mz fun s k =>
    dequantElem src et md (vElem s src a k) (scaleElem s b (k / blockLen (stripBlock s.warp)))

end Sys2Proof.Machine
end

