-- ==== Sys2Proof/Machine/Atomic.lean ====
section
/-! DEFINITION. Atomics, the ordered reduction and the fence, 0xB0–0xB5 (11_atomics_and_ordering.md R246–R254). Every access performs at one moment (log 3, DESIGN CHOICE), so the orders of atomics and fences constrain nothing further here. -/
namespace Sys2Proof.Machine
open Sys2Proof

/-! ## One atomic (R247, R248) -/

/-- The low e bits of a register. -/
def lowBits (e : Nat) (v : Word) : Word := v &&& BitVec.ofNat 64 (2 ^ e - 1)

/-- The smaller or larger by two's-complement or unsigned value at width e. -/
def pickInt (e : Nat) (sg : Sgn) (largest : Bool) (x y : Word) : Word :=
  let lt := match sg with
    | .signed => (x <<< (64 - e)).slt (y <<< (64 - e))
    | .unsigned => x.ult y
  if lt == largest then y else x

/-- A floating operation on the low bits of two words. -/
def onFloats (f : LaneWord → LaneWord → LaneWord) (x y : Word) : Word := (f (x.setWidth 32) (y.setWidth 32)).setWidth 64

/-- The value written; none for `LD` (R247, Table 4). Both operands have e bits. -/
def atomValue (op : AtomOp) (et : ET) (md : Mode) (old b : Word) : Option Word :=
  match op with
  | .swap | .st => some b
  | .add => some (lowBits et.width (old + b))
  | .and => some (old &&& b)
  | .or => some (old ||| b)
  | .xor => some (old ^^^ b)
  | .mins => some (pickInt et.width .signed false old b)
  | .minu => some (pickInt et.width .unsigned false old b)
  | .maxs => some (pickInt et.width .signed true old b)
  | .maxu => some (pickInt et.width .unsigned true old b)
  | .fadd => some (onFloats (fun x y => (faddElem et md x y).bits) old b)
  | .fmin => some (onFloats (fpick et false) old b)
  | .fmax => some (onFloats (fpick et true) old b)
  | .ld => none

/-- What an atomic needs of its page (10_translation_and_faults.md R214). -/
def atomAccess : AtomOp → Access
  | .ld => .read
  | .st => .write
  | .swap | .add | .and | .or | .xor | .mins | .minu | .maxs | .maxu | .fadd | .fmin | .fmax => .readWrite

/-- What a request for an atomic asks: no trim for the scalar forms; each element is an atomic of its own (R249, R250). -/
def atomAsk (s : State) (acc : Access) (e : Nat) (trims : Bool) : Ask :=
  { s.ask acc e with trims := trims, atomic := true, each := true }

/-- A read-modify-write at an element's place: the old value, and the state with what `f` writes. -/
def atomAt (s : State) (e : Nat) (x : Elt × Loc) (f : Word → Option Word) : State × Word :=
  let old := loadElt s e x
  match f old with
  | some new => ((storeElt s e x new).onWarp fun w => dropAhead w [x.2.key], old)
  | none => (s, old)

/-- Elements performed one after another, with the old value of each. -/
def atomMany (e : Nat) (f : Nat → Word → Option Word) : List (Elt × Loc) → State → State × List (Nat × Word)
  | [], s => (s, [])
  | x :: rest, s =>
    let (s, old) := atomAt s e x (f x.1.k)
    let (s, olds) := atomMany e f rest s
    (s, (x.1.k, old) :: olds)

/-- An order of performance that is not fixed: each element is inserted at a free place (R252; log 5, DESIGN CHOICE). -/
def shuffle {α : Type} (draws : Nat) : List α → List α
  | [] => []
  | [x] => [x]
  | x :: y :: rest =>
    let r := shuffle (draws + 1) (y :: rest)
    r.insertIdx ((Config.freeWord draws).toNat % (r.length + 1)) x

/-- The value of s_d: sign-extended for INT32 (R248). -/
def atomResult (et : ET) (v : Word) : Word := if et == .int32 then (v.setWidth 32).signExtend 64 else v

/-! ## Scalar atomics, outside and inside lane mode -/

/-- A scalar atomic: the address in s_a, or one address for each lane (R248, R252). -/
def scalarAtomic (s : State) (fs : FSel) (acc : Access) (et : ET) (d a : BitVec 6) (regs : List (BitVec 6))
    (f : Word → Option Word) (lane : Nat → Word → Option Word) (writes : Bool) : Result :=
  let q := atomAsk s acc et.width false
  if s.warp.inLanes then
    guarded ([(et != .int64, .elementType), (groupOk s a 2, .register)] ++ (regs.map fun r => (regOk s r, .register)) ++
        [(fs == .none, .laneMode)]) s fun s =>
      laneAccess s q (laneElts s (laneAddr s a 0#16)) fun s oks =>
        let (s, olds) := atomMany et.width lane (shuffle s.draws oks) s
        if writes then s.onWarp fun w => w.writeLanes (olds.map fun o => laneWrite s d o.1 (o.2.setWidth 32)) else s
  else
    guarded [pendingOk s fs (if d = 0#6 then 0 else 1)] s fun s =>
      match planOf s q [{ k := 0, va := ((s.warp.readS a).toNat : Nat) }] with
      | .misses oks ms => parkAsked s q oks ms
      | .wait line oks => parkOnLine s q line oks
      | .run (x :: _) _ =>
        let (s, old) := atomAt s et.width x f
        (settle (if writes then s.bear fs (sResult d (atomResult et old)) else s) q.part [x]).fromStart.advance
      | .run [] (some (.error _ r)) => loadFault fs d s r
      | .run [] (some (.fault _ r)) => trapHere s r 0
      | .run [] (some (.trim _)) | .run [] none => s.advance

/-- Whether a destination register is written: not by `ST` (R247, R249). -/
def atomWrites : AtomOp → Bool
  | .st => false
  | .swap | .add | .and | .or | .xor | .mins | .minu | .maxs | .maxu | .fadd | .fmin | .fmax | .ld => true

def execAtom (fs : FSel) (op : AtomOp) (_ord : Ord4) (md : Mode) (et : ET) (d a b : BitVec 6) (s : State) : Result :=
  scalarAtomic s fs (atomAccess op) et d a [d, b]
    (fun old => atomValue op et md old (lowBits et.width (s.warp.readS b)))
    (fun l old => atomValue op et md old ((laneOf s b l).setWidth 64)) (atomWrites op)

/-- The new value of a compare and swap, by bit patterns. -/
def casValue (expected new old : Word) : Option Word := if old = expected then some new else none

def execCas (fs : FSel) (_ord : Ord4) (et : ET) (d a b c : BitVec 6) (s : State) : Result :=
  scalarAtomic s fs .readWrite et d a [d, b, c]
    (fun old => casValue (lowBits et.width (s.warp.readS b)) (lowBits et.width (s.warp.readS c)) old)
    (fun l old => casValue ((laneOf s b l).setWidth 64) ((laneOf s c l).setWidth 64) old) true

/-! ## Vector atomics (R249, R250) -/

/-- The zeros below a stop, and the old values: the destination elements of a vector atomic. -/
def atomWritesOf (s : State) (v : VecAccess) (d : BitVec 6) (mk : BitVec 3) (mz : Bool) (olds : List (Nat × Word)) (stop : Nat) :
    List LaneWrite :=
  zeroWrites s v d mk mz stop ++ olds.map fun o => elemWrite s d v.et.width o.1 (o.2.setWidth 32)

/-- A vector atomic after its checks at issue. -/
def vectorAtomic (s : State) (fs : FSel) (acc : Access) (v : VecAccess) (d : BitVec 6) (mk : BitVec 3) (mz : Bool)
    (f : Nat → Word → Option Word) (writes : Bool) : State :=
  tolled s s.warp.vl fun s =>
    let q := atomAsk s acc v.et.width true
    match planOf s q (v.live s.warp mk) with
    | .misses oks ms => parkAsked s q oks ms
    | .wait line oks => parkOnLine s q line oks
    | .run oks stop =>
      let bound := match stop with
        | none => s.warp.vl
        | some st => st.at
      let (s', olds) := atomMany v.et.width f oks s
      let o : Outstanding := { seq := 0, pc := 0#64, flag := none, dests := if writes then groupSize s.warp v.et.width else 0,
                               vWrites := if writes then atomWritesOf s v d mk mz olds bound else [] }
      let s' := settle s' q.part oks
      match stop with
      | none => (s'.bear fs o).fromStart.advance
      | some (.trim k) => ((s'.bear fs o).onWarp fun w => trimStrip w k).advance
      | some (.fault k r) => trapHere (s'.onWarp fun w => w.writeLanes o.vWrites) r k
      | some (.error k r) =>
        match fs with
        | .none => trapHere (s'.onWarp fun w => w.writeLanes o.vWrites) r k
        | .a | .b => (s'.bear fs { o with fault := some (r, k) }).fromStart.advance

def execVatom (fs : FSel) (mk : BitVec 3) (mz : Bool) (op : AtomOp) (_ord : Ord4) (md : Mode) (et : ET) (d a b c : BitVec 6) (s : State) :
    Result :=
  let dest : List (Bool × IllegalReason) := if atomWrites op then [vecOk s d et.width] else []
  let srcs : List (Bool × IllegalReason) := match op with
    | .ld => []
    | .swap | .add | .and | .or | .xor | .mins | .minu | .maxs | .maxu | .fadd | .fmin | .fmax | .st => [vecOk s b et.width]
  guarded (vecChecks s (dest ++ srcs ++ [vecOk s c 32]) fs (if atomWrites op then groupSize s.warp et.width else 0)) s fun s =>
    vectorAtomic s fs (atomAccess op) (indexedAccess s et ((s.warp.readS a).toNat : Nat) c) d mk mz
      (fun k old => atomValue op et md old ((vElem s et b k).setWidth 64)) (atomWrites op)

/-- The new values of `VCAS` stand G(e) registers after the expected ones (R249). -/
def vcasNew (s : State) (et : ET) (b : BitVec 6) (k : Nat) : LaneWord :=
  readElem s (b + BitVec.ofNat 6 (groupSize s.warp et.width)) et.width k

def execVcas (fs : FSel) (mk : BitVec 3) (mz : Bool) (_ord : Ord4) (et : ET) (d a b c : BitVec 6) (s : State) : Result :=
  let g := groupSize s.warp et.width
  let pair := b.toNat % (2 * g) == 0 && b.toNat + 2 * g ≤ s.r
  guarded (vecChecks s [vecOk s d et.width, (g ≤ 8 && pair, .register), vecOk s c 32] fs g) s fun s =>
    vectorAtomic s fs .readWrite (indexedAccess s et ((s.warp.readS a).toNat : Nat) c) d mk mz
      (fun k old => casValue ((vElem s et b k).setWidth 64) ((vcasNew s et b k).setWidth 64) old) true

/-! ## The ordered reduction (R253) -/

/-- The wait of `REDORD` is over: its turn has come, or has passed. -/
def turnReached (turn j : Nat) : Bool := turn = j || 2 ^ 31 ≤ (j + 2 ^ 32 - turn) % 2 ^ 32

/-- The cell after its add. -/
def reduceCell (md : Mode) (cell : Word) (v : LaneWord) : Word :=
  (cell.extractLsb' 32 32 + 1#32) ++ (faddElem .fp32 md (cell.setWidth 32) v).bits

/-- The warp waits for its turn at a cell, whose translation it has pinned (R253; 10 R219). -/
def parkOnCell (s : State) (q : Ask) (x : Elt × Loc) (turn : Nat) : State :=
  (settle s q.part [x]).onWarp fun w =>
    { w with park := .cell x.2.key x.2.kid turn, service := { w.service with pins := pinned s q [x] } }

def execRedord (md : Mode) (d a b c : BitVec 6) (s : State) : Result :=
  guarded [vectorOnly s] s fun s =>
    let q := atomAsk s .readWrite 64 false
    let j := (s.warp.readS c).toNat % 2 ^ 32
    match planOf s q [{ k := 0, va := ((s.warp.readS a).toNat : Nat) }] with
    | .misses oks ms => parkAsked s q oks ms
    | .wait line oks => parkOnLine s q line oks
    | .run (x :: _) _ =>
      let cell := loadElt s 64 x
      let turn := (cell.extractLsb' 32 32).toNat
      if !turnReached turn j then parkOnCell s q x j
      else if turn = j then
        let s' := (storeElt s 64 x (reduceCell md cell ((s.warp.readS b).setWidth 32))).onWarp fun w => dropAhead w [x.2.key]
        ((settle s' q.part [x]).onWarp fun w => w.writeS d 0#64).fromStart.advance
      else ((settle s q.part [x]).onWarp fun w => w.writeS d 1#64).fromStart.advance
    | .run [] (some (.fault _ r)) | .run [] (some (.error _ r)) => trapHere s r 0
    | .run [] (some (.trim _)) | .run [] none => s.advance

/-! ## Fences (R205, R254) -/

/-- A discarding event: the data that the stream engine has read ahead for load streams (R205). -/
def Warp.discardAhead (w : Warp) : Warp := { w with st := w.st.map fun x => if x.store then x else { x with ahead := [] } }

def execFence (kind : FenceKind) (_scope : Scope) (s : State) : Result :=
  match kind with
  | .rel => .next s.advance
  | .acq | .full => .next (s.onWarp Warp.discardAhead).advance

end Sys2Proof.Machine
end

