-- ==== Sys2Proof/Machine/Fetch.lean ====
section
/-! DEFINITION. Fetching a clause: the checks of its address, the instruction caches, the header and the words (04_scalar_and_flow.md R80; 02_words_and_registers.md R31, R32; 15_system_and_traps.md R342). -/
namespace Sys2Proof.Machine
open Sys2Proof

/-- What a fetch gives. -/
inductive Fetched (α : Type) where
  /-- It meets a miss, and the warp must wait for its service. -/
  | miss (m : Miss)
  /-- A line is held by an engine. -/
  | wait (line : Nat)
  /-- It fails: the trap, and the address it is met at. -/
  | fault (r : Report) (va : Int)
  | got (x : α) (s : State)

/-- A misformed-clause trap. -/
def misformed (r : ClauseReason) : Report := { cause := .misformed, info := r.code.setWidth 64 }

/-- The line of a partition that an instruction cache holds, when the fetch uses it (R342; log 8, DESIGN CHOICE). -/
def cachedWords (s : State) (part : BitVec 4) (line : Nat) : Option (List Word) :=
  match s.icache.find? fun c => c.part == part && c.line == line with
  | none => none
  | some c => if Config.usesFetched s.draws line then some c.words else none

/-- The words of a line of memory. -/
def lineWords (s : State) (key kid : Nat) : List Word :=
  (List.range 16).map fun i => BitVec.ofNat 64 (readLE s (key / 128 * 128 + 8 * i) kid 8)

/-- The instruction caches keep a line that was fetched; one they hold already stays. -/
def keepLine (s : State) (part : BitVec 4) (line : Nat) (ws : List Word) : State :=
  if s.icache.any fun c => c.part == part && c.line == line then s
  else { s with icache := { part := part, line := line, words := ws } :: s.icache }

/-- The pages whose service failed for the focused warp, at an unprivileged or privileged fetch. -/
def fetchAsk (s : State) (priv : Bool) : Ask :=
  { part := s.team.part, acc := .fetch, e := 64, priv := priv, trims := false, failed := s.warp.service.failed }

/-- ELEM of a fetch: in lane mode the lowest lane of the group that fetches, or, for an `ERET` that restores it, of the frozen group (10_translation_and_faults.md R222, R226). -/
def fetchElem (s : State) (priv : Bool) : Nat :=
  let frozen := if s.warp.intrap && !priv && s.warp.trapcause.getLsbD 9 then s.warp.frozen else none
  ((s.warp.lanes.or frozen).bind LaneMode.leader).getD 0

/-- The word at an aligned address. -/
def fetchWord (s : State) (priv : Bool) (va : Int) : Fetched Word :=
  let k := fetchElem s priv
  match checkFresh s (fetchAsk s priv) true { k := k, va := va } with
  | .fault r => .fault r va
  | .trim => .fault (accessReport 0x31#8 k va) va
  | .held line => .wait line
  | .miss m => .miss m
  | .ok l =>
    let line := va54 va / 128
    let i := va54 va % 128 / 8
    match cachedWords s s.team.part line with
    | some ws => .got (ws.getD i 0#64) s
    | none =>
      match absentIn s l.key 8 with
      | some held => .wait held
      | none =>
        if errorAt s l.key l.kid 8 then .fault (checkReport s { start := l.key, kid := l.kid, len := 8 } l.key k va) va
        else
          let ws := lineWords s l.key l.kid
          .got (ws.getD i 0#64) (keepLine (settle s s.team.part [({ k := 0, va := va }, l)]) s.team.part line ws)

/-- Words at consecutive addresses. -/
def fetchWords (priv : Bool) : Nat → Int → State → Fetched (List Word)
  | 0, _, s => .got [] s
  | n + 1, va, s =>
    match fetchWord s priv va with
    | .miss m => .miss m
    | .wait line => .wait line
    | .fault r a => .fault r a
    | .got w s =>
      match fetchWords priv n (va + 8) s with
      | .miss m => .miss m
      | .wait line => .wait line
      | .fault r a => .fault r a
      | .got ws s => .got (w :: ws) s

/-- The word at an address that a control transfer or `ERET` names: canonical, a multiple of 8, then the fetch (R80). -/
def fetchAt (s : State) (priv : Bool) (va : Int) : Fetched Word :=
  match canonicalFault va with
  | some r => .fault (canonReport r (fetchElem s priv) va) va
  | none => if va % 8 != 0 then .fault (misformed .target) va else fetchWord s priv va

/-- The header at a target: the checks of the address in R80's order, then conditions 2 to 7 of R32. -/
def fetchHeader (s : State) (priv : Bool) (va : Int) : Fetched Word :=
  match fetchAt s priv va with
  | .miss m => .miss m
  | .wait line => .wait line
  | .fault r a => .fault r a
  | .got w s =>
    match headerCheck va.toNat w with
    | some r => .fault (misformed r) va
    | none => .got w s

/-- A control transfer before the last word of a clause (R30; condition 8 of R32). -/
def misplaced (words : List Word) : Bool := (words.dropLast).any isTransfer

/-- A clause: its header and its words; a control transfer before the last word is found before any word issues. -/
def fetchClause (s : State) (priv : Bool) (va : Int) : Fetched (Word × List Word) :=
  match fetchHeader s priv va with
  | .miss m => .miss m
  | .wait line => .wait line
  | .fault r a => .fault r a
  | .got h s =>
    match fetchWords priv (Header.ofBits h).n.toNat (va + 8) s with
    | .miss m => .miss m
    | .wait line => .wait line
    | .fault r _ => .fault r va
    | .got ws s =>
      if misplaced ws then .fault { cause := .illegal, info := IllegalReason.position.code.setWidth 64 } va
      else .got (h, ws) s

end Sys2Proof.Machine
end

