-- ==== Sys2Proof/Machine/Array.lean ====
section
/-! DEFINITION. The CIM array of an M-core: how it keeps a B operand and how it multiplies it by the digit slices of A (13_matrix_grants_and_engine.md R297–R299). -/
namespace Sys2Proof.Machine
open Sys2Proof

/-! ## What a slot of the array holds (R297) -/

/-- The fraction bits of a type that its slot does not hold: the lowest of an FP16 element. -/
def restBits (bty : ET) : Nat := (fmtOf bty).mbits - 7

/-- The fraction bits below those that a type has, in a slot's 7. -/
def padBits (bty : ET) : Nat := 7 - (fmtOf bty).mbits

/-- The byte of the significand array: the sign and the leading 7 fraction bits, or the two's-complement bits sign-extended. -/
def sigByte (bty : ET) (x : LaneWord) : Byte :=
  if bty.isTileInt then BitVec.ofInt 8 (signedOf bty.width x)
  else
    let f := fmtOf bty
    BitVec.ofBool (x.getLsbD (f.ebits + f.mbits)) ++ BitVec.ofNat 7 (x.toNat % 2 ^ f.mbits * 2 ^ padBits bty / 2 ^ restBits bty)

/-- The sidecar byte of an element without a scale: the exponent field, above it the fraction bits that the slot does not hold. -/
def sidecarByte (bty : ET) (x : LaneWord) : Byte :=
  if bty.isTileInt then 0#8
  else
    let f := fmtOf bty
    BitVec.ofNat 8 (x.toNat / 2 ^ f.mbits % 2 ^ f.ebits + 2 ^ f.ebits * (x.toNat % 2 ^ restBits bty))

/-- The spare sidecar bits of an element. -/
def spareBits (bty : ET) : Nat := 8 - (fmtOf bty).ebits - restBits bty

/-- The bits of a block's scale in the spare bits of its element q: the block's elements hold it from its lowest bit on (log 80, DESIGN CHOICE). -/
def scalePart (bty : ET) (scale : LaneWord) (q : Nat) : Nat := scale.toNat % 4096 / 2 ^ (spareBits bty * q) % 2 ^ spareBits bty

/-- An element as its slot keeps it. -/
def arraySlot (bty : ET) (x : LaneWord) : ArraySlot := { sig := sigByte bty x, side := sidecarByte bty x }

/-- Element q of a scaled block as its slot keeps it. -/
def scaledSlot (bty : ET) (x scale : LaneWord) (q : Nat) : ArraySlot :=
  { sig := sigByte bty x, side := sidecarByte bty x + BitVec.ofNat 8 (scalePart bty scale q * 2 ^ (8 - spareBits bty)) }

/-- The fraction of the element that a slot keeps. -/
def ArraySlot.fraction (bty : ET) (c : ArraySlot) : Nat :=
  c.sig.toNat % 128 * 2 ^ restBits bty / 2 ^ padBits bty + c.side.toNat / 2 ^ (fmtOf bty).ebits % 2 ^ restBits bty

/-- The exponent field of the element that a slot keeps. -/
def ArraySlot.exponent (bty : ET) (c : ArraySlot) : Nat := c.side.toNat % 2 ^ (fmtOf bty).ebits

/-- The element that a slot keeps. -/
def ArraySlot.code (bty : ET) (c : ArraySlot) : LaneWord :=
  if bty.isTileInt then BitVec.ofNat 32 (c.sig.toNat % 2 ^ bty.width)
  else
    let f := fmtOf bty
    BitVec.ofNat 32 (c.sig.toNat / 128 * 2 ^ (f.ebits + f.mbits) + c.exponent bty * 2 ^ f.mbits + c.fraction bty)

/-- The significand that the column multiplies, with its sign: the hidden bit is 1 where the exponent field is nonzero (R297). -/
def ArraySlot.significand (bty : ET) (c : ArraySlot) : Int :=
  if bty.isTileInt then c.sig.toInt
  else
    let m : Nat := (if c.exponent bty = 0 then 0 else 2 ^ (fmtOf bty).mbits) + c.fraction bty
    if c.sig.msb then -m else m

/-- Bits [11:0] of the scale of a block from its slots, in order. -/
def scaleOfSlots (bty : ET) (cs : List ArraySlot) : LaneWord :=
  BitVec.ofNat 32 (((cs.mapIdx fun q c => c.side.toNat / 2 ^ (8 - spareBits bty) * 2 ^ (spareBits bty * q)).sum) % 4096)

/-! ## The macros and the column groups (R297) -/

/-- The array column of column j of an operand: its columns fill the enabled groups in order. -/
def columnPlace (groups : List Nat) (j : Nat) : Option Nat := (groups[j / 16]?).map fun g => 16 * g + j % 16

/-- The column of an operand at an array column; none in a mapped-out group. -/
def columnHeld (groups : List Nat) (col : Nat) : Option Nat := (groups.findIdx? (· == col / 16)).map fun i => 16 * i + col % 16

/-- The macro of an array slot, its row and its column in it. -/
def macroPlace (k col : Nat) : Nat × Nat × Nat := (k / 16 + 16 * (col / 64), k % 16, col % 64)

/-- The slot of an operand's element (k, j). -/
def Resident.slotOf (r : Resident) (k j : Nat) : ArraySlot := r.slots.getD (k * r.n + j) { sig := 0#8, side := 0#8 }

/-- What macro m holds at row i and column c: K row 16 · (m mod 16) + i and N column 64 · floor(m / 16) + c, zero beyond the operand's rows and columns and in a mapped-out group. -/
def Resident.macroSlot (r : Resident) (groups : List Nat) (m i c : Nat) : ArraySlot :=
  match columnHeld groups (64 * (m / 16) + c) with
  | some j => if 16 * (m % 16) + i < r.k && j < r.n then r.slotOf (16 * (m % 16) + i) j else { sig := 0#8, side := 0#8 }
  | none => { sig := 0#8, side := 0#8 }

/-- The block length of scales along K; 1 without blocks. -/
def blockUnit (blk : BitVec 3) : Nat := max 1 (blockLen blk.toNat)

/-- Every element and scale of an operand of k × n, as the array keeps it, row by row. -/
def arraySlots (bty : ET) (blk : BitVec 3) (n : Nat) (elems scales : List LaneWord) : List ArraySlot :=
  let bl := blockUnit blk
  elems.mapIdx fun p x =>
    if scaledType bty blk then scaledSlot bty x (scales.getD (p / n / bl * n + p % n) 0#32) (p / n % bl)
    else arraySlot bty x

/-- The elements of a resident operand, row by row. -/
def Resident.elems (r : Resident) : List LaneWord := r.slots.map (·.code r.bty)

/-- The scales of a resident operand, row by row. -/
def Resident.scales (r : Resident) : List LaneWord :=
  if scaledType r.bty r.blk then
    let bl := blockUnit r.blk
    (List.range (ceilDiv r.k bl)).flatMap fun b => (List.range r.n).map fun j =>
      scaleOfSlots r.bty ((List.range (min bl (r.k - bl * b))).map fun q => r.slotOf (bl * b + q) j)
  else []

/-! ## Digit slices (R298, Table 5) -/

/-- The weights of the digits of an A type, slice by slice. -/
def sliceWeights : ET → List Int
  | .bf16 => [128, 64, 32, 16, 8, 4, 2, 1]
  | .fp16 => [1024, 512, 256, 128, 64, 32, 16, 8, 4, 2, 1]
  | .e4m3 | .e5m2 => [8, 4, 2, 1]
  | .e2m1 => [2, 1]
  | .int8 => [1, 4, 16, 64]
  | .int4 => [-8, 4, 2, 1]
  | .int2 => [-2, 1]
  | .int32 | .uint32 | .int16 | .uint16 | .uint8 | .fp32 | .sc12 | .int64 => []

/-- The digit count b of an A type. -/
def digitsOf (aty : ET) : Nat := (sliceWeights aty).length

/-- Digit i of a radix-4 recoded INT8 element, one of −2, −1, 0, 1 and 2. -/
def radix4Digit (x : LaneWord) (i : Nat) : Int :=
  (if 0 < i && x.getLsbD (2 * i - 1) then 1 else 0) + (if x.getLsbD (2 * i) then 1 else 0) - (if x.getLsbD (2 * i + 1) then 2 else 0)

/-- Bits b − 1 down to 0 as digits. -/
def binaryDigits (b n : Nat) : List Int := (List.range b).reverse.map fun i => if n.testBit i then 1 else 0

/-- The significand of a floating element, the hidden bit included. -/
def fullSignificand (et : ET) (x : LaneWord) : Nat :=
  let f := fmtOf et
  (f.magnitude (x.toNat % 2 ^ (f.ebits + f.mbits))).1

/-- The digits of an element of A, slice by slice: the bits of its significand, without its sign; recoded radix-4 digits; or its two's-complement bits. -/
def sliceDigits (aty : ET) (x : LaneWord) : List Int :=
  if aty == .int8 then (List.range 4).map (radix4Digit x)
  else if aty.isTileInt then binaryDigits (digitsOf aty) x.toNat
  else binaryDigits (digitsOf aty) (fullSignificand aty x)

/-! ## The column (R299) -/

/-- The partial product of a K position after b slices: each digit-product at its digit's weight. -/
def partialProduct (aty bty : ET) (a : LaneWord) (c : ArraySlot) : Int :=
  (List.zipWith (fun w d => w * (d * c.significand bty)) (sliceWeights aty) (sliceDigits aty a)).sum

/-- The exact product of an element of A and an element of B that the array keeps: of two finite elements, their partial product with A's sign and both exponents. -/
def columnProduct (aty bty : ET) (a : LaneWord) (c : ArraySlot) : Exact :=
  match elemValue aty a, elemValue bty (c.code bty) with
  | .fin na _ ea, .fin nb _ eb => .fin (na != nb) (partialProduct aty bty a c).natAbs (ea + eb)
  | x, y => (x.mul y).1

end Sys2Proof.Machine
end

