-- ==== Sys2Proof/Machine/Copy.lean ====
section
/-! DEFINITION. Channels, shape records, boxes and the copy instructions 0xB8–0xBD at issue (12_copies.md R256–R276). -/
namespace Sys2Proof.Machine
open Sys2Proof

/-! ## Channels (R261, R275) -/

def Team.chan (t : Team) (ch : BitVec 4) : Channel := t.chans.get ch.toFin

def Team.setChan (t : Team) (ch : BitVec 4) (x : Channel) : Team := { t with chans := t.chans.set ch.toNat x ch.isLt }

/-- C rises to the lowest ID that has not completed, never past the error ID. -/
def Channel.rise : Nat → Channel → Channel
  | 0, x => x
  | fuel + 1, x =>
    let free := match x.err with
      | some e => x.c < e.eid
      | none => true
    if free && x.done.contains x.c then Channel.rise fuel { x with c := x.c + 1, done := x.done.filter (· != x.c) } else x

/-- An ID completes. -/
def Channel.complete (x : Channel) (id : Nat) : Channel :=
  let done := if id < x.c || x.done.contains id then x.done else id :: x.done
  Channel.rise (done.length + 1) { x with done := done }

/-- An error meets the channel: it is kept when the state is clear or holds a higher EID. -/
def Channel.fail (x : Channel) (e : ChannelError) : Channel :=
  match x.err with
  | none => { x with err := some e }
  | some old => if e.eid < old.eid then { x with err := some e } else x

/-- The error state cleared: EID counts as completed. -/
def Channel.clear (x : Channel) : Channel :=
  match x.err with
  | none => x
  | some e => Channel.complete { x with err := none } e.eid

def Channel.report (x : Channel) : Channel := { x with err := x.err.map fun e => { e with reported := true } }

/-- The copy fault (R274, Table 6). -/
def copyReport (elem : Nat) (ch : BitVec 4) (kind : Nat) (reason : BitVec 8) (va : Word) : Report :=
  { cause := .copy,
    info := BitVec.ofNat 64 (elem % 2 ^ 24 * 2 ^ 32 + ch.toNat * 2 ^ 28 + kind * 2 ^ 24 + reason.toNat), va := va }

/-- The copy fault that reports a channel error. -/
def errorReport (ch : BitVec 4) (e : ChannelError) : Report := copyReport e.elem ch 1 e.reason e.va

/-! ## Shape records (R257) -/

/-- Word n of the record in a register, and n bits of it. -/
def recordWord (s : State) (r : BitVec 6) (n : Nat) : LaneWord := laneOf s r n
def recordBits (s : State) (r : BitVec 6) (n lo len : Nat) : Nat := (recordWord s r n).toNat / 2 ^ lo % 2 ^ len

/-- A nonzero reserved field, or ET = 15 (reason 0x60). -/
def recordBad (s : State) (r : BitVec 6) : Bool :=
  recordBits s r 11 0 32 != 0 || recordBits s r 13 30 2 != 0 || recordBits s r 14 26 6 != 0 || recordBits s r 15 27 5 != 0 ||
    recordBits s r 15 0 4 == 15

/-- The shape in a register. -/
def shapeOf (s : State) (r : BitVec 6) : Shape :=
  { base := recordWord s r 1 ++ recordWord s r 0,
    lim := [2, 3, 4, 5, 6].map fun n => (recordWord s r n).toNat,
    str := [7, 8, 9, 10].map fun n => (recordWord s r n).toInt,
    trans := recordBits s r 15 25 1 == 1,
    fsel := recordBits s r 15 24 1 == 1,
    fill := BitVec.ofNat 16 (recordBits s r 15 8 16),
    sh := recordBits s r 15 4 4,
    et := ET.ofCode (BitVec.ofNat 4 (recordBits s r 15 0 4)),
    bale := recordBits s r 15 26 1 == 1 }

/-- BOX0 to BOX4. -/
def boxFields (s : State) (r : BitVec 6) : List Nat :=
  [recordBits s r 12 0 16, recordBits s r 12 16 16, recordBits s r 13 0 10, recordBits s r 13 10 10, recordBits s r 13 20 10]

/-- MCAST. -/
def mcastField (s : State) (r : BitVec 6) : Nat := recordBits s r 14 0 26

/-! ## Boxes (R258, R259, R263) -/

def Box.size (b : Box) : Nat := b.ext.foldl (· * ·) 1

/-- The box index of an element number. -/
def boxIndex : List Nat → Nat → List Nat
  | [], _ => []
  | b :: rest, k => k % max 1 b :: boxIndex rest (k / max 1 b)

/-- i0 + stride·(i1 + B1·(i2 + …)): the row number of an index. -/
def rowOf : List Nat → List Nat → Nat
  | b :: bs, i :: is => i + b * rowOf bs is
  | _, _ => 0

/-- The byte and bit of a box element's record side; none out of bounds. -/
def Box.record (b : Box) (k : Nat) : Option (Int × Nat) :=
  let i := boxIndex b.ext k
  let j := if b.shape.trans then (match i with
    | x :: y :: rest => y :: x :: rest
    | _ => i) else i
  if (j.zip b.shape.lim).all fun p => p.1 < p.2 then
    let bits := j.headD 0 * b.shape.et.width
    let rows := (((j.drop 1).zip b.shape.str).map fun p => (p.1 : Int) * p.2).sum
    some ((b.shape.base.toNat : Nat) + (bits / 8 : Nat) + rows * (2 ^ b.shape.sh : Nat), bits % 8)
  else none

/-- The byte and bit of a box element's dense side. -/
def Box.denseAt (b : Box) (k : Nat) : Int × Nat :=
  let i := boxIndex b.ext k
  let bits := i.headD 0 * b.shape.et.width
  ((b.dense + bits / 8 + b.pitch * rowOf (b.ext.drop 1) (i.drop 1) : Nat), bits % 8)

/-- The fill element (R259); `zero` for operand boxes. -/
def Shape.fillElem (x : Shape) (zero : Bool) : LaneWord :=
  if zero || !x.fsel then 0#32
  else if x.et.width = 32 then x.fill ++ 0#16
  else (x.fill.setWidth 32) &&& lowMask x.et.width

/-! ## Elements of a copy -/

/-- One element of a box copy: its number, type, what it reads (none: the fill), what it writes; an address that leaves the slices of a multicast is marked. -/
structure CopyElt where
  k : Nat
  et : ET
  read : Option (Int × Nat)
  fill : LaneWord
  writes : List (Int × Nat)
  outside : Bool := false
  deriving DecidableEq, Repr

/-- The destinations of a dense address: itself, or its offset in every named slice (R265). -/
def mcastAddrs (m : Option (List Nat)) (dense : Nat) (p : Int × Nat) : List (Int × Nat) :=
  match m with
  | none => [p]
  | some cs =>
    let off := p.1 - ((dense - Config.windowBase) / Config.sliceSpan * Config.sliceSpan + Config.windowBase : Nat)
    cs.map fun n => ((Config.windowBase + n * Config.sliceSpan : Nat) + off, p.2)

/-- A dense address beyond the backed bytes of its slice. -/
def mcastOutside (m : Option (List Nat)) (dense : Nat) (p : Int × Nat) : Bool :=
  m.isSome && (Config.sliceBytes : Int) ≤ p.1 - ((dense - Config.windowBase) / Config.sliceSpan * Config.sliceSpan + Config.windowBase : Nat)

/-- Element k of one box. -/
def boxElt (c : Copy) (b : Box) (base k : Nat) : CopyElt :=
  let zero := match c.kind with
    | .operandA | .operandB => true
    | .boxIn | .boxOut | .train _ _ => false
  let d := b.denseAt k
  let r := b.record k
  match c.kind with
  | .boxOut =>
    match r with
    | some p => { k := base + k, et := b.shape.et, read := some d, fill := 0#32, writes := [p] }
    | none => { k := base + k, et := b.shape.et, read := none, fill := 0#32, writes := [] }
  | .boxIn | .operandA | .operandB | .train _ _ =>
    { k := base + k, et := b.shape.et, read := r, fill := b.shape.fillElem zero, writes := mcastAddrs c.mcast b.dense d,
      outside := mcastOutside c.mcast b.dense d }

/-- Element number k of a copy: boxes are numbered one after another (R264). -/
def copyElt (c : Copy) : List Box → Nat → Nat → Option CopyElt
  | [], _, _ => none
  | b :: rest, base, k =>
    if k < b.size then some (boxElt c b base k) else copyElt c rest (base + b.size) (k - b.size)

/-- The element count of a copy. -/
def Copy.total (c : Copy) : Nat :=
  match c.kind with
  | .train _ _ => c.count
  | .boxIn | .boxOut | .operandA | .operandB => (c.boxes.map Box.size).sum

/-- The elements from `lo` up to `hi`. -/
def copyElts (c : Copy) (lo hi : Nat) : List CopyElt :=
  ((List.range hi).drop lo).filterMap fun k => copyElt c c.boxes 0 k

/-! ## Destination lines (R242, R268) -/

/-- What a copy asks of memory. -/
def copyAsk (c : Copy) (acc : Access) (e : Nat) : Ask :=
  { part := c.part, acc := acc, e := e, priv := c.priv, trims := false, failed := c.failed, pins := c.pins }

/-- A line for which the copy must wait: held by an engine other than itself, or by an earlier copy as well (R268). -/
def lineBlocked (s : State) (c : Copy) (line : Nat) : Bool :=
  (lineAbsent s line && !c.held.contains line) || (s.copies.any fun o => o.order < c.order && o.held.contains line) ||
    (keptLines s).any fun k => k.1 < c.order && k.2.contains line

/-- The state as the walks of a copy see it: they do not wait for the lines that it holds itself. -/
def copyView (s : State) (c : Copy) : State :=
  if c.held.isEmpty then s else setPresence s (c.held.filter fun l => !lineBlocked s c l)

/-- The check of an address of a copy. -/
def copyCheck (s : State) (c : Copy) (q : Ask) (x : Elt) : Check := checkFresh (copyView s c) q true x

/-- The checks of the addresses that elements write. -/
def destChecks (s : State) (c : Copy) (xs : List CopyElt) : List Check :=
  xs.flatMap fun x =>
    if x.outside then []
    else x.writes.map fun p => copyCheck s c (copyAsk c .write x.et.width) { k := x.k, va := p.1, bit := p.2 }

/-- The line of a place. -/
def Check.line : Check → Option Nat
  | .ok l => some (l.key / 128)
  | .miss _ | .trim | .fault _ | .held _ => none

/-- A translation that a change of the tables, or of a line, may still give. -/
def Check.open : Check → Bool
  | .miss _ | .held _ => true
  | .ok _ | .trim | .fault _ => false

/-- The lines that elements write, where the checks of the address give a place. -/
def destLines (s : State) (c : Copy) (xs : List CopyElt) : List Nat := ((destChecks s c xs).filterMap Check.line).eraseDups

/-- The lines that a copy's remaining elements write are held, so far as they have their places (R242, R268). -/
def holdLines (s : State) (c : Copy) : State × Copy :=
  let xs := copyElts c c.vstart c.total
  let lines := destLines s c xs
  (clearPresence s lines, { c with held := lines, unheld := (destChecks s c xs).any Check.open })

/-- The elements of a copy that have not performed. -/
def Copy.remaining (c : Copy) : List CopyElt := (copyElts c c.vstart c.total).filter fun x => !c.performed.contains x.k

/-- The lines of a copy's destination that have come to have their places since it issued are held (R242). -/
def holdLater (s : State) (r : CopyRef) : State :=
  match s.copies.find? fun c => c.ref == r with
  | none => s
  | some c =>
    if c.unheld && !c.finished then
      let fresh := (destLines s c c.remaining).filter fun l => !c.held.contains l
      let open' := (destChecks s c c.remaining).any Check.open
      { clearPresence s fresh with
        copies := s.copies.map fun x => if x.ref == r then { x with held := x.held ++ fresh, unheld := open' } else x }
    else s

/-- The same for every copy. -/
def holdAll (s : State) : State :=
  if s.copies.any fun c => c.unheld then (s.copies.map (·.ref)).foldl holdLater s else s

/-! ## Issue (R260, R261, R273) -/

/-- The contexts in use of the focused warp's Porter: a copy holds one from its issue to its completion (R256). -/
def porterBusy (s : State) : Nat := (s.copies.filter fun c => c.cluster = coreCluster s.warp.core).length

/-- What a copy instruction is made of when it issues: the checks of Table 5 with their reasons, in order, its flag, its destination register, its channel, the copy but for its identity, its toll. -/
structure CopyForm where
  faults : List (Bool × BitVec 8)
  fs : FSel
  d : BitVec 6
  ch : BitVec 4
  copy : Copy
  toll : Nat

/-- The copy issues: an ID, the destination register, the outstanding instruction, the held lines; an empty one completes at once (R261, R273). -/
def issueCopy (s : State) (f : CopyForm) : State :=
  let x := s.team.chan f.ch
  let ref : CopyRef := { team := s.team.tid, ch := f.ch, id := x.n }
  let c := { f.copy with ref := ref, order := s.nextCopy }
  let empty := c.total = 0
  let s := s.onTeam fun t => t.setChan f.ch (let x := { x with n := x.n + 1 }; if empty then x.complete ref.id else x)
  let s := s.onWarp fun w =>
    let w := w.writeS f.d (BitVec.ofNat 64 ref.id)
    { w with
      pending := w.pending ++ [{ seq := w.seq, pc := addrWord w.at.pc, home := w.at.hdr, flag := flagOf w.at f.fs, done := empty,
                                 copy := some ref }]
      seq := w.seq + 1 }
  if empty then s.advance
  else
    let (s, c) := holdLines s c
    { s with copies := s.copies ++ [c], nextCopy := s.nextCopy + 1 }.draw.advance

/-- A copy instruction after its decode checks: the checks of Table 5 in order, a free context, the toll gate, the issue (R256, R273; 01_machine.md R22). -/
def copyIssue (s : State) (f : CopyForm) : State :=
  match f.faults.find? (·.1) with
  | some (_, reason) => trapHere s (copyReport 0 f.ch 0 reason 0#64) s.warp.vstart
  | none => if 8 ≤ porterBusy s then s.parkOn .porter else tolled s f.toll fun s => issueCopy s f

/-- The Porter, or the toll gate, does not accept a copy now (04_scalar_and_flow.md R67). -/
def copyRefused (s : State) (f : CopyForm) : Bool := f.faults.all (fun x => !x.1) && (8 ≤ porterBusy s || !s.credit f.toll)

/-- The multicast clusters of a record: none for an ordinary copy. -/
def mcastOf (s : State) (r : BitVec 6) (dense : Nat) : Option (List Nat) :=
  if mcastField s r = 0 then none
  else
    let die := (dense - Config.windowBase) / Config.sliceSpan / 26
    some (((List.range 26).filter fun i => mcastField s r / 2 ^ i % 2 = 1).map (26 * die + ·))

/-- A multicast that R265 rejects. -/
def mcastBad (s : State) (r : BitVec 6) (dense : Nat) (allowed : Bool) : Bool :=
  match mcastOf s r dense with
  | none => false
  | some cs => !allowed || !inWindow dense || cs.any fun n => !clusterOn s n

/-- The bytes of a row of n elements of width e. -/
def rowBytes (n e : Nat) : Nat := ceilDiv (n * e) 8

/-- A copy of the focused warp, before it has an identity. -/
def newCopy (s : State) (kind : CopyKind) : Copy :=
  { ref := { team := s.team.tid, ch := 0#4, id := 0 }, kind := kind, cluster := coreCluster s.warp.core, part := s.team.part,
    priv := s.warp.intrap, boxes := [] }

/-- The channel's own conditions (0x63, 0x64). -/
def channelFaults (s : State) (ch : BitVec 4) : List (Bool × BitVec 8) :=
  [((s.team.chan ch).err.isSome, 0x63#8), ((s.team.chan ch).n = 2 ^ 48 - 1, 0x64#8)]

/-- The form of a `CPYBOX`. -/
def boxForm (s : State) (fs : FSel) (kind : CopyKind) (d a b c : BitVec 6) (ch : BitVec 4) : CopyForm :=
  let shape := shapeOf s a
  let ext := boxFields s a
  let pitch := (s.warp.readS c).toNat
  let dense := (s.warp.readS b).toNat
  let box : Box := { shape := shape, dense := dense, pitch := pitch, ext := ext }
  { faults :=
      [(recordBad s a, 0x60#8),
       (2 ^ 24 < box.size || pitch < rowBytes (ext.headD 0) shape.et.width || pitch % 4 != 0, 0x61#8)] ++
      channelFaults s ch ++ [(mcastBad s a dense (kind == .boxIn), 0x65#8)]
    fs := fs, d := d, ch := ch
    copy := { newCopy s kind with boxes := [box], mcast := mcastOf s a dense }
    toll := ceilDiv (rowBytes box.size shape.et.width) 64 }

/-- `CPYBOX` in either direction (R263). -/
def cpybox (s : State) (fs : FSel) (kind : CopyKind) (d a b c : BitVec 6) (ch : BitVec 4) : Result :=
  guarded [(regOk s a, .register), vectorOnly s] s fun s => copyIssue s (boxForm s fs kind d a b c ch)

def execCpyboxIn (fs : FSel) (d a b c : BitVec 6) (ch : BitVec 4) (s : State) : Result := cpybox s fs .boxIn d a b c ch

def execCpyboxOut (fs : FSel) (d a b c : BitVec 6) (ch : BitVec 4) (s : State) : Result := cpybox s fs .boxOut d a b c ch

/-! ## Operand copies (R263, R264, R272) -/

/-- The tile-disabled trap (13_matrix_grants_and_engine.md R288): the slot and the reason in TRAPINFO. -/
def tileDisabled (slot : Nat) (reason : BitVec 8) : Report :=
  { cause := .tileDisabled, info := BitVec.ofNat 64 (slot % 8 * 256 + reason.toNat) }

/-- The BOX fields that an operand record must hold. -/
def operandBoxes (s : State) (r : BitVec 6) : Bool := boxFields s r == [0, 0, 1, 1, 1]

/-- The element box and, when scaled, the scale box of an operand (R263, Table 3; R264). -/
def operandBoxesOf (s : State) (a : BitVec 6) (dense : Nat) (isA : Bool) (g : Grant) : List Box :=
  let et := if isA then g.aty else g.bty
  let ext := if isA then [g.k, g.m, 1, 1, 1] else [g.n, g.k, 1, 1, 1]
  let pitch := ceilDiv (rowBytes (ext.headD 0) et.width) 64 * 64
  let rows := ext.getD 1 0
  let box : Box := { shape := shapeOf s a, dense := dense, pitch := pitch, ext := ext }
  if scaledType et g.blk then
    let bl := blockLen g.blk.toNat
    let sext := if isA then [ceilDiv g.k bl, g.m, 1, 1, 1] else [g.n, ceilDiv g.k bl, 1, 1, 1]
    [box, { shape := shapeOf s (a + 1#6), dense := dense + rows * pitch, pitch := ceilDiv (2 * sext.headD 0) 64 * 64, ext := sext }]
  else [box]

/-- The conditions of reason 0x62 on a granted slot. -/
def operandBad (s : State) (a : BitVec 6) (isA : Bool) (g : Grant) : Bool :=
  let et := if isA then g.aty else g.bty
  (shapeOf s a).et != et || !operandBoxes s a ||
    (scaledType et g.blk && (!(a.toNat + 1 < s.r) || (shapeOf s (a + 1#6)).et != .sc12 || !operandBoxes s (a + 1#6)))

/-- The record conditions of reason 0x60 of an operand copy. -/
def operandRecordBad (s : State) (a : BitVec 6) (isA : Bool) (g : Option Grant) : Bool :=
  recordBad s a ||
    (match g with
     | some g => scaledType (if isA then g.aty else g.bty) g.blk && a.toNat + 1 < s.r && recordBad s (a + 1#6)
     | none => false)

def Team.slot (t : Team) (n : BitVec 3) : Slot := t.slots.get n.toFin

def Team.setSlot (t : Team) (n : BitVec 3) (x : Slot) : Team := { t with slots := t.slots.set n.toNat x n.isLt }

/-- A slot number below TILES (13 R280). -/
def slotOk (s : State) (t : BitVec 3) : Bool × IllegalReason := (t.toNat < s.team.launch.tiles, .register)

/-- The bytes that the toll of a box copy counts: the element box, and two for each element of the scale box (17_cryogenic_and_power.md R375). -/
def tollBytes (boxes : List Box) : Nat :=
  match boxes with
  | [] => 0
  | b :: scales => rowBytes b.size b.shape.et.width + 2 * (scales.map Box.size).sum

/-- The form of a `CPYA` or `CPYB`. -/
def operandForm (s : State) (fs : FSel) (isA : Bool) (t : BitVec 3) (d a b : BitVec 6) (ch : BitVec 4) : CopyForm :=
  let dense := (s.warp.readS b).toNat
  let grant := (s.team.slot t).grant
  let boxes := match grant with
    | some g => operandBoxesOf s a dense isA g
    | none => []
  { faults :=
      [(operandRecordBad s a isA grant, 0x60#8),
       (boxes.any fun x => 2 ^ 24 < x.size, 0x61#8),
       (match grant with
        | some g => operandBad s a isA g
        | none => true, 0x62#8)] ++
      channelFaults s ch ++
      [(mcastBad s a dense true, 0x65#8), (!inWindow dense || dense % 64 != 0, 0x66#8)]
    fs := fs, d := d, ch := ch
    copy := { newCopy s (if isA then .operandA else .operandB) with boxes := boxes, mcast := mcastOf s a dense }
    toll := ceilDiv (tollBytes boxes) 64 }

/-- `CPYA` and `CPYB`. -/
def operandCopy (s : State) (fs : FSel) (isA : Bool) (t : BitVec 3) (d a b : BitVec 6) (ch : BitVec 4) : Result :=
  guarded [(regOk s a, .register), slotOk s t, vectorOnly s] s fun s =>
    if !s.team.tiles then trapHere s (tileDisabled t.toNat 0x71#8) s.warp.vstart
    else copyIssue s (operandForm s fs isA t d a b ch)

def execCpya (fs : FSel) (t : BitVec 3) (d a b : BitVec 6) (ch : BitVec 4) (s : State) : Result := operandCopy s fs true t d a b ch

def execCpyb (fs : FSel) (t : BitVec 3) (d a b : BitVec 6) (ch : BitVec 4) (s : State) : Result := operandCopy s fs false t d a b ch

/-! ## Trains (R277) -/

/-- The form of a `CPYTRAIN`. -/
def trainForm (s : State) (fs : FSel) (op : TrainOp) (et : ET) (d a b : BitVec 6) (ch : BitVec 4) : CopyForm :=
  let list := (s.warp.readS a).toNat
  let count := (s.warp.readS b).toNat
  { faults := (list % 16 != 0 || 2 ^ 24 < count, 0x61#8) :: channelFaults s ch
    fs := fs, d := d, ch := ch, copy := { newCopy s (.train op et) with list := list, count := count }, toll := count }

def execCpytrain (fs : FSel) (op : TrainOp) (et : ET) (d a b : BitVec 6) (ch : BitVec 4) (s : State) : Result :=
  guarded [vectorOnly s] s fun s => copyIssue s (trainForm s fs op et d a b ch)

/-! ## Channels read and awaited (R270, R271) -/

/-- A copy fault that reports a channel error: the error counts as reported once the trap is taken. -/
def reportError (s : State) (ch : BitVec 4) (e : ChannelError) : State :=
  trapHere (if trapTaken s then s.onTeam fun t => t.setChan ch (t.chan ch).report else s) (errorReport ch e) s.warp.vstart

/-- An ID for which the channel's error is reported: at or above EID. -/
def errorFor (x : Channel) (id : Nat) : Option ChannelError := x.err.bind fun e => if e.eid ≤ id then some e else none

def execCwait (a : BitVec 6) (ch : BitVec 4) (s : State) : Result :=
  guarded [vectorOnly s] s fun s =>
    preemptPoint s false fun s =>
      let id := (s.warp.readS a).toNat
      let x := s.team.chan ch
      if id < x.c then (s.onWarp Warp.discardAhead).advance
      else
        match errorFor x id with
        | some e => reportError s ch e
        | none => s.parkOn (.copy ch id)

/-- The value of `CSTAT.ERR`. -/
def errWord (x : Channel) : Word :=
  match x.err with
  | none => 0#64
  | some e => BitVec.ofNat 64 (2 ^ 63 + e.reason.toNat * 2 ^ 48 + e.eid % 2 ^ 48)

def execCstat (sel : CstatSel) (d a : BitVec 6) (ch : BitVec 4) (s : State) : Result :=
  guarded [vectorOnly s] s fun s =>
    let x := s.team.chan ch
    let put (s : State) (v : Word) : State := (s.onWarp fun w => w.writeS d v).advance
    match sel with
    | .id =>
      match errorFor x (s.warp.readS a).toNat with
      | some e => reportError s ch e
      | none => put s (if (s.warp.readS a).toNat < x.c then 1#64 else 0#64)
    | .c => put s (BitVec.ofNat 64 x.c)
    | .next => put s (BitVec.ofNat 64 x.n)
    | .err => put (s.onTeam fun t => t.setChan ch x.report) (errWord x)

def execCstatClr (d : BitVec 6) (ch : BitVec 4) (s : State) : Result :=
  guarded [vectorOnly s] s fun s =>
    let x := s.team.chan ch
    ((s.onTeam fun t => t.setChan ch x.clear).onWarp fun w => w.writeS d (errWord x)).advance

end Sys2Proof.Machine
end

