-- ==== Sys2Proof/Machine/Waybill.lean ====
section
/-! DEFINITION. The waybill: entries, the record ring, the follow array and the replay-divergence trap (15_system_and_traps.md R351–R354; 18_host_link_and_management.md R438). -/
namespace Sys2Proof.Machine
open Sys2Proof

/-- CLASS of Tables 5 and 9: 1 M-core, 2 E-core (R336, R352). -/
def classCode : CoreClass → Nat
  | .m => 1
  | .e => 2

/-- The 32 bytes of an entry (R352, Table 9). -/
def WaybillEntry.bytes (e : WaybillEntry) (seq : Nat) : List Byte :=
  leBytes 8 seq ++ leBytes 8 (e.lin % 2 ^ 32 * 2 ^ 32 + e.kernel.toNat) ++
    leBytes 8 (e.slot % 16 * 2 ^ 40 + e.event % 256 * 2 ^ 32 + e.warp % 64 * 2 ^ 24 + classCode e.cls * 2 ^ 16 + e.core % 65536) ++
    leBytes 8 e.value.toNat

/-- A waybill ring that takes entries (R351, R353). -/
def wbEnabled (p : Partition) : Bool := p.wbr.en && 1 ≤ p.wbr.log && p.wbr.log ≤ 24

/-- Entries that wait are written oldest first while the ring has room; a full ring raises the waybill-full interrupt (R353), and a failed write stops the ring with an entry of kind 9 (R438). -/
def drainWaybill : Nat → State → BitVec 4 → State
  | 0, s, _ => s
  | fuel + 1, s, p =>
    let q := partOf s p
    match q.wbWait with
    | [] => s
    | e :: rest =>
      if q.wbr.stopped then s
      else if q.wbr.room 24 = 0 then interrupt s p 8
      else if heldLine s (q.wbr.place 32) 32 then s
      else
        match physWrite s (q.wbr.place 32) (e.bytes q.wbSeq) with
        | none =>
          recordError (onPart (metLines s (q.wbr.place 32) 0 32) p fun q => { q with wbr := { q.wbr with stopped := true } }) p
            { kind := 9#8, addr := BitVec.ofNat 64 (q.wbr.place 32), value := 3#32 }
        | some s =>
          drainWaybill fuel
            (onPart s p fun q => { q with wbWait := rest, wbSeq := q.wbSeq + 1, wbr := { q.wbr with tail := q.wbr.tail + 1#32 } }) p

/-- An entry of a grid with RRECORD is appended (R353). -/
def logEntry (s : State) (e : WaybillEntry) : State :=
  if s.team.launch.rrecord then
    let p := s.team.part
    let s := onPart s p fun q => { q with wbWait := q.wbWait ++ [e] }
    drainWaybill (partOf s p).wbWait.length s p
  else s

/-- An entry for the focused team, and for a warp of it. -/
def teamEntry (s : State) (event warp slot : Nat) (value : Word) : WaybillEntry :=
  { lin := s.team.lin, kernel := s.team.launch.kernelId, slot := slot, event := event, warp := warp,
    cls := s.team.site.cls, core := s.team.site.num, value := value }

/-- An event of the focused warp is logged and counted; the warp is not ready while an entry waits for room (R353, R354). -/
def logWarp (s : State) (event slot : Nat) (value : Word) : State :=
  let s := s.onWarp fun w => { w with events := w.events.modify event (· + 1) }
  let s := logEntry s (teamEntry s event s.warp.idx slot value)
  if s.team.launch.rrecord && !s.part.wbWait.isEmpty then s.parkOn .waybill else s

/-! ## The follow array (R354) -/

/-- What a scan of the follow array finds: the entry's three words after SEQ, or nothing, or a failed read. -/
inductive Follow where
  | found (place value : Nat)
  | missing
  | failed (pa : Nat)
  /-- An engine holds the line that is read next (11_atomics_and_ordering.md R242). -/
  | held (line : Nat)
  deriving DecidableEq, Repr

/-- A reserved field of an entry's third word is nonzero: the entry is no entry (R352; 00_scope.md R6). -/
def placeReserved (place : Nat) : Bool := place / 2 ^ 44 != 0 || place / 2 ^ 30 % 4 != 0 || place / 2 ^ 18 % 64 != 0

/-- The n-th entry of the array with a kernel, team, warp and one of some kinds; an entry with a nonzero reserved field is passed over and does not count as one of them (log 72, DESIGN CHOICE). -/
def followScan (s : State) (base kernel lin warp : Nat) (kinds : List Nat) : Nat → Nat → Nat → Follow
  | 0, _, _ => .missing
  | fuel + 1, i, n =>
    match absentIn s (base + 32 * i) 32, physRead s (base + 32 * i) 32 with
    | some line, _ => .held line
    | none, none => .failed (base + 32 * i)
    | none, some bs =>
      let id := leValue ((bs.drop 8).take 8)
      let place := leValue ((bs.drop 16).take 8)
      let hit := !placeReserved place && id == lin * 2 ^ 32 + kernel && place / 2 ^ 24 % 64 == warp && kinds.contains (place / 2 ^ 32 % 256)
      if hit then
        (if n = 0 then .found place (leValue (bs.drop 24)) else followScan s base kernel lin warp kinds fuel (i + 1) (n - 1))
      else followScan s base kernel lin warp kinds fuel (i + 1) n

/-- The follow-array entry of the focused team's next event of some kinds, after `n` earlier ones. -/
def follow (s : State) (warp n : Nat) (kinds : List Nat) : Follow :=
  followScan s s.part.wbfbase.toNat s.team.launch.kernelId.toNat s.team.lin warp kinds s.part.wbfcount.toNat 0 n

/-- TRAPINFO of the replay-divergence trap (R354, Table 4). -/
def divergence (event : Nat) (reason : BitVec 8) : Report :=
  { cause := .replay, info := BitVec.ofNat 64 (event * 256 + reason.toNat) }

/-- A failed read of the follow array leaves its event without an entry, and an entry of kind 9 (R438); its error has been met. -/
def followFailed (s : State) (pa : Nat) : State :=
  recordError (metLines s pa 0 32) s.team.part { kind := 9#8, addr := BitVec.ofNat 64 pa, value := 4#32 }

/-- A grant under RFOLLOW: the logged value, unless the entry is missing, or `refused` names why the value cannot be granted; without RFOLLOW the value computed (R156, R294, R111, R354). -/
def followed (s : State) (event : Nat) (own : Word) (refused : Nat → Option (BitVec 8)) (k : State → Word → State) : State :=
  if s.team.launch.rfollow then
    match follow s s.warp.idx (s.warp.events.getD event 0) [event] with
    | .found _ v =>
      match refused v with
      | some r => trapHere s (divergence event r) s.warp.vstart
      | none => k s (BitVec.ofNat 64 v)
    | .missing => trapHere s (divergence event 0x81#8) s.warp.vstart
    | .failed pa => trapHere (followFailed s pa) (divergence event 0x81#8) s.warp.vstart
    | .held line => s.parkOn (.presence line)
  else k s own

end Sys2Proof.Machine
end

