-- ==== Sys2Proof/Machine/Porter.lean ====
section
/-! DEFINITION. The Porter: segments, faults and manifests of copies, arrival of lines, trains and completion (12_copies.md R262–R278; 11_atomics_and_ordering.md R242–R245). -/
namespace Sys2Proof.Machine
open Sys2Proof

/-! ## Copies by reference -/

def findCopy (s : State) (r : CopyRef) : Option Copy := s.copies.find? fun c => c.ref == r

def setCopy (s : State) (c : Copy) : State := { s with copies := s.copies.map fun x => if x.ref == c.ref then c else x }

/-- The team of a copy is in place. -/
def copyPlaced (s : State) (c : Copy) : Bool := (allTeams s).any fun t => t.tid == c.ref.team && t.status == .running

/-! ## Segments (R267) -/

/-- The pages outside the window that some addresses touch. -/
def pagesOf (as : List Int) : List Nat := (as.filter fun a => !inWindow (va54 a)).map pageOf

/-- The end of the segment that starts at `k`: the element before the one that would bring the pages above 64. -/
def segmentEnd (pages : Nat → List Nat) : Nat → Nat → List Nat → Nat
  | 0, k, _ => k
  | fuel + 1, k, seen =>
    let now := (seen ++ pages k).eraseDups
    if 64 < now.length then k else segmentEnd pages fuel (k + 1) now

/-- The addresses that element k of a box copy touches. -/
def eltAddrs (c : Copy) (k : Nat) : List Int :=
  match copyElt c c.boxes 0 k with
  | some x => (match x.read with
      | some p => [p.1]
      | none => []) ++ x.writes.map (·.1)
  | none => []

/-! ## Checks of an element (R275) -/

/-- An element of a copy with its places. -/
structure Ready where
  k : Nat
  et : ET
  src : Option (Elt × Loc)
  fill : LaneWord := 0#32
  dst : List (Elt × Loc)
  deriving DecidableEq, Repr

/-- What the checks of one element's accesses give, in order: places, misses, the first fatal fault. -/
structure Places where
  locs : List (Elt × Loc) := []
  misses : List Miss := []
  fault : Option Report := none
  /-- A walk waits for a held line. -/
  held : Bool := false
  deriving DecidableEq, Repr

/-- Addresses of a copy checked under one kind of access; nothing is checked after a fatal fault. -/
def placesOf (s : State) (c : Copy) (q : Ask) : List Elt → Places → Places
  | [], p => p
  | x :: rest, p =>
    if p.fault.isSome then p
    else
      match copyCheck s c q x with
      | .ok l => placesOf s c q rest { p with locs := p.locs ++ [(x, l)] }
      | .miss m => placesOf s c q rest { p with misses := p.misses ++ [m] }
      | .held _ => placesOf s c q rest { p with held := true }
      | .trim => { p with fault := some (accessReport 0x31#8 x.k x.va) }
      | .fault r => { p with fault := some r }

/-- The checks of a segment: the elements ready, the misses, the first element with a fatal fault; and whether a walk waits. -/
structure SegmentProbe where
  ready : List Ready := []
  misses : List Miss := []
  fault : Option (Nat × Report) := none
  held : Bool := false
  deriving DecidableEq, Repr

/-- An element's record or dense addresses as elements of an access. -/
def asElt (k : Nat) (p : Int × Nat) : Elt := { k := k, va := p.1, bit := p.2 }

/-- The elements of a segment in ascending order, up to the first fatal fault. -/
def probeElts (s : State) (c : Copy) : List CopyElt → SegmentProbe → SegmentProbe
  | [], p => p
  | x :: rest, p =>
    if x.outside then { p with fault := some (x.k, accessReport 0x31#8 x.k ((x.writes.headD (0, 0)).1)) }
    else
      let e := x.et.width
      let src := placesOf s c (copyAsk c .read e) (x.read.toList.map (asElt x.k)) {}
      let dst := placesOf s c (copyAsk c .write e) (x.writes.map (asElt x.k)) { fault := src.fault, held := src.held }
      match dst.fault with
      | some r => { p with fault := some (x.k, r) }
      | none =>
        probeElts s c rest
          { p with
            ready := p.ready ++ [{ k := x.k, et := x.et, src := src.locs.head?, fill := x.fill, dst := dst.locs }]
            misses := p.misses ++ src.misses ++ dst.misses
            held := p.held || dst.held }

/-! ## Reading (R199, R243, R269) -/

/-- A source line that the copy has read. -/
def Copy.line (c : Copy) (l : Loc) : Option ReadLine := c.buffer.find? fun b => b.line == l.key / 128 && b.kid == l.kid

/-- A source line as one read finds it. -/
def readLine (s : State) (l : Loc) : ReadLine :=
  let a := l.key / 128 * 128
  { line := l.key / 128, kid := l.kid, bytes := readBytes s a l.kid 128,
    bad := if linkDown s a then List.range 128 else if quiet s then [] else (List.range 128).filter fun i => errorByte s (a + i) l.kid }

/-- The n bytes of a place could not be read. -/
def ReadLine.fails (b : ReadLine) (l : Loc) (n : Nat) : Bool := (List.range n).any fun i => b.bad.contains (l.key % 128 + i)

/-- The bits of an element in a line that has been read. -/
def ReadLine.elem (b : ReadLine) (e : Nat) (x : Elt × Loc) : Word :=
  BitVec.ofNat 64 (leValue ((b.bytes.drop (x.2.key % 128)).take (eltBytes e)) / 2 ^ x.1.bit % 2 ^ e)

/-- The copy takes a place's bale in its stored form: its shape record asks for it, the page has it, and the form is compressed (16_bales.md R363). -/
def Copy.takesBale (s : State) (c : Copy) (l : Loc) : Bool :=
  l.bale && regionOf s l.key == .dram && 1 ≤ formOf s (l.key / 2048) && formOf s (l.key / 2048) ≤ 7 && c.boxes.any fun b => b.shape.bale

/-- The lines that one read of a place takes: its own, or those of the whole bale that the copy has yet to read and that no engine holds (R363, R365). -/
def Copy.takes (s : State) (c : Copy) (l : Loc) : List ReadLine :=
  let one := readLine s l
  if c.takesBale s l then
    let others := (List.range 16).map fun i => { l with key := l.key / 2048 * 2048 + 128 * i }
    one :: (others.filter fun m => m.key / 128 != l.key / 128 && (c.line m).isNone && !lineBlocked s c (m.key / 128)).map (readLine s)
  else [one]

/-- What reading a place gives: the copy with its line, or a line for which it must wait. -/
def Copy.read (s : State) (c : Copy) (l : Loc) : Option (Copy × ReadLine) :=
  match c.line l with
  | some b => some (c, b)
  | none =>
    if lineBlocked s c (l.key / 128) then none
    else some ({ c with buffer := c.takes s l ++ c.buffer }, readLine s l)

/-- The bytes that some elements write. -/
def readyCovers (rs : List Ready) (a : Nat) : Bool :=
  [2, 4, 8, 16, 32].any fun e => coversByte e ((rs.filter fun r => r.et.width = e).flatMap (·.dst)) a

/-- An uncorrectable error in a destination line or bale that the segment does not write whole. -/
def targetError (s : State) (c : Copy) (covered : Nat → Bool) (r : Ready) : Option Report :=
  (r.dst.find? fun x => writeError s x.2 x.2.atMemory covered).map fun x => eltReport s (copyAsk c .write r.et.width) { x with 1.k := r.k }

/-- One element read and checked: the copy with what it has read, and the report if the element fails; none while its line is held. -/
def clearOne (s : State) (c : Copy) (covered : Nat → Bool) (r : Ready) : Option (Copy × Option Report) :=
  match r.src with
  | none => some (c, targetError s c covered r)
  | some x =>
    (Copy.read s c x.2).map fun (c, b) =>
      (c, if b.fails x.2 (eltBytes r.et.width) then some (eltReport s (copyAsk c .read r.et.width) x) else targetError s c covered r)

/-- Elements read and checked in ascending order, as far as their lines are there. -/
def clearElts (s : State) (covered : Nat → Bool) : List Ready → Copy → Copy
  | [], c => c
  | r :: rest, c =>
    match clearOne s c covered r with
    | none => c
    | some (c, none) => clearElts s covered rest { c with cleared := r.k + 1 }
    | some (c, some rep) => { c with failing := some (r.k, rep) }

/-! ## Performing (R242, R267) -/

/-- The value that an element writes. -/
def Copy.value (c : Copy) (r : Ready) : Word :=
  stored r.et (match r.src with
    | none => r.fill.setWidth 64
    | some x => ((c.line x.2).map fun b => b.elem r.et.width x).getD 0#64)

def writeValues (c : Copy) : List Ready → State → State
  | [], s => s
  | r :: rest, s => writeValues c rest (r.dst.foldl (fun s x => storeElt s r.et.width x (c.value r)) s)

/-- An element of a copy that lies in a bale of local DRAM. -/
def Ready.inBale (s : State) (n : Nat) (r : Ready) : Bool := r.dst.any fun x => x.2.key / 2048 == n && regionOf s x.2.key == .dram

/-- The bales that some elements, each with one destination, write whole (16_bales.md R364). -/
def wholeBales (s : State) (rs : List Ready) : List Nat :=
  let bales := ((rs.flatMap (·.dst)).filter fun x => regionOf s x.2.key == .dram).map fun x => x.2.key / 2048
  (bales.eraseDups).filter fun n => (List.range 2048).all fun i => readyCovers (rs.filter (Ready.inBale s n)) (2048 * n + i)

/-- One value put into the bytes of a bale. -/
def putElt (e : Nat) (xs : List Byte) (x : Elt × Loc) (v : Word) : List Byte :=
  let off := x.2.key % 2048
  if 8 ≤ e then overlay xs off (leBytes (eltBytes e) v.toNat)
  else
    let m := (2 ^ e - 1) * 2 ^ x.1.bit
    overlay xs off [BitVec.ofNat 8 (((xs.getD off 0#8).toNat &&& (255 - m)) ||| (v.toNat % 2 ^ e * 2 ^ x.1.bit))]

/-- The bytes that elements give a bale that they write whole. -/
def baleBytes (c : Copy) (rs : List Ready) : List Byte :=
  rs.foldl (fun xs r => r.dst.foldl (fun xs x => putElt r.et.width xs x (c.value r)) xs) (List.replicate 2048 0#8)

/-- A bale written whole, under the key and the BALE attribute of its page: one request. -/
def writeBale (c : Copy) (rs : List Ready) (s : State) (n : Nat) : State :=
  let mine := rs.filter (Ready.inBale s n)
  match (mine.flatMap (·.dst)).head? with
  | none => s
  | some x => wholeWrite s n x.2.kid x.2.bale (baleBytes c mine)

/-- What some elements of a copy write: the bales that they cover in one request each, the others one by one. -/
def performElts (c : Copy) (rs : List Ready) (s : State) : State :=
  let whole := wholeBales s rs
  let s := whole.foldl (writeBale c rs) s
  writeValues c (rs.filter fun r => !whole.any fun n => r.inBale s n) s

/-- Entries for a partition's rings that waited for a line are written (R242). -/
def drainRings (s : State) (p : BitVec 4) : State :=
  let s := drainManifests (partOf s p).manifests.length s p
  let s := drainWaybill (partOf s p).wbWait.length s p
  drainErrors (partOf s p).errWait.length s p

/-- The same for every partition that has any. -/
def drainHeld (s : State) : State :=
  ((List.range 16).map (BitVec.ofNat 4)).foldl (fun s p =>
    let q := partOf s p
    if q.errWait.isEmpty && q.wbWait.isEmpty && q.manifests.all (·.written) then s else drainRings s p) s

/-- A line becomes present, or leaves its owner, when no other copy holds it (R268). -/
def releaseLines (s : State) (r : CopyRef) (lines : List Nat) : State :=
  drainHeld (setPresence s (lines.filter fun l =>
    !(s.copies.any fun o => o.ref != r && o.held.contains l) && !(keptLines s).any fun k => k.2.contains l))

/-- The error that a fault makes of its report (R275). -/
def channelError (id k : Nat) (r : Report) : ChannelError :=
  { eid := id, reason := r.info.setWidth 8, elem := k, va := r.va }

/-- The copy fails at element k: the channel's error state, the held lines released, the ID about to complete (R275). -/
def failCopy (s : State) (c : Copy) (k : Nat) (r : Report) : State :=
  let s := metFor s c.part r
  let s := withTeam s c.ref.team fun s => s.onTeam fun t => t.setChan c.ref.ch ((t.chan c.ref.ch).fail (channelError c.ref.id k r))
  let s := releaseLines s c.ref c.held
  setCopy s { c with finished := true, held := [], arrived := [], trains := [], pins := [], performed := [], vstart := k }

/-- The header of a copy's manifest (R275; 10_translation_and_faults.md R225); CLASS is that of the team's site (log 78, DESIGN CHOICE). -/
def copyHeader (s : State) (c : Copy) : HeaderInfo :=
  { cls := ((allTeams s).find? fun t => t.tid == c.ref.team).elim .m fun t => t.site.cls, engine := true,
    lin := ((allTeams s).find? fun t => t.tid == c.ref.team).elim 0 fun t => t.lin,
    core := c.cluster, ch := c.ref.ch.toNat, tid := c.ref.id }

/-- The copy writes a manifest and parks (R275); the caches may keep what the walks of its segment read (10 R217). -/
def parkCopy (s : State) (c : Copy) (places : List (Elt × Loc)) (ms : List Miss) : State :=
  setCopy (postManifest (keepPages (keepOks s c.part places) c.part (missAddrs ms)) c.part (manifestOf (.copy c.ref) (copyHeader s c) ms)) { c with parked := true, pins := [] }

/-- The lines whose last byte has arrived: no remaining element writes them. -/
def arrivedLines (s : State) (c : Copy) : List Nat :=
  let rest := destLines s c c.remaining
  c.held.filter fun l => !rest.contains l

/-- The pages of some places, as a copy pins them. -/
def pinsOf (s : State) (c : Copy) (xs : List (Elt × Loc)) : List CachedPage := pinned s (copyAsk c .read 8) xs

/-- Every place of a segment. -/
def SegmentProbe.places (p : SegmentProbe) : List (Elt × Loc) := p.ready.flatMap fun r => r.src.toList ++ r.dst

/-- A segment whose pages have all been translated: they are pinned, and its destination lines are held (R242, R267). -/
def startSegment (s : State) (c : Copy) (p : SegmentProbe) : State × Copy :=
  let places := p.places
  let todo := p.ready.filter fun r => !c.performed.contains r.k
  let fresh := ((todo.flatMap (·.dst)).map fun x => x.2.key / 128).eraseDups.filter fun l => !c.held.contains l
  (keepOks (clearPresence s fresh) c.part places,
   { c with pins := pinsOf s c places, held := c.held ++ fresh, cleared := max c.cleared c.vstart,
            failing := c.failing.or p.fault })

/-- Elements below the one at which the copy fails. -/
def Copy.below (c : Copy) (k : Nat) : Bool := c.failing.all fun f => k < f.1

/-- Some of a list by free choices, or all of it (log 5, DESIGN CHOICE). -/
def freeSome (draws : Nat) (rs : List Ready) : List Ready :=
  match rs.filter fun r => Config.freeChoice (draws + r.k) with
  | [] => rs
  | x :: xs => x :: xs

/-- An element with a destination over a link. -/
def Ready.linked (s : State) (r : Ready) : Bool := r.dst.any fun x => overLinkAt s x.2.key

/-- The elements of a segment that have still to perform. -/
def Copy.todo (c : Copy) (p : SegmentProbe) : List Ready := p.ready.filter fun r => c.below r.k && !c.performed.contains r.k

/-- An element may perform: read and checked, its destination free of earlier engines (R267, R268). -/
def Copy.able (s : State) (c : Copy) (r : Ready) : Bool := r.k < c.cleared && r.dst.all fun x => !lineBlocked s c (x.2.key / 128)

/-- Among some elements, those below which every element with a destination over a link is one of them or has performed: none performs above an element whose link may yet go down (R275). -/
def behindLinks (s : State) (todo rs : List Ready) : List Ready :=
  rs.filter fun r => todo.all fun o => !o.linked s || r.k ≤ o.k || rs.any fun x => x.k == o.k

/-- The elements of a bale that the segment writes whole perform together (16_bales.md R364). -/
def wholeOnly (s : State) (todo rs : List Ready) : List Ready :=
  let whole := wholeBales s todo
  rs.filter fun r => whole.all fun n => !r.inBale s n || (todo.filter (Ready.inBale s n)).all fun o => rs.any fun x => x.k == o.k

/-- What may perform at once. -/
def allowed (s : State) (todo rs : List Ready) : List Ready := behindLinks s todo (wholeOnly s todo (behindLinks s todo rs))

/-- The elements that perform now, in any order that these bounds leave. -/
def performing (s : State) (c : Copy) (p : SegmentProbe) : List Ready :=
  let todo := c.todo p
  let rs := allowed s todo (todo.filter (Copy.able s c))
  match allowed s todo (freeSome s.draws rs) with
  | [] => rs
  | x :: xs => x :: xs

/-- A copy whose next element over a link finds it down fails there (R275; 18_host_link_and_management.md R381, R389). -/
def linkFails (s : State) (c : Copy) (p : SegmentProbe) : Copy :=
  match (c.todo p).find? fun r => r.dst.any fun x => linkDown s x.2.key with
  | none => c
  | some r =>
    match r.dst.find? fun x => linkDown s x.2.key with
    | none => c
    | some x => { c with failing := some (r.k, eltReport s (copyAsk c .write r.et.width) { x with 1.k := r.k }) }

/-- The end of a step of a segment: the copy fails once everything below has performed, or goes on to its next segment (R267, R275). -/
def endStep (s : State) (c : Copy) (p : SegmentProbe) (hi : Nat) : State :=
  let left := p.ready.any fun r => c.below r.k && !c.performed.contains r.k
  match c.failing with
  | some (k, r) => if left then setCopy s { c with arrived := arrivedLines s c } else failCopy s c k r
  | none =>
    let c := if left then c else { c with vstart := hi, finished := hi = c.total, pins := [], performed := [] }
    setCopy s { c with arrived := arrivedLines s c }

/-- A step of a box segment (R267): misses park the copy; then its elements are read, checked and performed, each as soon as its lines allow, and a fault fails the copy once the elements below have performed. -/
def boxSegment (s : State) (c : Copy) : State :=
  let hi := segmentEnd (fun k => pagesOf (eltAddrs c k)) (c.total - c.vstart) c.vstart []
  let p := probeElts s c (copyElts c c.vstart hi) {}
  if p.held then s
  else if !p.misses.isEmpty then parkCopy s c p.places p.misses
  else
    let (s, c) := startSegment s c p
    let c := linkFails s c p
    let todo := p.ready.filter fun r => c.cleared ≤ r.k && c.below r.k
    let c := clearElts s (readyCovers p.ready) (todo.take (1 + (Config.freeWord s.draws).toNat % (todo.length + 1))) c
    let now := performing s c p
    let c := { c with performed := c.performed ++ now.map (·.k) }
    let s := performElts c now s
    let s := healCovered s (readyCovers (p.ready.filter fun r => c.performed.contains r.k))
    endStep s.draw c p hi

/-! ## Trains (R277) -/

/-- What entry k of a train list asks of its target. -/
def trainAccess : TrainOp → Access
  | .st => .write
  | .add | .fadd => .readWrite

/-- The destination of a train: a die, the host, a peer (R245, R277). -/
def trainDest (s : State) (key : Nat) : Nat :=
  match regionOf s key with
  | .window x => x / Config.sliceSpan / 26
  | .dram | .none => stackOf s key / 4
  | .host => 2
  | .peer p => 3 + p

/-- The entry k of a list: its two words' place. -/
def trainEntry (c : Copy) (k : Nat) : List Elt :=
  [{ k := k, va := (c.list + 16 * k : Nat) }, { k := k, va := (c.list + 16 * k + 8 : Nat) }]

/-- A train segment as it is sorted: the copy with the list lines that it has read, what it has sorted, the places that it pins, its misses and pages, the next entry, and what stopped it: an entry that fails, or a list line that is held. -/
structure Sorting where
  copy : Copy
  items : List TrainItem := []
  places : List (Elt × Loc) := []
  misses : List Miss := []
  pages : List Nat := []
  next : Nat
  failing : Option (Nat × Report) := none
  blocked : Bool := false
  deriving DecidableEq, Repr

/-- The target of entry k checked: a sorted entry, a miss, or a fault. -/
def sortTarget (s : State) (op : TrainOp) (et : ET) (x : Sorting) (va value : Word) : Sorting :=
  let target : Elt := { k := x.next, va := (va.toNat : Nat) }
  let q := { copyAsk x.copy (trainAccess op) et.width with atomic := true }
  match copyCheck s x.copy q target with
  | .held _ => { x with blocked := true }
  | .ok l =>
    if eltError s q [] (target, l) then { x with failing := some (x.next, eltReport s q (target, l)) }
    else
      { x with
        items := x.items ++ [{ k := x.next, dest := trainDest s l.key, loc := l, va := va, value := lowBits et.width value }]
        places := x.places ++ [(target, l)]
        next := x.next + 1 }
  | .miss m => { x with misses := x.misses ++ [m], next := x.next + 1 }
  | .trim => { x with failing := some (x.next, accessReport 0x31#8 x.next target.va) }
  | .fault r => { x with failing := some (x.next, r) }

/-- Pages added to a segment. -/
def Sorting.onPages (x : Sorting) (ps : List Nat) : Sorting := { x with pages := (x.pages ++ ps).eraseDups }

/-- One entry: its two words in the list, then its target; the sorting ends before the entry that would bring the pages above 64. -/
def sortEntry (s : State) (op : TrainOp) (et : ET) (x : Sorting) : Sorting × Bool :=
  let src := placesOf s x.copy (copyAsk x.copy .read 64) (trainEntry x.copy x.next) {}
  let x' := x.onPages (pagesOf ((trainEntry x.copy x.next).map (·.va)))
  if 64 < x'.pages.length then (x, false)
  else
    match src.fault with
    | some r => ({ x' with failing := some (x.next, r) }, false)
    | none =>
      if src.held then ({ x with blocked := true }, false)
      else
      match src.misses, src.locs with
      | m :: ms, _ => ({ x' with misses := x.misses ++ m :: ms, next := x.next + 1 }, true)
      | [], first :: _ =>
        (match Copy.read s x.copy first.2 with
         | none => ({ x' with blocked := true }, false)
         | some (c, b) =>
           let x' : Sorting := { x' with copy := c, places := x.places ++ src.locs }
           if b.fails first.2 16 then
             ({ x' with failing := some (x.next, checkReport s { start := first.2.key, kid := first.2.kid, len := 16 } first.2.key x.next first.1.va) }, false)
           else
             let word (n : Nat) : Word := (src.locs[n]?.map fun p => b.elem 64 p).getD 0#64
             let x'' := x'.onPages (pagesOf [((word 0).toNat : Nat)])
             if 64 < x''.pages.length then ({ x with copy := c }, false)
             else
               let y := sortTarget s op et x'' (word 0) (word 1)
               (y, y.failing.isNone && !y.blocked))
      | [], [] => (x', false)

/-- The entries of a segment in ascending order. -/
def sortEntries (s : State) (op : TrainOp) (et : ET) : Nat → Sorting → Sorting
  | 0, x => x
  | fuel + 1, x =>
    match sortEntry s op et x with
    | (x, true) => sortEntries s op et fuel x
    | (x, false) => x

/-- A segment of a train copy: translated whole, then sorted into trains (R267, R277). -/
def sortSegment (s : State) (c : Copy) (op : TrainOp) (et : ET) : State :=
  let x := sortEntries s op et (c.total - c.vstart) { copy := c, next := c.vstart }
  if x.blocked then setCopy s x.copy
  else if !x.misses.isEmpty then parkCopy s x.copy x.places x.misses
  else
    let s := keepOks s c.part x.places
    setCopy s.draw { x.copy with trains := x.items, pins := pinsOf s c x.places, cleared := x.next, failing := x.failing }

/-- A step of a train copy: the trains of a segment are delivered before the copy fails, or sorts its next segment (R267, R275). -/
def trainSegment (s : State) (c : Copy) (op : TrainOp) (et : ET) : State :=
  if !c.trains.isEmpty then s
  else
    match c.failing with
    | some (k, r) => failCopy s c k r
    | none =>
      if c.vstart < c.cleared then
        setCopy s { c with vstart := c.cleared, finished := c.cleared = c.total, pins := [] }
      else sortSegment s c op et

/-- A copy has one of the eight contexts of its Porter: a resumed one waits behind those that were there before it (R256, R278). -/
def inContext (s : State) (c : Copy) : Bool := ((s.copies.filter fun o => o.cluster == c.cluster).take 8).any fun o => o.ref == c.ref

/-- `COPY_SEGMENT`: the next segment of a copy that is in flight and not parked. -/
def execCopySegment (c : CopyRef) (s : State) : Result :=
  .next (match findCopy s c with
    | some x =>
      if !inContext s x || x.finished || x.parked || !copyPlaced s x then s
      else match x.kind with
        | .train op et => trainSegment s x op et
        | .boxIn | .boxOut | .operandA | .operandB => boxSegment s x
    | none => s)

/-- One entry of a train at its destination (R277; 11 R251). -/
def deliverEntry (op : TrainOp) (et : ET) (s : State) (x : TrainItem) : State :=
  let place : Elt × Loc := ({ k := 0, va := 0 }, x.loc)
  let old := loadElt s et.width place
  let new : Word := match op with
    | .st => x.value
    | .add => lowBits et.width (old + x.value)
    | .fadd => onFloats (fun a b => (faddElem et .rne a b).bits) old x.value
  storeElt s et.width place new

/-- An entry beyond a link. -/
def TrainItem.linked (s : State) (x : TrainItem) : Bool := overLinkAt s x.loc.key

/-- The entries for a destination that go now: those below every entry for another destination whose link may yet go down, since none may perform at or above an entry that fails (R275). -/
def trainNow (s : State) (c : Copy) (dest : Nat) : List TrainItem :=
  c.trains.filter fun x => x.dest == dest && c.trains.all fun y => !y.linked s || y.dest == dest || x.k < y.k

/-- A train may be delivered: it has entries that go now, no earlier train copy of the Porter still has entries for the destination, and its lines are held by no engine (R245, R277; 11 R242). -/
def deliverable (s : State) (c : Copy) (dest : Nat) : Bool :=
  !(trainNow s c dest).isEmpty && !(s.copies.any fun o => o.cluster == c.cluster && o.order < c.order &&
      (match o.kind with
       | .train _ _ => !o.finished || o.trains.any fun x => x.dest == dest
       | .boxIn | .boxOut | .operandA | .operandB => false)) &&
    !((trainNow s c dest).any fun x => lineAbsent s (x.loc.key / 128))

/-- An entry whose link or port has gone down: the copy fails there, and what it has not delivered from there on is not performed (R275; 18_host_link_and_management.md R381, R389). -/
def failTrain (s : State) (c : Copy) (et : ET) (x : TrainItem) : State :=
  let r := { checkReport s { start := x.loc.key, kid := x.loc.kid, len := eltBytes et.width } x.loc.key x.k (x.va.toNat : Nat) with walk := none }
  setCopy s { c with failing := (c.failing.filter fun f => f.1 < x.k).or (some (x.k, r)), trains := c.trains.filter fun y => y.k < x.k }

/-- A train performs at its destination, in list order. -/
def deliverTrain (s : State) (c : Copy) (op : TrainOp) (et : ET) (dest : Nat) : State :=
  let items := trainNow s c dest
  match items.find? fun y => linkDown s y.loc.key with
  | some y => failTrain s c et y
  | none => setCopy (items.foldl (deliverEntry op et) s) { c with trains := c.trains.filter fun y => !items.contains y }

/-- `TRAIN_DELIVERY`: the next train of a copy. -/
def execTrainDelivery (c : CopyRef) (s : State) : Result :=
  .next (match findCopy s c with
    | none => s
    | some x =>
      match x.kind with
      | .boxIn | .boxOut | .operandA | .operandB => s
      | .train op et =>
        match x.trains.find? fun e => deliverable s x e.dest with
        | none => s
        | some e => deliverTrain s x op et e.dest)

/-! ## Arrival and completion (R262, R268) -/

/-- `LINE_ARRIVAL`: a line whose bytes have all arrived becomes present. -/
def execLineArrival (line : Nat) (s : State) : Result :=
  .next (match s.copies.find? fun c => c.arrived.contains line && c.held.contains line with
    | none => s
    | some c =>
      let s := releaseLines s c.ref [line]
      setCopy s { c with held := c.held.filter (· != line), arrived := c.arrived.filter (· != line) })

/-- A copy has done everything but complete. -/
def Copy.ended (c : Copy) : Bool := c.finished && c.held.isEmpty && c.trains.isEmpty

/-- The outstanding instruction of a copy has completed. -/
def Warp.copyDone (w : Warp) (r : CopyRef) : Warp :=
  { w with pending := w.pending.map fun o => if o.copy == some r then { o with done := true } else o }

/-- `COPY_COMPLETE`: the ID completes, and the flag's instruction (R261, R262). -/
def execCopyComplete (c : CopyRef) (s : State) : Result :=
  .next (match findCopy s c with
    | none => s
    | some x =>
      if x.ended then
        let s := withTeam s c.team fun s =>
          (s.onTeam fun t => t.setChan c.ch ((t.chan c.ch).complete c.id)).onMates fun w => w.copyDone c
        { s with copies := s.copies.filter fun y => y.ref != c }
      else s)

/-! ## Manifests that are answered (R275; 10_translation_and_faults.md R229, R230) -/

/-- The pages whose service failed, as the requester keeps them. -/
def Manifest.failedPages (m : Manifest) : List (Nat × Nat × Nat × Nat) :=
  m.failed.filterMap fun i => m.records[i]?.map fun r => (r.page, r.stage, r.level, if r.stage = 2 then r.addr else 0)

/-- The requester of a complete manifest goes on; the manifest is forgotten. -/
def reissue (s : State) (part : BitVec 4) (m : Manifest) : State :=
  let s := onPart s part fun p => { p with manifests := p.manifests.erase m }
  match m.who with
  | .warp r =>
    withWarp s r fun s =>
      if s.me == r then s.onWarp fun w => { w with service := { w.service with failed := w.service.failed ++ m.failedPages } } else s
  | .copy r =>
    match findCopy s r with
    | some c => setCopy s { c with parked := false, failed := c.failed ++ m.failedPages }
    | none => s
  | .grid _ | .gone => s

/-- `FAULT_REISSUE`: the requester of a complete manifest unparks. -/
def execFaultReissue (part : BitVec 4) (mid : BitVec 32) (s : State) : Result :=
  .next (match (partOf s part).manifests.find? fun m => m.complete && m.mid == mid with
    | some m => reissue s part m
    | none => s)

/-- `COPY_RESUME`: a parked copy whose manifest is complete. -/
def execCopyResume (c : CopyRef) (s : State) : Result :=
  .next (match findCopy s c with
    | none => s
    | some x =>
      match (partOf s x.part).manifests.find? fun m => m.complete && m.who == .copy c with
      | some m => reissue s x.part m
      | none => s)

end Sys2Proof.Machine
end

