-- ==== Sys2Proof/Machine/Barrier.lean ====
section
/-! DEFINITION. The barrier unit of a team and the coming and going of warps: membership, milestones, phase completion, residency, attach and leave (05_teams_and_warps.md R97–R103; 01_machine.md R16, R434). -/
namespace Sys2Proof.Machine
open Sys2Proof

/-! ## Phases (R100) -/

def Team.bar (t : Team) (b : Nat) : Barrier := t.bars.toList.getD b {}

def Team.setBar (t : Team) (b : Nat) (x : Barrier) : Team := { t with bars := t.bars.setIfInBounds b x }

def Warp.part (w : Warp) (b : Nat) : Membership := w.bars.toList.getD b {}

def Warp.setPart (w : Warp) (b : Nat) (m : Membership) : Warp := { w with bars := w.bars.setIfInBounds b m }

/-- The number of member warps of a barrier. -/
def members (s : State) (b : Nat) : Nat := (s.mates.filter fun w => (w.part b).member).length

/-- The completion of phase p: E(p+1) := members + D, and the counts move on. -/
def Barrier.next (x : Barrier) (n : Nat) : Barrier := { p := x.p + 1, e := n + x.d, a := x.a1, a1 := 0, d := 0 }

/-- The test of a phase; each completion re-tests while the barrier has a member. A barrier without members and without expected arrivals completes nothing. -/
def Barrier.test (n : Nat) : Nat → Barrier → Barrier
  | 0, x => x
  | fuel + 1, x =>
    if x.a = x.e && (0 < n || 0 < x.e) then
      (if 0 < n then Barrier.test n fuel (x.next n) else x.next n)
    else x

/-- An event of the barrier unit on one barrier, with its test. -/
def barEvent (s : State) (b : Nat) (f : Barrier → Barrier) : State :=
  s.onTeam fun t => t.setBar b (Barrier.test (members s b) 4 (f (t.bar b)))

/-! ## Joining, leaving and arriving (R101, R102) -/

/-- The phase that the next arrival of a warp targets. -/
def Membership.target (m : Membership) : Nat :=
  match m.last with
  | some l => l + 1
  | none => m.first

/-- What the departure of a member does to the counts (R102, Table 5). -/
def Barrier.depart (x : Barrier) (m : Membership) : Barrier :=
  match m.last with
  | some l =>
    if l = x.p + 1 then { x with d := x.d + 1 }
    else if l = x.p then x
    else if m.first ≤ x.p then { x with e := x.e - 1 } else x
  | none => if m.first ≤ x.p then { x with e := x.e - 1 } else x

/-- The focused warp leaves a barrier. -/
def leaveBar (s : State) (b : Nat) : State :=
  let m := s.warp.part b
  if m.member then
    barEvent (s.onWarp fun w => w.setPart b { m with member := false }) b fun x => x.depart m
  else s

/-- The focused warp becomes a member, counted from p + 1; what `BARWAIT` waits for is as before (R114). -/
def joinBar (s : State) (b : Nat) : State :=
  barEvent (s.onWarp fun w => w.setPart b { w.part b with member := true, first := (s.team.bar b).p + 1, last := none }) b id

/-- The arrival of the focused warp: its milestone joins the warp's queue (R101). -/
def arrive (s : State) (b : Nat) : State :=
  let m := s.warp.part b
  let s := s.onWarp fun w => w.setPart b { m with last := some m.target, arrived := some m.target, awaited := true }
  s.onTeam fun t => { t with miles := t.miles ++ [{ warp := s.warp.idx, bar := b, phase := m.target, core := s.warp.core }] }

/-- A milestone fires: A of its target phase rises by one. -/
def fireMilestone (s : State) (m : Milestone) : State :=
  let s := s.onTeam fun t => { t with miles := t.miles.erase m }
  barEvent s m.bar fun x => if m.phase = x.p then { x with a := x.a + 1 } else { x with a1 := x.a1 + 1 }

/-! ## Residency (R14, R16) -/

def slotsOf : CoreClass → Nat
  | .m => 32
  | .e => 16

def fileBytes : CoreClass → Nat
  | .m => 131072
  | .e => 65536

/-- The bytes of a warp's registers. -/
def LaunchRecord.warpBytes (l : LaunchRecord) : Nat := l.warpw * 4 * l.vregs

/-- The warps resident on a core: those of teams in place, with their register bytes and slots. -/
def residents (s : State) (c : CoreRef) : List (Nat × Nat) :=
  (allTeams (unfocus s)).flatMap fun t =>
    if t.status == .running then (t.peers.filter fun w => w.core == c).map fun w => (t.launch.warpBytes, w.slot) else []

/-- The register bytes of warps that have left a core and whose vector instruction queues have not drained (R112). -/
def draining (s : State) (c : CoreRef) : Nat :=
  ((allTeams s).map fun t =>
    if t.status == .running then
      (((t.miles.filter fun m => m.core == c).filterMap (·.gone)).eraseDups.length) * t.launch.warpBytes
    else 0).sum

/-- The warps of a launch for which a core has slots and register room. -/
def freeOn (s : State) (l : LaunchRecord) (c : CoreRef) : Nat :=
  let rs := residents s c
  let bytes := (rs.map (·.1)).sum + draining s c
  min (slotsOf c.cls - rs.length) ((fileBytes c.cls - bytes) / max 1 l.warpBytes)

/-- The lowest free slot of a core. -/
def freeSlot (s : State) (c : CoreRef) : Nat :=
  ((List.range (slotsOf c.cls)).find? fun j => !(residents s c).any fun r => r.2 == j).getD 0

/-- The cores of a site, the lower first (R434). -/
def Site.cores (x : Site) : List CoreRef :=
  if x.pair then [{ cls := x.cls, num := x.num }, { cls := x.cls, num := x.num + 1 }] else [{ cls := x.cls, num := x.num }]

/-- Free warps on the team's core or pair. -/
def freeHere (s : State) : Nat := ((s.team.site.cores.map (freeOn s s.team.launch))).sum

/-- The core of the next warp: the lower core while it has room (R434). -/
def coreFor (s : State) : CoreRef :=
  (s.team.site.cores.find? fun c => 0 < freeOn s s.team.launch c).getD { cls := s.team.site.cls, num := s.team.site.num }

/-! ## Warps (R44, R99, R112) -/

/-- s1 to s8 from the launch, s60 the team base (R44, R88, R96). -/
def initialS (l : LaunchRecord) (base : Nat) : Vector Word 64 :=
  (List.range 4).foldl (fun v i => v.setIfInBounds (i + 1) (l.args.getD i 0#64))
    ((Vector.replicate 64 0#64).set 60 (BitVec.ofNat 64 (Config.windowBase + base)))

/-- A warp in its initial state at an entry (R44). -/
def newWarp (l : LaunchRecord) (base idx : Nat) (entry : Word) (c : CoreRef) (slot : Nat) : Warp :=
  { idx := idx, status := .running, core := c, slot := slot, s := initialS l base,
    v := List.replicate (l.warpw * l.vregs) 0#32, pos := { hdr := (entry.toNat : Nat) } }

/-- The lowest warp index not in use. -/
def freeIndex (s : State) : Nat := ((List.range 64).find? fun i => !s.mates.any fun w => w.idx == i).getD 0

/-- The waymark table of a partition: the new place of an address, by the lowest-numbered entry that holds it; an entry that cannot be read holds nothing (19_code_objects.md R406; log 24, DESIGN CHOICE). -/
def waymarkScan (s : State) (base x : Nat) : Nat → Nat → Nat
  | 0, _ => x
  | fuel + 1, i =>
    match physRead s (base + 32 * i) 32 with
    | none => waymarkScan s base x fuel (i + 1)
    | some bs =>
      let old := leValue (bs.take 8)
      let new := leValue ((bs.drop 8).take 8)
      let len := leValue ((bs.drop 16).take 8)
      if old ≤ x && x < old + len then new + (x - old) else waymarkScan s base x fuel (i + 1)

/-- The errors that reads of a partition's waymark table meet have been met (09 R200). -/
def waymarksMet (s : State) (part : BitVec 4) : State :=
  let p := partOf s part
  if quiet s then s
  else
    (List.range p.wmcount.toNat).foldl (fun s i =>
      if (physRead s (p.wmbase.toNat + 32 * i) 32).isNone then metLines s (p.wmbase.toNat + 32 * i) 0 32 else s) s

/-- An address mapped through the waymark table of a partition (R407). -/
def waymark (s : State) (part : BitVec 4) (x : Word) : Word :=
  let p := partOf s part
  BitVec.ofNat 64 (waymarkScan s p.wmbase.toNat x.toNat p.wmcount.toNat 0)

/-- A warp attaches to the focused team (R99): membership of every barrier from p + 1, the initial state at ATTACH; the attach is logged. -/
def attachWarp (s : State) : State :=
  let c := coreFor s
  let w := newWarp s.team.launch s.team.base (freeIndex s) (waymark s s.team.part s.team.launch.attach) c (freeSlot s c)
  let w := { w with bars := Vector.ofFn fun b => { first := (s.team.bar b.val).p + 1 } }
  let s := waymarksMet (logEntry s (teamEntry s 4 w.idx 0 0#64)) s.team.part
  let s := s.onTeam fun t => { t with peers := t.peers ++ [w] }
  (List.range 16).foldl (fun s b => barEvent s b id) s

/-- n warps attach, one after another. -/
def attachMany : Nat → State → State
  | 0, s => s
  | n + 1, s => attachMany n (attachWarp s)

/-- An elastic team may grow (R96, R97, R99). -/
def Team.elastic (t : Team) : Bool := t.launch.elastic && t.launch.minw < t.launch.maxw

/-- The warps that `TGROW` could attach now (R111, R113, 15 R350). -/
def growRoom (s : State) : Nat :=
  if s.team.preempt then 0 else min (s.team.launch.maxw - s.count) (freeHere s)

/-- The unspent lease of the focused warp returns to its cluster's pool (17 R377). -/
def returnLease (s : State) : State :=
  let s' := onCluster s (coreCluster s.warp.core) fun c => { c with pool := c.pool + s.warp.lease }
  s'.onWarp fun w => { w with lease := 0 }

/-- The shrink request after a change of the warp count: zero when the count has reached MINW (R97). -/
def Team.settleShrink (t : Team) (count k : Nat) : Team := { t with k := if count ≤ t.launch.minw then 0 else k }

/-- The milestones of a warp that leaves: they fire as its queue drains, and hold its register room until then (R112). -/
def Team.orphan (t : Team) (idx : Nat) : Team :=
  let n := (t.miles.filterMap (·.gone)).foldl max 0 + 1
  { t with miles := t.miles.map fun m => if m.warp == idx && m.gone.isNone then { m with gone := some n } else m }

/-- The focused warp leaves its team (R112): barriers, the log, its index and its registers. -/
def leaveTeam (s : State) (shrink : Bool) : State :=
  let s := ((List.range 16).foldl leaveBar (returnLease s)).onTeam fun t => t.orphan s.warp.idx
  let s := logEntry s (teamEntry s 5 s.warp.idx 0 (if shrink then 1#64 else 0#64))
  let k := if shrink then s.team.k - 1 else s.team.k
  { s with warp := {}, team := s.team.settleShrink (s.count - 1) k }

/-- A synchronous matrix operation of the warp that has not performed. -/
def lateSync (o : Outstanding) : Bool := o.late && o.flag.isNone

/-- The focused warp leaves once its synchronous operations have completed (02_words_and_registers.md R34). -/
def departTeam (s : State) (shrink : Bool) : State :=
  if s.warp.mustWait lateSync then s.parkOn (s.warp.waitOn lateSync) else leaveTeam s shrink

/-- A shrink leave is due at a `SETVL` or `TSET` (R97, R98); none while a handler runs (15 R332). -/
def shrinkDue (s : State) : Bool := !s.warp.intrap && 0 < s.team.k && s.team.launch.minw < s.count

/-- Steps 1 to 3 of `SETVL` and `TSET` (R98): the commit, a pending pre-emption, a shrink leave, which takes what is recorded as every leave does (log 70); then the grant. -/
def grantPoint (s : State) (k : State → State) : State :=
  preemptPoint s true fun s => if shrinkDue s then exitPoint s fun s => departTeam s true else k s

end Sys2Proof.Machine
end

