-- ==== Sys2Proof/Machine/Tile.lean ====
section
/-! DEFINITION. Tile state and its grants, 0xC0–0xC3: the slots of a team, their home cores, `TEN`, `TDIS`, `TSET`, `TGRANT` (13_matrix_grants_and_engine.md R280–R296). An instruction that changes a slot's grant waits for the operations accepted on the slot before it (14_matrix_instructions.md R307). -/
namespace Sys2Proof.Machine
open Sys2Proof

/-! ## Slots (R280, R289) -/

/-- The home core of a slot: on a pair, the lower core for an even slot and the higher for an odd one. -/
def homeOf (site : Site) (t : BitVec 3) : CoreRef :=
  { cls := site.cls, num := if site.pair then site.num + t.toNat % 2 else site.num }

/-- The slot capacity in bytes. -/
def LaunchRecord.slotBytes (l : LaunchRecord) : Nat := if l.tiles = 0 then 0 else l.accum / l.tiles

/-- Extents of a grant, M, N and K. -/
structure Extent where
  m : Nat
  n : Nat
  k : Nat
  deriving DecidableEq, Repr

/-- The maxima of a core (Table 3). -/
def coreMaxima (s : State) (c : CoreRef) : Extent :=
  match c.cls with
  | .m => { m := 256, n := 256 - 16 * mappedOut s c.num, k := 256 }
  | .e => { m := 256, n := 256, k := 32 }

/-- A cap field, in elements: 2^16 where it is zero. -/
def capField (f unit : Nat) : Nat := if f = 0 then 65536 else unit * f

/-- The caps of a core class from TCAP (R290). -/
def tileCaps (tcap : Word) (cls : CoreClass) : Extent :=
  let lo := match cls with
    | .m => 0
    | .e => 32
  { m := capField (tcap.extractLsb' lo 8).toNat 8
    n := capField (tcap.extractLsb' (lo + 8) 8).toNat 8
    k := capField (tcap.extractLsb' (lo + 16) 8).toNat 32 }

/-- The accumulator kind of a type pair: INT32 when they are integer (R282). -/
def intKind (aty : ET) : Bool := aty.isTileInt

/-- The BF16 value 1.0, every channel scale at first (14_matrix_instructions.md R319). -/
def oneScale : BitVec 16 := 0x3F80#16

/-- The contents of a slot of m × n set to zero (R292; R315). -/
def Slot.zeroed (x : Slot) (m n : Nat) : Slot :=
  { x with acc := List.replicate (m * n) 0#32, chunks := 0#64, ca := List.replicate m oneScale,
           cb := List.replicate n oneScale, bad := [] }

/-- An accepted operation on a slot has not performed. -/
def slotBusy (s : State) (t : BitVec 3) : Bool := s.team.late.any fun o => o.slot == t

/-- What acts on a slot at once waits until every operation accepted on it has completed (14_matrix_instructions.md R307). -/
def onIdleSlot (s : State) (t : BitVec 3) (k : State → State) : State := if slotBusy s t then s.parkOn (.slot t) else k s

/-! ## `TEN` and `TDIS` (R286, R287) -/

/-- Tile state enabled: every slot without grant, restored extent, contents and recorded B. -/
def Team.enableTiles (t : Team) : Team := if t.tiles then t else { t with tiles := true, slots := Vector.replicate 8 {} }

def execTen (s : State) : Result := uniformWord s fun s => s.onTeam Team.enableTiles

/-- The resident B operands of a team are gone from its cores. -/
def freeResident (s : State) (tid : Nat) (cs : List CoreRef) : State :=
  cs.foldl (fun s c => onCore s c fun x =>
    { x with resident := x.resident.filter fun r => r.team != tid }) s

def execTdis (s : State) : Result :=
  guarded [vectorOnly s] s fun s =>
    match s.team.late with
    | o :: _ => s.parkOn (.slot o.slot)
    | [] =>
      (freeResident (s.onTeam fun t => { t with tiles := false, slots := Vector.replicate 8 {} }) s.team.tid s.team.site.cores).advance

/-! ## The grant (R291) -/

/-- Status bits [63:48] of s_d: cap, mapped-out columns, restored, followed, capacity. -/
def stCap : BitVec 16 := 1#16
def stColumns : BitVec 16 := 2#16
def stRestored : BitVec 16 := 4#16
def stFollowed : BitVec 16 := 8#16
def stRoom : BitVec 16 := 16#16

/-- A status bit set under a condition. -/
def stIf (c : Bool) (bit : BitVec 16) : BitVec 16 := if c then bit else 0#16

/-- x rounded up to a multiple of u, at least u. -/
def upTo (u x : Nat) : Nat := max u (ceilDiv x u * u)

/-- The capacity loop: the larger of the two falls by 8 until the values fit. -/
def fitRoom (cap : Nat) : Nat → Nat → Nat → Nat × Nat
  | 0, m, n => (m, n)
  | fuel + 1, m, n =>
    if cap < 4 * m * n && (8 < m || 8 < n) then
      (if m ≤ n then fitRoom cap fuel m (n - 8) else fitRoom cap fuel (m - 8) n)
    else (m, n)

/-- gM, gN and the status they bring. -/
def grantMN (restored : Option (Nat × Nat)) (reqM reqN cap : Nat) (x c : Extent) : Nat × Nat × BitVec 16 :=
  match restored with
  | some (m, n) => (m, n, stRestored)
  | none =>
    let m := upTo 8 reqM
    let n := upTo 8 reqN
    let st := stIf (x.n < n && x.n < 256) stColumns
    let m := min m x.m
    let n := min n x.n
    let st := st ||| stIf (c.m < m || c.n < n) stCap
    let m := min m c.m
    let n := min n c.n
    let st := st ||| stIf (cap < 4 * m * n) stRoom
    let (m, n) := fitRoom cap 64 m n
    if cap < 4 * m * n then (0, 0, st) else (m, n, st)

/-- gK cut so that blocks align with strips. -/
def alignK (bl k : Nat) : Nat := if bl ≤ 32 then k else if bl ≤ k then k / bl * bl else 2 ^ Nat.log2 k

/-- gK and its status. -/
def grantK (reqK bl : Nat) (x c : Extent) : Nat × BitVec 16 :=
  let k := min (upTo 32 reqK) x.k
  (alignK bl (min k c.k), stIf (c.k < k) stCap)

/-- The request fields of s_a. -/
def reqField (w : Word) (i : Nat) : Nat := (w.extractLsb' (16 * i) 16).toNat

/-- The grant that a request gets. -/
def computeGrant (s : State) (t : BitVec 3) (req : Word) (aty bty : ET) (blk : BitVec 3) : Grant :=
  let home := homeOf s.team.site t
  let x := coreMaxima s home
  let c := tileCaps s.part.tcap home.cls
  let mn := grantMN (s.team.slot t).restored (reqField req 0) (reqField req 1) s.team.launch.slotBytes x c
  let k := grantK (reqField req 2) (blockLen blk.toNat) x c
  { m := mn.1, n := mn.2.1, k := if mn.1 = 0 then 0 else k.1, aty := aty, bty := bty, blk := blk, status := mn.2.2 ||| k.2 }

/-- A grant as s_d holds it. -/
def Grant.word (g : Grant) : Word := g.status ++ BitVec.ofNat 16 g.k ++ BitVec.ofNat 16 g.n ++ BitVec.ofNat 16 g.m

/-- A grant read from a logged s_d, with bit 51 set (R294). -/
def loggedGrant (v : Nat) (aty bty : ET) (blk : BitVec 3) : Grant :=
  { m := v % 65536, n := v / 2 ^ 16 % 65536, k := v / 2 ^ 32 % 65536, aty := aty, bty := bty, blk := blk,
    status := BitVec.ofNat 16 (v / 2 ^ 48) ||| stFollowed }

/-- A logged grant within local maxima (R294). -/
def withinMaxima (s : State) (t : BitVec 3) (blk : BitVec 3) (v : Nat) : Bool :=
  let home := homeOf s.team.site t
  let x := coreMaxima s home
  let c := tileCaps s.part.tcap home.cls
  let cap := s.team.launch.slotBytes
  let m := reqField (BitVec.ofNat 64 v) 0
  let n := reqField (BitVec.ofNat 64 v) 1
  let k := reqField (BitVec.ofNat 64 v) 2
  let bl := blockLen blk.toNat
  if m = 0 && n = 0 && k = 0 then cap < 256
  else
    m % 8 = 0 && n % 8 = 0 && k % 32 = 0 && m ≤ min x.m c.m && n ≤ min x.n c.n && 4 * m * n ≤ cap && k ≤ min x.k c.k &&
      (bl ≤ 32 || k % bl = 0 || bl % k = 0) &&
      (match (s.team.slot t).restored with
       | some r => m = r.1 && n = r.2
       | none => true)

/-- The recorded B survives a grant that keeps gK, gN, the B type and the block code (14 R316). -/
def keepsB (old g : Grant) : Bool := old.k = g.k && old.n = g.n && old.bty == g.bty && old.blk == g.blk

/-- A grant applied to a slot (R292). -/
def Slot.grantTo (x : Slot) (g : Grant) : Slot :=
  if g.m = 0 then {}
  else
    match x.grant with
    | some old =>
      let y := if old.m = g.m && old.n = g.n && intKind old.aty == intKind g.aty then x else x.zeroed g.m g.n
      { y with grant := some g, recB := if keepsB old g then x.recB else none }
    | none => { x.zeroed g.m g.n with grant := some g, recB := none }

/-- The tile-disabled check of an instruction other than a copy (R288). -/
def whenEnabled (s : State) (t : BitVec 3) (k : State → State) : State :=
  if s.team.tiles then k s else trapHere s (tileDisabled t.toNat 0x70#8) s.warp.vstart

/-- The grant of a `TSET` applied, its destination written, the grant logged. -/
def applyGrant (s : State) (t : BitVec 3) (d : BitVec 6) (g : Grant) : State :=
  let s := s.onTeam fun x => x.setSlot t ((x.slot t).grantTo g)
  logWarp (s.onWarp fun w => w.writeS d g.word).advance 3 t.toNat g.word

def execTset (t : BitVec 3) (d a : BitVec 6) (aty bty : ET) (blk : BitVec 3) (s : State) : Result :=
  guarded [slotOk s t, vectorOnly s] s fun s =>
    commitPoint s fun s => whenEnabled s t fun s =>
      grantPoint s fun s => onIdleSlot s t fun s =>
        let own := computeGrant s t (s.warp.readS a) aty bty blk
        followed s 3 own.word (fun v => if withinMaxima s t blk v then none else some 0x80#8) fun s v =>
          applyGrant s t d (if s.team.launch.rfollow then loggedGrant v.toNat aty bty blk else own)

def execTgrant (t : BitVec 3) (d : BitVec 6) (s : State) : Result :=
  guarded [slotOk s t, vectorOnly s] s fun s =>
    whenEnabled s t fun s =>
      (s.onWarp fun w => w.writeS d (match (s.team.slot t).grant with
        | some g => g.word
        | none => 0#64)).advance

end Sys2Proof.Machine
end

