-- ==== Sys2Proof/Machine/Matrix.lean ====
section
/-! DEFINITION. Multiplication: `TZERO`, `TLDB`, `TMMA`, `TMMAS`, `TCSCL` (14_matrix_instructions.md R305–R319; 13_matrix_grants_and_engine.md R297–R303). A multiply or a load of B reads its boxes at its acceptance or, line by line, at any time until it completes (R309). -/
namespace Sys2Proof.Machine
open Sys2Proof

/-! ## Acceptance (R307) -/

/-- A matrix instruction after the decode and tile-disabled checks, with its toll. -/
def matrixWord (s : State) (checks : List (Bool × IllegalReason)) (t : BitVec 3) (toll : State → Nat) (k : State → State) : Result :=
  guarded ([slotOk s t] ++ checks ++ [vectorOnly s]) s fun s => whenEnabled s t fun s => tolled s (toll s) k

/-- The grant of a slot. -/
def State.grant (s : State) (t : BitVec 3) : Option Grant := (s.team.slot t).grant

def State.onSlot (s : State) (t : BitVec 3) (f : Slot → Slot) : State := s.onTeam fun x => x.setSlot t (f (x.slot t))

/-- gM · gN / 1,024, rounded up, of a slot's grant (17_cryogenic_and_power.md R375). -/
def extentToll (t : BitVec 3) (s : State) : Nat :=
  match s.grant t with
  | some g => ceilDiv (g.m * g.n) 1024
  | none => 0

/-- A fault recorded against an accepted instruction: taken at the commit point of its flag, or, without a flag, before the next clause (R310). -/
def State.record (s : State) (fs : FSel) (o : Outstanding) (r : Report) (vstart : Nat) : State :=
  (s.met r).onWarp fun w =>
    { w with
      pending := w.pending ++
        [{ o with seq := w.seq, pc := addrWord w.at.pc, home := w.at.hdr, flag := flagOf w.at fs, done := fs == .none,
                  fault := some (r.settled, vstart) }]
      seq := w.seq + 1 }

/-- An outstanding instruction without a result. -/
def noResult : Outstanding := { seq := 0, pc := 0#64, flag := none }

/-- A report with ELEM = 0. -/
def Report.atZero (r : Report) : Report := { r with info := r.info &&& ~~~0x7FF00#64 }

/-- The machine check of R310: ELEM is 0, and FAULTVA is a free value (log 5, DESIGN CHOICE). -/
def engineCheck (s : State) (r : Report) : Report := { r.atZero with va := Config.freeWord s.draws }

/-- The slot fails (R310): it loses its grant and everything with it. -/
def failSlot (s : State) (fs : FSel) (t : BitVec 3) (r : Report) : State :=
  (((s.onSlot t fun _ => {}).record fs noResult (engineCheck s r) 0).draw).advance

/-- An uncorrectable error in the accumulator store of a slot's home core. -/
def storeCheck (s : State) (t : BitVec 3) (k : Nat) : Report :=
  { cause := .machineCheck,
    info := infoElem k 0x40#8 ||| BitVec.ofNat 64 (coreCluster (homeOf s.team.site t) % 256 * 2 ^ 24) }

/-! ## `TZERO` and the channel scales (R315, R319) -/

def execTzero (t : BitVec 3) (s : State) : Result :=
  matrixWord s [] t (extentToll t) fun s =>
    onIdleSlot s t fun s =>
    match s.grant t with
    | none => s.advance
    | some g => (s.onSlot t fun x => { x.zeroed g.m g.n with restored := none }).advance

def execTcsclOne (fs : FSel) (t : BitVec 3) (s : State) : Result :=
  matrixWord s [pendingOk s fs 0] t (extentToll t) fun s =>
    onIdleSlot s t fun s =>
    match s.grant t with
    | none => s.advance
    | some g =>
      ((s.onSlot t fun x => { x with ca := List.replicate g.m oneScale, cb := List.replicate g.n oneScale }).bear fs noResult).advance

/-- The elements of the channel scales at an address. -/
def scaleElts (base : Word) (n : Nat) : List Elt := (List.range n).map fun k => { k := k, va := (base.toNat + 2 * k : Nat) }

def execTcsclLd (fs : FSel) (t : BitVec 3) (a : BitVec 6) (s : State) : Result :=
  matrixWord s [pendingOk s fs 0] t (extentToll t) fun s =>
    onIdleSlot s t fun s =>
    match s.grant t with
    | none => s.advance
    | some g =>
      let q := { s.ask .read 16 with trims := false }
      let xs := scaleElts (s.warp.readS a) (g.m + g.n)
      if let some (.fault k r) := addressStop s q xs then trapHere (keepOks s q.part (probe s q q.fresh xs).oks) r k
      else
      match planOf s q xs with
      | .misses oks ms => parkAsked s q oks ms
      | .wait line oks => parkOnLine s q line oks
      | .run _ (some (.fault k r)) => trapHere s r k
      | .run _ (some (.error _ r)) => failSlot s.fromStart fs t r
      | .run oks _ =>
        let vs := oks.map fun x => (loadElt s 16 x).setWidth 16
        (((settle s q.part oks).onSlot t fun x => { x with ca := vs.take g.m, cb := vs.drop g.m }).bear fs noResult).fromStart.advance

/-! ## Operand boxes (13 R303, Table 6) -/

/-- A row pitch: whole multiples of 64 bytes. -/
def pitchOf (cols e : Nat) : Nat := ceilDiv (cols * e) 512 * 64

def tablet (base rows cols e : Nat) : Tablet := { base := base, rows := rows, cols := cols, e := e, pitch := pitchOf cols e }

def Tablet.span (b : Tablet) : Nat := b.rows * b.pitch

/-- The bytes of a row that hold elements. -/
def Tablet.rowLen (b : Tablet) : Nat := rowBytes b.cols b.e

/-- The bytes of the window that an engine has read, and those of them that could not be read. -/
structure Bytes where
  get : Nat → Byte
  err : Nat → Bool

/-- Element (i, j). -/
def Tablet.elem (b : Tablet) (m : Bytes) (i j : Nat) : LaneWord :=
  let a := b.base + b.pitch * i + j * b.e / 8
  BitVec.ofNat 32 (leValue ((List.range (eltBytes b.e)).map fun n => m.get (a + n)) / 2 ^ (j * b.e % 8) % 2 ^ b.e)

/-- Every element, row by row. -/
def Tablet.elems (b : Tablet) (m : Bytes) : List LaneWord :=
  (List.range b.rows).flatMap fun i => (List.range b.cols).map fun j => b.elem m i j

/-- The first row that meets an uncorrectable error. -/
def Tablet.bad (b : Tablet) (m : Bytes) : Option Span :=
  (((List.range b.rows).map fun i => b.base + b.pitch * i).find? fun a => (List.range b.rowLen).any fun n => m.err (a + n)).map
    fun a => { start := a, len := b.rowLen }

/-- The lines of the box. -/
def Tablet.lines (b : Tablet) : List Nat := linesOf b.base b.span

/-- The A operand: its element box and, when scaled, its scale box at `sb`, or behind the element box when `sb` is zero (R317). -/
def tabletsA (g : Grant) (base sb : Nat) : List Tablet :=
  let b := tablet base g.m g.k g.aty.width
  if scaledType g.aty g.blk then
    [b, tablet (if sb = 0 then base + b.span else sb) g.m (ceilDiv g.k (blockUnit g.blk)) 16]
  else [b]

/-- The scale box of a B operand at the acceptance of `TLDB` (R316). -/
def scaleBoxB (g : Grant) (base sb : Nat) : Option Nat :=
  if scaledType g.bty g.blk then
    some (if sb = 0 then base + (tablet base g.k g.n g.bty.width).span else sb)
  else none

/-- The recorded B operand. -/
def tabletsB (r : RecordedB) : List Tablet :=
  tablet r.box r.k r.n r.bty.width ::
    (match r.scales with
     | some b => [tablet b (ceilDiv r.k (blockUnit r.blk)) r.n 16]
     | none => [])

/-! ## The address phase of boxes (R308) -/

/-- The lowest byte of some boxes that fails a test: of their first bytes and of their spans (R308). -/
def firstByte (bs : List Tablet) (bad : Nat → Bool) : Option Nat :=
  ((bs.flatMap fun b => (List.range (max 1 b.span)).map (b.base + ·)).filter bad).min?

/-- A byte of the window that is in range. -/
def windowByte (s : State) (a : Nat) : Bool := inWindow a && backed s (a - Config.windowBase)

/-- The checks of the boxes, in the order of R308's table. -/
def boxFault (s : State) (bs : List Tablet) : Option Report :=
  match bs.find? fun b => b.base % 64 != 0 with
  | some b => some (accessReport 0x30#8 0 (b.base : Nat))
  | none =>
    match firstByte bs fun a => !windowByte s a with
    | some a => some (accessReport 0x31#8 0 (a : Nat))
    | none => (firstByte bs fun a => !ownedBy s s.team.part (a - Config.windowBase)).map fun a => accessReport 0x32#8 0 (a : Nat)

/-- The address phase of the boxes, then the acceptance. -/
def withBoxes (s : State) (checked : List Tablet) (k : State → State) : State :=
  match boxFault s checked with
  | some r => trapHere s r 0
  | none => k s

/-! ## `TLDB` and residency (R316, R318) -/

/-- The elements and scales of an operand, as the array keeps them. -/
def readTablets (m : Bytes) (bs : List Tablet) : List LaneWord × List LaneWord :=
  ((bs.head?.map fun b => b.elems m).getD [], ((bs.drop 1).head?.map fun b => b.elems m).getD [])

/-- The recorded B of a slot under a grant becomes resident. -/
def makeResident (s : State) (c : CoreRef) (t : BitVec 3) (g : Grant) (v : List LaneWord × List LaneWord) : State :=
  onCore s c fun x =>
    { x with resident := some { team := s.team.tid, slot := t.toNat, k := g.k, n := g.n, bty := g.bty, blk := g.blk,
                                slots := arraySlots g.bty g.blk g.n v.1 v.2 } }

/-- What a core's array holds at row i and column c of macro m; zero before any operand (13 R297). -/
def arrayAt (s : State) (c : CoreRef) (m i j : Nat) : ArraySlot :=
  match (coreOf s c).resident with
  | some r => r.macroSlot (columnGroups s c.num) m i j
  | none => { sig := 0#8, side := 0#8 }

/-- The resident operand of a slot on its home core. -/
def residentFor (s : State) (home : CoreRef) (t : BitVec 3) : Option Resident :=
  (coreOf s home).resident.filter fun r => r.team == s.team.tid && r.slot == t.toNat

/-- ceil(gK · gN / 1,024) (17 R375). -/
def loadToll (t : BitVec 3) (s : State) : Nat :=
  match s.grant t with
  | some g => ceilDiv (g.k * g.n) 1024
  | none => 0

/-! ## Multiplication (R311–R314) -/

/-- Operands as an engine has read them: elements and scales, row by row. -/
structure Factors where
  a : List LaneWord
  sa : List LaneWord
  b : List LaneWord
  sb : List LaneWord
  deriving DecidableEq, Repr

/-- A scale: 1 for an operand that carries none. -/
def scaleAt (scaled : Bool) (xs : List LaneWord) (i : Nat) : Exact :=
  if scaled then (fmtOf .sc12).value (xs.getD i 0#32) else Exact.ofInt 1

/-- The exact product of an element of A and one of B: by the digit slices and the columns of an M-core's array, by the tree of an E-core (13 R299, R301). -/
def productOn (cls : CoreClass) (aty bty : ET) (a b : LaneWord) : Exact :=
  match cls with
  | .m => columnProduct aty bty a (arraySlot bty b)
  | .e => ((elemValue aty a).mul (elemValue bty b)).1

/-- The term of position k for output (i, j), on a core of a class (R311). -/
def termAt (cls : CoreClass) (g : Grant) (f : Factors) (i j k : Nat) : Exact :=
  let bl := blockUnit g.blk
  let sa := scaleAt (scaledType g.aty g.blk) f.sa (i * ceilDiv g.k bl + k / bl)
  let sb := scaleAt (scaledType g.bty g.blk) f.sb (k / bl * g.n + j)
  (((productOn cls g.aty g.bty (f.a.getD (i * g.k + k) 0#32) (f.b.getD (k * g.n + j) 0#32)).mul sa).1.mul sb).1

/-- The terms of chunk c; +0 without a recorded B (R317). -/
def chunkTerms (cls : CoreClass) (g : Grant) (f : Option Factors) (i j c : Nat) : List Exact :=
  (List.range 32).map fun q => match f with
    | some f => termAt cls g f i j (32 * c + q)
    | none => Exact.zero

/-- The exact integer of a term of an integer pair. -/
def termInt : Exact → Int
  | .fin neg m e => let v : Int := (onGrid m e (min e 0) : Nat); if neg then -v else v
  | .nan | .inf _ => 0

/-- One chunk applied to one output, with IS (R312, R313). -/
def applyChunk (int : Bool) (acc : LaneWord) (ts : List Exact) : LaneWord × Bool :=
  if int then
    let y := acc.toInt + (ts.map termInt).sum
    let r := clampTo .int32 y
    (intBits .int32 r.1, r.2)
  else (windowSum acc ts, false)

/-- Every chunk of one output, in increasing order. -/
def applyChunks (cls : CoreClass) (g : Grant) (f : Option Factors) (i j : Nat) (acc : LaneWord) : LaneWord × Bool :=
  (List.range (g.k / 32)).foldl (fun r c =>
    let x := applyChunk (intKind g.aty) r.1 (chunkTerms cls g f i j c)
    (x.1, r.2 || x.2)) (acc, false)

/-- The outputs of a multiply. -/
def outputs (cls : CoreClass) (g : Grant) (f : Option Factors) (acc : List LaneWord) : List (LaneWord × Bool) :=
  acc.mapIdx fun p v => applyChunks cls g f (p / g.n) (p % g.n) v

/-- ceil(gM · gN · gK / 1,024) · b (17 R375). -/
def multiplyToll (t : BitVec 3) (s : State) : Nat :=
  match s.grant t with
  | some g => ceilDiv (g.m * g.n * g.k) 1024 * digitsOf g.aty
  | none => 0

/-! ## Operations as they perform (R307, R309, R310) -/

/-- The home core of an operation. -/
def LateOp.home (s : State) (o : LateOp) : CoreRef := homeOf s.team.site o.slot

/-- The boxes that an operation reads: those of B unless the array holds it, for a load only on an M-core. -/
def LateOp.reads (s : State) (o : LateOp) : List Tablet :=
  match o.as with
  | none => if (o.home s).cls == .m then o.bs else []
  | some as => as ++ if (residentFor s (o.home s) o.slot).isSome then [] else o.bs

/-- The result of a multiply: the values, the chunk count, and IS. -/
def multiplied (s : State) (t : BitVec 3) (g : Grant) (f : Option Factors) : State × BitVec 7 :=
  let out := outputs (homeOf s.team.site t).cls g f (s.team.slot t).acc
  (s.onSlot t fun x => { x with acc := out.map (·.1), chunks := x.chunks + BitVec.ofNat 64 (g.k / 32) },
   if out.any (·.2) then 0x40#7 else 0#7)

/-- The operands of a multiply; none without a recorded B (R317). -/
def LateOp.factors (s : State) (o : LateOp) (as : List Tablet) (m : Bytes) : Option Factors :=
  if o.bs.isEmpty then none
  else
    let va := readTablets m as
    let vb := match residentFor s (o.home s) o.slot with
      | some r => (r.elems, r.scales)
      | none => readTablets m o.bs
    some { a := va.1, sa := va.2, b := vb.1, sb := vb.2 }

/-- The operand of an operation is resident on an M-core once it has been used. -/
def resided (s : State) (o : LateOp) (f : Option Factors) : State :=
  match f with
  | some f => if (o.home s).cls == .m then makeResident s (o.home s) o.slot o.grant (f.b, f.sb) else s
  | none => s

/-- The uncorrectable error that an operation meets in what it has read, or in the accumulator store. -/
def LateOp.error (s : State) (o : LateOp) (m : Bytes) : Option Report :=
  match (o.reads s).findSome? fun b => b.bad m with
  | some sp => some (checkReport s sp sp.start 0 0)
  | none => if o.as.isSome && !(s.team.slot o.slot).bad.isEmpty then some (storeCheck s o.slot 0) else none

/-- What an operation does as it performs, with the bytes that it has read: the state, the status that it brings, and the fault that is recorded against it. On a slot that has lost its grant it does nothing. -/
def LateOp.effect (s : State) (o : LateOp) (m : Bytes) : State × BitVec 7 × Option Report :=
  if (s.grant o.slot).isNone then (s, 0#7, none)
  else
    match o.error s m with
    | some r => (((s.onSlot o.slot fun _ => {}).met r).draw, 0#7, some (engineCheck s r).settled)
    | none =>
      match o.as with
      | none => (if (o.home s).cls == .m then makeResident s (o.home s) o.slot o.grant (readTablets m o.bs) else s, 0#7, none)
      | some as =>
        let f := o.factors s as m
        let r := multiplied (resided s o f) o.slot o.grant f
        (r.1, r.2, none)

/-- The memory as it is now. -/
def memoryNow (s : State) : Bytes := { get := fun a => readByte s a 0, err := fun a => errorAt s a 0 1 }

/-- Lines as they have been read. -/
def bufferBytes (ls : List ReadLine) : Bytes :=
  let line (a : Nat) : Option ReadLine := ls.find? fun l => l.line == a / 128
  { get := fun a => ((line a).map fun l => l.bytes.getD (a % 128) 0#8).getD 0#8
    err := fun a => (line a).any fun l => l.bad.contains (a % 128) }

/-- An operation performs at its acceptance. -/
def performNow (s : State) (fs : FSel) (o : LateOp) : State :=
  match o.effect s (memoryNow s) with
  | (s, _, some r) => (s.record fs noResult r 0).advance
  | (s, status, none) => (s.bear fs { noResult with status := status }).advance

/-- An operation waits, accepted, to perform later. -/
def performLater (s : State) (fs : FSel) (o : LateOp) : State :=
  let s := s.onWarp fun w =>
    { w with
      pending := w.pending ++ [{ noResult with seq := w.seq, pc := addrWord w.at.pc, home := w.at.hdr, flag := flagOf w.at fs, late := true }]
      seq := w.seq + 1 }
  (s.onTeam fun t => { t with late := t.late ++ [o] }).advance

/-- An operation must wait: for those accepted before it on its slot, or for a line that an engine holds. -/
def LateOp.waits (s : State) (o : LateOp) : Bool := slotBusy s o.slot || ((o.reads s).flatMap Tablet.lines).any (lineAbsent s)

/-- An accepted operation performs at once or later, by a free choice where it need not wait (R309; log 11, DESIGN CHOICE). -/
def acceptOp (s : State) (fs : FSel) (o : LateOp) : State :=
  let later := o.waits s || Config.freeChoice s.draws
  let s := s.draw
  if later then performLater s fs o else performNow s fs o

/-- The lines that an operation has yet to read. -/
def LateOp.unread (s : State) (o : LateOp) : List Nat :=
  (((o.reads s).flatMap Tablet.lines).eraseDups).filter fun l => !o.buffer.any fun b => b.line == l

/-- An operation that has performed is outstanding no longer: its status and its fault stand against it. -/
def opDone (s : State) (o : LateOp) (status : BitVec 7) (fault : Option Report) : State :=
  let mark (x : Outstanding) : Outstanding :=
    if x.seq == o.seq then
      { x with done := true, status := if x.flag.isSome then status else 0#7, fault := fault.map fun r => (r, 0) }
    else x
  s.onMates fun w =>
    if w.idx == o.warp then
      let w := if w.pending.any fun x => x.seq == o.seq && x.flag.isNone then w.raise status else w
      { w with pending := w.pending.map mark }
    else w

/-- A step of an accepted operation, the first on its slot: it reads some of its lines that are present, each once, and performs when it has read them all (R309). -/
def stepOp (s : State) (o : LateOp) : State :=
  let here := (o.unread s).filter fun l => !lineAbsent s l
  let some1 := match here.filter fun l => Config.freeChoice (s.draws + l) with
    | [] => here
    | x :: xs => x :: xs
  let next := { o with buffer := o.buffer ++ some1.map fun l => readLine s { key := 128 * l } }
  let s := s.draw
  if (next.unread s).isEmpty then
    let r := next.effect (s.onTeam fun t => { t with late := t.late.erase o }) (bufferBytes next.buffer)
    opDone r.1 o r.2.1 r.2.2
  else s.onTeam fun t => { t with late := t.late.map fun x => if x == o then next else x }

/-- The operation of a warp at a program-order position, when it is the first on its slot. -/
def firstOp (s : State) (seq : Nat) : Option LateOp :=
  (s.team.late.find? fun o => o.warp == s.warp.idx && o.seq == seq).filter fun o =>
    (s.team.late.find? fun x => x.slot == o.slot) == some o

/-! ## The instructions -/

def execTldb (fs : FSel) (t : BitVec 3) (a b : BitVec 6) (s : State) : Result :=
  matrixWord s [pendingOk s fs 0] t (loadToll t) fun s =>
    match s.grant t with
    | none => s.advance
    | some g =>
      let base := (s.warp.readS a).toNat
      let r : RecordedB := { box := base, scales := scaleBoxB g base (s.warp.readS b).toNat, k := g.k, n := g.n, bty := g.bty, blk := g.blk }
      withBoxes s (tabletsB r) fun s =>
        acceptOp (s.onSlot t fun x => { x with recB := some r }) fs
          { warp := s.warp.idx, seq := s.warp.seq, slot := t, grant := g, as := none, bs := tabletsB r }

/-- `TMMA` and `TMMAS`, with the address of the A scales, zero for those behind the A box. -/
def multiply (s : State) (fs : FSel) (t : BitVec 3) (a : BitVec 6) (scales : Warp → Nat) : Result :=
  matrixWord s [pendingOk s fs 0] t (multiplyToll t) fun s =>
    match s.grant t with
    | none => s.advance
    | some g =>
      if g.k = 0 then s.advance
      else
        let as := tabletsA g (s.warp.readS a).toNat (scales s.warp)
        withBoxes s as fun s =>
          acceptOp s fs
            { warp := s.warp.idx, seq := s.warp.seq, slot := t, grant := g, as := some as,
              bs := ((s.team.slot t).recB.map tabletsB).getD [] }

def execTmma (fs : FSel) (t : BitVec 3) (a : BitVec 6) (s : State) : Result := multiply s fs t a fun _ => 0

def execTmmas (fs : FSel) (t : BitVec 3) (a b : BitVec 6) (s : State) : Result := multiply s fs t a fun w => (w.readS b).toNat

end Sys2Proof.Machine
end

