-- ==== Sys2Proof/Machine/Clause.lean ====
section
/-! DEFINITION. The start of a clause and the completion of an instruction (02_words_and_registers.md R29–R38; 14_matrix_instructions.md R310). -/
namespace Sys2Proof.Machine
open Sys2Proof

/-- The flags that a header names in WAIT, SETA or SETB (R33). -/
def headerNames (h : Header) (f : Nat) : Bool := h.wait.getLsbD f || h.setA.toNat == f || h.setB.toNat == f

/-- A pending instruction attached to a flag that a header names. -/
def headerCovers (h : Header) (o : Outstanding) : Bool := o.flag.any (headerNames h)

/-- A synchronous instruction, which completes before the next clause starts (R34). -/
def synchronous (o : Outstanding) : Bool := o.flag.isNone

/-- The site of a trap at the start of a clause (R330). -/
def Warp.startSite (w : Warp) : TrapSite :=
  { pc := w.at.hdr, npc := w.at.hdr, hdr := w.at.hdr, vstart := w.vstart }

/-- The recorded fault that a commit meets is taken before the clause starts, with DEFER = 1 (R38, R310); the commit of the trap's entry finds it again. -/
def startFault (s : State) (o : Outstanding) : State :=
  match o.fault with
  | some (r, _) => takeTrap s r s.warp.startSite s.warp.at.hdr
  | none => s

/-- The words of the clause, once fetched, at the warp or at the lanes of the issuing group. -/
def Warp.begin (w : Warp) (h : Word) (ws : List Word) : Warp :=
  let start (p : Position) : Position := { p with header := h, words := ws, idx := 1 }
  match w.lanes with
  | none => { w with pos := start w.pos, park := .none, service := {} }
  | some lm =>
    { w with lanes := some (lm.onLanes lm.group fun _ l => { l with pos := start l.pos }), park := .none, service := {} }

/-- The steps of R33 for a clause that has been fetched; in lane mode a header's flags have no effect (05_teams_and_warps.md R104). -/
def startFetched (s : State) (h : Word) (ws : List Word) : State :=
  if s.warp.inLanes then s.onWarp fun w => w.begin h ws
  else
    let hd := Header.ofBits h
    if s.warp.mustWait (headerCovers hd) then s.parkOn (s.warp.waitOn (headerCovers hd))
    else
      match s.warp.commit (headerCovers hd) with
      | (w, none) => { s with warp := w.begin h ws }
      | (_, some o) => startFault s o

/-- The fetch of the clause at the warp's position, and its start. -/
def startNext (s : State) : State :=
  let hdr := s.warp.at.hdr
  match fetchClause s s.warp.intrap hdr with
  | .miss m => parkOnMisses s hdr [m]
  | .wait line => s.parkOn (.presence line)
  | .fault r _ => takeTrap s r s.warp.startSite hdr
  | .got (h, ws) s => startFetched s h ws

/-- The start of the next clause of the focused warp, which stands at its header. -/
def startClause (s : State) : State :=
  if s.warp.mustWait synchronous then s.parkOn (s.warp.waitOn synchronous)
  else
    match s.warp.commit synchronous with
    | (w, none) => startNext { s with warp := w }
    | (_, some o) => startFault s o

/-- `CLAUSE_START`: a running warp that stands between clauses. -/
def execClauseStart (s : State) : Result :=
  .next (if s.warp.status == .running && s.warp.at.idx == 0 then startClause s else s)

/-- The instruction at a program-order position completes, unless an engine completes it. -/
def Warp.finish (w : Warp) (seq : Nat) : Warp :=
  { w with pending := w.pending.map fun o => if o.seq == seq && o.copy.isNone && !o.late then { o with done := true } else o }

/-- `INSTRUCTION_COMPLETION`: its flag is outstanding no longer, unless another instruction holds it (R33); a matrix operation reads on, and completes when it has read everything (14_matrix_instructions.md R309). -/
def execInstructionCompletion (w : WarpRef) (seq : Nat) (s : State) : Result :=
  .next (withWarp s w fun s =>
    if s.me == w then
      match firstOp s seq with
      | some o => stepOp s o
      | none => s.onWarp fun x => x.finish seq
    else s)

end Sys2Proof.Machine
end

