-- ==== Sys2Proof/Machine/Drain.lean ====
section
/-! DEFINITION. Drains and tile images: `TSLV`, `TSVL`, `TSTR`, `TSAVE`, `TLOAD` (14_matrix_instructions.md R320–R327). -/
namespace Sys2Proof.Machine
open Sys2Proof

/-! ## The drain value (R320) -/

/-- An accumulator value. -/
def accValue (aty : ET) (v : LaneWord) : Exact := if intKind aty then Exact.ofInt v.toInt else (fmtOf .fp32).value v

/-- A BF16 channel scale. -/
def channelScale (xs : List (BitVec 16)) (i : Nat) : Exact := (fmtOf .bf16).value ((xs.getD i 0#16).setWidth 32)

/-- acc · cA · cB, exactly, with the NV of ∞ · 0; a NaN factor gives NaN without it. -/
def drainValue (g : Grant) (x : Slot) (i j : Nat) : Exact × Bool :=
  let a := accValue g.aty (x.acc.getD (i * g.n + j) 0#32)
  let ca := channelScale x.ca i
  let cb := channelScale x.cb j
  if a.isNaN || ca.isNaN || cb.isNaN then (.nan, false)
  else
    let p := a.mul ca
    let q := p.1.mul cb
    (q.1, p.2 || q.2)

/-- A position inside the extent of a slot's grant. -/
def inExtent (x : Slot) (i j : Nat) : Bool :=
  match x.grant with
  | some g => i < g.m && j < g.n
  | none => false

/-- The place of a value in the store. -/
def accIndex (x : Slot) (i j : Nat) : Nat := (x.grant.elim 0 fun g => i * g.n) + j

/-- An output converted to a type: +0 and no status beyond the extent. -/
def drainElem (x : Slot) (et : ET) (md : Mode) (nsat : Bool) (i j : Nat) : Elem :=
  match x.grant with
  | some g =>
    if i < g.m && j < g.n then
      let v := drainValue g x i j
      let r := convert et md nsat v.1
      { bits := r.bits, flags := { r.flags with nv := r.flags.nv || v.2 } }
    else { bits := (convert et md nsat Exact.zero).bits }
  | none => { bits := (convert et md nsat Exact.zero).bits }

/-- Row x, element k of a row, or element k of a column. -/
def lineIndex (col : Bool) (x k : Nat) : Nat × Nat := if col then (k, x) else (x, k)

/-- A value of the store that an access to it finds uncorrectable. -/
def badValue (x : Slot) (p : Nat × Nat) : Bool := inExtent x p.1 p.2 && x.bad.contains (accIndex x p.1 p.2)

/-! ## `TSLV` and `TSVL` (R321, R322) -/

/-- A drain to registers: an uncorrectable value below any FP trap takes the machine check at its element (09_loads_stores_streams.md R199; log 19, DESIGN CHOICE). -/
def execTslv (mk : BitVec 3) (mz : Bool) (col : Bool) (md : Mode) (nsat : Bool) (et : ET) (t : BitVec 3) (d a : BitVec 6) (s : State) :
    Result :=
  guarded [vecOk s d et.width, slotOk s t, vectorOnly s] s fun s =>
    whenEnabled s t fun s =>
    tolled s s.warp.vl fun s =>
    onIdleSlot s t fun s =>
      let x := s.team.slot t
      let at' := lineIndex col (s.warp.readS a).toNat
      let f (k : Nat) : Elem := drainElem x et md nsat (at' k).1 (at' k).2
      let bad := (activeElems s.warp).find? fun k => maskBit s.warp mk k && badValue x (at' k)
      let fp := trapElem s.warp mk f
      let stop := match bad, fp with
        | some k, some (j, e) => if k ≤ j then some (k, storeCheck s t k) else some (j, fpReport e j 0x20#8)
        | some k, none => some (k, storeCheck s t k)
        | none, some (j, e) => some (j, fpReport e j 0x20#8)
        | none, none => none
      let bound := match stop with
        | some (k, _) => k
        | none => s.warp.vl
      let s := s.onWarp fun w => (w.writeLanes (elemWrites s d et.width mk mz bound f)).raise (elemStatus w mk bound f)
      match stop with
      | some (k, r) => trapHere s r k
      | none => s.fromStart.advance

/-- The value that `TSVL` writes for an element. -/
def fillElem (et : ET) (md : Mode) (int : Bool) (v : LaneWord) : Elem :=
  if et == .fp32 then
    if int then let r := cvtInt .int32 md ((fmtOf .fp32).value v); { bits := r.bits, flags := r.flags }
    else if ((fmtOf .fp32).value v).isNaN then { bits := (fmtOf .fp32).canonicalNaN }
    else { bits := v }
  else if int then { bits := v }
  else let r := rnd (fmtOf .fp32) md (Exact.ofInt v.toInt); { bits := r.bits, flags := r.flags }

/-- One value of a slot written. -/
def Slot.put (x : Slot) (p : Nat × Nat) (v : LaneWord) : Slot :=
  { x with acc := x.acc.set (accIndex x p.1 p.2) v, bad := x.bad.filter (· != accIndex x p.1 p.2) }

def execTsvl (mk : BitVec 3) (col : Bool) (md : Mode) (et : ET) (t : BitVec 3) (a b : BitVec 6) (s : State) : Result :=
  guarded [vecOk s b 32, slotOk s t, vectorOnly s] s fun s =>
    whenEnabled s t fun s =>
    tolled s s.warp.vl fun s =>
    onIdleSlot s t fun s =>
      let w := s.warp
      let x := s.team.slot t
      let place := lineIndex col (w.readS a).toNat
      let int := x.grant.elim false fun g => intKind g.aty
      let f (k : Nat) : Elem := fillElem et md int (readElem s b 32 k)
      let live := (activeElems w).filter fun k => maskBit w mk k && !isPad w k && inExtent x (place k).1 (place k).2
      let stop := live.find? fun k => enabledTrap w.fpctl (f k).flags
      let done := live.filter fun k => match stop with
        | some j => k < j
        | none => true
      let s := s.onSlot t fun x => done.foldl (fun x k => x.put (place k) (f k).bits) x
      let s := s.onWarp fun w => w.raise (done.foldl (fun acc k => acc ||| (f k).flags.bits) 0#7)
      match stop with
      | some k => trapHere s (fpReport (f k).flags k 0x20#8) k
      | none => s.fromStart.advance

/-! ## `TSTR` (R323) -/

/-- Where an accepted `TSTR` ends early: an FP exception, an uncorrectable value of the slot, an uncorrectable destination line. -/
inductive DrainStop where
  | fp (k : Nat) (r : Report)
  | slot (k : Nat) (r : Report)
  | line (k : Nat) (r : Report)
  deriving DecidableEq, Repr

def DrainStop.elem : DrainStop → Nat
  | .fp k _ => k
  | .slot k _ => k
  | .line k _ => k

/-- The first stop among the elements of an accepted `TSTR`, which are all converted before any is written; then that of the destination. -/
def drainStop (s : State) (t : BitVec 3) (f : Nat → Elem) (row : Nat) (ks : List Nat) (line : Option Stop) : Option DrainStop :=
  let x := s.team.slot t
  match ks.find? fun k => badValue x (row, k) || enabledTrap s.warp.fpctl (f k).flags with
  | some k => some (if badValue x (row, k) then .slot k (storeCheck s t k) else .fp k (fpReport (f k).flags k 0x20#8))
  | none =>
    match line with
    | some (.error k r) => some (.line k r)
    | some (.fault _ _) | some (.trim _) | none => none

/-- A `TSTR` whose address phase is over: `oks` are its elements in place, `line` what its destination met. -/
def drainStore (s : State) (fs : FSel) (et : ET) (md : Mode) (nsat : Bool) (t : BitVec 3) (row : Nat) (oks : List (Elt × Loc))
    (line : Option Stop) : State :=
  let x := s.team.slot t
  let f (k : Nat) : Elem := drainElem x et md nsat row k
  let stop := drainStop s t f row (oks.map fun o => o.1.k) line
  let todo := oks.filter fun o => match stop with
    | some st => o.1.k < st.elem
    | none => true
  let status := todo.foldl (fun acc o => acc ||| (f o.1.k).flags.bits) 0#7
  let s := healLines (storeElts et.width (fun k => stored et ((f k).bits.setWidth 64)) todo s) et.width todo
  let s := settle s s.team.part todo
  match stop with
  | none => (s.bear fs { noResult with status := status }).advance
  | some (.slot k r) =>
    ((((s.onSlot t fun _ => {}).record fs { noResult with status := status } { r with va := Config.freeWord s.draws } k).draw)).advance
  | some (.fp k r) | some (.line k r) => (s.record fs { noResult with status := status } r k).advance

def execTstr (fs : FSel) (mk : BitVec 3) (tm : TstrMode) (md : Mode) (nsat : Bool) (et : ET) (t : BitVec 3) (a b c : BitVec 6) (s : State) :
    Result :=
  let index : List (Bool × IllegalReason) := match tm with
    | .x => [vecOk s c 32]
    | .u | .s => []
  guarded (index ++ [slotOk s t, vectorOnly s, pendingOk s fs 0]) s fun s =>
    whenEnabled s t fun s =>
    tolled s s.warp.vl fun s =>
    onIdleSlot s t fun s =>
      let w := s.warp
      let row := (w.readS a).toNat
      let base : Int := ((w.readS b).toNat : Nat)
      let v : VecAccess := match tm with
        | .u => unitAccess et base
        | .s => stridedAccess et base (w.readS c).toInt
        | .x => indexedAccess s et base c
      let q := s.ask .write et.width
      let live := (v.live w mk).filter fun x => inExtent (s.team.slot t) row x.k
      let phase := addressStop s q live
      if let some (.fault k r) := phase then trapHere (keepOks s q.part (probe s q q.fresh live).oks) r k
      else
      match planOf s q live with
      | .misses oks ms => parkAsked s q oks ms
      | .wait line oks => parkOnLine s q line oks
      | .run oks st =>
        let s := match phase with
          | some (.trim k) => s.onWarp fun w => trimStrip w k
          | some (.fault _ _) | some (.error _ _) | none => s.fromStart
        drainStore s fs et md nsat t row oks st

/-! ## Images (R324) -/

/-- One step of the CRC-32 of IEEE 802.3, reflected. -/
def crcBit (c : BitVec 32) : BitVec 32 := if c.getLsbD 0 then (c >>> 1) ^^^ 0xEDB88320#32 else c >>> 1

def crcByte (c : BitVec 32) (b : Byte) : BitVec 32 := (List.range 8).foldl (fun c _ => crcBit c) (c ^^^ b.setWidth 32)

/-- The CRC-32 of some bytes; zero for none. -/
def crc32 (bs : List Byte) : BitVec 32 := if bs.isEmpty then 0#32 else ~~~(bs.foldl crcByte 0xFFFFFFFF#32)

/-- The value bytes of a slot. -/
def Slot.valueBytes (x : Slot) : List Byte := x.acc.flatMap fun v => leBytes 4 v.toNat

/-- TYPE: 1 for INT32 values. -/
def kindCode (g : Grant) : Nat := if intKind g.aty then 1 else 0

/-- The word at 0x0C. -/
def grantWord (g : Grant) : Nat := g.status.toNat * 65536 + g.blk.toNat * 256 + g.bty.code.toNat * 16 + g.aty.code.toNat

/-- The image of a slot (Table 2). -/
def Slot.imageBytes (x : Slot) : List Byte :=
  let g := x.grant
  let vs := if g.isSome then x.valueBytes else []
  leBytes 4 0x5A575449 ++ leBytes 4 ((g.elim 0 kindCode) * 256 + 1) ++
    leBytes 4 (g.elim 0 fun g => g.n * 65536 + g.m) ++ leBytes 4 (g.elim 0 grantWord) ++
    leBytes 8 (if g.isSome then x.chunks.toNat else 0) ++ leBytes 4 (crc32 vs).toNat ++ List.replicate 36 0#8 ++ vs

/-- An image as read: its header's fields and values. -/
structure Image where
  m : Nat
  n : Nat
  kind : Nat
  aty : ET
  bty : ET
  blk : BitVec 3
  gstat : BitVec 16
  chunks : BitVec 64
  crc : BitVec 32
  /-- MAGIC, VERSION and the reserved fields are as they must be. -/
  framed : Bool
  deriving DecidableEq, Repr

/-- n bytes of a header at an offset, as a number. -/
def headField (bs : List Byte) (off n : Nat) : Nat := leValue ((bs.drop off).take n)

/-- A header read from its 64 bytes. -/
def Image.ofHeader (bs : List Byte) : Image :=
  let c := headField bs 12 4
  { m := headField bs 8 2, n := headField bs 10 2, kind := headField bs 5 1,
    aty := ET.ofCode (BitVec.ofNat 4 c), bty := ET.ofCode (BitVec.ofNat 4 (c / 16)), blk := BitVec.ofNat 3 (c / 256),
    gstat := BitVec.ofNat 16 (c / 65536), chunks := BitVec.ofNat 64 (headField bs 16 8), crc := BitVec.ofNat 32 (headField bs 24 4),
    framed := headField bs 0 4 == 0x5A575449 && headField bs 4 1 == 1 && headField bs 6 2 == 0 && c / 2048 % 32 == 0 &&
      ((bs.drop 28).take 36).all (· == 0#8) && (headField bs 8 2 != 0 || c == 0) }

/-- 0, or a multiple of 8 from 8 to 256. -/
def sideOk (n : Nat) : Bool := n % 8 = 0 && n ≤ 256

/-- The type pair and block code that R284 requires, and TYPE. -/
def Image.typesOk (x : Image) : Bool :=
  if x.m = 0 then x.kind ≤ 1
  else
    ((x.aty.isTileFloat && x.bty.isTileFloat && x.kind = 0) || (x.aty.isTileInt && x.bty.isTileInt && x.kind = 1)) &&
      x.blk.toNat ≤ 5 && (x.blk = 0#3 || x.aty.isNarrowF || x.bty.isNarrowF)

/-- The first failing check of an image's header (R326). -/
def Image.refusal (s : State) (t : BitVec 3) (x : Image) : Option (BitVec 8) :=
  let c := coreMaxima s (homeOf s.team.site t)
  if !x.framed || !sideOk x.m || !sideOk x.n || (x.m == 0) != (x.n == 0) || !x.typesOk then some 0x34#8
  else if c.m < x.m || c.n < x.n || s.team.launch.slotBytes < 4 * x.m * x.n then some 0x35#8
  else none

/-- What an accepted image makes of a slot. -/
def Image.slot (x : Image) (vs : List LaneWord) : Slot :=
  if x.m = 0 then {}
  else
    { grant := some { m := x.m, n := x.n, k := 0, aty := x.aty, bty := x.bty, blk := x.blk, status := x.gstat ||| stRestored }
      restored := some (x.m, x.n), acc := vs, chunks := x.chunks, ca := List.replicate x.m oneScale,
      cb := List.replicate x.n oneScale }

/-! ## `TSAVE` and `TLOAD` (R325, R326) -/

/-- The 8-byte pieces of an image's span. -/
def imageElts (base : Word) (n : Nat) : List Elt := (List.range (n / 8)).map fun k => { k := k, va := (base.toNat + 8 * k : Nat) }

/-- The fault of an image's first byte: canonical, then a multiple of 64. -/
def imageFault (base : Word) : Option Report :=
  match canonicalFault ((base.toNat : Nat) : Int) with
  | some r => some (canonReport r 0 (base.toNat : Nat))
  | none => if base.toNat % 64 != 0 then some (accessReport 0x30#8 0 (base.toNat : Nat)) else none

/-- What the address phase of an image's bytes gives: it has trapped or parked, or the bytes have their places. -/
inductive Phased where
  | out (s : State)
  | run (oks : List (Elt × Loc)) (stop : Option Stop)

/-- The address phase of n bytes of an image as one access (R325). -/
def imagePhase (s : State) (acc : Access) (base : Word) (n : Nat) : Phased :=
  match imageFault base with
  | some r => .out (trapHere s r 0)
  | none =>
    let q := { s.ask acc 64 with trims := false }
    let xs := imageElts base n
    if let some (.fault _ r) := addressStop s q xs then .out (trapHere (keepOks s q.part (probe s q q.fresh xs).oks) r.atZero 0)
    else
    match planOf s q xs with
    | .misses oks ms => .out (parkAsked s q oks (ms.map fun m => { m with elem := 0 }))
    | .wait line oks => .out (parkOnLine s q line oks)
    | .run oks st => .run oks st

/-- The eight bytes of piece k. -/
def pieceOf (bs : List Byte) (k : Nat) : Word := BitVec.ofNat 64 (headField bs (8 * k) 8)

def execTsave (fs : FSel) (t : BitVec 3) (a : BitVec 6) (s : State) : Result :=
  matrixWord s [pendingOk s fs 0] t (extentToll t) fun s =>
    onIdleSlot s t fun s =>
    let x := s.team.slot t
    let bs := x.imageBytes
    match imagePhase s .write (s.warp.readS a) bs.length with
    | .out s => s
    | .run oks st =>
      if !x.bad.isEmpty then failSlot s fs t (storeCheck s t 0)
      else
        let s := settle (healLines (storeElts 64 (pieceOf bs) oks s) 64 oks) s.team.part oks
        match st with
        | some (.error _ r) => (s.record fs noResult r.atZero 0).advance
        | some (.fault _ _) | some (.trim _) | none => (s.bear fs noResult).advance

/-- The bytes that pieces hold. -/
def pieceBytes (s : State) (oks : List (Elt × Loc)) : List Byte := oks.flatMap fun x => leBytes 8 (loadElt s 64 x).toNat

/-- An image refused: the slot is unchanged. -/
def refuseImage (s : State) (fs : FSel) (base : Word) (reason : BitVec 8) : State :=
  (s.record fs noResult (accessReport reason 0 (base.toNat : Nat)) 0).advance

/-- An image whose header and values have been read: its checks, in the order of R326, then the slot that it makes. -/
def takeImage (s : State) (fs : FSel) (t : BitVec 3) (base : Word) (bs : List Byte) : State :=
  let h := Image.ofHeader bs
  match h.refusal s t with
  | some r => refuseImage s fs base r
  | none =>
    let values := bs.drop 64
    if crc32 values != h.crc then refuseImage s fs base 0x36#8
    else
      let vs := (List.range (h.m * h.n)).map fun i => BitVec.ofNat 32 (headField values (4 * i) 4)
      ((s.onSlot t fun _ => h.slot vs).bear fs noResult).advance

/-- The bytes of an image read: its header, then the values that its M and N name (R326). -/
def execTload (fs : FSel) (t : BitVec 3) (a : BitVec 6) (s : State) : Result :=
  matrixWord s [pendingOk s fs 0] t (extentToll t) fun s =>
    onIdleSlot s t fun s =>
    let base := s.warp.readS a
    match imagePhase s .read base 64 with
    | .out s => s
    | .run _ (some (.error _ r)) => failSlot s fs t r
    | .run head _ =>
      let h := Image.ofHeader (pieceBytes s head)
      match imagePhase s .read base (64 + 4 * h.m * h.n) with
      | .out s => s
      | .run _ (some (.error _ r)) => failSlot s fs t r
      | .run oks _ => takeImage (settle s s.team.part oks) fs t base (pieceBytes s oks)

end Sys2Proof.Machine
end

