-- ==== Sys2Proof/Machine/Flow.lean ====
section
/-! DEFINITION. Branches, calls and returns 0x20–0x27 (04_scalar_and_flow.md R79–R81, R84). The checks of a taken target are those of the start of its clause (R80). -/
namespace Sys2Proof.Machine
open Sys2Proof

/-- h + 8d for the clause of a position (R79). -/
def Position.relative (p : Position) (disp : BitVec 32) : Int := p.hdr + 8 * disp.toInt

/-- A branch decided once for the warp, or by each lane of the group for itself (R84). -/
def branch (s : State) (regs : List (BitVec 6)) (disp : BitVec 32) (taken : Bool) (laneTaken : Nat → Bool) : Result :=
  if s.warp.inLanes then
    guarded (regs.map fun r => (regOk s r, .register)) s fun s =>
      s.onWarp fun w =>
        ((w.yieldHint w.at).moveTo fun l p => if laneTaken l then { hdr := p.relative disp } else p.after).issued
  else if taken then .next (s.onWarp fun w => w.goto (w.at.relative disp))
  else .next s.advance

def execBr (disp : BitVec 32) (s : State) : Result := branch s [] disp true fun _ => true

def execBrc (cc : Cond) (a b : BitVec 6) (disp : BitVec 32) (s : State) : Result :=
  branch s [a, b] disp (condHolds cc (s.warp.readS a) (s.warp.readS b)) fun l => condHolds cc (laneOf s a l) (laneOf s b l)

def execBrz (a : BitVec 6) (disp : BitVec 32) (s : State) : Result :=
  branch s [a] disp (s.warp.readS a == 0#64) fun l => laneOf s a l == 0#32

def execBrnz (a : BitVec 6) (disp : BitVec 32) (s : State) : Result :=
  branch s [a] disp (s.warp.readS a != 0#64) fun l => laneOf s a l != 0#32

/-- The address of the clause after the current one, as `CALL` and `CALLR` write it into s63. -/
def Warp.link (w : Warp) : Word := addrWord w.at.nextHdr

/-- A transfer that only vector mode permits. -/
def transfer (s : State) (regs : List (BitVec 6)) (f : Warp → Warp) : Result := uniformScalar s regs fun s => s.onWarp f

def execCall (disp : BitVec 32) (s : State) : Result :=
  transfer s [] fun w => (w.writeS 63#6 w.link).goto (w.at.relative disp)

def execCallr (a : BitVec 6) (s : State) : Result :=
  transfer s [a] fun w => (w.writeS 63#6 w.link).goto ((w.readS a).toNat : Nat)

def execRet (s : State) : Result := transfer s [] fun w => w.goto ((w.readS 63#6).toNat : Nat)

def execJmpr (a : BitVec 6) (s : State) : Result := transfer s [a] fun w => w.goto ((w.readS a).toNat : Nat)

end Sys2Proof.Machine
end

