-- ==== Sys2Proof/Machine/Queue.lean ====
section
/-! DEFINITION. Launch-queue descriptors as the caravan master reads, checks and writes them, and the events of its watch (05_teams_and_warps.md R86, R87, R91). -/
namespace Sys2Proof.Machine
open Sys2Proof

/-- A launch-queue descriptor (R86, Table 1). -/
structure QueueDesc where
  base : Nat
  logsize : Nat
  devfed : Bool
  enable : Bool
  tail : BitVec 32
  head : BitVec 32
  err : BitVec 32
  /-- A reserved field is nonzero. -/
  reserved : Bool
  deriving DecidableEq, Repr

/-- The 64 bytes of a descriptor. -/
def QueueDesc.ofBytes (bs : List Byte) : QueueDesc :=
  let field (off n : Nat) : Nat := leValue ((bs.drop off).take n)
  { base := field 0 8, logsize := field 8 1 % 16, devfed := field 8 1 / 16 % 2 = 1, enable := field 8 1 / 32 % 2 = 1,
    tail := BitVec.ofNat 32 (field 16 4), head := BitVec.ofNat 32 (field 24 4), err := BitVec.ofNat 32 (field 28 4),
    reserved := field 8 8 / 64 != 0 || field 20 4 != 0 || !(bs.drop 32).all (· == 0#8) }

/-- The address of a descriptor in the partition's space. -/
def queueAddr (p : Partition) (q : BitVec 3) : Nat := p.qbase.toNat + 64 * q.toNat

def readQueue (s : State) (part : BitVec 4) (q : BitVec 3) : Option QueueDesc :=
  (partRead s part (queueAddr (partOf s part) q) 64).map QueueDesc.ofBytes

/-- LOGSIZE is 1 to 12. -/
def QueueDesc.sized (d : QueueDesc) : Bool := 1 ≤ d.logsize && d.logsize ≤ 12

/-- The error of a descriptor, by the first check that fails (R87). -/
def QueueDesc.fault (d : QueueDesc) : Option Nat :=
  if d.reserved then some 3
  else if !d.sized then some 1
  else if d.base % 128 != 0 then some 4
  else if 2 ^ d.logsize < (d.tail - d.head).toNat then some 2
  else none

/-- What the caravan master keeps of a queue. -/
def onQueue (s : State) (part : BitVec 4) (q : BitVec 3) (f : QueueService → QueueService) : State :=
  onPart s part fun p => { p with queues := p.queues.set q.toNat (f (p.queues.get q.toFin)) q.isLt }

/-- The line that the caravan master's access to a descriptor waits for. -/
def queueHeld (s : State) (part : BitVec 4) (q : BitVec 3) : Option Nat := partHeld s part .read (queueAddr (partOf s part) q) 64

/-- ERR as the device writes it into the descriptor. The spec does not say what follows where it cannot be written: it is dropped, and the queue is out of service all the same (log 61, DESIGN CHOICE). -/
def writeErr (s : State) (part : BitVec 4) (q : BitVec 3) (code : Nat) : State :=
  (partWrite s part (queueAddr (partOf s part) q + 28) (leBytes 4 code)).getD s

/-- A descriptor that could not be read: its error has been met. -/
def queueMet (s : State) (part : BitVec 4) (q : BitVec 3) : State := partMet s part .read (queueAddr (partOf s part) q) 64

/-- A queue in error: ERR is set, the queue is disabled, the host receives the launch-error interrupt. -/
def failQueue (s : State) (part : BitVec 4) (q : BitVec 3) (code : Nat) : State :=
  interrupt (onQueue (writeErr s part q code) part q fun x => { x with serving := false }) part 0

/-- A served queue's descriptor read and checked; what it reads as TAIL counts as observed. -/
def observeQueue (s : State) (part : BitVec 4) (q : BitVec 3) : State :=
  match readQueue s part q with
  | none => failQueue (queueMet s part q) part q 5
  | some d =>
    match d.fault with
    | some code => failQueue s part q code
    | none => onQueue s part q fun x => { x with serving := true, tail := d.tail }

/-- The service that the caravan master gives a queue. -/
def serviceOf (s : State) (part : BitVec 4) (q : BitVec 3) : QueueService := (partOf s part).queues.get q.toFin

/-- `TAIL_OBSERVED`: a served queue's TAIL line. -/
def execTailObserved (part : BitVec 4) (q : BitVec 3) (s : State) : Result :=
  .next (if (serviceOf s part q).serving && (queueHeld s part q).isNone then observeQueue s part q else s)

/-- `QUEUE_DISABLE_WRITE`: the descriptor's ENABLE reads 0, and the queue is served no longer. -/
def execQueueDisableWrite (part : BitVec 4) (q : BitVec 3) (s : State) : Result :=
  .next (if (queueHeld s part q).isSome then s else match readQueue s part q with
    | none => if (serviceOf s part q).serving then failQueue (queueMet s part q) part q 5 else s
    | some d => if d.enable then s else onQueue s part q fun x => { x with enabled := false, serving := false })

/-- `QUEUE_ENABLE_WRITE`: the descriptor's ENABLE reads 1; a queue that is not served has its ERR cleared and its descriptor checked afresh, from its current HEAD. On a queue without error the write has no further effect. -/
def execQueueEnableWrite (part : BitVec 4) (q : BitVec 3) (s : State) : Result :=
  .next (if (serviceOf s part q).serving || (queueHeld s part q).isSome then s
    else
      match readQueue s part q with
      | none => failQueue (queueMet s part q) part q 5
      | some d =>
        if d.enable then
          observeQueue (onQueue (if d.err = 0#32 then s else writeErr s part q 0) part q fun x => { x with enabled := true }) part q
        else s)

end Sys2Proof.Machine
end

