-- ==== Sys2Proof/Machine/Team.lean ====
section
/-! DEFINITION. The team, warp and lane instructions 0x30–0x3C (05_teams_and_warps.md R104–R119). -/
namespace Sys2Proof.Machine
open Sys2Proof

/-! ## Identity and size (R110–R113) -/

/-- The coordinates of a linear team index (R94). -/
def teamIndex (l : LaunchRecord) (lin : Nat) : Nat × Nat × Nat :=
  (lin % l.gridX, lin / l.gridX % l.gridY, lin / l.gridX / l.gridY)

def idValue (s : State) : GetIdSel → Nat
  | .tx => (teamIndex s.team.launch s.team.lin).1
  | .ty => (teamIndex s.team.launch s.team.lin).2.1
  | .tz => (teamIndex s.team.launch s.team.lin).2.2
  | .gx => s.team.launch.gridX
  | .gy => s.team.launch.gridY
  | .gz => s.team.launch.gridZ
  | .warp => s.warp.idx
  | .team => s.team.lin

def execGetid (sel : GetIdSel) (d : BitVec 6) (s : State) : Result :=
  uniformWord s fun s => s.onWarp fun w => w.writeS d (BitVec.ofNat 64 (idValue s sel))

/-- The warps that `TGROW` could attach now. -/
def attachable (s : State) : Nat := if s.team.elastic && s.team.k = 0 then growRoom s else 0

def execTgrow (d a : BitVec 6) (s : State) : Result :=
  guarded [vectorOnly s] s fun s =>
    let own := min (s.warp.readS a).toNat (attachable s)
    followed s 6 (BitVec.ofNat 64 own) (fun g => if attachable s < g then some 0x82#8 else none) fun s g =>
      logWarp ((attachMany g.toNat s).onWarp fun w => w.writeS d g).advance 6 0 g

def execTleave (s : State) : Result := guarded [vectorOnly s] s fun s => exitPoint s fun s => departTeam s false

/-- A flag at a bit place. -/
def bitIf (c : Bool) (n : Nat) : Nat := if c then 2 ^ n else 0

/-- The word of `TSTAT` (R113). -/
def statWord (s : State) : Word :=
  let free := attachable s
  BitVec.ofNat 64 (free % 128 * 2 ^ 32 + s.team.launch.maxw % 128 * 2 ^ 24 + s.team.launch.minw % 128 * 2 ^ 16 +
    bitIf (free != 0) 8 + bitIf (s.team.k != 0) 7 + s.count % 128)

def execTstat (d : BitVec 6) (s : State) : Result := uniformWord s fun s => s.onWarp fun w => w.writeS d (statWord s)

/-! ## Barriers (R101, R114, R115) -/

/-- A barrier outside the warp's mask (R108). -/
def notMember : Report := { cause := .sync, info := 0xFF03#64 }

/-- A barrier instruction: in vector mode, by a member. -/
def barrierWord (s : State) (b : BitVec 4) (k : State → State) : Result :=
  guarded [vectorOnly s] s fun s => if (s.warp.part b.toNat).member then k s else trapHere s notMember s.warp.vstart

/-- The next arrival would target two phases ahead of the open one. -/
def mustStall (s : State) (b : Nat) : Bool := (s.team.bar b).p + 2 ≤ (s.warp.part b).target

def execBararv (b : BitVec 4) (s : State) : Result :=
  barrierWord s b fun s => if mustStall s b.toNat then s.parkOn (.stall b.toNat) else (arrive s b.toNat).advance

/-- The wait of a barrier is over: what the arrivals covered is visible, and data read ahead are discarded (R114; 09_loads_stores_streams.md R205). -/
def barReturn (s : State) (b : Nat) : State :=
  (s.onWarp fun w => (w.setPart b { w.part b with awaited := false }).discardAhead).advance

/-- The wait for the last phase in which the warp arrived. -/
def barWaitFor (s : State) (b : Nat) (point : Bool) : State :=
  let m := s.warp.part b
  match m.arrived with
  | some l => if m.awaited && (s.team.bar b).p ≤ l then s.parkOn (.barrier b l point) else barReturn s b
  | none => barReturn s b

def execBarwait (b : BitVec 4) (s : State) : Result :=
  barrierWord s b fun s => preemptPoint s false fun s => barWaitFor s b.toNat true

/-- The warp stands in the wait of a `BARSYNC` on a barrier, its arrival made. -/
def Warp.syncing (w : Warp) (b : Nat) : Bool :=
  match w.park with
  | .barrier b' _ false => b' == b
  | .none | .flags _ _ | .slot _ | .presence _ | .manifest | .barrier _ _ true | .stall _ | .copy _ _ | .porter | .cell _ _ _ | .invalidation _ | .waybill
  | .toll _ => false

def execBarsync (b : BitVec 4) (s : State) : Result :=
  barrierWord s b fun s =>
    if s.warp.syncing b.toNat then barWaitFor s b.toNat false
    else if mustStall s b.toNat then s.parkOn (.stall b.toNat)
    else barWaitFor (arrive s b.toNat) b.toNat false

/-- The membership of one barrier set. -/
def setMember (imm : BitVec 16) (s : State) (b : Nat) : State :=
  let now := (s.warp.part b).member
  if imm.getLsbD b && !now then joinBar s b
  else if !imm.getLsbD b && now then leaveBar s b
  else s

def execBarmask (imm : BitVec 16) (s : State) : Result :=
  uniformWord s fun s => (List.range 16).foldl (setMember imm) s

/-! ## Lane mode (R104–R108, R116, R117) -/

/-- The forked lanes: bit L of the mask, below W. -/
def forkLanes (w : Nat) (mask : BitVec 1024) (target : Int) : List Lane :=
  (List.range w).map fun l => { pos := { hdr := target }, joined := !mask.getLsbD l }

def execVfork (a : BitVec 3) (disp : BitVec 32) (s : State) : Result :=
  guarded [vectorOnly s] s fun s =>
    commitPoint s fun s =>
      let lanes := forkLanes s.w (s.warp.readM a) (s.warp.at.relative disp)
      if lanes.all (·.joined) then s.advance
      else s.onWarp fun w => { (w.yieldHint w.at).issued with lanes := some { lanes := lanes } }

/-- c(L, i). -/
def Lane.count (l : Lane) (i : Nat) : Nat := l.counts.getD i 0

/-- A blocked lane whose set has come. -/
def LaneMode.satisfied (lm : LaneMode) (w : Nat) (l : Lane) : Bool :=
  match l.blocked with
  | none => true
  | some (i, set) => (List.range w).all fun j => !set.getLsbD j || l.count i ≤ (lm.lane j).count i

/-- Every lane whose set has come moves past its `WSYNC`. -/
def LaneMode.release (lm : LaneMode) (w : Nat) : LaneMode :=
  { lm with lanes := lm.lanes.map fun l =>
      if l.blocked.isSome && lm.satisfied w l then { l with blocked := none, pos := l.pos.after } else l }

/-- The lanes at a position go on there when the handler returns: they are neither blocked nor joined (15_system_and_traps.md R333). -/
def LaneMode.thaw (lm : LaneMode) (p : Position) (first : Nat) : LaneMode :=
  { lm with
    next := first
    lanes := lm.lanes.map fun l =>
      if l.pos.same p && (l.blocked.isSome || l.joinAt.isSome) then { l with blocked := none, joined := false, joinAt := none } else l }

/-- The sync-membership trap of a lane (R108). -/
def syncTrap (s : State) (lm : LaneMode) (first : Nat) (info : Word) : State :=
  let p := (lm.lane first).pos
  let s := s.onWarp fun w => { w with lanes := some (lm.thaw p first) }
  takeTrap s { cause := .sync, info := info } { pc := p.pc, npc := p.pc, hdr := p.hdr, vstart := s.warp.vstart } p.pc

/-- Vector execution goes on at the clause after the `LJOIN` (R106). -/
def rejoin (s : State) (p : Position) : State := s.onWarp fun w => { w with lanes := none, pos := { hdr := p.nextHdr } }

/-- The numbers of the lanes that a predicate names. -/
def LaneMode.which (lm : LaneMode) (f : Lane → Bool) : List Nat := (List.range lm.lanes.length).filter fun i => f (lm.lane i)

/-- What follows when no lane can move: the trap of a `WSYNC` that cannot be satisfied, that of `LJOIN`s that differ, or the join (R106, R107). -/
def resolveLanes (s : State) : State :=
  match s.warp.lanes with
  | none => s
  | some lm =>
    if lm.lanes.any Lane.ready then s
    else
      match lm.which fun l => l.blocked.isSome with
      | l :: _ => syncTrap s lm l (BitVec.ofNat 64 (l * 256 + 1))
      | [] =>
        match lm.which fun l => l.joinAt.isSome with
        | [] => s
        | l :: rest =>
          if rest.all fun j => (lm.lane j).joinAt == (lm.lane l).joinAt then rejoin s (lm.lane l).pos
          else syncTrap s lm l 0xFF02#64

/-- The set of a lane (R116). -/
def laneSet (s : State) (a : BitVec 6) (l : Nat) : BitVec 64 :=
  let lo := (laneOf s a l).setWidth 64
  let hi := if s.w = 64 then (laneOf s (a + 1#6) l).setWidth 64 <<< 32 else 0#64
  (lo ||| hi) &&& BitVec.ofNat 64 (2 ^ s.w - 1)

/-- The lanes of the group wait on their sets; then whoever can go on does. -/
def waitLanes (s : State) (i : Nat) (a : BitVec 6) : State :=
  match s.warp.lanes with
  | none => s
  | some lm =>
    let group := lm.group
    let lm := lm.onLanes group fun l x => { x with counts := x.counts.modify i (· + 1), blocked := some (i, laneSet s a l) }
    let lm := { lm.release s.w with next := group.headD 0 + 1 }
    resolveLanes (s.onWarp fun w => { (w.yieldHint w.at).issued with lanes := some lm })

def execWsync (i : BitVec 4) (a : BitVec 6) (s : State) : Result :=
  let reg := if s.w = 64 then groupOk s a 2 else regOk s a
  guarded [(reg, .register)] s fun s => if s.warp.inLanes then waitLanes s i.toNat a else s.advance

/-- The lanes of the group join where they stand. -/
def joinLanes (s : State) : State :=
  match s.warp.lanes with
  | none => s
  | some lm =>
    let group := lm.group
    let lm := lm.onLanes group fun _ x => { x with joined := true, joinAt := some x.pos.pc }
    resolveLanes (s.onWarp fun w => { (w.yieldHint w.at).issued with lanes := some { lm with next := group.headD 0 + 1 } })

def execLjoin (s : State) : Result := guarded [(s.warp.inLanes, .laneMode)] s joinLanes

/-! ## `KLAUNCH` and `YIELD` (R118, R119) -/

/-- The result word of `KLAUNCH`. -/
def launchResult (code : Nat) (tail : BitVec 32) : Word := BitVec.ofNat 64 (code * 2 ^ 48 + tail.toNat)

/-- The result written; the warp goes on. -/
def launchReply (s : State) (d : BitVec 6) (code : Nat) (tail : BitVec 32) : State :=
  (s.onWarp fun w => w.writeS d (launchResult code tail)).advance

/-- The append of a record: into its slot, then TAIL; an access that fails puts the queue in error (R91). -/
def appendRecord (s : State) (d : BitVec 6) (q : BitVec 3) (x : QueueDesc) (bytes : List Byte) : State :=
  let part := s.team.part
  let done := (partWrite s part (x.base + 128 * (x.tail.toNat % 2 ^ x.logsize)) bytes).bind fun s =>
    partWrite s part (queueAddr (partOf s part) q + 16) (leBytes 4 (x.tail + 1#32).toNat)
  match done with
  | none =>
    let s := partMet s part .write (x.base + 128 * (x.tail.toNat % 2 ^ x.logsize)) 128
    launchReply (failQueue (partMet s part .write (queueAddr (partOf s part) q + 16) 4) part q 5) d 3 0#32
  | some s => launchReply (onQueue s part q fun v => if v.serving then { v with tail := x.tail + 1#32 } else v) d 0 x.tail

/-- Step 3 of R118. -/
def launchOn (s : State) (d : BitVec 6) (queue : Nat) (bytes : List Byte) : State :=
  if 8 ≤ queue then launchReply s d 3 0#32
  else
    let q := BitVec.ofNat 3 queue
    match readQueue s s.team.part q with
    | none => launchReply (failQueue (queueMet s s.team.part q) s.team.part q 5) d 3 0#32
    | some x =>
      if !x.enable || x.err != 0#32 || !x.sized then launchReply s d 3 0#32
      else if !x.devfed then launchReply s d 2 0#32
      else if (x.tail - x.head).toNat = 2 ^ x.logsize then launchReply s d 1 0#32
      else appendRecord s d q x bytes

/-- A line that an engine holds, for which the accesses of step 3 wait (11_atomics_and_ordering.md R242). -/
def launchHeld (s : State) (queue : Nat) : Option Nat :=
  if 8 ≤ queue then none
  else
    let q := BitVec.ofNat 3 queue
    (queueHeld s s.team.part q).or
      ((readQueue s s.team.part q).bind fun x => partHeld s s.team.part .write (x.base + 128 * (x.tail.toNat % 2 ^ x.logsize)) 128)

def execKlaunch (d a b : BitVec 6) (s : State) : Result :=
  guarded [vectorOnly s] s fun s =>
    let addr := (s.warp.readS a).toNat
    if addr % 128 != 0 then launchReply s d 4 0#32
    else
      let q := { s.ask .read 1024 with trims := false }
      match planOf s q [{ k := 0, va := (addr : Nat) }] with
      | .misses oks ms => parkAsked s q oks ms
      | .wait line oks => parkOnLine s q line oks
      | .run (x :: _) _ =>
        (match launchHeld s (s.warp.readS b).toNat with
         | some line => parkOnLine s q line [x]
         | none => launchOn (settle s q.part [x]) d (s.warp.readS b).toNat (readBytes s x.2.key x.2.kid 128))
      | .run [] (some (.fault _ r)) | .run [] (some (.error _ r)) => trapHere s r s.warp.vstart
      | .run [] (some (.trim _)) | .run [] none => s.advance

/-- A warp that goes on as after a header with YLD = 2 (04_scalar_and_flow.md R71). -/
def Warp.yielded (w : Warp) : Warp := { w.advance with yieldOff := 5, yieldLow := 9 }

def execYield (s : State) : Result := guarded [vectorOnly s] s fun s => preemptPoint s false fun s => s.onWarp Warp.yielded

end Sys2Proof.Machine
end

