-- ==== Sys2Proof/Machine/System.lean ====
section
/-! DEFINITION. The system instructions 0xD0–0xD8: `TRAP`, `ERET`, system registers, caches, invalidations, leases and halts (15_system_and_traps.md R335–R345; 17_cryogenic_and_power.md R369, R376, R377). -/
namespace Sys2Proof.Machine
open Sys2Proof

/-! ## `TRAP` (R338) -/

/-- The trap of `TRAP`; the YLD field of its clause acts once it is taken (04_scalar_and_flow.md R71). -/
def execTrap (imm : BitVec 16) (s : State) : Result :=
  guarded [vectorOnly s] s fun s =>
    let next := s.warp.at.nextHdr
    let t := takeTrap s { cause := .software, info := imm.setWidth 64 } { pc := next, npc := next, hdr := next, vstart := s.warp.vstart }
      s.warp.at.pc
    if trapTaken s then t.onWarp fun w => w.yieldHint s.warp.at else t

/-! ## `ERET` (R333, R339) -/

def Warp.defer (w : Warp) : Bool := w.trapcause.getLsbD 8
def Warp.laneBit (w : Warp) : Bool := w.trapcause.getLsbD 9

/-- An address that a register holds. -/
def exact (w : Word) : Int := (w.toNat : Nat)

/-- A misformed resume. -/
def badResume (va : Int) : Resume := .stop (misformed .target) va

/-- The place of TRAPNPC in the clause at TRAPHDR, once it is fetched: its word, or a misformed clause. -/
def resumeIn (hdr npc : Int) (header : Word) (words : List Word) : Resume :=
  let i := (npc - hdr) / 8
  if (npc - hdr) % 8 = 0 && 1 ≤ i && i ≤ (words.length : Nat) then .goOn { hdr := hdr, header := header, words := words, idx := i.toNat }
  else badResume npc

/-- Where `ERET` lets the warp go on: at the start of the clause at TRAPHDR, or within it, by an unprivileged fetch. -/
def resumeOf (s : State) : Fetched Resume :=
  let hdr := exact s.warp.traphdr
  let npc := exact s.warp.trapnpc
  if npc = hdr then .got (.goOn { hdr := hdr }) s
  else
    match fetchClause s false hdr with
    | .miss m => .miss m
    | .wait line => .wait line
    | .fault r va => .got (.stop r va) s
    | .got (h, ws) s => .got (resumeIn hdr npc h ws) s

/-- The lanes frozen at the trap, the trapping group at a position (R333). -/
def LaneMode.resumeAt (lm : LaneMode) (p : Position) : LaneMode :=
  lm.onLanes lm.group fun _ l => { l with pos := p }

/-- The warp goes on at a position, in lane mode when it is to be restored. -/
def Warp.resumeAt (w : Warp) (lane : Bool) (p : Position) : Warp :=
  match lane, w.frozen with
  | true, some lm => { w with lanes := some (lm.resumeAt p), frozen := none }
  | true, none | false, _ => { w with pos := p, frozen := none }

/-- What follows the return: the warp goes on, or meets the trap of its resume address outside the handler. -/
def applyResume (s : State) (r : Resume) (lane : Bool) : State :=
  match r with
  | .goOn p => s.onWarp fun w => w.resumeAt lane p
  | .stop rep va =>
    let s := s.onWarp fun w => w.resumeAt lane { hdr := va }
    takeTrap s rep { pc := va, npc := va, hdr := va, vstart := s.warp.vstart } va

/-- The handler is over: INTRAP falls, and `vstart` takes VSTART. -/
def Warp.leaveHandler (w : Warp) : Warp := { (w.yieldHint w.at).issued with intrap := false, vstart := w.trapvstart }

/-- FS taken as 0. -/
def clearFs (w : Word) : Word := w &&& ~~~(3#64 <<< 54)

/-- The word at TRAPPC stands in the clause that is kept for it. -/
def Warp.homeKnown (w : Warp) : Bool :=
  let off := exact w.trappc - w.traphome
  off % 8 == 0 && 1 ≤ off / 8 && off / 8 ≤ 7

/-- The position of the word at TRAPPC that is reissued alone: in its own clause where that is known (log 21, DEDUCED). -/
def reissueAt (w : Warp) (word : Word) : Position :=
  let pc := exact w.trappc
  let hdr := if w.homeKnown then w.traphome else pc - 8
  let idx := if w.homeKnown then ((pc - w.traphome) / 8).toNat else 1
  let h : Header := { n := 7#3, wait := 0#12, setA := 15#4, setB := 15#4, yld := 0#2, cls := 0#3, zero := 0#28 }
  { hdr := hdr, header := h.toBits, words := List.replicate (idx - 1) 0#64 ++ [clearFs word], idx := idx }

/-- The trap of a word at TRAPPC that cannot be fetched again, outside the handler: it stands in its own clause, where that is known (R331). -/
def refetchFault (s : State) (r : Report) (va : Int) (lane : Bool) : State :=
  let hdr := if s.warp.homeKnown then s.warp.traphome else va
  let s := (s.onWarp Warp.leaveHandler).onWarp fun w => w.resumeAt lane { hdr := hdr }
  takeTrap s r { pc := va, npc := va, hdr := hdr, vstart := s.warp.vstart } va

/-- A fetch for `ERET`: a miss or a held line parks the warp at the `ERET`. -/
def eretFetch {α : Type} (s : State) (pc : Int) (f : Fetched α) (bad : Report → Int → State) (k : α → State → State) : State :=
  match f with
  | .miss m => parkOnMisses s pc [m]
  | .wait line => s.parkOn (.presence line)
  | .fault r va => bad r va
  | .got x s => k x s

/-- The return, after the commit. -/
def eretGo (s : State) : State :=
  let pc := exact s.warp.trappc
  let lane := s.warp.laneBit
  let word : Fetched (Option Word) :=
    if s.warp.defer then
      (match fetchAt s false pc with
       | .miss m => .miss m
       | .wait line => .wait line
       | .fault r va => .fault r va
       | .got w s => .got (some w) s)
    else .got none s
  eretFetch s pc word (fun r va => refetchFault s r va lane) fun w s =>
    eretFetch s (exact s.warp.traphdr) (resumeOf s) (fun r va => applyResume (s.onWarp Warp.leaveHandler) (.stop r va) lane) fun r s =>
      match w with
      | none => applyResume (s.onWarp Warp.leaveHandler) r lane
      | some word => s.onWarp fun w => { w.leaveHandler with pos := reissueAt w word, reissue := some (r, lane) }

def execEret (s : State) : Result := guarded [vectorOnly s, privileged s] s fun s => commitPoint s eretGo

/-! ## System registers (R335, R336, R340) -/

/-- The assigned numbers of Table 3. -/
def srAssigned (n : Nat) : Bool :=
  n ≤ 0x003 || (0x008 ≤ n && n ≤ 0x00B) || (0x010 ≤ n && n ≤ 0x012) || n == 0x018 || (0x020 ≤ n && n ≤ 0x02C) ||
    n == 0x030 || (0x040 ≤ n && n ≤ 0x04F)

/-- The registers marked P. -/
def srPrivileged (n : Nat) : Bool := 0x020 ≤ n

/-- The codes of the management states (17 R369). -/
def Phase.code : Phase → Nat
  | .off => 0 | .bench => 1 | .cooling => 2 | .soak => 3 | .train => 4
  | .ready => 5 | .run => 6 | .excursion => 7 | .retreat => 8 | .warming => 9

/-- TMAX: the highest reading (17 R368). -/
def tmax (s : State) : Nat := (s.mgmt.sensors.map (·.toNat)).foldl max 0

/-- The cluster of a die that runs in BENCH: its lowest enabled one (17 R371; log 22, DESIGN CHOICE). -/
def benchCluster (s : State) (n : Nat) : Bool :=
  clusterOn s n && !((List.range n).any fun m => m / 26 == n / 26 && clusterOn s m)

/-- The cluster's clock runs in the present band and state: not while the package is unpowered; in band 2 while the mass pre-emption is saving teams, never in band 3; in band 4 one cluster of each die runs in BENCH, and in WARMING until what was killed has ended (17 R370, R371; log 22, DESIGN CHOICE). -/
def clockRuns (s : State) (n : Nat) : Bool :=
  match s.mgmt.band with
  | 0 | 1 => s.mgmt.phase != .off
  | 2 => s.mgmt.phase == .excursion || (s.mgmt.phase == .bench && benchCluster s n)
  | 3 => false
  | _ => (s.mgmt.phase == .bench || s.mgmt.phase == .warming) && benchCluster s n

/-- FREQ of a cluster: a free reading at or below the cap in bands 0 and 1 (log 5, DESIGN CHOICE), 0.3 GHz where a clock runs above them, 0 where it is stopped (17 R369, R370, R371). -/
def freqOf (s : State) (n : Nat) : Nat :=
  if !clockRuns s n then 0
  else
    match s.mgmt.band with
    | 0 => min (Config.clockReading s.draws n) 2400
    | 1 => min (Config.clockReading s.draws n) 2000
    | _ => 300

/-- `BANDSTAT` with a given FREQ. -/
def bandstat (s : State) (freq : Nat) : Word :=
  BitVec.ofNat 64 (min (tmax s) 255 * 2 ^ 40 + freq * 2 ^ 20 + s.mgmt.phase.code * 2 ^ 12 + s.mgmt.band)

/-- `TOLLSTAT` (17 R376). -/
def tollstat (c : Core) : Word :=
  BitVec.ofNat 64 (c.cap / 1024 * 2 ^ 56 + c.refill % 4096 * 2 ^ 44) ||| (BitVec.ofInt 24 c.level).setWidth 64

/-- `CORECLASS` (R336). -/
def coreclass (c : CoreRef) : Word := BitVec.ofNat 64 (c.num * 65536 + coreCluster c * 256 + classCode c.cls)

/-- The value of a system register. -/
def readSr (s : State) (n : Nat) : Word :=
  let w := s.warp
  let p := s.part
  match n with
  | 0x000 => (coreOf s w.core).cycles
  | 0x001 => coreclass w.core
  | 0x002 => s.team.part.setWidth 64
  | 0x003 => BitVec.ofNat 64 w.intrap.toNat
  | 0x008 => w.fpstat.setWidth 64
  | 0x009 => w.fpctl.setWidth 64
  | 0x00A => p.capq.setWidth 64
  | 0x00B => p.tcap
  | 0x010 => bandstat s (freqOf s (coreCluster w.core))
  | 0x011 => tollstat (coreOf s w.core)
  | 0x012 => BitVec.ofNat 64 ((clusterOf s (coreCluster w.core)).pool * 2 ^ 32 + w.lease)
  | 0x018 => BitVec.ofNat 64 (s.team.launch.rfollow.toNat * 2 + s.team.launch.rrecord.toNat)
  | 0x020 => w.trapcause
  | 0x021 => w.trappc
  | 0x022 => w.trapnpc
  | 0x023 => w.traphdr
  | 0x024 => w.trapinfo
  | 0x025 => w.faultva
  | 0x026 => w.faultgpa
  | 0x027 => BitVec.ofNat 64 w.trapvstart
  | 0x028 | 0x029 | 0x02A | 0x02B => w.trapscr.toList.getD (n - 0x028) 0#64
  | 0x02C => p.trapvec
  | 0x030 => p.s1root
  | _ => w.faultmask.extractLsb' (64 * (n - 0x040)) 64

/-- The bits of S1ROOT that a write stores (10 R216). -/
def s1rootBits (v : Word) : Word := v &&& 0x000FFFFFFFFC0000#64

/-- One 64-bit word of FAULTMASK replaced. -/
def setMaskWord (m : BitVec 1024) (i : Nat) (v : Word) : BitVec 1024 :=
  (m &&& ~~~((BitVec.allOnes 64).setWidth 1024 <<< (64 * i))) ||| (v.setWidth 1024 <<< (64 * i))

/-- A write of a system register under its access codes; a read-only register ignores it. -/
def writeSr (s : State) (n : Nat) (v : Word) : State :=
  match n with
  | 0x008 => s.onWarp fun w => { w with fpstat := w.fpstat &&& ~~~v.setWidth 7 }
  | 0x009 => s.onWarp fun w => { w with fpctl := v.setWidth 6 }
  | 0x020 => s.onWarp fun w => { w with trapcause := v &&& 0x3FFFF#64 }
  | 0x021 => s.onWarp fun w => { w with trappc := v }
  | 0x022 => s.onWarp fun w => { w with trapnpc := v }
  | 0x023 => s.onWarp fun w => { w with traphdr := v }
  | 0x024 => s.onWarp fun w => { w with trapinfo := v }
  | 0x027 => s.onWarp fun w => { w with trapvstart := min v.toNat 1023 }
  | 0x028 | 0x029 | 0x02A | 0x02B => s.onWarp fun w => { w with trapscr := w.trapscr.setIfInBounds (n - 0x028) v }
  | 0x030 => onPart s s.team.part fun p => { p with s1root := s1rootBits v }
  | _ => if 0x040 ≤ n && n ≤ 0x04F then s.onWarp fun w => { w with faultmask := setMaskWord w.faultmask (n - 0x040) v } else s

/-- The checks of a register number: lane mode, assignment, privilege (R337). -/
def srChecks (s : State) (n : Nat) : List (Bool × IllegalReason) :=
  [vectorOnly s, (srAssigned n, .sysreg), (!srPrivileged n || s.warp.intrap, .privilege)]

def execGetsr (d : BitVec 6) (sr : BitVec 12) (s : State) : Result :=
  guarded (srChecks s sr.toNat) s fun s => ((s.onWarp fun w => w.writeS d (readSr s sr.toNat)).draw).advance

def execSetsr (sr : BitVec 12) (a : BitVec 6) (s : State) : Result :=
  guarded (srChecks s sr.toNat) s fun s => (writeSr s sr.toNat (s.warp.readS a)).advance

/-! ## Caches (R341, R342) -/

/-- A dirty line of a memory beyond a link that is down: it cannot be written back (18_host_link_and_management.md R381). -/
def stranded (s : State) (pa : Nat) : Bool := (dirtyAt s pa).isSome && linkDown s pa

/-- An operation on the line of an address: one element checked without trim; nothing happens in the window, or on a page that is not cached. One that writes a line back needs the link of its memory. -/
def cacheWord (s : State) (checks : List (Bool × IllegalReason)) (acc : Access) (writes : Bool) (a : BitVec 6) (f : State → Nat → State) : Result :=
  guarded (vectorOnly s :: checks) s fun s =>
    let x : Elt := { k := 0, va := exact (s.warp.readS a) }
    let q := { s.ask acc 8 with trims := false }
    if (canonicalFault x.va).isNone && inWindow (va54 x.va) then s.advance
    else
      match checkFresh s q true x with
      | .miss m => parkOnMisses s s.warp.at.pc [m]
      | .fault r => trapHere s r s.warp.vstart
      | .trim => s.advance
      | .held line => parkOnLine s q line []
      | .ok l =>
        (match absentIn s l.key 1 with
         | some line => parkOnLine s q line [(x, l)]
         | none =>
           if writes && l.mt = 0 && stranded s l.key then
             trapHere (settle s s.team.part [(x, l)]) (checkReport s { start := l.key / 128 * 128, kid := l.kid, len := 128 } l.key 0 x.va) s.warp.vstart
           else (if l.mt = 0 then f (settle s s.team.part [(x, l)]) l.key else settle s s.team.part [(x, l)]).advance)

def execCacheClean (a : BitVec 6) (s : State) : Result := cacheWord s [] .read true a writeBack

def execCacheFlush (a : BitVec 6) (s : State) : Result := cacheWord s [] .read true a writeBack

/-- A line removed without being written back: what had not been written back is lost (log 8, DESIGN CHOICE). -/
def dropOrNot (s : State) (pa : Nat) : State :=
  if Config.writtenBack s.draws (pa / 128) && !linkDown s pa then writeBack s pa else dropLine s (pa / 128 * 128)

def execCacheInv (a : BitVec 6) (s : State) : Result := cacheWord s [privileged s] .write false a dropOrNot

/-- A 54-bit address as the register file holds it (10 R209). -/
def canonical (a : Nat) : Nat := if 2 ^ 53 ≤ a then a + (2 ^ 64 - 2 ^ 54) else a

/-- A line of the instruction caches that holds a byte of a range. -/
def lineMeets (lo len line : Nat) : Bool := 0 < len && canonical (128 * line) < lo + len && lo < canonical (128 * line) + 128

/-- Lines of the partition removed from every instruction cache. -/
def dropFetched (s : State) (p : Nat → Bool) : State :=
  { s with icache := s.icache.filter fun c => !(c.part == s.team.part && p c.line) }

def execIcinvRange (a b : BitVec 6) (s : State) : Result :=
  uniformWord s fun s => dropFetched s (lineMeets (s.warp.readS a).toNat (s.warp.readS b).toNat)

def execIcinvAll (s : State) : Result := uniformWord s fun s => dropFetched s fun _ => true

/-! ## Invalidations (R343; 10 R217–R219) -/

/-- A range of an invalidation, as whole pages, meets a span of addresses. -/
def rangeMeets (lo len start size : Nat) : Bool := 0 < len && start < (lo + len - 1) / 65536 * 65536 + 65536 && lo / 65536 * 65536 < start + size

/-- The first address of a span of `size` that holds an address. -/
def spanBase (size a : Nat) : Nat := a / size * size

/-- The VAs of the stage-1 leaf that a combined translation was made from, and the GPAs of its stage-2 leaf. -/
def CachedPage.vaBase (c : CachedPage) : Nat := spanBase (leafSize c.level1) (65536 * c.page)
def CachedPage.gpaBase (c : CachedPage) (level2 : Nat) : Nat := spanBase (leafSize level2) (leafOut c.leaf1 c.level1 (65536 * c.page))

/-- An invalidation names a combined translation: it was made from a leaf whose whole range the invalidation meets (R218). -/
def Invalidation.hits (i : Invalidation) (c : CachedPage) : Bool :=
  c.part == i.part &&
    (match i.range with
     | .va lo len => rangeMeets lo len (canonical c.vaBase) (leafSize c.level1)
     | .gpa lo len => c.leaf2.any fun x => rangeMeets lo len (c.gpaBase x.2) (leafSize x.2)
     | .all => true)

/-- An invalidation names a kept table entry, by the range that it covers. -/
def Invalidation.hitsEntry (i : Invalidation) (c : CachedEntry) : Bool :=
  c.part == i.part &&
    (match i.range with
     | .va lo len => c.stage == 1 && rangeMeets lo len (canonical (c.cover * levelSpan c.level)) (levelSpan c.level)
     | .gpa lo len => c.stage == 2 && rangeMeets lo len (c.cover * levelSpan c.level) (levelSpan c.level)
     | .all => true)

/-- The warps of a team. -/
def warpsOf (s : State) (t : Team) : List Warp := if t.tid == s.team.tid && s.warp.status != .absent then s.warp :: t.peers else t.peers

/-- The requesters that hold pinned translations, with them. -/
def pinners (s : State) : List (Requester × List CachedPage) :=
  ((allTeams s).flatMap fun t => (warpsOf s t).map fun w => (Requester.warp { team := t.tid, warp := w.idx }, w.service.pins)) ++
    s.copies.map fun c => (.copy c.ref, c.pins)

/-- The requesters that hold a translation that an invalidation names. -/
def Invalidation.pinning (i : Invalidation) (s : State) : List Requester := ((pinners s).filter fun x => x.2.any i.hits).map (·.1)

/-- An invalidation begins. -/
def beginInvalidation (s : State) (p : BitVec 4) (r : InvRange) : State :=
  let i : Invalidation := { num := s.nextInv, part := p, range := r, holders := [] }
  { s with
    invalidations := s.invalidations ++ [{ i with holders := i.pinning s }]
    nextInv := s.nextInv + 1 }

/-- `XLINV`: the invalidation is requested once, and the warp goes on when it is complete. -/
def xlinv (s : State) (r : InvRange) : State :=
  match s.warp.park with
  | .invalidation n => if s.invalidations.any fun i => i.num == n then s else s.advance
  | .none | .flags _ _ | .slot _ | .presence _ | .manifest | .barrier _ _ _ | .stall _ | .copy _ _ | .porter | .cell _ _ _ | .waybill | .toll _ =>
    (beginInvalidation s s.team.part r).parkOn (.invalidation s.nextInv)

def execXlinvVa (a b : BitVec 6) (s : State) : Result :=
  guarded [vectorOnly s, privileged s] s fun s =>
    if s.warp.readS b = 0#64 then s.advance else xlinv s (.va (s.warp.readS a).toNat (s.warp.readS b).toNat)

def execXlinvAll (s : State) : Result := guarded [vectorOnly s, privileged s] s fun s => xlinv s .all

/-- A pinned translation that the tables give as they stand. -/
def CachedPage.current (c : CachedPage) (s : State) : Bool := walkedPage { s with tables := [] } c.part (65536 * c.page) == some c

/-- An invalidation may complete: no requester that held a matching translation when it began still holds one, and what others have pinned since is what the tables give now (R218, R219). -/
def Invalidation.free (i : Invalidation) (s : State) : Bool :=
  (pinners s).all fun x => x.2.all fun c => !i.hits c || (!i.holders.contains x.1 && c.current s)

/-- `INVALIDATION_COMPLETE`: the matching entries leave every cache (R218). -/
def execInvalidationComplete (n : Nat) (s : State) : Result :=
  .next (match s.invalidations.find? fun i => i.num == n with
    | none => s
    | some i =>
      if i.free s then
        { s with
          xlate := s.xlate.filter fun c => !i.hits c
          tables := s.tables.filter fun c => !i.hitsEntry c
          invalidations := s.invalidations.filter fun j => j.num != n }
      else s)

/-- `HOST_INVALIDATION`: the host requests one (R218). -/
def execHostInvalidation (part : BitVec 4) (r : InvRange) (s : State) : Result := .next (beginInvalidation s part r)

/-! ## `LEASE` and `HALT` (R344, R345) -/

/-- The credits granted to a request (17 R377). -/
def leaseGrant (s : State) (request : Nat) : Nat :=
  if s.mgmt.band = 0 then
    min (min request (2 ^ 32 - 1)) (min (clusterOf s (coreCluster s.warp.core)).pool (2 ^ 32 - 1 - s.warp.lease))
  else 0

def execLease (d a : BitVec 6) (s : State) : Result :=
  uniformWord s fun s =>
    let g := leaseGrant s (s.warp.readS a).toNat
    (onCluster s (coreCluster s.warp.core) fun c => { c with pool := c.pool - g }).onWarp fun w =>
      { w.writeS d (BitVec.ofNat 64 g) with lease := w.lease + g }

def execHaltWarp (s : State) : Result :=
  guarded [vectorOnly s, privileged s] s fun s => exitPoint s fun s => departTeam s false

/-- The focused team is killed: every warp of it is gone with its pending results, its lease and its manifest, and no milestone is left to fire; its copies go on to complete or fail, but for those of a saved team, which are dropped (R345, R350; log 23, DEDUCED). -/
def killTeam (s : State) : State :=
  let s := s.mates.foldl (fun s w =>
    let s := onCluster s (coreCluster w.core) fun c => { c with pool := c.pool + w.lease }
    dropManifests s s.team.part (.warp { team := s.team.tid, warp := w.idx })) s
  let kept := if s.team.status == .saved then s.team.copies.flatMap (·.held) else []
  let s := { s with
    warp := {}
    team := { s.team with killed := true, preempt := false, k := 0, peers := [], miles := [], copies := [], late := [] } }
  setPresence s (kept.filter fun l => !(s.copies.any fun o => o.held.contains l) && !(keptLines s).any fun k => k.2.contains l)

def execHaltTeam (a : BitVec 6) (s : State) : Result :=
  guarded [vectorOnly s, privileged s] s fun s =>
    killTeam (recordError s s.team.part
      { kind := 3#8, team := BitVec.ofNat 32 s.team.lin, value := (s.warp.readS a).setWidth 32, core := coreCode s.warp.core })

end Sys2Proof.Machine
end

