-- ==== Sys2Proof/Machine/Grid.lean ====
section
/-! DEFINITION. Launch records and their checks, room on cores and pairs, the placing and seating of teams, and the completion of teams and grids (05_teams_and_warps.md R88–R96, R103, R434; 12_copies.md R276; 13_matrix_grants_and_engine.md R281; 15_system_and_traps.md R354). -/
namespace Sys2Proof.Machine
open Sys2Proof

/-! ## Launch records (R88, R92) -/

/-- A field of a record: offset, bytes. -/
def recField (bs : List Byte) (off n : Nat) : Nat := leValue ((bs.drop off).take n)

/-- Bits of the 32-bit words at 0x28 and 0x2C. -/
def recFlags (bs : List Byte) (lo n : Nat) : Nat := recField bs 0x28 4 / 2 ^ lo % 2 ^ n
def recWarps (bs : List Byte) (lo n : Nat) : Nat := recField bs 0x2C 4 / 2 ^ lo % 2 ^ n

/-- WAITi. -/
def recWait (bs : List Byte) (i : Nat) : Nat := recField bs (0x30 + 8 * i) 8

/-- The record as its fields (Table 2); under an invalid NWAIT it names no waits, and its check rejects it. -/
def launchOf (bs : List Byte) : LaunchRecord :=
  let f := recFlags bs
  let w := recWarps bs
  { entry := BitVec.ofNat 64 (recField bs 0x00 8), attach := BitVec.ofNat 64 (recField bs 0x08 8),
    gridX := recField bs 0x10 4, gridY := recField bs 0x14 4, gridZ := recField bs 0x18 4,
    kernelId := BitVec.ofNat 32 (recField bs 0x1C 4), scratch := recField bs 0x20 4, accum := recField bs 0x24 4,
    donech := BitVec.ofNat 4 (f 20 4), donev := f 19 1 = 1, rfollow := f 15 1 = 1, rrecord := f 14 1 = 1,
    elastic := f 13 1 = 1, coop := f 12 1 = 1, prio := BitVec.ofNat 2 (f 10 2), cls := BitVec.ofNat 2 (f 8 2),
    tiles := f 4 4, vregs := 16 * (f 2 2 + 1), warpw := 16 * 2 ^ f 0 2, maxw := w 16 7, minw := w 8 7, initw := w 0 7,
    waits := (List.range (if f 16 3 ≤ 4 then f 16 3 else 0)).map fun i => (BitVec.ofNat 4 (recWait bs i / 2 ^ 48), recWait bs i % 2 ^ 48),
    args := (List.range 4).map fun i => BitVec.ofNat 64 (recField bs (0x50 + 8 * i) 8),
    comprec := BitVec.ofNat 64 (recField bs 0x70 8) }

/-- A reserved field is nonzero (status 0x0001). -/
def recReserved (bs : List Byte) : Bool :=
  recFlags bs 24 8 != 0 || recWarps bs 23 9 != 0 || recWarps bs 15 1 != 0 || recWarps bs 7 1 != 0 || recField bs 0x78 8 != 0 ||
    (List.range 4).any fun i => recWait bs i / 2 ^ 52 != 0 || (recFlags bs 16 3 ≤ i && recWait bs i != 0)

/-- The conditions of status 0x0002. -/
def recInvalid (bs : List Byte) (l : LaunchRecord) : Bool :=
  recFlags bs 0 2 == 3 || l.cls == 0#2 || 8 < l.tiles || 4 < recFlags bs 16 3 ||
    !(1 ≤ l.minw && l.minw ≤ l.initw && l.initw ≤ l.maxw && l.maxw ≤ 64) ||
    l.entry.toNat % 8 != 0 || l.attach.toNat % 8 != 0 || l.comprec.toNat % 32 != 0 || l.scratch % 128 != 0 || l.accum % 1024 != 0

/-- The number of teams of a grid. -/
def LaunchRecord.total (l : LaunchRecord) : Nat := l.gridX * l.gridY * l.gridZ

/-! ## Room (R16, R21, R94, R281) -/

/-- The accumulator store of a core (01_machine.md R15). -/
def storeBytesOf : CoreClass → Nat
  | .m => 4194304
  | .e => 262144

/-- The bytes that the slots homed on a core reserve: all of them on a single core, the even or the odd ones on a pair. -/
def reservedOn (l : LaunchRecord) (x : Site) (c : CoreRef) : Nat :=
  if !x.cores.contains c then 0
  else if !x.pair then l.tiles * l.slotBytes
  else if c.num = x.num then (l.tiles + 1) / 2 * l.slotBytes
  else l.tiles / 2 * l.slotBytes

/-- The teams that hold room. -/
def placedTeams (s : State) : List Team := (allTeams s).filter fun t => t.status == .running

/-- The accumulator bytes that a launch finds free on each core of a site. -/
def storeFits (s : State) (l : LaunchRecord) (x : Site) : Bool :=
  x.cores.all fun c =>
    ((placedTeams s).map fun t => reservedOn t.launch t.site c).sum + reservedOn l x c ≤ storeBytesOf c.cls

/-- The lowest free place of some scratchpad bytes in a cluster's slice (log 16, DESIGN CHOICE). -/
def scratchAt (s : State) (cluster bytes : Nat) : Option Nat :=
  let start := cluster * Config.sliceSpan
  let used := ((placedTeams s).filter fun t => t.base / Config.sliceSpan == cluster).map fun t => (t.base, t.base + t.launch.scratch)
  ((start :: used.map (·.2)).filter fun o =>
    o + bytes ≤ start + Config.sliceBytes && used.all fun u => o + bytes ≤ u.1 || u.2 ≤ o).min?

/-- The cluster of a site. -/
def Site.cluster (x : Site) : Nat := coreCluster { cls := x.cls, num := x.num }

/-- Every core of a site is enabled, and its cluster's clock runs. -/
def siteOn (s : State) (x : Site) : Bool := x.cores.all (coreOn s) && clockRuns s x.cluster

/-- The sites of one class in ascending order: its cores, or its pairs. -/
def sitesOf (cls : CoreClass) (pair : Bool) : List Site :=
  let n := match cls with
    | .m => 208
    | .e => 104
  if pair then (List.range (n / 2)).map fun j => { cls := cls, num := 2 * j, pair := true }
  else (List.range n).map fun i => { cls := cls, num := i }

/-- The class mask holds a class. -/
def LaunchRecord.allows (l : LaunchRecord) : CoreClass → Bool
  | .m => l.cls.getLsbD 0
  | .e => l.cls.getLsbD 1

/-- The sites of a class mask in the order of R94. -/
def candidates (l : LaunchRecord) : List Site :=
  ([(CoreClass.m, false), (.e, false), (.m, true), (.e, true)].filter fun x => l.allows x.1).flatMap fun x => sitesOf x.1 x.2

/-- Saved grants: slot, M, N. -/
def savedExtents (t : Team) : List (BitVec 3 × Nat × Nat) :=
  (List.range 8).filterMap fun i => (t.slot (BitVec.ofNat 3 i)).grant.map fun g => (BitVec.ofNat 3 i, g.m, g.n)

/-- A site whose maxima cover saved extents (14_matrix_instructions.md R327). -/
def covers (s : State) (x : Site) (ext : List (BitVec 3 × Nat × Nat)) : Bool :=
  ext.all fun e => let m := coreMaxima s (homeOf x e.1); e.2.1 ≤ m.m && e.2.2 ≤ m.n

/-- ACCUM within the limits of R21 and R281 on a site. -/
def accumFits (l : LaunchRecord) (x : Site) : Bool :=
  if x.pair then l.accum ≤ 2 * storeBytesOf x.cls && (l.tiles + 1) / 2 * l.slotBytes ≤ storeBytesOf x.cls
  else l.accum ≤ storeBytesOf x.cls

/-- A place for `n` warps of a launch on a site: the offset of its scratchpad bytes. -/
def roomAt (s : State) (l : LaunchRecord) (n : Nat) (ext : List (BitVec 3 × Nat × Nat)) (x : Site) : Option Nat :=
  if siteOn s x && accumFits l x && n ≤ (x.cores.map (freeOn s l)).sum && storeFits s l x && covers s x ext then scratchAt s x.cluster l.scratch
  else none

/-- The first site with a place. -/
def findSite (s : State) (l : LaunchRecord) (n : Nat) (ext : List (BitVec 3 × Nat × Nat)) : Option (Site × Nat) :=
  (candidates l).findSome? fun x => (roomAt s l n ext x).map fun b => (x, b)

/-! ## The logged placement under replay-follow (R354) -/

/-- What replay-follow says of a placement. -/
inductive Logged where
  /-- Placed by R94. -/
  | own
  /-- Only on the logged core or pair. -/
  | only (x : Site)
  /-- No entry: placed by R94, and the replay-divergence trap follows. -/
  | missing
  /-- As `missing`, after a failed read of the array. -/
  | failed (pa : Nat)
  /-- The array cannot be read yet. -/
  | held
  deriving DecidableEq, Repr

/-- A logged site that is enabled and in the class mask is the only one. -/
def loggedSite (s : State) (l : LaunchRecord) (x : Site) : Logged := if x.cores.all (coreOn s) && l.allows x.cls then .only x else .own

/-- The logged placement of the focused team. -/
def logged (s : State) : Logged :=
  if s.team.launch.rfollow then
    match follow s 0 s.team.placements [1, 7] with
    | .found place v =>
      loggedSite s s.team.launch
        { cls := if place / 2 ^ 16 % 4 = 2 then .e else .m, num := place % 65536, pair := v % 2 = 1 }
    | .missing => .missing
    | .failed pa => .failed pa
    | .held _ => .held
  else .own

/-- The site of the focused team. -/
def siteFor (s : State) (n : Nat) (ext : List (BitVec 3 × Nat × Nat)) : Option (Site × Nat) :=
  match logged s with
  | .only x => (roomAt s s.team.launch n ext x).map fun b => (x, b)
  | .own | .missing | .failed _ => findSite s s.team.launch n ext
  | .held => none

/-! ## Seating (R96, R434) -/

/-- A warp takes the next place of the team's core or pair. -/
def seat (s : State) (w : Warp) : State :=
  let c := coreFor s
  let j := freeSlot s c
  s.onTeam fun t => { t with peers := t.peers ++ [{ w with core := c, slot := j, taken := 0, stopAt := (coreOf s c).cycles }] }

/-- The scratchpad bytes of a place set to zero, every line present and free of error. -/
def wipe (s : State) (base n : Nat) : State :=
  let a := Config.windowBase + base
  { s with
    mem := s.mem.filter fun c => !inRange a n c.1
    absent := s.absent.filter fun l => !inRange a n (128 * l)
    bad := s.bad.filter fun g => !inRange a n (8 * g) }

/-- The trap that a placement without an entry brings to warp 0. -/
def divergeAt (s : State) (event : Nat) : State :=
  s.onTeam fun t => { t with peers := match t.peers with
    | [] => []
    | w :: rest => { w with due := some (divergence event 0x81#8) } :: rest }

/-- The focused team, its place chosen, is seated and logged: event 1, or 7 on a resume. -/
def settleTeam (s : State) (event : Nat) (x : Site) (base : Nat) (ws : List Warp) : State :=
  let lg := logged s
  let s := s.onTeam fun t =>
    { t with
      site := x
      base := base
      status := .running
      order := s.nextPlace
      placements := t.placements + 1
      peers := []
      miles := t.miles.map fun m => { m with core := { cls := x.cls, num := x.num } } }
  let s := ws.foldl seat { s with nextPlace := s.nextPlace + 1 }
  let s := logEntry s (teamEntry s event 0 0 (if x.pair then 1#64 else 0#64))
  match lg with
  | .missing => divergeAt s event
  | .failed pa => divergeAt (followFailed s pa) event
  | .own | .only _ | .held => s

/-- The next team of a grid, before it has a place. -/
def teamOf (s : State) (g : Grid) : Team :=
  { tid := s.nextTeam, gid := g.gid, part := g.part, lin := g.next, launch := g.launch,
    bars := Vector.replicate 16 { e := g.launch.initw } }

/-- The initial warps of a team at ENTRY, mapped through the waymarks (19_code_objects.md R407). -/
def firstWarps (s : State) (l : LaunchRecord) (base : Nat) : List Warp :=
  (List.range l.initw).map fun i => newWarp l base i (waymark s s.team.part l.entry) { cls := .m, num := 0 } 0

/-- A waybill entry of the partition waits for room, so the caravan master waits (R353). -/
def logWaits (s : State) (l : LaunchRecord) (p : BitVec 4) : Bool := l.rrecord && !(partOf s p).wbWait.isEmpty

/-- Every field of one grid. -/
def changeGrid (s : State) (g : Nat) (f : Grid → Grid) : State :=
  { s with grids := s.grids.map fun x => if x.gid == g then f x else x }

/-- The next team of a grid placed, if it finds a site; the focus is where it was. -/
def placeNext (s : State) (g : Grid) : Option State :=
  let s1 := unfocus s
  let s1 := { s1 with team := teamOf s1 g }
  (siteFor s1 g.launch.initw []).map fun x =>
    let s1 := wipe s1 x.2 g.launch.scratch
    let s1 := settleTeam (waymarksMet { s1 with nextTeam := s1.nextTeam + 1 } g.part) 1 x.1 x.2 (firstWarps s1 g.launch x.2)
    refocus s (changeGrid s1 g.gid fun y => { y with next := y.next + 1 })

/-- Every team of a cooperative grid placed, or none (R95). -/
def placeWhole : Nat → State → Nat → Option State
  | 0, s, _ => some s
  | fuel + 1, s, gid =>
    match s.grids.find? fun g => g.gid == gid with
    | none => none
    | some g => (placeNext s g).bind fun s => placeWhole fuel s gid

/-! ## The checks of a record (R92) -/

/-- The warps of a launch that an empty core holds (R16). -/
def emptyRoom (l : LaunchRecord) (c : CoreClass) : Nat := min (slotsOf c) (fileBytes c / max 1 l.warpBytes)

/-- The sites that the checks of R92 count: the enabled ones of the class mask. R16, R92 and R281 say every core or pair of the class mask, and do not say whether disabled ones count (log 65, DESIGN CHOICE). -/
def sitesOn (s : State) (l : LaunchRecord) : List Site := (candidates l).filter fun x => x.cores.all (coreOn s)

/-- The state without the other teams of a partition. -/
def cleared (s : State) (p : BitVec 4) : State :=
  let s := unfocus s
  { s with teams := s.teams.filter fun t => t.part != p }

/-- A cooperative grid that could not be placed whole with every other team of its partition absent (status 0x0007). -/
def neverWhole (s : State) (g : Grid) : Bool :=
  let s := cleared s g.part
  g.launch.coop && (placeWhole g.launch.total { s with grids := s.grids ++ [g] } g.gid).isNone

/-- The status of a record: that of the first check it fails, in table order, or 0. -/
def recordStatus (s : State) (bs : List Byte) (g : Grid) : Nat :=
  let l := g.launch
  let on := sitesOn s l
  if recReserved bs then 0x0001
  else if recInvalid bs l then 0x0002
  else if l.total = 0 || 2 ^ 32 < l.total then 0x0003
  else if on.isEmpty then 0x0004
  else if !on.any (fun x => l.initw ≤ (x.cores.map fun c => emptyRoom l c.cls).sum) then 0x0005
  else if 12582912 < l.scratch || !on.any (accumFits l) then 0x0006
  else if neverWhole s g then 0x0007
  else if l.rrecord && !wbEnabled (partOf s g.part) then 0x000A
  else 0

/-! ## Completion (R89–R92, R103; 12_copies.md R276) -/

/-- C of a launch channel rises to the lowest ID not yet completed. -/
def LaunchChannel.rise : Nat → LaunchChannel → LaunchChannel
  | 0, x => x
  | fuel + 1, x => if x.done.contains x.c then LaunchChannel.rise fuel { x with c := x.c + 1, done := x.done.filter (· != x.c) } else x

/-- An ID of a launch channel completes. -/
def LaunchChannel.complete (x : LaunchChannel) (id : Nat) : LaunchChannel :=
  LaunchChannel.rise (x.done.length + 2) { x with done := id :: x.done }

def onLaunch (s : State) (p : BitVec 4) (ch : BitVec 4) (f : LaunchChannel → LaunchChannel) : State :=
  onPart s p fun q => { q with chans := q.chans.set ch.toNat (f (q.chans.get ch.toFin)) ch.isLt }

/-- The 32 bytes of a completion record (R90). -/
def completionBytes (g : Grid) (status : Nat) : List Byte :=
  leBytes 8 (g.launch.kernelId.toNat * 65536 + status) ++ leBytes 8 (g.doneId % 2 ^ 48) ++
    leBytes 8 ((g.fault.map fun f => f.2.toNat).getD 0) ++ leBytes 8 g.teams

/-- The completion record written, where there is one; a failed write makes an entry of kind 7 (R91). -/
def writeCompletion (s : State) (g : Grid) (status : Nat) : State :=
  if g.launch.comprec = 0#64 then s
  else
    match partWrite s g.part g.launch.comprec.toNat (completionBytes g status) with
    | some s => s
    | none => recordError (partMet s g.part .write g.launch.comprec.toNat 32) g.part { kind := 7#8, addr := g.launch.comprec, value := BitVec.ofNat 32 status }

/-- A grid completes or is rejected: its record, then its DONECH ID. -/
def endGrid (s : State) (g : Grid) (status : Nat) : State :=
  let s := writeCompletion s g status
  let s := if g.launch.donev then onLaunch s g.part g.launch.donech fun c => c.complete g.doneId else s
  { s with grids := s.grids.filter fun x => x.gid != g.gid }

/-- STATUS of a grid: that with which its record was rejected, or that of a placed one. -/
def Grid.status (g : Grid) : Nat := if let some st := g.refusal then st else if g.killed then 0x0009 else if g.fault.isSome then 0x0008 else 0x0000

/-- The place of a completion record is held by an engine, and its write waits (11_atomics_and_ordering.md R242). -/
def recordHeld (s : State) (p : BitVec 4) (l : LaunchRecord) : Bool :=
  l.comprec != 0#64 && (partHeld s p .write l.comprec.toNat 32).isSome

/-- A record is rejected with a status: its completion, or, while the place of its completion record is held, a grid without teams that waits to complete. -/
def rejectGrid (s : State) (g : Grid) (status : Nat) : State :=
  if recordHeld s g.part g.launch then { s with grids := s.grids ++ [{ g with ended := true, refusal := some status }] }
  else endGrid s g status

/-- Every team of a grid has completed, no TYPE 2 entry of it waits, and its record can be written. -/
def gridDone (s : State) (g : Grid) : Bool :=
  !recordHeld s g.part g.launch && (g.ended || g.next == g.launch.total) && g.teams == g.next &&
    !(partOf s g.part).manifests.any fun m => m.who == .grid g.gid

/-- The grids that are done complete. -/
def finishGrids (s : State) : State := (s.grids.filter (gridDone s)).foldl (fun s g => endGrid s g g.status) s

/-- A team has nothing left to do: no warps, milestones, matrix operations or copies. -/
def teamOver (s : State) (t : Team) : Bool :=
  t.peers.isEmpty && t.miles.isEmpty && t.late.isEmpty && !s.copies.any fun c => c.ref.team == t.tid

/-- The unreported errors of a team's channels, in ascending order. -/
def unreported (t : Team) : List (BitVec 4 × ChannelError) :=
  (List.range 16).filterMap fun i =>
    (t.chan (BitVec.ofNat 4 i)).err.bind fun e => if e.reported then none else some (BitVec.ofNat 4 i, e)

/-- FAULT of a channel error. -/
def faultWord (ch : BitVec 4) (e : ChannelError) : Word :=
  BitVec.ofNat 64 (e.reason.toNat * 2 ^ 56 + ch.toNat * 2 ^ 52 + e.eid % 2 ^ 48)

/-- The TYPE 2 entry of a channel error. -/
def typeTwo (t : Team) (ch : BitVec 4) (e : ChannelError) : Manifest :=
  let h : HeaderInfo := { cls := t.site.cls, engine := true, lin := t.lin, core := t.site.cluster, ch := ch.toNat, tid := e.eid }
  { who := .grid t.gid, type2 := some (ch, e), header := h.words }

/-- The grid learns of a completed team: its count, a kill, and the fault of the lowest-numbered team that has one. -/
def Grid.teamDone (g : Grid) (t : Team) : Grid :=
  let mine := (unreported t).head?.map fun x => (t.lin, faultWord x.1 x.2)
  { g with
    teams := g.teams + 1
    killed := g.killed || t.killed
    fault := match g.fault, mine with
      | some a, some b => if b.1 < a.1 then some b else some a
      | some a, none => some a
      | none, b => b }

/-- A team that is over completes: its copy faults are reported, what it held is free, and its grid may complete (R90, R103). -/
def completeTeam (s : State) (t : Team) : State :=
  let s := (unreported t).foldl (fun s x => postManifest s t.part (typeTwo t x.1 x.2)) s
  let s := freeResident s t.tid t.site.cores
  let s := { s with teams := s.teams.filter fun u => u.tid != t.tid }
  finishGrids (changeGrid s t.gid fun g => g.teamDone t)

/-- `TEAM_COMPLETE`: a placed team, or a killed one. -/
def execTeamComplete (t : Nat) (s : State) : Result :=
  let u := unfocus s
  .next (match u.teams.find? fun x => x.tid == t with
    | none => s
    | some x => if teamOver u x then refocus s (completeTeam u x) else s)

end Sys2Proof.Machine
end

