-- ==== Sys2Proof/Machine/Registers.lean ====
section
/-! DEFINITION. The partition and global register blocks: responses to manifests and page requests, head, base and plain registers, key slots, and what a read of a register gives (10_translation_and_faults.md R224–R231; 18_host_link_and_management.md R382–R388, R438; 19_code_objects.md R405). -/
namespace Sys2Proof.Machine
open Sys2Proof

/-! ## Responses (10 R229, R230) -/

/-- The records of a manifest that a predicate names. -/
def Manifest.indices (m : Manifest) (f : PageRecord → Nat → Bool) : List Nat :=
  (m.records.zipIdx.filter fun r => f r.1 r.2).map (·.2)

/-- The manifests of a partition after a change; a complete one whose requester is gone only frees its records. -/
def onManifests (s : State) (part : BitVec 4) (f : Manifest → Manifest) : State :=
  onPart s part fun p => { p with manifests := (p.manifests.map f).filter fun m => !(m.complete && m.who == .gone) }

/-- The manifest that an `FQRESP` answers: written, with a stage-1 record, not answered yet. -/
def Manifest.answers (m : Manifest) (mid : BitVec 32) : Bool := m.written && m.type2.isNone && m.waitS1 && m.mid == mid

/-- `FQRESP`: the guest answers a manifest. -/
def execFqresp (part : BitVec 4) (failmask : BitVec 14) (mid : BitVec 32) (s : State) : Result :=
  overLink s (if (partOf s part).manifests.any fun m => m.answers mid then
      onManifests s part fun m =>
        if m.answers mid then
          { m with waitS1 := false, failed := m.failed ++ m.indices fun r i => r.stage == 1 && failmask.getLsbD i }
        else m
    else onPart s part fun p => { p with fq := { p.fq with bad := true } })

/-- The page request with a tag is answered in every manifest that carries the tag. -/
def Manifest.answerTag (m : Manifest) (tag : BitVec 32) (fail : Bool) : Manifest :=
  if m.waitTags.contains tag then
    { m with
      waitTags := m.waitTags.filter (· != tag)
      failed := if fail then m.failed ++ m.indices fun r _ => r.stage == 2 && r.tag == tag else m.failed }
  else m

/-- `PRRESP`: the host answers a page request; in band 3 its service is held (17_cryogenic_and_power.md R373). -/
def execPrresp (part : BitVec 4) (fail : Bool) (tag : BitVec 32) (s : State) : Result :=
  overLink s (if s.mgmt.holding then { s with agenda := s.agenda ++ [.prresp part fail tag] }
    else if (partOf s part).requests.any fun r => r.1 == tag then
      onManifests (onPart s part fun p => { p with requests := p.requests.filter fun r => r.1 != tag }) part fun m => m.answerTag tag fail
    else onPart s part fun p => { p with prq := { p.prq with bad := true } })

/-! ## Head registers (R383) -/

/-- A head moves forward by no more than the entries written. -/
def Ring.takes (r : Ring) (h : BitVec 32) : Bool := (r.tail - h).toNat ≤ (r.tail - r.head).toNat

/-- Held manifests are written while there is room; a grid whose completion waited for one may complete (12_copies.md R276). -/
def serveManifests (s : State) (part : BitVec 4) : State :=
  finishGrids (drainManifests ((partOf s part).manifests.length + 1) s part)

/-- Waiting waybill entries are written while there is room. -/
def serveWaybill (s : State) (part : BitVec 4) : State := drainWaybill (partOf s part).wbWait.length s part

/-- Waiting error entries are written while there is room. -/
def serveErrors (s : State) (part : BitVec 4) : State := drainErrors 65 s part

def execFqheadWrite (part : BitVec 4) (v : BitVec 32) (s : State) : Result :=
  overLink s (if (partOf s part).fq.takes v then
      serveManifests (onPart s part fun p => { p with fq := { p.fq with head := v } }) part
    else onPart s part fun p => { p with fq := { p.fq with bad := true } })

def execPrqheadWrite (part : BitVec 4) (v : BitVec 32) (s : State) : Result :=
  overLink s (if (partOf s part).prq.takes v then
      serveManifests (onPart s part fun p => { p with prq := { p.prq with head := v } }) part
    else onPart s part fun p => { p with prq := { p.prq with bad := true } })

def execWbrheadWrite (part : BitVec 4) (v : BitVec 32) (s : State) : Result :=
  overLink s (if (partOf s part).wbr.takes v then
      serveWaybill (onPart s part fun p => { p with wbr := { p.wbr with head := v } }) part
    else s)

def execErrheadWrite (part : BitVec 4) (v : BitVec 32) (s : State) : Result :=
  overLink s (if (partOf s part).err.takes v then
      serveErrors (onPart s part fun p => { p with err := { p.err with head := v } }) part
    else s)

/-! ## Base registers (R383, R438) -/

/-- The alignment of a base register. -/
def baseUnit : AddrReg → Nat
  | .qbase => 512 | .fqbase => 256 | .prqbase | .wbrbase | .wbfbase | .errbase | .wmbase => 32 | .savebase => 4096

/-- The registers that the guest may write through its VF (R382, R224). -/
def guestBase : AddrReg → Bool
  | .fqbase => true
  | .qbase | .prqbase | .wbrbase | .wbfbase | .errbase | .savebase | .wmbase => false

/-- A value with the bits below the alignment cleared. -/
def alignDown (v : Word) (unit : Nat) : Word := BitVec.ofNat 64 (v.toNat / unit * unit)

/-- A base register stored; a queue or save that a failed access had stopped goes on. -/
def setBase (s : State) (part : BitVec 4) (r : AddrReg) (v : Word) : State :=
  match r with
  | .qbase => onPart s part fun p => { p with qbase := v, queues := Vector.replicate 8 {} }
  | .fqbase => serveManifests (onPart s part fun p => { p with fq := { p.fq with base := v, stopped := false } }) part
  | .prqbase => serveManifests (onPart s part fun p => { p with prq := { p.prq with base := v, stopped := false } }) part
  | .wbrbase => serveWaybill (onPart s part fun p => { p with wbr := { p.wbr with base := v, stopped := false } }) part
  | .wbfbase => onPart s part fun p => { p with wbfbase := v }
  | .errbase => serveErrors (onPart s part fun p => { p with err := { p.err with base := v, stopped := false } }) part
  | .savebase => onPart s part fun p => { p with savebase := v, saveStopped := false }
  | .wmbase => onPart s part fun p => { p with wmbase := v }

/-- `ADDRESS_REGISTER_WRITE`: through the PF, or through the partition's VF, which cannot write a host field. -/
def execAddressRegisterWrite (pf : Bool) (part : BitVec 4) (r : AddrReg) (v : BitVec 64) (s : State) : Result :=
  overLink s (if pf || guestBase r then setBase s part r (alignDown v (baseUnit r)) else s)

/-- `KEY_RANGE_WRITE`: a range past 511 or with 0 in it is stored as KEYCNT = 0 (R382). -/
def execKeyRangeWrite (part : BitVec 4) (v : BitVec 32) (s : State) : Result :=
  let base := v.extractLsb' 0 9
  let cnt := v.extractLsb' 16 9
  let bad := 512 < base.toNat + cnt.toNat || base == 0#9
  overLink s (onPart s part fun p => { p with keybase := base, keycnt := if bad then 0#9 else cnt })

/-! ## Plain registers (R216, R224, R351, R382, R405) -/

/-- A field of TCAP at most at its limit, zero otherwise (13_matrix_grants_and_engine.md R290). -/
def capAt (v : Word) (lo limit : Nat) : Nat :=
  let f := (v.extractLsb' lo 8).toNat
  if f ≤ limit then f * 2 ^ lo else 0

/-- TCAP as it is stored. -/
def tcapBits (v : Word) : Word :=
  BitVec.ofNat 64 (capAt v 0 32 + capAt v 8 32 + capAt v 16 8 + capAt v 32 32 + capAt v 40 32 + capAt v 48 1)

/-- Who may write a register through the VF: the guest's translation, handler and fault-queue registers and the interrupt block. -/
def guestPlain : PlainReg → Bool
  | .trapvec | .s1root | .fqctl | .fqstat | .intstat | .inten => true
  | .capq | .tcap | .savesize | .xlctl | .s2root | .prqctl | .prqstat | .wbrctl | .wbfcount | .errlog | .wmcount | .peerkey _ | .keydata _ => false

/-- The control and status words of a ring block. -/
def Ring.control (r : Ring) (en log : Nat) : Ring := { r with en := en = 1, log := log }
def Ring.clear (r : Ring) (v : Word) : Ring := { r with ovf := r.ovf && !v.getLsbD 0, bad := r.bad && !v.getLsbD 1 }

/-- A plain register stored. -/
def setPlain (s : State) (part : BitVec 4) (r : PlainReg) (v : Word) : State :=
  let bits (lo n : Nat) : Nat := v.toNat / 2 ^ lo % 2 ^ n
  match r with
  | .capq => onPart s part fun p => { p with capq := if bits 0 4 < 8 then BitVec.ofNat 4 (bits 0 4) else 0#4 }
  | .tcap => onPart s part fun p => { p with tcap := tcapBits v }
  | .trapvec => onPart s part fun p => { p with trapvec := v }
  | .savesize => onPart s part fun p => { p with savesize := v }
  | .xlctl => onPart s part fun p => { p with s2en := v.getLsbD 0 }
  | .s1root => onPart s part fun p => { p with s1root := s1rootBits v }
  | .s2root => onPart s part fun p => { p with s2root := v &&& 0x000FFFFFFFFF0000#64 }
  | .fqctl => serveManifests (onPart s part fun p => { p with fq := p.fq.control (bits 4 1) (bits 0 4) }) part
  | .fqstat => onPart s part fun p => { p with fq := p.fq.clear v }
  | .prqctl => serveManifests (onPart s part fun p => { p with prq := p.prq.control (bits 4 1) (bits 0 4) }) part
  | .prqstat => onPart s part fun p => { p with prq := p.prq.clear v }
  | .wbrctl => serveWaybill (onPart s part fun p => { p with wbr := p.wbr.control (bits 5 1) (bits 0 5) }) part
  | .wbfcount => onPart s part fun p => { p with wbfcount := v.setWidth 32 }
  | .intstat => onPart s part fun p => { p with intstat := p.intstat &&& ~~~v.setWidth 10 }
  | .inten => onPart s part fun p => { p with inten := v.setWidth 10 }
  | .errlog => serveErrors (onPart s part fun p => { p with err := { p.err with log := bits 0 4 } }) part
  | .wmcount => onPart s part fun p => { p with wmcount := v.setWidth 16 }
  | .peerkey port => { s with mgmt := { s.mgmt with peerkey := s.mgmt.peerkey.set port.toNat (v.setWidth 9) port.isLt } }
  | .keydata i => { s with mgmt := { s.mgmt with keydata := s.mgmt.keydata.set i.toNat v i.isLt } }

/-- `REGISTER_WRITE`: through the PF, or through the VF where the guest may write. -/
def execRegisterWrite (pf : Bool) (part : BitVec 4) (r : PlainReg) (v : BitVec 64) (s : State) : Result :=
  overLink s (if pf || guestPlain r then setPlain s part r v else s)

/-! ## Key slots (R387, R388) -/

/-- The pair in KEYDATA: data key, then tweak key, little-endian. -/
def keyDataPair (s : State) : BitVec 512 :=
  let w (i : Fin 8) : Word := s.mgmt.keydata[i]
  w 7 ++ w 6 ++ w 5 ++ w 4 ++ w 3 ++ w 2 ++ w 1 ++ w 0

/-- A command for a key slot is accepted: slot 1 to 511, and no command in progress. -/
def keyCommand (s : State) (slot : BitVec 9) (pair : BitVec 512) : State :=
  if slot = 0#9 || s.mgmt.busy.isSome then s else { s with mgmt := { s.mgmt with busy := some (slot, pair) } }

def execKeycmdLoad (slot : BitVec 9) (s : State) : Result := overLink s (keyCommand s slot (keyDataPair s))

def execKeycmdRandom (slot : BitVec 9) (s : State) : Result := overLink s (keyCommand s slot (Config.freeKey s.draws)).draw

/-- A slot holds a pair. -/
def setKey (keys : List (Nat × BitVec 512)) (slot : Nat) (pair : BitVec 512) : List (Nat × BitVec 512) :=
  (slot, pair) :: keys.filter fun k => k.1 != slot

/-- The command in progress completes: its slot holds its pair, KEYDATA is cleared. -/
def keyChange (s : State) (slot : BitVec 9) (pair : BitVec 512) : State :=
  { s with mgmt := { s.mgmt with
      busy := none
      keydata := Vector.replicate 8 0#64
      keys := setKey s.mgmt.keys slot.toNat pair } }

/-- `KEY_SLOT_CHANGE`: every controller has switched the slot of the command in progress. -/
def execKeySlotChange (slot : BitVec 9) (s : State) : Result :=
  .next (match s.mgmt.busy with
    | some (n, pair) => if n = slot then keyChange s slot pair else s
    | none => s)

/-! ## Reads of registers -/

/-- Bits [63:0] of the control and status words of a ring block. -/
def Ring.ctlWord (r : Ring) (enBit : Nat) : Word := BitVec.ofNat 64 (bitIf r.en enBit + r.log)
def Ring.statWord (r : Ring) : Word := BitVec.ofNat 64 (bitIf r.bad 1 + bitIf r.ovf 0)

/-- Two counts beside each other. -/
def pairWord (lo hi : BitVec 32) : Word := hi ++ lo

/-- The 64-bit register at an offset of a partition block: reserved offsets and write-only registers read zero (R382). -/
def readBlock (p : Partition) (off : Nat) : Word :=
  match off / 8 * 8 with
  | 0x000 => p.qbase
  | 0x100 => BitVec.ofNat 64 p.s2en.toNat
  | 0x108 => p.s1root
  | 0x110 => p.s2root
  | 0x200 => p.fq.base
  | 0x208 => p.fq.ctlWord 4
  | 0x210 => pairWord p.fq.head p.fq.tail
  | 0x218 => p.fq.statWord
  | 0x228 => p.prq.base
  | 0x230 => p.prq.ctlWord 4
  | 0x238 => pairWord p.prq.head p.prq.tail
  | 0x240 => p.prq.statWord
  | 0x300 => p.wbr.base
  | 0x308 => p.wbr.ctlWord 5
  | 0x310 => pairWord p.wbr.head p.wbr.tail
  | 0x318 => p.wbfbase
  | 0x320 => p.wbfcount.setWidth 64
  | 0x400 => p.capq.setWidth 64
  | 0x408 => p.tcap
  | 0x410 => BitVec.ofNat 64 (p.keycnt.toNat * 65536 + p.keybase.toNat)
  | 0x418 => p.trapvec
  | 0x420 => p.savebase
  | 0x428 => p.savesize
  | 0x500 => p.intstat.setWidth 64
  | 0x508 => p.inten.setWidth 64
  | 0x600 => p.err.base
  | 0x608 => BitVec.ofNat 64 p.err.log
  | 0x610 => pairWord p.err.head p.err.tail
  | _ => 0#64

/-- HELD: every team of the partition is saved, and none is being placed (R405). -/
def held (s : State) (p : BitVec 4) : Bool :=
  (partOf s p).hold && !((allTeams s).any fun t => t.status == .running && t.part == p)

/-- UNITS: the enabled clusters (Table 3). -/
def unitsOn (s : State) : Nat := ((List.range Config.clusters).filter (clusterOn s)).length

/-- The 64-bit register at an offset of the global block (Table 3; R389, R405). -/
def readGlobal (s : State) (off : Nat) : Word :=
  let o := off / 8 * 8
  if o = 0x0040 then BitVec.ofNat 64 (bitIf s.mgmt.busy.isSome 31)
  else if o = 0x0100 then BitVec.ofNat 64 (s.mgmt.phase.code + unitsOn s * 2 ^ 32)
  else if 0x0200 ≤ o && o < 0x0240 then (s.mgmt.peerkey.toList.getD ((o - 0x0200) / 8) 0#9).setWidth 64
  else if 0x0400 ≤ o && o < 0x0500 then
    let n := BitVec.ofNat 4 ((o - 0x0400) / 16)
    let p := partOf s n
    if o % 16 = 0 then p.wmbase
    else BitVec.ofNat 64 (bitIf p.hold 31 + bitIf (held s n) 30 + p.wmcount.toNat)
  else 0#64

end Sys2Proof.Machine
end

