-- ==== Sys2Proof/Machine/Link.lean ====
section
/-! DEFINITION. Requests from outside the package: the windows of Cucel Link, peer ports, and links that fail and recover (18_host_link_and_management.md R380, R381, R389; 17_cryogenic_and_power.md R373). -/
namespace Sys2Proof.Machine
open Sys2Proof

/-- The place of one byte of the PF's device-memory window: local DRAM alone, under KEYID 0 (R380). -/
def pfPlace (s : State) (pa : Nat) : Option Loc :=
  if pa < 8 * Config.stackBytes && regionOf s pa == .dram then some { key := pa, mt := 1 } else none

/-- The translation of one byte of a VF's guest-memory window: through the partition's stage 2 (R380). -/
def vfXlat (s : State) (part : BitVec 4) (acc : Access) (gpa : Nat) : Xlat :=
  let p := partOf s part
  let page := gpa / 65536 * 65536
  if 2 ^ 52 ≤ gpa then Xlat.check gpa 0
  else if p.s2en then
    match walkStage2 s part gpa false with
    | .stop x => x
    | .leaf e l => placeChecks s p acc 2 l page (leafOut e l gpa) (pteKey e) (pteMt e) (pteBale e) (some e)
  else placeChecks s p acc 1 0 0 gpa 0 0 false none

/-- The place of one byte of a VF's guest-memory window. -/
def vfPlace (s : State) (part : BitVec 4) (acc : Access) (gpa : Nat) : Option Loc :=
  match vfXlat s part acc gpa with
  | .ok l => some { l with mt := 1 }
  | .miss _ _ _ _ | .fault _ _ _ _ _ | .check _ _ | .held _ => none

/-- A walk of a request through a window waits for a line that an engine holds (11_atomics_and_ordering.md R242). -/
def windowWaits (s : State) (vf : Option (BitVec 4)) (acc : Access) (addr n : Nat) : Bool :=
  vf.any fun p => (List.range n).any fun i =>
    match vfXlat s p acc (addr + i) with
    | .held _ => true
    | .ok _ | .miss _ _ _ _ | .fault _ _ _ _ _ | .check _ _ => false

/-- The places of the bytes of a request, all or none. -/
def windowPlaces (s : State) (vf : Option (BitVec 4)) (acc : Access) (addr n : Nat) : Option (List Loc) :=
  (List.range n).mapM fun i =>
    match vf with
    | none => pfPlace s (addr + i)
    | some p => vfPlace s p acc (addr + i)

/-- The place of one byte of a peer's request: local DRAM under the port's key (R389). -/
def peerPlaces (s : State) (port : BitVec 3) (pa n : Nat) : Option (List Loc) :=
  let kid := (s.mgmt.peerkey.get port.toFin).toNat
  if kid = 0 || !s.mgmt.portsUp.getLsbD port.toNat then none
  else (List.range n).mapM fun i =>
    if pa + i < 2 ^ 45 && regionOf s (pa + i) == .dram then some { key := pa + i, kid := kid, mt := 1 } else none

/-- The errors in the lines of some places have been met (09_loads_stores_streams.md R200). -/
def placesMet (s : State) (ls : List Loc) : State :=
  ((ls.map fun l => (l.key / 128, l.kid)).eraseDups).foldl (fun s x => metLines s (128 * x.1) x.2 128) s

/-- A read through some places: the bytes, or the error that it meets. -/
def readReply (s : State) (ls : List Loc) : State × Option (List Byte) :=
  if ls.any fun l => errorAt s l.key l.kid 1 then (placesMet s ls, none) else (s, some (ls.map fun l => readByte s l.key l.kid))

/-- A write through some places: cached copies are recalled and the memory is written (16_bales.md R364); none of it when a byte meets an error. -/
def writeReply (data : List Byte) (s : State) (ls : List Loc) : State × Option (List Byte) :=
  if (ls.any fun l => brokenAt s l.key) || placesError s ls then (placesMet s ls, none)
  else (healCovered (placesWrite s ls data) fun a => ls.any fun l => l.key == a, some [])

/-- A line among some places that an engine holds. -/
def outsideHeld (s : State) (ls : List Loc) : Bool := ls.any fun l => lineAbsent s (l.key / 128)

/-- A request for device memory that must wait is taken up again later: band 3 (17 R373), or a line that an engine holds. -/
def postpone (s : State) (i : Instr) : State := { s with agenda := s.agenda ++ [i] }

/-- A request on device memory, whole or not at all: it waits from band 3 until band 2 or WARMING, and on held lines; without places, with the package off, or in WARMING in band 3, it ends with the error response. -/
def outsideAccess (s : State) (again : Instr) (waits : Bool) (ls : Option (List Loc)) (f : State → List Loc → State × Option (List Byte)) : State :=
  if s.mgmt.holding then postpone s again
  else if s.mgmt.band = 3 || s.mgmt.phase == .off then respond s none
  else if waits then postpone s again
  else
    match ls with
    | none => respond s none
    | some ls =>
      if outsideHeld s ls then postpone s again
      else let r := f s ls; respond r.1 r.2

/-- A host request; with the link down it ends with the error response (R381). -/
def hostRequest (s : State) (r : HostReq) : State :=
  if !s.mgmt.linkUp then respond s none
  else
    match r with
    | .read vf addr len =>
      outsideAccess s (.hostWindowAccess r) (windowWaits s vf .read addr.toNat len) (windowPlaces s vf .read addr.toNat len) readReply
    | .write vf addr data =>
      outsideAccess s (.hostWindowAccess r) (windowWaits s vf .write addr.toNat data.length) (windowPlaces s vf .write addr.toNat data.length) (writeReply data)
    | .readRegister vf part off =>
      let mine := match vf with
        | none => true
        | some n => n == part
      respond s (if mine then some (leBytes 8 (readBlock (partOf s part) off.toNat).toNat) else none)
    | .readGlobal off => respond s (some (leBytes 8 (readGlobal s off.toNat).toNat))

/-- `HOST_WINDOW_ACCESS`. -/
def execHostWindowAccess (r : HostReq) (s : State) : Result := .next (hostRequest s r)

/-- A read-modify-write of a peer at the memory: the old value, or the error that it meets (R389; 11_atomics_and_ordering.md R247). -/
def peerUpdate (e : Nat) (f : Word → Option Word) (s : State) (ls : List Loc) : State × Option (List Byte) :=
  match ls with
  | [] => (s, none)
  | l :: _ =>
    if writeError s l true fun _ => false then (placesMet s ls, none)
    else
      let x : Elt × Loc := ({ k := 0, va := 0 }, l)
      let old := loadElt s e x
      ((f old).elim s (storeElt s e x), some (leBytes (eltBytes e) old.toNat))

/-- An atomic of a peer. -/
def peerAtomic (s : State) (r : PeerReq) (port : BitVec 3) (pa : BitVec 45) (ok : Bool) (et : ET) (f : Word → Option Word) : State :=
  if ok && pa.toNat % eltBytes et.width = 0 then
    outsideAccess s (.peerRequest r) false (peerPlaces s port pa.toNat (eltBytes et.width)) (peerUpdate et.width f)
  else respond s none

/-- The places of a peer's train: each element aligned in local DRAM, or none. -/
def trainPlaces (s : State) (port : BitVec 3) (op : TrainOp) (et : ET) (elems : List (BitVec 45 × Word)) : Option (List Loc) :=
  if op.etOk et && elems.all fun x => x.1.toNat % eltBytes et.width = 0 then
    (elems.mapM fun x => peerPlaces s port x.1.toNat (eltBytes et.width)).map List.flatten
  else none

/-- The elements of a peer's train perform in order, then the train is acknowledged; none of it when an element meets an error. -/
def peerTrain (port : BitVec 3) (op : TrainOp) (et : ET) (elems : List (BitVec 45 × Word)) (s : State) (ls : List Loc) :
    State × Option (List Byte) :=
  let kid := (s.mgmt.peerkey.get port.toFin).toNat
  let item (x : BitVec 45 × Word) : TrainItem :=
    { k := 0, dest := 0, loc := { key := x.1.toNat, kid := kid, mt := 1 }, va := 0#64, value := lowBits et.width x.2 }
  if ls.any fun l => writeError s l true fun _ => false then (placesMet s ls, none)
  else (elems.foldl (fun s x => deliverEntry op et s (item x)) s, some [])

/-- A peer's request. -/
def peerRequest (s : State) (r : PeerReq) : State :=
  match r with
  | .read port pa len => outsideAccess s (.peerRequest r) false (peerPlaces s port pa.toNat len) readReply
  | .write port pa data => outsideAccess s (.peerRequest r) false (peerPlaces s port pa.toNat data.length) (writeReply data)
  | .atomic port pa op et operand =>
    peerAtomic s r port pa (op.etOk et) et fun old => atomValue op et .rne old (lowBits et.width operand)
  | .cas port pa et expected new =>
    peerAtomic s r port pa (et == .int32 || et == .uint32 || et == .fp32 || et == .int64) et
      (casValue (lowBits et.width expected) (lowBits et.width new))
  | .train port op et elems => outsideAccess s (.peerRequest r) false (trainPlaces s port op et elems) (peerTrain port op et elems)

/-- `PEER_REQUEST`. -/
def execPeerRequest (r : PeerReq) (s : State) : Result := .next (peerRequest s r)

/-- A link is up or down. -/
def setLink (s : State) (port : Option (BitVec 3)) (up : Bool) : State :=
  match port with
  | none => { s with mgmt := { s.mgmt with linkUp := up } }
  | some p =>
    let bit := BitVec.ofNat 8 (2 ^ p.toNat)
    { s with mgmt := { s.mgmt with portsUp := if up then s.mgmt.portsUp ||| bit else s.mgmt.portsUp &&& ~~~bit } }

/-- The port of a peer's request. -/
def peerPort : PeerReq → BitVec 3
  | .read p _ _ | .write p _ _ | .atomic p _ _ _ _ | .cas p _ _ _ _ | .train p _ _ _ => p

/-- A request, or a response to a page request, that came over a link and waits. -/
def cameOver (port : Option (BitVec 3)) (i : Instr) : Bool :=
  match i, port with
  | .hostWindowAccess _, none | .prresp _ _ _, none => true
  | .peerRequest r, some q => peerPort r == q
  | _, _ => false

/-- `LINK_FAILURE`: requests in flight over the link end with the error response. -/
def execLinkFailure (port : Option (BitVec 3)) (s : State) : Result :=
  let n := (s.agenda.filter (cameOver port)).length
  .next (setLink { s with agenda := s.agenda.filter fun i => !cameOver port i,
                          outbox := s.outbox ++ List.replicate n (.response none) } port false)

/-- `LINK_RECOVERY`: nothing that failed is retried. -/
def execLinkRecovery (port : Option (BitVec 3)) (s : State) : Result := .next (setLink s port true)

end Sys2Proof.Machine
end

