-- ==== Sys2Proof/Machine/Permute.lean ====
section
/-! DEFINITION. Permute, transpose, reduction and scan instructions 0x90–0x9C (08_permute_and_reduce.md R171–R179). -/
namespace Sys2Proof.Machine
open Sys2Proof

/-! ## Permutes (R171–R175) -/

/-- The writes of elements 0 to n − 1 below VL: the result where the mask enables it, zero where MZ does (R171). -/
def permWrites (s : State) (d : BitVec 6) (e : Nat) (mk : BitVec 3) (mz : Bool) (n : Nat) (f : Nat → LaneWord) : List LaneWrite :=
  (List.range n).filterMap fun k =>
    if maskBit s.warp mk k then some (elemWrite s d e k (f k))
    else if mz then some (elemWrite s d e k 0#32)
    else none

/-- A permute: the checks, the toll VL × 1, the elements, `vstart` := 0. -/
def permWord (s : State) (checks : List (Bool × IllegalReason)) (writes : State → List LaneWrite) : Result :=
  guarded (checks ++ [vectorOnly s]) s fun s => tolled s s.warp.vl fun s =>
    (s.onWarp fun w => { w.writeLanes (writes s) with vstart := 0 }).advance

/-- Element i of a source, zero at or beyond VL. -/
def sourceElem (s : State) (et : ET) (a : BitVec 6) (i : Nat) : LaneWord :=
  if i < s.warp.vl then container et (vElem s et a i) else 0#32

/-- A permute of one group by an index. -/
def permute (s : State) (checks : List (Bool × IllegalReason)) (mk : BitVec 3) (mz : Bool) (et : ET) (d a : BitVec 6)
    (f : State → Nat → LaneWord) : Result :=
  permWord s (vecOk s d et.width :: vecOk s a et.width :: checks) fun s => permWrites s d et.width mk mz s.warp.vl (f s)

def execVperm (mk : BitVec 3) (mz : Bool) (et : ET) (d a b : BitVec 6) (s : State) : Result :=
  permute s [vecOk s b 16] mk mz et d a fun s k => sourceElem s et a (readElem s b 16 k).toNat

def execVslup (mk : BitVec 3) (mz : Bool) (et : ET) (d a b : BitVec 6) (s : State) : Result :=
  permute s [] mk mz et d a fun s k =>
    let n := (s.warp.readS b).toNat
    if n ≤ k then sourceElem s et a (k - n) else 0#32

def execVsldn (mk : BitVec 3) (mz : Bool) (et : ET) (d a b : BitVec 6) (s : State) : Result :=
  permute s [] mk mz et d a fun s k => sourceElem s et a (k + (s.warp.readS b).toNat)

def execVbcast (mk : BitVec 3) (mz : Bool) (et : ET) (d a b : BitVec 6) (s : State) : Result :=
  permute s [] mk mz et d a fun s _ => sourceElem s et a (s.warp.readS b).toNat

/-- The places below VL that a selector mask names, in order (R174). -/
def selected (w : Warp) (b : BitVec 3) : List Nat := (List.range w.vl).filter fun k => maskBit w b k

def execVcmprs (et : ET) (d a : BitVec 6) (b : BitVec 3) (s : State) : Result :=
  permute s [] 0#3 false et d a fun s k =>
    match (selected s.warp b)[k]? with
    | some i => sourceElem s et a i
    | none => 0#32

def execVexpnd (et : ET) (d a : BitVec 6) (b : BitVec 3) (s : State) : Result :=
  permute s [] b false et d a fun s k => sourceElem s et a (countBelow (s.warp.readM b) k)

def execVtr8 (mk : BitVec 3) (mz : Bool) (et : ET) (d a : BitVec 6) (s : State) : Result :=
  permWord s [(groupOk s d 8, .register), (groupOk s a 8, .register)] fun s =>
    permWrites s d et.width mk mz (min s.warp.vl (8 * (s.w * 32 / et.width))) fun k => container et (transposed s et.width a k)

/-! ## Reductions (R176, R177) -/

/-- A leaf of a reduction tree: none where it is empty. -/
def leafAt (s : State) (mk : BitVec 3) (et : ET) (a : BitVec 6) (k : Nat) : Option LaneWord :=
  if k < s.warp.vl && maskBit s.warp mk k then
    (if k < s.warp.vl - s.warp.vpad then some (vElem s et a k) else some 0#32)
  else none

/-- One level of the tree: the sum of two leaves, the one of them that is not empty, or an empty node. -/
def pairUp {α : Type} (f : α → α → α) : List (Option α) → List (Option α)
  | left :: right :: more => Option.merge f left right :: pairUp f more
  | level => level

/-- Ten levels. -/
def treeOf {α : Type} (f : α → α → α) : Nat → List (Option α) → Option α
  | 0, xs => xs.headD none
  | n + 1, xs => treeOf f n (pairUp f xs)

/-- A node of a floating sum: its FP32 bits, the status of the tree below it, and the first node that raised an enabled exception. -/
structure Node where
  bits : LaneWord
  flags : FpFlags := {}
  trap : Option FpFlags := none
  deriving DecidableEq, Repr

/-- The sum of two nodes under a mode (R176). -/
def addNodes (md : Mode) (fpctl : BitVec 6) (p q : Node) : Node :=
  let r := faddElem .fp32 md p.bits q.bits
  { bits := r.bits, flags := (p.flags.or q.flags).or r.flags,
    trap := match p.trap, q.trap with
      | some f, _ => some f
      | none, some f => some f
      | none, none => if enabledTrap fpctl r.flags then some r.flags else none }

/-- The pairwise tree level by level, with the trap of the first node in level order. -/
def sumTree (md : Mode) (fpctl : BitVec 6) : Nat → List (Option Node) → Option Node × Option FpFlags
  | 0, xs => (xs.headD none, none)
  | n + 1, xs =>
    let ys := pairUp (addNodes md fpctl) xs
    match ys.findSome? fun y => y.bind Node.trap with
    | some f => (none, some f)
    | none => sumTree md fpctl n ys

/-- An element as FP32: narrower floats are widened exactly (R176). -/
def widen (et : ET) (x : LaneWord) : LaneWord := (rnd (fmtOf .fp32) .rne (fVal et x)).bits

/-- The result of a reduction into lane 0 of v_d (R176). -/
def reduceTo (s : State) (d : BitVec 6) (x : LaneWord) (status : BitVec 7) : State :=
  (s.onWarp fun w => { (w.writeLanes [laneWrite s d 0 x]).raise status with vstart := 0 }).advance

/-- The checks of a reduction, which writes the one register at d (log 17, DEDUCED), and of its source group. -/
def reduceWord (s : State) (et : ET) (d a : BitVec 6) (k : State → State) : Result :=
  guarded [(regOk s d, .register), vecOk s a et.width, vectorOnly s] s fun s => tolled s s.warp.vl k

def execVredsum (mk : BitVec 3) (md : Mode) (et : ET) (d a : BitVec 6) (s : State) : Result :=
  reduceWord s et d a fun s =>
    let leaves := (List.range 1024).map (leafAt s mk et a)
    if et.isInt then
      reduceTo s d (wrapTo 32 ((leaves.filterMap id).map (intValue et)).sum) 0#7
    else
      match sumTree md s.warp.fpctl 10 (leaves.map fun o => o.map fun x => { bits := widen et x }) with
      | (_, some f) => trapHere s (fpReport f 0 0x22#8) 0
      | (some n, none) => reduceTo s d n.bits n.flags.bits
      | (none, none) => reduceTo s d 0#32 0#7

/-- The identity of a largest or smallest. -/
def extremeOf (et : ET) (largest : Bool) : LaneWord :=
  if et.isInt then wrapTo 32 (if largest then intMin et else intMax et)
  else if largest then 0xFF800000#32 else 0x7F800000#32

/-- The larger or smaller of two 32-bit forms. -/
def pickWide (et : ET) (largest : Bool) (x y : LaneWord) : LaneWord :=
  if et.isInt then
    let lt := if et.isSigned then x.slt y else x.ult y
    if lt == largest then y else x
  else fpick .fp32 largest x y

/-- An element in 32-bit form: extended by its signedness, or widened. -/
def wideForm (et : ET) (x : LaneWord) : LaneWord := if et.isInt then wrapTo 32 (intValue et x) else widen et x

/-- `VREDMAX` and `VREDMIN`. -/
def reduceExtreme (s : State) (mk : BitVec 3) (et : ET) (d a : BitVec 6) (largest : Bool) : Result :=
  reduceWord s et d a fun s =>
    match ((List.range s.warp.vl).filterMap (leafAt s mk et a)).map (wideForm et) with
    | [] => reduceTo s d (extremeOf et largest) 0#7
    | x :: xs => reduceTo s d (xs.foldl (pickWide et largest) x) 0#7

def execVredmax (mk : BitVec 3) (et : ET) (d a : BitVec 6) (s : State) : Result := reduceExtreme s mk et d a true

def execVredmin (mk : BitVec 3) (et : ET) (d a : BitVec 6) (s : State) : Result := reduceExtreme s mk et d a false

/-! ## The scan (R178) -/

/-- One step of a scan. -/
def scanStep (md : Mode) (op : ScanOp) (et : ET) (r x : LaneWord) : Elem :=
  match op with
  | .add => if et.isInt then wrapped et (intValue et r + intValue et x) else faddElem et md r x
  | .max => { bits := if et.isInt then (if intValue et r < intValue et x then x else r) else fpick et true r x }
  | .min => { bits := if et.isInt then (if intValue et x < intValue et r then x else r) else fpick et false r x }

/-- The running values: for each enabled element its number, its value and its status, a pad element without status. -/
def scanRun (md : Mode) (op : ScanOp) (et : ET) (live : Nat) : Option LaneWord → List (Nat × LaneWord) → List (Nat × Elem)
  | _, [] => []
  | none, (k, x) :: rest => (k, { bits := x }) :: scanRun md op et live (some x) rest
  | some r, (k, x) :: rest =>
    let e := scanStep md op et r x
    (k, if k < live then e else { bits := e.bits }) :: scanRun md op et live (some e.bits) rest

/-- An effect on the way to a trap: it takes place once the trap's wait for outstanding flags is over, since the word starts again from its first element after that wait (R171; 02 R35). -/
def onceClear (s : State) (k : State → State) : State :=
  if s.warp.mustWait (fun o => o.flag.isSome) then s.parkOn (s.warp.waitOn fun o => o.flag.isSome) else k s

/-- The writes of a scan below `stop`. -/
def scanWrites (s : State) (mk : BitVec 3) (mz : Bool) (et : ET) (d : BitVec 6) (rs : List (Nat × Elem)) (stop : Nat) : List LaneWrite :=
  ((rs.filter fun r => r.1 < stop).map fun r => elemWrite s d et.width r.1 r.2.bits) ++
    (if mz then ((List.range (min s.warp.vl stop)).filter fun k => !maskBit s.warp mk k).map fun k => elemWrite s d et.width k 0#32
     else [])

/-- `VSCAN`. A scan reissued after its trap reads its source as it stands then, the elements that it has overwritten among it (log 75, DESIGN CHOICE). The elements below the trapping one and their status are written before the trap's commit, and stand where a fault recorded before it is taken in its place (log 76, DESIGN CHOICE). -/
def execVscan (mk : BitVec 3) (mz : Bool) (md : Mode) (op : ScanOp) (et : ET) (d a : BitVec 6) (s : State) : Result :=
  guarded [vecOk s d et.width, vecOk s a et.width, vectorOnly s] s fun s => tolled s s.warp.vl fun s =>
    let live := s.warp.vl - s.warp.vpad
    let xs := ((List.range s.warp.vl).filter fun k => maskBit s.warp mk k).map fun k =>
      (k, if k < live then vElem s et a k else 0#32)
    let rs := scanRun md op et live none xs
    let status (stop : Nat) : BitVec 7 := rs.foldl (fun acc r => if r.1 < stop then acc ||| r.2.flags.bits else acc) 0#7
    match rs.find? fun r => enabledTrap s.warp.fpctl r.2.flags with
    | none =>
      (s.onWarp fun w =>
        { (w.writeLanes (scanWrites s mk mz et d rs w.vl)).raise (status w.vl) with vstart := 0 }).advance
    | some (k, e) =>
      onceClear s fun s =>
        trapHere (s.onWarp fun w => (w.writeLanes (scanWrites s mk mz et d rs k)).raise (status k)) (fpReport e.flags k 0x20#8) k

/-! ## Extract and insert (R179) -/

def execVextr (et : ET) (d a b : BitVec 6) (s : State) : Result :=
  guarded [vecOk s a et.width, vectorOnly s] s fun s => tolled s s.warp.vl fun s =>
    let n := (s.warp.readS b).toNat
    let x := sourceElem s et a n
    let v : Word := if et.isSigned then BitVec.ofInt 64 (if n < s.warp.vl then signedOf et.width x else 0) else x.setWidth 64
    (s.onWarp fun w => { w.writeS d v with vstart := 0 }).advance

def execVins (et : ET) (d a b : BitVec 6) (s : State) : Result :=
  permWord s [vecOk s d et.width] fun s =>
    let n := (s.warp.readS b).toNat
    if n < s.warp.vl then [elemWrite s d et.width n (container et ((s.warp.readS a).setWidth 32))] else []

end Sys2Proof.Machine
end

