-- ==== Sys2Proof/Machine/Placer.lean ====
section
/-! DEFINITION. The caravan masters as one placer: records taken, teams placed, room freed, shrinks, attaches, pre-emption requests, kills and milestones (05_teams_and_warps.md R87, R93–R101; 15_system_and_traps.md R346, R350). -/
namespace Sys2Proof.Machine
open Sys2Proof

/-- Teams run: in RUN within bands 0 and 1, and in BENCH within band 4 (17_cryogenic_and_power.md R368, R371, R373). -/
def computeOn (s : State) : Bool := (s.mgmt.phase == .run && s.mgmt.band ≤ 1) || (s.mgmt.phase == .bench && s.mgmt.band = 4)

/-! ## Requests to stop (R95, R97, R346) -/

/-- A warp keeps CYCLES of its core at the request (15_system_and_traps.md R348). -/
def stamped (s : State) (w : Warp) : Warp := { w with stopAt := (coreOf s w.core).cycles }

/-- A pre-emption request for a team in place; the teams of a cooperative grid stop together. -/
def requestStop (s : State) (tid : Nat) : State :=
  match (allTeams s).find? fun t => t.tid == tid && t.status == .running with
  | none => s
  | some t =>
    let hit (u : Team) : Bool := u.status == .running && !u.preempt && (u.tid == tid || (t.launch.coop && u.gid == t.gid))
    let mark (u : Team) : Team := if hit u then { u with preempt := true, peers := u.peers.map (stamped s) } else u
    { s with team := mark s.team, teams := s.teams.map mark, warp := if hit s.team then stamped s s.warp else s.warp }

/-- `PREEMPTION_REQUEST`. -/
def execPreemptionRequest (t : Nat) (s : State) : Result := .next (requestStop s t)

/-- The shrink request of the focused team raised, never above count − MINW (R97). -/
def raiseShrink (s : State) (k : Nat) : State :=
  if s.team.elastic && s.team.status == .running && !s.team.preempt then
    s.onTeam fun t => { t with k := min (t.k + k) (s.count - t.launch.minw) }
  else s

/-- `SHRINK_REQUEST`. -/
def execShrinkRequest (t : Nat) (k : Nat) (s : State) : Result := .next (withTeam s t fun s => raiseShrink s k)

/-- Lower in R95's order of freeing: lower priority first, then the more recently placed. -/
def freedBefore (a b : Team) : Bool :=
  a.launch.prio.toNat < b.launch.prio.toNat || (a.launch.prio == b.launch.prio && b.order < a.order)

/-- The team to stop first among some. -/
def firstFreed : List Team → Option Team
  | [] => none
  | t :: rest =>
    match firstFreed rest with
    | none => some t
    | some u => some (if freedBefore u t then u else t)

/-- Room for a priority: while no lower-priority team is stopping, and a placement would succeed with all of them gone, the first of them is stopped; where warp slots and register room alone are short, an elastic one may shrink instead, as the placer is free to choose (R95; log 5, DESIGN CHOICE). That no room is freed while a lower-priority team is stopping, nor where all of it would not be enough, is the model's, as is that the room is not kept for the team it is freed for: what is placed or resumed next is a free choice (log 68, DESIGN CHOICE). -/
def freeRoom (s : State) (prio : BitVec 2) (fits : State → Bool) : State :=
  let lower := (placedTeams s).filter fun t => t.launch.prio.toNat < prio.toNat
  let u := unfocus s
  let isLower (t : Team) : Bool := t.status == .running && t.launch.prio.toNat < prio.toNat
  let gone := { u with teams := u.teams.filter fun t => !isLower t }
  let bare := { u with teams := u.teams.map fun t => if isLower t then { t with peers := [], miles := [] } else t }
  if lower.any (fun t => t.preempt) || !fits gone then s
  else
    match firstFreed lower with
    | none => s
    | some t =>
      let s := s.draw
      if t.elastic && t.k = 0 && fits bare && Config.freeChoice s.draws then withTeam s t.tid fun s => raiseShrink s 64
      else requestStop s t.tid

/-! ## Taking a record (R87, R91–R93) -/

/-- What stands at the head of a served queue. -/
inductive QueueHead where
  | idle
  /-- The descriptor or the record cannot be read. -/
  | broken
  | record (d : QueueDesc) (bs : List Byte)
  deriving DecidableEq, Repr

/-- The place of the record at HEAD. -/
def recordAddr (d : QueueDesc) : Nat := d.base + 128 * (d.head.toNat % 2 ^ d.logsize)

/-- The head of a queue, up to the TAIL observed; one whose lines an engine holds waits (11_atomics_and_ordering.md R242). -/
def queueHead (s : State) (p : BitVec 4) (q : BitVec 3) : QueueHead :=
  if !(serviceOf s p q).serving || (queueHeld s p q).isSome then .idle
  else
    match readQueue s p q with
    | none => .broken
    | some d =>
      if d.head = (serviceOf s p q).tail || (partHeld s p .read (recordAddr d) 128).isSome then .idle
      else
        match partRead s p (recordAddr d) 128 with
        | none => .broken
        | some bs => .record d bs

/-- What a queue's head could not read: its error has been met. -/
def brokenMet (s : State) (p : BitVec 4) (q : BitVec 3) : State :=
  match readQueue s p q with
  | none => queueMet s p q
  | some d => partMet s p .read (recordAddr d) 128

/-- Every queue of every partition. -/
def allQueues : List (BitVec 4 × BitVec 3) :=
  (List.range 16).flatMap fun p => (List.range 8).map fun q => (BitVec.ofNat 4 p, BitVec.ofNat 3 q)

/-- A head that may be taken. -/
structure Ready1 where
  part : BitVec 4
  queue : BitVec 3
  desc : QueueDesc
  bytes : List Byte
  deriving DecidableEq, Repr

/-- A queue has a grid that is still being placed. -/
def stillPlacing (s : State) (p : BitVec 4) (q : BitVec 3) : Bool :=
  s.grids.any fun g => g.part == p && g.queue == q && !g.ended && g.next < g.launch.total

/-- The waits of a record are satisfied (R89). -/
def waitsMet (s : State) (p : BitVec 4) (l : LaunchRecord) : Bool := l.waits.all fun w => w.2 < ((partOf s p).chans.get w.1.toFin).c

/-- The ready heads (R93); on entry to WARMING every record queued is taken. -/
def readyHeads (s : State) : List Ready1 :=
  allQueues.filterMap fun x =>
    match queueHead s x.1 x.2 with
    | .record d bs =>
      if s.mgmt.phase == .warming || (!(partOf s x.1).hold && !stillPlacing s x.1 x.2 && waitsMet s x.1 (launchOf bs)) then
        some { part := x.1, queue := x.2, desc := d, bytes := bs }
      else none
    | .idle | .broken => none

/-- The partition that is served among those with a head of the highest priority: not fixed when there are several (log 16, DESIGN CHOICE). -/
def pickPart (s : State) (hs : List Ready1) : Option (BitVec 4) :=
  match (hs.map (·.part)).eraseDups with
  | [] => none
  | [p] => some p
  | p :: q :: rest => (p :: q :: rest)[(Config.freeWord s.draws).toNat % (rest.length + 2)]?

/-- The head that is taken: the highest priority, then the queues of a partition in turn. -/
def pickHead (s : State) (hs : List Ready1) : Option Ready1 :=
  let prio (h : Ready1) : Nat := (launchOf h.bytes).prio.toNat
  let best := (hs.map prio).foldl max 0
  let tops := hs.filter fun h => prio h == best
  (pickPart s tops).bind fun p =>
    let last := ((partOf s p).served.get (BitVec.ofNat 2 best).toFin).toNat
    (List.range 8).findSome? fun i => tops.find? fun h => h.part == p && h.queue.toNat == (last + 1 + i) % 8

/-- HEAD rises, and the queue counts as the last served at its priority; none when the descriptor cannot be written. -/
def takeHead (s : State) (h : Ready1) : Option State :=
  (partWrite s h.part (queueAddr (partOf s h.part) h.queue + 24) (leBytes 4 (h.desc.head + 1#32).toNat)).map fun s =>
    onPart s h.part fun p =>
      { p with served := p.served.set (launchOf h.bytes).prio.toNat h.queue (launchOf h.bytes).prio.isLt }

/-- A HEAD that could not be written: its error has been met (09_loads_stores_streams.md R200). -/
def headMet (s : State) (h : Ready1) : State := partMet s h.part .write (queueAddr (partOf s h.part) h.queue + 24) 4

/-- The grid of a record, with the ID that its DONECH gives it. -/
def gridOf (s : State) (h : Ready1) : Grid :=
  let l := launchOf h.bytes
  { gid := s.nextGrid, part := h.part, queue := h.queue, launch := l,
    doneId := if l.donev then ((partOf s h.part).chans.get l.donech.toFin).n else 0 }

/-- The ID is given out. -/
def giveId (s : State) (g : Grid) : State :=
  let s := { s with nextGrid := s.nextGrid + 1 }
  if g.launch.donev then onLaunch s g.part g.launch.donech fun c => { c with n := (c.n + 1) % 2 ^ 48 } else s

/-- A record taken: killed in WARMING, rejected by its first failing check, or begun; a cooperative grid is taken only when it can be placed whole. The spec does not say whether a cooperative head that waits for room holds up the other ready heads: it is chosen again in each round, and no other head is tried in its place (log 63, DESIGN CHOICE). Nor does it say what a HEAD that cannot be written does: the queue takes ERR 5, as where its descriptor cannot be read (log 64, DESIGN CHOICE). -/
def takeRecord (s : State) (h : Ready1) : State :=
  let g := gridOf s h
  let st := if s.mgmt.phase == .warming then 0x0009 else recordStatus s h.bytes g
  match takeHead s h with
  | none => failQueue (headMet s h) h.part h.queue 5
  | some s1 =>
    let s1 := giveId s1 g
    if st != 0 then
      let s1 := rejectGrid s1 g st
      if st = 0x0009 then s1 else interrupt s1 g.part 0
    else
      let s1 := { s1 with grids := s1.grids ++ [g] }
      if g.launch.coop then
        match placeWhole g.launch.total s1 g.gid with
        | some s2 => s2
        | none => freeRoom s g.launch.prio fun x => (placeWhole g.launch.total { x with grids := x.grids ++ [g] } g.gid).isSome
      else s1

/-- `RECORD_TAKE`: one round of the caravan master; without a record to take, the grids whose records had to wait complete. -/
def execRecordTake (s : State) : Result :=
  .next (if !(computeOn s || s.mgmt.phase == .warming) then s
    else
      match allQueues.find? fun x => queueHead s x.1 x.2 == .broken with
      | some x => failQueue (brokenMet s x.1 x.2) x.1 x.2 5
      | none =>
        match pickHead s (readyHeads s) with
        | some h => takeRecord s.draw h
        | none => finishGrids s)

/-! ## Placing (R94, R95) -/

/-- A grid whose next team may be placed now. -/
def mayPlace (s : State) (g : Grid) : Bool :=
  computeOn s && !(partOf s g.part).hold && !g.ended && g.next < g.launch.total && !logWaits s g.launch g.part

/-- `TEAM_PLACEMENT`: the next team of a grid finds a site, or room is freed for it. -/
def execTeamPlacement (g : Nat) (s : State) : Result :=
  .next (match s.grids.find? fun x => x.gid == g with
    | none => s
    | some x =>
      if mayPlace s x then
        match placeNext s x with
        | some s => s
        | none => freeRoom s x.launch.prio fun s => (placeNext s x).isSome
      else s)

/-- The scheduler may attach a warp to the focused team (R99). -/
def mayAttach (s : State) : Bool :=
  s.team.status == .running && s.team.elastic && !s.team.launch.rfollow && s.team.k = 0 && 0 < s.count && 0 < growRoom s &&
    computeOn s && !logWaits s s.team.launch s.team.part

/-- `SCHEDULER_ATTACH`. -/
def execSchedulerAttach (t : Nat) (s : State) : Result :=
  .next (withTeam s t fun s => if mayAttach s then attachWarp s else s)

/-- `HOST_KILL`: system software kills a team, placed or saved (R350). -/
def execHostKill (t : Nat) (s : State) : Result :=
  .next (withTeam s t fun s => if s.team.status == .absent || s.team.tid != t then s else killTeam s)

/-- `MILESTONE_FIRE`: the oldest unfired milestone of a warp of a team in place (R101); those of a warp that has left fire before those of a warp that has its index now (log 74, DESIGN CHOICE). -/
def execMilestoneFire (w : WarpRef) (s : State) : Result :=
  .next (withTeam s w.team fun s =>
    if s.team.status == .running && s.team.tid == w.team then
      match s.team.miles.find? fun m => m.warp == w.warp with
      | some m => fireMilestone s m
      | none => s
    else s)

end Sys2Proof.Machine
end

