-- ==== Sys2Proof/Machine/Ready.lean ====
section
/-! DEFINITION. Which warps are ready, and the order in which a core issues them: parks, slots, wait counts, class groups and urgency (04_scalar_and_flow.md R65–R71; 11_atomics_and_ordering.md R253; 15_system_and_traps.md R336; 17_cryogenic_and_power.md R375). -/
namespace Sys2Proof.Machine
open Sys2Proof

/-! ## Parks that are over (R67) -/

/-- A pre-emption that the focused warp takes at its point (15_system_and_traps.md R346, R332). -/
def preemptHere (s : State) : Bool := s.team.preempt && !s.warp.intrap

/-- A copy has no outstanding instruction left in a warp. -/
def Warp.clearOf (w : Warp) (r : CopyRef) : Bool := !w.pending.any fun o => o.copy == some r && !o.done

/-- The park of the focused warp is over: the word it stands at can execute again. -/
def awake (s : State) : Bool :=
  match s.warp.park with
  | .none => true
  | .flags cs ls => cs.all s.warp.clearOf && !s.warp.pending.any fun o => ls.contains o.seq && !o.done
  | .slot t => !slotBusy s t
  | .presence line => !lineAbsent s line
  | .manifest => !awaiting s s.team.part (.warp s.me)
  | .barrier b phase point => phase < (s.team.bar b).p || (point && preemptHere s)
  | .stall b => !mustStall s b
  | .copy ch id => id < (s.team.chan ch).c || (errorFor (s.team.chan ch) id).isSome || preemptHere s
  | .porter => porterBusy s < 8
  | .cell key kid turn => turnReached (readLE s (key + 4) kid 4) turn
  | .invalidation n => !s.invalidations.any fun i => i.num == n
  | .waybill => s.part.wbWait.isEmpty
  | .toll n => s.credit n

/-- The focused warp has a trap that is due, or stands before a clause: what it does next takes no slot. -/
def betweenWords (s : State) : Bool := s.warp.due.isSome || s.warp.at.idx = 0

/-- The waits at the start of a clause are satisfied: for synchronous instructions, and for the flags that the header names (02_words_and_registers.md R33, R34). -/
def startable (s : State) : Bool :=
  if s.warp.due.isSome || s.warp.at.idx != 0 then true
  else if s.warp.mustWait synchronous then false
  else
    match fetchClause s s.warp.intrap s.warp.at.hdr with
    | .got (h, _) _ => s.warp.inLanes || !s.warp.mustWait (headerCovers (Header.ofBits h))
    | .miss _ | .wait _ | .fault _ _ => true

/-! ## Slots (R65, R66) -/

/-- The opcodes that take a lane slot. -/
def laneOpcode (op : Nat) : Bool :=
  (0x44 ≤ op && op ≤ 0x4C) || (0x50 ≤ op && op ≤ 0x68) || (0x70 ≤ op && op ≤ 0x82) || (0x90 ≤ op && op ≤ 0x9C) ||
    (0xA2 ≤ op && op ≤ 0xAB) || op == 0xB1 || op == 0xB3 || (0xC9 ≤ op && op ≤ 0xCB)

/-- The word at a position; none at the start of a clause. -/
def Position.word (p : Position) : Option Word := if p.idx = 0 then none else p.words[p.idx - 1]?

/-- The next word of a warp takes a lane slot: a lane opcode, or any word in lane mode (R85). -/
def Warp.usesLane (w : Warp) : Bool := w.inLanes || w.at.word.any fun x => laneOpcode (x.extractLsb' 56 8).toNat

/-- G: the lane groups of a core (Table 1). -/
def laneGroups : CoreClass → Nat → Nat
  | .m, w => max 1 (64 / max 1 w)
  | .e, w => max 1 (32 / max 1 w)

/-- An issue slot: of a core, the uniform one or that of a lane group. -/
structure IssueSlot where
  core : CoreRef
  group : Option Nat
  deriving DecidableEq, Repr

/-- The slot that the next word of the focused warp needs; a lane group goes by the number that the warp's own G gives it, whatever the G of the other warps (log 73, DESIGN CHOICE). -/
def slotNeeded (s : State) : IssueSlot :=
  { core := s.warp.core
    group := if s.warp.usesLane then some (s.warp.slot % laneGroups s.warp.core.cls s.w) else none }

/-! ## What the units accept (R67; 17_cryogenic_and_power.md R375, Table 4) -/

/-- The charge of a word of a lane-slot opcode, of `LDS`, `STS`, `ATOM` or `CAS`: in vector mode for VL elements, in lane mode for the lanes of the group. -/
def laneCharge (s : State) (op : Nat) : Nat :=
  let float := (0x70 ≤ op && op ≤ 0x76) || op == 0x82
  let long := 0x77 ≤ op && op ≤ 0x7C
  if s.warp.inLanes then
    let n := s.warp.group.length
    if float then n * 2
    else if long then n * 8
    else if op == 0xA0 || op == 0xA1 || op == 0xB0 || op == 0xB2 then n
    else 0
  else if float || (0x7D ≤ op && op ≤ 0x81) then s.warp.vl * 2
  else if long then s.warp.vl * 8
  else if laneOpcode op && op != 0xA8 && op != 0xAB then s.warp.vl
  else 0

/-- A copy or a matrix instruction whose unit does not accept it now; one that fails a check at issue needs no unit. -/
def engineRefuses (s : State) : Instr → Bool
  | .cpyboxIn fs d a b c ch => regOk s a && copyRefused s (boxForm s fs .boxIn d a b c ch)
  | .cpyboxOut fs d a b c ch => regOk s a && copyRefused s (boxForm s fs .boxOut d a b c ch)
  | .cpya fs t d a b ch => regOk s a && (slotOk s t).1 && s.team.tiles && copyRefused s (operandForm s fs true t d a b ch)
  | .cpyb fs t d a b ch => regOk s a && (slotOk s t).1 && s.team.tiles && copyRefused s (operandForm s fs false t d a b ch)
  | .cpytrain fs op et d a b ch => copyRefused s (trainForm s fs op et d a b ch)
  | .tzero t | .tcsclLd _ t _ | .tcsclOne _ t | .tsave _ t _ | .tload _ t _ => s.team.tiles && !s.credit (extentToll t s)
  | .tldb _ t _ _ => s.team.tiles && !s.credit (loadToll t s)
  | .tmma _ t _ | .tmmas _ t _ _ => s.team.tiles && !s.credit (multiplyToll t s)
  | _ => false

/-- The opcodes of the copy instructions and of the matrix instructions that Table 4 charges by their operands. -/
def engineOpcode (op : Nat) : Bool := (0xB8 ≤ op && op ≤ 0xBD) || (0xC0 ≤ op && op ≤ 0xCF)

/-- The slot and the unit that the next word of the focused warp needs can accept it: no word holds the slot for its second cycle, the Porter has a context, and the toll gate has credit (log 71, DEDUCED). -/
def accepted (s : State) : Bool :=
  match s.warp.at.word with
  | none => true
  | some x =>
    let op := (x.extractLsb' 56 8).toNat
    !(coreOf s s.warp.core).second.contains (slotNeeded s).group && s.credit (laneCharge s op) &&
      (!engineOpcode op || s.warp.inLanes ||
        match decodeWord (Header.ofBits s.warp.at.header).context x with
        | .ok i => !engineRefuses s i
        | .error _ => true)

/-- The focused warp is ready: it is resident, its cluster's clock runs, it is not parked, the waits of its next clause are over, its slot and unit can accept its word, and no YLD window holds it back (R67, R71). -/
def ready (s : State) : Bool :=
  s.team.status == .running && s.warp.status == .running && clockRuns s (coreCluster s.warp.core) && s.warp.yieldOff = 0 && awake s &&
    startable s && (s.warp.due.isSome || accepted s)

/-- Every warp of every team in place. -/
def everyWarp (s : State) : List WarpRef :=
  (allTeams s).flatMap fun t =>
    if t.status == .running then
      (t.peers.map fun w => { team := t.tid, warp := w.idx }) ++
        (if t.tid == s.team.tid && s.warp.status != .absent then [s.me] else [])
    else []

/-- A warp as it stands. -/
def warpOf (s : State) (r : WarpRef) : Warp := (focusOn s r).warp

/-- A warp may issue. -/
def readyWarp (s : State) (r : WarpRef) : Bool := ready (focusOn s r)

def readyWarps (s : State) : List WarpRef := (everyWarp s).filter (readyWarp s)

/-! ## The order of issue (R68–R71) -/

/-- CLS of the clause a warp stands in. -/
def Warp.cls (w : Warp) : Nat := if w.at.idx = 0 then 0 else (Header.ofBits w.at.header).cls.toNat

/-- A warp is urgent from the cycle in which its wait count reaches 32 (R70). -/
def Warp.pressing (w : Warp) : Bool := w.urgent || 32 ≤ w.wait

/-- The steps of R68: urgent warps, then those of the open class group, then the others; a warp in a YLD window comes last. -/
def tier (group : Option (Nat × Nat)) (w : Warp) : Nat :=
  if w.pressing then 0
  else if 0 < w.yieldLow then 3
  else if group.any fun g => g.1 == w.cls then 1
  else 2

/-- A warp is chosen before another: by tier, then the larger wait count, then the lower warp slot. -/
def chosenBefore (group : Option (Nat × Nat)) (a b : Warp) : Bool :=
  let x := tier group a
  let y := tier group b
  x < y || (x == y && (b.wait < a.wait || (a.wait == b.wait && a.slot < b.slot)))

/-- The one chosen among some warps. -/
def chosen (s : State) (group : Option (Nat × Nat)) : List WarpRef → Option WarpRef
  | [] => none
  | r :: rest =>
    match chosen s group rest with
    | none => some r
    | some q => some (if chosenBefore group (warpOf s q) (warpOf s r) then q else r)

/-- An element of a list: the only one, or one by a free draw. -/
def pickFree {α : Type} (s : State) : List α → Option α
  | [] => none
  | [x] => some x
  | x :: y :: rest => (x :: y :: rest)[(Config.freeWord s.draws).toNat % (rest.length + 2)]?

/-- The focused warp may move in this cycle of its core: it is ready, and has yet to issue into a slot that is free, unless what it does next takes none (R65, R66). -/
def movable (s : State) : Bool :=
  ready s && (betweenWords s || (s.warp.taken = 0 && !(coreOf s s.warp.core).used.any fun u => u.1 == (slotNeeded s).group))

def movableWarps (s : State) : List WarpRef := (everyWarp s).filter fun r => movable (focusOn s r)

/-- The choice on one core: what takes no slot first, then the uniform slot, then a lane slot, each by the order of R68. -/
def chosenOn (s : State) (c : CoreRef) (rs : List WarpRef) : Option WarpRef :=
  let free := rs.filter fun r => betweenWords (focusOn s r)
  if !free.isEmpty then pickFree s free
  else
    let slots := (rs.map fun r => (slotNeeded (focusOn s r)).group).eraseDups
    let x := if slots.contains none then some none else pickFree s slots
    x.bind fun g => chosen s (coreOf s c).group (rs.filter fun r => (slotNeeded (focusOn s r)).group == g)

/-- The warp that moves next: the order among the cores is free, and on a core it is R68's (log 4, DESIGN CHOICE). -/
def nextWarp (s : State) : Option WarpRef :=
  let rs := movableWarps s
  (pickFree s (rs.map fun r => (warpOf s r).core).eraseDups).bind fun c => chosenOn s c (rs.filter fun r => (warpOf s r).core == c)

/-! ## What the cycles of a core do (R68–R71, R336, R375) -/

/-- The warps of a core. -/
def onCoreWarps (s : State) (c : CoreRef) : List WarpRef := (everyWarp s).filter fun r => (warpOf s r).core == c

/-- LEVEL at the start of a cycle. -/
def Core.refilled (c : Core) : Int := min (c.cap : Int) (c.level + (c.refill : Nat))

/-- The slots that are still taken in the next cycle. -/
def Core.stillUsed (c : Core) : List (Option Nat × Nat) := (c.used.map fun u => (u.1, u.2 - 1)).filter fun u => 0 < u.2

/-- One cycle of a core. -/
def Core.cycled (c : Core) : Core :=
  { c with
    cycles := c.cycles + 1#64
    level := c.refilled
    group := c.group.map fun g => (g.1, g.2 + 1)
    seen := false
    closed := false
    used := c.stillUsed
    second := c.stillUsed.map (·.1) }

/-- One cycle of a warp: a ready one that has not issued in it waits, the YLD windows run down. -/
def Warp.cycled (w : Warp) (ready : Bool) : Warp :=
  let waits := ready && w.taken = 0
  { w with
    wait := if waits then w.wait + 1 else if w.yieldOff = 0 then 0 else w.wait
    urgent := w.urgent && waits
    yieldOff := w.yieldOff - 1
    yieldLow := w.yieldLow - 1
    taken := w.taken - 1 }

/-- `CYCLE`: a cycle of a core whose clock runs ends, and the next starts. -/
def execCycle (c : CoreRef) (s : State) : Result :=
  .next (if clockRuns s (coreCluster c) then
      let rs := onCoreWarps s c
      let waiting := rs.filter (readyWarp s)
      rs.foldl (fun s r => withWarp s r fun x => x.onWarp fun w => w.cycled (waiting.contains r)) (onCore s c Core.cycled)
    else s)

/-- `URGENT`: a ready warp whose wait count has reached 32 (R70). -/
def execUrgent (w : WarpRef) (s : State) : Result :=
  .next (withWarp s w fun x => if x.me == w && ready x && 32 ≤ x.warp.wait then x.onWarp fun y => { y with urgent := true } else x)

/-- No slot of the core can still be filled in this cycle, and no warp of it can move otherwise. -/
def cycleOver (s : State) (c : CoreRef) : Bool := !(onCoreWarps s c).any fun r => movable (focusOn s r)

/-- No ready warp of the core stands in a clause of the class, and none has issued from one in this cycle. -/
def classGone (s : State) (c : CoreRef) (cls : Nat) : Bool :=
  !(coreOf s c).seen && !(onCoreWarps s c).any fun r => readyWarp s r && (warpOf s r).cls == cls

/-- The end of the cycle in which the class group of a core closes: its sixteenth, or the first without a ready warp of its class (R69). -/
def groupEnds (s : State) (c : CoreRef) : Bool :=
  cycleOver s c && (coreOf s c).group.any fun g => 15 ≤ g.2 || classGone s c g.1

/-- `CLASS_GROUP_CLOSE`: at the end of such a cycle; a new group may open in the next. -/
def execClassGroupClose (c : CoreRef) (s : State) : Result :=
  .next (if groupEnds s c then onCore s c fun x => { x with group := none, closed := true } else s)

/-- The class group of a core after a word that issued from a clause of a class: one of class 2 to 6 opens it when none is open, and none has closed in this cycle (R69). -/
def Core.grouped (c : Core) (cls : Nat) : Core :=
  match c.group with
  | some g => { c with seen := c.seen || g.1 == cls }
  | none => if 2 ≤ cls && cls ≤ 6 && !c.closed then { c with group := some (cls, 0), seen := true } else c

/-- The cycles for which a word holds its slot: two on the lanes of an E-core with W = 64 (R65). -/
def slotCycles (s : State) : Nat := if s.warp.usesLane && s.warp.core.cls == .e && s.w = 64 then 2 else 1

/-- `REDORD_UNPARK`: the waiters of a reduction cell whose turn has come, or has passed, go on (R253). -/
def execRedordUnpark (cell : Nat) (s : State) : Result :=
  .next ((everyWarp s).foldl (fun s r => withWarp s r fun x =>
    match x.warp.park with
    | .cell key _ _ => if key == cell && awake x then x.parkOn .none else x
    | .none | .flags _ _ | .slot _ | .presence _ | .manifest | .barrier _ _ _ | .stall _ | .copy _ _ | .porter | .invalidation _ | .waybill | .toll _ => x) s)

end Sys2Proof.Machine
end

