-- ==== Sys2Proof/Machine/Save.lean ====
section
/-! DEFINITION. Saving and resuming: the forced full save of a warp, the save of a team, its resume, and the hold of a partition (02_words_and_registers.md R39; 12_copies.md R278; 14_matrix_instructions.md R327; 15_system_and_traps.md R346–R350; 19_code_objects.md R405–R407). -/
namespace Sys2Proof.Machine
open Sys2Proof

/-! ## A warp saved whole (R39, R348) -/

/-- What a forced full save does to a warp: outstanding instructions that no engine holds have completed, nothing is committed, what was read ahead and held is discarded. -/
def Warp.savedWhole (w : Warp) : Warp :=
  { w with
    status := .savedWhole
    pending := w.pending.map fun o => if o.copy.isNone && !o.late then { o with done := true } else o
    st := w.st.map fun x => { x with ahead := [], held := [] }
    service := { w.service with failed := [], pins := [] }
    park := match w.park with
      | .cell _ _ _ | .presence _ | .toll _ => .none
      | p => p
    paid := false
    lease := 0
    wait := 0
    urgent := false
    yieldOff := 0
    yieldLow := 0
    taken := 0 }

/-- The focused warp is saved whole: its lease returns, a manifest of its own that is held is discarded, the shrink request falls to zero (R97). -/
def saveWhole (s : State) : State :=
  let s := dropManifests s s.team.part (.warp s.me)
  let s := onCluster s (coreCluster s.warp.core) fun c => { c with pool := c.pool + s.warp.lease }
  { s with warp := s.warp.savedWhole, team := { s.team with k := 0 } }

/-- The focused warp has not reached a pre-emption point 2^24 cycles of its core after the request. -/
def forcedDue (s : State) : Bool :=
  s.team.status == .running && s.warp.status == .running && s.team.preempt &&
    2 ^ 24 ≤ ((coreOf s s.warp.core).cycles - s.warp.stopAt).toNat

/-- `FORCED_FULL_SAVE`. -/
def execForcedFullSave (w : WarpRef) (s : State) : Result :=
  .next (withWarp s w fun s =>
    if s.me == w && forcedDue s then saveWhole s else s)

/-- The mass pre-emption (17_cryogenic_and_power.md R373): a request for every team in place, and every warp of it saved whole. -/
def massPreempt (s : State) : State :=
  let s := (placedTeams s).foldl (fun s t => requestStop s t.tid) s
  (everyWarp s).foldl (fun s r => withWarp s r fun s => if s.warp.status == .running then saveWhole s else s) s

/-! ## The save of a team (R278, R327, R349) -/

/-- A warp that issues no more: saved, or stopped by the double fault. -/
def Warp.atRest (w : Warp) : Bool :=
  match w.status with
  | .saved _ | .savedWhole | .stopped => true
  | .absent | .running => false

/-- The copies of a team. -/
def copiesOf (s : State) (tid : Nat) : List Copy := s.copies.filter fun c => c.ref.team == tid

/-- The clocks that a save needs: in band 3 a save waits with them (R370); in band 4 only BENCH has clocks (R371). -/
def savesRun (s : State) : Bool := s.mgmt.band ≤ 2 || (s.mgmt.band = 4 && s.mgmt.phase == .bench)

/-- The focused team, none of whose warps is focused, may be saved: every warp is at rest, every accepted matrix operation has performed, every copy is parked with nothing left to deliver, and no failed access holds the save. -/
def maySave (s : State) : Bool :=
  s.team.status == .running && s.team.preempt && !s.team.peers.isEmpty && s.team.peers.all Warp.atRest && s.team.late.isEmpty &&
    (copiesOf s s.team.tid).all (fun c => c.parked && c.trains.isEmpty) && savesRun s && !s.part.saveStopped

/-- The bytes of a team's save block before its tile images, and the place of image i in it (log 34, DESIGN CHOICE). -/
def LaunchRecord.imageAt (l : LaunchRecord) (i : Nat) : Nat := 16384 + l.maxw * (2048 + l.warpw * 4 * l.vregs) + 262208 * i

/-- The bytes of a team's save block. -/
def LaunchRecord.saveBytes (l : LaunchRecord) : Nat := l.imageAt l.tiles

/-- The save blocks of a partition: where they stand and where they end. -/
def saveBlocks (s : State) (p : BitVec 4) : List (Nat × Nat) :=
  (allTeams s).filterMap fun t =>
    if t.status == .saved && t.part == p then t.block.map fun b => (b.1, b.1 + b.2) else none

/-- The lowest place for a save block in the partition's save area. -/
def saveAt (s : State) (p : BitVec 4) (n : Nat) : Option Nat :=
  let lo := (partOf s p).savebase.toNat
  let hi := lo + (partOf s p).savesize.toNat
  let used := saveBlocks s p
  ((lo :: used.map (·.2)).filter fun a => lo ≤ a && a + n ≤ hi && used.all fun u => a + n ≤ u.1 || u.2 ≤ a).min?

/-- Free bytes: what the device keeps of a team in a layout of its own (R349; log 5, DESIGN CHOICE). -/
def freeBytes (draws n : Nat) : List Byte := (List.range n).map fun i => (Config.freeWord (draws + i)).setWidth 8

/-- The part of a save block for a slot: its image under R324 when it holds a grant (R327). -/
def slotBlock (draws : Nat) (x : Slot) : List Byte :=
  let image := if x.grant.isSome then x.imageBytes else []
  image ++ freeBytes draws (262208 - image.length)

/-- The bytes of the focused team's save block. -/
def blockBytes (s : State) : List Byte :=
  let l := s.team.launch
  freeBytes s.draws (l.imageAt 0) ++
    (List.range l.tiles).flatMap fun i => slotBlock (s.draws + l.imageAt i) (s.team.slot (BitVec.ofNat 3 i))

/-- The first byte at which a physical write fails. -/
def failingByte (s : State) (a n : Nat) : Nat :=
  ((List.range n).find? fun i => Config.windowBase ≤ a + i || regionOf s (a + i) == .none).elim (memoryErrorAt s { key := a } n) (a + ·)

/-- A slot as the save records it beside its image: gK and the grant, the channel scales, the recorded B (R327). -/
def Slot.beside (x : Slot) : Slot := if x.grant.isSome then { x with acc := [], chunks := 0#64 } else {}

/-- The scratchpad lines of the focused team that hold an uncorrectable error. -/
def scratchBad (s : State) : List Nat :=
  let a := Config.windowBase + s.team.base
  ((s.bad.filter fun g => inRange a s.team.launch.scratch (8 * g)).map fun g => g / 16 * 128).eraseDups

/-- An uncorrectable scratchpad line met by the save: entry and interrupt; its bits get fresh check bits. -/
def reportScratch (s : State) (line : Nat) : State :=
  let s := recordError s s.team.part { kind := 8#8, addr := BitVec.ofNat 64 line, team := BitVec.ofNat 32 s.team.lin }
  interrupt (freshCheck s line 128) s.team.part 6

/-- The scratchpad contents of the focused team, by offset. -/
def scratchImage (s : State) : List Host.Cell :=
  let a := Config.windowBase + s.team.base
  (s.mem.filter fun c => inRange a s.team.launch.scratch c.1).map fun c => (c.1 - a, c.2)

/-- The fields of a saved team. -/
def Team.savedAs (t : Team) (image : List Host.Cell) (copies : List Copy) (block : Nat × Nat) : Team :=
  { t with
    status := .saved
    preempt := false
    k := 0
    image := image
    copies := copies
    block := some block
    slots := t.slots.map Slot.beside
    peers := t.peers.map fun w => { w with lease := 0 } }

/-- The focused team is saved at a place of the save area. -/
def saveTeamAt (s : State) (a : Nat) : State :=
  let bytes := blockBytes s
  let n := bytes.length
  match physWrite { s with draws := s.draws + n } a bytes with
  | none =>
    recordError (metLines (onPart s s.team.part fun p => { p with saveStopped := true }) a 0 n) s.team.part
      { kind := 9#8, addr := BitVec.ofNat 64 (failingByte s a n), value := 6#32 }
  | some s =>
    let s := (scratchBad s).foldl reportScratch s
    let s := (copiesOf s s.team.tid).foldl (fun s c => dropManifests s c.part (.copy c.ref)) s
    let s := s.team.peers.foldl (fun s w => onCluster s (coreCluster w.core) fun c => { c with pool := c.pool + w.lease }) s
    let s := freeResident s s.team.tid s.team.site.cores
    let mine := copiesOf s s.team.tid
    let s := { s with copies := s.copies.filter fun c => c.ref.team != s.team.tid }
    wipe (s.onTeam fun t => t.savedAs (scratchImage s) mine (a, n)) s.team.base s.team.launch.scratch

/-- `TEAM_SAVE`: without room the team stays in place, and the host is told; a place that an engine holds is waited for (11_atomics_and_ordering.md R242). -/
def execTeamSave (t : Nat) (s : State) : Result :=
  let u := focusTeam s t
  .next (if u.team.tid == t && maySave u then
      refocus s (match saveAt u u.team.part u.team.launch.saveBytes with
        | none => interrupt u u.team.part 7
        | some a => if heldLine u a u.team.launch.saveBytes then u else saveTeamAt u a)
    else s)

/-! ## The resume of a team (R94, R278, R327, R349, R407) -/

/-- An exact address mapped through the waymarks. -/
def waymarkInt (s : State) (p : BitVec 4) (a : Int) : Int :=
  if 0 ≤ a && a < 2 ^ 64 then ((waymark s p (addrWord a)).toNat : Nat) else a

/-- A position mapped: its clause moves with it. -/
def waymarkPos (s : State) (p : BitVec 4) (x : Position) : Position := { x with hdr := waymarkInt s p x.hdr }

/-- The lanes mapped. -/
def waymarkLanes (s : State) (p : BitVec 4) (lm : LaneMode) : LaneMode :=
  { lm with lanes := lm.lanes.map fun l => { l with pos := waymarkPos s p l.pos, joinAt := l.joinAt.map (waymarkInt s p) } }

/-- The place after a reissued word mapped. -/
def waymarkResume (s : State) (p : BitVec 4) (r : Resume) : Resume :=
  match r with
  | .goOn x => .goOn (waymarkPos s p x)
  | .stop rep va => .stop rep (waymarkInt s p va)

/-- Every saved PC of a warp mapped through the waymarks (R407). -/
def waymarkWarp (s : State) (p : BitVec 4) (w : Warp) : Warp :=
  { w with
    pos := waymarkPos s p w.pos
    lanes := w.lanes.map (waymarkLanes s p)
    frozen := w.frozen.map (waymarkLanes s p)
    reissue := w.reissue.map fun r => (waymarkResume s p r.1, r.2)
    trappc := waymark s p w.trappc
    trapnpc := waymark s p w.trapnpc
    traphdr := waymark s p w.traphdr
    traphome := waymarkInt s p w.traphome }

/-- A mask of free bits. -/
def freeMask (n : Nat) : BitVec 1024 :=
  (List.range 16).foldl (fun acc i => acc ||| ((Config.freeWord (n + i)).setWidth 1024 <<< (64 * i))) 0

/-- The dead vector and mask state after a save at `SETVL` or `TSET`: free values (R45, R347; log 5, DESIGN CHOICE). -/
def Warp.deadState (w : Warp) (draw : Nat) : Warp :=
  { w with
    v := w.v.mapIdx fun i _ => (Config.freeWord (draw + i)).setWidth 32
    m := Vector.ofFn fun i => freeMask (draw + w.v.length + 16 * i.val) }

/-- A restored warp: `s60` for the new base, the saved PCs mapped, free values in what was dead. -/
def resumeWarp (s : State) (base : Nat) (w : Warp) : Warp :=
  let w := waymarkWarp s s.team.part w
  let w := { w with s := w.s.set 60 (BitVec.ofNat 64 (Config.windowBase + base)) }
  match w.status with
  | .saved true => { w.deadState (s.draws + 16 + 8192 * w.idx) with status := .running }
  | .saved false | .savedWhole => { w with status := .running }
  | .absent | .running | .stopped => w

/-- An address in the team's own scratchpad bytes moves with them (R278). -/
def rebase (old new n a : Nat) : Nat := if inRange (Config.windowBase + old) n a then a - old + new else a

/-- The named slices of a multicast whose destination has moved, on the die of its new place (R265). -/
def rebaseMcast (c : Copy) (moved : Nat → Nat) : Option (List Nat) :=
  c.mcast.map fun cs =>
    let die (a : Nat) : Nat := (a - Config.windowBase) / Config.sliceSpan / 26
    match c.boxes.head? with
    | none => cs
    | some b => cs.map fun n => 26 * die (moved b.dense) + n % 26

/-- A line that a multicast holds, in the slice that bears its number on the new die, as far from its destination as before. -/
def mcastLine (c : Copy) (moved : Nat → Nat) (l : Nat) : Nat :=
  match c.boxes.head? with
  | none => l
  | some b =>
    let slice (a : Nat) : Nat := (a - Config.windowBase) / Config.sliceSpan
    let off (a : Nat) : Nat := (a - Config.windowBase) % Config.sliceSpan
    (Config.windowBase + (26 * (slice (moved b.dense) / 26) + slice (128 * l) % 26) * Config.sliceSpan + off (128 * l) + off (moved b.dense) - off b.dense) / 128

/-- A parked copy is reissued from `vstart` by the Porter of the new cluster; a multicast writes the slices that its mask names on the die of its new destination (R265). -/
def rebaseCopy (old new n cluster : Nat) (c : Copy) : Copy :=
  let line (l : Nat) : Nat := if c.mcast.isSome then mcastLine c (rebase old new n) l else rebase old new n (128 * l) / 128
  { c with
    mcast := rebaseMcast c (rebase old new n)
    cluster := cluster
    boxes := c.boxes.map fun b =>
      { b with shape := { b.shape with base := BitVec.ofNat 64 (rebase old new n b.shape.base.toNat) }, dense := rebase old new n b.dense }
    list := rebase old new n c.list
    held := c.held.map line
    arrived := c.arrived.map line
    parked := false
    failed := []
    pins := []
    performed := []
    buffer := []
    cleared := c.vstart }

/-- The scratchpad contents at a new base. -/
def restoreImage (s : State) (base : Nat) : State :=
  s.team.image.foldl (fun s c => { s with mem := cellWrite s.mem (Config.windowBase + base + c.1) c.2 }) s

/-- The saved copies of the focused team taken up again, behind those of its new Porter (R256), and the lines they hold held again; lines that a moved multicast holds no more are released. -/
def resumeCopies (s : State) (old base : Nat) (x : Site) : State :=
  let before := (s.team.copies.filter fun c => c.mcast.isSome).flatMap (·.held)
  let mine := s.team.copies.map (rebaseCopy old base s.team.launch.scratch x.cluster)
  let s := { s with copies := s.copies ++ mine }.onTeam fun t => { t with copies := [] }
  let left := before.filter fun l => !(s.copies.any fun o => o.held.contains l) && !(keptLines s).any fun k => k.2.contains l
  clearPresence (setPresence s left) (mine.flatMap (·.held))

/-- What a restore makes of the image of slot t at an address: checked as `TLOAD` does, it gives the values, the chunk count, the grant and its status; the save gives gK, the channel scales and the recorded B, and the restored extent is in force (R327). -/
def restoredSlot (s : State) (t : BitVec 3) (a : Nat) : Option Slot :=
  (physRead s a 64).bind fun head =>
    let h := Image.ofHeader head
    if (h.refusal s t).isSome then none
    else if h.m = 0 then some {}
    else
      (physRead s (a + 64) (4 * h.m * h.n)).bind fun vs =>
        if crc32 vs != h.crc then none
        else
          let x := s.team.slot t
          some { x with
            grant := some { m := h.m, n := h.n, k := x.grant.elim 0 (·.k), aty := h.aty, bty := h.bty, blk := h.blk, status := h.gstat }
            restored := some (h.m, h.n)
            acc := (List.range (h.m * h.n)).map fun i => BitVec.ofNat 32 (headField vs (4 * i) 4)
            chunks := h.chunks }

/-- A failed restore: the slot holds no grant, an entry of kind 4, and a machine check before the lowest-numbered warp issues (R327). -/
def failRestore (s : State) (i : Nat) : State :=
  let check : Report :=
    { cause := .machineCheck, info := infoElem 0 0x43#8 ||| BitVec.ofNat 64 (unitOf s s.part.savebase.toNat % 256 * 2 ^ 24),
      va := Config.freeWord (s.draws + 8) }
  let low := (s.team.peers.map (·.idx)).min?
  let s := s.onTeam fun t =>
    { t.setSlot (BitVec.ofNat 3 i) {} with
      peers := t.peers.map fun w => if some w.idx == low then { w with due := some check } else w }
  recordError s s.team.part { kind := 4#8, team := BitVec.ofNat 32 s.team.lin }

/-- The granted slots of the focused team restored from the save block at an address. -/
def restoreSlots (s : State) (block : Nat) : State :=
  (List.range 8).foldl (fun s i =>
    let t := BitVec.ofNat 3 i
    let a := block + s.team.launch.imageAt i
    if (s.team.slot t).grant.isNone then s
    else
      match restoredSlot s t a with
      | some x => s.onTeam fun u => u.setSlot t x
      | none => failRestore (metLines s a 0 262208) i) s

/-- The focused team resumed on a site, at a base. -/
def resumeAt (s : State) (x : Site) (base : Nat) : State :=
  let old := s.team.base
  let ws := ((List.range 64).filterMap fun i => s.team.peers.find? fun w => w.idx == i).map (resumeWarp s base)
  let s := settleTeam (waymarksMet (wipe s base s.team.launch.scratch) s.team.part) 7 x base ws
  let s := restoreImage s base
  let s := resumeCopies s old base x
  let s := restoreSlots s ((s.team.block.map (·.1)).getD 0)
  let s := s.onTeam fun t => { t with image := [], block := none }
  { s with draws := s.draws + 16 + 8192 * 64 }

/-- The focused team may be resumed. -/
def mayResume (s : State) : Bool :=
  s.team.status == .saved && !s.team.killed && computeOn s && !s.part.hold && !logWaits s s.team.launch s.team.part

/-- One team resumed, if it may be and finds a site; the focus is where it was. -/
def resumeOne (s : State) (t : Nat) : Option State :=
  let u := focusTeam s t
  if u.team.tid == t && mayResume u then
    (siteFor u u.team.peers.length (savedExtents u.team)).map fun x => refocus s (resumeAt u x.1 x.2)
  else none

/-- The teams that are resumed with a team: those of a cooperative grid together (R95). -/
def resumedWith (s : State) (t : Nat) : List Nat :=
  match (allTeams s).find? fun x => x.tid == t && x.status == .saved with
  | none => []
  | some x =>
    if x.launch.coop then ((allTeams s).filter fun y => y.status == .saved && y.gid == x.gid && !y.killed).map (·.tid) else [t]

/-- Teams resumed one after another, all or none. -/
def resumeAll : List Nat → State → Option State
  | [], s => some s
  | t :: rest, s => (resumeOne s t).bind (resumeAll rest)

/-- `TEAM_RESUME`: without a place the team waits, and room held by teams of lower priority is freed for it (R94, R95). -/
def execTeamResume (t : Nat) (s : State) : Result :=
  .next (match resumedWith s t with
    | [] => s
    | x :: rest =>
      match resumeAll (x :: rest) s with
      | some s => s
      | none =>
        match (allTeams s).find? fun y => y.tid == t with
        | some y => if mayResume (focusTeam s t) then freeRoom s y.launch.prio fun s => (resumeAll (x :: rest) s).isSome else s
        | none => s)

/-! ## The hold of a partition (R405) -/

/-- A hold: a pre-emption request for every team of the partition. -/
def holdPart (part : BitVec 4) (s : State) : State :=
  let s := onPart s part fun p => { p with hold := true }
  ((placedTeams s).filter fun t => t.part == part).foldl (fun s t => requestStop s t.tid) s

/-- `HOLD_SET`: the PF writes HOLD := 1. -/
def execHoldSet (part : BitVec 4) (s : State) : Result := overLink s (holdPart part s)

/-- `HOLD_CLEAR`: the PF writes HOLD := 0. -/
def execHoldClear (part : BitVec 4) (s : State) : Result := overLink s (onPart s part fun p => { p with hold := false })

end Sys2Proof.Machine
end

