-- ==== Sys2Proof/Machine/Power.lean ====
section
/-! DEFINITION. The management controller and the cluster power managers: bands, the state machine, training, package reset, management commands, pools and toll settings (17_cryogenic_and_power.md R368–R379; 18_host_link_and_management.md R387–R392). -/
namespace Sys2Proof.Machine
open Sys2Proof

def State.onMgmt (s : State) (f : Mgmt → Mgmt) : State := { s with mgmt := f s.mgmt }

/-! ## States (R371) -/

/-- A change of state is reported: an in-band interrupt, and bit 9 of every partition (18 R384, R390). -/
def reportChange (s : State) : State :=
  allParts.foldl (fun s p => interrupt s p 9) (s.onMgmt fun m => { m with inband := m.inband + 1 })

/-- The lease pools at an entry to RUN (R377). -/
def emptyPools (s : State) : State := { s with clusters := s.clusters.map fun c => { c with pool := 0 } }

/-- The largest CAP of a core. -/
def capLimit : CoreClass → Nat
  | .m => 65536
  | .e => 8192

/-- The class of the core at a place in `State.cores`. -/
def classAt (i : Nat) : CoreClass := if i < 208 then .m else .e

/-- The toll settings as compute starts: any within the bounds of R375 (log 5, DESIGN CHOICE). -/
def firstTolls (s : State) : State :=
  let free (i : Nat) : Nat := (Config.freeWord (s.draws + i)).toNat
  { s with
    cores := Vector.ofFn fun i =>
      { s.cores[i] with
        cap := 1024 * (1 + free (2 * i.val) % (capLimit (classAt i.val) / 1024))
        refill := 1 + free (2 * i.val + 1) % 4095 }
    draws := s.draws + 624 }

/-- A host or peer request for device memory that waits in band 3. -/
def heldRequest : Instr → Bool
  | .hostWindowAccess (.read _ _ _) | .hostWindowAccess (.write _ _ _) | .peerRequest _ => true
  | _ => false

/-- Requests held in band 3 end with the error response. -/
def endHeld (s : State) : State :=
  { s with
    agenda := s.agenda.filter fun i => !heldRequest i
    outbox := s.outbox ++ List.replicate (s.agenda.filter heldRequest).length (Message.response none) }

/-- Every grid and team is killed, and requests held since band 3 end with the error response (R371). -/
def enterWarming (s : State) : State :=
  let s := if s.mgmt.holding then (endHeld s).onMgmt fun m => { m with holding := false } else s
  let s := { s with grids := s.grids.map fun g => { g with ended := true, killed := true } }
  let s := ((allTeams s).filter fun t => t.status != .absent).foldl (fun s t => withTeam s t.tid killTeam) s
  finishGrids s

/-- What a state does as it is entered. -/
def onEntry (s : State) : Phase → State
  | .run => firstTolls (emptyPools s)
  | .bench => firstTolls s
  | .excursion => massPreempt s
  | .warming => enterWarming s
  | .off | .cooling | .soak | .train | .ready | .retreat => s

/-- A state is entered. -/
def enterPhase (s : State) (p : Phase) : State := onEntry (reportChange (s.onMgmt fun m => { m with phase := p })) p

/-- The transitions that the band alone causes (Table 3). -/
def bandMove : Phase → Nat → Option Phase
  | .cooling, 0 => some .soak
  | .soak, b => if b = 0 then none else some .cooling
  | .run, b => if 2 ≤ b then some .excursion else none
  | .retreat, b => if b ≤ 1 then some .run else if b = 4 then some .warming else none
  | .cooling, _ + 1 | .off, _ | .bench, _ | .train, _ | .ready, _ | .excursion, _ | .warming, _ => none

/-- The transitions of the band, one after another. -/
def settlePhase : Nat → State → State
  | 0, s => s
  | n + 1, s =>
    match bandMove s.mgmt.phase s.mgmt.band with
    | some p => settlePhase n (enterPhase s p)
    | none => s

/-- A state is entered, and what the band then causes. -/
def moveTo (s : State) (p : Phase) : State := settlePhase 4 (enterPhase s p)

/-! ## Bands (R368, R370, R373) -/

/-- `SENSOR_READING`: one reading of each of the 224 sensors. -/
def execSensorReading (readings : List (BitVec 8)) (s : State) : Result :=
  .next (if readings.length = 224 then s.onMgmt fun m => { m with sensors := readings } else s)

/-- The upper bound of a band in kelvin (Table 1). -/
def bandUpper : Nat → Nat
  | 0 => 85 | 1 => 100 | 2 => 140 | _ => 250

/-- The band of Table 1 for a TMAX, no lower than a band. -/
def bandFor (t b : Nat) : Nat := max b (if t ≤ 85 then 0 else if t ≤ 100 then 1 else if t ≤ 140 then 2 else if t ≤ 250 then 3 else 4)

/-- The controller is in a band: from band 3 on, until band 2 or WARMING, requests are held (R373). -/
def setBand (b : Nat) (m : Mgmt) : Mgmt :=
  { m with band := b, holding := if b ≤ 2 then false else m.holding || (b == 3 && m.phase != .warming) }

/-- `BAND_RISE`: TMAX exceeds the band's upper bound; the band is the one that Table 1 gives TMAX. -/
def execBandRise (s : State) : Result :=
  .next (if s.mgmt.band < 4 && bandUpper s.mgmt.band < tmax s then
      settlePhase 4 (s.onMgmt fun m => setBand (bandFor (tmax s) m.band) m)
    else s)

/-- `BAND_FALL`: TMAX has stayed at least 3 K below the lower band's upper bound for 1 s; in BENCH every warp is saved when the band reaches 3. -/
def execBandFall (s : State) : Result :=
  .next (if 0 < s.mgmt.band && tmax s + 3 ≤ bandUpper (s.mgmt.band - 1) then
      let s := s.onMgmt fun m => setBand (m.band - 1) m
      settlePhase 4 (if s.mgmt.phase == .bench && s.mgmt.band = 3 then massPreempt s else s)
    else s)

/-! ## The steps of Table 3 -/

/-- A configuration record of the right form (18 R391). -/
def ConfigRecord.formed (r : ConfigRecord) : Bool := r.magic == 0x5A574346#32 && r.cores.length == 52 && r.columns.length == 208

/-- The record verifies. -/
def recordGood (r : ConfigRecord) : Bool := ConfigRecord.formed r && Config.signatureGood r

/-- `POWER_UP`: a record that fails its check keeps the package in OFF and is reported. -/
def execPowerUp (s : State) : Result :=
  .next (if s.mgmt.phase == .off then
      (if recordGood s.mgmt.stored then moveTo s (if s.mgmt.band = 4 then .bench else .cooling)
       else s.onMgmt fun m => { m with inband := m.inband + 1 })
    else s)

/-- `SOAK_END`. -/
def execSoakEnd (s : State) : Result := .next (if s.mgmt.phase == .soak then moveTo s .train else s)

/-- A bale that was not raw, as it reads once its entry says so: its stored sectors, and free bytes beyond them (log 5, DESIGN CHOICE). -/
def rawBale (s : State) (n form : Nat) : State :=
  let plain := (List.range 2048).map fun i => (sideCell s (2048 * n + i)).1
  let held := if form = 0 then [] else storedSectors form plain
  let bytes := (List.range 2048).map fun i => held.getD i ((Config.freeWord (s.draws + i)).setWidth 8)
  { sideWrites s (2048 * n) (sideCell s (2048 * n)).2 bytes with draws := s.draws + 2048 }

/-- Every entry of the bale map is 8 (R357). -/
def forgetMap (s : State) : State :=
  { (s.bales.filter fun e => e.2.toNat < 8).foldl (fun s e => rawBale s e.1 e.2.toNat) s with bales := [], badMap := [] }

/-- What training does: the stored record takes effect, the failed units are disabled and reported, every bale-map entry is 8, every key slot holds a fresh pair (R357, R378, R387, R391). -/
def trained (s : State) (failed : List TestUnit) : State :=
  let s := (forgetMap s).draw
  { s with
    mgmt := { s.mgmt with
      config := s.mgmt.stored
      failed := failed
      keys := (List.range 512).map fun i => (i, Config.freeKey (s.draws + i))
      inband := s.mgmt.inband + failed.length }
    draws := s.draws + 512 }

/-- `TRAIN`. -/
def execTrain (failed : List TestUnit) (s : State) : Result :=
  .next (if s.mgmt.phase == .train then moveTo (trained s failed) .ready else s)

/-- `ENABLE_COMPUTE`. -/
def execEnableCompute (s : State) : Result := .next (if s.mgmt.phase == .ready then moveTo s .run else s)

/-- `EXCURSION_SAVED`: no team is in place any more. -/
def execExcursionSaved (s : State) : Result :=
  .next (if (placedTeams s).isEmpty then
      (if s.mgmt.phase == .excursion then moveTo s .retreat
       else if s.mgmt.phase == .bench && s.mgmt.band ≤ 3 then moveTo s .cooling
       else s)
    else s)

/-- The states from which the host's command leads to WARMING. -/
def mayWarm : Phase → Bool
  | .bench | .cooling | .ready | .run | .retreat => true
  | .off | .soak | .train | .excursion | .warming => false

/-- `WARM_UP`: management command 0x05. -/
def execWarmUp (s : State) : Result := .next (if mayWarm s.mgmt.phase then moveTo s .warming else s)

/-- No grid, team or queued record is left. -/
def allKilled (s : State) : Bool :=
  s.grids.isEmpty && (allTeams s).all (fun t => t.status == .absent) && (readyHeads s).isEmpty

/-- `WARMING_DONE`. -/
def execWarmingDone (s : State) : Result :=
  .next (if s.mgmt.phase == .warming && allKilled s then moveTo s .off else s)

/-! ## Ageing, tolls, pools (R375, R377, R378) -/

/-- `AGEING_REPLAN`: what FREQ reads from now on is drawn anew. -/
def execAgeingReplan (s : State) : Result := .next (if s.mgmt.phase == .run then s.draw else s)

/-- `TOLL_SETTING_CHANGE`: within the bounds of R375. -/
def execTollSettingChange (c : CoreRef) (cap refill : Nat) (s : State) : Result :=
  .next (if cap % 1024 = 0 && 1024 ≤ cap && cap ≤ capLimit c.cls && 1 ≤ refill && refill ≤ 4095 then
      onCore s c fun x => { x with cap := cap, refill := refill }
    else s)

/-- `POOL_FILL`: in band 0 alone. -/
def execPoolFill (cluster n : Nat) (s : State) : Result :=
  .next (if s.mgmt.band = 0 then onCluster s cluster fun c => { c with pool := max c.pool (min (c.pool + n) (2 ^ 32 - 1)) } else s)

/-! ## Package reset -/

/-- What package reset leaves: memories, errors in them, key pairs, links, records and logs of the management controller, which reports a change of state; a dirty line is lost or written back (log 8, DESIGN CHOICE). -/
def resetPackage (s : State) : State :=
  let s := forgetMap (s.dirty.foldl (fun s d => dropOrNot s d.line) s)
  let r := State.reset
  { r with
    mem := s.mem
    bad := s.bad
    keytags := s.keytags
    mgmt := { s.mgmt with
      phase := r.mgmt.phase
      band := r.mgmt.band
      holding := r.mgmt.holding
      sensors := r.mgmt.sensors
      peerkey := r.mgmt.peerkey
      keydata := r.mgmt.keydata
      busy := none
      inband := if s.mgmt.phase == Phase.off then s.mgmt.inband else s.mgmt.inband + 1 }
    outbox := s.outbox
    agenda := s.agenda
    draws := s.draws }.draw

/-- `PACKAGE_RESET`. -/
def execPackageReset (s : State) : Result := .next (resetPackage s)

/-! ## Management commands (R390–R392) -/

def reply (s : State) (bs : List Byte) : State := s.onMgmt fun m => { m with reply := bs }

/-- `READ_SENSORS`. -/
def execReadSensors (s : State) : Result := .next (reply s s.mgmt.sensors)

/-- The lowest clock among the enabled clusters. -/
def lowestFreq (s : State) : Nat := ((((List.range Config.clusters).filter (clusterOn s)).map (freqOf s)).min?).getD 0

/-- `READ_BAND_AND_STATE`: `BANDSTAT` [47:0]. -/
def execReadBandAndState (s : State) : Result := .next (reply s (leBytes 6 (bandstat s (lowestFreq s)).toNat)).draw

/-- `READ_MANAGEMENT_LOG`: the next entry; nothing when there is none. -/
def execReadManagementLog (s : State) : Result :=
  .next (match s.mgmt.log with
    | [] => reply s []
    | e :: rest => (reply s (e.bytes s.mgmt.logSeq)).onMgmt fun m => { m with log := rest, logSeq := m.logSeq + 1 })

/-- A mask of the numbers below n that a predicate names. -/
def maskOf (n : Nat) (f : Nat → Bool) : Nat := ((List.range n).map fun i => bitIf (f i) i).sum

/-- The cores of a cluster that are enabled, as the record's six bits. -/
def coreMask (s : State) (n : Nat) : Nat :=
  maskOf 6 fun i => coreOn s (if i < 4 then { cls := .m, num := 4 * n + i } else { cls := .e, num := 2 * n + (i - 4) })

/-- The column groups of an M-core that are enabled. -/
def columnMask (s : State) (c : Nat) : Nat :=
  maskOf 16 fun g => (s.mgmt.config.columns.getD c (BitVec.allOnes 16)).getLsbD g && !s.mgmt.failed.contains (.column c g)

/-- `READ_UNIT_MAP`: the masks in the record's order. -/
def execReadUnitMap (s : State) : Result :=
  .next (reply s (leBytes 8 (maskOf 52 (clusterOn s)) ++ (List.range 52).map (fun n => BitVec.ofNat 8 (coreMask s n)) ++
    (List.range 208).flatMap fun c => leBytes 2 (columnMask s c)))

/-- What an attestation signs, with SEQ in eight bytes and STATE in one (R392; log 66, DESIGN CHOICE). -/
def attested (s : State) (nonce : BitVec 256) : List Byte :=
  leBytes 32 nonce.toNat ++ leBytes 32 Config.controllerHash.toNat ++ leBytes 32 Config.computeHash.toNat ++
    leBytes 32 (Config.recordHash s.mgmt.stored).toNat ++ leBytes 8 s.mgmt.stored.seq ++ leBytes 1 s.mgmt.phase.code

/-- `ATTEST`: the report, its signature and the certificate. -/
def execAttest (nonce : BitVec 256) (s : State) : Result :=
  let body := attested s nonce
  .next (reply s (body ++ leBytes 64 (Config.deviceSignature s.draws body).toNat ++ Config.deviceCertificate)).draw

/-- The status of command 0x07. -/
def recordVerdict (s : State) (r : ConfigRecord) : Nat :=
  if !ConfigRecord.formed r then 3 else if !Config.signatureGood r then 1 else if r.seq ≤ s.mgmt.stored.seq then 2 else 0

/-- `WRITE_CONFIGURATION_RECORD`: a record that verifies with a higher SEQ is stored; it takes effect at the next TRAIN. -/
def execWriteConfigurationRecord (r : ConfigRecord) (s : State) : Result :=
  let v := recordVerdict s r
  .next (reply (if v = 0 then s.onMgmt fun m => { m with stored := r } else s) [BitVec.ofNat 8 v])

end Sys2Proof.Machine
end

