-- ==== Sys2Proof/Machine/Stream.lean ====
section
/-! DEFINITION. Streams 0xA8–0xAA and the stream engine's run-ahead (09_loads_stores_streams.md R201–R205). -/
namespace Sys2Proof.Machine
open Sys2Proof

def Warp.stream (w : Warp) (r : BitVec 3) : Stream := w.st.get r.toFin

def Warp.setStream (w : Warp) (r : BitVec 3) (x : Stream) : Warp := { w with st := w.st.set r.toNat x r.isLt }

/-- The address and bit of stream element j (R188, R204). -/
def Stream.place (x : Stream) (j : Nat) : Int × Nat :=
  if x.unit then ((x.base.toNat : Nat) + (j * x.et.width / 8 : Nat), j * x.et.width % 8)
  else ((x.base.toNat : Nat) + j * x.stride.toInt, 0)

/-- Stream element j is past the end. -/
def Stream.past (x : Stream) (j : Nat) : Bool := x.count != 0#23 && x.count.toNat ≤ j

/-- The stream after a completed access: P advances by the elements taken, capped at COUNT; what lies below P leaves the buffers (R204). -/
def Stream.advance (x : Stream) (n : Nat) : Stream :=
  let p := (x.p + n) % 2 ^ 64
  let p := if x.count != 0#23 then min p x.count.toNat else p
  { x with p := p, ahead := x.ahead.filter fun a => p ≤ a.elem, held := x.held.filter fun h => p ≤ h.1 }

/-- The completion of a stream access in a warp. -/
def consume (r : BitVec 3) (w : Warp) : Warp := w.setStream r ((w.stream r).advance (w.vl - w.vpad))

def execStrdef (si : StreamImm) (d : BitVec 3) (a b : BitVec 6) (s : State) : Result :=
  guarded [vectorOnly s] s fun s =>
    (s.onWarp fun w =>
      w.setStream d { defined := true, base := w.readS a, stride := w.readS b, et := si.et, depth := si.depth,
                      store := si.store, unit := si.unit, count := si.count, p := 0 }).advance

/-- The checks at issue of a stream access: the group, lane mode, a stream defined in this direction (0x0C), pending destinations. R32 does not say where reason 0x0C stands; it is tested behind 0x03 and 0x09 and before 0x07, and where it applies there is no group to check, since the stream gives the type (log 60, DESIGN CHOICE). -/
def streamChecks (s : State) (x : Stream) (store : Bool) (r : BitVec 6) (fs : FSel) : List (Bool × IllegalReason) :=
  let ok := x.defined && x.store == store
  [(!ok || (vecOk s r x.et.width).1, .register), vectorOnly s, (ok, .stream),
   pendingOk s fs (if store then 0 else groupSize s.warp x.et.width)]

/-- What the engine has for an access: the elements in its buffers and what it holds, by element of the instruction. -/
def Stream.early (x : Stream) : List (Nat × LaneWord) :=
  (x.ahead.filter fun a => x.p ≤ a.elem).map fun a => (a.elem - x.p, a.bits)

def Stream.heldAt (x : Stream) : List (Nat × Held) :=
  (x.held.filter fun h => x.p ≤ h.1).map fun h => (h.1 - x.p, h.2)

/-- What is held of a stream is forgotten: it is met afresh when the access resumes (10 R219). -/
def unhold (r : BitVec 3) (w : Warp) : Warp := w.setStream r { w.stream r with held := [] }

/-- The consuming access of a stream: element k is stream element P + k (R204). -/
def Stream.access (x : Stream) (r : BitVec 3) : VecAccess :=
  { et := x.et, place := fun k => x.place (x.p + k), past := fun k => x.past (x.p + k), early := x.early, held := x.heldAt,
    done := consume r, parked := unhold r }

def execVldst (fs : FSel) (mk : BitVec 3) (mz : Bool) (_ch : BitVec 2) (d : BitVec 6) (a : BitVec 3) (s : State) : Result :=
  let x := s.warp.stream a
  guarded (streamChecks s x false d fs) s fun s => vecLoad s fs (x.access a) { d := d, mask := mk, mz := mz }

def execVstst (mk : BitVec 3) (_ch : BitVec 2) (a : BitVec 3) (b : BitVec 6) (s : State) : Result :=
  let x := s.warp.stream a
  guarded (streamChecks s x true b .none) s fun s => vecStore s (x.access a) b mk

/-! ## Run-ahead (R203, R205) -/

/-- The number of elements in the run-ahead range. -/
def Stream.range (x : Stream) : Nat :=
  let n := 1024 * (x.depth.toNat + 1)
  if x.count != 0#23 then min n (x.count.toNat - x.p) else n

/-- Something held against a stream element. -/
def holdAt (s : State) (r : BitVec 3) (j : Nat) (h : Held) : State :=
  s.onWarp fun w => w.setStream r { w.stream r with held := (w.stream r).held ++ [(j, h)] }

/-- The data of an element read ahead. -/
def readAhead (s : State) (r : BitVec 3) (j : Nat) (q : Ask) (x : Elt × Loc) : State :=
  s.onWarp fun w =>
    w.setStream r { w.stream r with ahead := (w.stream r).ahead ++ [{ elem := j, key := x.2.key, bits := (loadElt s q.e x).setWidth 32 }] }

/-- What the engine does with a translated element: for a load stream its data are read, unless its page is of the device type or its line is absent; an uncorrectable error is held. -/
def aheadPlaced (s : State) (r : BitVec 3) (j : Nat) (q : Ask) (x : Elt × Loc) : State :=
  if (s.warp.stream r).store || x.2.mt = 2 || (absentIn s x.2.key (eltBytes q.e)).isSome then s
  else if eltError s q [x] x then holdAt s r j (.fault (eltReport s q x))
  else readAhead s r j q x

/-- The engine takes one element of the range, whichever it comes to (log 5, DESIGN CHOICE): its page is translated for both kinds of stream, and a fault or a miss is held; a window address out of range is left to the access, which may trim, and what it meets while its warp is parked on a manifest is left to the access, which translates afresh (10 R219). -/
def runAheadAt (s : State) (r : BitVec 3) : State :=
  let x := s.warp.stream r
  if !x.defined || x.range = 0 then s
  else
    let j := x.p + (Config.freeWord s.draws).toNat % x.range
    let elt : Elt := { k := 0, va := (x.place j).1, bit := (x.place j).2 }
    let q := { s.ask (if x.store then .write else .read) x.et.width with failed := [], pins := [] }
    if x.ahead.any (fun a => a.elem == j) || x.held.any (fun h => h.1 == j) then s.draw
    else
      match checkFresh s q true elt with
      | .ok l => settle (aheadPlaced s r j q (elt, l)) q.part [(elt, l)]
      | .fault rep =>
        let s := if rep.walk.isSome then keepPages s q.part [va54 elt.va] else s
        if s.warp.park == .manifest || (rep.cause == .access && rep.info.setWidth 8 == 0x31#8) then s.draw else (holdAt s r j (.fault rep)).draw
      | .miss m =>
        let s := keepPages s q.part [va54 elt.va]
        if s.warp.park == .manifest then s.draw else (holdAt s r j (.miss m.stage m.level m.addr m.table)).draw
      | .trim | .held _ => s.draw

/-- `RUN_AHEAD`: the stream engine of a warp that runs. -/
def execRunAhead (w : WarpRef) (st : BitVec 3) (s : State) : Result :=
  .next (withWarp s w fun s => if s.warp.status == .running then runAheadAt s st else s)

end Sys2Proof.Machine
end

