-- ==== Sys2Proof/Machine/Strip.lean ====
section
/-! DEFINITION. The strip instructions 0x40–0x42 and the mask instructions 0x44–0x4C (07_lengths_and_integer.md R152–R161). -/
namespace Sys2Proof.Machine
open Sys2Proof

/-! ## Lengths (R153–R156) -/

/-- The length cap in elements (R153). -/
def capOf (p : Partition) : Nat := if p.capq = 0#4 then 1024 else 128 * p.capq.toNat

/-- The elements of width e that a group of G registers holds. -/
def fits (s : State) (e g : Nat) : Nat := s.w * 32 * g / e

/-- vlmax of R156. -/
def vlmaxOf (s : State) (e b g : Nat) : Nat := min 1024 (min (capOf s.part) (fits s e g)) / b * b

/-- B with 1 for no block, as the strip counts it (R152). -/
def stripLen (code : Nat) : Nat := if code = 0 then 1 else 2 ^ (code + 2)

/-- vl of R156 for a count. -/
def grantLen (vlmax b n : Nat) : Nat := if vlmax ≤ n then vlmax else (n + b - 1) / b * b

/-- The descriptor of a `SETVL` immediate (R152, R154). -/
def descOf (et : ET) (blk : BitVec 3) (grp : BitVec 2) : BitVec 9 := grp ++ blk ++ BitVec.ofNat 4 et.code.toNat

/-- The strip granted. -/
def takeStrip (s : State) (d : BitVec 6) (desc : BitVec 9) (vl n : Nat) : State :=
  s.onWarp fun w =>
    { w.writeS d (BitVec.ofNat 64 vl) with vl := vl, vpad := vl - n, vstart := 0, desc := desc }

def execSetvl (d a : BitVec 6) (et : ET) (blk : BitVec 3) (grp : BitVec 2) (s : State) : Result :=
  let b := stripLen blk.toNat
  let g := 2 ^ grp.toNat
  guarded [vectorOnly s, (b ≤ fits s et.width g, .blockFit)] s fun s =>
    grantPoint s fun s =>
      let n := (s.warp.readS a).toNat
      let vlmax := vlmaxOf s et.width b g
      followed s 2 (BitVec.ofNat 64 (grantLen vlmax b n))
        (fun lv => if vlmax < lv || lv % b != 0 || n + b ≤ lv then some 0x80#8 else none)
        fun s vl => logWarp (takeStrip s d (descOf et blk grp) vl.toNat n).advance 2 0 (BitVec.ofNat 64 vl.toNat)

/-- The count that remains after the strip (R158). -/
def remaining (w : Warp) (n : Nat) : Nat := n - (w.vl - w.vpad)

def execSvloop (a : BitVec 6) (disp : BitVec 32) (s : State) : Result :=
  guarded [vectorOnly s] s fun s =>
    let n := remaining s.warp (s.warp.readS a).toNat
    let s := s.onWarp fun w => w.writeS a (BitVec.ofNat 64 n)
    if n ≠ 0 then s.onWarp fun w => w.goto (w.at.relative disp) else s.advance

/-- The value that `GETVL` reads (R159). -/
def getvlValue (s : State) : GetVlSel → Nat
  | .vl => s.warp.vl
  | .pad => s.warp.vpad
  | .max => vlmaxOf s (stripEt s.warp).width (stripLen (stripBlock s.warp)) (stripGroup s.warp)
  | .cap => capOf s.part
  | .desc => s.warp.desc.toNat
  | .start => s.warp.vstart

def execGetvl (sel : GetVlSel) (d : BitVec 6) (s : State) : Result :=
  uniformWord s fun s => s.onWarp fun w => w.writeS d (BitVec.ofNat 64 (getvlValue s sel))

/-! ## Masks (R160, R161) -/

/-- Bits 0 to VL − 1. -/
def liveBits (vl : Nat) : BitVec 1024 := BitVec.ofNat 1024 (2 ^ vl - 1)

/-- A mask instruction: bits below VL from the result, bits above kept; the toll of a lane-slot word of VL elements. -/
def maskWord (s : State) (d : BitVec 3) (f : Warp → BitVec 1024) : Result :=
  guarded [vectorOnly s] s fun s => tolled s s.warp.vl fun s =>
    (s.onWarp fun w => w.setM d ((w.readM d &&& ~~~liveBits w.vl) ||| (f w &&& liveBits w.vl))).advance

def execMand (d a b : BitVec 3) (s : State) : Result := maskWord s d fun w => w.readM a &&& w.readM b

def execMor (d a b : BitVec 3) (s : State) : Result := maskWord s d fun w => w.readM a ||| w.readM b

def execMxor (d a b : BitVec 3) (s : State) : Result := maskWord s d fun w => w.readM a ^^^ w.readM b

def execMandn (d a b : BitVec 3) (s : State) : Result := maskWord s d fun w => w.readM a &&& ~~~w.readM b

def execMnot (d a : BitVec 3) (s : State) : Result := maskWord s d fun w => ~~~w.readM a

def execMmov (d a : BitVec 3) (s : State) : Result := maskWord s d fun w => w.readM a

/-- The bits of `MSET` below VL. -/
def msetBits (w : Warp) (sel : MsetSel) (a : BitVec 6) : BitVec 1024 :=
  match sel with
  | .lt => liveBits (min w.vl (w.readS a).toNat)
  | .all => liveBits w.vl
  | .none => 0#1024
  | .live => liveBits (w.vl - w.vpad)

def execMset (sel : MsetSel) (d : BitVec 3) (a : BitVec 6) (s : State) : Result := maskWord s d fun w => msetBits w sel a

/-- A mask instruction that writes a uniform register. -/
def maskCount (s : State) (d : BitVec 6) (f : Warp → Word) : Result :=
  guarded [vectorOnly s] s fun s => tolled s s.warp.vl fun s => (s.onWarp fun w => w.writeS d (f w)).advance

def execMpopc (d : BitVec 6) (a : BitVec 3) (s : State) : Result :=
  maskCount s d fun w => BitVec.ofNat 64 ((List.range w.vl).filter fun k => maskBit w a k).length

def execMfirst (d : BitVec 6) (a : BitVec 3) (s : State) : Result :=
  maskCount s d fun w =>
    match (List.range w.vl).find? fun k => maskBit w a k with
    | some k => BitVec.ofNat 64 k
    | none => BitVec.allOnes 64

end Sys2Proof.Machine
end

