-- ==== Sys2Proof/Machine/Dispatch.lean ====
section
/-! DEFINITION. The dispatch: one arm for each constructor of `Instr`, one direct call of its meaning. -/
namespace Sys2Proof.Machine
open Sys2Proof

/-- What an instruction or event does in a state: one meaning for each row of the opcode table. -/
def exec (i : Instr) (s : State) : Host.Outcome State Fault Refusal :=
  match i with
  | .mov u d a => Sys2Proof.Machine.execMov u d a s
  | .movi d imm => Sys2Proof.Machine.execMovi d imm s
  | .movhi d a imm => Sys2Proof.Machine.execMovhi d a imm s
  | .adrc d imm => Sys2Proof.Machine.execAdrc d imm s
  | .add d a b => Sys2Proof.Machine.execAdd d a b s
  | .addi d a imm => Sys2Proof.Machine.execAddi d a imm s
  | .sub d a b => Sys2Proof.Machine.execSub d a b s
  | .mul d a b => Sys2Proof.Machine.execMul d a b s
  | .mulhi sg d a b => Sys2Proof.Machine.execMulhi sg d a b s
  | .div fs sg d a b => Sys2Proof.Machine.execDiv fs sg d a b s
  | .rem fs sg d a b => Sys2Proof.Machine.execRem fs sg d a b s
  | .and d a b => Sys2Proof.Machine.execAnd d a b s
  | .andi d a imm => Sys2Proof.Machine.execAndi d a imm s
  | .or d a b => Sys2Proof.Machine.execOr d a b s
  | .ori d a imm => Sys2Proof.Machine.execOri d a imm s
  | .xor d a b => Sys2Proof.Machine.execXor d a b s
  | .xori d a imm => Sys2Proof.Machine.execXori d a imm s
  | .shl d a b => Sys2Proof.Machine.execShl d a b s
  | .shr d a b => Sys2Proof.Machine.execShr d a b s
  | .sar d a b => Sys2Proof.Machine.execSar d a b s
  | .shli d a imm => Sys2Proof.Machine.execShli d a imm s
  | .shri d a imm => Sys2Proof.Machine.execShri d a imm s
  | .sari d a imm => Sys2Proof.Machine.execSari d a imm s
  | .clz d a => Sys2Proof.Machine.execClz d a s
  | .popc d a => Sys2Proof.Machine.execPopc d a s
  | .min sg d a b => Sys2Proof.Machine.execMin sg d a b s
  | .max sg d a b => Sys2Proof.Machine.execMax sg d a b s
  | .cmp cc d a b => Sys2Proof.Machine.execCmp cc d a b s
  | .cmpi cc d a imm => Sys2Proof.Machine.execCmpi cc d a imm s
  | .sel d a b c => Sys2Proof.Machine.execSel d a b c s
  | .nop => Sys2Proof.Machine.execNop s
  | .br disp => Sys2Proof.Machine.execBr disp s
  | .brc cc a b disp => Sys2Proof.Machine.execBrc cc a b disp s
  | .brz a disp => Sys2Proof.Machine.execBrz a disp s
  | .brnz a disp => Sys2Proof.Machine.execBrnz a disp s
  | .call disp => Sys2Proof.Machine.execCall disp s
  | .callr a => Sys2Proof.Machine.execCallr a s
  | .ret => Sys2Proof.Machine.execRet s
  | .jmpr a => Sys2Proof.Machine.execJmpr a s
  | .getid sel d => Sys2Proof.Machine.execGetid sel d s
  | .tgrow d a => Sys2Proof.Machine.execTgrow d a s
  | .tleave => Sys2Proof.Machine.execTleave s
  | .tstat d => Sys2Proof.Machine.execTstat d s
  | .bararv b => Sys2Proof.Machine.execBararv b s
  | .barwait b => Sys2Proof.Machine.execBarwait b s
  | .barsync b => Sys2Proof.Machine.execBarsync b s
  | .barmask imm => Sys2Proof.Machine.execBarmask imm s
  | .wsync n a => Sys2Proof.Machine.execWsync n a s
  | .vfork a disp => Sys2Proof.Machine.execVfork a disp s
  | .ljoin => Sys2Proof.Machine.execLjoin s
  | .klaunch d a b => Sys2Proof.Machine.execKlaunch d a b s
  | .yield => Sys2Proof.Machine.execYield s
  | .setvl d a et blk grp => Sys2Proof.Machine.execSetvl d a et blk grp s
  | .svloop a disp => Sys2Proof.Machine.execSvloop a disp s
  | .getvl sel d => Sys2Proof.Machine.execGetvl sel d s
  | .mand d a b => Sys2Proof.Machine.execMand d a b s
  | .mor d a b => Sys2Proof.Machine.execMor d a b s
  | .mxor d a b => Sys2Proof.Machine.execMxor d a b s
  | .mandn d a b => Sys2Proof.Machine.execMandn d a b s
  | .mnot d a => Sys2Proof.Machine.execMnot d a s
  | .mmov d a => Sys2Proof.Machine.execMmov d a s
  | .mset sel d a => Sys2Proof.Machine.execMset sel d a s
  | .mpopc d a => Sys2Proof.Machine.execMpopc d a s
  | .mfirst d a => Sys2Proof.Machine.execMfirst d a s
  | .vadd mk mz et d a b => Sys2Proof.Machine.execVadd mk mz et d a b s
  | .vadds mk mz et d a b => Sys2Proof.Machine.execVadds mk mz et d a b s
  | .vsub mk mz et d a b => Sys2Proof.Machine.execVsub mk mz et d a b s
  | .vsubs mk mz et d a b => Sys2Proof.Machine.execVsubs mk mz et d a b s
  | .vmul mk mz et d a b => Sys2Proof.Machine.execVmul mk mz et d a b s
  | .vmulhi mk mz et d a b => Sys2Proof.Machine.execVmulhi mk mz et d a b s
  | .vmad mk mz et d a b c => Sys2Proof.Machine.execVmad mk mz et d a b c s
  | .vmin mk mz et d a b => Sys2Proof.Machine.execVmin mk mz et d a b s
  | .vmax mk mz et d a b => Sys2Proof.Machine.execVmax mk mz et d a b s
  | .vabs mk mz sat et d a => Sys2Proof.Machine.execVabs mk mz sat et d a s
  | .vand mk mz et d a b => Sys2Proof.Machine.execVand mk mz et d a b s
  | .vor mk mz et d a b => Sys2Proof.Machine.execVor mk mz et d a b s
  | .vxor mk mz et d a b => Sys2Proof.Machine.execVxor mk mz et d a b s
  | .vshl mk mz et d a b => Sys2Proof.Machine.execVshl mk mz et d a b s
  | .vshr mk mz et d a b => Sys2Proof.Machine.execVshr mk mz et d a b s
  | .vsar mk mz et d a b => Sys2Proof.Machine.execVsar mk mz et d a b s
  | .vcmp mk mz cc et d a b => Sys2Proof.Machine.execVcmp mk mz cc et d a b s
  | .vmrg mk et d a b => Sys2Proof.Machine.execVmrg mk et d a b s
  | .vwid mk mz src et d a => Sys2Proof.Machine.execVwid mk mz src et d a s
  | .vsatn mk mz src et d a => Sys2Proof.Machine.execVsatn mk mz src et d a s
  | .viota mk mz byMask et d a => Sys2Proof.Machine.execViota mk mz byMask et d a s
  | .vbcs mk mz et d a => Sys2Proof.Machine.execVbcs mk mz et d a s
  | .vpopc mk mz et d a => Sys2Proof.Machine.execVpopc mk mz et d a s
  | .vaddi mk mz d a imm => Sys2Proof.Machine.execVaddi mk mz d a imm s
  | .vclz mk mz et d a => Sys2Proof.Machine.execVclz mk mz et d a s
  | .vfadd mk mz md et d a b => Sys2Proof.Machine.execVfadd mk mz md et d a b s
  | .vfsub mk mz md et d a b => Sys2Proof.Machine.execVfsub mk mz md et d a b s
  | .vfmul mk mz md et d a b => Sys2Proof.Machine.execVfmul mk mz md et d a b s
  | .vfma mk mz md et d a b c => Sys2Proof.Machine.execVfma mk mz md et d a b c s
  | .vfnma mk mz md et d a b c => Sys2Proof.Machine.execVfnma mk mz md et d a b c s
  | .vfmin mk mz et d a b => Sys2Proof.Machine.execVfmin mk mz et d a b s
  | .vfmax mk mz et d a b => Sys2Proof.Machine.execVfmax mk mz et d a b s
  | .vfdiv fs mk mz md et d a b => Sys2Proof.Machine.execVfdiv fs mk mz md et d a b s
  | .vfsqrt fs mk mz md et d a => Sys2Proof.Machine.execVfsqrt fs mk mz md et d a s
  | .vfrsq fs mk mz md et d a => Sys2Proof.Machine.execVfrsq fs mk mz md et d a s
  | .vfrcp fs mk mz md et d a => Sys2Proof.Machine.execVfrcp fs mk mz md et d a s
  | .vfexp2 fs mk mz md et d a => Sys2Proof.Machine.execVfexp2 fs mk mz md et d a s
  | .vflog2 fs mk mz md et d a => Sys2Proof.Machine.execVflog2 fs mk mz md et d a s
  | .vfcmp mk mz cc et d a b => Sys2Proof.Machine.execVfcmp mk mz cc et d a b s
  | .vfclass mk mz et d a => Sys2Proof.Machine.execVfclass mk mz et d a s
  | .vcvt mk mz md nsat src et d a => Sys2Proof.Machine.execVcvt mk mz md nsat src et d a s
  | .vqnt tr src et d a b => Sys2Proof.Machine.execVqnt tr src et d a b s
  | .vdqnt mk mz md src et d a b => Sys2Proof.Machine.execVdqnt mk mz md src et d a b s
  | .vfabs mk mz et d a => Sys2Proof.Machine.execVfabs mk mz et d a s
  | .vperm mk mz et d a b => Sys2Proof.Machine.execVperm mk mz et d a b s
  | .vslup mk mz et d a b => Sys2Proof.Machine.execVslup mk mz et d a b s
  | .vsldn mk mz et d a b => Sys2Proof.Machine.execVsldn mk mz et d a b s
  | .vbcast mk mz et d a b => Sys2Proof.Machine.execVbcast mk mz et d a b s
  | .vcmprs et d a b => Sys2Proof.Machine.execVcmprs et d a b s
  | .vexpnd et d a b => Sys2Proof.Machine.execVexpnd et d a b s
  | .vtr8 mk mz et d a => Sys2Proof.Machine.execVtr8 mk mz et d a s
  | .vredsum mk md et d a => Sys2Proof.Machine.execVredsum mk md et d a s
  | .vredmax mk et d a => Sys2Proof.Machine.execVredmax mk et d a s
  | .vredmin mk et d a => Sys2Proof.Machine.execVredmin mk et d a s
  | .vscan mk mz md op et d a => Sys2Proof.Machine.execVscan mk mz md op et d a s
  | .vextr et d a b => Sys2Proof.Machine.execVextr et d a b s
  | .vins et d a b => Sys2Proof.Machine.execVins et d a b s
  | .lds fs et ch d a off => Sys2Proof.Machine.execLds fs et ch d a off s
  | .sts et ch a b off => Sys2Proof.Machine.execSts et ch a b off s
  | .vld fs mk mz et ch d a off => Sys2Proof.Machine.execVld fs mk mz et ch d a off s
  | .vst mk et ch a b off => Sys2Proof.Machine.execVst mk et ch a b off s
  | .vlds fs mk mz et ch d a c off => Sys2Proof.Machine.execVlds fs mk mz et ch d a c off s
  | .vsts mk et ch a b c off => Sys2Proof.Machine.execVsts mk et ch a b c off s
  | .vldx fs mk mz et ch d a c off => Sys2Proof.Machine.execVldx fs mk mz et ch d a c off s
  | .vstx mk et ch a b c off => Sys2Proof.Machine.execVstx mk et ch a b c off s
  | .strdef si d a b => Sys2Proof.Machine.execStrdef si d a b s
  | .vldst fs mk mz ch d a => Sys2Proof.Machine.execVldst fs mk mz ch d a s
  | .vstst mk ch a b => Sys2Proof.Machine.execVstst mk ch a b s
  | .pref ch a off => Sys2Proof.Machine.execPref ch a off s
  | .atom fs op ord md et d a b => Sys2Proof.Machine.execAtom fs op ord md et d a b s
  | .vatom fs mk mz op ord md et d a b c => Sys2Proof.Machine.execVatom fs mk mz op ord md et d a b c s
  | .cas fs ord et d a b c => Sys2Proof.Machine.execCas fs ord et d a b c s
  | .vcas fs mk mz ord et d a b c => Sys2Proof.Machine.execVcas fs mk mz ord et d a b c s
  | .redord md d a b c => Sys2Proof.Machine.execRedord md d a b c s
  | .fence kind scope => Sys2Proof.Machine.execFence kind scope s
  | .cpyboxIn fs d a b c ch => Sys2Proof.Machine.execCpyboxIn fs d a b c ch s
  | .cpyboxOut fs d a b c ch => Sys2Proof.Machine.execCpyboxOut fs d a b c ch s
  | .cpya fs t d a b ch => Sys2Proof.Machine.execCpya fs t d a b ch s
  | .cpyb fs t d a b ch => Sys2Proof.Machine.execCpyb fs t d a b ch s
  | .cpytrain fs op et d a b ch => Sys2Proof.Machine.execCpytrain fs op et d a b ch s
  | .cwait a ch => Sys2Proof.Machine.execCwait a ch s
  | .cstat sel d a ch => Sys2Proof.Machine.execCstat sel d a ch s
  | .cstatClr d ch => Sys2Proof.Machine.execCstatClr d ch s
  | .ten => Sys2Proof.Machine.execTen s
  | .tdis => Sys2Proof.Machine.execTdis s
  | .tset t d a aty bty blk => Sys2Proof.Machine.execTset t d a aty bty blk s
  | .tgrant t d => Sys2Proof.Machine.execTgrant t d s
  | .tzero t => Sys2Proof.Machine.execTzero t s
  | .tldb fs t a b => Sys2Proof.Machine.execTldb fs t a b s
  | .tmma fs t a => Sys2Proof.Machine.execTmma fs t a s
  | .tmmas fs t a b => Sys2Proof.Machine.execTmmas fs t a b s
  | .tcsclLd fs t a => Sys2Proof.Machine.execTcsclLd fs t a s
  | .tcsclOne fs t => Sys2Proof.Machine.execTcsclOne fs t s
  | .tslv mk mz col md nsat et t d a => Sys2Proof.Machine.execTslv mk mz col md nsat et t d a s
  | .tsvl mk col md et t a b => Sys2Proof.Machine.execTsvl mk col md et t a b s
  | .tstr fs mk tm md nsat et t a b c => Sys2Proof.Machine.execTstr fs mk tm md nsat et t a b c s
  | .tsave fs t a => Sys2Proof.Machine.execTsave fs t a s
  | .tload fs t a => Sys2Proof.Machine.execTload fs t a s
  | .trap imm => Sys2Proof.Machine.execTrap imm s
  | .eret => Sys2Proof.Machine.execEret s
  | .getsr d sr => Sys2Proof.Machine.execGetsr d sr s
  | .setsr sr a => Sys2Proof.Machine.execSetsr sr a s
  | .cacheClean a => Sys2Proof.Machine.execCacheClean a s
  | .cacheFlush a => Sys2Proof.Machine.execCacheFlush a s
  | .cacheInv a => Sys2Proof.Machine.execCacheInv a s
  | .icinvRange a b => Sys2Proof.Machine.execIcinvRange a b s
  | .icinvAll => Sys2Proof.Machine.execIcinvAll s
  | .xlinvVa a b => Sys2Proof.Machine.execXlinvVa a b s
  | .xlinvAll => Sys2Proof.Machine.execXlinvAll s
  | .lease d a => Sys2Proof.Machine.execLease d a s
  | .haltWarp => Sys2Proof.Machine.execHaltWarp s
  | .haltTeam a => Sys2Proof.Machine.execHaltTeam a s
  | .clauseStart => Sys2Proof.Machine.execClauseStart s
  | .instructionCompletion w seq => Sys2Proof.Machine.execInstructionCompletion w seq s
  | .urgent w => Sys2Proof.Machine.execUrgent w s
  | .classGroupClose c => Sys2Proof.Machine.execClassGroupClose c s
  | .preemptionRequest t => Sys2Proof.Machine.execPreemptionRequest t s
  | .forcedFullSave w => Sys2Proof.Machine.execForcedFullSave w s
  | .teamSave t => Sys2Proof.Machine.execTeamSave t s
  | .teamResume t => Sys2Proof.Machine.execTeamResume t s
  | .shrinkRequest t k => Sys2Proof.Machine.execShrinkRequest t k s
  | .schedulerAttach t => Sys2Proof.Machine.execSchedulerAttach t s
  | .milestoneFire w => Sys2Proof.Machine.execMilestoneFire w s
  | .tailObserved part q => Sys2Proof.Machine.execTailObserved part q s
  | .queueDisableWrite part q => Sys2Proof.Machine.execQueueDisableWrite part q s
  | .queueEnableWrite part q => Sys2Proof.Machine.execQueueEnableWrite part q s
  | .teamPlacement g => Sys2Proof.Machine.execTeamPlacement g s
  | .teamComplete t => Sys2Proof.Machine.execTeamComplete t s
  | .hostKill t => Sys2Proof.Machine.execHostKill t s
  | .lineArrival line => Sys2Proof.Machine.execLineArrival line s
  | .runAhead w st => Sys2Proof.Machine.execRunAhead w st s
  | .redordUnpark cell => Sys2Proof.Machine.execRedordUnpark cell s
  | .fqresp part failmask mid => Sys2Proof.Machine.execFqresp part failmask mid s
  | .prresp part fail tag => Sys2Proof.Machine.execPrresp part fail tag s
  | .faultReissue part mid => Sys2Proof.Machine.execFaultReissue part mid s
  | .fqheadWrite part v => Sys2Proof.Machine.execFqheadWrite part v s
  | .prqheadWrite part v => Sys2Proof.Machine.execPrqheadWrite part v s
  | .wbrheadWrite part v => Sys2Proof.Machine.execWbrheadWrite part v s
  | .errheadWrite part v => Sys2Proof.Machine.execErrheadWrite part v s
  | .invalidationComplete n => Sys2Proof.Machine.execInvalidationComplete n s
  | .copySegment c => Sys2Proof.Machine.execCopySegment c s
  | .copyResume c => Sys2Proof.Machine.execCopyResume c s
  | .copyComplete c => Sys2Proof.Machine.execCopyComplete c s
  | .trainDelivery c => Sys2Proof.Machine.execTrainDelivery c s
  | .baleWholeWrite bale data baled key => Sys2Proof.Machine.execBaleWholeWrite bale data baled key s
  | .baleMerge pa data baled key => Sys2Proof.Machine.execBaleMerge pa data baled key s
  | .baleRead bale key => Sys2Proof.Machine.execBaleRead bale key s
  | .uncorrectableEviction line => Sys2Proof.Machine.execUncorrectableEviction line s
  | .patrolScrub row => Sys2Proof.Machine.execPatrolScrub row s
  | .train failed => Sys2Proof.Machine.execTrain failed s
  | .tollSettingChange c cap refill => Sys2Proof.Machine.execTollSettingChange c cap refill s
  | .poolFill cluster n => Sys2Proof.Machine.execPoolFill cluster n s
  | .hostWindowAccess r => Sys2Proof.Machine.execHostWindowAccess r s
  | .peerRequest r => Sys2Proof.Machine.execPeerRequest r s
  | .linkFailure port => Sys2Proof.Machine.execLinkFailure port s
  | .linkRecovery port => Sys2Proof.Machine.execLinkRecovery port s
  | .keyRangeWrite part v => Sys2Proof.Machine.execKeyRangeWrite part v s
  | .addressRegisterWrite pf part r v => Sys2Proof.Machine.execAddressRegisterWrite pf part r v s
  | .registerWrite pf part r v => Sys2Proof.Machine.execRegisterWrite pf part r v s
  | .keycmdLoad slot => Sys2Proof.Machine.execKeycmdLoad slot s
  | .keycmdRandom slot => Sys2Proof.Machine.execKeycmdRandom slot s
  | .holdSet part => Sys2Proof.Machine.execHoldSet part s
  | .holdClear part => Sys2Proof.Machine.execHoldClear part s
  | .attest nonce => Sys2Proof.Machine.execAttest nonce s
  | .writeConfigurationRecord r => Sys2Proof.Machine.execWriteConfigurationRecord r s
  | .cycle c => Sys2Proof.Machine.execCycle c s
  | .hostInvalidation part r => Sys2Proof.Machine.execHostInvalidation part r s
  | .sensorReading readings => Sys2Proof.Machine.execSensorReading readings s
  | .keySlotChange slot => Sys2Proof.Machine.execKeySlotChange slot s
  | .recordTake => Sys2Proof.Machine.execRecordTake s
  | .bandRise => Sys2Proof.Machine.execBandRise s
  | .bandFall => Sys2Proof.Machine.execBandFall s
  | .powerUp => Sys2Proof.Machine.execPowerUp s
  | .soakEnd => Sys2Proof.Machine.execSoakEnd s
  | .enableCompute => Sys2Proof.Machine.execEnableCompute s
  | .excursionSaved => Sys2Proof.Machine.execExcursionSaved s
  | .warmingDone => Sys2Proof.Machine.execWarmingDone s
  | .ageingReplan => Sys2Proof.Machine.execAgeingReplan s
  | .packageReset => Sys2Proof.Machine.execPackageReset s
  | .readSensors => Sys2Proof.Machine.execReadSensors s
  | .readBandAndState => Sys2Proof.Machine.execReadBandAndState s
  | .readManagementLog => Sys2Proof.Machine.execReadManagementLog s
  | .readUnitMap => Sys2Proof.Machine.execReadUnitMap s
  | .warmUp => Sys2Proof.Machine.execWarmUp s

end Sys2Proof.Machine
end

