-- ==== Sys2Proof/Machine/Schedule.lean ====
section
/-! DEFINITION. What moves next: the word that a warp issues, the steps that the device's agents can take, and the turn between them (02_words_and_registers.md R29–R33; 04_scalar_and_flow.md R67–R69; 15_system_and_traps.md R339; log 4, DESIGN CHOICE). -/
namespace Sys2Proof.Machine
open Sys2Proof

/-! ## The word that issues -/

/-- The header's SETA and SETB as the decode checks see them. -/
def Position.context (p : Position) : FlagContext := (Header.ofBits p.header).context

/-- The word at the position decodes and executes, or takes the illegal-instruction trap of its first failing check (R32). -/
def issueWord (w : Word) (s : State) : Result :=
  match decodeWord s.warp.at.context w with
  | .ok i => exec i s
  | .error r => .next (illegal s r)

/-- The trap that is due before the warp issues again (14_matrix_instructions.md R327; 15 R354). -/
def takeDue (s : State) (r : Report) : State :=
  takeTrap s r { pc := s.warp.at.pc, npc := s.warp.at.pc, hdr := s.warp.at.hdr, vstart := s.warp.vstart } s.warp.at.pc

/-- An ordinary trap of a word that `ERET` reissued: its recorded fault is the trap. -/
def reissueFault (s : State) (p : Position) (o : Outstanding) (r : Report) (k : Nat) : State :=
  let s := s.onWarp fun w => { w with pos := p, pending := w.pending.erase o }
  takeTrap s r { pc := p.pc, npc := p.pc, hdr := p.hdr, vstart := k, home := p.hdr } p.pc

/-- What follows a word that `ERET` reissued alone, once it has been executed (15 R339). -/
def afterReissue (old s : State) : State :=
  match old.warp.reissue with
  | none => s
  | some (r, lane) =>
    if s.me == old.me && s.warp.status == .running && s.warp.reissue.isSome && !s.warp.pos.same old.warp.pos then
      match s.warp.pending.find? fun o => o.seq == old.warp.seq && o.flag.isNone && o.fault.isSome with
      | some o =>
        match o.fault with
        | some (rep, k) => reissueFault s old.warp.pos o rep k
        | none => s
      | none => applyResume (s.onWarp fun w => { w with reissue := none }) r lane
    else s

/-- A word that has issued takes its slot and its warp for the cycle, and may open its core's class group (04 R65, R66, R69); one that parked its warp has not. -/
def afterIssue (old s : State) : State :=
  if s.warp.park == .none then
    let n := slotCycles old
    let s := onCore s old.warp.core fun c => { c.grouped old.warp.cls with used := ((slotNeeded old).group, n) :: c.used }
    if s.warp.status != .absent && s.me == old.me then s.onWarp fun w => { w with taken := n } else s
  else s

/-- A next state changed; faults and refusals pass. -/
def onNext (r : Result) (f : State → State) : Result :=
  match r with
  | .next s => .next (f s)
  | .fault x => .fault x
  | .refused x => .refused x

/-- The focused warp, which is ready, moves: a trap that is due, the start of a clause, or the word it stands at. -/
def moveWarp (s : State) : Result :=
  match s.warp.due with
  | some r => .next (takeDue s r)
  | none =>
    if s.warp.at.idx = 0 then execClauseStart s
    else
      match s.warp.at.word with
      | none => .fault .noWord
      | some w => onNext (issueWord w s) fun t => afterIssue s (afterReissue s t)

/-! ## What the agents of the device can do -/

/-- An instruction under a condition. -/
def doIf (c : Bool) (i : Instr) : List Instr := if c then [i] else []

/-- The Porters, while the clocks of their clusters run (12_copies.md; 17 R370). -/
def porterSteps (s : State) : List Instr :=
  s.copies.flatMap fun c =>
    if clockRuns s c.cluster then
      doIf (inContext s c && !c.finished && !c.parked && copyPlaced s c) (.copySegment c.ref) ++
      doIf (c.trains.any fun e => deliverable s c e.dest) (.trainDelivery c.ref) ++
      doIf c.ended (.copyComplete c.ref) ++
      (c.arrived.filter c.held.contains).map Instr.lineArrival ++
      doIf ((partOf s c.part).manifests.any fun m => m.complete && m.who == .copy c.ref) (.copyResume c.ref)
    else []

/-- The fault service and the invalidations (10_translation_and_faults.md). -/
def serviceSteps (s : State) : List Instr :=
  (allParts.flatMap fun p => ((partOf s p).manifests.filter Manifest.complete).map fun m => Instr.faultReissue p m.mid) ++
    (s.invalidations.filter fun i => i.free s).map fun i => .invalidationComplete i.num

/-- The units of one warp: outstanding instructions, streams, urgency, a forced save (02 R33, 04 R70, 09 R203, 15 R348). -/
def warpSteps (s : State) (r : WarpRef) : List Instr :=
  let x := focusOn s r
  let runs := clockRuns s (coreCluster x.warp.core)
  ((x.warp.pending.filter fun o => runs && !o.done && o.copy.isNone).map fun o => Instr.instructionCompletion r o.seq) ++
    ((List.range 8).filter fun i => runs && x.warp.status == .running && (x.warp.st.get (BitVec.ofNat 3 i).toFin).defined).map (fun i => Instr.runAhead r (BitVec.ofNat 3 i)) ++
    doIf (ready x && 32 ≤ x.warp.wait && !x.warp.urgent) (.urgent r) ++
    doIf (forcedDue x) (.forcedFullSave r) ++
    (match x.warp.park with
     | .cell key _ _ => doIf (awake x) (.redordUnpark key)
     | .none | .flags _ _ | .slot _ | .presence _ | .manifest | .barrier _ _ _ | .stall _ | .copy _ _ | .porter | .invalidation _ | .waybill | .toll _ => [])

/-- A queue's descriptor differs from what the caravan master has observed of it (05_teams_and_warps.md R87). -/
def queueSteps (s : State) (p : BitVec 4) (q : BitVec 3) : List Instr :=
  let x := serviceOf s p q
  match readQueue s p q with
  | none => doIf x.serving (.tailObserved p q)
  | some d =>
    doIf (x.serving && (d.tail != x.tail || d.fault.isSome)) (.tailObserved p q) ++
    doIf (x.enabled && !d.enable) (.queueDisableWrite p q) ++ doIf (!x.enabled && d.enable) (.queueEnableWrite p q)

/-- The caravan masters (05; 15 R349). -/
def placerSteps (s : State) : List Instr :=
  let u := unfocus s
  allQueues.flatMap (fun x => queueSteps s x.1 x.2) ++
    doIf ((computeOn s || s.mgmt.phase == .warming) &&
      (!(readyHeads s).isEmpty || s.grids.any (gridDone s) || allQueues.any fun x => queueHead s x.1 x.2 == .broken)) .recordTake ++
    ((s.grids.filter (mayPlace s)).map fun g => Instr.teamPlacement g.gid) ++
    u.teams.flatMap fun t =>
      let x := focusTeam u t.tid
      ((t.miles.map (·.warp)).eraseDups.map fun w => Instr.milestoneFire { team := t.tid, warp := w }) ++
      doIf (teamOver u t) (.teamComplete t.tid) ++ doIf (maySave x) (.teamSave t.tid) ++ doIf (mayResume x) (.teamResume t.tid) ++
      doIf (mayAttach x) (.schedulerAttach t.tid)

/-- Every core. -/
def allCores : List CoreRef :=
  (List.range 208).map (fun n => { cls := .m, num := n }) ++ (List.range 104).map fun n => { cls := .e, num := n }

/-- The cores' clocks: a cycle ends once no slot can be filled any more, and first the class group that ends with it (04 R65, R69; 15 R336). -/
def coreSteps (s : State) : List Instr :=
  allCores.flatMap fun c =>
    if clockRuns s (coreCluster c) && cycleOver s c then [if groupEnds s c then .classGroupClose c else .cycle c] else []

/-- Every unit that a test may fail (17 R378). -/
def testUnits : List TestUnit :=
  (List.range 52).map TestUnit.cluster ++ allCores.map TestUnit.core ++
    ((List.range 208).flatMap fun c => (List.range 16).map fun g => TestUnit.column c g) ++ (List.range 8).map TestUnit.stack

/-- A free set of units that fail their test. -/
def freeFailures (s : State) : List TestUnit := (testUnits.zipIdx.filter fun x => Config.freeChoice (s.draws + x.2)).map (·.1)

/-- A free number below a bound. -/
def freeBelow (s : State) (i n : Nat) : Nat := (Config.freeWord (s.draws + i)).toNat % max 1 n

/-- The management controller, the power managers and the memory controllers (09 R200; 17; 18 R388): what they measure is free. -/
def powerSteps (s : State) : List Instr :=
  let c := allCores.getD (freeBelow s 0 312) { cls := .m, num := 0 }
  doIf (s.mgmt.band < 4 && bandUpper s.mgmt.band < tmax s) .bandRise ++
  doIf (0 < s.mgmt.band && tmax s + 3 ≤ bandUpper (s.mgmt.band - 1)) .bandFall ++
  doIf (s.mgmt.phase == .soak) .soakEnd ++
  doIf (s.mgmt.phase == .train) (.train (freeFailures s)) ++
  doIf ((placedTeams s).isEmpty && (s.mgmt.phase == .excursion || (s.mgmt.phase == .bench && s.mgmt.band ≤ 3))) .excursionSaved ++
  doIf (s.mgmt.phase == .warming && allKilled s) .warmingDone ++
  doIf (s.mgmt.phase == .run) .ageingReplan ++
  doIf (computeOn s) (.tollSettingChange c (1024 * (1 + freeBelow s 1 (capLimit c.cls / 1024))) (1 + freeBelow s 2 4095)) ++
  doIf (computeOn s && s.mgmt.band = 0) (.poolFill (freeBelow s 3 52) (freeBelow s 4 (2 ^ 32))) ++
  doIf (s.mgmt.band = 0 && s.mgmt.phase != .off) (.patrolScrub (freeBelow s 5 (Config.stackBytes * stacksOn s / 2048))) ++
  ((s.dirty.filter fun d => !d.bad.isEmpty).map fun d => Instr.uncorrectableEviction (d.line / 128)) ++
  s.mgmt.busy.toList.map fun b => Instr.keySlotChange b.1

/-- Every step that some agent of the device can take. -/
def agentSteps (s : State) : List Instr :=
  porterSteps s ++ serviceSteps s ++ (everyWarp s).flatMap (warpSteps s) ++ placerSteps s ++ coreSteps s ++ powerSteps s

/-! ## Turns (log 4, DESIGN CHOICE) -/

/-- The next step of an agent or of the outside world: the agenda's first, or a free one of those that the device's agents can take. -/
def nextEvent (s : State) : Option (Instr × State) :=
  let own := (pickFree s (agentSteps s)).map fun i => (i, s)
  match s.agenda with
  | [] => own
  | i :: rest => if own.isNone || Config.freeChoice s.draws then some (i, { s with agenda := rest }) else own

/-- The end of a step: entries of the error records that wait are written where there is room, destination lines that have come to have their places are held, another draw, whose turn comes next by a free choice (the agents', where no warp can move), and the warp that comes next in focus. -/
def endTurn (s : State) : State :=
  let s := holdAll (drainAll s)
  let t := { s with draws := s.draws + 1, agentTurn := Config.freeChoice s.draws }
  match nextWarp t with
  | some r => focusOn t r
  | none => { t with agentTurn := true }

/-- A turn of the agents; without a step of theirs the state rests. -/
def eventTurn (s : State) : Result :=
  match nextEvent s with
  | some (i, s) => onNext (exec i s) endTurn
  | none => .next (endTurn s)

/-- A turn of the warps: the focused warp, which was chosen at the end of the step before, moves; without a warp that can move the agents do. -/
def warpTurn (s : State) : Result := if movable s then onNext (moveWarp s) endTurn else eventTurn s

/-- One step of the machine. -/
def turn (s : State) : Result := if s.agentTurn then eventTurn s else warpTurn s

end Sys2Proof.Machine
end

