-- ==== Sys2Proof/Machine/Step.lean ====
section
/-! DEFINITION. One step of the machine, and a state in which a given instruction word is the next to issue (log 12, DEDUCED). -/
namespace Sys2Proof.Machine
open Sys2Proof

/-- One step: a warp issues a word or starts a clause, or an agent of the device or of the outside world takes one of its steps. -/
def step (s : State) : Host.Outcome State Fault Refusal := turn s

/-- The launch record of the team that holds a given instruction: one warp of W = 16 and R = 64, tile slots, scratchpad bytes for its code. -/
def fetchLaunch : LaunchRecord := { scratch := 1024, accum := 32768, tiles := 8, vregs := 64, entry := BitVec.ofNat 64 Config.windowBase }

/-- The header of its clause: one word, SETA = f0, SETB = f1. -/
def fetchHeaderWord : Word :=
  Header.toBits { n := 1#3, wait := 0#12, setA := 0#4, setB := 1#4, yld := 0#2, cls := 0#3, zero := 0#28 }

/-- The position of its word, the clause fetched and begun. -/
def fetchPosition (w : Word) : Position :=
  { hdr := (Config.windowBase : Nat), header := fetchHeaderWord, words := [w], idx := 1 }

/-- Its warp. -/
def fetchWarp (w : Word) : Warp := { newWarp fetchLaunch 0 0 fetchLaunch.entry { cls := .m, num := 0 } 0 with pos := fetchPosition w }

/-- Its team, with a number of its own. -/
def fetchTeam (s : State) : Team :=
  { tid := s.nextTeam, gid := s.nextGrid, launch := fetchLaunch, status := .running, site := { cls := .m, num := 0 },
    bars := Vector.replicate 16 { e := 1 } }

/-- A state in which a word is the next to issue: the package is in RUN and band 0, and a team placed on M-core 0 has begun the clause that holds the word, at the bottom of the SRAM window. What was focused stands among the other teams. A program comes to run in this way from a launch queue (log 12, DEDUCED); bits above 64 belong to no word. -/
def State.withFetchWord (s : State) (nbits w : Nat) : State :=
  let x : Word := BitVec.ofNat 64 (w % 2 ^ nbits)
  let u := unfocus s
  { u with
    warp := fetchWarp x
    team := fetchTeam u
    mem := cellsWrite u.mem Config.windowBase (leBytes 8 fetchHeaderWord.toNat ++ leBytes 8 x.toNat)
    mgmt := { u.mgmt with phase := .run, band := 0 }
    nextTeam := u.nextTeam + 1
    nextGrid := u.nextGrid + 1
    agentTurn := false }

end Sys2Proof.Machine
end

