-- ==== Sys2Proof/Machine/Mnemonics.lean ====
section
/-! DEFINITION. The mnemonics of the assembly language: for each opcode its form, the names of its variants, whether it takes a type, and its operands as the chapters' tables of encodings write them (03_assembly_language.md R54, R59, R420; R72, R73, R109, R139, R154, R160, R163, R172, R186, R246, R260, R283, R305, R337). -/
namespace Sys2Proof.Ghas
open Sys2Proof

/-- The five forms of a word (R26). -/
inductive Form where
  | r | i | m | b | t
  deriving DecidableEq, Repr

/-- The register fields of a word. -/
inductive Field where
  | d | a | b | c
  deriving DecidableEq, Repr

/-- How many registers a vector operand names: a group of the type of the word, of its source type, of elements of so many bits, of the strip's type, of the type of the stream in A, twice the group of the type, the group of the scales of the strip's blocks, or so many registers. -/
inductive Width where
  | et
  | src
  | bits (e : Nat)
  | strip
  | stream
  | double
  | scales
  | regs (n : Nat)
  deriving DecidableEq, Repr

/-- An operand as a table of encodings writes it. -/
inductive Slot where
  /-- A uniform register, or in lane code the lane's word of a vector register. -/
  | s (f : Field)
  /-- A uniform register, in lane code too. -/
  | u (f : Field)
  /-- A vector register or group; a width that is `scales` holds one scale for each block of the strip. -/
  | v (f : Field) (w : Width)
  /-- A mask register. -/
  | m (f : Field)
  /-- A stream register. -/
  | st (f : Field)
  /-- A tile slot, in TS. -/
  | t
  /-- A channel, in IMM16 [3:0]. -/
  | ch
  /-- A barrier or a sync number, in IMM32 [3:0]. -/
  | bar
  /-- A memory operand with an offset. -/
  | mem
  /-- A memory operand without one. -/
  | cell
  /-- IMM32, within limits. -/
  | imm (lo hi : Int)
  /-- IMM16, up to a limit. -/
  | imm16 (hi : Int)
  /-- The target of a transfer, in DISP. -/
  | target
  /-- A system register, in IMM32 [11:0]. -/
  | sr
  deriving DecidableEq, Repr

/-- Where the code of a variant stands. -/
inductive FnPlace where
  | fn | b | d
  deriving DecidableEq, Repr

/-- A mnemonic. -/
structure Row where
  name : List Char
  op : Nat
  form : Form
  /-- The names of the variants, in the order in which they are written, and the code of each. -/
  fns : List (List String × Nat) := []
  fnIn : FnPlace := .fn
  /-- It takes a type. -/
  typed : Bool := false
  /-- The operands, for a variant or for all of them. -/
  shapes : List (Option Nat × List Slot)
  /-- A lane's word of a vector register may stand for a uniform register (R420). -/
  lane : Bool := false
  deriving DecidableEq, Repr

/-- Names with the codes 0, 1, …. -/
def listed (xs : List String) : List (List String × Nat) := xs.zipIdx.map fun x => ([x.1], x.2)

/-- Every pair of two lists of names, the second in the low bits. -/
def paired (k : Nat) (xs ys : List (String × Nat)) : List (List String × Nat) :=
  xs.flatMap fun x => ys.map fun y => ([x.1, y.1], x.2 * k + y.2)

/-- The names of Table 9 of R46, in the order of their codes. -/
def typeNames : List String :=
  ["INT32", "UINT32", "INT16", "UINT16", "INT8", "UINT8", "INT4", "INT2", "FP32", "BF16", "FP16", "E4M3", "E5M2", "E2M1", "SC12", "INT64"]

def signs : List (List String × Nat) := listed ["S", "U"]
def conditions : List (List String × Nat) := listed ["EQ", "NE", "LT", "LE", "LTU", "LEU"]
def orders : List (String × Nat) := [("RLX", 0), ("ACQ", 1), ("REL", 2), ("AR", 3)]
def atomics : List (List String × Nat) :=
  paired 4 ["SWAP", "ADD", "AND", "OR", "XOR", "MINS", "MINU", "MAXS", "MAXU", "FADD", "FMIN", "FMAX", "LD", "ST"].zipIdx orders

/-- Immediates: zero-extended and sign-extended (R56). -/
def u32 : Slot := .imm 0 (2 ^ 32 - 1)
def s32 : Slot := .imm (-2 ^ 31) (2 ^ 31 - 1)

/-- One list of operands for every variant. -/
def always (xs : List Slot) : List (Option Nat × List Slot) := [(none, xs)]

/-! ## Scalar and control-flow words (R72, R73) -/

def scalar (name : List Char) (op : Nat) (xs : List Slot) (fns : List (List String × Nat) := []) : Row :=
  { name, op, form := .r, fns, shapes := always xs, lane := true }

def scalarImm (name : List Char) (op : Nat) (xs : List Slot) : Row := { name, op, form := .i, shapes := always xs, lane := true }

def dab : List Slot := [.s .d, .s .a, .s .b]

def rows0 : List Row :=
  [ { scalar ['M','O','V'] 0x01 [] [(["U"], 1)] with shapes := [(some 0, [.s .d, .s .a]), (some 1, [.s .d, .u .a])] },
    scalarImm ['M','O','V','I'] 0x02 [.s .d, u32],
    { name := ['M','O','V','H','I'], op := 0x03, form := .i, shapes := always [.s .d, .s .a, u32] },
    { name := ['A','D','R','C'], op := 0x04, form := .i, shapes := always [.s .d, s32] },
    scalar ['A','D','D'] 0x05 dab,
    scalarImm ['A','D','D','I'] 0x06 [.s .d, .s .a, s32],
    scalar ['S','U','B'] 0x07 dab,
    scalar ['M','U','L'] 0x08 dab,
    scalar ['M','U','L','H','I'] 0x09 dab signs,
    scalar ['D','I','V'] 0x0A dab signs,
    scalar ['R','E','M'] 0x0B dab signs,
    scalar ['A','N','D'] 0x0C dab,
    scalarImm ['A','N','D','I'] 0x0D [.s .d, .s .a, s32],
    scalar ['O','R'] 0x0E dab,
    scalarImm ['O','R','I'] 0x0F [.s .d, .s .a, s32] ]

def rows1 : List Row :=
  [ scalar ['X','O','R'] 0x10 dab,
    scalarImm ['X','O','R','I'] 0x11 [.s .d, .s .a, s32],
    scalar ['S','H','L'] 0x12 dab,
    scalar ['S','H','R'] 0x13 dab,
    scalar ['S','A','R'] 0x14 dab,
    scalarImm ['S','H','L','I'] 0x15 [.s .d, .s .a, .imm 0 63],
    scalarImm ['S','H','R','I'] 0x16 [.s .d, .s .a, .imm 0 63],
    scalarImm ['S','A','R','I'] 0x17 [.s .d, .s .a, .imm 0 63],
    scalar ['C','L','Z'] 0x18 [.s .d, .s .a],
    scalar ['P','O','P','C'] 0x19 [.s .d, .s .a],
    scalar ['M','I','N'] 0x1A dab signs,
    scalar ['M','A','X'] 0x1B dab signs,
    scalar ['C','M','P'] 0x1C dab conditions,
    { name := ['C','M','P','I'], op := 0x1D, form := .i, fns := conditions, fnIn := .b, shapes := always [.s .d, .s .a, s32], lane := true },
    scalar ['S','E','L'] 0x1E [.s .d, .s .a, .s .b, .s .c],
    scalar ['N','O','P'] 0x1F [] ]

def transfer (name : List Char) (op : Nat) (xs : List Slot) : Row := { name, op, form := .b, shapes := always xs, lane := true }

def rows2 : List Row :=
  [ transfer ['B','R'] 0x20 [.target],
    { name := ['B','R','C'], op := 0x21, form := .b, fns := conditions, fnIn := .d, shapes := always [.s .a, .s .b, .target], lane := true },
    transfer ['B','R','Z'] 0x22 [.s .a, .target],
    transfer ['B','R','N','Z'] 0x23 [.s .a, .target],
    transfer ['C','A','L','L'] 0x24 [.target],
    { name := ['C','A','L','L','R'], op := 0x25, form := .r, shapes := always [.s .a] },
    { name := ['R','E','T'], op := 0x26, form := .r, shapes := always [] },
    { name := ['J','M','P','R'], op := 0x27, form := .r, shapes := always [.s .a] } ]

/-! ## Teams, warps, lanes, strips and masks (R109, R154, R160) -/

def uniform (name : List Char) (op : Nat) (form : Form) (xs : List Slot) (fns : List (List String × Nat) := []) : Row :=
  { name, op, form, fns, shapes := always xs }

def rows3 : List Row :=
  [ uniform ['G','E','T','I','D'] 0x30 .r [.s .d] (listed ["TX", "TY", "TZ", "GX", "GY", "GZ", "WARP", "TEAM"]),
    uniform ['T','G','R','O','W'] 0x31 .r [.s .d, .s .a],
    uniform ['T','L','E','A','V','E'] 0x32 .r [],
    uniform ['T','S','T','A','T'] 0x33 .r [.s .d],
    uniform ['B','A','R','A','R','V'] 0x34 .i [.bar],
    uniform ['B','A','R','W','A','I','T'] 0x35 .i [.bar],
    uniform ['B','A','R','S','Y','N','C'] 0x36 .i [.bar],
    uniform ['B','A','R','M','A','S','K'] 0x37 .i [.imm 0 0xFFFF],
    uniform ['W','S','Y','N','C'] 0x38 .i [.bar, .v .a (.regs 1)],
    uniform ['V','F','O','R','K'] 0x39 .b [.m .a, .target],
    uniform ['L','J','O','I','N'] 0x3A .r [],
    uniform ['K','L','A','U','N','C','H'] 0x3B .r dab,
    uniform ['Y','I','E','L','D'] 0x3C .r [] ]

def mmm : List Slot := [.m .d, .m .a, .m .b]

def rows4 : List Row :=
  [ uniform ['S','E','T','V','L'] 0x40 .i [.s .d, .s .a, .imm 0 0x1FF],
    uniform ['S','V','L','O','O','P'] 0x41 .b [.s .a, .target],
    uniform ['G','E','T','V','L'] 0x42 .r [.s .d] (listed ["VL", "PAD", "MAX", "CAP", "DESC", "START"]),
    uniform ['M','A','N','D'] 0x44 .r mmm,
    uniform ['M','O','R'] 0x45 .r mmm,
    uniform ['M','X','O','R'] 0x46 .r mmm,
    uniform ['M','A','N','D','N'] 0x47 .r mmm,
    uniform ['M','N','O','T'] 0x48 .r [.m .d, .m .a],
    uniform ['M','M','O','V'] 0x49 .r [.m .d, .m .a],
    { name := ['M','S','E','T'], op := 0x4A, form := .r, fns := listed ["LT", "ALL", "NONE", "LIVE"], shapes := [(none, [.m .d, .s .a]), (none, [.m .d])] },
    uniform ['M','P','O','P','C'] 0x4B .r [.s .d, .m .a],
    uniform ['M','F','I','R','S','T'] 0x4C .r [.s .d, .m .a] ]

/-! ## Vector words (R139, R163, R172) -/

def vector (name : List Char) (op : Nat) (xs : List Slot) (fns : List (List String × Nat) := []) : Row :=
  { name, op, form := .r, fns, typed := true, shapes := always xs }

def v2 : List Slot := [.v .d .et, .v .a .et]
def v3 : List Slot := v2 ++ [.v .b .et]
def v4 : List Slot := v3 ++ [.v .c .et]
def fromType : List Slot := [.v .d .et, .v .a .src]

def rows5 : List Row :=
  [ vector ['V','A','D','D'] 0x50 v3, vector ['V','A','D','D','S'] 0x51 v3, vector ['V','S','U','B'] 0x52 v3, vector ['V','S','U','B','S'] 0x53 v3,
    vector ['V','M','U','L'] 0x54 v3, vector ['V','M','U','L','H','I'] 0x55 v3, vector ['V','M','A','D'] 0x56 v4,
    vector ['V','M','I','N'] 0x57 v3, vector ['V','M','A','X'] 0x58 v3,
    vector ['V','A','B','S'] 0x59 v2 [(["S"], 1)],
    vector ['V','A','N','D'] 0x5A v3, vector ['V','O','R'] 0x5B v3, vector ['V','X','O','R'] 0x5C v3,
    vector ['V','S','H','L'] 0x5D v3, vector ['V','S','H','R'] 0x5E v3, vector ['V','S','A','R'] 0x5F v3 ]

def rows6 : List Row :=
  [ vector ['V','C','M','P'] 0x60 [.m .d, .v .a .et, .v .b .et] conditions,
    vector ['V','M','R','G'] 0x61 v3,
    vector ['V','W','I','D'] 0x62 fromType (listed typeNames),
    vector ['V','S','A','T','N'] 0x63 fromType (listed typeNames),
    { name := ['V','I','O','T','A'], op := 0x64, form := .r, fns := listed ["IDX", "MASK"], typed := true,
      shapes := [(some 0, [.v .d .et]), (some 1, [.v .d .et, .m .a])] },
    vector ['V','B','C','S'] 0x65 [.v .d .et, .s .a],
    vector ['V','P','O','P','C'] 0x66 v2,
    { name := ['V','A','D','D','I'], op := 0x67, form := .i, shapes := always [.v .d .strip, .v .a .strip, s32] },
    vector ['V','C','L','Z'] 0x68 v2 ]

def rows7 : List Row :=
  [ vector ['V','F','A','D','D'] 0x70 v3, vector ['V','F','S','U','B'] 0x71 v3, vector ['V','F','M','U','L'] 0x72 v3, vector ['V','F','M','A'] 0x73 v4, vector ['V','F','N','M','A'] 0x74 v4,
    vector ['V','F','M','I','N'] 0x75 v3, vector ['V','F','M','A','X'] 0x76 v3, vector ['V','F','D','I','V'] 0x77 v3,
    vector ['V','F','S','Q','R','T'] 0x78 v2, vector ['V','F','R','S','Q'] 0x79 v2, vector ['V','F','R','C','P'] 0x7A v2, vector ['V','F','E','X','P','2'] 0x7B v2, vector ['V','F','L','O','G','2'] 0x7C v2,
    vector ['V','F','C','M','P'] 0x7D [.m .d, .v .a .et, .v .b .et] (listed ["EQ", "NE", "LT", "LE", "UN", "OR"]),
    vector ['V','F','C','L','A','S','S'] 0x7E v2,
    vector ['V','C','V','T'] 0x7F fromType (listed typeNames) ]

def rows8 : List Row :=
  [ { name := ['V','Q','N','T'], op := 0x80, form := .r, fns := listed typeNames ++ [(["FP32T"], 24), (["BF16T"], 25), (["FP16T"], 26)], typed := true,
      shapes := [(some 24, [.v .d .et, .v .a (.regs 8), .v .b .scales]), (some 25, [.v .d .et, .v .a (.regs 8), .v .b .scales]),
        (some 26, [.v .d .et, .v .a (.regs 8), .v .b .scales]), (none, [.v .d .et, .v .a .src, .v .b .scales])] },
    vector ['V','D','Q','N','T'] 0x81 [.v .d .et, .v .a .src, .v .b .scales] (listed typeNames),
    vector ['V','F','A','B','S'] 0x82 v2 ]

def vvs : List Slot := v2 ++ [.s .b]
def vvm : List Slot := v2 ++ [.m .b]
def reduction : List Slot := [.v .d (.regs 1), .v .a .et]

def rows9 : List Row :=
  [ vector ['V','P','E','R','M'] 0x90 (v2 ++ [.v .b (.bits 16)]),
    vector ['V','S','L','U','P'] 0x91 vvs, vector ['V','S','L','D','N'] 0x92 vvs, vector ['V','B','C','A','S','T'] 0x93 vvs,
    vector ['V','C','M','P','R','S'] 0x94 vvm, vector ['V','E','X','P','N','D'] 0x95 vvm,
    vector ['V','T','R','8'] 0x96 [.v .d (.regs 8), .v .a (.regs 8)],
    vector ['V','R','E','D','S','U','M'] 0x97 reduction, vector ['V','R','E','D','M','A','X'] 0x98 reduction, vector ['V','R','E','D','M','I','N'] 0x99 reduction,
    vector ['V','S','C','A','N'] 0x9A v2 (listed ["ADD", "MAX", "MIN"]),
    vector ['V','E','X','T','R'] 0x9B [.s .d, .v .a .et, .s .b],
    vector ['V','I','N','S'] 0x9C [.v .d .et, .s .a, .s .b] ]

/-! ## Memory, atomics and copies (R186, R246, R260) -/

def access (name : List Char) (op : Nat) (xs : List Slot) : Row := { name, op, form := .m, typed := true, shapes := always xs }

def rowsA : List Row :=
  [ { access ['L','D','S'] 0xA0 [.s .d, .mem] with lane := true },
    { access ['S','T','S'] 0xA1 [.s .b, .mem] with lane := true },
    access ['V','L','D'] 0xA2 [.v .d .et, .mem],
    access ['V','S','T'] 0xA3 [.v .b .et, .mem],
    access ['V','L','D','S'] 0xA4 [.v .d .et, .mem, .s .c],
    access ['V','S','T','S'] 0xA5 [.v .b .et, .mem, .s .c],
    access ['V','L','D','X'] 0xA6 [.v .d .et, .mem, .v .c (.bits 32)],
    access ['V','S','T','X'] 0xA7 [.v .b .et, .mem, .v .c (.bits 32)],
    uniform ['S','T','R','D','E','F'] 0xA8 .i [.st .d, .s .a, .s .b, u32],
    uniform ['V','L','D','S','T'] 0xA9 .m [.v .d .stream, .st .a],
    uniform ['V','S','T','S','T'] 0xAA .m [.v .b .stream, .st .a],
    uniform ['P','R','E','F'] 0xAB .m [.mem] ]

def rowsB : List Row :=
  [ { vector ['A','T','O','M'] 0xB0 [.s .d, .cell, .s .b] atomics with lane := true },
    vector ['V','A','T','O','M'] 0xB1 [.v .d .et, .cell, .v .b .et, .v .c (.bits 32)] atomics,
    { vector ['C','A','S'] 0xB2 [.s .d, .cell, .s .b, .s .c] (orders.map fun x => ([x.1], x.2)) with lane := true },
    vector ['V','C','A','S'] 0xB3 [.v .d .et, .cell, .v .b .double, .v .c (.bits 32)] (orders.map fun x => ([x.1], x.2)),
    vector ['R','E','D','O','R','D'] 0xB4 [.s .d, .cell, .s .b, .s .c],
    uniform ['F','E','N','C','E'] 0xB5 .r [] (paired 1 [("ACQ", 1), ("REL", 2), ("FULL", 3)] [("LANE", 0), ("WARP", 4), ("TEAM", 8), ("CLUS", 12), ("DEV", 16), ("SYS", 20)]),
    uniform ['C','P','Y','B','O','X'] 0xB8 .t [.s .d, .v .a (.regs 1), .s .b, .s .c, .ch] (listed ["IN", "OUT"]),
    uniform ['C','P','Y','A'] 0xB9 .t [.s .d, .v .a (.regs 1), .s .b, .t, .ch],
    uniform ['C','P','Y','B'] 0xBA .t [.s .d, .v .a (.regs 1), .s .b, .t, .ch],
    { name := ['C','P','Y','T','R','A','I','N'], op := 0xBB, form := .t, fns := listed ["ST", "ADD", "FADD"], typed := true, shapes := always [.s .d, .cell, .s .b, .ch] },
    uniform ['C','W','A','I','T'] 0xBC .t [.s .a, .ch],
    { name := ['C','S','T','A','T'], op := 0xBD, form := .t, fns := listed ["ID", "C", "NEXT", "ERR", "CLR"],
      shapes := [(none, [.s .d, .s .a, .ch]), (some 1, [.s .d, .ch]), (some 2, [.s .d, .ch]), (some 3, [.s .d, .ch]), (some 4, [.s .d, .ch])] } ]

/-! ## Tile slots and matrix words (R283, R305) -/

def tile (name : List Char) (op : Nat) (xs : List Slot) : Row := { name, op, form := .t, shapes := always xs }

def drained (name : List Char) (op : Nat) (xs : List Slot) : Row :=
  { name, op, form := .t, fns := listed ["ROW", "COL"], typed := true, shapes := always xs }

def rowsC : List Row :=
  [ tile ['T','E','N'] 0xC0 [], tile ['T','D','I','S'] 0xC1 [],
    { name := ['T','S','E','T'], op := 0xC2, form := .t, shapes := [(none, [.s .d, .s .a, .t, .imm16 0x7FF]), (none, [.s .d, .s .a, .t])] },
    tile ['T','G','R','A','N','T'] 0xC3 [.s .d, .t],
    tile ['T','Z','E','R','O'] 0xC4 [.t],
    tile ['T','L','D','B'] 0xC5 [.t, .s .a, .s .b],
    tile ['T','M','M','A'] 0xC6 [.t, .s .a],
    tile ['T','M','M','A','S'] 0xC7 [.t, .s .a, .s .b],
    { name := ['T','C','S','C','L'], op := 0xC8, form := .t, fns := listed ["LD", "ONE"], shapes := [(none, [.t, .s .a]), (none, [.t])] },
    drained ['T','S','L','V'] 0xC9 [.v .d .et, .t, .s .a],
    drained ['T','S','V','L'] 0xCA [.t, .v .b .et, .s .a],
    { name := ['T','S','T','R'], op := 0xCB, form := .t, fns := listed ["U", "S", "X"], typed := true,
      shapes := [(some 0, [.t, .s .a, .s .b]), (some 1, [.t, .s .a, .s .b, .s .c]), (some 2, [.t, .s .a, .s .b, .v .c (.bits 32)])] },
    tile ['T','S','A','V','E'] 0xCC [.t, .s .a],
    tile ['T','L','O','A','D'] 0xCD [.t, .s .a] ]

/-! ## System words (R337) -/

def rowsD : List Row :=
  [ uniform ['T','R','A','P'] 0xD0 .i [.imm 0 0xFFFF],
    uniform ['E','R','E','T'] 0xD1 .r [],
    uniform ['G','E','T','S','R'] 0xD2 .i [.s .d, .sr],
    uniform ['S','E','T','S','R'] 0xD3 .i [.sr, .s .a],
    uniform ['C','A','C','H','E'] 0xD4 .r [.cell] (listed ["CLEAN", "FLUSH", "INV"]),
    { name := ['I','C','I','N','V'], op := 0xD5, form := .r, fns := listed ["RANGE", "ALL"], shapes := [(none, [.s .a, .s .b]), (some 1, [])] },
    { name := ['X','L','I','N','V'], op := 0xD6, form := .r, fns := listed ["VA", "ALL"], shapes := [(none, [.s .a, .s .b]), (some 1, [])] },
    uniform ['L','E','A','S','E'] 0xD7 .r [.s .d, .s .a],
    { name := ['H','A','L','T'], op := 0xD8, form := .r, fns := listed ["WARP", "TEAM"], shapes := [(none, [.s .a]), (some 0, [])] } ]

/-- The 168 mnemonics, in the order of the opcode map (R50). -/
def mnemonics : List Row :=
  rows0 ++ rows1 ++ rows2 ++ rows3 ++ rows4 ++ rows5 ++ rows6 ++ rows7 ++ rows8 ++ rows9 ++ rowsA ++ rowsB ++ rowsC ++ rowsD

/-- The system registers of Table 3 of R335, by name. -/
def sysregNames : List (List Char × Nat) :=
  ([("CYCLES", 0x000), ("CORECLASS", 0x001), ("PARTID", 0x002), ("WMODE", 0x003), ("FPSTAT", 0x008), ("FPCTL", 0x009),
    ("VLCAP", 0x00A), ("TCAP", 0x00B), ("BANDSTAT", 0x010), ("TOLLSTAT", 0x011), ("LEASESTAT", 0x012), ("WAYBILLCTL", 0x018),
    ("TRAPCAUSE", 0x020), ("TRAPPC", 0x021), ("TRAPNPC", 0x022), ("TRAPHDR", 0x023), ("TRAPINFO", 0x024), ("FAULTVA", 0x025),
    ("FAULTGPA", 0x026), ("VSTART", 0x027), ("TRAPVEC", 0x02C), ("S1ROOT", 0x030)].map fun x => (x.1.toList, x.2)) ++
  (List.range 4).map (fun i => ("TRAPSCR".toList ++ Nat.toDigits 10 i, 0x028 + i)) ++
  (List.range 16).map (fun i => ("FAULTMASK".toList ++ Nat.toDigits 10 i, 0x040 + i))

/-- The class of an opcode for the CLS hint (R59, Table 3). -/
def classOf (op : Nat) : Nat :=
  if op ≤ 0x42 || 0xD0 ≤ op then 1
  else if op ≤ 0x68 || (0x90 ≤ op && op ≤ 0x9C) then 2
  else if op ≤ 0x82 then 3
  else if op ≤ 0xB5 then 4
  else if 0xC0 ≤ op then 5
  else 6

end Sys2Proof.Ghas
end

