-- ==== Sys2Proof/Machine/Source.lean ====
section
/-! DEFINITION. The source text of the assembly language: lines, tokens, names, operands and expressions (03_assembly_language.md R51–R55, R63). -/
namespace Sys2Proof.Ghas
open Sys2Proof

/-- The codes of Table 7 of R64. -/
inductive Diag where
  | e01 | e02 | e03 | e04 | e05 | e06 | e07 | e08 | e09 | e10 | e11 | e12 | w01 | w02
  deriving DecidableEq, Repr

def Diag.isError : Diag → Bool
  | .w01 | .w02 => false
  | .e01 | .e02 | .e03 | .e04 | .e05 | .e06 | .e07 | .e08 | .e09 | .e10 | .e11 | .e12 => true

/-! ## Tokens (R51, R53) -/

/-- An identifier. -/
abbrev Ident := List Char

/-- The marks of the language. -/
inductive Mark where
  | tilde | minus | plus | times | slash | percent | shl | shr | amp | caret | bar
  | lpar | rpar | lbrk | rbrk | comma | equals | colon
  deriving DecidableEq, Repr

/-- A token; `real m e` is m · 10^e, written with a point or an exponent. -/
inductive Tok where
  | ident (s : Ident)
  | num (n : Nat)
  | real (m : Nat) (e : Int)
  | mark (m : Mark)
  deriving DecidableEq, Repr

/-- An identifier begins with a letter, `_` or `.`. -/
def startsIdent (c : Char) : Bool := c.isAlpha || c == '_' || c == '.'

/-- It goes on with these, digits and `$`. -/
def inIdent (c : Char) : Bool := startsIdent c || c.isDigit || c == '$'

/-- The value of a digit in a base. -/
def digitOf (base : Nat) (c : Char) : Option Nat :=
  let v :=
    if c.isDigit then c.toNat - 48
    else if c.isUpper then c.toNat - 55
    else if c.isLower then c.toNat - 87
    else 99
  if v < base then some v else none

/-- Digits in a base, with underscores between them. -/
def digits (base : Nat) (cs : List Char) : Option Nat :=
  if cs.head? == some '_' || cs.getLast? == some '_' || cs == [] then none
  else cs.foldlM (fun v c => if c == '_' then some v else (digitOf base c).map fun d => base * v + d) 0

/-- A decimal number with a point or an exponent: its digits before the point, after it, and the exponent. -/
def realOf (whole frac : List Char) (e : Int) : Option Tok :=
  match digits 10 (whole ++ frac) with
  | some m => some (.real m (e - frac.length))
  | none => none

/-- The integer of an exponent, with its sign. -/
def exponentOf (cs : List Char) : Option Int :=
  match cs with
  | '-' :: ds => (digits 10 ds).map fun n => -(n : Int)
  | '+' :: ds => (digits 10 ds).map fun n => (n : Int)
  | ds => (digits 10 ds).map fun n => (n : Int)

/-- A decimal literal that is no integer. -/
def decimalOf (cs : List Char) : Option Tok :=
  let (mant, tail) := cs.span fun c => c != 'e' && c != 'E'
  let (whole, frac) := mant.span (· != '.')
  let frac := (frac.drop 1).filter (· != '_')
  match tail with
  | [] => realOf whole frac 0
  | _ :: es => (exponentOf es).bind (realOf whole frac)

/-- A number at the head of the text: a decimal, a 0x or a 0b literal, or a decimal literal with a point or an exponent, whose sign may follow its `e`. -/
def lexNumber (cs : List Char) : Option (Tok × List Char) :=
  let (w, rest) := cs.span inIdent
  match w with
  | '0' :: 'x' :: ds => (digits 16 ds).map fun n => (.num n, rest)
  | '0' :: 'b' :: ds => (digits 2 ds).map fun n => (.num n, rest)
  | _ =>
    match digits 10 w with
    | some n => some (.num n, rest)
    | none =>
      if (w.getLast? == some 'e' || w.getLast? == some 'E') && (rest.head? == some '-' || rest.head? == some '+') then
        let (es, rest') := (rest.drop 1).span Char.isDigit
        (decimalOf (w ++ rest.take 1 ++ es)).map fun t => (t, rest')
      else (decimalOf w).map fun t => (t, rest)

/-- The mark at the head of the text. -/
def lexMark (c : Char) (cs : List Char) : Option (Mark × List Char) :=
  match c with
  | '~' => some (.tilde, cs) | '-' => some (.minus, cs) | '+' => some (.plus, cs) | '*' => some (.times, cs)
  | '/' => some (.slash, cs) | '%' => some (.percent, cs) | '&' => some (.amp, cs) | '^' => some (.caret, cs)
  | '|' => some (.bar, cs) | '(' => some (.lpar, cs) | ')' => some (.rpar, cs) | '[' => some (.lbrk, cs)
  | ']' => some (.rbrk, cs) | ',' => some (.comma, cs) | '=' => some (.equals, cs) | ':' => some (.colon, cs)
  | '<' => if cs.head? == some '<' then some (.shl, cs.drop 1) else none
  | '>' => if cs.head? == some '>' then some (.shr, cs.drop 1) else none
  | _ => none

/-- The tokens of a line, up to its comment: none where a character has no place. The count bounds the tokens that are read. -/
def lex : Nat → List Char → Option (List Tok)
  | _, [] => some []
  | 0, _ :: _ => none
  | n + 1, c :: cs =>
    if c == ' ' || c == '\t' || c == '\r' then lex n cs
    else if c == ';' || (c == '/' && cs.head? == some '/') then some []
    else if startsIdent c then
      let (w, rest) := (c :: cs).span inIdent
      (lex n rest).map fun ts => .ident w :: ts
    else if c.isDigit then (lexNumber (c :: cs)).bind fun x => (lex n x.2).map fun ts => x.1 :: ts
    else (lexMark c cs).bind fun x => (lex n x.2).map fun ts => .mark x.1 :: ts

/-! ## Names (R7, R51, R52) -/

/-- The kinds of registers that an operand may name. -/
inductive RegKind where
  | s | v | m | st | t | f | b | ch
  deriving DecidableEq, Repr

/-- The numbers of a kind run below this. -/
def RegKind.limit : RegKind → Nat
  | .s | .v => 64
  | .m | .st | .t => 8
  | .f => 12
  | .b | .ch => 16

/-- The letters of a kind. -/
def regKindOf (cs : List Char) : Option RegKind :=
  match cs with
  | ['s'] => some .s | ['v'] => some .v | ['m'] => some .m | ['s', 't'] => some .st
  | ['t'] => some .t | ['f'] => some .f | ['b'] => some .b | ['c', 'h'] => some .ch
  | _ => none

/-- The second names of Table 1 of R52. -/
def secondNames : List (List Char × Nat) :=
  [(['z', 'e', 'r', 'o'], 0), (['t', 'b'], 60), (['f', 'p'], 61), (['s', 'p'], 62), (['l', 'r'], 63)]

/-- A name of the form of a register's, whatever its number. -/
def regOf (x : Ident) : Option (RegKind × Nat) :=
  match secondNames.find? fun y => y.1 == x with
  | some y => some (.s, y.2)
  | none =>
    let (k, ds) := x.span Char.isAlpha
    match regKindOf k, ds with
    | some k, '0' :: [] => some (k, 0)
    | some _, '0' :: _ => none
    | some k, d :: ds => if ds.all Char.isDigit then (digits 10 (d :: ds)).map fun n => (k, n) else none
    | _, _ => none

/-- The name of a register: its number is within the limit of its kind, or it is part of the strip state. -/
def isRegName (x : Ident) : Bool :=
  (match regOf x with
   | some (k, n) => n < k.limit
   | none => false) || x == ['v', 'l'] || x == ['v', 'p', 'a', 'd'] || x == "vstart".toList

/-- The row of a mnemonic, whatever the case of its letters. -/
def rowOf (x : Ident) : Option Row :=
  let u := x.map Char.toUpper
  mnemonics.find? fun r => r.name == u

/-- A name that no label, `.equ` or expression may hold (R51). -/
def isReserved (x : Ident) : Bool := x == ['.'] || isRegName x || (rowOf x).isSome

/-! ## Expressions (R53) -/

inductive BinOp where
  | mul | div | mod | add | sub | shl | shr | and | xor | or
  deriving DecidableEq, Repr

/-- An expression; `here` is the current address. -/
inductive Expr where
  | num (n : Nat)
  | sym (s : Ident)
  | here
  | neg (e : Expr)
  | inv (e : Expr)
  | bin (o : BinOp) (a b : Expr)
  deriving DecidableEq, Repr

/-- A binary operator and its level, 0 for the one that binds least. -/
def binOpOf : Mark → Option (Nat × BinOp)
  | .bar => some (0, .or)
  | .caret => some (1, .xor)
  | .amp => some (2, .and)
  | .shl => some (3, .shl)
  | .shr => some (3, .shr)
  | .plus => some (4, .add)
  | .minus => some (4, .sub)
  | .times => some (5, .mul)
  | .slash => some (5, .div)
  | .percent => some (5, .mod)
  | .tilde | .lpar | .rpar | .lbrk | .rbrk | .comma | .equals | .colon => none

/-- What a step of the parser reads: an expression of a level, or what may follow one that has been read. -/
inductive Goal where
  | level (l : Nat)
  | more (l : Nat) (e : Expr)
  deriving DecidableEq, Repr

/-- An expression at the head of the tokens, and the tokens after it: six binary levels, and the unary operators above them. -/
def parseExpr : Nat → Goal → List Tok → Option (Expr × List Tok)
  | 0, _, _ => none
  | n + 1, .level l, ts =>
    if 6 ≤ l then
      match ts with
      | .num v :: ts => some (.num v, ts)
      | .ident x :: ts => if x == ['.'] then some (.here, ts) else if isReserved x then none else some (.sym x, ts)
      | .mark .minus :: ts => (parseExpr n (.level 6) ts).map fun x => (.neg x.1, x.2)
      | .mark .tilde :: ts => (parseExpr n (.level 6) ts).map fun x => (.inv x.1, x.2)
      | .mark .lpar :: ts =>
        match parseExpr n (.level 0) ts with
        | some (e, .mark .rpar :: ts) => some (e, ts)
        | _ => none
      | _ => none
    else (parseExpr n (.level (l + 1)) ts).bind fun x => parseExpr n (.more l x.1) x.2
  | n + 1, .more l e, ts =>
    match ts with
    | .mark m :: rest =>
      match binOpOf m with
      | some (l', o) =>
        if l' = l then (parseExpr n (.level (l + 1)) rest).bind fun x => parseExpr n (.more l (.bin o e x.1)) x.2
        else some (e, ts)
      | none => some (e, ts)
    | _ => some (e, ts)

/-- Tokens that are one expression. -/
def exprOf (ts : List Tok) : Option Expr :=
  match parseExpr (8 * ts.length + 8) (.level 0) ts with
  | some (e, []) => some e
  | _ => none

/-! ## Operands (R54, R55, R63) -/

/-- The operators of Table 6. -/
inductive RelOp where
  | cw | lo3 | gotcw | gotlo3 | abs32
  deriving DecidableEq, Repr

def relOpOf (x : Ident) : Option RelOp :=
  if x == ['c', 'w'] then some .cw
  else if x == ['l', 'o', '3'] then some .lo3
  else if x == "gotcw".toList then some .gotcw
  else if x == "gotlo3".toList then some .gotlo3
  else if x == "abs32".toList then some .abs32
  else none

/-- What stands between two commas. -/
inductive Item where
  /-- A register, or another name of the form of a register's. -/
  | reg (k : RegKind) (n : Nat) (name : Ident)
  /-- A register in brackets, with an offset or without one. -/
  | mem (k : RegKind) (n : Nat) (off : Option Expr)
  | expr (e : Expr)
  | rel (o : RelOp) (s : Ident)
  /-- A decimal literal with a point or an exponent, negated or not. -/
  | real (neg : Bool) (m : Nat) (e : Int)
  /-- A setting: a key, `=`, and what follows. -/
  | setting (key : Ident) (value : List Tok)
  deriving DecidableEq, Repr

/-- Tokens cut at the commas that stand outside brackets and parentheses. -/
def cutItems : Nat → List Tok → List Tok → List (List Tok)
  | _, cur, [] => [cur.reverse]
  | depth, cur, t :: ts =>
    match t with
    | .mark .comma => if depth = 0 then cur.reverse :: cutItems 0 [] ts else cutItems depth (t :: cur) ts
    | .mark .lpar | .mark .lbrk => cutItems (depth + 1) (t :: cur) ts
    | .mark .rpar | .mark .rbrk => cutItems (depth - 1) (t :: cur) ts
    | _ => cutItems depth (t :: cur) ts

/-- The register of a memory operand, and its offset. -/
def memOf (ts : List Tok) : Option Item :=
  match ts with
  | [.ident x] => (regOf x).map fun r => .mem r.1 r.2 none
  | .ident x :: .mark .comma :: es => (regOf x).bind fun r => (exprOf es).map fun e => .mem r.1 r.2 (some e)
  | _ => none

/-- One item; none where it does not parse. -/
def itemOf (ts : List Tok) : Option Item :=
  match ts with
  | .mark .lbrk :: rest => if rest.getLast? == some (.mark .rbrk) then memOf rest.dropLast else none
  | .mark .percent :: .ident o :: .mark .lpar :: .ident s :: .mark .rpar :: [] =>
    if isReserved s then none else (relOpOf o).map fun o => .rel o s
  | .ident k :: .mark .equals :: v => if v == [] then none else some (.setting k v)
  | [.real m e] => some (.real false m e)
  | [.mark .minus, .real m e] => some (.real true m e)
  | [.ident x] =>
    match regOf x with
    | some (k, n) => some (.reg k n x)
    | none => (exprOf ts).map .expr
  | _ => (exprOf ts).map .expr

/-- The operator of Table 6 at the head of the tokens, and the tokens after it. -/
def opAt (ts : List Tok) : Option (RelOp × List Tok) :=
  match ts with
  | .mark .percent :: .ident o :: .mark .lpar :: .ident _ :: .mark .rpar :: rest => (relOpOf o).map fun o => (o, rest)
  | _ => none

/-- The tokens hold an operator of Table 6. -/
def holdsOp : List Tok → Bool
  | [] => false
  | t :: ts => (opAt (t :: ts)).isSome || holdsOp ts

/-- An item taken as an expression: a name of the form of a register's that is no register is a symbol. -/
def Item.asExpr : Item → Option Expr
  | .expr e => some e
  | .reg k n x => if k.limit ≤ n then some (.sym x) else none
  | .mem _ _ _ | .rel _ _ | .real _ _ _ | .setting _ _ => none

/-- An item that is a symbol. -/
def Item.asSym (i : Item) : Option Ident :=
  match i.asExpr with
  | some (.sym x) => some x
  | _ => none

/-- The items of the tokens after a name; none where one of them does not parse. -/
def itemsOf (ts : List Tok) : Option (List Item) := if ts == [] then some [] else (cutItems 0 [] ts).mapM itemOf

/-! ## Statements -/

/-- A line: its label, and the name of its statement with the tokens after it. -/
structure Stmt where
  label : Option Ident
  name : Option Ident
  rest : List Tok
  deriving DecidableEq, Repr

/-- A line of the source; none where it does not parse. -/
def stmtOf (cs : List Char) : Option Stmt :=
  match lex (cs.length + 1) cs with
  | none => none
  | some ts =>
    let (label, ts) :=
      match ts with
      | .ident x :: .mark .colon :: ts => (some x, ts)
      | ts => (none, ts)
    if label.any isReserved then none
    else
      match ts with
      | [] => some { label, name := none, rest := [] }
      | .ident x :: rest => some { label, name := some x, rest }
      | _ => none

/-- A name cut at its points. -/
def splitDots : List Char → List Char → List (List Char)
  | cur, [] => [cur.reverse]
  | cur, c :: cs => if c == '.' then cur.reverse :: splitDots [] cs else splitDots (c :: cur) cs

/-- Text cut into its lines. -/
def splitLines : List Char → List Char → List (List Char)
  | cur, [] => [cur.reverse]
  | cur, c :: cs => if c == '\n' then cur.reverse :: splitLines [] cs else splitLines (c :: cur) cs

end Sys2Proof.Ghas
end

