-- ==== Sys2Proof/Machine/Assemble.lean ====
section
/-! DEFINITION. The first pass of the assembler: the values of expressions, the statements of the language, the forming and placing of clauses, sections, data and kernels (03_assembly_language.md R53–R62, R64). -/
namespace Sys2Proof.Ghas
open Sys2Proof

/-! ## Values (R53) -/

/-- What a value counts from: zero, the start of a section, or an import. -/
inductive Base where
  | abs
  | text
  | const
  | imported (x : Ident)
  deriving DecidableEq, Repr

/-- A value, and the symbol that it was reached by. -/
structure Val where
  base : Base
  off : Int
  via : Option Ident := none
  deriving DecidableEq, Repr

/-- An operation on two's-complement values of unbounded width. -/
def bitwise (f : Nat → Nat → Nat) (a b : Int) : Int :=
  let w := max a.natAbs.log2 b.natAbs.log2 + 2
  let r := f (a % 2 ^ w).toNat (b % 2 ^ w).toNat
  if r < 2 ^ (w - 1) then r else (r : Int) - 2 ^ w

/-- A binary operation on integers, exact. -/
def arith (o : BinOp) (a b : Int) : Except Diag Int :=
  match o with
  | .mul => .ok (a * b)
  | .add => .ok (a + b)
  | .sub => .ok (a - b)
  | .and => .ok (bitwise Nat.land a b)
  | .xor => .ok (bitwise Nat.xor a b)
  | .or => .ok (bitwise Nat.lor a b)
  | .div => if b = 0 then .error .e11 else .ok (a.fdiv b)
  | .mod => if b = 0 then .error .e11 else .ok (a.fmod b)
  | .shl => if b < 0 then .error .e11 else .ok (a * 2 ^ b.toNat)
  | .shr => if b < 0 then .error .e11 else .ok (a.fdiv (2 ^ b.toNat))

/-- A binary operation: what depends on where a section or an import stands is moved by integers, and the distance of two places of one section is an integer. -/
def Val.bin (o : BinOp) (x y : Val) : Except Diag Val :=
  if x.base = .abs ∧ y.base = .abs then (arith o x.off y.off).map fun v => { base := .abs, off := v }
  else
    match o with
    | .add =>
      if y.base = .abs then .ok { x with off := x.off + y.off }
      else if x.base = .abs then .ok { y with off := x.off + y.off }
      else .error .e01
    | .sub =>
      if y.base = .abs then .ok { x with off := x.off - y.off }
      else if x.base = y.base then .ok { base := .abs, off := x.off - y.off }
      else .error .e01
    | .mul | .div | .mod | .shl | .shr | .and | .xor | .or => .error .e01

/-- The value of an expression, by the values of its symbols and the current address, where it is placed. -/
def Expr.eval (look : Ident → Except Diag Val) (here : Except Diag Val) : Expr → Except Diag Val
  | .num n => .ok { base := .abs, off := n }
  | .sym s => look s
  | .here => here
  | .neg e => (e.eval look here).bind fun v => if v.base = .abs then .ok { base := .abs, off := -v.off } else .error .e01
  | .inv e => (e.eval look here).bind fun v => if v.base = .abs then .ok { base := .abs, off := -v.off - 1 } else .error .e01
  | .bin o a b => (a.eval look here).bind fun x => (b.eval look here).bind fun y => x.bin o y

/-- A name that the source defines: a label of a section, with its offset once its clause is placed, or an expression with the current address of its definition; while `inClause` that address counts from the header of the open clause, which is not placed yet (log 59). -/
structure Sym where
  name : Ident
  line : Nat
  text : Bool
  value : Option Nat := none
  equ : Option (Expr × Val) := none
  inClause : Bool := false
  deriving DecidableEq, Repr

/-- The value of a name; definitions by `.equ` are followed so many times. An `.equ` of a label, placed before it or later, keeps the distance from its section's start, and only the uses of its name are judged (log 59). -/
def valueOf (syms : List Sym) (externs : List Ident) : Nat → Ident → Except Diag Val
  | 0, _ => .error .e01
  | n + 1, x =>
    match syms.find? fun y => y.name == x with
    | some y =>
      match y.equ, y.value with
      | some (e, here), _ => e.eval (valueOf syms externs n) (if y.inClause then .error .e01 else .ok here)
      | none, some v => .ok { base := if y.text then .text else .const, off := v, via := some x }
      | none, none => .error .e01
    | none => if externs.contains x then .ok { base := .imported x, off := 0, via := some x } else .error .e01

/-- The limits of a final value. -/
def finalOk (v : Int) : Bool := -2 ^ 63 ≤ v && v < 2 ^ 64

/-! ## What the first pass keeps -/

/-- An instruction statement, before its expressions are evaluated; `kernel` is the block that it stands in. -/
structure Draft where
  line : Nat
  row : Row
  fn : Nat
  et : Nat
  args : List (Slot × Item)
  sets : List (Ident × List Tok)
  fs : Nat := 0
  kernel : Option Nat
  deriving DecidableEq, Repr

/-- The clause that is being formed; `auto` says that no `.clause` opened it. -/
structure OpenClause where
  auto : Bool
  line : Nat
  words : List Draft := []
  wait : Nat := 0
  setA : Nat := 15
  setB : Nat := 15
  yld : Nat := 0
  cls : Option Nat := none
  deriving DecidableEq, Repr

/-- A clause in its place; a word that is none is a `NOP` of the assembler's, and a clause of these alone is padding. -/
structure PlacedClause where
  offset : Nat
  header : Header
  words : List (Option Draft)
  deriving DecidableEq, Repr

/-- What a data directive emits. -/
inductive Datum where
  | zeros (n : Nat)
  | int (line width : Nat) (i : Item)
  | float (line : Nat) (et : ET) (i : Item)
  deriving DecidableEq, Repr

/-- The bytes that it fills. -/
def Datum.size : Datum → Nat
  | .zeros n => n
  | .int _ w _ => w
  | .float _ et _ => et.width / 8

/-- A kernel block, with the defaults of Table 5 of R62. -/
structure Kernel where
  name : Ident
  line : Nat
  warpw : Nat := 32
  vregs : Nat := 32
  initw : Nat := 1
  minw : Nat := 1
  maxw : Nat := 1
  cls : Nat := 3
  scratch : Nat := 0
  accum : Nat := 0
  tiles : Nat := 0
  prio : Nat := 0
  attach : Option Ident := none
  elastic : Bool := false
  coop : Bool := false
  rrecord : Bool := false
  rfollow : Bool := false
  waits : List (Nat × Nat) := []
  labels : List Ident := []
  deriving DecidableEq, Repr

/-- A report: its line and its code. -/
structure Diagnostic where
  line : Nat
  code : Diag
  deriving DecidableEq, Repr

/-- The state of the first pass. -/
structure Asm where
  /-- Statements go to the text section, or to the constant section. -/
  text : Bool := true
  /-- The next header position. -/
  pos : Nat := 0
  placed : List PlacedClause := []
  cur : Option OpenClause := none
  /-- The flags of `.wait` for the next clause. -/
  wait : Nat := 0
  /-- The labels of the next clause. -/
  waiting : List Ident := []
  syms : List Sym := []
  data : List Datum := []
  dpos : Nat := 0
  kernel : Option Kernel := none
  kernels : List Kernel := []
  globals : List (Ident × Nat) := []
  externs : List Ident := []
  reports : List Diagnostic := []
  deriving DecidableEq, Repr

def Asm.report (a : Asm) (line : Nat) (d : Diag) : Asm := { a with reports := a.reports ++ [{ line, code := d }] }

/-! ## Clauses (R57–R60) -/

/-- The class that instruction words share, or 0 (R59). -/
def sharedClass (ws : List Draft) : Nat :=
  match ws.map fun w => classOf w.row.op with
  | [] => 0
  | c :: cs => if cs.all (· == c) then c else 0

/-- A clause set at the next header position. -/
def Asm.put (a : Asm) (h : Header) (ws : List (Option Draft)) : Asm :=
  { a with
    pos := a.pos + 8 * (ws.length + 1)
    placed := a.placed ++ [{ offset := a.pos, header := { h with n := BitVec.ofNat 3 ws.length }, words := ws }] }

/-- A padding clause of k words (R60). -/
def Asm.pad (a : Asm) (k : Nat) : Asm :=
  a.put { n := 0#3, wait := 0#12, setA := 15#4, setB := 15#4, yld := 0#2, cls := 1#3, zero := 0#28 } (List.replicate k none)

/-- A span of f bytes filled with padding clauses (R60). -/
def Asm.fill : Nat → Asm → Nat → Asm
  | 0, a, _ => a
  | n + 1, a, f =>
    if 64 < f then (if f - 64 = 8 then Asm.fill n (a.pad 6) (f - 56) else Asm.fill n (a.pad 7) (f - 64))
    else a.pad (f / 8 - 1)

/-- The bytes from the next header position to the end of its block. -/
def Asm.rest (a : Asm) : Nat := 4096 - a.pos % 4096

/-- A definition inside the open clause, once the clause's header has its place. -/
def Sym.placedAt (pos : Nat) (y : Sym) : Sym :=
  if y.inClause then { y with inClause := false, equ := y.equ.map fun x => (x.1, { x.2 with off := x.2.off + pos }) } else y

/-- The labels that name the clause at the next header position, and the definitions inside it. -/
def Asm.settle (a : Asm) : Asm :=
  { a with
    waiting := []
    syms := a.syms.map fun y => if a.waiting.contains y.name && y.equ.isNone && y.value.isNone then { y with value := some a.pos } else y.placedAt a.pos }

/-- The open clause placed by the first rule of R60 that applies. -/
def Asm.place (a : Asm) (o : OpenClause) : Asm :=
  let h : Header := { n := 0#3, wait := BitVec.ofNat 12 o.wait, setA := BitVec.ofNat 4 o.setA, setB := BitVec.ofNat 4 o.setB,
                      yld := BitVec.ofNat 2 o.yld, cls := BitVec.ofNat 3 (o.cls.getD (sharedClass o.words)), zero := 0#28 }
  let ws := o.words.map some
  let span := 8 * (ws.length + 1)
  let r := a.rest
  if span ≤ r ∧ r - span ≠ 8 then a.settle.put h ws
  else if span ≤ r ∧ o.auto ∧ ws.length < 7 then a.settle.put h (ws ++ [none])
  else (a.fill 64 r).settle.put h ws

/-- The open clause closed. -/
def Asm.close (a : Asm) : Asm :=
  match a.cur with
  | none => a
  | some o =>
    let a : Asm := { a with cur := none }
    let a := if o.cls.any fun c => c != sharedClass o.words then a.report o.line .w02 else a
    a.place o

/-- An explicit clause is open. -/
def Asm.explicit (a : Asm) : Bool := a.cur.any fun o => !o.auto

/-- A clause opened: it takes the flags of the `.wait`s before it. -/
def Asm.opened (a : Asm) (o : OpenClause) : Asm := { a with cur := some { o with wait := o.wait ||| a.wait }, wait := 0 }

/-- The words of a clause end in a control transfer (R30). -/
def OpenClause.ended (o : OpenClause) : Bool :=
  match o.words.getLast? with
  | some d => isTransfer (BitVec.ofNat 64 (d.row.op * 2 ^ 56))
  | none => false

/-- The flag of a clause for `flag=`: FS, and the clause with the flag taken as SETA or SETB where it has one free. -/
def OpenClause.attach (o : OpenClause) (flag : Option Nat) : Option (Nat × OpenClause) :=
  match flag with
  | none => some (0, o)
  | some k =>
    if o.setA = k then some (1, o)
    else if o.setB = k then some (2, o)
    else if !o.auto then none
    else if o.setA = 15 then some (1, { o with setA := k })
    else if o.setB = 15 then some (2, { o with setB := k })
    else none

/-- An instruction statement appended (R57, R58). In an explicit clause the statement after a control transfer is the one that E02 names (log 59). -/
def Asm.append (a : Asm) (d : Draft) (flag : Option Nat) : Except Diag Asm :=
  if a.explicit then
    match a.cur with
    | none => .ok a
    | some o =>
      if o.ended then .error .e02
      else if 7 ≤ o.words.length then .error .e03
      else
        match o.attach flag with
        | none => .error .e04
        | some (fs, o) => .ok { a with cur := some { o with words := o.words ++ [{ d with fs }] } }
  else
    let full := a.cur.any fun o => o.ended || 7 ≤ o.words.length || (o.attach flag).isNone
    let a := if full then a.close else a
    let a := if a.cur.isSome then a else a.opened { auto := true, line := d.line }
    match a.cur.bind fun o => o.attach flag with
    | none => .error .e04
    | some (fs, o) => .ok { a with cur := some { o with words := o.words ++ [{ d with fs }] } }

/-! ## Labels and places -/

/-- The open clause holds what is appended to the text section. -/
def Asm.clauseOpen (a : Asm) : Bool := a.text && a.cur.isSome

/-- The current address of a directive: in the text section the place of the next word, counted from the header of the open clause where there is one; in the constant section the next byte (log 59). -/
def Asm.here (a : Asm) : Val :=
  if a.text then
    { base := .text
      off := match a.cur with
        | some o => 8 * (o.words.length + 1)
        | none => a.pos }
  else { base := .const, off := a.dpos }

/-- A name defined: twice is an error (R51, R61). -/
def Asm.define (a : Asm) (y : Sym) : Asm :=
  if a.syms.any fun z => z.name == y.name then a.report y.line .e12 else { a with syms := a.syms ++ [y] }

/-- A label: in the text section it closes the open clause and names the next one. -/
def Asm.label (a : Asm) (line : Nat) (x : Ident) : Asm :=
  if a.explicit then a.report line .e08
  else
    let a : Asm := { a with kernel := a.kernel.map fun k => { k with labels := k.labels ++ [x] } }
    if a.text then
      let a := a.close
      let a := a.define { name := x, line, text := true }
      { a with waiting := a.waiting ++ [x] }
    else a.define { name := x, line, text := false, value := some a.dpos }

/-- The value of an expression by what the source has placed so far. -/
def Asm.eval (a : Asm) (e : Expr) : Except Diag Val :=
  e.eval (valueOf a.syms a.externs (a.syms.length + 1)) (if a.clauseOpen then .error .e01 else .ok a.here)

/-- An integer operand of a directive. -/
def Asm.int (a : Asm) (i : Item) : Except Diag Int :=
  match i.asExpr with
  | none => .error .e11
  | some e => (a.eval e).bind fun v => if v.base = .abs ∧ finalOk v.off then .ok v.off else .error .e01

/-- An integer operand within limits; past them it takes the code d. -/
def Asm.within (a : Asm) (i : Item) (lo hi : Int) (d : Diag) : Except Diag Nat :=
  (a.int i).bind fun v => if lo ≤ v ∧ v ≤ hi then .ok v.toNat else .error d

/-! ## Instruction statements (R54, R55) -/

/-- A modifier without a value. -/
def bareOf (i : Item) : Option (Ident × List Tok) :=
  match i with
  | .expr (.sym x) => if x == ['m', 'z'] || x == ['n', 's', 'a', 't'] then some (x, []) else none
  | _ => none

/-- An item as a modifier. -/
def modifierOf (i : Item) : Option (Ident × List Tok) :=
  match i with
  | .setting k v => some (k, v)
  | i => bareOf i

/-- An item may stand for an operand. -/
def Slot.fits (lane : Bool) (x : Slot) (i : Item) : Bool :=
  match x, i with
  | .s _, .reg k _ _ => k == .s || (lane && k == .v)
  | .u _, .reg k _ _ => k == .s
  | .v _ _, .reg k _ _ => k == .v
  | .m _, .reg k _ _ => k == .m
  | .st _, .reg k _ _ => k == .st
  | .t, .reg k _ _ => k == .t
  | .mem, .mem k _ _ => k == .s || (lane && k == .v)
  | .cell, .mem k _ _ => k == .s || (lane && k == .v)
  | .ch, .reg .ch _ _ => true
  | .bar, .reg .b _ _ => true
  | .imm _ _, .rel _ _ => true
  | .ch, i | .bar, i | .imm _ _, i | .imm16 _, i | .target, i | .sr, i => i.asExpr.isSome
  | _, _ => false

/-- The variant that suffixes name, and the suffixes after it. A single suffix that names both a variant and a type names the variant (log 59). -/
def Row.variant (r : Row) (sufs : List (List Char)) : Nat × List (List Char) :=
  match r.fns.find? fun x => (x.1.map String.toList).isPrefixOf sufs with
  | some x => (x.2, sufs.drop x.1.length)
  | none => (0, sufs)

/-- The type that the suffixes after the variant name. -/
def Row.typeOf (r : Row) (sufs : List (List Char)) : Except Diag Nat :=
  match sufs with
  | [] => .ok 0
  | [t] =>
    let k := typeNames.findIdx fun x => x.toList == t
    if r.typed ∧ k < 16 then .ok k else .error .e06
  | _ => .error .e06

/-- The flag that a value names. -/
def flagNamed (v : List Tok) : Except Diag Nat :=
  match v with
  | [.ident x] =>
    match regOf x with
    | some (.f, n) => if n < 12 then .ok n else .error .e01
    | _ => .error .e11
  | _ => .error .e11

/-- The flag of `flag=`. -/
def flagOfSets (sets : List (Ident × List Tok)) : Except Diag (Option Nat) :=
  match sets.find? fun x => x.1 == ['f', 'l', 'a', 'g'] with
  | none => .ok none
  | some x => (flagNamed x.2).map some

/-- An instruction statement, its name and items. -/
def draftOf (line : Nat) (name : Ident) (items : List Item) (kernel : Option Nat) : Except Diag Draft :=
  match splitDots [] name with
  | [] => .error .e11
  | base :: sufs =>
    match rowOf base with
    | none => .error .e06
    | some row =>
      let (fn, sufs) := row.variant sufs
      (row.typeOf sufs).bind fun et =>
        let args := items.takeWhile fun i => (modifierOf i).isNone
        match (items.drop args.length).mapM modifierOf with
        | none => .error .e11
        | some sets =>
          if !(sets.map (·.1)).Nodup then .error .e11
          else if sets.any fun x => holdsOp x.2 then .error .e01
          else
            match row.shapes.find? fun x => (x.1 == none || x.1 == some fn) && x.2.length == args.length &&
                (x.2.zip args).all fun y => y.1.fits row.lane y.2 with
            | none => .error .e11
            | some x => .ok { line, row, fn, et, args := x.2.zip args, sets, kernel }

/-- An instruction statement. -/
def Asm.instruction (a : Asm) (line : Nat) (name : Ident) (items : List Item) : Except Diag Asm :=
  if !a.text then .error .e10
  else
    (draftOf line name items (a.kernel.map fun _ => a.kernels.length)).bind fun d =>
      (flagOfSets d.sets).bind fun flag => a.append d flag

/-! ## Directives (R57, R58, R61, R62) -/

/-- The settings of `.clause`, with commas between them or none. -/
def settingsOf : Option (Ident × List Tok) → List Tok → Option (List (Ident × List Tok))
  | cur, [] => some (cur.toList.map fun x => (x.1, x.2.reverse))
  | cur, .mark .comma :: ts => settingsOf cur ts
  | cur, .ident k :: .mark .equals :: ts => (settingsOf (some (k, [])) ts).map fun xs => cur.toList.map (fun x => (x.1, x.2.reverse)) ++ xs
  | some (k, v), t :: ts => settingsOf (some (k, t :: v)) ts
  | none, _ :: _ => none

/-- Flags with plus signs between them, as a mask. -/
def flagSum : List Tok → Except Diag Nat
  | .ident x :: .mark .plus :: ts => (flagNamed [.ident x]).bind fun n => (flagSum ts).map fun m => m ||| 2 ^ n
  | ts => (flagNamed ts).map fun n => 2 ^ n

def yieldNamed (v : List Tok) : Except Diag Nat :=
  match v with
  | [.ident x] => if x == "prefer".toList then .ok 1 else if x == "switch".toList then .ok 2 else .error .e11
  | _ => .error .e11

/-- The hints of `cls=`, in the order of their values. -/
def hintNames : List String := ["mixed", "scalar", "vint", "vfloat", "memory", "matrix", "copy"]

/-- A setting of `.clause`. -/
def OpenClause.set (o : OpenClause) (x : Ident × List Tok) : Except Diag OpenClause :=
  if x.1 == "wait".toList then (flagSum x.2).map fun m => { o with wait := m }
  else if x.1 == "seta".toList then (flagNamed x.2).map fun n => { o with setA := n }
  else if x.1 == "setb".toList then (flagNamed x.2).map fun n => { o with setB := n }
  else if x.1 == "yld".toList then (yieldNamed x.2).map fun n => { o with yld := n }
  else if x.1 == "cls".toList then
    match x.2 with
    | [.ident y] =>
      let k := hintNames.findIdx fun z => z.toList == y
      if k < 7 then .ok { o with cls := some k } else .error .e11
    | _ => .error .e11
  else .error .e11

def OpenClause.yields (n : Nat) (o : OpenClause) : OpenClause := { o with yld := n }

/-- `.clause`. -/
def Asm.clause (a : Asm) (line : Nat) (ts : List Tok) : Except Diag Asm :=
  if !a.text || a.explicit then .error .e10
  else
    match settingsOf none ts with
    | none => .error .e11
    | some xs =>
      if !(xs.map (·.1)).Nodup then .error .e11
      else
        (xs.foldlM OpenClause.set { auto := false, line }).bind fun o =>
          let a := a.close.opened o
          if o.setA = o.setB ∧ o.setA ≠ 15 then .ok (a.report line .e04) else .ok a

/-- `.endc`. -/
def Asm.endClause (a : Asm) (line : Nat) : Except Diag Asm :=
  match a.cur with
  | some o =>
    if o.auto then .error .e10
    else if o.words == [] then .ok (Asm.report { a with cur := none } line .e03)
    else .ok a.close
  | none => .error .e10

/-- `.align` in the text section: padding clauses up to each block end in turn. -/
def Asm.padTo : Nat → Asm → Nat → Asm
  | 0, a, _ => a
  | n + 1, a, target =>
    if target ≤ a.pos then a
    else
      let stop := min target (a.pos + a.rest)
      Asm.padTo n (a.fill 64 (stop - a.pos)) target

/-- `.align`. -/
def Asm.align (a : Asm) (i : Item) : Except Diag Asm :=
  if a.text then
    (a.within i 3 63 .e01).map fun n =>
      let a := a.close
      let gap := (2 ^ n - a.pos % 2 ^ n) % 2 ^ n
      let target := a.pos + gap + (if gap = 8 then 2 ^ n else 0)
      Asm.padTo (target / 4096 + 2) a target
  else
    (a.within i 0 63 .e01).map fun n =>
      let gap := (2 ^ n - a.dpos % 2 ^ n) % 2 ^ n
      { a with data := a.data ++ [.zeros gap], dpos := a.dpos + gap }

/-- A data directive: only the constant section takes it. -/
def Asm.emit (a : Asm) (ds : List Datum) : Except Diag Asm :=
  if a.text then .error .e10
  else if ds == [] then .error .e11
  else .ok { a with data := a.data ++ ds, dpos := a.dpos + (ds.map Datum.size).sum }

/-- Flags of `.wait`, by their names. -/
def flagItem (i : Item) : Except Diag Nat :=
  match i with
  | .reg .f n _ => if n < 12 then .ok n else .error .e01
  | _ => .error .e11

/-- A channel, by its name or its number. -/
def Asm.channel (a : Asm) (i : Item) : Except Diag Nat :=
  match i with
  | .reg .ch n _ => if n < 16 then .ok n else .error .e10
  | i => a.within i 0 15 .e10

/-- The directives of Table 5 that take no operand, or one name. -/
def Asm.kernelWord (k : Kernel) (d : Ident) (items : List Item) : Except Diag Kernel :=
  match items.mapM Item.asSym with
  | some [] =>
    if d == ".elastic".toList then .ok { k with elastic := true }
    else if d == ".coop".toList then .ok { k with coop := true }
    else .error .e11
  | some [x] =>
    if d == ".class".toList then
      if x == ['M'] then .ok { k with cls := 1 }
      else if x == ['E'] then .ok { k with cls := 2 }
      else if x == ['M', 'E'] then .ok { k with cls := 3 }
      else .error .e10
    else if d == ".replay".toList then
      if k.rrecord || k.rfollow then .error .e10
      else if x == "record".toList then .ok { k with rrecord := true }
      else if x == "follow".toList then .ok { k with rfollow := true }
      else .error .e10
    else if d == ".attach".toList then .ok { k with attach := some x }
    else .error .e11
  | _ => .error .e11

/-- The directives of Table 5 that take numbers. One that is given twice sets its field anew (log 59). -/
def Asm.kernelNumber (a : Asm) (k : Kernel) (d : Ident) (items : List Item) : Except Diag Kernel :=
  match items with
  | [i] =>
    if d == ".warp".toList then
      (a.within i 16 64 .e10).bind fun n => if n = 16 ∨ n = 32 ∨ n = 64 then .ok { k with warpw := n } else .error .e10
    else if d == ".vregs".toList then (a.within i 16 64 .e10).bind fun n => if n % 16 = 0 then .ok { k with vregs := n } else .error .e10
    else if d == ".scratch".toList then (a.within i 0 (12 * 2 ^ 20) .e10).map fun n => { k with scratch := n }
    else if d == ".accum".toList then (a.within i 0 (4096 * 1024) .e10).map fun n => { k with accum := n }
    else if d == ".tiles".toList then (a.within i 0 8 .e10).map fun n => { k with tiles := n }
    else if d == ".priority".toList then (a.within i 0 3 .e10).map fun n => { k with prio := n }
    else if d == ".done".toList then (a.channel i).map fun _ => k
    else .error .e11
  | [i, j] =>
    if d == ".after".toList then
      (a.channel i).bind fun c => (a.within j 0 (2 ^ 48 - 1) .e10).bind fun n =>
        if 4 ≤ k.waits.length then .error .e10 else .ok { k with waits := k.waits ++ [(c, n)] }
    else .error .e11
  | [i, lo, hi] =>
    if d == ".warps".toList then
      (a.within i 1 64 .e10).bind fun i => (a.within lo 1 64 .e10).bind fun lo => (a.within hi 1 64 .e10).bind fun hi =>
        if lo ≤ i ∧ i ≤ hi then .ok { k with initw := i, minw := lo, maxw := hi } else .error .e10
    else .error .e11
  | _ => .error .e11

def wordDirectives : List String := [".elastic", ".coop", ".class", ".replay", ".attach"]
def numberDirectives : List String := [".warp", ".vregs", ".warps", ".scratch", ".accum", ".tiles", ".priority", ".after", ".done"]

/-- The accumulator bytes that a class of cores allows. -/
def Kernel.accumOk (k : Kernel) : Bool := k.accum ≤ (if k.cls = 1 then 4096 * 1024 else 256 * 1024)

/-- `.endk`: the label of the block's name and that of `.attach` stand in it. -/
def Asm.endKernel (a : Asm) (line : Nat) : Except Diag Asm :=
  match a.kernel with
  | none => .error .e10
  | some k =>
    if !a.text then .error .e10
    else
    let a : Asm := { a with kernel := none, kernels := a.kernels ++ [k] }
    let ok := k.accumOk && k.labels.contains k.name && k.attach.all fun x => k.labels.contains x
    .ok (if ok then a else a.report line .e10)

/-- A directive of the kernel block. -/
def Asm.kernelDirective (a : Asm) (d : Ident) (items : List Item) : Except Diag Asm :=
  match a.kernel with
  | none => .error .e10
  | some k =>
    if !a.text then .error .e10
    else
    (if (wordDirectives.map String.toList).contains d then Asm.kernelWord k d items else a.kernelNumber k d items).map fun k =>
      { a with kernel := some k }

/-- The widths of the integer data directives. -/
def dataWidths : List (String × Nat) := [(".byte", 1), (".half", 2), (".word", 4), (".dword", 8)]

/-- A directive other than `.clause`, by its name in lower case. `.yield` where no automatic clause is open has no effect (log 59). -/
def Asm.directive (a : Asm) (line : Nat) (d : Ident) (items : List Item) : Except Diag Asm :=
  if d == ".endc".toList then (if items == [] then a.endClause line else .error .e11)
  else if a.explicit then .error .e10
  else if d == ".text".toList || d == ".const".toList then
    if items == [] then .ok { a with text := d == ".text".toList } else .error .e11
  else if d == ".wait".toList then
    if !a.text then .error .e10
    else if items == [] then .error .e11
    else (items.mapM flagItem).map fun ns => let a := a.close; { a with wait := ns.foldl (fun m n => m ||| 2 ^ n) a.wait }
  else if d == ".yield".toList then
    if !a.text then .error .e10
    else
      match items.mapM Item.asSym with
      | some [x] => (yieldNamed [.ident x]).map fun n => let a : Asm := { a with cur := a.cur.map (OpenClause.yields n) }; a.close
      | _ => .error .e11
  else if d == ".align".toList then
    match items with
    | [i] => a.align i
    | _ => .error .e11
  else if d == ".space".toList then
    match items with
    | [i] => (a.within i 0 (2 ^ 63) .e01).bind fun n => a.emit [.zeros n]
    | _ => .error .e11
  else if d == ".float".toList then a.emit (items.map (.float line .fp32))
  else if d == ".bf16".toList then a.emit (items.map (.float line .bf16))
  else if d == ".equ".toList then
    match items with
    | [n, i] =>
      match n.asSym, i.asExpr with
      | some x, some e => .ok (a.define { name := x, line, text := a.text, equ := some (e, a.here), inClause := a.clauseOpen })
      | _, _ => .error .e11
    | _ => .error .e11
  else if d == ".global".toList || d == ".extern".toList then
    match items.mapM Item.asSym with
    | some [x] =>
      if d == ".global".toList then .ok { a with globals := a.globals ++ [(x, line)] }
      else .ok { a with externs := if a.externs.contains x then a.externs else a.externs ++ [x] }
    | _ => .error .e11
  else if d == ".kernel".toList then
    if !a.text || a.kernel.isSome then .error .e10
    else
      match items.mapM Item.asSym with
      | some [x] => .ok { a with kernel := some { name := x, line } }
      | _ => .error .e11
  else if d == ".endk".toList then (if items == [] then a.endKernel line else .error .e11)
  else if (wordDirectives ++ numberDirectives).any fun x => x.toList == d then a.kernelDirective d items
  else
    match dataWidths.find? fun x => x.1.toList == d with
    | some x => a.emit (items.map (.int line x.2))
    | none => .error .e11

/-! ## The first pass -/

/-- A statement of a name and tokens. -/
def Asm.named (a : Asm) (line : Nat) (name : Ident) (rest : List Tok) : Except Diag Asm :=
  let d := name.map Char.toLower
  if d == ".clause".toList then a.clause line rest
  else
    match itemsOf rest with
    | none => .error .e11
    | some items => if name.head? == some '.' then a.directive line d items else a.instruction line name items

/-- The opcode whose IMM32 an operator may stand in (Table 6 of R63). -/
def RelOp.opcode : RelOp → Nat
  | .cw | .gotcw => 0x04
  | .lo3 | .gotlo3 => 0x06
  | .abs32 => 0x02

/-- The place of IMM32 among the items of `ADRC`, `MOVI` and `ADDI`. -/
def immPlace (op : Nat) : Nat := if op = 0x06 then 2 else 1

/-- An item of a statement may be an operator: it is nothing else, and stands where Table 6 allows that operator (R63). -/
def opAllowed (name : Ident) (i : Nat) (item : List Tok) : Bool :=
  match opAt item with
  | some (o, []) =>
    (o == .abs32 && name.map Char.toLower == ".word".toList) || (rowOf name).any fun r => r.op == o.opcode && i == immPlace r.op
  | _ => false

/-- An operator stands in a position that Table 6 does not allow for it. -/
def misplacedOp (name : Ident) (rest : List Tok) : Bool :=
  (cutItems 0 [] rest).zipIdx.any fun x => holdsOp x.1 && !opAllowed name x.2 x.1

/-- The statement of a line, after its label. One that does not parse and has an operator out of its position is reported for that (R63). -/
def Asm.statement (a : Asm) (line : Nat) (name : Ident) (rest : List Tok) : Except Diag Asm :=
  match a.named line name rest with
  | .error .e11 => .error (if misplacedOp name rest then .e01 else .e11)
  | r => r

/-- A line of the source; one that is in error is reported and has no effect beyond its label's. -/
def Asm.line (a : Asm) (line : Nat) (cs : List Char) : Asm :=
  match stmtOf cs with
  | none => a.report line .e11
  | some x =>
    let a := match x.label with
      | some l => a.label line l
      | none => a
    match x.name with
    | none => a
    | some n =>
      match a.statement line n x.rest with
      | .ok a => a
      | .error d => a.report line d

/-- The source read, its last clause closed, and what is left open reported. -/
def firstPass (src : List Char) : Asm :=
  let ls := splitLines [] src
  let a := (ls.zipIdx 1).foldl (fun a x => Asm.line a x.2 x.1) {}
  let a := if a.explicit then a.report ls.length .e10 else a
  let a := if a.kernel.isSome then a.report ls.length .e10 else a
  a.close.settle

end Sys2Proof.Ghas
end

