-- ==== Sys2Proof/Machine/Objects.lean ====
section
/-! DEFINITION. Deavo code objects: their layout, the checks and relocations of a load, the GOT and its binder, and the moves of compaction (19_code_objects.md R393–R404, R406, R408, R409). System software executes these rules; what it makes of the bytes of an object is a function of them and of what it is told (log 14). -/
namespace Sys2Proof.Machine
open Sys2Proof

/-! ## Layout (R393, R394, R396, R398) -/

/-- The page of R394, R395 and R406. -/
def objectPage : Nat := 65536

/-- A section header; `odd` says that a reserved bit of it is set. -/
structure Section where
  type : Nat
  off : Nat
  size : Nat
  addr : Nat
  odd : Bool
  deriving DecidableEq, Repr

/-- A symbol entry. -/
structure Symbol where
  name : Nat
  kind : Nat
  sect : Nat
  exported : Bool
  value : Nat
  gotIdx : Nat
  size : Nat
  odd : Bool
  deriving DecidableEq, Repr

/-- A relocation entry. -/
structure Reloc where
  offset : Nat
  sym : Nat
  wix : Nat
  type : Nat
  addend : Int
  odd : Bool
  deriving DecidableEq, Repr

/-- An object: its header, its sections in order, its symbols and its relocations. -/
structure CodeObject where
  bytes : List Byte
  prefbase : Nat
  imagesize : Nat
  sections : List Section
  symbols : List Symbol
  relocs : List Reloc
  deriving DecidableEq, Repr

/-- The section types of Table 2. -/
def secText : Nat := 1
def secConst : Nat := 2
def secKdesc : Nat := 3
def secSym : Nat := 4
def secStr : Nat := 5
def secGot : Nat := 6
def secRel : Nat := 7

/-- TEXT, CONST, KDESC and GOT are loaded (Table 2). -/
def Section.loaded (x : Section) : Bool := x.type == secText || x.type == secConst || x.type == secKdesc || x.type == secGot

/-- Section header i, at 0x40 + 32i. -/
def sectionAt (bs : List Byte) (i : Nat) : Section :=
  let f (k : Nat) : Nat := headField bs (0x40 + 32 * i + k) 8
  { type := f 0 % 256, off := f 8, size := f 16, addr := f 24, odd := f 0 / 256 != 0 }

/-- The bytes of a section in the object. -/
def Section.bytes (x : Section) (bs : List Byte) : List Byte := (bs.drop x.off).take x.size

/-- Symbol entry i of the bytes of SYM. -/
def symbolAt (bs : List Byte) (i : Nat) : Symbol :=
  let w := headField bs (24 * i) 8
  let g := headField bs (24 * i + 16) 8
  { name := w % 2 ^ 32, kind := w / 2 ^ 32 % 256, sect := w / 2 ^ 40 % 256, exported := w / 2 ^ 48 % 2 = 1,
    value := headField bs (24 * i + 8) 8, gotIdx := g / 2 ^ 32, size := g % 2 ^ 32, odd := w / 2 ^ 49 != 0 }

/-- Relocation entry i of the bytes of REL. -/
def relocAt (bs : List Byte) (i : Nat) : Reloc :=
  let w := headField bs (24 * i + 8) 8
  let type := w % 256
  let wix := w / 256 % 8
  { offset := headField bs (24 * i) 8, sym := w / 2 ^ 32, wix := wix, type := type,
    addend := (BitVec.ofNat 64 (headField bs (24 * i + 16) 8)).toInt,
    odd := w / 2 ^ 11 % 2 ^ 21 != 0 || (wix != 0 && type != 3 && type != 5) }

/-- The first section of a type. -/
def sectionOf (xs : List Section) (type : Nat) : Option Section := xs.find? fun x => x.type == type

/-- The bytes of the section of a type; none of them where there is no such section. -/
def sectionBytes (bs : List Byte) (xs : List Section) (type : Nat) : List Byte :=
  match sectionOf xs type with
  | some x => x.bytes bs
  | none => []

/-- An object read from its bytes. -/
def CodeObject.ofBytes (bs : List Byte) : CodeObject :=
  let n := headField bs 6 2
  let xs := (List.range n).map (sectionAt bs)
  let syms := sectionBytes bs xs secSym
  let rels := sectionBytes bs xs secRel
  { bytes := bs, prefbase := headField bs 0x08 8, imagesize := headField bs 0x10 8, sections := xs,
    symbols := (List.range (syms.length / 24)).map (symbolAt syms), relocs := (List.range (rels.length / 24)).map (relocAt rels) }

/-- The name of a symbol: the bytes of STR from NAME to the next zero byte (R396, Table 2). -/
def CodeObject.nameOf (o : CodeObject) (y : Symbol) : List Byte :=
  ((sectionBytes o.bytes o.sections secStr).drop y.name).takeWhile fun b => b != 0#8

/-- What a load is told: the base, the exports of the objects that are loaded, and the address of the binder routine. -/
structure LoadContext where
  base : Nat
  exports : List (List Byte × Nat) := []
  binder : Nat := 0
  deriving DecidableEq, Repr

/-! ## Addresses and relocations (R396, R399) -/

/-- An import: KIND 0. -/
def Symbol.imported (y : Symbol) : Bool := y.kind == 0

/-- S of a defined symbol: B + ADDR(SECT) + VALUE. -/
def CodeObject.addressOf (o : CodeObject) (base : Nat) (y : Symbol) : Option Nat :=
  if y.imported then none else (o.sections[y.sect]?).map fun x => base + x.addr + y.value

/-- The address that the loader resolves an import to: that of the loaded export of its name. -/
def CodeObject.resolve (o : CodeObject) (c : LoadContext) (y : Symbol) : Option Nat :=
  (c.exports.find? fun e => e.1 == o.nameOf y).map (·.2)

/-- S of a defined symbol, and what an import resolves to. -/
def CodeObject.targetOf (o : CodeObject) (c : LoadContext) (y : Symbol) : Option Nat :=
  if y.imported then o.resolve c y else o.addressOf c.base y

/-- The address of a symbol's GOT entry. -/
def CodeObject.gotEntry (o : CodeObject) (base : Nat) (y : Symbol) : Option Nat :=
  if y.gotIdx = 0 then none else (sectionOf o.sections secGot).map fun x => base + x.addr + 16 * (y.gotIdx - 1)

/-- The clause-relative word of Table 5: floor((T − H) / 8), with H = P − 8 · WIX. -/
def clauseWord (base : Nat) (r : Reloc) (t : Int) : Int := (t - ((base + r.offset : Nat) - 8 * r.wix : Int)) / 8

/-- v of Table 5, where it is defined. -/
def CodeObject.relocValue (o : CodeObject) (c : LoadContext) (r : Reloc) : Option Int :=
  match o.symbols[r.sym]? with
  | none => none
  | some y =>
    let t := (o.targetOf c y).map fun s => (s : Int) + r.addend
    let d := (o.addressOf c.base y).map fun s => (s : Int) + r.addend
    let g := (o.gotEntry c.base y).map fun s => (s : Int) + r.addend
    match r.type with
    | 1 => t.map fun v => v % 2 ^ 64
    | 2 => t
    | 3 => d.map (clauseWord c.base r)
    | 4 => d.map fun v => v % 8
    | 5 => g.map (clauseWord c.base r)
    | 6 => g.map fun v => v % 8
    | _ => none

/-- "Refused when" of Table 5. -/
def CodeObject.refuses (o : CodeObject) (c : LoadContext) (r : Reloc) : Bool :=
  let outside (lo hi : Int) : Bool :=
    match o.relocValue c r with
    | some v => v < lo || hi < v
    | none => false
  match r.type with
  | 2 => outside 0 (2 ^ 32 - 1)
  | 3 => outside (-2 ^ 31) (2 ^ 31 - 1)
  | 5 => outside (-2 ^ 31) (2 ^ 31 - 1) || (o.symbols[r.sym]?).any fun y => y.gotIdx == 0
  | 6 => (o.symbols[r.sym]?).any fun y => y.gotIdx == 0
  | _ => false

/-! ## Sites -/

/-- The loaded section in which n bytes at an image offset lie. -/
def CodeObject.siteSection (o : CodeObject) (offset n : Nat) : Option Section :=
  o.sections.find? fun x => x.loaded && x.addr ≤ offset && offset + n ≤ x.addr + x.size

/-- The 8 bytes at an image offset of TEXT, as a word. -/
def CodeObject.textWord (o : CodeObject) (offset : Nat) : Option Nat :=
  match o.siteSection offset 8 with
  | some x => if x.type == secText && offset % 8 == 0 then some (headField (x.bytes o.bytes) (offset - x.addr) 8) else none
  | none => none

/-- An instruction site: 8-byte aligned in TEXT, and it holds the opcode. -/
def CodeObject.holdsOpcode (o : CodeObject) (r : Reloc) (op : Nat) : Bool :=
  match o.textWord r.offset with
  | some w => w / 2 ^ 56 == op
  | none => false

/-- A data site of n bytes: in CONST, KDESC or GOT, at a multiple of n. -/
def CodeObject.dataSite (o : CodeObject) (r : Reloc) (n : Nat) : Bool :=
  match o.siteSection r.offset n with
  | some x => x.type != secText && r.offset % n == 0
  | none => false

/-- Types 3 and 5: WIX is 1 to 7, and a clause header stands at H. -/
def CodeObject.clauseSite (o : CodeObject) (r : Reloc) : Bool :=
  1 ≤ r.wix && 8 * r.wix ≤ r.offset &&
    (match o.textWord (r.offset - 8 * r.wix) with
     | some w => w / 2 ^ 56 == 0xF8
     | none => false)

/-- The site is as Table 5 requires it. -/
def CodeObject.siteOk (o : CodeObject) (r : Reloc) : Bool :=
  match r.type with
  | 1 => o.dataSite r 8
  | 2 => o.holdsOpcode r 0x02 || o.dataSite r 4
  | 3 | 5 => o.holdsOpcode r 0x04 && o.clauseSite r
  | 4 | 6 => o.holdsOpcode r 0x06
  | _ => false

/-! ## The checks of a load (R400, Table 6) -/

/-- MAGIC, VERSION and NSECT; the types; every section within the object. -/
def CodeObject.framed (o : CodeObject) : Bool :=
  let bs := o.bytes
  let n := headField bs 6 2
  headField bs 0 4 == 0x5A57444F && headField bs 4 2 == 1 && 1 ≤ n && n ≤ 7 && 0x40 + 32 * n ≤ bs.length &&
    o.sections.all fun x => 1 ≤ x.type && x.type ≤ 7 && x.off + x.size ≤ bs.length

/-- The kernel descriptors of KDESC, 128 bytes each. -/
def CodeObject.descriptors (o : CodeObject) : List (List Byte) :=
  let bs := sectionBytes o.bytes o.sections secKdesc
  (List.range (bs.length / 128)).map fun i => (bs.drop (128 * i)).take 128

/-- A reserved field of the header, a section, a symbol, a relocation or a descriptor is nonzero. -/
def CodeObject.odd (o : CodeObject) : Bool :=
  ((o.bytes.drop 0x18).take 0x28).any (· != 0#8) || o.sections.any (·.odd) || o.symbols.any (·.odd) || o.relocs.any (·.odd) ||
    o.descriptors.any recReserved

/-- The end of a section's last page in the image. -/
def Section.pageEnd (x : Section) : Nat := (x.addr + x.size + objectPage - 1) / objectPage * objectPage

/-- R394: each type once; loaded sections on pages of their own within the image; ADDR = 0 where a section is not loaded. -/
def CodeObject.placed (o : CodeObject) : Bool :=
  (o.sections.map (·.type)).Nodup && o.prefbase % objectPage == 0 && o.imagesize % objectPage == 0 &&
    (o.sections.all fun x => if x.loaded then x.addr % objectPage == 0 && x.addr + x.size ≤ o.imagesize else x.addr == 0) &&
    o.sections.all fun x => o.sections.all fun y =>
      x == y || !x.loaded || !y.loaded || x.size = 0 || y.size = 0 || x.pageEnd ≤ y.addr || y.pageEnd ≤ x.addr

/-- R395: a base of the image. -/
def CodeObject.baseOk (o : CodeObject) (base : Nat) : Bool :=
  let last : Int := (base : Int) + o.imagesize - 1
  base % objectPage == 0 && (canonicalFault base).isNone && (canonicalFault last).isNone &&
    (va54 last < Config.windowBase || Config.windowBase + Config.windowBytes ≤ va54 base || o.imagesize = 0) &&
    (va54 base ≤ va54 last || o.imagesize = 0)

/-- A site of the wrong opcode, section or alignment, or an index out of range. -/
def CodeObject.malformed (o : CodeObject) : Bool :=
  let strs := (sectionBytes o.bytes o.sections secStr).length
  let gots := (sectionBytes o.bytes o.sections secGot).length / 16
  (o.symbols.any fun y => strs ≤ y.name || gots < y.gotIdx || (!y.imported && o.sections.length ≤ y.sect)) ||
    o.relocs.any fun r =>
      !o.siteOk r ||
        (match o.symbols[r.sym]? with
         | none => true
         | some y => y.imported && (r.type == 3 || r.type == 4))

/-- An ABS64 or ABS32 relocation on an import that names no loaded export. -/
def CodeObject.unresolved (o : CodeObject) (c : LoadContext) : Bool :=
  o.relocs.any fun r => (r.type == 1 || r.type == 2) && (o.symbols[r.sym]?).any fun y => y.imported && (o.resolve c y).isNone

/-- The load status: the first failing check of Table 6, or 0. -/
def CodeObject.status (o : CodeObject) (c : LoadContext) : Nat :=
  if !o.framed then 1
  else if o.odd then 2
  else if !o.placed || !o.baseOk c.base then 3
  else if o.relocs.any (o.refuses c) then 4
  else if o.malformed then 5
  else if o.unresolved c then 6
  else 0

/-! ## What a load makes (R397, R399, R401, R402) -/

/-- A loaded section: its address, its bytes, and the permissions RD, W, X and U of its pages (R394). -/
structure LoadedSection where
  type : Nat
  addr : Nat
  bytes : List Byte
  rd : Bool
  w : Bool
  x : Bool
  u : Bool
  deriving DecidableEq, Repr

/-- Bytes written over others at an offset. -/
def patchBytes (bs : List Byte) (off : Nat) (new : List Byte) : List Byte := bs.take off ++ new ++ bs.drop (off + new.length)

/-- The bytes that a relocation writes: eight of ABS64, and the four of an IMM32 or of 32-bit data. -/
def relocBytes (r : Reloc) (v : Int) : List Byte := if r.type = 1 then leBytes 8 (v % 2 ^ 64).toNat else leBytes 4 (v % 2 ^ 32).toNat

/-- A relocation at its site in a section that stands at an image offset. -/
def CodeObject.relocate (o : CodeObject) (c : LoadContext) (addr : Nat) (bs : List Byte) (r : Reloc) : List Byte :=
  match o.relocValue c r with
  | some v => if addr ≤ r.offset && r.offset < addr + bs.length then patchBytes bs (r.offset - addr) (relocBytes r v) else bs
  | none => bs

/-- A GOT entry at load: ADDR, SYMIDX and STATE (Table 7). -/
def gotBytes (addr idx state : Nat) : List Byte := leBytes 8 addr ++ leBytes 8 (idx * 2 ^ 32 + state)

/-- GOT entries at load: a defined symbol's is bound to it, an import's stands at the binder. -/
def CodeObject.initGot (o : CodeObject) (c : LoadContext) (bs : List Byte) : List Byte :=
  (o.symbols.zipIdx).foldl (fun acc y =>
    if y.1.gotIdx = 0 then acc
    else
      patchBytes acc (16 * (y.1.gotIdx - 1)) (match o.addressOf c.base y.1 with
        | some a => gotBytes a y.2 2
        | none => gotBytes c.binder y.2 0)) bs

/-- ENTRY and ATTACH of each descriptor become addresses. -/
def bindDescriptors (base : Nat) (bs : List Byte) : List Byte :=
  (List.range (bs.length / 128)).foldl (fun acc i =>
    [0, 8].foldl (fun acc k => patchBytes acc (128 * i + k) (leBytes 8 ((headField acc (128 * i + k) 8 + base) % 2 ^ 64))) acc) bs

/-- A section as it is loaded. -/
def CodeObject.loadSection (o : CodeObject) (c : LoadContext) (x : Section) : LoadedSection :=
  let bs := o.relocs.foldl (o.relocate c x.addr) (x.bytes o.bytes)
  let bs := if x.type = secGot then o.initGot c bs else if x.type = secKdesc then bindDescriptors c.base bs else bs
  { type := x.type, addr := c.base + x.addr, bytes := bs, rd := true, w := x.type == secGot, x := x.type == secText, u := true }

/-- An object that has been loaded: its sections, and the exports that it publishes. -/
structure Loaded where
  sections : List LoadedSection
  exports : List (List Byte × Nat)
  deriving DecidableEq, Repr

/-- A load: the status of the first failing check, or what is loaded. -/
def loadObject (bs : List Byte) (c : LoadContext) : Except Nat Loaded :=
  let o := CodeObject.ofBytes bs
  match o.status c with
  | 0 => .ok
      { sections := (o.sections.filter (·.loaded)).map (o.loadSection c)
        exports := o.symbols.filterMap fun y =>
          if y.exported && !y.imported then (o.addressOf c.base y).map fun a => (o.nameOf y, a) else none }
  | n => .error n

/-! ## The binder (R404) -/

/-- What a pass of the binder does with the word of a GOT entry. -/
inductive BinderPass where
  /-- Bound: it jumps to ADDR. -/
  | jump
  /-- Failed: `TRAP 0x0D0E`. -/
  | trap
  /-- Another warp binds it: it yields and reads again. -/
  | yield
  /-- Unbound: it compares and swaps the word for this one, and the warp whose swap succeeds binds the entry. -/
  | claim (new : Word)
  deriving DecidableEq, Repr

/-- A pass, by the STATE of the word that is read. -/
def binderPass (w : Word) : BinderPass :=
  match w.toNat % 4 with
  | 2 => .jump
  | 3 => .trap
  | 1 => .yield
  | _ => .claim (w ||| 1#64)

/-- The entry, ADDR and word, that the warp whose swap succeeded leaves, by what the symbol resolves to: 0 where no loaded export matches. -/
def bindEntry (addr w : Word) (a : Nat) : Word × Word :=
  if a = 0 then (addr, w &&& ~~~3#64 ||| 3#64) else (BitVec.ofNat 64 a, w &&& ~~~3#64 ||| 2#64)

/-- resolve(SYMIDX) of R404: the address of the loaded export whose name the symbol has, or 0. -/
def CodeObject.resolveIndex (o : CodeObject) (c : LoadContext) (i : Nat) : Nat :=
  match o.symbols[i]? with
  | some y => (o.resolve c y).getD 0
  | none => 0

/-- The code of the trap of a failed entry. -/
def binderTrap : Nat := 0x0D0E

/-- Where a warp stands in the loop of R404. -/
inductive BinderAt where
  /-- At `LDS.INT64 [s9 + 8]`. -/
  | read
  /-- At `ATOM.LD.ACQ.INT64 [s9 + 8]`. -/
  | acquire
  /-- At the `JMPR` through `LDS.INT64 [s9]`. -/
  | jump
  /-- At `CAS.ACQ.INT64 [s9 + 8], e, e | 1`, with the word that was read. -/
  | swap (w : Word)
  /-- It has won: it resolves the symbol, and writes ADDR where there is one. -/
  | won (w : Word)
  /-- At `ATOM.ST.REL.INT64 [s9 + 8]` of a word. -/
  | publish (w : Word)
  /-- At `YIELD`. -/
  | yield
  /-- It has jumped to an address, with `s63` unchanged. -/
  | called (target : Word)
  /-- It has executed `TRAP` with a code. -/
  | trapped (code : Nat)
  deriving DecidableEq, Repr

/-- One instruction of the loop, on the entry, ADDR and word, as it stands then: where the warp stands after it, and the entry. -/
def CodeObject.binderStep (o : CodeObject) (c : LoadContext) (p : BinderAt) (addr w : Word) : BinderAt × Word × Word :=
  match p with
  | .read =>
    match binderPass w with
    | .jump => (.acquire, addr, w)
    | .trap => (.trapped binderTrap, addr, w)
    | .yield => (.yield, addr, w)
    | .claim _ => (.swap w, addr, w)
  | .acquire => (.jump, addr, w)
  | .jump => (.called addr, addr, w)
  | .swap e => if w = e &&& ~~~3#64 then (.won e, addr, e &&& ~~~3#64 ||| 1#64) else (.read, addr, w)
  | .won e =>
    let r := bindEntry addr e (o.resolveIndex c (e.toNat / 2 ^ 32))
    (.publish r.2, r.1, w)
  | .publish v => (.read, addr, v)
  | .yield => (.read, addr, w)
  | .called t => (.called t, addr, w)
  | .trapped k => (.trapped k, addr, w)

/-- The loop of a warp that no other disturbs: so many instructions of it. -/
def CodeObject.binderRun (o : CodeObject) (c : LoadContext) : Nat → BinderAt × Word × Word → BinderAt × Word × Word
  | 0, x => x
  | n + 1, x => o.binderRun c n (o.binderStep c x.1 x.2.1 x.2.2)

/-! ## Compaction (R406, R408, R409) -/

/-- A waymark entry. -/
structure Waymark where
  old : Nat
  new : Nat
  len : Nat
  deriving DecidableEq, Repr

/-- An address through a table: by the lowest-numbered matching entry, once. -/
def throughWaymarks (xs : List Waymark) (a : Nat) : Option Nat :=
  (xs.find? fun x => x.old ≤ a && a < x.old + x.len).map fun x => x.new + (a - x.old)

/-- Whether an object may move to a base: it is a load base, and every ABS32 of the object fits there. -/
def CodeObject.mayMove (o : CodeObject) (c : LoadContext) : Bool :=
  o.baseOk c.base && o.relocs.all fun r => r.type != 2 || !o.refuses c r

/-- An object's sections at a new base: copied as they stand, with the ABS64 and ABS32 relocations applied again. -/
def CodeObject.moveSections (o : CodeObject) (c : LoadContext) (old : Nat) (xs : List LoadedSection) : List LoadedSection :=
  xs.map fun x =>
    { x with
      addr := c.base + (x.addr - old)
      bytes := (o.relocs.filter fun r => r.type == 1 || r.type == 2).foldl (o.relocate c (x.addr - old)) x.bytes }

/-- The GOT of another object: each ADDR that maps through the move is rewritten. -/
def rewriteGot (m : Waymark) (bs : List Byte) : List Byte :=
  (List.range (bs.length / 16)).foldl (fun acc i =>
    match throughWaymarks [m] (headField acc (16 * i) 8) with
    | some a => patchBytes acc (16 * i) (leBytes 8 a)
    | none => acc) bs

/-- TRAPVEC after a move. -/
def moveTrapvec (m : Waymark) (v : Word) : Word :=
  match throughWaymarks [m] v.toNat with
  | some a => BitVec.ofNat 64 a
  | none => v

/-- The waymark table with the entry of a move, every entry of it final: those whose NEW lies in the moved range point at its new place. -/
def addWaymark (m : Waymark) (xs : List Waymark) : List Waymark :=
  (xs.map fun x =>
    match throughWaymarks [m] x.new with
    | some a => { x with new := a }
    | none => x) ++ [m]

/-- What a move leaves: the object at its new base, its old range as it stays mapped, the GOTs of the other objects, TRAPVEC, and the waymark table. -/
structure Moved where
  sections : List LoadedSection
  old : List LoadedSection
  gots : List (List Byte)
  trapvec : Word
  table : List Waymark
  deriving DecidableEq, Repr

/-- R408: the move of an object from a base to another. The check of every ABS32 comes first, and a failing one abandons the move before any change; the old range is left mapped with RD = 1, W = 0 and X = 0. -/
def CodeObject.move (o : CodeObject) (c : LoadContext) (old : Nat) (xs : List LoadedSection) (gots : List (List Byte)) (trapvec : Word) (table : List Waymark) :
    Option Moved :=
  if o.mayMove c then
    let m : Waymark := { old, new := c.base, len := o.imagesize }
    some
      { sections := o.moveSections c old xs
        old := xs.map fun x => { x with rd := true, w := false, x := false }
        gots := gots.map (rewriteGot m), trapvec := moveTrapvec m trapvec, table := addWaymark m table }
  else none

/-- The 32 bytes of an entry. -/
def Waymark.bytes (m : Waymark) : List Byte := leBytes 8 m.old ++ leBytes 8 m.new ++ leBytes 8 m.len ++ leBytes 8 0

/-- What the handler of a stale address does (R409): when FAULTVA maps, the trap addresses name its new place, so that `ERET` starts the clause there. -/
def redirectStale (xs : List Waymark) (w : Warp) : Option Warp :=
  (throughWaymarks xs w.faultva.toNat).map fun a =>
    let v := BitVec.ofNat 64 a
    { w with trappc := v, trapnpc := v, traphdr := v }

end Sys2Proof.Machine
end

