-- ==== Sys2Proof/Machine/Emit.lean ====
section
/-! DEFINITION. The second pass of the assembler: the words of the statements, their relocations, the checks along straight-line paths, and the object that is written (03_assembly_language.md R54–R56, R60–R64; 19_code_objects.md R393–R398). -/
namespace Sys2Proof.Ghas
open Sys2Proof Sys2Proof.Machine

/-! ## Words (R54–R56, R63) -/

/-- A relocation that is left to the loader: where it stands in its section, what it names, and its addend. -/
structure Fixup where
  text : Bool
  site : Nat
  sym : Ident
  wix : Nat := 0
  type : Nat
  addend : Int := 0
  deriving DecidableEq, Repr

/-- What the second pass knows: the values of names, and the offsets of the clauses that are no padding. -/
structure Names where
  syms : List Sym
  externs : List Ident
  heads : List Nat
  deriving DecidableEq, Repr

def Names.look (n : Names) (x : Ident) : Except Diag Val := valueOf n.syms n.externs (n.syms.length + 1) x

/-- The offset of the label that a value was reached by; an import's is 0. -/
def Names.labelAt (n : Names) (x : Ident) : Int :=
  match n.syms.find? fun y => y.name == x with
  | some y => (y.value.getD 0 : Nat)
  | none => 0

/-- The operand fields of a word; `rm` is RM, or bits [15:12] of IMM16. -/
structure Fields where
  ofParts ::
  fs : Nat := 0
  mk : Nat := 0
  mz : Nat := 0
  d : Nat := 0
  a : Nat := 0
  b : Nat := 0
  c : Nat := 0
  fn : Nat := 0
  et : Nat := 0
  rm : Nat := 0
  ch : Nat := 0
  ts : Nat := 0
  off : Int := 0
  imm : Int := 0
  imm16 : Nat := 0
  deriving DecidableEq, Repr

def Fields.put (f : Fields) (x : Field) (n : Nat) : Fields :=
  match x with
  | .d => { f with d := n }
  | .a => { f with a := n }
  | .b => { f with b := n }
  | .c => { f with c := n }

/-- The word of a row with its fields (R25, R26). -/
def Row.word (r : Row) (f : Fields) : Word :=
  let low : BitVec 32 :=
    match r.form with
    | .r => ({ c := BitVec.ofNat 6 f.c, fn := BitVec.ofNat 6 f.fn, et := BitVec.ofNat 4 f.et, rm := BitVec.ofNat 4 f.rm } : RLow).toBits
    | .m => ({ c := BitVec.ofNat 6 f.c, et := BitVec.ofNat 4 f.et, ch := BitVec.ofNat 4 f.ch, off := BitVec.ofInt 16 f.off } : MLow).toBits
    | .t => ({ c := BitVec.ofNat 6 f.c, ts := BitVec.ofNat 3 f.ts, fn := BitVec.ofNat 3 f.fn, et := BitVec.ofNat 4 f.et,
               imm := BitVec.ofNat 16 (f.imm16 + f.rm * 2 ^ 12) } : TLow).toBits
    | .i | .b => BitVec.ofInt 32 f.imm
  ({ op := BitVec.ofNat 8 r.op, fs := BitVec.ofNat 2 f.fs, mk := BitVec.ofNat 3 f.mk, mz := BitVec.ofNat 1 f.mz,
     d := BitVec.ofNat 6 f.d, a := BitVec.ofNat 6 f.a, b := BitVec.ofNat 6 f.b, low := low } : Head).toBits

/-- The variant's code in its place, and the type. -/
def Draft.fields (x : Draft) : Fields :=
  match x.row.fnIn with
  | .fn => { fn := x.fn, et := x.et }
  | .b => { b := x.fn, et := x.et }
  | .d => { d := x.fn, et := x.et }

/-- Where a word stands: its own offset in the text section, its clause's header, and its index in the clause. -/
structure Spot where
  here : Nat
  header : Nat
  wix : Nat
  deriving DecidableEq, Repr

/-- An expression's integer, which does not depend on where anything is placed. -/
def Names.integer (n : Names) (here : Val) (e : Expr) : Except Diag Int :=
  (e.eval n.look (.ok here)).bind fun v => if v.base = .abs ∧ finalOk v.off then .ok v.off else .error .e01

/-- A small number: of a register of a kind, or of an expression. -/
def Names.small (n : Names) (here : Val) (k : RegKind) (hi : Int) (i : Item) : Except Diag Nat :=
  match i with
  | .reg k' r _ =>
    if k' = k ∧ r < k.limit then .ok r
    else
      match i.asExpr with
      | some e => (n.integer here e).bind fun v => if 0 ≤ v ∧ v ≤ hi then .ok v.toNat else .error .e01
      | none => .error .e01
  | i =>
    match i.asExpr with
    | some e => (n.integer here e).bind fun v => if 0 ≤ v ∧ v ≤ hi then .ok v.toNat else .error .e01
    | none => .error .e01

/-- The relocation of an operator. -/
def RelOp.type : RelOp → Nat
  | .abs32 => 2
  | .cw => 3
  | .lo3 => 4
  | .gotcw => 5
  | .gotlo3 => 6

/-- A relocation against the symbol that a value was reached by. -/
def Names.fixup (n : Names) (text : Bool) (site wix type : Nat) (v : Val) : Except Diag Fixup :=
  match v.via with
  | none => .error .e01
  | some x =>
    let addend := v.off - n.labelAt x
    if finalOk addend then .ok { text, site, sym := x, wix, type, addend } else .error .e01

/-- An operator in IMM32: resolved where its symbol is in the same section and the value is known, else left to the loader; on a name that `.equ` gives an integer `%lo3` and `%abs32` are resolved, and the others are out of range (log 59). -/
def Names.operator (n : Names) (p : Spot) (op : Nat) (o : RelOp) (x : Ident) : Except Diag (Int × List Fixup) :=
  if o.opcode ≠ op then .error .e01
  else
    (n.look x).bind fun v =>
      let wix := if o = .cw ∨ o = .gotcw then p.wix else 0
      let left : Except Diag (Int × List Fixup) := (n.fixup true p.here wix o.type v).map fun f => (0, [f])
      match o, v.base with
      | .cw, .text =>
        let w := (v.off - p.header).fdiv 8
        if -2 ^ 31 ≤ w ∧ w < 2 ^ 31 then .ok (w, []) else .error .e01
      | .lo3, .text => .ok (v.off % 8, [])
      | .abs32, .abs => if 0 ≤ v.off ∧ v.off < 2 ^ 32 then .ok (v.off, []) else .error .e01
      | .lo3, .abs => .ok (v.off % 8, [])
      | .cw, .imported _ | .lo3, .imported _ => .error .e01
      | .cw, .const | .lo3, .const => left
      | .abs32, .text | .abs32, .const | .abs32, .imported _ => left
      | .gotcw, .text | .gotcw, .const | .gotcw, .imported _ => left
      | .gotlo3, .text | .gotlo3, .const | .gotlo3, .imported _ => left
      | .cw, .abs | .gotcw, .abs | .gotlo3, .abs => .error .e01

/-- DISP: the target is a label at a clause header (R56). -/
def Names.disp (n : Names) (p : Spot) (here : Val) (e : Expr) : Except Diag Int :=
  (e.eval n.look (.ok here)).bind fun v =>
    let named := n.syms.any fun y => y.text && y.equ.isNone && y.value.any fun o => (o : Int) == v.off
    if v.base = .text ∧ named ∧ (n.heads.any fun h => (h : Int) == v.off) then
      let w := (v.off - p.header).fdiv 8
      if -2 ^ 31 ≤ w ∧ w < 2 ^ 31 then .ok w else .error .e01
    else .error .e08

/-- The number of a system register, by its name or as a number (R335). -/
def Names.sysreg (n : Names) (here : Val) (i : Item) : Except Diag Nat :=
  match i.asExpr with
  | some (.sym x) =>
    match sysregNames.find? fun y => y.1 == x with
    | some y => .ok y.2
    | none => n.small here .s 0xFFF i
  | _ => n.small here .s 0xFFF i

/-- An operand put into its field; the current address is that of the instruction's own word (log 59). -/
def Names.operand (n : Names) (p : Spot) (r : Row) (f : Fields) (x : Slot) (i : Item) : Except Diag (Fields × List Fixup) :=
  let here : Val := { base := .text, off := p.here }
  match x, i with
  | .s g, .reg k m _ | .u g, .reg k m _ | .v g _, .reg k m _ | .m g, .reg k m _ | .st g, .reg k m _ => if m < k.limit then .ok (f.put g m, []) else .error .e01
  | .t, .reg k m _ => if m < k.limit then .ok ({ f with ts := m }, []) else .error .e01
  | .mem, .mem k m e =>
    if k.limit ≤ m then .error .e01
    else if k = .v ∧ m % 2 ≠ 0 then .error .e07
    else
      match e with
      | none => .ok ({ f with a := m }, [])
      | some e => (n.integer here e).bind fun v => if -32768 ≤ v ∧ v ≤ 32767 then .ok ({ f with a := m, off := v }, []) else .error .e01
  | .cell, .mem k m e =>
    if k.limit ≤ m ∨ e.isSome then .error .e01 else if k = .v ∧ m % 2 ≠ 0 then .error .e07 else .ok ({ f with a := m }, [])
  | .imm _ _, .rel o s => (n.operator p r.op o s).map fun v => ({ f with imm := v.1 }, v.2)
  | .imm lo hi, i =>
    match i.asExpr with
    | some e => (n.integer here e).bind fun v => if lo ≤ v ∧ v ≤ hi then .ok ({ f with imm := v }, []) else .error .e01
    | none => .error .e11
  | .target, i =>
    match i.asExpr with
    | some e => (n.disp p here e).map fun v => ({ f with imm := v }, [])
    | none => .error .e11
  | .imm16 hi, i => (n.small here .s hi i).map fun v => ({ f with imm16 := v }, [])
  | .ch, i => (n.small here .ch 15 i).map fun v => ({ f with imm16 := v }, [])
  | .bar, i => (n.small here .b 15 i).map fun v => ({ f with imm := v }, [])
  | .sr, i => (n.sysreg here i).map fun v => ({ f with imm := v }, [])
  | _, _ => .error .e11

/-- The operands of a statement put into their fields, one after the other. -/
def Names.operands (n : Names) (p : Spot) (r : Row) : List (Slot × Item) → Fields → Except Diag (Fields × List Fixup)
  | [], f => .ok (f, [])
  | x :: xs, f => (n.operand p r f x.1 x.2).bind fun y => (n.operands p r xs y.1).map fun z => (z.1, y.2 ++ z.2)

/-! ## What an instruction takes (R27, R34, R47, R55): read off the decoder -/

/-- The fields of a word hold listed values, and zero where they must (condition 11 of R32). -/
def fieldsOk (w : Word) : Bool := (parse (Head.ofBits w)).any fun p => p.operands && (operandChecks p.instr).operand

/-- Its type is accepted. -/
def typeOk (w : Word) : Bool := (parse (Head.ofBits w)).any fun p => p.typed && (operandChecks p.instr).elementType

/-- Its fixed groups are aligned. -/
def groupsOk (w : Word) : Bool := (parse (Head.ofBits w)).any fun p => p.small && (operandChecks p.instr).register

/-- It is flag-capable, for a word whose FS is not 0. -/
def flagOk (w : Word) : Bool :=
  (parse (Head.ofBits w)).any fun p => flagAllowed { setA := true, setB := true } p.flagged 1#2 && (operandChecks p.instr).flag

/-- A rounding mode by its name. -/
def modeNames : List (List Char × Nat) := [(['R', 'N', 'E'], 0), (['R', 'Z'], 1), (['R', 'U'], 2), (['R', 'D'], 3)]

/-- A vector instruction (03 R55): one with vector operands that chapters 06 to 11 and 14 give elements, so that MK and MZ may be set on it, whether or not its word may hold them (log 59). -/
def isVectorOp (op : Nat) : Bool :=
  (0x50 ≤ op && op ≤ 0x68) || (0x70 ≤ op && op ≤ 0x82) || (0x90 ≤ op && op ≤ 0x9C) || (0xA2 ≤ op && op ≤ 0xA7) || op == 0xA9 || op == 0xAA ||
    op == 0xB1 || op == 0xB3 || (0xC9 ≤ op && op ≤ 0xCB)

/-- A converting instruction: `VCVT`, `VQNT`, `VDQNT`, and `TSLV`, `TSVL` and `TSTR` (14_matrix_instructions.md R306). -/
def converts (op : Nat) : Bool := op == 0x7F || op == 0x80 || op == 0x81 || op == 0xC9 || op == 0xCA || op == 0xCB

/-- The form has RM, or carries it in IMM16. -/
def Form.rounds : Form → Bool
  | .r | .t => true
  | .i | .m | .b => false

/-- The types and block lengths that `TSET` takes by name (R283). -/
def tileSetting (f : Fields) (k : Ident) (v : List Tok) : Except Diag Fields :=
  match k, v with
  | ['a'], [.ident x] =>
    let t := typeNames.findIdx fun y => y.toList == x
    if t < 16 then .ok { f with imm16 := f.imm16 ||| t } else .error .e06
  | ['b'], [.ident x] =>
    let t := typeNames.findIdx fun y => y.toList == x
    if t < 16 then .ok { f with imm16 := f.imm16 ||| t * 2 ^ 4 } else .error .e06
  | ['b', 'l', 'k'], [.num x] =>
    let t := [8, 16, 32, 64, 128].findIdx (· == x)
    if t < 5 then .ok { f with imm16 := f.imm16 ||| (t + 1) * 2 ^ 8 } else .error .e01
  | _, _ => .error .e11

/-- A modifier set in the fields of a word (Table 2 of R55). A converting instruction rounds and takes `rm=` and `nsat`, also where its word may not hold them; `ch=` on a word that is not of M form takes E05, for which Table 7 names no code (log 59). -/
def Names.modify (n : Names) (here : Val) (x : Draft) (f : Fields) (s : Ident × List Tok) : Except Diag Fields :=
  let allowed (g : Fields) (h : Fields) : Except Diag Fields := if fieldsOk (x.row.word g) then .ok h else .error .e05
  let rounded (g : Fields) (h : Fields) : Except Diag Fields := if converts x.row.op then .ok h else allowed g h
  let masked (g : Fields) (h : Fields) : Except Diag Fields := if isVectorOp x.row.op then .ok h else allowed g h
  if s.1 == "flag".toList then if flagOk (x.row.word { f with fs := 1 }) then .ok { f with fs := x.fs } else .error .e05
  else if s.1 == "mask".toList then
    match s.2 with
    | [.ident y] =>
      match regOf y with
      | some (.m, k) => if 1 ≤ k ∧ k ≤ 7 then masked { f with mk := 1 } { f with mk := k } else .error .e01
      | _ => .error .e11
    | _ => .error .e11
  else if s.1 == "mz".toList then if s.2 == [] then masked { f with mz := 1 } { f with mz := 1 } else .error .e11
  else if s.1 == "rm".toList then
    match s.2 with
    | [.ident y] =>
      match modeNames.find? fun z => z.1 == y with
      | some z => if x.row.form.rounds then rounded { f with rm := 1 } { f with rm := f.rm ||| z.2 } else .error .e05
      | none => .error .e11
    | _ => .error .e11
  else if s.1 == "nsat".toList then
    if s.2 != [] then .error .e11
    else if x.row.form.rounds then rounded { f with rm := 4 } { f with rm := f.rm ||| 4 }
    else .error .e05
  else if s.1 == "ch".toList then
    match exprOf s.2 with
    | some e =>
      if x.row.form ≠ .m then .error .e05
      else (n.integer here e).bind fun v => if 0 ≤ v ∧ v ≤ 15 then .ok { f with ch := v.toNat } else .error .e01
    | none => .error .e11
  else if x.row.op = 0xC2 ∧ x.args.length = 3 then tileSetting f s.1 s.2
  else .error .e11

/-- The statement has an immediate that its instruction gives fields of its own. -/
def Draft.hasImm (x : Draft) : Bool :=
  x.row.op = 0xC2 || x.args.any fun y =>
    match y.1 with
    | .imm _ _ | .imm16 _ => true
    | .s _ | .u _ | .v _ _ | .m _ | .st _ | .t | .ch | .bar | .mem | .cell | .target | .sr => false

/-- The word of a statement, and its relocations. -/
def Names.assemble (n : Names) (p : Spot) (x : Draft) : Except Diag (Word × List Fixup) :=
  (n.operands p x.row x.args x.fields).bind fun y =>
    let named := x.sets.filter fun s => x.row.op == 0xC2 && s.1 != "flag".toList
    let mods := x.sets.filter fun s => !named.contains s
    let here : Val := { base := .text, off := p.here }
    (named.foldlM (n.modify here x) y.1).bind fun f =>
      if !fieldsOk (x.row.word f) then .error (if x.hasImm then .e01 else .e06)
      else if !typeOk (x.row.word f) then .error .e06
      else if !groupsOk (x.row.word f) then .error .e07
      else (mods.foldlM (n.modify here x) f).map fun f => (x.row.word f, y.2)

/-! ## Data (R61, R63) -/

/-- A decimal literal, exactly or with a last bit that stands for what lies below. -/
def decimalValue (neg : Bool) (m : Nat) (e : Int) : Exact :=
  if m = 0 then .fin neg 0 0
  else if 0 ≤ e then .fin neg (m * 10 ^ e.toNat) 0
  else
    match quotient false m 0 false (10 ^ (-e).toNat) 0 with
    | .fin _ q k => .fin neg q k
    | x => x

/-- The bytes of a datum, and its relocation. -/
def Names.datum (n : Names) (at_ : Nat) (x : Datum) : Except Diag (List Byte × List Fixup) :=
  let here : Val := { base := .const, off := at_ }
  match x with
  | .zeros k => .ok (List.replicate k 0#8, [])
  | .float _ et i =>
    let bytes (v : Exact) : List Byte := leBytes (et.width / 8) (rnd (fmtOf et) .rne v).bits.toNat
    match i with
    | .real neg m e => .ok (bytes (decimalValue neg m e), [])
    | .rel _ _ => .error .e01
    | i =>
      match i.asExpr with
      | some e => (n.integer here e).map fun v => (bytes (Exact.ofInt v), [])
      | none => .error .e11
  | .int _ w i =>
    let fits (v : Int) : Except Diag (List Byte × List Fixup) :=
      if -2 ^ (8 * w - 1) ≤ v ∧ v < 2 ^ (8 * w) then .ok (leBytes w (v % 2 ^ (8 * w)).toNat, []) else .error .e01
    let zero (f : Fixup) : List Byte × List Fixup := (List.replicate w 0#8, [f])
    match i with
    | .rel o s =>
      if o ≠ .abs32 ∨ w ≠ 4 then .error .e01
      else (n.look s).bind fun v => if v.base = .abs then (if v.off < 0 then .error .e01 else fits v.off) else (n.fixup false at_ 0 2 v).map zero
    | i =>
      match i.asExpr with
      | none => .error .e11
      | some e =>
        (e.eval n.look (.ok here)).bind fun v =>
          if !finalOk v.off then .error .e01 else if v.base = .abs then fits v.off else if w = 8 then (n.fixup false at_ 0 1 v).map zero else .error .e01

def Datum.line : Datum → Nat
  | .zeros _ => 0
  | .int l _ _ => l
  | .float l _ _ => l

/-! ## Straight-line paths (R36, R37, R42, R64) -/

/-- The strip that its last `SETVL` granted: the width of its type, its group, and its block length; and the streams defined before, each with the width of its type. -/
structure StripOf where
  width : Nat := 32
  group : Nat := 1
  block : Nat := 0
  streams : List (Nat × Nat) := []
  deriving DecidableEq, Repr

/-- What a straight-line path has pending, each destination with its flag, and its strip. -/
structure Path where
  pending : List (RegKind × Nat × Nat) := []
  strip : StripOf := {}
  deriving DecidableEq, Repr

/-- The registers of a group of elements of width e in a strip. -/
def groupIn (strip : StripOf) (e : Nat) : Nat := max 1 (strip.group * e / strip.width)

/-- The registers of the scales of a strip's blocks. -/
def scaleRegs (strip : StripOf) : Nat := max 1 (strip.group * 16 / (strip.width * strip.block))

/-- The stream register that a statement names first. -/
def Draft.stream (x : Draft) : Option Nat :=
  x.args.findSome? fun y =>
    match y with
    | (.st _, .reg _ n _) => some n
    | _ => none

/-- The registers of elements of a stream (09_loads_stores_streams.md R204); one where the path does not define it. -/
def Draft.streamRegs (x : Draft) (strip : StripOf) : Nat :=
  match x.stream.bind fun n => strip.streams.lookup n with
  | some e => groupIn strip e
  | none => 1

/-- The registers that a vector operand names. -/
def Draft.count (x : Draft) (strip : StripOf) (w : Width) : Nat :=
  match w with
  | .et => groupIn strip (ET.ofCode (BitVec.ofNat 4 x.et)).width
  | .src => groupIn strip (ET.ofCode (BitVec.ofNat 4 x.fn)).width
  | .bits e => groupIn strip e
  | .strip => strip.group
  | .stream => x.streamRegs strip
  | .scales => scaleRegs strip
  | .double => 2 * groupIn strip (ET.ofCode (BitVec.ofNat 4 x.et)).width
  | .regs n => n

/-- The registers of an operand, from the first. -/
def Draft.regs (x : Draft) (strip : StripOf) (y : Slot × Item) : List (RegKind × Nat) :=
  match y.1, y.2 with
  | .v _ w, .reg _ n _ => (List.range (x.count strip w)).map fun i => (.v, n + i)
  | .s _, .reg k n _ | .u _, .reg k n _ => [(k, n)]
  | .mem, .mem .v n _ | .cell, .mem .v n _ => [(.v, n), (.v, n + 1)]
  | .mem, .mem k n _ | .cell, .mem k n _ => [(k, n)]
  | _, _ => []

/-- An operand is the destination. -/
def Slot.isDest : Slot → Bool
  | .s .d | .v .d _ => true
  | _ => false

/-- The scales that `VQNT` writes stand in B. -/
def Draft.isWritten (x : Draft) (y : Slot × Item) : Bool := y.1.isDest || (x.row.op == 0x80 && y.1 == .v .b .scales)

/-- The registers that a statement reads; `RET` reads the link. -/
def Draft.reads (x : Draft) (strip : StripOf) : List (RegKind × Nat) :=
  (x.args.filter fun y => !x.isWritten y).flatMap (x.regs strip) ++ if x.row.op = 0x26 then [(.s, 63)] else []

/-- The destinations that a flag-bearing statement holds pending: none of a copy, of a matrix word, or of `s0`. -/
def Draft.dests (x : Draft) (strip : StripOf) : List (RegKind × Nat) :=
  if 0xB8 ≤ x.row.op then [] else ((x.args.filter fun y => y.1.isDest).flatMap (x.regs strip)).filter (· != (.s, 0))

/-- Every group is aligned to its size, of at most eight registers, or sixteen for the pair of `VCAS`, and lies below R. -/
def Draft.grouped (x : Draft) (strip : StripOf) (r : Nat) : Bool :=
  x.args.all fun y =>
    match y.1, y.2 with
    | .v _ w, .reg _ n _ =>
      let g := x.count strip w
      g ≤ (if w = .double then 16 else 8) && n % g == 0 && n + g ≤ r
    | .s _, .reg .v n _ => n < r
    | .mem, .mem .v n _ | .cell, .mem .v n _ => n + 2 ≤ r
    | _, _ => true

/-- The words before which every pending result commits: the pre-emption points (R35) `SETVL`, `TSET`, `BARWAIT`, `CWAIT` and `YIELD`, and `VFORK` (R104). -/
def commitsAll (op : Nat) : Bool := op == 0x39 || op == 0x40 || op == 0xC2 || op == 0x35 || op == 0xBC || op == 0x3C

/-- After these no straight-line path goes on: `BR`, `CALL`, `CALLR`, `RET`, `JMPR`, `TLEAVE`, `LJOIN`, `TRAP`, `ERET` and `HALT`. -/
def endsPath (op : Nat) : Bool := op == 0x20 || (0x24 ≤ op && op ≤ 0x27) || op == 0x32 || op == 0x3A || op == 0xD0 || op == 0xD1 || op == 0xD8

/-- What the path reports take from the rest of the source: the registers of a statement's block, and the immediate of a `SETVL` or `STRDEF`. -/
structure PathEnv where
  regs : Draft → Nat
  desc : Draft → Option Nat

/-- The strip that an immediate of `SETVL` names. -/
def StripOf.ofDesc (v : Nat) : StripOf :=
  { width := (ET.ofCode (BitVec.ofNat 4 v)).width, group := 2 ^ (v / 128 % 4), block := blockLen (v / 16 % 8) }

/-- The strip and the streams after a statement: `SETVL` grants a strip, and `STRDEF` defines a stream (09_loads_stores_streams.md R202). -/
def StripOf.after (env : PathEnv) (s : StripOf) (x : Draft) : StripOf :=
  if x.row.op == 0x40 then
    match env.desc x with
    | some v => { StripOf.ofDesc v with streams := s.streams }
    | none => s
  else if x.row.op == 0xA8 then
    match x.stream with
    | some n =>
      let rest := s.streams.filter fun y => y.1 != n
      { s with streams := ((env.desc x).map fun v => (n, (ET.ofCode (BitVec.ofNat 4 v)).width)).toList ++ rest }
    | none => s
  else s

/-- A statement on a path, in a clause of a header: what it is reported for, and the path after it. -/
def Path.step (env : PathEnv) (p : Path) (h : Header) (x : Draft) : Path × List Diagnostic :=
  let p : Path := if commitsAll x.row.op then { p with pending := [] } else p
  let say (b : Bool) (d : Diag) : List Diagnostic := if b then [{ line := x.line, code := d }] else []
  let stale := (x.reads p.strip).any fun y => p.pending.any fun z => z.1 == y.1 && z.2.1 == y.2
  let flag := if x.fs = 1 then h.setA.toNat else h.setB.toNat
  let ds := if x.fs = 0 then [] else (x.dests p.strip).map fun y => (y.1, y.2, flag)
  let reports := say (!x.grouped p.strip (env.regs x)) .e07 ++ say stale .w01 ++ say (ds != [] && 16 < p.pending.length + ds.length) .e09
  (if endsPath x.row.op then {} else { pending := p.pending ++ ds, strip := p.strip.after env x }, reports)

/-- A clause on a path: its header commits what it names, and its statements follow. -/
def Path.clause (env : PathEnv) (p : Path) (c : PlacedClause) : Path × List Diagnostic :=
  let named (f : Nat) : Bool := c.header.wait.getLsbD f || c.header.setA.toNat == f || c.header.setB.toNat == f
  (c.words.filterMap id).foldl (fun acc x =>
    let (p, ds) := acc.1.step env c.header x
    (p, acc.2 ++ ds)) ({ p with pending := p.pending.filter fun z => !named z.2.2 }, [])

/-- The reports of the text section's straight-line paths. -/
def pathReports (env : PathEnv) (cs : List PlacedClause) : List Diagnostic :=
  (cs.foldl (fun acc c =>
    let (p, ds) := Path.clause env acc.1 c
    (p, acc.2 ++ ds)) (({} : Path), [])).2

/-! ## The object (R393, R394, R396–R398) -/

/-- A symbol entry before its section's number is known. -/
structure Entry where
  name : Ident
  kind : Nat
  sect : Nat
  exported : Bool
  value : Nat
  size : Nat
  deriving DecidableEq, Repr

/-- The labels, in the order in which the source defines them; `.equ` makes no entry. -/
def Asm.labels (a : Asm) : List Sym := a.syms.filter fun y => y.equ.isNone

/-- The bytes from a label to the next label of its section, or to the section's end. -/
def Asm.sizeOf (a : Asm) (y : Sym) : Nat :=
  let v := y.value.getD 0
  let stop := if y.text then a.pos else a.dpos
  (a.labels.foldl (fun m z => if z.text == y.text && v < z.value.getD 0 then min m (z.value.getD 0) else m) stop) - v

/-- The entries of SYM: every label, then every import. A kernel's points into KDESC. -/
def Asm.entries (a : Asm) : List Entry :=
  a.labels.map (fun y =>
    let k := a.kernels.findIdx fun k => k.name == y.name
    let exported := a.globals.any fun g => g.1 == y.name
    if k < a.kernels.length then { name := y.name, kind := 3, sect := secKdesc, exported, value := 128 * k, size := 128 }
    else { name := y.name, kind := if y.text then 1 else 2, sect := if y.text then secText else secConst, exported, value := y.value.getD 0, size := a.sizeOf y }) ++
  a.externs.map fun x => { name := x, kind := 0, sect := 0xFF, exported := true, value := 0, size := 0 }

/-- The bytes of a kernel descriptor (R397; Table 2 of R88): ENTRY and ATTACH are image offsets, and the completion fields are zero. -/
def Kernel.descriptor (k : Kernel) (entry attach : Nat) : List Byte :=
  let flag (b : Bool) (n : Nat) : Nat := if b then 2 ^ n else 0
  let flags := k.waits.length * 2 ^ 16 + flag k.rfollow 15 + flag k.rrecord 14 + flag k.elastic 13 + flag k.coop 12 + k.prio * 2 ^ 10 +
    k.cls * 2 ^ 8 + k.tiles * 2 ^ 4 + (k.vregs / 16 - 1) * 2 ^ 2 + Nat.log2 (k.warpw / 16)
  leBytes 8 entry ++ leBytes 8 attach ++ List.replicate 16 0#8 ++ leBytes 4 k.scratch ++ leBytes 4 k.accum ++ leBytes 4 flags ++
    leBytes 4 (k.maxw * 2 ^ 16 + k.minw * 2 ^ 8 + k.initw) ++
    (List.range 4).flatMap (fun i => leBytes 8 (match k.waits[i]? with
      | some w => w.1 * 2 ^ 48 + w.2
      | none => 0)) ++
    List.replicate 48 0#8

/-- The labels of a block's entry and attach entry stand in the text section; their offsets. -/
def Asm.entryOf (a : Asm) (x : Ident) : Option Nat := (a.syms.find? fun y => y.name == x && y.text && y.equ.isNone).bind (·.value)

/-- The descriptors, and a report for each block without its labels. -/
def Asm.kdesc (a : Asm) : List Byte × List Diagnostic :=
  a.kernels.foldl (fun acc k =>
    match a.entryOf k.name, a.entryOf (k.attach.getD k.name) with
    | some e, some t => (acc.1 ++ k.descriptor e t, acc.2)
    | _, _ => (acc.1, acc.2 ++ [{ line := k.line, code := .e10 }])) ([], [])

/-- The word that fills out a clause. -/
def nopWord : Word := 0x1F00000000000000#64

/-- The words of the text section, with their relocations and reports. -/
def Names.textOf (n : Names) (cs : List PlacedClause) : List Word × List Fixup × List Diagnostic :=
  cs.foldl (fun acc c =>
    let ws := c.words.zipIdx.map fun x =>
      match x.1 with
      | none => (nopWord, [], [])
      | some d =>
        match n.assemble { here := c.offset + 8 * (x.2 + 1), header := c.offset, wix := x.2 + 1 } d with
        | .ok (w, fs) => (w, fs, [])
        | .error e => (nopWord, [], [({ line := d.line, code := e } : Diagnostic)])
    (acc.1 ++ c.header.toBits :: ws.map (·.1), acc.2.1 ++ ws.flatMap (·.2.1), acc.2.2 ++ ws.flatMap (·.2.2))) ([], [], [])

/-- The bytes of the constant section, with their relocations and reports. -/
def Names.constOf (n : Names) (ds : List Datum) : List Byte × List Fixup × List Diagnostic :=
  let r := ds.foldl (fun acc d =>
    match n.datum acc.1 d with
    | .ok (bs, fs) => (acc.1 + d.size, acc.2.1 ++ bs, acc.2.2.1 ++ fs, acc.2.2.2)
    | .error e => (acc.1 + d.size, acc.2.1 ++ List.replicate d.size 0#8, acc.2.2.1, acc.2.2.2 ++ [{ line := d.line, code := e }]))
    (0, ([] : List Byte), ([] : List Fixup), ([] : List Diagnostic))
  r.2

/-- A definition by `.equ` whose value is out of range or unknown, and a `.global` of a name without a label. -/
def Asm.nameReports (a : Asm) (n : Names) : List Diagnostic :=
  (a.syms.filterMap fun y =>
    match y.equ with
    | none => none
    | some _ =>
      match n.look y.name with
      | .ok v => if !finalOk v.off then some { line := y.line, code := .e01 } else none
      | .error e => some { line := y.line, code := e }) ++
  a.globals.filterMap fun g => if a.labels.any fun y => y.name == g.1 then none else some { line := g.2, code := .e01 }

/-- A section of the object: its type, whether it is loaded, and its bytes. -/
abbrev Piece := Nat × Bool × List Byte

/-- The image offsets of the sections: each loaded one takes the next 64 KiB pages. -/
def pieceOffsets : Nat → List Piece → List Nat
  | _, [] => []
  | at_, (_, loaded, bs) :: ps =>
    if loaded then at_ :: pieceOffsets (at_ + (bs.length + 65535) / 65536 * 65536) ps else 0 :: pieceOffsets at_ ps

/-- The file offsets: the sections stand one after the other. -/
def fileOffsets : Nat → List Piece → List Nat
  | _, [] => []
  | at_, (_, _, bs) :: ps => at_ :: fileOffsets (at_ + bs.length) ps

/-- The header, the section headers and the sections (R393). -/
def objectBytes (ps : List Piece) : List Byte :=
  let addrs := pieceOffsets 0 ps
  let image := ((ps.filter (·.2.1)).map fun p => (p.2.2.length + 65535) / 65536 * 65536).sum
  leBytes 4 0x5A57444F ++ leBytes 2 1 ++ leBytes 2 ps.length ++ leBytes 8 0x400000 ++ leBytes 8 image ++ List.replicate 40 0#8 ++
    ((ps.zip (addrs.zip (fileOffsets (0x40 + 32 * ps.length) ps))).flatMap fun x =>
      leBytes 8 x.1.1 ++ leBytes 8 x.2.2 ++ leBytes 8 x.1.2.2.length ++ leBytes 8 x.2.1) ++
    ps.flatMap (·.2.2)

/-- The number of the section of a type, and its image offset. -/
def sectionNumber (ps : List Piece) (type : Nat) : Nat := ps.findIdx fun p => p.1 == type
def sectionAddr (ps : List Piece) (type : Nat) : Nat := (pieceOffsets 0 ps).getD (sectionNumber ps type) 0

/-- The symbols that a GOT operator names, in ascending index. -/
def gotSymbols (es : List Entry) (fs : List Fixup) : List Nat :=
  (List.range es.length).filter fun i => fs.any fun f => (f.type == 5 || f.type == 6) && es[i]?.any fun e => e.name == f.sym

/-- The offsets of the names in STR. -/
def nameOffsets : Nat → List Entry → List Nat
  | _, [] => []
  | at_, e :: es => at_ :: nameOffsets (at_ + e.name.length + 1) es

/-- The loaded sections in the order TEXT, CONST, KDESC, GOT, without those that have neither bytes nor a label; TEXT is always there. -/
def loadedPieces (labelled : Bool) (text const kdesc got : List Byte) : List Piece :=
  [(secText, true, text)] ++
    [(secConst, true, const), (secKdesc, true, kdesc), (secGot, true, got)].filter fun p => p.2.2 != [] || (labelled && p.1 == secConst)

/-- The object of a source: TEXT, CONST, KDESC, GOT, SYM, STR and REL, without those that are empty; SIZE holds the low 32 bits of a larger one (log 59). -/
def buildObject (es : List Entry) (text const kdesc : List Byte) (fs : List Fixup) : List Byte :=
  let got := gotSymbols es fs
  let ps := loadedPieces (es.any fun e => e.sect == secConst) text const kdesc (got.flatMap fun i => leBytes 8 0 ++ leBytes 8 (i * 2 ^ 32))
  let names := nameOffsets 0 es
  let sym := es.zipIdx.flatMap fun x =>
    let e := x.1
    let g := got.findIdx (· == x.2)
    leBytes 8 (names.getD x.2 0 + e.kind * 2 ^ 32 + (if e.kind = 0 then 0xFF else sectionNumber ps e.sect) * 2 ^ 40 + (if e.exported then 2 ^ 48 else 0)) ++
      leBytes 8 e.value ++ leBytes 8 ((if g < got.length then g + 1 else 0) * 2 ^ 32 + e.size % 2 ^ 32)
  let str := es.flatMap fun e => e.name.map (fun c => BitVec.ofNat 8 c.toNat) ++ [0#8]
  let rel := fs.flatMap fun f =>
    leBytes 8 (sectionAddr ps (if f.text then secText else secConst) + f.site) ++
      leBytes 8 ((es.findIdx fun e => e.name == f.sym) * 2 ^ 32 + f.wix * 2 ^ 8 + f.type) ++ leBytes 8 (f.addend % 2 ^ 64).toNat
  objectBytes (ps ++ ([(secSym, false, sym), (secStr, false, str), (secRel, false, rel)] : List Piece).filter fun p => p.2.2 != [])

/-- A report as it is given: the file, the line and the code (R64). -/
structure Report where
  file : List Char
  line : Nat
  code : Diag
  deriving DecidableEq, Repr

/-- What the assembler answers: its reports, and the object where no report is an error (R64). -/
structure Assembly where
  reports : List Report
  object : Option (List Byte)
  deriving DecidableEq, Repr

/-- The immediate of a statement that ends in one, where its value is known. -/
def Names.lastImm (n : Names) (x : Draft) : Option Nat :=
  (x.args.getLast?.bind fun y => y.2.asExpr).bind fun e => ((n.integer { base := .text, off := 0 } e).toOption).map Int.toNat

/-- The assembler, of a file's text. -/
def assembleSource (file src : List Char) : Assembly :=
  let a := firstPass src
  let heads := (a.placed.filter fun c => c.words.any Option.isSome).map (·.offset)
  let n : Names := { syms := a.syms, externs := a.externs, heads }
  let (ws, tf, tr) := n.textOf a.placed
  let (cs, cf, cr) := n.constOf a.data
  let (ks, kr) := a.kdesc
  let regs (x : Draft) : Nat :=
    match x.kernel.bind fun k => a.kernels[k]? with
    | some k => k.vregs
    | none => 64
  let reports := a.reports ++ tr ++ cr ++ kr ++ a.nameReports n ++ pathReports { regs, desc := n.lastImm } a.placed
  { reports := reports.map fun r => { file, line := r.line, code := r.code }
    object := if reports.any fun r => r.code.isError then none else some (buildObject a.entries (ws.flatMap fun w => leBytes 8 w.toNat) cs ks (tf ++ cf)) }

end Sys2Proof.Ghas
end

