-- ==== Sys2Proof/Safety.lean ====
section
/-! DEFINITION. The terms in which claims speak of a run: what a step answers, what an instruction leaves as it was, and the properties that every step keeps. -/
namespace Sys2Proof.Machine
open Sys2Proof

/-- A step, or a meaning, answers some next state. -/
def completes (r : Result) : Prop := ∃ t, r = .next t

/-- The machine never stops with a fault or a refusal. -/
def goesOn (r : Result) : Bool :=
  match r with
  | .next _ => true
  | .fault _ | .refused _ => false

/-- The management state and the band agree (17_cryogenic_and_power.md R368, R371): bands 0 to 4; RUN is in bands 0 and 1, SOAK in band 0, RETREAT in bands 2 and 3, and COOLING has left when the band is 0. -/
def legalPhase (p : Phase) (band : Nat) : Bool :=
  band ≤ 4 &&
    (match p with
     | .run => band ≤ 1
     | .soak => band == 0
     | .retreat => band == 2 || band == 3
     | .cooling => band != 0
     | .off | .bench | .train | .ready | .excursion | .warming => true)

def State.legal (s : State) : Bool := legalPhase s.mgmt.phase s.mgmt.band

/-- Memory is in its canonical form. -/
def State.memoryWf (s : State) : Bool := Memory.wf s.mem

/-! ## What a word leaves as it was -/

/-- A pending result apart from what it writes to a uniform register, and apart from what it writes to lane words. -/
def Outstanding.apartS (o : Outstanding) : Outstanding := { o with sWrite := none }
def Outstanding.apartV (o : Outstanding) : Outstanding := { o with vWrites := [] }

/-- The uniform registers after a write of one of them: `s0` reads zero whatever is written (02_words_and_registers.md R41, R43). -/
def wroteS (w x : Warp) (d : BitVec 6) (v : Word) : Prop :=
  x.readS d = (if d = 0#6 then 0#64 else v) ∧ ∀ r, r ≠ d → x.readS r = w.readS r

/-- R36 for uniform registers: a visible write of register `d` stops what earlier pending results still write to it, and to no other register. -/
def Warp.stoppedS (w : Warp) (d : BitVec 6) : List Outstanding :=
  w.pending.map fun o => if o.seq < w.seq ∧ o.sWrite.map Prod.fst = some d then o.apartS else o

/-- R36 for lane words: visible writes of some bits of lane words stop what earlier pending results still write to those bits, and to no other. -/
def stopsV (w x : Warp) (written : Nat → Nat → Prop) : Prop :=
  List.Forall₂ (fun o p => p.apartV = o.apartV ∧
    List.Forall₂ (fun y z => z.lane = y.lane ∧ z.value = y.value ∧
      ∀ b, b < 32 → (z.mask.getLsbD b = true ↔ y.mask.getLsbD b = true ∧ ¬(o.seq < w.seq ∧ written y.lane b))) o.vWrites p.vWrites)
    w.pending x.pending

/-- Bit b of a lane word is one of element k of width e of the group at `d` (02_words_and_registers.md R48). -/
def bitOf (s : State) (d : BitVec 6) (e k lane b : Nat) : Prop :=
  lane = d.toNat * s.w + k * e / 32 ∧ k * e % 32 ≤ b ∧ b < k * e % 32 + e

/-- A word on the uniform datapath leaves everything as it was but uniform registers, the position, the issue bookkeeping, and the uniform writes that pending results still make. -/
structure UniformFrame (s t : State) : Prop where
  rest : t = { s with warp := { s.warp with
    s := t.warp.s, pending := t.warp.pending, pos := t.warp.pos, yieldOff := t.warp.yieldOff, yieldLow := t.warp.yieldLow,
    wait := 0, urgent := false, park := .none, service := {}, paid := false } }
  pending : t.warp.pending.map Outstanding.apartS = s.warp.pending.map Outstanding.apartS

/-- An instruction on the uniform datapath gives a value to its destination register and goes on at the next word. -/
def gives (i : Instr) (s : State) (d : BitVec 6) (v : Word) : Prop :=
  ∃ t, exec i s = .next t ∧ wroteS s.warp t.warp d v ∧ t.warp.pending = s.warp.stoppedS d ∧
    t.warp.pos = s.warp.pos.after ∧ UniformFrame s t

/-- A word in lane mode leaves everything as it was but lane words, the lanes' positions, the issue bookkeeping, and the lane writes that pending results still make. -/
structure LaneFrame (s t : State) : Prop where
  rest : t = { s with warp := { s.warp with
    v := t.warp.v, pending := t.warp.pending, lanes := t.warp.lanes, yieldOff := t.warp.yieldOff, yieldLow := t.warp.yieldLow,
    wait := 0, urgent := false, park := .none, service := {}, paid := false } }
  pending : t.warp.pending.map Outstanding.apartV = s.warp.pending.map Outstanding.apartV

/-- Lane mode over a warp of the shape that its launch gives it: W lanes, R registers of W lane words. -/
structure LaneShape (s : State) (lm : LaneMode) : Prop where
  mode : s.warp.lanes = some lm
  count : lm.lanes.length = s.w
  words : s.warp.v.length = s.r * s.w

/-- An instruction in lane mode gives each lane of the issuing group its own word of register `d`, changes no other lane word, and moves the group, and no other lane, to its next word. -/
def givesLanes (i : Instr) (s : State) (lm : LaneMode) (d : BitVec 6) (f : Nat → LaneWord) : Prop :=
  ∃ t lm', exec i s = .next t ∧ t.warp.lanes = some lm' ∧
    (∀ l ∈ lm.group, laneOf t d l = f l ∧ (lm'.lane l).pos = (lm.lane l).pos.after) ∧
    (∀ k, (∀ l ∈ lm.group, k ≠ d.toNat * s.w + l) → t.warp.readLane k = s.warp.readLane k) ∧
    (∀ l, l ∉ lm.group → lm'.lane l = lm.lane l) ∧ stopsV s.warp t.warp (fun k _ => ∃ l ∈ lm.group, k = d.toNat * s.w + l) ∧ LaneFrame s t

/-- A flag-capable instruction is outstanding and its registers read as before: one pending result joins those of the warp, which goes on at its next word (R33 to R36). -/
structure PendsOne (s t : State) (o : Outstanding) : Prop where
  rest : t = { s with cores := t.cores, draws := t.draws, warp := { s.warp with
    pending := s.warp.pending ++ [o], seq := s.warp.seq + 1, pos := s.warp.pos.after, yieldOff := t.warp.yieldOff, yieldLow := t.warp.yieldLow,
    wait := 0, urgent := false, park := .none, service := {}, paid := false } }
  outstanding : o.done = false
  order : o.seq = s.warp.seq

/-! ## What a rule computes -/

/-- The quotient of 04_scalar_and_flow.md R77 at n = 64, its corners among them. -/
def quotientOf (sg : Sgn) (x y : Word) : Int :=
  match sg with
  | .signed =>
    if y.toInt = 0 then -1 else if x.toInt = -2 ^ 63 ∧ y.toInt = -1 then x.toInt
    else x.toInt.sign * y.toInt.sign * ((x.toInt.natAbs / y.toInt.natAbs : Nat) : Int)
  | .unsigned => if y.toNat = 0 then 2 ^ 64 - 1 else ((x.toNat / y.toNat : Nat) : Int)

/-- The remainder of R77. -/
def remainderOf (sg : Sgn) (x y : Word) : Int :=
  match sg with
  | .signed =>
    if y.toInt = 0 then x.toInt else if x.toInt = -2 ^ 63 ∧ y.toInt = -1 then 0
    else x.toInt - quotientOf sg x y * y.toInt
  | .unsigned => if y.toNat = 0 then (x.toNat : Int) else x.toNat - quotientOf sg x y * y.toNat

/-- A control transfer is taken to an exact address: nothing but the position, the issue bookkeeping and, for a call, s63 changes. -/
def goesTo (i : Instr) (s : State) (target : Int) : Prop :=
  ∃ t, exec i s = .next t ∧ t.warp.pos = { hdr := target } ∧ t.warp.s = s.warp.s ∧ t.warp.pending = s.warp.pending ∧ UniformFrame s t

/-! ## Words that pay a toll -/

/-- A dispatch of a charge finds credit at once, its warp's unspent lease drawn where the level falls short (17_cryogenic_and_power.md R375, R377); a word that executes again was charged before. -/
def affords (s : State) (n : Nat) : Prop :=
  n = 0 ∨ s.warp.paid = true ∨ (n : Int) ≤ (coreOf s s.warp.core).level + (s.warp.lease : Nat) ∨
    (coreOf s s.warp.core).level = ((coreOf s s.warp.core).cap : Nat) ∨
    (coreOf s s.warp.core).level + (s.warp.lease : Nat) = ((coreOf s s.warp.core).cap : Nat)

/-- What a dispatch draws from the lease of its warp. -/
def drawn (s : State) (n : Nat) : Nat :=
  if n = 0 ∨ s.warp.paid = true ∨ (coreOf s s.warp.core).level = ((coreOf s s.warp.core).cap : Nat) then 0
  else min s.warp.lease ((n : Int) - (coreOf s s.warp.core).level).toNat

/-- A charge is taken once: LEVEL gains what the lease gives and falls by the charge, and nothing else of the core changes. -/
structure ChargeTaken (s t : State) (n : Nat) : Prop where
  core : corePlace s.warp.core < 312 →
    coreOf t s.warp.core = { coreOf s s.warp.core with
      level := if s.warp.paid then (coreOf s s.warp.core).level else (coreOf s s.warp.core).level + (drawn s n : Nat) - (n : Nat) }
  lease : t.warp.lease = s.warp.lease - drawn s n
  others : ∀ c, corePlace c ≠ corePlace s.warp.core → coreOf t c = coreOf s c

/-- A charged word that finds no credit is not dispatched: the lease of its warp is drawn into LEVEL, the warp waits for the toll where it stands, and nothing else changes. -/
def waitsForToll (i : Instr) (s : State) (n : Nat) : Prop :=
  ¬ affords s n → ∃ t, exec i s = .next t ∧ t = { s with cores := t.cores, warp := { s.warp with lease := 0, park := .toll n } } ∧
    (corePlace s.warp.core < 312 → coreOf t s.warp.core =
      { coreOf s s.warp.core with level := (coreOf s s.warp.core).level + (s.warp.lease : Nat) }) ∧
    ∀ c, corePlace c ≠ corePlace s.warp.core → coreOf t c = coreOf s c

/-- A word of the lane slot, or one that pays a toll, leaves everything as it was but the core it runs on and the named parts of its warp. -/
structure ChargedFrame (s t : State) (toll : Nat) : Prop where
  rest : t = { s with cores := t.cores, warp := { s.warp with
    s := t.warp.s, v := t.warp.v, m := t.warp.m, st := t.warp.st, pending := t.warp.pending, seq := t.warp.seq, fpstat := t.warp.fpstat,
    vstart := t.warp.vstart, pos := t.warp.pos, lease := t.warp.lease, yieldOff := t.warp.yieldOff, yieldLow := t.warp.yieldLow,
    wait := 0, urgent := false, park := .none, service := {}, paid := false } }
  charge : ChargeTaken s t toll

/-- A mask instruction (07_lengths_and_integer.md R160, R161): bits below VL of its destination from `f`, every other bit of every mask as it was. -/
def givesMask (i : Instr) (s : State) (d : BitVec 3) (f : Nat → Bool) : Prop :=
  affords s s.warp.vl → ∃ t, exec i s = .next t ∧
    (∀ k, k < 1024 → (t.warp.readM d).getLsbD k =
      if d = 0#3 then true else if k < s.warp.vl then f k else (s.warp.readM d).getLsbD k) ∧
    (∀ r, r ≠ d → t.warp.readM r = s.warp.readM r) ∧
    t.warp.s = s.warp.s ∧ t.warp.v = s.warp.v ∧ t.warp.st = s.warp.st ∧ t.warp.pending = s.warp.pending ∧ t.warp.seq = s.warp.seq ∧
    t.warp.fpstat = s.warp.fpstat ∧ t.warp.vstart = s.warp.vstart ∧ t.warp.pos = s.warp.pos.after ∧
    ChargedFrame s t s.warp.vl

/-- A word of the lane slot that gives a value to a uniform register, and what `vstart` is then. -/
def givesCharged (i : Instr) (s : State) (start : Nat) (d : BitVec 6) (v : Word) : Prop :=
  affords s s.warp.vl → ∃ t, exec i s = .next t ∧ wroteS s.warp t.warp d v ∧ t.warp.v = s.warp.v ∧ t.warp.m = s.warp.m ∧ t.warp.st = s.warp.st ∧
    t.warp.pending = s.warp.stoppedS d ∧ t.warp.seq = s.warp.seq ∧
    t.warp.fpstat = s.warp.fpstat ∧ t.warp.vstart = start ∧ t.warp.pos = s.warp.pos.after ∧ ChargedFrame s t s.warp.vl

/-- vlmax of 07_lengths_and_integer.md R156. -/
def vlmaxRule (w e b g cap : Nat) : Nat := min (min 1024 cap) (w * 32 * g / e) / b * b

/-- VL of R156 for a count. -/
def vlRule (vlmax b n : Nat) : Nat := if vlmax ≤ n then vlmax else (n + b - 1) / b * b

/-! ## Vector words (06_numbers_and_float.md R136, R137) -/

/-- Outside lane mode, over a warp of the shape that its launch gives it, register groups that R42 and R136 admit and that hold the strip: each operand is its first register and its element width. -/
structure VectorReady (s : State) (ops : List (BitVec 6 × Nat)) : Prop where
  mode : s.warp.lanes = none
  words : s.warp.v.length = s.r * s.w
  groups : ∀ x ∈ ops, groupOk s x.1 (groupSize s.warp x.2) = true ∧ s.warp.vl * x.2 ≤ groupSize s.warp x.2 * s.w * 32

/-- The element rules of R137 for a destination group of width e: elements from vstart to `hi` − 1 under MK and MZ, every other element of the group and every other register as it was. -/
structure ElementsTo (s t : State) (d : BitVec 6) (e : Nat) (mk : BitVec 3) (mz : Bool) (hi : Nat) (f : Nat → LaneWord) : Prop where
  live : ∀ k, s.warp.vstart ≤ k → k < hi → readElem t d e k =
    if maskBit s.warp mk k then f k &&& lowMask e else if mz then 0#32 else readElem s d e k
  rest : ∀ k, (k < s.warp.vstart ∨ hi ≤ k) → (k + 1) * e ≤ groupSize s.warp e * s.w * 32 → readElem t d e k = readElem s d e k
  outside : ∀ i, (i < d.toNat * s.w ∨ (d.toNat + groupSize s.warp e) * s.w ≤ i) → t.warp.readLane i = s.warp.readLane i

/-- The same for the whole strip. -/
abbrev ElementsWritten (s t : State) (d : BitVec 6) (e : Nat) (mk : BitVec 3) (mz : Bool) (f : Nat → LaneWord) : Prop :=
  ElementsTo s t d e mk mz s.warp.vl f

/-- The bits of lane words that an instruction under MK and MZ writes: those of its elements from vstart to `hi` − 1 that the mask enables, or that MZ makes zero. -/
def stripBits (s : State) (d : BitVec 6) (e : Nat) (mk : BitVec 3) (mz : Bool) (hi lane b : Nat) : Prop :=
  ∃ k, s.warp.vstart ≤ k ∧ k < hi ∧ (maskBit s.warp mk k = true ∨ mz = true) ∧ bitOf s d e k lane b

/-- An enabled element of the strip that is no pad element (R137). -/
def counts (w : Warp) (mk : BitVec 3) (k : Nat) : Prop := w.vstart ≤ k ∧ k < w.vl ∧ maskBit w mk k = true ∧ k < w.vl - w.vpad

/-- FPSTAT gains the status bits of the enabled elements that are no pad elements (R132, R137). -/
def statusGained (w x : Warp) (mk : BitVec 3) (f : Nat → Elem) : Prop :=
  ∀ i, x.fpstat.getLsbD i = true ↔ w.fpstat.getLsbD i = true ∨ ∃ k, counts w mk k ∧ (f k).flags.bits.getLsbD i = true

/-- A vector instruction of a toll for each element writes its elements and sets their status when none of them raises an enabled exception (R134, R137). -/
def givesVector (i : Instr) (s : State) (toll : Nat) (d : BitVec 6) (e : Nat) (mk : BitVec 3) (mz : Bool) (f : Nat → Elem) : Prop :=
  affords s (s.warp.vl * toll) → (∀ k, counts s.warp mk k → enabledTrap s.warp.fpctl (f k).flags = false) →
  ∃ t, exec i s = .next t ∧ ElementsWritten s t d e mk mz (fun k => (f k).bits) ∧ statusGained s.warp t.warp mk f ∧
    t.warp.vstart = 0 ∧ t.warp.pos = s.warp.pos.after ∧ t.warp.s = s.warp.s ∧ t.warp.m = s.warp.m ∧ t.warp.st = s.warp.st ∧
    t.warp.seq = s.warp.seq ∧ stopsV s.warp t.warp (stripBits s d e mk mz s.warp.vl) ∧ ChargedFrame s t (s.warp.vl * toll)

/-- A floating word of lane mode leaves everything as it was but lane words, the lanes' positions, FPSTAT, the core's charge, the issue bookkeeping, and the lane writes that pending results still make. -/
structure LaneChargedFrame (s t : State) (toll : Nat) : Prop where
  rest : t = { s with cores := t.cores, warp := { s.warp with
    v := t.warp.v, pending := t.warp.pending, lanes := t.warp.lanes, fpstat := t.warp.fpstat, lease := t.warp.lease,
    yieldOff := t.warp.yieldOff, yieldLow := t.warp.yieldLow, wait := 0, urgent := false, park := .none, service := {}, paid := false } }
  charge : ChargeTaken s t toll

/-! ## Rounding (00_scope.md R10) -/

/-- The number that an exact value is; zero for what is no number. -/
def Exact.rat : Exact → ℚ
  | .nan | .inf _ => 0
  | .fin neg m e => (if neg then -1 else 1) * (m * (2 : ℚ) ^ e)

/-- The magnitude of a code, for codes without bound: the significand grid of a format with an unbounded exponent. -/
def FloatFmt.codeValue (f : FloatFmt) (code : Nat) : ℚ := (f.magnitude code).1 * (2 : ℚ) ^ (f.magnitude code).2

/-- The code that a magnitude of a sign rounds to under a mode (R10, IEEE 754): its own where it stands on the grid; else one of the two around it, in a tie the even one. -/
def FloatFmt.rounds (f : FloatFmt) (md : Mode) (neg : Bool) (v : ℚ) (r : Nat) : Prop :=
  ∃ c, f.codeValue c ≤ v ∧ v < f.codeValue (c + 1) ∧
    r = if v = f.codeValue c then c
      else match md with
        | .rz => c
        | .ru => if neg then c else c + 1
        | .rd => if neg then c + 1 else c
        | .rne => if 2 * v < f.codeValue c + f.codeValue (c + 1) then c
          else if f.codeValue c + f.codeValue (c + 1) < 2 * v then c + 1 else c + c % 2

/-- The code that a real magnitude rounds to, as `FloatFmt.rounds`. -/
def FloatFmt.roundsReal (f : FloatFmt) (md : Mode) (neg : Bool) (v : ℝ) (r : Nat) : Prop :=
  ∃ c, (f.codeValue c : ℝ) ≤ v ∧ v < f.codeValue (c + 1) ∧
    ((v = f.codeValue c ∧ r = c) ∨
      (v ≠ f.codeValue c ∧
        match md with
        | .rz => r = c
        | .ru => r = if neg then c else c + 1
        | .rd => r = if neg then c + 1 else c
        | .rne => (2 * v < f.codeValue c + f.codeValue (c + 1) → r = c) ∧ (f.codeValue c + f.codeValue (c + 1) < 2 * v → r = c + 1) ∧
          (2 * v = f.codeValue c + f.codeValue (c + 1) → r = c + c % 2)))

/-- An element is the correctly rounded value of a real magnitude under a sign: the code it rounds to with NX and UF as R132 judges them, and what the format has for an overflow (R10). -/
def roundedTo (et : ET) (md : Mode) (neg : Bool) (v : ℝ) (x : Elem) : Prop :=
  let f := fmtOf et
  ∃ r, f.roundsReal md neg v r ∧
    (r ≤ f.maxCode → x.bits = f.withSign neg r ∧ (x.flags.nx = true ↔ (f.codeValue r : ℝ) ≠ v) ∧
      (x.flags.unf = true ↔ (f.codeValue r : ℝ) ≠ v ∧ v < (2 : ℝ) ^ f.emin) ∧
      x.flags = { nx := x.flags.nx, unf := x.flags.unf }) ∧
    (f.maxCode < r → x.flags = { ovf := true, nx := true } ∧ x.bits =
      if et = .e4m3 ∨ et = .sc12 then f.canonicalNaN
      else if et = .e2m1 then f.withSign neg 7
      else f.withSign neg (if md = .rne ∨ (md = .ru ∧ neg = false) ∨ (md = .rd ∧ neg = true) then f.maxCode + 1 else f.maxCode))

/-- Where a value that is no NaN stands among the extended reals. -/
noncomputable def Exact.extended : Exact → EReal
  | .nan => 0
  | .inf neg => if neg then ⊥ else ⊤
  | .fin neg m e => ((Exact.fin neg m e).rat : ℝ)

/-- The order of R141 on values that are no NaN: −0 stands below +0. -/
def Exact.below (x y : Exact) : Prop := x.extended < y.extended ∨ (x.isZero = true ∧ y.isZero = true ∧ x.isNeg = true ∧ y.isNeg = false)

/-- The integer that a number rounds to under a mode. -/
def roundsInt (md : Mode) (q : ℚ) (i : Int) : Prop :=
  match md with
  | .rd => i = ⌊q⌋
  | .ru => i = ⌈q⌉
  | .rz => i = if 0 ≤ q then ⌊q⌋ else ⌈q⌉
  | .rne => |q - i| ≤ 1 / 2 ∧ (|q - i| = 1 / 2 → i % 2 = 0)

/-! ## Permutes, reductions and scans (08_permute_and_reduce.md) -/

/-- What a permute or scan word leaves besides its destination elements: its other registers, and `vstart` at 0 (R171). -/
structure VectorDone (s t : State) : Prop where
  start : t.warp.vstart = 0
  goes : t.warp.pos = s.warp.pos.after
  uniform : t.warp.s = s.warp.s
  masks : t.warp.m = s.warp.m
  streams : t.warp.st = s.warp.st
  order : t.warp.seq = s.warp.seq
  frame : ChargedFrame s t s.warp.vl

/-- R171: elements 0 to n − 1 of a group of g registers under MK and MZ, whatever `vstart` holds; every other element of the group and every other register as it was. -/
structure SpanWritten (s t : State) (d : BitVec 6) (g e : Nat) (mk : BitVec 3) (mz : Bool) (n : Nat) (f : Nat → LaneWord) : Prop where
  live : ∀ k, k < n → readElem t d e k = if maskBit s.warp mk k then f k &&& lowMask e else if mz then 0#32 else readElem s d e k
  rest : ∀ k, n ≤ k → (k + 1) * e ≤ g * s.w * 32 → readElem t d e k = readElem s d e k
  outside : ∀ i, (i < d.toNat * s.w ∨ (d.toNat + g) * s.w ≤ i) → t.warp.readLane i = s.warp.readLane i

/-- A permute writes its elements and sets no status. -/
def givesPermuted (i : Instr) (s : State) (d : BitVec 6) (g e : Nat) (mk : BitVec 3) (mz : Bool) (n : Nat) (f : Nat → LaneWord) : Prop :=
  affords s s.warp.vl → ∃ t, exec i s = .next t ∧ SpanWritten s t d g e mk mz n f ∧
    stopsV s.warp t.warp (fun lane b => ∃ k, k < n ∧ (maskBit s.warp mk k = true ∨ mz = true) ∧ bitOf s d e k lane b) ∧ t.warp.fpstat = s.warp.fpstat ∧ VectorDone s t

/-- A reduction writes lane 0 of its destination register and no other lane word (R176), and sets status bits. -/
def givesReduced (i : Instr) (s : State) (d : BitVec 6) (x : LaneWord) (status : Nat → Prop) : Prop :=
  affords s s.warp.vl → ∃ t, exec i s = .next t ∧ laneOf t d 0 = x ∧ (∀ k, k ≠ d.toNat * s.w → t.warp.readLane k = s.warp.readLane k) ∧
    (∀ i, t.warp.fpstat.getLsbD i = true ↔ s.warp.fpstat.getLsbD i = true ∨ status i) ∧
    stopsV s.warp t.warp (fun lane _ => lane = d.toNat * s.w) ∧ VectorDone s t

/-- Node k of level n of the pairwise tree of R176 over leaves of which some are empty. -/
def treeAt (add : LaneWord → LaneWord → LaneWord) (x : Nat → Option LaneWord) : Nat → Nat → Option LaneWord
  | 0, k => x k
  | n + 1, k => Option.merge add (treeAt add x n (2 * k)) (treeAt add x n (2 * k + 1))

/-- The running value of R178 before element k. -/
def runningAt (mask : Nat → Bool) (x : Nat → LaneWord) (add : LaneWord → LaneWord → LaneWord) : Nat → Option LaneWord
  | 0 => none
  | k + 1 =>
    if mask k then
      (match runningAt mask x add k with
       | none => some (x k)
       | some r => some (add r (x k)))
    else runningAt mask x add k

/-! ## Register fields and lane mode (02_words_and_registers.md R42; 05_teams_and_warps.md R104) -/

/-- A register that names the lane's own word in lane mode, and nothing that the allocation bounds outside it (R84). -/
def laneField (s : State) (r : BitVec 6) : Bool := !s.warp.inLanes || decide (r.toNat < s.r)

/-- A group of vector registers for elements of width e (06_numbers_and_float.md R136). -/
def groupField (s : State) (e : Nat) (r : BitVec 6) : Bool :=
  let g := groupSize s.warp e
  decide (g ≤ 8) && r.toNat % g == 0 && decide (r.toNat + g ≤ s.r)

/-- A register of a floating word: a lane's word with ET = FP32 in lane mode, else a group (R138). -/
def floatField (s : State) (et : ET) (r : BitVec 6) : Bool :=
  if s.warp.inLanes && et == .fp32 then decide (r.toNat < s.r) else groupField s et.width r

/-- An even pair of registers. -/
def pairField (s : State) (r : BitVec 6) : Bool := r.toNat % 2 == 0 && decide (r.toNat + 2 ≤ s.r)

/-- A slot below TILES (13_matrix_grants_and_engine.md R280). -/
def slotField (s : State) (n : BitVec 3) : Bool := decide (n.toNat < s.team.launch.tiles)

/-- What condition 14 of 02_words_and_registers.md R32 asks of an instruction word; none for an event, and for a word that an earlier reason stops: an access to 64-bit elements in lane mode, `VADDI` on a strip of no integer type, a quantisation without blocks. -/
def fieldChecks (s : State) (i : Instr) : Option (List Bool) :=
  let lane (rs : List (BitVec 6)) : Option (List Bool) := some (rs.map (laneField s))
  let groups (e : Nat) (rs : List (BitVec 6)) : Option (List Bool) := some (rs.map (groupField s e))
  let float (et : ET) (rs : List (BitVec 6)) : Option (List Bool) := some (rs.map (floatField s et))
  let access (et : ET) (a : BitVec 6) (rs : List (BitVec 6)) : Option (List Bool) :=
    if s.warp.inLanes then (if et = .int64 then none else some (pairField s a :: rs.map fun r => decide (r.toNat < s.r))) else some []
  let free : Option (List Bool) := some []
  let slot (n : BitVec 3) : Option (List Bool) := some [slotField s n]
  let scale (r : BitVec 6) : Bool :=
    let g := max 1 (stripGroup s.warp * 16 / ((stripEt s.warp).width * blockLen (stripBlock s.warp)))
    decide (g ≤ 8) && r.toNat % g == 0 && decide (r.toNat + g ≤ s.r)
  match i with
  | .mov u d a => if u then some [decide (d.toNat < s.r)] else lane [d, a]
  | .movi d _ | .adrc d _ => lane [d]
  | .movhi d a _ | .addi d a _ | .andi d a _ | .ori d a _ | .xori d a _ | .shli d a _ | .shri d a _ | .sari d a _ | .clz d a | .popc d a
  | .cmpi _ d a _ => lane [d, a]
  | .add d a b | .sub d a b | .mul d a b | .mulhi _ d a b | .div _ _ d a b | .rem _ _ d a b | .and d a b | .or d a b | .xor d a b
  | .shl d a b | .shr d a b | .sar d a b | .min _ d a b | .max _ d a b | .cmp _ d a b => lane [d, a, b]
  | .sel d a b c => lane [d, a, b, c]
  | .nop | .br _ | .call _ | .ret => free
  | .brc _ a b _ => lane [a, b]
  | .brz a _ | .brnz a _ | .callr a | .jmpr a => lane [a]
  | .getid _ _ | .tgrow _ _ | .tleave | .tstat _ | .bararv _ | .barwait _ | .barsync _ | .barmask _ | .vfork _ _ | .ljoin | .klaunch _ _ _ | .yield
  | .setvl _ _ _ _ _ | .svloop _ _ | .getvl _ _ | .mand _ _ _ | .mor _ _ _ | .mxor _ _ _ | .mandn _ _ _ | .mnot _ _ | .mmov _ _
  | .mset _ _ _ | .mpopc _ _ | .mfirst _ _ => free
  | .wsync _ a => some [if s.w = 64 then pairField s a else decide (a.toNat < s.r)]
  | .vadd _ _ et d a b | .vadds _ _ et d a b | .vsub _ _ et d a b | .vsubs _ _ et d a b | .vmul _ _ et d a b | .vmulhi _ _ et d a b
  | .vmin _ _ et d a b | .vmax _ _ et d a b | .vand _ _ et d a b | .vor _ _ et d a b | .vxor _ _ et d a b | .vshl _ _ et d a b
  | .vshr _ _ et d a b | .vsar _ _ et d a b | .vmrg _ et d a b => groups et.width [d, a, b]
  | .vmad _ _ et d a b c => groups et.width [d, a, b, c]
  | .vcmp _ _ _ et _ a b | .vfcmp _ _ _ et _ a b => groups et.width [a, b]
  | .vabs _ _ _ et d a | .vpopc _ _ et d a | .vclz _ _ et d a | .vfclass _ _ et d a | .vslup _ _ et d a _ | .vsldn _ _ et d a _
  | .vbcast _ _ et d a _ | .vcmprs et d a _ | .vexpnd et d a _ | .vscan _ _ _ _ et d a => groups et.width [d, a]
  | .vwid _ _ src et d a | .vsatn _ _ src et d a | .vcvt _ _ _ _ src et d a => some [groupField s et.width d, groupField s src.width a]
  | .viota _ _ _ et d _ | .vbcs _ _ et d _ | .vins et d _ _ => groups et.width [d]
  | .vextr et _ a _ => groups et.width [a]
  | .vaddi _ _ d a _ => if (stripEt s.warp).isInt then groups (stripEt s.warp).width [d, a] else none
  | .vfadd _ _ _ et d a b | .vfsub _ _ _ et d a b | .vfmul _ _ _ et d a b | .vfmin _ _ et d a b | .vfmax _ _ et d a b
  | .vfdiv _ _ _ _ et d a b => float et [d, a, b]
  | .vfma _ _ _ et d a b c | .vfnma _ _ _ et d a b c => float et [d, a, b, c]
  | .vfsqrt _ _ _ _ et d a | .vfrsq _ _ _ _ et d a | .vfrcp _ _ _ _ et d a | .vfexp2 _ _ _ _ et d a | .vflog2 _ _ _ _ et d a
  | .vfabs _ _ et d a => float et [d, a]
  | .vqnt tr src et d a b =>
    if stripBlock s.warp = 0 then none
    else
      some [groupField s et.width d, decide (groupSize s.warp src.width ≤ 8),
        if tr then a.toNat % 8 == 0 && decide (a.toNat + 8 ≤ s.r) else groupField s src.width a, scale b]
  | .vdqnt _ _ _ src et d a b =>
    if stripBlock s.warp = 0 then none else some [groupField s et.width d, groupField s src.width a, scale b]
  | .vperm _ _ et d a b => some [groupField s et.width d, groupField s et.width a, groupField s 16 b]
  | .vtr8 _ _ _ d a => some ([d, a].map fun r => r.toNat % 8 == 0 && decide (r.toNat + 8 ≤ s.r))
  | .vredsum _ _ et d a | .vredmax _ et d a | .vredmin _ et d a => some [decide (d.toNat < s.r), groupField s et.width a]
  | .lds _ et _ d a _ => access et a [d]
  | .sts et _ a b _ => access et a [b]
  | .atom _ _ _ _ et d a b => access et a [d, b]
  | .cas _ _ et d a b c => access et a [d, b, c]
  | .vld _ _ _ et _ d _ _ | .vlds _ _ _ et _ d _ _ _ => groups et.width [d]
  | .vst _ et _ _ b _ | .vsts _ et _ _ b _ _ => groups et.width [b]
  | .vldx _ _ _ et _ d _ c _ => some [groupField s et.width d, groupField s 32 c]
  | .vstx _ et _ _ b c _ => some [groupField s et.width b, groupField s 32 c]
  | .vldst _ _ _ _ d a =>
    let x := s.warp.stream a
    if x.defined && !x.store then groups x.et.width [d] else free
  | .vstst _ _ a b =>
    let x := s.warp.stream a
    if x.defined && x.store then groups x.et.width [b] else free
  | .vatom _ _ _ op _ _ et d _ b c =>
    some ((if op = .st then [] else [groupField s et.width d]) ++ (if op = .ld then [] else [groupField s et.width b]) ++ [groupField s 32 c])
  | .vcas _ _ _ _ et d _ b c =>
    let g := groupSize s.warp et.width
    some [groupField s et.width d, decide (g ≤ 8) && b.toNat % (2 * g) == 0 && decide (b.toNat + 2 * g ≤ s.r), groupField s 32 c]
  | .strdef _ _ _ _ | .pref _ _ _ | .redord _ _ _ _ _ | .fence _ _ | .cpytrain _ _ _ _ _ _ _ | .cwait _ _ | .cstat _ _ _ _ | .cstatClr _ _
  | .ten | .tdis => free
  | .cpyboxIn _ _ a _ _ _ | .cpyboxOut _ _ a _ _ _ => some [decide (a.toNat < s.r)]
  | .cpya _ n _ a _ _ | .cpyb _ n _ a _ _ => some [decide (a.toNat < s.r), slotField s n]
  | .tset n _ _ _ _ _ | .tgrant n _ | .tzero n | .tldb _ n _ _ | .tmma _ n _ | .tmmas _ n _ _ | .tcsclLd _ n _ | .tcsclOne _ n
  | .tsave _ n _ | .tload _ n _ => slot n
  | .tslv _ _ _ _ _ et n d _ => some [groupField s et.width d, slotField s n]
  | .tsvl _ _ _ _ n _ b => some [groupField s 32 b, slotField s n]
  | .tstr _ _ tm _ _ _ n _ _ c => some ((if tm = .x then [groupField s 32 c] else []) ++ [slotField s n])
  | .trap _ | .eret | .getsr _ _ | .setsr _ _ | .cacheClean _ | .cacheFlush _ | .cacheInv _ | .icinvRange _ _ | .icinvAll | .xlinvVa _ _
  | .xlinvAll | .lease _ _ | .haltWarp | .haltTeam _ => free
  | _ => none

/-- The words that lane mode permits (Table 6), with FS = 0, and with MK = 0 on a vector word. -/
def lanePermits (i : Instr) : Bool :=
  match i with
  | .mov _ _ _ | .movi _ _ | .add _ _ _ | .addi _ _ _ | .sub _ _ _ | .mul _ _ _ | .mulhi _ _ _ _ | .and _ _ _ | .andi _ _ _ | .or _ _ _
  | .ori _ _ _ | .xor _ _ _ | .xori _ _ _ | .shl _ _ _ | .shr _ _ _ | .sar _ _ _ | .shli _ _ _ | .shri _ _ _ | .sari _ _ _ | .clz _ _
  | .popc _ _ | .min _ _ _ _ | .max _ _ _ _ | .cmp _ _ _ _ | .cmpi _ _ _ _ | .sel _ _ _ _ | .nop
  | .br _ | .brc _ _ _ _ | .brz _ _ | .brnz _ _ | .wsync _ _ | .ljoin | .sts _ _ _ _ _ | .fence _ _ => true
  | .div fs _ _ _ _ | .rem fs _ _ _ _ | .lds fs _ _ _ _ _ | .atom fs _ _ _ _ _ _ _ | .cas fs _ _ _ _ _ _ => fs == .none
  | .vfadd mk _ _ et _ _ _ | .vfsub mk _ _ et _ _ _ | .vfmul mk _ _ et _ _ _ | .vfma mk _ _ et _ _ _ _ | .vfnma mk _ _ et _ _ _ _
  | .vfmin mk _ et _ _ _ | .vfmax mk _ et _ _ _ | .vfabs mk _ et _ _ => mk == 0#3 && et == .fp32
  | .vfdiv fs mk _ _ et _ _ _ | .vfsqrt fs mk _ _ et _ _ | .vfrsq fs mk _ _ et _ _ | .vfrcp fs mk _ _ et _ _ | .vfexp2 fs mk _ _ et _ _
  | .vflog2 fs mk _ _ et _ _ => fs == .none && mk == 0#3 && et == .fp32
  | _ => false

/-- The charge of a word (Table 4 of R375), copies aside: a word of the vector units by VL, in lane mode by the lanes of the issuing group; a matrix word by the grant of its slot. -/
def tollOf (s : State) (i : Instr) : Option Nat :=
  let lanes := s.warp.inLanes
  let group := s.warp.group.length
  let vector (k : Nat) : Option Nat := if lanes then none else some (s.warp.vl * k)
  let float (k : Nat) : Option Nat := some ((if lanes then group else s.warp.vl) * k)
  let laneOnly : Option Nat := if lanes then some group else none
  let granted (n : BitVec 3) (f : Grant → Nat) : Option Nat := some (match (s.team.slot n).grant with
    | some g => (f g + 1023) / 1024
    | none => 0)
  match i with
  | .mand _ _ _ | .mor _ _ _ | .mxor _ _ _ | .mandn _ _ _ | .mnot _ _ | .mmov _ _ | .mset _ _ _ | .mpopc _ _ | .mfirst _ _ => vector 1
  | .vadd _ _ _ _ _ _ | .vadds _ _ _ _ _ _ | .vsub _ _ _ _ _ _ | .vsubs _ _ _ _ _ _ | .vmul _ _ _ _ _ _ | .vmulhi _ _ _ _ _ _
  | .vmad _ _ _ _ _ _ _ | .vmin _ _ _ _ _ _ | .vmax _ _ _ _ _ _ | .vabs _ _ _ _ _ _ | .vand _ _ _ _ _ _ | .vor _ _ _ _ _ _
  | .vxor _ _ _ _ _ _ | .vshl _ _ _ _ _ _ | .vshr _ _ _ _ _ _ | .vsar _ _ _ _ _ _ | .vcmp _ _ _ _ _ _ _ | .vmrg _ _ _ _ _
  | .vwid _ _ _ _ _ _ | .vsatn _ _ _ _ _ _ | .viota _ _ _ _ _ _ | .vbcs _ _ _ _ _ | .vpopc _ _ _ _ _ | .vaddi _ _ _ _ _ | .vclz _ _ _ _ _ => vector 1
  | .vperm _ _ _ _ _ _ | .vslup _ _ _ _ _ _ | .vsldn _ _ _ _ _ _ | .vbcast _ _ _ _ _ _ | .vcmprs _ _ _ _ | .vexpnd _ _ _ _ | .vtr8 _ _ _ _ _
  | .vredsum _ _ _ _ _ | .vredmax _ _ _ _ | .vredmin _ _ _ _ | .vscan _ _ _ _ _ _ _ | .vextr _ _ _ _ | .vins _ _ _ _ => vector 1
  | .vfcmp _ _ _ _ _ _ _ | .vfclass _ _ _ _ _ | .vcvt _ _ _ _ _ _ _ _ | .vqnt _ _ _ _ _ _ | .vdqnt _ _ _ _ _ _ _ _ => vector 2
  | .vfadd _ _ _ _ _ _ _ | .vfsub _ _ _ _ _ _ _ | .vfmul _ _ _ _ _ _ _ | .vfma _ _ _ _ _ _ _ _ | .vfnma _ _ _ _ _ _ _ _ | .vfmin _ _ _ _ _ _
  | .vfmax _ _ _ _ _ _ | .vfabs _ _ _ _ _ => float 2
  | .vfdiv _ _ _ _ _ _ _ _ | .vfsqrt _ _ _ _ _ _ _ | .vfrsq _ _ _ _ _ _ _ | .vfrcp _ _ _ _ _ _ _ | .vfexp2 _ _ _ _ _ _ _
  | .vflog2 _ _ _ _ _ _ _ => float 8
  | .vld _ _ _ _ _ _ _ _ | .vlds _ _ _ _ _ _ _ _ _ | .vldx _ _ _ _ _ _ _ _ _ | .vst _ _ _ _ _ _ | .vsts _ _ _ _ _ _ _ | .vstx _ _ _ _ _ _ _
  | .vldst _ _ _ _ _ _ | .vstst _ _ _ _ | .vatom _ _ _ _ _ _ _ _ _ _ _ | .vcas _ _ _ _ _ _ _ _ _
  | .tslv _ _ _ _ _ _ _ _ _ | .tsvl _ _ _ _ _ _ _ | .tstr _ _ _ _ _ _ _ _ _ _ => vector 1
  | .lds _ _ _ _ _ _ | .sts _ _ _ _ _ | .atom _ _ _ _ _ _ _ _ | .cas _ _ _ _ _ _ _ => laneOnly
  | .tzero n | .tcsclLd _ n _ | .tcsclOne _ n | .tsave _ n _ | .tload _ n _ => granted n fun g => g.m * g.n
  | .tldb _ n _ _ => granted n fun g => g.k * g.n
  | .tmma _ n _ | .tmmas _ n _ _ => (granted n fun g => g.m * g.n * g.k).map (· * ((s.team.slot n).grant.elim 0 fun g => digitsOf g.aty))
  | _ => none

/-- What a charged word needs at issue beside its register fields, before it comes to the toll gate: a stream defined in its direction, tile state. -/
def unitReady (s : State) (i : Instr) : Prop :=
  match i with
  | .vldst _ _ _ _ _ a => (s.warp.stream a).defined = true ∧ (s.warp.stream a).store = false
  | .vstst _ _ a _ => (s.warp.stream a).defined = true ∧ (s.warp.stream a).store = true
  | .tzero _ | .tcsclLd _ _ _ | .tcsclOne _ _ | .tsave _ _ _ | .tload _ _ _ | .tldb _ _ _ _ | .tmma _ _ _ | .tmmas _ _ _ _
  | .tslv _ _ _ _ _ _ _ _ _ | .tsvl _ _ _ _ _ _ _ | .tstr _ _ _ _ _ _ _ _ _ _ => s.team.tiles = true ∧ s.warp.lanes = none
  | _ => True

/-! ## Accesses to memory (09_loads_stores_streams.md) -/

/-- The parts of a warp that an access may change; no mask, no trap state, no FPSTAT, no lane's counts. -/
def accessWarp (w x : Warp) : Warp :=
  { w with
    s := x.s, v := x.v, st := x.st, pending := x.pending, seq := x.seq, vl := x.vl, vpad := x.vpad, vstart := x.vstart, pos := x.pos,
    lanes := x.lanes, lease := x.lease, yieldOff := x.yieldOff, yieldLow := x.yieldLow, wait := 0, urgent := false, park := .none,
    service := {}, paid := false }

/-- The lane words as they will be once a pending result is visible. -/
def landed (s : State) (o : Outstanding) : State := { s with warp := { s.warp with v := applyWrites s.warp.v o.vWrites } }

/-- An access that stores nothing leaves memory as it was; caches may keep translations. -/
structure LoadFrame (s t : State) (toll : Nat) : Prop where
  rest : t = { s with cores := t.cores, xlate := t.xlate, tables := t.tables, draws := s.draws + 1, warp := accessWarp s.warp t.warp }
  charge : ChargeTaken s t toll

/-- Two places of elements of width e that share no bit, seen under one key where they share a byte. -/
def apartFrom (e : Nat) (x y : Elt × Loc) : Prop :=
  y.2.key + eltBytes e ≤ x.2.key ∨ x.2.key + eltBytes e ≤ y.2.key ∨
    (e < 8 ∧ y.2.key = x.2.key ∧ (y.1.bit + e ≤ x.1.bit ∨ x.1.bit + e ≤ y.1.bit))

/-- One key pair for some writes, for the dirty lines of the caches, and for a reader (10_translation_and_faults.md R215; 18_host_link_and_management.md R388). -/
def oneKey (s : State) (xs : List (Elt × Loc)) (kid : Nat) : Prop :=
  (∀ x ∈ xs, keyPair s x.2.kid = keyPair s kid) ∧ ∀ d ∈ s.dirty, keyPair s d.kid = keyPair s kid

/-- Stores that no write-back goes before: all are made in the caches, or all at the memory while no line is dirty. Another store may first recall a dirty line, and lose its bale to an error (09 R200; 16_bales.md R366). -/
def calm (s : State) (xs : List (Elt × Loc)) : Prop := (∀ x ∈ xs, x.2.mt = 0) ∨ (s.dirty = [] ∧ ∀ x ∈ xs, x.2.mt ≠ 0)

/-- A byte that stores of elements leave as it reads under a key: outside DRAM, every byte that they do not write; in DRAM, every byte outside the lines that they write in the caches and the bales that they write at the memory, and, where one key pair is in use and no write-back goes before, every byte that they do not write. -/
def untouched (s : State) (e : Nat) (xs : List (Elt × Loc)) (a kid : Nat) : Prop :=
  (∀ x ∈ xs, a < x.2.key ∨ x.2.key + eltBytes e ≤ a) ∧
  (regionOf s a ≠ .dram ∨ (oneKey s xs kid ∧ calm s xs) ∨
    ∀ x ∈ xs, x.2.key / 2048 ≠ a / 2048 ∨ (x.2.mt = 0 ∧ x.2.key / 128 ≠ a / 128))

/-- Elements of width e stored in order at their places: under one key pair, with no write-back before, each reads back what was stored last (in a memory of canonical form, which every step keeps), and every byte that they leave untouched reads as before. -/
structure ElementsStored (s t : State) (e : Nat) (xs : List (Elt × Loc)) (val : Nat → Word) : Prop where
  back : Memory.wf s.mem = true → ∀ pre x post, xs = pre ++ x :: post → oneKey s xs x.2.kid → calm s xs → x.1.bit + e ≤ 8 * eltBytes e →
    (∀ y ∈ post, apartFrom e x y) → loadElt t e x = lowBits e (val x.1.k)
  others : ∀ a kid, untouched s e xs a kid → readByte t a kid = readByte s a kid

/-- What stores of elements may report besides: an error that a write-back meets has an entry of an error record, its interrupt, and at most a line of the management log (09 R200; 18_host_link_and_management.md R385). -/
structure LossesOnly (s t : State) (xs : List (Elt × Loc)) : Prop where
  calmly : calm s xs → t.parts = s.parts ∧ t.outbox = s.outbox ∧ t.mgmt = s.mgmt
  parts : ∀ p, partOf t p = { partOf s p with errWait := (partOf t p).errWait, intstat := (partOf t p).intstat }
  log : t.mgmt = { s.mgmt with log := t.mgmt.log } ∧ s.mgmt.log <+: t.mgmt.log ∧ s.outbox <+: t.outbox

/-- An access that stores changes, beside its warp, memory and what goes with it: key tags, dirty lines, bale forms, healed errors, and the reports of its losses. -/
structure StoreFrame (s t : State) (xs : List (Elt × Loc)) (toll : Nat) : Prop where
  rest : t = { s with cores := t.cores, xlate := t.xlate, tables := t.tables, draws := s.draws + 1, mem := t.mem, keytags := t.keytags,
                      dirty := t.dirty, bales := t.bales, bad := t.bad, badMap := t.badMap, parts := t.parts, outbox := t.outbox, mgmt := t.mgmt,
                      warp := accessWarp s.warp t.warp }
  losses : LossesOnly s t xs
  charge : ChargeTaken s t toll

/-- A stream apart from what its engine has read ahead. -/
def Stream.plain (x : Stream) : Stream := { x with ahead := [], held := [] }

/-- The live elements of a strip in ascending order, at the addresses that `place` gives (R192). -/
def asked (w : Warp) (mk : BitVec 3) (place : Nat → Int × Nat) : List Elt :=
  (((List.range w.vl).drop w.vstart).filter fun k => maskBit w mk k && decide (k < w.vl - w.vpad)).map fun k =>
    { k := k, va := (place k).1, bit := (place k).2 }

/-- The strip state and `vstart` after an access that ends at `hi`, by a trim or at VL (R192, R193). -/
def stripAfter (w x : Warp) (stop : Option Stop) : Prop :=
  match stop with
  | none => x.vl = w.vl ∧ x.vpad = w.vpad ∧ x.vstart = 0
  | some (.trim k) => x.vl = k ∧ x.vpad = 0 ∧ x.vstart = 0
  | some (.fault _ _) | some (.error _ _) => False

/-- Where an access ends. -/
def endOf (w : Warp) (stop : Option Stop) : Nat :=
  match stop with
  | none => w.vl
  | some st => st.at

/-- The element that a load reads for element k: zero where it is pad, and bits [15:12] zero for SC12 (06_numbers_and_float.md R126). -/
def loadedElem (s : State) (et : ET) (xs : List (Elt × Loc)) (k : Nat) : LaneWord :=
  match xs.find? fun x => x.1.k == k with
  | some x => (if et = .sc12 then (loadElt s et.width x).setWidth 32 &&& 0xFFF#32 else (loadElt s et.width x).setWidth 32)
  | none => 0#32

/-! ## Page tables (10_translation_and_faults.md R211–R215) -/

/-- Bits hi to lo of a word, as a number. -/
def bitsOf (e : Word) (hi lo : Nat) : Nat := e.toNat / 2 ^ lo % 2 ^ (hi + 1 - lo)

/-- The index of a level of a walk (Table 2). -/
def walkIndex (stage level x : Nat) : Nat :=
  match level with
  | 0 => x / 2 ^ 39 % 2 ^ (if stage = 1 then 15 else 13)
  | 1 => x / 2 ^ 30 % 2 ^ 9
  | 2 => x / 2 ^ 21 % 2 ^ 9
  | _ => x / 2 ^ 16 % 2 ^ 5

/-- A malformed entry (R212, Table 3). -/
def badEntry (stage level : Nat) (s2en : Bool) (e : Word) : Prop :=
  if bitsOf e 1 1 = 1 then
    level = 3 ∨ bitsOf e 63 52 ≠ 0 ∨ bitsOf e 7 2 ≠ 0 ∨ (level ≠ 2 ∧ bitsOf e 11 8 ≠ 0)
  else
    level = 0 ∨ bitsOf e 63 63 ≠ 0 ∨ bitsOf e 53 52 ≠ 0 ∨ bitsOf e 15 12 ≠ 0 ∨ bitsOf e 10 10 ≠ 0 ∨ bitsOf e 7 6 ≠ 0 ∨ bitsOf e 9 8 = 3 ∨
      (level = 2 ∧ bitsOf e 20 16 ≠ 0) ∨ (level = 1 ∧ bitsOf e 29 16 ≠ 0) ∨ (stage = 2 ∧ bitsOf e 5 5 = 1) ∨
      (stage = 1 ∧ s2en = true ∧ (bitsOf e 62 54 ≠ 0 ∨ bitsOf e 11 11 = 1))

/-- What a leaf of a level maps an address to: OA in place of the bits at and above the leaf's size, 1 GiB, 2 MiB or 64 KiB. -/
def leafAddr (e : Word) (level x : Nat) : Nat :=
  let size := if level = 1 then 2 ^ 30 else if level = 2 then 2 ^ 21 else 2 ^ 16
  bitsOf e 51 16 * 2 ^ 16 / size * size + x % size

/-- A KEYID in the partition's range (R215). -/
def ownKey (p : Partition) (kid : Nat) : Prop := p.keybase.toNat ≤ kid ∧ kid < p.keybase.toNat + p.keycnt.toNat

/-- The first permission of R214 that a leaf denies an access, privilege aside: RD before W. -/
def denied (acc : Access) (e : Word) : Option (BitVec 8) :=
  let rd := if bitsOf e 2 2 = 1 then none else some 0x58#8
  let w := if bitsOf e 3 3 = 1 then none else some 0x59#8
  match acc with
  | .read => rd
  | .write => w
  | .readWrite => rd.or w
  | .fetch => if bitsOf e 4 4 = 1 then none else some 0x5A#8

/-! ## Copies and tiles (12_copies.md, 13_matrix_grants_and_engine.md, 14_matrix_instructions.md) -/

/-- A flag-capable word without a result: done at once without a flag, and outstanding under one, its status pending with it (02_words_and_registers.md R34, R35). -/
def borne (s t : State) (fs : FSel) (status : BitVec 7) : Prop :=
  (fs = .none → t.warp.pending = s.warp.pending ∧ t.warp.fpstat = s.warp.fpstat ||| status) ∧
  (fs ≠ .none → t.warp.fpstat = s.warp.fpstat ∧ ∃ o, t.warp.pending = s.warp.pending ++ [o] ∧ o.flag = flagOf s.warp.pos fs ∧ o.seq = s.warp.seq ∧
    o.done = false ∧ o.fault = none ∧ o.status = status ∧ o.sWrite = none ∧ o.vWrites = [])

/-- The parts of a warp that a word on channels or slots may change. -/
def teamWarp (w x : Warp) : Warp :=
  { w with
    s := x.s, v := x.v, pending := x.pending, seq := x.seq, fpstat := x.fpstat, vstart := x.vstart, pos := x.pos, lease := x.lease,
    yieldOff := x.yieldOff, yieldLow := x.yieldLow, wait := 0, urgent := false, park := .none, service := {}, paid := false }

/-- A word that acts on its team's channels or slots leaves every other part of the machine as it was in `m`: the state before it, with what an access of its own to memory changes. -/
structure TeamFrame (m t : State) : Prop where
  rest : t = { m with
    cores := t.cores, draws := t.draws, warp := teamWarp m.warp t.warp,
    team := { m.team with tiles := t.team.tiles, slots := t.team.slots, chans := t.team.chans, late := t.team.late } }

/-- The toll of a word is charged, and then its operand is kept by the array of its core. -/
def chargedThen (s t : State) (toll : Nat) (keeps : State → State) : Prop :=
  ∃ cs, ChargeTaken s { t with cores := cs } toll ∧ t.cores = (keeps { t with cores := cs }).cores

/-- Of the team only one slot has changed, and the operations that join those accepted. -/
structure SlotChanged (m t : State) (n : BitVec 3) (ops : List LateOp) (x : Slot) : Prop where
  slot : t.team.slot n = x
  others : ∀ k, k ≠ n → t.team.slot k = m.team.slot k
  tiles : t.team.tiles = m.team.tiles
  chans : t.team.chans = m.team.chans
  late : t.team.late = m.team.late ++ ops
  uniform : t.warp.s = m.warp.s
  vectors : t.warp.v = m.warp.v
  start : t.warp.vstart = m.warp.vstart
  goes : t.warp.pos = m.warp.pos.after
  frame : TeamFrame m t

/-- Of the team only one channel has changed. -/
structure ChannelChanged (m t : State) (n : BitVec 4) (x : Channel) : Prop where
  chan : t.team.chan n = x
  others : ∀ k, k ≠ n → t.team.chan k = m.team.chan k
  slots : t.team.slots = m.team.slots
  tiles : t.team.tiles = m.team.tiles
  late : t.team.late = m.team.late
  vectors : t.warp.v = m.warp.v
  status : t.warp.fpstat = m.warp.fpstat
  start : t.warp.vstart = m.warp.vstart
  goes : t.warp.pos = m.warp.pos.after
  frame : TeamFrame m t

/-- A copy instruction issues (R261, R268, R273): its toll is charged, the channel's next ID goes to the destination register, the instruction is outstanding under its flag, and the copy joins those in flight, holding the lines that it writes so far as they have their places (11_atomics_and_ordering.md R242). -/
def issuesCopy (i : Instr) (s : State) (fs : FSel) (d : BitVec 6) (ch : BitVec 4) (toll : Nat) (c : Copy) : Prop :=
  let x := s.team.chan ch
  let ref : CopyRef := { team := s.team.tid, ch := ch, id := x.n }
  let own : Copy := { c with ref := ref, order := s.nextCopy }
  let held := destLines s own (copyElts own 0 own.total)
  affords s toll → ∃ t o, exec i s = .next t ∧
    ChannelChanged { s with
      copies := s.copies ++ [{ own with held := held, unheld := (destChecks s own (copyElts own 0 own.total)).any Check.open }], absent := t.absent, nextCopy := s.nextCopy + 1 } t ch { x with n := x.n + 1 } ∧
    (∀ l, lineAbsent t l = true ↔ lineAbsent s l = true ∨ l ∈ held) ∧ chargedThen s t toll id ∧
    wroteS s.warp t.warp d (BitVec.ofNat 64 x.n) ∧ t.warp.pending = s.warp.stoppedS d ++ [o] ∧
    o.copy = some ref ∧ o.flag = flagOf s.warp.pos fs ∧ o.done = false ∧ o.fault = none ∧ o.seq = s.warp.seq

/-- A copy of no elements issues and completes at once (R273): it takes the channel's next ID, and holds nothing. -/
def emptyCopy (i : Instr) (s : State) (fs : FSel) (d : BitVec 6) (ch : BitVec 4) : Prop :=
  let x := s.team.chan ch
  ∃ t o, exec i s = .next t ∧ t.warp.pending = s.warp.stoppedS d ++ [o] ∧ o.done = true ∧ o.flag = flagOf s.warp.pos fs ∧ o.fault = none ∧
    o.seq = s.warp.seq ∧ wroteS s.warp t.warp d (BitVec.ofNat 64 x.n) ∧ ChannelChanged s t ch (Channel.complete { x with n := x.n + 1 } x.n)

/-- A shape record that Table 5 of R273 rejects: a reserved field is nonzero, or its ET is 15 (R257, Table 1). -/
def badRecord (s : State) (r : BitVec 6) : Prop :=
  let w (n : Nat) : Nat := (laneOf s r n).toNat
  w 11 ≠ 0 ∨ w 13 / 2 ^ 30 ≠ 0 ∨ w 14 / 2 ^ 26 ≠ 0 ∨ w 15 / 2 ^ 27 ≠ 0 ∨ w 15 % 16 = 15

/-- Of some conditions with their reasons the first that holds decides what happens; where none holds, the rest does. -/
def firstHolds (stops : Nat → Prop) (rest : Prop) : List (Prop × Nat) → Prop
  | [] => rest
  | (p, reason) :: others => (p → stops reason) ∧ (¬ p → firstHolds stops rest others)

/-- A matrix word of a team whose tile state is enabled, on a slot that holds a grant. -/
structure SlotReady (s : State) (n : BitVec 3) (g : Grant) : Prop where
  mode : s.warp.lanes = none
  below : n.toNat < s.team.launch.tiles
  enabled : s.team.tiles = true
  grant : (s.team.slot n).grant = some g

/-- Boxes that pass their address phase (14_matrix_instructions.md R308). -/
structure BoxesReady (s : State) (bs : List Tablet) : Prop where
  aligned : ∀ b ∈ bs, b.base % 64 = 0
  owned : ∀ b ∈ bs, ∀ k, k < max 1 b.span →
    inWindow (b.base + k) = true ∧ backed s (b.base + k - Config.windowBase) = true ∧ ownedBy s s.team.part (b.base + k - Config.windowBase) = true

/-- Boxes that are read at once: no line of theirs is absent, and no element lies in an uncorrectable error. -/
structure BoxesWhole (s : State) (bs : List Tablet) : Prop where
  present : ∀ b ∈ bs, ∀ l ∈ b.lines, lineAbsent s l = false
  whole : ∀ b ∈ bs, b.bad (memoryNow s) = none

/-- A matrix word is accepted and performs later (R309): it is outstanding, with no result yet. -/
def acceptsLate (s t : State) (fs : FSel) : Prop :=
  t.warp.fpstat = s.warp.fpstat ∧ ∃ o, t.warp.pending = s.warp.pending ++ [o] ∧ o.late = true ∧ o.done = false ∧ o.flag = flagOf s.warp.pos fs ∧
    o.seq = s.warp.seq ∧ o.fault = none ∧ o.status = 0#7 ∧ o.sWrite = none ∧ o.vWrites = []

/-- Truncation toward zero to a multiple of a unit. -/
def truncTo (unit q : ℚ) : ℚ := (if 0 ≤ q then ⌊q / unit⌋ else ⌈q / unit⌉ : Int) * unit

/-! ## Warps that start and teams that come back (02_words_and_registers.md R44; 15_system_and_traps.md R348, R349) -/

/-- A warp in its initial state at an address: the team base in `s60`, ARG0 to ARG3 in `s1` to `s4`, everything else zero, undefined or empty. -/
structure FreshWarp (l : LaunchRecord) (base idx hdr : Nat) (w : Warp) : Prop where
  runs : w.status = .running
  index : w.idx = idx
  stands : w.pos = { hdr := (hdr : Int) }
  uniform : ∀ r : BitVec 6, w.readS r =
    if r = 60#6 then BitVec.ofNat 64 (Config.windowBase + base)
    else if 1 ≤ r.toNat ∧ r.toNat ≤ 4 then l.args.getD (r.toNat - 1) 0#64 else 0#64
  vectors : w.v = List.replicate (l.warpw * l.vregs) 0#32
  masks : ∀ r : BitVec 3, w.readM r = if r = 0#3 then BitVec.allOnes 1024 else 0
  strip : w.vl = 0 ∧ w.vpad = 0 ∧ w.vstart = 0
  float : w.fpstat = 0#7 ∧ w.fpctl = 0#6
  streams : ∀ r : BitVec 3, w.stream r = {}
  empty : w.pending = [] ∧ w.lanes = none ∧ w.intrap = false ∧ w.reissue = none ∧ w.park = .none ∧ w.lease = 0

/-- What a forced full save keeps of a warp: all of it but a translation that it had pinned, a page service that had failed, what its streams had read ahead, its lease, and the park of an access that executes again; every instruction that no engine holds has completed, and none has committed. -/
structure SavedWhole (w x : Warp) : Prop where
  rest : x = { w with
    status := .savedWhole, pending := x.pending, st := x.st, park := x.park, service := { w.service with failed := [], pins := [] }, paid := false,
    lease := 0, wait := 0, urgent := false, yieldOff := 0, yieldLow := 0, taken := 0 }
  completed : x.pending = w.pending.map fun o => if o.copy = none ∧ o.late = false then { o with done := true } else o
  streams : ∀ r, x.stream r = (w.stream r).plain
  waits : x.park = match w.park with
    | .cell _ _ _ | .presence _ | .toll _ => .none
    | p => p

/-- A warp resumed with its team at a new base: `s60` rewritten, its saved PCs moved through the waymarks, its vector and mask state free where it was dead, everything else as it was saved. -/
structure WarpResumed (s : State) (base : Nat) (w x : Warp) : Prop where
  rest : x = { waymarkWarp s s.team.part w with
    s := x.s, v := x.v, m := x.m, status := x.status, core := x.core, slot := x.slot, taken := 0, stopAt := x.stopAt, due := x.due }
  runs : x.status = match w.status with
    | .saved _ | .savedWhole => .running
    | y => y
  uniform : ∀ r : BitVec 6, x.readS r = if r = 60#6 then BitVec.ofNat 64 (Config.windowBase + base) else w.readS r
  vectors : w.status ≠ .saved true → x.v = w.v ∧ x.m = w.m

end Sys2Proof.Machine
end

