-- ==== Sys2Proof/Certificates/Slice0/Obligations.lean ====
section
/-! DEFINITION. The statements for the provers: what the instructions, the events and the machine do, in the terms of the rules of spec/ that each one cites. -/
open Sys2Proof Sys2Proof.Machine

/-! ## The scalar instructions (04_scalar_and_flow.md) -/

/-- R75: the moves and immediate loads outside lane mode. R76, the R forms outside lane mode, where n = 64. R76 and R78, the immediate and one-operand forms outside lane mode, `SEL` and `NOP`. R78: the six conditions, by the integers that the operands hold. -/
def Obligations.UniformResults : Prop :=
  (∀ (s : State) (d a : BitVec 6) (imm : BitVec 32), s.warp.lanes = none →
     gives (.mov false d a) s d (s.warp.readS a) ∧
     gives (.movi d imm) s d (BitVec.ofNat 64 imm.toNat) ∧
     gives (.movhi d a imm) s d (BitVec.ofNat 64 (imm.toNat * 2 ^ 32 + (s.warp.readS a).toNat % 2 ^ 32)) ∧
     gives (.adrc d imm) s d (BitVec.ofInt 64 (s.warp.pos.hdr + imm.toInt * 8))) ∧
  (∀ (s : State) (d a b : BitVec 6), s.warp.lanes = none →
     let x := s.warp.readS a
     let y := s.warp.readS b
     let k := y.toNat % 64
     gives (.add d a b) s d (BitVec.ofNat 64 (x.toNat + y.toNat)) ∧
     gives (.sub d a b) s d (BitVec.ofInt 64 ((x.toNat : Int) - y.toNat)) ∧
     gives (.mul d a b) s d (BitVec.ofNat 64 (x.toNat * y.toNat)) ∧
     gives (.mulhi .signed d a b) s d (BitVec.ofInt 64 (x.toInt * y.toInt / 2 ^ 64)) ∧
     gives (.mulhi .unsigned d a b) s d (BitVec.ofNat 64 (x.toNat * y.toNat / 2 ^ 64)) ∧
     gives (.and d a b) s d (x &&& y) ∧ gives (.or d a b) s d (x ||| y) ∧ gives (.xor d a b) s d (x ^^^ y) ∧
     gives (.shl d a b) s d (BitVec.ofNat 64 (x.toNat * 2 ^ k)) ∧
     gives (.shr d a b) s d (BitVec.ofNat 64 (x.toNat / 2 ^ k)) ∧
     gives (.sar d a b) s d (BitVec.ofInt 64 (x.toInt / 2 ^ k)) ∧
     gives (.min .signed d a b) s d (BitVec.ofInt 64 (min x.toInt y.toInt)) ∧
     gives (.min .unsigned d a b) s d (BitVec.ofNat 64 (min x.toNat y.toNat)) ∧
     gives (.max .signed d a b) s d (BitVec.ofInt 64 (max x.toInt y.toInt)) ∧
     gives (.max .unsigned d a b) s d (BitVec.ofNat 64 (max x.toNat y.toNat))) ∧
  (∀ (s : State) (d a b c : BitVec 6) (imm : BitVec 32) (k : BitVec 6) (cc : Cond), s.warp.lanes = none →
     let x := s.warp.readS a
     let si : Word := BitVec.ofInt 64 imm.toInt
     gives (.addi d a imm) s d (BitVec.ofInt 64 ((x.toNat : Int) + imm.toInt)) ∧
     gives (.andi d a imm) s d (x &&& si) ∧ gives (.ori d a imm) s d (x ||| si) ∧ gives (.xori d a imm) s d (x ^^^ si) ∧
     gives (.shli d a k) s d (BitVec.ofNat 64 (x.toNat * 2 ^ k.toNat)) ∧
     gives (.shri d a k) s d (BitVec.ofNat 64 (x.toNat / 2 ^ k.toNat)) ∧
     gives (.sari d a k) s d (BitVec.ofInt 64 (x.toInt / 2 ^ k.toNat)) ∧
     gives (.clz d a) s d (BitVec.ofNat 64 (((List.range 64).reverse.takeWhile fun i => !x.getLsbD i).length)) ∧
     gives (.popc d a) s d (BitVec.ofNat 64 ((List.range 64).countP fun i => x.getLsbD i)) ∧
     gives (.cmp cc d a b) s d (if condHolds cc x (s.warp.readS b) then 1#64 else 0#64) ∧
     gives (.cmpi cc d a imm) s d (if condHolds cc x si then 1#64 else 0#64) ∧
     gives (.sel d a b c) s d (if s.warp.readS c ≠ 0#64 then x else s.warp.readS b) ∧
     (∃ t, exec .nop s = .next t ∧ t.warp.s = s.warp.s ∧ t.warp.pending = s.warp.pending ∧ t.warp.pos = s.warp.pos.after ∧ UniformFrame s t)) ∧
  (∀ (n : Nat) (x y : BitVec n),
     (condHolds .eq x y = true ↔ x.toNat = y.toNat) ∧ (condHolds .ne x y = true ↔ x.toNat ≠ y.toNat) ∧
     (condHolds .lt x y = true ↔ x.toInt < y.toInt) ∧ (condHolds .le x y = true ↔ x.toInt ≤ y.toInt) ∧
     (condHolds .ltu x y = true ↔ x.toNat < y.toNat) ∧ (condHolds .leu x y = true ↔ x.toNat ≤ y.toNat))

/-- R77: `DIV` and `REM` without a flag are synchronous and write their result. R77 with R34 to R37: under a flag the result is pending, attached to the flag that the clause header names, and every register still reads its older value. R77 and R83: a division that meets an uncorrectable error in the divider's state takes the machine check in place of a result, in each lane's division too; under a flag it is recorded against the flag. The error is met once: it stays while the trap waits for outstanding flags, and where a fault recorded before it is taken in its place. R37 with condition 15 of R32: a flagged issue that would bring the pending destinations above 16 takes the illegal-instruction trap with reason 0x07, and has no other effect. The model's choices in it: log 62. -/
def Obligations.Division : Prop :=
  (∀ (s : State) (sg : Sgn) (d a b : BitVec 6), s.warp.lanes = none → (coreOf s s.warp.core).divBad = false →
     gives (.div .none sg d a b) s d (BitVec.ofInt 64 (quotientOf sg (s.warp.readS a) (s.warp.readS b))) ∧
     gives (.rem .none sg d a b) s d (BitVec.ofInt 64 (remainderOf sg (s.warp.readS a) (s.warp.readS b)))) ∧
  (∀ (s : State) (fs : FSel) (sg : Sgn) (d a b : BitVec 6), s.warp.lanes = none → fs ≠ .none →
     (coreOf s s.warp.core).divBad = false → s.warp.dests + (if d = 0#6 then 0 else 1) ≤ 16 →
     let pends (i : Instr) (v : Int) : Prop :=
       ∃ t o, exec i s = .next t ∧ PendsOne s t o ∧ o.flag = flagOf s.warp.pos fs ∧ o.fault = none ∧
         o.dests = (if d = 0#6 then 0 else 1) ∧ o.sWrite = (if d = 0#6 then none else some (d, BitVec.ofInt 64 v)) ∧
         t.cores = s.cores ∧ t.draws = s.draws
     pends (.div fs sg d a b) (quotientOf sg (s.warp.readS a) (s.warp.readS b)) ∧
     pends (.rem fs sg d a b) (remainderOf sg (s.warp.readS a) (s.warp.readS b))) ∧
  (∀ (s : State) (fs : FSel) (sg : Sgn) (d a b : BitVec 6), (coreOf s s.warp.core).divBad = true →
     let cleared : State := { onCore s s.warp.core (fun c => { c with divBad := false }) with draws := s.draws + 2 }
     let check (info va : Word) : Report := { cause := .machineCheck, info := info, va := va }
     let traps (i : Instr) : Prop := ∃ info va, exec i s =
       .next (trapHere (if trapTaken s = true then cleared else { s with draws := s.draws + 2 }) (check info va) s.warp.vstart)
     let records (i : Instr) : Prop :=
       ∃ t o info va, exec i s = .next t ∧ PendsOne s t o ∧ o.flag = flagOf s.warp.pos fs ∧
         o.fault = some (check info va, s.warp.vstart) ∧ o.dests = (if d = 0#6 then 0 else 1) ∧ o.sWrite = none ∧
         t.cores = cleared.cores ∧ t.draws = s.draws + 2
     (s.warp.lanes = none ∨ (d.toNat < s.r ∧ a.toNat < s.r ∧ b.toNat < s.r) →
       traps (.div .none sg d a b) ∧ traps (.rem .none sg d a b)) ∧
     (s.warp.lanes = none → fs ≠ .none → s.warp.dests + (if d = 0#6 then 0 else 1) ≤ 16 →
       records (.div fs sg d a b) ∧ records (.rem fs sg d a b))) ∧
  (∀ (s : State) (fs : FSel) (sg : Sgn) (d a b : BitVec 6), s.warp.lanes = none → fs ≠ .none → d ≠ 0#6 → 16 ≤ s.warp.dests →
     exec (.div fs sg d a b) s = .next (trapHere s { cause := .illegal, info := 0x07#64 } s.warp.vstart) ∧
     exec (.rem fs sg d a b) s = .next (trapHere s { cause := .illegal, info := 0x07#64 } s.warp.vstart))

/-- R84 with R74: in lane mode each lane of the issuing group computes on its own 32-bit words; no other lane, word or position changes. R138: in lane mode a floating word computes one FP32 element for each lane of the group; an enabled exception in any of them leaves every lane unwritten and names the lowest. -/
def Obligations.LaneResults : Prop :=
  (∀ (s : State) (lm : LaneMode) (d a b c : BitVec 6) (imm : BitVec 32) (n : BitVec 6) (cc : Cond) (sg : Sgn),
     LaneShape s lm → d.toNat < s.r → a.toNat < s.r → b.toNat < s.r → c.toNat < s.r →
     let x (l : Nat) := laneOf s a l
     let y (l : Nat) := laneOf s b l
     let wide (v : LaneWord) : Word := match sg with
       | .signed => v.signExtend 64
       | .unsigned => v.setWidth 64
     let lanes (i : Instr) (f : Nat → LaneWord) : Prop := givesLanes i s lm d f
     lanes (.mov false d a) x ∧ lanes (.movi d imm) (fun _ => imm) ∧
     lanes (.add d a b) (fun l => BitVec.ofNat 32 ((x l).toNat + (y l).toNat)) ∧
     lanes (.addi d a imm) (fun l => BitVec.ofInt 32 (((x l).toNat : Int) + imm.toInt)) ∧
     lanes (.sub d a b) (fun l => BitVec.ofInt 32 (((x l).toNat : Int) - (y l).toNat)) ∧
     lanes (.mul d a b) (fun l => BitVec.ofNat 32 ((x l).toNat * (y l).toNat)) ∧
     lanes (.mulhi .signed d a b) (fun l => BitVec.ofInt 32 ((x l).toInt * (y l).toInt / 2 ^ 32)) ∧
     lanes (.mulhi .unsigned d a b) (fun l => BitVec.ofNat 32 ((x l).toNat * (y l).toNat / 2 ^ 32)) ∧
     ((coreOf s s.warp.core).divBad = false → lanes (.div .none sg d a b) (fun l => BitVec.ofInt 32 (quotientOf sg (wide (x l)) (wide (y l))))) ∧
     ((coreOf s s.warp.core).divBad = false → lanes (.rem .none sg d a b) (fun l => BitVec.ofInt 32 (remainderOf sg (wide (x l)) (wide (y l))))) ∧
     lanes (.and d a b) (fun l => x l &&& y l) ∧ lanes (.andi d a imm) (fun l => x l &&& imm) ∧
     lanes (.or d a b) (fun l => x l ||| y l) ∧ lanes (.ori d a imm) (fun l => x l ||| imm) ∧
     lanes (.xor d a b) (fun l => x l ^^^ y l) ∧ lanes (.xori d a imm) (fun l => x l ^^^ imm) ∧
     lanes (.shl d a b) (fun l => BitVec.ofNat 32 ((x l).toNat * 2 ^ ((y l).toNat % 32))) ∧
     lanes (.shr d a b) (fun l => BitVec.ofNat 32 ((x l).toNat / 2 ^ ((y l).toNat % 32))) ∧
     lanes (.sar d a b) (fun l => BitVec.ofInt 32 ((x l).toInt / 2 ^ ((y l).toNat % 32))) ∧
     lanes (.shli d a n) (fun l => BitVec.ofNat 32 ((x l).toNat * 2 ^ (n.toNat % 32))) ∧
     lanes (.shri d a n) (fun l => BitVec.ofNat 32 ((x l).toNat / 2 ^ (n.toNat % 32))) ∧
     lanes (.sari d a n) (fun l => BitVec.ofInt 32 ((x l).toInt / 2 ^ (n.toNat % 32))) ∧
     lanes (.clz d a) (fun l => BitVec.ofNat 32 (((List.range 32).reverse.takeWhile fun i => !(x l).getLsbD i).length)) ∧
     lanes (.popc d a) (fun l => BitVec.ofNat 32 ((List.range 32).countP fun i => (x l).getLsbD i)) ∧
     lanes (.min .signed d a b) (fun l => BitVec.ofInt 32 (min (x l).toInt (y l).toInt)) ∧
     lanes (.min .unsigned d a b) (fun l => BitVec.ofNat 32 (min (x l).toNat (y l).toNat)) ∧
     lanes (.max .signed d a b) (fun l => BitVec.ofInt 32 (max (x l).toInt (y l).toInt)) ∧
     lanes (.max .unsigned d a b) (fun l => BitVec.ofNat 32 (max (x l).toNat (y l).toNat)) ∧
     lanes (.cmp cc d a b) (fun l => if condHolds cc (x l) (y l) then 1#32 else 0#32) ∧
     lanes (.cmpi cc d a imm) (fun l => if condHolds cc (x l) imm then 1#32 else 0#32) ∧
     lanes (.sel d a b c) (fun l => if laneOf s c l ≠ 0#32 then x l else y l) ∧
     (∀ r : BitVec 6, lanes (.mov true d r) (fun _ => BitVec.ofNat 32 (s.warp.readS r).toNat)) ∧
     (∃ t lm', exec .nop s = .next t ∧ t.warp.lanes = some lm' ∧ t.warp.v = s.warp.v ∧ t.warp.pending = s.warp.pending ∧
       (∀ l ∈ lm.group, (lm'.lane l).pos = (lm.lane l).pos.after) ∧ (∀ l, l ∉ lm.group → lm'.lane l = lm.lane l) ∧ LaneFrame s t)) ∧
  (∀ (s : State) (lm : LaneMode) (mz : Bool) (md : Mode) (d a b c : BitVec 6),
     LaneShape s lm → d.toNat < s.r → a.toNat < s.r → b.toNat < s.r → c.toNat < s.r →
     let x (l : Nat) := laneOf s a l
     let y (l : Nat) := laneOf s b l
     let z (l : Nat) := laneOf s c l
     let lanes (toll : Nat) (i : Instr) (f : Nat → Elem) : Prop := affords s (lm.group.length * toll) →
       ((∀ l ∈ lm.group, enabledTrap s.warp.fpctl (f l).flags = false) →
         ∃ t lm', exec i s = .next t ∧ t.warp.lanes = some lm' ∧ (∀ l ∈ lm.group, laneOf t d l = (f l).bits) ∧
           (∀ k, (∀ l ∈ lm.group, k ≠ d.toNat * s.w + l) → t.warp.readLane k = s.warp.readLane k) ∧
           (∀ i, t.warp.fpstat.getLsbD i = true ↔ s.warp.fpstat.getLsbD i = true ∨ ∃ l ∈ lm.group, (f l).flags.bits.getLsbD i = true) ∧
           (∀ l ∈ lm.group, (lm'.lane l).pos = (lm.lane l).pos.after) ∧ (∀ l, l ∉ lm.group → lm'.lane l = lm.lane l) ∧
           stopsV s.warp t.warp (fun k _ => ∃ l ∈ lm.group, k = d.toNat * s.w + l) ∧ LaneChargedFrame s t (lm.group.length * toll)) ∧
       (∀ l ∈ lm.group, enabledTrap s.warp.fpctl (f l).flags = true →
         (∀ j ∈ lm.group, j < l → enabledTrap s.warp.fpctl (f j).flags = false) →
         ∃ u, exec i s = .next (takeTrap u (fpReport (f l).flags l 0x21#8) s.warp.site s.warp.at.pc) ∧ ChargeTaken s u (lm.group.length * toll) ∧
           u = { s with cores := u.cores, warp := { s.warp with lease := u.warp.lease, paid := u.warp.paid } })
     lanes 2 (.vfadd 0#3 mz md .fp32 d a b) (fun l => faddElem .fp32 md (x l) (y l)) ∧
     lanes 2 (.vfsub 0#3 mz md .fp32 d a b) (fun l => fsubElem .fp32 md (x l) (y l)) ∧
     lanes 2 (.vfmul 0#3 mz md .fp32 d a b) (fun l => fmulElem .fp32 md (x l) (y l)) ∧
     lanes 2 (.vfma 0#3 mz md .fp32 d a b c) (fun l => ffmaElem .fp32 md false (x l) (y l) (z l)) ∧
     lanes 2 (.vfnma 0#3 mz md .fp32 d a b c) (fun l => ffmaElem .fp32 md true (x l) (y l) (z l)) ∧
     lanes 2 (.vfmin 0#3 mz .fp32 d a b) (fun l => { bits := fpick .fp32 false (x l) (y l) }) ∧
     lanes 2 (.vfmax 0#3 mz .fp32 d a b) (fun l => { bits := fpick .fp32 true (x l) (y l) }) ∧
     lanes 2 (.vfabs 0#3 mz .fp32 d a) (fun l => { bits := fabsBits .fp32 (x l) }) ∧
     lanes 8 (.vfdiv .none 0#3 mz md .fp32 d a b) (fun l => fdivElem .fp32 md (x l) (y l)) ∧
     lanes 8 (.vfsqrt .none 0#3 mz md .fp32 d a) (fun l => fsqrtElem .fp32 md (x l)) ∧
     lanes 8 (.vfrsq .none 0#3 mz md .fp32 d a) (fun l => frsqElem .fp32 md (x l)) ∧
     lanes 8 (.vfrcp .none 0#3 mz md .fp32 d a) (fun l => frcpElem .fp32 md (x l)) ∧
     lanes 8 (.vfexp2 .none 0#3 mz md .fp32 d a) (fun l => fexp2Elem .fp32 md (x l)) ∧
     lanes 8 (.vflog2 .none 0#3 mz md .fp32 d a) (fun l => flog2Elem .fp32 md (x l)))

/-- R79: the branches outside lane mode, taken to h + 8d, or on to the next clause of a branch that stands last. R79: calls, indirect jumps and returns outside lane mode; `CALLR` reads its register before s63 is written. R84: in lane mode every lane of the issuing group decides a branch for itself, and no other lane moves. -/
def Obligations.ControlTransfers : Prop :=
  (∀ (s : State) (cc : Cond) (a b : BitVec 6) (disp : BitVec 32), s.warp.lanes = none → s.warp.pos.idx = s.warp.pos.n →
     let target : Int := s.warp.pos.hdr + 8 * disp.toInt
     let next : Int := s.warp.pos.hdr + 8 * ((s.warp.pos.n : Int) + 1)
     let x := s.warp.readS a
     goesTo (.br disp) s target ∧
     goesTo (.brc cc a b disp) s (if condHolds cc x (s.warp.readS b) then target else next) ∧
     goesTo (.brz a disp) s (if x.toNat = 0 then target else next) ∧
     goesTo (.brnz a disp) s (if x.toNat = 0 then next else target)) ∧
  (∀ (s : State) (a : BitVec 6) (disp : BitVec 32), s.warp.lanes = none →
     let next : Int := s.warp.pos.hdr + 8 * ((s.warp.pos.n : Int) + 1)
     goesTo (.jmpr a) s (s.warp.readS a).toNat ∧ goesTo .ret s (s.warp.readS 63#6).toNat ∧
     (∃ t, exec (.call disp) s = .next t ∧ t.warp.pos = { hdr := s.warp.pos.hdr + 8 * disp.toInt } ∧
       wroteS s.warp t.warp 63#6 (BitVec.ofInt 64 next) ∧ t.warp.pending = s.warp.stoppedS 63#6 ∧ UniformFrame s t) ∧
     (∃ t, exec (.callr a) s = .next t ∧ t.warp.pos = { hdr := (s.warp.readS a).toNat } ∧
       wroteS s.warp t.warp 63#6 (BitVec.ofInt 64 next) ∧ t.warp.pending = s.warp.stoppedS 63#6 ∧ UniformFrame s t)) ∧
  (∀ (s : State) (lm : LaneMode) (cc : Cond) (a b : BitVec 6) (disp : BitVec 32), LaneShape s lm → a.toNat < s.r → b.toNat < s.r →
     let branches (i : Instr) (taken : Nat → Prop) : Prop := ∃ t lm', exec i s = .next t ∧ t.warp.lanes = some lm' ∧
       (∀ l ∈ lm.group, (taken l → (lm'.lane l).pos = { hdr := (lm.lane l).pos.hdr + 8 * disp.toInt }) ∧
         (¬ taken l → (lm'.lane l).pos = (lm.lane l).pos.after)) ∧
       (∀ l, l ∉ lm.group → lm'.lane l = lm.lane l) ∧ t.warp.v = s.warp.v ∧ t.warp.pending = s.warp.pending ∧ LaneFrame s t
     branches (.br disp) (fun _ => True) ∧
     branches (.brc cc a b disp) (fun l => condHolds cc (laneOf s a l) (laneOf s b l) = true) ∧
     branches (.brz a disp) (fun l => laneOf s a l = 0#32) ∧ branches (.brnz a disp) (fun l => laneOf s a l ≠ 0#32))

/-! ## Strips and masks (07_lengths_and_integer.md) -/

/-- R158: `SVLOOP` takes the elements of the strip off the count and loops while some are left. R159: `GETVL` reads the strip state, the cap, and the length that the descriptor would be granted now. R156: the grant of `SETVL`, after a commit that waits for nothing and finds no fault, when neither a pre-emption nor a shrink leave nor replay-follow intervenes. R155: a `SETVL` whose block does not fit its group takes the illegal-instruction trap with reason 0x0B. R153, R156: a granted length is never above 1,024, the cap or what the registers hold; it is a whole number of blocks, and fewer than a block of it is padding; a cap never makes it zero. -/
def Obligations.Strips : Prop :=
  (∀ (s : State) (a : BitVec 6) (disp : BitVec 32), s.warp.lanes = none → s.warp.pos.idx = s.warp.pos.n →
     let n := (s.warp.readS a).toNat
     let c := s.warp.vl - s.warp.vpad
     let left := if c < n then n - c else 0
     ∃ t, exec (.svloop a disp) s = .next t ∧ wroteS s.warp t.warp a (BitVec.ofNat 64 left) ∧ t.warp.pending = s.warp.stoppedS a ∧ UniformFrame s t ∧
       t.warp.pos = { hdr := if left ≠ 0 then s.warp.pos.hdr + 8 * disp.toInt else s.warp.pos.hdr + 8 * ((s.warp.pos.n : Int) + 1) }) ∧
  (∀ (s : State) (d : BitVec 6), s.warp.lanes = none →
     let cap := if s.part.capq = 0#4 then 1024 else 128 * s.part.capq.toNat
     let b := if stripBlock s.warp = 0 then 1 else 2 ^ (stripBlock s.warp + 2)
     gives (.getvl .vl d) s d (BitVec.ofNat 64 s.warp.vl) ∧ gives (.getvl .pad d) s d (BitVec.ofNat 64 s.warp.vpad) ∧
     gives (.getvl .max d) s d (BitVec.ofNat 64 (vlmaxRule s.w (stripEt s.warp).width b (stripGroup s.warp) cap)) ∧
     gives (.getvl .cap d) s d (BitVec.ofNat 64 cap) ∧ gives (.getvl .desc d) s d (BitVec.ofNat 64 s.warp.desc.toNat) ∧
     gives (.getvl .start d) s d (BitVec.ofNat 64 s.warp.vstart)) ∧
  (∀ (s : State) (w : Warp) (d a : BitVec 6) (et : ET) (blk : BitVec 3) (grp : BitVec 2),
     s.warp.lanes = none → s.warp.mustWait flagged = false → s.warp.commit flagged = (w, none) →
     s.team.preempt = false → s.team.k = 0 → s.team.launch.rfollow = false →
     let b := if blk = 0#3 then 1 else 2 ^ (blk.toNat + 2)
     let g := 2 ^ grp.toNat
     let cap := if s.part.capq = 0#4 then 1024 else 128 * s.part.capq.toNat
     let vlmax := vlmaxRule s.w et.width b g cap
     let n := (w.readS a).toNat
     let vl := vlRule vlmax b n
     b ≤ s.w * 32 * g / et.width →
     ∃ t, exec (.setvl d a et blk grp) s = .next t ∧ t.warp.vl = vl ∧ t.warp.vpad = vl - n ∧ t.warp.vstart = 0 ∧
       t.warp.desc.toNat = et.code.toNat + 16 * blk.toNat + 128 * grp.toNat ∧
       wroteS w t.warp d (BitVec.ofNat 64 vl) ∧ t.warp.pos = s.warp.pos.after ∧ t.warp.v = w.v ∧ t.warp.m = w.m ∧
       t.warp.pending = w.stoppedS d ∧
       (s.team.launch.rrecord = false → t = { s with warp := { w with
         s := t.warp.s, pending := t.warp.pending, vl := vl, vpad := vl - n, vstart := 0, desc := t.warp.desc, pos := t.warp.pos,
         events := w.events.modify 2 (· + 1), yieldOff := t.warp.yieldOff, yieldLow := t.warp.yieldLow,
         wait := 0, urgent := false, park := .none, service := {}, paid := false } })) ∧
  (∀ (s : State) (d a : BitVec 6) (et : ET) (blk : BitVec 3) (grp : BitVec 2), s.warp.lanes = none →
     s.w * 32 * 2 ^ grp.toNat / et.width < (if blk = 0#3 then 1 else 2 ^ (blk.toNat + 2)) →
     exec (.setvl d a et blk grp) s = .next (trapHere s { cause := .illegal, info := 0x0B#64 } s.warp.vstart)) ∧
  (∀ (s : State) (e g n : Nat) (code : BitVec 3), code.toNat ≤ 5 → 0 < e → s.part.capq.toNat < 8 →
     let b := stripLen code.toNat
     let vl := grantLen (vlmaxOf s e b g) b n
     vl ≤ 1024 ∧ vl ≤ capOf s.part ∧ vl * e ≤ s.w * 32 * g ∧ vl % b = 0 ∧ vl - n < b ∧ (b ≤ fits s e g → 0 < n → 0 < vl))

/-- R160, R161: the mask instructions write bits 0 to VL − 1 of their destination and no other bit; `m0` keeps reading all ones. R160, R161: `MPOPC` counts the set bits below VL, and `MFIRST` finds the lowest, or gives 2^64 − 1. -/
def Obligations.Masks : Prop :=
  (∀ (s : State) (d a b : BitVec 3) (r : BitVec 6), s.warp.lanes = none →
     let x (k : Nat) := (s.warp.readM a).getLsbD k
     let y (k : Nat) := (s.warp.readM b).getLsbD k
     givesMask (.mand d a b) s d (fun k => x k && y k) ∧ givesMask (.mor d a b) s d (fun k => x k || y k) ∧
     givesMask (.mxor d a b) s d (fun k => x k != y k) ∧ givesMask (.mandn d a b) s d (fun k => x k && !y k) ∧
     givesMask (.mnot d a) s d (fun k => !x k) ∧ givesMask (.mmov d a) s d x ∧
     givesMask (.mset .lt d r) s d (fun k => decide (k < (s.warp.readS r).toNat)) ∧ givesMask (.mset .all d r) s d (fun _ => true) ∧
     givesMask (.mset .none d r) s d (fun _ => false) ∧
     givesMask (.mset .live d r) s d (fun k => decide (k < s.warp.vl - s.warp.vpad))) ∧
  (∀ (s : State) (d : BitVec 6) (a : BitVec 3), s.warp.lanes = none →
     let set := (List.range s.warp.vl).filter fun k => (s.warp.readM a).getLsbD k
     givesCharged (.mpopc d a) s s.warp.vstart d (BitVec.ofNat 64 set.length) ∧
     givesCharged (.mfirst d a) s s.warp.vstart d (match set with
       | [] => BitVec.ofNat 64 (2 ^ 64 - 1)
       | k :: _ => BitVec.ofNat 64 k))

/-! ## Vector integers (07_lengths_and_integer.md) -/

/-- R162: for an integer type, `intBits` stores y mod 2^e, `intValue` is s(x) or u(x), and `clampTo` gives the nearest value of the range and says whether it differs. R164: the arithmetic instructions on the elements' values. R162, R164: the saturating instructions store the nearest value and set IS where it differs; IS never traps. R167, R168: `VADDI` takes its type from the strip; `VWID` changes width, not element numbering. -/
def Obligations.VectorIntegers : Prop :=
  (∀ (et : ET) (y : Int) (x : LaneWord), et.isInt = true → et ≠ .int64 →
     let lo : Int := if et.isSigned then -2 ^ (et.width - 1) else 0
     let hi : Int := if et.isSigned then 2 ^ (et.width - 1) - 1 else 2 ^ et.width - 1
     ((intBits et y).toNat : Int) = y % 2 ^ et.width ∧
     lo ≤ intValue et x ∧ intValue et x ≤ hi ∧ (intValue et x - x.toNat) % 2 ^ et.width = 0 ∧
     (clampTo et y).1 = max lo (min hi y) ∧ ((clampTo et y).2 = true ↔ (clampTo et y).1 ≠ y)) ∧
  (∀ (s : State) (mk : BitVec 3) (mz : Bool) (et : ET) (d a b c : BitVec 6), et.isInt = true → et ≠ .int64 →
     VectorReady s [(d, et.width), (a, et.width), (b, et.width), (c, et.width)] →
     let x := vVal s et a
     let y := vVal s et b
     givesVector (.vadd mk mz et d a b) s 1 d et.width mk mz (fun k => { bits := intBits et (x k + y k) }) ∧
     givesVector (.vsub mk mz et d a b) s 1 d et.width mk mz (fun k => { bits := intBits et (x k - y k) }) ∧
     givesVector (.vmul mk mz et d a b) s 1 d et.width mk mz (fun k => { bits := intBits et (x k * y k) }) ∧
     givesVector (.vmulhi mk mz et d a b) s 1 d et.width mk mz (fun k => { bits := intBits et (x k * y k / 2 ^ et.width) }) ∧
     givesVector (.vmad mk mz et d a b c) s 1 d et.width mk mz (fun k => { bits := intBits et (x k * y k + vVal s et c k) }) ∧
     givesVector (.vmin mk mz et d a b) s 1 d et.width mk mz (fun k => { bits := intBits et (min (x k) (y k)) }) ∧
     givesVector (.vmax mk mz et d a b) s 1 d et.width mk mz (fun k => { bits := intBits et (max (x k) (y k)) }) ∧
     givesVector (.vabs mk mz false et d a) s 1 d et.width mk mz (fun k => { bits := intBits et |x k| })) ∧
  (∀ (s : State) (mk : BitVec 3) (mz : Bool) (et src : ET) (d a b : BitVec 6), et.isInt = true → et ≠ .int64 → src.isInt = true → src ≠ .int64 →
     VectorReady s [(d, et.width), (a, et.width), (b, et.width), (a, src.width)] →
     let sat (y : Int) : Elem := { bits := intBits et (clampTo et y).1, flags := { is := decide ((clampTo et y).1 ≠ y) } }
     let gives (i : Instr) (f : Nat → Int) : Prop :=
       givesVector i s 1 d et.width mk mz (fun k => sat (f k)) ∧ ∀ k, enabledTrap s.warp.fpctl (sat (f k)).flags = false
     gives (.vadds mk mz et d a b) (fun k => vVal s et a k + vVal s et b k) ∧
     gives (.vsubs mk mz et d a b) (fun k => vVal s et a k - vVal s et b k) ∧
     gives (.vabs mk mz true et d a) (fun k => |vVal s et a k|) ∧
     gives (.vsatn mk mz src et d a) (fun k => vVal s src a k)) ∧
  (∀ (s : State) (mk : BitVec 3) (mz : Bool) (src et : ET) (d a : BitVec 6) (imm : BitVec 32),
     (et.isInt = true → et ≠ .int64 → src.isInt = true → src ≠ .int64 → VectorReady s [(d, et.width), (a, src.width)] →
       givesVector (.vwid mk mz src et d a) s 1 d et.width mk mz (fun k => { bits := intBits et (vVal s src a k) })) ∧
     ((stripEt s.warp).isInt = true → stripEt s.warp ≠ .int64 →
       VectorReady s [(d, (stripEt s.warp).width), (a, (stripEt s.warp).width)] →
       givesVector (.vaddi mk mz d a imm) s 1 d (stripEt s.warp).width mk mz
         (fun k => { bits := intBits (stripEt s.warp) (vVal s (stripEt s.warp) a k + imm.toInt) })) ∧
     (s.warp.lanes = none → (stripEt s.warp).isInt = false →
       exec (.vaddi mk mz d a imm) s = .next (trapHere s { cause := .illegal, info := 0x08#64 } s.warp.vstart)))

/-- R164, R165, R166: bitwise instructions, shifts and counts, the merge, the broadcast and the index, on element patterns; SC12 keeps bits [15:12] zero (R126). -/
def Obligations.VectorBits : Prop :=
  ∀ (s : State) (mk : BitVec 3) (mz : Bool) (et : ET) (d a b : BitVec 6) (n : BitVec 3), et ≠ .int64 →
    VectorReady s [(d, et.width), (a, et.width), (b, et.width)] →
    let x := vElem s et a
    let y := vElem s et b
    let keep (v : LaneWord) : Elem := { bits := if et = .sc12 then v &&& 0xFFF#32 else v }
    givesVector (.vand mk mz et d a b) s 1 d et.width mk mz (fun k => keep (x k &&& y k)) ∧
    givesVector (.vor mk mz et d a b) s 1 d et.width mk mz (fun k => keep (x k ||| y k)) ∧
    givesVector (.vxor mk mz et d a b) s 1 d et.width mk mz (fun k => keep (x k ^^^ y k)) ∧
    givesVector (.vbcs mk mz et d a) s 1 d et.width mk mz (fun _ => keep ((s.warp.readS a).setWidth 32)) ∧
    givesVector (.vmrg mk et d a b) s 1 d et.width 0#3 false (fun k => keep (if maskBit s.warp mk k then y k else x k)) ∧
    (et.isInt = true →
      givesVector (.vshl mk mz et d a b) s 1 d et.width mk mz (fun k => { bits := BitVec.ofNat 32 ((x k).toNat * 2 ^ ((y k).toNat % et.width)) }) ∧
      givesVector (.vshr mk mz et d a b) s 1 d et.width mk mz (fun k => { bits := BitVec.ofNat 32 ((x k).toNat / 2 ^ ((y k).toNat % et.width)) }) ∧
      givesVector (.vsar mk mz et d a b) s 1 d et.width mk mz (fun k =>
        { bits := BitVec.ofInt 32 (signedOf et.width (x k) / 2 ^ ((y k).toNat % et.width)) }) ∧
      givesVector (.vpopc mk mz et d a) s 1 d et.width mk mz (fun k =>
        { bits := BitVec.ofNat 32 ((List.range et.width).countP fun i => (x k).getLsbD i) }) ∧
      givesVector (.vclz mk mz et d a) s 1 d et.width mk mz (fun k =>
        { bits := BitVec.ofNat 32 ((List.range et.width).reverse.takeWhile fun i => !(x k).getLsbD i).length }) ∧
      givesVector (.viota mk mz false et d n) s 1 d et.width mk mz (fun k => { bits := BitVec.ofNat 32 k }) ∧
      givesVector (.viota mk mz true et d n) s 1 d et.width mk mz (fun k =>
        { bits := BitVec.ofNat 32 ((List.range k).countP fun j => (s.warp.readM n).getLsbD j) }))

/-- R165: `VCMP` sets the bits of its destination mask; disabled bits follow MZ, and bits at and above VL keep their values. R143, R144: `VFCMP` sets the bits of its destination mask, and NV for an ordered comparison with a NaN. R144, Table 10: the conditions by the values of the elements, with −0 equal to +0; a NaN operand makes NE and UN hold and no other, and sets NV for LT and LE. -/
def Obligations.VectorCompares : Prop :=
  (∀ (s : State) (mk d : BitVec 3) (mz : Bool) (cc : Cond) (et : ET) (a b : BitVec 6), et.isInt = true → et ≠ .int64 →
     VectorReady s [(a, et.width), (b, et.width)] → s.warp.vl ≤ 1024 → affords s s.warp.vl →
     ∃ t, exec (.vcmp mk mz cc et d a b) s = .next t ∧
       (∀ k, k < 1024 → (t.warp.readM d).getLsbD k =
         if d = 0#3 then true
         else if s.warp.vstart ≤ k ∧ k < s.warp.vl then
           (if maskBit s.warp mk k then condHolds cc ((vElem s et a k).setWidth et.width) ((vElem s et b k).setWidth et.width)
            else if mz then false else (s.warp.readM d).getLsbD k)
         else (s.warp.readM d).getLsbD k) ∧
       (∀ r, r ≠ d → t.warp.readM r = s.warp.readM r) ∧ t.warp.vstart = 0 ∧ t.warp.pos = s.warp.pos.after ∧
       t.warp.v = s.warp.v ∧ t.warp.s = s.warp.s ∧ t.warp.st = s.warp.st ∧ t.warp.fpstat = s.warp.fpstat ∧
       t.warp.pending = s.warp.pending ∧ t.warp.seq = s.warp.seq ∧ ChargedFrame s t s.warp.vl) ∧
  (∀ (s : State) (mk d : BitVec 3) (mz : Bool) (cc : FCond) (et : ET) (a b : BitVec 6), et ≠ .int64 → s.warp.vl ≤ 1024 →
     VectorReady s [(a, et.width), (b, et.width)] → s.warp.fpctl.getLsbD 0 = false → affords s (s.warp.vl * 2) →
     let c (k : Nat) := fcondHolds cc (fVal et (vElem s et a k)) (fVal et (vElem s et b k))
     ∃ t, exec (.vfcmp mk mz cc et d a b) s = .next t ∧
       (∀ k, k < 1024 → (t.warp.readM d).getLsbD k =
         if d = 0#3 then true
         else if s.warp.vstart ≤ k ∧ k < s.warp.vl then
           (if maskBit s.warp mk k then (c k).1 else if mz then false else (s.warp.readM d).getLsbD k)
         else (s.warp.readM d).getLsbD k) ∧
       (∀ r, r ≠ d → t.warp.readM r = s.warp.readM r) ∧
       (∀ i, t.warp.fpstat.getLsbD i = true ↔ s.warp.fpstat.getLsbD i = true ∨ (i = 0 ∧ ∃ k, counts s.warp mk k ∧ (c k).2 = true)) ∧
       t.warp.vstart = 0 ∧ t.warp.pos = s.warp.pos.after ∧ t.warp.v = s.warp.v ∧ t.warp.s = s.warp.s ∧ t.warp.st = s.warp.st ∧
       t.warp.pending = s.warp.pending ∧ t.warp.seq = s.warp.seq ∧ ChargedFrame s t (s.warp.vl * 2)) ∧
  (∀ (a b : Exact),
     (a = .nan ∨ b = .nan → fcondHolds .eq a b = (false, false) ∧ fcondHolds .ne a b = (true, false) ∧ fcondHolds .lt a b = (false, true) ∧
       fcondHolds .le a b = (false, true) ∧ fcondHolds .un a b = (true, false) ∧ fcondHolds .or a b = (false, false)) ∧
     (a ≠ .nan → b ≠ .nan → (∀ cc, (fcondHolds cc a b).2 = false) ∧ ((fcondHolds .eq a b).1 = true ↔ a.extended = b.extended) ∧
       ((fcondHolds .ne a b).1 = true ↔ a.extended ≠ b.extended) ∧ ((fcondHolds .lt a b).1 = true ↔ a.extended < b.extended) ∧
       ((fcondHolds .le a b).1 = true ↔ a.extended ≤ b.extended) ∧ (fcondHolds .un a b).1 = false ∧ (fcondHolds .or a b).1 = true))

/-! ## Floating vectors (06_numbers_and_float.md) -/

/-- R10, R131: in every floating format, and in SC12, a number that the format holds rounds to its own bits under every mode, without status; subnormal numbers are kept. R142, Table 9, and R140: the special cases of the long operations and of the sums and products. R131, R140: sums and products of numbers are exact, and `sat` of R10 brings a number to the nearest of a format's finite range. -/
def Obligations.FloatRules : Prop :=
  (∀ (et : ET) (md : Mode) (x : LaneWord),
     let f := fmtOf et
     x.toNat < 2 ^ (f.ebits + f.mbits + if f.signed then 1 else 0) → f.value x ≠ .nan →
     rnd f md (f.value x) = { bits := x }) ∧
  (∀ (et : ET) (md : Mode) (x y z : LaneWord) (nx ny : Bool) (mx my : Nat) (ex ey : Int),
     let v := fVal et
     let nan (nv : Bool) : Elem := { bits := (fmtOf et).canonicalNaN, flags := { nv := nv } }
     let inf (n dz : Bool) : Elem := { bits := (rnd (fmtOf et) md (.inf n)).bits, flags := { dz := dz } }
     let zero (n : Bool) : Elem := { bits := (fmtOf et).withSign n 0 }
     (v x = .nan → fdivElem et md x y = nan false ∧ fdivElem et md y x = nan false ∧ fsqrtElem et md x = nan false ∧
       frsqElem et md x = nan false ∧ frcpElem et md x = nan false ∧ fexp2Elem et md x = nan false ∧ flog2Elem et md x = nan false ∧
       faddElem et md x y = nan false ∧ fsubElem et md y x = nan false ∧ fmulElem et md x y = nan false) ∧
     (v x = .fin nx mx ex → v y = .fin ny my ey → mx ≠ 0 → my = 0 → fdivElem et md x y = inf (nx != ny) true) ∧
     (v x = .fin nx mx ex → v y = .fin ny my ey → mx = 0 → my = 0 → fdivElem et md x y = nan true) ∧
     (v x = .inf nx → v y = .inf ny → fdivElem et md x y = nan true) ∧
     (v x = .fin nx mx ex → v y = .inf ny → fdivElem et md x y = zero (nx != ny)) ∧
     (v x = .inf nx → v y = .fin ny my ey → fdivElem et md x y = inf (nx != ny) false) ∧
     (v x = .fin nx mx ex → v y = .fin ny my ey → mx = 0 → my ≠ 0 → fdivElem et md x y = zero (nx != ny)) ∧
     (v x = .fin false mx ex → mx = 0 → fsqrtElem et md x = zero false) ∧
     (v x = .fin true mx ex → mx = 0 → fsqrtElem et md x = zero true) ∧ (v x = .inf false → fsqrtElem et md x = inf false false) ∧
     (v x = .fin true mx ex → mx ≠ 0 → fsqrtElem et md x = nan true ∧ frsqElem et md x = nan true ∧ flog2Elem et md x = nan true) ∧
     (v x = .inf true → fsqrtElem et md x = nan true ∧ frsqElem et md x = nan true ∧ flog2Elem et md x = nan true ∧
       fexp2Elem et md x = zero false) ∧
     (v x = .fin nx mx ex → mx = 0 → frsqElem et md x = inf nx true ∧ frcpElem et md x = inf nx true ∧ flog2Elem et md x = inf true true) ∧
     (v x = .inf false → frsqElem et md x = zero false ∧ fexp2Elem et md x = inf false false ∧ flog2Elem et md x = inf false false) ∧
     (v x = .inf nx → frcpElem et md x = zero nx) ∧
     (v x = .fin nx mx ex → mx = 0 → (et = .fp32 → fexp2Elem et md x = { bits := 0x3F800000#32 }) ∧
       (et = .bf16 → fexp2Elem et md x = { bits := 0x3F80#32 }) ∧ (et = .fp16 → fexp2Elem et md x = { bits := 0x3C00#32 })) ∧
     (flog2Elem .fp32 md 0x3F800000#32 = { bits := 0#32 } ∧ flog2Elem .bf16 md 0x3F80#32 = { bits := 0#32 } ∧
       flog2Elem .fp16 md 0x3C00#32 = { bits := 0#32 }) ∧
     (v x = .inf true → v y = .inf false → faddElem et md x y = nan true ∧ fsubElem et md x x = nan true) ∧
     (v x = .inf nx → v y = .fin ny my ey → my = 0 → fmulElem et md x y = nan true ∧ ffmaElem et md false x y z = nan true ∧
       ffmaElem et md true x y z = nan true)) ∧
  (∀ (md : Mode) (a b : Exact) (na nb : Bool) (ma mb : Nat) (ea eb : Int), a = .fin na ma ea → b = .fin nb mb eb →
     (∃ n m e, a.add md b = (.fin n m e, false) ∧ (a.add md b).1.rat = a.rat + b.rat ∧
       (a.rat + b.rat = 0 → n = ((na && nb) || ((na || nb) && decide (md = .rd)))) ∧
       (a.rat + b.rat ≠ 0 → (n = true ↔ a.rat + b.rat < 0))) ∧
     (∃ m e, a.mul b = (.fin (na != nb) m e, false) ∧ (a.mul b).1.rat = a.rat * b.rat) ∧
     (∀ et, let top := (fmtOf et).codeValue (fmtOf et).maxCode
       (sat (fmtOf et) a).rat = max (-top) (min top a.rat) ∧ sat (fmtOf et) .nan = .nan ∧
       (sat (fmtOf et) (.inf na)).rat = if na then -top else top))

/-- R10: what rounding does with a number: the two codes of the format's grid, extended without bound, that stand around it decide under the mode; a rounded magnitude above the largest finite value overflows, as IEEE 754 has it in FP32, BF16, FP16 and E5M2, to NaN in E4M3 and SC12, to the largest value in E2M1. R132: NX and UF, which is judged before rounding. R10: the example of E4M3 under RNE, where every magnitude above 448 and at most 464 rounds to 448, and every larger one overflows to NaN; and what stands in a format's place for a NaN and for an infinity. R147: conversion by destination. A wide float rounds; a narrow one rounds what saturation leaves, with the status of the unsaturated rounding, unless NSAT keeps the overflow; SC12 has neither negative values nor infinities; an integer takes the nearest limit with NV outside its range. R150: a dequantised element: NaN for a NaN scale or a NaN element, NaN with NV for an infinity times scale 0, else the product of the two, rounded once. R148: what a block quantises to. A NaN or an infinity among its values gives the NaN scale and NV; values that are all zero give scale 0; otherwise the scale is 510 with SS when the largest magnitude over 510 exceeds the largest element value, and else the smallest SC12 value that brings the largest magnitude into range; each live element is its quotient by the scale, saturated and rounded to nearest, and counts as inexact when its value is not that quotient. -/
def Obligations.Rounding : Prop :=
  (∀ (et : ET) (md : Mode) (neg : Bool) (m : Nat) (e : Int),
     let f := fmtOf et
     let v : ℚ := m * (2 : ℚ) ^ e
     let x := rnd f md (.fin neg m e)
     ∃ r, f.rounds md neg v r ∧
       (r ≤ f.maxCode → x.bits = f.withSign neg r ∧ (x.flags.nx = true ↔ f.codeValue r ≠ v) ∧
         (x.flags.unf = true ↔ f.codeValue r ≠ v ∧ v < (2 : ℚ) ^ f.emin) ∧ x.flags.ovf = false ∧ x.flags.nv = false ∧ x.flags.dz = false) ∧
       (f.maxCode < r → x.flags = { ovf := true, nx := true } ∧ x.bits =
         if et = .e4m3 ∨ et = .sc12 then f.canonicalNaN
         else if et = .e2m1 then f.withSign neg 7
         else f.withSign neg (if md = .rne ∨ (md = .ru ∧ neg = false) ∨ (md = .rd ∧ neg = true) then f.maxCode + 1 else f.maxCode))) ∧
  ((∀ (neg : Bool) (m : Nat) (e : Int), let v : ℚ := m * (2 : ℚ) ^ e
     (448 < v → v ≤ 464 → rnd (fmtOf .e4m3) .rne (.fin neg m e) = { bits := if neg then 0xFE#32 else 0x7E#32, flags := { nx := true } }) ∧
     (464 < v → rnd (fmtOf .e4m3) .rne (.fin neg m e) = { bits := 0x7F#32, flags := { ovf := true, nx := true } })) ∧
   (∀ (et : ET) (md : Mode) (neg : Bool), rnd (fmtOf et) md .nan = { bits := (fmtOf et).canonicalNaN } ∧
     (et ≠ .e4m3 → et ≠ .sc12 → et ≠ .e2m1 → rnd (fmtOf et) md (.inf neg) = { bits := (fmtOf et).withSign neg ((fmtOf et).maxCode + 1) }) ∧
     (et = .e4m3 ∨ et = .sc12 → rnd (fmtOf et) md (.inf neg) = { bits := (fmtOf et).canonicalNaN }) ∧
     (et = .e2m1 → rnd (fmtOf et) md (.inf neg) = { bits := (fmtOf et).withSign neg 7 }))) ∧
  (∀ (md : Mode) (x : Exact) (neg : Bool) (m : Nat) (e : Int),
     (∀ et, et = .fp32 ∨ et = .bf16 ∨ et = .fp16 → ∀ nsat, convert et md nsat x = rnd (fmtOf et) md x) ∧
     (∀ et, et.isNarrowF = true →
       convert et md true .nan = { bits := (fmtOf et).canonicalNaN, flags := { nv := decide (et = .e2m1) } } ∧
       convert et md false .nan = convert et md true .nan ∧
       (x ≠ .nan → convert et md true x = rnd (fmtOf et) md x ∧
         (convert et md false x).bits = (rnd (fmtOf et) md (sat (fmtOf et) x)).bits ∧ (convert et md false x).flags = (rnd (fmtOf et) md x).flags)) ∧
     (∀ nsat, (x.rat = 0 → x.isNaN = false → x.isInf = false → convert .sc12 md nsat x = { bits := 0#32 }) ∧
       (x.isNaN = true ∨ x.isInf = true ∨ x.rat < 0 → convert .sc12 md nsat x = { bits := 0xFFF#32, flags := { nv := true } }) ∧
       (0 < x.rat → convert .sc12 md nsat x = rnd (fmtOf .sc12) md x)) ∧
     (∀ et, et.isCvtInt = true → ∀ nsat,
       let lo : Int := if et.isSigned then -2 ^ (et.width - 1) else 0
       let hi : Int := if et.isSigned then 2 ^ (et.width - 1) - 1 else 2 ^ et.width - 1
       convert et md nsat .nan = { bits := 0#32, flags := { nv := true } } ∧
       convert et md nsat (.inf neg) = { bits := intBits et (if neg then lo else hi), flags := { nv := true } } ∧
       ∃ i, roundsInt md (Exact.fin neg m e).rat i ∧
         convert et md nsat (.fin neg m e) =
           (if lo ≤ i ∧ i ≤ hi then { bits := intBits et i, flags := { nx := decide ((i : ℚ) ≠ (Exact.fin neg m e).rat) } }
            else { bits := intBits et (max lo (min hi i)), flags := { nv := true } }))) ∧
  (∀ (src et : ET) (md : Mode) (y sc : LaneWord),
     let s := (fmtOf .sc12).value sc
     let v := fVal src y
     let nan (nv : Bool) : Elem := { bits := (fmtOf et).canonicalNaN, flags := { nv := nv } }
     (s = .nan ∨ v = .nan → dequantElem src et md y sc = nan false) ∧
     (∀ n, v = .inf n → s ≠ .nan → s.rat = 0 → dequantElem src et md y sc = nan true) ∧
     (∀ n, v = .inf n → s ≠ .nan → s.rat ≠ 0 → dequantElem src et md y sc = { bits := (rnd (fmtOf et) md (.inf n)).bits }) ∧
     (∀ n m e, v = .fin n m e → s ≠ .nan → ∃ m' e', (Exact.fin n m' e').rat = v.rat * s.rat ∧
       dequantElem src et md y sc = { bits := (rnd (fmtOf et) md (.fin n m' e')).bits, flags := (rnd (fmtOf et) md (.fin n m' e')).flags })) ∧
  (∀ (et : ET) (xs : List Exact) (live : Nat), et.isNarrowF = true →
     let f := fmtOf et
     let b := quantBlock et xs live
     let top : ℚ := f.codeValue f.maxCode
     let sc (c : Nat) : ℚ := (fmtOf .sc12).codeValue c
     b.elems.length = xs.length ∧
     ((∃ x ∈ xs, x.isNaN = true ∨ x.isInf = true) →
       b.scale = 0xFFF#32 ∧ b.nv = true ∧ b.ss = false ∧ ∀ p ∈ b.elems, p = (0#32, false)) ∧
     ((∀ x ∈ xs, x.isNaN = false ∧ x.isInf = false) → b.nv = false ∧
       ((∀ x ∈ xs, x.rat = 0) → b.scale = 0#32 ∧ b.ss = false ∧ ∀ p ∈ b.elems, p = (0#32, false)) ∧
       (∀ y ∈ xs, y.rat ≠ 0 → (∀ x ∈ xs, |x.rat| ≤ |y.rat|) →
         (top < |y.rat| / 510 → b.scale = 0xFFE#32 ∧ b.ss = true) ∧
         (|y.rat| / 510 ≤ top → b.ss = false ∧ b.scale.toNat ≤ 0xFFE ∧ 0 < sc b.scale.toNat ∧ |y.rat| / sc b.scale.toNat ≤ top ∧
           ∀ c, c < b.scale.toNat → 0 < sc c → top < |y.rat| / sc c) ∧
         ∀ k x p, xs[k]? = some x → b.elems[k]? = some p →
           (live ≤ k → p = (0#32, false)) ∧
           (k < live → ∃ r, f.rounds .rne x.isNeg (min top (|x.rat| / sc b.scale.toNat)) r ∧ p.1 = f.withSign x.isNeg r ∧
             (p.2 = true ↔ f.codeValue r ≠ |x.rat| / sc b.scale.toNat)))))

/-- R140, R141, R145: the interlocked floating instructions, element by element, each result rounded once. R142: the long operations without a flag. R142 on finite nonzero operands: quotients, roots and reciprocals are the correctly rounded values of a / b, √a, 1/√a and 1/a. A power of two and a logarithm are the correctly rounded values of reals that stand within 2^−300 of 2^a, relatively, and within 2^−160 of log2 a, and of 2^a and log2 a themselves where these are exact, setting NX elsewhere; that this decides every rounding rightly is the model's reading (log 6). R141, R145: the smaller and the larger of two elements, with −0 below +0; the other operand beside one NaN, the canonical NaN for two; a magnitude with its sign bit clear; and the class of a value. R146, R150: conversion between types, and dequantisation by the scale of each block. The model's choices in it: log 6. -/
def Obligations.FloatResults : Prop :=
  (∀ (s : State) (mk : BitVec 3) (mz : Bool) (md : Mode) (et : ET) (d a b c : BitVec 6), et ≠ .int64 →
     VectorReady s [(d, et.width), (a, et.width), (b, et.width), (c, et.width)] →
     let x := vElem s et a
     let y := vElem s et b
     let z := vElem s et c
     let gives (i : Instr) (f : Nat → Elem) : Prop := givesVector i s 2 d et.width mk mz f
     gives (.vfadd mk mz md et d a b) (fun k => roundElem et md ((fVal et (x k)).add md (fVal et (y k)))) ∧
     gives (.vfsub mk mz md et d a b) (fun k => roundElem et md ((fVal et (x k)).add md (fVal et (y k)).neg)) ∧
     gives (.vfmul mk mz md et d a b) (fun k => roundElem et md ((fVal et (x k)).mul (fVal et (y k)))) ∧
     gives (.vfma mk mz md et d a b c) (fun k => roundElem et md ((fVal et (x k)).fma md false (fVal et (y k)) (fVal et (z k)))) ∧
     gives (.vfnma mk mz md et d a b c) (fun k => roundElem et md ((fVal et (x k)).fma md true (fVal et (y k)) (fVal et (z k)))) ∧
     gives (.vfmin mk mz et d a b) (fun k => { bits := fpick et false (x k) (y k) }) ∧
     gives (.vfmax mk mz et d a b) (fun k => { bits := fpick et true (x k) (y k) }) ∧
     gives (.vfabs mk mz et d a) (fun k => { bits := fabsBits et (x k) }) ∧
     gives (.vfclass mk mz et d a) (fun k => { bits := fclass (fmtOf et) (fVal et (x k)) })) ∧
  (∀ (s : State) (mk : BitVec 3) (mz : Bool) (md : Mode) (et : ET) (d a b : BitVec 6), et ≠ .int64 →
     VectorReady s [(d, et.width), (a, et.width), (b, et.width)] →
     let x := vElem s et a
     let gives (i : Instr) (f : Nat → Elem) : Prop := givesVector i s 8 d et.width mk mz f
     gives (.vfdiv .none mk mz md et d a b) (fun k => fdivElem et md (x k) (vElem s et b k)) ∧
     gives (.vfsqrt .none mk mz md et d a) (fun k => fsqrtElem et md (x k)) ∧
     gives (.vfrsq .none mk mz md et d a) (fun k => frsqElem et md (x k)) ∧
     gives (.vfrcp .none mk mz md et d a) (fun k => frcpElem et md (x k)) ∧
     gives (.vfexp2 .none mk mz md et d a) (fun k => fexp2Elem et md (x k)) ∧
     gives (.vflog2 .none mk mz md et d a) (fun k => flog2Elem et md (x k))) ∧
  (∀ (et : ET) (md : Mode) (x y : LaneWord) (nx ny : Bool) (mx my : Nat) (ex ey : Int), fVal et x = .fin nx mx ex → mx ≠ 0 →
     let a : ℝ := mx * (2 : ℝ) ^ ex
     let p : ℝ := if nx then -a else a
     (fVal et y = .fin ny my ey → my ≠ 0 → roundedTo et md (nx != ny) (a / (my * (2 : ℝ) ^ ey)) (fdivElem et md x y)) ∧
     roundedTo et md nx (1 / a) (frcpElem et md x) ∧
     (nx = false → roundedTo et md false (Real.sqrt a) (fsqrtElem et md x) ∧ roundedTo et md false (1 / Real.sqrt a) (frsqElem et md x)) ∧
     (∃ v : ℝ, |v - (2 : ℝ) ^ p| ≤ (2 : ℝ) ^ p * (2 : ℝ) ^ (-300 : ℤ) ∧ roundedTo et md false v (fexp2Elem et md x) ∧
       ((∃ n : ℤ, p = n) → v = (2 : ℝ) ^ p) ∧ ((∀ n : ℤ, p ≠ n) → (fexp2Elem et md x).flags.nx = true)) ∧
     (nx = false → ∃ (v : ℝ) (neg : Bool), |v - Real.logb 2 a| ≤ (2 : ℝ) ^ (-160 : ℤ) ∧ (neg = true ↔ a < 1) ∧
       roundedTo et md neg |v| (flog2Elem et md x) ∧ ((∃ n : ℤ, a = (2 : ℝ) ^ n) → v = Real.logb 2 a) ∧
       ((∀ n : ℤ, a ≠ (2 : ℝ) ^ n) → (flog2Elem et md x).flags.nx = true))) ∧
  (∀ (et : ET) (x y : LaneWord) (n : Bool) (m : Nat) (e : Int),
     let f := fmtOf et
     let a := fVal et x
     let b := fVal et y
     (∀ largest, (a = .nan → b = .nan → fpick et largest x y = f.canonicalNaN) ∧ (a = .nan → b ≠ .nan → fpick et largest x y = y) ∧
       (a ≠ .nan → b = .nan → fpick et largest x y = x) ∧
       (a ≠ .nan → b ≠ .nan → fpick et largest x y = x ∨ fpick et largest x y = y)) ∧
     (a ≠ .nan → b ≠ .nan → (a.below b → fpick et false x y = x ∧ fpick et true x y = y) ∧ (b.below a → fpick et false x y = y ∧ fpick et true x y = x)) ∧
     (a = .nan → fabsBits et x = f.canonicalNaN) ∧
     (a ≠ .nan → ∀ i, (fabsBits et x).getLsbD i = (decide (i < f.ebits + f.mbits) && x.getLsbD i)) ∧
     (fclass f .nan = 0x100#32 ∧ fclass f (.inf n) = (if n then 0x001#32 else 0x080#32) ∧
       fclass f (.fin n m e) = if m = 0 then (if n then 0x008#32 else 0x010#32)
         else if |(Exact.fin n m e).rat| < (2 : ℚ) ^ f.emin then (if n then 0x004#32 else 0x020#32)
         else (if n then 0x002#32 else 0x040#32))) ∧
  (∀ (s : State) (mk : BitVec 3) (mz nsat : Bool) (md : Mode) (src et : ET) (d a b : BitVec 6), et ≠ .int64 → src ≠ .int64 →
     VectorReady s [(d, et.width), (a, src.width)] →
     givesVector (.vcvt mk mz md nsat src et d a) s 2 d et.width mk mz (fun k =>
       { bits := (convert et md nsat (elemValue src (vElem s src a k))).bits,
         flags := (convert et md nsat (elemValue src (vElem s src a k))).flags }) ∧
     ((∀ x ∈ scaleOk s b, x.1 = true) →
       givesVector (.vdqnt mk mz md src et d a b) s 2 d et.width mk mz (fun k =>
         dequantElem src et md (vElem s src a k) (readElem s b 16 (k / blockLen (stripBlock s.warp))))))

/-- R134: the lowest enabled element that raises an enabled exception takes the FP trap: the elements below it are written and set their status, it and those above it are not, and vstart names it. R142 with R34, R35, R134: under a flag a long operation changes no register; its elements and its status wait for the commit, and an enabled exception is recorded in their place. -/
def Obligations.FloatExceptions : Prop :=
  (∀ (s : State) (mk : BitVec 3) (mz nsat : Bool) (md : Mode) (src et : ET) (d a b c : BitVec 6) (k : Nat), et ≠ .int64 → src ≠ .int64 →
     VectorReady s [(d, et.width), (a, et.width), (b, et.width), (c, et.width)] →
     let x := vElem s et a
     let y := vElem s et b
     let z := vElem s et c
     let traps (toll : Nat) (i : Instr) (f : Nat → Elem) : Prop :=
       affords s (s.warp.vl * toll) → counts s.warp mk k → enabledTrap s.warp.fpctl (f k).flags = true →
       (∀ j, j < k → counts s.warp mk j → enabledTrap s.warp.fpctl (f j).flags = false) →
       ∃ u, exec i s = .next (takeTrap u (fpReport (f k).flags k 0x20#8) { s.warp.site with vstart := k } s.warp.pos.pc) ∧
         (∀ j, s.warp.vstart ≤ j → j < k → readElem u d et.width j =
           if maskBit s.warp mk j then (f j).bits &&& lowMask et.width else if mz then 0#32 else readElem s d et.width j) ∧
         (∀ j, (j < s.warp.vstart ∨ k ≤ j) → (j + 1) * et.width ≤ groupSize s.warp et.width * s.w * 32 →
           readElem u d et.width j = readElem s d et.width j) ∧
         (∀ i, u.warp.fpstat.getLsbD i = true ↔ s.warp.fpstat.getLsbD i = true ∨
           ∃ j, j < k ∧ counts s.warp mk j ∧ (f j).flags.bits.getLsbD i = true) ∧
         u.warp.s = s.warp.s ∧ u.warp.m = s.warp.m ∧ u.warp.pos = s.warp.pos ∧ u.mem = s.mem ∧ u.parts = s.parts ∧ u.team = s.team ∧
         ChargeTaken s u (s.warp.vl * toll)
     traps 2 (.vfadd mk mz md et d a b) (fun j => faddElem et md (x j) (y j)) ∧ traps 2 (.vfsub mk mz md et d a b) (fun j => fsubElem et md (x j) (y j)) ∧
     traps 2 (.vfmul mk mz md et d a b) (fun j => fmulElem et md (x j) (y j)) ∧
     traps 2 (.vfma mk mz md et d a b c) (fun j => ffmaElem et md false (x j) (y j) (z j)) ∧
     traps 2 (.vfnma mk mz md et d a b c) (fun j => ffmaElem et md true (x j) (y j) (z j)) ∧
     traps 8 (.vfdiv .none mk mz md et d a b) (fun j => fdivElem et md (x j) (y j)) ∧
     traps 8 (.vfsqrt .none mk mz md et d a) (fun j => fsqrtElem et md (x j)) ∧ traps 8 (.vfrsq .none mk mz md et d a) (fun j => frsqElem et md (x j)) ∧
     traps 8 (.vfrcp .none mk mz md et d a) (fun j => frcpElem et md (x j)) ∧ traps 8 (.vfexp2 .none mk mz md et d a) (fun j => fexp2Elem et md (x j)) ∧
     traps 8 (.vflog2 .none mk mz md et d a) (fun j => flog2Elem et md (x j)) ∧
     (VectorReady s [(b, src.width)] → traps 2 (.vcvt mk mz md nsat src et d b) (fun j =>
       { bits := (convert et md nsat (elemValue src (vElem s src b j))).bits, flags := (convert et md nsat (elemValue src (vElem s src b j))).flags })) ∧
     (VectorReady s [(b, src.width)] → (∀ x ∈ scaleOk s c, x.1 = true) → traps 2 (.vdqnt mk mz md src et d b c) (fun j =>
       dequantElem src et md (vElem s src b j) (readElem s c 16 (j / blockLen (stripBlock s.warp)))))) ∧
  (∀ (s : State) (fs : FSel) (mk : BitVec 3) (mz : Bool) (md : Mode) (et : ET) (d a b : BitVec 6), et ≠ .int64 → fs ≠ .none →
     VectorReady s [(d, et.width), (a, et.width), (b, et.width)] → s.warp.dests + groupSize s.warp et.width ≤ 16 → affords s (s.warp.vl * 8) →
     let x := vElem s et a
     let pends (i : Instr) (f : Nat → Elem) : Prop :=
       ∃ t o, exec i s = .next t ∧ t.warp.pending = s.warp.pending ++ [o] ∧ o.flag = flagOf s.warp.pos fs ∧
         o.done = false ∧ o.dests = groupSize s.warp et.width ∧ t.warp.v = s.warp.v ∧ t.warp.fpstat = s.warp.fpstat ∧ t.warp.vstart = 0 ∧
         t.warp.s = s.warp.s ∧ t.warp.m = s.warp.m ∧ t.warp.st = s.warp.st ∧ t.warp.pos = s.warp.pos.after ∧ ChargedFrame s t (s.warp.vl * 8) ∧
         o.seq = s.warp.seq ∧ t.warp.seq = s.warp.seq + 1 ∧
         ((∀ k, counts s.warp mk k → enabledTrap s.warp.fpctl (f k).flags = false) →
           o.fault = none ∧ o.vWrites = elemWrites s d et.width mk mz s.warp.vl f ∧ o.status = elemStatus s.warp mk s.warp.vl f) ∧
         (∀ k, counts s.warp mk k → enabledTrap s.warp.fpctl (f k).flags = true →
           (∀ j, j < k → counts s.warp mk j → enabledTrap s.warp.fpctl (f j).flags = false) →
           o.fault = some (fpReport (f k).flags k 0x20#8, 0) ∧ o.vWrites = [] ∧ o.status = 0#7)
     pends (.vfdiv fs mk mz md et d a b) (fun j => fdivElem et md (x j) (vElem s et b j)) ∧
     pends (.vfsqrt fs mk mz md et d a) (fun j => fsqrtElem et md (x j)) ∧ pends (.vfrsq fs mk mz md et d a) (fun j => frsqElem et md (x j)) ∧
     pends (.vfrcp fs mk mz md et d a) (fun j => frcpElem et md (x j)) ∧ pends (.vfexp2 fs mk mz md et d a) (fun j => fexp2Elem et md (x j)) ∧
     pends (.vflog2 fs mk mz md et d a) (fun j => flog2Elem et md (x j)))

/-- R134, R135, R148, R149: `VQNT` on a strip of whole blocks: each block's scale and elements, quantised from its live positions, with +0 in the place of pad ones; the lowest block with an element that raises an enabled exception takes the FP trap there, the blocks below it written. The model's choices in it: log 27. -/
def Obligations.Quantisation : Prop :=
  ∀ (s : State) (tr : Bool) (src et : ET) (d a b : BitVec 6), s.warp.lanes = none →
    (vecOk s d et.width).1 = true → groupSize s.warp src.width ≤ 8 →
    (if tr then groupOk s a 8 else groupOk s a (groupSize s.warp src.width)) = true → (∀ x ∈ scaleOk s b, x.1 = true) →
    let n := blockLen (stripBlock s.warp)
    let live := s.warp.vl - s.warp.vpad
    let x (k : Nat) : Exact := fVal src (if tr then transposed s src.width a k else vElem s src a k)
    let block (j : Nat) : QuantBlock := quantBlock et ((List.range n).map fun i => if j * n + i < live then x (j * n + i) else .zero) (live - j * n)
    let written (js : List Nat) : List LaneWrite := js.flatMap fun j => quantWrites s et d b n j (block j)
    let gained (js : List Nat) (w : Warp) : Prop :=
      ∀ i, w.fpstat.getLsbD i = true ↔ s.warp.fpstat.getLsbD i = true ∨ ∃ j ∈ js, (block j).flags.bits.getLsbD i = true
    affords s (s.warp.vl * 2) →
    ((∀ j ∈ quantBlocks s.warp n, (block j).trap s.warp.fpctl = none) →
      ∃ t, exec (.vqnt tr src et d a b) s = .next t ∧ t.warp.v = applyWrites s.warp.v (written (quantBlocks s.warp n)) ∧
        gained (quantBlocks s.warp n) t.warp ∧
        stopsV s.warp t.warp (fun lane b => ∃ y ∈ written (quantBlocks s.warp n), y.lane = lane ∧ y.mask.getLsbD b = true) ∧
        t.warp.vstart = 0 ∧ t.warp.pos = s.warp.pos.after ∧ t.warp.s = s.warp.s ∧ t.warp.m = s.warp.m ∧ t.warp.st = s.warp.st ∧
        t.warp.seq = s.warp.seq ∧ ChargedFrame s t (s.warp.vl * 2)) ∧
    (∀ j i f, j ∈ quantBlocks s.warp n → (block j).trap s.warp.fpctl = some (i, f) →
      (∀ j' ∈ quantBlocks s.warp n, j' < j → (block j').trap s.warp.fpctl = none) →
      ∃ u, exec (.vqnt tr src et d a b) s =
          .next (takeTrap u (fpReport f (j * n + i) 0x20#8) { s.warp.site with vstart := j * n + i } s.warp.pos.pc) ∧
        u.warp.v = applyWrites s.warp.v (written ((quantBlocks s.warp n).filter (· < j))) ∧
        gained ((quantBlocks s.warp n).filter (· < j)) u.warp ∧ u.warp.s = s.warp.s ∧ u.warp.m = s.warp.m ∧ u.warp.pos = s.warp.pos ∧
        u.mem = s.mem ∧ u.parts = s.parts ∧ u.team = s.team ∧ ChargeTaken s u (s.warp.vl * 2)) ∧
    (s.warp.vl ≤ s.warp.vstart → ∃ t, exec (.vqnt tr src et d a b) s = .next t ∧ t.warp.v = s.warp.v ∧ t.warp.fpstat = s.warp.fpstat ∧ t.warp.vstart = 0)

/-! ## Permutes, reductions and scans (08_permute_and_reduce.md) -/

/-- R173, R174, R175, R179: the permutes read every source element before they write, act on elements 0 to VL − 1 whatever `vstart` holds, and set `vstart` to 0. R179: `VEXTR` extends the element by the signedness of its type, and gives 0 at or beyond VL. -/
def Obligations.Permutes : Prop :=
  (∀ (s : State) (mk m : BitVec 3) (mz : Bool) (et : ET) (d a b : BitVec 6), et ≠ .int64 →
     let e := et.width
     let keep (v : LaneWord) : LaneWord := if et = .sc12 then v &&& 0xFFF#32 else v
     let src (i : Nat) : LaneWord := if i < s.warp.vl then keep (vElem s et a i) else 0#32
     let n := (s.warp.readS b).toNat
     let put (i : Instr) (mk : BitVec 3) (mz : Bool) (f : Nat → LaneWord) : Prop :=
       givesPermuted i s d (groupSize s.warp e) e mk mz s.warp.vl f
     (VectorReady s [(d, e), (a, e)] →
       (VectorReady s [(b, 16)] → put (.vperm mk mz et d a b) mk mz (fun k => src (readElem s b 16 k).toNat)) ∧
       put (.vslup mk mz et d a b) mk mz (fun k => if n ≤ k then src (k - n) else 0#32) ∧
       put (.vsldn mk mz et d a b) mk mz (fun k => src (k + n)) ∧ put (.vbcast mk mz et d a b) mk mz (fun _ => src n) ∧
       put (.vcmprs et d a m) 0#3 false (fun k =>
         match ((List.range s.warp.vl).filter fun i => maskBit s.warp m i)[k]? with
         | some i => src i
         | none => 0#32) ∧
       put (.vexpnd et d a m) m false (fun k => src ((List.range k).countP fun j => maskBit s.warp m j))) ∧
     (s.warp.lanes = none → s.warp.v.length = s.r * s.w → groupOk s d 8 = true → groupOk s a 8 = true →
       let l := s.w * 32 / e
       givesPermuted (.vtr8 mk mz et d a) s d 8 e mk mz (min s.warp.vl (8 * l)) (fun k => keep (readElem s a e (k % 8 * l + k / 8)))) ∧
     (VectorReady s [(d, e)] → affords s s.warp.vl →
       ∃ t, exec (.vins et d a b) s = .next t ∧
         SpanWritten s t d (groupSize s.warp e) e 0#3 false s.warp.vl
           (fun k => if k = n then keep ((s.warp.readS a).setWidth 32) else readElem s d e k) ∧
         stopsV s.warp t.warp (fun lane b => n < s.warp.vl ∧ bitOf s d e n lane b) ∧ t.warp.fpstat = s.warp.fpstat ∧ VectorDone s t)) ∧
  (∀ (s : State) (et : ET) (d a b : BitVec 6), et ≠ .int64 → VectorReady s [(a, et.width)] →
     let n := (s.warp.readS b).toNat
     let keep (v : LaneWord) : LaneWord := if et = .sc12 then v &&& 0xFFF#32 else v
     givesCharged (.vextr et d a b) s 0 d
       (if n < s.warp.vl then
          (if et.isSigned then BitVec.ofInt 64 (signedOf et.width (keep (vElem s et a n))) else (keep (vElem s et a n)).setWidth 64)
        else 0#64))

/-- R176: the integer reductions: the sum wrapped, the extremes over the live leaves, pad leaves counting as 0, and the identities when no leaf is live. R176, R177: a floating `VREDSUM` adds in the fixed pairwise tree over 1,024 leaves, of which the disabled ones and those beyond VL are empty; its nodes' exceptions go to FPSTAT while none is enabled, and the lowest node that raises an enabled one takes the FP trap with nothing written, no status set and `vstart` 0. The floating extremes ignore NaNs and set no status. The model's choices in it: log 17. -/
def Obligations.Reductions : Prop :=
  (∀ (s : State) (mk : BitVec 3) (et : ET) (d a : BitVec 6), et.isInt = true → et ≠ .int64 → VectorReady s [(a, et.width)] →
     d.toNat < s.r → 0 < s.w → s.warp.vl ≤ 1024 →
     let value (k : Nat) : Int := if k < s.warp.vl - s.warp.vpad then vVal s et a k else 0
     let leaves := ((List.range s.warp.vl).filter fun k => maskBit s.warp mk k).map value
     (∀ md, givesReduced (.vredsum mk md et d a) s d (BitVec.ofInt 32 leaves.sum) (fun _ => False)) ∧
     (leaves = [] → givesReduced (.vredmax mk et d a) s d (BitVec.ofInt 32 (intMin et)) (fun _ => False) ∧
       givesReduced (.vredmin mk et d a) s d (BitVec.ofInt 32 (intMax et)) (fun _ => False)) ∧
     (∀ x ∈ leaves, (∀ y ∈ leaves, y ≤ x) → givesReduced (.vredmax mk et d a) s d (BitVec.ofInt 32 x) (fun _ => False)) ∧
     (∀ x ∈ leaves, (∀ y ∈ leaves, x ≤ y) → givesReduced (.vredmin mk et d a) s d (BitVec.ofInt 32 x) (fun _ => False))) ∧
  (∀ (s : State) (mk : BitVec 3) (md : Mode) (et : ET) (d a : BitVec 6), (et = .fp32 ∨ et = .bf16 ∨ et = .fp16) →
     VectorReady s [(a, et.width)] → d.toNat < s.r → 0 < s.w → s.warp.vl ≤ 1024 →
     let wide (k : Nat) : LaneWord := if k < s.warp.vl - s.warp.vpad then (rnd (fmtOf .fp32) .rne (fVal et (vElem s et a k))).bits else 0#32
     let leaf (k : Nat) : Option LaneWord := if k < s.warp.vl ∧ maskBit s.warp mk k = true then some (wide k) else none
     let node := treeAt (fun p q => (faddElem .fp32 md p q).bits) leaf
     let leaves := ((List.range s.warp.vl).filter fun k => maskBit s.warp mk k).map wide
     let raises (n k : Nat) (f : FpFlags) : Prop := ∃ p q, n < 10 ∧ k < 512 ∧ node n (2 * k) = some p ∧ node n (2 * k + 1) = some q ∧
       f = (faddElem .fp32 md p q).flags ∧ enabledTrap s.warp.fpctl f = true
     ((∀ n k f, ¬ raises n k f) →
       givesReduced (.vredsum mk md et d a) s d ((node 10 0).getD 0#32) (fun i =>
         ∃ n k p q, n < 10 ∧ k < 512 ∧ node n (2 * k) = some p ∧ node n (2 * k + 1) = some q ∧ (faddElem .fp32 md p q).flags.bits.getLsbD i = true)) ∧
     (∀ n k f, raises n k f → (∀ n' k' f', n' < n ∨ (n' = n ∧ k' < k) → ¬ raises n' k' f') → affords s s.warp.vl →
       ∃ u, exec (.vredsum mk md et d a) s = .next (takeTrap u (fpReport f 0 0x22#8) { s.warp.site with vstart := 0 } s.warp.pos.pc) ∧
         u = { s with cores := u.cores, warp := { s.warp with lease := u.warp.lease, paid := u.warp.paid } } ∧ ChargeTaken s u s.warp.vl) ∧
     givesReduced (.vredmax mk et d a) s d
       (match leaves with
        | [] => 0xFF800000#32
        | x :: xs => xs.foldl (fpick .fp32 true) x) (fun _ => False) ∧
     givesReduced (.vredmin mk et d a) s d
       (match leaves with
        | [] => 0x7F800000#32
        | x :: xs => xs.foldl (fpick .fp32 false) x) (fun _ => False))

/-- R178: the scan writes the running value at every enabled element, in element order, when no step raises an enabled exception; pad elements count as +0 or 0 and set no status. The lowest element that raises one takes the FP trap with the elements below it written, once the trap waits for no flag. The model's choices in it: logs 75 and 76. -/
def Obligations.Scans : Prop :=
  ∀ (s : State) (mk : BitVec 3) (mz : Bool) (md : Mode) (op : ScanOp) (et : ET) (d a : BitVec 6), et ≠ .int64 →
    VectorReady s [(d, et.width), (a, et.width)] →
    let x (k : Nat) : LaneWord := if k < s.warp.vl - s.warp.vpad then vElem s et a k else 0#32
    let run := runningAt (fun k => maskBit s.warp mk k) x (fun r y => (scanStep md op et r y).bits)
    let gained (k : Nat) (i : Nat) : Prop := ∃ r, k < s.warp.vl - s.warp.vpad ∧ maskBit s.warp mk k = true ∧ run k = some r ∧
      (scanStep md op et r (x k)).flags.bits.getLsbD i = true
    let raises (k : Nat) (x : Elem) : Prop := ∃ r, k < s.warp.vl - s.warp.vpad ∧ maskBit s.warp mk k = true ∧ run k = some r ∧
      x = scanStep md op et r (vElem s et a k) ∧ enabledTrap s.warp.fpctl x.flags = true
    let spanned (u : State) (n : Nat) : Prop :=
      SpanWritten s u d (groupSize s.warp et.width) et.width mk mz n (fun k => (run (k + 1)).getD 0#32) ∧
      (∀ i, u.warp.fpstat.getLsbD i = true ↔ s.warp.fpstat.getLsbD i = true ∨ ∃ k, k < n ∧ gained k i)
    affords s s.warp.vl →
    ((∀ k x, ¬ raises k x) → ∃ t, exec (.vscan mk mz md op et d a) s = .next t ∧ spanned t s.warp.vl ∧
      stopsV s.warp t.warp (fun lane b => ∃ k, k < s.warp.vl ∧ (maskBit s.warp mk k = true ∨ mz = true) ∧ bitOf s d et.width k lane b) ∧
      VectorDone s t) ∧
    (∀ k x, raises k x → (∀ j y, j < k → ¬ raises j y) → s.warp.mustWait flagged = false →
      ∃ u, exec (.vscan mk mz md op et d a) s =
          .next (takeTrap u (fpReport x.flags k 0x20#8) { s.warp.site with vstart := k } s.warp.pos.pc) ∧ spanned u k ∧
        u.warp.s = s.warp.s ∧ u.warp.m = s.warp.m ∧ u.warp.pos = s.warp.pos ∧ u.mem = s.mem ∧ u.parts = s.parts ∧ u.team = s.team ∧
        ChargeTaken s u s.warp.vl)

/-! ## Loads, stores and streams (09_loads_stores_streams.md) -/

/-- R192, R182, R183, R189, R209: the checks of an element in the SRAM window, in their order; only an element after the first trims. R190, R192: an access whose elements all pass their checks, with no line held by an engine and no uncorrectable error in the package, performs every element, and none before the last has been checked. R185: where an engine holds a line of one of them, the access waits for the first such line, and performs none. -/
def Obligations.AccessChecks : Prop :=
  (∀ (s : State) (q : Ask) (first : Bool) (x : Elt), q.held = [] →
     let key := va54 x.va
     let off := key - Config.windowBase
     let bytes : Int := ((q.e / 8 : Nat) : Int)
     ((x.va < 0 ∨ 2 ^ 64 ≤ x.va) → checkElt s q first x = .fault (canonReport 0x49#8 x.k x.va)) ∧
     (0 ≤ x.va → x.va < 2 ^ 64 → 2 ^ 53 ≤ x.va → x.va < 2 ^ 64 - 2 ^ 53 → checkElt s q first x = .fault (canonReport 0x48#8 x.k x.va)) ∧
     ((0 ≤ x.va ∧ x.va < 2 ^ 53) ∨ (2 ^ 64 - 2 ^ 53 ≤ x.va ∧ x.va < 2 ^ 64) →
       (8 < q.e → x.va % bytes ≠ 0 → checkElt s q first x = .fault (accessReport 0x30#8 x.k x.va)) ∧
       ((q.e ≤ 8 ∨ x.va % bytes = 0) → inWindow key = true →
         (backed s off = false → (first = true ∨ q.trims = false) → checkElt s q first x = .fault (accessReport 0x31#8 x.k x.va)) ∧
         (backed s off = false → first = false → q.trims = true → checkElt s q first x = .trim) ∧
         (backed s off = true → ownedBy s q.part off = false → checkElt s q first x = .fault (accessReport 0x32#8 x.k x.va)) ∧
         (backed s off = true → ownedBy s q.part off = true → checkElt s q first x = .ok { key := key })))) ∧
  (∀ (s : State) (q : Ask) (xs : List Elt) (place : Elt → Loc),
     (∀ x ∈ xs, ∀ first, checkElt s q first x = .ok (place x)) → quiet s = true →
     s.mgmt.linkUp = true → s.mgmt.portsUp = BitVec.allOnes 8 →
     let all := xs.map fun x => (x, place x)
     let free (x : Elt) : Prop := ∀ a, (place x).key ≤ a → a < (place x).key + eltBytes q.e → a / 128 ∉ s.absent
     0 < q.e → ((∀ x ∈ xs, free x) → planOf s q xs = .run all none) ∧
     (∀ before x after, xs = before ++ x :: after → (∀ y ∈ before, free y) → ¬ free x →
       ∃ line ∈ s.absent, planOf s q xs = .wait line all ∧ (place x).key / 128 ≤ line ∧ line ≤ ((place x).key + eltBytes q.e - 1) / 128))

/-- R195, R34: a scalar load extends its element into its register, or under a flag into the pending result that its flag holds. R195, R197: a scalar store writes the bytes of its element and no others. R192, R195, R197, R248, R35: a scalar access whose element fails its checks, or reads an uncorrectable error, takes its trap and does nothing else; under a flag the load records the fault in place of its result. The model's choices in it: log 29. -/
def Obligations.ScalarAccesses : Prop :=
  (∀ (s : State) (et : ET) (ch : BitVec 2) (d a : BitVec 6) (off : BitVec 16) (x : Elt × Loc), s.warp.lanes = none →
     planOf s { s.ask .read et.width with trims := false } [{ k := 0, va := (s.warp.readS a).toNat + off.toInt }] = .run [x] none →
     let v := loadElt s et.width x
     let value : Word :=
       if et = .int32 ∨ et = .int16 ∨ et = .int8 then BitVec.ofInt 64 (signedOf et.width (v.setWidth 32))
       else if et = .sc12 then v &&& 0xFFF#64 else v
     let kept (t : State) : Prop :=
       t.warp.v = s.warp.v ∧ t.warp.st = s.warp.st ∧ t.warp.vl = s.warp.vl ∧ t.warp.vpad = s.warp.vpad ∧ t.warp.vstart = 0 ∧
         t.warp.pos = s.warp.pos.after ∧ t.cores = s.cores ∧ t.warp.lease = s.warp.lease ∧ LoadFrame s t 0
     (∃ t, exec (.lds .none et ch d a off) s = .next t ∧ wroteS s.warp t.warp d value ∧ t.warp.seq = s.warp.seq ∧
       t.warp.pending = s.warp.stoppedS d ∧ kept t) ∧
     (∀ fs, fs ≠ .none → s.warp.dests + (if d = 0#6 then 0 else 1) ≤ 16 →
       ∃ t o, exec (.lds fs et ch d a off) s = .next t ∧ t.warp.pending = s.warp.pending ++ [o] ∧ o.flag = flagOf s.warp.pos fs ∧
         o.done = false ∧ o.fault = none ∧ o.sWrite = (if d = 0#6 then none else some (d, value)) ∧ o.vWrites = [] ∧
         t.warp.s = s.warp.s ∧ t.warp.seq = s.warp.seq + 1 ∧ kept t)) ∧
  (∀ (s : State) (et : ET) (ch : BitVec 2) (a b : BitVec 6) (off : BitVec 16) (x : Elt × Loc), s.warp.lanes = none →
     planOf s { s.ask .write et.width with trims := false } [{ k := 0, va := (s.warp.readS a).toNat + off.toInt }] = .run [x] none →
     ∃ t, exec (.sts et ch a b off) s = .next t ∧
       ElementsStored s t et.width [x] (fun _ => if et = .sc12 then s.warp.readS b &&& 0xFFF#64 else s.warp.readS b) ∧
       t.warp.s = s.warp.s ∧ t.warp.v = s.warp.v ∧ t.warp.pending = s.warp.pending ∧ t.warp.seq = s.warp.seq ∧
       t.warp.st.map Stream.plain = s.warp.st.map Stream.plain ∧ t.warp.vl = s.warp.vl ∧ t.warp.vpad = s.warp.vpad ∧
       t.warp.vstart = 0 ∧ t.warp.pos = s.warp.pos.after ∧ t.cores = s.cores ∧ StoreFrame s t [x] 0) ∧
  (∀ (s : State) (et : ET) (ch : BitVec 2) (op : AtomOp) (ord : Ord4) (md : Mode) (d a b c : BitVec 6) (off : BitVec 16) (stop : Stop) (k : Nat)
     (r : Report), s.warp.lanes = none → stop = .fault k r ∨ stop = .error k r →
     let fails (acc : Access) (va : Int) : Prop := planOf s { s.ask acc et.width with trims := false } [{ k := 0, va := va }] = .run [] (some stop)
     let trap : Result := .next (trapHere s r 0)
     (fails .read ((s.warp.readS a).toNat + off.toInt) → exec (.lds .none et ch d a off) s = trap ∧
       ∀ fs, fs ≠ .none → s.warp.dests + (if d = 0#6 then 0 else 1) ≤ 16 →
         ∃ t o, exec (.lds fs et ch d a off) s = .next t ∧ t.warp.pending = s.warp.pending ++ [o] ∧ o.flag = flagOf s.warp.pos fs ∧
           o.done = false ∧ o.fault = some (r.settled, 0) ∧ o.sWrite = none ∧ o.vWrites = [] ∧ t.warp.s = s.warp.s ∧
           t.warp.v = s.warp.v ∧ t.warp.vstart = 0 ∧ t.mem = s.mem ∧ t.warp.pos = s.warp.pos.after) ∧
     (fails .write ((s.warp.readS a).toNat + off.toInt) → exec (.sts et ch a b off) s = trap) ∧
     (let asks (acc : Access) : Prop := planOf s (atomAsk s acc et.width false) [{ k := 0, va := (s.warp.readS a).toNat }] = .run [] (some stop)
      let claims (i : FSel → Instr) : Prop := exec (i .none) s = trap ∧
        ∀ fs, fs ≠ .none → s.warp.dests + (if d = 0#6 then 0 else 1) ≤ 16 →
          (stop = .fault k r → exec (i fs) s = trap) ∧
          (stop = .error k r → ∃ t o, exec (i fs) s = .next t ∧ t.warp.pending = s.warp.pending ++ [o] ∧ o.flag = flagOf s.warp.pos fs ∧
            o.done = false ∧ o.fault = some (r.settled, 0) ∧ o.sWrite = none ∧ o.vWrites = [] ∧ t.warp.s = s.warp.s ∧ t.mem = s.mem ∧
            t.warp.vstart = 0 ∧ t.warp.pos = s.warp.pos.after)
      (asks (atomAccess op) → claims fun fs => .atom fs op ord md et d a b) ∧ (asks .readWrite → claims fun fs => .cas fs ord et d a b c)))

/-- R196 with R74: in lane mode each lane of the group loads into, or stores from, its own word at its own address. R192: a lane that faults stops itself and the lanes above it; those below it have performed and go on (the reading of log 18). R252: in lane mode each lane of the group performs an atomic of its own, one at a time, in some order; a lane that faults stops itself and the lanes above it, and those below it have performed and go on (the reading of log 18). The model's choices in it: log 18. -/
def Obligations.LaneAccesses : Prop :=
  (∀ (s : State) (lm : LaneMode) (et : ET) (ch : BitVec 2) (d a : BitVec 6) (off : BitVec 16) (oks : List (Elt × Loc)),
     LaneShape s lm → et ≠ .int64 → d.toNat < s.r → groupOk s a 2 = true → affords s lm.group.length →
     let n := lm.group.length
     let addr (l : Nat) : Int := ((laneOf s a l).toNat + 2 ^ 32 * (laneOf s (a + 1#6) l).toNat : Nat) + off.toInt
     let elts := lm.group.map fun l => ({ k := l, va := addr l } : Elt)
     let q (acc : Access) : Ask := { s.ask acc et.width with trims := false, each := true }
     let moved (t : State) (ls : List Nat) : Prop := ∃ lm', t.warp.lanes = some lm' ∧
       (∀ l ∈ ls, (lm'.lane l).pos = (lm.lane l).pos.after) ∧ ∀ l, l ∉ ls → lm'.lane l = lm.lane l
     let loaded (t : State) : Prop := t.warp.s = s.warp.s ∧
       (∀ x ∈ oks, laneOf t d x.1.k = (extended et (loadElt s et.width x)).setWidth 32) ∧
       (∀ i, (∀ x ∈ oks, i ≠ d.toNat * s.w + x.1.k) → t.warp.readLane i = s.warp.readLane i) ∧
       stopsV s.warp t.warp (fun k _ => ∃ x ∈ oks, k = d.toNat * s.w + x.1.k)
     let stores (t : State) : Prop := t.warp.s = s.warp.s ∧ t.warp.v = s.warp.v ∧ t.warp.pending = s.warp.pending ∧
       ElementsStored s t et.width oks (fun l => stored et ((laneOf s d l).setWidth 64))
     (planOf s (q .read) elts = .run oks none →
       ∃ t, exec (.lds .none et ch d a off) s = .next t ∧ moved t lm.group ∧ oks.map (fun x => x.1.k) = lm.group ∧ loaded t ∧
         LoadFrame s t n) ∧
     (planOf s (q .write) elts = .run oks none →
       ∃ t, exec (.sts et ch a d off) s = .next t ∧ moved t lm.group ∧ stores t ∧ StoreFrame s t oks n) ∧
     (∀ stop k r, stop = .fault k r ∨ stop = .error k r →
       let below := oks.map fun x => x.1.k
       (planOf s (q .read) elts = .run oks (some stop) →
         ∃ u, exec (.lds .none et ch d a off) s = .next (trapHere u r s.warp.vstart) ∧ below = lm.group.filter (· < k) ∧ moved u below ∧
           loaded u ∧ u.mem = s.mem ∧ ChargeTaken s u n) ∧
       (planOf s (q .write) elts = .run oks (some stop) →
         ∃ u, exec (.sts et ch a d off) s = .next (trapHere u r s.warp.vstart) ∧ below = lm.group.filter (· < k) ∧ moved u below ∧
           stores u ∧ ChargeTaken s u n))) ∧
  (∀ (s : State) (lm : LaneMode) (op : AtomOp) (ord : Ord4) (md : Mode) (et : ET) (d a b c : BitVec 6) (oks : List (Elt × Loc)),
     LaneShape s lm → et ≠ .int64 → d.toNat < s.r → b.toNat < s.r → c.toNat < s.r → groupOk s a 2 = true → affords s lm.group.length →
     let e := et.width
     let n := lm.group.length
     let elts := lm.group.map fun l =>
       ({ k := l, va := ((laneOf s a l).toNat + 2 ^ 32 * (laneOf s (a + 1#6) l).toNat : Nat) } : Elt)
     let performs (i : Instr) (acc : Access) (f : Nat → Word → Option Word) (writes : Prop) : Prop :=
       let q : Ask := { atomAsk s acc e false with each := true }
       let performed (t : State) (ls : List Nat) : Prop := ∃ xs lm', xs.Perm oks ∧ oks.map (fun x => x.1.k) = ls ∧
         t.mem = (atomMany e f xs s).1.mem ∧ t.keytags = (atomMany e f xs s).1.keytags ∧
         (writes → ∀ o ∈ (atomMany e f xs s).2, laneOf t d o.1 = o.2.setWidth 32) ∧
         (∀ i, (¬ writes ∨ ∀ l ∈ ls, i ≠ d.toNat * s.w + l) → t.warp.readLane i = s.warp.readLane i) ∧ t.warp.lanes = some lm' ∧
         (∀ l ∈ ls, (lm'.lane l).pos = (lm.lane l).pos.after) ∧ (∀ l, l ∉ ls → lm'.lane l = lm.lane l) ∧ t.warp.s = s.warp.s
       (planOf s q elts = .run oks none →
         ∃ t, exec i s = .next t ∧ performed t lm.group ∧
           (writes → stopsV s.warp t.warp (fun k _ => ∃ l ∈ lm.group, k = d.toNat * s.w + l)) ∧
           (¬ writes → t.warp.pending = s.warp.pending) ∧ StoreFrame s t oks n) ∧
       (∀ stop k r, planOf s q elts = .run oks (some stop) → stop = .fault k r ∨ stop = .error k r →
         ∃ u, exec i s = .next (trapHere u r s.warp.vstart) ∧ performed u (lm.group.filter (· < k)) ∧ ChargeTaken s u n)
     performs (.atom .none op ord md et d a b) (atomAccess op) (fun l old => atomValue op et md old ((laneOf s b l).setWidth 64)) (op ≠ .st) ∧
     performs (.cas .none ord et d a b c) .readWrite
       (fun l old => if old = (laneOf s b l).setWidth 64 then some ((laneOf s c l).setWidth 64) else none) True)

/-- R188, R192, R193, R197: vector loads by unit stride, by stride and by index: the live elements are read, the others follow MZ and pad, a trim shortens the strip, and a fault leaves the elements below it written. -/
def Obligations.VectorLoads : Prop :=
  ∀ (s : State) (fs : FSel) (mk : BitVec 3) (mz : Bool) (et : ET) (ch : BitVec 2) (d a c : BitVec 6) (off : BitVec 16) (oks : List (Elt × Loc))
    (stop : Option Stop), VectorReady s [(d, et.width)] → s.warp.service.gathered = [] → affords s s.warp.vl →
    let base : Int := (s.warp.readS a).toNat + off.toInt
    let loads (i : Instr) (place : Nat → Int × Nat) : Prop :=
      planOf s (s.ask .read et.width) (asked s.warp mk place) = .run oks stop →
      (stop = none ∨ (∃ k, stop = some (.trim k)) →
        ∃ t, exec i s = .next t ∧ ElementsTo s t d et.width mk mz (endOf s.warp stop) (loadedElem s et oks) ∧ stripAfter s.warp t.warp stop ∧
          t.warp.s = s.warp.s ∧ t.warp.st = s.warp.st ∧ t.warp.seq = s.warp.seq ∧
          stopsV s.warp t.warp (stripBits s d et.width mk mz (endOf s.warp stop)) ∧ t.warp.pos = s.warp.pos.after ∧ LoadFrame s t s.warp.vl) ∧
      (∀ k r, stop = some (.fault k r) ∨ stop = some (.error k r) →
        ∃ u, exec i s = .next (trapHere u r k) ∧ ElementsTo s u d et.width mk mz k (loadedElem s et oks) ∧ u.warp.pos = s.warp.pos ∧
          u.warp.s = s.warp.s ∧ u.warp.m = s.warp.m ∧ u.mem = s.mem ∧ ChargeTaken s u s.warp.vl)
    let pends (i : Instr) (place : Nat → Int × Nat) : Prop :=
      fs ≠ .none → s.warp.dests + groupSize s.warp et.width ≤ 16 →
      planOf s (s.ask .read et.width) (asked s.warp mk place) = .run oks stop →
      ∃ t o, exec i s = .next t ∧ t.warp.pending = s.warp.pending ++ [o] ∧ o.flag = flagOf s.warp.pos fs ∧ o.done = false ∧
        o.dests = groupSize s.warp et.width ∧ t.warp.v = s.warp.v ∧ t.warp.s = s.warp.s ∧ t.warp.st = s.warp.st ∧
        t.warp.pos = s.warp.pos.after ∧
        t = { s with cores := t.cores, xlate := t.xlate, tables := t.tables, draws := s.draws + 1, bad := t.bad, badMap := t.badMap,
                     dirty := t.dirty, warp := accessWarp s.warp t.warp } ∧ ChargeTaken s t s.warp.vl ∧
        (stop = none ∨ (∃ k, stop = some (.trim k)) → o.fault = none ∧ LoadFrame s t s.warp.vl ∧ stripAfter s.warp t.warp stop ∧
          ElementsTo s (landed s o) d et.width mk mz (endOf s.warp stop) (loadedElem s et oks)) ∧
        (∀ k r, stop = some (.fault k r) ∨ stop = some (.error k r) →
          o.fault = some (r.settled, 0) ∧ o.vWrites = [] ∧ t.warp.vstart = 0 ∧ t.warp.vl = s.warp.vl ∧ t.warp.vpad = s.warp.vpad)
    let unit (k : Nat) : Int × Nat := (base + (k * et.width / 8 : Nat), k * et.width % 8)
    let strided (k : Nat) : Int × Nat := (base + k * (s.warp.readS c).toInt, 0)
    let indexed (k : Nat) : Int × Nat := (base + (readElem s c 32 k).toInt, 0)
    loads (.vld .none mk mz et ch d a off) unit ∧ loads (.vlds .none mk mz et ch d a c off) strided ∧
    pends (.vld fs mk mz et ch d a off) unit ∧ pends (.vlds fs mk mz et ch d a c off) strided ∧
    (VectorReady s [(c, 32)] → loads (.vldx .none mk mz et ch d a c off) indexed ∧ pends (.vldx fs mk mz et ch d a c off) indexed)

/-- R188, R192, R193, R197: vector stores write the bytes of their live elements and no others. -/
def Obligations.VectorStores : Prop :=
  ∀ (s : State) (mk : BitVec 3) (et : ET) (ch : BitVec 2) (a b c : BitVec 6) (off : BitVec 16) (oks : List (Elt × Loc))
    (stop : Option Stop), VectorReady s [(b, et.width)] → et ≠ .int64 → affords s s.warp.vl →
    let base : Int := (s.warp.readS a).toNat + off.toInt
    let val (k : Nat) : Word := stored et ((vElem s et b k).setWidth 64)
    let stores (i : Instr) (place : Nat → Int × Nat) : Prop :=
      planOf s (s.ask .write et.width) (asked s.warp mk place) = .run oks stop →
      (stop = none ∨ (∃ k, stop = some (.trim k)) →
        ∃ t, exec i s = .next t ∧ ElementsStored s t et.width oks val ∧ stripAfter s.warp t.warp stop ∧ t.warp.s = s.warp.s ∧
          t.warp.v = s.warp.v ∧ t.warp.st.map Stream.plain = s.warp.st.map Stream.plain ∧ t.warp.seq = s.warp.seq ∧
          t.warp.pending = s.warp.pending ∧ t.warp.pos = s.warp.pos.after ∧ StoreFrame s t oks s.warp.vl) ∧
      (∀ k r, stop = some (.fault k r) ∨ stop = some (.error k r) →
        ∃ u, exec i s = .next (trapHere u r k) ∧ ElementsStored s u et.width oks val ∧ u.warp.pos = s.warp.pos ∧ u.warp.s = s.warp.s ∧
          u.warp.v = s.warp.v ∧ ChargeTaken s u s.warp.vl)
    stores (.vst mk et ch a b off) (fun k => (base + (k * et.width / 8 : Nat), k * et.width % 8)) ∧
    stores (.vsts mk et ch a b c off) (fun k => (base + k * (s.warp.readS c).toInt, 0)) ∧
    (VectorReady s [(c, 32)] → stores (.vstx mk et ch a b c off) (fun k => (base + (readElem s c 32 k).toInt, 0)))

/-- R201, R204: a stream is defined at element 0; consuming and producing words act on the elements from P on, and P moves by the elements taken, up to COUNT. The model's choices in it: log 30. -/
def Obligations.Streams : Prop :=
  ∀ (s : State) (si : StreamImm) (r : BitVec 3) (mk : BitVec 3) (mz : Bool) (ch : BitVec 2) (d a b : BitVec 6) (oks : List (Elt × Loc)),
    s.warp.lanes = none →
    let x := s.warp.stream r
    let e := x.et.width
    let place (k : Nat) : Int × Nat :=
      if x.unit then ((x.base.toNat : Int) + ((x.p + k) * e / 8 : Nat), (x.p + k) * e % 8)
      else ((x.base.toNat : Int) + (x.p + k : Nat) * x.stride.toInt, 0)
    let elts := (asked s.warp mk place).filter fun y => x.count = 0#23 || x.p + y.k < x.count.toNat
    let moved := (x.p + (s.warp.vl - s.warp.vpad)) % 2 ^ 64
    let next := if x.count = 0#23 then moved else min moved x.count.toNat
    let taken (t : State) : Prop :=
      (t.warp.stream r).plain = { x.plain with p := next } ∧
      ∀ q, q ≠ r → (t.warp.stream q).plain = (s.warp.stream q).plain
    (∃ t, exec (.strdef si r a b) s = .next t ∧
      t.warp.stream r = { defined := true, base := s.warp.readS a, stride := s.warp.readS b, et := si.et, depth := si.depth,
                          store := si.store, unit := si.unit, count := si.count, p := 0 } ∧
      (∀ q, q ≠ r → t.warp.stream q = s.warp.stream q) ∧ t.warp.s = s.warp.s ∧ t.warp.v = s.warp.v ∧ t.warp.m = s.warp.m ∧
      t.warp.pending = s.warp.pending ∧ t.warp.seq = s.warp.seq ∧ t.warp.fpstat = s.warp.fpstat ∧ t.warp.vstart = s.warp.vstart ∧
      t.warp.pos = s.warp.pos.after ∧ t.cores = s.cores ∧ ChargedFrame s t 0) ∧
    (x.defined = true → x.store = false → x.ahead = [] → x.held = [] → s.warp.service.gathered = [] → VectorReady s [(d, e)] →
      affords s s.warp.vl → planOf s (s.ask .read e) elts = .run oks none →
      ∃ t, exec (.vldst .none mk mz ch d r) s = .next t ∧ ElementsWritten s t d e mk mz (loadedElem s x.et oks) ∧ taken t ∧
        stripAfter s.warp t.warp none ∧ t.warp.s = s.warp.s ∧ stopsV s.warp t.warp (stripBits s d e mk mz s.warp.vl) ∧
        t.warp.pos = s.warp.pos.after ∧ LoadFrame s t s.warp.vl) ∧
    (∀ fs, fs ≠ .none → x.defined = true → x.store = false → x.ahead = [] → x.held = [] → s.warp.service.gathered = [] →
      VectorReady s [(d, e)] → s.warp.dests + groupSize s.warp e ≤ 16 → affords s s.warp.vl → planOf s (s.ask .read e) elts = .run oks none →
      ∃ t o, exec (.vldst fs mk mz ch d r) s = .next t ∧ t.warp.pending = s.warp.pending ++ [o] ∧ o.flag = flagOf s.warp.pos fs ∧
        o.done = false ∧ o.fault = none ∧ ElementsWritten s (landed s o) d e mk mz (loadedElem s x.et oks) ∧ taken t ∧
        t.warp.v = s.warp.v ∧ stripAfter s.warp t.warp none ∧ t.warp.s = s.warp.s ∧ t.warp.pos = s.warp.pos.after ∧ LoadFrame s t s.warp.vl) ∧
    (let trap : Result := .next (trapHere s { cause := .illegal, info := 0x0C#64 } s.warp.vstart)
     (¬ (x.defined = true ∧ x.store = false) → ∀ fs, exec (.vldst fs mk mz ch d r) s = trap) ∧
     (¬ (x.defined = true ∧ x.store = true) → exec (.vstst mk ch r b) s = trap)) ∧
    (x.defined = true → x.store = true → x.held = [] → VectorReady s [(b, e)] → x.et ≠ .int64 → affords s s.warp.vl → planOf s (s.ask .write e) elts = .run oks none →
      ∃ t, exec (.vstst mk ch r b) s = .next t ∧
        ElementsStored s t e oks (fun k => stored x.et ((vElem s x.et b k).setWidth 64)) ∧ taken t ∧ stripAfter s.warp t.warp none ∧
        t.warp.s = s.warp.s ∧ t.warp.v = s.warp.v ∧ t.warp.pending = s.warp.pending ∧ t.warp.pos = s.warp.pos.after ∧
        StoreFrame s t oks s.warp.vl)

/-! ## Translation and fault service (10_translation_and_faults.md) -/

/-- R211 to R213: one level of a walk of stage 2. The entry stands at the table's address plus eight times the index of the level; it is read under KEYID 0, and waits while an engine holds its line (11 R242), is a miss when invalid, the fault 0x51 when malformed, a pointer to the next level's table, or the leaf. Without kept entries the walk starts at the root of level 0. R211 to R213, R436 step 2: one level of a walk of stage 1. While S2EN = 1 the entry's address is itself translated through stage 2, and the PA map, RD and the key range are checked before the entry is read under the KEYID of that leaf. R214, R215, R436 steps 3 to 8: what the two leaves of a page give an access that uses no kept translation: the permissions of stage 1 with the privilege check, the walk of stage 2, the PA map, the permissions of stage 2, the key range, the bale attribute; then the place, with the larger memory type and the key and BALE of the last stage. R192, R222, R230: a canonical, aligned element outside the window takes what its translation gives: its place, a miss, or a fault with its stage, level, element and reason in TRAPINFO; a page whose service failed is the fault 0x50. R220, R223: an access of which an element misses performs nothing; its misses are those of the elements below the first trim or fatal fault. One record is made for each distinct page, by its lowest element, with the accesses of its elements joined. R223, R225, R228, R231: a load that misses parks on a manifest of up to 14 records; the entry is written at FQTAIL with the next MID where the fault queue has room, FQTAIL and its interrupt after it, and is held with the overflow bit and its interrupt where it has none. The misses here are all of stage 1, which need no page request. R225, R226: the 256 bytes of a manifest's entry: its header, then its records, then zeros. The model's choices in it: logs 8, 25 and 79. -/
def Obligations.Translation : Prop :=
  (∀ (s : State) (part : BitVec 4) (gpa t level : Nat) (table : Bool), level ≤ 3 →
     let page := gpa / 65536 * 65536
     let a := t + 8 * walkIndex 2 level gpa
     let e : Word := BitVec.ofNat 64 (readLE s a 0 8)
     let here := walk2 s gpa table (4 - level) level t
     (regionOf s a = .none → here = .stop (.fault .translation 0x52#8 2 level page)) ∧
     (regionOf s a ≠ .none → lineAbsent s (a / 128) = true → here = .stop (.held (a / 128))) ∧
     (regionOf s a ≠ .none → lineAbsent s (a / 128) = false → errorAt s a 0 8 = true → here = .stop (.check a 0)) ∧
     (regionOf s a ≠ .none → lineAbsent s (a / 128) = false → errorAt s a 0 8 = false →
       (bitsOf e 0 0 = 0 → here = .stop (.miss 2 level page table)) ∧
       (bitsOf e 0 0 = 1 → badEntry 2 level true e → here = .stop (.fault .translation 0x51#8 2 level page)) ∧
       (bitsOf e 0 0 = 1 → ¬ badEntry 2 level true e → bitsOf e 1 1 = 1 →
         here = walk2 s gpa table (3 - level) (level + 1) (bitsOf e 51 8 * 256)) ∧
       (bitsOf e 0 0 = 1 → ¬ badEntry 2 level true e → bitsOf e 1 1 = 0 → here = .leaf e level)) ∧
     (s.tables = [] → walkStage2 s part gpa table = walk2 s gpa table 4 0 ((partOf s part).s2root.toNat / 65536 * 65536))) ∧
  (∀ (s : State) (part : BitVec 4) (va t level : Nat), level ≤ 3 →
     let p := partOf s part
     let a := t + 8 * walkIndex 1 level va
     let here := walk1 s part va (4 - level) level t
     let reads (pa kid : Nat) : Prop :=
       let e : Word := BitVec.ofNat 64 (readLE s pa kid 8)
       (regionOf s pa = .none → here = .stop (.fault .translation 0x52#8 1 level 0)) ∧
       (regionOf s pa ≠ .none → lineAbsent s (pa / 128) = true → here = .stop (.held (pa / 128))) ∧
       (regionOf s pa ≠ .none → lineAbsent s (pa / 128) = false → errorAt s pa kid 8 = true → here = .stop (.check pa kid)) ∧
       (regionOf s pa ≠ .none → lineAbsent s (pa / 128) = false → errorAt s pa kid 8 = false →
         (bitsOf e 0 0 = 0 → here = .stop (.miss 1 level (va / 65536 * 65536) false)) ∧
         (bitsOf e 0 0 = 1 → badEntry 1 level p.s2en e → here = .stop (.fault .translation 0x51#8 1 level 0)) ∧
         (bitsOf e 0 0 = 1 → ¬ badEntry 1 level p.s2en e → bitsOf e 1 1 = 1 →
           here = walk1 s part va (3 - level) (level + 1) (bitsOf e 51 8 * 256)) ∧
         (bitsOf e 0 0 = 1 → ¬ badEntry 1 level p.s2en e → bitsOf e 1 1 = 0 → here = .leaf e level))
     (p.s2en = false → reads a 0) ∧
     (p.s2en = true →
       (∀ x, walkStage2 s part a true = .stop x → here = .stop x) ∧
       (∀ e2 l2, walkStage2 s part a true = .leaf e2 l2 →
         let pa := leafAddr e2 l2 a
         let gpa := a / 65536 * 65536
         (regionOf s pa = .none → here = .stop (.fault .translation 0x52#8 2 l2 gpa)) ∧
         (regionOf s pa ≠ .none → bitsOf e2 2 2 = 0 → here = .stop (.fault .protection 0x58#8 2 l2 gpa)) ∧
         (regionOf s pa = .dram → bitsOf e2 2 2 = 1 → ¬ ownKey p (bitsOf e2 62 54) → here = .stop (.fault .protection 0x5C#8 1 level 0)) ∧
         (regionOf s pa ≠ .none → bitsOf e2 2 2 = 1 → (regionOf s pa = .dram → ownKey p (bitsOf e2 62 54)) → reads pa (bitsOf e2 62 54)))) ∧
     (s.tables = [] → walkStage1 s part va = walk1 s part va 4 0 (bitsOf p.s1root 51 18 * 2 ^ 18))) ∧
  (∀ (s : State) (part : BitVec 4) (acc : Access) (priv : Bool) (va : Nat), s.xlate = [] →
     let p := partOf s part
     let here := translate s part acc priv va
     (∀ x, walkStage1 s part va = .stop x → here = x) ∧
     (∀ e1 l1, walkStage1 s part va = .leaf e1 l1 →
       let gpa := leafAddr e1 l1 va
       let last (stage level page pa : Nat) (e : Word) (mt : Nat) (denial : Option (BitVec 8)) : Prop :=
         (regionOf s pa = .none → here = .fault .translation 0x52#8 stage level page) ∧
         (regionOf s pa ≠ .none → ∀ r, denial = some r → here = .fault .protection r stage level page) ∧
         (regionOf s pa ≠ .none → denial = none →
           (regionOf s pa = .dram → ¬ ownKey p (bitsOf e 62 54) → here = .fault .protection 0x5C#8 stage level page) ∧
           (regionOf s pa ≠ .dram → bitsOf e 11 11 = 1 → here = .fault .protection 0x5D#8 stage level page) ∧
           ((regionOf s pa = .dram → ownKey p (bitsOf e 62 54)) → (bitsOf e 11 11 = 1 → regionOf s pa = .dram) →
             here = .ok { key := pa, kid := bitsOf e 62 54, mt := mt, bale := decide (bitsOf e 11 11 = 1) }))
       (∀ r, denied acc e1 = some r → here = .fault .protection r 1 l1 0) ∧
       (denied acc e1 = none → priv = false → bitsOf e1 5 5 = 0 → here = .fault .protection 0x5B#8 1 l1 0) ∧
       (denied acc e1 = none → (priv = true ∨ bitsOf e1 5 5 = 1) →
         (p.s2en = false → last 1 l1 0 gpa e1 (bitsOf e1 9 8) none) ∧
         (p.s2en = true →
           (∀ x, walkStage2 s part gpa false = .stop x → here = x) ∧
           (∀ e2 l2, walkStage2 s part gpa false = .leaf e2 l2 →
             last 2 l2 (gpa / 65536 * 65536) (leafAddr e2 l2 gpa) e2 (max (bitsOf e1 9 8) (bitsOf e2 9 8)) (denied acc e2)))))) ∧
  (∀ (s : State) (q : Ask) (first : Bool) (x : Elt), q.held = [] → q.atomic = false →
     ((0 ≤ x.va ∧ x.va < 2 ^ 53) ∨ (2 ^ 64 - 2 ^ 53 ≤ x.va ∧ x.va < 2 ^ 64)) →
     (q.e ≤ 8 ∨ x.va % ((q.e / 8 : Nat) : Int) = 0) → inWindow (va54 x.va) = false →
     let here := checkElt s q first x
     let report (cause : Cause) (reason : BitVec 8) (stage level gpa : Nat) : Report :=
       { cause := cause, info := BitVec.ofNat 64 (x.k % 2048 * 256 + reason.toNat) ||| BitVec.ofNat 64 (stage * 2 ^ 26 + level * 2 ^ 24),
         va := BitVec.ofInt 64 x.va, gpa := if stage = 2 then BitVec.ofNat 64 gpa else 0#64, walk := some (va54 x.va) }
     (∀ st lv gpa rest, q.failed = (va54 x.va / 65536, st, lv, gpa) :: rest → here = .fault (report .translation 0x50#8 st lv gpa)) ∧
     ((∀ f ∈ q.failed, f.1 ≠ va54 x.va / 65536) →
       (∀ l, translate s q.part q.acc q.priv (va54 x.va) q.pins = .ok l → here = .ok l) ∧
       (∀ line, translate s q.part q.acc q.priv (va54 x.va) q.pins = .held line → here = .held line) ∧
       (∀ st lv a tb, translate s q.part q.acc q.priv (va54 x.va) q.pins = .miss st lv a tb →
         here = .miss { elem := x.k, va := x.va, acc := q.acc, stage := st, level := lv, addr := a, table := tb }) ∧
       (∀ c r st lv gpa, translate s q.part q.acc q.priv (va54 x.va) q.pins = .fault c r st lv gpa → here = .fault (report c r st lv gpa)))) ∧
  ((∀ (s : State) (q : Ask) (before after : List Elt) (chk : Elt → Check),
     (∀ x ∈ before, (∃ l, chk x = .ok l) ∨ ∃ m, chk x = .miss m) → (∀ x ∈ before, ∀ first, checkElt s q first x = chk x) →
     (after = [] ∨ ∃ y ys, after = y :: ys ∧ ∀ first, checkElt s q first y = .trim ∨ ∃ r, checkElt s q first y = .fault r) →
     let ms := before.filterMap fun x => match chk x with
       | .miss m => some m
       | _ => none
     ms ≠ [] → ∃ oks, planOf s q (before ++ after) = .misses oks ms) ∧
   (∀ ms : List Miss, ms.Pairwise (fun x y => x.elem < y.elem) →
     let rs := recordsOf ms
     (rs.map (·.page)).Nodup ∧ rs.Pairwise (fun x y => x.elem < y.elem) ∧ (∀ m ∈ ms, ∃ r ∈ rs, r.page = va54 m.va / 65536) ∧
     ∀ r ∈ rs, ∃ m ∈ ms, r.page = va54 m.va / 65536 ∧ r.elem = m.elem ∧ (∀ y ∈ ms, va54 y.va / 65536 = r.page → m.elem ≤ y.elem) ∧
       r.stage = m.stage ∧ r.level = m.level ∧ r.table = m.table ∧
       r.addr = (if m.stage = 1 then (BitVec.ofInt 64 m.va).toNat / 65536 * 65536 else m.addr) ∧
       (∀ c, (∀ y ∈ ms, va54 y.va / 65536 = r.page → y.acc.code = c) → r.access = c))) ∧
  (∀ (s : State) (et : ET) (ch : BitVec 2) (d a : BitVec 6) (off : BitVec 16) (oks : List (Elt × Loc)) (ms : List Miss),
     s.warp.lanes = none → (∀ m ∈ ms, m.stage = 1) → ms ≠ [] →
     planOf s { s.ask .read et.width with trims := false } [{ k := 0, va := (s.warp.readS a).toNat + off.toInt }] = .misses oks ms →
     let p := s.team.part
     let rs := recordsOf ms
     let m : Manifest := { who := .warp s.me, records := rs.take 14, more := decide (14 < rs.length), header :=
       [if s.warp.core.cls = .e then BitVec.ofNat 64 (2 ^ 19) else 0#64, BitVec.ofInt 64 s.warp.pos.pc,
        BitVec.ofNat 64 (s.team.lin % 2 ^ 32 * 2 ^ 32 + s.warp.slot % 64 * 65536 + s.warp.core.num % 65536), 0#64] }
     let parked (t : State) : Prop := t.warp = { s.warp with park := .manifest, service := { s.warp.service with pins := [] } }
     let f := (partOf s p).fq
     let room := if f.en = true ∧ f.stopped = false ∧ 1 ≤ f.log ∧ f.log ≤ 12 then 2 ^ f.log - (f.tail - f.head).toNat else 0
     let place := f.base.toNat + 256 * (f.tail.toNat % 2 ^ f.log)
     (room = 0 → ∃ t, exec (.lds .none et ch d a off) s = .next t ∧ parked t ∧ t.mem = s.mem ∧
       (partOf t p).manifests = (partOf s p).manifests ++ [m] ∧ (partOf t p).fq = { f with ovf := true } ∧
       (partOf t p).intstat.getLsbD 3 = true) ∧
     (∀ u, 1 ≤ room → s.absent = [] →
       let numbered : Manifest := { m with mid := (partOf s p).nextMid, numbered := true }
       partWrite (onPart (keepPages (keepOks s p oks) p (missAddrs ms)) p fun q => { q with nextMid := q.nextMid + 1#32 }) p place numbered.bytes = some u →
       ∃ t, exec (.lds .none et ch d a off) s = .next t ∧ parked t ∧ t.mem = u.mem ∧
         (partOf t p).manifests = (partOf s p).manifests ++ [{ numbered with written := true, waitS1 := true }] ∧
         (partOf t p).fq = { f with tail := f.tail + 1#32 } ∧ (partOf t p).nextMid = (partOf s p).nextMid + 1#32 ∧
         (partOf t p).intstat.getLsbD 1 = true)) ∧
  (∀ (m : Manifest) (w0 w1 w2 w3 : Word), m.type2 = none → m.header = [w0, w1, w2, w3] → m.records.length ≤ 14 → w0.toNat % 2 ^ 18 = 0 → w0.toNat < 2 ^ 20 →
     let word (i : Nat) : Nat := leValue ((m.bytes.drop (8 * i)).take 8)
     m.bytes.length = 256 ∧
     word 0 = m.mid.toNat * 2 ^ 32 + w0.toNat + (if ∃ r ∈ m.records, r.stage = 1 then 2 ^ 17 else 0) + (if m.more then 2 ^ 16 else 0) +
       m.records.length * 256 + 1 ∧
     word 1 = w1.toNat ∧ word 2 = w2.toNat ∧ word 3 = w3.toNat ∧
     (∀ i r, m.records[i]? = some r → r.addr < 2 ^ 64 → r.access < 4 → r.level < 4 → r.stage < 4 →
       word (4 + 2 * i) = r.addr ∧
       word (5 + 2 * i) = r.tag.toNat * 2 ^ 32 + r.elem % 2048 * 2 ^ 16 + 0x50 * 2 ^ 8 + r.access * 2 ^ 5 + (if r.table then 2 ^ 4 else 0) +
         r.level * 2 ^ 2 + r.stage) ∧
     (∀ i, m.records.length ≤ i → i < 14 → word (4 + 2 * i) = 0 ∧ word (5 + 2 * i) = 0))

/-! ## Atomics, fences and hints (11_atomics_and_ordering.md) -/

/-- R247, R248, R34: a scalar atomic reads the old value and writes the new one at one moment; a failed `CAS` writes nothing; under a flag the old value is pending. The model's choices in it: logs 3 and 29. -/
def Obligations.ScalarAtomics : Prop :=
  ∀ (s : State) (fs : FSel) (op : AtomOp) (ord : Ord4) (md : Mode) (et : ET) (d a b c : BitVec 6) (x : Elt × Loc), s.warp.lanes = none →
    let e := et.width
    let old := loadElt s e x
    let y := lowBits e (s.warp.readS b)
    let result : Word := if et = .int32 then (old.setWidth 32).signExtend 64 else old
    let at' : List Elt := [{ k := 0, va := (s.warp.readS a).toNat }]
    let writesMemory (t : State) (new : Option Word) : Prop :=
      (match new with
       | some v => ElementsStored s t e [x] (fun _ => v)
       | none => t.mem = s.mem ∧ t.keytags = s.keytags) ∧
      t.warp.v = s.warp.v ∧ t.warp.st.map Stream.plain = s.warp.st.map Stream.plain ∧ t.warp.vstart = 0 ∧
      t.warp.vl = s.warp.vl ∧ t.warp.vpad = s.warp.vpad ∧ t.warp.pos = s.warp.pos.after ∧ t.cores = s.cores ∧ StoreFrame s t [x] 0
    let performs (i : Instr) (new : Option Word) (writes : Bool) : Prop :=
      ∃ t, exec i s = .next t ∧ writesMemory t new ∧ wroteS s.warp t.warp (if writes then d else 0#6) result ∧ t.warp.seq = s.warp.seq ∧
        t.warp.pending = (if writes then s.warp.stoppedS d else s.warp.pending)
    let pends (i : Instr) (new : Option Word) (writes : Bool) : Prop := fs ≠ .none → s.warp.dests + (if d = 0#6 then 0 else 1) ≤ 16 →
      ∃ t, exec i s = .next t ∧ writesMemory t new ∧ t.warp.s = s.warp.s ∧ (writes = false → t.warp.pending = s.warp.pending) ∧
        (writes = true → ∃ o, t.warp.pending = s.warp.pending ++ [o] ∧ o.flag = flagOf s.warp.pos fs ∧ o.done = false ∧ o.fault = none ∧
          o.sWrite = (if d = 0#6 then none else some (d, result)) ∧ o.vWrites = [])
    let asks (acc : Access) : Prop := planOf s (atomAsk s acc e false) at' = .run [x] none
    let new : Option Word := match op with
      | .swap | .st => some y
      | .add => some (lowBits e (BitVec.ofNat 64 (old.toNat + y.toNat)))
      | .and => some (old &&& y)
      | .or => some (old ||| y)
      | .xor => some (old ^^^ y)
      | .minu => some (if y.toNat < old.toNat then y else old)
      | .maxu => some (if y.toNat < old.toNat then old else y)
      | .mins | .maxs | .fadd | .fmin | .fmax => atomValue op et md old y
      | .ld => none
    let swapped : Option Word := if old = y then some (lowBits e (s.warp.readS c)) else none
    (asks (atomAccess op) → performs (.atom .none op ord md et d a b) new (decide (op ≠ .st)) ∧
      pends (.atom fs op ord md et d a b) new (decide (op ≠ .st))) ∧
    (asks .readWrite → performs (.cas .none ord et d a b c) swapped true ∧ pends (.cas fs ord et d a b c) swapped true)

/-- R249, R250: vector atomics perform their live elements one after another in ascending order, at addresses that the index group gives; `ST` writes no register; a trim shortens the strip and a fault keeps what stands below it; under a flag the old values are pending. The model's choices in it: log 3. -/
def Obligations.VectorAtomics : Prop :=
  ∀ (s : State) (fs : FSel) (mk : BitVec 3) (mz : Bool) (op : AtomOp) (ord : Ord4) (md : Mode) (et : ET) (d a b c : BitVec 6)
    (oks : List (Elt × Loc)) (stop : Option Stop), et ≠ .int64 → VectorReady s [(c, 32), (b, et.width), (d, et.width)] → affords s s.warp.vl →
    let e := et.width
    let g := groupSize s.warp e
    let elts := asked s.warp mk fun k => ((s.warp.readS a).toNat + (readElem s c 32 k).toInt, 0)
    let claims (i : FSel → Instr) (acc : Access) (f : Nat → Word → Option Word) (writes : Bool) : Prop :=
      planOf s (atomAsk s acc e true) elts = .run oks stop →
      let value (k : Nat) : LaneWord :=
        match (atomMany e f oks s).2.find? fun o => o.1 == k with
        | some o => o.2.setWidth 32
        | none => 0#32
      let performed (t : State) : Prop := t.mem = (atomMany e f oks s).1.mem ∧ t.keytags = (atomMany e f oks s).1.keytags ∧
        (∀ a kid, untouched s e oks a kid → readByte t a kid = readByte s a kid) ∧ t.warp.s = s.warp.s ∧ ChargeTaken s t s.warp.vl
      let stops (i : Instr) (k : Nat) (r : Report) : Prop := ∃ u, exec i s = .next (trapHere u r k) ∧ performed u ∧ u.warp.pos = s.warp.pos ∧
        (writes = true → ElementsTo s u d e mk mz k value) ∧ (writes = false → u.warp.v = s.warp.v)
      (stop = none ∨ (∃ k, stop = some (.trim k)) →
        ∃ t, exec (i .none) s = .next t ∧ performed t ∧ (writes = true → ElementsTo s t d e mk mz (endOf s.warp stop) value) ∧
          (writes = false → t.warp.v = s.warp.v ∧ t.warp.pending = s.warp.pending) ∧
          (writes = true → stopsV s.warp t.warp (stripBits s d e mk mz (endOf s.warp stop))) ∧ stripAfter s.warp t.warp stop ∧
          t.warp.pos = s.warp.pos.after ∧ StoreFrame s t oks s.warp.vl) ∧
      (∀ k r, stop = some (.fault k r) ∨ stop = some (.error k r) → stops (i .none) k r) ∧
      (fs ≠ .none → s.warp.dests + g ≤ 16 →
        (∀ k r, stop = some (.fault k r) → stops (i fs) k r) ∧
        ((∀ k r, stop ≠ some (.fault k r)) →
          ∃ t o, exec (i fs) s = .next t ∧ performed t ∧ t.warp.pending = s.warp.pending ++ [o] ∧ o.flag = flagOf s.warp.pos fs ∧ o.done = false ∧
            t.warp.v = s.warp.v ∧ t.warp.pos = s.warp.pos.after ∧ StoreFrame s t oks s.warp.vl ∧
            (writes = true → ElementsTo s (landed s o) d e mk mz (endOf s.warp stop) value) ∧ (writes = false → o.vWrites = []) ∧
            (stop = none ∨ (∃ k, stop = some (.trim k)) → o.fault = none ∧ stripAfter s.warp t.warp stop) ∧
            (∀ k r, stop = some (.error k r) → o.fault = some (r.settled, k) ∧ t.warp.vstart = 0)))
    claims (fun fs => .vatom fs mk mz op ord md et d a b c) (atomAccess op)
      (fun k old => atomValue op et md old ((vElem s et b k).setWidth 64)) (decide (op ≠ .st)) ∧
    (b.toNat % (2 * g) = 0 → b.toNat + 2 * g ≤ s.r →
      claims (fun fs => .vcas fs mk mz ord et d a b c) .readWrite
        (fun k old => if old = (vElem s et b k).setWidth 64 then some ((readElem s (b + BitVec.ofNat 6 g) e k).setWidth 64) else none) true)

/-- R253: `REDORD` adds to the cell at its turn and gives 0, gives 1 without adding when its turn has passed, and otherwise waits. R205, R206, R254: fences discard what load streams have read ahead, except `REL`; a prefetch changes no register and no memory. The model's choices in it: logs 3 and 29. -/
def Obligations.OrderedReduction : Prop :=
  (∀ (s : State) (md : Mode) (d a b c : BitVec 6) (x : Elt × Loc), s.warp.lanes = none →
     planOf s (atomAsk s .readWrite 64 false) [{ k := 0, va := (s.warp.readS a).toNat }] = .run [x] none →
     let cell := loadElt s 64 x
     let turn := cell.toNat / 2 ^ 32
     let j := (s.warp.readS c).toNat % 2 ^ 32
     let ahead := (j + 2 ^ 32 - turn) % 2 ^ 32
     let sum := (faddElem .fp32 md (cell.setWidth 32) ((s.warp.readS b).setWidth 32)).bits
     let kept (t : State) : Prop := t.warp.v = s.warp.v ∧ t.warp.seq = s.warp.seq ∧ t.warp.vstart = 0 ∧
       t.warp.pending = s.warp.stoppedS d ∧ t.cores = s.cores ∧ t.warp.pos = s.warp.pos.after ∧ StoreFrame s t [x] 0
     (j = turn → ∃ t, exec (.redord md d a b c) s = .next t ∧
       ElementsStored s t 64 [x] (fun _ => BitVec.ofNat 64 ((turn + 1) % 2 ^ 32 * 2 ^ 32 + sum.toNat)) ∧ wroteS s.warp t.warp d 0#64 ∧ kept t) ∧
     (2 ^ 31 ≤ ahead → ∃ t, exec (.redord md d a b c) s = .next t ∧ t.mem = s.mem ∧ wroteS s.warp t.warp d 1#64 ∧ kept t) ∧
     (0 < ahead → ahead < 2 ^ 31 → ∃ t, exec (.redord md d a b c) s = .next t ∧ t.mem = s.mem ∧ t.warp.pos = s.warp.pos ∧
       t.warp.s = s.warp.s ∧ t.warp.v = s.warp.v ∧ t.warp.pending = s.warp.pending ∧ t.warp.park = .cell x.2.key x.2.kid j)) ∧
  (∀ (s : State) (scope : Scope) (ch : BitVec 2) (a : BitVec 6) (off : BitVec 16),
     (∀ kind, ∃ t, exec (.fence kind scope) s = .next t ∧ t.warp.st =
         (if kind = .rel then s.warp.st else s.warp.st.map fun x => if x.store then x else { x with ahead := [] }) ∧
       t.warp.s = s.warp.s ∧ t.warp.v = s.warp.v ∧ t.warp.m = s.warp.m ∧ t.warp.pending = s.warp.pending ∧ t.mem = s.mem ∧
       (s.warp.lanes = none → t.warp.pos = s.warp.pos.after) ∧ t = { s with warp := accessWarp s.warp t.warp }) ∧
     (s.warp.lanes = none → ∃ t, exec (.pref ch a off) s = .next t ∧ t.warp.pos = s.warp.pos.after ∧ t.warp.s = s.warp.s ∧
       t.warp.v = s.warp.v ∧ t.warp.m = s.warp.m ∧ t.warp.st = s.warp.st ∧ t.warp.pending = s.warp.pending ∧ t.warp.vl = s.warp.vl ∧
       t.warp.vpad = s.warp.vpad ∧ t.warp.vstart = s.warp.vstart ∧ t.warp.seq = s.warp.seq ∧
       t = { s with xlate := t.xlate, tables := t.tables, draws := t.draws, warp := accessWarp s.warp t.warp }))

/-! ## Copies and channels (12_copies.md) -/

/-- R260, R261, R263, R264, R268, R277: a copy whose decode conditions hold, on a channel without error and with a context free, takes the channel's next ID, holds its destination lines and starts; a train of no entries completes at once. R272, R273, R274, R256: the checks of a copy at issue in the order of Table 5, each with its `TRAPINFO`, the tile-disabled trap of `CPYA` and `CPYB`, the waits for a context and for the toll (17_cryogenic_and_power.md R375), and a copy that passes them with some extent zero, which completes at once. The model's choices in it: log 26. -/
def Obligations.CopiesIssue : Prop :=
  (∀ (s : State) (fs : FSel) (d a b c : BitVec 6) (ch : BitVec 4) (n : BitVec 3), s.warp.lanes = none → (s.team.chan ch).err = none →
     (s.team.chan ch).n < 2 ^ 48 - 1 → porterBusy s < 8 →
     let shape := shapeOf s a
     let dense := (s.warp.readS b).toNat
     let pitch := (s.warp.readS c).toNat
     let box : Box := { shape := shape, dense := dense, pitch := pitch, ext := boxFields s a }
     let boxes (kind : CopyKind) : Copy := { newCopy s kind with boxes := [box], mcast := mcastOf s a dense }
     let bytes (x : Box) : Nat := (x.size * x.shape.et.width + 7) / 8
     (a.toNat < s.r → recordBad s a = false → box.size ≤ 2 ^ 24 → 0 < box.size →
       ((boxFields s a).headD 0 * shape.et.width + 7) / 8 ≤ pitch → pitch % 4 = 0 →
       ((mcastField s a = 0 ∨ (inWindow dense = true ∧ ∀ cs, mcastOf s a dense = some cs → ∀ m ∈ cs, clusterOn s m = true)) →
         issuesCopy (.cpyboxIn fs d a b c ch) s fs d ch ((bytes box + 63) / 64) (boxes .boxIn)) ∧
       (mcastField s a = 0 → issuesCopy (.cpyboxOut fs d a b c ch) s fs d ch ((bytes box + 63) / 64) (boxes .boxOut))) ∧
     (∀ g, SlotReady s n g → a.toNat < s.r → inWindow dense = true → dense % 64 = 0 →
       (mcastField s a = 0 ∨ ∀ cs, mcastOf s a dense = some cs → ∀ m ∈ cs, clusterOn s m = true) →
       let issues (isA : Bool) (i : Instr) (kind : CopyKind) : Prop :=
         let bs := operandBoxesOf s a dense isA g
         operandRecordBad s a isA (some g) = false → operandBad s a isA g = false → (∀ x ∈ bs, x.size ≤ 2 ^ 24) →
         0 < (bs.map Box.size).sum →
         issuesCopy i s fs d ch ((((bs.take 1).map bytes).sum + 2 * ((bs.drop 1).map Box.size).sum + 63) / 64)
           { newCopy s kind with boxes := bs, mcast := mcastOf s a dense }
       issues true (.cpya fs n d a b ch) .operandA ∧ issues false (.cpyb fs n d a b ch) .operandB) ∧
     (∀ op et, (s.warp.readS a).toNat % 16 = 0 → (s.warp.readS b).toNat ≤ 2 ^ 24 →
       (s.warp.readS b ≠ 0#64 → issuesCopy (.cpytrain fs op et d a b ch) s fs d ch (s.warp.readS b).toNat
         { newCopy s (.train op et) with list := (s.warp.readS a).toNat, count := (s.warp.readS b).toNat }) ∧
       (s.warp.readS b = 0#64 → emptyCopy (.cpytrain fs op et d a b ch) s fs d ch))) ∧
  (∀ (s : State) (fs : FSel) (op : TrainOp) (et : ET) (d a b c : BitVec 6) (ch : BitVec 4) (n : BitVec 3), s.warp.lanes = none →
     let chan := s.team.chan ch
     let dense := (s.warp.readS b).toNat
     let pitch := (s.warp.readS c).toNat
     let w (r : BitVec 6) (i : Nat) : Nat := (laneOf s r i).toNat
     let typeOf (r : BitVec 6) : ET := ET.ofCode (BitVec.ofNat 4 (w r 15))
     let fields (r : BitVec 6) : List Nat := [w r 12 % 2 ^ 16, w r 12 / 2 ^ 16, w r 13 % 1024, w r 13 / 2 ^ 10 % 1024, w r 13 / 2 ^ 20 % 1024]
     let ext := fields a
     let mcast := w a 14 % 2 ^ 26
     let inError : Prop × Nat := (chan.err ≠ none, 0x63)
     let lastId : Prop × Nat := (chan.n = 2 ^ 48 - 1, 0x64)
     let rejected : Prop × Nat :=
       (mcast ≠ 0 ∧ (inWindow dense = false ∨
         ∃ i, i < 26 ∧ mcast.testBit i = true ∧ clusterOn s (26 * ((dense - Config.windowBase) / Config.sliceSpan / 26) + i) = false), 0x65)
     let checked (i : Instr) (checks : List (Prop × Nat)) (toll : Nat) (empty : Prop) : Prop :=
       firstHolds (fun reason => exec i s = .next
           (trapHere s { cause := .copy, info := BitVec.ofNat 64 (ch.toNat * 2 ^ 28 + reason) } s.warp.vstart))
         ((8 ≤ porterBusy s → exec i s = .next { s with warp := { s.warp with park := .porter } }) ∧
           (porterBusy s < 8 → waitsForToll i s toll ∧ (empty → emptyCopy i s fs d ch))) checks
     (a.toNat < s.r →
       let box : List (Prop × Nat) := [(badRecord s a, 0x60),
         (2 ^ 24 < ext.prod ∨ pitch < (ext.headD 0 * (typeOf a).width + 7) / 8 ∨ pitch % 4 ≠ 0, 0x61), inError, lastId]
       let toll := ((ext.prod * (typeOf a).width + 7) / 8 + 63) / 64
       checked (.cpyboxIn fs d a b c ch) (box ++ [rejected]) toll (ext.prod = 0) ∧
       checked (.cpyboxOut fs d a b c ch) (box ++ [(mcast ≠ 0, 0x65)]) toll (ext.prod = 0)) ∧
     (a.toNat < s.r → n.toNat < s.team.launch.tiles →
       (s.team.tiles = false → ∀ i ∈ [Instr.cpya fs n d a b ch, .cpyb fs n d a b ch],
         exec i s = .next (trapHere s { cause := .tileDisabled, info := BitVec.ofNat 64 (n.toNat * 256 + 0x71) } s.warp.vstart)) ∧
       (s.team.tiles = true →
         let operand (isA : Bool) (i : Instr) : Prop :=
           let grant := (s.team.slot n).grant
           let has (p : Grant → Prop) : Prop := ∃ g, grant = some g ∧ p g
           let type (g : Grant) : ET := if isA then g.aty else g.bty
           let scaled (g : Grant) : Prop := scaledType (type g) g.blk = true
           checked i
             [(badRecord s a ∨ has fun g => scaled g ∧ a.toNat + 1 < s.r ∧ badRecord s (a + 1#6), 0x60),
              (has fun g => ∃ x ∈ operandBoxesOf s a dense isA g, 2 ^ 24 < x.size, 0x61),
              (grant = none ∨ has fun g => typeOf a ≠ type g ∨ ext ≠ [0, 0, 1, 1, 1] ∨
                 (scaled g ∧ (s.r ≤ a.toNat + 1 ∨ typeOf (a + 1#6) ≠ .sc12 ∨ fields (a + 1#6) ≠ [0, 0, 1, 1, 1])), 0x62),
              inError, lastId, rejected, (inWindow dense = false ∨ dense % 64 ≠ 0, 0x66)]
             (match grant with
              | some g =>
                let bs := operandBoxesOf s a dense isA g
                (((bs.take 1).map fun x => (x.size * x.shape.et.width + 7) / 8).sum + 2 * ((bs.drop 1).map Box.size).sum + 63) / 64
              | none => 0)
             (has fun g => ∀ x ∈ operandBoxesOf s a dense isA g, x.size = 0)
         operand true (.cpya fs n d a b ch) ∧ operand false (.cpyb fs n d a b ch))) ∧
     checked (.cpytrain fs op et d a b ch)
       [((s.warp.readS a).toNat % 16 ≠ 0 ∨ 2 ^ 24 < (s.warp.readS b).toNat, 0x61), inError, lastId] (s.warp.readS b).toNat (s.warp.readS b = 0#64))

/-- R261, R275: IDs complete in any order, C stands at the lowest ID that has not completed, and it never passes the ID of an error. R270, R271, R274: the words that wait for a channel, read it, and clear its error; `CWAIT` and `CSTAT.ID` of an ID at or above the error's take the copy fault that reports it, and the error counts as reported once that trap is taken. The model's choices in it: log 54. -/
def Obligations.Channels : Prop :=
  (∀ (x : Channel) (id : Nat), x.done.Nodup → (∀ k ∈ x.done, x.c ≤ k) → x.c ∉ x.done ∨ (∃ e, x.err = some e ∧ e.eid ≤ x.c) →
     let y := x.complete id
     x.c ≤ y.c ∧ (∀ k, x.c ≤ k → k < y.c → k = id ∨ k ∈ x.done) ∧ y.done.Nodup ∧ (∀ k ∈ y.done, y.c ≤ k) ∧
     (y.c ∉ y.done ∨ ∃ e, y.err = some e ∧ e.eid ≤ y.c) ∧ y.err = x.err ∧ y.n = x.n ∧
     (∀ k, (k < y.c ∨ k ∈ y.done) ↔ (k < x.c ∨ k ∈ x.done ∨ k = id)) ∧ (∀ e, x.err = some e → x.c ≤ e.eid → y.c ≤ e.eid)) ∧
  (∀ (s : State) (d a : BitVec 6) (ch : BitVec 4), s.warp.lanes = none →
     let x := s.team.chan ch
     let id := (s.warp.readS a).toNat
     let reads (i : Instr) (v : Word) (y : Channel) : Prop :=
       ∃ t, exec i s = .next t ∧ wroteS s.warp t.warp d v ∧ t.warp.pending = s.warp.stoppedS d ∧ ChannelChanged s t ch y ∧ t.cores = s.cores
     let error : Word := match x.err with
       | none => 0#64
       | some e => BitVec.ofNat 64 (2 ^ 63 + e.reason.toNat * 2 ^ 48 + e.eid % 2 ^ 48)
     let failure (e : ChannelError) : Report :=
       { cause := .copy, info := BitVec.ofNat 64 (e.elem % 2 ^ 24 * 2 ^ 32 + ch.toNat * 2 ^ 28 + 2 ^ 24 + e.reason.toNat), va := e.va }
     let told (s : State) (e : ChannelError) : State :=
       if trapTaken s = true then { s with team := s.team.setChan ch { x with err := some { e with reported := true } } } else s
     reads (.cstat .c d a ch) (BitVec.ofNat 64 x.c) x ∧ reads (.cstat .next d a ch) (BitVec.ofNat 64 x.n) x ∧
     reads (.cstat .err d a ch) error { x with err := x.err.map fun e => { e with reported := true } } ∧
     ((∀ e, x.err = some e → id < e.eid) → reads (.cstat .id d a ch) (if id < x.c then 1#64 else 0#64) x) ∧
     (∀ e, x.err = some e → e.eid ≤ id → exec (.cstat .id d a ch) s = .next (trapHere (told s e) (failure e) s.warp.vstart)) ∧
     reads (.cstatClr d ch) error (match x.err with
       | none => x
       | some e => Channel.complete { x with err := none } e.eid) ∧
     (∀ w, s.warp.mustWait flagged = false → s.warp.commit flagged = (w, none) → s.team.preempt = false →
       let id := (w.readS a).toNat
       (id < x.c → ∃ t, exec (.cwait a ch) s = .next t ∧ t = { s with warp := { w with
           st := w.st.map fun x => if x.store then x else { x with ahead := [] }, pos := s.warp.pos.after,
           yieldOff := t.warp.yieldOff, yieldLow := t.warp.yieldLow, wait := 0, urgent := false, park := .none, service := {}, paid := false } }) ∧
       (x.c ≤ id → (∀ e, x.err = some e → id < e.eid) →
         exec (.cwait a ch) s = .next { s with warp := { w with park := .copy ch id } }) ∧
       (x.c ≤ id → ∀ e, x.err = some e → e.eid ≤ id →
         exec (.cwait a ch) s = .next (trapHere (told { s with warp := w } e) (failure e) w.vstart))))

/-! ## Matrix grants and instructions (13_matrix_grants_and_engine.md, 14_matrix_instructions.md) -/

/-- R286, R287, R292, R294, R295, R296: tile state on and off, a grant read, a grant made when nothing intervenes; under RFOLLOW the logged grant with bit 51 of the status, or the replay-divergence trap where it is not within local maxima. R289, R290, R291, R292: the extents that a request gets, rounded, clipped to the core's maxima and to the caps, and brought within the slot's capacity, with the status bits that say so; a grant stays within the core's maxima, the caps and the slot's capacity; gM and gN are multiples of 8, gK is a multiple of 32 and, with blocks, a multiple or a divisor of the block; a restored extent is kept; the slot's values survive when extents and accumulator kind stay, and are zero otherwise; its recorded B survives when gK, gN, the B type and the block code stay. R315, R316, R319, R307: the words that set a slot's values, its channel scales and its B operand; what they do to a slot without a grant. The model's choices in it: log 11. -/
def Obligations.TileGrants : Prop :=
  (∀ (s : State) (n : BitVec 3) (d a : BitVec 6) (aty bty : ET) (blk : BitVec 3), s.warp.lanes = none →
     (∃ t, exec .ten s = .next t ∧ t.team = { s.team with tiles := true, slots := if s.team.tiles then s.team.slots else Vector.replicate 8 {} } ∧
       t.warp.s = s.warp.s ∧ t.warp.v = s.warp.v ∧ t.warp.pending = s.warp.pending ∧ t.warp.fpstat = s.warp.fpstat ∧
       t.warp.vstart = s.warp.vstart ∧ t.warp.pos = s.warp.pos.after ∧ t.cores = s.cores ∧ TeamFrame s t) ∧
     (s.team.late = [] → ∃ t, exec .tdis s = .next t ∧ t.team = { s.team with tiles := false, slots := Vector.replicate 8 {} } ∧
       (∀ c, (∃ x ∈ s.team.site.cores, corePlace x = corePlace c) →
         coreOf t c = { coreOf s c with resident := (coreOf s c).resident.filter fun r => r.team != s.team.tid }) ∧
       (∀ c, (∀ x ∈ s.team.site.cores, corePlace x ≠ corePlace c) → coreOf t c = coreOf s c) ∧
       t.warp.s = s.warp.s ∧ t.warp.v = s.warp.v ∧ t.warp.pending = s.warp.pending ∧ t.warp.fpstat = s.warp.fpstat ∧
       t.warp.vstart = s.warp.vstart ∧ t.warp.pos = s.warp.pos.after ∧ TeamFrame s t) ∧
     (n.toNat < s.team.launch.tiles → s.team.tiles = true →
       gives (.tgrant n d) s d (match (s.team.slot n).grant with
         | some g => BitVec.ofNat 64 (g.m % 65536 + 2 ^ 16 * (g.n % 65536) + 2 ^ 32 * (g.k % 65536) + 2 ^ 48 * g.status.toNat)
         | none => 0#64) ∧
       ∀ w, s.warp.mustWait flagged = false → s.warp.commit flagged = (w, none) → s.team.preempt = false → s.team.k = 0 → slotBusy s n = false →
         let grants (g : Grant) : Prop := ∃ t, exec (.tset n d a aty bty blk) s = .next t ∧
           wroteS w t.warp d (BitVec.ofNat 64 (g.m % 65536 + 2 ^ 16 * (g.n % 65536) + 2 ^ 32 * (g.k % 65536) + 2 ^ 48 * g.status.toNat)) ∧
           t.warp.pending = w.stoppedS d ∧ t.warp.pos = s.warp.pos.after ∧
           t.team = s.team.setSlot n ((s.team.slot n).grantTo g) ∧
           (s.team.launch.rrecord = false → t = { s with
             team := t.team
             warp := { w with s := t.warp.s, pending := t.warp.pending, pos := t.warp.pos, yieldOff := t.warp.yieldOff, yieldLow := t.warp.yieldLow,
                              wait := 0, urgent := false, park := .none, service := {}, paid := false, events := w.events.modify 3 (· + 1) } })
         (s.team.launch.rfollow = false → grants (computeGrant s n (w.readS a) aty bty blk)) ∧
         (s.team.launch.rfollow = true → blk.toNat ≤ 5 → ∀ place v, follow { s with warp := w } s.warp.idx (w.events.getD 3 0) [3] = .found place v →
           let home := homeOf s.team.site n
           let x := coreMaxima s home
           let c := tileCaps s.part.tcap home.cls
           let bl := if blk = 0#3 then 0 else 2 ^ (blk.toNat + 2)
           let m := v % 2 ^ 16
           let n' := v / 2 ^ 16 % 2 ^ 16
           let k := v / 2 ^ 32 % 2 ^ 16
           let within : Prop :=
             if m = 0 ∧ n' = 0 ∧ k = 0 then s.team.launch.slotBytes < 256
             else m % 8 = 0 ∧ n' % 8 = 0 ∧ k % 32 = 0 ∧ m ≤ min x.m c.m ∧ n' ≤ min x.n c.n ∧ 4 * m * n' ≤ s.team.launch.slotBytes ∧
               k ≤ min x.k c.k ∧ (bl ≤ 32 ∨ k % bl = 0 ∨ bl % k = 0) ∧ ∀ e, (s.team.slot n).restored = some e → (m, n') = e
           (within → grants { m := m, n := n', k := k, aty := aty, bty := bty, blk := blk, status := BitVec.ofNat 16 (v / 2 ^ 48) ||| 8#16 }) ∧
           (¬ within → exec (.tset n d a aty bty blk) s =
             .next (trapHere { s with warp := w } { cause := .replay, info := 0x380#64 } w.vstart)))) ∧
     (n.toNat < s.team.launch.tiles → s.team.tiles = false →
       exec (.tgrant n d) s = .next (trapHere s { cause := .tileDisabled, info := BitVec.ofNat 64 (n.toNat * 256 + 0x70) } s.warp.vstart))) ∧
  (∀ (s : State) (n : BitVec 3) (req : Word) (aty bty : ET) (blk : BitVec 3), blk.toNat ≤ 5 →
     let home := homeOf s.team.site n
     let x := coreMaxima s home
     let c := tileCaps s.part.tcap home.cls
     let g := computeGrant s n req aty bty blk
     let b := if blk = 0#3 then 0 else 2 ^ (blk.toNat + 2)
     let slot := s.team.slot n
     let y := slot.grantTo g
     let field (lo unit : Nat) : Nat :=
       let f := s.part.tcap.toNat / 2 ^ (lo + if home.cls = .m then 0 else 32) % 256
       if f = 0 then 2 ^ 16 else unit * f
     let want (i : Nat) : Nat := req.toNat / 2 ^ (16 * i) % 2 ^ 16
     let up (u v : Nat) : Nat := max u ((v + u - 1) / u * u)
     let m := min (min (up 8 (want 0)) x.m) c.m
     let n' := min (min (up 8 (want 1)) x.n) c.n
     let k := min (min (up 32 (want 2)) x.k) c.k
     let cap := if s.team.launch.tiles = 0 then 0 else s.team.launch.accum / s.team.launch.tiles
     let falls (p : Nat × Nat) : Nat × Nat := if p.1 ≤ p.2 then (p.1, p.2 - 8) else (p.1 - 8, p.2)
     (x = if home.cls = .m then { m := 256, n := 256 - 16 * mappedOut s home.num, k := 256 } else { m := 256, n := 256, k := 32 }) ∧
     c = { m := field 0 8, n := field 8 8, k := field 16 32 } ∧
     (slot.restored = none → ∃ i,
       let p := falls^[i] (m, n')
       (4 * p.1 * p.2 ≤ cap ∨ (p.1 ≤ 8 ∧ p.2 ≤ 8)) ∧
         (∀ j, j < i → cap < 4 * (falls^[j] (m, n')).1 * (falls^[j] (m, n')).2 ∧ (8 < (falls^[j] (m, n')).1 ∨ 8 < (falls^[j] (m, n')).2)) ∧
         (g.m, g.n) = if 4 * p.1 * p.2 ≤ cap then p else (0, 0)) ∧
     (g.m ≠ 0 → g.k = if b ≤ 32 then k else if b ≤ k then k / b * b else 2 ^ Nat.log2 k) ∧
     (∀ i, g.status.getLsbD i = true ↔
       (i = 0 ∧ ((slot.restored = none ∧ (c.m < min (up 8 (want 0)) x.m ∨ c.n < min (up 8 (want 1)) x.n)) ∨ c.k < min (up 32 (want 2)) x.k)) ∨
       (i = 1 ∧ slot.restored = none ∧ x.n < up 8 (want 1) ∧ x.n < 256) ∨ (i = 2 ∧ slot.restored ≠ none) ∨
       (i = 4 ∧ slot.restored = none ∧ cap < 4 * m * n')) ∧
     g.k % 32 = 0 ∧ g.k ≤ x.k ∧ g.k ≤ c.k ∧ (b ≠ 0 → g.k % b = 0 ∨ b % g.k = 0) ∧ (g.m = 0 → g.k = 0) ∧ g.aty = aty ∧ g.bty = bty ∧
     (slot.restored = none → g.m % 8 = 0 ∧ g.n % 8 = 0 ∧ g.m ≤ x.m ∧ g.n ≤ x.n ∧ g.m ≤ c.m ∧ g.n ≤ c.n ∧
       4 * g.m * g.n ≤ s.team.launch.slotBytes) ∧
     (∀ e, slot.restored = some e → (g.m, g.n) = e) ∧
     (g.m = 0 → y = {}) ∧
     (g.m ≠ 0 → y.grant = some g ∧
       (∀ old, slot.grant = some old → old.m = g.m → old.n = g.n → intKind old.aty = intKind g.aty →
         y.acc = slot.acc ∧ y.chunks = slot.chunks ∧ y.ca = slot.ca ∧ y.cb = slot.cb) ∧
       ((∀ old, slot.grant = some old → old.m ≠ g.m ∨ old.n ≠ g.n ∨ intKind old.aty ≠ intKind g.aty) →
         y.acc = List.replicate (g.m * g.n) 0#32 ∧ y.chunks = 0#64 ∧ y.ca = List.replicate g.m 0x3F80#16 ∧ y.cb = List.replicate g.n 0x3F80#16) ∧
       ((∃ old, slot.grant = some old ∧ old.k = g.k ∧ old.n = g.n ∧ old.bty = g.bty ∧ old.blk = g.blk) → y.recB = slot.recB) ∧
       ((∀ old, slot.grant = some old → old.k ≠ g.k ∨ old.n ≠ g.n ∨ old.bty ≠ g.bty ∨ old.blk ≠ g.blk) → y.recB = none))) ∧
  ((∀ (s : State) (fs : FSel) (n : BitVec 3) (a b : BitVec 6) (g : Grant), SlotReady s n g → (fs = .none ∨ s.warp.dests ≤ 16) →
     let x := s.team.slot n
     let toll := (g.m * g.n + 1023) / 1024
     (affords s toll → slotBusy s n = false →
       (∃ t, exec (.tzero n) s = .next t ∧ SlotChanged s t n []
         { x with acc := List.replicate (g.m * g.n) 0#32, chunks := 0#64, ca := List.replicate g.m 0x3F80#16,
                  cb := List.replicate g.n 0x3F80#16, bad := [], restored := none } ∧ borne s t .none 0#7 ∧ chargedThen s t toll id) ∧
       (∃ t, exec (.tcsclOne fs n) s = .next t ∧ borne s t fs 0#7 ∧ chargedThen s t toll id ∧
         SlotChanged s t n [] { x with ca := List.replicate g.m 0x3F80#16, cb := List.replicate g.n 0x3F80#16 }) ∧
       (∀ oks, planOf s { s.ask .read 16 with trims := false }
           ((List.range (g.m + g.n)).map fun k => { k := k, va := ((s.warp.readS a).toNat + 2 * k : Nat) }) = .run oks none →
         ∃ t, exec (.tcsclLd fs n a) s = .next t ∧ borne s t fs 0#7 ∧ chargedThen s t toll id ∧
           SlotChanged { s with xlate := t.xlate, tables := t.tables, warp := { s.warp with vstart := 0 } } t n []
             { x with ca := (oks.take g.m).map fun y => (loadElt s 16 y).setWidth 16,
                      cb := (oks.drop g.m).map fun y => (loadElt s 16 y).setWidth 16 })) ∧
     (let base := (s.warp.readS a).toNat
      let r : RecordedB := { box := base, scales := scaleBoxB g base (s.warp.readS b).toNat, k := g.k, n := g.n, bty := g.bty, blk := g.blk }
      let bs := tabletsB r
      let op : LateOp := { warp := s.warp.idx, seq := s.warp.seq, slot := n, grant := g, as := none, bs := bs }
      let home := homeOf s.team.site n
      let toll := (g.k * g.n + 1023) / 1024
      let late (t : State) : Prop := acceptsLate s t fs ∧ chargedThen s t toll id ∧ SlotChanged s t n [op] { x with recB := some r }
      BoxesReady s bs → affords s toll →
      ((slotBusy s n = true ∨ home.cls = .m ∧ ∃ b ∈ bs, ∃ l ∈ b.lines, lineAbsent s l = true) →
        ∃ t, exec (.tldb fs n a b) s = .next t ∧ late t) ∧
      (slotBusy s n = false → (home.cls = .m → BoxesWhole s bs) → ∃ t, exec (.tldb fs n a b) s = .next t ∧
        (late t ∨
          (borne s t fs 0#7 ∧ SlotChanged s t n [] { x with recB := some r } ∧
            chargedThen s t toll fun m => if home.cls = .m then makeResident m home n g (readTablets (memoryNow s) bs) else m))))) ∧
   (∀ (s : State) (fs : FSel) (n : BitVec 3) (a b : BitVec 6), s.warp.lanes = none → n.toNat < s.team.launch.tiles → s.team.tiles = true →
     slotBusy s n = false → (fs = .none ∨ s.warp.dests ≤ 16) →
     let nothing (i : Instr) : Prop := ∃ t, exec i s = .next t ∧ SlotChanged s t n [] (s.team.slot n) ∧ t.cores = s.cores ∧
       t.warp.pending = s.warp.pending ∧ t.warp.fpstat = s.warp.fpstat
     ((s.team.slot n).grant = none → nothing (.tzero n) ∧ nothing (.tcsclOne fs n) ∧ nothing (.tcsclLd fs n a) ∧ nothing (.tldb fs n a b)) ∧
     ((∀ g, (s.team.slot n).grant = some g → g.k = 0) → nothing (.tmma fs n a) ∧ nothing (.tmmas fs n a b))))

/-- R311 to R314, R317, R309, R310 and R11: a multiply of a slot whose boxes are ready, at its acceptance or later, chunk by chunk in increasing order; an uncorrectable value of the slot takes its grant and is recorded against the instruction. The term of a position is the exact product of its two elements and their scales; in a floating pair each chunk is one window sum, rounded once; in an integer pair each chunk adds its exact sum and saturates. The model's choices in it: logs 5 and 11. -/
def Obligations.Multiplies : Prop :=
  (∀ (s : State) (fs : FSel) (n : BitVec 3) (a b : BitVec 6) (g : Grant), SlotReady s n g → g.k ≠ 0 → (fs = .none ∨ s.warp.dests ≤ 16) →
    let x := s.team.slot n
    let bs := (x.recB.map tabletsB).getD []
    let home := homeOf s.team.site n
    let toll := (g.m * g.n * g.k + 1023) / 1024 * digitsOf g.aty
    affords s toll →
    let does (i : Instr) (scales : Nat) : Prop :=
      let as := tabletsA g (s.warp.readS a).toNat scales
      let reads := as ++ if (residentFor s home n).isSome then [] else bs
      let op : LateOp := { warp := s.warp.idx, seq := s.warp.seq, slot := n, grant := g, as := some as, bs := bs }
      let va := readTablets (memoryNow s) as
      let vb := match residentFor s home n with
        | some r => (r.elems, r.scales)
        | none => readTablets (memoryNow s) bs
      let f : Option Factors := if bs = [] then none else some { a := va.1, sa := va.2, b := vb.1, sb := vb.2 }
      let out := outputs home.cls g f x.acc
      let late (t : State) : Prop := acceptsLate s t fs ∧ chargedThen s t toll id ∧ SlotChanged s t n [op] x
      BoxesReady s as →
      ((slotBusy s n = true ∨ ∃ b ∈ reads, ∃ l ∈ b.lines, lineAbsent s l = true) → ∃ t, exec i s = .next t ∧ late t) ∧
      (slotBusy s n = false → BoxesWhole s reads → x.bad = [] → ∃ t, exec i s = .next t ∧
        (late t ∨
          (SlotChanged s t n [] { x with acc := out.map (·.1), chunks := x.chunks + BitVec.ofNat 64 (g.k / 32) } ∧
            borne s t fs (if out.any (·.2) then 0x40#7 else 0#7) ∧
            chargedThen s t toll fun m => if home.cls = .m ∧ bs ≠ [] then makeResident m home n g vb else m))) ∧
      (slotBusy s n = false → BoxesWhole s reads → x.bad ≠ [] → ∃ t, exec i s = .next t ∧
        (late t ∨
          (SlotChanged s t n [] {} ∧ chargedThen s t toll id ∧ t.warp.fpstat = s.warp.fpstat ∧
            ∃ o r, t.warp.pending = s.warp.pending ++ [o] ∧ o.fault = some (r, 0) ∧ r.cause = .machineCheck ∧ o.flag = flagOf s.warp.pos fs ∧
              (o.done = true ↔ fs = .none) ∧ o.seq = s.warp.seq ∧ o.sWrite = none ∧ o.vWrites = [])))
    does (.tmma fs n a) 0 ∧ does (.tmmas fs n a b) (s.warp.readS b).toNat) ∧
  (∀ (b : Tablet) (m : Bytes) (i j : Nat), i < b.rows → j < b.cols →
    (b.elems m)[i * b.cols + j]? = some (BitVec.ofNat 32
      (leValue ((List.range (eltBytes b.e)).map fun n => m.get (b.base + b.pitch * i + j * b.e / 8 + n)) / 2 ^ (j * b.e % 8) % 2 ^ b.e))) ∧
  (∀ (cls : CoreClass) (g : Grant) (f : Option Factors) (acc : List LaneWord) (i j : Nat), j < g.n →
    let term (k : Nat) : Exact := match f with
      | some f => termAt cls g f i j k
      | none => .fin false 0 0
    (outputs cls g f acc)[i * g.n + j]? = (acc[i * g.n + j]?).map fun v => (List.range (g.k / 32)).foldl
      (fun r c => let y := applyChunk (intKind g.aty) r.1 ((List.range 32).map fun q => term (32 * c + q)); (y.1, r.2 || y.2)) (v, false)) ∧
  (∀ (cls : CoreClass) (g : Grant) (f : Factors) (i j k : Nat),
    (g.aty.isTileFloat = true ∧ g.bty.isTileFloat = true) ∨ (g.aty.isTileInt = true ∧ g.bty.isTileInt = true) →
    let unit := if g.blk = 0#3 then 1 else 2 ^ (g.blk.toNat + 2)
    let scale (scaled : Bool) (v : LaneWord) : Exact := if scaled then (fmtOf .sc12).value v else .fin false 1 0
    let xs : List Exact := [elemValue g.aty (f.a.getD (i * g.k + k) 0#32), elemValue g.bty (f.b.getD (k * g.n + j) 0#32),
      scale (scaledType g.aty g.blk) (f.sa.getD (i * ((g.k + unit - 1) / unit) + k / unit) 0#32),
      scale (scaledType g.bty g.blk) (f.sb.getD (k / unit * g.n + j) 0#32)]
    let t := termAt cls g f i j k
    let neg := xs.foldl (fun acc x => acc != x.isNeg) false
    g.blk.toNat ≤ 5 →
    ((∃ x ∈ xs, x = .nan) → t = .nan) ∧
    ((∀ x ∈ xs, x ≠ .nan) → (∃ x ∈ xs, x.isInf = true) →
      t = if ∃ x ∈ xs, x.isZero = true then .nan else .inf neg) ∧
    ((∀ x ∈ xs, x ≠ .nan ∧ x.isInf = false) → ∃ m e, t = .fin neg m e ∧ t.rat = (xs.map Exact.rat).prod)) ∧
  (∀ (acc : LaneWord) (ts : List Exact),
    let y := acc.toInt + (ts.map termInt).sum
    let r := applyChunk true acc ts
    r.1.toInt = max (-2 ^ 31) (min (2 ^ 31 - 1) y) ∧ (r.2 = true ↔ r.1.toInt ≠ y)) ∧
  (∀ (acc : LaneWord) (ts : List Exact),
    let xs := (fmtOf .fp32).value acc :: ts
    let r := applyChunk false acc ts
    r.2 = false ∧
    ((.nan ∈ xs ∨ (.inf false ∈ xs ∧ .inf true ∈ xs)) → r.1 = 0x7FC00000#32) ∧
    (.nan ∉ xs → .inf false ∈ xs → .inf true ∉ xs → r.1 = 0x7F800000#32) ∧
    (.nan ∉ xs → .inf true ∈ xs → .inf false ∉ xs → r.1 = 0xFF800000#32) ∧
    ((∀ x ∈ xs, x ≠ .nan ∧ x.isInf = false) →
      ((∀ x ∈ xs, x.rat = 0) → r.1 = if ∀ x ∈ xs, x.isNeg = true then 0x80000000#32 else 0#32) ∧
      (∀ e : Int, (∃ x ∈ xs, (2 : ℚ) ^ e ≤ |x.rat|) → (∀ x ∈ xs, |x.rat| < (2 : ℚ) ^ (e + 1)) →
        ∃ y : Exact, y.isNaN = false ∧ y.isInf = false ∧ y.rat = (xs.map fun x => truncTo ((2 : ℚ) ^ (e - 47)) x.rat).sum ∧
          (y.rat = 0 → y.isNeg = false) ∧ r.1 = (rnd (fmtOf .fp32) .rne y).bits)))

/-- R320 to R322: rows and columns of a slot between its store and vector registers, while no operation is accepted on the slot: the drain value of finite, infinite and NaN factors, the value that `TSVL` writes, and the traps of both at an enabled exception and, for `TSLV`, at an uncorrectable value. The model's choices in it: logs 11 and 19. -/
def Obligations.Drains : Prop :=
  ∀ (s : State) (n : BitVec 3) (mk : BitVec 3) (mz col nsat : Bool) (md : Mode) (et : ET) (d a : BitVec 6) (g : Grant),
    SlotReady s n g → slotBusy s n = false → et ≠ .int64 →
    let x := s.team.slot n
    let line := (s.warp.readS a).toNat
    let place (k : Nat) : Nat × Nat := if col then (k, line) else (line, k)
    let f (k : Nat) : Elem := drainElem x et md nsat (place k).1 (place k).2
    let v (k : Nat) : Elem := fillElem et md (intKind g.aty) (readElem s d 32 k)
    let statusBelow (u : State) (hi : Nat) (live : Nat → Prop) (f : Nat → Elem) : Prop := ∀ i, u.warp.fpstat.getLsbD i = true ↔
      s.warp.fpstat.getLsbD i = true ∨ ∃ j, j < hi ∧ counts s.warp mk j ∧ live j ∧ (f j).flags.bits.getLsbD i = true
    let inside (k : Nat) : Prop := (place k).1 < g.m ∧ (place k).2 < g.n
    (x.bad = [] → VectorReady s [(d, et.width)] → givesVector (.tslv mk mz col md nsat et n d a) s 1 d et.width mk mz f) ∧
    (VectorReady s [(d, et.width)] → affords s s.warp.vl → ∀ k r,
      let bad (j : Nat) : Prop := s.warp.vstart ≤ j ∧ j < s.warp.vl ∧ maskBit s.warp mk j = true ∧ inside j ∧ (place j).1 * g.n + (place j).2 ∈ x.bad
      let raises (j : Nat) : Prop := counts s.warp mk j ∧ enabledTrap s.warp.fpctl (f j).flags = true
      (∀ j, j < k → ¬ bad j ∧ ¬ raises j) →
      ((bad k ∧ r = { cause := .machineCheck, info := BitVec.ofNat 64 (coreCluster (homeOf s.team.site n) % 256 * 2 ^ 24 + k % 2048 * 256 + 0x40) }) ∨
        (¬ bad k ∧ raises k ∧ r = fpReport (f k).flags k 0x20#8)) →
      ∃ u, exec (.tslv mk mz col md nsat et n d a) s = .next (trapHere u r k) ∧ ElementsTo s u d et.width mk mz k (fun j => (f j).bits) ∧
        statusBelow u k (fun _ => True) f ∧ u.warp.pos = s.warp.pos ∧ u.warp.s = s.warp.s ∧ u.warp.m = s.warp.m ∧ u.warp.pending.length = s.warp.pending.length ∧
        u.team = s.team ∧ u.mem = s.mem ∧ ChargeTaken s u s.warp.vl) ∧
    (∀ i j, i < g.m → j < g.n →
      let acc : Exact := if intKind g.aty then Exact.ofInt (x.acc.getD (i * g.n + j) 0#32).toInt else (fmtOf .fp32).value (x.acc.getD (i * g.n + j) 0#32)
      let ca := (fmtOf .bf16).value ((x.ca.getD i 0#16).setWidth 32)
      let cb := (fmtOf .bf16).value ((x.cb.getD j 0#16).setWidth 32)
      let neg := (acc.isNeg != ca.isNeg) != cb.isNeg
      let is (y : Exact) (nv : Bool) : Prop := drainElem x et md nsat i j =
        { bits := (convert et md nsat y).bits, flags := { (convert et md nsat y).flags with nv := (convert et md nsat y).flags.nv || nv } }
      ((∀ y ∈ [acc, ca, cb], y ≠ .nan ∧ y.isInf = false) → ∃ m e, (Exact.fin neg m e).rat = acc.rat * ca.rat * cb.rat ∧ is (.fin neg m e) false) ∧
      ((∃ y ∈ [acc, ca, cb], y = .nan) → is .nan false) ∧
      ((∀ y ∈ [acc, ca, cb], y ≠ .nan) → (∃ y ∈ [acc, ca, cb], y.isInf = true) →
        ((∃ y ∈ [acc, ca, cb], y.isZero = true) → is .nan true) ∧ ((∀ y ∈ [acc, ca, cb], y.isZero = false) → is (.inf neg) false))) ∧
    (∀ i j, (g.m ≤ i ∨ g.n ≤ j) → drainElem x et md nsat i j = { bits := 0#32 }) ∧
    (∀ y : LaneWord, fillElem .int32 md true y = { bits := y } ∧
      fillElem .int32 md false y = { bits := (rnd (fmtOf .fp32) md (Exact.ofInt y.toInt)).bits, flags := (rnd (fmtOf .fp32) md (Exact.ofInt y.toInt)).flags } ∧
      fillElem .fp32 md false y = { bits := if (fmtOf .fp32).value y = .nan then 0x7FC00000#32 else y } ∧
      fillElem .fp32 md true y = { bits := (convert .int32 md false ((fmtOf .fp32).value y)).bits,
                                   flags := (convert .int32 md false ((fmtOf .fp32).value y)).flags }) ∧
    (VectorReady s [(d, 32)] → affords s s.warp.vl → ∀ k, counts s.warp mk k → inside k → enabledTrap s.warp.fpctl (v k).flags = true →
      (∀ j, j < k → counts s.warp mk j → inside j → enabledTrap s.warp.fpctl (v j).flags = false) →
      ∃ u, exec (.tsvl mk col md et n a d) s = .next (trapHere u (fpReport (v k).flags k 0x20#8) k) ∧ statusBelow u k inside v ∧
        (x.acc.length = g.m * g.n → ∀ i j, i < g.m → j < g.n → (u.team.slot n).acc[i * g.n + j]? =
          (let q := if col then i else j
           if (if col then j else i) = line ∧ q < k ∧ s.warp.vstart ≤ q ∧ q < s.warp.vl - s.warp.vpad ∧ maskBit s.warp mk q = true then some (v q).bits else x.acc[i * g.n + j]?)) ∧
        u.warp.pos = s.warp.pos ∧ u.warp.s = s.warp.s ∧ u.warp.v = s.warp.v ∧ u.warp.pending = s.warp.pending ∧ u.mem = s.mem ∧
        (∀ q, q ≠ n → u.team.slot q = s.team.slot q) ∧ ChargeTaken s u s.warp.vl) ∧
    (x.bad = [] → VectorReady s [(d, 32)] → x.acc.length = g.m * g.n → affords s s.warp.vl →
      (∀ k, counts s.warp mk k → inside k → enabledTrap s.warp.fpctl (v k).flags = false) →
      ∃ t acc, exec (.tsvl mk col md et n a d) s = .next t ∧
        SlotChanged { s with warp := { s.warp with vstart := 0 } } t n [] { x with acc := acc } ∧
        (∀ i j, i < g.m → j < g.n → acc[i * g.n + j]? =
          (let k := if col then i else j
           let l := if col then j else i
           if l = line ∧ s.warp.vstart ≤ k ∧ k < s.warp.vl - s.warp.vpad ∧ maskBit s.warp mk k = true then some (v k).bits
           else x.acc[i * g.n + j]?)) ∧
        acc.length = g.m * g.n ∧ t.warp.pending = s.warp.pending ∧
        (∀ i, t.warp.fpstat.getLsbD i = true ↔ s.warp.fpstat.getLsbD i = true ∨ ∃ k, counts s.warp mk k ∧ inside k ∧ (v k).flags.bits.getLsbD i = true) ∧
        chargedThen s t s.warp.vl id)

/-- R323, R325, R326: a row stored to memory, an image saved, and an image loaded, on a slot on which no operation is accepted; an FP exception, an uncorrectable value or destination line of an accepted `TSTR`, and an uncorrectable value of a slot that `TSAVE` saves, are recorded against the instruction, with what stands below written. R307, R321, R322, R323, R325: a slot without a grant: `TSLV` reads every element as beyond the extent, `TSVL` and `TSTR` write nothing, and `TSAVE` writes an image of M = N = 0. R324: the header of a slot's image names its extents, types, block code, status and chunk count, and the CRC of its values. The model's choices in it: logs 11 and 33. -/
def Obligations.SlotsStored : Prop :=
  (∀ (s : State) (fs : FSel) (n : BitVec 3) (mk : BitVec 3) (nsat : Bool) (md : Mode) (et : ET) (a b c : BitVec 6) (g : Grant) (oks : List (Elt × Loc)),
     SlotReady s n g → slotBusy s n = false → (fs = .none ∨ s.warp.dests ≤ 16) →
     let x := s.team.slot n
     let row := (s.warp.readS a).toNat
     let base : Int := (s.warp.readS b).toNat
     let f (k : Nat) : Elem := drainElem x et md nsat row k
     let wrote (t : State) (start : Nat) : State :=
       { s with xlate := t.xlate, tables := t.tables, mem := t.mem, keytags := t.keytags, dirty := t.dirty, bales := t.bales, bad := t.bad,
                badMap := t.badMap, parts := t.parts, outbox := t.outbox, mgmt := t.mgmt, warp := { s.warp with vstart := start } }
     let recorded (t : State) (k : Nat) (r : Report) (st : Nat → Prop) : Prop := t.warp.fpstat = s.warp.fpstat ∧
       ∃ o, t.warp.pending = s.warp.pending ++ [o] ∧ o.fault = some (r, k) ∧ o.flag = flagOf s.warp.pos fs ∧ (o.done = true ↔ fs = .none) ∧
         o.seq = s.warp.seq ∧ o.sWrite = none ∧ o.vWrites = [] ∧ ∀ i, o.status.getLsbD i = true ↔ st i
     let inStore (k : Nat) : Report :=
       { cause := .machineCheck, info := BitVec.ofNat 64 (coreCluster (homeOf s.team.site n) % 256 * 2 ^ 24 + k % 2048 * 256 + 0x40) }
     let stores (tm : TstrMode) (place : Nat → Int × Nat) : Prop :=
       affords s s.warp.vl → ∀ stop,
       planOf s (s.ask .write et.width) ((asked s.warp mk place).filter fun y => inExtent x row y.k) = .run oks stop →
       let i := Instr.tstr fs mk tm md nsat et n a b c
       let raised (xs : List (Elt × Loc)) (i : Nat) : Prop := ∃ y ∈ xs, (f y.1.k).flags.bits.getLsbD i = true
       let done (t : State) (xs : List (Elt × Loc)) : Prop :=
         ElementsStored s t et.width xs (fun k => stored et ((f k).bits.setWidth 64)) ∧ LossesOnly s t xs ∧ chargedThen s t s.warp.vl id
       let bad (k : Nat) : Prop := row * g.n + k ∈ x.bad
       let raises (k : Nat) : Prop := enabledTrap s.warp.fpctl (f k).flags = true
       ((∀ y ∈ oks, ¬ bad y.1.k ∧ ¬ raises y.1.k) →
         (stop = none → ∃ t, exec i s = .next t ∧ done t oks ∧ SlotChanged (wrote t 0) t n [] x ∧
           ∃ st : BitVec 7, (∀ i, st.getLsbD i = true ↔ raised oks i) ∧ borne s t fs st) ∧
         (∀ k r, stop = some (.error k r) → addressStop s (s.ask .write et.width) ((asked s.warp mk place).filter fun y => inExtent x row y.k) = none →
           ∃ t, exec i s = .next t ∧ done t oks ∧ SlotChanged (wrote t 0) t n [] x ∧ recorded t k r.settled (raised oks))) ∧
       (stop = none → ∀ before y after, oks = before ++ y :: after → (∀ z ∈ before, ¬ bad z.1.k ∧ ¬ raises z.1.k) →
         (∀ z ∈ before, z.1.k < y.1.k) → (∀ z ∈ after, y.1.k < z.1.k) →
         (¬ bad y.1.k → raises y.1.k → ∃ t, exec i s = .next t ∧ done t before ∧ SlotChanged (wrote t 0) t n [] x ∧
           recorded t y.1.k (fpReport (f y.1.k).flags y.1.k 0x20#8) (raised before)) ∧
         (bad y.1.k → ∃ t r, exec i s = .next t ∧ done t before ∧ SlotChanged (wrote t 0) t n [] {} ∧
           recorded t y.1.k r (raised before) ∧ r = { inStore y.1.k with va := r.va }))
     let pieces (m : Nat) : List Elt := (List.range (m / 8)).map fun k => { k := k, va := ((s.warp.readS a).toNat + 8 * k : Nat) }
     let plan (acc : Access) (m : Nat) (oks : List (Elt × Loc)) : Prop :=
       imageFault (s.warp.readS a) = none ∧ planOf s { s.ask acc 64 with trims := false } (pieces m) = .run oks none
     let toll := (g.m * g.n + 1023) / 1024
     stores .u (fun k => (base + (k * et.width / 8 : Nat), k * et.width % 8)) ∧ stores .s (fun k => (base + k * (s.warp.readS c).toInt, 0)) ∧
     (VectorReady s [(c, 32)] → stores .x (fun k => (base + (readElem s c 32 k).toInt, 0))) ∧
     (plan .write x.imageBytes.length oks → affords s toll → x.bad ≠ [] → ∃ t r, exec (.tsave fs n a) s = .next t ∧ SlotChanged s t n [] {} ∧
       recorded t 0 r (fun _ => False) ∧ r = { inStore 0 with va := r.va } ∧ chargedThen s t toll id) ∧
     (plan .write x.imageBytes.length oks → affords s toll → x.bad = [] →
       ∃ t, exec (.tsave fs n a) s = .next t ∧ borne s t fs 0#7 ∧ LossesOnly s t oks ∧
         ElementsStored s t 64 oks (fun k => BitVec.ofNat 64 (leValue ((x.imageBytes.drop (8 * k)).take 8))) ∧
         SlotChanged (wrote t s.warp.vstart) t n [] x ∧ chargedThen s t toll id) ∧
     (∀ head, plan .read 64 head →
       let h := Image.ofHeader (pieceBytes s head)
       plan .read (64 + 4 * h.m * h.n) oks → affords s toll → Image.refusal s n (Image.ofHeader (pieceBytes s oks)) = none →
       let h := Image.ofHeader (pieceBytes s oks)
       let bytes := (pieceBytes s oks).drop 64
       crc32 bytes = h.crc →
       ∃ t, exec (.tload fs n a) s = .next t ∧ borne s t fs 0#7 ∧ chargedThen s t toll id ∧
         SlotChanged { s with xlate := t.xlate, tables := t.tables } t n []
           (h.slot ((List.range (h.m * h.n)).map fun i => BitVec.ofNat 32 (leValue ((bytes.drop (4 * i)).take 4)))))) ∧
  (∀ (s : State) (fs : FSel) (n : BitVec 3) (mk : BitVec 3) (mz col nsat : Bool) (md : Mode) (et : ET) (tm : TstrMode) (a b c d : BitVec 6)
     (oks : List (Elt × Loc)), s.warp.lanes = none → n.toNat < s.team.launch.tiles → s.team.tiles = true → (s.team.slot n).grant = none →
     slotBusy s n = false → (fs = .none ∨ s.warp.dests ≤ 16) → et ≠ .int64 →
     let x := s.team.slot n
     let nothing (i : Instr) (st : Prop) : Prop := affords s s.warp.vl →
       ∃ t, exec i s = .next t ∧ SlotChanged { s with warp := { s.warp with vstart := 0 } } t n [] x ∧ chargedThen s t s.warp.vl id ∧
         t.warp.fpstat = s.warp.fpstat ∧ (st → t.warp.pending = s.warp.pending)
     (VectorReady s [(d, et.width)] → givesVector (.tslv mk mz col md nsat et n d a) s 1 d et.width mk mz (fun _ => { bits := 0#32 })) ∧
     (VectorReady s [(d, 32)] → nothing (.tsvl mk col md et n a d) True) ∧
     ((tm = .x → VectorReady s [(c, 32)]) → nothing (.tstr fs mk tm md nsat et n a b c) (fs = .none)) ∧
     (x.bad = [] → imageFault (s.warp.readS a) = none →
       planOf s { s.ask .write 64 with trims := false } ((List.range 8).map fun k => { k := k, va := ((s.warp.readS a).toNat + 8 * k : Nat) }) = .run oks none →
       ∃ t, exec (.tsave fs n a) s = .next t ∧ borne s t fs 0#7 ∧ LossesOnly s t oks ∧ t.cores = s.cores ∧
         ElementsStored s t 64 oks (fun k => BitVec.ofNat 64 (leValue ((x.imageBytes.drop (8 * k)).take 8))) ∧
         SlotChanged { s with
           xlate := t.xlate, tables := t.tables, mem := t.mem, keytags := t.keytags, dirty := t.dirty, bales := t.bales, bad := t.bad,
           badMap := t.badMap, parts := t.parts, outbox := t.outbox, mgmt := t.mgmt } t n [] x) ∧
     x.imageBytes.length = 64 ∧
     (let h := Image.ofHeader x.imageBytes
      h.framed = true ∧ h.m = 0 ∧ h.n = 0 ∧ h.crc = 0#32 ∧ h.chunks = 0#64)) ∧
  (∀ (x : Slot) (g : Grant), x.grant = some g → g.m < 65536 → g.n < 65536 → g.m ≠ 0 →
     Image.ofHeader (x.imageBytes.take 64) =
       { m := g.m, n := g.n, kind := if intKind g.aty then 1 else 0, aty := g.aty, bty := g.bty, blk := g.blk, gstat := g.status,
         chunks := x.chunks, crc := crc32 (x.imageBytes.drop 64), framed := true })

/-! ## Traps and system instructions (15_system_and_traps.md) -/

/-- R330, R331, R334, R338, with 09 R200: entering the handler, the trap that a recorded fault displaces, the double fault, and `TRAP`, whose clause's YLD acts (04 R71). The model's choices in it: logs 7 and 21. -/
def Obligations.TrapEntry : Prop :=
  (∀ (s : State) (r : Report) (x : TrapSite), s.warp.intrap = false →
    enterTrap s r x = { s.met r with warp := { s.warp with
      trapcause := BitVec.ofNat 64 (r.cause.code.toNat + (if x.defer then 256 else 0) + (if s.warp.lanes.isSome then 512 else 0)),
      trappc := BitVec.ofInt 64 x.pc, trapnpc := BitVec.ofInt 64 x.npc, traphdr := BitVec.ofInt 64 x.hdr, trapinfo := r.info,
      faultva := r.va, faultgpa := r.gpa, vstart := x.vstart, trapvstart := x.vstart, traphome := x.home, due := none, reissue := none,
      intrap := true, frozen := s.warp.lanes.map LaneMode.freeze, lanes := none, pos := { hdr := s.part.trapvec.toNat },
      park := .none, wait := 0, urgent := false, service := {}, paid := false } }) ∧
  (∀ (s : State) (r : Report) (x : TrapSite), s.warp.intrap = true →
    let t := enterTrap s r x
    t.warp.status = .stopped ∧ t.warp.intrap = true ∧ t.warp.trappc = BitVec.ofInt 64 x.pc ∧ t.warp.trapinfo = r.info ∧
      t.warp.trapcause = BitVec.ofNat 64 (15 + (if x.defer then 256 else 0) + (if s.warp.lanes.isSome then 512 else 0) + 1024 * r.cause.code.toNat) ∧
      t.team = s.team ∧ t.warp.s = s.warp.s ∧ t.warp.v = s.warp.v ∧ t.warp.m = s.warp.m ∧ t.warp.pos = s.warp.pos ∧
      ∃ u, u.parts = s.parts ∧ t = recordError u s.team.part
        { kind := 1#8, addr := BitVec.ofInt 64 x.pc, team := BitVec.ofNat 32 s.team.lin, value := BitVec.ofNat 32 (r.info.toNat % 2 ^ 32),
          core := BitVec.ofNat 16 s.warp.core.num }) ∧
  (∀ (s : State) (w : Warp) (imm : BitVec 16), s.warp.lanes = none → s.warp.mustWait flagged = false →
    s.warp.commit everyFlag = (w, none) →
    let next : Int := s.warp.pos.hdr + 8 * ((s.warp.pos.n : Int) + 1)
    let t := enterTrap { s with warp := w } { cause := .software, info := BitVec.ofNat 64 imm.toNat }
      { pc := next, npc := next, hdr := next, vstart := s.warp.vstart }
    exec (.trap imm) s = .next { t with warp := t.warp.yieldHint s.warp.pos }) ∧
  (∀ (s : State) (w : Warp) (o : Outstanding) (r r' : Report) (x : TrapSite) (k : Nat) (displaced : Int),
    s.warp.mustWait flagged = false → s.warp.commit everyFlag = (w, some o) → o.fault = some (r', k) →
    takeTrap s r x displaced = enterTrap { s with warp := w } r'
      { pc := o.pc.toNat, npc := displaced, hdr := s.warp.at.hdr, defer := true, vstart := k, home := o.home })

/-- R35, R36, R38: a commit makes the chosen results visible in program order, the last write of a register deciding; nothing else of the warp changes, and the earliest recorded fault is found; a register, or bits of lane words, that a visible write of a later instruction has changed keep that write. The model's choices in it: log 54. -/
def Obligations.CommitsInOrder : Prop :=
  ∀ (w : Warp) (p : Outstanding → Bool), (w.pending.map (·.seq)).Pairwise (· < ·) →
    let x := (w.commit p).1
    let chosen := w.pending.filter p
    (∀ r, r ≠ 0#6 → x.readS r = match (chosen.reverse.filterMap (·.sWrite)).find? fun y => y.1 == r with
      | some y => y.2
      | none => w.readS r) ∧
    x.v = applyWrites w.v (chosen.flatMap (·.vWrites)) ∧
    (∀ i, x.fpstat.getLsbD i = true ↔ w.fpstat.getLsbD i = true ∨ ∃ o ∈ chosen, o.status.getLsbD i = true) ∧
    x.pending.map (·.seq) = (w.pending.filter fun o => !p o).map (·.seq) ∧
    x = { w with s := x.s, v := x.v, fpstat := x.fpstat, pending := x.pending } ∧
    (w.commit p).2 = chosen.find? (fun o => o.fault.isSome) ∧
    ((∀ o y z, p { o with sWrite := y, vWrites := z } = p o) → (∀ o ∈ w.pending, o.seq < w.seq) →
      (∀ d v, d ≠ 0#6 → let y := ((w.writeS d v).commit p).1
        y.readS d = v ∧ (∀ r, r ≠ d → y.readS r = x.readS r) ∧ y.v = x.v ∧ y.fpstat = x.fpstat) ∧
      (∀ ws : List LaneWrite, let u := w.writeLanes ws
        let y := (u.commit p).1
        y.s = x.s ∧ y.fpstat = x.fpstat ∧ ∀ k b, b < 32 → (y.readLane k).getLsbD b =
          if ∃ z ∈ ws, z.lane = k ∧ z.mask.getLsbD b = true then (u.readLane k).getLsbD b else (x.readLane k).getLsbD b))

/-- R333, R339, R31: `ERET` with DEFER = 0 leaves the handler for the clause at TRAPHDR, or for the word at TRAPNPC in it, with `vstart` from VSTART, back in lane mode when the trap came from it; with DEFER = 1 the word at TRAPPC issues first, alone and with FS taken as 0; an address that no clause can start at, and a TRAPNPC outside its clause, take the misformed-clause trap 0x15 outside the handler. The model's choices in it: logs 21, 40 and 41. -/
def Obligations.TrapReturn : Prop :=
  ∀ (s : State) (w : Warp), s.warp.lanes = none → s.warp.intrap = true → s.warp.mustWait flagged = false →
    s.warp.commit flagged = (w, none) →
    let left (w : Warp) : Warp :=
      { w.yieldHint w.pos with intrap := false, vstart := w.trapvstart, frozen := none, wait := 0, urgent := false, park := .none, service := {}, paid := false }
    let pc : Int := s.warp.trappc.toNat
    let hdr : Int := s.warp.traphdr.toNat
    let npc : Int := s.warp.trapnpc.toNat
    let lane := s.warp.trapcause.getLsbD 9
    let back (w : Warp) (p : Position) : Warp :=
      match lane, w.frozen with
      | true, some lm => { left w with lanes := some (lm.onLanes lm.group fun _ l => { l with pos := p }) }
      | true, none | false, _ => { left w with pos := p }
    let bad : Report := { cause := .misformed, info := 0x15#64 }
    let stops (u : State) (home va : Int) : Result :=
      .next (takeTrap { u with warp := back u.warp { hdr := home } } bad { pc := va, npc := va, hdr := home, vstart := u.warp.trapvstart } va)
    let s1 : State := { s with warp := w }
    (s.warp.trapcause.getLsbD 8 = false →
    (npc = hdr → exec .eret s = .next { s with warp := back w { hdr := hdr } }) ∧
    (∀ h ws u, npc ≠ hdr → fetchClause s1 false hdr = .got (h, ws) u →
      (∀ i, npc = hdr + 8 * (i : Nat) → 1 ≤ i → i ≤ ws.length →
        exec .eret s = .next { u with warp := back u.warp { hdr := hdr, header := h, words := ws, idx := i } }) ∧
      ((∀ i : Nat, 1 ≤ i → i ≤ ws.length → npc ≠ hdr + 8 * i) → exec .eret s = stops u npc npc)) ∧
    (npc ≠ hdr → canonicalFault hdr = none → hdr % 8 ≠ 0 → exec .eret s = stops s1 hdr hdr) ∧
    (∀ word u, npc ≠ hdr → fetchAt s1 false hdr = .got word u → word.extractLsb' 56 8 ≠ 0xF8#8 → exec .eret s = stops s1 hdr hdr)) ∧
    (s.warp.trapcause.getLsbD 8 = true →
    (∀ word u, fetchAt s1 false pc = .got word u →
      let alone (v : State) (r : Resume) : Prop :=
        ∃ t, exec .eret s = .next t ∧ t.warp.pos.pc = pc ∧ t.warp.pos.word = some (word &&& ~~~(3#64 <<< 54)) ∧
          t = { v with warp := { left v.warp with pos := t.warp.pos, reissue := some (r, lane), frozen := v.warp.frozen } }
      (npc = hdr → alone u (.goOn { hdr := hdr })) ∧
      (∀ h ws v, npc ≠ hdr → fetchClause u false hdr = .got (h, ws) v →
        (∀ i, npc = hdr + 8 * (i : Nat) → 1 ≤ i → i ≤ ws.length → alone v (.goOn { hdr := hdr, header := h, words := ws, idx := i })) ∧
        ((∀ i : Nat, 1 ≤ i → i ≤ ws.length → npc ≠ hdr + 8 * i) → alone v (.stop bad npc)))) ∧
    (canonicalFault pc = none → pc % 8 ≠ 0 →
      let off := pc - s.warp.traphome
      exec .eret s = stops s1 (if off % 8 = 0 ∧ 1 ≤ off / 8 ∧ off / 8 ≤ 7 then s.warp.traphome else pc) pc))

/-- R32, R42, R84, R104, R136: a word with a register field that condition 14 rejects takes reason 0x03; in lane mode every word outside Table 6, and every form of its words with FS ≠ 0 or MK ≠ 0, takes reason 0x09 behind it, and so does `MOV.U` outside lane mode. The reasons 0x0A, 0x0C and 0x08 that are met at issue stand where the model's log 60 puts them. R335, R337: outside a trap handler the privileged instructions, and the privileged system registers, take the illegal-instruction trap with reason 0x0D; an unassigned register number takes it with reason 0x0E. The model's choices in it: log 60. -/
def Obligations.Refusals : Prop :=
  (∀ (s : State), let trap (reason : Word) : Result := .next (trapHere s { cause := .illegal, info := reason } s.warp.vstart)
     (∀ (i : Instr) (cs : List Bool), fieldChecks s i = some cs →
       (false ∈ cs → exec i s = trap 0x03#64) ∧
       (s.warp.inLanes = true → lanePermits i = false → false ∉ cs → exec i s = trap 0x09#64)) ∧
     (∀ (d a : BitVec 6), s.warp.lanes = none → d.toNat < s.r → exec (.mov true d a) s = trap 0x09#64) ∧
     (∀ (tr mz : Bool) (mk : BitVec 3) (md : Mode) (src et : ET) (d a b : BitVec 6), stripBlock s.warp = 0 → groupField s et.width d = true →
       (groupSize s.warp src.width ≤ 8 → (if tr then a.toNat % 8 == 0 && decide (a.toNat + 8 ≤ s.r) else groupField s src.width a) = true →
         exec (.vqnt tr src et d a b) s = trap 0x0A#64) ∧
       (groupField s src.width a = true → exec (.vdqnt mk mz md src et d a b) s = trap 0x0A#64)) ∧
     (∀ (fs : FSel) (mk r : BitVec 3) (mz : Bool) (ch : BitVec 2) (d : BitVec 6), s.warp.lanes = none →
       let x := s.warp.stream r
       ((x.defined = false ∨ x.store = true) → exec (.vldst fs mk mz ch d r) s = trap 0x0C#64) ∧
       ((x.defined = false ∨ x.store = false) → exec (.vstst mk ch r d) s = trap 0x0C#64)) ∧
     (∀ (mk : BitVec 3) (mz : Bool) (d a : BitVec 6) (imm : BitVec 32), (stripEt s.warp).isInt = false →
       exec (.vaddi mk mz d a imm) s = trap 0x08#64) ∧
     (∀ (fs : FSel) (op : AtomOp) (ord : Ord4) (md : Mode) (ch : BitVec 2) (d a b c : BitVec 6) (off : BitVec 16), s.warp.inLanes = true →
       exec (.lds fs .int64 ch d a off) s = trap 0x08#64 ∧ exec (.sts .int64 ch a b off) s = trap 0x08#64 ∧
       exec (.atom fs op ord md .int64 d a b) s = trap 0x08#64 ∧ exec (.cas fs ord .int64 d a b c) s = trap 0x08#64)) ∧
  (∀ (s : State) (d a b : BitVec 6) (sr : BitVec 12), s.warp.lanes = none →
     let trap (reason : Word) : Result := .next (trapHere s { cause := .illegal, info := reason } s.warp.vstart)
     let n := sr.toNat
     let assigned := n ≤ 3 ∨ (8 ≤ n ∧ n ≤ 0xB) ∨ (0x10 ≤ n ∧ n ≤ 0x12) ∨ n = 0x18 ∨ (0x20 ≤ n ∧ n ≤ 0x2C) ∨ n = 0x30 ∨ (0x40 ≤ n ∧ n ≤ 0x4F)
     (s.warp.intrap = false →
       exec .eret s = trap 0x0D#64 ∧ exec (.cacheInv a) s = trap 0x0D#64 ∧ exec (.xlinvVa a b) s = trap 0x0D#64 ∧
       exec .xlinvAll s = trap 0x0D#64 ∧ exec .haltWarp s = trap 0x0D#64 ∧ exec (.haltTeam a) s = trap 0x0D#64 ∧
       (assigned → 0x20 ≤ n → exec (.getsr d sr) s = trap 0x0D#64 ∧ exec (.setsr sr a) s = trap 0x0D#64)) ∧
     (¬ assigned → exec (.getsr d sr) s = trap 0x0E#64 ∧ exec (.setsr sr a) s = trap 0x0E#64))

/-- R336, R340: `GETSR` of the registers of Table 3, each by its number; FREQ is 0.3 GHz where a clock runs above band 1 (17 R370, R371). R336, R340, R216: `SETSR` under the access codes of Table 3: FPSTAT bits are cleared by ones, read-only registers stay. R341 to R344: the cache and translation-cache words and `LEASE`. The model's choices in it: logs 7, 8 and 22. -/
def Obligations.SystemWords : Prop :=
  (∀ (s : State) (d : BitVec 6), s.warp.lanes = none →
     let w := s.warp
     let c := w.core
     let reads (n : BitVec 12) (v : Word) : Prop :=
       ∃ t, exec (.getsr d n) s = .next t ∧ wroteS s.warp t.warp d v ∧ t.warp.pending = s.warp.stoppedS d ∧ t.warp.pos = s.warp.pos.after ∧
         UniformFrame { s with draws := s.draws + 1 } t
     let lowest : Prop := clusterOn s (coreCluster c) = true ∧ ∀ m, m < coreCluster c → m / 26 = coreCluster c / 26 → clusterOn s m = false
     reads 0x000#12 (coreOf s c).cycles ∧
     reads 0x001#12 (BitVec.ofNat 64 (c.num * 65536 + coreCluster c * 256 + (if c.cls = .m then 1 else 2))) ∧
     reads 0x002#12 (BitVec.ofNat 64 s.team.part.toNat) ∧ reads 0x003#12 (if w.intrap then 1#64 else 0#64) ∧
     reads 0x008#12 (BitVec.ofNat 64 w.fpstat.toNat) ∧ reads 0x009#12 (BitVec.ofNat 64 w.fpctl.toNat) ∧
     reads 0x00A#12 (BitVec.ofNat 64 s.part.capq.toNat) ∧ reads 0x00B#12 s.part.tcap ∧
     (∃ f, (s.mgmt.band = 0 → f ≤ 2400) ∧ (s.mgmt.band = 1 → f ≤ 2000) ∧ (s.mgmt.band ≤ 1 → s.mgmt.phase = .off → f = 0) ∧
       (s.mgmt.band = 2 → f = if s.mgmt.phase = .excursion ∨ (s.mgmt.phase = .bench ∧ lowest) then 300 else 0) ∧ (s.mgmt.band = 3 → f = 0) ∧
       (3 < s.mgmt.band → f = if (s.mgmt.phase = .bench ∨ s.mgmt.phase = .warming) ∧ lowest then 300 else 0) ∧
       reads 0x010#12 (BitVec.ofNat 64 (min (tmax s) 255 * 2 ^ 40 + f * 2 ^ 20 + s.mgmt.phase.code * 2 ^ 12 + s.mgmt.band))) ∧
     reads 0x011#12 (BitVec.ofNat 64 ((coreOf s c).cap / 1024 * 2 ^ 56 + (coreOf s c).refill % 4096 * 2 ^ 44) |||
       (BitVec.ofInt 24 (coreOf s c).level).setWidth 64) ∧
     reads 0x012#12 (BitVec.ofNat 64 ((clusterOf s (coreCluster c)).pool * 2 ^ 32 + w.lease)) ∧
     reads 0x018#12 (BitVec.ofNat 64 ((if s.team.launch.rfollow then 2 else 0) + if s.team.launch.rrecord then 1 else 0)) ∧
     (w.intrap = true →
       reads 0x020#12 w.trapcause ∧ reads 0x021#12 w.trappc ∧ reads 0x022#12 w.trapnpc ∧ reads 0x023#12 w.traphdr ∧
       reads 0x024#12 w.trapinfo ∧ reads 0x025#12 w.faultva ∧ reads 0x026#12 w.faultgpa ∧ reads 0x027#12 (BitVec.ofNat 64 w.trapvstart) ∧
       reads 0x028#12 w.trapscr[0] ∧ reads 0x029#12 w.trapscr[1] ∧ reads 0x02A#12 w.trapscr[2] ∧ reads 0x02B#12 w.trapscr[3] ∧
       reads 0x02C#12 s.part.trapvec ∧ reads 0x030#12 s.part.s1root ∧
       ∀ i, i < 16 → reads (BitVec.ofNat 12 (0x40 + i)) (w.faultmask.extractLsb' (64 * i) 64))) ∧
  (∀ (s : State) (a : BitVec 6), s.warp.lanes = none →
     let v := s.warp.readS a
     let writes (n : BitVec 12) (w : Warp) : Prop :=
       exec (.setsr n a) s = .next { s with warp := w.advance }
     writes 0x008#12 { s.warp with fpstat := s.warp.fpstat &&& ~~~(v.setWidth 7) } ∧ writes 0x009#12 { s.warp with fpctl := v.setWidth 6 } ∧
     (∀ n ∈ [0#12, 1#12, 2#12, 3#12, 0xA#12, 0xB#12, 0x10#12, 0x11#12, 0x12#12, 0x18#12], writes n s.warp) ∧
     (s.warp.intrap = true →
       writes 0x020#12 { s.warp with trapcause := v &&& 0x3FFFF#64 } ∧ writes 0x021#12 { s.warp with trappc := v } ∧
       writes 0x022#12 { s.warp with trapnpc := v } ∧ writes 0x023#12 { s.warp with traphdr := v } ∧
       writes 0x024#12 { s.warp with trapinfo := v } ∧ writes 0x025#12 s.warp ∧ writes 0x026#12 s.warp ∧
       writes 0x027#12 { s.warp with trapvstart := min v.toNat 1023 } ∧ writes 0x02C#12 s.warp ∧
       writes 0x028#12 { s.warp with trapscr := s.warp.trapscr.set 0 v } ∧ writes 0x029#12 { s.warp with trapscr := s.warp.trapscr.set 1 v } ∧
       writes 0x02A#12 { s.warp with trapscr := s.warp.trapscr.set 2 v } ∧ writes 0x02B#12 { s.warp with trapscr := s.warp.trapscr.set 3 v } ∧
       (exec (.setsr 0x030#12 a) s = .next { s with
         parts := s.parts.set s.team.part.toNat { s.part with s1root := v &&& 0x000FFFFFFFFC0000#64 } s.team.part.isLt,
         warp := s.warp.advance }) ∧
       ∀ i, i < 16 → ∃ w, writes (BitVec.ofNat 12 (0x40 + i)) w ∧ w = { s.warp with faultmask := w.faultmask } ∧
         ∀ j, j < 1024 → w.faultmask.getLsbD j = if 64 * i ≤ j ∧ j < 64 * i + 64 then v.getLsbD (j - 64 * i) else s.warp.faultmask.getLsbD j)) ∧
  (∀ (s : State) (d a b : BitVec 6), s.warp.lanes = none →
     let lo := (s.warp.readS a).toNat
     let len := (s.warp.readS b).toNat
     let meets (c : CachedLine) : Bool := lineMeets lo len c.line
     let drops (i : Instr) (gone : CachedLine → Bool) : Prop :=
       exec i s = .next { s with icache := s.icache.filter fun c => !(c.part == s.team.part && gone c), warp := s.warp.advance }
     drops (.icinvRange a b) meets ∧ drops .icinvAll (fun _ => true) ∧
     (∀ l, (canonicalFault (lo : Int) ≠ none ∨ inWindow (va54 (lo : Int)) = false) →
       (∀ x ∈ s.dirty, x.line = l.key / 128 * 128 → x.bad = [] ∧ x.bale = false) → (∀ x ∈ s.bales, x.1 ≠ l.key / 2048) →
       l.key / 2048 ∉ s.badMap → linkDown s l.key = false → (∀ p, (partOf s p).errWait = []) →
       checkFresh s { s.ask .read 8 with trims := false } true { k := 0, va := lo } = .ok l → lineAbsent s (l.key / 128) = false →
       Memory.wf s.mem = true →
       let clean (i : Instr) : Prop := ∃ t, exec i s = .next t ∧ t.mem = s.mem ∧ t.warp = s.warp.advance ∧ t.team = s.team ∧
         (l.mt = 0 → ∀ x ∈ t.dirty, x.line ≠ l.key / 128 * 128)
       clean (.cacheClean a) ∧ clean (.cacheFlush a)) ∧
     (∀ l, s.warp.intrap = true → (canonicalFault (lo : Int) ≠ none ∨ inWindow (va54 (lo : Int)) = false) →
       checkFresh s { s.ask .write 8 with trims := false } true { k := 0, va := lo } = .ok l → lineAbsent s (l.key / 128) = false →
       ∃ t, exec (.cacheInv a) s = .next t ∧ t.warp = s.warp.advance ∧ t.team = s.team ∧
         (l.mt = 0 → ∀ x ∈ t.dirty, x.line ≠ l.key / 128 * 128)) ∧
     (s.warp.intrap = true →
       (len = 0 → exec (.xlinvVa a b) s = .next s.advance) ∧
       (∀ n, s.warp.park = .invalidation n → (∀ i ∈ s.invalidations, i.num ≠ n) →
         exec .xlinvAll s = .next s.advance ∧ (len ≠ 0 → exec (.xlinvVa a b) s = .next s.advance)) ∧
       (s.warp.park = .none →
         let begins (i : Instr) (r : InvRange) : Prop := ∃ hs, exec i s = .next { s with
           invalidations := s.invalidations ++ [{ num := s.nextInv, part := s.team.part, range := r, holders := hs }],
           nextInv := s.nextInv + 1, warp := { s.warp with park := .invalidation s.nextInv } } ∧
           ∀ q, q ∈ hs ↔ ∃ ps, (q, ps) ∈ pinners s ∧ ∃ c ∈ ps, Invalidation.hits { num := s.nextInv, part := s.team.part, range := r, holders := [] } c = true
         begins .xlinvAll .all ∧ (len ≠ 0 → begins (.xlinvVa a b) (.va lo len)))) ∧
     (let pool := (clusterOf s (coreCluster s.warp.core)).pool
      let g := if s.mgmt.band = 0 then min (min lo (2 ^ 32 - 1)) (min pool (2 ^ 32 - 1 - s.warp.lease)) else 0
      ∃ t, exec (.lease d a) s = .next t ∧ wroteS s.warp t.warp d (BitVec.ofNat 64 g) ∧ t.warp.lease = s.warp.lease + g ∧
        (coreCluster s.warp.core < 52 → (clusterOf t (coreCluster s.warp.core)).pool = pool - g) ∧
        (∀ c, c ≠ coreCluster s.warp.core → clusterOf t c = clusterOf s c) ∧ t.warp.pos = s.warp.pos.after ∧
        t.warp.pending = s.warp.stoppedS d ∧ UniformFrame { s with clusters := t.clusters, warp := { s.warp with lease := s.warp.lease + g } } t))

/-- R98, R346, R347: at `SETVL`, `TSET`, `BARWAIT`, `CWAIT` and `YIELD` a warp takes a pending pre-emption: its results committed, it stops before that word with cause 14, the word in TRAPPC and TRAPNPC and its header in TRAPHDR, its unspent lease back in the pool; `SETVL` and `TSET` take a due shrink leave. The model's choices in it: log 70. -/
def Obligations.PreemptionPoints : Prop :=
  ∀ (s : State) (w : Warp) (d a : BitVec 6) (et aty bty : ET) (blk n : BitVec 3) (grp : BitVec 2) (b ch : BitVec 4), s.warp.lanes = none →
    s.warp.intrap = false → s.warp.mustWait flagged = false → s.warp.commit flagged = (w, none) →
    let cl := coreCluster s.warp.core
    let lease (t : State) : Prop := (cl < 52 → (clusterOf t cl).pool = (clusterOf s cl).pool + s.warp.lease) ∧ ∀ c, c ≠ cl → clusterOf t c = clusterOf s c
    let fitsGroup := stripLen blk.toNat ≤ s.w * 32 * 2 ^ grp.toNat / et.width
    let slotThere := n.toNat < s.team.launch.tiles ∧ s.team.tiles = true
    (s.team.preempt = true →
      let taken (i : Instr) (dead : Bool) : Prop := ∃ t, exec i s = .next t ∧ lease t ∧
        t = { s with
          clusters := t.clusters
          team := { s.team with k := 0 }
          warp := { w with
            status := .saved dead, trapcause := 14#64, trappc := BitVec.ofInt 64 s.warp.pos.pc, trapnpc := BitVec.ofInt 64 s.warp.pos.pc
            traphdr := BitVec.ofInt 64 s.warp.pos.hdr, park := .none, wait := 0, urgent := false, lease := 0, service := {}, paid := false, st := w.st.map fun x => { x with ahead := [], held := [] } } }
      (fitsGroup → taken (.setvl d a et blk grp) true) ∧ (slotThere → taken (.tset n d a aty bty blk) true) ∧
      ((s.warp.part b.toNat).member = true → taken (.barwait b) false) ∧ taken (.cwait a ch) false ∧ taken .yield false) ∧
    (s.team.preempt = false → s.warp.status = .running → 0 < s.team.k → s.team.launch.minw < s.team.peers.length + 1 →
      (w.commit everyFlag).2 = none → (∀ o ∈ s.warp.pending, o.late = true → o.flag = none → o.done = true) →
      let leaves (i : Instr) : Prop := ∃ t, exec i s = .next t ∧ t.warp = {} ∧ lease t ∧ t.team.peers = s.team.peers ∧ t.team.tid = s.team.tid ∧
        t.team.k = (if s.team.peers.length ≤ s.team.launch.minw then 0 else s.team.k - 1) ∧ t.teams = s.teams ∧ t.cores = s.cores ∧
        (s.team.launch.rrecord = false → t.mem = s.mem)
      (fitsGroup → leaves (.setvl d a et blk grp)) ∧ (slotThere → leaves (.tset n d a aty bty blk)))

/-! ## Teams, barriers and lane mode (05_teams_and_warps.md) -/

/-- R110, R111, R113: what a team reads of itself, and growth. R101, R102, R114, R115: arriving, waiting for a phase that has completed, and the barriers of which a warp is a member: a warp that leaves one changes the counts of its open phase by Table 5 and lets it be tested, and so does one that joins. R100: a phase completes when every expected arrival has come; the next one expects the members and those who had departed after arriving in it. -/
def Obligations.TeamWords : Prop :=
  (∀ (s : State) (d a : BitVec 6), s.warp.lanes = none →
     let l := s.team.launch
     let room := if l.elastic ∧ l.minw < l.maxw ∧ s.team.k = 0 ∧ s.team.preempt = false then min (l.maxw - s.count) (freeHere s) else 0
     gives (.getid .tx d) s d (BitVec.ofNat 64 (s.team.lin % l.gridX)) ∧
     gives (.getid .ty d) s d (BitVec.ofNat 64 (s.team.lin / l.gridX % l.gridY)) ∧
     gives (.getid .tz d) s d (BitVec.ofNat 64 (s.team.lin / l.gridX / l.gridY)) ∧
     gives (.getid .gx d) s d (BitVec.ofNat 64 l.gridX) ∧ gives (.getid .gy d) s d (BitVec.ofNat 64 l.gridY) ∧
     gives (.getid .gz d) s d (BitVec.ofNat 64 l.gridZ) ∧ gives (.getid .warp d) s d (BitVec.ofNat 64 s.warp.idx) ∧
     gives (.getid .team d) s d (BitVec.ofNat 64 s.team.lin) ∧
     gives (.tstat d) s d (BitVec.ofNat 64 (s.count % 128 + (if s.team.k ≠ 0 then 2 ^ 7 else 0) + (if room ≠ 0 then 2 ^ 8 else 0) +
       2 ^ 16 * (l.minw % 128) + 2 ^ 24 * (l.maxw % 128) + 2 ^ 32 * (room % 128))) ∧
     (l.rfollow = false → l.rrecord = false →
       let g := min (s.warp.readS a).toNat room
       ∃ t, exec (.tgrow d a) s = .next t ∧ wroteS s.warp t.warp d (BitVec.ofNat 64 g) ∧
         t.team.peers.length = s.team.peers.length + g ∧ t.team.peers.take s.team.peers.length = s.team.peers ∧
         (∀ w ∈ t.team.peers.drop s.team.peers.length,
           w.status = .running ∧ w.pos = { hdr := (waymark s s.team.part l.attach).toNat } ∧ w.pending = [] ∧ w.intrap = false) ∧
         (∀ w ∈ t.team.peers.drop s.team.peers.length,
           (∀ r : BitVec 6, w.readS r = if 1 ≤ r.toNat ∧ r.toNat ≤ 4 then l.args.getD (r.toNat - 1) 0#64
             else if r = 60#6 then BitVec.ofNat 64 (Config.windowBase + s.team.base) else 0#64) ∧
           (∀ k, w.readLane k = 0#32) ∧ w.m = Vector.replicate 8 0#1024 ∧ w.vl = 0 ∧ w.vpad = 0 ∧ w.vstart = 0 ∧ w.fpstat = 0#7 ∧ w.fpctl = 0#6) ∧
         t.warp.pos = s.warp.pos.after ∧ t.warp.v = s.warp.v ∧ t.warp.pending = s.warp.stoppedS d ∧ t.mem = s.mem ∧ t.teams = s.teams)) ∧
  (∀ (s : State) (b : BitVec 4) (imm : BitVec 16), s.warp.lanes = none →
     let m := s.warp.part b.toNat
     let p := (s.team.bar b.toNat).p
     let target := match m.last with
       | some l => l + 1
       | none => m.first
     let returns (t : State) (w : Warp) (m : Membership) (miles : List Milestone) : Prop := t.warp.part b.toNat = { m with awaited := false } ∧
       (∀ k, k ≠ b.toNat → t.warp.part k = s.warp.part k) ∧
       t = { s with
         team := { s.team with miles := miles }
         warp := { w with
           bars := t.warp.bars, st := w.st.map (fun x => if x.store then x else { x with ahead := [] }), pos := s.warp.pos.after
           yieldOff := t.warp.yieldOff, yieldLow := t.warp.yieldLow, wait := 0, urgent := false, park := .none, service := {}, paid := false } }
     let returned (t : State) (w : Warp) : Prop := returns t w m s.team.miles
     let came : Membership := { m with last := some target, arrived := some target, awaited := true }
     let raised : List Milestone := s.team.miles ++ [{ warp := s.warp.idx, bar := b.toNat, phase := target, core := s.warp.core }]
     let ended : Prop := ∀ l, m.arrived = some l → l < p ∨ m.awaited = false
     (m.member = true →
       (target < p + 2 → ∃ t, exec (.bararv b) s = .next t ∧
         t.team = { s.team with miles := raised } ∧ t.warp.part b.toNat = came ∧
         (∀ k, k ≠ b.toNat → t.warp.part k = s.warp.part k) ∧
         t.warp.pos = s.warp.pos.after ∧ t.warp.s = s.warp.s ∧ t.warp.pending = s.warp.pending ∧
         UniformFrame { s with team := t.team, warp := { s.warp with bars := t.warp.bars } } t) ∧
       (p + 2 ≤ target → exec (.bararv b) s = .next { s with warp := { s.warp with park := .stall b.toNat } }) ∧
       (∀ w, ended → s.warp.mustWait flagged = false → s.warp.commit flagged = (w, none) → s.team.preempt = false →
         ∃ t, exec (.barwait b) s = .next t ∧ returned t w) ∧
       (∀ w l, m.arrived = some l → m.awaited = true → p ≤ l → s.warp.mustWait flagged = false →
         s.warp.commit flagged = (w, none) → s.team.preempt = false →
         exec (.barwait b) s = .next { s with warp := { w with park := .barrier b.toNat l true } }) ∧
       ((∀ l, s.warp.park ≠ .barrier b.toNat l false) →
         (p + 2 ≤ target → exec (.barsync b) s = .next { s with warp := { s.warp with park := .stall b.toNat } }) ∧
         (p ≤ target → target < p + 2 → ∃ t, exec (.barsync b) s = .next t ∧ t.warp.part b.toNat = came ∧
           (∀ k, k ≠ b.toNat → t.warp.part k = s.warp.part k) ∧
           t = { s with team := { s.team with miles := raised }, warp := { s.warp with bars := t.warp.bars, park := .barrier b.toNat target false } }) ∧
         (target < p → ∃ t, exec (.barsync b) s = .next t ∧ returns t s.warp came raised)) ∧
       (∀ l, s.warp.park = .barrier b.toNat l false → ended → ∃ t, exec (.barsync b) s = .next t ∧ returned t s.warp)) ∧
     (m.member = false → exec (.bararv b) s = .next (trapHere s { cause := .sync, info := 0xFF03#64 } s.warp.vstart) ∧
       exec (.barwait b) s = .next (trapHere s { cause := .sync, info := 0xFF03#64 } s.warp.vstart) ∧
       exec (.barsync b) s = .next (trapHere s { cause := .sync, info := 0xFF03#64 } s.warp.vstart)) ∧
     (s.warp.status = .running → ∃ t, exec (.barmask imm) s = .next t ∧
       (∀ k, k < 16 → t.warp.part k = (if (s.warp.part k).member = imm.getLsbD k then s.warp.part k
           else if imm.getLsbD k then { s.warp.part k with member := true, first := (s.team.bar k).p + 1, last := none }
           else { s.warp.part k with member := false }) ∧
         let m := s.warp.part k
         let x := s.team.bar k
         let n := (s.team.peers.filter fun w => (w.part k).member).length
         let tests (y : Barrier) (n : Nat) : Prop :=
           (y.a ≠ y.e → t.team.bar k = y) ∧ (y.a = y.e → n = 0 → y.e = 0 → t.team.bar k = y) ∧
           (y.a = y.e → (0 < n ∧ y.a1 ≠ n + y.d) ∨ (n = 0 ∧ 0 < y.e) → t.team.bar k = { p := y.p + 1, e := n + y.d, a := y.a1, a1 := 0, d := 0 })
         (m.member = imm.getLsbD k → t.team.bar k = x) ∧
         (m.member = false → imm.getLsbD k = true → tests x (n + 1)) ∧
         (m.member = true → imm.getLsbD k = false → tests
           (if m.last = some (x.p + 1) then { x with d := x.d + 1 }
             else if m.last = some x.p then x
             else if m.first ≤ x.p then { x with e := x.e - 1 } else x) n)) ∧
       t.warp.pos = s.warp.pos.after ∧ t.warp.s = s.warp.s ∧ t.warp.pending = s.warp.pending ∧
       UniformFrame { s with team := { s.team with bars := t.team.bars }, warp := { s.warp with bars := t.warp.bars } } t)) ∧
  (∀ (s : State) (m : Milestone) (w : WarpRef), s.team.status = .running → s.warp.status = .running → s.me = w → m.warp = w.warp →
     s.team.miles.find? (fun x => x.warp == w.warp) = some m → m.bar < 16 →
     let x := s.team.bar m.bar
     let n := members s m.bar
     ∃ t, exec (.milestoneFire w) s = .next t ∧ t.team.miles = s.team.miles.erase m ∧ (∀ k, k ≠ m.bar → t.team.bar k = s.team.bar k) ∧
       t.warp = s.warp ∧ t.mem = s.mem ∧
       (m.phase = x.p → x.a + 1 < x.e → t.team.bar m.bar = { x with a := x.a + 1 }) ∧
       (m.phase = x.p → x.a + 1 = x.e → 0 < n → x.a1 < n + x.d →
         t.team.bar m.bar = { p := x.p + 1, e := n + x.d, a := x.a1, a1 := 0, d := 0 }) ∧
       (m.phase = x.p + 1 → x.a < x.e → t.team.bar m.bar = { x with a1 := x.a1 + 1 }))

/-- R104 to R108, R116, R117: forking, waiting for other lanes, joining and going on as vectors; a `WSYNC` lets go of every lane, of its group or blocked before, whose set has come; where no lane can move the sync-membership trap is taken at the lowest lane that Table 7 reports. The model's choices in it: log 31. -/
def Obligations.LaneWords : Prop :=
  ∀ (s : State),
    let bookkept (t : State) (w : Warp) : Prop :=
      t = { s with warp := { w with lanes := t.warp.lanes, pos := t.warp.pos, yieldOff := t.warp.yieldOff, yieldLow := t.warp.yieldLow,
                                    wait := 0, urgent := false, park := .none, service := {}, paid := false } }
    (∀ (a : BitVec 3) (disp : BitVec 32) (w : Warp), s.warp.lanes = none → s.warp.mustWait flagged = false →
      s.warp.commit flagged = (w, none) →
      let on (l : Nat) : Bool := (s.warp.readM a).getLsbD l
      ((∃ l, l < s.w ∧ on l = true) → ∃ t lm, exec (.vfork a disp) s = .next t ∧ t.warp.lanes = some lm ∧ lm.lanes.length = s.w ∧
        (∀ l, l < s.w → lm.lane l = { pos := { hdr := s.warp.pos.hdr + 8 * disp.toInt }, joined := !on l }) ∧
        t.warp.pos = s.warp.pos ∧ bookkept t w) ∧
      ((∀ l, l < s.w → on l = false) → exec (.vfork a disp) s = .next { s with warp := w.advance })) ∧
    (s.warp.lanes = none → exec .ljoin s = .next (trapHere s { cause := .illegal, info := 0x09#64 } s.warp.vstart) ∧
      ∀ (i : BitVec 4) (a : BitVec 6), (if s.w = 64 then pairField s a = true else a.toNat < s.r) → exec (.wsync i a) s = .next s.advance) ∧
    (∀ lm lead, s.warp.lanes = some lm → lm.lanes.length = s.w → lm.leader = some lead →
      let pc := (lm.lane lead).pos.pc
      let trapped (i : Instr) (l : Nat) (info : Nat) (lane : Nat → Lane) : Prop :=
        let p := (lm.lane l).pos
        ∃ u lm', exec i s = .next (takeTrap u { cause := .sync, info := BitVec.ofNat 64 info } { pc := p.pc, npc := p.pc, hdr := p.hdr, vstart := s.warp.vstart } p.pc) ∧
          u.warp.lanes = some lm' ∧ u.warp.pos = s.warp.pos ∧ bookkept u s.warp ∧
          ∀ j, j < s.w → lm'.lane j =
            if (lm.lane j).pos.hdr = p.hdr ∧ (lm.lane j).pos.idx = p.idx ∧ ((lane j).blocked ≠ none ∨ (lane j).joinAt ≠ none)
            then { lane j with blocked := none, joined := false, joinAt := none } else lane j
      let joins (j : Nat) : Lane := if j ∈ lm.group then { lm.lane j with joined := true, joinAt := some pc } else lm.lane j
      let lowest (l : Nat) (f : Nat → Prop) : Prop := l < s.w ∧ f l ∧ ∀ j, j < l → ¬ f j
      (∀ l, (∀ j, j < s.w → j ∉ lm.group → (lm.lane j).joined = true ∨ (lm.lane j).blocked ≠ none) →
        lowest l (fun j => j ∉ lm.group ∧ (lm.lane j).blocked ≠ none) → trapped .ljoin l (l * 256 + 1) joins) ∧
      (∀ l, (∀ j, j < s.w → j ∉ lm.group → (lm.lane j).joined = true ∧ (lm.lane j).blocked = none) →
        (∃ j at', j < s.w ∧ j ∉ lm.group ∧ (lm.lane j).joinAt = some at' ∧ at' ≠ pc) →
        lowest l (fun j => j ∈ lm.group ∨ (lm.lane j).joinAt ≠ none) → trapped .ljoin l 0xFF02 joins) ∧
      ((∃ l, l < s.w ∧ l ∉ lm.group ∧ (lm.lane l).joined = false ∧ (lm.lane l).blocked = none) →
        ∃ t lm', exec .ljoin s = .next t ∧ t.warp.lanes = some lm' ∧
          (∀ l ∈ lm.group, lm'.lane l = { lm.lane l with joined := true, joinAt := some pc }) ∧
          (∀ l, l < s.w → l ∉ lm.group → lm'.lane l = lm.lane l) ∧ t.warp.pos = s.warp.pos ∧ bookkept t s.warp) ∧
      ((∀ l, l < s.w → l ∉ lm.group → (lm.lane l).joined = true ∧ (lm.lane l).blocked = none ∧
          ((lm.lane l).joinAt = none ∨ (lm.lane l).joinAt = some pc)) →
        ∃ t, exec .ljoin s = .next t ∧ t.warp.lanes = none ∧ t.warp.vl = s.warp.vl ∧ t.warp.vpad = s.warp.vpad ∧ t.warp.m = s.warp.m ∧
          (∃ l, l < s.w ∧ (l ∈ lm.group ∨ (lm.lane l).joinAt = some pc) ∧
            t.warp.pos = { hdr := (lm.lane l).pos.hdr + 8 * (((lm.lane l).pos.n : Int) + 1) }) ∧ bookkept t s.warp) ∧
      (∀ (i : BitVec 4) (a : BitVec 6), (if s.w = 64 then pairField s a = true else a.toNat < s.r) → (∀ l ∈ lm.group, (lm.lane l).counts.length = 16) →
        let c (l j : Nat) : Nat := (lm.lane l).counts.getD j 0 + if l ∈ lm.group ∧ j = i.toNat then 1 else 0
        let came (l j : Nat) (set : BitVec 64) : Prop := ∀ k, k < s.w → set.getLsbD k = true → c l j ≤ c k j
        let own (l : Nat) : BitVec 64 := laneSet s a l
        (∀ l, (∀ j, j < s.w → (j ∈ lm.group → ¬ came j i.toNat (own j)) ∧
            (j ∉ lm.group → ((lm.lane j).joined = true ∧ (lm.lane j).blocked = none) ∨ ∃ k set, (lm.lane j).blocked = some (k, set) ∧ ¬ came j k set)) →
          lowest l (fun j => j ∈ lm.group ∨ (lm.lane j).blocked ≠ none) →
          trapped (.wsync i a) l (l * 256 + 1) fun j =>
            if j ∈ lm.group then { lm.lane j with counts := (lm.lane j).counts.modify i.toNat (· + 1), blocked := some (i.toNat, own j) } else lm.lane j) ∧
        ((∃ l, l < s.w ∧ ((l ∈ lm.group ∧ came l i.toNat (own l)) ∨
          (l ∉ lm.group ∧ (lm.lane l).joined = false ∧ ∀ j set, (lm.lane l).blocked = some (j, set) → came l j set))) →
        ∃ t lm', exec (.wsync i a) s = .next t ∧ t.warp.lanes = some lm' ∧ t.warp.pos = s.warp.pos ∧ bookkept t s.warp ∧
          (∀ l ∈ lm.group, (∀ j, j < 16 → (lm'.lane l).counts.getD j 0 = c l j) ∧
            (came l i.toNat (own l) → (lm'.lane l).blocked = none ∧ (lm'.lane l).pos = (lm.lane l).pos.after) ∧
            (¬ came l i.toNat (own l) → (lm'.lane l).blocked = some (i.toNat, own l) ∧ (lm'.lane l).pos = (lm.lane l).pos)) ∧
          (∀ l, l < s.w → l ∉ lm.group →
            ((lm.lane l).blocked = none → lm'.lane l = lm.lane l) ∧
            ∀ j set, (lm.lane l).blocked = some (j, set) →
              (came l j set → lm'.lane l = { lm.lane l with blocked := none, pos := (lm.lane l).pos.after }) ∧
              (¬ came l j set → lm'.lane l = lm.lane l)))))

/-- R112, R118, R119, R345: leaving, halting, yielding and launching. The model's choices in it: logs 23 and 70. -/
def Obligations.WarpsEnd : Prop :=
  ∀ (s : State) (w : Warp) (d a b : BitVec 6), s.warp.lanes = none → s.warp.mustWait flagged = false →
    let cl := coreCluster s.warp.core
    let left (i : Instr) : Prop := ∃ t, exec i s = .next t ∧ t.warp = {} ∧ t.team.peers = s.team.peers ∧ t.team.tid = s.team.tid ∧
      t.team.k = (if s.team.peers.length ≤ s.team.launch.minw then 0 else s.team.k) ∧ t.teams = s.teams ∧ t.cores = s.cores ∧
      (cl < 52 → (clusterOf t cl).pool = (clusterOf s cl).pool + s.warp.lease) ∧ (s.team.launch.rrecord = false → t.mem = s.mem)
    (s.warp.status = .running → s.warp.commit everyFlag = (w, none) → (∀ o ∈ s.warp.pending, o.late = true → o.flag = none → o.done = true) →
      left .tleave ∧ (s.warp.intrap = true → left .haltWarp)) ∧
    (s.warp.intrap = true → ∃ t, exec (.haltTeam a) s = .next t ∧ t.warp = {} ∧ t.team.killed = true ∧ t.team.peers = [] ∧
      t.team.miles = [] ∧ t.teams = s.teams) ∧
    (s.team.preempt = false → s.warp.commit flagged = (w, none) → ∃ t, exec .yield s = .next t ∧ t = { s with warp := { w with
      pos := s.warp.pos.after, yieldOff := 5, yieldLow := 9, wait := 0, urgent := false, park := .none, service := {}, paid := false } }) ∧
    (let addr := (s.warp.readS a).toNat
     let queue := (s.warp.readS b).toNat
     (addr % 128 ≠ 0 → gives (.klaunch d a b) s d (BitVec.ofNat 64 (4 * 2 ^ 48))) ∧
     (∀ x, addr % 128 = 0 → planOf s { s.ask .read 1024 with trims := false } [{ k := 0, va := addr }] = .run [x] none → launchHeld s queue = none →
       let s1 := settle s s.team.part [x]
       let replies (v : Nat) : Prop := ∃ t, exec (.klaunch d a b) s = .next t ∧ wroteS s.warp t.warp d (BitVec.ofNat 64 v) ∧
         t.warp.pending = s.warp.stoppedS d ∧ t.warp.pos = s.warp.pos.after ∧
         UniformFrame { s with xlate := t.xlate, tables := t.tables, draws := t.draws } t
       (8 ≤ queue → replies (3 * 2 ^ 48)) ∧
       (∀ q, queue < 8 → readQueue s1 s.team.part (BitVec.ofNat 3 queue) = some q →
         (q.enable = false ∨ q.err ≠ 0#32 ∨ q.sized = false → replies (3 * 2 ^ 48)) ∧
         (q.enable = true → q.err = 0#32 → q.sized = true →
           (q.devfed = false → replies (2 * 2 ^ 48)) ∧
           (q.devfed = true → (q.tail - q.head).toNat = 2 ^ q.logsize → replies (2 ^ 48)) ∧
           (∀ s2 s3, q.devfed = true → (q.tail - q.head).toNat ≠ 2 ^ q.logsize →
             partWrite s1 s.team.part (q.base + 128 * (q.tail.toNat % 2 ^ q.logsize)) (readBytes s x.2.key x.2.kid 128) = some s2 →
             partWrite s2 s.team.part (s.part.qbase.toNat + 64 * queue + 16) (leBytes 4 (q.tail + 1#32).toNat) = some s3 →
             ∃ t, exec (.klaunch d a b) s = .next t ∧ wroteS s.warp t.warp d (BitVec.ofNat 64 q.tail.toNat) ∧ t.warp.pending = s.warp.stoppedS d ∧
               t.warp.pos = s.warp.pos.after ∧ UniformFrame { s3 with parts := t.parts } t)))))

/-! ## Events -/

/-- R29, R33, R68 to R70, R309, R336: a clause that starts, an instruction or an accepted matrix operation that completes, a cycle of a core, urgency, and the end of a class group. 17_cryogenic_and_power.md R375, R377: every charged word of Table 4, in vector mode and in lane mode, that finds no credit, its warp's lease drawn into LEVEL as well, is not dispatched; its warp waits for the toll where it stands, and nothing else changes. (A copy's own toll stands with its checks.) The model's choices in it: logs 11, 13, 54 and 55. -/
def Obligations.CoreEvents : Prop :=
  (∀ (s : State), s.team.status = .running → s.warp.status = .running →
     (∀ (w x : Warp) (h : Word) (ws : List Word) (u : State), s.warp.lanes = none → s.warp.pos.idx = 0 →
       s.warp.mustWait synchronous = false → s.warp.commit synchronous = (w, none) →
       fetchClause { s with warp := w } s.warp.intrap s.warp.pos.hdr = .got (h, ws) u →
       u.warp.mustWait (headerCovers (Header.ofBits h)) = false → u.warp.commit (headerCovers (Header.ofBits h)) = (x, none) →
       exec .clauseStart s = .next { u with warp := { x with
         pos := { x.pos with header := h, words := ws, idx := 1 }, park := .none, service := {} } }) ∧
     (∀ seq, firstOp s seq = none → exec (.instructionCompletion s.me seq) s = .next { s with warp := { s.warp with
       pending := s.warp.pending.map fun o => if o.seq = seq ∧ o.copy = none ∧ o.late = false then { o with done := true } else o } }) ∧
     (∀ seq o, firstOp s seq = some o →
       ((o.unread s).all (lineAbsent s) = true → o.unread s ≠ [] →
         exec (.instructionCompletion s.me seq) s = .next { s with draws := s.draws + 1 }) ∧
       (∀ l, o.unread s = [l] → lineAbsent s l = false →
         let r := o.effect { s with draws := s.draws + 1, team := { s.team with late := s.team.late.erase o } }
           (bufferBytes (o.buffer ++ [readLine s { key := 128 * l }]))
         ∃ t, exec (.instructionCompletion s.me seq) s = .next t ∧ t = { r.1 with warp := t.warp, team := { r.1.team with peers := t.team.peers } } ∧
           (∀ x ∈ t.warp.pending, x.seq = seq → x.done = true ∧ x.fault = r.2.2.map fun f => (f, 0)))) ∧
     (ready s = true → 32 ≤ s.warp.wait → exec (.urgent s.me) s = .next { s with warp := { s.warp with urgent := true } }) ∧
     ((ready s = false ∨ s.warp.wait < 32) → exec (.urgent s.me) s = .next s) ∧
     (∀ c cls age, corePlace c < 312 → (∀ r ∈ everyWarp s, (warpOf s r).core = c → movable (focusOn s r) = false) →
       (coreOf s c).group = some (cls, age) →
       (15 ≤ age ∨ ((coreOf s c).seen = false ∧ ∀ r ∈ everyWarp s, (warpOf s r).core = c → readyWarp s r = true → (warpOf s r).cls ≠ cls)) →
       ∃ t, exec (.classGroupClose c) s = .next t ∧ coreOf t c = { coreOf s c with group := none, closed := true } ∧
         (∀ d, corePlace d ≠ corePlace c → coreOf t d = coreOf s d) ∧ t = { s with cores := t.cores }) ∧
     (∀ c, corePlace c < 312 →
       let k := coreOf s c
       (clockRuns s (coreCluster c) = false → exec (.cycle c) s = .next s) ∧
       (clockRuns s (coreCluster c) = true →
         ∃ t, exec (.cycle c) s = .next t ∧
           coreOf t c = { k with
             cycles := k.cycles + 1#64, level := min (k.cap : Int) (k.level + (k.refill : Nat)), group := k.group.map fun g => (g.1, g.2 + 1)
             seen := false, closed := false, used := (coreOf t c).used, second := (coreOf t c).used.map (·.1) } ∧
           (∀ g n, (g, n + 1) ∈ (coreOf t c).used ↔ (g, n + 2) ∈ k.used) ∧ (∀ g, (g, 0) ∉ (coreOf t c).used) ∧
           (∀ d, corePlace d ≠ corePlace c → coreOf t d = coreOf s d) ∧ t.mem = s.mem ∧ t.parts = s.parts ∧ t.mgmt = s.mgmt ∧
           (everyWarp s = [s.me] → s.warp.core = c →
             let waits := ready s = true ∧ s.warp.taken = 0
             t = { s with cores := t.cores, warp := { s.warp with
               wait := if waits then s.warp.wait + 1 else if s.warp.yieldOff = 0 then 0 else s.warp.wait
               urgent := s.warp.urgent && decide waits, yieldOff := s.warp.yieldOff - 1, yieldLow := s.warp.yieldLow - 1, taken := s.warp.taken - 1 } })))) ∧
  (∀ (s : State) (i : Instr) (n : Nat) (cs : List Bool), tollOf s i = some n → fieldChecks s i = some cs → false ∉ cs →
     (s.warp.inLanes = true → lanePermits i = true) → unitReady s i → s.warp.dests ≤ 8 → waitsForToll i s n)

/-- R86, R87: a descriptor observed, disabled and enabled, while no engine holds its line. R44, R87, R90, R93 to R96, R99, R103: a record taken or rejected, a team placed, a warp attached, a team completed. The choice of the head and of the scratchpad bytes is the model's (log 16, DESIGN CHOICE). The model's choices in it: logs 16, 28, 61, 63, 64 and 65. -/
def Obligations.PlacementEvents : Prop :=
  (∀ (s : State) (p : BitVec 4) (q : BitVec 3) (d : QueueDesc), queueHeld s p q = none → readQueue s p q = some d →
     let x := serviceOf s p q
     let put (m : State) (y : QueueService) : State :=
       { m with parts := m.parts.set p.toNat { partOf m p with queues := (partOf m p).queues.set q.toNat y q.isLt } p.isLt }
     let fails (i : Instr) : Prop := ∃ t, exec i s = .next t ∧ (serviceOf t p q).serving = false ∧ (partOf t p).intstat.getLsbD 0 = true
     (x.serving = true → d.fault = none → exec (.tailObserved p q) s = .next (put s { x with tail := d.tail })) ∧
     (x.serving = true → d.fault ≠ none → fails (.tailObserved p q)) ∧
     (x.serving = false → exec (.tailObserved p q) s = .next s) ∧
     (d.enable = false → exec (.queueDisableWrite p q) s = .next (put s { x with enabled := false, serving := false })) ∧
     (d.enable = true → exec (.queueDisableWrite p q) s = .next s) ∧
     (x.serving = false → d.enable = true → d.err = 0#32 → d.fault = none →
       exec (.queueEnableWrite p q) s = .next (put s { x with enabled := true, serving := true, tail := d.tail })) ∧
     (x.serving = false → d.enable = true → d.err ≠ 0#32 → d.fault = none →
       readQueue (writeErr s p q 0) p q = some { d with err := 0#32 } →
       exec (.queueEnableWrite p q) s = .next (put (writeErr s p q 0) { x with enabled := true, serving := true, tail := d.tail })) ∧
     (x.serving = false → d.enable = true → d.err = 0#32 → d.fault ≠ none → fails (.queueEnableWrite p q)) ∧
     ((x.serving = true ∨ d.enable = false) → exec (.queueEnableWrite p q) s = .next s)) ∧
  (∀ (s : State),
     (∀ h s1, computeOn s = true → (∀ x ∈ allQueues, queueHead s x.1 x.2 ≠ .broken) →
       pickHead s (readyHeads s) = some h → takeHead { s with draws := s.draws + 1 } h = some s1 →
       let l := launchOf h.bytes
       let g := gridOf s h
       let ch (t : State) : LaunchChannel := (partOf t h.part).chans.get l.donech.toFin
       let status := recordStatus { s with draws := s.draws + 1 } h.bytes g
       (status = 0 → l.coop = false →
         ∃ t, exec .recordTake s = .next t ∧
           t = { s1 with grids := s.grids ++ [g], nextGrid := s.nextGrid + 1, parts := t.parts } ∧ s1.team = s.team ∧ s1.warp = s.warp ∧
           s1.teams = s.teams ∧ g.launch = l ∧ g.next = 0 ∧ g.doneId = (if l.donev then (ch s).n else 0) ∧
           (ch t).n = if l.donev then ((ch s).n + 1) % 2 ^ 48 else (ch s).n) ∧
       (∀ t, status = 0 → l.coop = true → placeWhole l.total { giveId s1 g with grids := s.grids ++ [g] } g.gid = some t →
         exec .recordTake s = .next t) ∧
       (status ≠ 0 →
         ∃ t, exec .recordTake s = .next t ∧ t.teams = s.teams ∧ (partOf t h.part).intstat.getLsbD 0 = true ∧
           (recordHeld (giveId s1 g) h.part l = false → (∀ y ∈ t.grids, y ∈ s.grids) ∧
             (l.donev = true → ch t = ({ ch s with n := ((ch s).n + 1) % 2 ^ 48 } : LaunchChannel).complete (ch s).n)) ∧
           (recordHeld (giveId s1 g) h.part l = true → t.grids = s.grids ++ [{ g with ended := true, refusal := some status }]))) ∧
     (computeOn s = false → s.mgmt.phase ≠ .warming → exec .recordTake s = .next s) ∧
     (∀ g x base, (s.grids.find? fun y => y.gid == g.gid) = some g → mayPlace s g = true →
       let l := g.launch
       let m := wipe { unfocus s with team := teamOf s g } base l.scratch
       siteFor { unfocus s with team := teamOf s g } l.initw [] = some (x, base) →
       ∃ v, exec (.teamPlacement g.gid) s = .next (refocus s v) ∧ v.warp = {} ∧ v.teams = (unfocus s).teams ∧ v.nextTeam = s.nextTeam + 1 ∧
         v.grids = s.grids.map (fun y => if y.gid = g.gid then { y with next := y.next + 1 } else y) ∧
         v.team = { teamOf s g with site := x, base := base, status := .running, order := s.nextPlace, placements := 1, peers := v.team.peers } ∧
         (∀ b, b < 16 → v.team.bar b = { e := l.initw }) ∧ v.team.peers.length = l.initw ∧
         (∀ i w, v.team.peers[i]? = some w → FreshWarp l base i (waymark m g.part l.entry).toNat w ∧
           ∀ b, b < 16 → (w.part b).member = true ∧ (w.part b).first = 0 ∧ (w.part b).last = none) ∧
         (l.rrecord = false → l.rfollow = false →
           (∀ a, Config.windowBase + base ≤ a → a < Config.windowBase + base + l.scratch → cellRead v.mem a = 0#8) ∧
           ∀ a, (a < Config.windowBase + base ∨ Config.windowBase + base + l.scratch ≤ a) → cellRead v.mem a = cellRead s.mem a)) ∧
     (s.team.status = .running → mayAttach s = true →
       let l := s.team.launch
       ∃ t w, exec (.schedulerAttach s.team.tid) s = .next t ∧ t.team.peers = s.team.peers ++ [w] ∧ t.warp = s.warp ∧ t.teams = s.teams ∧
         FreshWarp l s.team.base w.idx (waymark s s.team.part l.attach).toNat w ∧
         (∀ i, i < 64 → (∀ x ∈ s.mates, x.idx ≠ i) → w.idx ≤ i ∧ ∀ x ∈ s.mates, x.idx ≠ w.idx) ∧
         (∀ b, b < 16 → (w.part b).member = true ∧ (w.part b).first = (s.team.bar b).p + 1 ∧ (w.part b).last = none) ∧
         (l.rrecord = false → t.mem = s.mem)) ∧
     (s.team.status = .running → mayAttach s = false → exec (.schedulerAttach s.team.tid) s = .next s) ∧
     (∀ x, (unfocus s).teams.find? (fun y => y.tid == x.tid) = some x → x.peers = [] → x.miles = [] → x.late = [] → (∀ c ∈ s.copies, c.ref.team ≠ x.tid) →
       ∃ t, exec (.teamComplete x.tid) s = .next t ∧ (∀ u ∈ allTeams t, u.status ≠ .absent → u.tid ≠ x.tid) ∧
         ∀ y, s.grids = [y] → y.gid = x.gid →
           (y.ended = false → y.next < y.launch.total → ∃ z, t.grids = [z] ∧ z.teams = y.teams + 1 ∧ z.killed = (y.killed || x.killed)) ∧
           (y.next = y.launch.total → y.teams + 1 = y.next → y.launch.comprec = 0#64 → unreported x = [] →
             (∀ m ∈ (partOf s y.part).manifests, m.who ≠ .grid y.gid) →
             t.grids = [] ∧
             (y.launch.donev = true → (partOf t y.part).chans.get y.launch.donech.toFin =
               ((partOf s y.part).chans.get y.launch.donech.toFin).complete y.doneId))))

/-- R39, R97, R346 to R350, R327: requests to stop and to shrink, a warp saved whole, a team killed, and a team saved and resumed. The layout of a save block is the model's (log 34, DESIGN CHOICE). The model's choices in it: logs 5, 34, 47 and 53. -/
def Obligations.SaveEvents : Prop :=
  ∀ (s : State),
    (∀ tid x, ((allTeams s).find? fun u => u.tid == tid && u.status == .running) = some x →
      let stamp (w : Warp) : Warp := { w with stopAt := (coreOf s w.core).cycles }
      let hit (u : Team) : Bool := u.status = .running ∧ u.preempt = false ∧ (u.tid = tid ∨ (x.launch.coop = true ∧ u.gid = x.gid))
      let mark (u : Team) : Team := if hit u then { u with preempt := true, peers := u.peers.map stamp } else u
      exec (.preemptionRequest tid) s = .next
        { s with team := mark s.team, teams := s.teams.map mark, warp := if hit s.team then stamp s.warp else s.warp }) ∧
    (s.team.status = .running →
      (∀ n, exec (.shrinkRequest s.team.tid n) s = .next
        (if s.team.launch.elastic = true ∧ s.team.launch.minw < s.team.launch.maxw ∧ s.team.preempt = false then
          { s with team := { s.team with k := min (s.team.k + n) (s.count - s.team.launch.minw) } }
        else s)) ∧
      (s.warp.status = .running →
        let due := s.team.preempt = true ∧ 2 ^ 24 ≤ ((coreOf s s.warp.core).cycles - s.warp.stopAt).toNat
        (due → ∃ t, exec (.forcedFullSave s.me) s = .next t ∧ SavedWhole s.warp t.warp ∧
          t = { s with warp := t.warp, team := { s.team with k := 0 }, clusters := t.clusters, parts := t.parts } ∧
          (coreCluster s.warp.core < 52 →
            (clusterOf t (coreCluster s.warp.core)).pool = (clusterOf s (coreCluster s.warp.core)).pool + s.warp.lease) ∧
          ∀ n, n ≠ coreCluster s.warp.core → clusterOf t n = clusterOf s n) ∧
        (¬ due → exec (.forcedFullSave s.me) s = .next s))) ∧
    (s.team.status ≠ .absent →
      ∃ t, exec (.hostKill s.team.tid) s = .next t ∧
        t = { s with
          warp := {}, clusters := t.clusters, parts := t.parts, absent := t.absent,
          team := { s.team with killed := true, preempt := false, k := 0, peers := [], miles := [], copies := [], late := [] } } ∧
        (s.team.status = .running → ∀ l, lineAbsent t l = lineAbsent s l) ∧
        (∀ n, n < 52 → (clusterOf t n).pool =
          (clusterOf s n).pool + ((s.mates.filter fun w => coreCluster w.core == n).map (·.lease)).sum) ∧
        (∀ p, p ≠ s.team.part → partOf t p = partOf s p) ∧
        ∀ m ∈ (partOf t s.team.part).manifests, ∀ w ∈ s.mates, m.who ≠ .warp { team := s.team.tid, warp := w.idx }) ∧
    (∀ tid, let u := focusTeam s tid
      let n := u.team.launch.saveBytes
      u.team.tid = tid → maySave u = true →
      (saveAt u u.team.part n = none →
        ∃ v, exec (.teamSave tid) s = .next (refocus s v) ∧ v.team = u.team ∧ (partOf v u.team.part).intstat.getLsbD 7 = true ∧ v.mem = u.mem) ∧
      (∀ a, saveAt u u.team.part n = some a → (∃ l ∈ linesOf a n, lineAbsent u l = true) → exec (.teamSave tid) s = .next (refocus s u)) ∧
      (∀ a m, saveAt u u.team.part n = some a → (∀ l ∈ linesOf a n, lineAbsent u l = false) →
        physWrite { u with draws := u.draws + (blockBytes u).length } a (blockBytes u) = some m → a + (blockBytes u).length ≤ Config.windowBase →
        ∃ v, exec (.teamSave tid) s = .next (refocus s v) ∧ v.warp = {} ∧ v.teams = u.teams ∧
          v.team = { u.team with
            status := .saved, preempt := false, k := 0, image := v.team.image, copies := u.copies.filter (fun c => c.ref.team == tid),
            block := some (a, (blockBytes u).length), slots := v.team.slots, peers := u.team.peers.map fun w => { w with lease := 0 } } ∧
          (∀ i, v.team.slot i = if (u.team.slot i).grant.isSome then { u.team.slot i with acc := [], chunks := 0#64 } else {}) ∧
          v.copies = u.copies.filter (fun c => c.ref.team != tid) ∧
          (∀ b, b < u.team.launch.scratch → cellRead v.mem (Config.windowBase + u.team.base + b) = 0#8) ∧
          (scratchBad u = [] →
            (∀ b, b < u.team.launch.scratch → cellRead v.team.image b = cellRead u.mem (Config.windowBase + u.team.base + b)) ∧
            ∀ b, (b < Config.windowBase + u.team.base ∨ Config.windowBase + u.team.base + u.team.launch.scratch ≤ b) →
              cellRead v.mem b = cellRead m.mem b) ∧
          (scratchBad u ≠ [] → (partOf v u.team.part).intstat.getLsbD 6 = true)) ∧
      (∀ a, saveAt u u.team.part n = some a → (∀ l ∈ linesOf a n, lineAbsent u l = false) →
        physWrite { u with draws := u.draws + (blockBytes u).length } a (blockBytes u) = none →
        ∃ v, exec (.teamSave tid) s = .next (refocus s v) ∧ v.team = u.team ∧ (partOf v u.team.part).saveStopped = true)) ∧
    (∀ tid x base, let u := focusTeam s tid
      let l := u.team.launch
      resumedWith s tid = [tid] → u.team.tid = tid → mayResume u = true →
      siteFor u u.team.peers.length (savedExtents u.team) = some (x, base) →
      ∃ v, exec (.teamResume tid) s = .next (refocus s v) ∧ v.warp = {} ∧ v.teams = u.teams ∧
        v.team = { u.team with
          status := .running, site := x, base := base, order := u.nextPlace, placements := u.team.placements + 1, image := [], copies := [],
          block := none, peers := v.team.peers, slots := v.team.slots,
          miles := u.team.miles.map fun m => { m with core := { cls := x.cls, num := x.num } } } ∧
        (∀ y ∈ v.team.peers, ∃ w ∈ u.team.peers, WarpResumed u base w y) ∧
        (∀ i w, i < 64 → (u.team.peers.find? fun w => w.idx == i) = some w → ∃ y ∈ v.team.peers, WarpResumed u base w y) ∧
        v.copies = u.copies ++ u.team.copies.map (rebaseCopy u.team.base base l.scratch x.cluster) ∧
        (l.rrecord = false → l.rfollow = false →
          (Memory.wf u.team.image = true → ∀ b, b < l.scratch →
            cellRead v.mem (Config.windowBase + base + b) = cellRead u.team.image b) ∧
          (let place (i : BitVec 3) : Nat := (u.team.block.map (·.1)).getD 0 + l.imageAt i.toNat
           let at' : State := { u with team := { u.team with site := x } }
           (∀ i, (u.team.slot i).grant ≠ none → restoredSlot at' i (place i) ≠ none) →
           ∀ i, v.team.slot i = if (u.team.slot i).grant = none then u.team.slot i else (restoredSlot at' i (place i)).getD {}))) ∧
    (∀ (i : BitVec 3) a g (x : Slot), x.grant = some g → g.m ≠ 0 → g.m < 65536 → g.n < 65536 → x.acc.length = g.m * g.n →
      s.team.slot i = { x with acc := [], chunks := 0#64 } → Image.refusal s i (Image.ofHeader (x.imageBytes.take 64)) = none →
      physRead s a 64 = some (x.imageBytes.take 64) → physRead s (a + 64) (4 * g.m * g.n) = some (x.imageBytes.drop 64) →
      restoredSlot s i a = some { x with restored := some (g.m, g.n) })

/-- R203, R253, R262, R267 to R269, R275, R277: what the Porter and the stream engine do with what is in flight. Which of the elements that are ready perform in one step is open (R267; log 5, DESIGN CHOICE). The model's choices in it: logs 5, 30 and 54. -/
def Obligations.EngineEvents : Prop :=
  ∀ (s : State),
    (∀ c x, findCopy s c = some x → x.ref = c →
      (inContext s x = true → x.finished = false → x.parked = false → copyPlaced s x = true → (∀ op et, x.kind ≠ .train op et) →
        let hi := segmentEnd (fun k => pagesOf (eltAddrs x k)) (x.total - x.vstart) x.vstart []
        let p := probeElts s x (copyElts x x.vstart hi) {}
        (p.held = false → p.misses ≠ [] → ∃ t, exec (.copySegment c) s = .next t ∧ findCopy t c = some { x with parked := true, pins := [] } ∧
          ∃ m ∈ (partOf t x.part).manifests, m.who = .copy c) ∧
        (p.held = false → p.misses = [] → p.fault = none → x.failing = none → x.buffer = [] → x.performed = [] → x.cleared ≤ x.vstart → p.ready ≠ [] →
          (∀ r ∈ p.ready, targetError s x (readyCovers p.ready) r = none ∧ (∀ z ∈ r.dst, linkDown s z.2.key = false) ∧
            (∀ z, r.src = some z → (readLine s z.2).fails z.2 (eltBytes r.et.width) = false) ∧
            ∀ z ∈ r.src.toList ++ r.dst, lineBlocked s x (z.2.key / 128) = false) →
          ∃ t y now, exec (.copySegment c) s = .next t ∧ findCopy t c = some y ∧ x.vstart < y.cleared ∧ (∀ r ∈ now, r ∈ p.ready ∧ r.k < y.cleared) ∧
            (∀ b ∈ y.buffer, ∃ l : Loc, b = readLine s l) ∧ t.mem = (performElts y now s).mem ∧ t.warp = s.warp ∧ t.team = s.team ∧
            ((∀ r ∈ p.ready, r.dst.length ≤ 1) → ∀ n ∈ wholeBales s p.ready, (∀ r ∈ p.ready, r.inBale s n = true → r ∈ now) ∨ ∀ r ∈ now, r.inBale s n = false) ∧
            (((∀ r ∈ p.ready, r ∈ now) ∧ y.vstart = hi ∧ y.finished = decide (hi = x.total)) ∨
             (y.vstart = x.vstart ∧ y.finished = false ∧ y.performed = now.map (·.k)))) ∧
        (∀ r rest z, p.held = false → p.misses = [] → p.fault = none → x.failing = none → x.buffer = [] → x.performed = [] → x.cleared ≤ x.vstart →
          p.ready = r :: rest → r.dst.find? (fun z => linkDown s z.2.key) = some z → s.team.status = .running → s.team.tid = c.team →
          s.warp.status = .running →
          ∃ t y rep, exec (.copySegment c) s = .next t ∧ findCopy t c = some y ∧ y.finished = true ∧ y.held = [] ∧ y.vstart = r.k ∧
            rep.info.setWidth 8 = 0x42#8 ∧ t.team.chan c.ch = (s.team.chan c.ch).fail (channelError c.id r.k rep)) ∧
        (∀ k r, p.held = false → p.misses = [] → p.fault = some (k, r) → x.failing = none → p.ready = [] → s.team.status = .running → s.team.tid = c.team →
          s.warp.status = .running →
          ∃ t y, exec (.copySegment c) s = .next t ∧ findCopy t c = some y ∧ y.finished = true ∧ y.held = [] ∧ y.vstart = k ∧
            t.team.chan c.ch = (s.team.chan c.ch).fail (channelError c.id k r))) ∧
      (∀ op et, inContext s x = true → x.kind = .train op et → x.finished = false → x.parked = false → copyPlaced s x = true → x.trains = [] → x.failing = none →
        (x.vstart < x.cleared → ∃ t y, exec (.copySegment c) s = .next t ∧ findCopy t c = some y ∧ y.vstart = x.cleared ∧
          y.finished = decide (x.cleared = x.total) ∧ t = { s with copies := t.copies }) ∧
        (∀ z, x.cleared ≤ x.vstart → sortEntries s op et (x.total - x.vstart) { copy := x, next := x.vstart } = z → z.blocked = false → z.misses = [] →
          ∃ t y, exec (.copySegment c) s = .next t ∧ findCopy t c = some y ∧ y.trains = z.items ∧ y.cleared = z.next ∧ y.failing = z.failing ∧
            y.vstart = x.vstart ∧ t.mem = s.mem ∧ t.warp = s.warp ∧ t.team = s.team)) ∧
      (∀ m, (partOf s x.part).manifests.find? (fun m => m.complete && m.who == .copy c) = some m → m.who = .copy c →
        ∃ t y, exec (.copyResume c) s = .next t ∧ findCopy t c = some y ∧ y.parked = false ∧ y.failed = x.failed ++ m.failedPages ∧
          (partOf t x.part).manifests = (partOf s x.part).manifests.erase m ∧ t.mem = s.mem) ∧
      (∀ op et e, x.kind = .train op et → x.trains.find? (fun y => deliverable s x y.dest) = some e →
        let items := x.trains.filter fun y => y.dest == e.dest && x.trains.all fun o => !overLinkAt s o.loc.key || o.dest == e.dest || y.k < o.k
        ((∀ y ∈ items, linkDown s y.loc.key = false) →
          ∃ t y, exec (.trainDelivery c) s = .next t ∧ t.mem = (items.foldl (deliverEntry op et) s).mem ∧
            findCopy t c = some y ∧ y.trains = x.trains.filter fun y => !items.contains y) ∧
        (∀ z, items.find? (fun y => linkDown s y.loc.key) = some z →
          ∃ t y r, exec (.trainDelivery c) s = .next t ∧ t = { s with copies := t.copies } ∧ findCopy t c = some y ∧
            y.trains = x.trains.filter (fun y => y.k < z.k) ∧ y.failing = (x.failing.filter fun f => f.1 < z.k).or (some (z.k, r)) ∧
            r.cause = .machineCheck ∧ r.info.setWidth 8 = 0x42#8)) ∧
      (x.finished = true → x.held = [] → x.trains = [] → s.team.status = .running → s.team.tid = c.team → s.warp.status = .running →
        let done (w : Warp) : Warp := { w with pending := w.pending.map fun o => if o.copy = some c then { o with done := true } else o }
        ∃ t, exec (.copyComplete c) s = .next t ∧ t.team.chan c.ch = (s.team.chan c.ch).complete c.id ∧
          (∀ k, k ≠ c.ch → t.team.chan k = s.team.chan k) ∧ t.copies = s.copies.filter (fun y => y.ref != c) ∧
          t.warp = done s.warp ∧ t.team.peers = s.team.peers.map done ∧
          t = { s with copies := t.copies, warp := t.warp, team := { s.team with chans := t.team.chans, peers := t.team.peers } })) ∧
    (∀ line c, s.copies.find? (fun c => c.arrived.contains line && c.held.contains line) = some c →
      (∀ o ∈ s.copies, o.ref ≠ c.ref → line ∉ o.held) → (∀ k ∈ keptLines s, line ∉ k.2) →
      (∀ p, (partOf s p).errWait = [] ∧ (partOf s p).wbWait = [] ∧ ∀ m ∈ (partOf s p).manifests, m.written = true) →
      ∃ t, exec (.lineArrival line) s = .next t ∧ lineAbsent t line = false ∧ (∀ k, k ≠ line → lineAbsent t k = lineAbsent s k) ∧
        t = { s with copies := t.copies, absent := t.absent } ∧
        t.copies = s.copies.map fun o =>
          if o.ref = c.ref then { c with held := c.held.filter (· != line), arrived := c.arrived.filter (· != line) } else o) ∧
    (∀ r, s.warp.status = .running → s.team.status = .running →
      let x := s.warp.stream r
      let q := { s.ask (if x.store then .write else .read) x.et.width with failed := [], pins := [] }
      let elt (j : Nat) : Elt := { k := 0, va := (x.place j).1, bit := (x.place j).2 }
      let inRun (j : Nat) : Prop := x.defined = true ∧ x.p ≤ j ∧ j < x.p + x.range
      ∃ t, exec (.runAhead s.me r) s = .next t ∧ t.mem = s.mem ∧ (∀ k, k ≠ r → t.warp.stream k = s.warp.stream k) ∧
        (t.warp.stream r).plain = x.plain ∧ t = { s with warp := { s.warp with st := t.warp.st }, xlate := t.xlate, tables := t.tables, draws := t.draws } ∧
        (∀ a ∈ (t.warp.stream r).ahead, a ∈ x.ahead ∨ (inRun a.elem ∧ x.store = false ∧
          ∃ l, checkFresh s q true (elt a.elem) = .ok l ∧ l.mt ≠ 2 ∧ a.key = l.key ∧
            a.bits = (loadElt s x.et.width (elt a.elem, l)).setWidth 32)) ∧
        (∀ h ∈ (t.warp.stream r).held, h ∈ x.held ∨ (inRun h.1 ∧
          ((∃ rep, h.2 = .fault rep) ∨ s.warp.park ≠ .manifest ∧ ∃ m, checkFresh s q true (elt h.1) = .miss m ∧ h.2 = .miss m.stage m.level m.addr m.table)))) ∧
    (∀ cell kid turn, everyWarp s = [s.me] → s.team.status = .running → s.warp.status = .running → s.warp.park = .cell cell kid turn →
      awake s = true → exec (.redordUnpark cell) s = .next { s with warp := { s.warp with park := .none } })

/-- R218, R229 to R231, R381, R383: responses to manifests and page requests, reissue, head registers, and invalidations. The model's choices in it: logs 22 and 55. -/
def Obligations.ServiceEvents : Prop :=
  ∀ (s : State) (part : BitVec 4),
    let p := partOf s part
    let put (q : Partition) : State := { s with parts := s.parts.set part.toNat q part.isLt }
    let up := s.mgmt.linkUp = true
    (∀ (failmask : BitVec 14) (mid : BitVec 32) (fail : Bool) (tag v : BitVec 32), s.mgmt.linkUp = false →
      ∀ i ∈ [Instr.fqresp part failmask mid, .prresp part fail tag, .fqheadWrite part v, .prqheadWrite part v, .wbrheadWrite part v, .errheadWrite part v],
        exec i s = .next { s with outbox := s.outbox ++ [.response none] }) ∧
    (∀ (failmask : BitVec 14) mid, up → exec (.fqresp part failmask mid) s = .next (put (
      if p.manifests.any fun m => m.answers mid then
        { p with manifests := (p.manifests.map fun m =>
            if m.answers mid then
              { m with waitS1 := false
                       failed := m.failed ++ (m.records.zipIdx.filter fun r => r.1.stage == 1 && failmask.getLsbD r.2).map (·.2) }
            else m).filter fun m => !(m.complete && m.who == .gone) }
      else { p with fq := { p.fq with bad := true } }))) ∧
    (∀ fail tag, up →
      (s.mgmt.holding = true → exec (.prresp part fail tag) s = .next { s with agenda := s.agenda ++ [.prresp part fail tag] }) ∧
      (s.mgmt.holding = false →
        ((∀ r ∈ p.requests, r.1 ≠ tag) → exec (.prresp part fail tag) s = .next (put { p with prq := { p.prq with bad := true } })) ∧
        ((∃ r ∈ p.requests, r.1 = tag) →
          exec (.prresp part fail tag) s = .next (put { p with
            requests := p.requests.filter (fun r => r.1 != tag)
            manifests := (p.manifests.map fun m =>
              if tag ∈ m.waitTags then
                { m with
                  waitTags := m.waitTags.filter (· != tag)
                  failed := if fail then m.failed ++ (m.records.zipIdx.filter fun r => r.1.stage == 2 && r.1.tag == tag).map (·.2) else m.failed }
              else m).filter fun m => !(m.complete && m.who == .gone) })))) ∧
    (∀ mid m, p.manifests.find? (fun m => m.complete && m.mid == mid) = some m → m.who = .warp s.me → s.team.status = .running →
      s.warp.status = .running →
      exec (.faultReissue part mid) s = .next { put { p with manifests := p.manifests.erase m } with
        warp := { s.warp with service := { s.warp.service with failed := s.warp.service.failed ++ m.failedPages } } }) ∧
    (∀ v, up → s.grids = [] → (∀ m ∈ p.manifests, m.written = true) → p.wbWait = [] → p.errWait = [] →
      exec (.fqheadWrite part v) s = .next (put { p with fq :=
        if (p.fq.tail - v).toNat ≤ (p.fq.tail - p.fq.head).toNat then { p.fq with head := v } else { p.fq with bad := true } }) ∧
      exec (.prqheadWrite part v) s = .next (put { p with prq :=
        if (p.prq.tail - v).toNat ≤ (p.prq.tail - p.prq.head).toNat then { p.prq with head := v } else { p.prq with bad := true } }) ∧
      exec (.wbrheadWrite part v) s = .next (put { p with wbr :=
        if (p.wbr.tail - v).toNat ≤ (p.wbr.tail - p.wbr.head).toNat then { p.wbr with head := v } else p.wbr }) ∧
      exec (.errheadWrite part v) s = .next (put { p with err :=
        if (p.err.tail - v).toNat ≤ (p.err.tail - p.err.head).toNat then { p.err with head := v } else p.err })) ∧
    (∀ n i, s.invalidations.find? (fun i => i.num == n) = some i →
      let free := ∀ q ps, (q, ps) ∈ pinners s → ∀ c ∈ ps, i.hits c = true → q ∉ i.holders ∧ c.current s = true
      (free → exec (.invalidationComplete n) s = .next { s with
        xlate := s.xlate.filter fun c => !i.hits c, tables := s.tables.filter fun c => !i.hitsEntry c,
        invalidations := s.invalidations.filter fun j => j.num != n }) ∧
      (¬ free → exec (.invalidationComplete n) s = .next s)) ∧
    (∀ r, ∃ hs, exec (.hostInvalidation part r) s = .next { s with
        invalidations := s.invalidations ++ [{ num := s.nextInv, part := part, range := r, holders := hs }], nextInv := s.nextInv + 1 } ∧
      ∀ q, q ∈ hs ↔ ∃ ps, (q, ps) ∈ pinners s ∧ ∃ c ∈ ps, Invalidation.hits { num := s.nextInv, part := part, range := r, holders := [] } c = true)

/-- R361: the stream of a bale, whatever stands behind it in its last sector, decompresses to the bale, and its mode words determine its length. -/
def Obligations.BaleStreams : Prop :=
  ∀ (x rest : List (BitVec 8)), x.length = 2048 →
    decompress (baleStream x ++ rest) = x ∧ streamLen (baleStream x ++ rest) = (baleStream x).length

/-- R200, R358, R359, R362 to R366, R374: bales written, merged and read at the controller, lines evicted with an error, and the scrub. Which partition owns a lost address (log 36, DEDUCED), and the size of a row (log 20, DESIGN CHOICE), are the model's. R247, R373, R380, R381, R389: links that fail and recover, register reads, and requests on device memory. The model's choices in it: logs 8, 9, 10, 20, 22, 36, 42 and 56. -/
def Obligations.MemoryEvents : Prop :=
  (∀ (s : State) (n : Nat) (baled : Bool) (key : BitVec 9), Memory.wf s.mem = true → baleThere s n = true →
     let k := key.toNat
     let sound := s.bad = [] ∧ s.badMap = [] ∧ mapBad s n = false ∧ storedError s n k = false ∧ (∀ p, (partOf s p).errWait = []) ∧
       ∀ d ∈ s.dirty, d.line / 2048 = n → d.bad = [] ∧ keyPair s d.kid = keyPair s k
     let silent (u : State) : Prop := ∀ p, (partOf u p).err.log = 0
     (sound → ∀ data : List (BitVec 8), data.length = 2048 →
       ∃ t, exec (.baleWholeWrite n data baled key) s = .next t ∧
         (∀ i, i < 2048 → readByte t (2048 * n + i) k = data.getD i 0#8) ∧
         (∀ a kid, (a < 2048 * n ∨ 2048 * n + 2048 ≤ a) → readByte t a kid = readByte s a kid) ∧
         formOf t n = (if baled then baleForm data else 8) ∧ (∀ j, j ≠ n → formOf t j = formOf s j) ∧ t.warp = s.warp ∧ t.parts = s.parts) ∧
     (mapBad s n = true → ∀ data : List (BitVec 8), data.length = 2048 →
       ∃ t, exec (.baleWholeWrite n data baled key) s = .next t ∧ t.outbox = s.outbox ++ [.response none] ∧ t.mem = s.mem) ∧
     (sound → ∀ (off : Nat) (data : List (BitVec 8)), off + data.length ≤ 2048 → off < 2048 →
       ∃ t, exec (.baleMerge (2048 * n + off) data baled key) s = .next t ∧
         (∀ i, i < data.length → readByte t (2048 * n + off + i) k = data.getD i 0#8) ∧
         (∀ i, i < 2048 → (i < off ∨ off + data.length ≤ i) → readByte t (2048 * n + i) k = readByte s (2048 * n + i) k) ∧
         (∀ a kid, (a < 2048 * n ∨ 2048 * n + 2048 ≤ a) → readByte t a kid = readByte s a kid) ∧
         ((∀ d ∈ s.dirty, d.line / 2048 ≠ n) →
           formOf t n = if baled then baleForm ((List.range 2048).map fun i => readByte t (2048 * n + i) k) else 8) ∧
         (∀ j, j ≠ n → formOf t j = formOf s j) ∧ t.warp = s.warp ∧ t.parts = s.parts) ∧
     (∀ (off : Nat) (data : List (BitVec 8)), off + data.length ≤ 2048 → off < 2048 → silent s → (∀ d ∈ s.dirty, d.line / 2048 ≠ n) →
       storedError s n k = true → (baled = true ∨ formOf s n ≠ 8) →
       ∃ t, exec (.baleMerge (2048 * n + off) data baled key) s = .next t ∧ formOf t n = 8 ∧
         (∀ i, i < 2048 → readByte t (2048 * n + i) k = if off ≤ i ∧ i < off + data.length then data.getD (i - off) 0#8 else 0#8) ∧
         ∃ p, (partOf t p).intstat.getLsbD 6 = true) ∧
     (let good := mapBad s n = false ∧ errorAt s (2048 * n) k 2048 = false
      (good → exec (.baleRead n key) s = .next { s with
        outbox := s.outbox ++ [.response (some ((List.range 2048).map fun i => readByte s (2048 * n + i) k))] }) ∧
      (¬ good → ∃ t, exec (.baleRead n key) s = .next t ∧ t.outbox = s.outbox ++ [.response none] ∧ t.mem = s.mem ∧
        ∀ g ∈ t.bad, g ∈ s.bad ∧ g / 256 ≠ n)) ∧
     (s.mgmt.band = 0 → s.bad = [] → s.badMap = [] → exec (.patrolScrub n) s = .next s) ∧
     (s.mgmt.band ≠ 0 → exec (.patrolScrub n) s = .next s) ∧
     (∀ g, silent s → s.mgmt.band = 0 →
       (s.bad = [g] → g / 256 = n → s.badMap = [] → ∃ t, exec (.patrolScrub n) s = .next t ∧ t.bad = [] ∧ t.mem = s.mem ∧
         ∃ p, (partOf t p).intstat.getLsbD 6 = true) ∧
       (s.bad = [] → s.badMap = [n] → ∃ t, exec (.patrolScrub n) s = .next t ∧ t.badMap = [] ∧ t.mem = s.mem ∧
         ∃ p, (partOf t p).intstat.getLsbD 6 = true)) ∧
     (∀ d line, silent s → dirtyAt s (128 * line) = some d → d.bad ≠ [] → (regionOf s (128 * line) = .dram → storedError s (line / 16) d.kid = false) →
       ∃ t, exec (.uncorrectableEviction line) s = .next t ∧ (∀ x ∈ t.dirty, x.line ≠ 128 * line) ∧ (∀ g ∈ t.bad, g / 16 ≠ line) ∧
         (∀ i, i < 128 → readByte t (128 * line + i) d.kid = cellRead s.mem (128 * line + i)) ∧ ∃ p, (partOf t p).intstat.getLsbD 6 = true)) ∧
  (∀ (s : State) (port : BitVec 3) (part : BitVec 4),
     let answer (data : Option (List Byte)) : State := { s with outbox := s.outbox ++ [.response data] }
     let on := s.mgmt.holding = false ∧ s.mgmt.band ≠ 3 ∧ s.mgmt.phase ≠ .off
     let free (ls : List Loc) : Prop := ∀ l ∈ ls, lineAbsent s (l.key / 128) = false
     let readable (ls : List Loc) : Prop := free ls ∧ ∀ l ∈ ls, errorAt s l.key l.kid 1 = false
     let writable (ls : List Loc) : Prop := free ls ∧ (∀ l ∈ ls, brokenAt s l.key = false) ∧ placesError s ls = false
     (∀ p, let held := s.agenda.filter (cameOver p)
       ∃ t, exec (.linkFailure p) s = .next t ∧ t.outbox = s.outbox ++ List.replicate held.length (.response none) ∧
         t.agenda = s.agenda.filter (fun i => !cameOver p i) ∧
         t = { s with outbox := t.outbox, agenda := t.agenda, mgmt := { s.mgmt with linkUp := t.mgmt.linkUp, portsUp := t.mgmt.portsUp } } ∧
         t.mgmt.linkUp = (s.mgmt.linkUp && p.isSome) ∧
         ∀ j, j < 8 → t.mgmt.portsUp.getLsbD j = (s.mgmt.portsUp.getLsbD j && p != some (BitVec.ofNat 3 j))) ∧
     (∀ p, ∃ t, exec (.linkRecovery p) s = .next t ∧
         t = { s with mgmt := { s.mgmt with linkUp := t.mgmt.linkUp, portsUp := t.mgmt.portsUp } } ∧
         t.mgmt.linkUp = (s.mgmt.linkUp || p.isNone) ∧
         ∀ j, j < 8 → t.mgmt.portsUp.getLsbD j = (s.mgmt.portsUp.getLsbD j || p == some (BitVec.ofNat 3 j))) ∧
     (∀ r, s.mgmt.linkUp = false → exec (.hostWindowAccess r) s = .next (answer none)) ∧
     (∀ off, s.mgmt.linkUp = true →
       exec (.hostWindowAccess (.readRegister none part off)) s = .next (answer (some (leBytes 8 (readBlock (partOf s part) off.toNat).toNat))) ∧
       exec (.hostWindowAccess (.readRegister (some part) part off)) s = .next (answer (some (leBytes 8 (readBlock (partOf s part) off.toNat).toNat))) ∧
       ∀ other, other ≠ part → exec (.hostWindowAccess (.readRegister (some other) part off)) s = .next (answer none)) ∧
     (s.mgmt.linkUp = true → exec (.hostWindowAccess (.readGlobal 0x0100#16)) s = .next (answer (some (leBytes 8
       (s.mgmt.phase.code + ((List.range 52).filter (clusterOn s)).length * 2 ^ 32))))) ∧
     (∀ vf addr len data, s.mgmt.linkUp = true →
       (∀ ls, on → windowPlaces s vf .read addr.toNat len = some ls → readable ls →
         exec (.hostWindowAccess (.read vf addr len)) s = .next (answer (some (ls.map fun l => readByte s l.key l.kid)))) ∧
       (∀ ls, on → windowPlaces s vf .write addr.toNat (List.length data) = some ls → writable ls →
         ∃ t, exec (.hostWindowAccess (.write vf addr data)) s = .next t ∧ t.outbox = s.outbox ++ [.response (some [])] ∧
           t.mem = (placesWrite s ls data).mem ∧ t.parts = (placesWrite s ls data).parts ∧ t.warp = s.warp) ∧
       (on → windowPlaces s vf .read addr.toNat len = none →
         exec (.hostWindowAccess (.read vf addr len)) s = .next
           (if windowWaits s vf .read addr.toNat len = true then { s with agenda := s.agenda ++ [.hostWindowAccess (.read vf addr len)] } else answer none)) ∧
       ∀ r ∈ [HostReq.read vf addr len, .write vf addr data],
         (s.mgmt.holding = true → exec (.hostWindowAccess r) s = .next { s with agenda := s.agenda ++ [.hostWindowAccess r] }) ∧
         (s.mgmt.holding = false → (s.mgmt.band = 3 ∨ s.mgmt.phase = .off) → exec (.hostWindowAccess r) s = .next (answer none))) ∧
     (∀ pa len data, on →
       (∀ ls, peerPlaces s port pa.toNat len = some ls → readable ls →
         exec (.peerRequest (.read port pa len)) s = .next (answer (some (ls.map fun l => readByte s l.key l.kid)))) ∧
       (∀ ls, peerPlaces s port pa.toNat (List.length data) = some ls → writable ls →
         ∃ t, exec (.peerRequest (.write port pa data)) s = .next t ∧ t.outbox = s.outbox ++ [.response (some [])] ∧
           t.mem = (placesWrite s ls data).mem ∧ t.parts = (placesWrite s ls data).parts ∧ t.warp = s.warp) ∧
       (∀ et ls l, peerPlaces s port pa.toNat (eltBytes et.width) = some ls → ls.head? = some l → free ls →
         writeError s l true (fun _ => false) = false → pa.toNat % eltBytes et.width = 0 →
         let x : Elt × Loc := ({ k := 0, va := 0 }, l)
         let old := loadElt s et.width x
         let does (r : PeerReq) (new : Option Word) : Prop := exec (.peerRequest r) s = .next
           (let t := match new with
             | some v => storeElt s et.width x v
             | none => s
            { t with outbox := t.outbox ++ [.response (some (leBytes (eltBytes et.width) old.toNat))] })
         (∀ op v, op.etOk et = true → does (.atomic port pa op et v) (atomValue op et .rne old (lowBits et.width v))) ∧
         (∀ a b, et ∈ [ET.int32, .uint32, .fp32, .int64] →
           does (.cas port pa et a b) (if old = lowBits et.width a then some (lowBits et.width b) else none)))) ∧
     (∀ r, peerPort r = port → on → s.mgmt.portsUp.getLsbD port.toNat = false → (∀ p op et, r ≠ .train p op et []) →
       exec (.peerRequest r) s = .next (answer none)))

/-- R382, R383, R216, R290, R381: writes of partition and global registers; what a VF may not write it does not change; with the link down no write happens. R387, R388, R405: key commands and slot changes, and the hold of a partition. The model's choices in it: logs 9 and 37. -/
def Obligations.RegisterEvents : Prop :=
  (∀ (s : State) (part : BitVec 4) (v : Word),
     let p := partOf s part
     let put (q : Partition) : State := { s with parts := s.parts.set part.toNat q part.isLt }
     let writes (r : PlainReg) (q : Partition) : Prop := exec (.registerWrite true part r v) s = .next (put q)
     let down (n : Nat) : Word := BitVec.ofNat 64 (v.toNat / n * n)
     let field (lo limit : Nat) : Nat := if v.toNat / 2 ^ lo % 256 ≤ limit then v.toNat / 2 ^ lo % 256 else 0
     let bit (n : Nat) : Bool := v.getLsbD n
     (s.mgmt.linkUp = false → ∀ (pf : Bool) (r : PlainReg) (a : AddrReg) (w : BitVec 32),
       ∀ i ∈ [Instr.registerWrite pf part r v, .addressRegisterWrite pf part a v, .keyRangeWrite part w],
         exec i s = .next { s with outbox := s.outbox ++ [.response none] }) ∧
     (s.mgmt.linkUp = true →
       writes .capq { p with capq := if v.toNat % 16 < 8 then BitVec.ofNat 4 v.toNat else 0#4 } ∧
       writes .tcap { p with tcap := BitVec.ofNat 64 (field 0 32 + 2 ^ 8 * field 8 32 + 2 ^ 16 * field 16 8 + 2 ^ 32 * field 32 32 +
         2 ^ 40 * field 40 32 + 2 ^ 48 * field 48 1) } ∧ writes .trapvec { p with trapvec := v } ∧ writes .savesize { p with savesize := v } ∧ writes .xlctl { p with s2en := v.getLsbD 0 } ∧
       writes .s1root { p with s1root := v &&& 0x000FFFFFFFFC0000#64 } ∧ writes .s2root { p with s2root := v &&& 0x000FFFFFFFFF0000#64 } ∧
       writes .intstat { p with intstat := p.intstat &&& ~~~(v.setWidth 10) } ∧ writes .inten { p with inten := v.setWidth 10 } ∧
       writes .wmcount { p with wmcount := v.setWidth 16 } ∧ writes .wbfcount { p with wbfcount := v.setWidth 32 } ∧
       writes .fqstat { p with fq := { p.fq with ovf := p.fq.ovf && !v.getLsbD 0, bad := p.fq.bad && !v.getLsbD 1 } } ∧
       writes .prqstat { p with prq := { p.prq with ovf := p.prq.ovf && !v.getLsbD 0, bad := p.prq.bad && !v.getLsbD 1 } } ∧
       (∀ port, exec (.registerWrite true part (.peerkey port) v) s = .next { s with mgmt := { s.mgmt with
         peerkey := s.mgmt.peerkey.set port.toNat (v.setWidth 9) port.isLt } }) ∧
       (∀ r ∈ [PlainReg.trapvec, .s1root, .intstat, .inten, .fqctl, .fqstat],
         exec (.registerWrite false part r v) s = exec (.registerWrite true part r v) s) ∧
       (∀ r ∈ [PlainReg.capq, .tcap, .savesize, .xlctl, .s2root, .prqctl, .prqstat, .wbrctl, .wbfcount, .errlog, .wmcount],
         exec (.registerWrite false part r v) s = .next s) ∧
       (∀ r, r ≠ .fqbase → exec (.addressRegisterWrite false part r v) s = .next s) ∧
       exec (.addressRegisterWrite true part .savebase v) s = .next (put { p with savebase := down 4096, saveStopped := false }) ∧
       exec (.addressRegisterWrite true part .wbfbase v) s = .next (put { p with wbfbase := down 32 }) ∧
       exec (.addressRegisterWrite true part .wmbase v) s = .next (put { p with wmbase := down 32 }) ∧
       exec (.addressRegisterWrite true part .qbase v) s = .next (put { p with qbase := down 512, queues := Vector.replicate 8 {} }) ∧
       (s.grids = [] → (∀ m ∈ p.manifests, m.written = true) → p.wbWait = [] → p.errWait = [] →
         writes .fqctl { p with fq := { p.fq with en := bit 4, log := v.toNat % 16 } } ∧
         writes .prqctl { p with prq := { p.prq with en := bit 4, log := v.toNat % 16 } } ∧
         writes .wbrctl { p with wbr := { p.wbr with en := bit 5, log := v.toNat % 32 } } ∧
         writes .errlog { p with err := { p.err with log := v.toNat % 16 } } ∧
         ∀ pf : Bool,
           exec (.addressRegisterWrite pf part .fqbase v) s = .next (put { p with fq := { p.fq with base := down 256, stopped := false } }) ∧
           (pf = true →
             exec (.addressRegisterWrite pf part .prqbase v) s = .next (put { p with prq := { p.prq with base := down 32, stopped := false } }) ∧
             exec (.addressRegisterWrite pf part .wbrbase v) s = .next (put { p with wbr := { p.wbr with base := down 32, stopped := false } }) ∧
             exec (.addressRegisterWrite pf part .errbase v) s = .next (put { p with err := { p.err with base := down 32, stopped := false } }))) ∧
       (∀ w : BitVec 32, exec (.keyRangeWrite part w) s = .next (put { p with
         keybase := w.extractLsb' 0 9,
         keycnt := if w.toNat % 512 = 0 ∨ 512 < w.toNat % 512 + w.toNat / 65536 % 512 then 0#9 else w.extractLsb' 16 9 })))) ∧
  (∀ (s : State) (slot : BitVec 9) (part : BitVec 4),
     let p := partOf s part
     let accepted := slot ≠ 0#9 ∧ s.mgmt.busy = none
     let word (i : Nat) : Nat := (s.mgmt.keydata.toList.getD i 0#64).toNat
     (s.mgmt.linkUp = true →
       (accepted → ∃ pair, exec (.keycmdLoad slot) s = .next { s with mgmt := { s.mgmt with busy := some (slot, pair) } } ∧
         ∀ i, i < 8 → pair.toNat / 2 ^ (64 * i) % 2 ^ 64 = word i) ∧
       (accepted → ∃ pair, exec (.keycmdRandom slot) s = .next { s with mgmt := { s.mgmt with busy := some (slot, pair) }, draws := s.draws + 1 }) ∧
       (¬ accepted → exec (.keycmdLoad slot) s = .next s ∧ exec (.keycmdRandom slot) s = .next { s with draws := s.draws + 1 })) ∧
     (s.mgmt.linkUp = false → exec (.keycmdLoad slot) s = .next { s with outbox := s.outbox ++ [.response none] }) ∧
     (∀ pair, s.mgmt.busy = some (slot, pair) →
       ∃ t, exec (.keySlotChange slot) s = .next t ∧
         t = { s with mgmt := { s.mgmt with busy := none, keydata := Vector.replicate 8 0#64, keys := t.mgmt.keys } } ∧
         keyPair t slot.toNat = pair ∧ ∀ k, k ≠ slot.toNat → keyPair t k = keyPair s k) ∧
     ((∀ pair, s.mgmt.busy ≠ some (slot, pair)) → exec (.keySlotChange slot) s = .next s) ∧
     (s.mgmt.linkUp = false → ∀ i ∈ [Instr.holdSet part, .holdClear part], exec i s = .next { s with outbox := s.outbox ++ [.response none] }) ∧
     (s.mgmt.linkUp = true → ∃ t, exec (.holdSet part) s = .next t ∧ (partOf t part).hold = true ∧ (∀ q, q ≠ part → partOf t q = partOf s q) ∧
       (∀ u ∈ allTeams t, u.status = .running → u.part = part → u.preempt = true) ∧
       t = { s with parts := t.parts, team := t.team, teams := t.teams, warp := { s.warp with stopAt := t.warp.stopAt } }) ∧
     (s.mgmt.linkUp = true → exec (.holdClear part) s = .next { s with parts := s.parts.set part.toNat { p with hold := false } part.isLt }))

/-- R357, R368, R369, R371, R373, R375, R377: the band follows TMAX, and the management state follows Table 3. That POWER_UP in band 0 goes at once to SOAK (log 45), what a package reset leaves (log 46) and when the band may fall (log 51) are the model's. R368, R375, R377, R378, R390 to R392: sensors, tolls, pools, and the commands of the management controller. The widths of SEQ and STATE in an attestation are the model's (log 66, DESIGN CHOICE). The model's choices in it: logs 22, 43, 44, 45, 46, 49, 50, 51 and 66. -/
def Obligations.PowerEvents : Prop :=
  (∀ (s : State),
     let goes (i : Instr) (p : Phase) : Prop := ∃ t, exec i s = .next t ∧ t.mgmt.phase = p ∧ t.mgmt.band = s.mgmt.band
     (s.mgmt.phase = .off → s.mgmt.band ≤ 4 → goes .powerUp (if recordGood s.mgmt.stored = false then .off
         else if s.mgmt.band = 4 then .bench else if s.mgmt.band = 0 then .soak else .cooling)) ∧
     (s.mgmt.phase = .soak → s.mgmt.band = 0 → goes .soakEnd .train) ∧
     (s.mgmt.phase = .train → ∀ f, ∃ t, exec (.train f) s = .next t ∧ t.mgmt.phase = .ready ∧ t.mgmt.band = s.mgmt.band ∧ t.bales = [] ∧
       t.badMap = [] ∧ t.mgmt.config = s.mgmt.stored ∧ t.mgmt.failed = f) ∧
     (s.mgmt.phase = .ready → s.mgmt.band ≤ 1 → ∃ t, exec .enableCompute s = .next t ∧ t.mgmt.phase = .run ∧ t.mgmt.band = s.mgmt.band ∧
       (∀ n, n < 52 → (clusterOf t n).pool = 0) ∧
       ∀ c, corePlace c < 312 → (coreOf t c).cap % 1024 = 0 ∧ 1024 ≤ (coreOf t c).cap ∧ (coreOf t c).cap ≤ (if c.cls = .m then 65536 else 8192) ∧
         1 ≤ (coreOf t c).refill ∧ (coreOf t c).refill ≤ 4095) ∧
     (s.mgmt.phase = .excursion → placedTeams s = [] → (s.mgmt.band = 2 ∨ s.mgmt.band = 3) → goes .excursionSaved .retreat) ∧
     (s.mgmt.phase = .bench → placedTeams s = [] → s.mgmt.band = 3 → goes .excursionSaved .cooling) ∧
     (s.mgmt.phase = .warming → allKilled s = true → goes .warmingDone .off) ∧
     (s.mgmt.phase ∈ [Phase.bench, .cooling, .ready, .run, .retreat] → goes .warmUp .warming ∧
       (s.mgmt.holding = true → ∃ t, exec .warmUp s = .next t ∧ t.mgmt.holding = false ∧ (∀ vf a n, Instr.hostWindowAccess (.read vf a n) ∉ t.agenda) ∧
         (∀ vf a d, Instr.hostWindowAccess (.write vf a d) ∉ t.agenda) ∧ ∀ r, Instr.peerRequest r ∉ t.agenda)) ∧
     (s.mgmt.band < 4 → bandUpper s.mgmt.band < tmax s →
       let b := if tmax s ≤ 100 then 1 else if tmax s ≤ 140 then 2 else if tmax s ≤ 250 then 3 else 4
       ∃ t, exec .bandRise s = .next t ∧ t.mgmt.band = b ∧ (b ≤ 2 → t.mgmt.holding = false) ∧
         (b = 3 → s.mgmt.phase ≠ .warming → t.mgmt.holding = true) ∧ (b = 4 → s.mgmt.phase ≠ .retreat → t.mgmt.holding = s.mgmt.holding) ∧
         (s.mgmt.phase = .run → t.mgmt.phase = if b ≤ 1 then .run else .excursion) ∧ (s.mgmt.phase = .soak → t.mgmt.phase = .cooling) ∧
         (s.mgmt.phase = .retreat → b = 4 → t.mgmt.phase = .warming) ∧
         (s.mgmt.phase = .run → 2 ≤ b → everyWarp s = [s.me] → s.team.status = .running → s.warp.status = .running →
           t.team.preempt = true ∧ t.warp.status = .savedWhole ∧ t.warp.s = s.warp.s ∧ t.warp.v = s.warp.v ∧ t.warp.m = s.warp.m ∧
           t.warp.pos = s.warp.pos)) ∧
     (0 < s.mgmt.band → s.mgmt.band ≤ 4 → tmax s + 3 ≤ bandUpper (s.mgmt.band - 1) →
       ∃ t, exec .bandFall s = .next t ∧ t.mgmt.band = s.mgmt.band - 1 ∧ (s.mgmt.band ≤ 3 → t.mgmt.holding = false) ∧
         (s.mgmt.band = 4 → s.mgmt.phase ≠ .warming → t.mgmt.holding = true) ∧
         (s.mgmt.phase = .retreat → t.mgmt.phase = if s.mgmt.band ≤ 2 then .run else .retreat) ∧
         (s.mgmt.phase = .cooling → s.mgmt.band = 1 → t.mgmt.phase = .soak)) ∧
     (∃ t, exec .packageReset s = .next t ∧ t.mgmt.phase = .off ∧ t.mgmt.band = 0 ∧ tmax t = 0 ∧ t.warp = {} ∧ t.team = {} ∧ t.teams = [] ∧
       t.grids = [] ∧ t.copies = [] ∧ t.parts = State.reset.parts ∧ t.cores = State.reset.cores ∧ t.clusters = State.reset.clusters ∧ t.absent = [] ∧
       t.bales = [] ∧ t.badMap = [] ∧ t.mgmt.stored = s.mgmt.stored ∧ t.mgmt.keys = s.mgmt.keys)) ∧
  (∀ (s : State),
     let replies (i : Instr) (bs : List (BitVec 8)) : Prop := exec i s = .next { s with mgmt := { s.mgmt with reply := bs } }
     (∀ rs : List (BitVec 8), rs.length = 224 → exec (.sensorReading rs) s = .next { s with mgmt := { s.mgmt with sensors := rs } }) ∧
     (s.mgmt.phase = .run → exec .ageingReplan s = .next { s with draws := s.draws + 1 }) ∧
     (∀ c cap refill, corePlace c < 312 → cap % 1024 = 0 → 1024 ≤ cap → cap ≤ (if c.cls = .m then 65536 else 8192) → 1 ≤ refill → refill ≤ 4095 →
       ∃ t, exec (.tollSettingChange c cap refill) s = .next t ∧ coreOf t c = { coreOf s c with cap := cap, refill := refill } ∧
         (∀ d, corePlace d ≠ corePlace c → coreOf t d = coreOf s d) ∧ t = { s with cores := t.cores }) ∧
     (∀ n x, n < 52 → s.mgmt.band = 0 → (clusterOf s n).pool + x < 2 ^ 32 →
       ∃ t, exec (.poolFill n x) s = .next t ∧ (clusterOf t n).pool = (clusterOf s n).pool + x ∧
         (∀ k, k ≠ n → clusterOf t k = clusterOf s k) ∧ t = { s with clusters := t.clusters }) ∧
     (∀ n x, s.mgmt.band ≠ 0 → exec (.poolFill n x) s = .next s) ∧
     replies .readSensors s.mgmt.sensors ∧
     (∀ nonce : BitVec 256,
       let body := leBytes 32 nonce.toNat ++ leBytes 32 Config.controllerHash.toNat ++ leBytes 32 Config.computeHash.toNat ++
         leBytes 32 (Config.recordHash s.mgmt.stored).toNat ++ leBytes 8 s.mgmt.stored.seq ++ leBytes 1 s.mgmt.phase.code
       exec (.attest nonce) s = .next { s with
         draws := s.draws + 1
         mgmt := { s.mgmt with reply := body ++ leBytes 64 (Config.deviceSignature s.draws body).toNat ++ Config.deviceCertificate } }) ∧
     (∃ f, f ≤ (if s.mgmt.band = 0 then 2400 else if s.mgmt.band = 1 then 2000 else 300) ∧ (s.mgmt.phase = .off → f = 0) ∧
       exec .readBandAndState s = .next { s with
         draws := s.draws + 1,
         mgmt := { s.mgmt with reply := leBytes 6 (min (tmax s) 255 * 2 ^ 40 + f * 2 ^ 20 + s.mgmt.phase.code * 2 ^ 12 + s.mgmt.band) } }) ∧
     (s.mgmt.log = [] → replies .readManagementLog []) ∧
     (∀ e rest, s.mgmt.log = e :: rest → exec .readManagementLog s = .next { s with
       mgmt := { s.mgmt with reply := e.bytes s.mgmt.logSeq, log := rest, logSeq := s.mgmt.logSeq + 1 } }) ∧
     (∃ bs, replies .readUnitMap bs ∧ bs.length = 8 + 52 + 416 ∧ ∀ n, n < 52 → (leValue (bs.take 8)).testBit n = clusterOn s n) ∧
     (∀ r,
       let formed := r.magic = 0x5A574346#32 ∧ r.cores.length = 52 ∧ r.columns.length = 208
       (¬ formed → replies (.writeConfigurationRecord r) [3#8]) ∧
       (formed → s.mgmt.stored.seq < r.seq → exec (.writeConfigurationRecord r) s = .next { s with
         mgmt := (if Config.signatureGood r = true then { s.mgmt with stored := r, reply := [0#8] } else { s.mgmt with reply := [1#8] }) }) ∧
       (formed → r.seq ≤ s.mgmt.stored.seq → replies (.writeConfigurationRecord r) [if Config.signatureGood r = true then 2#8 else 1#8])))

/-! ## Assembly and code objects (03_assembly_language.md, 19_code_objects.md) -/

/-- R395, R399, R406: the clause-relative relocations have one value at every base, the low parts at every base that is a multiple of 8; `ADRC` of the first and `ADDI` of the second form the target exactly, rounding toward negative infinity; an address maps through the lowest-numbered waymark entry that holds it. The model's choices in it: log 14. -/
def Obligations.CodeObjects : Prop :=
  (∀ (o : CodeObject) (c c' : LoadContext) r, r.type = 3 ∨ r.type = 5 → o.relocValue c r = o.relocValue c' r) ∧
  (∀ (o : CodeObject) (c c' : LoadContext) r, c.base % 8 = 0 → c'.base % 8 = 0 → r.type = 4 ∨ r.type = 6 →
    o.relocValue c r = o.relocValue c' r) ∧
  (∀ (o : CodeObject) (c : LoadContext) r r' y s, (c.base + r.offset) % 8 = 0 → r.type = 3 → r'.type = 4 → r'.sym = r.sym → r'.addend = r.addend →
    o.symbols[r.sym]? = some y → o.addressOf c.base y = some s →
    ∃ v w, o.relocValue c r = some v ∧ o.relocValue c r' = some w ∧ 0 ≤ w ∧ w < 8 ∧
      ((c.base + r.offset : Nat) - 8 * r.wix : Int) + 8 * v + w = s + r.addend) ∧
  (∀ (xs : List Waymark) a b, throughWaymarks xs a = some b ↔ ∃ (i : Nat) (x : Waymark), xs[i]? = some x ∧ x.old ≤ a ∧ a < x.old + x.len ∧ b = x.new + (a - x.old) ∧
    ∀ (j : Nat) (y : Waymark), j < i → xs[j]? = some y → a < y.old ∨ y.old + y.len ≤ a)

/-- R29, R60: a clause of one to seven words is placed, after padding clauses that wait on nothing and name no flag, so that every clause stands within one aligned 4 KiB block and no header position is left 8 bytes before a block end; an automatic clause may gain one `NOP`. -/
def Obligations.ClausesPlaced : Prop :=
  let fits (a : Ghas.Asm) : Prop := a.pos % 8 = 0 ∧ a.pos % 4096 ≠ 4088 ∧ ∀ c ∈ a.placed, c.offset % 8 = 0 ∧ 1 ≤ c.words.length ∧ c.words.length ≤ 7 ∧
    c.header.n.toNat = c.words.length ∧ c.offset % 4096 + 8 * (c.words.length + 1) ≤ 4096
  ∀ (a : Ghas.Asm) (o : Ghas.OpenClause), fits a → 1 ≤ o.words.length → o.words.length ≤ 7 →
    fits (a.place o) ∧
    ∃ pads c, (a.place o).placed = a.placed ++ pads ++ [c] ∧ (a.place o).pos = c.offset + 8 * (c.words.length + 1) ∧
      (∀ p ∈ pads, p.words = List.replicate p.words.length none ∧ p.header.wait = 0#12 ∧ p.header.setA = 15#4 ∧ p.header.setB = 15#4 ∧
        p.header.yld = 0#2 ∧ p.header.cls = 1#3) ∧
      (c.words = o.words.map some ∨ o.auto = true ∧ c.words = o.words.map some ++ [none]) ∧
      c.header.setA = BitVec.ofNat 4 o.setA ∧ c.header.setB = BitVec.ofNat 4 o.setB ∧ c.header.wait = BitVec.ofNat 12 o.wait

/-! ## The machine as a whole -/

/-- The words of the core instructions decode as they are encoded, every operand at every value its encoding admits, and a word that decodes is the encoding of what it decodes to; clause headers likewise. -/
def Obligations.DecodeEncode : Prop :=
  (∀ i w, i.wf = true → encode i = some w → decodeWord { setA := true, setB := true } w = .ok i) ∧
  (∀ ctx w i, decodeWord ctx w = .ok i → i.wf = true ∧ encode i = some w) ∧
  (∀ h, Header.ofBits (Header.toBits h) = h) ∧ (∀ a w, headerCheck a w = none → Header.toBits (Header.ofBits w) = w)

/-- Words written out from the spec's encodings decode to the instructions they stand for. -/
def Obligations.DecodeWords : Prop :=
  decodeTableWord 64 0x0600_2080_0000_0003 = some (.addi 2#6 2#6 3#32) ∧
  decodeTableWord 64 0x4000_9040_0000_0026 = some (.setvl 9#6 1#6 .int4 2#3 0#2) ∧
  decodeTableWord 64 0x4100_0040_FFFF_FFF8 = some (.svloop 1#6 (BitVec.ofInt 32 (-8))) ∧
  decodeTableWord 64 0xB400_A042_2408_0000 = some (.redord .rne 10#6 1#6 2#6 9#6) ∧
  decodeTableWord 64 0x0400_9000_0000_5FA2 = some (.adrc 9#6 0x5FA2#32) ∧
  decodeTableWord 64 0x2300_0040_0000_0000 = some (.brnz 1#6 0#32)

/-- The management state and the band agree after every step (17_cryogenic_and_power.md R368, R371). The model's choices in it: log 50. -/
def Obligations.StepKeepsLegal : Prop := ∀ s t, s.legal = true → step s = .next t → t.legal = true

/-- Memory keeps its canonical form at every step. The model's choices in it: log 1. -/
def Obligations.StepKeepsMemory : Prop := ∀ s t, s.memoryWf = true → step s = .next t → t.memoryWf = true

/-- Memory of canonical form: bytes written at consecutive addresses read back and no other address changes; where no bale is compressed, a little-endian number stored under a key reads back under that key, least significant byte at the lowest address, and every other byte reads as before under every key (00_scope.md R3); memories that read alike are equal. The model's choices in it: logs 1 and 9. -/
def Obligations.MemoryReadsBack : Prop :=
  (∀ mem a bs, Memory.wf mem = true → cellsRead (cellsWrite mem a bs) a bs.length = bs ∧
    ∀ c, (c < a ∨ a + bs.length ≤ c) → cellRead (cellsWrite mem a bs) c = cellRead mem c) ∧
  (∀ (s : State) pa kid n v, s.memoryWf = true → s.bales = [] → readLE (writeLE s pa kid n v) pa kid n = v % 256 ^ n ∧
    (∀ i, i < n → (readByte (writeLE s pa kid n v) (pa + i) kid).toNat = v / 256 ^ i % 256) ∧
    ∀ a k, (a < pa ∨ pa + n ≤ a) → readByte (writeLE s pa kid n v) a k = readByte s a k) ∧
  (∀ m n, Memory.wf m = true → Memory.wf n = true → (∀ a, cellRead m a = cellRead n a) → m = n)

/-- What reset leaves where the spec gives a value (09 R184; 10 R216, whose S2EN = 1 the reset value 0 of 18 R382 contradicts, log 81; 15 R336; 16 R357; 17 R369, R371, R377; 18 R382); the hard-wired registers (R43); legal states and canonical memory hold at reset. The model's choices in it: logs 1, 2 and 81. -/
def Obligations.ResetState : Prop :=
  let s := State.reset
  s.absent = [] ∧ s.mgmt.phase = .off ∧ s.mgmt.band = 0 ∧ tmax s = 0 ∧ (∀ n, freqOf s n = 0) ∧ (∀ n, formOf s n = 8 ∧ mapBad s n = false) ∧ (∀ n, (clusterOf s n).pool = 0) ∧ (∀ c, (coreOf s c).cycles = 0#64) ∧
  (∀ p, let q := partOf s p
    q.qbase = 0#64 ∧ q.s2en = true ∧ q.s1root = 0#64 ∧ q.s2root = 0#64 ∧ q.fq = {} ∧ q.prq = {} ∧ q.wbr = {} ∧ q.err = {} ∧
    q.capq = 0#4 ∧ q.tcap = 0#64 ∧ q.keycnt = 0#9 ∧ q.trapvec = 0#64 ∧ q.intstat = 0#10 ∧ q.inten = 0#10) ∧
  s.legal = true ∧ s.memoryWf = true ∧
  (∀ (w : Warp) v, w.readS 0#6 = 0#64 ∧ (w.setS 0#6 v).s = w.s) ∧
  (∀ (w : Warp) v, w.readM 0#3 = BitVec.allOnes 1024 ∧ (w.setM 0#3 v).m = w.m)

/-- R31, R67, R68: a step of a warp that is ready and has its slot runs the word it stands at, as decoded under its clause's header, or takes the trap of the word that is refused; a step of an agent runs that agent's event. Among warps that compete for a slot of a core the one that moves is urgent, else in the open class group, else any, a warp in a YLD window last; then the one that has waited longest, then the one in the lowest slot. Whose turn comes next among cores and agents is the model's (log 4, DESIGN CHOICE). R29, R342: the word that a fetch gives is the one that memory holds at its address, while no instruction cache answers. The model's choices in it: logs 4, 8, 55, 71 and 73. -/
def Obligations.StepRuns : Prop :=
  (∀ (s : State),
     (s.agentTurn = false → movable s = true →
       (∀ r, s.warp.due = some r → step s = .next (endTurn (takeTrap s r
         { pc := s.warp.at.pc, npc := s.warp.at.pc, hdr := s.warp.at.hdr, vstart := s.warp.vstart } s.warp.at.pc))) ∧
       (s.warp.due = none → s.warp.at.idx = 0 → step s = onNext (exec .clauseStart s) endTurn) ∧
       (∀ w, s.warp.due = none → s.warp.at.idx ≠ 0 → s.warp.at.word = some w →
         (∀ i, decodeWord s.warp.at.context w = .ok i →
           step s = onNext (exec i s) fun t => endTurn (afterIssue s (afterReissue s t))) ∧
         (∀ r, decodeWord s.warp.at.context w = .error r →
           step s = .next (endTurn (afterIssue s (afterReissue s (trapHere s { cause := .illegal, info := r.code.setWidth 64 } s.warp.vstart))))))) ∧
     (movable s = true ↔ ready s = true ∧ (s.warp.due ≠ none ∨ s.warp.at.idx = 0 ∨
       (s.warp.taken = 0 ∧ ∀ u ∈ (coreOf s s.warp.core).used, u.1 ≠ (slotNeeded s).group))) ∧
     ((s.agentTurn = true ∨ movable s = false) →
       (∀ i u, nextEvent s = some (i, u) → step s = onNext (exec i u) endTurn) ∧ (nextEvent s = none → step s = .next (endTurn s))) ∧
     (∀ group rs r, chosen s group rs = some r → r ∈ rs ∧ ∀ q ∈ rs,
       let x := warpOf s q
       let y := warpOf s r
       let tierOf (w : Warp) : Nat := if w.urgent = true ∨ 32 ≤ w.wait then 0 else if w.yieldLow ≠ 0 then 3 else if group.map Prod.fst = some w.cls then 1 else 2
       tierOf y < tierOf x ∨ (tierOf y = tierOf x ∧ (x.wait < y.wait ∨ (x.wait = y.wait ∧ y.slot ≤ x.slot))))) ∧
  (∀ (s : State) (priv : Bool) (va : Int) (l : Loc), checkFresh s (fetchAsk s priv) true { k := 0, va := va } = .ok l →
     cachedWords s s.team.part (va54 va / 128) = none → errorAt s l.key l.kid 8 = false → absentIn s l.key 8 = none →
     l.key % 128 = va54 va % 128 → va54 va % 8 = 0 →
     ∃ u, fetchWord s priv va = .got (BitVec.ofNat 64 (readLE s l.key l.kid 8)) u ∧ u.mem = s.mem ∧ u.warp = s.warp ∧ u.team = s.team)
end

