-- ==== Sys2Proof/Laws/Array.lean ====
section
/-! SUPPORT. The CIM array: its slots keep an operand whole, and its digit slices form the exact products. -/
namespace Sys2Proof.Machine
open Sys2Proof

theorem zipWith_mul_sum (x : Int) : ∀ ws ds : List Int,
    (List.zipWith (fun w d => w * (d * x)) ws ds).sum = (List.zipWith (· * ·) ws ds).sum * x
  | [], _ => by simp
  | _ :: _, [] => by simp
  | w :: ws, d :: ds => by simp [zipWith_mul_sum x ws ds]; ring

theorem partialProduct_eq (aty bty : ET) (a : LaneWord) (c : ArraySlot) :
    partialProduct aty bty a c = (List.zipWith (· * ·) (sliceWeights aty) (sliceDigits aty a)).sum * c.significand bty :=
  zipWith_mul_sum _ _ _

theorem binary_weigh : ∀ n : Fin 2048,
    (List.zipWith (· * ·) (sliceWeights .fp16) (binaryDigits 11 n)).sum = (n : Int) ∧
    (n < 256 → (List.zipWith (· * ·) (sliceWeights .bf16) (binaryDigits 8 n)).sum = (n : Int)) ∧
    (n < 16 → (List.zipWith (· * ·) (sliceWeights .e4m3) (binaryDigits 4 n)).sum = (n : Int)) ∧
    (n < 4 → (List.zipWith (· * ·) (sliceWeights .e2m1) (binaryDigits 2 n)).sum = (n : Int)) := by decide +kernel

theorem fullSignificand_lt (et : ET) (x : LaneWord) : fullSignificand et x < 2 ^ ((fmtOf et).mbits + 1) := by
  simp only [fullSignificand, FloatFmt.magnitude, pow_succ]
  have := Nat.mod_lt (x.toNat % 2 ^ ((fmtOf et).ebits + (fmtOf et).mbits)) (Nat.two_pow_pos (fmtOf et).mbits)
  split <;> dsimp only <;> omega

/-- The digits of a floating element of A, at their weights, give its significand. -/
theorem digits_float {aty : ET} (h : aty.isTileFloat = true) (a : LaneWord) :
    (List.zipWith (· * ·) (sliceWeights aty) (sliceDigits aty a)).sum = (fullSignificand aty a : Int) := by
  have hlt := fullSignificand_lt aty a
  cases aty <;> simp only [ET.isTileFloat, Bool.false_eq_true] at h
  case bf16 => exact (binary_weigh ⟨_, lt_trans hlt (by decide)⟩).2.1 hlt
  case fp16 => exact (binary_weigh ⟨_, hlt⟩).1
  case e4m3 => exact (binary_weigh ⟨_, lt_trans hlt (by decide)⟩).2.2.1 hlt
  case e5m2 => exact (binary_weigh ⟨_, lt_trans hlt (by decide)⟩).2.2.1 (show fullSignificand .e5m2 a < 16 from lt_trans hlt (by decide))
  case e2m1 => exact (binary_weigh ⟨_, lt_trans hlt (by decide)⟩).2.2.2 hlt

theorem int8_weigh : ∀ x : BitVec 8,
    (List.zipWith (· * ·) (sliceWeights .int8) (sliceDigits .int8 (x.setWidth 32))).sum = signedOf 8 (x.setWidth 32) ∧
    (x.toNat < 16 → (List.zipWith (· * ·) (sliceWeights .int4) (sliceDigits .int4 (x.setWidth 32))).sum = signedOf 4 (x.setWidth 32)) ∧
    (x.toNat < 4 → (List.zipWith (· * ·) (sliceWeights .int2) (sliceDigits .int2 (x.setWidth 32))).sum = signedOf 2 (x.setWidth 32)) := by decide +kernel

theorem testBit_low (x : LaneWord) {b i : Nat} (h : i < b) (hb : b ≤ 32) : x.toNat.testBit i = ((x.setWidth b).setWidth 32 : LaneWord).toNat.testBit i := by
  simp only [BitVec.testBit_toNat, BitVec.getLsbD_setWidth]
  simp [h, show i < 32 by omega]

theorem getLsbD_low (x : LaneWord) {b i : Nat} (h : i < b) (hb : b ≤ 32) : x.getLsbD i = ((x.setWidth b).setWidth 32 : LaneWord).getLsbD i := testBit_low x h hb

theorem binaryDigits_low (b : Nat) (x : LaneWord) (hb : b ≤ 32) :
    binaryDigits b x.toNat = binaryDigits b ((x.setWidth b).setWidth 32 : LaneWord).toNat := by
  refine List.map_congr_left fun i hi => ?_
  rw [testBit_low x (by simpa using hi) hb]

theorem signedOf_low (b : Nat) (x : LaneWord) (hb : b ≤ 32) : signedOf b x = signedOf b ((x.setWidth b).setWidth 32) := by
  have : ((x.setWidth b).setWidth 32 : LaneWord).toNat = x.toNat % 2 ^ b := by
    rw [BitVec.toNat_setWidth, BitVec.toNat_setWidth]
    exact Nat.mod_eq_of_lt (lt_of_lt_of_le (Nat.mod_lt _ (Nat.two_pow_pos b)) (Nat.pow_le_pow_right (by decide) hb))
  simp only [signedOf, this, Nat.mod_mod]

theorem widen4 : ∀ y : BitVec 4, (y.setWidth 8).setWidth 32 = y.setWidth 32 := by decide
theorem widen2 : ∀ y : BitVec 2, (y.setWidth 8).setWidth 32 = y.setWidth 32 := by decide
theorem small4 : ∀ y : BitVec 4, (y.setWidth 8).toNat < 16 := by decide
theorem small2 : ∀ y : BitVec 2, (y.setWidth 8).toNat < 4 := by decide

/-- The digits of an integer element of A, at their weights, give its value. -/
theorem digits_int {aty : ET} (h : aty.isTileInt = true) (a : LaneWord) :
    (List.zipWith (· * ·) (sliceWeights aty) (sliceDigits aty a)).sum = intValue aty a := by
  cases aty <;> simp only [ET.isTileInt, Bool.false_eq_true] at h
  case int8 =>
    have hd : sliceDigits .int8 a = sliceDigits .int8 ((a.setWidth 8).setWidth 32) := by
      refine List.map_congr_left fun i hi => ?_
      have hi : i < 4 := by simpa using hi
      simp only [radix4Digit]
      rw [getLsbD_low a (show 2 * i - 1 < 8 by omega) (by decide), getLsbD_low a (show 2 * i < 8 by omega) (by decide),
        getLsbD_low a (show 2 * i + 1 < 8 by omega) (by decide)]
    rw [hd, (int8_weigh (a.setWidth 8)).1]
    exact (signedOf_low 8 a (by decide)).symm
  case int4 =>
    have hd : sliceDigits .int4 a = sliceDigits .int4 (((a.setWidth 4).setWidth 8 : BitVec 8).setWidth 32) := by
      rw [widen4]
      exact binaryDigits_low 4 a (by decide)
    rw [hd, (int8_weigh _).2.1 (small4 _), widen4]
    exact (signedOf_low 4 a (by decide)).symm
  case int2 =>
    have hd : sliceDigits .int2 a = sliceDigits .int2 (((a.setWidth 2).setWidth 8 : BitVec 8).setWidth 32) := by
      rw [widen2]
      exact binaryDigits_low 2 a (by decide)
    rw [hd, (int8_weigh _).2.2 (small2 _), widen2]
    exact (signedOf_low 2 a (by decide)).symm


theorem slotBytes (bty : ET) (x : LaneWord) (h : bty.isTileFloat = true) :
    let f := fmtOf bty
    let c := arraySlot bty x
    c.sig.toNat / 128 = x.toNat / 2 ^ (f.ebits + f.mbits) % 2 ∧ c.exponent bty = x.toNat / 2 ^ f.mbits % 2 ^ f.ebits ∧
      c.fraction bty = x.toNat % 2 ^ f.mbits := by
  have hb (b : Bool) (n : Nat) : (BitVec.ofBool b ++ BitVec.ofNat 7 n : BitVec 8).toNat = b.toNat * 128 + n % 128 := by
    rw [BitVec.toNat_append, BitVec.toNat_ofBool, BitVec.toNat_ofNat, Nat.shiftLeft_eq, mul_comm,
      ← Nat.two_pow_add_eq_or_of_lt (Nat.mod_lt n (by decide)), mul_comm]
  have hm (i : Nat) : (x.getLsbD i).toNat = x.toNat / 2 ^ i % 2 := Nat.toNat_testBit _ _
  cases bty <;> simp only [ET.isTileFloat, Bool.false_eq_true] at h
  case fp16 =>
    simp only [arraySlot, sigByte, sidecarByte, ArraySlot.exponent, ArraySlot.fraction, restBits, padBits, fmtOf, ET.isTileInt, hb, hm,
      BitVec.toNat_ofNat, Bool.false_eq_true, if_false, Nat.reduceSub, Nat.reduceAdd, Nat.reducePow, Nat.mul_one, Nat.div_one]
    have h1 := Nat.mod_lt x.toNat (show 0 < 8 by decide)
    have h2 : (x.toNat / 1024 % 32 + 32 * (x.toNat % 8)) % 256 = x.toNat / 1024 % 32 + 32 * (x.toNat % 8) := by omega
    have h3 : (x.toNat / 1024 % 32 + 32 * (x.toNat % 8)) / 32 = x.toNat % 8 := by omega
    have h4 : (x.toNat / 32768 % 2 * 128 + x.toNat % 1024 / 8 % 128) % 128 = x.toNat % 1024 / 8 := by omega
    rw [h2, h3, h4]
    omega
  all_goals
    simp only [arraySlot, sigByte, sidecarByte, ArraySlot.exponent, ArraySlot.fraction, restBits, padBits, fmtOf, ET.isTileInt, hb, hm,
      BitVec.toNat_ofNat, Bool.false_eq_true, if_false, Nat.reduceSub, Nat.reduceAdd, Nat.reducePow, Nat.mul_one, Nat.div_one]
    omega


theorem mod_two_pow_split (x e m : Nat) : x % 2 ^ (e + m) = x / 2 ^ m % 2 ^ e * 2 ^ m + x % 2 ^ m := by
  rw [add_comm e m, pow_add, Nat.mod_mul, add_comm, mul_comm]

/-- What a slot keeps of a floating element is its low bits. -/
theorem slotCode_float {bty : ET} (h : bty.isTileFloat = true) (x : LaneWord) :
    ((arraySlot bty x).code bty).toNat = x.toNat % 2 ^ ((fmtOf bty).ebits + (fmtOf bty).mbits + 1) := by
  have hs := slotBytes bty x h
  have hi : bty.isTileInt = false := by cases bty <;> simp_all [ET.isTileFloat, ET.isTileInt]
  have hw : (fmtOf bty).ebits + (fmtOf bty).mbits + 1 ≤ 32 := by cases bty <;> decide
  have e1 (n : Nat) : x.toNat % 2 ^ (n + 1) = x.toNat / 2 ^ n % 2 * 2 ^ n + x.toNat % 2 ^ n := by
    rw [pow_succ, Nat.mod_mul, add_comm, mul_comm]
  have e2 : x.toNat % 2 ^ ((fmtOf bty).ebits + (fmtOf bty).mbits + 1) < 2 ^ 32 :=
    lt_of_lt_of_le (Nat.mod_lt _ (Nat.two_pow_pos _)) (Nat.pow_le_pow_right (by decide) hw)
  simp only [ArraySlot.code, hi, Bool.false_eq_true, if_false, hs, BitVec.toNat_ofNat]
  rw [add_assoc, ← mod_two_pow_split, ← e1, Nat.mod_eq_of_lt e2]

/-- The value of a floating element rests on its low bits. -/
theorem value_low (f : FloatFmt) (x y : LaneWord) (h : y.toNat = x.toNat % 2 ^ (f.ebits + f.mbits + 1)) : f.value y = f.value x := by
  have h1 : y.toNat % 2 ^ (f.ebits + f.mbits) = x.toNat % 2 ^ (f.ebits + f.mbits) := by
    rw [h, Nat.mod_mod_of_dvd _ (pow_dvd_pow 2 (Nat.le_succ _))]
  have h2 : y.getLsbD (f.ebits + f.mbits) = x.getLsbD (f.ebits + f.mbits) := by
    rw [BitVec.getLsbD, BitVec.getLsbD, h, Nat.testBit_mod_two_pow]
    simp
  simp only [FloatFmt.value, h1, h2]

theorem slotValue_float {bty : ET} (h : bty.isTileFloat = true) (x : LaneWord) :
    elemValue bty ((arraySlot bty x).code bty) = elemValue bty x := by
  have hv := value_low (fmtOf bty) x _ (slotCode_float h x)
  cases bty <;> simp_all [ET.isTileFloat, elemValue, ET.isInt]

/-- The magnitude that a column multiplies is the significand of the element. -/
theorem slotSignificand_float {bty : ET} (h : bty.isTileFloat = true) (x : LaneWord) :
    ((arraySlot bty x).significand bty).natAbs = fullSignificand bty x := by
  have hs := slotBytes bty x h
  have hi : bty.isTileInt = false := by cases bty <;> simp_all [ET.isTileFloat, ET.isTileInt]
  have he : x.toNat % 2 ^ ((fmtOf bty).ebits + (fmtOf bty).mbits) / 2 ^ (fmtOf bty).mbits = x.toNat / 2 ^ (fmtOf bty).mbits % 2 ^ (fmtOf bty).ebits := by
    rw [add_comm, pow_add, Nat.mod_mul_right_div_self]
  have hf : x.toNat % 2 ^ ((fmtOf bty).ebits + (fmtOf bty).mbits) % 2 ^ (fmtOf bty).mbits = x.toNat % 2 ^ (fmtOf bty).mbits :=
    Nat.mod_mod_of_dvd _ (pow_dvd_pow 2 (Nat.le_add_left _ _))
  have hn (b : Bool) (n : Nat) : (if b = true then -(n : Int) else n).natAbs = n := by cases b <;> simp
  simp only [ArraySlot.significand, hi, Bool.false_eq_true, if_false, fullSignificand, FloatFmt.magnitude, he, hf, beq_iff_eq]
  rw [hn, hs.2.1, hs.2.2]
  split <;> simp [add_comm]

theorem slot_int : ∀ x : BitVec 8,
    let y : LaneWord := x.setWidth 32
    let good (w : Nat) (bty : ET) : Prop := x.toNat < 2 ^ w →
      (arraySlot bty y).sig.toInt = signedOf w y ∧ signedOf w ((arraySlot bty y).code bty) = signedOf w y
    good 8 .int8 ∧ good 4 .int4 ∧ good 2 .int2 := by decide +kernel

theorem arraySlot_low {bty : ET} (h : bty.isTileInt = true) (x : LaneWord) :
    arraySlot bty x = arraySlot bty (((x.setWidth bty.width).setWidth 8).setWidth 32) := by
  have : bty.width ≤ 32 := by cases bty <;> simp_all [ET.isTileInt, ET.width]
  have hw : (((x.setWidth bty.width).setWidth 8).setWidth 32 : LaneWord) = (x.setWidth bty.width).setWidth 32 := by
    cases bty <;> simp only [ET.isTileInt, Bool.false_eq_true] at h <;> ext i hi <;> simp [ET.width]
  simp only [arraySlot, sigByte, sidecarByte, h, if_true]
  rw [signedOf_low _ x this, hw]

theorem slotValue_int {bty : ET} (h : bty.isTileInt = true) (x : LaneWord) :
    (arraySlot bty x).sig.toInt = intValue bty x ∧ intValue bty ((arraySlot bty x).code bty) = intValue bty x := by
  have hl := arraySlot_low h x
  cases bty <;> simp only [ET.isTileInt, Bool.false_eq_true] at h <;> rw [hl] <;>
    simp only [intValue, ET.isSigned, if_true, ET.width]
  case int8 =>
    rw [signedOf_low 8 x (by decide)]
    have := (slot_int ((x.setWidth 8).setWidth 8)).1 (BitVec.isLt _)
    simpa using this
  case int4 =>
    rw [signedOf_low 4 x (by decide)]
    have := (slot_int ((x.setWidth 4).setWidth 8)).2.1 (small4 _)
    rwa [widen4] at this ⊢
  case int2 =>
    rw [signedOf_low 2 x (by decide)]
    have := (slot_int ((x.setWidth 2).setWidth 8)).2.2 (small2 _)
    rwa [widen2] at this ⊢


/-- An M-core's array forms the exact product of two elements: the digit slices and the bytes of its slots are visible in no result (13 R299, R302). -/
@[simp] theorem columnProduct_eq {aty bty : ET} (h : (aty.isTileFloat && bty.isTileFloat) || (aty.isTileInt && bty.isTileInt)) (a b : LaneWord) :
    columnProduct aty bty a (arraySlot bty b) = ((elemValue aty a).mul (elemValue bty b)).1 := by
  have hv : elemValue bty ((arraySlot bty b).code bty) = elemValue bty b := by
    rcases (by simpa using h) with ⟨-, hb⟩ | ⟨-, hb⟩
    · exact slotValue_float hb b
    · cases bty <;> simp only [ET.isTileInt, Bool.false_eq_true] at hb <;>
        exact congrArg Exact.ofInt (slotValue_int rfl b).2
  have hm {et : ET} (hf : et.isTileFloat = true) {x : LaneWord} {n : Bool} {m : Nat} {e : Int} (hx : elemValue et x = .fin n m e) :
      fullSignificand et x = m := by
    have hx' : (fmtOf et).value x = .fin n m e := by cases et <;> simp_all [ET.isTileFloat, elemValue, ET.isInt]
    simp only [FloatFmt.value] at hx'
    split at hx' <;> split at hx' <;> (try split at hx') <;> first | (cases hx'; rfl) | cases hx'
  have hz {et : ET} (hi : et.isTileInt = true) {x : LaneWord} {n : Bool} {m : Nat} {e : Int} (hx : elemValue et x = .fin n m e) :
      (intValue et x).natAbs = m := by
    have hx' : Exact.ofInt (intValue et x) = .fin n m e := by cases et <;> simp_all [ET.isTileInt, elemValue, ET.isInt]
    cases hx'
    rfl
  unfold columnProduct
  rw [hv]
  cases ha' : elemValue aty a <;> cases hb' : elemValue bty b <;> try rfl
  simp only [Exact.mul, Exact.fin.injEq, true_and, and_true, partialProduct_eq, Int.natAbs_mul]
  rcases (by simpa using h) with ⟨ha, hb⟩ | ⟨ha, hb⟩
  · rw [digits_float ha, slotSignificand_float hb, hm hb hb', Int.natAbs_natCast, hm ha ha']
  · have hs : (arraySlot bty b).significand bty = intValue bty b := by
      rw [ArraySlot.significand, if_pos hb]
      exact (slotValue_int hb b).1
    rw [digits_int ha, hs, hz ha ha', hz hb hb']


theorem scaledSide {bty : ET} (h : bty.isNarrowF = true) (x scale : LaneWord) (q : Nat) :
    let c := scaledSlot bty x scale q
    c.side.toNat / 2 ^ (8 - spareBits bty) = scalePart bty scale q ∧ c.side.toNat % 2 ^ (fmtOf bty).ebits = (sidecarByte bty x).toNat ∧
      restBits bty = 0 ∧ (sidecarByte bty x).toNat < 2 ^ (fmtOf bty).ebits := by
  have hp : scalePart bty scale q < 2 ^ spareBits bty := Nat.mod_lt _ (Nat.two_pow_pos _)
  simp only [scaledSlot]
  generalize scalePart bty scale q = p at hp
  cases bty <;> simp only [ET.isNarrowF, Bool.false_eq_true] at h <;>
    simp only [spareBits, restBits, sidecarByte, fmtOf, ET.isTileInt, Bool.false_eq_true, if_false, BitVec.toNat_add, BitVec.toNat_ofNat,
      Nat.reduceSub, Nat.reducePow, Nat.mod_one, Nat.mul_zero, Nat.add_zero] at hp ⊢ <;>
    exact ⟨by omega, by omega, trivial, by omega⟩

/-- A block's scale in the spare bits of an element leaves the element as it is. -/
theorem scaledSlot_code {bty : ET} (h : bty.isNarrowF = true) (x scale : LaneWord) (q : Nat) :
    (scaledSlot bty x scale q).code bty = (arraySlot bty x).code bty := by
  obtain ⟨-, h1, h2, h3⟩ := scaledSide h x scale q
  have h4 : (scaledSlot bty x scale q).exponent bty = (arraySlot bty x).exponent bty := by
    simp only [ArraySlot.exponent, arraySlot, h1, Nat.mod_eq_of_lt h3]
  simp only [ArraySlot.code, h4, ArraySlot.fraction, h2, Nat.pow_zero, Nat.mod_one]
  rfl

theorem digits_sum (sp x : Nat) : ∀ n, ((List.range n).map fun q => x / 2 ^ (sp * q) % 2 ^ sp * 2 ^ (sp * q)).sum = x % 2 ^ (sp * n)
  | 0 => by simp [Nat.mod_one]
  | n + 1 => by
    rw [List.range_succ, List.map_append, List.sum_append, digits_sum sp x n, Nat.mul_succ, pow_add, Nat.mod_mul]
    simp [mul_comm]

/-- The slots of a block keep its scale whole: a block has at least 8 elements of at least 3 spare bits (R297). -/
theorem scaleOfSlots_eq {bty : ET} (h : bty.isNarrowF = true) (xs : Nat → LaneWord) (scale : LaneWord) {n : Nat} (hn : 8 ≤ n) :
    scaleOfSlots bty ((List.range n).map fun q => scaledSlot bty (xs q) scale q) = BitVec.ofNat 32 (scale.toNat % 4096) := by
  have h1 : ((List.range n).map fun q => scaledSlot bty (xs q) scale q).mapIdx
      (fun q c => c.side.toNat / 2 ^ (8 - spareBits bty) * 2 ^ (spareBits bty * q)) =
      (List.range n).map fun q => scale.toNat % 4096 / 2 ^ (spareBits bty * q) % 2 ^ spareBits bty * 2 ^ (spareBits bty * q) := by
    refine List.ext_getElem (by simp) fun i h1 h2 => ?_
    simp only [List.getElem_mapIdx, List.getElem_map, List.getElem_range, (scaledSide h _ scale _).1, scalePart]
  have h2 : 4096 ≤ 2 ^ (spareBits bty * n) := by
    have : 12 ≤ spareBits bty * n := by
      have : 3 ≤ spareBits bty := by cases bty <;> simp only [ET.isNarrowF, Bool.false_eq_true] at h <;> decide
      nlinarith
    exact Nat.pow_le_pow_right (show 0 < 2 by decide) this
  rw [scaleOfSlots, h1, digits_sum, Nat.mod_eq_of_lt (b := 2 ^ _) (lt_of_lt_of_le (Nat.mod_lt _ (by decide)) h2), Nat.mod_mod]

/-- The elements of a resident operand are those that were written, in their own bits. -/
theorem arraySlots_code {bty : ET} (blk : BitVec 3) (n : Nat) (elems scales : List LaneWord) :
    (arraySlots bty blk n elems scales).map (·.code bty) = elems.map fun x => (arraySlot bty x).code bty := by
  refine List.ext_getElem (by simp [arraySlots]) fun i h1 h2 => ?_
  simp only [arraySlots, List.getElem_map, List.getElem_mapIdx]
  split
  · rename_i h
    exact scaledSlot_code (by simpa [scaledType] using And.right (by simpa [scaledType] using h)) _ _ _
  · rfl

/-- Element (k, j) of an operand stands in the macro of its row and of the array column of its column (R297). -/
theorem macroSlot_place (r : Resident) (groups : List Nat) (hg : groups.Nodup) {k j g : Nat} (hk : k < r.k) (hk' : k < 256) (hj : j < r.n)
    (hp : groups[j / 16]? = some g) :
    let p := macroPlace k (16 * g + j % 16)
    columnPlace groups j = some (16 * g + j % 16) ∧ r.macroSlot groups p.1 p.2.1 p.2.2 = r.slotOf k j := by
  refine ⟨by simp [columnPlace, hp], ?_⟩
  have hc : columnHeld groups (64 * ((k / 16 + 16 * ((16 * g + j % 16) / 64)) / 16) + (16 * g + j % 16) % 64) = some j := by
    have e : 64 * ((k / 16 + 16 * ((16 * g + j % 16) / 64)) / 16) + (16 * g + j % 16) % 64 = 16 * g + j % 16 := by omega
    have hi : groups.findIdx? (· == g) = some (j / 16) := by
      obtain ⟨hl, hget⟩ := List.getElem?_eq_some_iff.mp hp
      rw [List.findIdx?_eq_some_iff_getElem]
      refine ⟨hl, by simp [hget], fun i hi => ?_⟩
      simp only [beq_iff_eq, ← hget]
      exact fun h => absurd ((List.Nodup.getElem_inj_iff hg).mp h) (by omega)
    have e2 : (16 * g + j % 16) / 16 = g := by omega
    rw [e]
    simp only [columnHeld, e2, hi, Option.map_some]
    congr 1
    omega
  have hr : 16 * ((k / 16 + 16 * ((16 * g + j % 16) / 64)) % 16) + k % 16 = k := by omega
  simp only [macroPlace, Resident.macroSlot, hc, hr, hk, hj, decide_true, Bool.and_self, if_true]

end Sys2Proof.Machine
end

