-- ==== Sys2Proof/Laws/Assembler.lean ====
section
/-! SUPPORT. What the shared operations of the assembler and of code objects answer: padding and filling (03_assembly_language.md R60), and the addresses of symbols and GOT entries (19_code_objects.md R396, R399, R402). -/
namespace Sys2Proof.Laws
open Sys2Proof Sys2Proof.Machine Sys2Proof.Ghas

/-- A symbol has no address at any base, or one distance from every base. -/
theorem addressOf_cases (o : CodeObject) (y : Symbol) : (∀ b, o.addressOf b y = none) ∨ ∃ x, ∀ b, o.addressOf b y = some (b + x) := by
  unfold CodeObject.addressOf
  by_cases h : y.imported
  · left; simp [h]
  · rcases hs : o.sections[y.sect]? with _ | x
    · left; simp
    · right; exact ⟨x.addr + y.value, fun b => by simp [h, Nat.add_assoc]⟩

/-- A symbol has no GOT entry at any base, or one at one distance from every base. -/
theorem gotEntry_cases (o : CodeObject) (y : Symbol) : (∀ b, o.gotEntry b y = none) ∨ ∃ x, ∀ b, o.gotEntry b y = some (b + x) := by
  unfold CodeObject.gotEntry
  by_cases h : y.gotIdx = 0
  · left; simp [h]
  · rcases hs : sectionOf o.sections secGot with _ | x
    · left; simp
    · right; exact ⟨x.addr + 16 * (y.gotIdx - 1), fun b => by simp [h, Nat.add_assoc]⟩

/-- The clause-relative word of a target at a fixed distance from the base does not depend on the base. -/
theorem clauseWord_base (b b' : Nat) (r : Reloc) (x : Nat) (e : Int) : clauseWord b r ((b + x : Nat) + e) = clauseWord b' r ((b' + x : Nat) + e) := by
  unfold clauseWord; congr 1; push_cast; ring

/-- A clause stands within one block, with its words counted in its header. -/
def Fits (c : PlacedClause) : Prop :=
  c.offset % 8 = 0 ∧ 1 ≤ c.words.length ∧ c.words.length ≤ 7 ∧ c.header.n.toNat = c.words.length ∧ c.offset % 4096 + 8 * (c.words.length + 1) ≤ 4096

/-- A padding clause: `NOP` words under a header that waits on nothing and names no flag. -/
def IsPadding (c : PlacedClause) : Prop :=
  c.words = List.replicate c.words.length none ∧ c.header.wait = 0#12 ∧ c.header.setA = 15#4 ∧ c.header.setB = 15#4 ∧ c.header.yld = 0#2 ∧ c.header.cls = 1#3

/-- `pad` adds one padding clause at the next header position. -/
theorem pad_spec (a : Asm) (k : Nat) (h1 : 1 ≤ k) (h7 : k ≤ 7) (h8 : a.pos % 8 = 0) (hf : a.pos % 4096 + 8 * (k + 1) ≤ 4096) :
    ∃ c, a.pad k = { a with pos := a.pos + 8 * (k + 1), placed := a.placed ++ [c] } ∧ Fits c ∧ IsPadding c := by
  refine ⟨_, by simp [Asm.pad, Asm.put]; rfl, ?_, ?_⟩
  · simp [Fits]; omega
  · simp [IsPadding]

/-- `fill` adds padding clauses that take exactly the span. -/
theorem fill_spec : ∀ n (a : Asm) f, f % 8 = 0 → 16 ≤ f → f ≤ 64 * n → a.pos % 8 = 0 → a.pos % 4096 + f ≤ 4096 →
    ∃ cs, a.fill n f = { a with pos := a.pos + f, placed := a.placed ++ cs } ∧ ∀ c ∈ cs, Fits c ∧ IsPadding c := by
  intro n
  induction n with
  | zero => intro a f h1 h2 h3; omega
  | succ n ih =>
    intro a f h1 h2 h3 h4 h5
    have go : ∀ k, 1 ≤ k → k ≤ 7 → 8 * (k + 1) + 16 ≤ f → f - 8 * (k + 1) ≤ 64 * n →
        ∃ cs, Asm.fill n (a.pad k) (f - 8 * (k + 1)) = { a with pos := a.pos + f, placed := a.placed ++ cs } ∧ ∀ c ∈ cs, Fits c ∧ IsPadding c := by
      intro k k1 k7 hk hn
      obtain ⟨c, hc, hg⟩ := pad_spec a k k1 k7 h4 (by omega)
      rw [hc]
      obtain ⟨cs, hcs, hall⟩ := ih { a with pos := a.pos + 8 * (k + 1), placed := a.placed ++ [c] } (f - 8 * (k + 1)) (by omega) (by omega) hn (by simp; omega) (by simp; omega)
      refine ⟨c :: cs, by rw [hcs]; simp; omega, fun x hx => ?_⟩
      rcases List.mem_cons.mp hx with rfl | hx
      exacts [hg, hall x hx]
    unfold Asm.fill
    split
    · split
      · exact go 6 (by omega) (by omega) (by omega) (by omega)
      · exact go 7 (by omega) (by omega) (by omega) (by omega)
    · obtain ⟨c, hc, hg⟩ := pad_spec a (f / 8 - 1) (by omega) (by omega) h4 (by omega)
      refine ⟨[c], ?_, by simpa using hg⟩
      rw [hc]; simp; omega

end Sys2Proof.Laws
end

