-- ==== Sys2Proof/Laws/Fetch.lean ====
section
/-! SUPPORT. Fetching a word where no instruction cache holds its line. -/
namespace Sys2Proof.Machine
open Sys2Proof

/-- A line that no cache holds is not read from a cache. -/
theorem cachedWords_none {s : State} {part : BitVec 4} {line : Nat} (h : s.icache.find? (fun c => c.part == part && c.line == line) = none) :
    cachedWords s part line = none := by
  unfold cachedWords
  rw [h]

/-- The word of a line that is fetched anew, and the state in which the caches keep its line. -/
theorem fetchWord_fresh {s : State} {priv : Bool} {va : Int} {l : Loc}
    (hc : checkFresh s (fetchAsk s priv) true { k := fetchElem s priv, va := va } = .ok l)
    (hi : s.icache.find? (fun c => c.part == s.team.part && c.line == va54 va / 128) = none)
    (he : errorAt s l.key l.kid 8 = false) (ha : absentIn s l.key 8 = none) :
    fetchWord s priv va = .got ((lineWords s l.key l.kid).getD (va54 va % 128 / 8) 0#64)
      (keepLine (settle s s.team.part [({ k := 0, va := va }, l)]) s.team.part (va54 va / 128) (lineWords s l.key l.kid)) := by
  unfold fetchWord
  simp only [hc, cachedWords_none hi, he, ha]
  rfl

/-- A clause of one word: its header, then the word behind it. -/
theorem fetchClause_one {s u v : State} {priv : Bool} {va : Int} {h w : Word} (hn : canonicalFault va = none) (h8 : va % 8 = 0)
    (h1 : fetchWord s priv va = .got h u) (hh : headerCheck va.toNat h = none) (hN : (Header.ofBits h).n = 1#3)
    (h2 : fetchWord u priv (va + 8) = .got w v) : fetchClause s priv va = .got (h, [w]) v := by
  have h8' : (va % 8 != 0) = false := by simp [h8]
  have hf : fetchHeader s priv va = .got h u := by
    unfold fetchHeader fetchAt
    simp only [hn, h8', h1, Bool.false_eq_true, if_false]
    rw [hh]
  have hw : fetchWords priv (Header.ofBits h).n.toNat (va + 8) u = .got [w] v := by
    rw [hN]
    show fetchWords priv 1 (va + 8) u = _
    simp [fetchWords, h2]
  unfold fetchClause
  simp only [hf, hw]
  simp [misplaced]

end Sys2Proof.Machine
end

