-- ==== Sys2Proof/Laws/Fields.lean ====
section
/-! SUPPORT. The layouts of a word and the codes of its fields, read back from what they are written as. -/
namespace Sys2Proof

/-! ## Layouts (R25, R26) -/

theorem head_roundtrip (h : Head) : Head.ofBits h.toBits = h := by
  cases h
  simp only [Head.ofBits, Head.toBits, Head.ofFields.injEq]
  refine ⟨?_, ?_, ?_, ?_, ?_, ?_, ?_, ?_⟩ <;>
    (apply BitVec.eq_of_getLsbD_eq; intro i hi; simp only [BitVec.getLsbD_extractLsb', BitVec.getLsbD_append];
     simp only [hi, decide_true, Bool.true_and]; simp (disch := omega) only [if_neg, if_pos]; try (congr 1; omega))

theorem rlow_roundtrip (l : RLow) : RLow.ofBits l.toBits = l := by
  cases l
  simp only [RLow.ofBits, RLow.toBits, RLow.mk.injEq]
  refine ⟨?_, ?_, ?_, ?_, ?_⟩ <;>
    (apply BitVec.eq_of_getLsbD_eq; intro i hi; simp only [BitVec.getLsbD_extractLsb', BitVec.getLsbD_append];
     simp only [hi, decide_true, Bool.true_and]; simp (disch := omega) only [if_neg, if_pos]; try (congr 1; omega))

theorem mlow_roundtrip (l : MLow) : MLow.ofBits l.toBits = l := by
  cases l
  simp only [MLow.ofBits, MLow.toBits, MLow.mk.injEq]
  refine ⟨?_, ?_, ?_, ?_, ?_⟩ <;>
    (apply BitVec.eq_of_getLsbD_eq; intro i hi; simp only [BitVec.getLsbD_extractLsb', BitVec.getLsbD_append];
     simp only [hi, decide_true, Bool.true_and]; simp (disch := omega) only [if_neg, if_pos]; try (congr 1; omega))

theorem tlow_roundtrip (l : TLow) : TLow.ofBits l.toBits = l := by
  cases l
  simp only [TLow.ofBits, TLow.toBits, TLow.mk.injEq]
  refine ⟨?_, ?_, ?_, ?_, ?_⟩ <;>
    (apply BitVec.eq_of_getLsbD_eq; intro i hi; simp only [BitVec.getLsbD_extractLsb', BitVec.getLsbD_append];
     simp only [hi, decide_true, Bool.true_and]; simp (disch := omega) only [if_neg, if_pos]; try (congr 1; omega))

/-- A word is its fields. -/
theorem head_bits (w : BitVec 64) : (Head.ofBits w).toBits = w := by
  apply BitVec.eq_of_getLsbD_eq
  intro i hi
  simp only [Head.ofBits, Head.toBits, BitVec.getLsbD_append, BitVec.getLsbD_extractLsb']
  repeat' split
  all_goals (rw [decide_eq_true (by omega), Bool.true_and]; congr 1; omega)

/-- The low half in form R. -/
theorem rlow_bits (v : BitVec 32) : (RLow.ofBits v).toBits = v := by
  apply BitVec.eq_of_getLsbD_eq
  intro i hi
  simp only [RLow.ofBits, RLow.toBits, BitVec.getLsbD_append, BitVec.getLsbD_extractLsb']
  repeat' split
  all_goals (rw [decide_eq_true (by omega), Bool.true_and]; congr 1; omega)

/-- The low half in form M. -/
theorem mlow_bits (v : BitVec 32) : (MLow.ofBits v).toBits = v := by
  apply BitVec.eq_of_getLsbD_eq
  intro i hi
  simp only [MLow.ofBits, MLow.toBits, BitVec.getLsbD_append, BitVec.getLsbD_extractLsb']
  repeat' split
  all_goals (rw [decide_eq_true (by omega), Bool.true_and]; congr 1; omega)

/-- The low half in form T. -/
theorem tlow_bits (v : BitVec 32) : (TLow.ofBits v).toBits = v := by
  apply BitVec.eq_of_getLsbD_eq
  intro i hi
  simp only [TLow.ofBits, TLow.toBits, BitVec.getLsbD_append, BitVec.getLsbD_extractLsb']
  repeat' split
  all_goals (rw [decide_eq_true (by omega), Bool.true_and]; congr 1; omega)

/-! ## Codes (R25, R27, R46) -/

@[simp] theorem et_ofCode_code (x : ET) : ET.ofCode x.code = x := by cases x <;> rfl
@[simp] theorem cond_ofCode_code (x : Cond) : Cond.ofCode x.code = x := by cases x <;> rfl
@[simp] theorem sgn_ofCode_code (x : Sgn) : Sgn.ofCode x.code = x := by cases x <;> rfl
@[simp] theorem getIdSel_ofCode_code (x : GetIdSel) : GetIdSel.ofCode x.code = x := by cases x <;> rfl
@[simp] theorem getVlSel_ofCode_code (x : GetVlSel) : GetVlSel.ofCode x.code = x := by cases x <;> rfl
@[simp] theorem msetSel_ofCode_code (x : MsetSel) : MsetSel.ofCode x.code = x := by cases x <;> rfl
@[simp] theorem fCond_ofCode_code (x : FCond) : FCond.ofCode x.code = x := by cases x <;> rfl
@[simp] theorem scanOp_ofCode_code (x : ScanOp) : ScanOp.ofCode x.code = x := by cases x <;> rfl
@[simp] theorem atomOp_ofCode_code (x : AtomOp) : AtomOp.ofCode x.code = x := by cases x <;> rfl
@[simp] theorem ord4_ofCode_code (x : Ord4) : Ord4.ofCode x.code = x := by cases x <;> rfl
@[simp] theorem fenceKind_ofCode_code (x : FenceKind) : FenceKind.ofCode x.code = x := by cases x <;> rfl
@[simp] theorem scope_ofCode_code (x : Scope) : Scope.ofCode x.code = x := by cases x <;> rfl
@[simp] theorem trainOp_ofCode_code (x : TrainOp) : TrainOp.ofCode x.code = x := by cases x <;> rfl
@[simp] theorem cstatSel_ofCode_code (x : CstatSel) : CstatSel.ofCode x.code = x := by cases x <;> rfl
@[simp] theorem tstrMode_ofCode_code (md : TstrMode) : TstrMode.ofCode md.code = md := by cases md <;> rfl
@[simp] theorem fselOf_code (x : FSel) : fselOf x.code = x := by cases x <;> rfl
@[simp] theorem mode_ofRm_rm (x : Mode) : Mode.ofRm x.rm = x := by cases x <;> rfl
@[simp] theorem low3_wide (n : BitVec 3) : low3 (wide n) = n := by simp [low3, wide]

end Sys2Proof
end

