-- ==== Sys2Proof/Laws/State.lean ====
section
/-! SUPPORT. What the updates of the state leave and change, field by field. -/
namespace Sys2Proof.Machine
open Sys2Proof

/-! ## `State.onWarp` -/

@[simp] theorem onWarp_warp (s : State) (f : Warp → Warp) : (s.onWarp f).warp = f s.warp := rfl
@[simp] theorem onWarp_team (s : State) (f : Warp → Warp) : (s.onWarp f).team = s.team := rfl
@[simp] theorem onWarp_teams (s : State) (f : Warp → Warp) : (s.onWarp f).teams = s.teams := rfl
@[simp] theorem onWarp_grids (s : State) (f : Warp → Warp) : (s.onWarp f).grids = s.grids := rfl
@[simp] theorem onWarp_parts (s : State) (f : Warp → Warp) : (s.onWarp f).parts = s.parts := rfl
@[simp] theorem onWarp_cores (s : State) (f : Warp → Warp) : (s.onWarp f).cores = s.cores := rfl
@[simp] theorem onWarp_clusters (s : State) (f : Warp → Warp) : (s.onWarp f).clusters = s.clusters := rfl
@[simp] theorem onWarp_copies (s : State) (f : Warp → Warp) : (s.onWarp f).copies = s.copies := rfl
@[simp] theorem onWarp_mem (s : State) (f : Warp → Warp) : (s.onWarp f).mem = s.mem := rfl
@[simp] theorem onWarp_absent (s : State) (f : Warp → Warp) : (s.onWarp f).absent = s.absent := rfl
@[simp] theorem onWarp_bad (s : State) (f : Warp → Warp) : (s.onWarp f).bad = s.bad := rfl
@[simp] theorem onWarp_dirty (s : State) (f : Warp → Warp) : (s.onWarp f).dirty = s.dirty := rfl
@[simp] theorem onWarp_icache (s : State) (f : Warp → Warp) : (s.onWarp f).icache = s.icache := rfl
@[simp] theorem onWarp_xlate (s : State) (f : Warp → Warp) : (s.onWarp f).xlate = s.xlate := rfl
@[simp] theorem onWarp_tables (s : State) (f : Warp → Warp) : (s.onWarp f).tables = s.tables := rfl
@[simp] theorem onWarp_keytags (s : State) (f : Warp → Warp) : (s.onWarp f).keytags = s.keytags := rfl
@[simp] theorem onWarp_bales (s : State) (f : Warp → Warp) : (s.onWarp f).bales = s.bales := rfl
@[simp] theorem onWarp_badMap (s : State) (f : Warp → Warp) : (s.onWarp f).badMap = s.badMap := rfl
@[simp] theorem onWarp_mgmt (s : State) (f : Warp → Warp) : (s.onWarp f).mgmt = s.mgmt := rfl
@[simp] theorem onWarp_invalidations (s : State) (f : Warp → Warp) : (s.onWarp f).invalidations = s.invalidations := rfl
@[simp] theorem onWarp_nextTeam (s : State) (f : Warp → Warp) : (s.onWarp f).nextTeam = s.nextTeam := rfl
@[simp] theorem onWarp_nextGrid (s : State) (f : Warp → Warp) : (s.onWarp f).nextGrid = s.nextGrid := rfl
@[simp] theorem onWarp_nextInv (s : State) (f : Warp → Warp) : (s.onWarp f).nextInv = s.nextInv := rfl
@[simp] theorem onWarp_nextCopy (s : State) (f : Warp → Warp) : (s.onWarp f).nextCopy = s.nextCopy := rfl
@[simp] theorem onWarp_nextPlace (s : State) (f : Warp → Warp) : (s.onWarp f).nextPlace = s.nextPlace := rfl
@[simp] theorem onWarp_outbox (s : State) (f : Warp → Warp) : (s.onWarp f).outbox = s.outbox := rfl
@[simp] theorem onWarp_agenda (s : State) (f : Warp → Warp) : (s.onWarp f).agenda = s.agenda := rfl
@[simp] theorem onWarp_agentTurn (s : State) (f : Warp → Warp) : (s.onWarp f).agentTurn = s.agentTurn := rfl
@[simp] theorem onWarp_draws (s : State) (f : Warp → Warp) : (s.onWarp f).draws = s.draws := rfl

/-! ## `State.onTeam` -/

@[simp] theorem onTeam_warp (s : State) (f : Team → Team) : (s.onTeam f).warp = s.warp := rfl
@[simp] theorem onTeam_team (s : State) (f : Team → Team) : (s.onTeam f).team = f s.team := rfl
@[simp] theorem onTeam_teams (s : State) (f : Team → Team) : (s.onTeam f).teams = s.teams := rfl
@[simp] theorem onTeam_grids (s : State) (f : Team → Team) : (s.onTeam f).grids = s.grids := rfl
@[simp] theorem onTeam_parts (s : State) (f : Team → Team) : (s.onTeam f).parts = s.parts := rfl
@[simp] theorem onTeam_cores (s : State) (f : Team → Team) : (s.onTeam f).cores = s.cores := rfl
@[simp] theorem onTeam_clusters (s : State) (f : Team → Team) : (s.onTeam f).clusters = s.clusters := rfl
@[simp] theorem onTeam_copies (s : State) (f : Team → Team) : (s.onTeam f).copies = s.copies := rfl
@[simp] theorem onTeam_mem (s : State) (f : Team → Team) : (s.onTeam f).mem = s.mem := rfl
@[simp] theorem onTeam_absent (s : State) (f : Team → Team) : (s.onTeam f).absent = s.absent := rfl
@[simp] theorem onTeam_bad (s : State) (f : Team → Team) : (s.onTeam f).bad = s.bad := rfl
@[simp] theorem onTeam_dirty (s : State) (f : Team → Team) : (s.onTeam f).dirty = s.dirty := rfl
@[simp] theorem onTeam_icache (s : State) (f : Team → Team) : (s.onTeam f).icache = s.icache := rfl
@[simp] theorem onTeam_xlate (s : State) (f : Team → Team) : (s.onTeam f).xlate = s.xlate := rfl
@[simp] theorem onTeam_tables (s : State) (f : Team → Team) : (s.onTeam f).tables = s.tables := rfl
@[simp] theorem onTeam_keytags (s : State) (f : Team → Team) : (s.onTeam f).keytags = s.keytags := rfl
@[simp] theorem onTeam_bales (s : State) (f : Team → Team) : (s.onTeam f).bales = s.bales := rfl
@[simp] theorem onTeam_badMap (s : State) (f : Team → Team) : (s.onTeam f).badMap = s.badMap := rfl
@[simp] theorem onTeam_mgmt (s : State) (f : Team → Team) : (s.onTeam f).mgmt = s.mgmt := rfl
@[simp] theorem onTeam_invalidations (s : State) (f : Team → Team) : (s.onTeam f).invalidations = s.invalidations := rfl
@[simp] theorem onTeam_nextTeam (s : State) (f : Team → Team) : (s.onTeam f).nextTeam = s.nextTeam := rfl
@[simp] theorem onTeam_nextGrid (s : State) (f : Team → Team) : (s.onTeam f).nextGrid = s.nextGrid := rfl
@[simp] theorem onTeam_nextInv (s : State) (f : Team → Team) : (s.onTeam f).nextInv = s.nextInv := rfl
@[simp] theorem onTeam_nextCopy (s : State) (f : Team → Team) : (s.onTeam f).nextCopy = s.nextCopy := rfl
@[simp] theorem onTeam_nextPlace (s : State) (f : Team → Team) : (s.onTeam f).nextPlace = s.nextPlace := rfl
@[simp] theorem onTeam_outbox (s : State) (f : Team → Team) : (s.onTeam f).outbox = s.outbox := rfl
@[simp] theorem onTeam_agenda (s : State) (f : Team → Team) : (s.onTeam f).agenda = s.agenda := rfl
@[simp] theorem onTeam_agentTurn (s : State) (f : Team → Team) : (s.onTeam f).agentTurn = s.agentTurn := rfl
@[simp] theorem onTeam_draws (s : State) (f : Team → Team) : (s.onTeam f).draws = s.draws := rfl

/-! ## `State.onMgmt` -/

@[simp] theorem onMgmt_warp (s : State) (f : Mgmt → Mgmt) : (s.onMgmt f).warp = s.warp := rfl
@[simp] theorem onMgmt_team (s : State) (f : Mgmt → Mgmt) : (s.onMgmt f).team = s.team := rfl
@[simp] theorem onMgmt_teams (s : State) (f : Mgmt → Mgmt) : (s.onMgmt f).teams = s.teams := rfl
@[simp] theorem onMgmt_grids (s : State) (f : Mgmt → Mgmt) : (s.onMgmt f).grids = s.grids := rfl
@[simp] theorem onMgmt_parts (s : State) (f : Mgmt → Mgmt) : (s.onMgmt f).parts = s.parts := rfl
@[simp] theorem onMgmt_cores (s : State) (f : Mgmt → Mgmt) : (s.onMgmt f).cores = s.cores := rfl
@[simp] theorem onMgmt_clusters (s : State) (f : Mgmt → Mgmt) : (s.onMgmt f).clusters = s.clusters := rfl
@[simp] theorem onMgmt_copies (s : State) (f : Mgmt → Mgmt) : (s.onMgmt f).copies = s.copies := rfl
@[simp] theorem onMgmt_mem (s : State) (f : Mgmt → Mgmt) : (s.onMgmt f).mem = s.mem := rfl
@[simp] theorem onMgmt_absent (s : State) (f : Mgmt → Mgmt) : (s.onMgmt f).absent = s.absent := rfl
@[simp] theorem onMgmt_bad (s : State) (f : Mgmt → Mgmt) : (s.onMgmt f).bad = s.bad := rfl
@[simp] theorem onMgmt_dirty (s : State) (f : Mgmt → Mgmt) : (s.onMgmt f).dirty = s.dirty := rfl
@[simp] theorem onMgmt_icache (s : State) (f : Mgmt → Mgmt) : (s.onMgmt f).icache = s.icache := rfl
@[simp] theorem onMgmt_xlate (s : State) (f : Mgmt → Mgmt) : (s.onMgmt f).xlate = s.xlate := rfl
@[simp] theorem onMgmt_tables (s : State) (f : Mgmt → Mgmt) : (s.onMgmt f).tables = s.tables := rfl
@[simp] theorem onMgmt_keytags (s : State) (f : Mgmt → Mgmt) : (s.onMgmt f).keytags = s.keytags := rfl
@[simp] theorem onMgmt_bales (s : State) (f : Mgmt → Mgmt) : (s.onMgmt f).bales = s.bales := rfl
@[simp] theorem onMgmt_badMap (s : State) (f : Mgmt → Mgmt) : (s.onMgmt f).badMap = s.badMap := rfl
@[simp] theorem onMgmt_mgmt (s : State) (f : Mgmt → Mgmt) : (s.onMgmt f).mgmt = f s.mgmt := rfl
@[simp] theorem onMgmt_invalidations (s : State) (f : Mgmt → Mgmt) : (s.onMgmt f).invalidations = s.invalidations := rfl
@[simp] theorem onMgmt_nextTeam (s : State) (f : Mgmt → Mgmt) : (s.onMgmt f).nextTeam = s.nextTeam := rfl
@[simp] theorem onMgmt_nextGrid (s : State) (f : Mgmt → Mgmt) : (s.onMgmt f).nextGrid = s.nextGrid := rfl
@[simp] theorem onMgmt_nextInv (s : State) (f : Mgmt → Mgmt) : (s.onMgmt f).nextInv = s.nextInv := rfl
@[simp] theorem onMgmt_nextCopy (s : State) (f : Mgmt → Mgmt) : (s.onMgmt f).nextCopy = s.nextCopy := rfl
@[simp] theorem onMgmt_nextPlace (s : State) (f : Mgmt → Mgmt) : (s.onMgmt f).nextPlace = s.nextPlace := rfl
@[simp] theorem onMgmt_outbox (s : State) (f : Mgmt → Mgmt) : (s.onMgmt f).outbox = s.outbox := rfl
@[simp] theorem onMgmt_agenda (s : State) (f : Mgmt → Mgmt) : (s.onMgmt f).agenda = s.agenda := rfl
@[simp] theorem onMgmt_agentTurn (s : State) (f : Mgmt → Mgmt) : (s.onMgmt f).agentTurn = s.agentTurn := rfl
@[simp] theorem onMgmt_draws (s : State) (f : Mgmt → Mgmt) : (s.onMgmt f).draws = s.draws := rfl

/-! ## `State.draw` -/

@[simp] theorem draw_warp (s : State) : (s.draw).warp = s.warp := rfl
@[simp] theorem draw_team (s : State) : (s.draw).team = s.team := rfl
@[simp] theorem draw_teams (s : State) : (s.draw).teams = s.teams := rfl
@[simp] theorem draw_grids (s : State) : (s.draw).grids = s.grids := rfl
@[simp] theorem draw_parts (s : State) : (s.draw).parts = s.parts := rfl
@[simp] theorem draw_cores (s : State) : (s.draw).cores = s.cores := rfl
@[simp] theorem draw_clusters (s : State) : (s.draw).clusters = s.clusters := rfl
@[simp] theorem draw_copies (s : State) : (s.draw).copies = s.copies := rfl
@[simp] theorem draw_mem (s : State) : (s.draw).mem = s.mem := rfl
@[simp] theorem draw_absent (s : State) : (s.draw).absent = s.absent := rfl
@[simp] theorem draw_bad (s : State) : (s.draw).bad = s.bad := rfl
@[simp] theorem draw_dirty (s : State) : (s.draw).dirty = s.dirty := rfl
@[simp] theorem draw_icache (s : State) : (s.draw).icache = s.icache := rfl
@[simp] theorem draw_xlate (s : State) : (s.draw).xlate = s.xlate := rfl
@[simp] theorem draw_tables (s : State) : (s.draw).tables = s.tables := rfl
@[simp] theorem draw_keytags (s : State) : (s.draw).keytags = s.keytags := rfl
@[simp] theorem draw_bales (s : State) : (s.draw).bales = s.bales := rfl
@[simp] theorem draw_badMap (s : State) : (s.draw).badMap = s.badMap := rfl
@[simp] theorem draw_mgmt (s : State) : (s.draw).mgmt = s.mgmt := rfl
@[simp] theorem draw_invalidations (s : State) : (s.draw).invalidations = s.invalidations := rfl
@[simp] theorem draw_nextTeam (s : State) : (s.draw).nextTeam = s.nextTeam := rfl
@[simp] theorem draw_nextGrid (s : State) : (s.draw).nextGrid = s.nextGrid := rfl
@[simp] theorem draw_nextInv (s : State) : (s.draw).nextInv = s.nextInv := rfl
@[simp] theorem draw_nextCopy (s : State) : (s.draw).nextCopy = s.nextCopy := rfl
@[simp] theorem draw_nextPlace (s : State) : (s.draw).nextPlace = s.nextPlace := rfl
@[simp] theorem draw_outbox (s : State) : (s.draw).outbox = s.outbox := rfl
@[simp] theorem draw_agenda (s : State) : (s.draw).agenda = s.agenda := rfl
@[simp] theorem draw_agentTurn (s : State) : (s.draw).agentTurn = s.agentTurn := rfl
@[simp] theorem draw_draws (s : State) : (s.draw).draws = s.draws + 1 := rfl

/-! ## `State.advance` -/

@[simp] theorem advance_warp (s : State) : (s.advance).warp = s.warp.advance := rfl
@[simp] theorem advance_team (s : State) : (s.advance).team = s.team := rfl
@[simp] theorem advance_teams (s : State) : (s.advance).teams = s.teams := rfl
@[simp] theorem advance_grids (s : State) : (s.advance).grids = s.grids := rfl
@[simp] theorem advance_parts (s : State) : (s.advance).parts = s.parts := rfl
@[simp] theorem advance_cores (s : State) : (s.advance).cores = s.cores := rfl
@[simp] theorem advance_clusters (s : State) : (s.advance).clusters = s.clusters := rfl
@[simp] theorem advance_copies (s : State) : (s.advance).copies = s.copies := rfl
@[simp] theorem advance_mem (s : State) : (s.advance).mem = s.mem := rfl
@[simp] theorem advance_absent (s : State) : (s.advance).absent = s.absent := rfl
@[simp] theorem advance_bad (s : State) : (s.advance).bad = s.bad := rfl
@[simp] theorem advance_dirty (s : State) : (s.advance).dirty = s.dirty := rfl
@[simp] theorem advance_icache (s : State) : (s.advance).icache = s.icache := rfl
@[simp] theorem advance_xlate (s : State) : (s.advance).xlate = s.xlate := rfl
@[simp] theorem advance_tables (s : State) : (s.advance).tables = s.tables := rfl
@[simp] theorem advance_keytags (s : State) : (s.advance).keytags = s.keytags := rfl
@[simp] theorem advance_bales (s : State) : (s.advance).bales = s.bales := rfl
@[simp] theorem advance_badMap (s : State) : (s.advance).badMap = s.badMap := rfl
@[simp] theorem advance_mgmt (s : State) : (s.advance).mgmt = s.mgmt := rfl
@[simp] theorem advance_invalidations (s : State) : (s.advance).invalidations = s.invalidations := rfl
@[simp] theorem advance_nextTeam (s : State) : (s.advance).nextTeam = s.nextTeam := rfl
@[simp] theorem advance_nextGrid (s : State) : (s.advance).nextGrid = s.nextGrid := rfl
@[simp] theorem advance_nextInv (s : State) : (s.advance).nextInv = s.nextInv := rfl
@[simp] theorem advance_nextCopy (s : State) : (s.advance).nextCopy = s.nextCopy := rfl
@[simp] theorem advance_nextPlace (s : State) : (s.advance).nextPlace = s.nextPlace := rfl
@[simp] theorem advance_outbox (s : State) : (s.advance).outbox = s.outbox := rfl
@[simp] theorem advance_agenda (s : State) : (s.advance).agenda = s.agenda := rfl
@[simp] theorem advance_agentTurn (s : State) : (s.advance).agentTurn = s.agentTurn := rfl
@[simp] theorem advance_draws (s : State) : (s.advance).draws = s.draws := rfl

/-! ## `State.parkOn` -/

@[simp] theorem parkOn_warp (s : State) (p : Park) : (s.parkOn p).warp = { s.warp with park := p } := rfl
@[simp] theorem parkOn_team (s : State) (p : Park) : (s.parkOn p).team = s.team := rfl
@[simp] theorem parkOn_teams (s : State) (p : Park) : (s.parkOn p).teams = s.teams := rfl
@[simp] theorem parkOn_grids (s : State) (p : Park) : (s.parkOn p).grids = s.grids := rfl
@[simp] theorem parkOn_parts (s : State) (p : Park) : (s.parkOn p).parts = s.parts := rfl
@[simp] theorem parkOn_cores (s : State) (p : Park) : (s.parkOn p).cores = s.cores := rfl
@[simp] theorem parkOn_clusters (s : State) (p : Park) : (s.parkOn p).clusters = s.clusters := rfl
@[simp] theorem parkOn_copies (s : State) (p : Park) : (s.parkOn p).copies = s.copies := rfl
@[simp] theorem parkOn_mem (s : State) (p : Park) : (s.parkOn p).mem = s.mem := rfl
@[simp] theorem parkOn_absent (s : State) (p : Park) : (s.parkOn p).absent = s.absent := rfl
@[simp] theorem parkOn_bad (s : State) (p : Park) : (s.parkOn p).bad = s.bad := rfl
@[simp] theorem parkOn_dirty (s : State) (p : Park) : (s.parkOn p).dirty = s.dirty := rfl
@[simp] theorem parkOn_icache (s : State) (p : Park) : (s.parkOn p).icache = s.icache := rfl
@[simp] theorem parkOn_xlate (s : State) (p : Park) : (s.parkOn p).xlate = s.xlate := rfl
@[simp] theorem parkOn_tables (s : State) (p : Park) : (s.parkOn p).tables = s.tables := rfl
@[simp] theorem parkOn_keytags (s : State) (p : Park) : (s.parkOn p).keytags = s.keytags := rfl
@[simp] theorem parkOn_bales (s : State) (p : Park) : (s.parkOn p).bales = s.bales := rfl
@[simp] theorem parkOn_badMap (s : State) (p : Park) : (s.parkOn p).badMap = s.badMap := rfl
@[simp] theorem parkOn_mgmt (s : State) (p : Park) : (s.parkOn p).mgmt = s.mgmt := rfl
@[simp] theorem parkOn_invalidations (s : State) (p : Park) : (s.parkOn p).invalidations = s.invalidations := rfl
@[simp] theorem parkOn_nextTeam (s : State) (p : Park) : (s.parkOn p).nextTeam = s.nextTeam := rfl
@[simp] theorem parkOn_nextGrid (s : State) (p : Park) : (s.parkOn p).nextGrid = s.nextGrid := rfl
@[simp] theorem parkOn_nextInv (s : State) (p : Park) : (s.parkOn p).nextInv = s.nextInv := rfl
@[simp] theorem parkOn_nextCopy (s : State) (p : Park) : (s.parkOn p).nextCopy = s.nextCopy := rfl
@[simp] theorem parkOn_nextPlace (s : State) (p : Park) : (s.parkOn p).nextPlace = s.nextPlace := rfl
@[simp] theorem parkOn_outbox (s : State) (p : Park) : (s.parkOn p).outbox = s.outbox := rfl
@[simp] theorem parkOn_agenda (s : State) (p : Park) : (s.parkOn p).agenda = s.agenda := rfl
@[simp] theorem parkOn_agentTurn (s : State) (p : Park) : (s.parkOn p).agentTurn = s.agentTurn := rfl
@[simp] theorem parkOn_draws (s : State) (p : Park) : (s.parkOn p).draws = s.draws := rfl

/-! ## `onPart` -/

@[simp] theorem onPart_warp (s : State) (p : BitVec 4) (f : Partition → Partition) : (onPart s p f).warp = s.warp := rfl
@[simp] theorem onPart_team (s : State) (p : BitVec 4) (f : Partition → Partition) : (onPart s p f).team = s.team := rfl
@[simp] theorem onPart_teams (s : State) (p : BitVec 4) (f : Partition → Partition) : (onPart s p f).teams = s.teams := rfl
@[simp] theorem onPart_grids (s : State) (p : BitVec 4) (f : Partition → Partition) : (onPart s p f).grids = s.grids := rfl
@[simp] theorem onPart_parts (s : State) (p : BitVec 4) (f : Partition → Partition) : (onPart s p f).parts = s.parts.set p.toNat (f (s.parts.get p.toFin)) p.isLt := rfl
@[simp] theorem onPart_cores (s : State) (p : BitVec 4) (f : Partition → Partition) : (onPart s p f).cores = s.cores := rfl
@[simp] theorem onPart_clusters (s : State) (p : BitVec 4) (f : Partition → Partition) : (onPart s p f).clusters = s.clusters := rfl
@[simp] theorem onPart_copies (s : State) (p : BitVec 4) (f : Partition → Partition) : (onPart s p f).copies = s.copies := rfl
@[simp] theorem onPart_mem (s : State) (p : BitVec 4) (f : Partition → Partition) : (onPart s p f).mem = s.mem := rfl
@[simp] theorem onPart_absent (s : State) (p : BitVec 4) (f : Partition → Partition) : (onPart s p f).absent = s.absent := rfl
@[simp] theorem onPart_bad (s : State) (p : BitVec 4) (f : Partition → Partition) : (onPart s p f).bad = s.bad := rfl
@[simp] theorem onPart_dirty (s : State) (p : BitVec 4) (f : Partition → Partition) : (onPart s p f).dirty = s.dirty := rfl
@[simp] theorem onPart_icache (s : State) (p : BitVec 4) (f : Partition → Partition) : (onPart s p f).icache = s.icache := rfl
@[simp] theorem onPart_xlate (s : State) (p : BitVec 4) (f : Partition → Partition) : (onPart s p f).xlate = s.xlate := rfl
@[simp] theorem onPart_tables (s : State) (p : BitVec 4) (f : Partition → Partition) : (onPart s p f).tables = s.tables := rfl
@[simp] theorem onPart_keytags (s : State) (p : BitVec 4) (f : Partition → Partition) : (onPart s p f).keytags = s.keytags := rfl
@[simp] theorem onPart_bales (s : State) (p : BitVec 4) (f : Partition → Partition) : (onPart s p f).bales = s.bales := rfl
@[simp] theorem onPart_badMap (s : State) (p : BitVec 4) (f : Partition → Partition) : (onPart s p f).badMap = s.badMap := rfl
@[simp] theorem onPart_mgmt (s : State) (p : BitVec 4) (f : Partition → Partition) : (onPart s p f).mgmt = s.mgmt := rfl
@[simp] theorem onPart_invalidations (s : State) (p : BitVec 4) (f : Partition → Partition) : (onPart s p f).invalidations = s.invalidations := rfl
@[simp] theorem onPart_nextTeam (s : State) (p : BitVec 4) (f : Partition → Partition) : (onPart s p f).nextTeam = s.nextTeam := rfl
@[simp] theorem onPart_nextGrid (s : State) (p : BitVec 4) (f : Partition → Partition) : (onPart s p f).nextGrid = s.nextGrid := rfl
@[simp] theorem onPart_nextInv (s : State) (p : BitVec 4) (f : Partition → Partition) : (onPart s p f).nextInv = s.nextInv := rfl
@[simp] theorem onPart_nextCopy (s : State) (p : BitVec 4) (f : Partition → Partition) : (onPart s p f).nextCopy = s.nextCopy := rfl
@[simp] theorem onPart_nextPlace (s : State) (p : BitVec 4) (f : Partition → Partition) : (onPart s p f).nextPlace = s.nextPlace := rfl
@[simp] theorem onPart_outbox (s : State) (p : BitVec 4) (f : Partition → Partition) : (onPart s p f).outbox = s.outbox := rfl
@[simp] theorem onPart_agenda (s : State) (p : BitVec 4) (f : Partition → Partition) : (onPart s p f).agenda = s.agenda := rfl
@[simp] theorem onPart_agentTurn (s : State) (p : BitVec 4) (f : Partition → Partition) : (onPart s p f).agentTurn = s.agentTurn := rfl
@[simp] theorem onPart_draws (s : State) (p : BitVec 4) (f : Partition → Partition) : (onPart s p f).draws = s.draws := rfl

/-! ## `onCore` -/

@[simp] theorem onCore_warp (s : State) (c : CoreRef) (f : Core → Core) : (onCore s c f).warp = s.warp := rfl
@[simp] theorem onCore_team (s : State) (c : CoreRef) (f : Core → Core) : (onCore s c f).team = s.team := rfl
@[simp] theorem onCore_teams (s : State) (c : CoreRef) (f : Core → Core) : (onCore s c f).teams = s.teams := rfl
@[simp] theorem onCore_grids (s : State) (c : CoreRef) (f : Core → Core) : (onCore s c f).grids = s.grids := rfl
@[simp] theorem onCore_parts (s : State) (c : CoreRef) (f : Core → Core) : (onCore s c f).parts = s.parts := rfl
@[simp] theorem onCore_cores (s : State) (c : CoreRef) (f : Core → Core) : (onCore s c f).cores = s.cores.setIfInBounds (corePlace c) (f (coreOf s c)) := rfl
@[simp] theorem onCore_clusters (s : State) (c : CoreRef) (f : Core → Core) : (onCore s c f).clusters = s.clusters := rfl
@[simp] theorem onCore_copies (s : State) (c : CoreRef) (f : Core → Core) : (onCore s c f).copies = s.copies := rfl
@[simp] theorem onCore_mem (s : State) (c : CoreRef) (f : Core → Core) : (onCore s c f).mem = s.mem := rfl
@[simp] theorem onCore_absent (s : State) (c : CoreRef) (f : Core → Core) : (onCore s c f).absent = s.absent := rfl
@[simp] theorem onCore_bad (s : State) (c : CoreRef) (f : Core → Core) : (onCore s c f).bad = s.bad := rfl
@[simp] theorem onCore_dirty (s : State) (c : CoreRef) (f : Core → Core) : (onCore s c f).dirty = s.dirty := rfl
@[simp] theorem onCore_icache (s : State) (c : CoreRef) (f : Core → Core) : (onCore s c f).icache = s.icache := rfl
@[simp] theorem onCore_xlate (s : State) (c : CoreRef) (f : Core → Core) : (onCore s c f).xlate = s.xlate := rfl
@[simp] theorem onCore_tables (s : State) (c : CoreRef) (f : Core → Core) : (onCore s c f).tables = s.tables := rfl
@[simp] theorem onCore_keytags (s : State) (c : CoreRef) (f : Core → Core) : (onCore s c f).keytags = s.keytags := rfl
@[simp] theorem onCore_bales (s : State) (c : CoreRef) (f : Core → Core) : (onCore s c f).bales = s.bales := rfl
@[simp] theorem onCore_badMap (s : State) (c : CoreRef) (f : Core → Core) : (onCore s c f).badMap = s.badMap := rfl
@[simp] theorem onCore_mgmt (s : State) (c : CoreRef) (f : Core → Core) : (onCore s c f).mgmt = s.mgmt := rfl
@[simp] theorem onCore_invalidations (s : State) (c : CoreRef) (f : Core → Core) : (onCore s c f).invalidations = s.invalidations := rfl
@[simp] theorem onCore_nextTeam (s : State) (c : CoreRef) (f : Core → Core) : (onCore s c f).nextTeam = s.nextTeam := rfl
@[simp] theorem onCore_nextGrid (s : State) (c : CoreRef) (f : Core → Core) : (onCore s c f).nextGrid = s.nextGrid := rfl
@[simp] theorem onCore_nextInv (s : State) (c : CoreRef) (f : Core → Core) : (onCore s c f).nextInv = s.nextInv := rfl
@[simp] theorem onCore_nextCopy (s : State) (c : CoreRef) (f : Core → Core) : (onCore s c f).nextCopy = s.nextCopy := rfl
@[simp] theorem onCore_nextPlace (s : State) (c : CoreRef) (f : Core → Core) : (onCore s c f).nextPlace = s.nextPlace := rfl
@[simp] theorem onCore_outbox (s : State) (c : CoreRef) (f : Core → Core) : (onCore s c f).outbox = s.outbox := rfl
@[simp] theorem onCore_agenda (s : State) (c : CoreRef) (f : Core → Core) : (onCore s c f).agenda = s.agenda := rfl
@[simp] theorem onCore_agentTurn (s : State) (c : CoreRef) (f : Core → Core) : (onCore s c f).agentTurn = s.agentTurn := rfl
@[simp] theorem onCore_draws (s : State) (c : CoreRef) (f : Core → Core) : (onCore s c f).draws = s.draws := rfl

/-! ## `onCluster` -/

@[simp] theorem onCluster_warp (s : State) (n : Nat) (f : Cluster → Cluster) : (onCluster s n f).warp = s.warp := rfl
@[simp] theorem onCluster_team (s : State) (n : Nat) (f : Cluster → Cluster) : (onCluster s n f).team = s.team := rfl
@[simp] theorem onCluster_teams (s : State) (n : Nat) (f : Cluster → Cluster) : (onCluster s n f).teams = s.teams := rfl
@[simp] theorem onCluster_grids (s : State) (n : Nat) (f : Cluster → Cluster) : (onCluster s n f).grids = s.grids := rfl
@[simp] theorem onCluster_parts (s : State) (n : Nat) (f : Cluster → Cluster) : (onCluster s n f).parts = s.parts := rfl
@[simp] theorem onCluster_cores (s : State) (n : Nat) (f : Cluster → Cluster) : (onCluster s n f).cores = s.cores := rfl
@[simp] theorem onCluster_clusters (s : State) (n : Nat) (f : Cluster → Cluster) : (onCluster s n f).clusters = s.clusters.setIfInBounds n (f (clusterOf s n)) := rfl
@[simp] theorem onCluster_copies (s : State) (n : Nat) (f : Cluster → Cluster) : (onCluster s n f).copies = s.copies := rfl
@[simp] theorem onCluster_mem (s : State) (n : Nat) (f : Cluster → Cluster) : (onCluster s n f).mem = s.mem := rfl
@[simp] theorem onCluster_absent (s : State) (n : Nat) (f : Cluster → Cluster) : (onCluster s n f).absent = s.absent := rfl
@[simp] theorem onCluster_bad (s : State) (n : Nat) (f : Cluster → Cluster) : (onCluster s n f).bad = s.bad := rfl
@[simp] theorem onCluster_dirty (s : State) (n : Nat) (f : Cluster → Cluster) : (onCluster s n f).dirty = s.dirty := rfl
@[simp] theorem onCluster_icache (s : State) (n : Nat) (f : Cluster → Cluster) : (onCluster s n f).icache = s.icache := rfl
@[simp] theorem onCluster_xlate (s : State) (n : Nat) (f : Cluster → Cluster) : (onCluster s n f).xlate = s.xlate := rfl
@[simp] theorem onCluster_tables (s : State) (n : Nat) (f : Cluster → Cluster) : (onCluster s n f).tables = s.tables := rfl
@[simp] theorem onCluster_keytags (s : State) (n : Nat) (f : Cluster → Cluster) : (onCluster s n f).keytags = s.keytags := rfl
@[simp] theorem onCluster_bales (s : State) (n : Nat) (f : Cluster → Cluster) : (onCluster s n f).bales = s.bales := rfl
@[simp] theorem onCluster_badMap (s : State) (n : Nat) (f : Cluster → Cluster) : (onCluster s n f).badMap = s.badMap := rfl
@[simp] theorem onCluster_mgmt (s : State) (n : Nat) (f : Cluster → Cluster) : (onCluster s n f).mgmt = s.mgmt := rfl
@[simp] theorem onCluster_invalidations (s : State) (n : Nat) (f : Cluster → Cluster) : (onCluster s n f).invalidations = s.invalidations := rfl
@[simp] theorem onCluster_nextTeam (s : State) (n : Nat) (f : Cluster → Cluster) : (onCluster s n f).nextTeam = s.nextTeam := rfl
@[simp] theorem onCluster_nextGrid (s : State) (n : Nat) (f : Cluster → Cluster) : (onCluster s n f).nextGrid = s.nextGrid := rfl
@[simp] theorem onCluster_nextInv (s : State) (n : Nat) (f : Cluster → Cluster) : (onCluster s n f).nextInv = s.nextInv := rfl
@[simp] theorem onCluster_nextCopy (s : State) (n : Nat) (f : Cluster → Cluster) : (onCluster s n f).nextCopy = s.nextCopy := rfl
@[simp] theorem onCluster_nextPlace (s : State) (n : Nat) (f : Cluster → Cluster) : (onCluster s n f).nextPlace = s.nextPlace := rfl
@[simp] theorem onCluster_outbox (s : State) (n : Nat) (f : Cluster → Cluster) : (onCluster s n f).outbox = s.outbox := rfl
@[simp] theorem onCluster_agenda (s : State) (n : Nat) (f : Cluster → Cluster) : (onCluster s n f).agenda = s.agenda := rfl
@[simp] theorem onCluster_agentTurn (s : State) (n : Nat) (f : Cluster → Cluster) : (onCluster s n f).agentTurn = s.agentTurn := rfl
@[simp] theorem onCluster_draws (s : State) (n : Nat) (f : Cluster → Cluster) : (onCluster s n f).draws = s.draws := rfl

/-! ## `setPresence` -/

@[simp] theorem setPresence_warp (s : State) (lines : List Nat) : (setPresence s lines).warp = s.warp := rfl
@[simp] theorem setPresence_team (s : State) (lines : List Nat) : (setPresence s lines).team = s.team := rfl
@[simp] theorem setPresence_teams (s : State) (lines : List Nat) : (setPresence s lines).teams = s.teams := rfl
@[simp] theorem setPresence_grids (s : State) (lines : List Nat) : (setPresence s lines).grids = s.grids := rfl
@[simp] theorem setPresence_parts (s : State) (lines : List Nat) : (setPresence s lines).parts = s.parts := rfl
@[simp] theorem setPresence_cores (s : State) (lines : List Nat) : (setPresence s lines).cores = s.cores := rfl
@[simp] theorem setPresence_clusters (s : State) (lines : List Nat) : (setPresence s lines).clusters = s.clusters := rfl
@[simp] theorem setPresence_copies (s : State) (lines : List Nat) : (setPresence s lines).copies = s.copies := rfl
@[simp] theorem setPresence_mem (s : State) (lines : List Nat) : (setPresence s lines).mem = s.mem := rfl
@[simp] theorem setPresence_absent (s : State) (lines : List Nat) : (setPresence s lines).absent = s.absent.filter fun l => !lines.contains l := rfl
@[simp] theorem setPresence_bad (s : State) (lines : List Nat) : (setPresence s lines).bad = s.bad := rfl
@[simp] theorem setPresence_dirty (s : State) (lines : List Nat) : (setPresence s lines).dirty = s.dirty := rfl
@[simp] theorem setPresence_icache (s : State) (lines : List Nat) : (setPresence s lines).icache = s.icache := rfl
@[simp] theorem setPresence_xlate (s : State) (lines : List Nat) : (setPresence s lines).xlate = s.xlate := rfl
@[simp] theorem setPresence_tables (s : State) (lines : List Nat) : (setPresence s lines).tables = s.tables := rfl
@[simp] theorem setPresence_keytags (s : State) (lines : List Nat) : (setPresence s lines).keytags = s.keytags := rfl
@[simp] theorem setPresence_bales (s : State) (lines : List Nat) : (setPresence s lines).bales = s.bales := rfl
@[simp] theorem setPresence_badMap (s : State) (lines : List Nat) : (setPresence s lines).badMap = s.badMap := rfl
@[simp] theorem setPresence_mgmt (s : State) (lines : List Nat) : (setPresence s lines).mgmt = s.mgmt := rfl
@[simp] theorem setPresence_invalidations (s : State) (lines : List Nat) : (setPresence s lines).invalidations = s.invalidations := rfl
@[simp] theorem setPresence_nextTeam (s : State) (lines : List Nat) : (setPresence s lines).nextTeam = s.nextTeam := rfl
@[simp] theorem setPresence_nextGrid (s : State) (lines : List Nat) : (setPresence s lines).nextGrid = s.nextGrid := rfl
@[simp] theorem setPresence_nextInv (s : State) (lines : List Nat) : (setPresence s lines).nextInv = s.nextInv := rfl
@[simp] theorem setPresence_nextCopy (s : State) (lines : List Nat) : (setPresence s lines).nextCopy = s.nextCopy := rfl
@[simp] theorem setPresence_nextPlace (s : State) (lines : List Nat) : (setPresence s lines).nextPlace = s.nextPlace := rfl
@[simp] theorem setPresence_outbox (s : State) (lines : List Nat) : (setPresence s lines).outbox = s.outbox := rfl
@[simp] theorem setPresence_agenda (s : State) (lines : List Nat) : (setPresence s lines).agenda = s.agenda := rfl
@[simp] theorem setPresence_agentTurn (s : State) (lines : List Nat) : (setPresence s lines).agentTurn = s.agentTurn := rfl
@[simp] theorem setPresence_draws (s : State) (lines : List Nat) : (setPresence s lines).draws = s.draws := rfl

/-! ## `clearPresence` -/

@[simp] theorem clearPresence_warp (s : State) (lines : List Nat) : (clearPresence s lines).warp = s.warp := rfl
@[simp] theorem clearPresence_team (s : State) (lines : List Nat) : (clearPresence s lines).team = s.team := rfl
@[simp] theorem clearPresence_teams (s : State) (lines : List Nat) : (clearPresence s lines).teams = s.teams := rfl
@[simp] theorem clearPresence_grids (s : State) (lines : List Nat) : (clearPresence s lines).grids = s.grids := rfl
@[simp] theorem clearPresence_parts (s : State) (lines : List Nat) : (clearPresence s lines).parts = s.parts := rfl
@[simp] theorem clearPresence_cores (s : State) (lines : List Nat) : (clearPresence s lines).cores = s.cores := rfl
@[simp] theorem clearPresence_clusters (s : State) (lines : List Nat) : (clearPresence s lines).clusters = s.clusters := rfl
@[simp] theorem clearPresence_copies (s : State) (lines : List Nat) : (clearPresence s lines).copies = s.copies := rfl
@[simp] theorem clearPresence_mem (s : State) (lines : List Nat) : (clearPresence s lines).mem = s.mem := rfl
@[simp] theorem clearPresence_absent (s : State) (lines : List Nat) : (clearPresence s lines).absent = lines.foldl (fun acc l => if acc.contains l then acc else l :: acc) s.absent := rfl
@[simp] theorem clearPresence_bad (s : State) (lines : List Nat) : (clearPresence s lines).bad = s.bad := rfl
@[simp] theorem clearPresence_dirty (s : State) (lines : List Nat) : (clearPresence s lines).dirty = s.dirty := rfl
@[simp] theorem clearPresence_icache (s : State) (lines : List Nat) : (clearPresence s lines).icache = s.icache := rfl
@[simp] theorem clearPresence_xlate (s : State) (lines : List Nat) : (clearPresence s lines).xlate = s.xlate := rfl
@[simp] theorem clearPresence_tables (s : State) (lines : List Nat) : (clearPresence s lines).tables = s.tables := rfl
@[simp] theorem clearPresence_keytags (s : State) (lines : List Nat) : (clearPresence s lines).keytags = s.keytags := rfl
@[simp] theorem clearPresence_bales (s : State) (lines : List Nat) : (clearPresence s lines).bales = s.bales := rfl
@[simp] theorem clearPresence_badMap (s : State) (lines : List Nat) : (clearPresence s lines).badMap = s.badMap := rfl
@[simp] theorem clearPresence_mgmt (s : State) (lines : List Nat) : (clearPresence s lines).mgmt = s.mgmt := rfl
@[simp] theorem clearPresence_invalidations (s : State) (lines : List Nat) : (clearPresence s lines).invalidations = s.invalidations := rfl
@[simp] theorem clearPresence_nextTeam (s : State) (lines : List Nat) : (clearPresence s lines).nextTeam = s.nextTeam := rfl
@[simp] theorem clearPresence_nextGrid (s : State) (lines : List Nat) : (clearPresence s lines).nextGrid = s.nextGrid := rfl
@[simp] theorem clearPresence_nextInv (s : State) (lines : List Nat) : (clearPresence s lines).nextInv = s.nextInv := rfl
@[simp] theorem clearPresence_nextCopy (s : State) (lines : List Nat) : (clearPresence s lines).nextCopy = s.nextCopy := rfl
@[simp] theorem clearPresence_nextPlace (s : State) (lines : List Nat) : (clearPresence s lines).nextPlace = s.nextPlace := rfl
@[simp] theorem clearPresence_outbox (s : State) (lines : List Nat) : (clearPresence s lines).outbox = s.outbox := rfl
@[simp] theorem clearPresence_agenda (s : State) (lines : List Nat) : (clearPresence s lines).agenda = s.agenda := rfl
@[simp] theorem clearPresence_agentTurn (s : State) (lines : List Nat) : (clearPresence s lines).agentTurn = s.agentTurn := rfl
@[simp] theorem clearPresence_draws (s : State) (lines : List Nat) : (clearPresence s lines).draws = s.draws := rfl

/-! ## `cleanLine` -/

@[simp] theorem cleanLine_warp (s : State) (line : Nat) : (cleanLine s line).warp = s.warp := rfl
@[simp] theorem cleanLine_team (s : State) (line : Nat) : (cleanLine s line).team = s.team := rfl
@[simp] theorem cleanLine_teams (s : State) (line : Nat) : (cleanLine s line).teams = s.teams := rfl
@[simp] theorem cleanLine_grids (s : State) (line : Nat) : (cleanLine s line).grids = s.grids := rfl
@[simp] theorem cleanLine_parts (s : State) (line : Nat) : (cleanLine s line).parts = s.parts := rfl
@[simp] theorem cleanLine_cores (s : State) (line : Nat) : (cleanLine s line).cores = s.cores := rfl
@[simp] theorem cleanLine_clusters (s : State) (line : Nat) : (cleanLine s line).clusters = s.clusters := rfl
@[simp] theorem cleanLine_copies (s : State) (line : Nat) : (cleanLine s line).copies = s.copies := rfl
@[simp] theorem cleanLine_mem (s : State) (line : Nat) : (cleanLine s line).mem = s.mem := rfl
@[simp] theorem cleanLine_absent (s : State) (line : Nat) : (cleanLine s line).absent = s.absent := rfl
@[simp] theorem cleanLine_bad (s : State) (line : Nat) : (cleanLine s line).bad = s.bad := rfl
@[simp] theorem cleanLine_dirty (s : State) (line : Nat) : (cleanLine s line).dirty = s.dirty.filter fun d => d.line != line := rfl
@[simp] theorem cleanLine_icache (s : State) (line : Nat) : (cleanLine s line).icache = s.icache := rfl
@[simp] theorem cleanLine_xlate (s : State) (line : Nat) : (cleanLine s line).xlate = s.xlate := rfl
@[simp] theorem cleanLine_tables (s : State) (line : Nat) : (cleanLine s line).tables = s.tables := rfl
@[simp] theorem cleanLine_keytags (s : State) (line : Nat) : (cleanLine s line).keytags = s.keytags := rfl
@[simp] theorem cleanLine_bales (s : State) (line : Nat) : (cleanLine s line).bales = s.bales := rfl
@[simp] theorem cleanLine_badMap (s : State) (line : Nat) : (cleanLine s line).badMap = s.badMap := rfl
@[simp] theorem cleanLine_mgmt (s : State) (line : Nat) : (cleanLine s line).mgmt = s.mgmt := rfl
@[simp] theorem cleanLine_invalidations (s : State) (line : Nat) : (cleanLine s line).invalidations = s.invalidations := rfl
@[simp] theorem cleanLine_nextTeam (s : State) (line : Nat) : (cleanLine s line).nextTeam = s.nextTeam := rfl
@[simp] theorem cleanLine_nextGrid (s : State) (line : Nat) : (cleanLine s line).nextGrid = s.nextGrid := rfl
@[simp] theorem cleanLine_nextInv (s : State) (line : Nat) : (cleanLine s line).nextInv = s.nextInv := rfl
@[simp] theorem cleanLine_nextCopy (s : State) (line : Nat) : (cleanLine s line).nextCopy = s.nextCopy := rfl
@[simp] theorem cleanLine_nextPlace (s : State) (line : Nat) : (cleanLine s line).nextPlace = s.nextPlace := rfl
@[simp] theorem cleanLine_outbox (s : State) (line : Nat) : (cleanLine s line).outbox = s.outbox := rfl
@[simp] theorem cleanLine_agenda (s : State) (line : Nat) : (cleanLine s line).agenda = s.agenda := rfl
@[simp] theorem cleanLine_agentTurn (s : State) (line : Nat) : (cleanLine s line).agentTurn = s.agentTurn := rfl
@[simp] theorem cleanLine_draws (s : State) (line : Nat) : (cleanLine s line).draws = s.draws := rfl

/-! ## `freshCheck` -/

@[simp] theorem freshCheck_warp (s : State) (pa n : Nat) : (freshCheck s pa n).warp = s.warp := rfl
@[simp] theorem freshCheck_team (s : State) (pa n : Nat) : (freshCheck s pa n).team = s.team := rfl
@[simp] theorem freshCheck_teams (s : State) (pa n : Nat) : (freshCheck s pa n).teams = s.teams := rfl
@[simp] theorem freshCheck_grids (s : State) (pa n : Nat) : (freshCheck s pa n).grids = s.grids := rfl
@[simp] theorem freshCheck_parts (s : State) (pa n : Nat) : (freshCheck s pa n).parts = s.parts := rfl
@[simp] theorem freshCheck_cores (s : State) (pa n : Nat) : (freshCheck s pa n).cores = s.cores := rfl
@[simp] theorem freshCheck_clusters (s : State) (pa n : Nat) : (freshCheck s pa n).clusters = s.clusters := rfl
@[simp] theorem freshCheck_copies (s : State) (pa n : Nat) : (freshCheck s pa n).copies = s.copies := rfl
@[simp] theorem freshCheck_mem (s : State) (pa n : Nat) : (freshCheck s pa n).mem = s.mem := rfl
@[simp] theorem freshCheck_absent (s : State) (pa n : Nat) : (freshCheck s pa n).absent = s.absent := rfl
@[simp] theorem freshCheck_bad (s : State) (pa n : Nat) : (freshCheck s pa n).bad = s.bad.filter fun g => !(pa / 8 ≤ g && g < (pa + n) / 8) := rfl
@[simp] theorem freshCheck_dirty (s : State) (pa n : Nat) : (freshCheck s pa n).dirty = s.dirty := rfl
@[simp] theorem freshCheck_icache (s : State) (pa n : Nat) : (freshCheck s pa n).icache = s.icache := rfl
@[simp] theorem freshCheck_xlate (s : State) (pa n : Nat) : (freshCheck s pa n).xlate = s.xlate := rfl
@[simp] theorem freshCheck_tables (s : State) (pa n : Nat) : (freshCheck s pa n).tables = s.tables := rfl
@[simp] theorem freshCheck_keytags (s : State) (pa n : Nat) : (freshCheck s pa n).keytags = s.keytags := rfl
@[simp] theorem freshCheck_bales (s : State) (pa n : Nat) : (freshCheck s pa n).bales = s.bales := rfl
@[simp] theorem freshCheck_badMap (s : State) (pa n : Nat) : (freshCheck s pa n).badMap = s.badMap := rfl
@[simp] theorem freshCheck_mgmt (s : State) (pa n : Nat) : (freshCheck s pa n).mgmt = s.mgmt := rfl
@[simp] theorem freshCheck_invalidations (s : State) (pa n : Nat) : (freshCheck s pa n).invalidations = s.invalidations := rfl
@[simp] theorem freshCheck_nextTeam (s : State) (pa n : Nat) : (freshCheck s pa n).nextTeam = s.nextTeam := rfl
@[simp] theorem freshCheck_nextGrid (s : State) (pa n : Nat) : (freshCheck s pa n).nextGrid = s.nextGrid := rfl
@[simp] theorem freshCheck_nextInv (s : State) (pa n : Nat) : (freshCheck s pa n).nextInv = s.nextInv := rfl
@[simp] theorem freshCheck_nextCopy (s : State) (pa n : Nat) : (freshCheck s pa n).nextCopy = s.nextCopy := rfl
@[simp] theorem freshCheck_nextPlace (s : State) (pa n : Nat) : (freshCheck s pa n).nextPlace = s.nextPlace := rfl
@[simp] theorem freshCheck_outbox (s : State) (pa n : Nat) : (freshCheck s pa n).outbox = s.outbox := rfl
@[simp] theorem freshCheck_agenda (s : State) (pa n : Nat) : (freshCheck s pa n).agenda = s.agenda := rfl
@[simp] theorem freshCheck_agentTurn (s : State) (pa n : Nat) : (freshCheck s pa n).agentTurn = s.agentTurn := rfl
@[simp] theorem freshCheck_draws (s : State) (pa n : Nat) : (freshCheck s pa n).draws = s.draws := rfl

end Sys2Proof.Machine
end

