-- ==== Sys2Proof/Laws/Warp.lean ====
section
/-! SUPPORT. The operations on a warp: what each reads, writes and leaves, for the registers, the visibility of results, the position and the commit. -/
namespace Sys2Proof.Machine
open Sys2Proof

/-! ## Registers -/

@[simp] theorem readS_zero (w : Warp) : w.readS 0#6 = 0#64 := rfl

@[simp] theorem readM_zero (w : Warp) : w.readM 0#3 = BitVec.allOnes 1024 := rfl

/-- A register file after a write of one entry, by the register's number. -/
theorem file_set {α : Type} {n k : Nat} (file : Vector α k) (d r : BitVec n) (v : α) (hd : d.toNat < k) (hr : r.toNat < k) :
    (file.set d.toNat v hd).get ⟨r.toNat, hr⟩ = if r = d then v else file.get ⟨r.toNat, hr⟩ := by
  simp only [Vector.get_eq_getElem, Vector.getElem_set, ← BitVec.toNat_inj, eq_comm]

/-- A uniform register read after a write. -/
theorem readS_setS (w : Warp) (d r : BitVec 6) (v : Word) :
    (w.setS d v).readS r = if r = d then (if d = 0#6 then 0#64 else v) else w.readS r := by
  have h := file_set w.s d r v d.isLt r.isLt
  rcases eq_or_ne d 0#6 with rfl | hd
  · rcases eq_or_ne r 0#6 with rfl | hr <;> simp_all [Warp.setS, Warp.readS]
  · rcases eq_or_ne r 0#6 with rfl | hr <;> simp_all [Warp.setS, Warp.readS, hd.symm]

/-- A mask register read after a write. -/
theorem readM_setM (w : Warp) (d r : BitVec 3) (v : BitVec 1024) :
    (w.setM d v).readM r = if r = d then (if d = 0#3 then BitVec.allOnes 1024 else v) else w.readM r := by
  have h := file_set w.m d r v d.isLt r.isLt
  rcases eq_or_ne d 0#3 with rfl | hd
  · rcases eq_or_ne r 0#3 with rfl | hr <;> simp_all [Warp.setM, Warp.readM]
  · rcases eq_or_ne r 0#3 with rfl | hr <;> simp_all [Warp.setM, Warp.readM, hd.symm]

theorem setS_eq (w : Warp) (d : BitVec 6) (v : Word) : w.setS d v = { w with s := (w.setS d v).s } := by
  unfold Warp.setS; split <;> rfl

theorem setM_eq (w : Warp) (d : BitVec 3) (v : BitVec 1024) : w.setM d v = { w with m := (w.setM d v).m } := by
  unfold Warp.setM; split <;> rfl

/-! ## Visible writes -/

theorem showS_eq (w : Warp) (q : Nat) (d : BitVec 6) (v : Word) :
    w.showS q d v = { w with s := (w.setS d v).s, pending := (w.showS q d v).pending } := by
  unfold Warp.showS; rw [setS_eq]

theorem showLanes_eq (w : Warp) (q : Nat) (ws : List LaneWrite) :
    w.showLanes q ws = { w with v := applyWrites w.v ws, pending := (w.showLanes q ws).pending } := rfl

/-- An interlocked write of a uniform register changes that register, and what pending results still write. -/
theorem writeS_eq (w : Warp) (d : BitVec 6) (v : Word) :
    w.writeS d v = { w with s := (w.setS d v).s, pending := (w.writeS d v).pending } := showS_eq w w.seq d v

theorem writeLanes_eq (w : Warp) (ws : List LaneWrite) :
    w.writeLanes ws = { w with v := applyWrites w.v ws, pending := (w.writeLanes ws).pending } := rfl

theorem showS_pending (w : Warp) (q : Nat) (r : BitVec 6) (v : Word) :
    (w.showS q r v).pending.map Outstanding.apartS = w.pending.map Outstanding.apartS := by
  simp only [Warp.showS, List.map_map]
  apply List.map_congr_left
  intro o _
  simp only [Function.comp]
  split <;> rfl

theorem showLanes_pending (w : Warp) (q : Nat) (ws : List LaneWrite) :
    (w.showLanes q ws).pending.map Outstanding.apartV = w.pending.map Outstanding.apartV := by
  simp only [Warp.showLanes, List.map_map]
  apply List.map_congr_left
  intro o _
  simp only [Function.comp]
  split <;> rfl

theorem writeS_pending (w : Warp) (d : BitVec 6) (v : Word) :
    (w.writeS d v).pending.map Outstanding.apartS = w.pending.map Outstanding.apartS := showS_pending w w.seq d v

theorem writeLanes_pending (w : Warp) (ws : List LaneWrite) :
    (w.writeLanes ws).pending.map Outstanding.apartV = w.pending.map Outstanding.apartV := showLanes_pending w w.seq ws

/-- R36: what an interlocked write of a uniform register stops. -/
theorem writeS_stops (w : Warp) (d : BitVec 6) (v : Word) : (w.writeS d v).pending = w.stoppedS d := by
  have hs : ∀ o : Outstanding, { o with sWrite := stripS d o.sWrite } = if o.sWrite.map Prod.fst = some d then o.apartS else o := by
    rintro ⟨⟩
    rename_i x _ _
    rcases x with _ | ⟨r, v⟩
    · simp [stripS]
    · by_cases hr : r = d <;> simp [stripS, hr, Outstanding.apartS]
  simp only [Warp.writeS, Warp.showS, Warp.stoppedS, hs]
  apply List.map_congr_left
  intro o _
  by_cases h1 : o.seq < w.seq <;> by_cases h2 : o.sWrite.map Prod.fst = some d <;> simp [h1, h2]

/-- What is left of the mask of an earlier pending write (R36). -/
theorem stripMask_getLsbD (later : List LaneWrite) (lane : Nat) (m : LaneWord) (b : Nat) (hb : b < 32) :
    (later.foldl (fun m y => if y.lane = lane then m &&& ~~~y.mask else m) m).getLsbD b = true ↔
      m.getLsbD b = true ∧ ¬∃ y ∈ later, y.lane = lane ∧ y.mask.getLsbD b = true := by
  induction later generalizing m with
  | nil => simp
  | cons y rest ih =>
    rw [List.foldl_cons, ih]
    by_cases h : y.lane = lane
    · simp [h, hb, and_assoc]
    · simp [h]

/-- R36: what interlocked writes of lane words stop. -/
theorem writeLanes_stops (w : Warp) (ws : List LaneWrite) :
    stopsV w (w.writeLanes ws) fun lane b => ∃ y ∈ ws, y.lane = lane ∧ y.mask.getLsbD b = true := by
  simp only [stopsV, Warp.writeLanes, Warp.showLanes, List.forall₂_map_right_iff, List.forall₂_same]
  intro o _
  by_cases h : o.seq < w.seq
  · simp only [h, if_true, stripWrites, List.forall₂_map_right_iff, List.forall₂_same, true_and]
    exact ⟨rfl, fun y _ b hb => stripMask_getLsbD ws y.lane y.mask b hb⟩
  · simp [h]

theorem readS_writeS (w : Warp) (d r : BitVec 6) (v : Word) :
    (w.writeS d v).readS r = if r = d then (if d = 0#6 then 0#64 else v) else w.readS r := by
  have h : (w.writeS d v).readS r = (w.setS d v).readS r := by
    rw [writeS_eq]
    conv => rhs; rw [setS_eq]
    rfl
  rw [h, readS_setS]

/-- The uniform registers after an interlocked write (`wroteS`). -/
theorem wroteS_writeS (w : Warp) (d : BitVec 6) (v : Word) : wroteS w (w.writeS d v) d v :=
  ⟨by simp [readS_writeS], fun r hr => by simp [readS_writeS, hr]⟩

/-! ## Lane words -/

theorem applyWrites_nil (v : List LaneWord) : applyWrites v [] = v := rfl

theorem applyWrites_append (v : List LaneWord) (xs ys : List LaneWrite) :
    applyWrites v (xs ++ ys) = applyWrites (applyWrites v xs) ys := by simp [applyWrites, List.foldl_append]

@[simp] theorem applyWrites_length (v : List LaneWord) (ws : List LaneWrite) : (applyWrites v ws).length = v.length := by
  induction ws generalizing v with
  | nil => rfl
  | cons x rest ih => simp only [applyWrites, List.foldl_cons] at *; rw [ih]; simp

/-- One lane word written under a mask. -/
theorem applyWrites_one (v : List LaneWord) (x : LaneWrite) (i : Nat) :
    (applyWrites v [x]).getD i 0#32 =
      if i = x.lane ∧ i < v.length then blend x.mask (v.getD i 0#32) x.value else v.getD i 0#32 := by
  simp only [applyWrites, List.foldl_cons, List.foldl_nil, List.getD_eq_getElem?_getD, List.getElem?_modify]
  by_cases h : i < v.length
  · by_cases hx : i = x.lane
    · subst hx; simp [h]
    · have hx' : ¬ x.lane = i := fun e => hx e.symm
      simp [h, hx, hx']
  · simp [h]

/-- Lane words that no write names stay. -/
theorem applyWrites_other (v : List LaneWord) (ws : List LaneWrite) (i : Nat) (h : ∀ x ∈ ws, x.lane ≠ i) :
    (applyWrites v ws).getD i 0#32 = v.getD i 0#32 := by
  induction ws generalizing v with
  | nil => rfl
  | cons x rest ih =>
    have hx : i ≠ x.lane := fun e => h x (List.mem_cons_self ..) e.symm
    have hs : applyWrites v (x :: rest) = applyWrites (applyWrites v [x]) rest := rfl
    rw [hs, ih _ fun y hy => h y (List.mem_cons_of_mem _ hy), applyWrites_one]
    simp [hx]

/-! ## Positions -/

theorem yieldHint_eq (w : Warp) (p : Position) : ∃ a b, w.yieldHint p = { w with yieldOff := a, yieldLow := b } := by
  unfold Warp.yieldHint
  split
  · exact ⟨_, _, rfl⟩
  · split
    · exact ⟨_, _, rfl⟩
    · split <;> exact ⟨_, _, rfl⟩

/-- Moving on changes a warp's position or its lanes, and the issue bookkeeping. -/
theorem moveTo_eq (w : Warp) (f : Nat → Position → Position) :
    w.moveTo f = { w with pos := (w.moveTo f).pos, lanes := (w.moveTo f).lanes } := by
  have h : ∃ p l, w.moveTo f = { w with pos := p, lanes := l } := by
    unfold Warp.moveTo
    split
    · exact ⟨_, w.lanes, rfl⟩
    · split
      · exact ⟨w.pos, _, rfl⟩
      · exact ⟨w.pos, w.lanes, rfl⟩
  obtain ⟨p, l, h⟩ := h
  rw [h]

theorem advance_eq (w : Warp) :
    ∃ a b, w.advance = { w with
      pos := w.advance.pos, lanes := w.advance.lanes, yieldOff := a, yieldLow := b, wait := 0, urgent := false, park := .none, service := {}, paid := false } := by
  obtain ⟨a, b, h⟩ := yieldHint_eq w w.at
  refine ⟨a, b, ?_⟩
  unfold Warp.advance
  rw [h]
  unfold Warp.issued
  rw [moveTo_eq]

/-- Outside lane mode a warp goes on at the word after its own. -/
theorem advance_uniform (w : Warp) (hl : w.lanes = none) :
    ∃ a b, w.advance = { w with pos := w.pos.after, yieldOff := a, yieldLow := b, wait := 0, urgent := false, park := .none, service := {}, paid := false } := by
  obtain ⟨a, b, h⟩ := yieldHint_eq w w.at
  exact ⟨a, b, by simp only [Warp.advance, h, Warp.moveTo, hl, Warp.issued]⟩

theorem goto_uniform (w : Warp) (target : Int) (hl : w.lanes = none) :
    ∃ a b, w.goto target = { w with pos := { hdr := target }, yieldOff := a, yieldLow := b, wait := 0, urgent := false, park := .none, service := {}, paid := false } := by
  obtain ⟨a, b, h⟩ := yieldHint_eq w w.at
  exact ⟨a, b, by simp only [Warp.goto, h, Warp.moveTo, hl, Warp.issued]⟩

theorem advance_pos (w : Warp) (hl : w.lanes = none) : w.advance.pos = w.pos.after := by
  obtain ⟨a, b, h⟩ := advance_uniform w hl; rw [h]

theorem at_uniform (w : Warp) (hl : w.lanes = none) : w.at = w.pos := by simp [Warp.at, hl]

theorem inLanes_none (w : Warp) (hl : w.lanes = none) : w.inLanes = false := by simp [Warp.inLanes, hl]

/-! ## The commit (02_words_and_registers.md R35, R36, R38) -/

/-- One committed result. -/
def Warp.show1 (w : Warp) (o : Outstanding) : Warp :=
  ((match o.sWrite with
    | some (r, v) => (w.showLanes o.seq o.vWrites).showS o.seq r v
    | none => w.showLanes o.seq o.vWrites)).raise o.status

theorem commit_eq (w : Warp) (p : Outstanding → Bool) :
    w.commit p = ((w.pending.filter p).foldl Warp.show1 { w with pending := w.pending.filter fun o => !p o },
      (w.pending.filter p).find? fun o => o.fault.isSome) := rfl

theorem show1_eq (w : Warp) (o : Outstanding) :
    w.show1 o = { w with s := (w.show1 o).s, v := applyWrites w.v o.vWrites, fpstat := w.fpstat ||| o.status, pending := (w.show1 o).pending } := by
  unfold Warp.show1 Warp.raise
  cases o.sWrite with
  | none => rfl
  | some x => obtain ⟨r, v⟩ := x; simp only; rw [showS_eq]; rfl

/-- A commit changes registers, FPSTAT and the pending results, and nothing else of the warp. -/
theorem commit_frame (w : Warp) (p : Outstanding → Bool) :
    (w.commit p).1 = { w with s := (w.commit p).1.s, v := (w.commit p).1.v, fpstat := (w.commit p).1.fpstat, pending := (w.commit p).1.pending } := by
  have h : ∀ (os : List Outstanding) (x : Warp), os.foldl Warp.show1 x =
      { x with s := (os.foldl Warp.show1 x).s, v := (os.foldl Warp.show1 x).v, fpstat := (os.foldl Warp.show1 x).fpstat, pending := (os.foldl Warp.show1 x).pending } := by
    intro os
    induction os with
    | nil => intro x; rfl
    | cons o rest ih => intro x; simp only [List.foldl_cons]; rw [ih]; rw [show1_eq]
  rw [commit_eq]
  exact h _ _

theorem commit_v (w : Warp) (p : Outstanding → Bool) :
    (w.commit p).1.v = applyWrites w.v ((w.pending.filter p).flatMap (·.vWrites)) := by
  have h : ∀ (os : List Outstanding) (x : Warp), (os.foldl Warp.show1 x).v = applyWrites x.v (os.flatMap (·.vWrites)) := by
    intro os
    induction os with
    | nil => intro x; rfl
    | cons o rest ih =>
      intro x
      simp only [List.foldl_cons, List.flatMap_cons]
      rw [ih, applyWrites_append, show1_eq]
  rw [commit_eq]
  exact h _ _

theorem commit_lanes (w : Warp) (p : Outstanding → Bool) : (w.commit p).1.lanes = w.lanes := by rw [commit_frame]

theorem commit_pos (w : Warp) (p : Outstanding → Bool) : (w.commit p).1.pos = w.pos := by rw [commit_frame]

end Sys2Proof.Machine
end

