-- ==== Sys2Proof/Laws/Issue.lean ====
section
/-! SUPPORT. What the operations that meanings share answer: checks at issue, words on the uniform datapath and in lane mode, commit points, traps, results of flag-capable instructions, the toll. -/
namespace Sys2Proof.Machine
open Sys2Proof

/-! ## Checks at issue (R32) -/

/-- Every check holds: the word has its effect. -/
theorem guarded_pass {cs : List (Bool × IllegalReason)} {s : State} {k : State → State} (h : ∀ c ∈ cs, c.1 = true) :
    guarded cs s k = .next (k s) := by
  unfold guarded
  have : cs.find? (fun c => !c.1) = none := by
    rw [List.find?_eq_none]
    intro c hc
    simp [h c hc]
  rw [this]

/-- The first check that fails decides the reason. -/
theorem guarded_fail {before after : List (Bool × IllegalReason)} {s : State} {k : State → State} (r : IllegalReason)
    (h : ∀ c ∈ before, c.1 = true) : guarded (before ++ (false, r) :: after) s k = .next (illegal s r) := by
  unfold guarded
  have : (before ++ (false, r) :: after).find? (fun c => !c.1) = some (false, r) := by
    rw [List.find?_append]
    have hb : before.find? (fun c => !c.1) = none := by
      rw [List.find?_eq_none]
      intro c hc
      simp [h c hc]
    rw [hb]
    simp
  rw [this]

/-- A word that is checked at issue always goes on, with its effect or with its trap. -/
theorem guarded_next (cs : List (Bool × IllegalReason)) (s : State) (k : State → State) :
    guarded cs s k = .next (k s) ∨ ∃ r, guarded cs s k = .next (illegal s r) := by
  unfold guarded
  split
  · exact .inr ⟨_, rfl⟩
  · exact .inl rfl

/-! ## Words on the uniform datapath and in lane mode (R74, R84) -/

theorem uniformWord_eq {s : State} (hl : s.warp.lanes = none) (f : State → State) : uniformWord s f = .next ((f s).advance) :=
  guarded_pass (by simp [vectorOnly, inLanes_none _ hl])

theorem scalarWord_uniform {s : State} (hl : s.warp.lanes = none) (regs : List (BitVec 6)) (d : BitVec 6) (f : Word) (g : Nat → LaneWord) :
    scalarWord s regs d f g = .next ((s.onWarp fun w => w.writeS d f).advance) := by
  simp [scalarWord, inLanes_none _ hl]

theorem scalarWord_lanes {s : State} (hl : s.warp.inLanes = true) (regs : List (BitVec 6)) (d : BitVec 6) (f : Word) (g : Nat → LaneWord) :
    scalarWord s regs d f g = laneWord s regs d g := by
  simp [scalarWord, hl]

theorem laneWord_eq {s : State} {regs : List (BitVec 6)} (h : ∀ r ∈ regs, regOk s r = true) (d : BitVec 6) (f : Nat → LaneWord) :
    laneWord s regs d f = .next ((s.onWarp fun w => w.writeLanes (w.group.map fun l => laneWrite s d l (f l))).advance) :=
  guarded_pass (by
    intro c hc
    simp only [List.mem_map] at hc
    obtain ⟨r, hr, rfl⟩ := hc
    exact h r hr)

/-- Everything that a uniform result followed by the next word changes: `gives` of Safety.lean. -/
theorem gives_of {i : Instr} {s : State} {d : BitVec 6} {v : Word} (hl : s.warp.lanes = none)
    (h : exec i s = .next ((s.onWarp fun w => w.writeS d v).advance)) : gives i s d v := by
  have hw : (s.warp.writeS d v).lanes = none := by rw [writeS_eq]; exact hl
  obtain ⟨a, b, hab⟩ := advance_uniform (s.warp.writeS d v) hw
  have hp : (s.warp.writeS d v).pos = s.warp.pos := by rw [writeS_eq]
  have ws := wroteS_writeS s.warp d v
  refine ⟨_, h, ⟨?_, ?_⟩, ?_, ?_, ⟨?_, ?_⟩⟩
  · have := ws.1; simp only [State.advance, State.onWarp, hab]; simpa [Warp.readS] using this
  · intro r hr; have := ws.2 r hr; simp only [State.advance, State.onWarp, hab]; simpa [Warp.readS] using this
  · simp only [State.advance, State.onWarp, hab]
    exact writeS_stops ..
  · simp only [State.advance, State.onWarp, hab, hp]
  · simp only [State.advance, State.onWarp, hab]
    rw [writeS_eq]
  · simp only [State.advance, State.onWarp, hab]
    exact writeS_pending ..

/-- A two-operand word outside lane mode. -/
theorem binary_uniform {s : State} (hl : s.warp.lanes = none) (d a b : BitVec 6) (f : (n : Nat) → BitVec n → BitVec n → BitVec n) :
    binary s d a b f = .next ((s.onWarp fun w => w.writeS d (f 64 (s.warp.readS a) (s.warp.readS b))).advance) := by
  simp [binary, scalarWord_uniform hl]

/-! ## Flag-capable results (R34, R35) -/

/-- Without a flag a result is visible at once. -/
theorem bear_none (s : State) (o : Outstanding) :
    s.bear .none o = s.onWarp fun w =>
      (match o.sWrite with
        | some (r, v) => (w.writeLanes o.vWrites).writeS r v
        | none => w.writeLanes o.vWrites).raise o.status := by
  unfold State.bear
  cases o.sWrite <;> rfl

/-- With a flag nothing is visible: the result is appended to the pending ones, and an error that it met is met. -/
theorem bear_flag (s : State) (fs : FSel) (o : Outstanding) (h : fs ≠ .none) :
    s.bear fs o = (s.meeting o.fault).onWarp fun w => { w with
      pending := w.pending ++ [{ o with seq := w.seq, pc := addrWord w.at.pc, home := w.at.hdr, flag := flagOf w.at fs,
                                        fault := o.fault.map fun x => (x.1.settled, x.2) }]
      seq := w.seq + 1 } := by
  cases fs with
  | none => exact absurd rfl h
  | a => rfl
  | b => rfl

/-- A result without a fault meets no error. -/
theorem meeting_none (s : State) : s.meeting none = s := rfl

/-! ## Errors that are met (09 R200) -/

/-- An error that has been met changes the record of errors, and nothing else. -/
theorem metErrors_eq (s : State) (sp : Span) :
    metErrors s sp = { s with bad := (metErrors s sp).bad, badMap := (metErrors s sp).badMap, dirty := (metErrors s sp).dirty } := by
  unfold metErrors
  split <;> rfl

/-- What the caches keep of an access changes them, and nothing else. -/
theorem keepPage_eq (s : State) (part : BitVec 4) (va : Nat) :
    keepPage s part va = { s with tables := (keepPage s part va).tables, xlate := (keepPage s part va).xlate } := by
  unfold keepPage
  split <;> rfl

theorem keepPages_eq (s : State) (part : BitVec 4) (vas : List Nat) :
    keepPages s part vas = { s with tables := (keepPages s part vas).tables, xlate := (keepPages s part vas).xlate } := by
  unfold keepPages
  induction ((vas.map (· / 65536)).eraseDups) generalizing s with
  | nil => rfl
  | cons v rest ih =>
    rw [List.foldl_cons]
    refine (ih _).trans ?_
    rw [keepPage_eq]

/-- A fault that is met changes the record of errors and what the translation caches keep, and nothing else. -/
theorem metFor_eq (s : State) (part : BitVec 4) (r : Report) :
    metFor s part r = { s with
      bad := (metFor s part r).bad, badMap := (metFor s part r).badMap, dirty := (metFor s part r).dirty
      tables := (metFor s part r).tables, xlate := (metFor s part r).xlate } := by
  unfold metFor
  cases r.walk <;> cases r.met <;> simp only <;> first | rfl | rw [metErrors_eq] | skip
  all_goals rw [keepPages_eq]

theorem met_eq (s : State) (r : Report) :
    s.met r = { s with
      bad := (s.met r).bad, badMap := (s.met r).badMap, dirty := (s.met r).dirty, tables := (s.met r).tables, xlate := (s.met r).xlate } :=
  metFor_eq s _ r

@[simp] theorem met_warp (s : State) (r : Report) : (s.met r).warp = s.warp := by rw [met_eq]
@[simp] theorem met_mem (s : State) (r : Report) : (s.met r).mem = s.mem := by rw [met_eq]
@[simp] theorem met_parts (s : State) (r : Report) : (s.met r).parts = s.parts := by rw [met_eq]
@[simp] theorem met_team (s : State) (r : Report) : (s.met r).team = s.team := by rw [met_eq]

/-- A report that met no error and walked no tables leaves the state. -/
theorem met_none (s : State) {r : Report} (h : r.met = none) (hw : r.walk = none) : s.met r = s := by simp [State.met, metFor, h, hw]

/-! ## The toll gate (R375, R377) -/

/-- Drawing a lease changes the issuing core and the lease. -/
theorem drawLease_eq (s : State) (n : Nat) :
    drawLease s n = { s with cores := (drawLease s n).cores, warp := { s.warp with lease := (drawLease s n).warp.lease } } := by
  unfold drawLease
  simp only
  split <;> rfl

/-- A dispatch changes the issuing core, the lease, and the note that the word has been charged. -/
theorem dispatched_eq (s : State) (n : Nat) :
    s.dispatched n = { s with
      cores := (s.dispatched n).cores
      warp := { s.warp with lease := (s.dispatched n).warp.lease, paid := (s.dispatched n).warp.paid } } := by
  unfold State.dispatched
  split
  · rfl
  · rw [drawLease_eq]; rfl

/-- A word without a charge passes the gate. -/
@[simp] theorem tolled_zero (s : State) (k : State → State) : tolled s 0 k = k s := by
  simp [tolled, State.credit, State.dispatched]

/-- Everything the gate can do: the dispatch, or the park of a warp that lacks credit. -/
theorem tolled_cases (s : State) (n : Nat) (k : State → State) :
    tolled s n k = k (s.dispatched n) ∨ tolled s n k = (drawLease s n).parkOn (.toll n) := by
  unfold tolled
  split
  · exact .inl rfl
  · exact .inr rfl

/-- Credit passes the gate. -/
theorem tolled_credit {s : State} {n : Nat} (h : s.credit n = true) (k : State → State) : tolled s n k = k (s.dispatched n) := by
  simp [tolled, h]

/-- A core after another, or the same, is changed. -/
theorem coreOf_onCore (s : State) (c d : CoreRef) (f : Core → Core) :
    coreOf (onCore s c f) d = if corePlace d = corePlace c ∧ corePlace c < 312 then f (coreOf s c) else coreOf s d := by
  simp only [coreOf, onCore, List.getD_eq_getElem?_getD, Vector.getElem?_toList, Vector.getElem?_setIfInBounds]
  by_cases h : corePlace d = corePlace c
  · by_cases hc : corePlace c < 312 <;> simp [h, hc]
  · simp [h, Ne.symm h]

@[simp] theorem coreOf_onWarp (s : State) (c : CoreRef) (f : Warp → Warp) : coreOf (s.onWarp f) c = coreOf s c := rfl

/-- A core that does not exist has a full bucket of no credit. -/
theorem coreOf_beyond (s : State) (c : CoreRef) (h : ¬ corePlace c < 312) : coreOf s c = {} := by
  simp only [coreOf, List.getD_eq_getElem?_getD, Vector.getElem?_toList]
  rw [Vector.getElem?_eq_none (by omega)]
  rfl

/-- The lease that is drawn, and the level after it. -/
theorem drawLease_core {s : State} {n : Nat} (h : n ≠ 0) (hp : s.warp.paid = false) :
    (corePlace s.warp.core < 312 → coreOf (drawLease s n) s.warp.core =
      { coreOf s s.warp.core with level := (coreOf s s.warp.core).level + (drawn s n : Nat) }) ∧
    (drawLease s n).warp.lease = s.warp.lease - drawn s n ∧ (drawLease s n).warp.core = s.warp.core ∧
    ∀ c, corePlace c ≠ corePlace s.warp.core → coreOf (drawLease s n) c = coreOf s c := by
  have hd : drawn s n = if (coreOf s s.warp.core).credit n then 0
      else min s.warp.lease ((n : Int) - (coreOf s s.warp.core).level).toNat := by
    unfold drawn Core.credit
    by_cases hc : (coreOf s s.warp.core).level = ((coreOf s s.warp.core).cap : Nat)
    · simp [h, hp, hc]
    · by_cases hn : (n : Int) ≤ (coreOf s s.warp.core).level
      · simp [h, hp, hc, hn]
      · simp [h, hp, hc, hn]
  unfold drawLease
  simp only
  split
  · rename_i hc
    simp [hd, hc]
  · rename_i hc
    have hm : min s.warp.lease ((n : Int) - (coreOf s s.warp.core).level).toNat = drawn s n := by rw [hd, if_neg hc]
    simp only [hm, onWarp_warp]
    refine ⟨fun hi => ?_, rfl, rfl, fun c hne => ?_⟩
    · have := coreOf_onCore s s.warp.core s.warp.core fun c => { c with level := c.level + ((drawn s n : Nat) : Int) }
      simpa [hi] using this
    · have := coreOf_onCore s s.warp.core c fun c => { c with level := c.level + ((drawn s n : Nat) : Int) }
      simpa [hne] using this

/-- A word whose charge its core affords passes the gate. -/
theorem affords_credit {s : State} {n : Nat} (ha : affords s n) : s.credit n = true := by
  unfold State.credit
  by_cases h : n = 0
  · simp [h]
  · cases hp : s.warp.paid with
    | true => simp
    | false =>
      obtain ⟨hc, -, hw, -⟩ := drawLease_core h hp
      simp only [h, decide_false, Bool.or_false, Bool.false_or]
      by_cases hi : corePlace s.warp.core < 312
      · rw [hc hi]
        obtain rfl | h' | ha := ha
        · exact absurd rfl h
        · simp [hp] at h'
        · simp only [Core.credit, drawn, h, hp, Bool.or_eq_true, decide_eq_true_eq]
          by_cases hl : (coreOf s s.warp.core).level = ((coreOf s s.warp.core).cap : Nat)
          · simp [hl]
          · simp [hl]; omega
      · simp [coreOf_beyond _ _ hi, Core.credit]

/-- The charge that a dispatch takes. -/
theorem dispatched_charge (s : State) (n : Nat) : ChargeTaken s (s.dispatched n) n := by
  unfold State.dispatched
  split
  · rename_i hz
    simp only [Bool.or_eq_true, decide_eq_true_eq] at hz
    constructor
    · intro _; obtain h | h := hz <;> simp [drawn, h]
    · obtain h | h := hz <;> simp [drawn, h]
    · intro _ _; rfl
  · rename_i hz
    simp only [Bool.or_eq_true, decide_eq_true_eq, not_or, Bool.not_eq_true] at hz
    obtain ⟨hc, hl, hw, ho⟩ := drawLease_core hz.1 hz.2
    constructor
    · intro hi
      have := coreOf_onCore (drawLease s n) s.warp.core s.warp.core fun c => { c with level := c.level - (n : Int) }
      simp only [hi, and_self, if_true, hc hi] at this
      simpa [hz.2] using this
    · simpa using hl
    · intro c hne
      have := coreOf_onCore (drawLease s n) s.warp.core c fun c => { c with level := c.level - (n : Int) }
      simpa [hne, ho c hne] using this

/-! ## Traps (R330, R331, R334) -/

theorem setTrapState_eq (w : Warp) (r : Report) (t : TrapSite) :
    w.setTrapState r t = { w with
      trapcause := trapcauseOf 0#8 w.inLanes t.defer r.cause.code, trappc := addrWord t.pc, trapnpc := addrWord t.npc,
      traphdr := addrWord t.hdr, trapinfo := r.info, faultva := r.va, faultgpa := r.gpa, vstart := t.vstart,
      trapvstart := t.vstart, traphome := t.home, due := none, reissue := none } := rfl

/-- Outside a handler a trap goes to TRAPVEC with the lanes frozen. -/
theorem enterTrap_first {s : State} (h : s.warp.intrap = false) (r : Report) (t : TrapSite) :
    enterTrap s r t = (s.met r).onWarp fun w => { w.setTrapState r t with
      intrap := true, frozen := w.lanes.map LaneMode.freeze, lanes := none, pos := { hdr := (s.part.trapvec.toNat : Nat) },
      park := .none, wait := 0, urgent := false, service := {}, paid := false } := by
  simp [enterTrap, h, Warp.setTrapState]

/-- Inside a handler a trap is a double fault. -/
theorem enterTrap_second {s : State} (h : s.warp.intrap = true) (r : Report) (t : TrapSite) : enterTrap s r t = doubleFault s r t := by
  simp [enterTrap, h]

/-- A trap waits for the copies that hold outstanding flags. -/
theorem takeTrap_waits {s : State} (h : s.warp.mustWait flagged = true) (r : Report) (t : TrapSite) (x : Int) :
    takeTrap s r t x = s.onWarp fun w => { w with park := w.waitOn flagged, vstart := t.vstart } := by
  simp [takeTrap, h]

/-- With nothing pending a trap is entered at once. -/
theorem takeTrap_idle {s : State} (h : s.warp.pending = []) (r : Report) (t : TrapSite) (x : Int) : takeTrap s r t x = enterTrap s r t := by
  have hm : s.warp.mustWait flagged = false := by simp [Warp.mustWait, h]
  have hc : s.warp.commit everyFlag = (s.warp, none) := by
    rw [commit_eq]
    simp [h]
    rw [← h]
  simp [takeTrap, hm, hc]

/-- Everything a trap can come to: the wait, or the entry after the commit, of the trap itself or of an earlier deferred fault. -/
theorem takeTrap_cases (s : State) (r : Report) (t : TrapSite) (x : Int) :
    (∃ p v, takeTrap s r t x = s.onWarp fun w => { w with park := p, vstart := v }) ∨
    ∃ r' t', takeTrap s r t x = enterTrap { s with warp := (s.warp.commit everyFlag).1 } r' t' := by
  unfold takeTrap
  split
  · exact .inl ⟨_, _, rfl⟩
  · right
    cases hc : s.warp.commit everyFlag with
    | mk w o =>
      cases o with
      | none => exact ⟨_, _, rfl⟩
      | some o =>
        simp only
        cases o.fault with
        | none => exact ⟨_, _, rfl⟩
        | some f => exact ⟨_, _, rfl⟩

/-! ## Commit points (R35, R38) -/

/-- A commit of an empty list of pending results is the action alone. -/
theorem commitOf_idle {s : State} (h : s.warp.pending = []) (p : Outstanding → Bool) (k : State → State) : commitOf p s k = k s := by
  have hm : s.warp.mustWait flagged = false := by simp [Warp.mustWait, h]
  have hc : s.warp.commit p = (s.warp, none) := by
    rw [commit_eq]
    simp [h]
    rw [← h]
  simp [commitOf, hm, hc]

/-- With nothing pending a commit point is the action alone. -/
theorem commitPoint_idle {s : State} (h : s.warp.pending = []) (k : State → State) : commitPoint s k = k s := commitOf_idle h flagged k

/-- Everything a commit can come to: the wait, the action after the commit, or the trap of a deferred fault. -/
theorem commitOf_cases (p : Outstanding → Bool) (s : State) (k : State → State) :
    (∃ x, commitOf p s k = s.onWarp fun w => { w with park := x }) ∨
    commitOf p s k = k { s with warp := (s.warp.commit p).1 } ∨
    ∃ r t, commitOf p s k = enterTrap { s with warp := (s.warp.commit p).1 } r t := by
  unfold commitOf
  split
  · exact .inl ⟨_, rfl⟩
  · right
    cases hc : s.warp.commit p with
    | mk w o =>
      cases o with
      | none => exact .inl rfl
      | some o =>
        simp only
        cases o.fault with
        | none => exact .inl rfl
        | some f => exact .inr ⟨_, _, rfl⟩

/-- Everything a commit point can come to. -/
theorem commitPoint_cases (s : State) (k : State → State) :
    (∃ p, commitPoint s k = s.onWarp fun w => { w with park := p }) ∨
    commitPoint s k = k { s with warp := (s.warp.commit flagged).1 } ∨
    ∃ r t, commitPoint s k = enterTrap { s with warp := (s.warp.commit flagged).1 } r t := commitOf_cases flagged s k

/-- A pre-emption point that no pre-emption meets is its commit point. -/
theorem preemptPoint_calm {s : State} (h : s.team.preempt = false) (dead : Bool) (k : State → State) :
    preemptPoint s dead k = commitPoint s k := by
  unfold preemptPoint commitPoint commitOf
  simp [h]

end Sys2Proof.Machine
end

