-- ==== Sys2Proof/Laws/Memory.lean ====
section
/-! SUPPORT. The canonical form of memory: every operation on cells keeps it, and what a byte reads as after a write. -/
namespace Sys2Proof.Machine
open Sys2Proof

/-! ## Cells -/

/-- The canonical form, by the head and the tail. -/
theorem memory_wf_cons (c : Host.Cell) (rest : List Host.Cell) :
    Memory.wf (c :: rest) = true ↔ c.2 ≠ emptyByte ∧ (∀ d ∈ rest, c.1 < d.1) ∧ Memory.wf rest = true := by
  induction rest generalizing c with
  | nil => simp [Memory.wf]
  | cons d rest ih =>
    simp only [Memory.wf, Bool.and_eq_true, bne_iff_ne, decide_eq_true_eq, List.mem_cons, forall_eq_or_imp]
    constructor
    · rintro ⟨⟨h1, h2⟩, h3⟩
      exact ⟨h1, ⟨h2, fun e he => lt_trans h2 (((ih d).1 h3).2.1 e he)⟩, h3⟩
    · rintro ⟨h1, ⟨h2, _⟩, h3⟩
      exact ⟨⟨h1, h2⟩, h3⟩

theorem memory_wf_tail {c : Host.Cell} {rest : List Host.Cell} (h : Memory.wf (c :: rest) = true) : Memory.wf rest = true :=
  ((memory_wf_cons c rest).1 h).2.2

/-- Every cell after a write is the written one or was there before. -/
theorem cellWrite_mem (mem : List Host.Cell) (a : Nat) (b : Byte) : ∀ d ∈ cellWrite mem a b, d.1 = a ∨ d ∈ mem := by
  induction mem with
  | nil => intro d hd; unfold cellWrite at hd; split at hd <;> simp_all
  | cons c rest ih =>
    intro d hd
    unfold cellWrite at hd
    split at hd
    · split at hd <;> simp_all
      rcases hd with rfl | h <;> simp_all
    · split at hd
      · split at hd <;> simp_all
        rcases hd with rfl | h <;> simp_all
      · rcases List.mem_cons.1 hd with rfl | h
        · simp
        · rcases ih d h with h | h <;> simp [h]

/-- A write of one byte keeps the canonical form. -/
theorem cellWrite_wf {mem : List Host.Cell} (a : Nat) (b : Byte) (h : Memory.wf mem = true) : Memory.wf (cellWrite mem a b) = true := by
  induction mem with
  | nil => unfold cellWrite; split <;> simp_all [Memory.wf]
  | cons c rest ih =>
    obtain ⟨h1, h2, h3⟩ := (memory_wf_cons c rest).1 h
    unfold cellWrite
    split
    · rename_i hlt
      split
      · exact h
      · rename_i hb
        refine (memory_wf_cons _ _).2 ⟨hb, fun d hd => ?_, h⟩
        rcases List.mem_cons.1 hd with rfl | hd
        · exact hlt
        · exact lt_trans hlt (h2 d hd)
    · split
      · rename_i heq
        split
        · exact h3
        · rename_i hb; exact (memory_wf_cons _ _).2 ⟨hb, fun d hd => heq ▸ h2 d hd, h3⟩
      · refine (memory_wf_cons _ _).2 ⟨h1, fun d hd => ?_, ih h3⟩
        rcases cellWrite_mem rest a b d hd with hd | hd
        · omega
        · exact h2 d hd

theorem cellsWrite_wf {mem : List Host.Cell} (a : Nat) (bs : List Byte) (h : Memory.wf mem = true) : Memory.wf (cellsWrite mem a bs) = true := by
  induction bs generalizing mem a with
  | nil => exact h
  | cons b bs ih => exact ih _ (cellWrite_wf a b h)

/-- Taking cells away keeps the canonical form. -/
theorem filter_wf {mem : List Host.Cell} (f : Host.Cell → Bool) (h : Memory.wf mem = true) : Memory.wf (mem.filter f) = true := by
  induction mem with
  | nil => rfl
  | cons c rest ih =>
    obtain ⟨h1, h2, h3⟩ := (memory_wf_cons c rest).1 h
    rw [List.filter_cons]
    split
    · exact (memory_wf_cons _ _).2 ⟨h1, fun d hd => h2 d (List.mem_filter.1 hd).1, ih h3⟩
    · exact ih h3

/-- A byte that no cell names reads as the empty byte. -/
theorem cellRead_none {mem : List Host.Cell} {a : Nat} (h : ∀ d ∈ mem, d.1 ≠ a) : cellRead mem a = emptyByte := by
  induction mem with
  | nil => rfl
  | cons c rest ih =>
    unfold cellRead
    rw [if_neg (h c (List.mem_cons_self ..))]
    exact ih fun d hd => h d (List.mem_cons_of_mem _ hd)

/-- A write in a memory of canonical form reads back. -/
theorem cellRead_cellWrite_same {mem : List Host.Cell} (a : Nat) (b : Byte) (h : Memory.wf mem = true) : cellRead (cellWrite mem a b) a = b := by
  induction mem with
  | nil => unfold cellWrite; split <;> simp_all [cellRead]
  | cons c rest ih =>
    obtain ⟨h1, h2, h3⟩ := (memory_wf_cons c rest).1 h
    unfold cellWrite
    split
    · rename_i hlt
      split
      · rename_i hb
        rw [hb]
        refine cellRead_none fun d hd => ?_
        rcases List.mem_cons.1 hd with rfl | hd
        · omega
        · have := h2 d hd; omega
      · simp [cellRead]
    · split
      · rename_i heq
        split
        · rename_i hb
          rw [hb]
          exact cellRead_none fun d hd => by have := h2 d hd; omega
        · simp [cellRead]
      · rename_i hne
        unfold cellRead
        rw [if_neg (by omega)]
        exact ih h3

/-- A write leaves every other address as it reads. -/
theorem cellRead_cellWrite_other (mem : List Host.Cell) (a c : Nat) (b : Byte) (h : c ≠ a) : cellRead (cellWrite mem a b) c = cellRead mem c := by
  induction mem with
  | nil =>
    unfold cellWrite
    split
    · rfl
    · simp [cellRead, Ne.symm h]
  | cons d rest ih =>
    unfold cellWrite
    split
    · split
      · rfl
      · simp [cellRead, Ne.symm h]
    · split
      · rename_i heq
        split
        · simp [cellRead, ← heq, Ne.symm h]
        · simp [cellRead, ← heq, Ne.symm h]
      · simp only [cellRead]
        split
        · rfl
        · exact ih

/-- What cells were taken away reads as empty; every other byte as before. -/
theorem cellRead_filter (mem : List Host.Cell) (f : Nat → Bool) (a : Nat) :
    cellRead (mem.filter fun c => f c.1) a = if f a then cellRead mem a else emptyByte := by
  induction mem with
  | nil => simp [cellRead]
  | cons c rest ih =>
    by_cases hf : f c.1 <;> by_cases hc : c.1 = a <;> simp_all [cellRead]

/-! ## Bytes of the machine -/

theorem writeByte_mem (s : State) (pa kid : Nat) (b : Byte) : (writeByte s pa kid b).mem = cellWrite s.mem pa b := by
  unfold writeByte; split <;> rfl

/-- A byte written changes memory and the key tag of its byte, and nothing else. -/
theorem writeByte_eq (s : State) (pa kid : Nat) (b : Byte) :
    writeByte s pa kid b = { s with mem := cellWrite s.mem pa b, keytags := (writeByte s pa kid b).keytags } := by
  unfold writeByte; split <;> rfl

/-- The same for a run of bytes. -/
theorem writeBytes_eq (s : State) (pa kid : Nat) (bs : List Byte) :
    writeBytes s pa kid bs = { s with mem := cellsWrite s.mem pa bs, keytags := (writeBytes s pa kid bs).keytags } := by
  induction bs generalizing s pa with
  | nil => rfl
  | cons b bs ih =>
    simp only [writeBytes, cellsWrite]
    rw [ih]
    rw [writeByte_eq]

theorem writeBytes_mem (s : State) (pa kid : Nat) (bs : List Byte) : (writeBytes s pa kid bs).mem = cellsWrite s.mem pa bs := by
  rw [writeBytes_eq]

/-- The key tag of a byte after a byte's tag is set. -/
theorem setTag_find (tags : List (Nat × BitVec 512)) (pa a : Nat) (pair : BitVec 512) :
    (setTag tags pa pair).find? (fun t => t.1 == a) =
      if a = pa then (if pair = 0 then none else some (pa, pair)) else tags.find? fun t => t.1 == a := by
  rcases eq_or_ne a pa with rfl | ha
  · have gone : (tags.filter fun t => t.1 != a).find? (fun t => t.1 == a) = none := by simp [List.find?_filter]
    unfold setTag
    split <;> simp [gone]
  · have kept : (tags.filter fun t => t.1 != pa).find? (fun t => t.1 == a) = tags.find? fun t => t.1 == a := by
      rw [List.find?_filter]
      exact congrArg (fun f => tags.find? f) (funext fun t => by by_cases h : t.1 = a <;> simp [h, ha])
    unfold setTag
    split <;> simp [kept, ha.symm]

/-- The pair of a byte after a byte's tag is set. -/
theorem pairOf_setTag (s : State) (pa a : Nat) (pair : BitVec 512) :
    pairOf { s with keytags := setTag s.keytags pa pair } a = if a = pa then pair else pairOf s a := by
  unfold pairOf
  rw [setTag_find]
  rcases eq_or_ne a pa with rfl | ha
  · rcases eq_or_ne pair 0 with rfl | hp
    · rw [if_pos rfl, if_pos rfl, if_pos rfl]
    · rw [if_pos rfl, if_neg hp, if_pos rfl]
  · rw [if_neg ha, if_neg ha]

/-- Restoring what a memory holds keeps the canonical form. -/
theorem restoreCells_wf (xs : List (Byte × BitVec 512)) {mem : List Host.Cell} (tags : List (Nat × BitVec 512)) (a : Nat)
    (h : Memory.wf mem = true) : Memory.wf (restoreCells mem tags a xs).1 = true := by
  induction xs generalizing mem tags a with
  | nil => exact h
  | cons x xs ih => exact ih _ _ (cellWrite_wf a x.1 h)

end Sys2Proof.Machine
end

