-- ==== Sys2Proof/Laws/Keeps.lean ====
section
/-! SUPPORT. What the shared operations keep: the management state, the band, and the canonical form of memory. -/
namespace Sys2Proof.Machine
open Sys2Proof

/-- The management state and the band are as they were, and memory keeps its canonical form. -/
structure Keeps (s t : State) : Prop where
  phase : t.mgmt.phase = s.mgmt.phase
  band : t.mgmt.band = s.mgmt.band
  mem : Memory.wf s.mem = true → Memory.wf t.mem = true

namespace Keeps

theorem refl (s : State) : Keeps s s := ⟨rfl, rfl, id⟩

theorem trans {s t u : State} (h : Keeps s t) (k : Keeps t u) : Keeps s u :=
  ⟨k.phase.trans h.phase, k.band.trans h.band, fun w => k.mem (h.mem w)⟩

/-- An update of neither the management unit nor memory. -/
theorem same {s t : State} (hm : t.mgmt = s.mgmt) (h : t.mem = s.mem) : Keeps s t :=
  ⟨by rw [hm], by rw [hm], fun w => by rw [h]; exact w⟩

theorem legal {s t : State} (h : Keeps s t) (hs : s.legal = true) : t.legal = true := by
  unfold State.legal at *
  rw [h.phase, h.band]; exact hs

theorem memoryWf {s t : State} (h : Keeps s t) (hs : s.memoryWf = true) : t.memoryWf = true := h.mem hs

theorem foldl {α : Type} {f : State → α → State} (h : ∀ s a, Keeps s (f s a)) (as : List α) (s : State) : Keeps s (as.foldl f s) := by
  induction as generalizing s with
  | nil => exact refl s
  | cons a rest ih => exact (h s a).trans (ih (f s a))

/-- A case split on a condition. -/
theorem ite {c : Prop} [Decidable c] {s t u : State} (h : Keeps s t) (k : Keeps s u) : Keeps s (if c then t else u) := by
  split
  · exact h
  · exact k

end Keeps

/-! ## Updates of the state -/

theorem keeps_onWarp (s : State) (f : Warp → Warp) : Keeps s (s.onWarp f) := .same rfl rfl
theorem keeps_warp (s : State) (w : Warp) : Keeps s { s with warp := w } := .same rfl rfl
theorem keeps_onTeam (s : State) (f : Team → Team) : Keeps s (s.onTeam f) := .same rfl rfl
theorem keeps_onMates (s : State) (f : Warp → Warp) : Keeps s (s.onMates f) := .same rfl rfl
theorem keeps_onPart (s : State) (p : BitVec 4) (f : Partition → Partition) : Keeps s (onPart s p f) := .same rfl rfl
theorem keeps_onCore (s : State) (c : CoreRef) (f : Core → Core) : Keeps s (onCore s c f) := .same rfl rfl
theorem keeps_onCluster (s : State) (n : Nat) (f : Cluster → Cluster) : Keeps s (onCluster s n f) := .same rfl rfl
theorem keeps_draw (s : State) : Keeps s s.draw := .same rfl rfl
theorem keeps_advance (s : State) : Keeps s s.advance := .same rfl rfl
theorem keeps_parkOn (s : State) (p : Park) : Keeps s (s.parkOn p) := .same rfl rfl
theorem keeps_setPresence (s : State) (ls : List Nat) : Keeps s (setPresence s ls) := .same rfl rfl
theorem keeps_clearPresence (s : State) (ls : List Nat) : Keeps s (clearPresence s ls) := .same rfl rfl
theorem keeps_outbox (s : State) (o : List Message) : Keeps s { s with outbox := o } := .same rfl rfl

/-- A management-log entry. -/
theorem keeps_log (s : State) (l : List ErrorEntry) : Keeps s { s with mgmt := { s.mgmt with log := l } } := ⟨rfl, rfl, id⟩

/-! ## The focus -/

theorem keeps_unfocus (s : State) : Keeps s (unfocus s) := .same rfl rfl

theorem keeps_focusTeam (s : State) (tid : Nat) : Keeps s (focusTeam s tid) := by
  unfold focusTeam
  simp only
  split
  · exact .same rfl rfl
  · exact keeps_unfocus s

theorem keeps_focusOn (s : State) (r : WarpRef) : Keeps s (focusOn s r) := by
  unfold focusOn
  split
  · exact .refl s
  · simp only
    split
    · exact (keeps_focusTeam s r.team).trans (.same rfl rfl)
    · exact keeps_focusTeam s r.team

theorem keeps_refocus (old s : State) : Keeps s (refocus old s) := by
  unfold refocus
  split
  · exact keeps_unfocus s
  · split
    · exact keeps_focusTeam s _
    · exact keeps_focusOn s _

/-- An action on another warp keeps what the action keeps. -/
theorem keeps_withWarp {f : State → State} (h : ∀ s, Keeps s (f s)) (s : State) (r : WarpRef) : Keeps s (withWarp s r f) :=
  (keeps_focusOn s r).trans ((h _).trans (keeps_refocus s _))

theorem keeps_withTeam {f : State → State} (h : ∀ s, Keeps s (f s)) (s : State) (tid : Nat) : Keeps s (withTeam s tid f) := by
  unfold withTeam
  split
  · exact h s
  · exact (keeps_focusTeam s tid).trans ((h _).trans (keeps_refocus s _))

/-! ## Memory -/

theorem keeps_writeByte (s : State) (pa kid : Nat) (b : Byte) : Keeps s (writeByte s pa kid b) := by
  rw [writeByte_eq]
  exact ⟨rfl, rfl, fun w => cellWrite_wf pa b w⟩

theorem keeps_writeBytes (s : State) (pa kid : Nat) (bs : List Byte) : Keeps s (writeBytes s pa kid bs) := by
  induction bs generalizing s pa with
  | nil => exact .refl s
  | cons b rest ih => exact (keeps_writeByte s pa kid b).trans (ih _ _)

theorem keeps_writeLE (s : State) (pa kid n v : Nat) : Keeps s (writeLE s pa kid n v) := keeps_writeBytes s pa kid _

/-- New bytes for memory in canonical form, and nothing of the management unit. -/
theorem Keeps.cells {s t : State} (hm : t.mgmt = s.mgmt) (h : Memory.wf s.mem = true → Memory.wf t.mem = true) : Keeps s t :=
  ⟨by rw [hm], by rw [hm], h⟩

theorem keeps_metErrors (s : State) (sp : Span) : Keeps s (metErrors s sp) := by
  rw [metErrors_eq]; exact .same rfl rfl

theorem keeps_keepPages (s : State) (part : BitVec 4) (vas : List Nat) : Keeps s (keepPages s part vas) := by
  rw [keepPages_eq]; exact .same rfl rfl

theorem keeps_metFor (s : State) (part : BitVec 4) (r : Report) : Keeps s (metFor s part r) := by
  rw [metFor_eq]; exact .same rfl rfl

theorem keeps_met (s : State) (r : Report) : Keeps s (s.met r) := keeps_metFor s _ r

theorem keeps_metLines (s : State) (key kid n : Nat) : Keeps s (metLines s key kid n) := keeps_metErrors s _

theorem keeps_partMet (s : State) (p : BitVec 4) (acc : Access) (va n : Nat) : Keeps s (partMet s p acc va n) := by
  unfold partMet
  exact .ite (.refl s) (Keeps.foldl (f := fun s (x : Nat × Nat) => metLines s (128 * x.1) x.2 128) (fun s x => keeps_metLines s _ _ _) _ s)

theorem keeps_markDirty (s : State) (l : Loc) : Keeps s (markDirty s l) := by
  unfold markDirty
  refine .ite (.same rfl rfl) (.cells rfl fun w => ?_)
  simp only
  split
  · exact w
  · exact cellsWrite_wf _ _ w

theorem keeps_cleanLine (s : State) (line : Nat) : Keeps s (cleanLine s line) := .same rfl rfl

theorem keeps_dropLine (s : State) (line : Nat) : Keeps s (dropLine s line) := by
  unfold dropLine
  split
  · exact .cells rfl fun w => restoreCells_wf _ _ line w
  · exact .refl s

theorem keeps_sideWrite (s : State) (pa : Nat) (pair : BitVec 512) (b : Byte) : Keeps s (sideWrite s pa pair b) := by
  unfold sideWrite
  exact .ite (.same rfl rfl) (.cells rfl fun w => cellWrite_wf pa b w)

theorem keeps_sideRun (s : State) (pa : Nat) (pair : BitVec 512) (bs : List Byte) : Keeps s (sideRun s pa pair bs) := by
  induction bs generalizing s pa with
  | nil => exact .refl s
  | cons b rest ih => exact (keeps_sideWrite s pa pair b).trans (ih _ _)

theorem keeps_takeOver (pair : BitVec 512) (s : State) (b : Nat) : Keeps s (takeOver pair s b) := by
  unfold takeOver
  exact .ite (.refl s) (keeps_sideRun s _ pair _)

theorem keeps_sideWrites (s : State) (pa : Nat) (pair : BitVec 512) (bs : List Byte) : Keeps s (sideWrites s pa pair bs) :=
  (Keeps.foldl (keeps_takeOver pair) _ s).trans (keeps_sideRun _ pa pair bs)

theorem keeps_setBale (s : State) (n form : Nat) : Keeps s (setBale s n form) := .same rfl rfl

theorem keeps_putStored (s : State) (n kid : Nat) (x : List Byte) (form : Nat) : Keeps s (putStored s n kid x form) := by
  have h := keeps_sideWrites s (2048 * n) (keyPair s kid) x
  unfold putStored
  generalize sideWrites s (2048 * n) (keyPair s kid) x = u at *
  exact h.trans (.same rfl rfl)

theorem keeps_mergeStored (s : State) (n off kid : Nat) (bale : Bool) (data : List Byte) : Keeps s (mergeStored s n off kid bale data) := by
  unfold mergeStored
  exact .ite (keeps_sideWrites s _ _ data) (keeps_putStored s n kid _ _)

/-- Some lines of errors and a line of the caches that are gone. -/
theorem keeps_errors (s : State) (bad : List Nat) : Keeps s { s with bad := bad } := .same rfl rfl

theorem keeps_recallLine (s : State) (line : Nat) : Keeps s (recallLine s line) := by
  unfold recallLine
  split
  · exact .refl s
  · rename_i d _
    have clean := keeps_cleanLine s line
    generalize cleanLine s line = u at *
    simp only
    split
    · exact .ite ((clean.trans (keeps_sideWrites u _ _ _)).trans (keeps_errors _ _)) (clean.trans (keeps_putStored u _ _ _ _))
    all_goals exact clean.trans (keeps_errors u _)

theorem keeps_controllerWrites (fuel : Nat) (s : State) (l : Loc) (bs : List Byte) : Keeps s (controllerWrites fuel s l bs) := by
  induction fuel generalizing s l bs with
  | zero => exact .refl s
  | succ n ih =>
    unfold controllerWrites
    simp only
    exact .ite (keeps_mergeStored s _ _ _ _ _) ((keeps_mergeStored s _ _ _ _ _).trans (ih _ _ _))

theorem keeps_interrupt (s : State) (p : BitVec 4) (bit : Nat) : Keeps s (interrupt s p bit) := by
  unfold interrupt
  exact .ite (.refl s) (.ite (.same rfl rfl) (.same rfl rfl))

theorem keeps_noteLoss (s : State) (kind : BitVec 8) (pa : Nat) : Keeps s (noteLoss s kind pa) := by
  unfold noteLoss
  split
  · exact (keeps_onPart s _ _).trans (keeps_interrupt _ _ 6)
  · exact ((keeps_onPart s _ _).trans (keeps_interrupt _ _ 6)).trans (keeps_log _ _)

theorem keeps_loseBale (s : State) (n off kid : Nat) (data : List Byte) : Keeps s (loseBale s n off kid data) :=
  (keeps_putStored s n kid _ 8).trans (keeps_noteLoss _ _ _)

theorem keeps_wholeWrite (s : State) (n kid : Nat) (bale : Bool) (data : List Byte) : Keeps s (wholeWrite s n kid bale data) := by
  have h : Keeps s { s with dirty := s.dirty.filter fun d => d.line / 2048 != n } := .same rfl rfl
  exact h.trans (keeps_putStored _ n kid data _)

theorem keeps_evict (s : State) (pa : Nat) : Keeps s (evict s pa) := by
  unfold evict
  simp only
  split
  · exact .refl s
  · exact .ite ((keeps_cleanLine s _).trans (keeps_loseBale _ _ _ _ _))
      (.ite (keeps_recallLine s _) ((keeps_recallLine s _).trans (keeps_noteLoss _ _ _)))

theorem keeps_sideStore (s : State) (l : Loc) (bs : List Byte) : Keeps s (sideStore s l bs) := by
  unfold sideStore
  split
  · exact keeps_controllerWrites _ s l bs
  all_goals exact keeps_writeBytes s _ _ bs

theorem keeps_memoryWrite (s : State) (l : Loc) (bs : List Byte) : Keeps s (memoryWrite s l bs) :=
  (Keeps.foldl (f := fun s x => evict s (128 * x)) (fun s x => keeps_evict s (128 * x)) _ s).trans (keeps_sideStore _ l bs)

theorem keeps_healCovered (s : State) (covered : Nat → Bool) : Keeps s (healCovered s covered) := by
  unfold healCovered
  exact .ite (.refl s) (.same rfl rfl)

theorem keeps_physWrite {s t : State} {pa : Nat} {bs : List Byte} (h : physWrite s pa bs = some t) : Keeps s t := by
  unfold physWrite at h
  split at h
  · exact absurd h (by simp)
  · obtain rfl := Option.some.inj h
    exact keeps_memoryWrite s _ bs

theorem keeps_placesWrite (s : State) (ls : List Loc) (bs : List Byte) : Keeps s (placesWrite s ls bs) :=
  Keeps.foldl (f := fun s (x : Loc × Byte) => memoryWrite s x.1 [x.2]) (fun s x => keeps_memoryWrite s x.1 [x.2]) _ s

theorem keeps_partWrite {s t : State} {p : BitVec 4} {va : Nat} {bs : List Byte} (h : partWrite s p va bs = some t) : Keeps s t := by
  unfold partWrite at h
  cases hp : partPlaces s p .write va bs.length with
  | none => simp [hp] at h
  | some ls =>
    simp only [hp, Option.bind_some] at h
    split at h
    · exact absurd h (by simp)
    · obtain rfl := Option.some.inj h
      exact keeps_placesWrite s ls bs

/-! ## Interrupts and the error record -/

theorem keeps_drainErrors (fuel : Nat) (s : State) (p : BitVec 4) : Keeps s (drainErrors fuel s p) := by
  induction fuel generalizing s with
  | zero => exact .refl s
  | succ n ih =>
    unfold drainErrors
    simp only
    split
    · exact .refl s
    · split
      · exact .refl s
      · split
        · exact ((keeps_metLines s _ _ _).trans (keeps_onPart _ p _)).trans (keeps_log _ _)
        · rename_i h
          exact (keeps_physWrite h).trans ((keeps_onPart _ p _).trans ((keeps_interrupt _ p 5).trans (ih _)))

theorem keeps_recordError (s : State) (p : BitVec 4) (e : ErrorEntry) : Keeps s (recordError s p e) :=
  (keeps_onPart s p _).trans (keeps_drainErrors 65 _ p)

theorem keeps_drainAll (s : State) : Keeps s (drainAll s) := by
  unfold drainAll
  exact .ite (.refl s) (Keeps.foldl (f := drainErrors 65) (fun s p => keeps_drainErrors 65 s p) allParts s)

theorem keeps_reportLoss (s : State) (kind : BitVec 8) (pa : Nat) : Keeps s (reportLoss s kind pa) :=
  (keeps_noteLoss s kind pa).trans (keeps_drainAll _)

/-! ## Traps -/

theorem keeps_doubleFault (s : State) (r : Report) (t : TrapSite) : Keeps s (doubleFault s r t) :=
  ((keeps_met s r).trans (keeps_onWarp _ _)).trans (keeps_recordError _ _ _)

theorem keeps_enterTrap (s : State) (r : Report) (t : TrapSite) : Keeps s (enterTrap s r t) := by
  unfold enterTrap
  exact .ite (keeps_doubleFault s r t) ((keeps_met s r).trans (keeps_onWarp _ _))

theorem keeps_takeTrap (s : State) (r : Report) (t : TrapSite) (x : Int) : Keeps s (takeTrap s r t x) := by
  obtain ⟨p, v, h⟩ | ⟨r', t', h⟩ := takeTrap_cases s r t x
  · rw [h]; exact keeps_onWarp s _
  · rw [h]; exact (keeps_warp s _).trans (keeps_enterTrap _ r' t')

theorem keeps_trapHere (s : State) (r : Report) (v : Nat) : Keeps s (trapHere s r v) := keeps_takeTrap s r _ _

theorem keeps_illegal (s : State) (r : IllegalReason) : Keeps s (illegal s r) := keeps_trapHere s _ _

/-! ## Issue -/

/-- Every next state that an outcome names is one that keeps. -/
def KeepsNext (s : State) (r : Result) : Prop := ∀ t, r = .next t → Keeps s t

theorem keepsNext_of {s u : State} (h : Keeps s u) : KeepsNext s (.next u) := by
  intro t ht
  cases ht
  exact h

theorem keeps_guarded {cs : List (Bool × IllegalReason)} {s : State} {k : State → State} (h : Keeps s (k s)) : KeepsNext s (guarded cs s k) := by
  obtain hg | ⟨r, hg⟩ := guarded_next cs s k
  · rw [hg]; exact keepsNext_of h
  · rw [hg]; exact keepsNext_of (keeps_illegal s r)

theorem keeps_uniformWord {s : State} {f : State → State} (h : Keeps s (f s)) : KeepsNext s (uniformWord s f) :=
  keeps_guarded (h.trans (keeps_advance _))

theorem keeps_laneWord (s : State) (regs : List (BitVec 6)) (d : BitVec 6) (f : Nat → LaneWord) : KeepsNext s (laneWord s regs d f) :=
  keeps_guarded (.same rfl rfl)

theorem keeps_scalarWord (s : State) (regs : List (BitVec 6)) (d : BitVec 6) (f : Word) (g : Nat → LaneWord) :
    KeepsNext s (scalarWord s regs d f g) := by
  unfold scalarWord
  split
  · exact keeps_laneWord s regs d g
  · exact keepsNext_of (.same rfl rfl)

theorem keeps_meeting (s : State) (x : Option (Report × Nat)) : Keeps s (s.meeting x) := by
  cases x with
  | none => exact .refl s
  | some y => exact keeps_met s y.1

theorem keeps_bear (s : State) (fs : FSel) (o : Outstanding) : Keeps s (s.bear fs o) := by
  by_cases h : fs = .none
  · subst h; rw [bear_none]; exact keeps_onWarp s _
  · rw [bear_flag s fs o h]; exact (keeps_meeting s _).trans (keeps_onWarp _ _)

/-- The toll gate keeps what the word behind it keeps. -/
theorem keeps_tolled {s : State} {n : Nat} {k : State → State} (h : ∀ s, Keeps s (k s)) : Keeps s (tolled s n k) := by
  obtain hc | hc := tolled_cases s n k
  · rw [hc]; refine Keeps.trans ?_ (h _); rw [dispatched_eq]; exact .same rfl rfl
  · rw [hc, drawLease_eq]; exact .same rfl rfl

theorem keeps_takePreemption (s : State) (dead : Bool) : Keeps s (takePreemption s dead) := .same rfl rfl

theorem keeps_commitPoint {k : State → State} (h : ∀ s, Keeps s (k s)) (s : State) : Keeps s (commitPoint s k) := by
  obtain ⟨p, hc⟩ | hc | ⟨r, t, hc⟩ := commitPoint_cases s k
  · rw [hc]; exact keeps_onWarp s _
  · rw [hc]; exact (keeps_warp s _).trans (h _)
  · rw [hc]; exact (keeps_warp s _).trans (keeps_enterTrap _ r t)

theorem keeps_preemptPoint {k : State → State} (h : ∀ s, Keeps s (k s)) (s : State) (dead : Bool) : Keeps s (preemptPoint s dead k) :=
  keeps_commitPoint (fun s => .ite (keeps_takePreemption s dead) (h s)) s

theorem keeps_vectorWord (s : State) (cs : List (Bool × IllegalReason)) (toll : Nat) (fs : FSel) (d : BitVec 6) (e : Nat)
    (mk : BitVec 3) (mz : Bool) (f : State → Nat → Elem) : KeepsNext s (vectorWord s cs toll fs d e mk mz f) := by
  unfold vectorWord
  refine keeps_guarded (keeps_tolled fun u => ?_)
  simp only
  split
  · exact ((keeps_bear u fs _).trans (keeps_onWarp _ _)).trans (keeps_advance _)
  · split
    · exact (keeps_onWarp u _).trans (keeps_trapHere _ _ _)
    · exact ((keeps_bear u _ _).trans (keeps_onWarp _ _)).trans (keeps_advance _)
    · exact ((keeps_bear u _ _).trans (keeps_onWarp _ _)).trans (keeps_advance _)

theorem keeps_plainVector (s : State) (cs : List (Bool × IllegalReason)) (d : BitVec 6) (e : Nat) (mk : BitVec 3) (mz : Bool)
    (f : State → Nat → LaneWord) : KeepsNext s (plainVector s cs d e mk mz f) := keeps_vectorWord s cs 1 .none d e mk mz _

/-! ## Manifests -/

theorem keeps_writeRequests (part : BitVec 4) (mid : BitVec 32) (rs : List (Nat × Nat)) (s : State) :
    Keeps s (writeRequests part mid rs s).2 ∧ ∀ t, (writeRequests part mid rs s).1 = some t → Keeps s t := by
  induction rs generalizing s with
  | nil => exact ⟨.refl s, fun t h => by obtain rfl := Option.some.inj h; exact .refl s⟩
  | cons r rest ih =>
    obtain ⟨gpa, acc⟩ := r
    unfold writeRequests
    simp only
    split
    · exact ⟨((keeps_metLines s _ _ _).trans (keeps_onPart _ part _)).trans (keeps_recordError _ _ _), fun t h => absurd h (by simp)⟩
    · rename_i h
      exact ⟨(keeps_physWrite h).trans ((keeps_onPart _ part _).trans ((keeps_interrupt _ part 2).trans (ih _).1)),
        fun t ht => (keeps_physWrite h).trans ((keeps_onPart _ part _).trans ((keeps_interrupt _ part 2).trans ((ih _).2 t ht)))⟩

theorem keeps_numberManifest (s : State) (part : BitVec 4) (m : Manifest) : Keeps s (numberManifest s part m).1 := by
  unfold numberManifest
  split
  · exact .refl s
  · exact .same rfl rfl

theorem keeps_writeEntry (s : State) (part : BitVec 4) (m : Manifest) : Keeps s (writeEntry s part m).1 := by
  unfold writeEntry
  simp only
  split
  · exact ((keeps_partMet s part _ _ _).trans (keeps_onPart _ part _)).trans (keeps_recordError _ _ _)
  · rename_i h
    exact (keeps_partWrite h).trans ((keeps_onPart _ part _).trans (keeps_interrupt _ part 1))

theorem keeps_tryWrite (s : State) (part : BitVec 4) (m : Manifest) : Keeps s (tryWrite s part m).1 := by
  have hn := keeps_numberManifest s part m
  unfold tryWrite
  generalize numberManifest s part m = x at *
  obtain ⟨u, m'⟩ := x
  simp only at hn ⊢
  have hw := keeps_writeRequests part m'.mid (newRequests (partOf u part) m') u
  generalize writeRequests part m'.mid (newRequests (partOf u part) m') u = y at *
  obtain ⟨o, v⟩ := y
  cases o with
  | none => exact hn.trans hw.1
  | some t => exact (hn.trans (hw.2 t rfl)).trans (keeps_writeEntry t part _)

theorem keeps_keepManifest (s : State) (part : BitVec 4) (m : Manifest) : Keeps s (keepManifest s part m) := by
  unfold keepManifest
  exact .ite (.refl s) (keeps_onPart s part _)

theorem keeps_noteHeld (s : State) (part : BitVec 4) (m : Manifest) : Keeps s (noteHeld s part m) := by
  unfold noteHeld
  simp only
  have h : Keeps s (if fqRoom (partOf s part) = 0 then interrupt (onPart s part fun p => { p with fq := { p.fq with ovf := true } }) part 3 else s) :=
    .ite ((keeps_onPart s part _).trans (keeps_interrupt _ part 3)) (.refl s)
  exact .ite (h.trans ((keeps_onPart _ part _).trans (keeps_interrupt _ part 4))) h

theorem keeps_postManifest (s : State) (part : BitVec 4) (m : Manifest) : Keeps s (postManifest s part m) := by
  unfold postManifest
  split
  · have ht := keeps_tryWrite s part m
    generalize tryWrite s part m = x at *
    obtain ⟨u, m'⟩ := x
    simp only at ht ⊢
    exact (ht.trans (.ite (.refl u) (keeps_noteHeld u part m'))).trans (keeps_keepManifest _ part m')
  · exact (keeps_noteHeld s part m).trans (keeps_keepManifest _ part m)

theorem keeps_drainManifests (fuel : Nat) (s : State) (part : BitVec 4) : Keeps s (drainManifests fuel s part) := by
  induction fuel generalizing s with
  | zero => exact .refl s
  | succ n ih =>
    unfold drainManifests
    split
    · exact .refl s
    · rename_i m _
      split
      · have ht := keeps_tryWrite s part m
        generalize tryWrite s part m = x at *
        obtain ⟨u, m'⟩ := x
        simp only at ht ⊢
        exact (ht.trans (keeps_onPart u part _)).trans (.ite (ih _) (.refl _))
      · exact .refl s

theorem keeps_holdLater (s : State) (r : CopyRef) : Keeps s (holdLater s r) := by
  unfold holdLater
  split
  · exact .refl s
  · exact .ite (.same rfl rfl) (.refl s)

theorem keeps_holdAll (s : State) : Keeps s (holdAll s) := by
  unfold holdAll
  exact .ite (Keeps.foldl keeps_holdLater _ s) (.refl s)

theorem keeps_endTurn (s : State) : Keeps s (endTurn s) := by
  have hd := (keeps_drainAll s).trans (keeps_holdAll _)
  unfold endTurn
  simp only
  generalize holdAll (drainAll s) = u at *
  have h (b : Bool) : Keeps s { u with draws := u.draws + 1, agentTurn := b } := hd.trans (.same rfl rfl)
  split
  · exact (h _).trans (keeps_focusOn _ _)
  · exact h _

theorem keeps_parkOnMisses (s : State) (pc : Int) (ms : List Miss) : Keeps s (parkOnMisses s pc ms) :=
  ((keeps_keepPages s _ _).trans (keeps_postManifest _ _ _)).trans (keeps_onWarp _ _)

theorem keeps_dropManifests (s : State) (part : BitVec 4) (who : Requester) : Keeps s (dropManifests s part who) := keeps_onPart s part _

/-! ## Memory upkeep -/

theorem keeps_freshCheck (s : State) (pa n : Nat) : Keeps s (freshCheck s pa n) := .same rfl rfl

theorem keeps_scrubGranule (s : State) (g : Nat) : Keeps s (scrubGranule s g) := by
  unfold scrubGranule
  exact .ite ((keeps_freshCheck s _ _).trans (keeps_reportLoss _ _ _)) (.refl s)

theorem keeps_scrubEntry (s : State) (n : Nat) : Keeps s (scrubEntry s n) := by
  unfold scrubEntry
  have h : Keeps s { s with badMap := s.badMap.filter (· != n) } := .same rfl rfl
  exact .ite (h.trans (keeps_reportLoss _ _ _)) (.refl s)

theorem keeps_writeBack (s : State) (pa : Nat) : Keeps s (writeBack s pa) := by
  unfold writeBack
  exact .ite ((keeps_evict s pa).trans (keeps_drainAll _)) (.refl s)

theorem keeps_recallSpan (s : State) (pa n : Nat) : Keeps s (recallSpan s pa n) :=
  Keeps.foldl (f := fun s x => writeBack s (128 * x)) (fun s x => keeps_writeBack s (128 * x)) _ s

theorem keeps_mergeBale (s : State) (n off : Nat) (data : List Byte) (baled : Bool) (key : Nat) : Keeps s (mergeBale s n off data baled key) := by
  have recalled := keeps_recallSpan s (2048 * n + off) data.length
  unfold mergeBale
  exact .ite ((recalled.trans (keeps_loseBale _ n off key data)).trans (keeps_drainAll _)) (recalled.trans (keeps_mergeStored _ n off key baled data))

/-! ## Stores -/

theorem keeps_storeBytes (s : State) (l : Loc) (bs : List Byte) : Keeps s (storeBytes s l bs) := by
  unfold storeBytes
  split
  iterate 2 exact .ite (keeps_memoryWrite s l bs) ((keeps_markDirty s l).trans (keeps_writeBytes _ _ _ bs))
  all_goals exact keeps_writeBytes s _ _ bs

theorem keeps_storeElt (s : State) (e : Nat) (x : Elt × Loc) (v : Word) : Keeps s (storeElt s e x v) := by
  unfold storeElt
  exact .ite (keeps_storeBytes s _ _) (keeps_storeBytes s _ _)

theorem keeps_storeElts (e : Nat) (val : Nat → Word) (xs : List (Elt × Loc)) (s : State) : Keeps s (storeElts e val xs s) := by
  induction xs generalizing s with
  | nil => exact .refl s
  | cons x rest ih => exact (keeps_storeElt s e x _).trans (ih _)

end Sys2Proof.Machine
end

