-- ==== Sys2Proof/Tests/Slice0.lean ====
section
/-! SUPPORT. Tests: words written out from the spec's encodings, ill-formed terms, single steps, and for every statement with hypotheses a state and operands that meet them. -/
namespace Sys2Proof.Tests
open Sys2Proof Sys2Proof.Machine

set_option Elab.async false

/-! ## Fixtures -/

/-- The machine in RUN, one warp of W = 16 and R = 64 on M-core 0 about to issue a `NOP` that stands last in its clause. -/
def base : State := State.reset.withFetchWord 64 0x1F00000000000000

/-- Uniform registers given by number. -/
def withS (s : State) (rs : List (BitVec 6 × Word)) : State := rs.foldl (fun s x => s.onWarp fun w => w.setS x.1 x.2) s

/-- Lane words given by their flat index. -/
def withV (s : State) (ws : List (Nat × LaneWord)) : State := ws.foldl (fun s x => s.onWarp fun w => { w with v := w.v.set x.1 x.2 }) s

/-- A strip: its descriptor, four elements, the last of them a pad element. -/
def strip (desc : BitVec 9) : State := base.onWarp fun w => { w with desc := desc, vl := 4, vpad := 1 }

/-- Pending destinations under flag 0. -/
def pendingOf (n : Nat) : State := base.onWarp fun w => { w with pending := [{ seq := 0, pc := 0#64, flag := some 0, dests := n }] }

/-- Lane mode: every lane at the warp's word but lane 15, which has joined. -/
def lanes0 : LaneMode :=
  { lanes := (List.range 16).map fun i => { pos := base.warp.pos, joined := i == 15 } }

def forked : State := base.onWarp fun w => { w with lanes := some lanes0 }

/-- A plan that performs everything asked. -/
def planWhole (p : Plan) : Bool :=
  match p with
  | .run _ none => true
  | .run _ (some _) | .misses _ _ | .wait _ _ => false

theorem whole_run {p : Plan} (h : planWhole p = true) : ∃ oks, p = .run oks none := by
  match p, h with
  | .run oks none, _ => exact ⟨oks, rfl⟩

/-- A plan that stops as a test says. -/
def planStops (f : Stop → Bool) (p : Plan) : Bool :=
  match p with
  | .run _ (some x) => f x
  | .run _ none | .misses _ _ | .wait _ _ => false

theorem stops_run {f : Stop → Bool} {p : Plan} (h : planStops f p = true) : ∃ oks x, p = .run oks (some x) ∧ f x = true := by
  match p, h with
  | .run oks (some x), h => exact ⟨oks, x, rfl, h⟩

/-- A plan that performs nothing and stops as a test says. -/
def planRefuses (f : Stop → Bool) (p : Plan) : Bool :=
  match p with
  | .run [] (some x) => f x
  | .run [] none | .run (_ :: _) _ | .misses _ _ | .wait _ _ => false

theorem refuses_run {f : Stop → Bool} {p : Plan} (h : planRefuses f p = true) : ∃ x, p = .run [] (some x) ∧ f x = true := by
  match p, h with
  | .run [] (some x), h => exact ⟨x, rfl, h⟩

theorem vectorReady_of {s : State} {ops : List (BitVec 6 × Nat)} (h : s.warp.lanes = none ∧ s.warp.v.length = s.r * s.w ∧
    ∀ x ∈ ops, groupOk s x.1 (groupSize s.warp x.2) = true ∧ s.warp.vl * x.2 ≤ groupSize s.warp x.2 * s.w * 32) : VectorReady s ops := ⟨h.1, h.2.1, h.2.2⟩

theorem laneShape_of {s : State} {lm : LaneMode} (h : s.warp.lanes = some lm ∧ lm.lanes.length = s.w ∧ s.warp.v.length = s.r * s.w) :
    LaneShape s lm := ⟨h.1, h.2.1, h.2.2⟩

theorem slotReady_of {s : State} {n : BitVec 3} {g : Grant} (h : s.warp.lanes = none ∧ n.toNat < s.team.launch.tiles ∧ s.team.tiles = true ∧
    (s.team.slot n).grant = some g) : SlotReady s n g := ⟨h.1, h.2.1, h.2.2.1, h.2.2.2⟩

theorem boxesReady_of {s : State} {bs : List Tablet} (h : ∀ b ∈ bs, b.base % 64 = 0 ∧ ∀ k, k < max 1 b.span → inWindow (b.base + k) = true ∧
    backed s (b.base + k - Config.windowBase) = true ∧ ownedBy s s.team.part (b.base + k - Config.windowBase) = true) : BoxesReady s bs :=
  ⟨fun b hb => (h b hb).1, fun b hb => (h b hb).2⟩

theorem boxesWhole_of {s : State} {bs : List Tablet} (h : ∀ b ∈ bs, (∀ l ∈ b.lines, lineAbsent s l = false) ∧ b.bad (memoryNow s) = none) :
    BoxesWhole s bs := ⟨fun b hb => (h b hb).1, fun b hb => (h b hb).2⟩

theorem counts_of {w : Warp} {mk : BitVec 3} {k : Nat} (h : w.vstart ≤ k ∧ k < w.vl ∧ maskBit w mk k = true ∧ k < w.vl - w.vpad) : counts w mk k := h

/-- A charge within LEVEL and the lease, or on a core whose bucket is full, alone or with the lease. -/
theorem affords_of {s : State} {n : Nat} (h : n = 0 ∨ s.warp.paid = true ∨ (n : Int) ≤ (coreOf s s.warp.core).level + (s.warp.lease : Nat) ∨
    (coreOf s s.warp.core).level = ((coreOf s s.warp.core).cap : Nat) ∨
    (coreOf s s.warp.core).level + (s.warp.lease : Nat) = ((coreOf s s.warp.core).cap : Nat)) : affords s n := h

def stopIsTrim : Stop → Bool
  | .trim _ => true
  | .fault _ _ | .error _ _ => false

def stopIsFault : Stop → Bool
  | .fault _ _ => true
  | .trim _ | .error _ _ => false

def stopIsError : Stop → Bool
  | .error _ _ => true
  | .trim _ | .fault _ _ => false

/-- The commit of a warp with nothing pending. -/
theorem commit_idle {w : Warp} {p : Outstanding → Bool} (h : w.pending = []) : w.commit p = (w, none) := by
  cases w
  simp only at h
  subst h
  rfl

/-! ## Witnesses: scalar, strip and vector statements -/

theorem witness_uniformResults : base.warp.lanes = none := by decide +kernel

theorem witness_division : base.warp.lanes = none ∧ (coreOf base base.warp.core).divBad = false ∧ FSel.a ≠ .none ∧ (pendingOf 15).warp.dests + 1 ≤ 16 ∧
    (pendingOf 15).warp.lanes = none ∧ (coreOf (pendingOf 15) (pendingOf 15).warp.core).divBad = false ∧
    (pendingOf 16).warp.lanes = none ∧ (1#6 : BitVec 6) ≠ 0#6 ∧ 16 ≤ (pendingOf 16).warp.dests := by decide +kernel

/-- The divider of the warp's core holds an uncorrectable error. -/
def worn (s : State) : State := onCore s s.warp.core fun c => { c with divBad := true }

theorem witness_dividerError : (coreOf (worn (pendingOf 15)) (worn (pendingOf 15)).warp.core).divBad = true ∧ (worn (pendingOf 15)).warp.lanes = none ∧
    (worn (pendingOf 15)).warp.dests + 1 ≤ 16 ∧ (coreOf (worn forked) (worn forked).warp.core).divBad = true ∧ (63#6).toNat < (worn forked).r := by decide +kernel

theorem witness_laneShape : LaneShape forked lanes0 := laneShape_of (by decide +kernel)

theorem witness_laneRegisters : (63#6).toNat < forked.r ∧ (0#6).toNat < forked.r := by decide +kernel

/-- The lanes of `forked` with +infinity and −infinity in lane 1 of v1 and v2, and every exception enabled. -/
def clashing : State := (withV forked [(17, 0x7F800000#32), (33, 0xFF800000#32)]).onWarp fun w => { w with fpctl := 0x3F#6 }

theorem witness_laneCharge : (coreOf forked forked.warp.core).divBad = false ∧ affords forked (lanes0.group.length * 8) ∧ affords clashing (lanes0.group.length * 2) :=
  ⟨by decide +kernel, affords_of (by decide +kernel), affords_of (by decide +kernel)⟩

theorem witness_laneFloat : (∀ l ∈ lanes0.group, enabledTrap forked.warp.fpctl (faddElem .fp32 .rne (laneOf forked 1#6 l) (laneOf forked 2#6 l)).flags = false) ∧
    1 ∈ lanes0.group ∧ enabledTrap clashing.warp.fpctl (faddElem .fp32 .rne (laneOf clashing 1#6 1) (laneOf clashing 2#6 1)).flags = true ∧
    ∀ j ∈ lanes0.group, j < 1 → enabledTrap clashing.warp.fpctl (faddElem .fp32 .rne (laneOf clashing 1#6 j) (laneOf clashing 2#6 j)).flags = false := by decide +kernel

theorem witness_controlTransfers : base.warp.lanes = none ∧ base.warp.pos.idx = base.warp.pos.n := by decide +kernel

theorem witness_stripLoop : (strip 0#9).warp.lanes = none ∧ (strip 0#9).warp.pos.idx = (strip 0#9).warp.pos.n := by decide +kernel

theorem witness_stripGrants : base.warp.lanes = none ∧ base.warp.mustWait flagged = false ∧
    base.team.preempt = false ∧ base.team.k = 0 ∧ base.team.launch.rfollow = false ∧ 2 ^ (5 + 2) ≤ base.w * 32 * 1 / ET.int4.width ∧
    base.w * 32 * 2 ^ (0#2).toNat / ET.int8.width < 2 ^ ((5#3).toNat + 2) ∧ (5#3).toNat ≤ 5 ∧ base.part.capq.toNat < 8 := by decide +kernel

theorem witness_stripCommit : base.warp.commit flagged = (base.warp, none) := commit_idle (by decide +kernel)

/-- A core that has no credit, its warp a lease of three, its bucket not full. -/
def poor : State := (onCore (strip 0#9) (strip 0#9).warp.core fun c => { c with cap := 1024 }).onWarp fun w => { w with lease := 3 }

theorem witness_masks : (strip 0#9).warp.lanes = none ∧ affords (strip 0#9) (strip 0#9).warp.vl ∧ poor.warp.lanes = none ∧ ¬ affords poor poor.warp.vl ∧
    corePlace poor.warp.core < 312 :=
  ⟨by decide +kernel, affords_of (by decide +kernel), by decide +kernel, fun h => absurd (show _ ∨ _ from h) (by decide +kernel), by decide +kernel⟩

/-- Credit exactly as large as the charge, one unit of it from the lease. -/
theorem witness_affords : affords (onCore poor poor.warp.core fun c => { c with level := 1 }) 4 := affords_of (by decide +kernel)

theorem witness_vectorIntegers : ET.int8.isInt = true ∧ ET.int8 ≠ .int64 ∧ (stripEt (strip 0#9).warp).isInt = true ∧ stripEt (strip 0#9).warp ≠ .int64 ∧
    (stripEt (strip 8#9).warp).isInt = false ∧ (strip 8#9).warp.lanes = none := by decide +kernel

/-- Groups of the widths that a strip of 32-bit elements gives, its last register the highest. -/
theorem witness_vectorReady : VectorReady (strip 0#9) [(63#6, 32), (1#6, 32), (2#6, 32), (3#6, 32), (4#6, 8), (5#6, 16)] :=
  vectorReady_of (by decide +kernel)

/-- Groups of eight: the whole of a strip of 128 elements. -/
theorem witness_vectorGroups : VectorReady (base.onWarp fun w => { w with desc := 0x180#9, vl := 128 }) [(56#6, 32), (8#6, 16), (2#6, 8)] :=
  vectorReady_of (by decide +kernel)

theorem witness_compares : (strip 8#9).warp.vl ≤ 1024 ∧ (strip 8#9).warp.fpctl.getLsbD 0 = false := by decide +kernel

/-- Nothing traps while FPCTL enables nothing. -/
theorem witness_quiet (f : Nat → Elem) (k : Nat) : enabledTrap (strip 8#9).warp.fpctl (f k).flags = false := by
  have h : (strip 8#9).warp.fpctl = 0#6 := by decide +kernel
  rw [h]
  simp [enabledTrap]

/-- What 00 R10 says of E4M3: 449 and 464 lie between 448 and the first overflow, 465 beyond; conversions and dequantised elements of each case. -/
theorem witness_rounding : (448 : ℚ) < (449 : Nat) * (2 : ℚ) ^ (0 : Int) ∧ ((29 : Nat) : ℚ) * (2 : ℚ) ^ (4 : Int) ≤ 464 ∧ (464 : ℚ) < (465 : Nat) * (2 : ℚ) ^ (0 : Int) ∧
    ET.e4m3.isNarrowF = true ∧ ET.uint8.isCvtInt = true ∧ (Exact.fin true 1 0).rat < 0 ∧ 0 < (Exact.fin false 1 0).rat ∧ (Exact.fin true 0 0).rat = 0 := by
  norm_num [Exact.rat, ET.isNarrowF, ET.isCvtInt]

theorem witness_dequantised : (fmtOf .sc12).value 0xFFF#32 = .nan ∧ fVal .bf16 0x7FC0#32 = .nan ∧ fVal .bf16 0xFF80#32 = .inf true ∧ (fmtOf .sc12).value 0#32 ≠ .nan ∧
    (fmtOf .sc12).value 0x0800#32 ≠ .nan ∧ fVal .bf16 0x3F80#32 = .fin false 128 (-7) := by decide +kernel

/-- Blocks of two: a NaN among the values, zeros alone, 2^140 beyond every scale, and 3 with 1. -/
theorem witness_quantised : (∃ x ∈ [Exact.nan, .zero], x.isNaN = true ∨ x.isInf = true) ∧ (∀ x ∈ [Exact.zero, .zero], x.isNaN = false ∧ x.isInf = false) ∧
    (Exact.fin false 1 140).rat / 510 > 448 ∧ (Exact.fin true 3 0).rat ≠ 0 ∧ |(Exact.fin false 1 0).rat| ≤ |(Exact.fin true 3 0).rat| ∧
    |(Exact.fin true 3 0).rat| / 510 ≤ 448 ∧ (fmtOf .e4m3).codeValue (fmtOf .e4m3).maxCode = 448 := by
  refine ⟨⟨.nan, by decide, by decide⟩, by decide, ?_, ?_, ?_, ?_, ?_⟩
  all_goals norm_num [Exact.rat, abs_of_nonneg, FloatFmt.codeValue, show (fmtOf .e4m3).magnitude (fmtOf .e4m3).maxCode = (14, 5) from by decide +kernel]

theorem witness_floatRules : (0x7F7FFFFF#32).toNat < 2 ^ 32 ∧ (fmtOf .fp32).value 0x7F7FFFFF#32 ≠ .nan ∧ (fmtOf .sc12).value 0x0FFE#32 ≠ .nan ∧
    fVal .fp32 0x7FC00000#32 = .nan ∧ fVal .fp32 0x7F800000#32 = .inf false ∧ fVal .fp32 0xFF800000#32 = .inf true ∧
    fVal .fp32 0x80000000#32 = .fin true 0 (-149) ∧ fVal .fp32 0x00000000#32 = .fin false 0 (-149) ∧ fVal .fp32 0xBF800000#32 = .fin true 8388608 (-23) := by decide +kernel

/-- A strip of two blocks of eight BF16 elements. -/
def blocks : State := base.onWarp fun w => { w with desc := 0x019#9, vl := 16, vpad := 1 }

theorem witness_conversions : VectorReady blocks [(1#6, 16), (2#6, 16), (3#6, 8)] ∧ ∀ x ∈ scaleOk blocks 4#6, x.1 = true :=
  ⟨vectorReady_of (by decide +kernel), by decide +kernel⟩

/-- A strip of FP32 with every exception enabled, a clash of infinities in element 1 of v1 and v2, and an INT32 of 25 bits in that of v4. -/
def trapping : State := (withV (strip 8#9) [(17, 0x7F800000#32), (33, 0xFF800000#32), (65, 0x01000001#32)]).onWarp fun w => { w with fpctl := 0x3F#6 }

theorem witness_floatExceptions : VectorReady trapping [(3#6, 32), (1#6, 32), (2#6, 32), (4#6, 32)] ∧ counts trapping.warp 0#3 1 ∧
    enabledTrap trapping.warp.fpctl (faddElem .fp32 .rne (vElem trapping .fp32 1#6 1) (vElem trapping .fp32 2#6 1)).flags = true ∧
    (∀ j, j < 1 → counts trapping.warp 0#3 j → enabledTrap trapping.warp.fpctl (faddElem .fp32 .rne (vElem trapping .fp32 1#6 j) (vElem trapping .fp32 2#6 j)).flags = false) :=
  ⟨vectorReady_of (by decide +kernel), counts_of (by decide +kernel), by decide +kernel, by
    intro j hj _
    obtain rfl : j = 0 := by omega
    decide⟩

theorem witness_convertTrap : enabledTrap trapping.warp.fpctl (convert .fp32 .rne false (elemValue .int32 (vElem trapping .int32 4#6 1))).flags = true ∧
    enabledTrap trapping.warp.fpctl (convert .fp32 .rne false (elemValue .int32 (vElem trapping .int32 4#6 0))).flags = false := by decide +kernel

/-- A strip of two blocks whose first element, 2^127 of BF16 in v2, overflows FP16 under its scale in v4. -/
def overflowing : State := (withV blocks [(32, 0x7F00#32), (64, 0x0800#32)]).onWarp fun w => { w with fpctl := 0x3F#6 }

theorem witness_dequantTrap : VectorReady overflowing [(1#6, 16), (5#6, 16), (6#6, 16), (4#6, 16)] ∧ VectorReady overflowing [(2#6, 16)] ∧
    (∀ x ∈ scaleOk overflowing 4#6, x.1 = true) ∧ counts overflowing.warp 0#3 0 ∧
    enabledTrap overflowing.warp.fpctl (dequantElem .bf16 .fp16 .rne (vElem overflowing .bf16 2#6 0) (readElem overflowing 4#6 16 0)).flags = true :=
  ⟨vectorReady_of (by decide +kernel), vectorReady_of (by decide +kernel), by decide +kernel,
    counts_of (by decide +kernel), by decide +kernel⟩

theorem witness_flaggedDivide : VectorReady trapping [(3#6, 32), (1#6, 32), (2#6, 32)] ∧ trapping.warp.dests + groupSize trapping.warp 32 ≤ 16 ∧
    counts trapping.warp 0#3 0 ∧ enabledTrap trapping.warp.fpctl (fdivElem .fp32 .rne (vElem trapping .fp32 1#6 0) (vElem trapping .fp32 2#6 0)).flags = true :=
  ⟨vectorReady_of (by decide +kernel), by decide +kernel, counts_of (by decide +kernel), by decide +kernel⟩

theorem witness_quantisation : blocks.warp.lanes = none ∧ (vecOk blocks 1#6 ET.e4m3.width).1 = true ∧ groupSize blocks.warp ET.bf16.width ≤ 8 ∧
    groupOk blocks 8#6 8 = true ∧ groupOk blocks 2#6 (groupSize blocks.warp ET.bf16.width) = true ∧ (∀ x ∈ scaleOk blocks 4#6, x.1 = true) ∧
    affords blocks (blocks.warp.vl * 2) ∧ ∀ j ∈ quantBlocks blocks.warp 8, (quantBlock .e4m3 ((List.range 8).map fun i =>
      if j * 8 + i < 15 then fVal .bf16 (vElem blocks .bf16 2#6 (j * 8 + i)) else .zero) (15 - j * 8)).trap blocks.warp.fpctl = none :=
  by and_intros <;> first | decide +kernel | exact affords_of (by decide +kernel)

/-- The same strip with a NaN in its second block and every exception enabled. -/
def quantTrapping : State := (withV blocks [(36, 0x7FC0#32)]).onWarp fun w => { w with fpctl := 0x3F#6 }

theorem witness_quantTrap : quantBlocks quantTrapping.warp 8 = [0, 1] ∧
    (quantBlock .e4m3 ((List.range 8).map fun i => fVal .bf16 (vElem quantTrapping .bf16 2#6 i)) 15).trap quantTrapping.warp.fpctl = none ∧
    (quantBlock .e4m3 ((List.range 8).map fun i => if 8 + i < 15 then fVal .bf16 (vElem quantTrapping .bf16 2#6 (8 + i)) else .zero) 7).trap
      quantTrapping.warp.fpctl = some (0, { nv := true }) := by decide +kernel

theorem witness_permutes : VectorReady (strip 0#9) [(1#6, 32), (2#6, 32)] ∧ VectorReady (strip 0#9) [(3#6, 16)] ∧ groupOk (strip 0#9) 8#6 8 = true ∧
    groupOk (strip 0#9) 56#6 8 = true := ⟨vectorReady_of (by decide +kernel), vectorReady_of (by decide +kernel), by decide +kernel, by decide +kernel⟩

/-- m1 enables no element, m2 enables element 1 of 3, 7, 0 and a pad element. -/
def leaves : State := (withV (strip 0#9) [(16, 3#32), (17, 7#32), (19, 9#32)]).onWarp fun w => w.setM 2#3 0xF#1024

theorem witness_reductions : VectorReady leaves [(1#6, 32)] ∧ (63#6).toNat < leaves.r ∧ 0 < leaves.w ∧ leaves.warp.vl ≤ 1024 ∧
    ((List.range leaves.warp.vl).filter fun k => maskBit leaves.warp 1#3 k) = [] ∧
    (((List.range leaves.warp.vl).filter fun k => maskBit leaves.warp 2#3 k).map fun k =>
      if k < leaves.warp.vl - leaves.warp.vpad then vVal leaves .int32 1#6 k else 0) = [3, 7, 0, 0] ∧ leaves.warp.fpctl = 0#6 :=
  ⟨vectorReady_of (by decide +kernel), by decide +kernel⟩

theorem witness_scans : VectorReady (strip 8#9) [(1#6, 32), (2#6, 32)] ∧ affords (strip 8#9) (strip 8#9).warp.vl :=
  ⟨vectorReady_of (by decide +kernel), affords_of (by decide +kernel)⟩

/-- +infinity in element 0 of v2 and −infinity in element 1, every exception enabled. -/
def scanning : State := (withV (strip 8#9) [(32, 0x7F800000#32), (33, 0xFF800000#32)]).onWarp fun w => { w with fpctl := 0x3F#6 }

/-- The sum of the two raises NV, at element 1 and not below it. -/
theorem witness_scanTraps : VectorReady scanning [(1#6, 32), (2#6, 32)] ∧ scanning.warp.mustWait flagged = false ∧
    runningAt (fun k => maskBit scanning.warp 0#3 k) (fun k => if k < 3 then vElem scanning .fp32 2#6 k else 0#32)
      (fun r y => (scanStep .rne .add .fp32 r y).bits) 0 = none ∧
    runningAt (fun k => maskBit scanning.warp 0#3 k) (fun k => if k < 3 then vElem scanning .fp32 2#6 k else 0#32)
      (fun r y => (scanStep .rne .add .fp32 r y).bits) 1 = some 0x7F800000#32 ∧
    enabledTrap scanning.warp.fpctl (scanStep .rne .add .fp32 0x7F800000#32 (vElem scanning .fp32 2#6 1)).flags = true :=
  ⟨vectorReady_of (by decide +kernel), by decide +kernel⟩

/-! ## Witnesses: loads, stores, streams, atomics -/

/-- The lowest byte of the team's scratchpad, and an address in it. -/
def low : Nat := Config.windowBase

/-- An access of 32-bit elements that trims. -/
def ask32 : Ask := base.ask .read 32

/-- The edges of R192's checks: −1, 2^64, the lowest and highest addresses that are not canonical, one byte off, the first byte beyond a slice, the first byte that no team owns, the last element that the team owns. -/
theorem witness_accessChecks : ask32.held = [] ∧ (-1 : Int) < 0 ∧ (2 : Int) ^ 64 ≤ 2 ^ 64 ∧ (2 : Int) ^ 53 ≤ 2 ^ 53 ∧ (2 : Int) ^ 64 - 2 ^ 53 - 1 < 2 ^ 64 - 2 ^ 53 ∧
    8 < ask32.e ∧ ((low : Int) + 1) % ((ask32.e / 8 : Nat) : Int) ≠ 0 ∧ ((low : Int) + 1020) % ((ask32.e / 8 : Nat) : Int) = 0 ∧
    inWindow (low + Config.sliceBytes) = true ∧ backed base Config.sliceBytes = false ∧ ask32.trims = true ∧
    inWindow (low + 1024) = true ∧ backed base 1024 = true ∧ ownedBy base ask32.part 1024 = false ∧
    inWindow (low + 1020) = true ∧ backed base 1020 = true ∧ ownedBy base ask32.part 1020 = true := by decide +kernel

theorem witness_checkedRuns : (∀ x ∈ [({ k := 0, va := low } : Elt), { k := 1, va := (low + 1020 : Nat) }], ∀ first : Bool,
      checkElt base ask32 first x = .ok { key := x.va.toNat }) ∧ base.absent = [] ∧ quiet base = true ∧
    base.mgmt.linkUp = true ∧ base.mgmt.portsUp = BitVec.allOnes 8 ∧ 0 < ask32.e := by decide +kernel

/-- An engine holds the line of the second of two elements. -/
def heldLine : State := { base with absent := [low / 128 + 7] }

theorem witness_checkedWaits : (∀ x ∈ [({ k := 0, va := low } : Elt), { k := 1, va := (low + 1020 : Nat) }], ∀ first : Bool,
      checkElt heldLine ask32 first x = .ok { key := x.va.toNat }) ∧ quiet heldLine = true ∧ low / 128 ∉ heldLine.absent ∧ (low + 1020) / 128 ∈ heldLine.absent := by
  decide +kernel

/-- s1 holds the address of the team's last 64 bytes. -/
def aimed : State := withS base [(1#6, BitVec.ofNat 64 (low + 960))]

theorem witness_scalarAccesses : aimed.warp.lanes = none ∧
    planOf aimed { aimed.ask .read 64 with trims := false } [{ k := 0, va := (aimed.warp.readS 1#6).toNat + (56#16 : BitVec 16).toInt }] =
      .run [({ k := 0, va := (low + 1016 : Nat) }, { key := low + 1016 })] none ∧
    planOf aimed { aimed.ask .write 8 with trims := false } [{ k := 0, va := (aimed.warp.readS 1#6).toNat + (63#16 : BitVec 16).toInt }] =
      .run [({ k := 0, va := (low + 1023 : Nat) }, { key := low + 1023 })] none ∧
    FSel.b ≠ .none ∧ aimed.warp.dests + 1 ≤ 16 := by decide +kernel

/-- `aimed` with an uncorrectable error in the element. -/
def aimedMarred : State := { aimed with bad := [(low + 960) / 8] }

/-- One byte off a 32-bit element; an element whose granule holds an uncorrectable error. -/
theorem witness_scalarFaults :
    (∃ x, planOf aimed { aimed.ask .read 32 with trims := false } [{ k := 0, va := (aimed.warp.readS 1#6).toNat + (1#16 : BitVec 16).toInt }] = .run [] (some x) ∧ stopIsFault x = true) ∧
    (∃ x, planOf aimed { aimed.ask .write 32 with trims := false } [{ k := 0, va := (aimed.warp.readS 1#6).toNat + (1#16 : BitVec 16).toInt }] = .run [] (some x) ∧ stopIsFault x = true) ∧
    (∃ x, planOf aimedMarred (atomAsk aimedMarred (atomAccess .add) 32 false) [{ k := 0, va := (aimedMarred.warp.readS 1#6).toNat }] = .run [] (some x) ∧ stopIsError x = true) ∧
    (∃ x, planOf aimedMarred (atomAsk aimedMarred .readWrite 32 false) [{ k := 0, va := (aimedMarred.warp.readS 1#6).toNat }] = .run [] (some x) ∧ stopIsError x = true) :=
  ⟨refuses_run (by decide +kernel), refuses_run (by decide +kernel), refuses_run (by decide +kernel), refuses_run (by decide +kernel)⟩

/-- Lane l holds in v2 and v3 the address of its own word. -/
def aimedLanes : State := withV forked ((List.range 16).flatMap fun l =>
  [(32 + l, BitVec.ofNat 32 (4 * l)), (48 + l, BitVec.ofNat 32 (low / 2 ^ 32))])

theorem witness_laneAccesses : LaneShape aimedLanes lanes0 ∧ groupOk aimedLanes 2#6 2 = true ∧
    (∃ oks, planOf aimedLanes { aimedLanes.ask .read 32 with trims := false, each := true } (lanes0.group.map fun l =>
      { k := l, va := ((laneOf aimedLanes 2#6 l).toNat + 2 ^ 32 * (laneOf aimedLanes (2#6 + 1#6) l).toNat : Nat) + (0#16 : BitVec 16).toInt }) = .run oks none) ∧
    (∃ oks, planOf aimedLanes { aimedLanes.ask .write 32 with trims := false, each := true } (lanes0.group.map fun l =>
      { k := l, va := ((laneOf aimedLanes 2#6 l).toNat + 2 ^ 32 * (laneOf aimedLanes (2#6 + 1#6) l).toNat : Nat) + (0#16 : BitVec 16).toInt }) = .run oks none) ∧
    (∃ oks, planOf aimedLanes { atomAsk aimedLanes (atomAccess .add) 32 false with each := true } (lanes0.group.map fun l =>
      { k := l, va := ((laneOf aimedLanes 2#6 l).toNat + 2 ^ 32 * (laneOf aimedLanes (2#6 + 1#6) l).toNat : Nat) }) = .run oks none) :=
  ⟨laneShape_of (by decide +kernel), by decide +kernel, whole_run (by decide +kernel), whole_run (by decide +kernel), whole_run (by decide +kernel)⟩

theorem witness_laneAccessCharge : affords aimedLanes lanes0.group.length ∧ ET.int32 ≠ .int64 ∧ (63#6).toNat < aimedLanes.r := ⟨affords_of (by decide +kernel), by decide +kernel⟩

/-- Lane 3's address is one byte off. -/
def bentLanes : State := withV aimedLanes [(35, BitVec.ofNat 32 13)]

/-- The lanes below lane 3 perform; lane 3 stops. -/
theorem witness_laneStops : LaneShape bentLanes lanes0 ∧ groupOk bentLanes 2#6 2 = true ∧ affords bentLanes lanes0.group.length ∧
    (∃ oks x, planOf bentLanes { bentLanes.ask .read 32 with trims := false, each := true } (lanes0.group.map fun l =>
      { k := l, va := ((laneOf bentLanes 2#6 l).toNat + 2 ^ 32 * (laneOf bentLanes (2#6 + 1#6) l).toNat : Nat) + (0#16 : BitVec 16).toInt }) = .run oks (some x) ∧
      stopIsFault x = true) ∧
    (∃ oks x, planOf bentLanes { bentLanes.ask .write 32 with trims := false, each := true } (lanes0.group.map fun l =>
      { k := l, va := ((laneOf bentLanes 2#6 l).toNat + 2 ^ 32 * (laneOf bentLanes (2#6 + 1#6) l).toNat : Nat) + (0#16 : BitVec 16).toInt }) = .run oks (some x) ∧
      stopIsFault x = true) :=
  ⟨laneShape_of (by decide +kernel), by decide +kernel, affords_of (by decide +kernel), stops_run (by decide +kernel), stops_run (by decide +kernel)⟩

/-- Lane 3's word holds an uncorrectable error. -/
def marredLanes : State := { aimedLanes with bad := [(low + 12) / 8] }

theorem witness_laneFaults : LaneShape marredLanes lanes0 ∧ ∃ oks x, planOf marredLanes { atomAsk marredLanes (atomAccess .add) 32 false with each := true } (lanes0.group.map fun l =>
      { k := l, va := ((laneOf marredLanes 2#6 l).toNat + 2 ^ 32 * (laneOf marredLanes (2#6 + 1#6) l).toNat : Nat) }) = .run oks (some x) ∧ stopIsError x = true :=
  ⟨laneShape_of (by decide +kernel), stops_run (by decide +kernel)⟩

/-- A strip of bytes whose base, in s1, leaves room for some of its elements only; s3 is the stride 2^23 · 3, v2 holds the indices 0, 4, 8, 12. -/
def strided (desc : BitVec 9) (a : Nat) : State :=
  withV (withS (strip desc) [(1#6, BitVec.ofNat 64 a), (3#6, BitVec.ofNat 64 (12 * 2 ^ 20))]) [(33, 4#32), (34, 8#32), (35, 12#32)]

theorem witness_vectorReads : VectorReady (strided 0#9 low) [(4#6, 32), (2#6, 32)] ∧ (strided 0#9 low).warp.service.gathered = [] ∧
    (∃ oks, planOf (strided 0#9 low) ((strided 0#9 low).ask .read 32) (asked (strided 0#9 low).warp 0#3 fun k => ((low : Int) + (k * 32 / 8 : Nat), k * 32 % 8)) = .run oks none) ∧
    (∃ oks, planOf (strided 0#9 low) ((strided 0#9 low).ask .read 32) (asked (strided 0#9 low).warp 0#3 fun k => ((low : Int) + (readElem (strided 0#9 low) 2#6 32 k).toInt, 0)) = .run oks none) ∧
    (∃ oks x, planOf (strided 0#9 low) ((strided 0#9 low).ask .read 32)
      (asked (strided 0#9 low).warp 0#3 fun k => ((low : Int) + k * ((strided 0#9 low).warp.readS 3#6).toInt, 0)) = .run oks (some x) ∧ stopIsTrim x = true) ∧
    (∃ oks x, planOf (strided 0#9 low) ((strided 0#9 low).ask .read 32)
      (asked (strided 0#9 low).warp 0#3 fun k => ((low + 1016 : Int) + (k * 32 / 8 : Nat), k * 32 % 8)) = .run oks (some x) ∧ stopIsFault x = true) :=
  ⟨vectorReady_of (by decide +kernel), by decide +kernel, whole_run (by decide +kernel), whole_run (by decide +kernel),
    stops_run (by decide +kernel), stops_run (by decide +kernel)⟩

/-- The granule of bytes 8 to 15 holds an uncorrectable error. -/
def marred : State := { strided 0#9 low with bad := [low / 8 + 1] }

/-- `strided` with another index for element 1: one byte off, and beyond the slice. -/
def aside (i : BitVec 32) : State := withV (strided 0#9 low) [(33, i)]

theorem witness_vectorAtomicStops : VectorReady marred [(2#6, 32), (4#6, 32), (6#6, 32)] ∧ marred.warp.dests + groupSize marred.warp 32 ≤ 16 ∧
    (∃ oks x, planOf marred (atomAsk marred (atomAccess .add) 32 true)
      (asked marred.warp 0#3 fun k => ((marred.warp.readS 1#6).toNat + (readElem marred 2#6 32 k).toInt, 0)) = .run oks (some x) ∧ stopIsError x = true) ∧
    (∃ oks x, planOf (aside 1#32) (atomAsk (aside 1#32) (atomAccess .add) 32 true)
      (asked marred.warp 0#3 fun k => ((marred.warp.readS 1#6).toNat + (readElem (aside 1#32) 2#6 32 k).toInt, 0)) = .run oks (some x) ∧ stopIsFault x = true) ∧
    (∃ oks x, planOf (aside 0xC00000#32) (atomAsk (aside 0xC00000#32) (atomAccess .add) 32 true)
      (asked marred.warp 0#3 fun k => ((marred.warp.readS 1#6).toNat + (readElem (aside 0xC00000#32) 2#6 32 k).toInt, 0)) = .run oks (some x) ∧ stopIsTrim x = true) :=
  ⟨vectorReady_of (by decide +kernel), by decide +kernel, stops_run (by decide +kernel), stops_run (by decide +kernel), stops_run (by decide +kernel)⟩

theorem witness_vectorError : VectorReady marred [(4#6, 32), (2#6, 32)] ∧
    ∃ oks x, planOf marred (marred.ask .read 32) (asked marred.warp 0#3 fun k => ((low : Int) + (k * 32 / 8 : Nat), k * 32 % 8)) = .run oks (some x) ∧ stopIsError x = true :=
  ⟨vectorReady_of (by decide +kernel), stops_run (by decide +kernel)⟩

theorem witness_vectorWrites : ET.int32 ≠ .int64 ∧
    (∃ oks, planOf (strided 0#9 low) ((strided 0#9 low).ask .write 32) (asked (strided 0#9 low).warp 0#3 fun k => ((low : Int) + (k * 32 / 8 : Nat), k * 32 % 8)) = .run oks none) ∧
    (∃ oks, planOf (strided 0#9 low) ((strided 0#9 low).ask .write 32) (asked (strided 0#9 low).warp 0#3 fun k => ((low : Int) + (readElem (strided 0#9 low) 2#6 32 k).toInt, 0)) = .run oks none) ∧
    (∃ oks x, planOf (strided 0#9 low) ((strided 0#9 low).ask .write 32)
      (asked (strided 0#9 low).warp 0#3 fun k => ((low : Int) + k * ((strided 0#9 low).warp.readS 3#6).toInt, 0)) = .run oks (some x) ∧ stopIsTrim x = true) ∧
    (∃ oks x, planOf (strided 0#9 low) ((strided 0#9 low).ask .write 32)
      (asked (strided 0#9 low).warp 0#3 fun k => ((low + 1016 : Int) + (k * 32 / 8 : Nat), k * 32 % 8)) = .run oks (some x) ∧ stopIsFault x = true) :=
  ⟨by decide +kernel, whole_run (by decide +kernel), whole_run (by decide +kernel), stops_run (by decide +kernel), stops_run (by decide +kernel)⟩

/-- Stream 3 reads, and stream 4 writes, 32-bit elements of the scratchpad, two of a strip's three live ones being left. -/
def flowing : State := (strip 0#9).onWarp fun w => { w with
  st := (w.st.set 3 { defined := true, base := BitVec.ofNat 64 low, stride := 4#64, et := .int32, unit := true, count := 6#23, p := 4 }).set 4
    { defined := true, base := BitVec.ofNat 64 low, stride := 4#64, et := .int32, store := true, count := 0#23 } }

theorem witness_streams : flowing.warp.lanes = none ∧ FSel.b ≠ .none ∧ flowing.warp.dests + groupSize flowing.warp 32 ≤ 16 ∧ ¬ ((flowing.warp.stream 4#3).defined = true ∧ (flowing.warp.stream 4#3).store = false) ∧ (flowing.warp.stream 3#3).defined = true ∧ (flowing.warp.stream 3#3).store = false ∧
    (flowing.warp.stream 3#3).ahead = [] ∧ (flowing.warp.stream 3#3).held = [] ∧ flowing.warp.service.gathered = [] ∧
    (flowing.warp.stream 4#3).defined = true ∧ (flowing.warp.stream 4#3).store = true ∧ (flowing.warp.stream 4#3).et ≠ .int64 ∧
    VectorReady flowing [(1#6, 32)] ∧
    (∃ oks, planOf flowing (flowing.ask .read 32) ((asked flowing.warp 0#3 fun k => ((low : Int) + ((4 + k) * 32 / 8 : Nat), (4 + k) * 32 % 8)).filter
      fun y => 4 + y.k < 6) = .run oks none) ∧
    (∃ oks, planOf flowing (flowing.ask .write 32) (asked flowing.warp 0#3 fun k => ((low : Int) + ((0 + k : Nat) : Int) * (4#64 : Word).toInt, 0)) = .run oks none) := by
  and_intros <;> first | decide +kernel | exact vectorReady_of (by decide +kernel) | exact whole_run (by decide +kernel)

theorem witness_streamCharge : affords flowing flowing.warp.vl ∧ (flowing.warp.stream 4#3).held = [] := ⟨affords_of (by decide +kernel), by decide +kernel⟩

/-- Partition 0 maps the lowest GiB by one leaf, without stage 2. -/
def mapped (priv : Bool) : State :=
  { base with
    parts := base.parts.set 0 { base.parts[0] with s2en := false, s1root := 0x40000#64, keycnt := 1#9 }
    mem := cellsWrite (cellsWrite base.mem 0x40000 [0x03#8, 0x00#8, 0x08#8]) 0x80000 [0x3D#8]
    warp := { base.warp with intrap := priv, s := base.warp.s.set 1 0x1000#64 } }

/-- Stage-2 tables of partition 0: at 0x90000 a pointer, an invalid entry and a leaf, which level 0 has none of; at 0x80000 the leaf of the lowest GiB. -/
def tabled : State :=
  let m := mapped false
  { m with mem := cellsWrite (cellsWrite m.mem 0x90000 ([0x03#8, 0x00#8, 0x08#8] ++ List.replicate 13 0#8 ++ [0x01#8])) 0x80000 [0x1D#8] }

/-- Each case of a level of stage 2: no memory at the table, an error in the entry, an invalid and a malformed entry, a pointer, a leaf. -/
theorem witness_walk2 : regionOf tabled (0x600000000000 + 8 * walkIndex 2 0 0) = .none ∧ regionOf tabled (0x90000 + 8 * walkIndex 2 0 0) ≠ .none ∧
    errorAt { tabled with bad := [0x90000 / 8] } 0x90000 0 8 = true ∧ errorAt tabled 0x90000 0 8 = false ∧
    bitsOf (BitVec.ofNat 64 (readLE tabled (0x90000 + 8 * walkIndex 2 0 (2 ^ 39)) 0 8)) 0 0 = 0 ∧
    BitVec.ofNat 64 (readLE tabled (0x90000 + 8 * walkIndex 2 0 (2 ^ 40)) 0 8) = 1#64 ∧
    BitVec.ofNat 64 (readLE tabled 0x90000 0 8) = 0x80003#64 ∧ BitVec.ofNat 64 (readLE tabled (0x80000 + 8 * walkIndex 2 1 0) 0 8) = 0x1D#64 ∧
    tabled.tables = [] := by decide +kernel

theorem witness_entries : badEntry 2 0 true 1#64 ∧ ¬ badEntry 2 0 true 0x80003#64 ∧ ¬ badEntry 2 1 true 0x1D#64 ∧ bitsOf 0x80003#64 1 1 = 1 ∧
    bitsOf 0x1D#64 1 1 = 0 := by norm_num [badEntry, bitsOf]

/-- Both stages on: stage 2 maps the lowest GiB to itself, where the tables of stage 1 stand. -/
def nested : State :=
  { tabled with parts := tabled.parts.set 0 { tabled.parts[0] with s2en := true, s2root := 0x90000#64 } }

theorem witness_walk1 : (partOf tabled 0#4).s2en = false ∧ (partOf nested 0#4).s2en = true ∧ walkStage2 nested 0#4 0x40000 true = .leaf 0x1D#64 1 ∧
    regionOf nested (leafAddr 0x1D#64 1 0x40000) = .dram ∧ bitsOf 0x1D#64 2 2 = 1 ∧ (partOf nested 0#4).keybase.toNat ≤ bitsOf 0x1D#64 62 54 ∧
    bitsOf 0x1D#64 62 54 < (partOf nested 0#4).keybase.toNat + (partOf nested 0#4).keycnt.toNat ∧
    walkStage2 nested 0#4 (2 ^ 39) true = .stop (.miss 2 0 (2 ^ 39) true) ∧ nested.tables = [] := by decide +kernel

theorem witness_translated : (mapped false).xlate = [] ∧ walkStage1 (mapped false) 0#4 0x1000 = .leaf 0x3D#64 1 ∧
    walkStage1 (mapped false) 0#4 (2 ^ 30) = .stop (.miss 1 1 (2 ^ 30) false) ∧ denied .write 0x3D#64 = none ∧ denied .fetch 0x0D#64 = some 0x5A#8 ∧
    bitsOf 0x3D#64 5 5 = 1 ∧ bitsOf 0x1D#64 5 5 = 0 ∧ (partOf (mapped false) 0#4).s2en = false ∧
    walkStage2 nested 0#4 (leafAddr 0x3D#64 1 0x1000) false = .leaf 0x1D#64 1 := by decide +kernel

/-- A 32-bit read of the mapped page, of the page beyond it, and of one whose service failed; −2^20 is canonical. -/
def mappedAsk : Ask := (mapped false).ask .read 32

theorem witness_missed : mappedAsk.held = [] ∧ mappedAsk.atomic = false ∧ (2 : Int) ^ 64 - 2 ^ 53 ≤ 2 ^ 64 - 2 ^ 20 ∧ (0x1000 : Int) % ((mappedAsk.e / 8 : Nat) : Int) = 0 ∧
    inWindow (va54 0x1000) = false ∧ mappedAsk.failed = [] ∧ ({ mappedAsk with failed := [(va54 0x1000 / 65536, 1, 1, 0)] } : Ask).failed = [(va54 0x1000 / 65536, 1, 1, 0)] ∧
    translate (mapped false) mappedAsk.part mappedAsk.acc mappedAsk.priv (va54 0x1000) mappedAsk.pins = .ok { key := 0x1000 } ∧
    translate (mapped false) mappedAsk.part mappedAsk.acc mappedAsk.priv (va54 ((2 : Int) ^ 30)) mappedAsk.pins = .miss 1 1 (2 ^ 30) false := by decide +kernel

/-- An element that translates and one that misses, before one that is not aligned. -/
theorem witness_planMisses : (∀ x ∈ [({ k := 0, va := 0x1000 } : Elt), { k := 1, va := 2 ^ 30 }], ∀ first : Bool,
      checkElt (mapped false) mappedAsk first x = checkElt (mapped false) mappedAsk true x) ∧
    checkElt (mapped false) mappedAsk true { k := 0, va := 0x1000 } = .ok { key := 0x1000 } ∧
    checkElt (mapped false) mappedAsk true { k := 1, va := 2 ^ 30 } = .miss { elem := 1, va := 2 ^ 30, acc := .read, stage := 1, level := 1, addr := 2 ^ 30, table := false } ∧
    (∀ first : Bool, checkElt (mapped false) mappedAsk first { k := 2, va := 1 } = .fault (accessReport 0x30#8 2 1)) := by decide +kernel

/-- s1 aims at the page that misses; the fault queue of the partition is off, or holds 16 entries and is empty. -/
def missing (en : Bool) : State :=
  { mapped false with
    parts := (mapped false).parts.set 0 { (mapped false).parts[0] with fq := { base := 0x100000#64, log := 4, en := en } }
    warp := { base.warp with s := base.warp.s.set 1 (BitVec.ofNat 64 (2 ^ 30)) } }

theorem witness_missParks (en : Bool) : (missing en).warp.lanes = none ∧ (missing en).absent = [] ∧
    planOf (missing en) { (missing en).ask .read 32 with trims := false } [{ k := 0, va := ((missing en).warp.readS 1#6).toNat + (0#16 : BitVec 16).toInt }] =
      .misses [] [{ elem := 0, va := 2 ^ 30, acc := .read, stage := 1, level := 1, addr := 2 ^ 30, table := false }] := by
  cases en <;> decide +kernel

theorem witness_missRoom : (partOf (missing false) 0#4).fq.en = false ∧ (partOf (missing true) 0#4).fq.en = true ∧
    (partOf (missing true) 0#4).fq.stopped = false ∧ (partWrite (missing true) 0#4 0x100000 (List.replicate 256 1#8)).isSome = true := by decide +kernel

/-- A manifest of fourteen records, as many as an entry holds. -/
def fullManifest : Manifest := { who := .warp base.me, header := [2 ^ 19, 0, 0, 0], records := List.replicate 14 { page := 1, stage := 1, level := 0, table := false, addr := 65536, elem := 1023, access := 3 } }

theorem witness_manifest : fullManifest.type2 = none ∧ fullManifest.records.length ≤ 14 ∧ (2 ^ 19 : Word).toNat % 2 ^ 18 = 0 ∧ (2 ^ 19 : Word).toNat < 2 ^ 20 ∧
    ∀ r ∈ fullManifest.records, r.addr < 2 ^ 64 ∧ r.access < 4 ∧ r.level < 4 ∧ r.stage < 4 := by decide +kernel

theorem witness_scalarAtomics : aimed.warp.lanes = none ∧
    planOf aimed (atomAsk aimed (atomAccess .add) 32 false) [{ k := 0, va := (aimed.warp.readS 1#6).toNat }] =
      .run [({ k := 0, va := (low + 960 : Nat) }, { key := low + 960 })] none ∧
    planOf aimed (atomAsk aimed .readWrite 64 false) [{ k := 0, va := (aimed.warp.readS 1#6).toNat }] =
      .run [({ k := 0, va := (low + 960 : Nat) }, { key := low + 960 })] none := by decide +kernel

theorem witness_vectorAtomics : VectorReady (strided 0#9 low) [(2#6, 32), (4#6, 32), (6#6, 32)] ∧
    (∃ oks, planOf (strided 0#9 low) (atomAsk (strided 0#9 low) (atomAccess .st) 32 true)
      (asked (strided 0#9 low).warp 0#3 fun k => (((strided 0#9 low).warp.readS 1#6).toNat + (readElem (strided 0#9 low) 2#6 32 k).toInt, 0)) = .run oks none) ∧
    (∃ oks, planOf (strided 0#9 low) (atomAsk (strided 0#9 low) .readWrite 32 true)
      (asked (strided 0#9 low).warp 0#3 fun k => (((strided 0#9 low).warp.readS 1#6).toNat + (readElem (strided 0#9 low) 2#6 32 k).toInt, 0)) = .run oks none) ∧
    (62#6).toNat % (2 * groupSize (strided 0#9 low).warp 32) = 0 ∧ (62#6).toNat + 2 * groupSize (strided 0#9 low).warp 32 ≤ (strided 0#9 low).r :=
  ⟨vectorReady_of (by decide +kernel), whole_run (by decide +kernel), whole_run (by decide +kernel), by decide +kernel, by decide +kernel⟩

/-- The cell at s1 stands at turn 5. -/
def turning : State := { aimed with mem := cellsWrite aimed.mem (low + 964) [5#8] }

/-- Turns 5, 2^31 + 5 and 2^31 + 4 against a cell at turn 5: due, passed, not yet due. -/
theorem witness_orderedReduction : turning.warp.lanes = none ∧
    planOf turning (atomAsk turning .readWrite 64 false) [{ k := 0, va := (turning.warp.readS 1#6).toNat }] =
      .run [({ k := 0, va := (low + 960 : Nat) }, { key := low + 960 })] none ∧
    (loadElt turning 64 ({ k := 0, va := (low + 960 : Nat) }, { key := low + 960 })).toNat / 2 ^ 32 = 5 ∧
    2 ^ 31 ≤ (2 ^ 31 + 5 + 2 ^ 32 - 5) % 2 ^ 32 ∧ 0 < (2 ^ 31 + 4 + 2 ^ 32 - 5) % 2 ^ 32 ∧ (2 ^ 31 + 4 + 2 ^ 32 - 5) % 2 ^ 32 < 2 ^ 31 := by decide +kernel

theorem witness_hints : base.warp.lanes = none := by decide +kernel

/-! ## Witnesses: copies, channels, tiles -/

/-- v1 holds the record of a box of sixteen 32-bit elements at the scratchpad's start, s2 its dense side, s3 its pitch. -/
def boxed : State :=
  withV (withS base [(2#6, BitVec.ofNat 64 (low + 512)), (3#6, 64#64)])
    ([(16, BitVec.ofNat 32 low), (17, BitVec.ofNat 32 (low / 2 ^ 32)), (28, 0x10010#32), (29, 0x100401#32)] ++
      [18, 19, 20, 21, 22].map fun i => (i, 16#32))

theorem witness_copyBox : boxed.warp.lanes = none ∧ (boxed.team.chan 0#4).err = none ∧ (boxed.team.chan 0#4).n < 2 ^ 48 - 1 ∧ porterBusy boxed < 8 ∧
    (1#6).toNat < boxed.r ∧ recordBad boxed 1#6 = false ∧
    ({ shape := shapeOf boxed 1#6, dense := low + 512, pitch := 64, ext := boxFields boxed 1#6 } : Box).size = 16 ∧
    ((boxFields boxed 1#6).headD 0 * (shapeOf boxed 1#6).et.width + 7) / 8 ≤ (boxed.warp.readS 3#6).toNat ∧ 64 % 4 = 0 ∧ mcastField boxed 1#6 = 0 := by decide +kernel

/-- Slot 0 with a grant of 8 by 8 by 32 of INT8, its store zeroed; v1 holds the record of an INT8 operand box. -/
def gridGrant : Grant := { m := 8, n := 8, k := 32, aty := .int8, bty := .int8, blk := 0#3, status := 0#16 }

def tiled : State :=
  withV (withS (base.onTeam fun t => { t with
      launch := { t.launch with scratch := 8192 }
      tiles := true
      slots := t.slots.set 0 { grant := some gridGrant, acc := List.replicate 64 0#32, ca := List.replicate 8 0x3F80#16, cb := List.replicate 8 0x3F80#16 } })
    [(1#6, BitVec.ofNat 64 low), (2#6, BitVec.ofNat 64 (low + 512)), (3#6, 4#64)])
    ([(16, BitVec.ofNat 32 low), (17, BitVec.ofNat 32 (low / 2 ^ 32)), (29, 0x100401#32), (31, 4#32)] ++ [18, 19, 20, 21, 22].map fun i => (i, 16#32))

theorem witness_copyCharge : affords boxed 16 ∧ ({ shape := shapeOf boxed 1#6, dense := low + 512, pitch := 64, ext := boxFields boxed 1#6 } : Box).size ≤ 2 ^ 24 :=
  ⟨affords_of (by decide +kernel), by decide +kernel⟩

theorem witness_tileFlag : FSel.b ≠ .none ∧ tiled.warp.dests ≤ 16 := by decide +kernel

theorem witness_slotReady : SlotReady tiled 0#3 gridGrant := slotReady_of (by decide +kernel)

theorem witness_copyOperand : (1#6).toNat < tiled.r ∧ mcastField tiled 1#6 = 0 ∧ inWindow (tiled.warp.readS 2#6).toNat = true ∧
    (tiled.warp.readS 2#6).toNat % 64 = 0 ∧ (∀ isA : Bool, operandRecordBad tiled 1#6 isA (some gridGrant) = false ∧ operandBad tiled 1#6 isA gridGrant = false ∧
      (∀ x ∈ operandBoxesOf tiled 1#6 (low + 512) isA gridGrant, x.size ≤ 2 ^ 24) ∧ 0 < ((operandBoxesOf tiled 1#6 (low + 512) isA gridGrant).map Box.size).sum) := by decide +kernel

/-- A list at an address of a multiple of 16, with 2^24 entries, and with none. -/
theorem witness_copyTrain : ((withS base [(1#6, 16#64), (2#6, 0x1000000#64)]).warp.readS 1#6).toNat % 16 = 0 ∧
    ((withS base [(1#6, 16#64), (2#6, 0x1000000#64)]).warp.readS 2#6).toNat ≤ 2 ^ 24 ∧
    (withS base [(1#6, 16#64), (2#6, 0x1000000#64)]).warp.readS 2#6 ≠ 0#64 ∧ base.warp.readS 2#6 = 0#64 := by decide +kernel

/-- A channel that waits for ID 1 with ID 2 done, and one that its error holds at ID 1. -/
def waiting : Channel := { n := 3, c := 1, done := [2] }
def blocked : Channel := { n := 3, c := 1, done := [1, 2], err := some { eid := 1, reason := 0x30#8, elem := 0, va := 0#64 } }

theorem witness_channels : waiting.done.Nodup ∧ (∀ k ∈ waiting.done, waiting.c ≤ k) ∧ waiting.c ∉ waiting.done ∧ blocked.done.Nodup ∧
    (∀ k ∈ blocked.done, blocked.c ≤ k) ∧ blocked.err.all (fun e => e.eid ≤ blocked.c) = true ∧ blocked.err.isSome = true := by decide +kernel

/-- Channel 0 has completed ID 0 and has an error at ID 2: IDs 0 and 1 on either side of C, and the last ID below the error. -/
def channeled : State := (withS base [(1#6, 1#64)]).onTeam fun t => t.setChan 0#4 { n := 3, c := 1, err := some { eid := 2, reason := 0x30#8, elem := 0, va := 0#64 } }

theorem witness_channelWords : channeled.warp.lanes = none ∧ (∀ e ∈ (channeled.team.chan 0#4).err, (channeled.warp.readS 1#6).toNat < e.eid) ∧
    channeled.warp.mustWait flagged = false ∧ channeled.team.preempt = false ∧ (channeled.warp.readS 0#6).toNat < (channeled.team.chan 0#4).c ∧
    (channeled.team.chan 0#4).c ≤ (channeled.warp.readS 1#6).toNat := by decide +kernel

theorem witness_channelCommit : channeled.warp.commit flagged = (channeled.warp, none) := commit_idle (by decide +kernel)

theorem witness_tileState : tiled.warp.lanes = none ∧ (7#3).toNat < tiled.team.launch.tiles ∧ tiled.team.tiles = true ∧ base.team.tiles = false ∧
    tiled.warp.mustWait flagged = false ∧ tiled.team.preempt = false ∧ tiled.team.k = 0 ∧ tiled.team.launch.rfollow = false := by decide +kernel

theorem witness_tileCommit : tiled.warp.commit flagged = (tiled.warp, none) := commit_idle (by decide +kernel)

/-- A slot that `TLOAD` has restored keeps its extent. -/
def restored : State := tiled.onTeam fun t => t.setSlot 0#3 { t.slot 0#3 with restored := some (8, 8) }

theorem witness_tileGrants : (5#3).toNat ≤ 5 ∧ (tiled.team.slot 0#3).restored = none ∧ (restored.team.slot 0#3).restored = some (8, 8) := by decide +kernel

theorem witness_channelScales : ∃ oks, planOf tiled { tiled.ask .read 16 with trims := false }
    ((List.range (gridGrant.m + gridGrant.n)).map fun k => { k := k, va := ((tiled.warp.readS 1#6).toNat + 2 * k : Nat) }) = .run oks none :=
  whole_run (by decide +kernel)

/-- The B operand of `tiled` at s2. -/
def operandB : RecordedB :=
  { box := low + 512, scales := scaleBoxB gridGrant (low + 512) 0, k := gridGrant.k, n := gridGrant.n, bty := gridGrant.bty, blk := gridGrant.blk }

theorem witness_boxesB : (tiled.warp.readS 2#6).toNat = low + 512 ∧ BoxesReady tiled (tabletsB operandB) ∧ BoxesWhole tiled (tabletsB operandB) ∧
    affords tiled 1 ∧ slotBusy tiled 0#3 = false ∧ tiled.team.late = [] :=
  ⟨by decide +kernel, boxesReady_of (by decide +kernel), boxesWhole_of (by decide +kernel), affords_of (by decide +kernel), by decide +kernel, by decide +kernel⟩

/-- An operation is accepted on slot 0; an engine holds a line of its B operand; a value of the slot is uncorrectable; slot 0 holds no grant; its grant has K = 0. -/
def busyTile : State := tiled.onTeam fun t => { t with late := [{ warp := 0, seq := 0, slot := 0#3, grant := gridGrant, as := none, bs := [] }] }
def heldTile : State := { tiled with absent := [low / 128 + 4] }
def markedTile : State := tiled.onTeam fun t => t.setSlot 0#3 { t.slot 0#3 with bad := [3] }
def bareTile : State := tiled.onTeam fun t => t.setSlot 0#3 {}
def flatTile : State := tiled.onTeam fun t => t.setSlot 0#3 { t.slot 0#3 with grant := some { gridGrant with k := 0 } }

theorem witness_tileCases : slotBusy busyTile 0#3 = true ∧ (homeOf heldTile.team.site 0#3).cls = .m ∧
    (∃ b ∈ tabletsB operandB, ∃ l ∈ b.lines, lineAbsent heldTile l = true) ∧ (markedTile.team.slot 0#3).bad ≠ [] ∧ slotBusy markedTile 0#3 = false ∧
    (bareTile.team.slot 0#3).grant = none ∧ slotBusy bareTile 0#3 = false ∧ bareTile.team.tiles = true ∧
    (∀ g, (flatTile.team.slot 0#3).grant = some g → g.k = 0) := by
  refine ⟨by decide +kernel, by decide +kernel, by decide +kernel, by decide +kernel, ?_⟩
  refine ⟨by decide +kernel, by decide +kernel, by decide +kernel, by decide +kernel, fun g h => ?_⟩
  have h' : (flatTile.team.slot 0#3).grant = some { gridGrant with k := 0 } := by decide +kernel
  rw [h'] at h
  cases h
  rfl

theorem witness_multiplies : gridGrant.k ≠ 0 ∧ (tiled.team.slot 0#3).bad = [] ∧ BoxesReady tiled (tabletsA gridGrant (tiled.warp.readS 1#6).toNat 0) ∧
    BoxesReady tiled (tabletsA gridGrant (tiled.warp.readS 1#6).toNat (tiled.warp.readS 2#6).toNat) ∧ residentFor tiled (homeOf tiled.team.site 0#3) 0#3 = none ∧
    BoxesWhole tiled (tabletsA gridGrant (tiled.warp.readS 1#6).toNat (tiled.warp.readS 2#6).toNat) ∧ affords tiled 2 := by
  and_intros <;> first | decide +kernel | exact boxesReady_of (by decide +kernel) | exact boxesWhole_of (by decide +kernel) | exact affords_of (by decide +kernel)

/-- Terms of a chunk: each special case of R11's window sum, and a largest magnitude between 2^1 and 2^2. -/
theorem witness_windowSums : gridGrant.blk.toNat ≤ 5 ∧ ((2 : ℚ) ^ (1 : Int) ≤ |(Exact.fin true 3 0).rat|) ∧ |(Exact.fin true 3 0).rat| < (2 : ℚ) ^ ((1 : Int) + 1) ∧
    |(Exact.fin false 1 (-3)).rat| < (2 : ℚ) ^ ((1 : Int) + 1) ∧ (fmtOf .fp32).value 0#32 = .fin false 0 (-149) := by
  refine ⟨by decide +kernel, ?_, ?_, ?_, by decide +kernel⟩
  all_goals norm_num [Exact.rat]

/-- A strip over `tiled`. -/
def draining : State := tiled.onWarp fun w => { w with desc := 0#9, vl := 4, vpad := 1 }

theorem witness_drains : SlotReady draining 0#3 gridGrant ∧ VectorReady draining [(4#6, 32), (5#6, 16)] ∧ (draining.team.slot 0#3).bad = [] ∧
    slotBusy draining 0#3 = false ∧ (draining.team.slot 0#3).acc.length = gridGrant.m * gridGrant.n ∧ draining.warp.fpctl = 0#6 ∧
    affords draining draining.warp.vl ∧ (fmtOf .bf16).value 0x3F80#32 = .fin false 128 (-7) := by
  and_intros <;> first | decide +kernel | exact slotReady_of (by decide +kernel) | exact vectorReady_of (by decide +kernel) | exact affords_of (by decide +kernel)

theorem witness_rowStored :
    (∃ oks, planOf draining (draining.ask .write 32) ((asked draining.warp 0#3 fun k => ((low : Int) + (k * 32 / 8 : Nat), k * 32 % 8)).filter
      fun y => inExtent (draining.team.slot 0#3) 7 y.k) = .run oks none) ∧
    (∃ oks, planOf draining (draining.ask .write 32) ((asked draining.warp 0#3 fun k => ((low : Int) + k * (draining.warp.readS 3#6).toInt, 0)).filter
      fun y => inExtent (draining.team.slot 0#3) 7 y.k) = .run oks none) ∧
    ∀ k, k < 8 → enabledTrap draining.warp.fpctl (drainElem (draining.team.slot 0#3) .int32 .rne false 7 k).flags = false :=
  ⟨whole_run (by decide +kernel), whole_run (by decide +kernel), by decide +kernel⟩

/-- The scratchpad holds the image of slot 0. -/
def imaged : State := { tiled with mem := cellsWrite tiled.mem low (tiled.team.slot 0#3).imageBytes }

def pieces (m : Nat) : List Elt := (List.range (m / 8)).map fun k => { k := k, va := (low + 8 * k : Nat) }

theorem witness_imageSaved : imageFault (tiled.warp.readS 1#6) = none ∧ (tiled.warp.readS 1#6).toNat = low ∧
    ∃ oks, planOf tiled { tiled.ask .write 64 with trims := false } (pieces (tiled.team.slot 0#3).imageBytes.length) = .run oks none :=
  ⟨by decide +kernel, by decide +kernel, whole_run (by decide +kernel)⟩

/-- The elements of a plan that performs everything. -/
def planElts (p : Plan) : List (Elt × Loc) :=
  match p with
  | .run oks _ => oks
  | .misses _ _ | .wait _ _ => []

set_option maxRecDepth 100000 in
theorem witness_imageLoaded :
    let head := planElts (planOf imaged { imaged.ask .read 64 with trims := false } (pieces 64))
    let oks := planElts (planOf imaged { imaged.ask .read 64 with trims := false } (pieces (64 + 4 * 8 * 8)))
    planWhole (planOf imaged { imaged.ask .read 64 with trims := false } (pieces 64)) = true ∧
      planWhole (planOf imaged { imaged.ask .read 64 with trims := false } (pieces (64 + 4 * 8 * 8))) = true ∧
      (Image.ofHeader (pieceBytes imaged head)).m = 8 ∧ (Image.ofHeader (pieceBytes imaged head)).n = 8 ∧
      (Image.ofHeader (pieceBytes imaged head)).refusal imaged 0#3 = none ∧
      crc32 ((pieceBytes imaged oks).drop 64) = (Image.ofHeader (pieceBytes imaged head)).crc := by decide +kernel

theorem witness_imageCharge : affords tiled 1 ∧ slotBusy tiled 0#3 = false ∧ affords imaged 1 := ⟨affords_of (by decide +kernel), by decide +kernel, affords_of (by decide +kernel)⟩

theorem witness_imageHeader : (tiled.team.slot 0#3).grant = some gridGrant ∧ gridGrant.m < 65536 ∧ gridGrant.n < 65536 ∧ gridGrant.m ≠ 0 := by decide +kernel

/-! ## Witnesses: traps, system words, teams, lanes -/

/-- A handler whose trap came from a word at the clause at `hdr`, under a TRAPCAUSE. -/
def handler (cause hdr npc : Word) : State := base.onWarp fun w => { w with intrap := true, trapcause := cause, traphdr := hdr, trapnpc := npc, frozen := some lanes0 }

/-- A pending result under flag 0 with a recorded fault. -/
def deferred : Outstanding :=
  { seq := 0, pc := BitVec.ofNat 64 low, flag := some 0, done := true, fault := some ({ cause := .access, info := 0x30#64 }, 0) }

def faulty : State := base.onWarp fun w => { w with pending := [deferred], seq := 1 }

theorem witness_trapEntry : base.warp.intrap = false ∧ (handler 0#64 0#64 0#64).warp.intrap = true ∧ base.warp.lanes = none ∧
    base.warp.mustWait flagged = false ∧ faulty.warp.mustWait flagged = false ∧
    (faulty.warp.commit everyFlag).2 = some deferred ∧ deferred.fault = some ({ cause := .access, info := 0x30#64 }, 0) := by decide +kernel

theorem witness_commitsInOrder : (([{ deferred with seq := 0 }, { deferred with seq := 1 }] : List Outstanding).map (·.seq)).Pairwise (· < ·) := by decide +kernel

theorem witness_trapReturn : (handler 0#64 8#64 8#64).warp.lanes = none ∧ (handler 0#64 8#64 8#64).warp.intrap = true ∧
    (handler 0#64 8#64 8#64).warp.mustWait flagged = false ∧ (handler 0#64 8#64 8#64).warp.trapcause.getLsbD 8 = false ∧
    (handler 0#64 8#64 8#64).warp.trapnpc = (handler 0#64 8#64 8#64).warp.traphdr ∧ (handler 0#64 8#64 8#64).warp.trapcause.getLsbD 9 = false ∧
    (handler 0x200#64 8#64 8#64).warp.trapcause.getLsbD 8 = false ∧ (handler 0x200#64 8#64 8#64).warp.trapcause.getLsbD 9 = true ∧
    (handler 0x200#64 8#64 8#64).warp.frozen = some lanes0 := by decide +kernel

theorem witness_trapReturnCommit (cause hdr npc : Word) : (handler cause hdr npc).warp.commit flagged = ((handler cause hdr npc).warp, none) := commit_idle rfl

theorem witness_fetchPlaces : checkFresh base (fetchAsk base false) true { k := 0, va := (low : Nat) } = .ok { key := low } ∧
    checkFresh base (fetchAsk base false) true { k := 0, va := (low + 8 : Nat) } = .ok { key := low + 8 } ∧ base.icache = [] ∧
    errorAt base low 0 8 = false ∧ errorAt base (low + 8) 0 8 = false ∧ absentIn base low 8 = none ∧ absentIn base (low + 8) 8 = none ∧
    headerCheck low (BitVec.ofNat 64 (readLE base low 0 8)) = none ∧ low % 128 = va54 (low : Int) % 128 ∧ va54 (low : Int) % 8 = 0 := by decide +kernel

/-- `forked` of a launch with sixteen vector registers. -/
def narrow : State := forked.onTeam fun t => { t with launch := { t.launch with vregs := 16 } }

/-- v15 is there and v16 is not; a word outside Table 6, one with a register beyond the launch's, one under a flag; Q(0) with each of its fields right; the quantising words of a strip without blocks. -/
theorem witness_refusals : forked.warp.lanes = some lanes0 ∧ forked.warp.inLanes = true ∧ fieldChecks narrow (.movhi 15#6 15#6 0) = some [true, true] ∧
    lanePermits (.movhi 15#6 15#6 0) = false ∧ fieldChecks narrow (.movhi 16#6 15#6 0) = some [false, true] ∧
    fieldChecks narrow (.setvl 1#6 2#6 .fp32 0#3 0#2) = some [] ∧ lanePermits (.setvl 1#6 2#6 .fp32 0#3 0#2) = false ∧
    lanePermits (.add 1#6 2#6 3#6) = true ∧ lanePermits (.div .a .signed 1#6 2#6 3#6) = false ∧ (63#6).toNat < base.r ∧
    stripBlock (strip 8#9).warp = 0 ∧ groupField (strip 8#9) 8 1#6 = true ∧ groupField (strip 8#9) 32 2#6 = true ∧ groupSize (strip 8#9).warp 32 ≤ 8 ∧
    (stripEt (strip 8#9).warp).isInt = false ∧ (base.warp.stream 0#3).defined = false := by decide +kernel

theorem witness_privileges : base.warp.lanes = none ∧ base.warp.intrap = false ∧ 0x20 ≤ (0x4F#12 : BitVec 12).toNat ∧
    ((0x40 ≤ (0x4F#12 : BitVec 12).toNat ∧ (0x4F#12 : BitVec 12).toNat ≤ 0x4F) ∧ ¬ ((0x50#12 : BitVec 12).toNat ≤ 0x4F) ∧ ¬ ((0x2D#12 : BitVec 12).toNat ≤ 0x2C)) := by
  decide +kernel

theorem witness_systemRegisters : base.warp.lanes = none ∧ (handler 0#64 0#64 0#64).warp.lanes = none ∧ (handler 0#64 0#64 0#64).warp.intrap = true ∧ (15 : Nat) < 16 := by
  decide +kernel

/-- A dirty line of the mapped page, its memory sound. -/
def dirtyPage (priv : Bool) : State :=
  { mapped priv with dirty := [{ line := 0x1000, old := List.replicate 128 (0#8, 0#512), kid := 0, bale := false }] }

theorem witness_dirtyWords : (∀ x ∈ (dirtyPage false).dirty, x.line = 0x1000 / 128 * 128 → x.bad = [] ∧ x.bale = false) ∧ (dirtyPage false).bales = [] ∧
    lineAbsent (dirtyPage false) (0x1000 / 128) = false ∧ Memory.wf (dirtyPage false).mem = true ∧
    checkFresh (dirtyPage false) { (dirtyPage false).ask .read 8 with trims := false } true { k := 0, va := 0x1000 } = .ok { key := 0x1000 } ∧
    checkFresh (dirtyPage true) { (dirtyPage true).ask .write 8 with trims := false } true { k := 0, va := 0x1000 } = .ok { key := 0x1000 } ∧
    inWindow (va54 0x1000) = false := by decide +kernel

theorem witness_cacheWords : inWindow (va54 0x1000) = false ∧ (mapped false).bad = [] ∧ (mapped true).warp.intrap = true ∧
    checkFresh (mapped false) { (mapped false).ask .read 8 with trims := false } true { k := 0, va := 0x1000 } = .ok { key := 0x1000 } ∧
    checkFresh (mapped true) { (mapped true).ask .write 8 with trims := false } true { k := 0, va := 0x1000 } = .ok { key := 0x1000 } ∧
    (mapped true).warp.lanes = none ∧ (mapped true).warp.park = .none ∧ ((mapped true).warp.readS 2#6).toNat = 0 ∧ ((mapped true).warp.readS 1#6).toNat ≠ 0 := by decide +kernel

/-- An `XLINV` whose invalidation, number 0, is complete. -/
theorem witness_invalidated : ((handler 0#64 0#64 0#64).parkOn (.invalidation 0)).warp.park = .invalidation 0 ∧
    ∀ i ∈ ((handler 0#64 0#64 0#64).parkOn (.invalidation 0)).invalidations, i.num ≠ 0 := by decide +kernel

theorem witness_leases : coreCluster base.warp.core < 52 ∧ (1 : Nat) ≠ coreCluster base.warp.core := by decide +kernel

/-- A team of two warps that is asked to stop; and one that is asked to shrink, with tile state. -/
def stopping : State := tiled.onTeam fun t => { t with preempt := true, peers := [{ base.warp with idx := 1 }] }
def shrinking : State := tiled.onTeam fun t => { t with k := 1, peers := [{ base.warp with idx := 1 }], launch := { t.launch with elastic := true, maxw := 4, minw := 1 } }

theorem witness_preemptionPoints : stopping.warp.lanes = none ∧ stopping.warp.intrap = false ∧ stopping.warp.mustWait flagged = false ∧
    stopping.team.preempt = true ∧ stripLen (3#3).toNat ≤ stopping.w * 32 * 2 ^ (0#2).toNat / ET.int8.width ∧ (0#3).toNat < stopping.team.launch.tiles ∧
    stopping.team.tiles = true ∧ (stopping.warp.part (15#4).toNat).member = true ∧ shrinking.team.preempt = false ∧ shrinking.warp.status = .running ∧
    0 < shrinking.team.k ∧ shrinking.team.launch.minw < shrinking.team.peers.length + 1 ∧ shrinking.warp.pending = [] ∧ coreCluster shrinking.warp.core < 52 := by decide +kernel

theorem witness_preemptionCommit : stopping.warp.commit flagged = (stopping.warp, none) ∧ shrinking.warp.commit flagged = (shrinking.warp, none) :=
  ⟨commit_idle (by decide +kernel), commit_idle (by decide +kernel)⟩

theorem witness_teamReads : base.warp.lanes = none ∧ base.team.launch.rfollow = false ∧ base.team.launch.rrecord = false := by decide +kernel

/-- The warp's part in barrier 3, and the barrier. -/
def barred (m : Membership) (x : Barrier) : State :=
  { base with warp := { base.warp with bars := base.warp.bars.set 3 m }, team := { base.team with bars := base.team.bars.set 3 x } }

/-- A phase arrived in and one beyond: arrivals one and two phases ahead, a wait whose phase has completed, one that has returned, one still to complete; and no membership. -/
theorem witness_barrierWords :
    let here : Membership := { last := some 0, arrived := some 0, awaited := true }
    let next := barred here { e := 1 }
    let past := barred here { p := 1, e := 1 }
    let idle := barred { here with awaited := false } { e := 1 }
    next.warp.lanes = none ∧ (next.warp.part 3).member = true ∧ 0 + 1 < (next.team.bar 3).p + 2 ∧
      ((barred { here with last := some 1 } { e := 1 }).team.bar 3).p + 2 ≤ 1 + 1 ∧
      (past.warp.part 3).arrived = some 0 ∧ 0 < (past.team.bar 3).p ∧ (idle.warp.part 3).awaited = false ∧ idle.team.preempt = false ∧
      (next.warp.part 3).awaited = true ∧ (next.team.bar 3).p ≤ 0 ∧ next.team.preempt = false ∧
      (past.parkOn (.barrier 3 0 false)).warp.park = .barrier 3 0 false ∧ ((barred { member := false } {}).warp.part 3).member = false := by decide +kernel

/-- An arrival of the warp in barrier 3 at a phase. -/
def arriving (phase : Nat) (x : Barrier) : State :=
  { barred {} x with team := { (barred {} x).team with miles := [{ warp := 0, bar := 3, phase := phase }] } }

theorem witness_phases : (arriving 0 { e := 2 }).team.status = .running ∧ (arriving 0 { e := 2 }).warp.status = .running ∧
    (arriving 0 { e := 2 }).me = { team := (arriving 0 { e := 2 }).team.tid, warp := 0 } ∧
    (arriving 0 { e := 2 }).team.miles.find? (fun x => x.warp == 0) = some { warp := 0, bar := 3, phase := 0 } ∧ (3 : Nat) < 16 ∧
    ((arriving 0 { e := 2 }).team.bar 3).a + 1 < ((arriving 0 { e := 2 }).team.bar 3).e ∧
    ((arriving 0 { e := 1 }).team.bar 3).a + 1 = ((arriving 0 { e := 1 }).team.bar 3).e ∧ 0 < members (arriving 0 { e := 1 }) 3 ∧
    ((arriving 0 { e := 1 }).team.bar 3).a1 < members (arriving 0 { e := 1 }) 3 + ((arriving 0 { e := 1 }).team.bar 3).d ∧
    ((arriving 1 { e := 1 }).team.bar 3).a < ((arriving 1 { e := 1 }).team.bar 3).e := by decide +kernel

/-- m1 holds lane 15 alone, m2 none of the lanes. -/
def masked : State := base.onWarp fun w => (w.setM 1#3 0x8000#1024).setM 2#3 0x10000#1024

theorem witness_fork : masked.warp.lanes = none ∧ masked.warp.mustWait flagged = false ∧ 15 < masked.w ∧ (masked.warp.readM 1#3).getLsbD 15 = true ∧
    (∀ l, l < masked.w → (masked.warp.readM 2#3).getLsbD l = false) ∧ masked.w ≠ 64 ∧ (63#6).toNat < masked.r := by decide +kernel

/-- Lane 3 at another word than the rest; and every lane but 3 joined at the word of lane 3. -/
def split : LaneMode := { lanes := lanes0.lanes.set 3 { pos := { hdr := 0 }, joined := false } }

def joining : LaneMode :=
  { lanes := (List.range 16).map fun i => { pos := base.warp.pos, joined := i != 3, joinAt := if i = 15 then none else some base.warp.pos.pc } }

theorem witness_join : split.lanes.length = base.w ∧ split.leader = some 0 ∧ 3 < base.w ∧ 3 ∉ split.group ∧ (split.lane 3).joined = false ∧
    (split.lane 3).blocked = none ∧ joining.lanes.length = base.w ∧ joining.leader = some 3 ∧
    (∀ l, l < base.w → l ∉ joining.group → (joining.lane l).joined = true ∧ (joining.lane l).blocked = none ∧
      ((joining.lane l).joinAt = none ∨ (joining.lane l).joinAt = some (joining.lane 3).pos.pc)) := by decide +kernel

/-- v1 of each lane names lanes 0 and 1. -/
def meeting : State := withV forked ((List.range 16).map fun l => (16 + l, 3#32))

/-- Lane 15 waits, blocked, for the next count of lane 0. -/
def lanesBlocked : LaneMode := { lanes := lanes0.lanes.set 15 { pos := base.warp.pos, joined := false, blocked := some (0, 1#64) } }

theorem witness_wsync : meeting.warp.lanes = some lanes0 ∧ lanes0.leader = some 0 ∧ meeting.w ≠ 64 ∧ (1#6).toNat < meeting.r ∧
    (∀ l ∈ lanes0.group, (lanes0.lane l).counts.length = 16) ∧ 0 ∈ lanes0.group ∧ (∀ j, j < meeting.w → (laneSet meeting 1#6 0).getLsbD j = true →
      (lanes0.lane 0).counts.getD 0 0 + 1 ≤ (lanes0.lane j).counts.getD 0 0 + if j ∈ lanes0.group then 1 else 0) ∧
    lanesBlocked.leader = some 0 ∧ 15 ∉ lanesBlocked.group ∧ (lanesBlocked.lane 15).joined = false ∧ (lanesBlocked.lane 15).blocked = some (0, 1#64) ∧
    (lanesBlocked.lane 15).counts.getD 0 0 ≤ (lanesBlocked.lane 0).counts.getD 0 0 + 1 := by decide +kernel

/-- A launch queue of partition 0 in DRAM, its descriptor with FLAGS, TAIL and HEAD, its ring behind it; s1 names a record in the scratchpad, s2 the queue. -/
def queued (flags tail head : Nat) (record : List Byte) : State :=
  let m := mapped false
  { (withS m [(1#6, BitVec.ofNat 64 (low + 512)), (2#6, 0#64)]) with
    parts := m.parts.set 0 { m.parts[0] with qbase := 0x10000#64, queues := m.parts[0].queues.set 0 { enabled := true, serving := true, tail := BitVec.ofNat 32 tail } }
    mem := cellsWrite (cellsWrite m.mem 0x10000 (leBytes 8 0x20000 ++ leBytes 8 flags ++ leBytes 4 tail ++ leBytes 4 0 ++ leBytes 4 head)) 0x20000 record }

/-- The queue while it is out of service. -/
def idleQueue (s : State) : State := { s with parts := s.parts.set 0 { s.parts[0] with queues := s.parts[0].queues.set 0 {} } }

/-- ENABLE, DEVFED and LOGSIZE = 1. -/
def openQueue : Nat := 0x31

theorem witness_launch : (queued openQueue 0 0 []).warp.lanes = none ∧ ((withS base [(1#6, 1#64)]).warp.readS 1#6).toNat % 128 ≠ 0 ∧
    ((queued openQueue 0 0 []).warp.readS 1#6).toNat % 128 = 0 ∧ (8 : Nat) ≤ 8 ∧
    planOf (queued openQueue 0 0 []) { (queued openQueue 0 0 []).ask .read 1024 with trims := false } [{ k := 0, va := (low + 512 : Nat) }] =
      .run [({ k := 0, va := (low + 512 : Nat) }, { key := low + 512 })] none := by decide +kernel

/-- Queues that answer each of the replies: disabled, in no size, not fed by the device, full, open; and the writes of an accepted record. -/
theorem witness_replies : (readQueue (queued 0x11 0 0 []) 0#4 0#3).map (fun q => q.enable) = some false ∧
    (readQueue (queued 0x30 0 0 []) 0#4 0#3).map (fun q => (q.enable, q.sized)) = some (true, false) ∧
    (readQueue (queued 0x21 0 0 []) 0#4 0#3).map (fun q => (q.enable, q.err, q.sized, q.devfed)) = some (true, 0#32, true, false) ∧
    (readQueue (queued openQueue 2 0 []) 0#4 0#3).map (fun q => (q.enable, q.err, q.sized, q.devfed, (q.tail - q.head).toNat)) = some (true, 0#32, true, true, 2 ^ 1) ∧
    (readQueue (queued openQueue 1 0 []) 0#4 0#3).map (fun q => (q.enable, q.err, q.sized, q.devfed, (q.tail - q.head).toNat)) = some (true, 0#32, true, true, 1) ∧
    (partWrite (queued openQueue 1 0 []) 0#4 (0x20000 + 128) (readBytes (queued openQueue 1 0 []) (low + 512) 0 128)).isSome = true ∧
    (partWrite (queued openQueue 1 0 []) 0#4 (0x10000 + 16) (leBytes 4 2)).isSome = true := by decide +kernel

theorem witness_warpsEnd : base.warp.lanes = none ∧ base.warp.status = .running ∧ (handler 0#64 0#64 0#64).warp.status = .running ∧ base.team.preempt = false := by decide +kernel

/-- A clause of one word whose header ends a line and whose word begins the next; a clause about to start, by a warp changed by `f`. -/
def starting (f : Warp → Warp) : State :=
  { base with
    mem := cellsWrite base.mem (low + 120) (leBytes 8 fetchHeaderWord.toNat ++ leBytes 8 0x1F00000000000000)
    warp := f { base.warp with pos := { hdr := (low + 120 : Nat) } } }

def begun : State := starting id

/-- A handler that returns to that clause's word. -/
def returning : State := starting fun w => { w with intrap := true, traphdr := BitVec.ofNat 64 (low + 120), trapnpc := BitVec.ofNat 64 (low + 128) }

theorem begun_fetch : ∃ h w u, fetchClause begun false (low + 120 : Nat) = .got (h, [w]) u ∧ u.warp = begun.warp ∧ h = fetchHeaderWord := by
  refine ⟨_, _, _, fetchClause_one (by decide +kernel) (by decide +kernel)
    (fetchWord_fresh (l := { key := low + 120 }) (by decide +kernel) (by decide +kernel) (by decide +kernel) (by decide +kernel)) (by decide +kernel) (by decide +kernel)
    (fetchWord_fresh (l := { key := low + 128 }) (by decide +kernel) (by decide +kernel) (by decide +kernel) (by decide +kernel)), rfl, by decide +kernel⟩

theorem returning_fetch : ∃ h w u, fetchClause returning false (low + 120 : Nat) = .got (h, [w]) u ∧ u.warp = returning.warp ∧ h = fetchHeaderWord := by
  refine ⟨_, _, _, fetchClause_one (by decide +kernel) (by decide +kernel)
    (fetchWord_fresh (l := { key := low + 120 }) (by decide +kernel) (by decide +kernel) (by decide +kernel) (by decide +kernel)) (by decide +kernel) (by decide +kernel)
    (fetchWord_fresh (l := { key := low + 128 }) (by decide +kernel) (by decide +kernel) (by decide +kernel) (by decide +kernel)), rfl, by decide +kernel⟩

theorem witness_returnToWord : returning.warp.lanes = none ∧ returning.warp.intrap = true ∧ returning.warp.commit flagged = (returning.warp, none) ∧
    returning.warp.trapcause.getLsbD 8 = false ∧ returning.warp.trapcause.getLsbD 9 = false ∧
    (returning.warp.trapnpc.toNat : Int) = (returning.warp.traphdr.toNat : Int) + 8 * (1 : Nat) ∧ (∃ h ws u,
      fetchClause { returning with warp := returning.warp } false returning.warp.traphdr.toNat = .got (h, ws) u ∧ 1 ≤ ws.length) := by
  refine ⟨by decide +kernel, by decide +kernel, commit_idle (by decide +kernel), by decide +kernel, by decide +kernel, by decide +kernel, ?_⟩
  obtain ⟨h, w, u, hf, -, -⟩ := returning_fetch
  have ht : returning.warp.traphdr.toNat = low + 120 := by decide +kernel
  rw [ht]
  exact ⟨h, [w], u, hf, Nat.le_refl 1⟩

/-! ## Witnesses: events -/

/-- Nothing pending: neither the wait nor the commit of any results finds one. -/
theorem idle_commit {w : Warp} (h : w.pending = []) (p : Outstanding → Bool) : w.mustWait p = false ∧ w.commit p = (w, none) := by
  cases w
  simp only at h
  subst h
  exact ⟨rfl, rfl⟩

theorem witness_clauseStart : begun.team.status = .running ∧ begun.warp.status = .running ∧ begun.warp.lanes = none ∧ begun.warp.pos.idx = 0 ∧
    begun.warp.mustWait synchronous = false ∧ begun.warp.commit synchronous = (begun.warp, none) ∧
    ∃ h ws u, fetchClause { begun with warp := begun.warp } begun.warp.intrap begun.warp.pos.hdr = .got (h, ws) u ∧
      u.warp.mustWait (headerCovers (Header.ofBits h)) = false ∧ u.warp.commit (headerCovers (Header.ofBits h)) = (u.warp, none) := by
  refine ⟨by decide +kernel, by decide +kernel, by decide +kernel, by decide +kernel, (idle_commit (by decide +kernel) _).1, (idle_commit (by decide +kernel) _).2, ?_⟩
  obtain ⟨h, w, u, hf, hw, -⟩ := begun_fetch
  have hi : begun.warp.intrap = false := by decide +kernel
  have hp : begun.warp.pos.hdr = (low + 120 : Nat) := by decide +kernel
  rw [hi, hp]
  have hn : u.warp.pending = [] := by rw [hw]; decide +kernel
  exact ⟨h, [w], u, hf, (idle_commit hn _).1, (idle_commit hn _).2⟩

/-- A warp that has waited 32 cycles; and one that issues already, on a core whose class group has seen no ready warp of its class or is in its 16th cycle. -/
def waited : State := base.onWarp fun w => { w with wait := 32 }
def grouped (cls age : Nat) : State := onCore (base.onWarp fun w => { w with taken := 1 }) { cls := .m, num := 0 } fun c => { c with group := some (cls, age), used := [(none, 1)] }

theorem witness_coreEvents : ready waited = true ∧ 32 ≤ waited.warp.wait ∧ corePlace { cls := .e, num := 103 } < 312 ∧
    (coreOf (grouped 1 15) { cls := .m, num := 0 }).group = some (1, 15) ∧ (coreOf (grouped 5 3) { cls := .m, num := 0 }).seen = false ∧
    everyWarp (grouped 1 15) = [(grouped 1 15).me] ∧ movable (focusOn (grouped 1 15) (grouped 1 15).me) = false ∧
    (warpOf (grouped 5 3) (grouped 5 3).me).cls ≠ 5 ∧ clockRuns base 51 = true ∧ clockRuns State.reset 51 = false ∧ firstOp base 0 = none := by decide +kernel

/-- An operation whose one line is present, or held by an engine. -/
def lateOp : LateOp := { warp := 0, seq := 0, slot := 0#3, grant := gridGrant, as := none, bs := [{ base := low, rows := 1, cols := 16, e := 8, pitch := 16 }] }
def running (absent : List Nat) : State := { tiled.onTeam fun t => { t with late := [lateOp] } with absent := absent }

theorem witness_lateOps : firstOp (running []) 0 = some lateOp ∧ lateOp.unread (running []) = [low / 128] ∧ lineAbsent (running []) (low / 128) = false ∧
    firstOp (running [low / 128]) 0 = some lateOp ∧ (lateOp.unread (running [low / 128])).all (lineAbsent (running [low / 128])) = true ∧
    lateOp.unread (running [low / 128]) ≠ [] := by decide +kernel

theorem witness_queueEvents : (readQueue (queued openQueue 2 0 []) 0#4 0#3).map (fun d => (d.fault, d.enable, d.err)) = some (none, true, 0#32) ∧
    (serviceOf (queued openQueue 2 0 []) 0#4 0#3).serving = true ∧ (serviceOf (queued openQueue 2 0 []) 0#4 1#3).serving = false ∧
    (readQueue (queued 0x11 0 0 []) 0#4 0#3).map (fun d => d.enable) = some false ∧
    (readQueue (idleQueue (queued openQueue 2 0 [])) 0#4 0#3).map
      (fun d => (d.fault, d.enable, d.err)) = some (none, true, 0#32) ∧
    (serviceOf (idleQueue (queued openQueue 2 0 [])) 0#4 0#3).serving = false := by
  decide +kernel

/-- The record of a grid of one team of one warp on the M-cores: W = 16, R = 16, entry at the window's start. -/
def record : List Byte :=
  leBytes 8 low ++ leBytes 8 low ++ leBytes 4 1 ++ leBytes 4 1 ++ leBytes 4 1 ++ leBytes 4 7 ++ leBytes 4 1024 ++ leBytes 4 0 ++
    leBytes 4 0x100 ++ leBytes 4 0x10101 ++ List.replicate 80 0#8

theorem witness_recordTake : let s := queued openQueue 1 0 record
    computeOn s = true ∧ s.mgmt.phase ≠ .warming ∧ (∀ x ∈ allQueues, queueHead s x.1 x.2 ≠ .broken) ∧
    (pickHead s (readyHeads s)).any (fun h => recordStatus s.draw h.bytes (gridOf s.draw h) == 0 && !(launchOf h.bytes).coop && (takeHead s.draw h).isSome) = true := by
  decide +kernel

/-- That grid, its team not yet placed. -/
def oneGrid : Grid := { gid := 9, part := 0#4, queue := 0#3, launch := launchOf record }

def gridded : State := { base with grids := [oneGrid] }

theorem witness_teamPlacement : (gridded.grids.find? fun y => y.gid == oneGrid.gid) = some oneGrid ∧ mayPlace gridded oneGrid = true ∧
    siteFor { unfocus gridded with team := teamOf gridded oneGrid } oneGrid.launch.initw [] = some ({ cls := .m, num := 0 }, 1024) ∧
    oneGrid.launch.rrecord = false ∧ oneGrid.launch.rfollow = false := by decide +kernel

/-- An elastic team of one warp that may grow to four. -/
def elastic : State := base.onTeam fun t => { t with launch := { t.launch with elastic := true, maxw := 4 } }

theorem witness_attach : elastic.team.status = .running ∧ mayAttach elastic = true ∧ elastic.team.launch.rrecord = false := by decide +kernel

/-- A team whose warps have all left. -/
def emptied : State := { base with warp := {} }

theorem witness_teamComplete : ∃ x, (unfocus emptied).teams.find? (fun y => y.tid == emptied.team.tid) = some x ∧ x.tid = emptied.team.tid ∧ x.peers = [] ∧
    x.miles = [] ∧ ∀ c ∈ emptied.copies, c.ref.team ≠ x.tid := ⟨emptied.team, rfl, rfl, rfl, rfl, by decide +kernel⟩

theorem witness_saveEvents : base.team.status = .running ∧ base.team.launch.coop = false ∧ elastic.team.status = .running ∧ elastic.team.launch.elastic = true ∧
    elastic.team.launch.minw < elastic.team.launch.maxw ∧ elastic.team.preempt = false ∧ base.warp.status = .running ∧
    (base.onTeam fun t => { t with preempt := true }).team.preempt = true ∧ (base.onTeam fun t => { t with preempt := true }).team.status = .running := by decide +kernel

/-- A team at rest whose save block fits the save area of its partition; and the same team saved, its scratchpad bytes still unplaced. -/
def resting (st : TeamStatus) : State :=
  { emptied with
    team := { emptied.team with launch := launchOf record, status := st, preempt := true, peers := [{ base.warp with status := .saved false }] }
    parts := base.parts.set 0 { base.parts[0] with savebase := 0x10000#64, savesize := 0x100000#64 } }

theorem witness_teamSave : (focusTeam (resting .running) 0).team.tid = 0 ∧ maySave (focusTeam (resting .running) 0) = true ∧
    saveAt (focusTeam (resting .running) 0) (focusTeam (resting .running) 0).team.part (focusTeam (resting .running) 0).team.launch.saveBytes = some 0x10000 := by decide +kernel

theorem witness_saveRoom : regionOf (focusTeam (resting .running) 0) 0x10000 = .dram ∧
    regionOf (focusTeam (resting .running) 0) (0x10000 + (launchOf record).saveBytes - 1) = .dram := by decide +kernel

theorem witness_teamResume : resumedWith (resting .saved) 0 = [0] ∧ (focusTeam (resting .saved) 0).team.tid = 0 ∧ mayResume (focusTeam (resting .saved) 0) = true ∧
    siteFor (focusTeam (resting .saved) 0) (focusTeam (resting .saved) 0).team.peers.length (savedExtents (focusTeam (resting .saved) 0).team) =
      some ({ cls := .m, num := 0 }, 0) := by decide +kernel

/-- A copy in flight on channel 2. -/
def flight : Copy :=
  { newCopy boxed .boxIn with
    ref := { team := 0, ch := 2#4, id := 0 }
    boxes := [{ shape := shapeOf boxed 1#6, dense := low + 512, pitch := 64, ext := boxFields boxed 1#6 }] }

def flying (c : Copy) : State := { boxed with copies := [c] }

/-- A copy's complete manifest. -/
def answered : Manifest := { who := .copy flight.ref, written := true }

theorem witness_copyResume : (partOf { flying flight with parts := base.parts.set 0 { base.parts[0] with manifests := [answered] } } flight.part).manifests.find?
    (fun m => m.complete && m.who == .copy flight.ref) = some answered := by decide +kernel

def landed : Copy := { flight with finished := true }

theorem witness_copyComplete : findCopy (flying landed) landed.ref = some landed ∧ landed.finished = true ∧ landed.held = [] ∧ landed.trains = [] ∧
    (flying landed).team.status = .running ∧ (flying landed).team.tid = landed.ref.team ∧ (flying landed).warp.status = .running := by decide +kernel

def arrived : Copy := { flight with held := [7], arrived := [7] }

theorem witness_lineArrival : (flying arrived).copies.find? (fun c => c.arrived.contains 7 && c.held.contains 7) = some arrived ∧
    ∀ o ∈ (flying arrived).copies, o.ref ≠ arrived.ref → 7 ∉ o.held := by decide +kernel

/-- A warp that waits for the turn that the cell has. -/
def patient : State := turning.parkOn (.cell (low + 960) 0 5)

theorem witness_redordUnpark : everyWarp patient = [patient.me] ∧ patient.team.status = .running ∧ patient.warp.status = .running ∧
    patient.warp.park = .cell (low + 960) 0 5 ∧ awake patient = true := by decide +kernel

/-- Partition 0 with one page request outstanding and one manifest of the warp complete. -/
def serving : State := { base with parts := base.parts.set 0 { base.parts[0] with
  requests := [(4#32, 0x10000)], manifests := [{ who := .warp base.me, mid := 3#32, written := true }] } }

theorem witness_serviceEvents : serving.mgmt.band ≠ 3 ∧ (∀ r ∈ (partOf serving 0#4).requests, r.1 ≠ 5#32) ∧ (∃ r ∈ (partOf serving 0#4).requests, r.1 = 4#32) ∧
    (partOf serving 0#4).manifests.find? (fun m => m.complete && m.mid == 3#32) = some { who := .warp serving.me, mid := 3#32, written := true } ∧
    serving.team.status = .running ∧ serving.warp.status = .running ∧ serving.grids = [] ∧ (∀ m ∈ (partOf serving 0#4).manifests, m.written = true) ∧
    (partOf serving 0#4).wbWait = [] ∧ (partOf serving 0#4).errWait = [] := by decide +kernel

def invalidating : State := { base with invalidations := [{ num := 2, part := 0#4, range := .all, holders := [] }] }

theorem witness_invalidation : invalidating.invalidations.find? (fun i => i.num == 2) = some { num := 2, part := 0#4, range := .all, holders := [] } ∧
    (invalidating.invalidations.all fun i => i.free invalidating) = true := by decide +kernel

theorem witness_baleData : (List.replicate 2048 0#8 : List Byte).length = 2048 := List.length_replicate

/-- Partition 1 is the VF's; port 2 has key slot 5. -/
def linked : State := { base with mgmt := { base.mgmt with peerkey := base.mgmt.peerkey.set 2 5#9 } }

/-- The package at rest in a management state, in a band, at a temperature. -/
def cooled (p : Phase) (b t : Nat) : State := { State.reset with mgmt := { State.reset.mgmt with phase := p, band := b, sensors := BitVec.ofNat 8 t :: List.replicate 223 0#8 } }

/-- Band 0's upper bound passed by one kelvin; band 1 left 3 K below it; the edges of the band's own states. -/
theorem witness_powerEvents : (cooled .off 4 255).mgmt.band ≤ 4 ∧ (cooled .soak 0 77).mgmt.band = 0 ∧ (cooled .ready 1 90).mgmt.band ≤ 1 ∧
    placedTeams (cooled .excursion 2 120) = [] ∧ allKilled (cooled .warming 4 255) = true ∧ (cooled .retreat 3 200).mgmt.phase ∈ [Phase.bench, .cooling, .ready, .run, .retreat] ∧
    (cooled .run 0 86).mgmt.band < 4 ∧ bandUpper (cooled .run 0 86).mgmt.band < tmax (cooled .run 0 86) ∧ bandUpper (cooled .soak 0 86).mgmt.band < tmax (cooled .soak 0 86) ∧
    bandUpper (cooled .retreat 3 251).mgmt.band < tmax (cooled .retreat 3 251) ∧
    0 < (cooled .retreat 2 97).mgmt.band ∧ tmax (cooled .retreat 2 97) + 3 ≤ bandUpper ((cooled .retreat 2 97).mgmt.band - 1) ∧
    tmax (cooled .cooling 1 82) + 3 ≤ bandUpper ((cooled .cooling 1 82).mgmt.band - 1) ∧ (cooled .train 0 77).mgmt.phase = .train := by decide +kernel

theorem witness_managementEvents : (List.replicate 224 0#8 : List (BitVec 8)).length = 224 ∧ corePlace { cls := .m, num := 207 } < 312 ∧ 65536 % 1024 = 0 ∧ (1024 : Nat) ≤ 65536 ∧
    (51 : Nat) < 52 ∧ (clusterOf State.reset 51).pool + (2 ^ 32 - 1) < 2 ^ 32 ∧ (cooled .run 1 90).mgmt.band ≠ 0 ∧ State.reset.mgmt.log = [] ∧
    ConfigRecord.full.magic = 0x5A574346#32 ∧ ConfigRecord.full.cores.length = 52 ∧ ConfigRecord.full.columns.length = 208 ∧
    State.reset.mgmt.stored.seq < ({ ConfigRecord.full with seq := 1 } : ConfigRecord).seq ∧ ConfigRecord.full.seq ≤ State.reset.mgmt.stored.seq := by decide +kernel

theorem witness_saveWrite (s : State) (bs : List Byte) (h : regionOf s 0x10000 = .dram) (hn : regionOf s (0x10000 + bs.length - 1) = .dram)
    (he : memoryError s { key := 0x10000 } bs.length = false) : (physWrite s 0x10000 bs).isSome = true := by
  have hw : decide (Config.windowBase ≤ 0x10000) = false := by decide
  unfold physWrite
  rw [h, hn, hw, he]
  simp

/-- A block that cannot be written: its first bale's map entry is uncorrectable. -/
theorem witness_saveFails (s : State) (bs : List Byte) (he : memoryError s { key := 0x10000 } bs.length = true) : physWrite s 0x10000 bs = none := by
  unfold physWrite
  rw [he]
  simp

theorem witness_saveBlocks : (linesOf 0x10000 (focusTeam (resting .running) 0).team.launch.saveBytes).all (fun l => !lineAbsent (focusTeam (resting .running) 0) l) = true ∧
    memoryError (focusTeam (resting .running) 0) { key := 0x10000 } 320 = false ∧
    memoryError { focusTeam (resting .running) 0 with badMap := [32] } { key := 0x10000 } 320 = true ∧
    (linesOf 0x10000 320).any (lineAbsent { focusTeam (resting .running) 0 with absent := [0x10000 / 128] }) = true ∧
    saveAt { focusTeam (resting .running) 0 with parts := base.parts } 0#4 (launchOf record).saveBytes = none ∧
    scratchBad (focusTeam (resting .running) 0) = [] ∧ scratchBad { focusTeam (resting .running) 0 with bad := [low / 8] } ≠ [] := by decide +kernel

/-- The team saved, the image of its slot 0, all of whose values are 0, in DRAM that reads as 0. -/
def shelved : State :=
  { tiled.onTeam fun t => t.setSlot 0#3 { tiled.team.slot 0#3 with acc := [], chunks := 0#64 } with
    mem := cellsWrite tiled.mem 0x20000 ((tiled.team.slot 0#3).imageBytes.take 32) }

theorem witness_shelved : (tiled.team.slot 0#3).grant = some gridGrant ∧ (tiled.team.slot 0#3).acc.length = 8 * 8 ∧
    shelved.team.slot 0#3 = { tiled.team.slot 0#3 with acc := [], chunks := 0#64 } ∧
    Image.refusal shelved 0#3 (Image.ofHeader ((tiled.team.slot 0#3).imageBytes.take 64)) = none := by decide +kernel

set_option maxRecDepth 100000 in
theorem witness_shelvedHeader : physRead shelved 0x20000 64 = some ((tiled.team.slot 0#3).imageBytes.take 64) := by decide +kernel

set_option maxRecDepth 100000 in
theorem witness_shelvedValues : physRead shelved (0x20000 + 64) (4 * 8 * 8) = some ((tiled.team.slot 0#3).imageBytes.drop 64) := by decide +kernel

/-- Pre-emption asked for, 2^24 cycles ago. -/
def overdue : State := onCore (base.onTeam fun t => { t with preempt := true }) base.warp.core fun c => { c with cycles := 0x1000000#64 }

theorem witness_forced : overdue.team.preempt = true ∧ overdue.warp.stopAt = 0#64 ∧ coreCluster overdue.warp.core < 52 := by decide +kernel

theorem witness_forcedCycles : (coreOf overdue overdue.warp.core).cycles = 0x1000000#64 := by decide +kernel

theorem witness_forcedDue : 2 ^ 24 ≤ (0x1000000#64 - 0#64 : Word).toNat := by norm_num

/-- What the checks of the whole of a copy's segment give. -/
def probed (s : State) (c : Copy) : SegmentProbe := probeElts s c (copyElts c 0 16) {}

theorem witness_copySegment : findCopy (flying flight) flight.ref = some flight ∧ flight.finished = false ∧ flight.parked = false ∧ copyPlaced (flying flight) flight = true ∧
    flight.kind = .boxIn ∧ segmentEnd (fun k => pagesOf (eltAddrs flight k)) (flight.total - flight.vstart) flight.vstart [] = 16 ∧
    (probed (flying flight) flight).misses = [] ∧ (probed (flying flight) flight).fault = none ∧ flight.failing = none ∧ flight.buffer = [] ∧
    flight.performed = [] ∧ flight.cleared ≤ flight.vstart ∧ (probed (flying flight) flight).ready.length = 16 ∧
    (probed (flying flight) flight).ready.all (fun r =>
      (targetError (flying flight) flight (readyCovers (probed (flying flight) flight).ready) r).isNone &&
      r.src.all (fun z => !(readLine (flying flight) z.2).fails z.2 (eltBytes r.et.width)) &&
      (r.src.toList ++ r.dst).all fun y => !lineBlocked (flying flight) flight (y.2.key / 128)) = true := by decide +kernel

/-- The same copy to a page that misses, and to an address that is not canonical. -/
def aiming (a : Nat) : Copy := { flight with kind := .boxOut, boxes := [{ shape := shapeOf boxed 1#6, dense := a, pitch := 64, ext := boxFields boxed 1#6 }] }

def aimingAt (a : Nat) : State := { missing true with copies := [aiming a] }

theorem witness_copyStops : (probed (aimingAt (2 ^ 30)) (aiming (2 ^ 30))).misses ≠ [] ∧
    ((probed (aimingAt (2 ^ 60)) (aiming (2 ^ 60))).fault.map (·.1), (probed (aimingAt (2 ^ 60)) (aiming (2 ^ 60))).ready) = (some 0, []) ∧
    (probed (aimingAt (2 ^ 60)) (aiming (2 ^ 60))).misses = [] := by decide +kernel

/-- A train of one entry, listed at the window's start, sorted or not yet. -/
def training (items : List TrainItem) (cleared : Nat) : Copy := { flight with kind := .train .add .int32, list := low, count := 1, trains := items, cleared := cleared }

def trainItem : TrainItem := { k := 0, dest := 0, loc := { key := low + 512 }, va := BitVec.ofNat 64 (low + 512), value := 5#64 }

def trainAt (c : Copy) : State := { flying c with mem := cellsWrite boxed.mem low (leBytes 8 (low + 512) ++ leBytes 8 5) }

def sortedTrain : Sorting := sortEntries (trainAt (training [] 0)) .add .int32 1 { copy := training [] 0, next := 0 }

theorem witness_trainSegment : copyPlaced (trainAt (training [] 0)) (training [] 0) = true ∧ (training [] 0).total - (training [] 0).vstart = 1 ∧
    (sortedTrain.blocked, sortedTrain.misses, sortedTrain.items, sortedTrain.next, sortedTrain.failing) = (false, [], [trainItem], 1, none) ∧
    (training [] 1).vstart < (training [] 1).cleared ∧ (training [] 0).trains = [] ∧ (training [] 0).failing = none := by decide +kernel

/-- An entry for the host, while the link to it is down. -/
def hostItem : TrainItem := { trainItem with dest := 2, loc := { key := 0x8000000000000 } }

theorem witness_trainDelivery : findCopy (flying (training [trainItem] 1)) flight.ref = some (training [trainItem] 1) ∧
    (training [trainItem] 1).trains.find? (fun y => deliverable (flying (training [trainItem] 1)) (training [trainItem] 1) y.dest) = some trainItem ∧
    linkDown (flying (training [trainItem] 1)) trainItem.loc.key = false ∧
    regionOf base hostItem.loc.key = .host ∧ linkDown { base with mgmt := { base.mgmt with linkUp := false } } hostItem.loc.key = true ∧
    (training [hostItem] 1).trains.find? (fun y => deliverable (flying (training [hostItem] 1)) (training [hostItem] 1) y.dest) = some hostItem := by decide +kernel

/-- An error in a dirty line of bale 1. -/
def scarredLine : DirtyLine := { line := 2048 + 1920, old := List.replicate 128 (0#8, 0#512), kid := 0, bale := false, bad := [511] }

def scarred : State := { base with dirty := [scarredLine] }

theorem witness_baleEvents : Memory.wf base.mem = true ∧ base.bad = [] ∧ base.badMap = [] ∧ baleThere base 0 = true ∧
    baleThere base (8 * Config.stackBytes / 2048 - 1) = true ∧ mapBad base 0 = false ∧ storedError base 0 511 = false ∧ base.dirty = [] ∧
    (2047 : Nat) + 1 ≤ 2048 ∧ base.mgmt.band = 0 ∧
    storedError { base with bad := [3] } 0 0 = true ∧ formOf { base with bad := [3] } 0 = 8 ∧ formOf { base with bales := [(0, 0#8)] } 0 ≠ 8 ∧
    errorAt base 0 0 2048 = false ∧ dirtyAt scarred (128 * 31) = some scarredLine ∧ scarredLine.bad ≠ [] ∧ storedError scarred (31 / 16) 0 = false ∧
    baleThere scarred (511 / 256) = true := by decide +kernel

theorem witness_silent (p : BitVec 4) : (partOf scarred p).err.log = 0 := by revert p; decide +kernel

/-- Every place is free and can be read and written. -/
def placesGood (s : State) (ls : List Loc) : Bool :=
  ls.all (fun l => !lineAbsent s (l.key / 128) && !errorAt s l.key l.kid 1 && !brokenAt s l.key && !writeError s l true fun _ => false) && !placesError s ls

theorem witness_outsideEvents : linked.agenda = [] ∧ linked.mgmt.linkUp = true ∧ ({ linked.mgmt with linkUp := false } : Mgmt).linkUp = false ∧ (1#4 : BitVec 4) ≠ 0#4 ∧
    linked.mgmt.band ≠ 3 ∧ linked.mgmt.phase ≠ .off ∧ (windowPlaces linked none .read 0 2).any (placesGood linked) = true ∧
    (windowPlaces linked none .write 0 2).any (placesGood linked) = true ∧ (windowPlaces linked none .read (2 ^ 63) 2).isNone = true ∧
    (peerPlaces linked 2#3 0 4).any (placesGood linked) = true ∧ (cooled .retreat 3 200).mgmt.band = 3 ∧
    ({ linked.mgmt with portsUp := 0xFB#8 } : Mgmt).portsUp.getLsbD (2#3).toNat = false := by decide +kernel

theorem witness_registerEvents : (511#9 : BitVec 9) ≠ 0#9 ∧ base.mgmt.busy = none ∧ ({ base.mgmt with busy := some (511#9, 1#512) } : Mgmt).busy = some (511#9, 1#512) ∧
    base.team.status = .running ∧ base.team.part = 0#4 := by decide +kernel

theorem witness_queueFaults : queueHeld (queued openQueue 2 0 []) 0#4 0#3 = none ∧
    (readQueue (queued 0x30 0 0 []) 0#4 0#3).map (fun d => (d.fault, d.enable, d.err)) = some (some 1, true, 0#32) ∧
    (serviceOf (queued 0x30 0 0 []) 0#4 0#3).serving = true ∧ (serviceOf (idleQueue (queued 0x30 0 0 [])) 0#4 0#3).serving = false ∧
    queueHeld (queued 0x30 0 0 []) 0#4 0#3 = none := by decide +kernel

/-- The queue out of service, with ERR set in its descriptor. -/
def failedQueue : State :=
  let q := idleQueue (queued openQueue 2 0 [])
  { q with mem := cellsWrite q.mem (0x10000 + 28) [2#8] }

theorem witness_queueRestart : (readQueue failedQueue 0#4 0#3).map (fun d => (d.fault, d.enable, d.err)) = some (none, true, 2#32) ∧
    (serviceOf failedQueue 0#4 0#3).serving = false ∧ queueHeld failedQueue 0#4 0#3 = none := by decide +kernel

/-- The four bytes of ERR. -/
def errPlaces : List Loc := [{ key := 0x1001C }, { key := 0x1001D }, { key := 0x1001E }, { key := 0x1001F }]

theorem errPlaces_eq : partPlaces failedQueue 0#4 .write (queueAddr (partOf failedQueue 0#4) 0#3 + 28) (leBytes 4 0).length = some errPlaces ∧
    placesError failedQueue errPlaces = false ∧ placesWrite failedQueue errPlaces (leBytes 4 0) = idleQueue (queued openQueue 2 0 []) := by decide +kernel

/-- ERR cleared: what then stands is the queue of `witness_queueEvents`, whose ERR is 0. -/
theorem witness_queueCleared : writeErr failedQueue 0#4 0#3 0 = idleQueue (queued openQueue 2 0 []) := by
  obtain ⟨h, e, w⟩ := errPlaces_eq
  unfold writeErr partWrite
  rw [h, Option.bind_some, e, w]
  rfl

theorem witness_queueClearedDesc : readQueue failedQueue 0#4 0#3 = some { base := 0x20000, logsize := 1, devfed := true, enable := true, tail := 2#32, head := 0#32, err := 2#32, reserved := false } ∧
    readQueue (idleQueue (queued openQueue 2 0 [])) 0#4 0#3 = some { base := 0x20000, logsize := 1, devfed := true, enable := true, tail := 2#32, head := 0#32, err := 0#32, reserved := false } := by
  decide +kernel

/-- A record like `record` with its FLAGS and its first grid size. -/
def recordWith (flags x : Nat) : List Byte :=
  leBytes 8 low ++ leBytes 8 low ++ leBytes 4 x ++ leBytes 4 1 ++ leBytes 4 1 ++ leBytes 4 7 ++ leBytes 4 1024 ++ leBytes 4 0 ++
    leBytes 4 flags ++ leBytes 4 0x10101 ++ List.replicate 80 0#8

/-- A cooperative head that can be placed whole, and a head without a team, which is rejected. -/
theorem witness_recordCases :
    (pickHead (queued openQueue 1 0 (recordWith 0x1100 2)) (readyHeads (queued openQueue 1 0 (recordWith 0x1100 2)))).any (fun h =>
      let s := (queued openQueue 1 0 (recordWith 0x1100 2))
      recordStatus s.draw h.bytes (gridOf s.draw h) == 0 && (launchOf h.bytes).coop &&
        (takeHead s.draw h).any fun s1 => (placeWhole (launchOf h.bytes).total { giveId s1 (gridOf s h) with grids := s.grids ++ [gridOf s h] } (gridOf s h).gid).isSome) = true ∧
    (pickHead (queued openQueue 1 0 (recordWith 0x100 0)) (readyHeads (queued openQueue 1 0 (recordWith 0x100 0)))).any (fun h =>
      let s := queued openQueue 1 0 (recordWith 0x100 0)
      recordStatus s.draw h.bytes (gridOf s.draw h) != 0 && (takeHead s.draw h).isSome) = true ∧ computeOn State.reset = false := by decide +kernel

/-- The grid of that team, one team placed and another to come, or none. -/
def lastGrid (next : Nat) : Grid := { oneGrid with gid := emptied.team.gid, next := next }

theorem witness_gridsEnd : (lastGrid 0).ended = false ∧ (lastGrid 0).next < (lastGrid 0).launch.total ∧ (lastGrid 1).next = (lastGrid 1).launch.total ∧
    (lastGrid 1).teams + 1 = (lastGrid 1).next ∧ (lastGrid 1).launch.comprec = 0#64 ∧ unreported emptied.team = [] ∧
    (partOf emptied 0#4).manifests = [] := by decide +kernel

theorem witness_resumedSlots : (focusTeam (resting .saved) 0).team.launch.rrecord = false ∧ (focusTeam (resting .saved) 0).team.launch.rfollow = false ∧
    Memory.wf (focusTeam (resting .saved) 0).team.image = true ∧ ((focusTeam (resting .saved) 0).team.peers.find? fun w => w.idx == 0).isSome = true ∧
    ∀ i : BitVec 3, ((focusTeam (resting .saved) 0).team.slot i).grant = none := by decide +kernel

theorem witness_lineFree : keptLines (flying arrived) = [] ∧ (allParts.all fun p => (partOf (flying arrived) p).errWait.isEmpty &&
    (partOf (flying arrived) p).wbWait.isEmpty && (partOf (flying arrived) p).manifests.all (·.written)) = true := by decide +kernel

theorem witness_commitsLater : (∀ (o : Outstanding) y z, everyFlag { o with sWrite := y, vWrites := z } = everyFlag o) ∧ ∀ o ∈ faulty.warp.pending, o.seq < faulty.warp.seq :=
  ⟨fun _ _ _ => rfl, by decide +kernel⟩

/-- A handler whose trap came from the word behind the window's first header, to be reissued. -/
def redoing : State := (handler 0x100#64 8#64 8#64).onWarp fun w => { w with trappc := BitVec.ofNat 64 (low + 8) }

theorem witness_trapRedo : redoing.warp.trapcause.getLsbD 8 = true ∧ redoing.warp.trapnpc = redoing.warp.traphdr ∧
    (match fetchAt redoing false redoing.warp.trappc.toNat with
      | .got w _ => w == 0x1F00000000000000#64
      | .miss _ | .wait _ | .fault _ _ => false) = true := by decide +kernel

/-- A copy that pins a translation that no table gives. -/
def pinner : State := flying { flight with pins := [{ part := 0#4, page := 1, leaf1 := 0x3D#64, level1 := 1, leaf2 := none }] }

theorem witness_pinned : (pinners pinner).any (fun x => x.2.any fun c =>
    Invalidation.hits { num := 2, part := 0#4, range := .all, holders := [] } c && !c.current pinner) = true := by decide +kernel

theorem witness_linkDown : ({ serving.mgmt with linkUp := false } : Mgmt).linkUp = false ∧ serving.mgmt.linkUp = true ∧ (cooled .retreat 3 200).mgmt.band = 3 ∧
    (cooled .retreat 3 200).mgmt.phase ≠ .warming := by decide +kernel

/-- A running team while the package warms past band 1. -/
def warmed : State := { base with mgmt := { base.mgmt with sensors := 110#8 :: List.replicate 223 0#8 } }

theorem witness_excursion : warmed.mgmt.phase = .run ∧ warmed.mgmt.band < 4 ∧ bandUpper warmed.mgmt.band < tmax warmed ∧ 100 < tmax warmed ∧ tmax warmed ≤ 140 ∧
    everyWarp warmed = [warmed.me] ∧ warmed.team.status = .running ∧ warmed.warp.status = .running ∧
    (cooled .bench 3 200).mgmt.phase = .bench ∧ placedTeams (cooled .bench 3 200) = [] ∧ (cooled .bench 3 200).mgmt.band = 3 ∧
    recordGood { (cooled .off 4 255).mgmt.stored with magic := 0#32 } = false := by decide +kernel

/-! ## Witnesses: values, checks and faults -/

/-- The values of R141, R142 and R144: −0 below +0, numbers below infinity, a power and a logarithm that are exact and some that are not. -/
theorem witness_floatValues : (Exact.fin true 0 0).below (Exact.fin false 0 0) ∧ (Exact.fin false 1 0).below (.inf false) ∧
    (∃ n : ℤ, (1 : ℕ) * (2 : ℝ) ^ (3 : ℤ) = (2 : ℝ) ^ n) ∧ (∀ n : ℤ, -((1 : ℕ) * (2 : ℝ) ^ (-1 : ℤ)) ≠ n) ∧
    fVal .fp32 0x3F800000#32 = .fin false 8388608 (-23) ∧ fVal .fp32 0xBF800000#32 = .fin true 8388608 (-23) := by
  refine ⟨.inr ⟨rfl, rfl, rfl, rfl⟩, .inl (by simp [Exact.extended]), ⟨3, by norm_num⟩, fun n h => ?_, by decide +kernel, by decide +kernel⟩
  have h2 : ((2 * n : ℤ) : ℝ) = ((-1 : ℤ) : ℝ) := by push_cast; rw [← h]; norm_num
  have := Int.cast_injective h2
  omega

/-- A clash of infinities between the first two leaves of v1, NV enabled. -/
def clashed : State := (withV (strip 8#9) [(16, 0x7F800000#32), (17, 0xFF800000#32)]).onWarp fun w => { w with fpctl := 1#6 }

theorem witness_reductionTrap : VectorReady clashed [(1#6, 32)] ∧ affords clashed clashed.warp.vl ∧
    enabledTrap clashed.warp.fpctl (faddElem .fp32 .rne (rnd (fmtOf .fp32) .rne (fVal .fp32 (vElem clashed .fp32 1#6 0))).bits
      (rnd (fmtOf .fp32) .rne (fVal .fp32 (vElem clashed .fp32 1#6 1))).bits).flags = true :=
  ⟨vectorReady_of (by decide +kernel), affords_of (by decide +kernel), by decide +kernel⟩

/-- `boxed` with other words in the record at v1. -/
def recorded (ws : List (Nat × LaneWord)) : State := withV boxed (ws.map fun x => (16 + x.1, x.2))

/-- `boxed` with another channel 0. -/
def channelOf (x : Channel) : State := boxed.onTeam fun t => t.setChan 0#4 x

/-- Each check of Table 5 fails somewhere: the record, the size and the pitch, an error on the channel, its last ID, a multicast outside the window, an operand of another type or shape, one that is not aligned, a list that is not; a box without elements; eight copies in the Porter; no credit. -/
theorem witness_copyChecks : laneOf (recorded [(11, 1#32)]) 1#6 11 ≠ 0#32 ∧ (laneOf (recorded [(15, 15#32)]) 1#6 15).toNat % 16 = 15 ∧
    2 ^ 24 < (laneOf (recorded [(12, 0xFFFFFFFF#32)]) 1#6 12).toNat % 2 ^ 16 * ((laneOf (recorded [(12, 0xFFFFFFFF#32)]) 1#6 12).toNat / 2 ^ 16) ∧
    (boxed.warp.readS 3#6).toNat < (17 * ET.int32.width + 7) / 8 ∧ ((withS boxed [(3#6, 66#64)]).warp.readS 3#6).toNat % 4 ≠ 0 ∧
    ((channelOf blocked).team.chan 0#4).err ≠ none ∧ ((channelOf { n := 2 ^ 48 - 1 }).team.chan 0#4).n = 2 ^ 48 - 1 ∧
    (laneOf (recorded [(14, 1#32)]) 1#6 14).toNat % 2 ^ 26 ≠ 0 ∧ inWindow ((withS (recorded [(14, 1#32)]) [(2#6, 64#64)]).warp.readS 2#6).toNat = false ∧
    (laneOf tiled 1#6 15).toNat % 16 ≠ (laneOf (withV tiled [(31, 5#32)]) 1#6 15).toNat % 16 ∧ (laneOf (withV tiled [(28, 1#32)]) 1#6 12).toNat ≠ 0 ∧
    ((withS tiled [(2#6, BitVec.ofNat 64 (low + 513))]).warp.readS 2#6).toNat % 64 ≠ 0 ∧ (8#64 : Word).toNat % 16 ≠ 0 ∧
    (laneOf (recorded [(12, 0x10#32)]) 1#6 12).toNat / 2 ^ 16 = 0 ∧
    8 ≤ porterBusy { boxed with copies := List.replicate 8 (newCopy boxed .boxIn) } ∧ boxed.team.tiles = false := by decide +kernel

theorem witness_copyPoor : ¬ affords poor 16 := fun h => absurd (show _ ∨ _ from h) (by decide +kernel)

/-- `CWAIT` and `CSTAT.ID` of the ID of the error, where the trap is taken, and where a flag is waited for. -/
theorem witness_channelError : let s := withS channeled [(1#6, 2#64)]
    (s.team.chan 0#4).err.any (fun e => e.eid ≤ (s.warp.readS 1#6).toNat) = true ∧ (s.team.chan 0#4).c ≤ (s.warp.readS 1#6).toNat ∧ trapTaken s = true ∧
    trapTaken (s.onWarp fun w => { w with pending := [{ seq := 0, pc := 0#64, flag := some 0, done := false, late := true }] }) = false := by decide +kernel

/-- A follow array with one TSET event of team 0, warp 0, that logs a grant. -/
def logging (v : Nat) : State :=
  { tiled with
    parts := tiled.parts.set 0 { tiled.parts[0] with wbfbase := 0x10000#64, wbfcount := 1 }
    team := { tiled.team with launch := { tiled.team.launch with rfollow := true } }
    mem := cellsWrite tiled.mem 0x10000 (leBytes 8 0 ++ leBytes 8 0 ++ leBytes 8 (3 * 2 ^ 32) ++ leBytes 8 v) }

def foundAt (x : Follow) : Option Nat :=
  match x with
  | .found _ v => some v
  | .missing | .failed _ | .held _ => none

/-- A logged grant of 8 by 8 by 32, and one of 16 by 512. -/
theorem witness_loggingGrant : foundAt (follow (logging 0x2000080008) 0 ((logging 0).warp.events.getD 3 0) [3]) = some 0x2000080008 ∧
    foundAt (follow (logging 0x2002000010) 0 ((logging 0).warp.events.getD 3 0) [3]) = some 0x2002000010 ∧
    min (coreMaxima tiled (homeOf tiled.team.site 0#3)).n (tileCaps tiled.part.tcap (homeOf tiled.team.site 0#3).cls).n < 512 := by decide +kernel

/-- `draining` with value 1 of its slot uncorrectable; with a value there that BF16 does not hold; with a NaN in element 1 of v4, for `TSVL` of FP32; every exception enabled; and without a grant. -/
def drainMarked : State := draining.onTeam fun t => t.setSlot 0#3 { t.slot 0#3 with bad := [1] }
def drainInexact : State := (draining.onTeam fun t => t.setSlot 0#3 { t.slot 0#3 with acc := (t.slot 0#3).acc.set 1 0x7FFFFFFF#32 }).onWarp fun w => { w with fpctl := 0x3F#6 }
def drainNaN : State := (withV draining [(65, 0x7FC00000#32)]).onWarp fun w => { w with fpctl := 0x3F#6 }
def drainBare : State := bareTile.onWarp fun w => { w with desc := 0#9, vl := 4, vpad := 1 }

theorem witness_drainTraps : (1 < drainMarked.warp.vl ∧ maskBit drainMarked.warp 0#3 1 = true ∧ 0 * gridGrant.n + 1 ∈ (drainMarked.team.slot 0#3).bad ∧
      ¬ 0 * gridGrant.n + 0 ∈ (drainMarked.team.slot 0#3).bad) ∧ drainMarked.warp.fpctl = 0#6 ∧
    (1 < drainInexact.warp.vl - drainInexact.warp.vpad ∧ enabledTrap drainInexact.warp.fpctl (drainElem (drainInexact.team.slot 0#3) .bf16 .rne false 0 1).flags = true ∧
      enabledTrap drainInexact.warp.fpctl (drainElem (drainInexact.team.slot 0#3) .bf16 .rne false 0 0).flags = false) ∧
    enabledTrap drainNaN.warp.fpctl (fillElem .fp32 .rne (intKind gridGrant.aty) (readElem drainNaN 4#6 32 1)).flags = true ∧
    enabledTrap drainNaN.warp.fpctl (fillElem .fp32 .rne (intKind gridGrant.aty) (readElem drainNaN 4#6 32 0)).flags = false ∧
    (fmtOf .bf16).value 0x7F80#32 = .inf false ∧ (fmtOf .bf16).value 0x7FC0#32 = .nan ∧ (Exact.ofInt 0).isZero = true ∧ (Exact.ofInt 1).isZero = false := by decide +kernel

/-- The elements of a row, which a plan stores: none fails, and of four elements of a strip three are live. -/
def rowElts (s : State) : List Elt := (asked s.warp 0#3 fun k => ((low : Int) + (k * 32 / 8 : Nat), k * 32 % 8)).filter fun y => inExtent (s.team.slot 0#3) 0 y.k

theorem witness_rowFaults : (planElts (planOf drainMarked (drainMarked.ask .write 32) (rowElts drainMarked))).map (·.1.k) = [0, 1, 2] ∧
    planWhole (planOf drainMarked (drainMarked.ask .write 32) (rowElts drainMarked)) = true ∧
    (planElts (planOf drainInexact (drainInexact.ask .write 32) (rowElts drainInexact))).map (·.1.k) = [0, 1, 2] ∧
    planWhole (planOf drainInexact (drainInexact.ask .write 32) (rowElts drainInexact)) = true ∧
    planStops stopIsError (planOf { draining with bad := [low / 8 + 1] } (draining.ask .write 32) (rowElts draining)) = true ∧
    (addressStop { draining with bad := [low / 8 + 1] } (draining.ask .write 32) (rowElts draining)).isNone = true := by decide +kernel

theorem witness_imageMarked : (markedTile.team.slot 0#3).bad ≠ [] ∧
    ∃ oks, planOf markedTile { markedTile.ask .write 64 with trims := false } (pieces (markedTile.team.slot 0#3).imageBytes.length) = .run oks none :=
  ⟨by decide +kernel, whole_run (by decide +kernel)⟩

theorem witness_emptySlots : drainBare.warp.lanes = none ∧ (0#3).toNat < drainBare.team.launch.tiles ∧ drainBare.team.tiles = true ∧
    (drainBare.team.slot 0#3).grant = none ∧ slotBusy drainBare 0#3 = false ∧ (drainBare.team.slot 0#3).bad = [] ∧ VectorReady drainBare [(4#6, 32), (5#6, 16)] ∧
    affords drainBare drainBare.warp.vl ∧ imageFault (drainBare.warp.readS 1#6) = none ∧
    ∃ oks, planOf drainBare { drainBare.ask .write 64 with trims := false } (pieces 64) = .run oks none := by
  and_intros <;> first | decide +kernel | exact vectorReady_of (by decide +kernel) | exact affords_of (by decide +kernel) | exact whole_run (by decide +kernel)

/-- Charged words of each kind on a core without credit. -/
def poorTile : State := onCore draining draining.warp.core fun c => { c with cap := 1024 }

theorem witness_tollWait :
    ([Instr.vadd 0#3 false .int32 1#6 2#6 3#6, .vfdiv .none 0#3 false .rne .fp32 1#6 2#6 3#6, .vld .none 0#3 false .fp32 0#2 4#6 1#6 0#16].all fun i =>
      (tollOf poor i).isSome && (fieldChecks poor i).any fun cs => !cs.contains false) = true ∧
    poor.warp.dests ≤ 8 ∧ poor.warp.inLanes = false ∧ poorTile.team.tiles = true ∧ poorTile.warp.lanes = none ∧ tollOf poorTile (.tzero 0#3) = some 1 ∧
    fieldChecks poorTile (.tzero 0#3) = some [true] ∧ poorTile.warp.dests ≤ 8 := by decide +kernel

theorem witness_tollShort : ¬ affords poor 4 ∧ ¬ affords poor 32 ∧ ¬ affords poorTile 1 :=
  ⟨fun h => absurd (show _ ∨ _ from h) (by decide +kernel), fun h => absurd (show _ ∨ _ from h) (by decide +kernel),
    fun h => absurd (show _ ∨ _ from h) (by decide +kernel)⟩

/-- `returning` with other addresses in its registers, under a TRAPCAUSE. -/
def misreturning (cause hdr npc pc : Nat) : State := returning.onWarp fun w =>
  { w with trapcause := BitVec.ofNat 64 cause, traphdr := BitVec.ofNat 64 hdr, trapnpc := BitVec.ofNat 64 npc, trappc := BitVec.ofNat 64 pc }

def gotWord (f : Fetched Word) : Option Word :=
  match f with
  | .got w _ => some w
  | .miss _ | .wait _ | .fault _ _ => none

/-- A TRAPHDR that is no multiple of 8, one at a word that is no header, a TRAPNPC behind its clause; the same with a word to be reissued at TRAPPC, and one that is no multiple of 8. -/
theorem witness_misformedReturns : canonicalFault ((low + 121 : Nat) : Int) = none ∧ ((low + 121 : Nat) : Int) % 8 ≠ 0 ∧
    (gotWord (fetchAt (misreturning 0 (low + 128) (low + 136) 0) false (low + 128 : Nat))).any (fun w => w.extractLsb' 56 8 != 0xF8#8) = true ∧
    (low + 136 : Nat) ≠ (low + 120 : Nat) + 8 * 1 ∧ (misreturning 0x100 (low + 120) (low + 136) (low + 128)).warp.trapcause.getLsbD 8 = true ∧
    gotWord (fetchAt (misreturning 0x100 (low + 120) (low + 136) (low + 128)) false (low + 128 : Nat)) = some 0x1F00000000000000#64 := by decide +kernel

/-- A barrier two phases ahead of the warp; arrivals and members of each row of 05 R102's Table 5. -/
theorem witness_barrierCounts : base.warp.park ≠ .barrier 3 0 false ∧ ((barred { last := some 0, arrived := some 0 } { p := 3, e := 1 }).team.bar 3).p = 3 ∧
    ((barred {} { p := 0, e := 2, a := 1 }).team.bar 3).a + 1 = 2 ∧ ((barred { last := some 1 } { e := 1, a := 1 }).warp.part 3).last = some (0 + 1) ∧
    ((barred { first := 0 } { e := 2 }).warp.part 3).first ≤ 0 ∧ ((barred { first := 1 } { e := 2 }).warp.part 3).member = true := by decide +kernel

/-- Lane 15 has joined at another word than the rest will; and every lane names it, which joined without a count. -/
def lanesElsewhere : LaneMode := { lanes := lanes0.lanes.set 15 { pos := base.warp.pos, joined := true, joinAt := some 8 } }
def absentee : State := withV forked ((List.range 16).map fun l => (16 + l, 0x8000#32))

theorem witness_laneTraps : (∀ j, j < 16 → j ∉ lanesBlocked.group → (lanesBlocked.lane j).joined = true ∨ (lanesBlocked.lane j).blocked ≠ none) ∧
    15 ∉ lanesBlocked.group ∧ (lanesBlocked.lane 15).blocked ≠ none ∧
    (∀ j, j < 16 → j ∉ lanesElsewhere.group → (lanesElsewhere.lane j).joined = true ∧ (lanesElsewhere.lane j).blocked = none) ∧
    lanesElsewhere.leader = some 0 ∧ 15 ∉ lanesElsewhere.group ∧ (lanesElsewhere.lane 15).joinAt = some 8 ∧ (lanesElsewhere.lane 0).pos.pc ≠ 8 ∧ 0 ∈ lanesElsewhere.group ∧
    (laneSet absentee 1#6 0).getLsbD 15 = true ∧ (lanes0.lane 0).counts.getD 0 0 + 1 > (lanes0.lane 15).counts.getD 0 0 ∧ 15 ∉ lanes0.group ∧
    (lanes0.lane 15).joined = true ∧ (lanes0.lane 15).blocked = none := by decide +kernel

theorem witness_leaves : (∀ o ∈ shrinking.warp.pending, o.late = true → o.flag = none → o.done = true) ∧ (shrinking.warp.commit everyFlag).2 = none ∧
    faulty.warp.mustWait flagged = false ∧ (base.warp.commit flagged).2 = none := by
  refine ⟨by decide +kernel, ?_, by decide +kernel, by decide +kernel⟩
  rw [commit_idle (by decide +kernel)]

theorem witness_cleanLine : 0x1000 / 2048 ∉ (dirtyPage false).badMap ∧ linkDown (dirtyPage false) 0x1000 = false ∧
    clusterOn base (coreCluster base.warp.core) = true ∧ coreCluster base.warp.core = 0 := by decide +kernel

theorem witness_errorsWritten (p : BitVec 4) : (partOf (dirtyPage false) p).errWait = [] ∧ (partOf base p).errWait = [] := by revert p; decide +kernel

/-- A whole bale is written, and its entry is bad; a copy whose destination lies over a link that is down; requests that are held, and a hold over a link that is down. -/
theorem witness_links : mapBad { base with badMap := [3] } 3 = true ∧ ({ serving.mgmt with holding := true } : Mgmt).holding = true ∧
    linkDown { base with mgmt := { base.mgmt with linkUp := false } } 0x8000000000000 = true ∧ serving.mgmt.holding = false ∧ linked.mgmt.holding = false ∧
    (cooled .excursion 3 200).mgmt.band = 3 ∧ (cooled .bench 4 255).mgmt.band = 4 := by decide +kernel

theorem witness_recordHeld : recordHeld { queued openQueue 1 0 record with absent := [0x30000 / 128] } 0#4 { launchOf record with comprec := 0x30000#64 } = true ∧
    recordHeld (queued openQueue 1 0 record) 0#4 (launchOf record) = false := by decide +kernel

/-- Two elements of a box copy over the link, which is down. -/
theorem witness_copyOverLink : let c : Copy := { flight with kind := .boxOut }
    let s : State := { flying c with mgmt := { boxed.mgmt with linkUp := false } }
    inContext s c = true ∧ (flight.performed, flight.buffer.length) = ([], 0) := by decide +kernel

theorem witness_wholeBales : wholeBales (flying flight) (probed (flying flight) flight).ready = [] ∧ inContext (flying flight) flight = true := by decide +kernel

/-- A stream of the warp runs ahead while it is parked on a manifest, and while it is not. -/
theorem witness_runAhead : (flowing.parkOn .manifest).warp.park = .manifest ∧ flowing.warp.park ≠ .manifest ∧ (flowing.warp.stream 3#3).p ≤ 4 ∧
    4 < (flowing.warp.stream 3#3).p + (flowing.warp.stream 3#3).range := by decide +kernel

/-- An engine holds the line of the table at 0x90000. -/
theorem witness_heldWalk : lineAbsent { tabled with absent := [0x90000 / 128] } (0x90000 / 128) = true := by decide +kernel

theorem witness_saveEnd : 0x10000 + (blockBytes (focusTeam (resting .running) 0)).length ≤ Config.windowBase := by decide +kernel

/-! ## Witnesses: the machine as a whole -/

theorem witness_decodeEncode : (Instr.addi 2#6 2#6 3#32).wf = true ∧ encode (.addi 2#6 2#6 3#32) = some 0x0600208000000003#64 ∧
    decodeWord { setA := true, setB := true } 0x0600208000000003#64 = .ok (.addi 2#6 2#6 3#32) ∧ headerCheck 4064 fetchHeaderWord = none ∧ headerCheck 4080 fetchHeaderWord = none := by
  decide +kernel

theorem witness_invariants : State.reset.legal = true ∧ State.reset.memoryWf = true ∧ base.legal = true ∧ base.memoryWf = true ∧ goesOn (step base) = true := by decide +kernel

theorem witness_stepWord : base.agentTurn = false ∧ movable base = true ∧ base.warp.due = none ∧ base.warp.at.idx ≠ 0 ∧ base.warp.at.word = some 0x1F00000000000000#64 ∧
    decodeWord base.warp.at.context 0x1F00000000000000#64 = .ok .nop ∧ decodeWord base.warp.at.context 0xF700000000000000#64 = .error .opcode ∧
    (State.reset.withFetchWord 64 0xF700000000000000).warp.at.word = some 0xF700000000000000#64 ∧ begun.warp.at.idx = 0 ∧
    (base.onWarp fun w => { w with due := some (misformed .target) }).warp.due = some (misformed .target) ∧
    chosen base none [base.me] = some base.me ∧ movable (base.onWarp fun w => { w with taken := 1 }) = false := by decide +kernel

theorem witness_stepBegins : movable begun = true := by decide +kernel

/-- An agent's turn with one step on the agenda and none of the device's own: the package off and warm. -/
def handed (agent : Bool) : State := { cooled .off 4 255 with agentTurn := agent, agenda := [.powerUp] }

theorem witness_stepAgent : nextEvent (handed true) = some (.powerUp, { handed true with agenda := [] }) ∧ (handed true).agentTurn = true ∧
    (handed false).agentTurn = false ∧ ready (handed false) = false ∧ nextWarp (handed false) = none ∧
    nextEvent (handed false) = some (.powerUp, { handed false with agenda := [] }) := by decide +kernel

theorem witness_fetch : checkFresh base (fetchAsk base false) true { k := 0, va := (low + 8 : Nat) } = .ok { key := low + 8 } ∧
    errorAt base (low + 8) 0 8 = false ∧ absentIn base (low + 8) 8 = none ∧ (low + 8) % 128 = va54 ((low + 8 : Nat) : Int) % 128 ∧ va54 ((low + 8 : Nat) : Int) % 8 = 0 := by decide +kernel

theorem witness_fetchUncached : cachedWords base base.team.part (va54 ((low + 8 : Nat) : Int) / 128) = none := cachedWords_none (by decide +kernel)


/-! ## Words of the spec and what they decode to -/

/-- Each word decodes to the instruction beside it, under a header that names both flags. -/
def reads (rows : List (Nat × Instr)) : Bool := rows.all fun x => decodeTableWord 64 x.1 == some x.2

/-- The words the spec writes out in its examples: chapters 04, 05, 06 and 07. -/
theorem test_example_words_scalar : reads [
    (0x0600_2080_0000_0003, .addi 2 2 3), (0x0600_1040_FFFF_FFFF, .addi 1 1 0xFFFFFFFF), (0x2300_0040_0000_0000, .brnz 1 0),
    (0x0400_9000_0000_5FA2, .adrc 9 0x5FA2), (0x1500_D240_0000_0002, .shli 13 9 2), (0x0500_208D_0000_0000, .add 2 2 13),
    (0x1A00_C311_0000_0000, .min .signed 12 12 17), (0x0200_9000_8001_0000, .movi 9 0x80010000), (0x2500_0280_0000_0000, .callr 10),
    (0x3400_0000_0000_0000, .bararv 0), (0x3600_0000_0000_0003, .barsync 3), (0x3900_0080_0000_0004, .vfork 2 4),
    (0x3101_3480_0000_0000, .tgrow 19 18), (0x3200_0000_0000_0000, .tleave),
    (0x4000_9040_0000_0026, .setvl 9 1 .int4 2 0), (0x4000_9040_0000_0008, .setvl 9 1 .fp32 0 0), (0x4100_0040_FFFF_FFF8, .svloop 1 0xFFFFFFF8),
    (0x6500_6100_0008_0000, .vbcs 0 false .fp32 6 4), (0x7300_5184_1408_0000, .vfma 0 false .rne .fp32 5 6 4 5),
    (0x7F00_C100_0098_0000, .vcvt 0 false .rne false .bf16 .fp32 12 4), (0x8000_4205_008D_0000, .vqnt false .fp32 .e2m1 4 8 5)] = true := by decide +kernel

/-- The words the spec writes out in its examples: chapters 08 to 15 and 20 to 22. -/
theorem test_example_words_memory : reads [
    (0x9700_6100_0008_0000, .vredsum 0 .rne .fp32 6 4), (0x9A00_7100_0008_0000, .vscan 0 false .rne .add .fp32 7 4),
    (0xA200_4080_0080_0000, .vld .none 0 false .fp32 0 4 2 0), (0xA240_4080_0080_0000, .vld .a 0 false .fp32 0 4 2 0),
    (0xA280_50C0_0080_0000, .vld .b 0 false .fp32 0 5 3 0), (0xA300_00C5_0080_0000, .vst 0 .fp32 0 3 5 0),
    (0xA000_A240_00F0_0000, .lds .none .int64 0 10 9 0),
    (0xA800_1080_0000_0138, .strdef { count := 0, unit := true, store := false, depth := 3, et := .fp32 } 1 2 0),
    (0xA900_4040_0000_0000, .vldst .none 0 false 0 4 1),
    (0xB000_5187_0070_0000, .atom .none .add .ar .rne .int32 5 6 7), (0xB001_4F09_0040_0000, .atom .none .add .rlx .rne .int32 20 60 9),
    (0xB400_A042_2408_0000, .redord .rne 10 1 2 9), (0xB500_0000_0130_0000, .fence .full .dev),
    (0xB900_C214_0080_0002, .cpya .none 1 12 8 20 2), (0xB941_923C_0000_0000, .cpya .a 0 25 8 60 0), (0xBA41_9217_0000_0000, .cpyb .a 0 25 8 23 0),
    (0xBC00_0300_0000_0002, .cwait 12 2),
    (0xC200_5100_0080_0099, .tset 1 5 4 .bf16 .bf16 0), (0xC300_6000_0080_0000, .tgrant 1 6), (0xC400_0000_0080_0000, .tzero 1),
    (0xC500_0700_0000_0000, .tldb .none 0 28 0), (0xC640_0100_0000_0000, .tmma .a 0 4), (0xC800_0180_0080_0000, .tcsclLd .none 1 6),
    (0xC900_8000_0089_0000, .tslv 0 false false .rne false .bf16 1 8 0), (0xC901_0840_0008_0000, .tslv 0 false false .rne false .fp32 0 16 33),
    (0xD000_0000_0000_0001, .trap 1), (0xD100_0000_0000_0000, .eret), (0xD200_9000_0000_0020, .getsr 9 0x20),
    (0xD300_0240_0000_0028, .setsr 0x28 9), (0xD800_0040_0010_0000, .haltTeam 1)] = true := by decide +kernel

/-- The headers of 02_words_and_registers.md's example and of 20_programs_streams_and_tiles.md's table. -/
theorem test_example_headers :
    Header.ofBits 0xF840_001E_4000_0000 = { n := 2, wait := 0, setA := 0, setB := 15, yld := 0, cls := 4, zero := 0 } ∧
    Header.ofBits 0xF820_03FE_3000_0000 = { n := 1, wait := 1, setA := 15, setB := 15, yld := 0, cls := 3, zero := 0 } ∧
    Header.ofBits 0xF880_0002_0000_0000 = { n := 4, wait := 0, setA := 0, setB := 1, yld := 0, cls := 0, zero := 0 } ∧
    Header.ofBits 0xF8C0_07FE_0000_0000 = { n := 6, wait := 3, setA := 15, setB := 15, yld := 0, cls := 0, zero := 0 } := by decide +kernel

/-- The scalar instructions (04 R72, R73, Tables 2 and 3): one word of each constructor, its fields placed as R25 to R27 give them. -/
theorem test_words_scalar : reads [(0x0100_99C0_0010_0000, .mov true 9 39),
    (0x0200_9000_FFFF_1234, .movi 9 0xFFFF1234),
    (0x0300_99C0_FFFF_1234, .movhi 9 39 0xFFFF1234),
    (0x0400_9000_FFFF_1234, .adrc 9 0xFFFF1234),
    (0x0500_99D5_0000_0000, .add 9 39 21),
    (0x0600_99C0_FFFF_1234, .addi 9 39 0xFFFF1234),
    (0x0700_99D5_0000_0000, .sub 9 39 21),
    (0x0800_99D5_0000_0000, .mul 9 39 21),
    (0x0900_99D5_0010_0000, .mulhi .unsigned 9 39 21),
    (0x0A80_99D5_0010_0000, .div .b .unsigned 9 39 21),
    (0x0B80_99D5_0010_0000, .rem .b .unsigned 9 39 21),
    (0x0C00_99D5_0000_0000, .and 9 39 21),
    (0x0D00_99C0_FFFF_1234, .andi 9 39 0xFFFF1234),
    (0x0E00_99D5_0000_0000, .or 9 39 21),
    (0x0F00_99C0_FFFF_1234, .ori 9 39 0xFFFF1234),
    (0x1000_99D5_0000_0000, .xor 9 39 21),
    (0x1100_99C0_FFFF_1234, .xori 9 39 0xFFFF1234),
    (0x1200_99D5_0000_0000, .shl 9 39 21),
    (0x1300_99D5_0000_0000, .shr 9 39 21),
    (0x1400_99D5_0000_0000, .sar 9 39 21),
    (0x1500_99C0_0000_002D, .shli 9 39 45),
    (0x1600_99C0_0000_002D, .shri 9 39 45),
    (0x1700_99C0_0000_002D, .sari 9 39 45),
    (0x1800_99C0_0000_0000, .clz 9 39),
    (0x1900_99C0_0000_0000, .popc 9 39),
    (0x1A00_99D5_0010_0000, .min .unsigned 9 39 21),
    (0x1B00_99D5_0010_0000, .max .unsigned 9 39 21),
    (0x1C00_99D5_0040_0000, .cmp .ltu 9 39 21),
    (0x1D00_99C3_FFFF_1234, .cmpi .le 9 39 0xFFFF1234),
    (0x1E00_99D5_9400_0000, .sel 9 39 21 37),
    (0x1F00_0000_0000_0000, .nop)] = true := by decide +kernel

/-- The control transfers (04 R72): one word of each constructor, its fields placed as R25 to R27 give them. -/
theorem test_words_flow : reads [(0x2000_0000_FFFF_1234, .br 0xFFFF1234),
    (0x2100_29D5_FFFF_1234, .brc .lt 39 21 0xFFFF1234),
    (0x2200_09C0_FFFF_1234, .brz 39 0xFFFF1234),
    (0x2300_09C0_FFFF_1234, .brnz 39 0xFFFF1234),
    (0x2400_0000_FFFF_1234, .call 0xFFFF1234),
    (0x2500_09C0_0000_0000, .callr 39),
    (0x2600_0000_0000_0000, .ret),
    (0x2700_09C0_0000_0000, .jmpr 39)] = true := by decide +kernel

/-- The team and lane instructions (05 R109, Table 8): one word of each constructor, its fields placed as R25 to R27 give them. -/
theorem test_words_team : reads [(0x3000_9000_0050_0000, .getid .gz 9),
    (0x3100_99C0_0000_0000, .tgrow 9 39),
    (0x3200_0000_0000_0000, .tleave),
    (0x3300_9000_0000_0000, .tstat 9),
    (0x3400_0000_0000_000D, .bararv 13),
    (0x3500_0000_0000_000D, .barwait 13),
    (0x3600_0000_0000_000D, .barsync 13),
    (0x3700_0000_0000_A5C3, .barmask 0xA5C3),
    (0x3800_09C0_0000_000D, .wsync 13 39),
    (0x3900_00C0_FFFF_1234, .vfork 3 0xFFFF1234),
    (0x3A00_0000_0000_0000, .ljoin),
    (0x3B00_99D5_0000_0000, .klaunch 9 39 21),
    (0x3C00_0000_0000_0000, .yield)] = true := by decide +kernel

/-- The strip and mask instructions (07 R154, R158 to R160): one word of each constructor, its fields placed as R25 to R27 give them. -/
theorem test_words_strip : reads [(0x4000_99C0_0000_0149, .setvl 9 39 .bf16 4 2),
    (0x4100_09C0_FFFF_1234, .svloop 39 0xFFFF1234),
    (0x4200_9000_0030_0000, .getvl .cap 9),
    (0x4400_50C6_0000_0000, .mand 5 3 6),
    (0x4500_50C6_0000_0000, .mor 5 3 6),
    (0x4600_50C6_0000_0000, .mxor 5 3 6),
    (0x4700_50C6_0000_0000, .mandn 5 3 6),
    (0x4800_50C0_0000_0000, .mnot 5 3),
    (0x4900_50C0_0000_0000, .mmov 5 3),
    (0x4A00_59C0_0000_0000, .mset .lt 5 39),
    (0x4B00_90C0_0000_0000, .mpopc 9 3),
    (0x4C00_90C0_0000_0000, .mfirst 9 3)] = true := by decide +kernel

/-- The vector integer instructions (07 R163, Table 4): one word of each constructor, its fields placed as R25 to R27 give them. -/
theorem test_words_vector_integer : reads [(0x502C_99D5_0005_0000, .vadd 5 true .uint8 9 39 21),
    (0x512C_99D5_0005_0000, .vadds 5 true .uint8 9 39 21),
    (0x522C_99D5_0005_0000, .vsub 5 true .uint8 9 39 21),
    (0x532C_99D5_0005_0000, .vsubs 5 true .uint8 9 39 21),
    (0x542C_99D5_0005_0000, .vmul 5 true .uint8 9 39 21),
    (0x552C_99D5_0005_0000, .vmulhi 5 true .uint8 9 39 21),
    (0x562C_99D5_9405_0000, .vmad 5 true .uint8 9 39 21 37),
    (0x572C_99D5_0005_0000, .vmin 5 true .uint8 9 39 21),
    (0x582C_99D5_0005_0000, .vmax 5 true .uint8 9 39 21),
    (0x592C_99C0_0012_0000, .vabs 5 true true .int16 9 39),
    (0x5A2C_99D5_000C_0000, .vand 5 true .e5m2 9 39 21),
    (0x5B2C_99D5_000C_0000, .vor 5 true .e5m2 9 39 21),
    (0x5C2C_99D5_000C_0000, .vxor 5 true .e5m2 9 39 21),
    (0x5D2C_99D5_0005_0000, .vshl 5 true .uint8 9 39 21),
    (0x5E2C_99D5_0005_0000, .vshr 5 true .uint8 9 39 21),
    (0x5F2C_99D5_0005_0000, .vsar 5 true .uint8 9 39 21),
    (0x602C_59D5_0045_0000, .vcmp 5 true .ltu .uint8 5 39 21),
    (0x6128_99D5_000C_0000, .vmrg 5 .e5m2 9 39 21),
    (0x622C_99C0_0050_0000, .vwid 5 true .uint8 .int32 9 39),
    (0x632C_99C0_0004_0000, .vsatn 5 true .int32 .int8 9 39),
    (0x642C_90C0_0015_0000, .viota 5 true true .uint8 9 3),
    (0x652C_99C0_000C_0000, .vbcs 5 true .e5m2 9 39),
    (0x662C_99C0_0005_0000, .vpopc 5 true .uint8 9 39),
    (0x672C_99C0_FFFF_1234, .vaddi 5 true 9 39 0xFFFF1234),
    (0x682C_99C0_0005_0000, .vclz 5 true .uint8 9 39)] = true := by decide +kernel

/-- The floating instructions (06 R139, Table 8): one word of each constructor, its fields placed as R25 to R27 give them. -/
theorem test_words_vector_float : reads [(0x702C_99D5_000A_2000, .vfadd 5 true .ru .fp16 9 39 21),
    (0x712C_99D5_000A_2000, .vfsub 5 true .ru .fp16 9 39 21),
    (0x722C_99D5_000A_2000, .vfmul 5 true .ru .fp16 9 39 21),
    (0x732C_99D5_940A_2000, .vfma 5 true .ru .fp16 9 39 21 37),
    (0x742C_99D5_940A_2000, .vfnma 5 true .ru .fp16 9 39 21 37),
    (0x752C_99D5_000A_0000, .vfmin 5 true .fp16 9 39 21),
    (0x762C_99D5_000A_0000, .vfmax 5 true .fp16 9 39 21),
    (0x77AC_99D5_000A_2000, .vfdiv .b 5 true .ru .fp16 9 39 21),
    (0x78AC_99C0_000A_2000, .vfsqrt .b 5 true .ru .fp16 9 39),
    (0x79AC_99C0_000A_2000, .vfrsq .b 5 true .ru .fp16 9 39),
    (0x7AAC_99C0_000A_2000, .vfrcp .b 5 true .ru .fp16 9 39),
    (0x7BAC_99C0_000A_2000, .vfexp2 .b 5 true .ru .fp16 9 39),
    (0x7CAC_99C0_000A_2000, .vflog2 .b 5 true .ru .fp16 9 39),
    (0x7D2C_59D5_004A_0000, .vfcmp 5 true .un .fp16 5 39 21),
    (0x7E2C_99C0_000A_0000, .vfclass 5 true .fp16 9 39),
    (0x7F2C_99C0_009B_7000, .vcvt 5 true .rd true .bf16 .e4m3 9 39),
    (0x8000_99D5_019D_0000, .vqnt true .bf16 .e2m1 9 39 21),
    (0x812C_99D5_00CA_2000, .vdqnt 5 true .ru .e5m2 .fp16 9 39 21),
    (0x822C_99C0_000A_0000, .vfabs 5 true .fp16 9 39)] = true := by decide +kernel

/-- The permutes and reductions (08 R172, Table 1): one word of each constructor, its fields placed as R25 to R27 give them. -/
theorem test_words_permute : reads [(0x902C_99D5_000C_0000, .vperm 5 true .e5m2 9 39 21),
    (0x912C_99D5_000C_0000, .vslup 5 true .e5m2 9 39 21),
    (0x922C_99D5_000C_0000, .vsldn 5 true .e5m2 9 39 21),
    (0x932C_99D5_000C_0000, .vbcast 5 true .e5m2 9 39 21),
    (0x9400_99C6_000C_0000, .vcmprs .e5m2 9 39 6),
    (0x9500_99C6_000C_0000, .vexpnd .e5m2 9 39 6),
    (0x962C_8A00_000C_0000, .vtr8 5 true .e5m2 8 40),
    (0x9728_99C0_0009_2000, .vredsum 5 .ru .bf16 9 39),
    (0x9828_99C0_000A_0000, .vredmax 5 .fp16 9 39),
    (0x9928_99C0_0005_0000, .vredmin 5 .uint8 9 39),
    (0x9A2C_99C0_0009_2000, .vscan 5 true .ru .add .bf16 9 39),
    (0x9B00_99D5_000C_0000, .vextr .e5m2 9 39 21),
    (0x9C00_99D5_000C_0000, .vins .e5m2 9 39 21)] = true := by decide +kernel

/-- The loads, stores and streams (09 R186, Table 2): one word of each constructor, its fields placed as R25 to R27 give them. -/
theorem test_words_load_store : reads [(0xA080_99C0_00F2_8765, .lds .b .int64 2 9 39 0x8765),
    (0xA100_09D5_00F2_8765, .sts .int64 2 39 21 0x8765),
    (0xA2AC_99C0_00D2_8765, .vld .b 5 true .e2m1 2 9 39 0x8765),
    (0xA328_09D5_00D2_8765, .vst 5 .e2m1 2 39 21 0x8765),
    (0xA4AC_99C0_94E2_8765, .vlds .b 5 true .sc12 2 9 39 37 0x8765),
    (0xA528_09D5_94E2_8765, .vsts 5 .sc12 2 39 21 37 0x8765),
    (0xA6AC_99C0_94E2_8765, .vldx .b 5 true .sc12 2 9 39 37 0x8765),
    (0xA728_09D5_94E2_8765, .vstx 5 .sc12 2 39 21 37 0x8765),
    (0xA800_59D5_0246_8A6B, .strdef { count := 0x12345, unit := false, store := true, depth := 2, et := .e4m3 } 5 39 21),
    (0xA9AC_90C0_0002_0000, .vldst .b 5 true 2 9 3),
    (0xAA28_00D5_0002_0000, .vstst 5 2 3 21),
    (0xAB00_09C0_0002_8765, .pref 2 39 0x8765)] = true := by decide +kernel

/-- The atomics and fences (11 R246, Table 3): one word of each constructor, its fields placed as R25 to R27 give them. -/
theorem test_words_atomic : reads [(0xB080_99D5_0259_2000, .atom .b .fadd .acq .ru .bf16 9 39 21),
    (0xB1AC_99D5_9659_2000, .vatom .b 5 true .fadd .acq .ru .bf16 9 39 21 37),
    (0xB280_99D5_942F_0000, .cas .b .rel .int64 9 39 21 37),
    (0xB3AC_99D5_9421_0000, .vcas .b 5 true .rel .uint32 9 39 21 37),
    (0xB400_99D5_9408_2000, .redord .ru 9 39 21 37),
    (0xB500_0000_00E0_0000, .fence .rel .cluster)] = true := by decide +kernel

/-- The copies (12 R260, Table 2): one word of each constructor, its fields placed as R25 to R27 give them. -/
theorem test_words_copy : reads [(0xB880_99D5_9400_000B, .cpyboxIn .b 9 39 21 37 11),
    (0xB880_99D5_9410_000B, .cpyboxOut .b 9 39 21 37 11),
    (0xB980_99D5_0300_000B, .cpya .b 6 9 39 21 11),
    (0xBA80_99D5_0300_000B, .cpyb .b 6 9 39 21 11),
    (0xBB80_99D5_0011_000B, .cpytrain .b .add .uint32 9 39 21 11),
    (0xBC00_09C0_0000_000B, .cwait 39 11),
    (0xBD00_99C0_0000_000B, .cstat .id 9 39 11),
    (0xBD00_9000_0040_000B, .cstatClr 9 11)] = true := by decide +kernel

/-- The tile instructions (13 R283; 14 R305, R306): one word of each constructor, its fields placed as R25 to R27 give them. -/
theorem test_words_tile : reads [(0xC000_0000_0000_0000, .ten),
    (0xC100_0000_0000_0000, .tdis),
    (0xC200_99C0_0300_05CD, .tset 6 9 39 .e2m1 .e5m2 5),
    (0xC300_9000_0300_0000, .tgrant 6 9),
    (0xC400_0000_0300_0000, .tzero 6),
    (0xC580_09D5_0300_0000, .tldb .b 6 39 21),
    (0xC680_09C0_0300_0000, .tmma .b 6 39),
    (0xC780_09D5_0300_0000, .tmmas .b 6 39 21),
    (0xC880_09C0_0300_0000, .tcsclLd .b 6 39),
    (0xC880_0000_0310_0000, .tcsclOne .b 6),
    (0xC92C_99C0_031B_5000, .tslv 5 true true .rz true .e4m3 6 9 39),
    (0xCA28_09D5_0318_1000, .tsvl 5 true .rz .fp32 6 39 21),
    (0xCBA8_09D5_972C_5000, .tstr .b 5 .x .rz true .e5m2 6 39 21 37),
    (0xCC80_09C0_0300_0000, .tsave .b 6 39),
    (0xCD80_09C0_0300_0000, .tload .b 6 39)] = true := by decide +kernel

/-- The system words (15 R337): one word of each constructor, its fields placed as R25 to R27 give them. -/
theorem test_words_system : reads [(0xD000_0000_0000_A5C3, .trap 0xA5C3),
    (0xD100_0000_0000_0000, .eret),
    (0xD200_9000_0000_0A28, .getsr 9 0xA28),
    (0xD300_09C0_0000_0A28, .setsr 0xA28 39),
    (0xD400_09C0_0000_0000, .cacheClean 39),
    (0xD400_09C0_0010_0000, .cacheFlush 39),
    (0xD400_09C0_0020_0000, .cacheInv 39),
    (0xD500_09D5_0000_0000, .icinvRange 39 21),
    (0xD500_0000_0010_0000, .icinvAll),
    (0xD600_09D5_0000_0000, .xlinvVa 39 21),
    (0xD600_0000_0010_0000, .xlinvAll),
    (0xD700_99C0_0000_0000, .lease 9 39),
    (0xD800_0000_0000_0000, .haltWarp),
    (0xD800_09C0_0010_0000, .haltTeam 39)] = true := by decide +kernel


/-! ## Words and terms that are refused -/

/-- Each word is refused with the reason beside it, under a header that names the SETA flag only. -/
def refuses (rows : List (Nat × IllegalReason)) : Bool :=
  rows.all fun x => decodeWord { setA := true, setB := false } (BitVec.ofNat 64 x.1) == .error x.2

/-- One word for each reason that the decoder gives (R32): a marker, reserved opcodes, fields that must be zero or lie in a range, flag selects, element types, mask numbers and groups. -/
theorem test_refused_words : refuses [
    (0xF820_01FE_0000_0000, .marker), (0x0000_0000_0000_0000, .opcode), (0xFF00_0000_0000_0000, .opcode), (0x4300_0000_0000_0000, .opcode),
    (0x0500_208D_0000_0001, .operand), (0x0508_208D_0000_0000, .operand), (0x1500_D240_0000_0040, .operand), (0x1C00_0000_0060_0000, .operand),
    (0x4000_9040_0000_0068, .operand), (0x4000_9040_0000_0208, .operand), (0xB500_0000_0000_0000, .operand), (0xB500_0000_0190_0000, .operand),
    (0xC200_5100_0080_0399, .operand), (0xD000_0000_0001_0000, .operand), (0xA900_4040_0010_0000, .operand),
    (0x0540_208D_0000_0000, .flag), (0xA280_50C0_0080_0000, .flag), (0xA2C0_50C0_0080_0000, .flag), (0xB040_0187_0070_0000, .flag),
    (0x5000_0000_0008_0000, .elementType), (0xA000_A240_00B0_0000, .elementType), (0xC200_5100_0080_0049, .elementType),
    (0x4400_8000_0000_0000, .register), (0x9600_9200_0008_0000, .register)] = true := by decide +kernel

/-- Terms that no word gives: each fails the check it is written for, alone. -/
theorem test_ill_formed_terms : ([
    .setvl 9 1 .fp32 6 0, .mset .all 1 2, .vwid 0 false .bf16 .int32 1 2, .vsatn 0 false .fp32 .int8 1 2, .viota 0 false false .int32 1 3,
    .vcvt 0 false .rne true .fp32 .bf16 1 2, .vqnt false .int32 .e2m1 1 2 3, .vdqnt 0 false .rne .fp32 .bf16 1 2 3,
    .vredsum 0 .rz .int32 1 2, .vscan 0 false .rz .max .fp32 1 2, .strdef { count := 0, unit := true, store := false, depth := 0, et := .fp32 } 1 2 3,
    .atom .none .add .ar .rz .int32 5 6 7, .atom .none .ld .rel .rne .int32 5 6 0, .atom .none .st .rlx .rne .int32 1 6 7,
    .vatom .none 0 false .ld .rlx .rne .int32 5 6 7 8, .cstat .c 1 2 0, .tset 0 1 2 .bf16 .bf16 3, .tset 0 1 2 .e2m1 .e2m1 6,
    .tslv 0 false false .rne true .bf16 0 8 1, .tstr .none 0 .u .rne false .fp32 0 1 2 3] : List Instr).all
      (fun i => operandChecks i == { operand := false }) = true ∧
  ([.atom .a .swap .rlx .rne .int32 0 6 7, .cas .a .rlx .int32 0 1 2 3] : List Instr).all (fun i => operandChecks i == { flag := false }) = true ∧
  ([.setvl 9 1 .int64 0 0, .vadd 0 false .fp32 1 2 3, .vabs 0 false false .uint8 1 2, .vand 0 false .int64 1 2 3, .vmrg 0 .int64 1 2 3,
    .vwid 0 false .int32 .int16 1 2, .vsatn 0 false .int8 .int16 1 2, .vbcs 0 false .int64 1 2, .vfadd 0 false .rne .e4m3 1 2 3,
    .vcvt 0 false .rne false .int4 .fp32 1 2, .vcvt 0 false .rne false .fp32 .fp32 1 2, .vqnt false .fp32 .fp32 1 2 3, .vdqnt 0 false .rne .e2m1 .int8 1 2 3,
    .vperm 0 false .int64 1 2 3, .vredmax 0 .e4m3 1 2, .vextr .int64 1 2 3, .lds .none .e5m2 0 1 2 0, .sts .int4 0 1 2 0, .vld .none 0 false .int64 0 1 2 0,
    .vlds .none 0 false .int4 0 1 2 3 0, .vsts 0 .int64 0 1 2 3 0, .strdef { count := 0, unit := false, store := false, depth := 0, et := .int4 } 1 2 3,
    .atom .none .fadd .rlx .rne .int32 5 6 7, .atom .none .fmin .rlx .rne .bf16 5 6 7, .vatom .none 0 false .add .rlx .rne .int64 5 6 7 8, .cas .none .rlx .bf16 1 2 3 4,
    .vcas .none 0 false .rlx .int64 1 2 3 4, .cpytrain .none .fadd .int32 1 2 3 0, .tset 0 1 2 .bf16 .int8 0, .tslv 0 false false .rne false .uint8 0 8 1,
    .tsvl 0 false .rne .bf16 0 1 2, .tstr .none 0 .u .rne false .int64 0 1 2 0] : List Instr).all (fun i => operandChecks i == { elementType := false }) = true ∧
  ([.vtr8 0 false .fp32 4 8, .vtr8 0 false .fp32 8 4] : List Instr).all (fun i => operandChecks i == { register := false }) = true := by decide +kernel

/-- Clause headers are refused in the order of R32, each for its own reason; the last span ends exactly at a 4 KiB boundary. -/
theorem test_headers : headerCheck 0x1000 0x0600_2080_0000_0003 = some .target ∧ headerCheck 0x1000 0xF800_01FE_0000_0000 = some .count ∧
    headerCheck 0x1000 0xF820_019E_0000_0000 = some .flags ∧ headerCheck 0x1000 0xF820_0000_0000_0000 = some .flags ∧
    headerCheck 0x1000 0xF820_01FF_8000_0000 = some .hints ∧ headerCheck 0x1000 0xF820_01FE_7000_0000 = some .hints ∧
    headerCheck 0x1000 0xF820_01FE_0000_0001 = some .zero ∧ headerCheck 0xFF8 0xF820_01FE_0000_0000 = some .span ∧
    headerCheck 0xFF0 0xF820_01FE_0000_0000 = none := by decide +kernel


/-! ## Single steps, with values of the spec -/

/-- The warp of the next state. -/
def after (i : Instr) (s : State) : Warp :=
  match exec i s with
  | .next t => t.warp
  | .fault _ | .refused _ => {}

/-- 04 R81's example, first pass: `ADDI s2, s2, 3` through a step, from s2 = 0. -/
theorem test_step_addi :
    (match step (State.reset.withFetchWord 64 0x0600_2080_0000_0003) with
      | .next t => t.warp.readS 2#6 == 3#64
      | .fault _ | .refused _ => false) = true := by decide +kernel

/-- 07, Table 6: the two strips of the example, 150 and then 22 elements left of INT4 in blocks of 16. -/
theorem test_setvl_strips : (let w := after (.setvl 9#6 1#6 .int4 2#3 0#2) (withS base [(1#6, 150#64)]); (w.vl, w.vpad)) = (128, 0) ∧
    (let w := after (.setvl 9#6 1#6 .int4 2#3 0#2) (withS base [(1#6, 22#64)]); (w.vl, w.vpad)) = (32, 10) := by decide +kernel

/-- v4 of 08 R179's example: 2^24, 1, 1, 1. -/
def summands : State := withV ((strip 8#9).onWarp fun w => { w with vpad := 0 }) [(64, 0x4B800000#32), (65, 0x3F800000#32), (66, 0x3F800000#32), (67, 0x3F800000#32)]

/-- 08 R179's example: the tree of `VREDSUM` gives 0x4B80_0001, the running sum of `VSCAN` gives 0x4B80_0000 four times and sets NX. -/
theorem test_reduction_orders : (after (.vredsum 0#3 .rne .fp32 6#6 4#6) summands).readLane (6 * 16) = 0x4B800001#32 ∧
    ([0, 1, 2, 3].map fun k => (after (.vscan 0#3 false .rne .add .fp32 7#6 4#6) summands).readLane (7 * 16 + k)) = List.replicate 4 0x4B800000#32 ∧
    (after (.vscan 0#3 false .rne .add .fp32 7#6 4#6) summands).fpstat.toNat ≠ 0 := by decide +kernel

/-- v8 of 06's quantisation example: 1, −2.5, 0.3, 7, 0, 0.1, −12, 5 under E2M1 in blocks of 8. -/
def quantised : State := withV (base.onWarp fun w => { w with desc := 0x01D#9, vl := 8, vpad := 0 })
  [(128, 0x3F800000#32), (129, 0xC0200000#32), (130, 0x3E99999A#32), (131, 0x40E00000#32), (133, 0x3DCCCCCD#32), (134, 0xC1400000#32), (135, 0x40A00000#32)]

/-- 06's quantisation example: v4 lane 0 holds 0x4F00_60A1, v5's first scale is 0x0800. -/
theorem test_quantise : (after (.vqnt false .fp32 .e2m1 4#6 8#6 5#6) quantised).readLane 64 = 0x4F0060A1#32 ∧
    (after (.vqnt false .fp32 .e2m1 4#6 8#6 5#6) quantised).readLane 80 = 0x0800#32 := by decide +kernel

/-- A team of one tile slot of 256 KiB on a core of the class, under a `TCAP` value. -/
def granting (cls : CoreClass) (tcap : Word) : State :=
  { base with
    parts := base.parts.map fun p => { p with tcap := tcap }
    team := { base.team with site := { cls := cls }, tiles := true, launch := { base.team.launch with tiles := 1, accum := 262144 } } }

/-- 13 R296, rows 2 to 4 of the worked table: INT8 on an M-core; blocks of 64 against the E-core's strip of 32; the E-core cap of 16 by 16. -/
theorem test_tset_rows :
    (after (.tset 0#3 5#6 4#6 .int8 .int8 0#3) (withS (granting .m 0#64) [(4#6, 0x0032_0028_0014#64)])).readS 5#6 = 0x0000_0040_0028_0018#64 ∧
    (after (.tset 0#3 5#6 4#6 .e2m1 .e2m1 4#3) (withS (granting .e 0#64) [(4#6, 0x0100_0040_0040#64)])).readS 5#6 = 0x0000_0020_0040_0040#64 ∧
    (after (.tset 0#3 5#6 4#6 .bf16 .bf16 0#3) (withS (granting .e 0x0202_0000_0000#64) [(4#6, 0x0020_0020_0020#64)])).readS 5#6 = 0x0001_0020_0010_0010#64 := by decide +kernel

/-- FIPS 197, 5.1.1 and C.3: the substitution of 53, and the cipher of 00112233…FF under the key 000102…1F. -/
theorem test_aes : Aes.sub 0x53#8 = 0xED#8 ∧
    Aes.encryptWith (Aes.roundKeys ((List.range 32).map fun i => BitVec.ofNat 8 i)) ((List.range 16).map fun i => BitVec.ofNat 8 (17 * i)) =
      [0x8E#8, 0xA2#8, 0xB7#8, 0xCA#8, 0x51#8, 0x67#8, 0x45#8, 0xBF#8, 0xEA#8, 0xFC#8, 0x49#8, 0x90#8, 0x4B#8, 0x49#8, 0x60#8, 0x89#8] := by decide +kernel

/-- 13 R298, Table 5: the digits of an INT8 element are between −2 and 2 with weights 4^0 to 4^3, those of INT4 its bits, the highest weighted −8; a subnormal BF16 has a hidden digit of zero. -/
theorem test_digits : sliceWeights .int8 = [1, 4, 16, 64] ∧ sliceDigits .int8 0x7F#32 = [-1, 0, 0, 2] ∧ sliceDigits .int8 0x80#32 = [0, 0, 0, -2] ∧
    List.zip (sliceDigits .int4 0x9#32) (sliceWeights .int4) = [(1, -8), (0, 4), (0, 2), (1, 1)] ∧ (sliceDigits .bf16 0x0041#32).head? = some 0 ∧
    (sliceDigits .bf16 0x3F80#32).head? = some 1 ∧ digitsOf .fp16 = 11 ∧ digitsOf .e5m2 = 4 := by decide +kernel

/-- 15's example: `TRAP 1` sets CAUSE 13 and TRAPINFO 1. -/
theorem test_trap_word : (let w := after (.trap 1#16) base; (w.intrap, w.trapcause.toNat % 256, w.trapinfo)) = (true, 13, 1#64) := by decide +kernel

/-! ## The assembler and code objects (03, 19) -/

section Assembler
open Sys2Proof.Ghas

/-- Source text from its lines. -/
def sourceOf (ls : List String) : List Char := ls.flatMap fun l => l.toList ++ ['\n']

/-- The headers of the clauses of a source, and its reports. -/
def headersOf (ls : List String) : List Nat × List (Nat × Diag) :=
  ((firstPass (sourceOf ls)).placed.map (·.header.toBits.toNat), (assembleSource [] (sourceOf ls)).reports.map fun r => (r.line, r.code))

/-- 03 R64's example: the headers of its two explicit clauses, and W01 at the stale read. -/
theorem test_explicit_clauses : headersOf [" .clause seta=f0, cls=memory", " VLD.FP32 v4, [s5], flag=f0", " VFADD.FP32 v5, v4, v6", " .endc",
    " .clause wait=f0, cls=vfloat", " VFADD.FP32 v7, v4, v6", " .endc"] = ([0xF840001E40000000, 0xF82003FE30000000], [(1, .w02), (3, .w01)]) := by decide +kernel

/-- 03 R64's example left to the assembler: `.wait` ends the first clause, whose class is mixed. -/
theorem test_automatic_clauses : headersOf [" VLD.FP32 v4, [s5], flag=f0", " VFADD.FP32 v5, v4, v6", " .wait f0", " VFADD.FP32 v7, v4, v6"] =
    ([0xF840001E00000000, 0xF82003FE30000000], [(2, .w01)]) := by decide +kernel

/-- 03 R60's example: 72 bytes take a padding clause of six `NOP` words and one of one. -/
theorem test_padding : ((({ pos := 4096 - 72 } : Asm).fill 64 72).placed.map fun c => (c.offset, c.words.length)) = [(4024, 6), (4080, 1)] := by decide +kernel

/-- The codes that a source is reported with. -/
def codesOf (ls : List String) : List Diag := (assembleSource [] (sourceOf ls)).reports.map (·.code)

/-- 03 R64, Table 7: one source for each of E01 to E06, E10 to E12. -/
theorem test_diagnostics : codesOf [" MOVI s64, 1"] = [.e01] ∧ codesOf [" .clause", " RET", " NOP", " .endc"] = [.e02] ∧ codesOf [" .clause", " .endc"] = [.e03] ∧
    codesOf [" .clause seta=f1, setb=f1", " NOP", " .endc"] = [.e04] ∧ codesOf [" ADD s1, s2, s3, mz"] = [.e05] ∧ codesOf [" VFADD.INT32 v1, v2, v3"] = [.e06] ∧
    codesOf [" .byte 1"] = [.e10] ∧ codesOf [" MOVI s1, 1 / 0"] = [.e11] ∧ codesOf ["a: NOP", "a: NOP"] = [.e12] := by decide +kernel

/-- 03 R63, R64: an operator of Table 6 in another position is E01. -/
theorem test_operator_positions : codesOf ["x: LDS.INT32 s1, [s2, %lo3(x)]"] = [.e01] ∧ codesOf ["x: BR %cw(x)"] = [.e01] ∧
    codesOf ["x: NOP", " .equ y, %lo3(x)"] = [.e01] ∧ codesOf ["x: NOP", " .const", " .float %abs32(x)"] = [.e01] := by decide +kernel

/-- 03 R53, R60: the distance from a label to the word after the one that it names is 16 bytes, at a block end as elsewhere; 03 R420: the source of `MOV.U` is a uniform register. -/
theorem test_current_address : codesOf ["l: NOP", " .equ d, . - l", " MOVI s1, d"] = [] ∧
    (((firstPass (sourceOf ["l: NOP", " .equ d, . - l"])).syms.find? fun y => y.name == ['d']).map fun y => y.equ.map (·.2.off)) = some (some 16) ∧
    codesOf [" MOV.U v4, v5"] = [.e11] := by decide +kernel

/-- The source of the code object of 22 R427. -/
def linkedSource : List Char :=
  sourceOf [" .const", " .align 6", "ctab: .word 10, 20, 30, 40, 50, 60, 70", " .word 80, 90, 100, 110, 120, 130, 140", " .dword scale",
    " .text", " .global kmain", " .global khelp", " .global scale", " .kernel kmain", " .warp 16", " .vregs 16",
    "kmain: ADRC s11, %cw(ctab)", " ADDI s11, s11, %lo3(ctab)", " LDS.INT32 s1, [s11, 12]", " ADRC s9, %gotcw(scale)", " ADDI s9, s9, %gotlo3(scale)",
    " LDS.INT64 s10, [s9]", " CALLR s10", " STS.INT32 s1, [s2]", " TLEAVE", " .endk", " .kernel khelp", " .warp 16", " .vregs 16",
    "khelp: MOVI s9, %abs32(ctab)", " STS.INT32 s9, [s2]", " TLEAVE", " .endk", "scale: SHLI s1, s1, 1", " RET"]

/-- 8-byte words of a loaded section, at given offsets from an address. -/
def wordsAt (l : List LoadedSection) (at_ : Nat) (os : List Nat) : List Nat :=
  os.map fun o => ((l.find? fun x => x.addr ≤ at_ + o && at_ + o < x.addr + x.bytes.length).map fun x => headField x.bytes (at_ + o - x.addr) 8).getD 0

/-- What 22 R427 and R428 say of the object: no report; its sections; symbol 3; status 4 at B1; at B2 the relocated words, the GOT entry, and the entries of the descriptors. -/
def linkedAs (r : Assembly) : Bool :=
  r.reports == [] &&
  r.object.any fun bs =>
    let o := CodeObject.ofBytes bs
    (o.sections.map fun x => (x.type, x.addr, x.size)) ==
      [(1, 0, 0x90), (2, 0x10000, 0x40), (3, 0x20000, 0x100), (6, 0x30000, 0x10), (4, 0, 0x60), (5, 0, 0x17), (7, 0, 0x90)] &&
    o.imagesize == 0x40000 && o.prefbase == 0x400000 &&
    [0, 8, 16].map (fun k => headField (sectionBytes bs o.sections secSym) (72 + k) 8) == [0x0001000100000011, 0x78, 0x0000000100000018] &&
    o.status { base := 0x1200000000 } == 4 &&
    match loadObject bs { base := 0x80000000 } with
    | .ok l =>
      wordsAt l.sections 0x80000000 [0x08, 0x10, 0x20, 0x28, 0x30, 0x38, 0x60, 0x10038, 0x30000, 0x30008, 0x20000, 0x20080] ==
        [0x0400B00000002000, 0x0600B2C000000000, 0x0400900000006000, 0x0600924000000000, 0xA000A24000F00000, 0x2500028000000000, 0x0200900080010000,
         0x80000078, 0x80000078, 0x0000000300000002, 0x80000000, 0x80000058]
    | .error _ => false

/-- The linked program of 22, assembled and loaded. -/
theorem test_linked_program : linkedAs (assembleSource [] linkedSource) = true := by decide +kernel

/-- The object of 19 R404's example, as far as its relocations read it: `wtab` in CONST at image offset 0x1_FF44, `kern` in TEXT. -/
def exampleObject : CodeObject :=
  { bytes := [], prefbase := 0x400000, imagesize := 0x30000
    sections := [{ type := 1, off := 0, size := 0x10000, addr := 0x20000, odd := false }, { type := 2, off := 0, size := 0x10000, addr := 0x10000, odd := false }]
    symbols := [{ name := 0, kind := 2, sect := 1, exported := false, value := 0xFF44, gotIdx := 0, size := 4, odd := false },
      { name := 0, kind := 3, sect := 0, exported := false, value := 0, gotIdx := 0, size := 8, odd := false }]
    relocs := [] }

/-- A relocation of the example at its `ADRC`. -/
def exampleReloc (type sym : Nat) : Reloc := { offset := 0x20238, sym, wix := 1, type, addend := 0, odd := false }

/-- 19 R404's example: −94 and 4; the ABS64 value; ABS32 refused at B and accepted at the preferred base. -/
theorem test_example_relocations :
    let c : LoadContext := { base := 0x1200000000 }
    exampleObject.relocValue c (exampleReloc 3 0) = some (-94) ∧ exampleObject.relocValue c (exampleReloc 4 0) = some 4 ∧
      exampleObject.relocValue c (exampleReloc 1 1) = some 0x1200020000 ∧ exampleObject.refuses c (exampleReloc 2 1) = true ∧
      exampleObject.refuses { base := 0x400000 } (exampleReloc 2 1) = false ∧ exampleObject.relocValue { base := 0x400000 } (exampleReloc 2 1) = some 0x420000 := by decide +kernel

/-- CodeObjects' hypotheses: types 3 and 4 of one target at bases that are multiples of 8. -/
theorem witness_code_objects : ∃ (o : CodeObject) (c c' : LoadContext) (r r' : Reloc) (y : Symbol) (s : Nat), c ≠ c' ∧ c.base % 8 = 0 ∧ c'.base % 8 = 0 ∧
    (c.base + r.offset) % 8 = 0 ∧ r.type = 3 ∧ r'.type = 4 ∧ r'.sym = r.sym ∧ r'.addend = r.addend ∧ o.symbols[r.sym]? = some y ∧ o.addressOf c.base y = some s :=
  ⟨exampleObject, { base := 0x1200000000 }, { base := 0x400000 }, exampleReloc 3 0, exampleReloc 4 0, _, _, by decide, by decide, by decide, by decide, rfl, rfl, rfl, rfl, rfl, rfl⟩

/-- CodeObjects: an address in two entries maps through the first, an address at the end of an entry through none. -/
theorem witness_waymarks : let xs : List Waymark := [{ old := 0x10000, new := 0x90000, len := 0x10000 }, { old := 0x10000, new := 0x70000, len := 0x10000 }]
    throughWaymarks xs 0x10000 = some 0x90000 ∧ throughWaymarks xs 0x1FFFF = some 0x9FFFF ∧ throughWaymarks xs 0x20000 = none ∧ throughWaymarks xs 0xFFFF = none := by decide +kernel

/-- An instruction statement `NOP`. -/
def nopDraft : Option Draft := (draftOf 1 ['N', 'O', 'P'] [] none).toOption

/-- ClausesPlaced's hypotheses, and 03 R60's example: 24 bytes before a block end, an explicit clause of one word stands at the block start after a padding clause of two, an automatic one gains one `NOP` word. -/
theorem witness_clauses_placed : nopDraft.any (fun d =>
    let a : Asm := { pos := 4096 - 24, placed := [{ offset := 4048, header := { n := 2#3, wait := 0#12, setA := 15#4, setB := 15#4, yld := 0#2, cls := 1#3, zero := 0#28 }, words := [none, none] }] }
    let o : OpenClause := { auto := false, line := 1, words := [d] }
    a.pos % 8 == 0 && a.pos % 4096 != 4088 && o.words.length == 1 &&
    (a.place o).placed.map (fun c => (c.offset, c.words.length)) == [(4048, 2), (4072, 2), (4096, 1)] &&
    (a.place { o with auto := true }).placed.map (fun c => (c.offset, c.words.length)) == [(4048, 2), (4072, 2)]) = true := by decide +kernel

end Assembler

end Sys2Proof.Tests
end

section
/-! PROOF. The bytes of DRAM that stand in one block of the cipher: O58 fails, since a requester with another key pair sees a whole block change. -/
namespace Sys2Proof.Machine
open Sys2Proof

/-- A byte of DRAM that was written under another pair than the reader's, while no bale is compressed and no line is dirty: the reader decrypts the block that holds it (18_host_link_and_management.md R388). -/
theorem readByte_crossed {s : State} {pa kid : Nat} (hr : regionOf s pa = .dram) (hd : s.dirty = []) (hb : s.bales = [])
    (hk : pairOf s pa ≠ keyPair s kid) :
    readByte s pa kid = (crossed (pairOf s pa) (keyPair s kid) (pa / 16) (sideBlock s (pa / 16))).getD (pa % 16) 0#8 := by
  simp [readByte, hr, dirtyAt, hd, sideByte, formOf, hb, sideCell, hk]

/-- What masks the first block of DRAM under the key pairs 0 and 1, whose tweak keys are both zero. -/
def zeroMask : List Byte :=
  [220#8, 149#8, 192#8, 120#8, 162#8, 64#8, 137#8, 137#8, 173#8, 72#8, 162#8, 20#8, 146#8, 132#8, 32#8, 135#8]

theorem maskOf_pair_zero : Aes.maskOf 0 0 0 = zeroMask := by decide +kernel

theorem maskOf_pair_one : Aes.maskOf 1 0 0 = zeroMask := by
  have h : (1 : BitVec 512) >>> 256 = (0 : BitVec 512) >>> 256 := by decide +kernel
  have ht : Aes.tweakKeys 1 = Aes.tweakKeys 0 := by simp only [Aes.tweakKeys, h]
  rw [Aes.maskOf, ht]
  exact maskOf_pair_zero

/-- The first block of DRAM, written under pair 0, as pair 1 decrypts it, by its cipher text. -/
theorem crossed_zero_one {block cipher : List Byte} (h : Aes.encryptWith (Aes.dataKeys 0) (Aes.xor block zeroMask) = cipher) :
    crossed 0 1 0 block = Aes.xor (Aes.decryptWith (Aes.dataKeys 1) (Aes.xor (Aes.xor cipher zeroMask) zeroMask)) zeroMask := by
  simp only [crossed, if_neg (show (0 : BitVec 512) ≠ 1 by decide +kernel), Aes.encryptBlock, Aes.decryptBlock, Nat.zero_div, Nat.zero_mod,
    maskOf_pair_zero, maskOf_pair_one, h]

theorem encryptWith_emptyBlock : Aes.encryptWith (Aes.dataKeys 0) (Aes.xor (List.replicate 16 0#8) zeroMask) =
    [8#8, 195#8, 116#8, 132#8, 140#8, 34#8, 130#8, 51#8, 194#8, 179#8, 79#8, 51#8, 43#8, 210#8, 233#8, 211#8] := by decide +kernel

theorem encryptWith_writtenBlock : Aes.encryptWith (Aes.dataKeys 0) (Aes.xor (1#8 :: List.replicate 15 0#8) zeroMask) =
    [4#8, 123#8, 228#8, 204#8, 229#8, 15#8, 162#8, 202#8, 103#8, 210#8, 73#8, 77#8, 20#8, 254#8, 127#8, 190#8] := by decide +kernel

theorem crossed_emptyBlock : (crossed 0 1 0 (List.replicate 16 0#8)).getD 1 0#8 = 248#8 := by
  rw [crossed_zero_one encryptWith_emptyBlock]
  decide +kernel

theorem crossed_writtenBlock : (crossed 0 1 0 (1#8 :: List.replicate 15 0#8)).getD 1 0#8 = 108#8 := by
  rw [crossed_zero_one encryptWith_writtenBlock]
  decide +kernel

/-- The state after reset with a key pair in slot 1: every byte of DRAM stands under pair 0, which slot 0 holds. -/
def secondKeyState : State := { State.reset with mgmt := { State.reset.mgmt with keys := [(1, 1)] } }

/-- Byte 1 of DRAM, as a requester with key ID 1 reads it, before a byte is written beside it. -/
theorem readByte_before : readByte secondKeyState 1 1 = 248#8 := by
  rw [readByte_crossed (by decide +kernel) rfl rfl (by decide +kernel)]
  have hb : sideBlock secondKeyState 0 = List.replicate 16 0#8 := by decide +kernel
  have hp : pairOf secondKeyState 1 = 0 ∧ keyPair secondKeyState 1 = 1 := by decide +kernel
  rw [hp.1, hp.2, hb]
  exact crossed_emptyBlock

/-- The same byte after byte 0 was written under key ID 0. -/
theorem readByte_after : readByte (writeLE secondKeyState 0 0 1 1) 1 1 = 108#8 := by
  rw [readByte_crossed (by decide +kernel) rfl rfl (by decide +kernel)]
  have hb : sideBlock (writeLE secondKeyState 0 0 1 1) 0 = 1#8 :: List.replicate 15 0#8 := by decide +kernel
  have hp : pairOf (writeLE secondKeyState 0 0 1 1) 1 = 0 ∧ keyPair (writeLE secondKeyState 0 0 1 1) 1 = 1 := by decide +kernel
  rw [hp.1, hp.2, hb]
  exact crossed_writtenBlock

/-- Refutes O58: byte 0 of DRAM is written as 1 under key ID 0, and byte 1, which stands in the same block of sixteen bytes, reads as 0x6C instead of 0xF8 under key ID 1, whose pair is another. -/
theorem not_memoryReadsBack : ¬ Obligations.MemoryReadsBack := by
  unfold Obligations.MemoryReadsBack
  rintro ⟨-, reads, -⟩
  obtain ⟨-, -, kept⟩ := reads secondKeyState 0 0 1 1 (by decide +kernel) rfl
  have h := kept 1 1 (Or.inr (by decide))
  rw [readByte_before, readByte_after] at h
  exact absurd h (by decide)

end Sys2Proof.Machine
end

section
/-! PROOF. What the words of a warp keep, part one: scalar, integer, floating, permuting and mask words, and the accesses (04 to 09, 11). -/
namespace Sys2Proof.Machine
open Sys2Proof

/-! ## Combining what is kept -/

/-- A further update of neither the management unit nor memory. -/
theorem Keeps.more {s t u : State} (h : Keeps s t) (hm : u.mgmt = t.mgmt) (hu : u.mem = t.mem) : Keeps s u := h.trans (.same hm hu)

theorem keepsNext_ite {c : Prop} [Decidable c] {s : State} {r q : Result} (h : KeepsNext s r) (k : KeepsNext s q) : KeepsNext s (if c then r else q) := by
  split
  · exact h
  · exact k

/-- An event under a condition, or nothing. -/
theorem keepsNext_when {c : Prop} [Decidable c] {s t : State} (h : Keeps s t) : KeepsNext s (.next (if c then t else s)) :=
  keepsNext_of (.ite h (.refl s))

/-- A commit of outstanding results, and what follows it. -/
theorem keeps_commitOf {k : State → State} (h : ∀ s, Keeps s (k s)) (p : Outstanding → Bool) (s : State) : Keeps s (commitOf p s k) := by
  obtain ⟨q, hc⟩ | hc | ⟨r, t, hc⟩ := commitOf_cases p s k
  · rw [hc]; exact keeps_onWarp s _
  · rw [hc]; exact (keeps_warp s _).trans (h _)
  · rw [hc]; exact (keeps_warp s _).trans (keeps_enterTrap _ r t)

theorem keeps_exitPoint {k : State → State} (h : ∀ s, Keeps s (k s)) (s : State) : Keeps s (exitPoint s k) := keeps_commitOf h _ s

/-! ## Scalar words (04) -/

theorem keeps_binary (s : State) (d a b : BitVec 6) (f : (n : Nat) → BitVec n → BitVec n → BitVec n) : KeepsNext s (binary s d a b f) :=
  keeps_scalarWord s _ d _ _

theorem keeps_immediate (s : State) (d a : BitVec 6) (imm : BitVec 32) (f : (n : Nat) → BitVec n → BitVec n → BitVec n) :
    KeepsNext s (immediate s d a imm f) := keeps_scalarWord s _ d _ _

theorem keeps_unary (s : State) (d a : BitVec 6) (f : (n : Nat) → BitVec n → BitVec n) : KeepsNext s (unary s d a f) := keeps_scalarWord s _ d _ _

theorem keeps_shiftImm (s : State) (d a k : BitVec 6) (f : (n : Nat) → BitVec n → Nat → BitVec n) : KeepsNext s (shiftImm s d a k f) :=
  keeps_scalarWord s _ d _ _

theorem keeps_execMov (u : Bool) (d a : BitVec 6) (s : State) : KeepsNext s (execMov u d a s) :=
  keepsNext_ite (keepsNext_ite (keeps_laneWord s _ d _) (keeps_guarded (.refl s))) (keeps_unary s d a _)

theorem keeps_uniformScalar {s : State} {f : State → State} (regs : List (BitVec 6)) (h : Keeps s (f s)) : KeepsNext s (uniformScalar s regs f) :=
  keeps_guarded h

theorem keeps_dividerCheck (s : State) (fs : FSel) (d : BitVec 6) : Keeps s (dividerCheck s fs d) := by
  have hd : Keeps s { s with draws := s.draws + 2 } := .same rfl rfl
  unfold dividerCheck
  simp only
  split
  · exact (hd.trans (.ite (keeps_onCore _ _ _) (.refl _))).trans (keeps_trapHere _ _ _)
  all_goals exact ((hd.trans (keeps_onCore _ _ _)).trans (keeps_bear _ _ _)).trans (keeps_advance _)

theorem keeps_division (s : State) (fs : FSel) (d a b : BitVec 6) (f : (n : Nat) → BitVec n → BitVec n → BitVec n) :
    KeepsNext s (division s fs d a b f) := by
  unfold division
  refine keepsNext_ite (keepsNext_ite (keepsNext_ite ?_ (keeps_laneWord s _ d _)) (keeps_guarded (.refl s))) (keeps_guarded ?_)
  · exact keeps_guarded (keeps_dividerCheck s fs d)
  · exact .ite (keeps_dividerCheck s fs d) ((keeps_bear s fs _).trans (keeps_advance _))

/-! ## Words on vectors of integers, masks and lengths (07) -/

theorem keeps_vecWord (s : State) (mk : BitVec 3) (mz : Bool) (et : ET) (d : BitVec 6) (srcs : List (BitVec 6)) (f : State → Nat → Elem) :
    KeepsNext s (vecWord s mk mz et d srcs f) := keeps_vectorWord s _ 1 .none d _ mk mz f

theorem keeps_vBinary (s : State) (mk : BitVec 3) (mz : Bool) (et : ET) (d a b : BitVec 6) (f : Int → Int → Elem) :
    KeepsNext s (vBinary s mk mz et d a b f) := keeps_vecWord s mk mz et d _ _

theorem keeps_vBits (s : State) (mk : BitVec 3) (mz : Bool) (et : ET) (d a b : BitVec 6) (f : LaneWord → LaneWord → LaneWord) :
    KeepsNext s (vBits s mk mz et d a b f) := keeps_vecWord s mk mz et d _ _

theorem keeps_execVcmp (mk : BitVec 3) (mz : Bool) (cc : Cond) (et : ET) (d : BitVec 3) (a b : BitVec 6) (s : State) :
    KeepsNext s (execVcmp mk mz cc et d a b s) := keeps_guarded (keeps_tolled fun _ => .same rfl rfl)

theorem keeps_execVaddi (mk : BitVec 3) (mz : Bool) (d a : BitVec 6) (imm : BitVec 32) (s : State) : KeepsNext s (execVaddi mk mz d a imm s) :=
  keepsNext_ite (keeps_vecWord s mk mz _ d _ _) (keepsNext_of (keeps_illegal s _))

theorem keeps_maskWord (s : State) (d : BitVec 3) (f : Warp → BitVec 1024) : KeepsNext s (maskWord s d f) :=
  keeps_guarded (keeps_tolled fun _ => .same rfl rfl)

theorem keeps_maskCount (s : State) (d : BitVec 6) (f : Warp → Word) : KeepsNext s (maskCount s d f) :=
  keeps_guarded (keeps_tolled fun _ => .same rfl rfl)

theorem keeps_execSvloop (a : BitVec 6) (disp : BitVec 32) (s : State) : KeepsNext s (execSvloop a disp s) :=
  keeps_guarded (.ite (.same rfl rfl) (.same rfl rfl))

/-! ## Floating words (06) -/

theorem keeps_laneFloat (s : State) (checks : List (Bool × IllegalReason)) (toll : Nat) (d : BitVec 6) (f : State → Nat → Elem) :
    KeepsNext s (laneFloat s checks toll d f) := by
  refine keeps_guarded (keeps_tolled fun u => ?_)
  simp only
  split
  · exact keeps_trapHere u _ _
  · exact .same rfl rfl

theorem keeps_floatWord (s : State) (fs : FSel) (mk : BitVec 3) (mz : Bool) (et : ET) (toll : Nat) (d : BitVec 6) (srcs : List (BitVec 6))
    (f : List LaneWord → Elem) : KeepsNext s (floatWord s fs mk mz et toll d srcs f) :=
  keepsNext_ite (keeps_laneFloat s _ toll d _) (keeps_vectorWord s _ toll fs d _ mk mz _)

theorem keeps_execVfcmp (mk : BitVec 3) (mz : Bool) (cc : FCond) (et : ET) (d : BitVec 3) (a b : BitVec 6) (s : State) :
    KeepsNext s (execVfcmp mk mz cc et d a b s) := by
  refine keeps_guarded (keeps_tolled fun u => ?_)
  simp only
  split
  · exact .same rfl rfl
  · exact (keeps_onWarp u _).trans (keeps_trapHere _ _ _)

theorem keeps_quantise (s : State) (et : ET) (d sc : BitVec 6) (x : Nat → Exact) : Keeps s (quantise s et d sc x) := by
  unfold quantise
  simp only
  split
  · exact .same rfl rfl
  · split
    · exact (keeps_onWarp s _).trans (keeps_trapHere _ _ _)
    · exact keeps_onWarp s _

theorem keeps_execVqnt (tr : Bool) (src et : ET) (d a b : BitVec 6) (s : State) : KeepsNext s (execVqnt tr src et d a b s) :=
  keeps_guarded (keeps_tolled fun u => keeps_quantise u et d b _)

/-! ## Permutes, reductions and scans (08) -/

theorem keeps_permWord (s : State) (checks : List (Bool × IllegalReason)) (writes : State → List LaneWrite) : KeepsNext s (permWord s checks writes) :=
  keeps_guarded (keeps_tolled fun _ => .same rfl rfl)

theorem keeps_permute (s : State) (checks : List (Bool × IllegalReason)) (mk : BitVec 3) (mz : Bool) (et : ET) (d a : BitVec 6)
    (f : State → Nat → LaneWord) : KeepsNext s (permute s checks mk mz et d a f) := keeps_permWord s _ _

theorem keeps_reduceTo (s : State) (d : BitVec 6) (x : LaneWord) (status : BitVec 7) : Keeps s (reduceTo s d x status) := .same rfl rfl

theorem keeps_reduceWord {s : State} {k : State → State} (et : ET) (d a : BitVec 6) (h : ∀ s, Keeps s (k s)) : KeepsNext s (reduceWord s et d a k) :=
  keeps_guarded (keeps_tolled h)

theorem keeps_execVredsum (mk : BitVec 3) (md : Mode) (et : ET) (d a : BitVec 6) (s : State) : KeepsNext s (execVredsum mk md et d a s) := by
  refine keeps_reduceWord et d a fun u => .ite (keeps_reduceTo u _ _ _) ?_
  split
  · exact keeps_trapHere u _ _
  · exact keeps_reduceTo u _ _ _
  · exact keeps_reduceTo u _ _ _

theorem keeps_reduceExtreme (s : State) (mk : BitVec 3) (et : ET) (d a : BitVec 6) (largest : Bool) :
    KeepsNext s (reduceExtreme s mk et d a largest) := by
  refine keeps_reduceWord et d a fun u => ?_
  split
  · exact keeps_reduceTo u _ _ _
  · exact keeps_reduceTo u _ _ _

theorem keeps_onceClear {k : State → State} (h : ∀ s, Keeps s (k s)) (s : State) : Keeps s (onceClear s k) := .ite (keeps_parkOn s _) (h s)

theorem keeps_execVscan (mk : BitVec 3) (mz : Bool) (md : Mode) (op : ScanOp) (et : ET) (d a : BitVec 6) (s : State) :
    KeepsNext s (execVscan mk mz md op et d a s) := by
  refine keeps_guarded (keeps_tolled fun u => ?_)
  simp only
  split
  · exact .same rfl rfl
  · exact keeps_onceClear (fun v => (keeps_onWarp v _).trans (keeps_trapHere _ _ _)) u

theorem keeps_execVextr (et : ET) (d a b : BitVec 6) (s : State) : KeepsNext s (execVextr et d a b s) :=
  keeps_guarded (keeps_tolled fun _ => .same rfl rfl)

/-! ## What every access does (09) -/

theorem keeps_healLines (s : State) (e : Nat) (xs : List (Elt × Loc)) : Keeps s (healLines s e xs) := keeps_healCovered s _

theorem keeps_keepOks (s : State) (part : BitVec 4) (xs : List (Elt × Loc)) : Keeps s (keepOks s part xs) := keeps_keepPages s part _

theorem keeps_settle (s : State) (part : BitVec 4) (xs : List (Elt × Loc)) : Keeps s (settle s part xs) :=
  (keeps_keepOks s part xs).trans (keeps_draw _)

theorem keeps_parkAsked (s : State) (q : Ask) (oks : List (Elt × Loc)) (ms : List Miss) : Keeps s (parkAsked s q oks ms) :=
  (keeps_keepOks s _ oks).trans (keeps_parkOnMisses _ _ ms)

theorem keeps_parkOnLine (s : State) (q : Ask) (line : Nat) (oks : List (Elt × Loc)) : Keeps s (parkOnLine s q line oks) :=
  (keeps_settle s _ oks).trans (keeps_onWarp _ _)

theorem keeps_laneAccess {k : State → List (Elt × Loc) → State} (h : ∀ s oks, Keeps s (k s oks)) (s : State) (q : Ask) (xs : List Elt) :
    Keeps s (laneAccess s q xs k) := by
  refine keeps_tolled fun u => ?_
  simp only
  split
  · exact keeps_parkAsked u _ _ _
  · exact keeps_parkOnLine u _ _ _
  · exact ((h u _).trans (keeps_settle _ _ _)).trans (keeps_advance _)
  · exact (((h u _).trans (keeps_settle _ _ _)).trans (keeps_onWarp _ _)).trans (keeps_trapHere _ _ _)
  · exact (((h u _).trans (keeps_settle _ _ _)).trans (keeps_onWarp _ _)).trans (keeps_trapHere _ _ _)
  · exact keeps_advance u

theorem keeps_oneAccess {k : State → Elt × Loc → State} {onFault : State → Report → State} (h : ∀ s x, Keeps s (k s x))
    (hf : ∀ s r, Keeps s (onFault s r)) (s : State) (q : Ask) (va : Int) : Keeps s (oneAccess s q va k onFault) := by
  unfold oneAccess
  split
  · exact keeps_parkAsked s _ _ _
  · exact keeps_parkOnLine s _ _ _
  · exact ((h s _).trans (keeps_settle _ _ _)).more rfl rfl
  · exact hf s _
  · exact hf s _
  · exact keeps_advance s

theorem keeps_loadFault (fs : FSel) (d : BitVec 6) (s : State) (r : Report) : Keeps s (loadFault fs d s r) := by
  cases fs with
  | none => exact keeps_trapHere s r 0
  | a => exact (keeps_bear s _ _).more rfl rfl
  | b => exact (keeps_bear s _ _).more rfl rfl

theorem keeps_execLds (fs : FSel) (et : ET) (ch : BitVec 2) (d a : BitVec 6) (off : BitVec 16) (s : State) :
    KeepsNext s (execLds fs et ch d a off s) :=
  keepsNext_ite (keeps_guarded (keeps_laneAccess (fun u _ => keeps_onWarp u _) s _ _))
    (keeps_guarded (keeps_oneAccess (fun u _ => keeps_bear u fs _) (keeps_loadFault fs d) s _ _))

theorem keeps_execSts (et : ET) (ch : BitVec 2) (a b : BitVec 6) (off : BitVec 16) (s : State) : KeepsNext s (execSts et ch a b off s) :=
  keepsNext_ite (keeps_guarded (keeps_laneAccess (fun u oks => (keeps_storeElts _ _ oks u).trans (keeps_onWarp _ _)) s _ _))
    (keepsNext_of (keeps_oneAccess (fun u x => (keeps_storeElt u _ x _).trans (keeps_onWarp _ _)) (fun u r => keeps_trapHere u r 0) s _ _))

theorem keeps_gatherSome (s : State) (q : Ask) (todo : List Elt) (oks : List (Elt × Loc)) (ms : List Miss) :
    Keeps s (gatherSome s q todo oks ms) := .same rfl rfl

theorem keeps_vecLoad (s : State) (fs : FSel) (v : VecAccess) (f : LoadForm) : Keeps s (vecLoad s fs v f) := by
  refine keeps_tolled fun u => ?_
  simp only
  split
  · exact ((Keeps.ite (keeps_gatherSome u _ _ _ _) (.refl u)).trans (keeps_parkAsked _ _ _ _)).trans (keeps_onWarp _ _)
  · exact keeps_parkOnLine u _ _ _
  · split
    · exact ((keeps_bear u fs _).trans (keeps_settle _ _ _)).more rfl rfl
    · exact ((keeps_bear u fs _).trans (keeps_settle _ _ _)).more rfl rfl
    all_goals
      split
      · exact ((keeps_onWarp u _).trans (keeps_settle _ _ _)).trans (keeps_trapHere _ _ _)
      all_goals exact ((keeps_bear u _ _).trans (keeps_settle _ _ _)).more rfl rfl

theorem keeps_vecStore (s : State) (v : VecAccess) (b : BitVec 6) (mk : BitVec 3) : Keeps s (vecStore s v b mk) := by
  refine keeps_tolled fun u => ?_
  simp only
  split
  · exact (keeps_parkAsked u _ _ _).trans (keeps_onWarp _ _)
  · exact keeps_parkOnLine u _ _ _
  · rename_i oks stop _
    have stored := (((keeps_storeElts v.et.width (fun k => stored v.et ((vElem u v.et b k).setWidth 64)) oks u).trans
      (keeps_healLines _ v.et.width oks)).trans (keeps_onWarp _ fun w => dropAhead w (oks.map fun x => x.2.key))).trans (keeps_settle _ u.team.part oks)
    split
    · exact stored.more rfl rfl
    · exact stored.more rfl rfl
    · exact (stored.trans (keeps_onWarp _ _)).trans (keeps_trapHere _ _ _)
    · exact (stored.trans (keeps_onWarp _ _)).trans (keeps_trapHere _ _ _)

theorem keeps_execPref (ch : BitVec 2) (a : BitVec 6) (off : BitVec 16) (s : State) : KeepsNext s (execPref ch a off s) :=
  keeps_guarded (.ite (keeps_advance s) ((keeps_keepPages s _ _).more rfl rfl))

/-! ## Streams (09 R202 to R205) -/

theorem keeps_execStrdef (si : StreamImm) (d : BitVec 3) (a b : BitVec 6) (s : State) : KeepsNext s (execStrdef si d a b s) :=
  keeps_guarded (.same rfl rfl)

theorem keeps_aheadPlaced (s : State) (r : BitVec 3) (j : Nat) (q : Ask) (x : Elt × Loc) : Keeps s (aheadPlaced s r j q x) :=
  .ite (.refl s) (.ite (keeps_onWarp s _) (keeps_onWarp s _))

theorem keeps_runAheadAt (s : State) (r : BitVec 3) : Keeps s (runAheadAt s r) := by
  unfold runAheadAt
  refine .ite (.refl s) (.ite (keeps_draw s) ?_)
  split
  · exact (keeps_aheadPlaced s _ _ _ _).trans (keeps_settle _ _ _)
  · exact (Keeps.ite (keeps_keepPages s _ _) (.refl s)).trans (.ite (keeps_draw _) (.same rfl rfl))
  · exact (keeps_keepPages s _ _).trans (.ite (keeps_draw _) (.same rfl rfl))
  · exact keeps_draw s
  · exact keeps_draw s

theorem keeps_execRunAhead (w : WarpRef) (st : BitVec 3) (s : State) : KeepsNext s (execRunAhead w st s) :=
  keepsNext_of (keeps_withWarp (fun u => .ite (keeps_runAheadAt u st) (.refl u)) s w)

/-! ## Atomics and fences (11) -/

theorem keeps_atomAt (s : State) (e : Nat) (x : Elt × Loc) (f : Word → Option Word) : Keeps s (atomAt s e x f).1 := by
  unfold atomAt
  simp only
  split
  · exact (keeps_storeElt s e x _).more rfl rfl
  · exact .refl s

theorem keeps_atomMany (e : Nat) (f : Nat → Word → Option Word) (xs : List (Elt × Loc)) (s : State) : Keeps s (atomMany e f xs s).1 := by
  induction xs generalizing s with
  | nil => exact .refl s
  | cons x rest ih => exact (keeps_atomAt s e x _).trans (ih _)

theorem keeps_scalarAtomic (s : State) (fs : FSel) (acc : Access) (et : ET) (d a : BitVec 6) (regs : List (BitVec 6))
    (f : Word → Option Word) (lane : Nat → Word → Option Word) (writes : Bool) :
    KeepsNext s (scalarAtomic s fs acc et d a regs f lane writes) := by
  refine keepsNext_ite (keeps_guarded (keeps_laneAccess (fun u oks => ?_) s _ _)) (keeps_guarded ?_)
  · exact (keeps_atomMany et.width lane (shuffle u.draws oks) u).trans (.ite (keeps_onWarp _ _) (.refl _))
  · simp only
    split
    · exact keeps_parkAsked s _ _ _
    · exact keeps_parkOnLine s _ _ _
    · exact (((keeps_atomAt s et.width _ f).trans (.ite (keeps_bear _ fs _) (.refl _))).trans (keeps_settle _ _ _)).more rfl rfl
    · exact keeps_loadFault fs d s _
    · exact keeps_trapHere s _ 0
    · exact keeps_advance s
    · exact keeps_advance s

theorem keeps_vectorAtomic (s : State) (fs : FSel) (acc : Access) (v : VecAccess) (d : BitVec 6) (mk : BitVec 3) (mz : Bool)
    (f : Nat → Word → Option Word) (writes : Bool) : Keeps s (vectorAtomic s fs acc v d mk mz f writes) := by
  refine keeps_tolled fun u => ?_
  simp only
  split
  · exact keeps_parkAsked u _ _ _
  · exact keeps_parkOnLine u _ _ _
  · rename_i oks stop _
    have done := (keeps_atomMany v.et.width f oks u).trans (keeps_settle _ u.team.part oks)
    split
    · exact (done.trans (keeps_bear _ fs _)).more rfl rfl
    · exact (done.trans (keeps_bear _ fs _)).more rfl rfl
    · exact (done.trans (keeps_onWarp _ _)).trans (keeps_trapHere _ _ _)
    · split
      · exact (done.trans (keeps_onWarp _ _)).trans (keeps_trapHere _ _ _)
      all_goals exact (done.trans (keeps_bear _ _ _)).more rfl rfl

theorem keeps_execRedord (md : Mode) (d a b c : BitVec 6) (s : State) : KeepsNext s (execRedord md d a b c s) := by
  refine keeps_guarded ?_
  simp only
  split
  · exact keeps_parkAsked s _ _ _
  · exact keeps_parkOnLine s _ _ _
  · refine .ite ((keeps_settle s _ _).trans (keeps_onWarp _ _)) (.ite ?_ ((keeps_settle s _ _).more rfl rfl))
    exact (((keeps_storeElt s 64 _ _).trans (keeps_onWarp _ _)).trans (keeps_settle _ _ _)).more rfl rfl
  · exact keeps_trapHere s _ 0
  · exact keeps_trapHere s _ 0
  · exact keeps_advance s
  · exact keeps_advance s

theorem keeps_execFence (kind : FenceKind) (scope : Scope) (s : State) : KeepsNext s (execFence kind scope s) := by
  cases kind with
  | rel => exact keepsNext_of (keeps_advance s)
  | acq => exact keepsNext_of (.same rfl rfl)
  | full => exact keepsNext_of (.same rfl rfl)

end Sys2Proof.Machine
end

section
/-! PROOF. What the words of a warp keep, part two: fetching and the starts of clauses, the waybill, the issue of copies and the Porters' work on them (02, 07, 11, 12). -/
namespace Sys2Proof.Machine
open Sys2Proof

/-! ## Fetching (02 R29; 15 R342) -/

/-- Every state that a fetch gives is one that keeps. -/
def KeepsFetched {α : Type} (s : State) (f : Fetched α) : Prop := ∀ x t, f = .got x t → Keeps s t

theorem keepsFetched_got {α : Type} {s t : State} {x : α} (h : Keeps s t) : KeepsFetched s (.got x t) := by
  rintro y u ⟨⟩
  exact h

theorem keepsFetched_miss {α : Type} {s : State} {m : Miss} : KeepsFetched s (.miss m : Fetched α) := fun _ _ h => nomatch h
theorem keepsFetched_wait {α : Type} {s : State} {line : Nat} : KeepsFetched s (.wait line : Fetched α) := fun _ _ h => nomatch h
theorem keepsFetched_fault {α : Type} {s : State} {r : Report} {va : Int} : KeepsFetched s (.fault r va : Fetched α) := fun _ _ h => nomatch h

theorem keeps_keepLine (s : State) (part : BitVec 4) (line : Nat) (ws : List Word) : Keeps s (keepLine s part line ws) :=
  .ite (.refl s) (.same rfl rfl)

theorem keeps_fetchWord (s : State) (priv : Bool) (va : Int) : KeepsFetched s (fetchWord s priv va) := by
  unfold fetchWord
  simp only
  split
  · exact keepsFetched_fault
  · exact keepsFetched_fault
  · exact keepsFetched_wait
  · exact keepsFetched_miss
  · split
    · exact keepsFetched_got (.refl s)
    · split
      · exact keepsFetched_wait
      · split
        · exact keepsFetched_fault
        · exact keepsFetched_got ((keeps_settle s _ _).trans (keeps_keepLine _ _ _ _))

theorem keeps_fetchWords (priv : Bool) (n : Nat) (va : Int) (s : State) : KeepsFetched s (fetchWords priv n va s) := by
  induction n generalizing va s with
  | zero => exact keepsFetched_got (.refl s)
  | succ n ih =>
    unfold fetchWords
    split
    · exact keepsFetched_miss
    · exact keepsFetched_wait
    · exact keepsFetched_fault
    · rename_i w t ht
      split
      · exact keepsFetched_miss
      · exact keepsFetched_wait
      · exact keepsFetched_fault
      · rename_i ws u hu
        exact keepsFetched_got ((keeps_fetchWord s priv va w t ht).trans (ih _ t ws u hu))

theorem keeps_fetchAt (s : State) (priv : Bool) (va : Int) : KeepsFetched s (fetchAt s priv va) := by
  unfold fetchAt
  split
  · exact keepsFetched_fault
  · split
    · exact keepsFetched_fault
    · exact keeps_fetchWord s priv va

theorem keeps_fetchHeader (s : State) (priv : Bool) (va : Int) : KeepsFetched s (fetchHeader s priv va) := by
  unfold fetchHeader
  split
  · exact keepsFetched_miss
  · exact keepsFetched_wait
  · exact keepsFetched_fault
  · rename_i w t ht
    split
    · exact keepsFetched_fault
    · exact keepsFetched_got (keeps_fetchAt s priv va w t ht)

theorem keeps_fetchClause (s : State) (priv : Bool) (va : Int) : KeepsFetched s (fetchClause s priv va) := by
  unfold fetchClause
  split
  · exact keepsFetched_miss
  · exact keepsFetched_wait
  · exact keepsFetched_fault
  · rename_i h t ht
    split
    · exact keepsFetched_miss
    · exact keepsFetched_wait
    · exact keepsFetched_fault
    · rename_i ws u hu
      split
      · exact keepsFetched_fault
      · exact keepsFetched_got ((keeps_fetchHeader s priv va h t ht).trans (keeps_fetchWords priv _ _ t ws u hu))

/-! ## Starts of clauses (04 R67) -/

theorem keeps_startFault (s : State) (o : Outstanding) : Keeps s (startFault s o) := by
  unfold startFault
  split
  · exact keeps_takeTrap s _ _ _
  · exact .refl s

theorem keeps_startFetched (s : State) (h : Word) (ws : List Word) : Keeps s (startFetched s h ws) := by
  refine .ite (keeps_onWarp s _) (.ite (keeps_parkOn s _) ?_)
  split
  · exact keeps_warp s _
  · exact keeps_startFault s _

theorem keeps_startNext (s : State) : Keeps s (startNext s) := by
  unfold startNext
  simp only
  split
  · exact keeps_parkOnMisses s _ _
  · exact keeps_parkOn s _
  · exact keeps_takeTrap s _ _ _
  · rename_i h ws t ht
    exact (keeps_fetchClause s _ _ _ t ht).trans (keeps_startFetched t h ws)

theorem keeps_startClause (s : State) : Keeps s (startClause s) := by
  refine .ite (keeps_parkOn s _) ?_
  split
  · exact (keeps_warp s _).trans (keeps_startNext _)
  · exact keeps_startFault s _

theorem keeps_execClauseStart (s : State) : KeepsNext s (execClauseStart s) := keepsNext_when (keeps_startClause s)

/-! ## The waybill (07 R151 to R157) -/

theorem keeps_drainWaybill (fuel : Nat) (s : State) (p : BitVec 4) : Keeps s (drainWaybill fuel s p) := by
  induction fuel generalizing s with
  | zero => exact .refl s
  | succ n ih =>
    unfold drainWaybill
    simp only
    split
    · exact .refl s
    · refine .ite (.refl s) (.ite (keeps_interrupt s p 8) (.ite (.refl s) ?_))
      split
      · exact ((keeps_metLines s _ _ _).trans (keeps_onPart _ p _)).trans (keeps_recordError _ _ _)
      · rename_i h
        exact (keeps_physWrite h).trans ((keeps_onPart _ p _).trans (ih _))

theorem keeps_logEntry (s : State) (e : WaybillEntry) : Keeps s (logEntry s e) :=
  .ite ((keeps_onPart s _ _).trans (keeps_drainWaybill _ _ _)) (.refl s)

theorem keeps_logWarp (s : State) (event slot : Nat) (value : Word) : Keeps s (logWarp s event slot value) :=
  ((keeps_onWarp s _).trans (keeps_logEntry _ _)).trans (.ite (keeps_parkOn _ _) (.refl _))

theorem keeps_followFailed (s : State) (pa : Nat) : Keeps s (followFailed s pa) := (keeps_metLines s pa 0 32).trans (keeps_recordError _ _ _)

theorem keeps_followed {k : State → Word → State} (h : ∀ s v, Keeps s (k s v)) (s : State) (event : Nat) (own : Word)
    (refused : Nat → Option (BitVec 8)) : Keeps s (followed s event own refused k) := by
  refine .ite ?_ (h s own)
  split
  · split
    · exact keeps_trapHere s _ _
    · exact h s _
  · exact keeps_trapHere s _ _
  · exact (keeps_followFailed s _).trans (keeps_trapHere _ _ _)
  · exact keeps_parkOn s _

/-! ## The issue of copies (12 R256 to R261) -/

theorem keeps_issueCopy (s : State) (f : CopyForm) : Keeps s (issueCopy s f) := by
  unfold issueCopy
  exact .ite (.same rfl rfl) (.same rfl rfl)

theorem keeps_copyIssue (s : State) (f : CopyForm) : Keeps s (copyIssue s f) := by
  unfold copyIssue
  split
  · exact keeps_trapHere s _ _
  · exact .ite (keeps_parkOn s _) (keeps_tolled fun u => keeps_issueCopy u f)

theorem keeps_cpybox (s : State) (fs : FSel) (kind : CopyKind) (d a b c : BitVec 6) (ch : BitVec 4) : KeepsNext s (cpybox s fs kind d a b c ch) :=
  keeps_guarded (keeps_copyIssue s _)

theorem keeps_operandCopy (s : State) (fs : FSel) (isA : Bool) (t : BitVec 3) (d a b : BitVec 6) (ch : BitVec 4) :
    KeepsNext s (operandCopy s fs isA t d a b ch) := keeps_guarded (.ite (keeps_trapHere s _ _) (keeps_copyIssue s _))

theorem keeps_execCpytrain (fs : FSel) (op : TrainOp) (et : ET) (d a b : BitVec 6) (ch : BitVec 4) (s : State) :
    KeepsNext s (execCpytrain fs op et d a b ch s) := keeps_guarded (keeps_copyIssue s _)

theorem keeps_reportError (s : State) (ch : BitVec 4) (e : ChannelError) : Keeps s (reportError s ch e) :=
  (Keeps.ite (keeps_onTeam s _) (.refl s)).trans (keeps_trapHere _ _ _)

theorem keeps_execCwait (a : BitVec 6) (ch : BitVec 4) (s : State) : KeepsNext s (execCwait a ch s) := by
  refine keeps_guarded (keeps_preemptPoint (fun u => ?_) s false)
  refine .ite (.same rfl rfl) ?_
  split
  · exact keeps_reportError u ch _
  · exact keeps_parkOn u _

theorem keeps_execCstat (sel : CstatSel) (d a : BitVec 6) (ch : BitVec 4) (s : State) : KeepsNext s (execCstat sel d a ch s) := by
  refine keeps_guarded ?_
  cases sel with
  | id =>
    simp only
    split
    · exact keeps_reportError s ch _
    · exact .same rfl rfl
  | c => exact .same rfl rfl
  | next => exact .same rfl rfl
  | err => exact .same rfl rfl

theorem keeps_execCstatClr (d : BitVec 6) (ch : BitVec 4) (s : State) : KeepsNext s (execCstatClr d ch s) := keeps_guarded (.same rfl rfl)

/-! ## The Porters (12 R262 to R278) -/

theorem keeps_setCopy (s : State) (c : Copy) : Keeps s (setCopy s c) := .same rfl rfl

theorem keeps_writeValues (c : Copy) (rs : List Ready) (s : State) : Keeps s (writeValues c rs s) := by
  induction rs generalizing s with
  | nil => exact .refl s
  | cons r rest ih => exact (Keeps.foldl (f := fun s x => storeElt s r.et.width x (c.value r)) (fun s x => keeps_storeElt s _ x _) r.dst s).trans (ih _)

theorem keeps_writeBale (c : Copy) (rs : List Ready) (s : State) (n : Nat) : Keeps s (writeBale c rs s n) := by
  unfold writeBale
  simp only
  split
  · exact .refl s
  · exact keeps_wholeWrite s n _ _ _

theorem keeps_performElts (c : Copy) (rs : List Ready) (s : State) : Keeps s (performElts c rs s) :=
  (Keeps.foldl (keeps_writeBale c rs) (wholeBales s rs) s).trans (keeps_writeValues c _ _)

theorem keeps_drainRings (s : State) (p : BitVec 4) : Keeps s (drainRings s p) :=
  ((keeps_drainManifests _ s p).trans (keeps_drainWaybill _ _ p)).trans (keeps_drainErrors _ _ p)

theorem keeps_drainHeld (s : State) : Keeps s (drainHeld s) := Keeps.foldl (fun u p => .ite (.refl u) (keeps_drainRings u p)) _ s

theorem keeps_releaseLines (s : State) (r : CopyRef) (lines : List Nat) : Keeps s (releaseLines s r lines) :=
  (keeps_setPresence s _).trans (keeps_drainHeld _)

theorem keeps_failCopy (s : State) (c : Copy) (k : Nat) (r : Report) : Keeps s (failCopy s c k r) :=
  (((keeps_metFor s c.part r).trans (keeps_withTeam (fun u => keeps_onTeam u _) _ _)).trans (keeps_releaseLines _ _ _)).trans (keeps_setCopy _ _)

theorem keeps_parkCopy (s : State) (c : Copy) (places : List (Elt × Loc)) (ms : List Miss) : Keeps s (parkCopy s c places ms) :=
  (((keeps_keepOks s _ places).trans (keeps_keepPages _ _ _)).trans (keeps_postManifest _ _ _)).trans (keeps_setCopy _ _)

theorem keeps_startSegment (s : State) (c : Copy) (p : SegmentProbe) : Keeps s (startSegment s c p).1 :=
  (keeps_clearPresence s _).trans (keeps_keepOks _ _ _)

theorem keeps_endStep (s : State) (c : Copy) (p : SegmentProbe) (hi : Nat) : Keeps s (endStep s c p hi) := by
  unfold endStep
  simp only
  split
  · exact .ite (keeps_setCopy s _) (keeps_failCopy s _ _ _)
  · exact keeps_setCopy s _

theorem keeps_boxSegment (s : State) (c : Copy) : Keeps s (boxSegment s c) := by
  unfold boxSegment
  refine .ite (.refl s) (.ite (keeps_parkCopy s c _ _) ?_)
  exact ((((keeps_startSegment s c _).trans (keeps_performElts _ _ _)).trans (keeps_healCovered _ _)).trans (keeps_draw _)).trans (keeps_endStep _ _ _ _)

theorem keeps_sortSegment (s : State) (c : Copy) (op : TrainOp) (et : ET) : Keeps s (sortSegment s c op et) := by
  unfold sortSegment
  generalize sortEntries s op et (c.total - c.vstart) { copy := c, next := c.vstart } = x
  exact .ite (keeps_setCopy s _) (.ite (keeps_parkCopy s x.copy _ _) ((keeps_keepOks s c.part x.places).more rfl rfl))

theorem keeps_trainSegment (s : State) (c : Copy) (op : TrainOp) (et : ET) : Keeps s (trainSegment s c op et) := by
  refine .ite (.refl s) ?_
  split
  · exact keeps_failCopy s c _ _
  · exact .ite (keeps_setCopy s _) (keeps_sortSegment s c op et)

theorem keeps_execCopySegment (c : CopyRef) (s : State) : KeepsNext s (execCopySegment c s) := by
  refine keepsNext_of ?_
  split
  · refine .ite (.refl s) ?_
    split
    · exact keeps_trainSegment s _ _ _
    all_goals exact keeps_boxSegment s _
  · exact .refl s

theorem keeps_deliverEntry (op : TrainOp) (et : ET) (s : State) (x : TrainItem) : Keeps s (deliverEntry op et s x) := keeps_storeElt s _ _ _

theorem keeps_deliverTrain (s : State) (c : Copy) (op : TrainOp) (et : ET) (dest : Nat) : Keeps s (deliverTrain s c op et dest) := by
  unfold deliverTrain
  simp only
  split
  · exact keeps_setCopy s _
  · exact (Keeps.foldl (keeps_deliverEntry op et) _ s).trans (keeps_setCopy _ _)

theorem keeps_execTrainDelivery (c : CopyRef) (s : State) : KeepsNext s (execTrainDelivery c s) := by
  refine keepsNext_of ?_
  split
  · exact .refl s
  · split
    iterate 4 exact .refl s
    split
    · exact .refl s
    · exact keeps_deliverTrain s _ _ _ _

theorem keeps_execLineArrival (line : Nat) (s : State) : KeepsNext s (execLineArrival line s) := by
  refine keepsNext_of ?_
  split
  · exact .refl s
  · exact (keeps_releaseLines s _ _).trans (keeps_setCopy _ _)

theorem keeps_execCopyComplete (c : CopyRef) (s : State) : KeepsNext s (execCopyComplete c s) := by
  refine keepsNext_of ?_
  split
  · exact .refl s
  · exact .ite ((keeps_withTeam (fun u => (keeps_onTeam u _).trans (keeps_onMates _ _)) s c.team).more rfl rfl) (.refl s)

theorem keeps_reissue (s : State) (part : BitVec 4) (m : Manifest) : Keeps s (reissue s part m) := by
  unfold reissue
  simp only
  split
  · exact (keeps_onPart s part _).trans (keeps_withWarp (fun u => .ite (keeps_onWarp u _) (.refl u)) _ _)
  · split
    · exact (keeps_onPart s part _).trans (keeps_setCopy _ _)
    · exact keeps_onPart s part _
  · exact keeps_onPart s part _
  · exact keeps_onPart s part _

theorem keeps_execFaultReissue (part : BitVec 4) (mid : BitVec 32) (s : State) : KeepsNext s (execFaultReissue part mid s) := by
  refine keepsNext_of ?_
  split
  · exact keeps_reissue s part _
  · exact .refl s

theorem keeps_execCopyResume (c : CopyRef) (s : State) : KeepsNext s (execCopyResume c s) := by
  refine keepsNext_of ?_
  split
  · exact .refl s
  · split
    · exact keeps_reissue s _ _
    · exact .refl s

end Sys2Proof.Machine
end

section
/-! PROOF. What the words of a warp keep, part three: barriers, membership and matrix words (05, 13, 14). -/
namespace Sys2Proof.Machine
open Sys2Proof

/-! ## Barriers and membership (05) -/

theorem keeps_barEvent (s : State) (b : Nat) (f : Barrier → Barrier) : Keeps s (barEvent s b f) := keeps_onTeam s _

theorem keeps_leaveBar (s : State) (b : Nat) : Keeps s (leaveBar s b) := .ite (.same rfl rfl) (.refl s)

theorem keeps_joinBar (s : State) (b : Nat) : Keeps s (joinBar s b) := .same rfl rfl

theorem keeps_arrive (s : State) (b : Nat) : Keeps s (arrive s b) := .same rfl rfl

theorem keeps_fireMilestone (s : State) (m : Milestone) : Keeps s (fireMilestone s m) := .same rfl rfl

theorem keeps_waymarksMet (s : State) (part : BitVec 4) : Keeps s (waymarksMet s part) :=
  .ite (.refl s) (Keeps.foldl (fun u _ => .ite (keeps_metLines u _ 0 32) (.refl u)) _ s)

theorem keeps_attachWarp (s : State) : Keeps s (attachWarp s) :=
  (((keeps_logEntry s _).trans (keeps_waymarksMet _ _)).trans (keeps_onTeam _ _)).trans (Keeps.foldl (fun u b => keeps_barEvent u b id) _ _)

theorem keeps_attachMany (n : Nat) (s : State) : Keeps s (attachMany n s) := by
  induction n generalizing s with
  | zero => exact .refl s
  | succ n ih => exact (keeps_attachWarp s).trans (ih _)

theorem keeps_returnLease (s : State) : Keeps s (returnLease s) := .same rfl rfl

/-- Another warp and another state of its team in focus. -/
theorem keeps_warpTeam (s : State) (w : Warp) (x : Team) : Keeps s { s with warp := w, team := x } := .same rfl rfl

theorem keeps_leaveTeam (s : State) (shrink : Bool) : Keeps s (leaveTeam s shrink) := by
  have left := ((keeps_returnLease s).trans (Keeps.foldl keeps_leaveBar (List.range 16) _)).trans (keeps_onTeam _ fun t => t.orphan s.warp.idx)
  unfold leaveTeam
  exact (left.trans (keeps_logEntry _ _)).trans (keeps_warpTeam _ _ _)

theorem keeps_departTeam (s : State) (shrink : Bool) : Keeps s (departTeam s shrink) := .ite (keeps_parkOn s _) (keeps_leaveTeam s shrink)

theorem keeps_barrierWord {s : State} {k : State → State} (b : BitVec 4) (h : Keeps s (k s)) : KeepsNext s (barrierWord s b k) :=
  keeps_guarded (.ite h (keeps_trapHere s _ _))

theorem keeps_execBararv (b : BitVec 4) (s : State) : KeepsNext s (execBararv b s) :=
  keeps_barrierWord b (.ite (keeps_parkOn s _) ((keeps_arrive s _).trans (keeps_advance _)))

theorem keeps_barReturn (s : State) (b : Nat) : Keeps s (barReturn s b) := .same rfl rfl

theorem keeps_barWaitFor (s : State) (b : Nat) (point : Bool) : Keeps s (barWaitFor s b point) := by
  unfold barWaitFor
  simp only
  split
  · exact .ite (keeps_parkOn s _) (keeps_barReturn s b)
  · exact keeps_barReturn s b

theorem keeps_execBarwait (b : BitVec 4) (s : State) : KeepsNext s (execBarwait b s) :=
  keeps_barrierWord b (keeps_preemptPoint (fun u => keeps_barWaitFor u b.toNat true) s false)

theorem keeps_execBarsync (b : BitVec 4) (s : State) : KeepsNext s (execBarsync b s) :=
  keeps_barrierWord b (.ite (keeps_barWaitFor s _ _) (.ite (keeps_parkOn s _) ((keeps_arrive s _).trans (keeps_barWaitFor _ _ _))))

theorem keeps_setMember (imm : BitVec 16) (s : State) (b : Nat) : Keeps s (setMember imm s b) :=
  .ite (keeps_joinBar s b) (.ite (keeps_leaveBar s b) (.refl s))

theorem keeps_execBarmask (imm : BitVec 16) (s : State) : KeepsNext s (execBarmask imm s) :=
  keeps_uniformWord (Keeps.foldl (keeps_setMember imm) _ s)

/-- A point at which a pre-emption or a shrink may be taken. -/
theorem keeps_grantPoint {k : State → State} (h : ∀ s, Keeps s (k s)) (s : State) : Keeps s (grantPoint s k) :=
  keeps_preemptPoint (fun u => .ite (keeps_exitPoint (fun v => keeps_departTeam v true) u) (h u)) s true

theorem keeps_execTgrow (d a : BitVec 6) (s : State) : KeepsNext s (execTgrow d a s) :=
  keeps_guarded (keeps_followed (fun u g => (((keeps_attachMany g.toNat u).trans (keeps_onWarp _ _)).trans (keeps_advance _)).trans (keeps_logWarp _ 6 0 g)) s _ _ _)

theorem keeps_execTleave (s : State) : KeepsNext s (execTleave s) := keeps_guarded (keeps_exitPoint (fun u => keeps_departTeam u false) s)

theorem keeps_takeStrip (s : State) (d : BitVec 6) (desc : BitVec 9) (vl n : Nat) : Keeps s (takeStrip s d desc vl n) := keeps_onWarp s _

theorem keeps_execSetvl (d a : BitVec 6) (et : ET) (blk : BitVec 3) (grp : BitVec 2) (s : State) : KeepsNext s (execSetvl d a et blk grp s) := by
  unfold execSetvl
  extract_lets b g
  refine keeps_guarded ?_
  refine keeps_grantPoint (fun u => ?_) s
  exact keeps_followed (fun v _ => ((keeps_takeStrip v _ _ _ _).trans (keeps_advance _)).trans (keeps_logWarp _ _ _ _)) u _ _ _

/-! ## Slots of the matrix engines (13) -/

theorem keeps_onIdleSlot {s : State} {k : State → State} (t : BitVec 3) (h : Keeps s (k s)) : Keeps s (onIdleSlot s t k) := .ite (keeps_parkOn s _) h

theorem keeps_whenEnabled {s : State} {k : State → State} (t : BitVec 3) (h : Keeps s (k s)) : Keeps s (whenEnabled s t k) :=
  .ite h (keeps_trapHere s _ _)

theorem keeps_freeResident (s : State) (tid : Nat) (cs : List CoreRef) : Keeps s (freeResident s tid cs) :=
  Keeps.foldl (fun u c => keeps_onCore u c _) cs s

theorem keeps_execTdis (s : State) : KeepsNext s (execTdis s) := by
  refine keeps_guarded ?_
  split
  · exact keeps_parkOn s _
  · exact ((keeps_onTeam s _).trans (keeps_freeResident _ _ _)).trans (keeps_advance _)

theorem keeps_applyGrant (s : State) (t : BitVec 3) (d : BitVec 6) (g : Grant) : Keeps s (applyGrant s t d g) :=
  (Keeps.same rfl rfl : Keeps s (((s.onTeam fun x => x.setSlot t ((x.slot t).grantTo g)).onWarp fun w => w.writeS d g.word).advance)).trans
    (keeps_logWarp _ 3 t.toNat g.word)

theorem keeps_execTset (t : BitVec 3) (d a : BitVec 6) (aty bty : ET) (blk : BitVec 3) (s : State) : KeepsNext s (execTset t d a aty bty blk s) :=
  keeps_guarded (keeps_commitPoint (fun u => keeps_whenEnabled t (keeps_grantPoint (fun v =>
    keeps_onIdleSlot t (keeps_followed (fun w _ => keeps_applyGrant w t d _) v _ _ _)) u)) s)

theorem keeps_execTgrant (t : BitVec 3) (d : BitVec 6) (s : State) : KeepsNext s (execTgrant t d s) :=
  keeps_guarded (keeps_whenEnabled t (.same rfl rfl))

theorem keeps_matrixWord {s : State} {k : State → State} (checks : List (Bool × IllegalReason)) (t : BitVec 3) (toll : State → Nat)
    (h : ∀ s, Keeps s (k s)) : KeepsNext s (matrixWord s checks t toll k) := keeps_guarded (keeps_whenEnabled t (keeps_tolled h))

theorem keeps_onSlot (s : State) (t : BitVec 3) (f : Slot → Slot) : Keeps s (s.onSlot t f) := .same rfl rfl

theorem keeps_record (s : State) (fs : FSel) (o : Outstanding) (r : Report) (vstart : Nat) : Keeps s (s.record fs o r vstart) :=
  (keeps_met s r).trans (keeps_onWarp _ _)

theorem keeps_failSlot (s : State) (fs : FSel) (t : BitVec 3) (r : Report) : Keeps s (failSlot s fs t r) :=
  ((keeps_onSlot s t _).trans (keeps_record _ fs noResult _ 0)).more rfl rfl

theorem keeps_execTzero (t : BitVec 3) (s : State) : KeepsNext s (execTzero t s) := by
  refine keeps_matrixWord _ t _ fun u => keeps_onIdleSlot t ?_
  split
  · exact keeps_advance u
  · exact .same rfl rfl

theorem keeps_execTcsclOne (fs : FSel) (t : BitVec 3) (s : State) : KeepsNext s (execTcsclOne fs t s) := by
  refine keeps_matrixWord _ t _ fun u => keeps_onIdleSlot t ?_
  split
  · exact keeps_advance u
  · exact ((keeps_onSlot u t _).trans (keeps_bear _ fs noResult)).trans (keeps_advance _)

theorem keeps_execTcsclLd (fs : FSel) (t : BitVec 3) (a : BitVec 6) (s : State) : KeepsNext s (execTcsclLd fs t a s) := by
  refine keeps_matrixWord _ t _ fun u => keeps_onIdleSlot t ?_
  split
  · exact keeps_advance u
  · simp only
    split
    · exact (keeps_keepOks u _ _).trans (keeps_trapHere _ _ _)
    · split
      · exact keeps_parkAsked u _ _ _
      · exact keeps_parkOnLine u _ _ _
      · exact keeps_trapHere u _ _
      · exact (Keeps.same rfl rfl : Keeps u u.fromStart).trans (keeps_failSlot _ fs t _)
      · exact (((keeps_settle u _ _).trans (keeps_onSlot _ t _)).trans (keeps_bear _ fs noResult)).more rfl rfl

/-! ## Matrix operations (14) -/

theorem keeps_withBoxes {s : State} {k : State → State} (checked : List Tablet) (h : Keeps s (k s)) : Keeps s (withBoxes s checked k) := by
  unfold withBoxes
  split
  · exact keeps_trapHere s _ 0
  · exact h

theorem keeps_makeResident (s : State) (c : CoreRef) (t : BitVec 3) (g : Grant) (v : List LaneWord × List LaneWord) :
    Keeps s (makeResident s c t g v) := keeps_onCore s c _

theorem keeps_multiplied (s : State) (t : BitVec 3) (g : Grant) (f : Option Factors) : Keeps s (multiplied s t g f).1 := .same rfl rfl

theorem keeps_resided (s : State) (o : LateOp) (f : Option Factors) : Keeps s (resided s o f) := by
  unfold resided
  split
  · exact .ite (keeps_makeResident s _ _ _ _) (.refl s)
  · exact .refl s

theorem keeps_effect (s : State) (o : LateOp) (m : Bytes) : Keeps s (o.effect s m).1 := by
  unfold LateOp.effect
  split
  · exact .refl s
  · split
    · exact ((keeps_onSlot s _ _).trans (keeps_met _ _)).trans (keeps_draw _)
    · split
      · exact .ite (keeps_makeResident s _ _ _ _) (.refl s)
      · exact (keeps_resided s o _).trans (keeps_multiplied _ _ _ _)

theorem keeps_performNow (s : State) (fs : FSel) (o : LateOp) : Keeps s (performNow s fs o) := by
  have he := keeps_effect s o (memoryNow s)
  unfold performNow
  split
  all_goals
    rename_i h
    rw [h] at he
  · exact (he.trans (keeps_record _ fs noResult _ 0)).trans (keeps_advance _)
  · exact (he.trans (keeps_bear _ fs _)).trans (keeps_advance _)

theorem keeps_performLater (s : State) (fs : FSel) (o : LateOp) : Keeps s (performLater s fs o) := .same rfl rfl

theorem keeps_acceptOp (s : State) (fs : FSel) (o : LateOp) : Keeps s (acceptOp s fs o) :=
  (keeps_draw s).trans (.ite (keeps_performLater _ fs o) (keeps_performNow _ fs o))

theorem keeps_opDone (s : State) (o : LateOp) (status : BitVec 7) (fault : Option Report) : Keeps s (opDone s o status fault) := .same rfl rfl

theorem keeps_stepOp (s : State) (o : LateOp) : Keeps s (stepOp s o) := by
  unfold stepOp
  refine .ite ?_ (.same rfl rfl)
  exact (((keeps_draw s).trans (keeps_onTeam _ _)).trans (keeps_effect _ _ _)).trans (keeps_opDone _ _ _ _)

theorem keeps_execInstructionCompletion (w : WarpRef) (seq : Nat) (s : State) : KeepsNext s (execInstructionCompletion w seq s) := by
  refine keepsNext_of (keeps_withWarp (fun u => .ite ?_ (.refl u)) s w)
  split
  · exact keeps_stepOp u _
  · exact keeps_onWarp u _

theorem keeps_execTldb (fs : FSel) (t : BitVec 3) (a b : BitVec 6) (s : State) : KeepsNext s (execTldb fs t a b s) := by
  refine keeps_matrixWord _ t _ fun u => ?_
  split
  · exact keeps_advance u
  · exact keeps_withBoxes _ ((keeps_onSlot u t _).trans (keeps_acceptOp _ fs _))

theorem keeps_multiply (s : State) (fs : FSel) (t : BitVec 3) (a : BitVec 6) (scales : Warp → Nat) : KeepsNext s (multiply s fs t a scales) := by
  refine keeps_matrixWord _ t _ fun u => ?_
  split
  · exact keeps_advance u
  · exact .ite (keeps_advance u) (keeps_withBoxes _ (keeps_acceptOp u fs _))

/-! ## Drains, fills and images (14 R318 to R327) -/

theorem keeps_execTslv (mk : BitVec 3) (mz col : Bool) (md : Mode) (nsat : Bool) (et : ET) (t : BitVec 3) (d a : BitVec 6) (s : State) :
    KeepsNext s (execTslv mk mz col md nsat et t d a s) := by
  refine keeps_guarded (keeps_whenEnabled t (keeps_tolled fun u => keeps_onIdleSlot t ?_))
  simp only
  generalize (match (activeElems u.warp).find? _, trapElem u.warp mk _ with | _, _ => _ : Option (Nat × Report)) = stop
  split
  · exact (keeps_onWarp u _).trans (keeps_trapHere _ _ _)
  · exact .same rfl rfl

theorem keeps_execTsvl (mk : BitVec 3) (col : Bool) (md : Mode) (et : ET) (t : BitVec 3) (a b : BitVec 6) (s : State) :
    KeepsNext s (execTsvl mk col md et t a b s) := by
  refine keeps_guarded (keeps_whenEnabled t (keeps_tolled fun u => keeps_onIdleSlot t ?_))
  simp only
  split
  · exact ((keeps_onSlot u t _).trans (keeps_onWarp _ _)).trans (keeps_trapHere _ _ _)
  · exact .same rfl rfl

theorem keeps_drainStore (s : State) (fs : FSel) (et : ET) (md : Mode) (nsat : Bool) (t : BitVec 3) (row : Nat) (oks : List (Elt × Loc))
    (line : Option Stop) : Keeps s (drainStore s fs et md nsat t row oks line) := by
  have stored (val : Nat → Word) (todo : List (Elt × Loc)) (p : BitVec 4) : Keeps s (settle (healLines (storeElts et.width val todo s) et.width todo) p todo) :=
    ((keeps_storeElts _ val todo s).trans (keeps_healLines _ _ todo)).trans (keeps_settle _ p todo)
  unfold drainStore
  simp only
  split
  · exact ((stored _ _ _).trans (keeps_bear _ fs _)).trans (keeps_advance _)
  · exact ((((stored _ _ _).trans (keeps_onSlot _ t _)).trans (keeps_record _ fs _ _ _)).trans (keeps_draw _)).trans (keeps_advance _)
  · exact ((stored _ _ _).trans (keeps_record _ fs _ _ _)).trans (keeps_advance _)
  · exact ((stored _ _ _).trans (keeps_record _ fs _ _ _)).trans (keeps_advance _)

theorem keeps_execTstr (fs : FSel) (mk : BitVec 3) (tm : TstrMode) (md : Mode) (nsat : Bool) (et : ET) (t : BitVec 3) (a b c : BitVec 6) (s : State) :
    KeepsNext s (execTstr fs mk tm md nsat et t a b c s) := by
  unfold execTstr
  extract_lets index
  refine keeps_guarded (keeps_whenEnabled t (keeps_tolled fun u => keeps_onIdleSlot t ?_))
  simp only
  split
  · exact (keeps_keepOks u _ _).trans (keeps_trapHere _ _ _)
  · split
    · exact keeps_parkAsked u _ _ _
    · exact keeps_parkOnLine u _ _ _
    · refine Keeps.trans ?_ (keeps_drainStore _ fs et md nsat t _ _ _)
      split
      · exact keeps_onWarp u _
      all_goals exact keeps_onWarp u _

/-- What the address phase of an image leaves, when it ends the word. -/
theorem keeps_imagePhase {s t : State} {acc : Access} {base : Word} {n : Nat} (h : imagePhase s acc base n = .out t) : Keeps s t := by
  unfold imagePhase at h
  split at h
  · cases h; exact keeps_trapHere s _ 0
  · simp only at h
    split at h
    · cases h; exact (keeps_keepOks s _ _).trans (keeps_trapHere _ _ _)
    · split at h
      · cases h; exact keeps_parkAsked s _ _ _
      · cases h; exact keeps_parkOnLine s _ _ _
      · cases h

theorem keeps_execTsave (fs : FSel) (t : BitVec 3) (a : BitVec 6) (s : State) : KeepsNext s (execTsave fs t a s) := by
  refine keeps_matrixWord _ t _ fun u => keeps_onIdleSlot t ?_
  simp only
  split
  · rename_i h
    exact keeps_imagePhase h
  · rename_i oks st _
    refine .ite (keeps_failSlot u fs t _) ?_
    have stored := ((keeps_storeElts 64 (pieceOf (u.team.slot t).imageBytes) oks u).trans (keeps_healLines _ 64 oks)).trans (keeps_settle _ u.team.part oks)
    split
    · exact (stored.trans (keeps_record _ fs _ _ _)).trans (keeps_advance _)
    all_goals exact (stored.trans (keeps_bear _ fs _)).trans (keeps_advance _)

theorem keeps_refuseImage (s : State) (fs : FSel) (base : Word) (reason : BitVec 8) : Keeps s (refuseImage s fs base reason) :=
  (keeps_record s fs noResult _ 0).trans (keeps_advance _)

theorem keeps_takeImage (s : State) (fs : FSel) (t : BitVec 3) (base : Word) (bs : List Byte) : Keeps s (takeImage s fs t base bs) := by
  unfold takeImage
  simp only
  split
  · exact keeps_refuseImage s fs base _
  · exact .ite (keeps_refuseImage s fs base _) (((keeps_onSlot s t _).trans (keeps_bear _ fs noResult)).trans (keeps_advance _))

theorem keeps_execTload (fs : FSel) (t : BitVec 3) (a : BitVec 6) (s : State) : KeepsNext s (execTload fs t a s) := by
  refine keeps_matrixWord _ t _ fun u => keeps_onIdleSlot t ?_
  simp only
  split
  · rename_i h
    exact keeps_imagePhase h
  · exact keeps_failSlot u fs t _
  · split
    · rename_i h
      exact keeps_imagePhase h
    · exact keeps_failSlot u fs t _
    · exact (keeps_settle u _ _).trans (keeps_takeImage _ fs t _ _)

end Sys2Proof.Machine
end

section
/-! PROOF. What the words of a warp keep, part four: branches, lane mode, queues, traps and the words of the system (04, 05, 15). -/
namespace Sys2Proof.Machine
open Sys2Proof

/-! ## Branches and lane mode (04, 05) -/

theorem keeps_branch (s : State) (regs : List (BitVec 6)) (disp : BitVec 32) (taken : Bool) (laneTaken : Nat → Bool) :
    KeepsNext s (branch s regs disp taken laneTaken) :=
  keepsNext_ite (keeps_guarded (keeps_onWarp s _)) (keepsNext_ite (keepsNext_of (keeps_onWarp s _)) (keepsNext_of (keeps_advance s)))

theorem keeps_transfer (s : State) (regs : List (BitVec 6)) (f : Warp → Warp) : KeepsNext s (transfer s regs f) :=
  keeps_uniformScalar regs (keeps_onWarp s f)

theorem keeps_execVfork (a : BitVec 3) (disp : BitVec 32) (s : State) : KeepsNext s (execVfork a disp s) :=
  keeps_guarded (keeps_commitPoint (fun u => .ite (keeps_advance u) (keeps_onWarp u _)) s)

theorem keeps_syncTrap (s : State) (lm : LaneMode) (first : Nat) (info : Word) : Keeps s (syncTrap s lm first info) :=
  (keeps_onWarp s _).trans (keeps_takeTrap _ _ _ _)

theorem keeps_rejoin (s : State) (p : Position) : Keeps s (rejoin s p) := keeps_onWarp s _

theorem keeps_resolveLanes (s : State) : Keeps s (resolveLanes s) := by
  unfold resolveLanes
  split
  · exact .refl s
  · refine .ite (.refl s) ?_
    split
    · exact keeps_syncTrap s _ _ _
    · split
      · exact .refl s
      · exact .ite (keeps_rejoin s _) (keeps_syncTrap s _ _ _)

theorem keeps_waitLanes (s : State) (i : Nat) (a : BitVec 6) : Keeps s (waitLanes s i a) := by
  unfold waitLanes
  split
  · exact .refl s
  · exact (keeps_onWarp s _).trans (keeps_resolveLanes _)

theorem keeps_execWsync (i : BitVec 4) (a : BitVec 6) (s : State) : KeepsNext s (execWsync i a s) := by
  unfold execWsync
  extract_lets reg
  exact keeps_guarded (.ite (keeps_waitLanes s _ a) (keeps_advance s))

theorem keeps_joinLanes (s : State) : Keeps s (joinLanes s) := by
  unfold joinLanes
  split
  · exact .refl s
  · exact (keeps_onWarp s _).trans (keeps_resolveLanes _)

/-! ## Launch queues (05 R85 to R90) -/

theorem keeps_onQueue (s : State) (part : BitVec 4) (q : BitVec 3) (f : QueueService → QueueService) : Keeps s (onQueue s part q f) :=
  keeps_onPart s part _

/-- A write through the partition's tables, or nothing. -/
theorem keeps_partWriteOr (s : State) (p : BitVec 4) (va : Nat) (bs : List Byte) : Keeps s ((partWrite s p va bs).getD s) := by
  cases h : partWrite s p va bs with
  | none => exact .refl s
  | some t => exact keeps_partWrite h

theorem keeps_writeErr (s : State) (part : BitVec 4) (q : BitVec 3) (code : Nat) : Keeps s (writeErr s part q code) := keeps_partWriteOr s part _ _

theorem keeps_queueMet (s : State) (part : BitVec 4) (q : BitVec 3) : Keeps s (queueMet s part q) := keeps_partMet s part _ _ _

theorem keeps_failQueue (s : State) (part : BitVec 4) (q : BitVec 3) (code : Nat) : Keeps s (failQueue s part q code) :=
  ((keeps_writeErr s part q code).trans (keeps_onQueue _ part q _)).trans (keeps_interrupt _ part 0)

theorem keeps_observeQueue (s : State) (part : BitVec 4) (q : BitVec 3) : Keeps s (observeQueue s part q) := by
  unfold observeQueue
  split
  · exact (keeps_queueMet s part q).trans (keeps_failQueue _ part q 5)
  · split
    · exact keeps_failQueue s part q _
    · exact keeps_onQueue s part q _

theorem keeps_execTailObserved (part : BitVec 4) (q : BitVec 3) (s : State) : KeepsNext s (execTailObserved part q s) :=
  keepsNext_when (keeps_observeQueue s part q)

theorem keeps_execQueueDisableWrite (part : BitVec 4) (q : BitVec 3) (s : State) : KeepsNext s (execQueueDisableWrite part q s) := by
  refine keepsNext_of (.ite (.refl s) ?_)
  split
  · exact .ite ((keeps_queueMet s part q).trans (keeps_failQueue _ part q 5)) (.refl s)
  · exact .ite (.refl s) (keeps_onQueue s part q _)

theorem keeps_execQueueEnableWrite (part : BitVec 4) (q : BitVec 3) (s : State) : KeepsNext s (execQueueEnableWrite part q s) := by
  refine keepsNext_of (.ite (.refl s) ?_)
  split
  · exact (keeps_queueMet s part q).trans (keeps_failQueue _ part q 5)
  · refine .ite (Keeps.trans (.trans ?_ (keeps_onQueue _ part q _)) (keeps_observeQueue _ part q)) (.refl s)
    exact .ite (.refl s) (keeps_writeErr s part q 0)

theorem keeps_launchReply (s : State) (d : BitVec 6) (code : Nat) (tail : BitVec 32) : Keeps s (launchReply s d code tail) := .same rfl rfl

theorem keeps_appendRecord (s : State) (d : BitVec 6) (q : BitVec 3) (x : QueueDesc) (bytes : List Byte) : Keeps s (appendRecord s d q x bytes) := by
  unfold appendRecord
  extract_lets part done
  cases h : done with
  | none => exact (((keeps_partMet s part _ _ _).trans (keeps_partMet _ part _ _ _)).trans (keeps_failQueue _ part q 5)).trans (keeps_launchReply _ d 3 _)
  | some t =>
    obtain ⟨u, hu, ht⟩ := Option.bind_eq_some_iff.1 h
    exact (((keeps_partWrite hu).trans (keeps_partWrite ht)).trans (keeps_onQueue _ part q _)).trans (keeps_launchReply _ d 0 _)

theorem keeps_launchOn (s : State) (d : BitVec 6) (queue : Nat) (bytes : List Byte) : Keeps s (launchOn s d queue bytes) := by
  refine .ite (keeps_launchReply s d 3 _) ?_
  simp only
  split
  · exact ((keeps_queueMet s _ _).trans (keeps_failQueue _ _ _ 5)).trans (keeps_launchReply _ d 3 _)
  · exact .ite (keeps_launchReply s d 3 _) (.ite (keeps_launchReply s d 2 _) (.ite (keeps_launchReply s d 1 _) (keeps_appendRecord s d _ _ bytes)))

theorem keeps_execKlaunch (d a b : BitVec 6) (s : State) : KeepsNext s (execKlaunch d a b s) := by
  refine keeps_guarded (.ite (keeps_launchReply s d 4 _) ?_)
  simp only
  split
  · exact keeps_parkAsked s _ _ _
  · exact keeps_parkOnLine s _ _ _
  · split
    · exact keeps_parkOnLine s _ _ _
    · exact (keeps_settle s _ _).trans (keeps_launchOn _ d _ _)
  · exact keeps_trapHere s _ _
  · exact keeps_trapHere s _ _
  · exact keeps_advance s
  · exact keeps_advance s

theorem keeps_execYield (s : State) : KeepsNext s (execYield s) := keeps_guarded (keeps_preemptPoint (fun u => keeps_onWarp u _) s false)

/-! ## Traps and returns (15) -/

theorem keeps_execTrap (imm : BitVec 16) (s : State) : KeepsNext s (execTrap imm s) := by
  refine keeps_guarded ?_
  have trapped := keeps_takeTrap s { cause := .software, info := imm.setWidth 64 }
    { pc := s.warp.at.nextHdr, npc := s.warp.at.nextHdr, hdr := s.warp.at.nextHdr, vstart := s.warp.vstart } s.warp.at.pc
  exact .ite (trapped.trans (keeps_onWarp _ _)) trapped

theorem keeps_resumeOf (s : State) : KeepsFetched s (resumeOf s) := by
  unfold resumeOf
  simp only
  split
  · exact keepsFetched_got (.refl s)
  · split
    · exact keepsFetched_miss
    · exact keepsFetched_wait
    · exact keepsFetched_got (.refl s)
    · rename_i h ws t ht
      exact keepsFetched_got (keeps_fetchClause s _ _ _ t ht)

theorem keeps_applyResume (s : State) (r : Resume) (lane : Bool) : Keeps s (applyResume s r lane) := by
  cases r with
  | goOn p => exact .same rfl rfl
  | stop rep va => exact (keeps_onWarp s _).trans (keeps_takeTrap _ _ _ _)

theorem keeps_refetchFault (s : State) (r : Report) (va : Int) (lane : Bool) : Keeps s (refetchFault s r va lane) :=
  ((keeps_onWarp s _).trans (keeps_onWarp _ _)).trans (keeps_takeTrap _ _ _ _)

theorem keeps_eretFetch {α : Type} {s : State} {f : Fetched α} {bad : Report → Int → State} {k : α → State → State} (pc : Int)
    (hf : KeepsFetched s f) (hb : ∀ r va, Keeps s (bad r va)) (hk : ∀ x t, Keeps t (k x t)) : Keeps s (eretFetch s pc f bad k) := by
  unfold eretFetch
  split
  · exact keeps_parkOnMisses s pc _
  · exact keeps_parkOn s _
  · exact hb _ _
  · rename_i x t
    exact (hf x t rfl).trans (hk x t)

/-- The word that a return reissues, fetched where it is deferred. -/
theorem keeps_eretWord (s : State) (pc : Int) (defer : Bool) : KeepsFetched s
    (if defer then
      (match fetchAt s false pc with
       | .miss m => .miss m
       | .wait line => .wait line
       | .fault r va => .fault r va
       | .got w s => .got (some w) s)
    else .got none s : Fetched (Option Word)) := by
  split
  · split
    · exact keepsFetched_miss
    · exact keepsFetched_wait
    · exact keepsFetched_fault
    · rename_i w t ht
      exact keepsFetched_got (keeps_fetchAt s false pc w t ht)
  · exact keepsFetched_got (.refl s)

theorem keeps_eretGo (s : State) : Keeps s (eretGo s) := by
  refine keeps_eretFetch _ (keeps_eretWord s _ _) (fun r va => keeps_refetchFault s r va _) fun w t => ?_
  refine keeps_eretFetch _ (keeps_resumeOf t) (fun r va => (keeps_onWarp t _).trans (keeps_applyResume _ _ _)) fun r u => ?_
  split
  · exact (keeps_onWarp u _).trans (keeps_applyResume _ r _)
  · exact keeps_onWarp u _

theorem keeps_execEret (s : State) : KeepsNext s (execEret s) := keeps_guarded (keeps_commitPoint keeps_eretGo s)

/-! ## System registers and caches (15 R335 to R344) -/

theorem keeps_writeSr (s : State) (n : Nat) (v : Word) : Keeps s (writeSr s n v) := by
  unfold writeSr
  split
  iterate 12 exact keeps_onWarp s _
  · exact keeps_onPart s _ _
  · exact .ite (keeps_onWarp s _) (.refl s)

theorem keeps_execGetsr (d : BitVec 6) (sr : BitVec 12) (s : State) : KeepsNext s (execGetsr d sr s) := keeps_guarded (.same rfl rfl)

theorem keeps_execSetsr (sr : BitVec 12) (a : BitVec 6) (s : State) : KeepsNext s (execSetsr sr a s) :=
  keeps_guarded ((keeps_writeSr s _ _).trans (keeps_advance _))

theorem keeps_cacheWord {f : State → Nat → State} (h : ∀ s pa, Keeps s (f s pa)) (s : State) (checks : List (Bool × IllegalReason)) (acc : Access)
    (writes : Bool) (a : BitVec 6) : KeepsNext s (cacheWord s checks acc writes a f) := by
  refine keeps_guarded (.ite (keeps_advance s) ?_)
  split
  · exact keeps_parkOnMisses s _ _
  · exact keeps_trapHere s _ _
  · exact keeps_advance s
  · exact keeps_parkOnLine s _ _ _
  · split
    · exact keeps_parkOnLine s _ _ _
    · refine .ite ((keeps_settle s _ _).trans (keeps_trapHere _ _ _)) (.trans ?_ (keeps_advance _))
      exact .ite ((keeps_settle s _ _).trans (h _ _)) (keeps_settle s _ _)

theorem keeps_dropOrNot (s : State) (pa : Nat) : Keeps s (dropOrNot s pa) := .ite (keeps_writeBack s pa) (keeps_dropLine s _)

theorem keeps_dropFetched (s : State) (p : Nat → Bool) : Keeps s (dropFetched s p) := .same rfl rfl

theorem keeps_beginInvalidation (s : State) (p : BitVec 4) (r : InvRange) : Keeps s (beginInvalidation s p r) := .same rfl rfl

theorem keeps_xlinv (s : State) (r : InvRange) : Keeps s (xlinv s r) := by
  unfold xlinv
  split
  · exact .ite (.refl s) (keeps_advance s)
  all_goals exact (keeps_beginInvalidation s _ r).trans (keeps_parkOn _ _)

theorem keeps_execXlinvVa (a b : BitVec 6) (s : State) : KeepsNext s (execXlinvVa a b s) := keeps_guarded (.ite (keeps_advance s) (keeps_xlinv s _))

theorem keeps_execInvalidationComplete (n : Nat) (s : State) : KeepsNext s (execInvalidationComplete n s) := by
  refine keepsNext_of ?_
  split
  · exact .refl s
  · exact .ite (.same rfl rfl) (.refl s)

theorem keeps_execLease (d a : BitVec 6) (s : State) : KeepsNext s (execLease d a s) := keeps_uniformWord (.same rfl rfl)

/-! ## The ends of warps and teams (15 R344, R345) -/

theorem keeps_killTeam (s : State) : Keeps s (killTeam s) := by
  have left := Keeps.foldl (f := fun s (w : Warp) => dropManifests (onCluster s (coreCluster w.core) fun c => { c with pool := c.pool + w.lease })
    s.team.part (.warp { team := s.team.tid, warp := w.idx })) (fun u w => (keeps_onCluster u _ _).trans (keeps_dropManifests _ _ _)) s.mates s
  exact (left.trans (keeps_warpTeam _ _ _)).trans (keeps_setPresence _ _)

theorem keeps_execHaltTeam (a : BitVec 6) (s : State) : KeepsNext s (execHaltTeam a s) :=
  keeps_guarded ((keeps_recordError s _ _).trans (keeps_killTeam _))

end Sys2Proof.Machine
end

section
/-! PROOF. What the events keep, part one: the memory controllers, placement and completion of teams, faults, registers, links, saves (05, 10, 15, 16, 18). -/
namespace Sys2Proof.Machine
open Sys2Proof

/-! ## The memory controllers (09 R200; 16) -/

theorem keeps_execPatrolScrub (row : Nat) (s : State) : KeepsNext s (execPatrolScrub row s) :=
  keepsNext_when ((Keeps.foldl keeps_scrubGranule _ s).trans (keeps_scrubEntry _ row))

theorem keeps_execUncorrectableEviction (line : Nat) (s : State) : KeepsNext s (execUncorrectableEviction line s) := keepsNext_when (keeps_writeBack s _)

theorem keeps_baleFails (s : State) (bale kid : Nat) : Keeps s (baleFails s bale kid) :=
  (Keeps.ite (keeps_metErrors s _) (.refl s)).trans (keeps_outbox _ _)

theorem keeps_execBaleWholeWrite (bale : Nat) (data : List (BitVec 8)) (baled : Bool) (key : BitVec 9) (s : State) :
    KeepsNext s (execBaleWholeWrite bale data baled key s) :=
  keepsNext_of (.ite (.refl s) (.ite (keeps_wholeWrite s bale _ baled data) (keeps_baleFails s bale _)))

theorem keeps_execBaleMerge (pa : Nat) (data : List (BitVec 8)) (baled : Bool) (key : BitVec 9) (s : State) :
    KeepsNext s (execBaleMerge pa data baled key s) := keepsNext_when (keeps_mergeBale s _ _ data baled _)

theorem keeps_execBaleRead (bale : Nat) (key : BitVec 9) (s : State) : KeepsNext s (execBaleRead bale key s) :=
  keepsNext_of (.ite (keeps_outbox s _) (keeps_baleFails s bale _))

/-! ## Placing teams and ending grids (05) -/

theorem keeps_teams (s : State) (ts : List Team) : Keeps s { s with teams := ts } := .same rfl rfl

theorem keeps_grids (s : State) (gs : List Grid) : Keeps s { s with grids := gs } := .same rfl rfl

theorem keeps_nextTeam (s : State) (n : Nat) : Keeps s { s with nextTeam := n } := .same rfl rfl

theorem keeps_nextGrid (s : State) (n : Nat) : Keeps s { s with nextGrid := n } := .same rfl rfl

theorem keeps_nextPlace (s : State) (n : Nat) : Keeps s { s with nextPlace := n } := .same rfl rfl

theorem keeps_seat (s : State) (w : Warp) : Keeps s (seat s w) := .same rfl rfl

theorem keeps_wipe (s : State) (base n : Nat) : Keeps s (wipe s base n) := .cells rfl fun w => filter_wf _ w

theorem keeps_divergeAt (s : State) (event : Nat) : Keeps s (divergeAt s event) := keeps_onTeam s _

theorem keeps_settleTeam (s : State) (event : Nat) (x : Site) (base : Nat) (ws : List Warp) : Keeps s (settleTeam s event x base ws) := by
  unfold settleTeam
  extract_lets lg u v w
  have hu : Keeps s u := keeps_onTeam s _
  have hv : Keeps s v := (hu.trans (keeps_nextPlace u _)).trans (Keeps.foldl keeps_seat ws _)
  have hw : Keeps s w := hv.trans (keeps_logEntry v _)
  clear_value lg
  split
  · exact hw.trans (keeps_divergeAt w event)
  · exact (hw.trans (keeps_followFailed w _)).trans (keeps_divergeAt _ event)
  all_goals exact hw

theorem keeps_changeGrid (s : State) (g : Nat) (f : Grid → Grid) : Keeps s (changeGrid s g f) := .same rfl rfl

theorem keeps_placeNext {s t : State} {g : Grid} (h : placeNext s g = some t) : Keeps s t := by
  unfold placeNext at h
  obtain ⟨x, -, rfl⟩ := Option.map_eq_some_iff.1 h
  have fresh : Keeps s { unfocus s with team := teamOf (unfocus s) g } := .same rfl rfl
  refine Keeps.trans ?_ ((keeps_changeGrid _ _ _).trans (keeps_refocus s _))
  refine Keeps.trans ?_ (keeps_settleTeam _ _ _ _ _)
  exact ((fresh.trans (keeps_wipe _ _ _)).trans (keeps_nextTeam _ _)).trans (keeps_waymarksMet _ _)

theorem keeps_placeWhole {fuel : Nat} {s t : State} {gid : Nat} (h : placeWhole fuel s gid = some t) : Keeps s t := by
  induction fuel generalizing s with
  | zero => cases h; exact .refl _
  | succ n ih =>
    unfold placeWhole at h
    split at h
    · cases h
    · obtain ⟨u, hu, ht⟩ := Option.bind_eq_some_iff.1 h
      exact (keeps_placeNext hu).trans (ih ht)

theorem keeps_onLaunch (s : State) (p ch : BitVec 4) (f : LaunchChannel → LaunchChannel) : Keeps s (onLaunch s p ch f) := keeps_onPart s p _

theorem keeps_writeCompletion (s : State) (g : Grid) (status : Nat) : Keeps s (writeCompletion s g status) := by
  refine .ite (.refl s) ?_
  split
  · rename_i h
    exact keeps_partWrite h
  · exact (keeps_partMet s _ _ _ _).trans (keeps_recordError _ _ _)

theorem keeps_endGrid (s : State) (g : Grid) (status : Nat) : Keeps s (endGrid s g status) :=
  ((keeps_writeCompletion s g status).trans (.ite (keeps_onLaunch _ _ _ _) (.refl _))).trans (keeps_grids _ _)

theorem keeps_rejectGrid (s : State) (g : Grid) (status : Nat) : Keeps s (rejectGrid s g status) := .ite (.same rfl rfl) (keeps_endGrid s g status)

theorem keeps_finishGrids (s : State) : Keeps s (finishGrids s) := Keeps.foldl (f := fun s g => endGrid s g g.status) (fun u g => keeps_endGrid u g _) _ s

theorem keeps_completeTeam (s : State) (t : Team) : Keeps s (completeTeam s t) := by
  have told := Keeps.foldl (f := fun s x => postManifest s t.part (typeTwo t x.1 x.2)) (fun u _ => keeps_postManifest u t.part _) (unreported t) s
  have freed := told.trans (keeps_freeResident _ t.tid t.site.cores)
  exact ((freed.trans (keeps_teams _ _)).trans (keeps_changeGrid _ _ _)).trans (keeps_finishGrids _)

theorem keeps_execTeamComplete (t : Nat) (s : State) : KeepsNext s (execTeamComplete t s) := by
  unfold execTeamComplete
  extract_lets u
  refine keepsNext_of ?_
  split
  · exact .refl s
  · exact .ite (((keeps_unfocus s).trans (keeps_completeTeam _ _)).trans (keeps_refocus s _)) (.refl s)

/-! ## The fault service and the registers of a partition (10, 18) -/

theorem keeps_respond (s : State) (data : Option (List Byte)) : Keeps s (respond s data) := .same rfl rfl

theorem keeps_overLink {s t : State} (h : Keeps s t) : KeepsNext s (overLink s t) := keepsNext_of (.ite h (keeps_respond s none))

theorem keeps_onManifests (s : State) (part : BitVec 4) (f : Manifest → Manifest) : Keeps s (onManifests s part f) := keeps_onPart s part _

theorem keeps_execFqresp (part : BitVec 4) (failmask : BitVec 14) (mid : BitVec 32) (s : State) : KeepsNext s (execFqresp part failmask mid s) :=
  keeps_overLink (.ite (keeps_onManifests s part _) (keeps_onPart s part _))

theorem keeps_execPrresp (part : BitVec 4) (fail : Bool) (tag : BitVec 32) (s : State) : KeepsNext s (execPrresp part fail tag s) :=
  keeps_overLink (.ite (.same rfl rfl) (.ite (.same rfl rfl) (keeps_onPart s part _)))

theorem keeps_serveManifests (s : State) (part : BitVec 4) : Keeps s (serveManifests s part) := (keeps_drainManifests _ s part).trans (keeps_finishGrids _)

theorem keeps_serveWaybill (s : State) (part : BitVec 4) : Keeps s (serveWaybill s part) := keeps_drainWaybill _ s part

theorem keeps_serveErrors (s : State) (part : BitVec 4) : Keeps s (serveErrors s part) := keeps_drainErrors _ s part

theorem keeps_execFqheadWrite (part : BitVec 4) (v : BitVec 32) (s : State) : KeepsNext s (execFqheadWrite part v s) :=
  keeps_overLink (.ite ((keeps_onPart s part _).trans (keeps_serveManifests _ part)) (keeps_onPart s part _))

theorem keeps_execPrqheadWrite (part : BitVec 4) (v : BitVec 32) (s : State) : KeepsNext s (execPrqheadWrite part v s) :=
  keeps_overLink (.ite ((keeps_onPart s part _).trans (keeps_serveManifests _ part)) (keeps_onPart s part _))

theorem keeps_execWbrheadWrite (part : BitVec 4) (v : BitVec 32) (s : State) : KeepsNext s (execWbrheadWrite part v s) :=
  keeps_overLink (.ite ((keeps_onPart s part _).trans (keeps_serveWaybill _ part)) (.refl s))

theorem keeps_execErrheadWrite (part : BitVec 4) (v : BitVec 32) (s : State) : KeepsNext s (execErrheadWrite part v s) :=
  keeps_overLink (.ite ((keeps_onPart s part _).trans (keeps_serveErrors _ part)) (.refl s))

theorem keeps_setBase (s : State) (part : BitVec 4) (r : AddrReg) (v : Word) : Keeps s (setBase s part r v) := by
  cases r with
  | fqbase => exact (keeps_onPart s part _).trans (keeps_serveManifests _ part)
  | prqbase => exact (keeps_onPart s part _).trans (keeps_serveManifests _ part)
  | wbrbase => exact (keeps_onPart s part _).trans (keeps_serveWaybill _ part)
  | errbase => exact (keeps_onPart s part _).trans (keeps_serveErrors _ part)
  | qbase => exact .same rfl rfl
  | wbfbase => exact .same rfl rfl
  | savebase => exact .same rfl rfl
  | wmbase => exact .same rfl rfl

theorem keeps_execAddressRegisterWrite (pf : Bool) (part : BitVec 4) (r : AddrReg) (v : BitVec 64) (s : State) :
    KeepsNext s (execAddressRegisterWrite pf part r v s) := keeps_overLink (.ite (keeps_setBase s part r _) (.refl s))

theorem keeps_execKeyRangeWrite (part : BitVec 4) (v : BitVec 32) (s : State) : KeepsNext s (execKeyRangeWrite part v s) :=
  keeps_overLink (keeps_onPart s part _)

theorem keeps_setPlain (s : State) (part : BitVec 4) (r : PlainReg) (v : Word) : Keeps s (setPlain s part r v) := by
  cases r with
  | fqctl => exact (keeps_onPart s part _).trans (keeps_serveManifests _ part)
  | prqctl => exact (keeps_onPart s part _).trans (keeps_serveManifests _ part)
  | wbrctl => exact (keeps_onPart s part _).trans (keeps_serveWaybill _ part)
  | errlog => exact (keeps_onPart s part _).trans (keeps_serveErrors _ part)
  | peerkey port => exact ⟨rfl, rfl, id⟩
  | keydata i => exact ⟨rfl, rfl, id⟩
  | capq | tcap | trapvec | savesize | xlctl | s1root | s2root | fqstat | prqstat | wbfcount | intstat | inten | wmcount => exact .same rfl rfl

theorem keeps_execRegisterWrite (pf : Bool) (part : BitVec 4) (r : PlainReg) (v : BitVec 64) (s : State) : KeepsNext s (execRegisterWrite pf part r v s) :=
  keeps_overLink (.ite (keeps_setPlain s part r v) (.refl s))

theorem keeps_keyCommand (s : State) (slot : BitVec 9) (pair : BitVec 512) : Keeps s (keyCommand s slot pair) := .ite (.refl s) ⟨rfl, rfl, id⟩

theorem keeps_execKeycmdRandom (slot : BitVec 9) (s : State) : KeepsNext s (execKeycmdRandom slot s) :=
  keeps_overLink ((keeps_keyCommand s slot _).trans (keeps_draw _))

theorem keeps_keyChange (s : State) (slot : BitVec 9) (pair : BitVec 512) : Keeps s (keyChange s slot pair) := ⟨rfl, rfl, id⟩

theorem keeps_execKeySlotChange (slot : BitVec 9) (s : State) : KeepsNext s (execKeySlotChange slot s) := by
  refine keepsNext_of ?_
  split
  · exact .ite (keeps_keyChange s slot _) (.refl s)
  · exact .refl s

/-! ## The host window and peers (16, 18) -/

theorem keeps_placesMet (s : State) (ls : List Loc) : Keeps s (placesMet s ls) :=
  Keeps.foldl (f := fun s (x : Nat × Nat) => metLines s (128 * x.1) x.2 128) (fun u _ => keeps_metLines u _ _ _) _ s

theorem keeps_readReply (s : State) (ls : List Loc) : Keeps s (readReply s ls).1 := by
  unfold readReply
  split
  · exact keeps_placesMet s ls
  · exact .refl s

theorem keeps_writeReply (data : List Byte) (s : State) (ls : List Loc) : Keeps s (writeReply data s ls).1 := by
  unfold writeReply
  split
  · exact keeps_placesMet s ls
  · exact (keeps_placesWrite s ls data).trans (keeps_healCovered (placesWrite s ls data) fun a => ls.any fun l => l.key == a)

theorem keeps_postpone (s : State) (i : Instr) : Keeps s (postpone s i) := .same rfl rfl

theorem keeps_outsideAccess {f : State → List Loc → State × Option (List Byte)} (h : ∀ s ls, Keeps s (f s ls).1) (s : State) (again : Instr)
    (waits : Bool) (ls : Option (List Loc)) : Keeps s (outsideAccess s again waits ls f) := by
  refine .ite (keeps_postpone s again) (.ite (keeps_respond s none) (.ite (keeps_postpone s again) ?_))
  split
  · exact keeps_respond s none
  · exact .ite (keeps_postpone s again) ((h s _).trans (keeps_respond _ _))

theorem keeps_hostRequest (s : State) (r : HostReq) : Keeps s (hostRequest s r) := by
  refine .ite (keeps_respond s none) ?_
  cases r with
  | read vf addr len => exact keeps_outsideAccess keeps_readReply s _ _ _
  | write vf addr data => exact keeps_outsideAccess (keeps_writeReply data) s _ _ _
  | readRegister vf part off => exact keeps_respond s _
  | readGlobal off => exact keeps_respond s _

theorem keeps_peerUpdate (e : Nat) (f : Word → Option Word) (s : State) (ls : List Loc) : Keeps s (peerUpdate e f s ls).1 := by
  unfold peerUpdate
  split
  · exact .refl s
  · split
    · exact keeps_placesMet s _
    · simp only
      cases f _ with
      | none => exact .refl s
      | some v => exact keeps_storeElt s e _ v

theorem keeps_peerAtomic (s : State) (r : PeerReq) (port : BitVec 3) (pa : BitVec 45) (ok : Bool) (et : ET) (f : Word → Option Word) :
    Keeps s (peerAtomic s r port pa ok et f) := .ite (keeps_outsideAccess (keeps_peerUpdate et.width f) s _ _ _) (keeps_respond s none)

theorem keeps_peerTrain (port : BitVec 3) (op : TrainOp) (et : ET) (elems : List (BitVec 45 × Word)) (s : State) (ls : List Loc) :
    Keeps s (peerTrain port op et elems s ls).1 := by
  unfold peerTrain
  simp only
  split
  · exact keeps_placesMet s ls
  · exact Keeps.foldl (fun u x => keeps_deliverEntry op et u _) elems s

theorem keeps_peerRequest (s : State) (r : PeerReq) : Keeps s (peerRequest s r) := by
  cases r with
  | read port pa len => exact keeps_outsideAccess keeps_readReply s _ _ _
  | write port pa data => exact keeps_outsideAccess (keeps_writeReply data) s _ _ _
  | atomic port pa op et operand => exact keeps_peerAtomic s _ port pa _ et _
  | cas port pa et expected new => exact keeps_peerAtomic s _ port pa _ et _
  | train port op et elems => exact keeps_outsideAccess (keeps_peerTrain port op et elems) s _ _ _

theorem keeps_setLink (s : State) (port : Option (BitVec 3)) (up : Bool) : Keeps s (setLink s port up) := by
  cases port with
  | none => exact ⟨rfl, rfl, id⟩
  | some p => exact ⟨rfl, rfl, id⟩

theorem keeps_execLinkFailure (port : Option (BitVec 3)) (s : State) : KeepsNext s (execLinkFailure port s) := by
  have ended (xs : List Instr) (ms : List Message) : Keeps s { s with agenda := xs, outbox := ms } := .same rfl rfl
  exact keepsNext_of ((ended _ _).trans (keeps_setLink _ port false))

/-! ## Pre-emption, shrinking and the placer (05, 15) -/

theorem keeps_requestStop (s : State) (tid : Nat) : Keeps s (requestStop s tid) := by
  unfold requestStop
  split
  · exact .refl s
  · exact .same rfl rfl

theorem keeps_raiseShrink (s : State) (k : Nat) : Keeps s (raiseShrink s k) := .ite (keeps_onTeam s _) (.refl s)

theorem keeps_execShrinkRequest (t k : Nat) (s : State) : KeepsNext s (execShrinkRequest t k s) :=
  keepsNext_of (keeps_withTeam (fun u => keeps_raiseShrink u k) s t)

theorem keeps_freeRoom (s : State) (prio : BitVec 2) (fits : State → Bool) : Keeps s (freeRoom s prio fits) := by
  unfold freeRoom
  refine .ite (.refl s) ?_
  split
  · exact .refl s
  · exact (keeps_draw s).trans (.ite (keeps_withTeam (fun u => keeps_raiseShrink u 64) _ _) (keeps_requestStop _ _))

theorem keeps_brokenMet (s : State) (p : BitVec 4) (q : BitVec 3) : Keeps s (brokenMet s p q) := by
  unfold brokenMet
  split
  · exact keeps_queueMet s p q
  · exact keeps_partMet s p _ _ _

theorem keeps_takeHead {s t : State} {h : Ready1} (ht : takeHead s h = some t) : Keeps s t := by
  obtain ⟨u, hu, rfl⟩ := Option.map_eq_some_iff.1 ht
  exact (keeps_partWrite hu).trans (keeps_onPart _ _ _)

theorem keeps_headMet (s : State) (h : Ready1) : Keeps s (headMet s h) := keeps_partMet s _ _ _ _

theorem keeps_giveId (s : State) (g : Grid) : Keeps s (giveId s g) := (keeps_nextGrid s _).trans (.ite (keeps_onLaunch _ _ _ _) (.refl _))

theorem keeps_takeRecord (s : State) (h : Ready1) : Keeps s (takeRecord s h) := by
  unfold takeRecord
  extract_lets g st
  split
  · exact (keeps_headMet s h).trans (keeps_failQueue _ _ _ 5)
  · rename_i t ht
    have given := (keeps_takeHead ht).trans (keeps_giveId t g)
    refine .ite (given.trans ?_) ?_
    · exact .ite (keeps_rejectGrid _ g st) ((keeps_rejectGrid _ g st).trans (keeps_interrupt _ _ 0))
    · refine .ite ?_ (given.trans (keeps_grids _ _))
      split
      · rename_i hp
        exact (given.trans (keeps_grids _ _)).trans (keeps_placeWhole hp)
      · exact keeps_freeRoom s _ _

theorem keeps_execRecordTake (s : State) : KeepsNext s (execRecordTake s) := by
  refine keepsNext_of (.ite (.refl s) ?_)
  split
  · exact (keeps_brokenMet s _ _).trans (keeps_failQueue _ _ _ 5)
  · split
    · exact (keeps_draw s).trans (keeps_takeRecord _ _)
    · exact keeps_finishGrids s

theorem keeps_execTeamPlacement (g : Nat) (s : State) : KeepsNext s (execTeamPlacement g s) := by
  refine keepsNext_of ?_
  split
  · exact .refl s
  · refine .ite ?_ (.refl s)
    split
    · rename_i h
      exact keeps_placeNext h
    · exact keeps_freeRoom s _ _

theorem keeps_execSchedulerAttach (t : Nat) (s : State) : KeepsNext s (execSchedulerAttach t s) :=
  keepsNext_of (keeps_withTeam (fun u => .ite (keeps_attachWarp u) (.refl u)) s t)

theorem keeps_execHostKill (t : Nat) (s : State) : KeepsNext s (execHostKill t s) :=
  keepsNext_of (keeps_withTeam (fun u => .ite (.refl u) (keeps_killTeam u)) s t)

theorem keeps_execMilestoneFire (w : WarpRef) (s : State) : KeepsNext s (execMilestoneFire w s) := by
  refine keepsNext_of (keeps_withTeam (fun u => .ite ?_ (.refl u)) s w.team)
  split
  · exact keeps_fireMilestone u _
  · exact .refl u

/-! ## Clocks and other warps (04, 11 R253) -/

theorem keeps_execCycle (c : CoreRef) (s : State) : KeepsNext s (execCycle c s) := by
  refine keepsNext_when ?_
  exact (keeps_onCore s c _).trans (Keeps.foldl (fun u r => keeps_withWarp (fun v => keeps_onWarp v _) u r) _ _)

theorem keeps_execUrgent (w : WarpRef) (s : State) : KeepsNext s (execUrgent w s) :=
  keepsNext_of (keeps_withWarp (fun u => .ite (keeps_onWarp u _) (.refl u)) s w)

theorem keeps_execClassGroupClose (c : CoreRef) (s : State) : KeepsNext s (execClassGroupClose c s) := keepsNext_when (keeps_onCore s c _)

theorem keeps_execRedordUnpark (cell : Nat) (s : State) : KeepsNext s (execRedordUnpark cell s) := by
  refine keepsNext_of (Keeps.foldl (fun u r => keeps_withWarp (fun v => ?_) u r) _ s)
  split
  · exact .ite (keeps_parkOn v _) (.refl v)
  all_goals exact .refl v

/-! ## Saving and resuming (15 R346 to R350) -/

theorem keeps_saveWhole (s : State) : Keeps s (saveWhole s) :=
  ((keeps_dropManifests s _ _).trans (keeps_onCluster _ _ _)).trans (keeps_warpTeam _ _ _)

theorem keeps_execForcedFullSave (w : WarpRef) (s : State) : KeepsNext s (execForcedFullSave w s) :=
  keepsNext_of (keeps_withWarp (fun u => .ite (keeps_saveWhole u) (.refl u)) s w)

theorem keeps_massPreempt (s : State) : Keeps s (massPreempt s) :=
  (Keeps.foldl (f := fun s t => requestStop s t.tid) (fun u t => keeps_requestStop u t.tid) (placedTeams s) s).trans
    (Keeps.foldl (fun u r => keeps_withWarp (fun v => .ite (keeps_saveWhole v) (.refl v)) u r) _ _)

theorem keeps_reportScratch (s : State) (line : Nat) : Keeps s (reportScratch s line) :=
  ((keeps_recordError s _ _).trans (keeps_freshCheck _ _ _)).trans (keeps_interrupt _ _ 6)

theorem keeps_saveTeamAt (s : State) (a : Nat) : Keeps s (saveTeamAt s a) := by
  have drawn (n : Nat) : Keeps s { s with draws := s.draws + n } := .same rfl rfl
  unfold saveTeamAt
  extract_lets bytes n
  split
  · exact ((keeps_onPart s _ _).trans (keeps_metLines _ _ _ _)).trans (keeps_recordError _ _ _)
  · rename_i u hu
    have written := (drawn n).trans (keeps_physWrite hu)
    extract_lets v w x y mine z
    have hv : Keeps u v := Keeps.foldl keeps_reportScratch _ u
    have hw : Keeps v w := Keeps.foldl (f := fun s (c : Copy) => dropManifests s c.part (.copy c.ref)) (fun s c => keeps_dropManifests s _ _) _ v
    have hx : Keeps w x := Keeps.foldl (f := fun s (w : Warp) => onCluster s (coreCluster w.core) fun c => { c with pool := c.pool + w.lease })
      (fun s w => keeps_onCluster s _ _) _ w
    have hy : Keeps x y := keeps_freeResident x _ _
    have hz : Keeps y z := .same rfl rfl
    exact ((((((written.trans hv).trans hw).trans hx).trans hy).trans hz).trans (keeps_onTeam z _)).trans (keeps_wipe _ _ _)

theorem keeps_execTeamSave (t : Nat) (s : State) : KeepsNext s (execTeamSave t s) := by
  unfold execTeamSave
  extract_lets u
  have focused : Keeps s u := keeps_focusTeam s t
  refine keepsNext_of (.ite ((focused.trans ?_).trans (keeps_refocus s _)) (.refl s))
  split
  · exact keeps_interrupt u _ 7
  · exact .ite (.refl u) (keeps_saveTeamAt u _)

theorem keeps_restoreImage (s : State) (base : Nat) : Keeps s (restoreImage s base) :=
  Keeps.foldl (f := fun s (c : Host.Cell) => { s with mem := cellWrite s.mem (Config.windowBase + base + c.1) c.2 })
    (fun _ c => .cells rfl fun w => cellWrite_wf _ c.2 w) s.team.image s

theorem keeps_resumeCopies (s : State) (old base : Nat) (x : Site) : Keeps s (resumeCopies s old base x) := .same rfl rfl

theorem keeps_failRestore (s : State) (i : Nat) : Keeps s (failRestore s i) := (keeps_onTeam s _).trans (keeps_recordError _ _ _)

theorem keeps_restoreSlots (s : State) (block : Nat) : Keeps s (restoreSlots s block) := by
  refine Keeps.foldl (fun u i => .ite (.refl u) ?_) _ s
  split
  · exact keeps_onTeam u _
  · exact (keeps_metLines u _ _ _).trans (keeps_failRestore _ i)

theorem keeps_draws (s : State) (n : Nat) : Keeps s { s with draws := n } := .same rfl rfl

theorem keeps_resumeAt (s : State) (x : Site) (base : Nat) : Keeps s (resumeAt s x base) := by
  unfold resumeAt
  extract_lets old ws t u v w z
  have ht : Keeps s t := ((keeps_wipe s base _).trans (keeps_waymarksMet _ _)).trans (keeps_settleTeam _ 7 x base ws)
  have hu : Keeps t u := keeps_restoreImage t base
  have hv : Keeps u v := keeps_resumeCopies u old base x
  have hw : Keeps v w := keeps_restoreSlots v _
  have hz : Keeps w z := keeps_onTeam w _
  exact ((((ht.trans hu).trans hv).trans hw).trans hz).trans (keeps_draws z _)

theorem keeps_resumeOne {s u : State} {t : Nat} (h : resumeOne s t = some u) : Keeps s u := by
  unfold resumeOne at h
  extract_lets v at h
  split at h
  · obtain ⟨x, -, rfl⟩ := Option.map_eq_some_iff.1 h
    exact ((keeps_focusTeam s t).trans (keeps_resumeAt _ _ _)).trans (keeps_refocus s _)
  · cases h

theorem keeps_resumeAll {ts : List Nat} {s u : State} (h : resumeAll ts s = some u) : Keeps s u := by
  induction ts generalizing s with
  | nil => cases h; exact .refl _
  | cons t rest ih =>
    obtain ⟨v, hv, hu⟩ := Option.bind_eq_some_iff.1 h
    exact (keeps_resumeOne hv).trans (ih hu)

theorem keeps_execTeamResume (t : Nat) (s : State) : KeepsNext s (execTeamResume t s) := by
  refine keepsNext_of ?_
  split
  · exact .refl s
  · split
    · rename_i h
      exact keeps_resumeAll h
    · split
      · exact .ite (keeps_freeRoom s _ _) (.refl s)
      · exact .refl s

theorem keeps_holdPart (part : BitVec 4) (s : State) : Keeps s (holdPart part s) :=
  (keeps_onPart s part _).trans (Keeps.foldl (f := fun s (t : Team) => requestStop s t.tid) (fun u t => keeps_requestStop u t.tid) _ _)

end Sys2Proof.Machine
end

section
/-! PROOF. What the events keep, part two: the management controller (17, 18), and what every word, every event and every step keeps of memory. -/
namespace Sys2Proof.Machine
open Sys2Proof

/-! ## Replies of the management controller (18 R390) -/

theorem keeps_reply (s : State) (bs : List Byte) : Keeps s (reply s bs) := ⟨rfl, rfl, id⟩

theorem keeps_execReadManagementLog (s : State) : KeepsNext s (execReadManagementLog s) := by
  refine keepsNext_of ?_
  split
  · exact keeps_reply s []
  · exact ⟨rfl, rfl, id⟩

theorem keeps_execWriteConfigurationRecord (r : ConfigRecord) (s : State) : KeepsNext s (execWriteConfigurationRecord r s) := by
  refine keepsNext_of (Keeps.trans ?_ (keeps_reply _ _))
  exact .ite ⟨rfl, rfl, id⟩ (.refl s)

theorem keeps_execSensorReading (readings : List (BitVec 8)) (s : State) : KeepsNext s (execSensorReading readings s) :=
  keepsNext_when ⟨rfl, rfl, id⟩

/-! ## What a change of the management state brings about (17 R371 to R380) -/

theorem keeps_reportChange (s : State) : Keeps s (reportChange s) := by
  have counted : Keeps s (s.onMgmt fun m => { m with inband := m.inband + 1 }) := ⟨rfl, rfl, id⟩
  exact counted.trans (Keeps.foldl (f := fun s p => interrupt s p 9) (fun u p => keeps_interrupt u p 9) allParts _)

theorem keeps_enterWarming (s : State) : Keeps s (enterWarming s) := by
  have released : Keeps s ((endHeld s).onMgmt fun m => { m with holding := false }) := ⟨rfl, rfl, id⟩
  exact (((Keeps.ite released (.refl s)).trans (keeps_grids _ _)).trans
    (Keeps.foldl (f := fun s (t : Team) => withTeam s t.tid killTeam) (fun u t => keeps_withTeam keeps_killTeam u t.tid) _ _)).trans (keeps_finishGrids _)

theorem keeps_firstTolls (s : State) : Keeps s (firstTolls s) := by
  unfold firstTolls
  exact .same rfl rfl

theorem keeps_emptyPools (s : State) : Keeps s (emptyPools s) := .same rfl rfl

theorem keeps_onEntry (s : State) (p : Phase) : Keeps s (onEntry s p) := by
  cases p with
  | run => exact (keeps_emptyPools s).trans (keeps_firstTolls _)
  | bench => exact keeps_firstTolls s
  | excursion => exact keeps_massPreempt s
  | warming => exact keeps_enterWarming s
  | off | cooling | soak | train | ready | retreat => exact .refl s

theorem keeps_rawBale (s : State) (n form : Nat) : Keeps s (rawBale s n form) := (keeps_sideWrites s _ _ _).trans (keeps_draws _ _)

theorem keeps_forgetMap (s : State) : Keeps s (forgetMap s) := by
  have plain := Keeps.foldl (f := fun s (e : Nat × BitVec 8) => rawBale s e.1 e.2.toNat) (fun u e => keeps_rawBale u e.1 e.2.toNat)
    (s.bales.filter fun e => e.2.toNat < 8) s
  exact plain.more rfl rfl

theorem keeps_trained (s : State) (failed : List TestUnit) : Keeps s (trained s failed) :=
  ((keeps_forgetMap s).trans (keeps_draw _)).trans ⟨rfl, rfl, id⟩

/-! ## Memory alone -/

/-- Memory keeps its canonical form. -/
def KeepsMemory (s t : State) : Prop := s.memoryWf = true → t.memoryWf = true

theorem Keeps.toMemory {s t : State} (h : Keeps s t) : KeepsMemory s t := h.memoryWf

theorem KeepsMemory.of_mem {s t : State} (h : t.mem = s.mem) : KeepsMemory s t := fun w => (congrArg Memory.wf h).trans w

theorem KeepsMemory.trans {s t u : State} (h : KeepsMemory s t) (k : KeepsMemory t u) : KeepsMemory s u := fun w => k (h w)

theorem KeepsMemory.ite {c : Prop} [Decidable c] {s t u : State} (h : KeepsMemory s t) (k : KeepsMemory s u) : KeepsMemory s (if c then t else u) := by
  split
  · exact h
  · exact k

theorem KeepsMemory.refl (s : State) : KeepsMemory s s := id

theorem keepsMemory_onMgmt (s : State) (f : Mgmt → Mgmt) : KeepsMemory s (s.onMgmt f) := .of_mem rfl

theorem keepsMemory_enterPhase (s : State) (p : Phase) : KeepsMemory s (enterPhase s p) :=
  (keepsMemory_onMgmt s _).trans ((keeps_reportChange _).trans (keeps_onEntry _ p)).toMemory

theorem keepsMemory_settlePhase (n : Nat) (s : State) : KeepsMemory s (settlePhase n s) := by
  induction n generalizing s with
  | zero => exact .refl s
  | succ n ih =>
    unfold settlePhase
    split
    · exact (keepsMemory_enterPhase s _).trans (ih _)
    · exact .refl s

theorem keepsMemory_moveTo (s : State) (p : Phase) : KeepsMemory s (moveTo s p) := (keepsMemory_enterPhase s p).trans (keepsMemory_settlePhase 4 _)

theorem keepsMemory_resetPackage (s : State) : KeepsMemory s (resetPackage s) :=
  ((Keeps.foldl (f := fun s (d : DirtyLine) => dropOrNot s d.line) (fun u d => keeps_dropOrNot u d.line) s.dirty s).trans
    (keeps_forgetMap _)).toMemory.trans (.of_mem rfl)

/-- Every next state that an outcome names keeps the canonical form of memory. -/
def KeepsMemoryNext (s : State) (r : Result) : Prop := ∀ t, r = .next t → KeepsMemory s t

theorem KeepsNext.toMemory {s : State} {r : Result} (h : KeepsNext s r) : KeepsMemoryNext s r := fun t ht => (h t ht).toMemory

theorem keepsMemoryNext_of {s t : State} (h : KeepsMemory s t) : KeepsMemoryNext s (.next t) := by
  rintro u ⟨⟩
  exact h

theorem keepsMemoryNext_when {c : Prop} [Decidable c] {s t : State} (h : KeepsMemory s t) : KeepsMemoryNext s (.next (if c then t else s)) :=
  keepsMemoryNext_of (.ite h (.refl s))

/-! ## Every word and event -/

theorem keeps_execMovhi (d a : BitVec 6) (imm : BitVec 32) (s : State) : KeepsNext s (execMovhi d a imm s) := by
  unfold execMovhi
  exact keeps_uniformScalar _ ((keeps_onWarp s _).trans (keeps_advance _))

theorem keeps_execAdrc (d : BitVec 6) (imm : BitVec 32) (s : State) : KeepsNext s (execAdrc d imm s) := by
  unfold execAdrc
  exact keeps_uniformScalar _ ((keeps_onWarp s _).trans (keeps_advance _))

/-! ## Words whose definitions name their stream or their checks first -/

theorem keeps_execVldst (fs : FSel) (mk : BitVec 3) (mz : Bool) (ch : BitVec 2) (d : BitVec 6) (a : BitVec 3) (s : State) :
    KeepsNext s (execVldst fs mk mz ch d a s) := by
  unfold execVldst
  simp only
  refine keeps_guarded ?_
  exact keeps_vecLoad ..

theorem keeps_execVstst (mk : BitVec 3) (ch : BitVec 2) (a : BitVec 3) (b : BitVec 6) (s : State) :
    KeepsNext s (execVstst mk ch a b s) := by
  unfold execVstst
  simp only
  refine keeps_guarded ?_
  exact keeps_vecStore ..

theorem keeps_execVatom (fs : FSel) (mk : BitVec 3) (mz : Bool) (op : AtomOp) (ord : Ord4) (md : Mode) (et : ET) (d a b c : BitVec 6) (s : State) :
    KeepsNext s (execVatom fs mk mz op ord md et d a b c s) := by
  unfold execVatom
  simp only
  refine keeps_guarded ?_
  exact keeps_vectorAtomic ..

theorem keeps_execVcas (fs : FSel) (mk : BitVec 3) (mz : Bool) (ord : Ord4) (et : ET) (d a b c : BitVec 6) (s : State) :
    KeepsNext s (execVcas fs mk mz ord et d a b c s) := by
  unfold execVcas
  simp only
  refine keeps_guarded ?_
  exact keeps_vectorAtomic ..

/-- The events that move the management state or the band (17 R368, R371). -/
def movesPower : Instr → Bool
  | .bandRise | .bandFall | .powerUp | .soakEnd | .train _ | .enableCompute | .excursionSaved | .warmUp | .warmingDone | .packageReset => true
  | _ => false

/-- Every word, and every event that does not move the management state or the band, keeps both and the canonical form of memory. -/
theorem exec_keeps (i : Instr) (s : State) (h : movesPower i = false) : KeepsNext s (exec i s) := by
  unfold exec
  cases i with
  | mov => exact keeps_execMov _ _ _ _
  | movi | sel => exact keeps_scalarWord _ _ _ _ _
  | movhi d a imm => exact keeps_execMovhi d a imm s
  | adrc d imm => exact keeps_execAdrc d imm s
  | add | sub | mul | mulhi | and | or | xor | shl | shr | sar | min | max | cmp => exact keeps_binary _ _ _ _ _
  | addi | andi | ori | xori | cmpi => exact keeps_immediate _ _ _ _ _
  | div | rem => exact keeps_division _ _ _ _ _ _
  | shli | shri | sari => exact keeps_shiftImm _ _ _ _ _
  | clz | popc => exact keeps_unary _ _ _ _
  | nop => exact keepsNext_of (keeps_advance s)
  | br | brc | brz | brnz => exact keeps_branch _ _ _ _ _
  | call | callr | ret | jmpr => exact keeps_transfer _ _ _
  | getid | tstat | getvl => exact keeps_uniformWord (keeps_onWarp s _)
  | tgrow => exact keeps_execTgrow _ _ _
  | tleave => exact keeps_execTleave _
  | bararv => exact keeps_execBararv _ _
  | barwait => exact keeps_execBarwait _ _
  | barsync => exact keeps_execBarsync _ _
  | barmask => exact keeps_execBarmask _ _
  | wsync => exact keeps_execWsync _ _ _
  | vfork => exact keeps_execVfork _ _ _
  | ljoin => exact keeps_guarded (keeps_joinLanes s)
  | klaunch => exact keeps_execKlaunch _ _ _ _
  | yield => exact keeps_execYield _
  | setvl => exact keeps_execSetvl _ _ _ _ _ _
  | svloop => exact keeps_execSvloop _ _ _
  | mand | mor | mxor | mandn | mnot | mmov | mset => exact keeps_maskWord _ _ _
  | mpopc | mfirst => exact keeps_maskCount _ _ _
  | vadd | vadds | vsub | vsubs | vmul | vmulhi | vmin | vmax => exact keeps_vBinary _ _ _ _ _ _ _ _
  | vmad | vabs | vmrg | viota | vbcs | vpopc | vclz => exact keeps_vecWord _ _ _ _ _ _ _
  | vand | vor | vxor | vshl | vshr | vsar => exact keeps_vBits _ _ _ _ _ _ _ _
  | vcmp => exact keeps_execVcmp _ _ _ _ _ _ _ _
  | vwid | vsatn | vfclass | vcvt | vdqnt => exact keeps_vectorWord _ _ _ _ _ _ _ _ _
  | vaddi => exact keeps_execVaddi _ _ _ _ _ _
  | vfadd | vfsub | vfmul | vfma | vfnma | vfmin | vfmax | vfdiv | vfsqrt | vfrsq | vfrcp | vfexp2 | vflog2 | vfabs => exact keeps_floatWord _ _ _ _ _ _ _ _ _
  | vfcmp => exact keeps_execVfcmp _ _ _ _ _ _ _ _
  | vqnt => exact keeps_execVqnt _ _ _ _ _ _ _
  | vperm | vslup | vsldn | vbcast | vcmprs | vexpnd => exact keeps_permute _ _ _ _ _ _ _ _
  | vtr8 | vins => exact keeps_permWord _ _ _
  | vredsum => exact keeps_execVredsum _ _ _ _ _ _
  | vredmax | vredmin => exact keeps_reduceExtreme _ _ _ _ _ _
  | vscan => exact keeps_execVscan _ _ _ _ _ _ _ _
  | vextr => exact keeps_execVextr _ _ _ _ _
  | lds => exact keeps_execLds _ _ _ _ _ _ _
  | sts => exact keeps_execSts _ _ _ _ _ _
  | vld | vlds | vldx =>
    refine keeps_guarded ?_
    exact keeps_vecLoad ..
  | vst | vsts | vstx =>
    refine keeps_guarded ?_
    exact keeps_vecStore ..
  | strdef => exact keeps_execStrdef _ _ _ _ _
  | pref => exact keeps_execPref _ _ _ _
  | atom | cas => exact keeps_scalarAtomic _ _ _ _ _ _ _ _ _ _
  | vldst => exact keeps_execVldst _ _ _ _ _ _ _
  | vstst => exact keeps_execVstst _ _ _ _ _
  | vatom => exact keeps_execVatom _ _ _ _ _ _ _ _ _ _ _ _
  | vcas => exact keeps_execVcas _ _ _ _ _ _ _ _ _ _
  | redord => exact keeps_execRedord _ _ _ _ _ _
  | fence => exact keeps_execFence _ _ _
  | cpyboxIn | cpyboxOut => exact keeps_cpybox _ _ _ _ _ _ _ _
  | cpya | cpyb => exact keeps_operandCopy _ _ _ _ _ _ _ _
  | cpytrain => exact keeps_execCpytrain _ _ _ _ _ _ _ _
  | cwait => exact keeps_execCwait _ _ _
  | cstat => exact keeps_execCstat _ _ _ _ _
  | cstatClr => exact keeps_execCstatClr _ _ _
  | ten => exact keeps_uniformWord (keeps_onTeam s _)
  | tdis => exact keeps_execTdis _
  | tset => exact keeps_execTset _ _ _ _ _ _ _
  | tgrant => exact keeps_execTgrant _ _ _
  | tzero => exact keeps_execTzero _ _
  | tldb => exact keeps_execTldb _ _ _ _ _
  | tmma | tmmas => exact keeps_multiply _ _ _ _ _
  | tcsclLd => exact keeps_execTcsclLd _ _ _ _
  | tcsclOne => exact keeps_execTcsclOne _ _ _
  | tslv => exact keeps_execTslv _ _ _ _ _ _ _ _ _ _
  | tsvl => exact keeps_execTsvl _ _ _ _ _ _ _ _
  | tstr => exact keeps_execTstr _ _ _ _ _ _ _ _ _ _ _
  | tsave => exact keeps_execTsave _ _ _ _
  | tload => exact keeps_execTload _ _ _ _
  | trap => exact keeps_execTrap _ _
  | eret => exact keeps_execEret _
  | getsr => exact keeps_execGetsr _ _ _
  | setsr => exact keeps_execSetsr _ _ _
  | cacheClean | cacheFlush => exact keeps_cacheWord keeps_writeBack _ _ _ _ _
  | cacheInv => exact keeps_cacheWord keeps_dropOrNot _ _ _ _ _
  | icinvRange | icinvAll => exact keeps_uniformWord (keeps_dropFetched s _)
  | xlinvVa => exact keeps_execXlinvVa _ _ _
  | xlinvAll => exact keeps_guarded (keeps_xlinv s .all)
  | lease => exact keeps_execLease _ _ _
  | haltWarp => exact keeps_guarded (keeps_exitPoint (fun u => keeps_departTeam u false) s)
  | haltTeam => exact keeps_execHaltTeam _ _
  | clauseStart => exact keeps_execClauseStart _
  | instructionCompletion => exact keeps_execInstructionCompletion _ _ _
  | urgent => exact keeps_execUrgent _ _
  | classGroupClose => exact keeps_execClassGroupClose _ _
  | preemptionRequest => exact keepsNext_of (keeps_requestStop s _)
  | forcedFullSave => exact keeps_execForcedFullSave _ _
  | teamSave => exact keeps_execTeamSave _ _
  | teamResume => exact keeps_execTeamResume _ _
  | shrinkRequest => exact keeps_execShrinkRequest _ _ _
  | schedulerAttach => exact keeps_execSchedulerAttach _ _
  | milestoneFire => exact keeps_execMilestoneFire _ _
  | tailObserved => exact keeps_execTailObserved _ _ _
  | queueDisableWrite => exact keeps_execQueueDisableWrite _ _ _
  | queueEnableWrite => exact keeps_execQueueEnableWrite _ _ _
  | teamPlacement => exact keeps_execTeamPlacement _ _
  | teamComplete => exact keeps_execTeamComplete _ _
  | hostKill => exact keeps_execHostKill _ _
  | lineArrival => exact keeps_execLineArrival _ _
  | runAhead => exact keeps_execRunAhead _ _ _
  | redordUnpark => exact keeps_execRedordUnpark _ _
  | fqresp => exact keeps_execFqresp _ _ _ _
  | prresp => exact keeps_execPrresp _ _ _ _
  | faultReissue => exact keeps_execFaultReissue _ _ _
  | fqheadWrite => exact keeps_execFqheadWrite _ _ _
  | prqheadWrite => exact keeps_execPrqheadWrite _ _ _
  | wbrheadWrite => exact keeps_execWbrheadWrite _ _ _
  | errheadWrite => exact keeps_execErrheadWrite _ _ _
  | invalidationComplete => exact keeps_execInvalidationComplete _ _
  | copySegment => exact keeps_execCopySegment _ _
  | copyResume => exact keeps_execCopyResume _ _
  | copyComplete => exact keeps_execCopyComplete _ _
  | trainDelivery => exact keeps_execTrainDelivery _ _
  | baleWholeWrite => exact keeps_execBaleWholeWrite _ _ _ _ _
  | baleMerge => exact keeps_execBaleMerge _ _ _ _ _
  | baleRead => exact keeps_execBaleRead _ _ _
  | uncorrectableEviction => exact keeps_execUncorrectableEviction _ _
  | patrolScrub => exact keeps_execPatrolScrub _ _
  | tollSettingChange => exact keepsNext_when (keeps_onCore s _ _)
  | poolFill => exact keepsNext_when (keeps_onCluster s _ _)
  | hostWindowAccess => exact keepsNext_of (keeps_hostRequest s _)
  | peerRequest => exact keepsNext_of (keeps_peerRequest s _)
  | linkFailure => exact keeps_execLinkFailure _ _
  | linkRecovery => exact keepsNext_of (keeps_setLink s _ true)
  | keyRangeWrite => exact keeps_execKeyRangeWrite _ _ _
  | addressRegisterWrite => exact keeps_execAddressRegisterWrite _ _ _ _ _
  | registerWrite => exact keeps_execRegisterWrite _ _ _ _ _
  | keycmdLoad => exact keeps_overLink (keeps_keyCommand s _ _)
  | keycmdRandom => exact keeps_execKeycmdRandom _ _
  | holdSet => exact keeps_overLink (keeps_holdPart _ s)
  | holdClear => exact keeps_overLink (keeps_onPart s _ _)
  | attest | readBandAndState => exact keepsNext_of ((keeps_reply s _).trans (keeps_draw _))
  | writeConfigurationRecord => exact keeps_execWriteConfigurationRecord _ _
  | cycle => exact keeps_execCycle _ _
  | hostInvalidation => exact keepsNext_of (keeps_beginInvalidation s _ _)
  | sensorReading => exact keeps_execSensorReading _ _
  | keySlotChange => exact keeps_execKeySlotChange _ _
  | recordTake => exact keeps_execRecordTake _
  | ageingReplan => exact keepsNext_when (keeps_draw s)
  | readSensors | readUnitMap => exact keepsNext_of (keeps_reply s _)
  | readManagementLog => exact keeps_execReadManagementLog _
  | train | bandRise | bandFall | powerUp | soakEnd | enableCompute | excursionSaved | warmingDone | packageReset | warmUp => exact absurd h (by simp [movesPower])

/-- The events that move the management state or the band keep the canonical form of memory. -/
theorem powerMove_keepsMemory (i : Instr) (s : State) (h : movesPower i = true) : KeepsMemoryNext s (exec i s) := by
  have move (c : Bool) (p : Phase) : KeepsMemoryNext s (.next (if c then moveTo s p else s)) := keepsMemoryNext_when (keepsMemory_moveTo s p)
  cases i with
  | bandRise => exact keepsMemoryNext_when ((keepsMemory_onMgmt s _).trans (keepsMemory_settlePhase 4 _))
  | bandFall =>
    refine keepsMemoryNext_when ((keepsMemory_onMgmt s fun m => setBand (m.band - 1) m).trans (.trans ?_ (keepsMemory_settlePhase 4 _)))
    exact .ite (keeps_massPreempt _).toMemory (.refl _)
  | powerUp => exact keepsMemoryNext_when (.ite (keepsMemory_moveTo s _) (keepsMemory_onMgmt s _))
  | soakEnd => exact move _ _
  | train failed => exact keepsMemoryNext_when ((keeps_trained s failed).toMemory.trans (keepsMemory_moveTo _ _))
  | enableCompute => exact move _ _
  | excursionSaved => exact keepsMemoryNext_when (.ite (keepsMemory_moveTo s _) (.ite (keepsMemory_moveTo s _) (.refl s)))
  | warmUp => exact move _ _
  | warmingDone => exact move _ _
  | packageReset => exact keepsMemoryNext_of (keepsMemory_resetPackage s)
  | _ => exact absurd h (by simp [movesPower])

theorem exec_keepsMemory (i : Instr) (s : State) : KeepsMemoryNext s (exec i s) := by
  cases h : movesPower i with
  | false => exact (exec_keeps i s h).toMemory
  | true => exact powerMove_keepsMemory i s h

/-! ## Every step (04 R67 to R69) -/

theorem keeps_takeDue (s : State) (r : Report) : Keeps s (takeDue s r) := keeps_takeTrap s r _ _

theorem keeps_reissueFault (s : State) (p : Position) (o : Outstanding) (r : Report) (k : Nat) : Keeps s (reissueFault s p o r k) :=
  (keeps_onWarp s _).trans (keeps_takeTrap _ r _ _)

theorem keeps_afterReissue (old s : State) : Keeps s (afterReissue old s) := by
  unfold afterReissue
  split
  · exact .refl s
  · refine .ite ?_ (.refl s)
    split
    · split
      · exact keeps_reissueFault s _ _ _ _
      · exact .refl s
    · exact (keeps_onWarp s _).trans (keeps_applyResume _ _ _)

theorem keeps_afterIssue (old s : State) : Keeps s (afterIssue old s) :=
  .ite ((keeps_onCore s _ _).trans (.ite (keeps_onWarp _ _) (.refl _))) (.refl s)

theorem keepsMemory_onNext {s : State} {r : Result} {f : State → State} (h : KeepsMemoryNext s r) (hf : ∀ t, Keeps t (f t)) :
    KeepsMemoryNext s (onNext r f) := by
  cases r with
  | next t => exact keepsMemoryNext_of ((h t rfl).trans (hf t).toMemory)
  | fault x => exact fun _ ht => nomatch ht
  | refused x => exact fun _ ht => nomatch ht

theorem keepsMemory_issueWord (w : Word) (s : State) : KeepsMemoryNext s (issueWord w s) := by
  unfold issueWord
  split
  · exact exec_keepsMemory _ s
  · exact keepsMemoryNext_of (keeps_illegal s _).toMemory

theorem keepsMemory_moveWarp (s : State) : KeepsMemoryNext s (moveWarp s) := by
  unfold moveWarp
  split
  · exact keepsMemoryNext_of (keeps_takeDue s _).toMemory
  · split
    · exact (keeps_execClauseStart s).toMemory
    · split
      · exact fun _ ht => nomatch ht
      · exact keepsMemory_onNext (keepsMemory_issueWord _ s) fun t => (keeps_afterReissue s t).trans (keeps_afterIssue s _)

/-- The state in which an event comes has the memory of the state before. -/
theorem nextEvent_mem {s u : State} {i : Instr} (h : nextEvent s = some (i, u)) : u.mem = s.mem := by
  have own {o : Option Instr} (ho : (o.map fun j => (j, s)) = some (i, u)) : u.mem = s.mem := by
    obtain ⟨j, -, hj⟩ := Option.map_eq_some_iff.1 ho
    cases hj
    rfl
  unfold nextEvent at h
  simp only at h
  split at h
  · exact own h
  · split at h
    · cases h
      rfl
    · exact own h

theorem keepsMemory_eventTurn (s : State) : KeepsMemoryNext s (eventTurn s) := by
  unfold eventTurn
  split
  · rename_i i u h
    exact fun t ht => (KeepsMemory.of_mem (nextEvent_mem h)).trans (keepsMemory_onNext (exec_keepsMemory i u) keeps_endTurn t ht)
  · exact keepsMemoryNext_of (keeps_endTurn s).toMemory

theorem keepsMemory_step (s : State) : KeepsMemoryNext s (step s) := by
  unfold step turn warpTurn
  split
  · exact keepsMemory_eventTurn s
  · split
    · exact keepsMemory_onNext (keepsMemory_moveWarp s) keeps_endTurn
    · exact keepsMemory_eventTurn s

/-- Settles O57: every word, every event and the end of every step write memory byte by byte or take cells away. -/
theorem stepKeepsMemory : Obligations.StepKeepsMemory := by
  unfold Obligations.StepKeepsMemory
  exact fun s t hs ht => keepsMemory_step s t ht hs

end Sys2Proof.Machine
end

section
/-! PROOF. Rounding (00_scope.md R10): a format's grid without bound, and what `rnd` does with a number on it. -/
namespace Sys2Proof.Machine
open Sys2Proof

/-! ## Magnitudes m · 2^e as rationals -/

theorem onGrid_mul {m : ℕ} {e g : ℤ} (h : g ≤ e) : (onGrid m e g : ℚ) * 2 ^ g = m * 2 ^ e := by
  have scale : ((2 ^ (e - g).toNat : ℕ) : ℚ) * 2 ^ g = 2 ^ e := by
    rw [Nat.cast_pow, Nat.cast_ofNat, ← zpow_natCast, ← zpow_add₀ two_ne_zero, Int.toNat_of_nonneg (by omega)]
    congr 1
    omega
  rw [onGrid, Nat.cast_mul, mul_assoc, scale]

theorem magLt_iff {m m' : ℕ} {e e' : ℤ} : magLt m e m' e' = true ↔ (m : ℚ) * 2 ^ e < m' * 2 ^ e' := by
  rw [magLt, decide_eq_true_iff, ← onGrid_mul (min_le_left e e'), ← onGrid_mul (min_le_right e e'),
    mul_lt_mul_iff_left₀ (by positivity), Nat.cast_lt]

theorem onGrid_eq_iff {m m' : ℕ} {e e' g : ℤ} (h : g ≤ e) (h' : g ≤ e') : onGrid m e g = onGrid m' e' g ↔ (m : ℚ) * 2 ^ e = m' * 2 ^ e' := by
  rw [← onGrid_mul h, ← onGrid_mul h', mul_left_inj' (by positivity), Nat.cast_inj]

/-! ## The choice between two neighbours -/

/-- Which of two neighbouring codes c and c + 1, of values lo and hi, a mode names for a magnitude between them (R10). -/
def neighbour (md : Mode) (neg : Bool) (lo hi v : ℚ) (c : ℕ) : ℕ :=
  if v = lo then c
  else match md with
    | .rz => c
    | .ru => if neg then c else c + 1
    | .rd => if neg then c + 1 else c
    | .rne => if 2 * v < lo + hi then c else if lo + hi < 2 * v then c + 1 else c + c % 2

theorem rounds_iff {f : FloatFmt} {md : Mode} {neg : Bool} {v : ℚ} {r : ℕ} :
    f.rounds md neg v r ↔ ∃ c, f.codeValue c ≤ v ∧ v < f.codeValue (c + 1) ∧ r = neighbour md neg (f.codeValue c) (f.codeValue (c + 1)) v c := Iff.rfl

theorem neighbour_self (md : Mode) (neg : Bool) (hi v : ℚ) (c : ℕ) : neighbour md neg v hi v c = c := if_pos rfl

theorem neighbour_eq_or (md : Mode) (neg : Bool) (lo hi v : ℚ) (c : ℕ) : neighbour md neg lo hi v c = c ∨ neighbour md neg lo hi v c = c + 1 := by
  unfold neighbour
  cases md <;> grind

/-- The choice does not depend on the unit. -/
theorem neighbour_mul {k : ℚ} (hk : 0 < k) (md : Mode) (neg : Bool) (lo hi v : ℚ) (c : ℕ) :
    neighbour md neg (lo * k) (hi * k) (v * k) c = neighbour md neg lo hi v c := by
  have hne : k ≠ 0 := hk.ne'
  have below : 2 * (v * k) < lo * k + hi * k ↔ 2 * v < lo + hi := by rw [← mul_assoc, ← add_mul, mul_lt_mul_iff_left₀ hk]
  have above : lo * k + hi * k < 2 * (v * k) ↔ lo + hi < 2 * v := by rw [← mul_assoc, ← add_mul, mul_lt_mul_iff_left₀ hk]
  simp only [neighbour, mul_left_inj' hne, below, above]

/-- Codes further up by an even number are neighbour alike. -/
theorem neighbour_add {j : ℕ} (hj : j % 2 = 0) (md : Mode) (neg : Bool) (lo hi v : ℚ) (c : ℕ) :
    neighbour md neg lo hi v (j + c) = j + neighbour md neg lo hi v c := by
  have parity : (j + c) % 2 = c % 2 := by omega
  unfold neighbour
  cases md <;> simp only [parity] <;> split_ifs <;> omega

/-! ## Rounding to an integer count -/

theorem roundShift_eq (md : Mode) (neg : Bool) (m k : ℕ) :
    roundShift md neg m k = neighbour md neg (m / 2 ^ k : ℕ) ((m / 2 ^ k : ℕ) + 1) ((m : ℚ) / 2 ^ k) (m / 2 ^ k) := by
  have hpos : (0 : ℚ) < 2 ^ k := by positivity
  have split : (m : ℚ) / 2 ^ k = (m / 2 ^ k : ℕ) + ((m % 2 ^ k : ℕ) : ℚ) / 2 ^ k := by
    field_simp
    exact_mod_cast (Nat.div_add_mod m (2 ^ k)).symm
  have onIt : (m : ℚ) / 2 ^ k = (m / 2 ^ k : ℕ) ↔ m % 2 ^ k = 0 := by
    rw [split, add_eq_left, div_eq_zero_iff, or_iff_left hpos.ne', Nat.cast_eq_zero]
  have below : 2 * ((m : ℚ) / 2 ^ k) < (m / 2 ^ k : ℕ) + ((m / 2 ^ k : ℕ) + 1) ↔ 2 * (m % 2 ^ k) < 2 ^ k := by
    rw [← Nat.cast_lt (α := ℚ), split, ← mul_lt_mul_iff_left₀ hpos]
    push_cast
    field_simp
    constructor <;> intro h <;> linarith
  have above : (m / 2 ^ k : ℕ) + ((m / 2 ^ k : ℕ) + 1) < 2 * ((m : ℚ) / 2 ^ k) ↔ 2 ^ k < 2 * (m % 2 ^ k) := by
    rw [← Nat.cast_lt (α := ℚ), split, ← mul_lt_mul_iff_left₀ hpos]
    push_cast
    field_simp
    constructor <;> intro h <;> linarith
  have two : m / 2 ^ k % 2 = 0 ∨ m / 2 ^ k % 2 = 1 := Nat.mod_two_eq_zero_or_one _
  simp only [neighbour, onIt, below, above, roundShift]
  have unit : 0 < 2 ^ k := by positivity
  clear onIt below above split hpos
  generalize m % 2 ^ k = r
  generalize m / 2 ^ k = q at *
  generalize 2 ^ k = n at *
  cases md with
  | rne => simp only [Bool.or_eq_true, Bool.and_eq_true, decide_eq_true_eq, beq_iff_eq]; split_ifs <;> omega
  | rz => simp
  | ru => cases neg <;> simp
  | rd => cases neg <;> simp

/-- A magnitude in units of 2^g lies from a count q to below q + 1, and rounds to one of the two. -/
theorem roundAt_eq (md : Mode) (neg : Bool) (m : ℕ) (e g : ℤ) :
    ∃ q : ℕ, (q : ℚ) * 2 ^ g ≤ m * 2 ^ e ∧ (m : ℚ) * 2 ^ e < (q + 1) * 2 ^ g ∧
      roundAt md neg m e g = neighbour md neg (q * 2 ^ g) ((q + 1) * 2 ^ g) (m * 2 ^ e) q := by
  have unit : (0 : ℚ) < 2 ^ g := by positivity
  unfold roundAt
  split
  · next h =>
    refine ⟨onGrid m e g, (onGrid_mul h).le, ?_, ?_⟩
    · rw [← onGrid_mul h]
      linarith
    · rw [onGrid_mul h, neighbour_self]
  · next h =>
    have scale : (m : ℚ) * 2 ^ e = m / 2 ^ (g - e).toNat * 2 ^ g := by
      rw [← zpow_natCast, Int.toNat_of_nonneg (by omega), div_mul_eq_mul_div, mul_div_assoc, ← zpow_sub₀ two_ne_zero]
      congr 2
      omega
    have low := Nat.cast_div_le (α := ℚ) (m := m) (n := 2 ^ (g - e).toNat)
    have high : (m : ℚ) / 2 ^ (g - e).toNat < (m / 2 ^ (g - e).toNat : ℕ) + 1 := by
      rw [div_lt_iff₀ (by positivity)]
      rw [mul_comm]
      exact_mod_cast Nat.lt_mul_div_succ m (by positivity)
    push_cast at low
    refine ⟨m / 2 ^ (g - e).toNat, ?_, ?_, ?_⟩
    · rw [scale]
      gcongr
    · rw [scale]
      gcongr
    · rw [scale, neighbour_mul unit, roundShift_eq]

/-! ## The grid of a format -/

/-- Codes k · 2^m + r of one binade, and the first of the next. -/
theorem FloatFmt.codeValue_of (f : FloatFmt) {k r : ℕ} (hr : r ≤ 2 ^ (f.mbits + 1)) (hk : k = 0 ∨ 2 ^ f.mbits ≤ r) :
    f.codeValue (k * 2 ^ f.mbits + r) = r * 2 ^ (f.ulpMin + k) := by
  have unit : 0 < 2 ^ f.mbits := by positivity
  have double : 2 ^ (f.mbits + 1) = 2 * 2 ^ f.mbits := by ring
  unfold codeValue magnitude
  simp only [mul_comm k, Nat.mul_add_mod, Nat.mul_add_div unit]
  rcases lt_or_ge r (2 ^ f.mbits) with low | high
  · obtain rfl : k = 0 := by omega
    simp [Nat.div_eq_of_lt low, Nat.mod_eq_of_lt low]
  · rcases eq_or_lt_of_le hr with top | inner
    · have quot : r / 2 ^ f.mbits = 2 := by rw [top, double, Nat.mul_div_cancel _ unit]
      have rest : r % 2 ^ f.mbits = 0 := by rw [top, double, Nat.mul_mod_left]
      have exponent : f.ulpMin + ((k + 2 - 1 : ℕ) : ℤ) = f.ulpMin + k + 1 := by omega
      simp only [quot, rest, exponent, beq_iff_eq, Nat.add_eq_zero_iff, OfNat.ofNat_ne_zero, and_false, if_false]
      rw [zpow_add_one₀ two_ne_zero, top, double]
      push_cast
      ring
    · have quot : r / 2 ^ f.mbits = 1 := Nat.div_eq_of_lt_le (by omega) (by omega)
      have rest : r % 2 ^ f.mbits + 2 ^ f.mbits = r := by
        have := Nat.div_add_mod r (2 ^ f.mbits)
        rw [quot] at this
        omega
      simp [quot, rest]

/-- Every code stands in its binade. -/
theorem FloatFmt.exists_code (f : FloatFmt) (c : ℕ) :
    ∃ k r, c = k * 2 ^ f.mbits + r ∧ r < 2 ^ (f.mbits + 1) ∧ (k = 0 ∨ 2 ^ f.mbits ≤ r) := by
  have unit : 0 < 2 ^ f.mbits := by positivity
  have double : 2 ^ (f.mbits + 1) = 2 * 2 ^ f.mbits := by ring
  have whole := Nat.div_add_mod' c (2 ^ f.mbits)
  have rest := Nat.mod_lt c unit
  cases quot : c / 2 ^ f.mbits with
  | zero => exact ⟨0, c, by omega, by rw [quot] at whole; omega, .inl rfl⟩
  | succ k =>
    rw [quot, Nat.succ_mul] at whole
    exact ⟨k, 2 ^ f.mbits + c % 2 ^ f.mbits, by omega, by omega, .inr (by omega)⟩

theorem FloatFmt.codeValue_strictMono (f : FloatFmt) : StrictMono f.codeValue := by
  refine strictMono_nat_of_lt_succ fun c => ?_
  obtain ⟨k, r, rfl, hr, hk⟩ := f.exists_code c
  rw [f.codeValue_of hr.le hk, add_assoc, f.codeValue_of hr (hk.imp_right Nat.le_succ_of_le)]
  push_cast
  gcongr
  linarith

@[simp] theorem FloatFmt.codeValue_zero (f : FloatFmt) : f.codeValue 0 = 0 := by simp [codeValue, magnitude]

/-- The code of one: the biased exponent 0 and an empty fraction. -/
theorem FloatFmt.codeValue_one {f : FloatFmt} {b : ℕ} (hb : f.bias = b + 1) : f.codeValue (b * 2 ^ f.mbits + 2 ^ f.mbits) = 1 := by
  have exponent : f.ulpMin + b = -(f.mbits : ℤ) := by
    rw [ulpMin, emin, hb]
    omega
  rw [f.codeValue_of (Nat.pow_le_pow_right two_pos (Nat.le_succ _)) (.inr le_rfl), exponent, zpow_neg, zpow_natCast]
  push_cast
  exact mul_inv_cancel₀ (by positivity)

theorem FloatFmt.codeValue_nonneg (f : FloatFmt) (c : ℕ) : 0 ≤ f.codeValue c :=
  f.codeValue_zero ▸ f.codeValue_strictMono.monotone (Nat.zero_le c)

/-! ## Rounding to a format -/

/-- What `rnd` gives for a number that rounds to a code (R10, R132). -/
def FloatFmt.numberAt (f : FloatFmt) (md : Mode) (neg : Bool) (v : ℚ) (r : ℕ) : Rounded :=
  if f.maxCode < r then { bits := f.overflow md neg, flags := { ovf := true, nx := true } }
  else { bits := f.withSign neg r, flags := { nx := decide (f.codeValue r ≠ v), unf := decide (f.codeValue r ≠ v ∧ v < 2 ^ f.emin) } }

theorem log2_bounds {m : ℕ} (hm : m ≠ 0) (e : ℤ) : (2 : ℚ) ^ (e + Nat.log2 m) ≤ m * 2 ^ e ∧ (m : ℚ) * 2 ^ e < 2 ^ (e + Nat.log2 m + 1) := by
  have low : ((2 ^ Nat.log2 m : ℕ) : ℚ) ≤ m := by exact_mod_cast Nat.log2_self_le hm
  have high : (m : ℚ) < ((2 ^ (Nat.log2 m + 1) : ℕ) : ℚ) := by exact_mod_cast Nat.lt_log2_self
  push_cast at low high
  rw [add_assoc, zpow_add₀ two_ne_zero, zpow_add₀ two_ne_zero, mul_comm (m : ℚ)]
  refine ⟨?_, ?_⟩
  · gcongr
    exact_mod_cast low
  · gcongr
    exact_mod_cast high

/-- The grid unit that `rnd` rounds to, and the count below: they name the code below the magnitude. -/
theorem FloatFmt.exists_binade (f : FloatFmt) {m : ℕ} (hm : m ≠ 0) (e : ℤ) :
    ∃ k : ℕ, max (e + Nat.log2 m - f.mbits) f.ulpMin = f.ulpMin + k ∧
      ∀ q : ℕ, (q : ℚ) * 2 ^ (f.ulpMin + k) ≤ m * 2 ^ e → (m : ℚ) * 2 ^ e < (q + 1) * 2 ^ (f.ulpMin + k) →
        q < 2 ^ (f.mbits + 1) ∧ (k = 0 ∨ 2 ^ f.mbits ≤ q) := by
  obtain ⟨low, high⟩ := log2_bounds hm e
  obtain ⟨k, hk⟩ : ∃ k : ℕ, max (e + Nat.log2 m - f.mbits) f.ulpMin = f.ulpMin + k :=
    ⟨(max (e + Nat.log2 m - f.mbits) f.ulpMin - f.ulpMin).toNat, by omega⟩
  refine ⟨k, hk, fun q hq hq' => ?_⟩
  have unit : (0 : ℚ) < 2 ^ (f.ulpMin + k) := by positivity
  constructor
  · have : (q : ℚ) * 2 ^ (f.ulpMin + k) < 2 ^ (f.mbits + 1) * 2 ^ (f.ulpMin + k) :=
      calc (q : ℚ) * 2 ^ (f.ulpMin + k) ≤ m * 2 ^ e := hq
        _ < 2 ^ (e + Nat.log2 m + 1) := high
        _ ≤ 2 ^ ((f.mbits + 1 : ℕ) + (f.ulpMin + k)) := zpow_le_zpow_right₀ one_le_two (by omega)
        _ = 2 ^ (f.mbits + 1) * 2 ^ (f.ulpMin + k) := by rw [zpow_add₀ two_ne_zero, zpow_natCast]
    exact_mod_cast (mul_lt_mul_iff_left₀ unit).1 this
  · refine or_iff_not_imp_left.2 fun hk0 => ?_
    have : (2 : ℚ) ^ f.mbits * 2 ^ (f.ulpMin + k) < (q + 1) * 2 ^ (f.ulpMin + k) :=
      calc (2 : ℚ) ^ f.mbits * 2 ^ (f.ulpMin + k) = 2 ^ ((f.mbits : ℤ) + (f.ulpMin + k)) := by rw [zpow_add₀ two_ne_zero (f.mbits : ℤ), zpow_natCast]
        _ = 2 ^ (e + Nat.log2 m) := by congr 1; omega
        _ ≤ m * 2 ^ e := low
        _ < (q + 1) * 2 ^ (f.ulpMin + k) := hq'
    exact Nat.lt_succ_iff.1 (by exact_mod_cast (mul_lt_mul_iff_left₀ unit).1 this)

/-- A number other than zero rounds to code k · 2^m + r, for the count r of units 2^(ulpMin + k) that `rnd` computes. -/
theorem rounds_roundAt {f : FloatFmt} (hf : 0 < f.mbits) (md : Mode) (neg : Bool) {m : ℕ} {e : ℤ} {k : ℕ}
    (hb : ∀ q : ℕ, (q : ℚ) * 2 ^ (f.ulpMin + k) ≤ m * 2 ^ e → (m : ℚ) * 2 ^ e < (q + 1) * 2 ^ (f.ulpMin + k) →
      q < 2 ^ (f.mbits + 1) ∧ (k = 0 ∨ 2 ^ f.mbits ≤ q)) :
    f.rounds md neg (m * 2 ^ e) (k * 2 ^ f.mbits + roundAt md neg m e (f.ulpMin + k)) ∧
      f.codeValue (k * 2 ^ f.mbits + roundAt md neg m e (f.ulpMin + k)) = roundAt md neg m e (f.ulpMin + k) * 2 ^ (f.ulpMin + k) := by
  obtain ⟨q, low, high, hr⟩ := roundAt_eq md neg m e (f.ulpMin + k)
  obtain ⟨hq, hk⟩ := hb q low high
  have even : k * 2 ^ f.mbits % 2 = 0 := by
    obtain ⟨j, hj⟩ := Nat.exists_eq_add_of_lt hf
    rw [hj, zero_add, pow_succ, ← mul_assoc, Nat.mul_mod_left]
  have own := f.codeValue_of hq.le hk
  have next := f.codeValue_of (r := q + 1) hq (hk.imp_right Nat.le_succ_of_le)
  rw [Nat.cast_succ] at next
  constructor
  · refine rounds_iff.2 ⟨k * 2 ^ f.mbits + q, own.trans_le low, high.trans_eq next.symm, ?_⟩
    rw [add_assoc, own, next, neighbour_add even, hr]
  · rw [hr]
    rcases neighbour_eq_or md neg (q * 2 ^ (f.ulpMin + k)) ((q + 1) * 2 ^ (f.ulpMin + k)) (m * 2 ^ e) q with h | h
    · rw [h, own]
    · rw [h, next, Nat.cast_succ]

/-- A number rounds to a code of the grid without bound, and `rnd` gives what R10 and R132 have for that code. -/
theorem rnd_number {f : FloatFmt} (hf : 0 < f.mbits) (md : Mode) (neg : Bool) (m : ℕ) (e : ℤ) :
    ∃ r, f.rounds md neg (m * 2 ^ e) r ∧ rnd f md (.fin neg m e) = f.numberAt md neg (m * 2 ^ e) r := by
  rcases eq_or_ne m 0 with rfl | hm
  · refine ⟨0, rounds_iff.2 ⟨0, by simp, ?_, by simp [neighbour_self]⟩, by simp [rnd, FloatFmt.numberAt]⟩
    simpa using f.codeValue_strictMono Nat.zero_lt_one
  · obtain ⟨k, hg, hb⟩ := f.exists_binade hm e
    obtain ⟨hrounds, hvalue⟩ := rounds_roundAt hf md neg hb
    refine ⟨_, hrounds, ?_⟩
    have above : magLt (f.magnitude f.maxCode).1 (f.magnitude f.maxCode).2 (roundAt md neg m e (f.ulpMin + k)) (f.ulpMin + k) = true ↔
        f.maxCode < k * 2 ^ f.mbits + roundAt md neg m e (f.ulpMin + k) := by
      rw [magLt_iff, ← hvalue, ← f.codeValue_strictMono.lt_iff_lt]
      rfl
    have onIt : onGrid (roundAt md neg m e (f.ulpMin + k)) (f.ulpMin + k) (min e (f.ulpMin + k)) = onGrid m e (min e (f.ulpMin + k)) ↔
        f.codeValue (k * 2 ^ f.mbits + roundAt md neg m e (f.ulpMin + k)) = m * 2 ^ e := by
      rw [onGrid_eq_iff (min_le_right _ _) (min_le_left _ _), hvalue]
    have tiny : e + Nat.log2 m < f.emin ↔ (m : ℚ) * 2 ^ e < 2 ^ f.emin := by
      obtain ⟨low, high⟩ := log2_bounds hm e
      constructor
      · exact fun h => high.trans_le (zpow_le_zpow_right₀ one_le_two (by omega))
      · exact fun h => (zpow_lt_zpow_iff_right₀ one_lt_two).1 (low.trans_lt h)
    have index : (f.ulpMin + (k : ℤ) - f.ulpMin).toNat = k := by omega
    simp only [rnd, FloatFmt.numberAt, beq_iff_eq, hm, if_false, hg, above, index]
    split
    · rfl
    · simp only [beq_eq_decide, onIt, tiny, ne_eq, decide_not, Bool.decide_and]

/-! ## What a magnitude rounds to -/

theorem FloatFmt.rounds_le {f : FloatFmt} {md : Mode} {neg : Bool} {v : ℚ} {r c : ℕ} (h : f.rounds md neg v r) (hv : v ≤ f.codeValue c) : r ≤ c := by
  obtain ⟨b, low, high, rfl⟩ := rounds_iff.1 h
  have hb : b ≤ c := f.codeValue_strictMono.le_iff_le.1 (low.trans hv)
  rcases eq_or_lt_of_le hb with rfl | hb
  · rw [le_antisymm hv low, neighbour_self]
  · rcases neighbour_eq_or md neg (f.codeValue b) (f.codeValue (b + 1)) v b with h | h <;> omega

theorem FloatFmt.le_rounds {f : FloatFmt} {md : Mode} {neg : Bool} {v : ℚ} {r c : ℕ} (h : f.rounds md neg v r) (hv : f.codeValue c ≤ v) : c ≤ r := by
  obtain ⟨b, low, high, rfl⟩ := rounds_iff.1 h
  have hb : c < b + 1 := f.codeValue_strictMono.lt_iff_lt.1 (hv.trans_lt high)
  rcases neighbour_eq_or md neg (f.codeValue b) (f.codeValue (b + 1)) v b with h | h <;> omega

theorem FloatFmt.rounds_unique {f : FloatFmt} {md : Mode} {neg : Bool} {v : ℚ} {r q : ℕ} (h : f.rounds md neg v r) (h' : f.rounds md neg v q) : r = q := by
  obtain ⟨b, low, high, rfl⟩ := rounds_iff.1 h
  obtain ⟨c, low', high', rfl⟩ := rounds_iff.1 h'
  have hb : b < c + 1 := f.codeValue_strictMono.lt_iff_lt.1 (low.trans_lt high')
  have hc : c < b + 1 := f.codeValue_strictMono.lt_iff_lt.1 (low'.trans_lt high)
  rw [show b = c by omega]

theorem FloatFmt.rounds_codeValue (f : FloatFmt) (md : Mode) (neg : Bool) (c : ℕ) : f.rounds md neg (f.codeValue c) c :=
  rounds_iff.2 ⟨c, le_rfl, f.codeValue_strictMono c.lt_succ_self, (neighbour_self md neg _ _ c).symm⟩

/-- `rnd` names the code that a number's magnitude rounds to. -/
theorem rnd_of_rounds {f : FloatFmt} (hf : 0 < f.mbits) {md : Mode} {neg : Bool} {m : ℕ} {e : ℤ} {r : ℕ} (h : f.rounds md neg (m * 2 ^ e) r) :
    rnd f md (.fin neg m e) = f.numberAt md neg (m * 2 ^ e) r := by
  obtain ⟨q, hq, hrnd⟩ := rnd_number hf md neg m e
  rw [hrnd, FloatFmt.rounds_unique hq h]

/-- A number that a format holds rounds to itself (R10). -/
theorem rnd_codeValue {f : FloatFmt} (hf : 0 < f.mbits) {md : Mode} {neg : Bool} {m : ℕ} {e : ℤ} {c : ℕ} (h : (m : ℚ) * 2 ^ e = f.codeValue c)
    (hc : c ≤ f.maxCode) : rnd f md (.fin neg m e) = { bits := f.withSign neg c } := by
  rw [rnd_of_rounds hf (h ▸ f.rounds_codeValue md neg c), FloatFmt.numberAt, if_neg (by omega), h]
  simp

@[simp] theorem rnd_zero (f : FloatFmt) (md : Mode) (neg : Bool) (e : ℤ) : rnd f md (.fin neg 0 e) = { bits := f.withSign neg 0 } := rfl

/-! ## The formats of the element types (R123, R126) -/

theorem fmtOf_mbits_pos (et : ET) : 0 < (fmtOf et).mbits := by cases et <;> decide

theorem fmtOf_ebits_pos (et : ET) : 0 < (fmtOf et).ebits := by cases et <;> decide

/-- The sign and the code of an element's bits make the bits again. -/
theorem FloatFmt.withSign_split (f : FloatFmt) {x : LaneWord} (hx : x.toNat < 2 ^ (f.ebits + f.mbits + if f.signed then 1 else 0)) :
    f.withSign (f.signed && x.getLsbD (f.ebits + f.mbits)) (x.toNat % 2 ^ (f.ebits + f.mbits)) = x := by
  refine BitVec.eq_of_toNat_eq ?_
  have value : x.toNat % 2 ^ (f.ebits + f.mbits) + (if (f.signed && x.getLsbD (f.ebits + f.mbits)) && f.signed then 2 ^ (f.ebits + f.mbits) else 0) = x.toNat := by
    have split := Nat.div_add_mod x.toNat (2 ^ (f.ebits + f.mbits))
    rw [BitVec.getLsbD, Nat.testBit_eq_decide_div_mod_eq]
    cases hs : f.signed with
    | false =>
      rw [hs] at hx
      simpa using Nat.mod_eq_of_lt hx
    | true =>
      rw [hs, if_pos rfl, pow_succ] at hx
      have : x.toNat / 2 ^ (f.ebits + f.mbits) < 2 := Nat.div_lt_of_lt_mul hx
      interval_cases q : x.toNat / 2 ^ (f.ebits + f.mbits) <;> simp <;> omega
  rw [withSign, value, BitVec.toNat_ofNat, Nat.mod_eq_of_lt x.isLt]

/-- What an element's bits stand for: a NaN, an infinity of a format that has them, or the number of a code. -/
theorem FloatFmt.value_cases (f : FloatFmt) (hf : 0 < f.ebits) (x : LaneWord) :
    f.value x = .nan ∨
    (f.value x = .inf (f.signed && x.getLsbD (f.ebits + f.mbits)) ∧ f.special = .ieee ∧ x.toNat % 2 ^ (f.ebits + f.mbits) = f.maxCode + 1) ∨
    ∃ c, c = x.toNat % 2 ^ (f.ebits + f.mbits) ∧ c ≤ f.maxCode ∧
      f.value x = .fin (f.signed && x.getLsbD (f.ebits + f.mbits)) (f.magnitude c).1 (f.magnitude c).2 := by
  have mant : 0 < 2 ^ f.mbits := by positivity
  have two : 2 ≤ 2 ^ f.ebits := Nat.le_self_pow hf.ne' 2
  have codes : 2 ^ (f.ebits + f.mbits) = 2 ^ f.ebits * 2 ^ f.mbits := pow_add 2 _ _
  have code := Nat.mod_lt x.toNat (show 0 < 2 ^ (f.ebits + f.mbits) by positivity)
  have big : 2 ≤ 2 ^ (f.ebits + f.mbits) := Nat.le_self_pow (by omega) 2
  cases h : f.special with
  | ieee =>
    simp only [value, maxCode, h, beq_iff_eq]
    generalize x.toNat % 2 ^ (f.ebits + f.mbits) = c at code ⊢
    rw [codes] at code
    have split := Nat.div_add_mod' c (2 ^ f.mbits)
    split_ifs with top zero
    · refine .inr (.inl ⟨rfl, trivial, ?_⟩)
      have : 0 < (2 ^ f.ebits - 1) * 2 ^ f.mbits := Nat.mul_pos (by omega) mant
      rw [top, zero] at split
      omega
    · exact .inl rfl
    · refine .inr (.inr ⟨c, rfl, Nat.le_sub_one_of_lt ?_, rfl⟩)
      have : c / 2 ^ f.mbits < 2 ^ f.ebits := Nat.div_lt_of_lt_mul (by rwa [mul_comm] at code)
      exact (Nat.div_lt_iff_lt_mul mant).1 (by omega)
  | topNaN =>
    simp only [value, maxCode, h, beq_iff_eq]
    split
    · exact .inl rfl
    · exact .inr (.inr ⟨_, rfl, by omega, rfl⟩)
  | plain =>
    simp only [value, maxCode, h]
    exact .inr (.inr ⟨_, rfl, by omega, rfl⟩)

/-- A code that is no NaN rounds to itself under every mode, without status (R10). -/
theorem rnd_value {f : FloatFmt} (hm : 0 < f.mbits) (he : 0 < f.ebits) (md : Mode) {x : LaneWord}
    (hx : x.toNat < 2 ^ (f.ebits + f.mbits + if f.signed then 1 else 0)) (hn : f.value x ≠ .nan) : rnd f md (f.value x) = { bits := x } := by
  have bits := f.withSign_split hx
  rcases f.value_cases he x with h | ⟨h, ieee, top⟩ | ⟨c, rfl, hc, h⟩
  · exact absurd h hn
  · rw [top] at bits
    simp only [h, rnd, ieee, bits]
  · rw [h, rnd_codeValue hm (c := x.toNat % 2 ^ (f.ebits + f.mbits)) rfl hc, bits]

end Sys2Proof.Machine
end

section
/-! PROOF. The arithmetic of exact values (00_scope.md R10, 06_numbers_and_float.md R131, R140) and the special cases of the floating operations (R142). -/
namespace Sys2Proof.Machine
open Sys2Proof

/-! ## Exact values as rationals -/

theorem Exact.rat_fin (neg : Bool) (m : ℕ) (e : ℤ) : (Exact.fin neg m e).rat = (if neg then -1 else 1) * (m * (2 : ℚ) ^ e) := rfl

theorem rat_ofCount (z : ℤ) (g : ℤ) : (Exact.fin (decide (z < 0)) z.natAbs g).rat = z * 2 ^ g := by
  rw [Exact.rat_fin, Nat.cast_natAbs, ← mul_assoc]
  congr 1
  rcases lt_or_ge z 0 with h | h
  · simp [h, abs_of_neg]
  · simp [h.not_gt, abs_of_nonneg h]

/-- A term counted on a grid below it. -/
theorem signedCount_mul (neg : Bool) (m : ℕ) {e g : ℤ} (h : g ≤ e) :
    ((if neg then -((onGrid m e g : ℕ) : ℤ) else (onGrid m e g : ℕ) : ℤ) : ℚ) * 2 ^ g = (Exact.fin neg m e).rat := by
  rw [Exact.rat_fin, ← onGrid_mul h]
  cases neg <;> simp

/-- The sum of two numbers is exact; its sign is the sum's, and R131's for zero. -/
theorem add_fin (md : Mode) (na nb : Bool) (ma mb : ℕ) (ea eb : ℤ) :
    ∃ n m e, (Exact.fin na ma ea).add md (.fin nb mb eb) = (.fin n m e, false) ∧
      ((Exact.fin na ma ea).add md (.fin nb mb eb)).1.rat = (Exact.fin na ma ea).rat + (Exact.fin nb mb eb).rat ∧
      ((Exact.fin na ma ea).rat + (Exact.fin nb mb eb).rat = 0 → n = zeroSumSign md na nb) ∧
      ((Exact.fin na ma ea).rat + (Exact.fin nb mb eb).rat ≠ 0 → (n = true ↔ (Exact.fin na ma ea).rat + (Exact.fin nb mb eb).rat < 0)) := by
  have sum := congrArg₂ (· + ·) (signedCount_mul na ma (min_le_left ea eb)) (signedCount_mul nb mb (min_le_right ea eb))
  simp only [← add_mul, ← Int.cast_add] at sum
  simp only [Exact.add, ← sum]
  generalize (if na then -((onGrid ma ea (min ea eb) : ℕ) : ℤ) else (onGrid ma ea (min ea eb) : ℕ)) +
    (if nb then -((onGrid mb eb (min ea eb) : ℕ) : ℤ) else (onGrid mb eb (min ea eb) : ℕ)) = z
  have unit : (0 : ℚ) < 2 ^ min ea eb := by positivity
  rcases eq_or_ne z 0 with rfl | hz
  · exact ⟨_, _, _, rfl, by simp [Exact.rat_fin], fun _ => rfl, fun h => absurd (by simp) h⟩
  · have hz' : (z : ℚ) * 2 ^ min ea eb ≠ 0 := mul_ne_zero (by exact_mod_cast hz) unit.ne'
    simp only [beq_iff_eq, hz, if_false]
    refine ⟨_, _, _, rfl, rat_ofCount z _, fun h => absurd h hz', fun _ => ?_⟩
    rw [decide_eq_true_iff, ← Int.cast_lt_zero (R := ℚ)]
    exact ⟨fun h => mul_neg_of_neg_of_pos h unit, fun h => neg_of_mul_neg_left h unit.le⟩

theorem rat_mul (na nb : Bool) (ma mb : ℕ) (ea eb : ℤ) :
    (Exact.fin (na != nb) (ma * mb) (ea + eb)).rat = (Exact.fin na ma ea).rat * (Exact.fin nb mb eb).rat := by
  simp only [Exact.rat_fin, Nat.cast_mul, zpow_add₀ (two_ne_zero (α := ℚ))]
  cases na <;> cases nb <;> simp <;> ring

/-! ## Saturation (R10) -/

theorem rat_top (f : FloatFmt) (neg : Bool) :
    (Exact.fin neg (f.magnitude f.maxCode).1 (f.magnitude f.maxCode).2).rat = if neg then -f.codeValue f.maxCode else f.codeValue f.maxCode := by
  rw [Exact.rat_fin]
  cases neg
  · exact one_mul _
  · exact neg_one_mul _

theorem sat_number (f : FloatFmt) (neg : Bool) (m : ℕ) (e : ℤ) :
    (sat f (.fin neg m e)).rat = max (-f.codeValue f.maxCode) (min (f.codeValue f.maxCode) (Exact.fin neg m e).rat) := by
  have htop : (f.magnitude f.maxCode).1 * (2 : ℚ) ^ (f.magnitude f.maxCode).2 = f.codeValue f.maxCode := rfl
  have hpos := f.codeValue_nonneg f.maxCode
  have hm : (0 : ℚ) ≤ m * 2 ^ e := by positivity
  simp only [sat, magLt_iff, htop]
  split
  · next h => rw [rat_top, Exact.rat_fin]; cases neg <;> grind
  · next h => rw [Exact.rat_fin]; cases neg <;> grind

/-! ## Special results of the floating operations (R140, R142) -/

/-- The canonical NaN as an element, with its NV. -/
def nanElem (et : ET) (nv : Bool) : Elem := { bits := (fmtOf et).canonicalNaN, flags := { nv := nv } }

/-- What stands for an infinity in a format, with its DZ. -/
def infElem (et : ET) (md : Mode) (n dz : Bool) : Elem := { bits := (rnd (fmtOf et) md (.inf n)).bits, flags := { dz := dz } }

/-- A zero of a sign. -/
def zeroElem (et : ET) (n : Bool) : Elem := { bits := (fmtOf et).withSign n 0 }

section
variable {et : ET} {md : Mode} {x y : LaneWord} {n nx ny : Bool} {m mx my : ℕ} {e ex ey : ℤ}

theorem fdivElem_nan_left (hx : fVal et x = .nan) : fdivElem et md x y = nanElem et false := by
  simp only [fdivElem, hx]
  rfl

theorem fdivElem_nan_right (hx : fVal et x = .nan) : fdivElem et md y x = nanElem et false := by
  cases hy : fVal et y <;> simp only [fdivElem, hx, hy] <;> rfl

theorem fdivElem_by_zero (hx : fVal et x = .fin nx mx ex) (hy : fVal et y = .fin ny my ey) (hm : mx ≠ 0) (h0 : my = 0) :
    fdivElem et md x y = infElem et md (nx != ny) true := by
  simp only [fdivElem, hx, hy, h0, beq_iff_eq, hm, if_false, if_true]
  rfl

theorem fdivElem_zeros (hx : fVal et x = .fin nx mx ex) (hy : fVal et y = .fin ny my ey) (hm : mx = 0) (h0 : my = 0) :
    fdivElem et md x y = nanElem et true := by
  simp only [fdivElem, hx, hy, h0, hm, beq_iff_eq, if_true]
  rfl

theorem fdivElem_infs (hx : fVal et x = .inf nx) (hy : fVal et y = .inf ny) : fdivElem et md x y = nanElem et true := by
  simp only [fdivElem, hx, hy]
  rfl

theorem fdivElem_by_inf (hx : fVal et x = .fin nx mx ex) (hy : fVal et y = .inf ny) : fdivElem et md x y = zeroElem et (nx != ny) := by
  simp only [fdivElem, hx, hy]
  rfl

theorem fdivElem_of_inf (hx : fVal et x = .inf nx) (hy : fVal et y = .fin ny my ey) : fdivElem et md x y = infElem et md (nx != ny) false := by
  simp only [fdivElem, hx, hy]
  rfl

theorem fdivElem_of_zero (hx : fVal et x = .fin nx mx ex) (hy : fVal et y = .fin ny my ey) (hm : mx = 0) (h0 : my ≠ 0) :
    fdivElem et md x y = zeroElem et (nx != ny) := by
  simp only [fdivElem, hx, hy, h0, hm, beq_iff_eq, if_false, if_true]
  rfl

theorem rootElems_nan (hx : fVal et x = .nan) : fsqrtElem et md x = nanElem et false ∧ frsqElem et md x = nanElem et false ∧
    frcpElem et md x = nanElem et false ∧ fexp2Elem et md x = nanElem et false ∧ flog2Elem et md x = nanElem et false := by
  simp only [fsqrtElem, frsqElem, frcpElem, fexp2Elem, flog2Elem, hx]
  exact ⟨rfl, rfl, rfl, rfl, rfl⟩

theorem sumElems_nan (hx : fVal et x = .nan) : faddElem et md x y = nanElem et false ∧ fsubElem et md y x = nanElem et false ∧
    fmulElem et md x y = nanElem et false := by
  have right : (fVal et y).add md .nan = (.nan, false) := by cases fVal et y <;> rfl
  refine ⟨?_, ?_, ?_⟩
  · simp only [faddElem, hx, Exact.add]
    rfl
  · simp only [fsubElem, hx, Exact.neg, right]
    rfl
  · simp only [fmulElem, hx, Exact.mul]
    rfl

theorem fsqrtElem_zero (hx : fVal et x = .fin n m e) (hm : m = 0) : fsqrtElem et md x = zeroElem et n := by
  simp only [fsqrtElem, hx, hm, beq_iff_eq, if_true]
  rfl

theorem fsqrtElem_inf (hx : fVal et x = .inf false) : fsqrtElem et md x = infElem et md false false := by
  simp only [fsqrtElem, hx]
  rfl

theorem rootElems_negative (hx : fVal et x = .fin true m e) (hm : m ≠ 0) :
    fsqrtElem et md x = nanElem et true ∧ frsqElem et md x = nanElem et true ∧ flog2Elem et md x = nanElem et true := by
  simp only [fsqrtElem, frsqElem, flog2Elem, hx, beq_iff_eq, hm, if_false, if_true]
  exact ⟨rfl, rfl, rfl⟩

theorem rootElems_negative_inf (hx : fVal et x = .inf true) : fsqrtElem et md x = nanElem et true ∧ frsqElem et md x = nanElem et true ∧
    flog2Elem et md x = nanElem et true ∧ fexp2Elem et md x = zeroElem et false := by
  simp only [fsqrtElem, frsqElem, flog2Elem, fexp2Elem, hx, if_true]
  exact ⟨rfl, rfl, rfl, rfl⟩

theorem rootElems_zero (hx : fVal et x = .fin n m e) (hm : m = 0) : frsqElem et md x = infElem et md n true ∧
    frcpElem et md x = infElem et md n true ∧ flog2Elem et md x = infElem et md true true := by
  simp only [frsqElem, frcpElem, flog2Elem, hx, hm, beq_iff_eq, if_true]
  exact ⟨rfl, rfl, rfl⟩

theorem rootElems_inf (hx : fVal et x = .inf false) : frsqElem et md x = zeroElem et false ∧ fexp2Elem et md x = infElem et md false false ∧
    flog2Elem et md x = infElem et md false false := by
  simp only [frsqElem, fexp2Elem, flog2Elem, hx]
  exact ⟨rfl, rfl, rfl⟩

theorem frcpElem_inf (hx : fVal et x = .inf n) : frcpElem et md x = zeroElem et n := by
  simp only [frcpElem, hx]
  rfl

/-- 2^0 is the code of one. -/
theorem fexp2Elem_zero (hx : fVal et x = .fin n m e) (hm : m = 0) {c : ℕ} (hc : c ≤ (fmtOf et).maxCode) (hone : (fmtOf et).codeValue c = 1) :
    fexp2Elem et md x = { bits := (fmtOf et).withSign false c } := by
  have one : rnd (fmtOf et) md (.fin false 1 0) = { bits := (fmtOf et).withSign false c } := rnd_codeValue (fmtOf_mbits_pos et) (by simp [hone]) hc
  simp only [fexp2Elem, hx, hm, exp2, beq_iff_eq, if_true, roundElem, one]

/-- log2 of a power of two with exponent 0 is +0. -/
theorem flog2Elem_one {l : ℕ} (hx : fVal et x = .fin false (2 ^ l) (-l)) : flog2Elem et md x = zeroElem et false := by
  have log : binaryLog (2 ^ l) (-l) = .fin false 0 0 := by simp [binaryLog, Exact.ofInt]
  simp only [flog2Elem, hx, log, beq_iff_eq, pow_eq_zero_iff', OfNat.ofNat_ne_zero, false_and, if_false, roundElem, rnd_zero]
  rfl

theorem sumElems_infs (hx : fVal et x = .inf true) (hy : fVal et y = .inf false) :
    faddElem et md x y = nanElem et true ∧ fsubElem et md x x = nanElem et true := by
  simp only [faddElem, fsubElem, hx, hy]
  exact ⟨rfl, rfl⟩

theorem productElems_invalid {z : LaneWord} (hx : fVal et x = .inf nx) (hy : fVal et y = .fin ny my ey) (hm : my = 0) :
    fmulElem et md x y = nanElem et true ∧ ffmaElem et md false x y z = nanElem et true ∧ ffmaElem et md true x y z = nanElem et true := by
  have product : (Exact.inf nx).mul (.fin ny my ey) = (.nan, true) := by simp [Exact.mul, hm]
  simp only [fmulElem, ffmaElem, Exact.fma, hx, hy, product]
  exact ⟨rfl, rfl, rfl⟩

end

/-- Settles O10: numbers stand on their format's grid, the special cases by their equations, sums and products by exact arithmetic. -/
theorem floatRules : Obligations.FloatRules := by
  unfold Obligations.FloatRules
  refine ⟨fun et md x => ?_, fun et md x y z nx ny mx my ex ey => ?_, ?_⟩
  · exact rnd_value (fmtOf_mbits_pos et) (fmtOf_ebits_pos et) md
  · refine ⟨fun h => ?_, fdivElem_by_zero, fdivElem_zeros, fdivElem_infs, fdivElem_by_inf, fdivElem_of_inf, fdivElem_of_zero, fsqrtElem_zero,
      fsqrtElem_zero, fsqrtElem_inf, rootElems_negative, rootElems_negative_inf, rootElems_zero, rootElems_inf, frcpElem_inf,
      fun h h0 => ⟨?_, ?_, ?_⟩, ⟨?_, ?_, ?_⟩, sumElems_infs, productElems_invalid⟩
    · obtain ⟨sqrt, rsq, rcp, exp, log⟩ := rootElems_nan (md := md) h
      obtain ⟨sum, difference, product⟩ := sumElems_nan (md := md) (y := y) h
      exact ⟨fdivElem_nan_left h, fdivElem_nan_right h, sqrt, rsq, rcp, exp, log, sum, difference, product⟩
    · rintro rfl
      exact fexp2Elem_zero h h0 (c := 0x3F800000) (by decide) (FloatFmt.codeValue_one (b := 126) rfl)
    · rintro rfl
      exact fexp2Elem_zero h h0 (c := 0x3F80) (by decide) (FloatFmt.codeValue_one (b := 126) rfl)
    · rintro rfl
      exact fexp2Elem_zero h h0 (c := 0x3C00) (by decide) (FloatFmt.codeValue_one (b := 14) rfl)
    · exact flog2Elem_one (l := 23) (by decide)
    · exact flog2Elem_one (l := 7) (by decide)
    · exact flog2Elem_one (l := 10) (by decide)
  · rintro md a b na nb ma mb ea eb rfl rfl
    obtain ⟨n, m, e, hadd, hrat, hzero, hsign⟩ := add_fin md na nb ma mb ea eb
    exact ⟨⟨n, m, e, hadd, hrat, hzero, hsign⟩, ⟨_, _, rfl, rat_mul na nb ma mb ea eb⟩, fun et => ⟨sat_number _ na ma ea, rfl, rat_top _ na⟩⟩

end Sys2Proof.Machine
end

section
/-! PROOF. Rounding of numbers and conversions by destination (00_scope.md R10, 06_numbers_and_float.md R132, R147). -/
namespace Sys2Proof.Machine
open Sys2Proof

/-! ## The largest codes and overflows (R10) -/

theorem overflow_eq (et : ET) (md : Mode) (neg : Bool) :
    (fmtOf et).overflow md neg = if et = .e4m3 ∨ et = .sc12 then (fmtOf et).canonicalNaN
      else if et = .e2m1 then (fmtOf et).withSign neg 7
      else (fmtOf et).withSign neg
        (if md = .rne ∨ (md = .ru ∧ neg = false) ∨ (md = .rd ∧ neg = true) then (fmtOf et).maxCode + 1 else (fmtOf et).maxCode) := by
  cases et <;> cases md <;> cases neg <;> rfl

theorem codeValue_e4m3_top : (fmtOf .e4m3).codeValue 126 = 448 ∧ (fmtOf .e4m3).codeValue 127 = 480 := by
  norm_num [FloatFmt.codeValue, FloatFmt.magnitude, fmtOf, FloatFmt.ulpMin, FloatFmt.emin]

/-- Up to the middle between 448 and the next value of the grid, rounding to nearest gives 448 (R10). -/
theorem rnd_e4m3_tie (neg : Bool) {m : ℕ} {e : ℤ} (low : (448 : ℚ) < m * 2 ^ e) (high : (m : ℚ) * 2 ^ e ≤ 464) :
    rnd (fmtOf .e4m3) .rne (.fin neg m e) = { bits := if neg then 0xFE#32 else 0x7E#32, flags := { nx := true } } := by
  obtain ⟨top, next⟩ := codeValue_e4m3_top
  have rounds : (fmtOf .e4m3).rounds .rne neg (m * 2 ^ e) 126 := by
    refine rounds_iff.2 ⟨126, by rw [top]; exact low.le, by rw [next]; linarith, ?_⟩
    simp only [neighbour, top, next]
    grind
  have small : ¬ (m : ℚ) * 2 ^ e < 2 ^ (fmtOf .e4m3).emin := by
    have : ((2 : ℚ) ^ (fmtOf .e4m3).emin) ≤ 448 := by norm_num [fmtOf, FloatFmt.emin]
    linarith
  rw [rnd_of_rounds (fmtOf_mbits_pos _) rounds, FloatFmt.numberAt, if_neg (by decide), top]
  simp only [small, and_false, decide_false, ne_eq, low.ne, not_false_eq_true, decide_true]
  cases neg <;> rfl

/-- Beyond the middle E4M3 overflows to NaN (R10). -/
theorem rnd_e4m3_overflow (neg : Bool) {m : ℕ} {e : ℤ} (low : (464 : ℚ) < m * 2 ^ e) :
    rnd (fmtOf .e4m3) .rne (.fin neg m e) = { bits := 0x7F#32, flags := { ovf := true, nx := true } } := by
  obtain ⟨top, next⟩ := codeValue_e4m3_top
  obtain ⟨r, hr, hrnd⟩ := rnd_number (fmtOf_mbits_pos .e4m3) .rne neg m e
  have above : 127 ≤ r := by
    rcases le_or_gt (480 : ℚ) (m * 2 ^ e) with far | near
    · exact FloatFmt.le_rounds hr (by rwa [next])
    · have rounds : (fmtOf .e4m3).rounds .rne neg (m * 2 ^ e) 127 := by
        refine rounds_iff.2 ⟨126, by rw [top]; linarith, by rwa [next], ?_⟩
        simp only [neighbour, top, next]
        grind
      exact (FloatFmt.rounds_unique hr rounds).ge
  have max : (fmtOf .e4m3).maxCode = 126 := rfl
  rw [hrnd, FloatFmt.numberAt, if_pos (by omega)]
  rfl

/-! ## Conversion to an integer (R147) -/

theorem roundsInt_self (md : Mode) (i : ℤ) : roundsInt md i i := by
  cases md <;> simp [roundsInt]

theorem roundsInt_rne_neg {v : ℚ} {i : ℤ} (h : roundsInt .rne v i) : roundsInt .rne (-v) (-i) := by
  obtain ⟨near, even⟩ := h
  have mirror : |(-v) - ((-i : ℤ) : ℚ)| = |v - i| := by
    rw [Int.cast_neg, ← neg_add', abs_neg, ← sub_eq_add_neg]
  simp only [roundsInt, mirror]
  exact ⟨near, fun h => by have := even h; omega⟩

/-- The nearest count, in a tie the even one. -/
theorem roundsInt_rne {v : ℚ} {q : ℕ} (low : (q : ℚ) < v) (high : v < q + 1) (neg : Bool) : roundsInt .rne v (neighbour .rne neg q (q + 1) v q : ℤ) := by
  have two := Nat.mod_two_eq_zero_or_one q
  simp only [neighbour, low.ne', if_false]
  split_ifs with below above
  · refine ⟨abs_le.2 ⟨?_, ?_⟩, fun h => absurd h (abs_lt.2 ⟨?_, ?_⟩).ne⟩ <;> push_cast <;> linarith
  · refine ⟨abs_le.2 ⟨?_, ?_⟩, fun h => absurd h (abs_lt.2 ⟨?_, ?_⟩).ne⟩ <;> push_cast <;> linarith
  · refine ⟨?_, fun _ => by omega⟩
    rcases two with h | h <;> rw [h] <;> push_cast <;> exact abs_le.2 ⟨by linarith, by linarith⟩

/-- The neighbour of a magnitude, under its sign, is what the mode names for the number. -/
theorem roundsInt_neighbour (md : Mode) (neg : Bool) {v : ℚ} {q : ℕ} (low : (q : ℚ) ≤ v) (high : v < q + 1) :
    roundsInt md ((if neg then -1 else 1) * v) (if neg then -(neighbour md neg q (q + 1) v q : ℤ) else neighbour md neg q (q + 1) v q) := by
  rcases eq_or_lt_of_le low with rfl | low
  · rw [neighbour_self]
    cases neg
    · simpa using roundsInt_self md q
    · simpa using roundsInt_self md (-q)
  · have pos : 0 ≤ v := le_trans (by positivity) low.le
    have negative : ¬ v ≤ 0 := not_le.2 (lt_of_le_of_lt (by positivity) low)
    have floor : ⌊v⌋ = q := Int.floor_eq_iff.2 ⟨by simpa using low.le, by simpa using high⟩
    have ceil : ⌈v⌉ = q + 1 := Int.ceil_eq_iff.2 ⟨by simpa using low, by simpa using high.le⟩
    cases md with
    | rne =>
      have nearest := roundsInt_rne low high neg
      cases neg
      · simpa using nearest
      · simpa using roundsInt_rne_neg nearest
    | rz => cases neg <;> simp [roundsInt, neighbour, low.ne', floor, pos, negative, Int.ceil_neg]
    | ru => cases neg <;> simp [roundsInt, neighbour, low.ne', floor, ceil, Int.ceil_neg]
    | rd => cases neg <;> simp [roundsInt, neighbour, low.ne', floor, ceil, Int.floor_neg]

theorem clampTo_eq (et : ET) (i : ℤ) :
    clampTo et i = if intMin et ≤ i ∧ i ≤ intMax et then (i, false) else (max (intMin et) (min (intMax et) i), true) := by
  have order : intMin et ≤ intMax et := by cases et <;> decide
  unfold clampTo
  split_ifs with below inside above inside inside
  · omega
  · rw [max_eq_left (by omega)]
  · omega
  · rw [min_eq_left (by omega), max_eq_right order]
  · rfl
  · omega

/-- Conversion of a number to an integer type: what the mode names, or the nearest limit with NV. -/
theorem cvtInt_fin (et : ET) (md : Mode) (neg : Bool) (m : ℕ) (e : ℤ) :
    ∃ i, roundsInt md (Exact.fin neg m e).rat i ∧ cvtInt et md (.fin neg m e) =
      if intMin et ≤ i ∧ i ≤ intMax et then { bits := intBits et i, flags := { nx := decide ((i : ℚ) ≠ (Exact.fin neg m e).rat) } }
      else { bits := intBits et (max (intMin et) (min (intMax et) i)), flags := { nv := true } } := by
  obtain ⟨q, low, high, hr⟩ := roundAt_eq md neg m e 0
  simp only [zpow_zero, mul_one] at low high hr
  refine ⟨_, roundsInt_neighbour md neg low high, ?_⟩
  rw [← hr]
  have onIt : onGrid (roundAt md neg m e 0) 0 (min e 0) = onGrid m e (min e 0) ↔
      ((if neg then -(roundAt md neg m e 0 : ℤ) else roundAt md neg m e 0 : ℤ) : ℚ) = (Exact.fin neg m e).rat := by
    rw [onGrid_eq_iff (min_le_right _ _) (min_le_left _ _), Exact.rat_fin, zpow_zero, mul_one]
    cases neg <;> simp
  simp only [cvtInt, clampTo_eq, beq_eq_decide, onIt]
  split_ifs <;> simp_all

/-! ## Conversion by destination (R147) -/

theorem convert_wide {et : ET} (h : et = .fp32 ∨ et = .bf16 ∨ et = .fp16) (md : Mode) (nsat : Bool) (x : Exact) :
    convert et md nsat x = rnd (fmtOf et) md x := by
  rcases h with rfl | rfl | rfl <;> rfl

theorem convert_narrow {et : ET} (h : et.isNarrowF = true) (md : Mode) (nsat : Bool) (x : Exact) : convert et md nsat x = cvtNarrow et md nsat x :=
  if_pos h

theorem convert_int {et : ET} (h : et.isCvtInt = true) (md : Mode) (nsat : Bool) (x : Exact) : convert et md nsat x = cvtInt et md x := by
  have other : et.isNarrowF = false ∧ (et == .sc12) = false := by
    revert h
    cases et <;> decide
  simp only [convert, other, h, if_true, Bool.false_eq_true, if_false]

theorem cvtNarrow_number (et : ET) (md : Mode) {x : Exact} (hx : x ≠ .nan) : cvtNarrow et md true x = rnd (fmtOf et) md x ∧
    (cvtNarrow et md false x).bits = (rnd (fmtOf et) md (sat (fmtOf et) x)).bits ∧ (cvtNarrow et md false x).flags = (rnd (fmtOf et) md x).flags := by
  cases x with
  | nan => exact absurd rfl hx
  | inf n => exact ⟨rfl, rfl, rfl⟩
  | fin n m e => exact ⟨rfl, rfl, rfl⟩

theorem Exact.rat_eq_zero {neg : Bool} {m : ℕ} {e : ℤ} : (Exact.fin neg m e).rat = 0 ↔ m = 0 := by
  have unit : (2 : ℚ) ^ e ≠ 0 := by positivity
  rw [rat_fin]
  cases neg <;> simp [unit]

theorem Exact.rat_neg_iff {neg : Bool} {m : ℕ} {e : ℤ} : (Exact.fin neg m e).rat < 0 ↔ neg = true ∧ m ≠ 0 := by
  have unit : (0 : ℚ) < 2 ^ e := by positivity
  have magnitude : (0 : ℚ) ≤ m * 2 ^ e := by positivity
  cases neg
  · simp [rat_fin, magnitude]
  · simp [rat_fin, unit, Nat.pos_iff_ne_zero]

theorem Exact.rat_pos_iff {neg : Bool} {m : ℕ} {e : ℤ} : 0 < (Exact.fin neg m e).rat ↔ neg = false ∧ m ≠ 0 := by
  have unit : (0 : ℚ) < 2 ^ e := by positivity
  have magnitude : (0 : ℚ) ≤ m * 2 ^ e := by positivity
  cases neg
  · simp [rat_fin, unit, Nat.pos_iff_ne_zero]
  · simp [rat_fin, magnitude]

/-- SC12 has neither negative values nor infinities. -/
theorem cvtScale_cases (md : Mode) (x : Exact) : (x.rat = 0 → x.isNaN = false → x.isInf = false → cvtScale md x = { bits := 0#32 }) ∧
    (x.isNaN = true ∨ x.isInf = true ∨ x.rat < 0 → cvtScale md x = { bits := 0xFFF#32, flags := { nv := true } }) ∧
    (0 < x.rat → cvtScale md x = rnd (fmtOf .sc12) md x) := by
  cases x with
  | nan => simp [cvtScale, Exact.isZero, Exact.isNaN, Exact.rat]
  | inf n => simp [cvtScale, Exact.isZero, Exact.isNaN, Exact.isInf, Exact.rat]
  | fin n m e =>
    rw [Exact.rat_eq_zero, Exact.rat_neg_iff, Exact.rat_pos_iff]
    refine ⟨fun h _ _ => ?_, fun h => ?_, fun ⟨hn, hm⟩ => ?_⟩
    · simp [cvtScale, Exact.isZero, h]
    · obtain ⟨hn, hm⟩ : n = true ∧ m ≠ 0 := by simpa [Exact.isNaN, Exact.isInf] using h
      simp [cvtScale, Exact.isZero, Exact.isNeg, hm, hn]
    · simp [cvtScale, Exact.isZero, Exact.isNaN, Exact.isInf, Exact.isNeg, hm, hn]

/-! ## Dequantisation (R150) -/

theorem dequantElem_nan {src et : ET} {md : Mode} {y sc : LaneWord} (h : (fmtOf .sc12).value sc = .nan ∨ fVal src y = .nan) :
    dequantElem src et md y sc = nanElem et false := by
  have nan : ((fmtOf .sc12).value sc).isNaN || (fVal src y).isNaN := by
    rcases h with h | h <;> simp [h, Exact.isNaN]
  simp only [dequantElem, nan, if_true]
  rfl

/-- A scale that is no NaN is a nonnegative number. -/
theorem scale_cases {sc : LaneWord} (h : (fmtOf .sc12).value sc ≠ .nan) : ∃ m e, (fmtOf .sc12).value sc = .fin false m e := by
  rcases (fmtOf .sc12).value_cases (by decide) sc with nan | ⟨-, ieee, -⟩ | ⟨c, -, -, number⟩
  · exact absurd nan h
  · exact absurd ieee (by decide)
  · exact ⟨_, _, number⟩

theorem rnd_inf_flags (f : FloatFmt) (md : Mode) (neg : Bool) : (rnd f md (.inf neg)).flags = {} := by
  simp only [rnd]
  split <;> rfl

theorem dequantElem_inf {src et : ET} {md : Mode} {y sc : LaneWord} {n : Bool} (hv : fVal src y = .inf n) (hs : (fmtOf .sc12).value sc ≠ .nan) :
    dequantElem src et md y sc = if ((fmtOf .sc12).value sc).rat = 0 then nanElem et true else { bits := (rnd (fmtOf et) md (.inf n)).bits } := by
  obtain ⟨m, e, h⟩ := scale_cases hs
  simp only [dequantElem, h, hv, Exact.isNaN, Exact.mul, Exact.rat_eq_zero, beq_iff_eq, Bool.or_self, Bool.false_eq_true, if_false]
  split
  · rfl
  · simp only [Bool.bne_false, roundElem, rnd_inf_flags]

theorem rnd_number_nv (f : FloatFmt) (md : Mode) (neg : Bool) (m : ℕ) (e : ℤ) : (rnd f md (.fin neg m e)).flags.nv = false := by
  simp only [rnd]
  split_ifs <;> rfl

theorem dequantElem_number {src et : ET} {md : Mode} {y sc : LaneWord} {n : Bool} {m : ℕ} {e : ℤ} (hv : fVal src y = .fin n m e)
    (hs : (fmtOf .sc12).value sc ≠ .nan) : ∃ m' e', (Exact.fin n m' e').rat = (fVal src y).rat * ((fmtOf .sc12).value sc).rat ∧
      dequantElem src et md y sc = { bits := (rnd (fmtOf et) md (.fin n m' e')).bits, flags := (rnd (fmtOf et) md (.fin n m' e')).flags } := by
  obtain ⟨ms, es, h⟩ := scale_cases hs
  refine ⟨m * ms, e + es, ?_, ?_⟩
  · rw [hv, h, ← rat_mul, Bool.bne_false]
  · simp only [dequantElem, h, hv, Exact.isNaN, Exact.mul, roundElem, Bool.or_self, Bool.false_eq_true, if_false, Bool.bne_false]
    rw [← rnd_number_nv (fmtOf et) md n (m * ms) (e + es)]

end Sys2Proof.Machine
end

section
/-! PROOF. Quantisation of a block (06_numbers_and_float.md R148): quotients with a last bit for what lies below round as the quotients themselves. -/
namespace Sys2Proof.Machine
open Sys2Proof

/-! ## Magnitudes that no short number tells apart -/

/-- No number of 64 significant bits stands between the two magnitudes, or on one of them only. -/
def Alike (v w : ℚ) : Prop := ∀ (a : ℕ) (g : ℤ), a < 2 ^ 64 → ((a : ℚ) * 2 ^ g < v ↔ (a : ℚ) * 2 ^ g < w) ∧ (v < a * 2 ^ g ↔ w < a * 2 ^ g)

theorem Alike.lt_iff {v w : ℚ} (h : Alike v w) {a : ℕ} (ha : a < 2 ^ 64) (g : ℤ) : (a : ℚ) * 2 ^ g < v ↔ (a : ℚ) * 2 ^ g < w := (h a g ha).1

theorem Alike.gt_iff {v w : ℚ} (h : Alike v w) {a : ℕ} (ha : a < 2 ^ 64) (g : ℤ) : v < a * 2 ^ g ↔ w < a * 2 ^ g := (h a g ha).2

theorem Alike.eq_iff {v w : ℚ} (h : Alike v w) {a : ℕ} (ha : a < 2 ^ 64) (g : ℤ) : v = a * 2 ^ g ↔ w = a * 2 ^ g := by
  have low := h.lt_iff ha g
  have high := h.gt_iff ha g
  grind

theorem Alike.symm {v w : ℚ} (h : Alike v w) : Alike w v := fun a g ha => ⟨(h a g ha).1.symm, (h a g ha).2.symm⟩

/-- A code's value is a number of mbits + 1 significant bits. -/
theorem FloatFmt.codeValue_short {f : FloatFmt} (hf : f.mbits < 62) (c : ℕ) : ∃ (a : ℕ) (g : ℤ), a < 2 ^ 62 ∧
    f.codeValue c = a * 2 ^ g ∧ f.codeValue (c + 1) = (a + 1) * 2 ^ g := by
  obtain ⟨k, r, rfl, hr, hk⟩ := f.exists_code c
  refine ⟨r, f.ulpMin + k, hr.trans_le (Nat.pow_le_pow_right two_pos (by omega)), f.codeValue_of hr.le hk, ?_⟩
  rw [add_assoc, f.codeValue_of hr (hk.imp_right Nat.le_succ_of_le), Nat.cast_succ]

/-- Magnitudes that are alike round to the same code. -/
theorem Alike.rounds {f : FloatFmt} (hf : f.mbits < 62) {v w : ℚ} (h : Alike v w) {md : Mode} {neg : Bool} {r : ℕ} (hr : f.rounds md neg v r) :
    f.rounds md neg w r := by
  obtain ⟨c, low, high, rfl⟩ := rounds_iff.1 hr
  obtain ⟨a, g, ha, own, next⟩ := f.codeValue_short hf c
  rw [own] at low
  rw [next] at high
  have next' : ((a : ℚ) + 1) * 2 ^ g = (a + 1 : ℕ) * 2 ^ g := by push_cast; rfl
  have middle : (a : ℚ) * 2 ^ g + (a + 1) * 2 ^ g = 2 * ((2 * a + 1 : ℕ) * 2 ^ (g - 1)) := by
    rw [zpow_sub_one₀ two_ne_zero]
    push_cast
    ring
  have short : 2 * a + 1 < 2 ^ 64 := by omega
  refine rounds_iff.2 ⟨c, ?_, ?_, ?_⟩
  · rw [own, ← not_lt, ← h.gt_iff (by omega), not_lt]
    exact low
  · rw [next, next', ← h.gt_iff (by omega), ← next']
    exact high
  · rw [own, next]
    simp only [neighbour, middle, mul_lt_mul_iff_right₀ (two_pos (α := ℚ)), h.eq_iff (show a < 2 ^ 64 by omega), h.lt_iff short, h.gt_iff short]

theorem FloatFmt.eq_codeValue_iff {f : FloatFmt} (hf : f.mbits < 62) {v w : ℚ} (h : Alike v w) (c : ℕ) : f.codeValue c = v ↔ f.codeValue c = w := by
  obtain ⟨a, g, ha, own, -⟩ := f.codeValue_short hf c
  rw [own, eq_comm, h.eq_iff (by omega), eq_comm]

theorem FloatFmt.codeValue_lt_iff {f : FloatFmt} (hf : f.mbits < 62) {v w : ℚ} (h : Alike v w) (c : ℕ) : f.codeValue c < v ↔ f.codeValue c < w := by
  obtain ⟨a, g, ha, own, -⟩ := f.codeValue_short hf c
  rw [own, h.lt_iff (by omega)]

/-! ## Quotients (R142) -/

/-- A count q of more than 64 bits with a last bit for what lies below is like the magnitude itself. -/
theorem alike_sticky {q : ℕ} (hq : 2 ^ 64 ≤ q) {v : ℚ} (low : (q : ℚ) ≤ v) (high : v < q + 1) {inexact : Bool} (hi : inexact = true ↔ v ≠ q) (e : ℤ) :
    Alike (v * 2 ^ e) ((2 * q + if inexact then 1 else 0 : ℕ) * 2 ^ (e - 1)) := by
  have unit : (0 : ℚ) < 2 ^ e := by positivity
  obtain ⟨w, hw, stands⟩ : ∃ w : ℚ, ((2 * q + if inexact then 1 else 0 : ℕ) : ℚ) * 2 ^ (e - 1) = w * 2 ^ e ∧
      (v = q ∧ w = q ∨ (q : ℚ) < v ∧ (q : ℚ) < w ∧ w < q + 1) := by
    refine ⟨q + if inexact then 1 / 2 else 0, ?_, ?_⟩
    · rw [zpow_sub_one₀ two_ne_zero]
      cases inexact <;> push_cast <;> simp <;> ring
    · cases inexact with
      | false => exact .inl ⟨by simpa using hi, by simp⟩
      | true =>
        refine .inr ⟨lt_of_le_of_ne low (Ne.symm (hi.1 rfl)), ?_, ?_⟩ <;> norm_num
  intro a g ha
  rw [hw]
  rcases le_or_gt e g with h | h
  · rw [← onGrid_mul h]
    generalize onGrid a g e = j
    simp only [mul_lt_mul_iff_left₀ unit]
    rcases stands with ⟨rfl, rfl⟩ | ⟨above, above', below'⟩
    · exact ⟨.rfl, .rfl⟩
    · rcases le_or_gt j q with small | large
      · have : (j : ℚ) ≤ q := by exact_mod_cast small
        constructor <;> constructor <;> intro h <;> linarith
      · have : (q : ℚ) + 1 ≤ j := by exact_mod_cast large
        constructor <;> constructor <;> intro h <;> linarith
  · have below : (a : ℚ) * 2 ^ g < q * 2 ^ e :=
      calc (a : ℚ) * 2 ^ g < 2 ^ 64 * 2 ^ g := by gcongr; exact_mod_cast ha
        _ ≤ 2 ^ 64 * 2 ^ e := by gcongr; norm_num
        _ ≤ q * 2 ^ e := by gcongr; exact_mod_cast hq
    have hv : (q : ℚ) * 2 ^ e ≤ v * 2 ^ e := by gcongr
    have hw' : (q : ℚ) * 2 ^ e ≤ w * 2 ^ e := by
      gcongr
      rcases stands with ⟨-, h⟩ | ⟨-, h, -⟩
      · exact h.ge
      · exact h.le
    constructor <;> constructor <;> intro h <;> linarith

theorem quotient_alike {ma mb : ℕ} (ha : ma ≠ 0) (hb : mb ≠ 0) (na nb : Bool) (ea eb : ℤ) :
    ∃ m e, quotient na ma ea nb mb eb = .fin (na != nb) m e ∧ Alike (ma * 2 ^ ea / (mb * 2 ^ eb)) (m * 2 ^ e) := by
  have hb' : (mb : ℚ) ≠ 0 := by exact_mod_cast hb
  have enough : 2 ^ 64 ≤ ma * 2 ^ (guardBits + Nat.log2 mb + 1) / mb := by
    rw [Nat.le_div_iff_mul_le (Nat.pos_of_ne_zero hb)]
    calc 2 ^ 64 * mb ≤ 2 ^ guardBits * 2 ^ (Nat.log2 mb + 1) := Nat.mul_le_mul (by decide) Nat.lt_log2_self.le
      _ = 1 * 2 ^ (guardBits + Nat.log2 mb + 1) := by rw [one_mul, ← pow_add, add_assoc]
      _ ≤ ma * 2 ^ (guardBits + Nat.log2 mb + 1) := Nat.mul_le_mul_right _ (Nat.pos_of_ne_zero ha)
  have value : (ma : ℚ) * 2 ^ ea / (mb * 2 ^ eb) =
      ((ma * 2 ^ (guardBits + Nat.log2 mb + 1) : ℕ) : ℚ) / mb * 2 ^ (ea - eb - (guardBits + Nat.log2 mb + 1 : ℕ)) := by
    rw [zpow_sub₀ two_ne_zero, zpow_sub₀ two_ne_zero, zpow_natCast]
    push_cast
    field_simp
  refine ⟨_, _, rfl, ?_⟩
  rw [value]
  generalize ma * 2 ^ (guardBits + Nat.log2 mb + 1) = n at enough ⊢
  refine alike_sticky enough Nat.cast_div_le ?_ ?_ _
  · rw [div_lt_iff₀ (by positivity), mul_comm]
    exact_mod_cast Nat.lt_mul_div_succ n (Nat.pos_of_ne_zero hb)
  · rw [bne_iff_ne, not_iff_not, div_eq_iff hb', ← Nat.cast_mul, Nat.cast_inj]
    have := Nat.div_add_mod' n mb
    omega

/-! ## The largest magnitude of a block -/

theorem lt_nonnegative {m m' : ℕ} {e e' : ℤ} : (Exact.fin false m e).lt (.fin false m' e') = true ↔ (m : ℚ) * 2 ^ e < m' * 2 ^ e' := by
  have unit : (0 : ℚ) < 2 ^ e := by positivity
  have unit' : (0 : ℚ) < 2 ^ e' := by positivity
  have pos : (0 : ℚ) ≤ m * 2 ^ e := by positivity
  simp only [Exact.lt, beq_iff_eq, Bool.and_eq_true]
  split_ifs with zeros zero zero'
  · simp [zeros]
  · subst zero
    have : 0 < m' := Nat.pos_of_ne_zero fun h => zeros ⟨rfl, h⟩
    simp [this, unit']
  · simp [zero', pos]
  all_goals simp_all [magLt_iff]

theorem abs_rat (neg : Bool) (m : ℕ) (e : ℤ) : |(Exact.fin neg m e).rat| = m * 2 ^ e := by
  have pos : (0 : ℚ) ≤ m * 2 ^ e := by positivity
  rw [Exact.rat_fin, abs_mul, abs_of_nonneg pos]
  cases neg <;> simp

/-- The largest of some numbers' magnitudes is one of them, or the first. -/
theorem foldl_maxMag {xs : List Exact} (h : ∀ x ∈ xs, x.isNaN = false ∧ x.isInf = false) (m : ℕ) (e : ℤ) :
    ∃ m' e', (xs.map Exact.abs).foldl maxMag (.fin false m e) = .fin false m' e' ∧ (m : ℚ) * 2 ^ e ≤ m' * 2 ^ e' ∧
      (∀ x ∈ xs, |x.rat| ≤ m' * 2 ^ e') ∧ ((m' : ℚ) * 2 ^ e' = m * 2 ^ e ∨ ∃ x ∈ xs, |x.rat| = m' * 2 ^ e') := by
  induction xs generalizing m e with
  | nil => exact ⟨m, e, rfl, le_rfl, by simp, .inl rfl⟩
  | cons x xs ih =>
    obtain ⟨hx, hxs⟩ := List.forall_mem_cons.1 h
    obtain ⟨n, mx, ex, rfl⟩ : ∃ n mx ex, x = .fin n mx ex := by
      cases x with
      | nan => exact absurd hx.1 (by decide)
      | inf n => exact absurd hx.2 (by simp [Exact.isInf])
      | fin n mx ex => exact ⟨n, mx, ex, rfl⟩
    simp only [List.map_cons, List.foldl_cons, Exact.abs, maxMag, lt_nonnegative, List.forall_mem_cons, List.exists_mem_cons_iff, abs_rat]
    split
    · next larger =>
      obtain ⟨m', e', fold, le, all, one⟩ := ih hxs mx ex
      exact ⟨m', e', fold, larger.le.trans le, ⟨le, all⟩, .inr (one.imp Eq.symm id)⟩
    · next smaller =>
      obtain ⟨m', e', fold, le, all, one⟩ := ih hxs m e
      exact ⟨m', e', fold, le, ⟨(not_lt.1 smaller).trans le, all⟩, one.imp_right .inr⟩

/-! ## One element over its scale -/

theorem fmtOf_mbits_lt (et : ET) : (fmtOf et).mbits < 62 := by cases et <;> decide

theorem fmtOf_codeValue_top_pos (et : ET) : 0 < (fmtOf et).codeValue (fmtOf et).maxCode := by
  rw [← (fmtOf et).codeValue_zero]
  exact (fmtOf et).codeValue_strictMono (by cases et <;> decide)

theorem sat_of_le {f : FloatFmt} {neg : Bool} {m : ℕ} {e : ℤ} (h : (m : ℚ) * 2 ^ e ≤ f.codeValue f.maxCode) : sat f (.fin neg m e) = .fin neg m e :=
  if_neg fun above => absurd (magLt_iff.1 above) (not_lt.2 h)

theorem sat_of_lt {f : FloatFmt} {neg : Bool} {m : ℕ} {e : ℤ} (h : f.codeValue f.maxCode < m * 2 ^ e) :
    sat f (.fin neg m e) = .fin neg (f.magnitude f.maxCode).1 (f.magnitude f.maxCode).2 :=
  if_pos (magLt_iff.2 h)

/-- An element is its quotient by the scale, saturated and rounded to nearest, and inexact when its value is not that quotient. -/
theorem quantElem_number (et : ET) (neg : Bool) (m : ℕ) (e : ℤ) {ms : ℕ} (hs : ms ≠ 0) (es : ℤ) :
    ∃ r, (fmtOf et).rounds .rne neg (min ((fmtOf et).codeValue (fmtOf et).maxCode) (m * 2 ^ e / (ms * 2 ^ es))) r ∧
      (quantElem et (.fin false ms es) (.fin neg m e)).1 = (fmtOf et).withSign neg r ∧
      ((quantElem et (.fin false ms es) (.fin neg m e)).2 = true ↔ (fmtOf et).codeValue r ≠ m * 2 ^ e / (ms * 2 ^ es)) := by
  have mant := fmtOf_mbits_pos et
  have short := fmtOf_mbits_lt et
  have top := fmtOf_codeValue_top_pos et
  generalize hf : fmtOf et = f at *
  rcases eq_or_ne m 0 with rfl | hm
  · refine ⟨0, ?_, ?_, ?_⟩
    · simpa [min_eq_right top.le] using f.rounds_codeValue .rne neg 0
    all_goals simp [quantElem, ratio, hf, sat_of_le (show ((0 : ℕ) : ℚ) * 2 ^ (0 : ℤ) ≤ f.codeValue f.maxCode by simpa using top.le)]
  · obtain ⟨mq, eq, quot, alike⟩ := quotient_alike hm hs neg false e es
    have ratio_eq : ratio (.fin neg m e) (.fin false ms es) = .fin neg mq eq := by
      rw [Bool.bne_false] at quot
      simp only [ratio, beq_iff_eq, hm, if_false, quot]
    generalize (m : ℚ) * 2 ^ e / (ms * 2 ^ es) = v at alike ⊢
    simp only [quantElem, ratio_eq, hf]
    rcases le_or_gt ((mq : ℚ) * 2 ^ eq) (f.codeValue f.maxCode) with inside | outside
    · have inside' : v ≤ f.codeValue f.maxCode := not_lt.1 fun h => not_lt.2 inside ((FloatFmt.codeValue_lt_iff short alike _).1 h)
      obtain ⟨r, hr, hrnd⟩ := rnd_number mant .rne neg mq eq
      have hr' := alike.symm.rounds short hr
      have fits : ¬ f.maxCode < r := not_lt.2 (FloatFmt.rounds_le hr' inside')
      rw [sat_of_le inside, min_eq_right inside', hrnd, FloatFmt.numberAt, if_neg fits]
      refine ⟨r, hr', rfl, ?_⟩
      simp [FloatFmt.eq_codeValue_iff short alike]
    · have outside' := (FloatFmt.codeValue_lt_iff short alike _).2 outside
      have other : (Exact.fin neg (f.magnitude f.maxCode).1 (f.magnitude f.maxCode).2 == .fin neg mq eq) = false := by
        rw [beq_eq_false_iff_ne]
        rintro ⟨⟩
        exact outside.ne rfl
      rw [sat_of_lt outside, min_eq_left outside'.le, rnd_codeValue mant rfl le_rfl, other]
      refine ⟨f.maxCode, f.rounds_codeValue .rne neg _, rfl, ?_⟩
      simpa using outside'.ne

/-! ## The scale of a block -/

/-- Rounding a magnitude up gives the smallest code that reaches it. -/
theorem FloatFmt.rounds_up {f : FloatFmt} {v : ℚ} {r : ℕ} (h : f.rounds .ru false v r) : v ≤ f.codeValue r ∧ ∀ c < r, f.codeValue c < v := by
  obtain ⟨b, low, high, rfl⟩ := rounds_iff.1 h
  rcases eq_or_lt_of_le low with rfl | above
  · rw [neighbour_self]
    exact ⟨le_rfl, fun c hc => f.codeValue_strictMono hc⟩
  · simp only [neighbour, above.ne', if_false, Bool.false_eq_true]
    exact ⟨high.le, fun c hc => (f.codeValue_strictMono.monotone (Nat.le_of_lt_succ hc)).trans_lt above⟩

theorem sc12_top : (fmtOf .sc12).maxCode = 0xFFE ∧ (fmtOf .sc12).codeValue 0xFFE = 510 := by
  refine ⟨by decide, ?_⟩
  norm_num [FloatFmt.codeValue, FloatFmt.magnitude, fmtOf, FloatFmt.ulpMin, FloatFmt.emin]

theorem sc12_value {c : ℕ} (hc : c ≤ 0xFFE) :
    (fmtOf .sc12).value (BitVec.ofNat 32 c) = .fin false ((fmtOf .sc12).magnitude c).1 ((fmtOf .sc12).magnitude c).2 := by
  have bits : (BitVec.ofNat 32 c).toNat % 2 ^ ((fmtOf .sc12).ebits + (fmtOf .sc12).mbits) = c := by
    rw [BitVec.toNat_ofNat]
    simp only [fmtOf]
    omega
  have number : (c == 2 ^ ((fmtOf .sc12).ebits + (fmtOf .sc12).mbits) - 1) = false := by
    rw [beq_eq_false_iff_ne]
    simp only [fmtOf]
    omega
  have special : (fmtOf .sc12).special = .topNaN := rfl
  have unsigned : (fmtOf .sc12).signed = false := rfl
  simp only [FloatFmt.value, bits, special, number, unsigned, Bool.false_and, Bool.false_eq_true, if_false]

/-- The scale that brings a magnitude of at most 510 times the largest element value into range: the smallest SC12 code that does (R148). -/
theorem cvtScale_ratio {ma mt : ℕ} (ha : ma ≠ 0) (ht : mt ≠ 0) (ea et : ℤ) (h : (ma : ℚ) * 2 ^ ea / (mt * 2 ^ et) ≤ 510) :
    ∃ r, (cvtScale .ru (ratio (.fin false ma ea) (.fin false mt et))).bits = BitVec.ofNat 32 r ∧ r ≤ 0xFFE ∧
      (ma : ℚ) * 2 ^ ea / (mt * 2 ^ et) ≤ (fmtOf .sc12).codeValue r ∧ ∀ c < r, (fmtOf .sc12).codeValue c < (ma : ℚ) * 2 ^ ea / (mt * 2 ^ et) := by
  obtain ⟨top, top_value⟩ := sc12_top
  have short := fmtOf_mbits_lt .sc12
  have pos : 0 < (ma : ℚ) * 2 ^ ea / (mt * 2 ^ et) := by
    have := Nat.pos_of_ne_zero ha
    have := Nat.pos_of_ne_zero ht
    positivity
  obtain ⟨mq, eq, quot, alike⟩ := quotient_alike ha ht false false ea et
  generalize (ma : ℚ) * 2 ^ ea / (mt * 2 ^ et) = v at *
  have nonzero : 0 < (Exact.fin false mq eq).rat := by
    have := (alike.lt_iff (a := 0) (by norm_num) 0).1 (by simpa using pos)
    simpa [Exact.rat_fin] using this
  have ratio_eq : ratio (.fin false ma ea) (.fin false mt et) = .fin false mq eq := by
    simp only [ratio, beq_iff_eq, ha, if_false, quot]
    rfl
  obtain ⟨r, hr, hrnd⟩ := rnd_number (fmtOf_mbits_pos .sc12) .ru false mq eq
  have hr' := alike.symm.rounds short hr
  have fits : r ≤ 0xFFE := FloatFmt.rounds_le hr' (top_value ▸ h)
  have scale : (cvtScale .ru (.fin false mq eq)).bits = BitVec.ofNat 32 r := by
    rw [(cvtScale_cases .ru (.fin false mq eq)).2.2 nonzero, hrnd, FloatFmt.numberAt, if_neg (by omega)]
    rfl
  exact ⟨r, by rw [ratio_eq, scale], fits, FloatFmt.rounds_up hr'⟩

/-! ## A block (R148) -/

theorem quantBlock_length (et : ET) (xs : List Exact) (live : ℕ) : (quantBlock et xs live).elems.length = xs.length := by
  simp only [quantBlock]
  split_ifs <;> simp

/-- A NaN or an infinity among the values gives the NaN scale. -/
theorem quantBlock_special {et : ET} {xs : List Exact} {live : ℕ} (h : ∃ x ∈ xs, x.isNaN = true ∨ x.isInf = true) :
    quantBlock et xs live = { scale := 0xFFF#32, nv := true, elems := xs.map fun _ => (0#32, false) } := by
  have any : (xs.any fun x => x.isNaN || x.isInf) = true := by simpa [List.any_eq_true] using h
  simp only [quantBlock, any, if_true]
  rfl

theorem any_special_false {xs : List Exact} (h : ∀ x ∈ xs, x.isNaN = false ∧ x.isInf = false) : (xs.any fun x => x.isNaN || x.isInf) = false := by
  simpa [List.any_eq_false] using h

/-- A block of numbers, by its largest magnitude. -/
theorem quantBlock_numbers {et : ET} {xs : List Exact} {live : ℕ} {m : ℕ} {e : ℤ} (h : ∀ x ∈ xs, x.isNaN = false ∧ x.isInf = false)
    (hmax : (xs.map Exact.abs).foldl maxMag .zero = .fin false m e) :
    (m = 0 → quantBlock et xs live = { scale := 0#32, elems := xs.map fun _ => (0#32, false) }) ∧
    (m ≠ 0 → ∃ c ≤ 0xFFE, (quantBlock et xs live).scale = BitVec.ofNat 32 c ∧ (quantBlock et xs live).nv = false ∧
      (quantBlock et xs live).elems = xs.mapIdx (fun i x => if i < live then quantElem et ((fmtOf .sc12).value (BitVec.ofNat 32 c)) x else (0#32, false)) ∧
      if (fmtOf et).codeValue (fmtOf et).maxCode < m * 2 ^ e / 510 then c = 0xFFE ∧ (quantBlock et xs live).ss = true
      else (quantBlock et xs live).ss = false ∧ m * 2 ^ e / (fmtOf et).codeValue (fmtOf et).maxCode ≤ (fmtOf .sc12).codeValue c ∧
        ∀ b < c, (fmtOf .sc12).codeValue b < m * 2 ^ e / (fmtOf et).codeValue (fmtOf et).maxCode) := by
  simp only [quantBlock, any_special_false h, Bool.false_eq_true, if_false, hmax, Exact.isZero, beq_iff_eq]
  refine ⟨fun hm => if_pos hm, fun hm => ?_⟩
  simp only [hm, if_false]
  have top := fmtOf_codeValue_top_pos et
  have top_mag : ((fmtOf et).magnitude (fmtOf et).maxCode).1 * (2 : ℚ) ^ ((fmtOf et).magnitude (fmtOf et).maxCode).2 = (fmtOf et).codeValue (fmtOf et).maxCode := rfl
  have top_ne : ((fmtOf et).magnitude (fmtOf et).maxCode).1 ≠ 0 := by
    intro h
    rw [← top_mag, h] at top
    simp at top
  have big : ((Exact.fin false ((fmtOf et).magnitude (fmtOf et).maxCode).1 ((fmtOf et).magnitude (fmtOf et).maxCode).2).mul (Exact.ofInt 510)).1.lt (.fin false m e) = true ↔
      (fmtOf et).codeValue (fmtOf et).maxCode < m * 2 ^ e / 510 := by
    rw [lt_div_iff₀ (by norm_num), ← top_mag]
    refine lt_nonnegative.trans ?_
    rw [Nat.cast_mul, add_zero, mul_right_comm]
    rfl
  simp only [big]
  split
  · next large => exact ⟨0xFFE, le_rfl, rfl, trivial, rfl, rfl, large⟩
  · next small =>
    obtain ⟨r, bits, fits, reaches, least⟩ := cvtScale_ratio hm top_ne e ((fmtOf et).magnitude (fmtOf et).maxCode).2 (by
      rw [top_mag, div_le_iff₀ top]
      linarith)
    exact ⟨r, fits, bits, trivial, by rw [bits], Bool.eq_false_iff.2 (big.not.2 small), reaches, least⟩

/-- The elements of a block of numbers under its scale. -/
theorem quantElems_get {et : ET} {xs : List Exact} {live c : ℕ} (h : ∀ x ∈ xs, x.isNaN = false ∧ x.isInf = false) (hc : c ≤ 0xFFE)
    (hpos : 0 < (fmtOf .sc12).codeValue c) {k : ℕ} {x : Exact} {p : LaneWord × Bool} (hx : xs[k]? = some x)
    (hp : (xs.mapIdx fun i x => if i < live then quantElem et ((fmtOf .sc12).value (BitVec.ofNat 32 c)) x else (0#32, false))[k]? = some p) :
    (live ≤ k → p = (0#32, false)) ∧
    (k < live → ∃ r, (fmtOf et).rounds .rne x.isNeg (min ((fmtOf et).codeValue (fmtOf et).maxCode) (|x.rat| / (fmtOf .sc12).codeValue c)) r ∧
      p.1 = (fmtOf et).withSign x.isNeg r ∧ (p.2 = true ↔ (fmtOf et).codeValue r ≠ |x.rat| / (fmtOf .sc12).codeValue c)) := by
  rw [List.getElem?_mapIdx, hx, Option.map_some, Option.some_inj] at hp
  subst hp
  refine ⟨fun hk => if_neg (by omega), fun hk => ?_⟩
  rw [if_pos hk, sc12_value hc]
  obtain ⟨hnan, hinf⟩ := h x (List.mem_of_getElem? hx)
  cases x with
  | nan => exact absurd hnan (by decide)
  | inf n => exact absurd hinf (by simp [Exact.isInf])
  | fin n m e =>
    rw [abs_rat]
    refine quantElem_number et n m e (fun h0 => hpos.ne' ?_) _
    simp [FloatFmt.codeValue, h0]

end Sys2Proof.Machine
end

section
/-! PROOF. The statement on rounding (00_scope.md R10, 06_numbers_and_float.md R132, R147, R148, R150). -/
namespace Sys2Proof.Machine
open Sys2Proof

/-- What `rnd` gives for a number, by the code that its magnitude rounds to (R10, R132). -/
theorem rnd_spec (et : ET) (md : Mode) (neg : Bool) (m : ℕ) (e : ℤ) :
    ∃ r, (fmtOf et).rounds md neg (m * 2 ^ e) r ∧
      (r ≤ (fmtOf et).maxCode → rnd (fmtOf et) md (.fin neg m e) = { bits := (fmtOf et).withSign neg r, flags := {
        nx := decide ((fmtOf et).codeValue r ≠ m * 2 ^ e)
        unf := decide ((fmtOf et).codeValue r ≠ m * 2 ^ e ∧ (m : ℚ) * 2 ^ e < 2 ^ (fmtOf et).emin) } }) ∧
      ((fmtOf et).maxCode < r → rnd (fmtOf et) md (.fin neg m e) = { bits := (fmtOf et).overflow md neg, flags := { ovf := true, nx := true } }) := by
  obtain ⟨r, hr, hrnd⟩ := rnd_number (fmtOf_mbits_pos et) md neg m e
  exact ⟨r, hr, fun h => hrnd.trans (if_neg (not_lt.2 h)), fun h => hrnd.trans (if_pos h)⟩

/-- The largest magnitude of a block is that of any value that none exceeds. -/
theorem largest_eq {xs : List Exact} {y : Exact} {v : ℚ} (hy : y ∈ xs) (hmax : ∀ x ∈ xs, |x.rat| ≤ |y.rat|) (all : ∀ x ∈ xs, |x.rat| ≤ v)
    (one : v = 0 ∨ ∃ x ∈ xs, |x.rat| = v) : v = |y.rat| := by
  refine le_antisymm ?_ (all y hy)
  rcases one with rfl | ⟨x, hx, rfl⟩
  · exact abs_nonneg _
  · exact hmax x hx

/-- A block of zeros has scale 0 (R148). -/
theorem quantBlock_zeros {et : ET} {xs : List Exact} {live : ℕ} (h : ∀ x ∈ xs, x.isNaN = false ∧ x.isInf = false) (hall : ∀ x ∈ xs, x.rat = 0) :
    quantBlock et xs live = { scale := 0#32, elems := xs.map fun _ => (0#32, false) } := by
  obtain ⟨m, e, fold, -, -, one⟩ := foldl_maxMag h 0 0
  have zero : (m : ℚ) * 2 ^ e = 0 := by
    rcases one with h0 | ⟨x, hx, h0⟩
    · simpa using h0
    · rw [← h0, hall x hx, abs_zero]
  refine (quantBlock_numbers h fold).1 ?_
  simpa [(zpow_pos two_pos e : (0 : ℚ) < 2 ^ e).ne'] using zero

/-- A block of numbers that are not all zero: its scale by the largest magnitude (R148). -/
theorem quantBlock_scale {et : ET} {xs : List Exact} {live : ℕ} {y : Exact} (h : ∀ x ∈ xs, x.isNaN = false ∧ x.isInf = false) (hy : y ∈ xs)
    (hy0 : y.rat ≠ 0) (hmax : ∀ x ∈ xs, |x.rat| ≤ |y.rat|) :
    ∃ c ≤ 0xFFE, 0 < (fmtOf .sc12).codeValue c ∧ (quantBlock et xs live).scale = BitVec.ofNat 32 c ∧ (quantBlock et xs live).nv = false ∧
      (quantBlock et xs live).elems = xs.mapIdx (fun i x => if i < live then quantElem et ((fmtOf .sc12).value (BitVec.ofNat 32 c)) x else (0#32, false)) ∧
      ((fmtOf et).codeValue (fmtOf et).maxCode < |y.rat| / 510 → c = 0xFFE ∧ (quantBlock et xs live).ss = true) ∧
      (|y.rat| / 510 ≤ (fmtOf et).codeValue (fmtOf et).maxCode → (quantBlock et xs live).ss = false ∧
        |y.rat| / (fmtOf .sc12).codeValue c ≤ (fmtOf et).codeValue (fmtOf et).maxCode ∧
        ∀ b < c, 0 < (fmtOf .sc12).codeValue b → (fmtOf et).codeValue (fmtOf et).maxCode < |y.rat| / (fmtOf .sc12).codeValue b) := by
  obtain ⟨m, e, fold, -, all, one⟩ := foldl_maxMag h 0 0
  rw [Nat.cast_zero, zero_mul] at one
  have top := fmtOf_codeValue_top_pos et
  have ypos : 0 < |y.rat| := abs_pos.2 hy0
  have largest := largest_eq hy hmax all one
  have hm : m ≠ 0 := by
    rintro rfl
    rw [Nat.cast_zero, zero_mul] at largest
    exact ypos.ne largest
  obtain ⟨c, hc, scale, nv, elems, range⟩ := (quantBlock_numbers (et := et) (live := live) h fold).2 hm
  rw [largest] at range
  rcases lt_or_ge ((fmtOf et).codeValue (fmtOf et).maxCode) (|y.rat| / 510) with large | small
  · rw [if_pos large] at range
    obtain ⟨rfl, ss⟩ := range
    have pos : 0 < (fmtOf .sc12).codeValue 0xFFE := by
      rw [sc12_top.2]
      norm_num
    exact ⟨0xFFE, hc, pos, scale, nv, elems, fun _ => ⟨rfl, ss⟩, fun h => absurd large (not_lt.2 h)⟩
  · rw [if_neg (not_lt.2 small)] at range
    obtain ⟨ss, reaches, least⟩ := range
    have pos : 0 < (fmtOf .sc12).codeValue c := (div_pos ypos top).trans_le reaches
    exact ⟨c, hc, pos, scale, nv, elems, fun h => absurd h (not_lt.2 small),
      fun _ => ⟨ss, (div_le_comm₀ top pos).1 reaches, fun b hb hb0 => (lt_div_comm₀ hb0 top).1 (least b hb)⟩⟩

/-- Numbers raise no NV. -/
theorem quantBlock_nv {et : ET} {xs : List Exact} {live : ℕ} (h : ∀ x ∈ xs, x.isNaN = false ∧ x.isInf = false) : (quantBlock et xs live).nv = false := by
  simp only [quantBlock, any_special_false h, Bool.false_eq_true, if_false]
  split_ifs <;> rfl

theorem intMin_eq (et : ET) : intMin et = if et.isSigned then -2 ^ (et.width - 1) else 0 := by
  simp [intMin]

theorem intMax_eq (et : ET) : intMax et = if et.isSigned then 2 ^ (et.width - 1) - 1 else 2 ^ et.width - 1 := by
  simp [intMax]

/-- Settles O11: a number's code is the neighbour that the mode names, and the other results are stated from it. -/
theorem rounding : Obligations.Rounding := by
  unfold Obligations.Rounding
  refine ⟨fun et md neg m e => ?_, ⟨fun neg m e => ⟨rnd_e4m3_tie neg, rnd_e4m3_overflow neg⟩, fun et md neg => ⟨rfl, ?_, ?_, ?_⟩⟩,
    fun md x neg m e => ⟨fun et h nsat => convert_wide h md nsat x, fun et h => ?_, fun nsat => cvtScale_cases md x, fun et h nsat => ?_⟩,
    fun src et md y sc => ⟨dequantElem_nan, fun n hv hs h0 => ?_, fun n hv hs h0 => ?_, fun n m e => dequantElem_number⟩, fun et xs live het => ?_⟩
  · obtain ⟨r, hr, fits, overflows⟩ := rnd_spec et md neg m e
    refine ⟨r, hr, fun h => ?_, fun h => ?_⟩
    · simp [fits h]
    · rw [overflows h, overflow_eq]
      exact ⟨rfl, rfl⟩
  · cases et <;> simp [rnd, fmtOf]
  · rintro (rfl | rfl) <;> rfl
  · rintro rfl
    rfl
  · simp only [convert_narrow h]
    exact ⟨rfl, rfl, cvtNarrow_number et md⟩
  · simp only [convert_int h, ← intMin_eq, ← intMax_eq]
    exact ⟨rfl, rfl, cvtInt_fin et md neg m e⟩
  · rw [dequantElem_inf hv hs, if_pos h0]
    rfl
  · rw [dequantElem_inf hv hs, if_neg h0]
  · refine ⟨quantBlock_length et xs live, fun h => ?_, fun h => ?_⟩
    · rw [quantBlock_special h]
      simp
    · refine ⟨quantBlock_nv h, fun hall => ?_, fun y hy hy0 hmax => ?_⟩
      · rw [quantBlock_zeros h hall]
        simp
      · obtain ⟨c, hc, pos, scale, -, elems, large, small⟩ := quantBlock_scale (et := et) (live := live) h hy hy0 hmax
        have code : (BitVec.ofNat 32 c).toNat = c := Nat.mod_eq_of_lt (by omega)
        rw [scale, code, elems]
        refine ⟨fun above => ?_, fun within => ?_, fun k x p hx hp => quantElems_get h hc pos hx hp⟩
        · obtain ⟨rfl, ss⟩ := large above
          exact ⟨rfl, ss⟩
        · obtain ⟨ss, fits, least⟩ := small within
          exact ⟨ss, hc, pos, fits, least⟩

end Sys2Proof.Machine
end

section
/-! PROOF. The values of a multiply (13_matrix_grants_and_engine.md R303, 14_matrix_instructions.md R311 to R314; 00_scope.md R11): elements of a box, terms, chunks and window sums. -/
namespace Sys2Proof.Machine
open Sys2Proof

/-! ## Elements of a box, outputs of a slot -/

theorem getElem?_rows {α : Type} (f : ℕ → ℕ → α) {c j : ℕ} (hj : j < c) {n i : ℕ} (hi : i < n) :
    ((List.range n).flatMap fun i => (List.range c).map fun j => f i j)[i * c + j]? = some (f i j) := by
  have size (n : ℕ) : ((List.range n).flatMap fun i => (List.range c).map fun j => f i j).length = n * c := by simp [List.length_flatMap]
  induction n with
  | zero => omega
  | succ n ih =>
    rw [List.range_succ, List.flatMap_append]
    rcases Nat.lt_succ_iff_lt_or_eq.1 hi with h | rfl
    · rw [List.getElem?_append_left, ih h]
      rw [size]
      calc i * c + j < (i + 1) * c := by rw [Nat.succ_mul]; omega
        _ ≤ n * c := Nat.mul_le_mul_right c h
    · rw [List.getElem?_append_right (by rw [size]; omega), size, Nat.add_sub_cancel_left]
      simp [hj]

theorem elems_get (b : Tablet) (m : Bytes) {i j : ℕ} (hi : i < b.rows) (hj : j < b.cols) : (b.elems m)[i * b.cols + j]? = some (b.elem m i j) :=
  getElem?_rows (b.elem m) hj hi

/-- Value (i, j) of a slot is the fold of the chunks over the value before. -/
theorem outputs_get (cls : CoreClass) (g : Grant) (f : Option Factors) (acc : List LaneWord) {i j : ℕ} (hj : j < g.n) :
    (outputs cls g f acc)[i * g.n + j]? = (acc[i * g.n + j]?).map (applyChunks cls g f i j) := by
  have row : (i * g.n + j) / g.n = i := by rw [Nat.mul_comm, Nat.mul_add_div (by omega), Nat.div_eq_of_lt hj, Nat.add_zero]
  have col : (i * g.n + j) % g.n = j := by rw [Nat.mul_comm, Nat.mul_add_mod, Nat.mod_eq_of_lt hj]
  rw [outputs, List.getElem?_mapIdx, row, col]

/-! ## Terms (R311) -/

/-- The exact product of values, from the left. -/
def productFrom (p : Exact) (xs : List Exact) : Exact := xs.foldl (fun p x => (p.mul x).1) p

theorem productFrom_nan (xs : List Exact) : productFrom .nan xs = .nan := by
  induction xs with
  | nil => rfl
  | cons x xs ih => exact ih

theorem mul_nan (p : Exact) : (p.mul .nan).1 = .nan := by cases p <;> rfl

theorem productFrom_of_nan {xs : List Exact} (h : .nan ∈ xs) (p : Exact) : productFrom p xs = .nan := by
  induction xs generalizing p with
  | nil => simp at h
  | cons x xs ih =>
    rcases List.mem_cons.1 h with rfl | h
    · rw [productFrom, List.foldl_cons, mul_nan]
      exact productFrom_nan xs
    · exact ih h _

/-- Infinity times zero is no number. -/
theorem mul_invalid {p x : Exact} (h : (p.isInf = true ∧ x.isZero = true) ∨ (p.isZero = true ∧ x.isInf = true)) : (p.mul x).1 = .nan := by
  cases p <;> cases x <;> simp_all [Exact.isInf, Exact.isZero, Exact.mul]

/-- Every other product of values that are no NaN is none, infinite with an infinite factor, zero with a zero factor, of the product's sign. -/
theorem mul_valid {p x : Exact} (hp : p ≠ .nan) (hx : x ≠ .nan) (h : ¬ ((p.isInf = true ∧ x.isZero = true) ∨ (p.isZero = true ∧ x.isInf = true))) :
    (p.mul x).1 ≠ .nan ∧ (p.mul x).1.isInf = (p.isInf || x.isInf) ∧ (p.mul x).1.isZero = (p.isZero || x.isZero) ∧
      (p.mul x).1.isNeg = (p.isNeg != x.isNeg) := by
  have zero (a b : ℕ) : (a * b == 0) = (a == 0 || b == 0) := by
    rw [Bool.eq_iff_iff]
    simp
  cases p <;> cases x <;> simp_all [Exact.isInf, Exact.isZero, Exact.isNeg, Exact.mul]

/-- A product with an infinite factor and no NaN: no number with a zero factor, else an infinity of the product's sign. -/
theorem productFrom_inf {p : Exact} {xs : List Exact} (hn : ∀ x ∈ p :: xs, x ≠ .nan) (hi : ∃ x ∈ p :: xs, x.isInf = true) :
    productFrom p xs = if ∃ x ∈ p :: xs, x.isZero = true then .nan else .inf (xs.foldl (fun acc x => acc != x.isNeg) p.isNeg) := by
  induction xs generalizing p with
  | nil =>
    cases p <;> simp_all [productFrom, Exact.isInf, Exact.isZero, Exact.isNeg]
  | cons x xs ih =>
    simp only [List.forall_mem_cons, List.exists_mem_cons_iff] at hn hi
    obtain ⟨hp, hx, hxs⟩ := hn
    simp only [productFrom, List.foldl_cons, List.exists_mem_cons_iff]
    by_cases invalid : (p.isInf = true ∧ x.isZero = true) ∨ (p.isZero = true ∧ x.isInf = true)
    · rw [mul_invalid invalid, if_pos (by tauto)]
      exact productFrom_nan xs
    · obtain ⟨hne, inf, zero, sign⟩ := mul_valid hp hx invalid
      have := ih (p := (p.mul x).1) (List.forall_mem_cons.2 ⟨hne, hxs⟩) (by simp only [List.exists_mem_cons_iff, inf, Bool.or_eq_true]; tauto)
      rw [← productFrom, this]
      simp only [List.exists_mem_cons_iff, zero, sign, Bool.or_eq_true, or_assoc]

theorem exists_fin {x : Exact} (hn : x ≠ .nan) (hi : x.isInf = false) : ∃ n m e, x = .fin n m e := by
  cases x with
  | nan => exact absurd rfl hn
  | inf n => exact absurd hi (by simp [Exact.isInf])
  | fin n m e => exact ⟨n, m, e, rfl⟩

/-- A product of numbers is exact. -/
theorem productFrom_fin (n : Bool) (m : ℕ) (e : ℤ) {xs : List Exact} (h : ∀ x ∈ xs, x ≠ .nan ∧ x.isInf = false) :
    ∃ m' e', productFrom (.fin n m e) xs = .fin (xs.foldl (fun acc x => acc != x.isNeg) n) m' e' ∧
      (productFrom (.fin n m e) xs).rat = (Exact.fin n m e).rat * (xs.map Exact.rat).prod := by
  induction xs generalizing n m e with
  | nil => exact ⟨m, e, rfl, by simp [productFrom]⟩
  | cons x xs ih =>
    obtain ⟨⟨hn, hi⟩, hxs⟩ := List.forall_mem_cons.1 h
    obtain ⟨nx, mx, ex, rfl⟩ := exists_fin hn hi
    obtain ⟨m', e', value, rat⟩ := ih (n != nx) (m * mx) (e + ex) hxs
    refine ⟨m', e', value, rat.trans ?_⟩
    rw [rat_mul, List.map_cons, List.prod_cons, mul_assoc]

theorem blockUnit_eq {blk : BitVec 3} (h : blk.toNat ≤ 5) : blockUnit blk = if blk = 0#3 then 1 else 2 ^ (blk.toNat + 2) := by
  revert blk
  decide

/-- The factors of a term: the two elements, and their scales. -/
def termFactors (g : Grant) (f : Factors) (i j k : ℕ) : List Exact :=
  [elemValue g.bty (f.b.getD (k * g.n + j) 0#32),
    scaleAt (scaledType g.aty g.blk) f.sa (i * ceilDiv g.k (blockUnit g.blk) + k / blockUnit g.blk),
    scaleAt (scaledType g.bty g.blk) f.sb (k / blockUnit g.blk * g.n + j)]

/-- Either class of core forms the exact product of the factors (R299, R301). -/
theorem termAt_eq (cls : CoreClass) {g : Grant} (f : Factors) (i j k : ℕ)
    (h : (g.aty.isTileFloat = true ∧ g.bty.isTileFloat = true) ∨ (g.aty.isTileInt = true ∧ g.bty.isTileInt = true)) :
    termAt cls g f i j k = productFrom (elemValue g.aty (f.a.getD (i * g.k + k) 0#32)) (termFactors g f i j k) := by
  have product (a b : LaneWord) : productOn cls g.aty g.bty a b = ((elemValue g.aty a).mul (elemValue g.bty b)).1 := by
    cases cls with
    | m => exact columnProduct_eq (by simpa using h) a b
    | e => rfl
  simp only [termAt, product]
  rfl

/-! ## Integer chunks (R313) -/

theorem toInt_intBits {i : ℤ} (low : -2 ^ 31 ≤ i) (high : i ≤ 2 ^ 31 - 1) : (intBits .int32 i).toInt = i := by
  have modulus : ((2 ^ ET.int32.width : ℕ) : ℤ) = 4294967296 := rfl
  rw [intBits, wrapTo, modulus, BitVec.toInt_eq_toNat_bmod, BitVec.toNat_ofNat, Int.bmod_def]
  omega

theorem applyChunk_int (acc : LaneWord) (ts : List Exact) :
    (applyChunk true acc ts).1.toInt = max (-2 ^ 31) (min (2 ^ 31 - 1) (acc.toInt + (ts.map termInt).sum)) ∧
      ((applyChunk true acc ts).2 = true ↔ (applyChunk true acc ts).1.toInt ≠ acc.toInt + (ts.map termInt).sum) := by
  have limits : intMin .int32 = -2 ^ 31 ∧ intMax .int32 = 2 ^ 31 - 1 := by decide
  simp only [applyChunk, if_true, clampTo_eq, limits]
  generalize acc.toInt + (ts.map termInt).sum = y
  split
  · next h =>
    rw [toInt_intBits h.1 h.2]
    simp
    omega
  · next h =>
    rw [toInt_intBits (by omega) (by omega)]
    simp
    omega

/-! ## Window sums (R11) -/

theorem leadOf_eq {x : Exact} {e : ℤ} (h : leadOf x = some e) : (2 : ℚ) ^ e ≤ |x.rat| ∧ |x.rat| < 2 ^ (e + 1) := by
  cases x with
  | nan => cases h
  | inf n => cases h
  | fin n m ex =>
    simp only [leadOf, beq_iff_eq] at h
    split at h
    · cases h
    · next hm =>
      cases h
      rw [abs_rat]
      exact log2_bounds hm ex

theorem leadOf_none {x : Exact} (hn : x ≠ .nan) (hi : x.isInf = false) : leadOf x = none ↔ x.rat = 0 := by
  obtain ⟨n, m, e, rfl⟩ := exists_fin hn hi
  simp [leadOf, Exact.rat_eq_zero]

/-- A term truncated toward zero on the grid of a window. -/
theorem truncTerm_mul (g : ℤ) {x : Exact} (hn : x ≠ .nan) (hi : x.isInf = false) : (truncTerm g x : ℚ) * 2 ^ g = truncTo (2 ^ g) x.rat := by
  obtain ⟨n, m, e, rfl⟩ := exists_fin hn hi
  obtain ⟨q, low, high, count⟩ := roundAt_eq .rz false m e g
  have unit : (0 : ℚ) < 2 ^ g := by positivity
  have count : roundAt .rz false m e g = q := by rw [count, neighbour]; split <;> rfl
  have floor : ⌊(m : ℚ) * 2 ^ e / 2 ^ g⌋ = q := by
    rw [Int.floor_eq_iff, le_div_iff₀ unit, div_lt_iff₀ unit]
    exact ⟨by exact_mod_cast low, by exact_mod_cast high⟩
  have pos : (0 : ℚ) ≤ m * 2 ^ e := by positivity
  simp only [truncTerm, truncTo, count, Exact.rat_fin]
  cases n with
  | false => simp [pos, floor]
  | true =>
    have ceil : ⌈-((m : ℚ) * 2 ^ e) / 2 ^ g⌉ = -q := by rw [neg_div, Int.ceil_neg, floor]
    rcases eq_or_lt_of_le pos with h | h
    · have zero : q = 0 := by
        rw [← h, zero_div, Int.floor_zero] at floor
        omega
      simp [← h, zero]
    · simp [ceil, not_le.2 (neg_neg_of_pos h)]

/-- The sum of a window's truncated terms. -/
theorem truncTerm_sum (g : ℤ) {xs : List Exact} (h : ∀ x ∈ xs, x ≠ .nan ∧ x.isInf = false) :
    (((xs.map (truncTerm g)).sum : ℤ) : ℚ) * 2 ^ g = (xs.map fun x => truncTo (2 ^ g) x.rat).sum := by
  induction xs with
  | nil => simp
  | cons x xs ih =>
    obtain ⟨⟨hn, hi⟩, hxs⟩ := List.forall_mem_cons.1 h
    rw [List.map_cons, List.sum_cons, List.map_cons, List.sum_cons, Int.cast_add, add_mul, truncTerm_mul g hn hi, ih hxs]

/-- The largest lead of some numbers is that of the largest. -/
theorem max_lead {xs : List Exact} (h : ∀ x ∈ xs, x ≠ .nan ∧ x.isInf = false) {e : ℤ} (large : ∃ x ∈ xs, (2 : ℚ) ^ e ≤ |x.rat|)
    (all : ∀ x ∈ xs, |x.rat| < (2 : ℚ) ^ (e + 1)) : (xs.filterMap leadOf).max? = some e := by
  rw [List.max?_eq_some_iff]
  obtain ⟨x, hx, low⟩ := large
  have lead {y : Exact} {l : ℤ} (hy : y ∈ xs) (hl : leadOf y = some l) : l ≤ e := by
    have := (leadOf_eq hl).1.trans_lt (all y hy)
    have := (zpow_lt_zpow_iff_right₀ (one_lt_two (α := ℚ))).1 this
    omega
  constructor
  · cases hl : leadOf x with
    | none =>
      rw [leadOf_none (h x hx).1 (h x hx).2] at hl
      rw [hl, abs_zero] at low
      exact absurd low (not_le.2 (by positivity))
    | some l =>
      have := low.trans_lt (leadOf_eq hl).2
      have := (zpow_lt_zpow_iff_right₀ (one_lt_two (α := ℚ))).1 this
      have := lead hx hl
      obtain rfl : l = e := by omega
      exact List.mem_filterMap.2 ⟨x, hx, hl⟩
  · intro l hl
    obtain ⟨y, hy, hl⟩ := List.mem_filterMap.1 hl
    exact lead hy hl

theorem any_nan (xs : List Exact) : xs.any Exact.isNaN = decide (.nan ∈ xs) := by
  rw [Bool.eq_iff_iff, List.any_eq_true, decide_eq_true_iff]
  constructor
  · rintro ⟨x, hx, hn⟩
    cases x with
    | nan => exact hx
    | inf n => exact absurd hn (by simp [Exact.isNaN])
    | fin n m e => exact absurd hn (by simp [Exact.isNaN])
  · exact fun h => ⟨.nan, h, rfl⟩

theorem windowSpecial_eq (xs : List Exact) : windowSpecial xs =
    if .nan ∈ xs ∨ (.inf false ∈ xs ∧ .inf true ∈ xs) then some .nan
    else if .inf false ∈ xs then some (.inf false) else if .inf true ∈ xs then some (.inf true) else none := by
  have own (x : Exact) : xs.any (· == x) = decide (x ∈ xs) := by
    rw [Bool.eq_iff_iff]
    simp
  simp only [windowSpecial, any_nan, own, Bool.and_eq_true, decide_eq_true_eq]
  split_ifs <;> simp_all

theorem not_mem_of_numbers {xs : List Exact} (h : ∀ x ∈ xs, x ≠ .nan ∧ x.isInf = false) : .nan ∉ xs ∧ ∀ n, .inf n ∉ xs :=
  ⟨fun hx => (h _ hx).1 rfl, fun n hx => absurd (h _ hx).2 (by simp [Exact.isInf])⟩

theorem windowSpecial_numbers {xs : List Exact} (h : ∀ x ∈ xs, x ≠ .nan ∧ x.isInf = false) : windowSpecial xs = none := by
  obtain ⟨nan, inf⟩ := not_mem_of_numbers h
  simp [windowSpecial_eq, nan, inf]

/-- A NaN among the terms, or opposite infinities, decide a window first. -/
theorem windowSum_nan {acc : LaneWord} {ts : List Exact}
    (h : .nan ∈ (fmtOf .fp32).value acc :: ts ∨ (.inf false ∈ (fmtOf .fp32).value acc :: ts ∧ .inf true ∈ (fmtOf .fp32).value acc :: ts)) :
    windowSum acc ts = 0x7FC00000#32 := by
  rw [windowSum, windowSpecial_eq, if_pos h]
  rfl

theorem windowSum_inf {acc : LaneWord} {ts : List Exact} (hn : .nan ∉ (fmtOf .fp32).value acc :: ts) (hi : .inf false ∈ (fmtOf .fp32).value acc :: ts)
    (ho : .inf true ∉ (fmtOf .fp32).value acc :: ts) : windowSum acc ts = 0x7F800000#32 := by
  rw [windowSum, windowSpecial_eq, if_neg (by tauto), if_pos hi]
  rfl

theorem windowSum_negative {acc : LaneWord} {ts : List Exact} (hn : .nan ∉ (fmtOf .fp32).value acc :: ts)
    (hi : .inf true ∈ (fmtOf .fp32).value acc :: ts) (ho : .inf false ∉ (fmtOf .fp32).value acc :: ts) : windowSum acc ts = 0xFF800000#32 := by
  rw [windowSum, windowSpecial_eq, if_neg (by tauto), if_neg ho, if_pos hi]
  rfl

/-- A window of numbers that are all zero. -/
theorem windowSum_zero {acc : LaneWord} {ts : List Exact} (h : ∀ x ∈ (fmtOf .fp32).value acc :: ts, x ≠ .nan ∧ x.isInf = false)
    (h0 : ∀ x ∈ (fmtOf .fp32).value acc :: ts, x.rat = 0) :
    windowSum acc ts = if ∀ x ∈ (fmtOf .fp32).value acc :: ts, x.isNeg = true then 0x80000000#32 else 0#32 := by
  have leads : ((fmtOf .fp32).value acc :: ts).filterMap leadOf = [] :=
    List.filterMap_eq_nil_iff.2 fun x hx => (leadOf_none (h x hx).1 (h x hx).2).2 (h0 x hx)
  simp only [windowSum, windowSpecial_numbers h, leads, List.max?_nil]
  have all : ((fmtOf .fp32).value acc :: ts).all Exact.isNeg = decide (∀ x ∈ (fmtOf .fp32).value acc :: ts, x.isNeg = true) := by
    rw [Bool.eq_iff_iff, List.all_eq_true, decide_eq_true_iff]
  rw [all]
  split
  · next negative => rw [decide_eq_true negative]; rfl
  · next other => rw [decide_eq_false other]; rfl

/-- A window of numbers: the sum of what the 48-bit window below the largest keeps of each, rounded once. -/
theorem windowSum_number {acc : LaneWord} {ts : List Exact} (h : ∀ x ∈ (fmtOf .fp32).value acc :: ts, x ≠ .nan ∧ x.isInf = false) {e : ℤ}
    (large : ∃ x ∈ (fmtOf .fp32).value acc :: ts, (2 : ℚ) ^ e ≤ |x.rat|)
    (all : ∀ x ∈ (fmtOf .fp32).value acc :: ts, |x.rat| < (2 : ℚ) ^ (e + 1)) :
    ∃ y : Exact, y.isNaN = false ∧ y.isInf = false ∧
      y.rat = (((fmtOf .fp32).value acc :: ts).map fun x => truncTo ((2 : ℚ) ^ (e - 47)) x.rat).sum ∧
      (y.rat = 0 → y.isNeg = false) ∧ windowSum acc ts = (rnd (fmtOf .fp32) .rne y).bits := by
  have sum := truncTerm_sum (e - 47) h
  simp only [windowSum, windowSpecial_numbers h, max_lead h large all]
  generalize (((fmtOf .fp32).value acc :: ts).map (truncTerm (e - 47))).sum = z at sum ⊢
  refine ⟨_, rfl, rfl, (rat_ofCount z _).trans sum, fun h0 => ?_, rfl⟩
  rw [rat_ofCount, mul_eq_zero_iff_right (by positivity)] at h0
  simp only [Int.cast_eq_zero] at h0
  simp [Exact.isNeg, h0]

end Sys2Proof.Machine
end

section
/-! PROOF. A multiply of a slot (14_matrix_instructions.md R307 to R310): its checks, its toll, its acceptance, and what it does as it performs. -/
namespace Sys2Proof.Machine
open Sys2Proof

/-! ## The slots of a team -/

theorem slot_setSlot (t : Team) (n k : BitVec 3) (x : Slot) : (t.setSlot n x).slot k = if k = n then x else t.slot k := by
  have index : n.toNat = k.toNat ↔ k = n := by rw [eq_comm, BitVec.toNat_inj]
  simp only [Team.slot, Team.setSlot]
  change (t.slots.set n.toNat x n.isLt)[k.toNat] = if k = n then x else t.slots[k.toNat]
  rw [Vector.getElem_set]
  simp only [index]

theorem setSlot_self (t : Team) (n : BitVec 3) : t.setSlot n (t.slot n) = t := by
  have same : t.slots.set n.toNat (t.slot n) n.isLt = t.slots := Vector.set_getElem_self n.isLt
  rw [Team.setSlot, same]

/-! ## A dispatch that the gate lets pass -/

/-- A dispatch took its charge, and perhaps some free values: nothing else differs. -/
structure Dispatched (s u : State) (toll : ℕ) : Prop where
  rest : u = { s with cores := u.cores, draws := u.draws, warp := { s.warp with lease := u.warp.lease, paid := u.warp.paid } }
  charge : ChargeTaken s u toll

theorem dispatched_dispatched (s : State) (toll : ℕ) : Dispatched s (s.dispatched toll) toll :=
  ⟨by
    have draws : (s.dispatched toll).draws = s.draws := by rw [dispatched_eq]
    rw [draws]
    exact dispatched_eq s toll, dispatched_charge s toll⟩

theorem Dispatched.draw {s u : State} {toll : ℕ} (h : Dispatched s u toll) : Dispatched s u.draw toll :=
  ⟨by rw [h.rest]; rfl, ⟨h.charge.core, h.charge.lease, h.charge.others⟩⟩

section
variable {s u : State} {toll : ℕ} (h : Dispatched s u toll)
include h

theorem Dispatched.team : u.team = s.team := by rw [h.rest]

theorem Dispatched.pending : u.warp.pending = s.warp.pending := by rw [h.rest]

theorem Dispatched.fpstat : u.warp.fpstat = s.warp.fpstat := by rw [h.rest]

theorem Dispatched.seq : u.warp.seq = s.warp.seq := by rw [h.rest]

theorem Dispatched.at (hl : s.warp.lanes = none) : u.warp.at = s.warp.pos := by
  rw [h.rest]
  exact at_uniform _ hl

/-- What the array of a core keeps is not touched by a charge. -/
theorem Dispatched.resident (c : CoreRef) : (coreOf u c).resident = (coreOf s c).resident := by
  by_cases own : corePlace c = corePlace s.warp.core
  · by_cases bounds : corePlace s.warp.core < 312
    · have same (v : State) : coreOf v c = coreOf v s.warp.core := by simp only [coreOf, own]
      rw [same u, same s, h.charge.core bounds]
    · rw [coreOf_beyond u c (own ▸ bounds), coreOf_beyond s c (own ▸ bounds)]
  · rw [h.charge.others c own]

theorem Dispatched.residentFor (home : CoreRef) (n : BitVec 3) : residentFor u home n = residentFor s home n := by
  simp only [Machine.residentFor, h.resident, h.team]

theorem Dispatched.memory : memoryNow u = memoryNow s := by
  rw [h.rest]
  rfl

theorem Dispatched.absent (l : ℕ) : lineAbsent u l = lineAbsent s l := by
  rw [h.rest]
  rfl

theorem Dispatched.busy (n : BitVec 3) : slotBusy u n = slotBusy s n := by
  rw [slotBusy, h.team]
  rfl

theorem Dispatched.reads (o : LateOp) : o.reads u = o.reads s := by
  cases has : o.as <;> simp only [LateOp.reads, LateOp.home, has, h.residentFor, h.team] <;> rfl

theorem Dispatched.waits (o : LateOp) : o.waits u = o.waits s := by
  simp only [LateOp.waits, h.busy, h.reads]
  congr 2
  exact funext h.absent

end

/-! ## What a word on a slot leaves (14 R307) -/

theorem advance_kept (w : Warp) : w.advance.pending = w.pending ∧ w.advance.fpstat = w.fpstat ∧ w.advance.lease = w.lease := by
  obtain ⟨a, b, h⟩ := advance_eq w
  rw [h]
  exact ⟨rfl, rfl, rfl⟩

/-- A word that changes one slot, the accepted operations, and of its warp the pending results, FPSTAT and the lease. -/
theorem slotChanged_of {s : State} (hl : s.warp.lanes = none) (n : BitVec 3) (ops : List LateOp) (x : Slot) (cs : Vector Core 312) (d : ℕ)
    (P : List Outstanding) (q : ℕ) (F : BitVec 7) (l : ℕ) (p : Bool) :
    SlotChanged s (State.advance { s with
      cores := cs, draws := d, team := { s.team.setSlot n x with late := s.team.late ++ ops }
      warp := { s.warp with pending := P, seq := q, fpstat := F, lease := l, paid := p } }) n ops x := by
  obtain ⟨a, b, adv⟩ := advance_uniform { s.warp with pending := P, seq := q, fpstat := F, lease := l, paid := p } hl
  rw [State.advance, State.onWarp, adv]
  exact
    { slot := (slot_setSlot s.team n n x).trans (if_pos rfl)
      others := fun k hk => (slot_setSlot s.team n k x).trans (if_neg hk)
      tiles := rfl, chans := rfl, late := rfl, uniform := rfl, vectors := rfl, start := rfl, goes := rfl, frame := ⟨rfl⟩ }

theorem chargedThen_of {s u t : State} {toll : ℕ} (h : Dispatched s u toll) (hl : t.warp.lease = u.warp.lease) {keeps : State → State}
    (hk : t.cores = (keeps { t with cores := u.cores }).cores) : chargedThen s t toll keeps :=
  ⟨u.cores, ⟨h.charge.core, hl.trans h.charge.lease, h.charge.others⟩, hk⟩

/-! ## Acceptance (R309) -/

theorem acceptOp_later {s : State} {fs : FSel} {o : LateOp} (h : o.waits s = true) : acceptOp s fs o = performLater s.draw fs o := by
  simp [acceptOp, h]

theorem acceptOp_cases (s : State) (fs : FSel) (o : LateOp) :
    acceptOp s fs o = performLater s.draw fs o ∨ acceptOp s fs o = performNow s.draw fs o := by
  unfold acceptOp
  simp only
  split
  · exact .inl rfl
  · exact .inr rfl

theorem performLater_spec {s u : State} {toll : ℕ} (h : Dispatched s u toll) (hl : s.warp.lanes = none) (fs : FSel) {o : LateOp} :
    acceptsLate s (performLater u fs o) fs ∧ chargedThen s (performLater u fs o) toll id ∧
      SlotChanged s (performLater u fs o) o.slot [o] (s.team.slot o.slot) := by
  have lease : (performLater u fs o).warp.lease = u.warp.lease := (advance_kept _).2.2
  refine ⟨?_, chargedThen_of h lease rfl, ?_⟩
  · have kept := advance_kept { u.warp with
      pending := u.warp.pending ++ [{ noResult with seq := u.warp.seq, pc := addrWord u.warp.at.pc, home := u.warp.at.hdr, flag := flagOf u.warp.at fs, late := true }]
      seq := u.warp.seq + 1 }
    obtain ⟨pending, fpstat, -⟩ := kept
    rw [h.rest] at pending fpstat ⊢
    refine ⟨fpstat, _, pending, rfl, rfl, ?_, rfl, rfl, rfl, rfl, rfl⟩
    exact congrArg (flagOf · fs) (at_uniform _ hl)
  · have := slotChanged_of hl o.slot [o] (s.team.slot o.slot) u.cores u.draws
    rw [setSlot_self] at this
    rw [h.rest]
    exact this ..

/-! ## Performance (R309, R310, R314) -/

theorem writeLanes_nil (w : Warp) : w.writeLanes [] = w := by
  have stripped (ws : List LaneWrite) : stripWrites [] ws = ws := by simp [stripWrites]
  simp only [Warp.writeLanes, Warp.showLanes, stripped, ite_self, List.map_id', applyWrites_nil]

/-- A flag-capable word that brings a status and no result. -/
theorem bear_status (v : State) (fs : FSel) (st : BitVec 7) : ∃ P q F,
    v.bear fs { noResult with status := st } = { v with warp := { v.warp with pending := P, seq := q, fpstat := F } } ∧
      (fs = .none → P = v.warp.pending ∧ F = v.warp.fpstat ||| st) ∧
      (fs ≠ .none → F = v.warp.fpstat ∧ ∃ o : Outstanding, P = v.warp.pending ++ [o] ∧ o.flag = flagOf v.warp.at fs ∧ o.seq = v.warp.seq ∧
        o.done = false ∧ o.fault = none ∧ o.status = st ∧ o.sWrite = none ∧ o.vWrites = []) := by
  rcases eq_or_ne fs .none with rfl | hfs
  · refine ⟨v.warp.pending, v.warp.seq, v.warp.fpstat ||| st, ?_, fun _ => ⟨rfl, rfl⟩, fun h => absurd rfl h⟩
    rw [bear_none]
    simp only [noResult, writeLanes_nil]
    rfl
  · refine ⟨_, _, v.warp.fpstat, bear_flag v fs _ hfs, fun h => absurd h hfs, fun _ => ⟨rfl, _, rfl, rfl, rfl, rfl, rfl, rfl, rfl, rfl⟩⟩

/-- A fault that met no error in memory is recorded against the word. -/
theorem record_settled (v : State) (fs : FSel) {r : Report} (hm : r.met = none) (hw : r.walk = none) : ∃ o : Outstanding,
    v.record fs noResult r 0 = { v with warp := { v.warp with pending := v.warp.pending ++ [o], seq := v.warp.seq + 1 } } ∧
      o.fault = some (r.settled, 0) ∧ o.flag = flagOf v.warp.at fs ∧ (o.done = true ↔ fs = .none) ∧ o.seq = v.warp.seq ∧ o.sWrite = none ∧
      o.vWrites = [] := by
  rw [State.record, met_none v hm hw]
  exact ⟨_, rfl, rfl, rfl, beq_iff_eq, rfl, rfl, rfl⟩

theorem resided_eq (u : State) (o : LateOp) (f : Option Factors) : resided u o f = { u with cores := (resided u o f).cores } := by
  unfold resided
  split
  · split <;> rfl
  · rfl

/-- What the arrays keep rests on the cores and the team's identity and site. -/
theorem resided_cores {u v : State} (hc : v.cores = u.cores) (ht : v.team.tid = u.team.tid) (hs : v.team.site = u.team.site) (o : LateOp)
    (f : Option Factors) : (resided v o f).cores = (resided u o f).cores := by
  cases f with
  | none => exact hc
  | some f =>
    simp only [resided, LateOp.home, hs]
    by_cases m : ((homeOf u.team.site o.slot).cls == .m) = true
    · simp only [m, if_true, makeResident, onCore, coreOf, hc, ht]
    · simp only [m, Bool.false_eq_true, if_false, hc]

theorem error_none {u : State} {o : LateOp} {m : Bytes} (hw : ∀ b ∈ o.reads u, b.bad m = none) (hb : (u.team.slot o.slot).bad = []) :
    o.error u m = none := by
  have whole : (o.reads u).findSome? (fun b => b.bad m) = none := List.findSome?_eq_none_iff.2 hw
  simp [LateOp.error, whole, hb]

theorem error_bad {u : State} {o : LateOp} {m : Bytes} (hw : ∀ b ∈ o.reads u, b.bad m = none) (ha : o.as.isSome = true)
    (hb : (u.team.slot o.slot).bad ≠ []) : o.error u m = some (storeCheck u o.slot 0) := by
  have whole : (o.reads u).findSome? (fun b => b.bad m) = none := List.findSome?_eq_none_iff.2 hw
  simp [LateOp.error, whole, ha, hb]

/-- The state in which a multiply leaves its slot and its core. -/
theorem multiplied_eq (u : State) (o : LateOp) (f : Option Factors) :
    multiplied (resided u o f) o.slot o.grant f =
      ({ u with
          cores := (resided u o f).cores
          team := u.team.setSlot o.slot { u.team.slot o.slot with
            acc := (outputs (homeOf u.team.site o.slot).cls o.grant f (u.team.slot o.slot).acc).map (·.1)
            chunks := (u.team.slot o.slot).chunks + BitVec.ofNat 64 (o.grant.k / 32) } },
        if (outputs (homeOf u.team.site o.slot).cls o.grant f (u.team.slot o.slot).acc).any (·.2) then 0x40#7 else 0#7) := by
  rw [resided_eq]
  rfl

theorem performNow_fine {u : State} {fs : FSel} {o : LateOp} {as : List Tablet} (hg : (u.grant o.slot).isSome = true) (ha : o.as = some as)
    (he : o.error u (memoryNow u) = none) :
    performNow u fs o = ((multiplied (resided u o (o.factors u as (memoryNow u))) o.slot o.grant (o.factors u as (memoryNow u))).1.bear fs { noResult with
      status := (multiplied (resided u o (o.factors u as (memoryNow u))) o.slot o.grant (o.factors u as (memoryNow u))).2 }).advance := by
  have granted : (u.grant o.slot).isNone = false := by
    rw [Option.isNone_eq_false_iff]
    exact hg
  have eff : o.effect u (memoryNow u) =
      ((multiplied (resided u o (o.factors u as (memoryNow u))) o.slot o.grant (o.factors u as (memoryNow u))).1,
        (multiplied (resided u o (o.factors u as (memoryNow u))) o.slot o.grant (o.factors u as (memoryNow u))).2, none) := by
    simp only [LateOp.effect, granted, he, ha, Bool.false_eq_true, if_false]
  simp only [performNow, eff]

/-- The result of an operation that performs at its acceptance without an error. -/
theorem performNow_result {s u : State} {toll : ℕ} (h : Dispatched s u toll) (hl : s.warp.lanes = none) (fs : FSel) {o : LateOp} {as : List Tablet}
    (hg : (s.grant o.slot).isSome = true) (ha : o.as = some as) (he : o.error u (memoryNow u) = none) {f : Option Factors}
    (hf : o.factors u as (memoryNow u) = f) {out : List (LaneWord × Bool)}
    (hout : outputs (homeOf s.team.site o.slot).cls o.grant f (s.team.slot o.slot).acc = out) :
    SlotChanged s (performNow u fs o) o.slot [] { s.team.slot o.slot with
        acc := out.map (·.1), chunks := (s.team.slot o.slot).chunks + BitVec.ofNat 64 (o.grant.k / 32) } ∧
      borne s (performNow u fs o) fs (if out.any (·.2) then 0x40#7 else 0#7) ∧
      chargedThen s (performNow u fs o) toll fun m => resided m o f := by
  rw [performNow_fine (by rwa [State.grant, h.team]) ha he, multiplied_eq, hf, h.team, hout]
  obtain ⟨cs, hcs⟩ : ∃ cs, (resided u o f).cores = cs := ⟨_, rfl⟩
  rw [hcs]
  obtain ⟨P, q, F, bear, plain, flagged⟩ := bear_status { u with
    cores := cs
    team := s.team.setSlot o.slot { s.team.slot o.slot with
      acc := out.map (·.1), chunks := (s.team.slot o.slot).chunks + BitVec.ofNat 64 (o.grant.k / 32) } } fs (if out.any (·.2) then 0x40#7 else 0#7)
  rw [bear]
  obtain ⟨pending, fpstat, lease⟩ := advance_kept { u.warp with pending := P, seq := q, fpstat := F }
  refine ⟨?_, ⟨fun hfs => ?_, fun hfs => ?_⟩, chargedThen_of h lease ?_⟩
  · have := slotChanged_of hl o.slot [] { s.team.slot o.slot with
      acc := out.map (·.1), chunks := (s.team.slot o.slot).chunks + BitVec.ofNat 64 (o.grant.k / 32) } cs u.draws P q F u.warp.lease u.warp.paid
    rw [List.append_nil] at this
    rw [h.rest]
    exact this
  · obtain ⟨hP, hF⟩ := plain hfs
    exact ⟨pending.trans (hP.trans h.pending), fpstat.trans (hF.trans (congrArg (· ||| _) h.fpstat))⟩
  · obtain ⟨hF, x, hP, flag, seq, done, fault, status, sWrite, vWrites⟩ := flagged hfs
    exact ⟨fpstat.trans (hF.trans h.fpstat), x, pending.trans (hP.trans (congrArg (· ++ [x]) h.pending)),
      flag.trans (congrArg (flagOf · fs) (h.at hl)), seq.trans h.seq, done, fault, status, sWrite, vWrites⟩
  · refine hcs.symm.trans (Eq.symm ?_)
    refine resided_cores ?_ ?_ ?_ o f
    · rfl
    · exact (congrArg Team.tid h.team).symm
    · exact (congrArg Team.site h.team).symm

/-- An uncorrectable value of the slot takes the grant, and is recorded against the operation. -/
theorem performNow_bad {s u : State} {toll : ℕ} (h : Dispatched s u toll) (hl : s.warp.lanes = none) (fs : FSel) {o : LateOp}
    (hg : (s.grant o.slot).isSome = true) (he : o.error u (memoryNow u) = some (storeCheck u o.slot 0)) :
    SlotChanged s (performNow u fs o) o.slot [] {} ∧ chargedThen s (performNow u fs o) toll id ∧ (performNow u fs o).warp.fpstat = s.warp.fpstat ∧
      ∃ x r, (performNow u fs o).warp.pending = s.warp.pending ++ [x] ∧ x.fault = some (r, 0) ∧ r.cause = .machineCheck ∧
        x.flag = flagOf s.warp.pos fs ∧ (x.done = true ↔ fs = .none) ∧ x.seq = s.warp.seq ∧ x.sWrite = none ∧ x.vWrites = [] := by
  have granted : (u.grant o.slot).isNone = false := by
    rw [State.grant, h.team, Option.isNone_eq_false_iff]
    exact hg
  obtain ⟨x, record, fault, flag, done, seq, sWrite, vWrites⟩ :=
    record_settled (u.onSlot o.slot fun _ => {}).draw fs (r := (engineCheck u (storeCheck u o.slot 0)).settled) rfl rfl
  have eff : o.effect u (memoryNow u) = ((u.onSlot o.slot fun _ => {}).draw, 0#7, some (engineCheck u (storeCheck u o.slot 0)).settled) := by
    simp only [LateOp.effect, granted, he, Bool.false_eq_true, if_false, met_none _ (r := storeCheck u o.slot 0) rfl rfl]
  have now : performNow u fs o = ({ u with
      team := s.team.setSlot o.slot {}, draws := u.draws + 1
      warp := { u.warp with pending := u.warp.pending ++ [x], seq := u.warp.seq + 1 } } : State).advance := by
    simp only [performNow, eff, record]
    rw [← h.team]
    rfl
  obtain ⟨pending, fpstat, lease⟩ := advance_kept { u.warp with pending := u.warp.pending ++ [x], seq := u.warp.seq + 1 }
  rw [now]
  refine ⟨?_, chargedThen_of h lease rfl, fpstat.trans h.fpstat, x, _, pending.trans (congrArg (· ++ [x]) h.pending), fault, rfl,
    flag.trans (congrArg (flagOf · fs) (h.at hl)), done, seq.trans h.seq, sWrite, vWrites⟩
  have := slotChanged_of hl o.slot [] {} u.cores (u.draws + 1) (s.warp.pending ++ [x]) (s.warp.seq + 1) s.warp.fpstat u.warp.lease u.warp.paid
  rw [List.append_nil] at this
  rw [h.rest]
  exact this

/-! ## The words (R307, R308) -/

/-- The operation that a multiply is accepted as. -/
def multiplyOp (s : State) (n : BitVec 3) (g : Grant) (as : List Tablet) : LateOp :=
  { warp := s.warp.idx, seq := s.warp.seq, slot := n, grant := g, as := some as, bs := ((s.team.slot n).recB.map tabletsB).getD [] }

theorem boxFault_none {s : State} {bs : List Tablet} (h : BoxesReady s bs) : boxFault s bs = none := by
  have aligned : bs.find? (fun b => b.base % 64 != 0) = none := by
    rw [List.find?_eq_none]
    exact fun b hb => by simp [h.aligned b hb]
  have passes (bad : ℕ → Bool) (hbad : ∀ b ∈ bs, ∀ k, k < max 1 b.span → bad (b.base + k) = false) : firstByte bs bad = none := by
    have empty : ((bs.flatMap fun b => (List.range (max 1 b.span)).map (b.base + ·)).filter bad) = [] := by
      rw [List.filter_eq_nil_iff]
      intro y hy
      obtain ⟨b, hb, hy⟩ := List.mem_flatMap.1 hy
      obtain ⟨k, hk, rfl⟩ := List.mem_map.1 hy
      rw [hbad b hb k (List.mem_range.1 hk)]
      exact Bool.false_ne_true
    rw [firstByte, empty]
    rfl
  simp only [boxFault, aligned]
  rw [passes _ fun b hb k hk => ?_, passes _ fun b hb k hk => ?_]
  · rfl
  · obtain ⟨-, -, owned⟩ := h.owned b hb k hk
    simp [owned]
  · obtain ⟨inside, here, -⟩ := h.owned b hb k hk
    simp [windowByte, inside, here]

theorem Dispatched.ready {s u : State} {toll : ℕ} (h : Dispatched s u toll) {bs : List Tablet} (hb : BoxesReady s bs) : BoxesReady u bs := by
  rw [h.rest]
  exact ⟨hb.aligned, hb.owned⟩

theorem Dispatched.op {s u : State} {toll : ℕ} (h : Dispatched s u toll) (n : BitVec 3) (g : Grant) (as : List Tablet) :
    multiplyOp u n g as = multiplyOp s n g as := by
  rw [h.rest]
  rfl

/-- A multiply of a slot whose boxes are ready, whose charge its core affords, is accepted. -/
theorem multiply_accepts {s : State} {fs : FSel} {n : BitVec 3} {a : BitVec 6} {scales : Warp → ℕ} {g : Grant} (hs : SlotReady s n g) (hk : g.k ≠ 0)
    (hf : fs = .none ∨ s.warp.dests ≤ 16) {toll : ℕ} (ht : toll = (g.m * g.n * g.k + 1023) / 1024 * digitsOf g.aty) (hc : affords s toll)
    (hscale : ∀ l p, scales { s.warp with lease := l, paid := p } = scales s.warp)
    (hb : BoxesReady s (tabletsA g (s.warp.readS a).toNat (scales s.warp))) :
    multiply s fs n a scales = .next (acceptOp (s.dispatched toll) fs (multiplyOp s n g (tabletsA g (s.warp.readS a).toNat (scales s.warp)))) := by
  obtain ⟨mode, below, enabled, grant⟩ := hs
  have h := dispatched_dispatched s toll
  have checks : ∀ c ∈ [slotOk s n] ++ [pendingOk s fs 0] ++ [vectorOnly s], c.1 = true := by
    simp only [List.cons_append, List.nil_append, List.forall_mem_cons, slotOk, pendingOk, vectorOnly, inLanes_none _ mode]
    simpa [below] using hf
  have charged : multiplyToll n s = toll := by
    simp only [multiplyToll, State.grant, grant, ht]
    rfl
  have regs : (s.dispatched toll).warp.readS a = s.warp.readS a := by
    rw [h.rest]
    rfl
  have side : scales (s.dispatched toll).warp = scales s.warp := by
    rw [h.rest]
    exact hscale _ _
  have granted : (s.dispatched toll).grant n = some g := by rw [State.grant, h.team, grant]
  unfold multiply matrixWord
  rw [guarded_pass checks]
  simp only [whenEnabled, enabled, if_true, charged, tolled_credit (affords_credit hc), granted, hk, if_false, regs, side, withBoxes,
    boxFault_none (h.ready hb), ← h.op n g]
  rfl

end Sys2Proof.Machine
end

section
/-! PROOF. The statement on multiplies (14_matrix_instructions.md R309 to R314, R317; 00_scope.md R11). -/
namespace Sys2Proof.Machine
open Sys2Proof

/-- The B operand that a multiply uses: the one that its home core's array holds, else the recorded boxes. -/
def operandB (s : State) (n : BitVec 3) : List LaneWord × List LaneWord :=
  match residentFor s (homeOf s.team.site n) n with
  | some r => (r.elems, r.scales)
  | none => readTablets (memoryNow s) (((s.team.slot n).recB.map tabletsB).getD [])

/-- The operands of a multiply: none without a recorded B (R317). -/
def operands (s : State) (n : BitVec 3) (as : List Tablet) : Option Factors :=
  if ((s.team.slot n).recB.map tabletsB).getD [] = [] then none
  else some { a := (readTablets (memoryNow s) as).1, sa := (readTablets (memoryNow s) as).2, b := (operandB s n).1, sb := (operandB s n).2 }

theorem multiplyOp_factors {s u : State} {toll : ℕ} (h : Dispatched s u toll) (n : BitVec 3) (g : Grant) (as : List Tablet) :
    (multiplyOp s n g as).factors u as (memoryNow u) = operands s n as := by
  have home : (multiplyOp s n g as).home u = homeOf s.team.site n := by
    rw [LateOp.home, h.team]
    rfl
  have resident : residentFor u (homeOf s.team.site n) (multiplyOp s n g as).slot = residentFor s (homeOf s.team.site n) n := h.residentFor _ n
  have boxes : (multiplyOp s n g as).bs = ((s.team.slot n).recB.map tabletsB).getD [] := rfl
  simp only [LateOp.factors, home, h.memory, resident, boxes, operands, operandB, List.isEmpty_iff] <;> rfl

/-- Once it has been used, the operand is resident on an M-core. -/
theorem resided_operands (s : State) (n : BitVec 3) (g : Grant) (as : List Tablet) {m : State} (hm : m.team.site = s.team.site) :
    resided m (multiplyOp s n g as) (operands s n as) =
      if (homeOf s.team.site n).cls = .m ∧ ((s.team.slot n).recB.map tabletsB).getD [] ≠ [] then
        makeResident m (homeOf s.team.site n) n g (operandB s n)
      else m := by
  have home : (multiplyOp s n g as).home m = homeOf s.team.site n := by
    rw [LateOp.home, hm]
    rfl
  unfold operands
  split
  · next missing => rw [if_neg fun h => h.2 missing]; rfl
  · next recorded =>
    simp only [resided, home, beq_iff_eq, ne_eq, recorded, not_false_eq_true, and_true]
    rfl

theorem dispatched_reads {s u : State} {toll : ℕ} (h : Dispatched s u toll) (o : LateOp) (hw : BoxesWhole s (o.reads s)) :
    ∀ b ∈ o.reads u, b.bad (memoryNow u) = none := by
  rw [h.reads, h.memory]
  exact hw.whole

theorem SlotChanged.site {s t : State} {n : BitVec 3} {ops : List LateOp} {x : Slot} (h : SlotChanged s t n ops x) : t.team.site = s.team.site := by
  rw [h.frame.rest]

/-- What an accepted multiply does: it performs later where it must, and otherwise at once or later. -/
theorem accepted_does {s : State} {fs : FSel} {n : BitVec 3} {g : Grant} (hs : SlotReady s n g) (toll : ℕ) (as : List Tablet) {r : Result}
    (hr : r = .next (acceptOp (s.dispatched toll) fs (multiplyOp s n g as))) :
    let x := s.team.slot n
    let bs := (x.recB.map tabletsB).getD []
    let home := homeOf s.team.site n
    let reads := as ++ if (residentFor s home n).isSome then [] else bs
    let out := outputs home.cls g (operands s n as) x.acc
    let late (t : State) : Prop := acceptsLate s t fs ∧ chargedThen s t toll id ∧ SlotChanged s t n [multiplyOp s n g as] x
    ((slotBusy s n = true ∨ ∃ b ∈ reads, ∃ l ∈ b.lines, lineAbsent s l = true) → ∃ t, r = .next t ∧ late t) ∧
    (slotBusy s n = false → BoxesWhole s reads → x.bad = [] → ∃ t, r = .next t ∧
      (late t ∨
        (SlotChanged s t n [] { x with acc := out.map (·.1), chunks := x.chunks + BitVec.ofNat 64 (g.k / 32) } ∧
          borne s t fs (if out.any (·.2) then 0x40#7 else 0#7) ∧
          chargedThen s t toll fun m => if home.cls = .m ∧ bs ≠ [] then makeResident m home n g (operandB s n) else m))) ∧
    (slotBusy s n = false → BoxesWhole s reads → x.bad ≠ [] → ∃ t, r = .next t ∧
      (late t ∨
        (SlotChanged s t n [] {} ∧ chargedThen s t toll id ∧ t.warp.fpstat = s.warp.fpstat ∧
          ∃ o r, t.warp.pending = s.warp.pending ++ [o] ∧ o.fault = some (r, 0) ∧ r.cause = .machineCheck ∧ o.flag = flagOf s.warp.pos fs ∧
            (o.done = true ↔ fs = .none) ∧ o.seq = s.warp.seq ∧ o.sWrite = none ∧ o.vWrites = []))) := by
  obtain ⟨mode, -, -, grant⟩ := hs
  have h := (dispatched_dispatched s toll).draw
  have granted : (s.grant n).isSome = true := by rw [State.grant, grant]; rfl
  have later := performLater_spec h mode fs (o := multiplyOp s n g as)
  refine ⟨fun wait => ⟨_, hr.trans (congrArg _ (acceptOp_later ?_)), later⟩, fun _ whole fine => ⟨_, hr, ?_⟩, fun _ whole bad => ⟨_, hr, ?_⟩⟩
  · rw [(dispatched_dispatched s toll).waits, LateOp.waits, Bool.or_eq_true, List.any_eq_true]
    refine wait.imp_right ?_
    rintro ⟨b, hb, l, hl, habs⟩
    exact ⟨l, List.mem_flatMap.2 ⟨b, hb, hl⟩, habs⟩
  · rcases acceptOp_cases (s.dispatched toll) fs (multiplyOp s n g as) with e | e <;> rw [e]
    · exact .inl later
    · obtain ⟨slot, result, charge⟩ := performNow_result h mode fs (o := multiplyOp s n g as) granted rfl
        (error_none (dispatched_reads h _ whole) (by rw [h.team]; exact fine)) (multiplyOp_factors h n g as) rfl
      refine .inr ⟨slot, result, ?_⟩
      obtain ⟨cs, taken, cores⟩ := charge
      exact ⟨cs, taken, cores.trans (congrArg State.cores (resided_operands s n g as slot.site))⟩
  · rcases acceptOp_cases (s.dispatched toll) fs (multiplyOp s n g as) with e | e <;> rw [e]
    · exact .inl later
    · exact .inr (performNow_bad h mode fs granted (error_bad (dispatched_reads h _ whole) rfl (by rw [h.team]; exact bad)))

theorem tmma_accepts {s : State} {fs : FSel} {n : BitVec 3} {a : BitVec 6} {g : Grant} (hs : SlotReady s n g) (hk : g.k ≠ 0)
    (hf : fs = .none ∨ s.warp.dests ≤ 16) {toll : ℕ} (ht : toll = (g.m * g.n * g.k + 1023) / 1024 * digitsOf g.aty) (hc : affords s toll)
    (hb : BoxesReady s (tabletsA g (s.warp.readS a).toNat 0)) :
    exec (.tmma fs n a) s = .next (acceptOp (s.dispatched toll) fs (multiplyOp s n g (tabletsA g (s.warp.readS a).toNat 0))) :=
  multiply_accepts (scales := fun _ => 0) hs hk hf ht hc (fun _ _ => rfl) hb

theorem tmmas_accepts {s : State} {fs : FSel} {n : BitVec 3} {a b : BitVec 6} {g : Grant} (hs : SlotReady s n g) (hk : g.k ≠ 0)
    (hf : fs = .none ∨ s.warp.dests ≤ 16) {toll : ℕ} (ht : toll = (g.m * g.n * g.k + 1023) / 1024 * digitsOf g.aty) (hc : affords s toll)
    (hb : BoxesReady s (tabletsA g (s.warp.readS a).toNat (s.warp.readS b).toNat)) :
    exec (.tmmas fs n a b) s =
      .next (acceptOp (s.dispatched toll) fs (multiplyOp s n g (tabletsA g (s.warp.readS a).toNat (s.warp.readS b).toNat))) :=
  multiply_accepts (scales := fun w => (w.readS b).toNat) hs hk hf ht hc (fun _ _ => rfl) hb

/-- The product of values by its factors: a NaN, an infinity, or exact (R311). -/
theorem product_rules (a : Exact) (xs : List Exact) :
    ((∃ x ∈ a :: xs, x = .nan) → productFrom a xs = .nan) ∧
    ((∀ x ∈ a :: xs, x ≠ .nan) → (∃ x ∈ a :: xs, x.isInf = true) →
      productFrom a xs = if ∃ x ∈ a :: xs, x.isZero = true then .nan else .inf ((a :: xs).foldl (fun acc x => acc != x.isNeg) false)) ∧
    ((∀ x ∈ a :: xs, x ≠ .nan ∧ x.isInf = false) → ∃ m e, productFrom a xs = .fin ((a :: xs).foldl (fun acc x => acc != x.isNeg) false) m e ∧
      (productFrom a xs).rat = ((a :: xs).map Exact.rat).prod) := by
  have sign : (a :: xs).foldl (fun acc x => acc != x.isNeg) false = xs.foldl (fun acc x => acc != x.isNeg) a.isNeg := by
    rw [List.foldl_cons, Bool.false_bne]
  rw [sign]
  refine ⟨?_, productFrom_inf, fun h => ?_⟩
  · rintro ⟨x, hx, rfl⟩
    rcases List.mem_cons.1 hx with rfl | hx
    · exact productFrom_nan xs
    · exact productFrom_of_nan hx a
  · obtain ⟨⟨hn, hi⟩, hxs⟩ := List.forall_mem_cons.1 h
    obtain ⟨n, m, e, rfl⟩ := exists_fin hn hi
    exact productFrom_fin n m e hxs

/-- Settles O31: the checks and the toll let the word through; accepted, it folds its chunks over the values, now or later. -/
theorem multiplies : Obligations.Multiplies := by
  unfold Obligations.Multiplies
  refine ⟨?_, ?_, ?_, ?_, ?_, ?_⟩
  · intro s fs n a b g hs hk hf x bs home toll hc does
    constructor
    · intro hb
      exact accepted_does hs toll _ (tmma_accepts hs hk hf rfl hc hb)
    · intro hb
      exact accepted_does hs toll _ (tmmas_accepts hs hk hf rfl hc hb)
  · intro b m i j hi hj
    exact elems_get b m hi hj
  · intro cls g f acc i j hj
    rw [outputs_get cls g f acc hj]
    cases f <;> rfl
  · intro cls g f i j k ht unit scale xs t neg hblk
    have factors : xs = elemValue g.aty (f.a.getD (i * g.k + k) 0#32) :: termFactors g f i j k := by
      rw [termFactors, blockUnit_eq hblk]
      rfl
    have sign : neg = (elemValue g.aty (f.a.getD (i * g.k + k) 0#32) :: termFactors g f i j k).foldl (fun acc x => acc != x.isNeg) false := by
      rw [← factors]
    rw [show t = _ from termAt_eq cls f i j k ht, sign, factors]
    exact product_rules _ _
  · intro acc ts
    exact applyChunk_int acc ts
  · intro acc ts
    exact ⟨rfl, windowSum_nan, windowSum_inf, windowSum_negative, fun h => ⟨windowSum_zero h, fun e => windowSum_number h⟩⟩

end Sys2Proof.Machine
end


section
/-! PROOF. The fields of a word (02_words_and_registers.md R25 to R27, R46): what each code stands for, in both directions, and the bits of the composite fields. -/
namespace Sys2Proof
open BitVec (extractLsb'_append_eq_of_le extractLsb'_append_eq_left extractLsb'_append_eq_right setWidth_append_eq_right
  setWidth_eq_extractLsb' extractLsb'_append_extractLsb'_eq_extractLsb' extractLsb'_eq_self)

/-! ## From the operand to its field and back -/

@[simp] theorem rlow_zero : RLow.ofBits 0#32 = {} := by decide
@[simp] theorem mlow_zero : MLow.ofBits 0#32 = {} := by decide
@[simp] theorem tlow_zero : TLow.ofBits 0#32 = {} := by decide

@[simp] theorem ofBool_beq_one (b : Bool) : (BitVec.ofBool b == 1#1) = b := by cases b <;> rfl
@[simp] theorem flagFn_beq_one (b : Bool) : (flagFn b == 1#6) = b := by cases b <;> rfl
@[simp] theorem flagFn3_beq_one (b : Bool) : (flagFn3 b == 1#3) = b := by cases b <;> rfl
@[simp] theorem flagFn_eq_one (b : Bool) : flagFn b = 1#6 ↔ b = true := by cases b <;> decide

@[simp] theorem flagFn_le (b : Bool) : (flagFn b).toNat ≤ 1 := by cases b <;> decide
@[simp] theorem flagFn3_le (b : Bool) : (flagFn3 b).toNat ≤ 1 := by cases b <;> decide
@[simp] theorem sgn_code_le (x : Sgn) : x.code.toNat ≤ 1 := by cases x <;> decide
@[simp] theorem cond_code_le (x : Cond) : x.code.toNat ≤ 5 := by cases x <;> decide
@[simp] theorem fCond_code_le (x : FCond) : x.code.toNat ≤ 5 := by cases x <;> decide
@[simp] theorem getIdSel_code_le (x : GetIdSel) : x.code.toNat ≤ 7 := by cases x <;> decide
@[simp] theorem getVlSel_code_le (x : GetVlSel) : x.code.toNat ≤ 5 := by cases x <;> decide
@[simp] theorem msetSel_code_le (x : MsetSel) : x.code.toNat ≤ 3 := by cases x <;> decide
@[simp] theorem scanOp_code_le (x : ScanOp) : x.code.toNat ≤ 2 := by cases x <;> decide
@[simp] theorem trainOp_code_le (x : TrainOp) : x.code.toNat ≤ 2 := by cases x <;> decide
@[simp] theorem cstatSel_code_lt (x : CstatSel) : x.code.toNat < 4 := by cases x <;> decide
@[simp] theorem tstrMode_code_le (m : TstrMode) : m.code.toNat ≤ 2 := by cases m <;> decide
@[simp] theorem mode_rm_lt (x : Mode) : x.rm.toNat < 4 := by cases x <;> decide
@[simp] theorem ord4_code_le (x : Ord4) : (x.code.setWidth 6).toNat ≤ 3 := by cases x <;> decide
@[simp] theorem wide_lt (n : BitVec 3) : (wide n).toNat < 8 := by decide +revert
@[simp] theorem wide_eq_zero (n : BitVec 3) : wide n = 0#6 ↔ n = 0#3 := by decide +revert

/-- A number carried in a wider field stays below the bound of its own width. -/
theorem toNat_setWidth_lt {m n k : ℕ} (x : BitVec m) (h : 2 ^ m ≤ k) : (x.setWidth n).toNat < k := by
  rw [BitVec.toNat_setWidth]
  exact (Nat.mod_le ..).trans_lt (x.isLt.trans_le h)

/-! ## From the field to its operand and back -/

@[simp] theorem et_code_ofCode (v : BitVec 4) : (ET.ofCode v).code = v := by decide +revert
@[simp] theorem ofBool_of_beq_one (b : BitVec 1) : BitVec.ofBool (b == 1#1) = b := by decide +revert
@[simp] theorem sgn_code_ofCode : ∀ v : BitVec 6, v.toNat ≤ 1 → (Sgn.ofCode v).code = v := by decide
@[simp] theorem cond_code_ofCode : ∀ v : BitVec 6, v.toNat ≤ 5 → (Cond.ofCode v).code = v := by decide
@[simp] theorem fCond_code_ofCode : ∀ v : BitVec 6, v.toNat ≤ 5 → (FCond.ofCode v).code = v := by decide
@[simp] theorem getIdSel_code_ofCode : ∀ v : BitVec 6, v.toNat ≤ 7 → (GetIdSel.ofCode v).code = v := by decide
@[simp] theorem getVlSel_code_ofCode : ∀ v : BitVec 6, v.toNat ≤ 5 → (GetVlSel.ofCode v).code = v := by decide
@[simp] theorem msetSel_code_ofCode : ∀ v : BitVec 6, v.toNat ≤ 3 → (MsetSel.ofCode v).code = v := by decide
@[simp] theorem scanOp_code_ofCode : ∀ v : BitVec 6, v.toNat ≤ 2 → (ScanOp.ofCode v).code = v := by decide
@[simp] theorem mode_rm_ofRm : ∀ v : BitVec 4, v.toNat < 4 → (Mode.ofRm v).rm = v := by decide
@[simp] theorem trainOp_code_ofCode : ∀ v : BitVec 3, v.toNat ≤ 2 → (TrainOp.ofCode v).code = v := by decide
@[simp] theorem cstatSel_code_ofCode : ∀ v : BitVec 3, v.toNat < 4 → (CstatSel.ofCode v).code = v := by decide
@[simp] theorem tstrMode_code_ofCode : ∀ v : BitVec 3, v.toNat ≤ 2 → (TstrMode.ofCode v).code = v := by decide
@[simp] theorem wide_low3 : ∀ n : BitVec 6, n.toNat < 8 → wide (low3 n) = n := by decide
@[simp] theorem flagFn_of_beq_one : ∀ n : BitVec 6, n.toNat ≤ 1 → flagFn (n == 1#6) = n := by decide
@[simp] theorem flagFn3_of_beq_one : ∀ n : BitVec 3, n.toNat ≤ 1 → flagFn3 (n == 1#3) = n := by decide
@[simp] theorem ord4_code_ofCode : ∀ v : BitVec 6, v.toNat ≤ 3 → (Ord4.ofCode (v.setWidth 2)).code.setWidth 6 = v := by decide

/-- A number that fits a narrower field is kept by it. -/
theorem setWidth_setWidth_of_lt {m n : ℕ} (x : BitVec n) (h : x.toNat < 2 ^ m) : (x.setWidth m).setWidth n = x := by
  apply BitVec.eq_of_toNat_eq
  rw [BitVec.toNat_setWidth, BitVec.toNat_setWidth, Nat.mod_eq_of_lt h, Nat.mod_eq_of_lt x.isLt]

/-- A field whose number is small has zeros above it. -/
theorem extractLsb'_eq_zero_of_lt {n k l : ℕ} (x : BitVec n) (h : x.toNat < 2 ^ k) : x.extractLsb' k l = 0#l := by
  apply BitVec.eq_of_toNat_eq
  rw [BitVec.extractLsb'_toNat, Nat.shiftRight_eq_div_pow, Nat.div_eq_of_lt h]
  simp

/-! ## Composite fields (R27, R139, R154, R202, R246, R283, R306) -/

@[simp] theorem convRm_lt (md : Mode) (b : Bool) : (convRm md b).toNat < 8 := by cases md <;> cases b <;> decide
@[simp] theorem ofRm_convRm (md : Mode) (b : Bool) : Mode.ofRm (convRm md b) = md := by cases md <;> cases b <;> rfl
@[simp] theorem convRm_bit (md : Mode) (b : Bool) : (convRm md b)[2] = b := by cases md <;> cases b <;> rfl
@[simp] theorem convRm_ofRm : ∀ v : BitVec 4, v.toNat < 8 → convRm (Mode.ofRm v) v[2] = v := by decide

@[simp] theorem vqntFn_lt (b : Bool) (x : ET) : (vqntFn b x).toNat < 32 := by cases b <;> cases x <;> decide
@[simp] theorem vqntFn_bit (b : Bool) (x : ET) : (vqntFn b x)[4] = b := by cases b <;> cases x <;> rfl
@[simp] theorem ofCode_vqntFn (b : Bool) (x : ET) : ET.ofCode ((vqntFn b x).setWidth 4) = x := by cases b <;> cases x <;> rfl
@[simp] theorem vqntFn_ofCode : ∀ v : BitVec 6, v.toNat < 32 → vqntFn v[4] (ET.ofCode (v.setWidth 4)) = v := by decide

@[simp] theorem extract_atomFn (x : AtomOp) (o : Ord4) : (atomFn x o).extractLsb' 2 4 = x.code := extractLsb'_append_eq_left
@[simp] theorem setWidth_atomFn (x : AtomOp) (o : Ord4) : (atomFn x o).setWidth 2 = o.code := setWidth_append_eq_right
theorem atomOp_code_le (x : AtomOp) : x.code.toNat ≤ 13 := by cases x <;> decide
@[simp] theorem atomFn_ofCode : ∀ v : BitVec 6, (v.extractLsb' 2 4).toNat ≤ 13 →
    atomFn (AtomOp.ofCode (v.extractLsb' 2 4)) (Ord4.ofCode (v.setWidth 2)) = v := by decide

@[simp] theorem extract_fenceFn (k : FenceKind) (x : Scope) : (fenceFn k x).extractLsb' 2 4 = x.code := extractLsb'_append_eq_left
@[simp] theorem setWidth_fenceFn (k : FenceKind) (x : Scope) : (fenceFn k x).setWidth 2 = k.code := setWidth_append_eq_right
@[simp] theorem fenceListed_fenceFn (k : FenceKind) (x : Scope) : fenceListed (fenceFn k x) = true := by cases k <;> cases x <;> rfl
@[simp] theorem fenceFn_ofCode : ∀ v : BitVec 6, fenceListed v = true →
    fenceFn (FenceKind.ofCode (v.setWidth 2)) (Scope.ofCode (v.extractLsb' 2 4)) = v := by decide

/-- A concatenation as a number. -/
theorem toNat_append_add {m n : ℕ} (x : BitVec m) (y : BitVec n) : (x ++ y).toNat = x.toNat * 2 ^ n + y.toNat := by
  rw [BitVec.toNat_append, ← Nat.shiftLeft_add_eq_or_of_lt y.isLt, Nat.shiftLeft_eq]

/-- One bit as a field. -/
theorem ofBool_getLsbD {n : ℕ} (v : BitVec n) (k : ℕ) : BitVec.ofBool (v.getLsbD k) = v.extractLsb' k 1 := by
  apply BitVec.eq_of_getLsbD_eq
  intro i hi
  obtain rfl : i = 0 := by omega
  simp

/-- A field of a field. -/
theorem extractLsb'_extractLsb' {n : ℕ} (x : BitVec n) {k l m t : ℕ} (h : m + t ≤ l) :
    (x.extractLsb' k l).extractLsb' m t = x.extractLsb' (k + m) t := by
  apply BitVec.eq_of_getLsbD_eq
  intro i hi
  have below : m + i < l := by omega
  simp [hi, below, add_assoc]

@[simp] theorem stripImm_lt (et : ET) (blk : BitVec 3) (grp : BitVec 2) : (StripImm.bits et blk grp).toNat < 512 := by
  simp only [StripImm.bits, toNat_append_add, BitVec.toNat_ofNat]
  omega

@[simp] theorem stripImm_et (et : ET) (blk : BitVec 3) (grp : BitVec 2) : (StripImm.bits et blk grp).setWidth 4 = et.code :=
  setWidth_append_eq_right

@[simp] theorem stripImm_blk (et : ET) (blk : BitVec 3) (grp : BitVec 2) : (StripImm.bits et blk grp).extractLsb' 4 3 = blk :=
  (extractLsb'_append_eq_of_le (by decide)).trans extractLsb'_append_eq_right

@[simp] theorem stripImm_grp (et : ET) (blk : BitVec 3) (grp : BitVec 2) : (StripImm.bits et blk grp).extractLsb' 7 2 = grp := by
  refine (extractLsb'_append_eq_of_le (by decide)).trans ?_
  exact (extractLsb'_append_eq_of_le (by decide)).trans extractLsb'_append_eq_right

@[simp] theorem stripImm_ofFields (v : BitVec 32) (h : v.toNat < 512) :
    StripImm.bits (ET.ofCode (v.setWidth 4)) (v.extractLsb' 4 3) (v.extractLsb' 7 2) = v := by
  rw [StripImm.bits, et_code_ofCode, setWidth_eq_extractLsb' (by decide), ← extractLsb'_eq_zero_of_lt (k := 9) (l := 23) v h,
    extractLsb'_append_extractLsb'_eq_extractLsb' (start₂ := 9) rfl, extractLsb'_append_extractLsb'_eq_extractLsb' (start₂ := 7) rfl,
    extractLsb'_append_extractLsb'_eq_extractLsb' (start₂ := 4) rfl]
  exact extractLsb'_eq_self

@[simp] theorem tsetImm_lt (x y : ET) (blk : BitVec 3) : (tsetImm x y blk).toNat < 2048 := by
  simp only [tsetImm, toNat_append_add, BitVec.toNat_ofNat]
  omega

@[simp] theorem tsetImm_aty (x y : ET) (blk : BitVec 3) : (tsetImm x y blk).setWidth 4 = x.code := setWidth_append_eq_right

@[simp] theorem tsetImm_bty (x y : ET) (blk : BitVec 3) : (tsetImm x y blk).extractLsb' 4 4 = y.code :=
  (extractLsb'_append_eq_of_le (by decide)).trans extractLsb'_append_eq_right

@[simp] theorem tsetImm_blk (x y : ET) (blk : BitVec 3) : (tsetImm x y blk).extractLsb' 8 3 = blk := by
  refine (extractLsb'_append_eq_of_le (by decide)).trans ?_
  exact (extractLsb'_append_eq_of_le (by decide)).trans extractLsb'_append_eq_right

@[simp] theorem tsetImm_ofFields (v : BitVec 16) (h : v.toNat < 2048) :
    tsetImm (ET.ofCode (v.setWidth 4)) (ET.ofCode (v.extractLsb' 4 4)) (v.extractLsb' 8 3) = v := by
  rw [tsetImm, et_code_ofCode, et_code_ofCode, setWidth_eq_extractLsb' (by decide), ← extractLsb'_eq_zero_of_lt (k := 11) (l := 5) v h,
    extractLsb'_append_extractLsb'_eq_extractLsb' (start₂ := 11) rfl, extractLsb'_append_extractLsb'_eq_extractLsb' (start₂ := 8) rfl,
    extractLsb'_append_extractLsb'_eq_extractLsb' (start₂ := 4) rfl]
  exact extractLsb'_eq_self

@[simp] theorem immRound_roundImm (md : Mode) (b : Bool) : immRound (roundImm md b) = true := by cases md <;> cases b <;> decide
@[simp] theorem ofRm_roundImm (md : Mode) (b : Bool) : Mode.ofRm ((roundImm md b).extractLsb' 12 4) = md := by cases md <;> cases b <;> decide
@[simp] theorem roundImm_bit (md : Mode) (b : Bool) : (roundImm md b)[14] = b := by cases md <;> cases b <;> decide

theorem extract_rm_ofRm (v : BitVec 4) : (Mode.ofRm v).rm.extractLsb' 0 2 = v.extractLsb' 0 2 := by decide +revert

@[simp] theorem roundImm_ofRm {v : BitVec 16} (h : immRound v = true) : roundImm (Mode.ofRm (v.extractLsb' 12 4)) v[14] = v := by
  simp only [immRound, Bool.and_eq_true, beq_iff_eq] at h
  obtain ⟨h15, low⟩ := h
  have top : v.extractLsb' 15 1 = 0#1 := by rw [← ofBool_getLsbD, h15]; rfl
  rw [roundImm, extract_rm_ofRm, ← top, ← low, ← BitVec.getLsbD_eq_getElem, ofBool_getLsbD, extractLsb'_extractLsb' _ (by decide),
    extractLsb'_append_extractLsb'_eq_extractLsb' (start₂ := 15) rfl, extractLsb'_append_extractLsb'_eq_extractLsb' (start₂ := 14) rfl,
    extractLsb'_append_extractLsb'_eq_extractLsb' (start₂ := 12) rfl]
  exact extractLsb'_eq_self

theorem roundImm_ofRm_false {v : BitVec 16} (h : immRound v = true) (hn : v.getLsbD 14 = false) :
    roundImm (Mode.ofRm (v.extractLsb' 12 4)) false = v := hn ▸ roundImm_ofRm h

@[simp] theorem streamImm_zero (si : StreamImm) : si.bits[7] = false := by
  rw [← BitVec.getLsbD_eq_getElem]
  simp only [StreamImm.bits, BitVec.getLsbD_append]
  simp

@[simp] theorem streamImm_ofBits_bits (si : StreamImm) : StreamImm.ofBits si.bits = si := by
  obtain ⟨count, unit, store, depth, et⟩ := si
  simp only [StreamImm.ofBits, StreamImm.mk.injEq]
  refine ⟨?count, ?unit, ?store, ?depth, ?et⟩
  case count =>
    apply BitVec.eq_of_getLsbD_eq
    intro i hi
    simp only [StreamImm.bits, BitVec.getLsbD_extractLsb', BitVec.getLsbD_append]
    simp (disch := omega) only [hi, decide_true, Bool.true_and, if_neg]
    congr 1
    omega
  case unit =>
    simp only [StreamImm.bits, BitVec.getLsbD_append]
    simp
  case store =>
    simp only [StreamImm.bits, BitVec.getLsbD_append]
    simp
  case depth => exact (extractLsb'_append_eq_of_le (by decide)).trans extractLsb'_append_eq_right
  case et => exact (congrArg ET.ofCode extractLsb'_append_eq_right).trans (et_ofCode_code et)

theorem streamImm_bits_ofBits {v : BitVec 32} (h : v.getLsbD 7 = false) : (StreamImm.ofBits v).bits = v := by
  have zero : v.extractLsb' 7 1 = 0#1 := by rw [← ofBool_getLsbD, h]; rfl
  rw [StreamImm.ofBits, StreamImm.bits, et_code_ofCode, ofBool_getLsbD, ofBool_getLsbD, ← zero,
    extractLsb'_append_extractLsb'_eq_extractLsb' (start₂ := 9) rfl, extractLsb'_append_extractLsb'_eq_extractLsb' (start₂ := 8) rfl,
    extractLsb'_append_extractLsb'_eq_extractLsb' (start₂ := 7) rfl, extractLsb'_append_extractLsb'_eq_extractLsb' (start₂ := 6) rfl,
    extractLsb'_append_extractLsb'_eq_extractLsb' (start₂ := 4) rfl]
  exact extractLsb'_eq_self

end Sys2Proof
end

section
/-! PROOF. The statement on the encoding (02_words_and_registers.md R25 to R28, R32, R50): what an instruction's word decodes to, and whose word a decoded word is. -/
namespace Sys2Proof

/-! ## Conditions 9 to 14 of R32 -/

/-- A word of an assigned opcode that passes what its fields alone decide. -/
structure Parsed.Passes (p : Parsed) (ctx : FlagContext) (h : Head) : Prop where
  operands : p.operands = true
  flag : flagAllowed ctx p.flagged h.fs = true
  typed : p.typed = true
  small : p.small = true

/-- Everything that a decoded word is. -/
theorem decodeWord_ok_iff (ctx : FlagContext) (w : BitVec 64) (i : Instr) :
    decodeWord ctx w = .ok i ↔ (Head.ofBits w).op ≠ 0xF8#8 ∧ i.wf = true ∧
      ∃ p, parse (Head.ofBits w) = some p ∧ p.Passes ctx (Head.ofBits w) ∧ p.instr = i := by
  simp only [decodeWord]
  constructor
  · intro h
    split at h
    next => cases h
    next marker =>
      split at h
      next => cases h
      next p hp =>
        split_ifs at h with h1 h2 h3 h4
        simp only [Bool.not_eq_true', Bool.not_eq_false, Bool.and_eq_true] at h1 h2 h3 h4
        cases h
        exact ⟨by simpa using marker, by simp [Instr.wf, h1, h2, h3, h4], p, hp, ⟨h1.1, h2.1, h3.1, h4.1⟩, rfl⟩
  · rintro ⟨marker, hwf, p, hp, ⟨operands, flag, typed, small⟩, rfl⟩
    simp only [Instr.wf, Bool.and_eq_true] at hwf
    simp [marker, hp, operands, flag, typed, small, hwf]

/-! ## From an instruction to its word (R25, R26, R50) -/

/-- The rows of the opcode map, each by the high digit of its opcodes (Table 10 of R50). -/
def parseRows : List (Head → Option Parsed) :=
  [parseRow0, parseRow1, parseRow2, parseRow3, parseRow4, parseRow5, parseRow6, parseRow7, parseRow8, parseRow9, parseRowA, parseRowB, parseRowC, parseRowD]

theorem parse_eq_row (h : Head) : parse h = (parseRows.getD (h.op.toNat / 16) fun _ => none) h := by
  unfold parse
  generalize h.op.toNat / 16 = n
  split
  case h_15 =>
    rw [List.getD_eq_default]
    simp only [parseRows, List.length_cons, List.length_nil]
    by_contra below
    interval_cases n <;> simp_all
  all_goals rfl

/-- The row of an opcode that is written out. -/
theorem parse_fields (op : BitVec 8) (fs : BitVec 2) (mk : BitVec 3) (mz : BitVec 1) (d a b : BitVec 6) (low : BitVec 32) :
    parse (.ofFields op fs mk mz d a b low) = (parseRows.getD (op.toNat / 16) fun _ => none) (.ofFields op fs mk mz d a b low) :=
  parse_eq_row _

theorem isInt_code_le {x : ET} (h : x.isInt = true) : (x.code.setWidth 6).toNat ≤ 7 := by
  revert h
  cases x <;> decide

theorem cvtPair_code {x y : ET} (h : cvtPair x y = true) :
    (x.code.setWidth 6).toNat ≤ 5 ∨ 8 ≤ (x.code.setWidth 6).toNat ∧ (x.code.setWidth 6).toNat ≤ 14 := by
  revert h
  cases x <;> cases y <;> decide

@[simp] theorem flagAllowed_code (x : FSel) : flagAllowed { setA := true, setB := true } true x.code = true := by cases x <;> rfl

@[simp] theorem flagAllowed_zero (ctx : FlagContext) (capable : Bool) : flagAllowed ctx capable 0#2 = true := rfl

/-- What an instruction is encoded as: fields that the opcode map reads as this instruction, and that pass conditions 11 to 14. -/
theorem parse_encode {i : Instr} {w : BitVec 64} (hwf : i.wf = true) (he : encode i = some w) :
    ∃ h p, Head.toBits h = w ∧ h.op ≠ 0xF8#8 ∧ parse h = some p ∧ p.Passes { setA := true, setB := true } h ∧ p.instr = i := by
  cases i <;> cases he
  -- opcodes of several instructions
  case cpyboxIn | cpyboxOut | cstat | cstatClr | tcsclLd | tcsclOne | cacheClean | cacheFlush | cacheInv | icinvRange | icinvAll | xlinvVa | xlinvAll |
      haltWarp | haltTeam =>
    refine ⟨_, _, rfl, by simp, (parse_fields ..).trans rfl, ⟨?_, ?_, ?_, ?_⟩, ?_⟩ <;>
      simp [wordCpybox, wordCstat, wordTcscl, wordCache, wordIcinv, wordXlinv, wordHalt, rlow_roundtrip, tlow_roundtrip, toNat_setWidth_lt,
        -BitVec.toNat_setWidth]
  all_goals
    refine ⟨_, ⟨_, _, _, _, _⟩, rfl, by simp, (parse_fields ..).trans rfl, ⟨?_, ?_, ?_, ?_⟩, ?_⟩
    all_goals simp [rlow_roundtrip, mlow_roundtrip, tlow_roundtrip, toNat_setWidth_lt, atomOp_code_le, -BitVec.toNat_setWidth]
  -- operands that not every value of their field's width admits
  all_goals simp only [Instr.wf, operandChecks, Bool.and_eq_true, Bool.or_eq_true, beq_iff_eq, and_true] at hwf
  case vwid | vsatn => exact isInt_code_le hwf.1
  case viota => exact hwf.1
  case vcvt => exact cvtPair_code hwf.2

/-! ## From a word to its instruction -/

theorem rlow_toBits_eq_iff (c fn : BitVec 6) (et rm : BitVec 4) (z : BitVec 12) (low : BitVec 32) : RLow.toBits ⟨c, fn, et, rm, z⟩ = low ↔
    c = (RLow.ofBits low).c ∧ fn = (RLow.ofBits low).fn ∧ et = (RLow.ofBits low).et ∧ rm = (RLow.ofBits low).rm ∧ z = (RLow.ofBits low).z := by
  rw [← RLow.mk.injEq]
  exact ⟨fun h => h ▸ (rlow_roundtrip _).symm, fun h => h ▸ rlow_bits low⟩

theorem mlow_toBits_eq_iff (c : BitVec 6) (z : BitVec 2) (et ch : BitVec 4) (off : BitVec 16) (low : BitVec 32) : MLow.toBits ⟨c, z, et, ch, off⟩ = low ↔
    c = (MLow.ofBits low).c ∧ z = (MLow.ofBits low).z ∧ et = (MLow.ofBits low).et ∧ ch = (MLow.ofBits low).ch ∧ off = (MLow.ofBits low).off := by
  rw [← MLow.mk.injEq]
  exact ⟨fun h => h ▸ (mlow_roundtrip _).symm, fun h => h ▸ mlow_bits low⟩

theorem tlow_toBits_eq_iff (c : BitVec 6) (ts fn : BitVec 3) (et : BitVec 4) (imm : BitVec 16) (low : BitVec 32) : TLow.toBits ⟨c, ts, fn, et, imm⟩ = low ↔
    c = (TLow.ofBits low).c ∧ ts = (TLow.ofBits low).ts ∧ fn = (TLow.ofBits low).fn ∧ et = (TLow.ofBits low).et ∧ imm = (TLow.ofBits low).imm := by
  rw [← TLow.mk.injEq]
  exact ⟨fun h => h ▸ (tlow_roundtrip _).symm, fun h => h ▸ tlow_bits low⟩

/-- A low half of zeros is one whose fields are zero, in form R and in form T. -/
theorem zero_eq_low_iff (low : BitVec 32) : 0#32 = low ↔ RLow.toBits {} = low ∨ TLow.toBits {} = low := by
  have r : RLow.toBits {} = 0#32 := by decide
  have t : TLow.toBits {} = 0#32 := by decide
  rw [r, t, or_self]

theorem head_eq_iff (op : BitVec 8) (fs : BitVec 2) (mk : BitVec 3) (mz : BitVec 1) (d a b : BitVec 6) (low : BitVec 32) (h : Head) :
    .ofFields op fs mk mz d a b low = h ↔
      op = h.op ∧ fs = h.fs ∧ mk = h.mk ∧ mz = h.mz ∧ d = h.d ∧ a = h.a ∧ b = h.b ∧ low = h.low := by
  cases h
  simp

/-- The flag select that a passing word holds: its operand's code where the word is flag-capable, and zero elsewhere. -/
theorem flag_passes {ctx : FlagContext} {capable : Bool} {v : BitVec 2} (h : flagAllowed ctx capable v = true) :
    if capable then (fselOf v).code = v else v = 0#2 := by
  obtain ⟨a, b⟩ := ctx
  revert a b capable v
  decide

/-- The fields of a word are the encoding of what the opcode map reads them as, if they pass conditions 11 to 14. -/
def Parsed.ReadsBack (h : Head) (p : Parsed) : Prop := ∀ ctx, p.Passes ctx h → encode p.instr = some h.toBits

theorem readsBack_of {h k : Head} {operands flagged typed small : Bool} {i : Instr}
    (back : operands = true → (if flagged then (fselOf h.fs).code = h.fs else h.fs = 0#2) → typed = true → small = true →
      encode i = some k.toBits ∧ k = h) : (Parsed.mk operands i flagged typed small).ReadsBack h := by
  intro ctx ok
  obtain ⟨he, rfl⟩ := back ok.operands (flag_passes ok.flag) ok.typed ok.small
  exact he

/-- What holds of the word at an opcode and of those at the opcodes after it holds of them all. -/
theorem of_entry {c : Prop} {_ : Decidable c} {x : Parsed} {rest : Option Parsed} {P : Parsed → Prop} (hx : c → P x)
    (hr : ∀ p, rest = some p → P p) : ∀ p, (if c then some x else rest) = some p → P p := by
  intro p hp
  split at hp
  next h => exact Option.some.inj hp ▸ hx h
  next => exact hr p hp

theorem of_reserved {P : Parsed → Prop} : ∀ p, none = some p → P p := fun _ h => absurd h.symm (Option.some_ne_none _)

@[simp] theorem setWidth_four_of_le : ∀ v : BitVec 6, v.toNat ≤ 7 → (v.setWidth 4).setWidth 6 = v := by decide
@[simp] theorem setWidth_four_of_cvt : ∀ v : BitVec 6, v.toNat ≤ 5 ∨ 8 ≤ v.toNat ∧ v.toNat ≤ 14 → (v.setWidth 4).setWidth 6 = v := by decide

theorem cpybox_readsBack {h : Head} (hop : h.op = 0xB8#8) : (wordCpybox h).ReadsBack h := by
  simp only [wordCpybox]
  split_ifs
  all_goals
    refine readsBack_of fun operands flag typed small => ⟨rfl, ?_⟩
    simp_all [head_eq_iff, tlow_toBits_eq_iff, setWidth_setWidth_of_lt]

theorem cstat_readsBack {h : Head} (hop : h.op = 0xBD#8) : (wordCstat h).ReadsBack h := by
  simp only [wordCstat]
  split_ifs
  all_goals
    refine readsBack_of fun operands flag typed small => ⟨rfl, ?_⟩
    simp_all [head_eq_iff, tlow_toBits_eq_iff, setWidth_setWidth_of_lt]

theorem tcscl_readsBack {h : Head} (hop : h.op = 0xC8#8) : (wordTcscl h).ReadsBack h := by
  simp only [wordTcscl]
  split_ifs
  all_goals
    refine readsBack_of fun operands flag typed small => ⟨rfl, ?_⟩
    simp_all [head_eq_iff, tlow_toBits_eq_iff]

theorem cache_readsBack {h : Head} (hop : h.op = 0xD4#8) : (wordCache h).ReadsBack h := by
  simp only [wordCache]
  split_ifs
  all_goals
    refine readsBack_of fun operands flag typed small => ⟨rfl, ?_⟩
    simp_all [head_eq_iff, rlow_toBits_eq_iff, zero_eq_low_iff]

theorem icinv_readsBack {h : Head} (hop : h.op = 0xD5#8) : (wordIcinv h).ReadsBack h := by
  simp only [wordIcinv]
  split_ifs
  all_goals
    refine readsBack_of fun operands flag typed small => ⟨rfl, ?_⟩
    simp_all [head_eq_iff, rlow_toBits_eq_iff, zero_eq_low_iff]

theorem xlinv_readsBack {h : Head} (hop : h.op = 0xD6#8) : (wordXlinv h).ReadsBack h := by
  simp only [wordXlinv]
  split_ifs
  all_goals
    refine readsBack_of fun operands flag typed small => ⟨rfl, ?_⟩
    simp_all [head_eq_iff, rlow_toBits_eq_iff, zero_eq_low_iff]

theorem halt_readsBack {h : Head} (hop : h.op = 0xD8#8) : (wordHalt h).ReadsBack h := by
  simp only [wordHalt]
  split_ifs
  all_goals
    refine readsBack_of fun operands flag typed small => ⟨rfl, ?_⟩
    simp_all [head_eq_iff, rlow_toBits_eq_iff, zero_eq_low_iff]


/-- Rows 0x0 to 0x9: every opcode names one instruction. -/
theorem lowRows_readsBack (h : Head) : ∀ f ∈ parseRows.take 10, ∀ p, f h = some p → p.ReadsBack h := by
  simp only [parseRows, List.take_succ_cons, List.take_zero, List.forall_mem_cons, List.not_mem_nil, false_imp_iff, implies_true, and_true]
  refine ⟨?_, ?_, ?_, ?_, ?_, ?_, ?_, ?_, ?_, ?_⟩
  all_goals repeat' first | exact of_reserved | refine of_entry (fun hop => ?_) ?_
  all_goals
    refine readsBack_of fun operands flag typed small => ⟨rfl, ?_⟩
    simp only [Bool.and_eq_true, Bool.or_eq_true, beq_iff_eq, decide_eq_true_eq, if_true, Bool.false_eq_true, if_false] at operands flag typed small
    simp [*, head_eq_iff, rlow_toBits_eq_iff, tlow_toBits_eq_iff, zero_eq_low_iff, setWidth_setWidth_of_lt,
      -BitVec.extractLsb'_toNat]

/-- Rows 0xA to 0xD: the field FN tells the instructions of an opcode apart. -/
theorem highRows_readsBack (h : Head) : ∀ f ∈ parseRows.drop 10, ∀ p, f h = some p → p.ReadsBack h := by
  simp only [parseRows, List.drop_succ_cons, List.drop_zero, List.forall_mem_cons, List.not_mem_nil, false_imp_iff, implies_true, and_true]
  refine ⟨?_, ?_, ?_, ?_⟩
  all_goals repeat' first | exact of_reserved | refine of_entry (fun hop => ?_) ?_
  any_goals exact cpybox_readsBack hop
  any_goals exact cstat_readsBack hop
  any_goals exact tcscl_readsBack hop
  any_goals exact cache_readsBack hop
  any_goals exact icinv_readsBack hop
  any_goals exact xlinv_readsBack hop
  any_goals exact halt_readsBack hop
  all_goals
    refine readsBack_of fun operands flag typed small => ⟨rfl, ?_⟩
    simp only [Bool.and_eq_true, beq_iff_eq, decide_eq_true_eq, if_true, Bool.false_eq_true, if_false] at operands flag typed small
    simp [*, head_eq_iff, rlow_toBits_eq_iff, tlow_toBits_eq_iff, mlow_toBits_eq_iff, zero_eq_low_iff, setWidth_setWidth_of_lt,
      -BitVec.extractLsb'_toNat]
  -- STRDEF's bit [7] and TSVL's bit [14] are zero
  · obtain ⟨-, bit7⟩ := operands
    exact streamImm_bits_ofBits bit7
  · obtain ⟨⟨-, round⟩, bit14⟩ := operands
    exact roundImm_ofRm_false round bit14

theorem parse_readsBack {h : Head} {p : Parsed} (hp : parse h = some p) : p.ReadsBack h := by
  rw [parse_eq_row, List.getD_eq_getElem?_getD] at hp
  rcases hr : parseRows[h.op.toNat / 16]? with _ | f
  · simp [hr] at hp
  · rw [hr, Option.getD_some] at hp
    have row := List.mem_of_getElem? hr
    rw [← List.take_append_drop 10 parseRows, List.mem_append] at row
    exact row.elim (lowRows_readsBack h f · p hp) (highRows_readsBack h f · p hp)

/-! ## Clause headers (R28) -/

theorem header_ofBits_toBits (h : Header) : Header.ofBits h.toBits = h := by
  cases h
  simp only [Header.ofBits, Header.toBits, Header.mk.injEq]
  refine ⟨?_, ?_, ?_, ?_, ?_, ?_, ?_⟩ <;>
    (apply BitVec.eq_of_getLsbD_eq; intro i hi; simp only [BitVec.getLsbD_extractLsb', BitVec.getLsbD_append];
     simp only [hi, decide_true, Bool.true_and]; simp (disch := omega) only [if_neg, if_pos]; try (congr 1; omega))

theorem header_toBits_ofBits {w : BitVec 64} (h : w.extractLsb' 56 8 = 0xF8#8) : (Header.ofBits w).toBits = w := by
  rw [Header.toBits, ← h]
  apply BitVec.eq_of_getLsbD_eq
  intro i hi
  simp only [Header.ofBits, BitVec.getLsbD_append, BitVec.getLsbD_extractLsb']
  repeat' split
  all_goals (rw [decide_eq_true (by omega), Bool.true_and]; congr 1; omega)

/-- A header that passes conditions 2 to 7 of R32 is marked. -/
theorem headerCheck_marked {a : ℕ} {w : BitVec 64} (h : headerCheck a w = none) : w.extractLsb' 56 8 = 0xF8#8 := by
  by_contra marked
  simp [headerCheck, marked] at h

/-- Settles O54, by the words that the opcode map reads: an instruction's word is read as this instruction, and a passing word is written as it stood. -/
theorem decodeEncode : Obligations.DecodeEncode := by
  unfold Obligations.DecodeEncode
  refine ⟨fun i w hwf he => ?_, fun ctx w i hd => ?_, header_ofBits_toBits, fun a w h => header_toBits_ofBits (headerCheck_marked h)⟩
  · obtain ⟨h, p, rfl, marker, hp, ok, hi⟩ := parse_encode hwf he
    rw [decodeWord_ok_iff, head_roundtrip]
    exact ⟨marker, hwf, p, hp, ok, hi⟩
  · obtain ⟨-, hwf, p, hp, ok, rfl⟩ := (decodeWord_ok_iff ctx w i).1 hd
    exact ⟨hwf, by rw [parse_readsBack hp ctx ok, head_bits]⟩

end Sys2Proof
end

section
/-! PROOF. What a commit makes visible, and what a later visible write stops of it (02_words_and_registers.md R35, R36, R38). -/
namespace Sys2Proof.Machine
open Sys2Proof

/-! ## Uniform registers -/

/-- The register file after one write; `s0` takes none. -/
def writeFile (s : Vector Word 64) (x : BitVec 6 × Word) : Vector Word 64 :=
  if x.1 = 0#6 then s else s.set x.1.toNat x.2 x.1.isLt

theorem setS_file (w : Warp) (r : BitVec 6) (v : Word) : (w.setS r v).s = writeFile w.s (r, v) := by
  simp only [Warp.setS, writeFile]; split <;> rfl

/-- The last write of a register among instructions in program order. -/
def lastS (os : List Outstanding) (r : BitVec 6) : Option (BitVec 6 × Word) :=
  (os.reverse.filterMap (·.sWrite)).find? fun y => y.1 == r

theorem readS_show1 (w : Warp) (o : Outstanding) {r : BitVec 6} (hr : r ≠ 0#6) :
    (w.show1 o).readS r = ((lastS [o] r).map Prod.snd).getD (w.readS r) := by
  rcases hs : o.sWrite with _ | ⟨d, v⟩
  · simp [Warp.show1, lastS, hs, Warp.raise, Warp.showLanes, Warp.readS]
  · have h : (w.show1 o).readS r = (w.setS d v).readS r := by
      simp only [Warp.show1, hs, Warp.raise, Warp.readS, Warp.showS, Warp.showLanes, setS_file]
    rw [h, readS_setS]
    rcases eq_or_ne r d with rfl | hd
    · simp [lastS, hs, hr]
    · simp [lastS, hs, hd, hd.symm]

theorem readS_show (os : List Outstanding) (w : Warp) {r : BitVec 6} (hr : r ≠ 0#6) :
    (os.foldl Warp.show1 w).readS r = ((lastS os r).map Prod.snd).getD (w.readS r) := by
  induction os generalizing w with
  | nil => rfl
  | cons o rest ih =>
    have split : lastS (o :: rest) r = (lastS rest r).or (lastS [o] r) := by
      simp [lastS, List.filterMap_append]
    rw [List.foldl_cons, ih, split, readS_show1 w o hr]
    cases lastS rest r <;> rfl

theorem commit_readS (w : Warp) (p : Outstanding → Bool) {r : BitVec 6} (hr : r ≠ 0#6) :
    (w.commit p).1.readS r = ((lastS (w.pending.filter p) r).map Prod.snd).getD (w.readS r) := by
  rw [commit_eq]; exact readS_show _ _ hr

theorem show1_s (w : Warp) (o : Outstanding) : (w.show1 o).s = o.sWrite.elim w.s (writeFile w.s) := by
  rcases hs : o.sWrite with _ | ⟨r, v⟩ <;> simp [Warp.show1, hs, Warp.raise, Warp.showS, Warp.showLanes, setS_file]

theorem commit_s (w : Warp) (p : Outstanding → Bool) :
    (w.commit p).1.s = ((w.pending.filter p).map (·.sWrite)).foldl (fun s y => y.elim s (writeFile s)) w.s := by
  have h (os : List Outstanding) (x : Warp) : (os.foldl Warp.show1 x).s = (os.map (·.sWrite)).foldl (fun s y => y.elim s (writeFile s)) x.s := by
    induction os generalizing x with
    | nil => rfl
    | cons o rest ih => rw [List.foldl_cons, ih, show1_s]; rfl
  rw [commit_eq]; exact h _ _

/-! ## FPSTAT and the results that stay pending -/

theorem commit_fpstat (w : Warp) (p : Outstanding → Bool) :
    (w.commit p).1.fpstat = ((w.pending.filter p).map (·.status)).foldl (· ||| ·) w.fpstat := by
  have h (os : List Outstanding) (x : Warp) : (os.foldl Warp.show1 x).fpstat = (os.map (·.status)).foldl (· ||| ·) x.fpstat := by
    induction os generalizing x with
    | nil => rfl
    | cons o rest ih => rw [List.foldl_cons, ih, show1_eq]; rfl
  rw [commit_eq]; exact h _ _

theorem or_all_getLsbD (xs : List (BitVec 7)) (a : BitVec 7) (i : ℕ) :
    (xs.foldl (· ||| ·) a).getLsbD i = true ↔ a.getLsbD i = true ∨ ∃ x ∈ xs, x.getLsbD i = true := by
  induction xs generalizing a with
  | nil => simp
  | cons x rest ih => simp [ih, or_assoc]

theorem show1_seqs (w : Warp) (o : Outstanding) : (w.show1 o).pending.map (·.seq) = w.pending.map (·.seq) := by
  rcases hs : o.sWrite with _ | ⟨r, v⟩ <;>
    simp only [Warp.show1, hs, Warp.raise, Warp.showS, Warp.showLanes, List.map_map] <;>
    exact List.map_congr_left fun y _ => by simp only [Function.comp]; repeat' split <;> rfl

theorem commit_seqs (w : Warp) (p : Outstanding → Bool) :
    (w.commit p).1.pending.map (·.seq) = (w.pending.filter fun o => !p o).map (·.seq) := by
  have h (os : List Outstanding) (x : Warp) : (os.foldl Warp.show1 x).pending.map (·.seq) = x.pending.map (·.seq) := by
    induction os generalizing x with
    | nil => rfl
    | cons o rest ih => rw [List.foldl_cons, ih, show1_seqs]
  rw [commit_eq]; exact h _ _

/-! ## A write by an instruction that every pending one precedes -/

/-- What is left of a pending instruction after a later write of a register. -/
def Outstanding.behindS (d : BitVec 6) (o : Outstanding) : Outstanding := { o with sWrite := stripS d o.sWrite }

/-- What is left of a pending instruction after later writes of lane words. -/
def Outstanding.behindV (ws : List LaneWrite) (o : Outstanding) : Outstanding := { o with vWrites := stripWrites ws o.vWrites }

/-- A predicate that does not look at the pending writes chooses the same instructions after one. -/
theorem chosen_map {p : Outstanding → Bool} {f : Outstanding → Outstanding} (hp : ∀ o, p (f o) = p o) (os : List Outstanding) :
    (os.map f).filter p = (os.filter p).map f := by
  rw [List.filter_map, show p ∘ f = p from funext hp]

section
variable {w : Warp} (behind : ∀ o ∈ w.pending, o.seq < w.seq)
include behind

theorem writeS_pending_behind (d : BitVec 6) (v : Word) : (w.writeS d v).pending = w.pending.map (·.behindS d) :=
  List.map_congr_left fun o ho => if_pos (behind o ho)

theorem writeLanes_pending_behind (ws : List LaneWrite) : (w.writeLanes ws).pending = w.pending.map (·.behindV ws) :=
  List.map_congr_left fun o ho => if_pos (behind o ho)

end

/-- Once a register is written, no earlier write of it is the last of any register, and the last writes of the others stay. -/
theorem lastS_behindS (os : List Outstanding) (d r : BitVec 6) :
    lastS (os.map (·.behindS d)) r = if r = d then none else lastS os r := by
  have left (o : Outstanding) : (o.behindS d).sWrite = o.sWrite.filter fun y => y.1 != d := by
    rcases hs : o.sWrite with _ | ⟨x, y⟩
    · simp [Outstanding.behindS, stripS, hs]
    · by_cases hx : x = d <;> simp [Outstanding.behindS, stripS, hs, hx, Option.filter]
  have hf : (os.map (·.behindS d)).reverse.filterMap (·.sWrite) = (os.reverse.filterMap (·.sWrite)).filter fun y => y.1 != d := by
    rw [← List.map_reverse, List.filterMap_map, List.filter_filterMap]
    exact List.filterMap_congr fun o _ => left o
  rw [lastS, hf, List.find?_filter]
  split
  case isTrue h => subst h; exact List.find?_eq_none.2 fun y _ => by simp
  case isFalse h =>
    rw [lastS]; congr 1; funext y
    by_cases hy : y.1 = r <;> simp [hy, h]

theorem readS_commit_writeS {w : Warp} {p : Outstanding → Bool} (hp : ∀ o y z, p { o with sWrite := y, vWrites := z } = p o)
    (behind : ∀ o ∈ w.pending, o.seq < w.seq) (d : BitVec 6) (v : Word) {r : BitVec 6} (hr : r ≠ 0#6) :
    ((w.writeS d v).commit p).1.readS r = if r = d then v else (w.commit p).1.readS r := by
  rw [commit_readS _ _ hr, commit_readS _ _ hr, writeS_pending_behind behind,
    chosen_map (f := (·.behindS d)) (fun o => hp o _ o.vWrites), lastS_behindS, readS_writeS]
  rcases eq_or_ne r d with rfl | hd
  · simp [hr]
  · simp [hd]

/-! ## Lane words, bit by bit -/

/-- A bit of lane word `k` after writes. -/
def writtenBit (ws : List LaneWrite) (k b : ℕ) (old : Bool) : Bool :=
  ws.foldl (fun acc x => if x.lane = k ∧ x.mask.getLsbD b = true then x.value.getLsbD b else acc) old

theorem applyWrites_bit (v : List LaneWord) (ws : List LaneWrite) {k b : ℕ} (hk : k < v.length) (hb : b < 32) :
    ((applyWrites v ws).getD k 0#32).getLsbD b = writtenBit ws k b ((v.getD k 0#32).getLsbD b) := by
  induction ws generalizing v with
  | nil => rfl
  | cons x rest ih =>
    rw [show applyWrites v (x :: rest) = applyWrites (applyWrites v [x]) rest from rfl, ih _ (by simpa using hk), applyWrites_one,
      writtenBit, writtenBit, List.foldl_cons]
    congr 1
    by_cases hx : x.lane = k
    · cases hm : x.mask[b] <;> simp [hx, hk, hb, blend, hm]
    · simp [hx, Ne.symm hx]

theorem writtenBit_untouched {ws : List LaneWrite} {k b : ℕ} (h : ¬∃ z ∈ ws, z.lane = k ∧ z.mask.getLsbD b = true) (old : Bool) :
    writtenBit ws k b old = old := by
  induction ws with
  | nil => rfl
  | cons x rest ih =>
    simp only [List.mem_cons, exists_eq_or_imp, not_or] at h
    rw [writtenBit, List.foldl_cons, if_neg h.1]
    exact ih h.2

/-- What earlier writes still write, below the bits that later ones wrote. -/
theorem writtenBit_strip (later ws : List LaneWrite) (k : ℕ) {b : ℕ} (hb : b < 32) (old : Bool) :
    writtenBit (stripWrites later ws) k b old =
      if ∃ z ∈ later, z.lane = k ∧ z.mask.getLsbD b = true then old else writtenBit ws k b old := by
  have kept (x : LaneWrite) := stripMask_getLsbD later x.lane x.mask b hb
  split
  case isTrue h =>
    refine writtenBit_untouched (fun ⟨y, hy, hlane, hmask⟩ => ?_) old
    obtain ⟨x, -, rfl⟩ := List.mem_map.1 hy
    subst hlane
    exact ((kept x).1 hmask).2 h
  case isFalse h =>
    simp only [writtenBit, stripWrites, List.foldl_map]
    congr 1; funext acc x
    by_cases hx : x.lane = k
    · subst hx; simp [kept x, h]
    · simp [hx]

theorem readLane_commit_writeLanes {w : Warp} {p : Outstanding → Bool} (hp : ∀ o y z, p { o with sWrite := y, vWrites := z } = p o)
    (behind : ∀ o ∈ w.pending, o.seq < w.seq) (ws : List LaneWrite) (k : ℕ) {b : ℕ} (hb : b < 32) :
    (((w.writeLanes ws).commit p).1.readLane k).getLsbD b =
      if ∃ z ∈ ws, z.lane = k ∧ z.mask.getLsbD b = true then ((w.writeLanes ws).readLane k).getLsbD b
      else ((w.commit p).1.readLane k).getLsbD b := by
  have left : ((w.writeLanes ws).pending.filter p).flatMap (·.vWrites) = stripWrites ws ((w.pending.filter p).flatMap (·.vWrites)) := by
    rw [writeLanes_pending_behind behind, chosen_map (f := (·.behindV ws)) (fun o => hp o o.sWrite _), List.flatMap_map, stripWrites, List.map_flatMap]
    rfl
  simp only [Warp.readLane, commit_v, left, show (w.writeLanes ws).v = applyWrites w.v ws from rfl]
  by_cases hk : k < w.v.length
  · rw [applyWrites_bit _ _ (by simpa using hk) hb, writtenBit_strip _ _ _ hb, applyWrites_bit _ ws hk hb, applyWrites_bit _ _ hk hb]
    split
    case isTrue => rfl
    case isFalse h => rw [writtenBit_untouched h]
  · have out (v : List LaneWord) (hv : v.length = w.v.length) : v.getD k 0#32 = 0#32 := by simp [hv, hk]
    rw [out _ (by simp), out _ (by simp), out _ (by simp), ite_self]

/-- Settles O35, by what each committed instruction shows, and by what a write that every pending instruction precedes leaves of them. -/
theorem commitsInOrder : Obligations.CommitsInOrder := by
  unfold Obligations.CommitsInOrder
  intro w p _ x chosen
  refine ⟨fun r hr => ?_, commit_v w p, fun i => ?_, commit_seqs w p, commit_frame w p, rfl, fun hp behind => ⟨fun d v hd => ?_, fun ws => ?_⟩⟩
  · rw [commit_readS w p hr, lastS]
    cases List.find? (fun y => y.1 == r) ((w.pending.filter p).reverse.filterMap (·.sWrite)) <;> rfl
  · rw [commit_fpstat, or_all_getLsbD]
    simp [chosen]
  · have same : (w.writeS d v).pending.filter p = chosen.map (·.behindS d) := by
      rw [writeS_pending_behind behind, chosen_map (f := (·.behindS d)) fun o => hp o _ o.vWrites]
    refine ⟨by rw [readS_commit_writeS hp behind d v hd, if_pos rfl], fun r hr => ?_, ?_, ?_⟩
    · rcases eq_or_ne r 0#6 with rfl | h0
      · rfl
      · rw [readS_commit_writeS hp behind d v h0, if_neg hr]
    · rw [commit_v, commit_v, same, List.flatMap_map, writeS_eq]; rfl
    · rw [commit_fpstat, commit_fpstat, same, List.map_map, writeS_eq]; rfl
  · have same : (w.writeLanes ws).pending.filter p = chosen.map (·.behindV ws) := by
      rw [writeLanes_pending_behind behind, chosen_map (f := (·.behindV ws)) fun o => hp o o.sWrite _]
    refine ⟨?_, ?_, fun k b hb => readLane_commit_writeLanes hp behind ws k hb⟩
    · rw [commit_s, commit_s, same, List.map_map]; rfl
    · rw [commit_fpstat, commit_fpstat, same, List.map_map]; rfl

end Sys2Proof.Machine
end

section
/-! PROOF. Where a word that both lane mode and the limit of pending destinations forbid is refused (02_words_and_registers.md R32, R37; 05_teams_and_warps.md R104). -/
namespace Sys2Proof.Machine
open Sys2Proof

/-- A warp in lane mode with 17 pending destinations, one more than condition 15 lets a warp hold (R37), of a team whose launch has eight slots: no run comes to it. -/
def overfull : State :=
  { State.reset with
    warp := { lanes := some { lanes := List.replicate 16 { pos := { hdr := 0 }, joined := false } }, seq := 1, pending := [{ seq := 0, pc := 0#64, flag := some 0, dests := 17, done := true }] }
    team := { launch := { tiles := 8 } } }

/-- TRAPINFO after a step. -/
def infoAfter (r : Result) : Option Word :=
  match r with
  | .next t => some t.warp.trapinfo
  | .fault _ | .refused _ => none

theorem overfull_tcscl : fieldChecks overfull (.tcsclOne .a 0#3) = some [true] ∧ overfull.warp.inLanes = true ∧ lanePermits (.tcsclOne .a 0#3) = false := by
  decide +kernel

/-- A `TCSCL.ONE` under a flag is tested for condition 15 before lane mode. -/
theorem overfull_tcscl_info : infoAfter (exec (.tcsclOne .a 0#3) overfull) = some 0x07#64 := by decide +kernel

theorem overfull_laneMode_info :
    infoAfter (.next (trapHere overfull { cause := .illegal, info := 0x09#64 } overfull.warp.vstart)) = some 0x09#64 := by decide +kernel

/-- Refutes O37: a matrix word under a flag, in lane mode, is tested for condition 15 before lane mode, so in a state with more than 16 pending destinations it takes reason 0x07 and not 0x09. The statement is over every state; no run reaches such a one, since condition 15 keeps the destinations at 16 or fewer. -/
theorem not_refusals : ¬ Obligations.Refusals := by
  unfold Obligations.Refusals
  intro h
  obtain ⟨fields, lanes, forbidden⟩ := overfull_tcscl
  have refused := ((h.1 overfull).1 _ _ fields).2 lanes forbidden (by decide)
  have same := congrArg infoAfter refused
  rw [overfull_tcscl_info, overfull_laneMode_info] at same
  exact absurd same (by decide)

end Sys2Proof.Machine
end

section
/-! PROOF. A step runs the word of the warp that moves or the event whose turn it is; the order of R68; the word that a fetch gives (02_words_and_registers.md R29, R31, R32; 04_scalar_and_flow.md R67, R68; 15_system_and_traps.md R342). -/
namespace Sys2Proof.Machine
open Sys2Proof

/-! ## Turns -/

theorem onNext_onNext (r : Result) (f g : State → State) : onNext (onNext r f) g = onNext r fun t => g (f t) := by
  cases r <;> rfl

theorem step_movable {s : State} (ha : s.agentTurn = false) (hm : movable s = true) : step s = onNext (moveWarp s) endTurn := by
  simp [step, turn, ha, warpTurn, hm]

theorem step_event {s : State} (h : s.agentTurn = true ∨ movable s = false) : step s = eventTurn s := by
  unfold step turn
  split
  · rfl
  · rename_i ha
    simp [warpTurn, h.resolve_left ha]

theorem eventTurn_some {s u : State} {i : Instr} (h : nextEvent s = some (i, u)) : eventTurn s = onNext (exec i u) endTurn := by
  rw [eventTurn, h]

theorem eventTurn_none {s : State} (h : nextEvent s = none) : eventTurn s = .next (endTurn s) := by
  rw [eventTurn, h]

theorem moveWarp_due {s : State} {r : Report} (h : s.warp.due = some r) : moveWarp s = .next (takeDue s r) := by
  rw [moveWarp, h]

theorem moveWarp_start {s : State} (hd : s.warp.due = none) (h0 : s.warp.at.idx = 0) : moveWarp s = exec .clauseStart s := by
  simp [moveWarp, hd, h0, exec]

theorem moveWarp_word {s : State} {w : Word} (hd : s.warp.due = none) (h0 : s.warp.at.idx ≠ 0) (hw : s.warp.at.word = some w) :
    moveWarp s = onNext (issueWord w s) fun t => afterIssue s (afterReissue s t) := by
  simp [moveWarp, hd, h0, hw]

theorem issueWord_ok {s : State} {w : Word} {i : Instr} (h : decodeWord s.warp.at.context w = .ok i) : issueWord w s = exec i s := by
  rw [issueWord, h]

theorem issueWord_error {s : State} {w : Word} {r : IllegalReason} (h : decodeWord s.warp.at.context w = .error r) :
    issueWord w s = .next (trapHere s { cause := .illegal, info := r.code.setWidth 64 } s.warp.vstart) := by
  rw [issueWord, h]; rfl

theorem movable_iff (s : State) : movable s = true ↔ ready s = true ∧ (s.warp.due ≠ none ∨ s.warp.at.idx = 0 ∨
    (s.warp.taken = 0 ∧ ∀ u ∈ (coreOf s s.warp.core).used, u.1 ≠ (slotNeeded s).group)) := by
  simp [movable, betweenWords, Option.isSome_iff_ne_none, or_assoc]

/-! ## The order of R68 -/

theorem tier_eq (group : Option (ℕ × ℕ)) (w : Warp) :
    tier group w = if w.urgent = true ∨ 32 ≤ w.wait then 0 else if w.yieldLow ≠ 0 then 3 else if group.map Prod.fst = some w.cls then 1 else 2 := by
  cases group <;> simp [tier, Warp.pressing, Nat.pos_iff_ne_zero]

/-- A warp stands no later than another: by tier, then the larger wait count, then the lower warp slot. -/
def standsBy (group : Option (ℕ × ℕ)) (y x : Warp) : Prop :=
  tier group y < tier group x ∨ (tier group y = tier group x ∧ (x.wait < y.wait ∨ (x.wait = y.wait ∧ y.slot ≤ x.slot)))

theorem standsBy_refl (group : Option (ℕ × ℕ)) (x : Warp) : standsBy group x x := .inr ⟨rfl, .inr ⟨rfl, le_rfl⟩⟩

theorem standsBy_trans {group : Option (ℕ × ℕ)} {x y z : Warp} (hxy : standsBy group x y) (hyz : standsBy group y z) : standsBy group x z := by
  unfold standsBy at *; omega

theorem standsBy_of_chosenBefore {group : Option (ℕ × ℕ)} {x y : Warp} (h : chosenBefore group x y = true) : standsBy group x y := by
  simp only [chosenBefore, Bool.or_eq_true, Bool.and_eq_true, decide_eq_true_eq, beq_iff_eq] at h
  unfold standsBy; omega

theorem standsBy_of_not_chosenBefore {group : Option (ℕ × ℕ)} {x y : Warp} (h : ¬ chosenBefore group x y = true) : standsBy group y x := by
  simp only [chosenBefore, Bool.or_eq_true, Bool.and_eq_true, decide_eq_true_eq, beq_iff_eq] at h
  unfold standsBy; omega

/-- The warp chosen is one of those that compete, and stands no later than any of them. -/
theorem chosen_first {s : State} {group : Option (ℕ × ℕ)} {rs : List WarpRef} {r : WarpRef} (h : chosen s group rs = some r) :
    r ∈ rs ∧ ∀ q ∈ rs, standsBy group (warpOf s r) (warpOf s q) := by
  induction rs generalizing r with
  | nil => simp [chosen] at h
  | cons a rest ih =>
    rw [chosen] at h
    cases hr : chosen s group rest with
    | none =>
      obtain rfl : a = r := by simpa [hr] using h
      obtain rfl : rest = [] := by
        cases rest with
        | nil => rfl
        | cons b more => rw [chosen] at hr; split at hr <;> simp at hr
      simp [standsBy_refl]
    | some q =>
      obtain ⟨hq, first⟩ := ih hr
      obtain hb | hb := Classical.em (chosenBefore group (warpOf s q) (warpOf s a) = true)
      · obtain rfl : q = r := by simpa [hr, hb] using h
        exact ⟨List.mem_cons_of_mem _ hq, List.forall_mem_cons.2 ⟨standsBy_of_chosenBefore hb, first⟩⟩
      · obtain rfl : a = r := by simpa [hr, hb] using h
        exact ⟨List.mem_cons_self .., List.forall_mem_cons.2
          ⟨standsBy_refl .., fun x hx => standsBy_trans (standsBy_of_not_chosenBefore hb) (first x hx)⟩⟩

/-! ## The word that a fetch gives -/

section
variable {s : State} {q : Ask} {first : Bool} {va : ℤ} {j : ℕ} {l : Loc} (k : ℕ)

theorem placed_elem {x : Loc} (h : placed q { k := j, va := va } x = .ok l) : placed q { k := k, va := va } x = .ok l := by
  unfold placed at *
  split at h
  · exact absurd h nofun
  · next device => rw [if_neg device, ← h]

theorem checkMapped_elem (h : checkMapped s q { k := j, va := va } = .ok l) : checkMapped s q { k := k, va := va } = .ok l := by
  unfold checkMapped at *
  cases hf : failedFault q.failed va <;> simp only [hf] at h ⊢
  · cases ht : translate s q.part q.acc q.priv (va54 va) q.pins <;> simp only [ht] at h ⊢
    · exact placed_elem k h
    all_goals exact absurd h nofun
  · exact absurd h nofun

theorem checkWindow_elem (h : checkWindow s q first { k := j, va := va } = .ok l) : checkWindow s q first { k := k, va := va } = .ok l := by
  simp only [checkWindow] at h ⊢
  split_ifs at h ⊢
  exact h

/-- Where an element performs does not go by its number. -/
theorem checkFresh_elem (h : checkFresh s q first { k := j, va := va } = .ok l) : checkFresh s q first { k := k, va := va } = .ok l := by
  unfold checkFresh at *
  cases hc : canonicalFault va <;> simp only [hc] at h ⊢
  · split at h
    · exact absurd h nofun
    · next fits =>
      rw [if_neg fits]
      split at h
      · next inside => rw [if_pos inside]; exact checkWindow_elem k h
      · next outside => rw [if_neg outside]; exact checkMapped_elem k h
  · exact absurd h nofun

end

theorem settle_eq (s : State) (part : BitVec 4) (xs : List (Elt × Loc)) :
    settle s part xs = { s with tables := (settle s part xs).tables, xlate := (settle s part xs).xlate, draws := (settle s part xs).draws } := by
  unfold settle keepOks; rw [keepPages_eq]; rfl

theorem keepLine_eq (s : State) (part : BitVec 4) (line : ℕ) (ws : List Word) :
    keepLine s part line ws = { s with icache := (keepLine s part line ws).icache } := by
  unfold keepLine; split <;> rfl

/-- The word at an aligned place among the words of its line. -/
theorem lineWords_at (s : State) {key va kid : ℕ} (place : key % 128 = va % 128) (aligned : va % 8 = 0) :
    (lineWords s key kid).getD (va % 128 / 8) 0#64 = BitVec.ofNat 64 (readLE s key kid 8) := by
  have hi : va % 128 / 8 < 16 := by omega
  have at' : key / 128 * 128 + 8 * (va % 128 / 8) = key := by omega
  simp [lineWords, hi, at']

theorem fetchWord_memory {s : State} {priv : Bool} {va : ℤ} {l : Loc} (hc : checkFresh s (fetchAsk s priv) true { k := 0, va := va } = .ok l)
    (hn : cachedWords s s.team.part (va54 va / 128) = none) (he : errorAt s l.key l.kid 8 = false) (ha : absentIn s l.key 8 = none)
    (place : l.key % 128 = va54 va % 128) (aligned : va54 va % 8 = 0) :
    ∃ u, fetchWord s priv va = .got (BitVec.ofNat 64 (readLE s l.key l.kid 8)) u ∧ u.mem = s.mem ∧ u.warp = s.warp ∧ u.team = s.team := by
  refine ⟨keepLine (settle s s.team.part [({ k := 0, va := va }, l)]) s.team.part (va54 va / 128) (lineWords s l.key l.kid), ?_, ?_⟩
  · have hk := checkFresh_elem (fetchElem s priv) hc
    rw [← lineWords_at s place aligned]
    simp only [fetchWord, hk, hn, ha, he]
    rfl
  · rw [keepLine_eq, settle_eq]; simp

/-- Settles O60: the turn, the order of issue by induction on the warps that compete, and the fetch by the line that holds the word. -/
theorem stepRuns : Obligations.StepRuns := by
  unfold Obligations.StepRuns
  refine ⟨fun s => ⟨fun ha hm => ⟨fun r hd => ?_, fun hd h0 => ?_, fun w hd h0 hw => ⟨fun i hi => ?_, fun r hr => ?_⟩⟩, movable_iff s, fun h => ?_, fun group rs r h => ?_⟩,
    fun s priv va l hc hn he ha place aligned => fetchWord_memory hc hn he ha place aligned⟩
  · rw [step_movable ha hm, moveWarp_due hd]; rfl
  · rw [step_movable ha hm, moveWarp_start hd h0]
  · rw [step_movable ha hm, moveWarp_word hd h0 hw, issueWord_ok hi, onNext_onNext]
  · rw [step_movable ha hm, moveWarp_word hd h0 hw, issueWord_error hr]; rfl
  · exact ⟨fun i u he => by rw [step_event h, eventTurn_some he], fun he => by rw [step_event h, eventTurn_none he]⟩
  · obtain ⟨mem, first⟩ := chosen_first h
    refine ⟨mem, fun q hq => ?_⟩
    have := first q hq
    simp only [standsBy, tier_eq] at this
    exact this

end Sys2Proof.Machine
end

section
/-! PROOF. The charged words of Table 4 come to the toll gate with their checks behind them, and wait there without credit (17_cryogenic_and_power.md R375, R377). -/
namespace Sys2Proof.Machine
open Sys2Proof

/-! ## The gate -/

/-- A word of a charge that has come to the toll gate. -/
def AtGate (r : Result) (s : State) (n : ℕ) : Prop := ∃ k, r = .next (tolled s n k)

theorem atGate_next (s : State) (n : ℕ) (k : State → State) : AtGate (.next (tolled s n k)) s n := ⟨k, rfl⟩

theorem atGate_guarded {cs : List (Bool × IllegalReason)} {s : State} {n : ℕ} {k : State → State} (h : ∀ c ∈ cs, c.1 = true) :
    AtGate (guarded cs s fun s => tolled s n k) s n := ⟨k, guarded_pass h⟩

theorem not_credit_of_not_affords {s : State} {n : ℕ} (h : ¬ affords s n) : s.credit n = false := by
  simp only [affords, not_or, Bool.not_eq_true] at h
  obtain ⟨hn, hp, hl, hc, hd⟩ := h
  have place : corePlace s.warp.core < 312 := by
    by_contra out
    exact hc (by rw [coreOf_beyond _ _ out]; rfl)
  obtain ⟨core, -, -, -⟩ := drawLease_core hn hp
  simp only [State.credit, hn, hp, decide_false, Bool.or_false, core place, Core.credit, drawn, hc, Bool.false_or, Bool.or_eq_false_iff, decide_eq_false_iff_not, false_or, if_false,
    Bool.false_eq_true]
  omega

/-- Without credit the whole lease is drawn, and the warp waits where it stands. -/
theorem waitsForToll_of_atGate {i : Instr} {s : State} {n : ℕ} (h : AtGate (exec i s) s n) : waitsForToll i s n := by
  intro ha
  obtain ⟨k, hk⟩ := h
  have credit := not_credit_of_not_affords ha
  simp only [affords, not_or, Bool.not_eq_true] at ha
  obtain ⟨hn, hp, hl, hc, hd⟩ := ha
  have all : drawn s n = s.warp.lease := by
    simp only [drawn, hn, hp, hc, false_or, Bool.false_eq_true, if_false]
    omega
  obtain ⟨core, lease, -, others⟩ := drawLease_core hn hp
  refine ⟨_, hk, ?_⟩
  simp only [tolled, credit, Bool.false_eq_true, if_false]
  refine ⟨?_, fun place => ?_, fun c hc => others c hc⟩
  · rw [all, Nat.sub_self] at lease
    rw [drawLease_eq, lease]; rfl
  · rw [← all]; exact core place

end Sys2Proof.Machine
end

section
/-! PROOF. The checks of the charged words, kind by kind (17_cryogenic_and_power.md R375). -/
namespace Sys2Proof.Machine
open Sys2Proof

/-! ## What the register fields of a word that condition 14 admits give -/

theorem fields_true {cs : List Bool} (h : false ∉ cs) : ∀ b ∈ cs, b = true :=
  fun b hb => by_contra fun hf => h (by rwa [Bool.eq_false_iff.2 hf] at hb)

theorem vecOk_iff (s : State) (r : BitVec 6) (e : ℕ) : (vecOk s r e).1 = groupField s e r := rfl

theorem slotOk_iff (s : State) (n : BitVec 3) : (slotOk s n).1 = slotField s n := rfl

theorem groupSize_le {s : State} {e : ℕ} {r : BitVec 6} (h : groupField s e r = true) : groupSize s.warp e ≤ 8 := by
  simp only [groupField, Bool.and_eq_true, decide_eq_true_eq] at h
  exact h.1.1

/-- With few destinations pending, a word of one group finds room. -/
theorem pendingOk_few {s : State} {n : ℕ} (hd : s.warp.dests ≤ 8) (hn : n ≤ 8) (fs : FSel) : (pendingOk s fs n).1 = true := by
  have : s.warp.dests + n ≤ 16 := by omega
  simp [pendingOk, this]

theorem vectorOnly_uniform {s : State} (h : s.warp.inLanes = false) : (vectorOnly s).1 = true := by simp [vectorOnly, h]

/-- Checks that hold and a meaning that comes to the gate. -/
theorem atGate_of {cs : List (Bool × IllegalReason)} {s : State} {n : ℕ} {k : State → State} (h : ∀ c ∈ cs, c.1 = true)
    (hk : ∃ j, k s = tolled s n j) : AtGate (guarded cs s k) s n := by
  obtain ⟨j, hj⟩ := hk
  exact ⟨j, (guarded_pass h).trans (congrArg _ hj)⟩

/-! ## Words of the vector units -/

section
variable {s : State} (hv : s.warp.inLanes = false)
include hv

theorem vectorWord_atGate {checks : List (Bool × IllegalReason)} {toll e : ℕ} {fs : FSel} {d : BitVec 6} (hd : s.warp.dests ≤ 8)
    (hg : groupField s e d = true) (hc : ∀ c ∈ checks, c.1 = true) (mk : BitVec 3) (mz : Bool) (f : State → ℕ → Elem) :
    AtGate (vectorWord s checks toll fs d e mk mz f) s (s.warp.vl * toll) := by
  refine atGate_of ?_ ⟨_, rfl⟩
  rw [List.forall_mem_append, List.forall_mem_append, List.forall_mem_singleton, List.forall_mem_cons, List.forall_mem_singleton]
  exact ⟨⟨hg, hc⟩, vectorOnly_uniform hv, pendingOk_few hd (groupSize_le hg) fs⟩

theorem vecWord_atGate {et : ET} {d : BitVec 6} {srcs : List (BitVec 6)} (hd : s.warp.dests ≤ 8)
    (hg : ∀ r ∈ d :: srcs, groupField s et.width r = true) (mk : BitVec 3) (mz : Bool) (f : State → ℕ → Elem) :
    AtGate (vecWord s mk mz et d srcs f) s (s.warp.vl * 1) :=
  vectorWord_atGate hv hd (hg d (List.mem_cons_self ..))
    (List.forall_mem_map.2 fun r hr => hg r (List.mem_cons_of_mem _ hr)) mk mz f

theorem maskWord_atGate (d : BitVec 3) (f : Warp → BitVec 1024) : AtGate (maskWord s d f) s s.warp.vl :=
  atGate_of (List.forall_mem_singleton.2 (vectorOnly_uniform hv)) ⟨_, rfl⟩

theorem maskCount_atGate (d : BitVec 6) (f : Warp → Word) : AtGate (maskCount s d f) s s.warp.vl :=
  atGate_of (List.forall_mem_singleton.2 (vectorOnly_uniform hv)) ⟨_, rfl⟩

/-- Two groups, then lane mode. -/
theorem atGate_groups {gs : List (Bool × IllegalReason)} {n : ℕ} {k : State → State} (hg : ∀ c ∈ gs, c.1 = true)
    (hk : ∃ j, k s = tolled s n j) : AtGate (guarded (gs ++ [vectorOnly s]) s k) s n :=
  atGate_of (List.forall_mem_append.2 ⟨hg, List.forall_mem_singleton.2 (vectorOnly_uniform hv)⟩) hk

theorem permWord_atGate {checks : List (Bool × IllegalReason)} (hg : ∀ c ∈ checks, c.1 = true) (f : State → List LaneWrite) :
    AtGate (permWord s checks f) s s.warp.vl := atGate_groups hv hg ⟨_, rfl⟩

theorem reduceWord_atGate {et : ET} {d a : BitVec 6} (hg : ∀ c ∈ [(regOk s d, IllegalReason.register), vecOk s a et.width], c.1 = true)
    (k : State → State) : AtGate (reduceWord s et d a k) s s.warp.vl :=
  atGate_groups (gs := [(regOk s d, .register), vecOk s a et.width]) hv hg ⟨_, rfl⟩

/-- A vector access: its groups, lane mode, its pending destinations. -/
theorem atGate_access {gs : List (Bool × IllegalReason)} {fs : FSel} {m n : ℕ} {k : State → State} (hd : s.warp.dests ≤ 8) (hm : m ≤ 8)
    (hg : ∀ c ∈ gs, c.1 = true) (hk : ∃ j, k s = tolled s n j) : AtGate (guarded (vecChecks s gs fs m) s k) s n :=
  atGate_of (List.forall_mem_append.2 ⟨hg, List.forall_mem_cons.2 ⟨vectorOnly_uniform hv, List.forall_mem_singleton.2 (pendingOk_few hd hm fs)⟩⟩) hk

end

/-! ## Floating words -/

theorem floatWord_atGate {s : State} {fs : FSel} {mk : BitVec 3} {et : ET} {d : BitVec 6} {srcs : List (BitVec 6)} (hd : s.warp.dests ≤ 8)
    (hf : ∀ r ∈ d :: srcs, floatField s et r = true) (hl : s.warp.inLanes = true → (fs == .none && mk == 0#3) = true ∧ et = .fp32)
    (mz : Bool) (toll : ℕ) (f : List LaneWord → Elem) :
    AtGate (floatWord s fs mk mz et toll d srcs f) s ((if s.warp.inLanes then s.warp.group.length else s.warp.vl) * toll) := by
  cases hv : s.warp.inLanes
  · have hg : ∀ r ∈ d :: srcs, groupField s et.width r = true := fun r hr => by simpa [floatField, hv] using hf r hr
    simp only [floatWord, hv, Bool.false_and, Bool.false_eq_true, if_false]
    exact vectorWord_atGate hv hd (hg d (List.mem_cons_self ..)) (List.forall_mem_map.2 fun r hr => hg r (List.mem_cons_of_mem _ hr)) mk mz _
  · obtain ⟨plain, rfl⟩ := hl hv
    simp only [floatWord, hv, beq_self_eq_true, Bool.and_self, if_true, laneFloat]
    refine atGate_of (List.forall_mem_append.2 ⟨List.forall_mem_map.2 fun r hr => ?_, List.forall_mem_singleton.2 plain⟩) ⟨_, rfl⟩
    simpa [floatField, hv, regOk] using hf r hr

/-! ## Accesses of lanes -/

theorem laneAccess_tolled (s : State) (q : Ask) (addr : ℕ → ℤ) (k : State → List (Elt × Loc) → State) :
    ∃ j, laneAccess s q (laneElts s addr) k = tolled s s.warp.group.length j :=
  ⟨_, by rw [laneAccess, laneElts, List.length_map]⟩

theorem groupOk_pair (s : State) (r : BitVec 6) : groupOk s r 2 = pairField s r := by simp [groupOk, pairField]

theorem laneChecks_hold {s : State} {fs : FSel} {et : ET} {a r : BitVec 6} (hf : fs = .none) (he : et ≠ .int64) (ha : pairField s a = true)
    (hr : r.toNat < s.r) : ∀ c ∈ laneAccessChecks s fs et a r, c.1 = true := by
  simp [laneAccessChecks, hf, he, groupOk_pair, ha, regOk, hr]

theorem scalarAtomic_atGate {s : State} {fs : FSel} {acc : Access} {et : ET} {d a : BitVec 6} {regs : List (BitVec 6)} (hv : s.warp.inLanes = true)
    (hf : fs = .none) (he : et ≠ .int64) (ha : pairField s a = true) (hr : ∀ r ∈ regs, r.toNat < s.r) (f : Word → Option Word)
    (lane : ℕ → Word → Option Word) (writes : Bool) : AtGate (scalarAtomic s fs acc et d a regs f lane writes) s s.warp.group.length := by
  simp only [scalarAtomic, hv, if_true]
  refine atGate_of (List.forall_mem_append.2 ⟨List.forall_mem_append.2 ⟨?_, ?_⟩, ?_⟩) (laneAccess_tolled ..)
  · simp [he, groupOk_pair, ha]
  · exact List.forall_mem_map.2 fun r h => decide_eq_true (hr r h)
  · simp [hf]

/-! ## Streams -/

theorem streamChecks_hold {s : State} {x : Stream} {store : Bool} {r : BitVec 6} (hv : s.warp.inLanes = false) (hd : s.warp.dests ≤ 8)
    (hx : x.defined = true) (hs : x.store = store) (hg : groupField s x.et.width r = true) (fs : FSel) :
    ∀ c ∈ streamChecks s x store r fs, c.1 = true := by
  have few : (pendingOk s fs (if store then 0 else groupSize s.warp x.et.width)).1 = true := by
    apply pendingOk_few hd
    split
    · exact Nat.zero_le 8
    · exact groupSize_le hg
  simp [streamChecks, hx, hs, vecOk_iff, hg, vectorOnly_uniform hv, few]

/-! ## Matrix words -/

theorem whenEnabled_tiles {s : State} (h : s.team.tiles = true) (t : BitVec 3) (k : State → State) : whenEnabled s t k = k s := if_pos h

theorem matrixWord_atGate {s : State} {checks : List (Bool × IllegalReason)} {t : BitVec 3} {toll : State → ℕ} {k : State → State}
    (hs : slotField s t = true) (hr : s.team.tiles = true ∧ s.warp.lanes = none) (hc : ∀ c ∈ checks, c.1 = true) :
    AtGate (matrixWord s checks t toll k) s (toll s) := by
  refine atGate_of ?_ ⟨k, by simp only [whenEnabled, hr.1, if_true]⟩
  simp only [List.forall_mem_append, List.forall_mem_singleton]
  exact ⟨⟨hs, hc⟩, vectorOnly_uniform (inLanes_none _ hr.2)⟩

theorem tollOf_extent (s : State) (t : BitVec 3) : tollOf s (.tzero t) = some (extentToll t s) := by
  simp only [tollOf, extentToll, State.grant]
  cases (s.team.slot t).grant <;> rfl

theorem tollOf_load (s : State) (fs : FSel) (t : BitVec 3) (a b : BitVec 6) : tollOf s (.tldb fs t a b) = some (loadToll t s) := by
  simp only [tollOf, loadToll, State.grant]
  cases (s.team.slot t).grant <;> rfl

theorem tollOf_multiply (s : State) (fs : FSel) (t : BitVec 3) (a : BitVec 6) : tollOf s (.tmma fs t a) = some (multiplyToll t s) := by
  simp only [tollOf, multiplyToll, State.grant]
  cases (s.team.slot t).grant <;> simp [ceilDiv]

end Sys2Proof.Machine
end

section
/-! PROOF. Every charged word comes to the toll gate (17_cryogenic_and_power.md R375, Table 4). -/
namespace Sys2Proof.Machine
open Sys2Proof

section
variable {s : State} {n : ℕ} {cs : List Bool}

/-- A word without a charge. -/
theorem not_charged {p : Prop} (h : (none : Option ℕ) = some n) : p := absurd h nofun

/-- A charge of vector mode. -/
theorem vector_toll {k : ℕ} (h : (if s.warp.inLanes then none else some (s.warp.vl * k)) = some n) : s.warp.inLanes = false ∧ n = s.warp.vl * k := by
  split at h
  · exact absurd h nofun
  · next hv => exact ⟨Bool.eq_false_iff.2 hv, (Option.some.inj h).symm⟩

theorem element_toll (h : (if s.warp.inLanes then none else some (s.warp.vl * 1)) = some n) : s.warp.inLanes = false ∧ n = s.warp.vl := by
  rw [← Nat.mul_one s.warp.vl]
  exact vector_toll h

/-- A charge of lane mode. -/
theorem lane_toll (h : (if s.warp.inLanes then some s.warp.group.length else none) = some n) : s.warp.inLanes = true ∧ n = s.warp.group.length := by
  split at h
  · next hv => exact ⟨hv, (Option.some.inj h).symm⟩
  · exact absurd h nofun

section
variable (ok : ∀ b ∈ cs, b = true)
include ok

theorem fields_of {α : Type} {rs : List α} {f : α → Bool} (hf : some (rs.map f) = some cs) : ∀ r ∈ rs, f r = true := by
  obtain rfl := Option.some.inj hf
  exact List.forall_mem_map.1 ok

theorem field_of {b : Bool} (hf : some [b] = some cs) : b = true := by
  obtain rfl := Option.some.inj hf
  exact ok b (List.mem_singleton_self b)

end

theorem two_fields {b c : Bool} (ok : ∀ b ∈ cs, b = true) (hf : some [b, c] = some cs) : b = true ∧ c = true := by
  obtain rfl := Option.some.inj hf
  simpa using ok

theorem checks_of {gs : List (Bool × IllegalReason)} (ok : ∀ b ∈ cs, b = true) (hf : some (gs.map Prod.fst) = some cs) :
    ∀ c ∈ gs, c.1 = true := fields_of ok hf

theorem typed_fields {rs : List (BitVec 6)} {et : ET} (ok : ∀ b ∈ cs, b = true)
    (hf : (if et.isInt then some (rs.map (groupField s et.width)) else none) = some cs) :
    et.isInt = true ∧ ∀ r ∈ rs, groupField s et.width r = true := by
  split at hf
  · next int => exact ⟨int, fields_of ok hf⟩
  · exact absurd hf nofun

theorem plain_permits {et : ET} {mk : BitVec 3} (h : (mk == 0#3 && et == .fp32) = true) : (FSel.none == .none && mk == 0#3) = true ∧ et = .fp32 := by
  simpa using h

theorem flagged_permits {et : ET} {mk : BitVec 3} {fs : FSel} (h : (fs == .none && mk == 0#3 && et == .fp32) = true) :
    (fs == .none && mk == 0#3) = true ∧ et = .fp32 := by
  simpa using h

/-! ## By kind of word -/

theorem scaleOk_hold {s : State} {b : BitVec 6} (hb : stripBlock s.warp ≠ 0)
    (hg : groupOk s b (max 1 (stripGroup s.warp * 16 / ((stripEt s.warp).width * blockLen (stripBlock s.warp)))) = true) :
    ∀ c ∈ scaleOk s b, c.1 = true := by
  have : blockLen (stripBlock s.warp) ≠ 0 := by rw [blockLen, if_neg hb]; positivity
  simp [scaleOk, this, hg]

theorem three_fields {b c d : Bool} (ok : ∀ b ∈ cs, b = true) (hf : some [b, c, d] = some cs) : b = true ∧ c = true ∧ d = true := by
  obtain rfl := Option.some.inj hf
  simpa using ok

theorem four_fields {b c d e : Bool} (ok : ∀ b ∈ cs, b = true) (hf : some [b, c, d, e] = some cs) : b = true ∧ c = true ∧ d = true ∧ e = true := by
  obtain rfl := Option.some.inj hf
  simpa using ok

theorem block_fields {xs : List Bool} (hf : (if stripBlock s.warp = 0 then none else some xs) = some cs) : stripBlock s.warp ≠ 0 ∧ some xs = some cs := by
  split at hf
  · exact absurd hf nofun
  · next blocks => exact ⟨blocks, hf⟩

theorem stream_field {b : Bool} {e : ℕ} {r : BitVec 6} (hb : b = true) (ok : ∀ b ∈ cs, b = true)
    (hf : (if b then some ([r].map (groupField s e)) else some []) = some cs) : groupField s e r = true := by
  rw [if_pos hb] at hf
  exact fields_of ok hf r (List.mem_singleton_self r)

theorem lane_fields {et : ET} {a : BitVec 6} {rs : List (BitVec 6)} (hv : s.warp.inLanes = true) (ok : ∀ b ∈ cs, b = true)
    (hf : (if s.warp.inLanes then (if et = .int64 then none else some (pairField s a :: rs.map fun r => decide (r.toNat < s.r))) else some []) = some cs) :
    et ≠ .int64 ∧ pairField s a = true ∧ ∀ r ∈ rs, r.toNat < s.r := by
  rw [if_pos hv] at hf
  split at hf
  · exact absurd hf nofun
  · next typed =>
    obtain rfl := Option.some.inj hf
    obtain ⟨pair, fields⟩ := List.forall_mem_cons.1 ok
    exact ⟨typed, pair, fun r hr => of_decide_eq_true (List.forall_mem_map.1 fields r hr)⟩

theorem vatom_atGate {fs : FSel} {mk : BitVec 3} {mz : Bool} {op : AtomOp} {ord : Ord4} {md : Mode} {et : ET} {d a b c : BitVec 6} (hv : s.warp.inLanes = false)
    (hd : s.warp.dests ≤ 8) (ok : ∀ b ∈ cs, b = true) (hf : fieldChecks s (.vatom fs mk mz op ord md et d a b c) = some cs) :
    AtGate (execVatom fs mk mz op ord md et d a b c s) s s.warp.vl := by
  unfold execVatom
  refine atGate_access (m := if atomWrites op then groupSize s.warp et.width else 0) hv hd ?size ?groups ?gate
  case gate => exact ⟨_, rfl⟩
  case size =>
    cases op
    case st => exact Nat.zero_le 8
    case ld => exact groupSize_le (two_fields ok hf).1
    all_goals exact groupSize_le (three_fields ok hf).1
  case groups =>
    cases op
    case st => exact checks_of (gs := [vecOk s b et.width, vecOk s c 32]) ok hf
    case ld => exact checks_of (gs := [vecOk s d et.width, vecOk s c 32]) ok hf
    all_goals exact checks_of (gs := [vecOk s d et.width, vecOk s b et.width, vecOk s c 32]) ok hf

theorem tstr_atGate {fs : FSel} {mk : BitVec 3} {tm : TstrMode} {md : Mode} {nsat : Bool} {et : ET} {t : BitVec 3} {a b c : BitVec 6} (hv : s.warp.inLanes = false)
    (hd : s.warp.dests ≤ 8) (tiles : s.team.tiles = true) (ok : ∀ b ∈ cs, b = true) (hf : fieldChecks s (.tstr fs mk tm md nsat et t a b c) = some cs) :
    AtGate (execTstr fs mk tm md nsat et t a b c s) s s.warp.vl := by
  have few := pendingOk_few (n := 0) hd (Nat.zero_le 8) fs
  have rest (slot : slotField s t = true) : ∀ x ∈ [slotOk s t, vectorOnly s, pendingOk s fs 0], x.1 = true := by
    simp [slotOk_iff, slot, vectorOnly_uniform hv, few]
  unfold execTstr
  refine atGate_of ?checks ?gate
  case gate => exact ⟨_, whenEnabled_tiles tiles _ _⟩
  case checks =>
    cases tm
    case x => exact List.forall_mem_cons (a := vecOk s c 32) |>.2 ⟨(two_fields ok hf).1, rest (two_fields ok hf).2⟩
    all_goals exact rest (field_of ok hf)

theorem atGate_of_charged {i : Instr} (ht : tollOf s i = some n) (hf : fieldChecks s i = some cs) (ok : ∀ b ∈ cs, b = true)
    (hl : s.warp.inLanes = true → lanePermits i = true) (hu : unitReady s i) (hd : s.warp.dests ≤ 8) : AtGate (exec i s) s n := by
  cases i
  case mand | mor | mxor | mandn | mnot | mmov | mset =>
    obtain ⟨hv, rfl⟩ := element_toll ht
    exact maskWord_atGate hv _ _
  case mpopc | mfirst =>
    obtain ⟨hv, rfl⟩ := element_toll ht
    exact maskCount_atGate hv _ _
  case vadd | vadds | vsub | vsubs | vmul | vmulhi | vmad | vmin | vmax | vabs | vand | vor | vxor | vshl | vshr | vsar | vmrg | viota | vbcs | vpopc | vclz =>
    obtain ⟨hv, rfl⟩ := vector_toll ht
    exact vecWord_atGate hv hd (fields_of ok hf) _ _ _
  case vaddi mk mz d a imm =>
    obtain ⟨hv, rfl⟩ := vector_toll ht
    obtain ⟨int, fields⟩ := typed_fields (rs := [d, a]) ok hf
    change AtGate (if (stripEt s.warp).isInt then _ else _) s _
    rw [if_pos int]
    exact vecWord_atGate hv hd fields _ _ _
  case vwid | vsatn | vcvt =>
    obtain ⟨hv, rfl⟩ := vector_toll ht
    obtain ⟨dest, source⟩ := two_fields ok hf
    exact vectorWord_atGate hv hd dest (List.forall_mem_singleton.2 source) _ _ _
  case vfclass mk mz et d a =>
    obtain ⟨hv, rfl⟩ := vector_toll ht
    obtain ⟨dest, source⟩ := two_fields ok hf
    exact vectorWord_atGate hv hd dest (List.forall_mem_singleton.2 source) _ _ _
  case vcmp =>
    obtain ⟨hv, rfl⟩ := element_toll ht
    unfold exec
    refine atGate_groups hv (gs := [vecOk s _ _, vecOk s _ _]) (checks_of ok hf) ?_
    exact ⟨_, rfl⟩
  case vfcmp =>
    obtain ⟨hv, rfl⟩ := vector_toll ht
    unfold exec
    refine atGate_groups hv (gs := [vecOk s _ _, vecOk s _ _]) (checks_of ok hf) ?_
    exact ⟨_, rfl⟩
  case vfadd | vfsub | vfmul | vfma | vfnma | vfmin | vfmax | vfabs =>
    obtain rfl := Option.some.inj ht
    unfold exec
    exact floatWord_atGate hd (fields_of ok hf) (fun lanes => plain_permits (hl lanes)) _ _ _
  case vfdiv | vfsqrt | vfrsq | vfrcp | vfexp2 | vflog2 =>
    obtain rfl := Option.some.inj ht
    unfold exec
    exact floatWord_atGate hd (fields_of ok hf) (fun lanes => flagged_permits (hl lanes)) _ _ _
  case vqnt tr src et d a b =>
    obtain ⟨hv, rfl⟩ := vector_toll ht
    obtain ⟨blocks, fields⟩ := block_fields hf
    obtain ⟨dest, size, source, scale⟩ : groupField s et.width d = true ∧ decide (groupSize s.warp src.width ≤ 8) = true ∧ _ = true ∧ _ = true := four_fields ok fields
    unfold exec
    refine atGate_groups hv (List.forall_mem_append.2 ⟨?_, scaleOk_hold blocks scale⟩) ?_
    · exact List.forall_mem_cons.2 ⟨dest, List.forall_mem_cons.2 ⟨size, List.forall_mem_singleton.2 source⟩⟩
    · exact ⟨_, rfl⟩
  case vdqnt mk mz md src et d a b =>
    obtain ⟨hv, rfl⟩ := vector_toll ht
    obtain ⟨blocks, fields⟩ := block_fields hf
    obtain ⟨dest, source, scale⟩ := three_fields ok fields
    exact vectorWord_atGate hv hd dest (List.forall_mem_cons.2 ⟨source, scaleOk_hold blocks scale⟩) _ _ _
  case vperm =>
    obtain ⟨hv, rfl⟩ := element_toll ht
    exact permWord_atGate hv (checks := [vecOk s _ _, vecOk s _ _, vecOk s _ _]) (checks_of ok hf) _
  case vslup | vsldn | vbcast | vcmprs | vexpnd =>
    obtain ⟨hv, rfl⟩ := element_toll ht
    exact permWord_atGate hv (checks := [vecOk s _ _, vecOk s _ _]) (checks_of ok hf) _
  case vtr8 mk mz et d a =>
    obtain ⟨hv, rfl⟩ := element_toll ht
    exact permWord_atGate hv (checks := [(groupOk s d 8, .register), (groupOk s a 8, .register)]) (checks_of ok hf) _
  case vins =>
    obtain ⟨hv, rfl⟩ := element_toll ht
    exact permWord_atGate hv (checks := [vecOk s _ _]) (checks_of ok hf) _
  case vscan =>
    obtain ⟨hv, rfl⟩ := element_toll ht
    unfold exec
    refine atGate_groups hv (gs := [vecOk s _ _, vecOk s _ _]) (checks_of ok hf) ?_
    exact ⟨_, rfl⟩
  case vredsum | vredmax | vredmin =>
    obtain ⟨hv, rfl⟩ := element_toll ht
    exact reduceWord_atGate hv (checks_of ok hf) _
  case vextr =>
    obtain ⟨hv, rfl⟩ := element_toll ht
    unfold exec
    refine atGate_groups hv (gs := [vecOk s _ _]) (checks_of ok hf) ?_
    exact ⟨_, rfl⟩
  case vld | vlds =>
    obtain ⟨hv, rfl⟩ := element_toll ht
    have dest := field_of ok hf
    unfold exec
    refine atGate_access hv hd (groupSize_le dest) (gs := [vecOk s _ _]) (checks_of ok hf) ?_
    exact ⟨_, rfl⟩
  case vst | vsts =>
    obtain ⟨hv, rfl⟩ := element_toll ht
    unfold exec
    refine atGate_access hv hd (Nat.zero_le _) (gs := [vecOk s _ _]) (checks_of ok hf) ?_
    exact ⟨_, rfl⟩
  case vldx =>
    obtain ⟨hv, rfl⟩ := element_toll ht
    unfold exec
    refine atGate_access hv hd (groupSize_le (two_fields ok hf).1) (gs := [vecOk s _ _, vecOk s _ _]) (checks_of ok hf) ?_
    exact ⟨_, rfl⟩
  case vstx =>
    obtain ⟨hv, rfl⟩ := element_toll ht
    unfold exec
    refine atGate_access hv hd (Nat.zero_le _) (gs := [vecOk s _ _, vecOk s _ _]) (checks_of ok hf) ?_
    exact ⟨_, rfl⟩
  case vldst fs mk mz ch d a =>
    obtain ⟨hv, rfl⟩ := element_toll ht
    obtain ⟨defined, load⟩ := hu
    have dest := stream_field (b := (s.warp.stream a).defined && !(s.warp.stream a).store) (by simp [defined, load]) ok hf
    change AtGate (execVldst fs mk mz ch d a s) s _
    unfold execVldst
    refine atGate_of (streamChecks_hold hv hd defined load dest fs) ?_
    exact ⟨_, rfl⟩
  case vstst mk ch a b =>
    obtain ⟨hv, rfl⟩ := element_toll ht
    obtain ⟨defined, store⟩ := hu
    have source := stream_field (b := (s.warp.stream a).defined && (s.warp.stream a).store) (by simp [defined, store]) ok hf
    change AtGate (execVstst mk ch a b s) s _
    unfold execVstst
    refine atGate_of (streamChecks_hold hv hd defined store source .none) ?_
    exact ⟨_, rfl⟩
  case vatom fs mk mz op ord md et d a b c =>
    obtain ⟨hv, rfl⟩ := element_toll ht
    exact vatom_atGate hv hd ok hf
  case vcas fs mk mz ord et d a b c =>
    obtain ⟨hv, rfl⟩ := element_toll ht
    obtain ⟨dest, sources, index⟩ := three_fields ok hf
    rw [Bool.and_assoc] at sources
    change AtGate (execVcas fs mk mz ord et d a b c s) s _
    unfold execVcas
    refine atGate_access hv hd (groupSize_le dest) ?_ ?_
    · exact List.forall_mem_cons.2 ⟨dest, List.forall_mem_cons.2 ⟨sources, List.forall_mem_singleton.2 index⟩⟩
    · exact ⟨_, rfl⟩
  case lds fs et ch d a off =>
    obtain ⟨hv, rfl⟩ := lane_toll ht
    obtain ⟨typed, pair, fields⟩ := lane_fields (rs := [d]) hv ok hf
    change AtGate (if s.warp.inLanes then _ else _) s _
    rw [if_pos hv]
    exact atGate_of (laneChecks_hold (eq_of_beq (hl hv)) typed pair (fields d (List.mem_singleton_self d))) (laneAccess_tolled ..)
  case sts et ch a b off =>
    obtain ⟨hv, rfl⟩ := lane_toll ht
    obtain ⟨typed, pair, fields⟩ := lane_fields (rs := [b]) hv ok hf
    change AtGate (if s.warp.inLanes then _ else _) s _
    rw [if_pos hv]
    exact atGate_of (laneChecks_hold rfl typed pair (fields b (List.mem_singleton_self b))) (laneAccess_tolled ..)
  case atom fs op ord md et d a b =>
    obtain ⟨hv, rfl⟩ := lane_toll ht
    obtain ⟨typed, pair, fields⟩ := lane_fields (rs := [d, b]) hv ok hf
    change AtGate (execAtom fs op ord md et d a b s) s _
    exact scalarAtomic_atGate hv (eq_of_beq (hl hv)) typed pair fields _ _ _
  case cas fs ord et d a b c =>
    obtain ⟨hv, rfl⟩ := lane_toll ht
    obtain ⟨typed, pair, fields⟩ := lane_fields (rs := [d, b, c]) hv ok hf
    change AtGate (execCas fs ord et d a b c s) s _
    exact scalarAtomic_atGate hv (eq_of_beq (hl hv)) typed pair fields _ _ _
  case tslv | tsvl =>
    obtain ⟨hv, rfl⟩ := element_toll ht
    unfold exec
    refine atGate_groups hv (gs := [vecOk s _ _, slotOk s _]) (checks_of ok hf) ?_
    exact ⟨_, whenEnabled_tiles hu.1 _ _⟩
  case tstr fs mk tm md nsat et t a b c =>
    obtain ⟨hv, rfl⟩ := element_toll ht
    exact tstr_atGate hv hd hu.1 ok hf
  case tzero =>
    obtain rfl := Option.some.inj (ht.symm.trans (tollOf_extent s _))
    exact matrixWord_atGate (field_of ok hf) hu (fun _ h => absurd h List.not_mem_nil)
  case tcsclLd | tcsclOne | tsave | tload =>
    obtain rfl := Option.some.inj (ht.symm.trans (tollOf_extent s _))
    exact matrixWord_atGate (field_of ok hf) hu (List.forall_mem_singleton.2 (pendingOk_few hd (Nat.zero_le _) _))
  case tldb fs t a b =>
    obtain rfl := Option.some.inj (ht.symm.trans (tollOf_load s fs t a b))
    exact matrixWord_atGate (field_of ok hf) hu (List.forall_mem_singleton.2 (pendingOk_few hd (Nat.zero_le _) _))
  case tmma fs t a | tmmas fs t a b =>
    obtain rfl := Option.some.inj (ht.symm.trans (tollOf_multiply s fs t a))
    exact matrixWord_atGate (field_of ok hf) hu (List.forall_mem_singleton.2 (pendingOk_few hd (Nat.zero_le _) _))
  all_goals exact not_charged ht

end

end Sys2Proof.Machine
end

section
/-! PROOF. The focus: what moving it leaves, and an action on the warp in focus (log 4). -/
namespace Sys2Proof.Machine
open Sys2Proof

/-! ## Moving the focus -/

/-- Only the warp and the team in focus, and the other teams, differ. -/
def FocusMoves (s t : State) : Prop := t = { s with warp := t.warp, team := t.team, teams := t.teams }

theorem FocusMoves.refl (s : State) : FocusMoves s s := rfl

theorem FocusMoves.trans {s t u : State} (h : FocusMoves s t) (g : FocusMoves t u) : FocusMoves s u := by
  unfold FocusMoves at *
  rw [g, h]

theorem unfocus_moved (s : State) : FocusMoves s (unfocus s) := rfl

theorem focusTeam_moved (s : State) (tid : ℕ) : FocusMoves s (focusTeam s tid) := by
  unfold focusTeam
  simp only
  split <;> rfl

theorem focusOn_moved (s : State) (r : WarpRef) : FocusMoves s (focusOn s r) := by
  unfold focusOn
  split
  · exact .refl s
  · simp only
    split
    · exact (focusTeam_moved s r.team).trans rfl
    · exact focusTeam_moved s r.team

theorem refocus_moved (old s : State) : FocusMoves s (refocus old s) := by
  unfold refocus
  split
  · exact unfocus_moved s
  · split
    · exact focusTeam_moved s _
    · exact focusOn_moved s _

/-- A warp and its team are in focus. -/
def Focused (s : State) : Prop := s.team.status ≠ .absent ∧ s.warp.status ≠ .absent

theorem focusOn_me {s : State} (h : Focused s) : focusOn s s.me = s := by
  simp [focusOn, State.me, h.1, h.2]

/-- The focus stays where the warp and the team that it names are still in it. -/
theorem refocus_same {s t : State} (h : Focused s) (ht : Focused t) (hm : t.me = s.me) : refocus s t = t := by
  rw [refocus, if_neg (by simpa using h.1), if_neg (by simpa using h.2), ← hm, focusOn_me ht]

theorem withWarp_me {s : State} {f : State → State} (h : Focused s) (hf : Focused (f s)) (hm : (f s).me = s.me) : withWarp s s.me f = f s := by
  rw [withWarp, focusOn_me h, refocus_same h hf hm]

/-- An action on the warp in focus that leaves its status and its number. -/
theorem withWarp_onWarp {s : State} (h : Focused s) {f : Warp → Warp} (hs : (f s.warp).status = s.warp.status) (hi : (f s.warp).idx = s.warp.idx) :
    withWarp s s.me (fun x => x.onWarp f) = s.onWarp f :=
  withWarp_me h ⟨h.1, by simpa [hs] using h.2⟩ (by simp [State.me, hi])

/-- An action on one warp leaves everything but the warps. -/
theorem withWarp_onWarp_moved (s : State) (r : WarpRef) (f : Warp → Warp) : FocusMoves s (withWarp s r fun x => x.onWarp f) :=
  (focusOn_moved s r).trans <| FocusMoves.trans (t := (focusOn s r).onWarp f) rfl (refocus_moved _ _)

end Sys2Proof.Machine
end

section
/-! PROOF. The events of the issue logic: a clause starts, an instruction completes, a warp becomes urgent, a class group ends, a cycle passes (02_words_and_registers.md R29, R33; 04_scalar_and_flow.md R68 to R70; 15_system_and_traps.md R336). -/
namespace Sys2Proof.Machine
open Sys2Proof

/-! ## What a fetch changes -/

/-- A fetch changes what the caches keep and the draws, and nothing else. -/
def Fetches (s u : State) : Prop := u = { s with icache := u.icache, tables := u.tables, xlate := u.xlate, draws := u.draws }

theorem Fetches.refl (s : State) : Fetches s s := rfl

theorem Fetches.trans {s u v : State} (h : Fetches s u) (g : Fetches u v) : Fetches s v := by
  unfold Fetches at *
  rw [g, h]

theorem fetchWord_fetches {s u : State} {priv : Bool} {va : ℤ} {w : Word} (h : fetchWord s priv va = .got w u) : Fetches s u := by
  unfold fetchWord at h
  cases hc : checkFresh s (fetchAsk s priv) true { k := fetchElem s priv, va := va } <;> simp only [hc] at h
  case ok l =>
    cases hw : cachedWords s s.team.part (va54 va / 128) <;> simp only [hw] at h
    case some ws => obtain ⟨-, rfl⟩ := Fetched.got.inj h; exact .refl s
    case none =>
      cases ha : absentIn s l.key 8 <;> simp only [ha] at h
      case some line => exact absurd h nofun
      case none =>
        split at h
        · exact absurd h nofun
        · obtain ⟨-, rfl⟩ := Fetched.got.inj h
          unfold Fetches
          rw [keepLine_eq, settle_eq]
  all_goals exact absurd h nofun

theorem fetchWords_fetches {priv : Bool} {n : ℕ} {va : ℤ} {s u : State} {ws : List Word} (h : fetchWords priv n va s = .got ws u) : Fetches s u := by
  induction n generalizing va s ws with
  | zero => obtain ⟨-, rfl⟩ := Fetched.got.inj h; exact .refl s
  | succ n ih =>
    unfold fetchWords at h
    cases hw : fetchWord s priv va <;> simp only [hw] at h
    case got w v =>
      cases hr : fetchWords priv n (va + 8) v <;> simp only [hr] at h
      case got rest v' =>
        obtain ⟨-, rfl⟩ := Fetched.got.inj h
        exact (fetchWord_fetches hw).trans (ih hr)
      all_goals exact absurd h nofun
    all_goals exact absurd h nofun

theorem fetchAt_fetches {s u : State} {priv : Bool} {va : ℤ} {w : Word} (h : fetchAt s priv va = .got w u) : Fetches s u := by
  unfold fetchAt at h
  split at h
  · exact absurd h nofun
  · split at h
    · exact absurd h nofun
    · exact fetchWord_fetches h

theorem fetchHeader_fetches {s u : State} {priv : Bool} {va : ℤ} {w : Word} (h : fetchHeader s priv va = .got w u) : Fetches s u := by
  unfold fetchHeader at h
  cases ha : fetchAt s priv va <;> simp only [ha] at h
  case got x v =>
    split at h
    · exact absurd h nofun
    · obtain ⟨-, rfl⟩ := Fetched.got.inj h
      exact fetchAt_fetches ha
  all_goals exact absurd h nofun

theorem fetchClause_fetches {s u : State} {priv : Bool} {va : ℤ} {c : Word × List Word} (h : fetchClause s priv va = .got c u) : Fetches s u := by
  unfold fetchClause at h
  cases hh : fetchHeader s priv va <;> simp only [hh] at h
  case got x v =>
    cases hw : fetchWords priv (Header.ofBits x).n.toNat (va + 8) v <;> simp only [hw] at h
    case got ws v' =>
      split at h
      · exact absurd h nofun
      · obtain ⟨-, rfl⟩ := Fetched.got.inj h
        exact (fetchHeader_fetches hh).trans (fetchWords_fetches hw)
    all_goals exact absurd h nofun
  all_goals exact absurd h nofun

theorem Fetches.warp {s u : State} (h : Fetches s u) : u.warp = s.warp := by rw [h]

/-! ## The start of a clause -/

theorem clauseStart_uniform {s u : State} {w x : Warp} {h : Word} {ws : List Word} (hr : s.warp.status = .running) (hl : s.warp.lanes = none)
    (h0 : s.warp.pos.idx = 0) (hm : s.warp.mustWait synchronous = false) (hc : s.warp.commit synchronous = (w, none))
    (hf : fetchClause { s with warp := w } s.warp.intrap s.warp.pos.hdr = .got (h, ws) u)
    (hm' : u.warp.mustWait (headerCovers (Header.ofBits h)) = false) (hc' : u.warp.commit (headerCovers (Header.ofBits h)) = (x, none)) :
    exec .clauseStart s = .next { u with warp := { x with
      pos := { x.pos with header := h, words := ws, idx := 1 }, park := .none, service := {} } } := by
  have first : w = (s.warp.commit synchronous).1 := by rw [hc]
  have second : x = (u.warp.commit (headerCovers (Header.ofBits h))).1 := by rw [hc']
  have lanes : w.lanes = none := by rw [first, commit_lanes, hl]
  have stands : w.at = s.warp.pos := by rw [at_uniform w lanes, first, commit_pos]
  have trap : w.intrap = s.warp.intrap := by rw [first, commit_frame]
  have own : u.warp = w := (fetchClause_fetches hf).warp
  have lanes' : x.lanes = none := by rw [second, commit_lanes, own, lanes]
  have fetched : startFetched u h ws = { u with warp := x.begin h ws } := by
    simp only [startFetched, inLanes_none _ (own ▸ lanes), hm', hc', Bool.false_eq_true, if_false]
  have begun : startClause s = { u with warp := x.begin h ws } := by
    simp only [startClause, hm, hc, Bool.false_eq_true, if_false, startNext, stands, trap, hf, fetched]
  have go : exec .clauseStart s = .next (startClause s) := by
    simp [exec, execClauseStart, hr, at_uniform s.warp hl, h0]
  rw [go, begun]
  simp only [Warp.begin, lanes']

/-! ## Urgency -/

/-- What `URGENT` does to a warp that is in focus. -/
def markUrgent (w : WarpRef) (x : State) : State :=
  if x.me == w && ready x && 32 ≤ x.warp.wait then x.onWarp fun y => { y with urgent := true } else x

theorem exec_urgent (w : WarpRef) (s : State) : exec (.urgent w) s = .next (withWarp s w (markUrgent w)) := rfl

theorem urgent_now {s : State} (h : Focused s) (hr : ready s = true) (hw : 32 ≤ s.warp.wait) :
    exec (.urgent s.me) s = .next { s with warp := { s.warp with urgent := true } } := by
  have now : markUrgent s.me s = s.onWarp fun y => { y with urgent := true } := if_pos (by simp [hr, hw])
  rw [exec_urgent, withWarp_me h (now ▸ h) (now ▸ rfl), now]
  rfl

theorem urgent_not {s : State} (h : Focused s) (hr : ready s = false ∨ s.warp.wait < 32) : exec (.urgent s.me) s = .next s := by
  have not : markUrgent s.me s = s := by
    refine if_neg ?_
    rcases hr with hr | hr
    · simp [hr]
    · simp [Nat.not_le.2 hr]
  rw [exec_urgent, withWarp_me h (not.symm ▸ h) (by rw [not]), not]

/-! ## The end of a class group -/

theorem mem_onCoreWarps {s : State} {c : CoreRef} {r : WarpRef} : r ∈ onCoreWarps s c ↔ r ∈ everyWarp s ∧ (warpOf s r).core = c := by
  simp [onCoreWarps]

theorem classGroupClose_ends {s : State} {c : CoreRef} {cls age : ℕ}
    (still : ∀ r ∈ everyWarp s, (warpOf s r).core = c → movable (focusOn s r) = false) (hg : (coreOf s c).group = some (cls, age))
    (ends : 15 ≤ age ∨ ((coreOf s c).seen = false ∧ ∀ r ∈ everyWarp s, (warpOf s r).core = c → readyWarp s r = true → (warpOf s r).cls ≠ cls)) :
    exec (.classGroupClose c) s = .next (onCore s c fun x => { x with group := none, closed := true }) := by
  have cycle : cycleOver s c = true := by
    simp only [cycleOver, Bool.not_eq_true', List.any_eq_false, mem_onCoreWarps]
    exact fun r hr => by simp [still r hr.1 hr.2]
  have last : (15 ≤ age || classGone s c cls) = true := by
    rcases ends with old | ⟨seen, gone⟩
    · simp [old]
    · have : classGone s c cls = true := by
        simp only [classGone, seen, Bool.not_false, Bool.true_and, Bool.not_eq_true', List.any_eq_false, mem_onCoreWarps, Bool.and_eq_true, beq_iff_eq, not_and]
        exact fun r hr => gone r hr.1 hr.2
      simp [this]
  have close : groupEnds s c = true := by simp [groupEnds, cycle, hg, last]
  simp only [exec, execClassGroupClose, close, if_true]

theorem onCore_eq (s : State) (c : CoreRef) (f : Core → Core) : onCore s c f = { s with cores := (onCore s c f).cores } := rfl

theorem coreOf_onCore_same {s : State} {c : CoreRef} (hc : corePlace c < 312) (f : Core → Core) : coreOf (onCore s c f) c = f (coreOf s c) := by
  rw [coreOf_onCore, if_pos ⟨rfl, hc⟩]

theorem coreOf_onCore_other {s : State} {c d : CoreRef} (h : corePlace d ≠ corePlace c) (f : Core → Core) : coreOf (onCore s c f) d = coreOf s d := by
  rw [coreOf_onCore, if_neg fun e => h e.1]

/-! ## A cycle -/

/-- What a cycle of a core does to its warps. -/
def cycleWarps (s : State) (waiting : List WarpRef) (rs : List WarpRef) : State :=
  rs.foldl (fun s r => withWarp s r fun x => x.onWarp fun w => w.cycled (waiting.contains r)) s

theorem cycleWarps_moved (s : State) (waiting rs : List WarpRef) : FocusMoves s (cycleWarps s waiting rs) := by
  unfold cycleWarps
  induction rs generalizing s with
  | nil => exact .refl s
  | cons r rest ih => exact (withWarp_onWarp_moved s r _).trans (ih _)

theorem exec_cycle {s : State} {c : CoreRef} (h : clockRuns s (coreCluster c) = true) :
    exec (.cycle c) s = .next (cycleWarps (onCore s c Core.cycled) ((onCoreWarps s c).filter (readyWarp s)) (onCoreWarps s c)) := by
  simp only [exec, execCycle, h, if_true]; rfl

theorem exec_cycle_stopped {s : State} {c : CoreRef} (h : clockRuns s (coreCluster c) = false) : exec (.cycle c) s = .next s := by
  simp only [exec, execCycle, h, Bool.false_eq_true, if_false]

theorem mem_stillUsed {k : Core} {g : Option ℕ} {n : ℕ} : (g, n + 1) ∈ k.stillUsed ↔ (g, n + 2) ∈ k.used := by
  simp only [Core.stillUsed, List.mem_filter, List.mem_map, Prod.mk.injEq, decide_eq_true_eq]
  constructor
  · rintro ⟨⟨⟨g', m⟩, hu, rfl, hn⟩, -⟩
    obtain rfl : m = n + 2 := by simp only at hn; omega
    exact hu
  · exact fun hu => ⟨⟨_, hu, rfl, rfl⟩, Nat.succ_pos n⟩

theorem not_mem_stillUsed (k : Core) (g : Option ℕ) : (g, 0) ∉ k.stillUsed := by simp [Core.stillUsed]

theorem warpOf_me {s : State} (h : Focused s) : warpOf s s.me = s.warp := by rw [warpOf, focusOn_me h]

theorem readyWarp_me {s : State} (h : Focused s) : readyWarp s s.me = ready s := by rw [readyWarp, focusOn_me h]

/-- The cycle of a core whose one warp is in focus. -/
theorem cycleWarps_one {s : State} {c : CoreRef} (h : Focused s) (hw : everyWarp s = [s.me]) (hc : s.warp.core = c) :
    cycleWarps (onCore s c Core.cycled) ((onCoreWarps s c).filter (readyWarp s)) (onCoreWarps s c) =
      (onCore s c Core.cycled).onWarp fun w => w.cycled (ready s) := by
  have own : onCoreWarps s c = [s.me] := by simp [onCoreWarps, hw, warpOf_me h, hc]
  have waits : ((onCoreWarps s c).filter (readyWarp s)).contains s.me = ready s := by
    rw [own]
    cases hr : ready s <;> simp [readyWarp_me h, hr]
  rw [cycleWarps, own, List.foldl_cons, List.foldl_nil, ← own, waits]
  exact withWarp_onWarp (s := onCore s c Core.cycled) h rfl rfl

end Sys2Proof.Machine
end

section
/-! PROOF. An instruction, or an accepted matrix operation, completes (02_words_and_registers.md R33; 14_matrix_instructions.md R309). -/
namespace Sys2Proof.Machine
open Sys2Proof

/-! ## What an operation does as it performs -/

/-- Of the warp and its team only the slots may differ. -/
structure SlotsMove (s t : State) : Prop where
  warp : t.warp = s.warp
  team : t.team = { s.team with slots := t.team.slots }

theorem effect_slotsMove (o : LateOp) (u : State) (m : Bytes) : SlotsMove u (o.effect u m).1 := by
  unfold LateOp.effect
  split
  · exact ⟨rfl, rfl⟩
  · split
    · next r _ =>
      have team : (((u.onSlot o.slot fun _ => {}).met r).draw).team = (u.onSlot o.slot fun _ => {}).team := met_team _ r
      exact ⟨met_warp _ r, by rw [team]; rfl⟩
    · split
      · split <;> exact ⟨rfl, rfl⟩
      · simp only [multiplied_eq]
        exact ⟨rfl, rfl⟩

/-- What stands against an instruction once its operation has performed. -/
def markDone (o : LateOp) (status : BitVec 7) (fault : Option Report) (x : Outstanding) : Outstanding :=
  if x.seq == o.seq then { x with done := true, status := if x.flag.isSome then status else 0#7, fault := fault.map fun r => (r, 0) } else x

theorem markDone_own {o : LateOp} {status : BitVec 7} {fault : Option Report} {x : Outstanding} (h : (markDone o status fault x).seq = o.seq) :
    (markDone o status fault x).done = true ∧ (markDone o status fault x).fault = fault.map fun r => (r, 0) := by
  unfold markDone at *
  split at h
  · next own => rw [if_pos own]; exact ⟨rfl, rfl⟩
  · next other => exact absurd (beq_iff_eq.2 h) other

theorem opDone_eq (u : State) (o : LateOp) (status : BitVec 7) (fault : Option Report) :
    opDone u o status fault = { u with
      warp := (opDone u o status fault).warp, team := { u.team with peers := (opDone u o status fault).team.peers } } := rfl

theorem opDone_warp {u : State} (ha : u.warp.status ≠ .absent) {o : LateOp} (hw : u.warp.idx = o.warp) (status : BitVec 7) (fault : Option Report) :
    (opDone u o status fault).warp.status = u.warp.status ∧ (opDone u o status fault).warp.idx = u.warp.idx ∧
      (opDone u o status fault).warp.pending = u.warp.pending.map (markDone o status fault) := by
  have here : (u.warp.status == .absent) = false := by simpa using ha
  have own : (u.warp.idx == o.warp) = true := by simpa using hw
  simp only [opDone, State.onMates, here, own, Bool.false_eq_true, if_false, if_true]
  split <;> exact ⟨rfl, rfl, rfl⟩

/-! ## A step of an operation -/

theorem firstOp_own {s : State} {seq : ℕ} {o : LateOp} (h : firstOp s seq = some o) : s.warp.idx = o.warp ∧ o.seq = seq := by
  obtain ⟨found, -⟩ := Option.filter_eq_some_iff.1 h
  have own := List.find?_some found
  simp only [Bool.and_eq_true, beq_iff_eq] at own
  exact ⟨own.1.symm, own.2⟩

theorem unread_draw (s : State) (o : LateOp) : o.unread s.draw = o.unread s := rfl

/-- An operation none of whose lines can be read stands as it stood. -/
theorem stepOp_waits {s : State} {o : LateOp} (absent : (o.unread s).all (lineAbsent s) = true) (some' : o.unread s ≠ []) :
    stepOp s o = s.draw := by
  have here : ((o.unread s).filter fun l => !lineAbsent s l) = [] := by
    simpa [List.filter_eq_nil_iff] using absent
  have same : ({ o with buffer := o.buffer ++ [] } : LateOp) = o := by rw [List.append_nil]
  have left : (o.unread s.draw).isEmpty = false := by simpa [unread_draw] using some'
  have kept : (s.team.late.map fun x => if x == o then o else x) = s.team.late :=
    (List.map_congr_left fun x _ => by split <;> simp_all).trans (List.map_id _)
  simp only [stepOp, here, List.filter_nil, List.map_nil, same, left, Bool.false_eq_true, if_false]
  simp only [State.onTeam, State.draw, kept]

/-- The last line of an operation read, it performs. -/
theorem stepOp_last {s : State} {o : LateOp} {l : ℕ} (last : o.unread s = [l]) (present : lineAbsent s l = false) :
    stepOp s o =
      let r := o.effect { s with draws := s.draws + 1, team := { s.team with late := s.team.late.erase o } } (bufferBytes (o.buffer ++ [readLine s { key := 128 * l }]))
      opDone r.1 o r.2.1 r.2.2 := by
  have here : ((o.unread s).filter fun l => !lineAbsent s l) = [l] := by simp [last, present]
  have read : (readLine s { key := 128 * l }).line = l := by simp [readLine]
  have done : (({ o with buffer := o.buffer ++ [readLine s { key := 128 * l }] } : LateOp).unread s.draw).isEmpty = true := by
    rw [List.isEmpty_iff, LateOp.unread, List.filter_eq_nil_iff]
    intro a ha
    have left : a ∈ o.unread s ∨ (o.buffer.any fun b => b.line == a) = true := by
      by_cases hb : (o.buffer.any fun b => b.line == a) = true
      · exact .inr hb
      · exact .inl (List.mem_filter.2 ⟨ha, by simp [hb]⟩)
    rw [last, List.mem_singleton] at left
    rcases left with rfl | hb
    · simp [read]
    · simp only [List.any_append, hb, Bool.true_or]; decide
  unfold stepOp
  simp only [here]
  cases pick : List.filter (fun l => Config.freeChoice (s.draws + l)) [l] with
  | nil =>
    simp only [List.map_cons, List.map_nil, done, if_true]
    rfl
  | cons x xs =>
    have same : x :: xs = [l] := by
      cases free : Config.freeChoice (s.draws + l) <;> simp [free] at pick
      simp [pick]
    simp only [same, List.map_cons, List.map_nil, done, if_true]
    rfl

/-! ## The event -/

/-- What `INSTRUCTION_COMPLETION` does to a warp that is in focus. -/
def completeAt (w : WarpRef) (seq : ℕ) (x : State) : State :=
  if x.me == w then (firstOp x seq).elim (x.onWarp fun y => y.finish seq) (stepOp x) else x

theorem exec_instructionCompletion (w : WarpRef) (seq : ℕ) (s : State) :
    exec (.instructionCompletion w seq) s = .next (withWarp s w (completeAt w seq)) := by
  have same : (fun x : State => completeAt w seq x) = completeAt w seq := rfl
  rw [← same]
  simp only [exec, execInstructionCompletion, completeAt]
  congr 3
  funext x
  cases firstOp x seq <;> rfl

theorem completeAt_plain {s : State} {seq : ℕ} (h : firstOp s seq = none) : completeAt s.me seq s = s.onWarp fun y => y.finish seq := by
  simp [completeAt, h]

theorem completeAt_op {s : State} {seq : ℕ} {o : LateOp} (h : firstOp s seq = some o) : completeAt s.me seq s = stepOp s o := by
  simp [completeAt, h]

theorem completion_plain {s : State} (hs : Focused s) {seq : ℕ} (h : firstOp s seq = none) :
    exec (.instructionCompletion s.me seq) s = .next { s with warp := { s.warp with
      pending := s.warp.pending.map fun o => if o.seq = seq ∧ o.copy = none ∧ o.late = false then { o with done := true } else o } } := by
  have now := completeAt_plain h
  rw [exec_instructionCompletion, withWarp_me hs (now.symm ▸ hs) (by rw [now]; rfl), now]
  simp only [State.onWarp, Warp.finish, Bool.and_eq_true, beq_iff_eq, Option.isNone_iff_eq_none, Bool.not_eq_true', and_assoc]

theorem completion_waits {s : State} (hs : Focused s) {seq : ℕ} {o : LateOp} (h : firstOp s seq = some o)
    (absent : (o.unread s).all (lineAbsent s) = true) (some' : o.unread s ≠ []) :
    exec (.instructionCompletion s.me seq) s = .next { s with draws := s.draws + 1 } := by
  have now := (completeAt_op h).trans (stepOp_waits absent some')
  rw [exec_instructionCompletion, withWarp_me hs (now.symm ▸ hs) (by rw [now]; rfl), now]
  rfl

theorem completion_last {s : State} (hs : Focused s) {seq l : ℕ} {o : LateOp} (h : firstOp s seq = some o) (last : o.unread s = [l])
    (present : lineAbsent s l = false) :
    let r := o.effect { s with draws := s.draws + 1, team := { s.team with late := s.team.late.erase o } }
      (bufferBytes (o.buffer ++ [readLine s { key := 128 * l }]))
    ∃ t, exec (.instructionCompletion s.me seq) s = .next t ∧ t = { r.1 with warp := t.warp, team := { r.1.team with peers := t.team.peers } } ∧
      (∀ x ∈ t.warp.pending, x.seq = seq → x.done = true ∧ x.fault = r.2.2.map fun f => (f, 0)) := by
  intro r
  obtain ⟨own, rfl⟩ := firstOp_own h
  have moves : SlotsMove _ r.1 := effect_slotsMove ..
  have running : r.1.warp.status ≠ .absent := by rw [moves.warp]; exact hs.2
  obtain ⟨status, idx, pending⟩ := opDone_warp running (by rw [moves.warp]; exact own) r.2.1 r.2.2
  have team : (opDone r.1 o r.2.1 r.2.2).team = { s.team with
      late := s.team.late.erase o, slots := (opDone r.1 o r.2.1 r.2.2).team.slots, peers := (opDone r.1 o r.2.1 r.2.2).team.peers } := by
    rw [opDone_eq, moves.team]
  have now := (completeAt_op h).trans (stepOp_last last present)
  have focused : Focused (completeAt s.me o.seq s) := by
    rw [now]
    exact ⟨by rw [team]; exact hs.1, by rw [status, moves.warp]; exact hs.2⟩
  have me : (completeAt s.me o.seq s).me = s.me := by
    rw [now]
    simp only [State.me, WarpRef.mk.injEq]
    exact ⟨by rw [team], by rw [idx, moves.warp]⟩
  refine ⟨_, by rw [exec_instructionCompletion, withWarp_me hs focused me, now], opDone_eq .., fun x hx hseq => ?_⟩
  rw [pending] at hx
  obtain ⟨y, -, rfl⟩ := List.mem_map.1 hx
  exact markDone_own hseq

theorem cycled_eq (w : Warp) (ready : Bool) : w.cycled ready = { w with
    wait := if ready = true ∧ w.taken = 0 then w.wait + 1 else if w.yieldOff = 0 then 0 else w.wait
    urgent := w.urgent && decide (ready = true ∧ w.taken = 0), yieldOff := w.yieldOff - 1, yieldLow := w.yieldLow - 1, taken := w.taken - 1 } := by
  cases ready <;> by_cases issued : w.taken = 0 <;> simp [Warp.cycled, issued]

/-- Settles O43, event by event; the charged words come to the toll gate with their checks behind them. -/
theorem coreEvents : Obligations.CoreEvents := by
  unfold Obligations.CoreEvents
  refine ⟨fun s ht hw => ?_, fun s i n cs ht hf hc hl hu hd => waitsForToll_of_atGate (atGate_of_charged ht hf (fields_true hc) hl hu hd)⟩
  have hs : Focused s := ⟨by rw [ht]; exact nofun, by rw [hw]; exact nofun⟩
  refine ⟨fun w x h ws u hl h0 hm hc hf hm' hc' => clauseStart_uniform hw hl h0 hm hc hf hm' hc', fun seq h => completion_plain hs h,
    fun seq o h => ⟨completion_waits hs h, fun l => completion_last hs h⟩, urgent_now hs, urgent_not hs,
    fun c cls age hc still hg ends => ?_, fun c hc => ⟨exec_cycle_stopped, fun runs => ?_⟩⟩
  · exact ⟨_, classGroupClose_ends still hg ends, coreOf_onCore_same hc _, fun d hd => coreOf_onCore_other hd _, onCore_eq ..⟩
  · have moves := cycleWarps_moved (onCore s c Core.cycled) ((onCoreWarps s c).filter (readyWarp s)) (onCoreWarps s c)
    have cores (d : CoreRef) := congrArg (fun t : State => coreOf t d) moves
    have own := (cores c).trans (coreOf_onCore_same hc Core.cycled)
    have used := congrArg Core.used own
    refine ⟨_, exec_cycle runs, own.trans (by rw [used]; rfl), fun g n => by rw [used]; exact mem_stillUsed,
      fun g => by rw [used]; exact not_mem_stillUsed _ g, fun d hd => (cores d).trans (coreOf_onCore_other hd _),
      by rw [moves]; rfl, by rw [moves]; rfl, by rw [moves]; rfl, fun one mine => ?_⟩
    rw [cycleWarps_one hs one mine]
    simp only [State.onWarp, cycled_eq]
    rfl

end Sys2Proof.Machine
end

section
/-! PROOF. What writes of the device's own records leave: the teams, the grids and what the caravan masters keep of queues and launch channels. -/
namespace Sys2Proof.Machine
open Sys2Proof

/-- What the caravan masters keep of a partition: its launch channels and its queues. -/
def Partition.service (p : Partition) : Vector LaunchChannel 16 × Vector QueueService 8 := (p.chans, p.queues)

/-- What the caravan masters keep. -/
def masters (s : State) :=
  (s.team, s.warp, s.teams, s.grids, s.copies, s.nextTeam, s.nextGrid, s.nextPlace, s.parts.map Partition.service)

/-- What the caravan masters keep is as it was. -/
def SameMasters (s t : State) : Prop := masters t = masters s

namespace SameMasters

theorem refl (s : State) : SameMasters s s := rfl

theorem trans {s t u : State} (h : SameMasters s t) (g : SameMasters t u) : SameMasters s u := Eq.trans g h

theorem foldl {α : Type} {f : State → α → State} (h : ∀ s a, SameMasters s (f s a)) (as : List α) (s : State) :
    SameMasters s (as.foldl f s) := by
  induction as generalizing s with
  | nil => exact refl s
  | cons a rest ih => exact (h s a).trans (ih (f s a))

theorem ite {c : Prop} [Decidable c] {s t u : State} (h : SameMasters s t) (k : SameMasters s u) : SameMasters s (if c then t else u) := by
  split
  · exact h
  · exact k

section
variable {s t : State} (h : SameMasters s t)
include h

theorem team : t.team = s.team := congrArg (·.1) h
theorem warp : t.warp = s.warp := congrArg (·.2.1) h
theorem teams : t.teams = s.teams := congrArg (·.2.2.1) h
theorem grids : t.grids = s.grids := congrArg (·.2.2.2.1) h
theorem copies : t.copies = s.copies := congrArg (·.2.2.2.2.1) h
theorem nextTeam : t.nextTeam = s.nextTeam := congrArg (·.2.2.2.2.2.1) h
theorem nextGrid : t.nextGrid = s.nextGrid := congrArg (·.2.2.2.2.2.2.1) h
theorem nextPlace : t.nextPlace = s.nextPlace := congrArg (·.2.2.2.2.2.2.2.1) h

theorem service (p : BitVec 4) : (partOf t p).service = (partOf s p).service := by
  have hp : t.parts.map Partition.service = s.parts.map Partition.service := congrArg (·.2.2.2.2.2.2.2.2) h
  simpa [partOf, Vector.get] using congrArg (·.get p.toFin) hp

theorem chans (p : BitVec 4) : (partOf t p).chans = (partOf s p).chans := congrArg (·.1) (h.service p)
theorem queues (p : BitVec 4) : (partOf t p).queues = (partOf s p).queues := congrArg (·.2) (h.service p)

end

/-- A change of a partition that leaves its launch channels and its queues. -/
theorem onPart (s : State) (p : BitVec 4) (f : Partition → Partition) (hf : ∀ q, (f q).service = q.service := by exact fun _ => rfl) :
    SameMasters s (Machine.onPart s p f) := by
  have hm : (s.parts.set p.toNat (f (s.parts.get p.toFin)) p.isLt).map Partition.service = s.parts.map Partition.service := by
    rw [Vector.map_set, hf]
    ext1 i hi
    by_cases hp : p.toNat = i <;> simp [hp, Vector.get]
  simp only [SameMasters, masters, onPart_parts, hm]
  rfl

end SameMasters

/-! ## Memory -/

theorem masters_metErrors (s : State) (sp : Span) : SameMasters s (metErrors s sp) := by rw [metErrors_eq]; rfl

theorem masters_metLines (s : State) (key kid n : ℕ) : SameMasters s (metLines s key kid n) := masters_metErrors s _

theorem masters_partMet (s : State) (p : BitVec 4) (acc : Access) (va n : ℕ) : SameMasters s (partMet s p acc va n) := by
  unfold partMet
  exact .ite (.refl s) (.foldl (f := fun s (x : ℕ × ℕ) => metLines s (128 * x.1) x.2 128) (fun s x => masters_metLines s _ _ _) _ s)

theorem masters_writeBytes (s : State) (pa kid : ℕ) (bs : List Byte) : SameMasters s (writeBytes s pa kid bs) := by
  induction bs generalizing s pa with
  | nil => exact .refl s
  | cons b rest ih => exact SameMasters.trans (by rw [writeByte_eq]; rfl) (ih (writeByte s pa kid b) _)

theorem masters_sideRun (s : State) (pa : ℕ) (pair : BitVec 512) (bs : List Byte) : SameMasters s (sideRun s pa pair bs) := by
  induction bs generalizing s pa with
  | nil => exact .refl s
  | cons b rest ih =>
    have hw : SameMasters s (sideWrite s pa pair b) := .ite rfl rfl
    exact hw.trans (ih _ _)

theorem masters_sideWrites (s : State) (pa : ℕ) (pair : BitVec 512) (bs : List Byte) : SameMasters s (sideWrites s pa pair bs) :=
  (SameMasters.foldl (fun s _ => .ite (.refl s) (masters_sideRun s _ _ _)) _ s).trans (masters_sideRun _ pa pair bs)

theorem masters_putStored (s : State) (n kid : ℕ) (x : List Byte) (form : ℕ) : SameMasters s (putStored s n kid x form) := by
  have h := masters_sideWrites s (2048 * n) (keyPair s kid) x
  unfold putStored
  generalize sideWrites s (2048 * n) (keyPair s kid) x = u at *
  exact h.trans rfl

theorem masters_mergeStored (s : State) (n off kid : ℕ) (bale : Bool) (data : List Byte) : SameMasters s (mergeStored s n off kid bale data) :=
  .ite (masters_sideWrites s _ _ data) (masters_putStored s n kid _ _)

theorem masters_bad (s : State) (bad : List ℕ) : SameMasters s { s with bad := bad } := rfl

theorem masters_log (s : State) (l : List ErrorEntry) : SameMasters s { s with mgmt := { s.mgmt with log := l } } := rfl

theorem masters_cleanLine (s : State) (line : ℕ) : SameMasters s (cleanLine s line) := rfl

theorem masters_recallLine (s : State) (line : ℕ) : SameMasters s (recallLine s line) := by
  unfold recallLine
  split
  · exact .refl s
  · simp only
    split
    · exact .ite ((masters_cleanLine s line).trans <| (masters_sideWrites _ _ _ _).trans (masters_bad _ _))
        ((masters_cleanLine s line).trans (masters_putStored _ _ _ _ _))
    all_goals rfl

theorem masters_controllerWrites (fuel : ℕ) (s : State) (l : Loc) (bs : List Byte) : SameMasters s (controllerWrites fuel s l bs) := by
  induction fuel generalizing s l bs with
  | zero => exact .refl s
  | succ n ih => exact .ite (masters_mergeStored s _ _ _ _ _) ((masters_mergeStored s _ _ _ _ _).trans (ih _ _ _))

theorem masters_interrupt (s : State) (p : BitVec 4) (bit : ℕ) : SameMasters s (interrupt s p bit) := by
  unfold interrupt
  have h := SameMasters.onPart s p fun q => { q with intstat := q.intstat ||| BitVec.ofNat 10 (2 ^ bit) }
  exact .ite (.refl s) (.ite (h.trans rfl) h)

theorem masters_queueError (s : State) (p : BitVec 4) (e : ErrorEntry) : SameMasters s (queueError s p e) := .onPart s p _

theorem masters_noteLoss (s : State) (kind : BitVec 8) (pa : ℕ) : SameMasters s (noteLoss s kind pa) := by
  unfold noteLoss
  split
  · exact (masters_queueError s _ _).trans (masters_interrupt _ _ 6)
  · exact ((masters_queueError s _ _).trans (masters_interrupt _ _ 6)).trans (masters_log _ _)

theorem masters_evict (s : State) (pa : ℕ) : SameMasters s (evict s pa) := by
  unfold evict
  simp only
  split
  · exact .refl s
  · exact .ite ((masters_cleanLine s _).trans ((masters_putStored _ _ _ _ 8).trans (masters_noteLoss _ _ _)))
      (.ite (masters_recallLine s _) ((masters_recallLine s _).trans (masters_noteLoss _ _ _)))

theorem masters_sideStore (s : State) (l : Loc) (bs : List Byte) : SameMasters s (sideStore s l bs) := by
  unfold sideStore
  split
  · exact masters_controllerWrites _ s l bs
  all_goals exact masters_writeBytes s _ _ bs

theorem masters_memoryWrite (s : State) (l : Loc) (bs : List Byte) : SameMasters s (memoryWrite s l bs) :=
  (SameMasters.foldl (f := fun s x => evict s (128 * x)) (fun s x => masters_evict s (128 * x)) _ s).trans (masters_sideStore _ l bs)

theorem masters_physWrite {s t : State} {pa : ℕ} {bs : List Byte} (h : physWrite s pa bs = some t) : SameMasters s t := by
  unfold physWrite at h
  split at h
  · exact absurd h nofun
  · obtain rfl := Option.some.inj h
    exact masters_memoryWrite s _ bs

theorem masters_partWrite {s t : State} {p : BitVec 4} {va : ℕ} {bs : List Byte} (h : partWrite s p va bs = some t) : SameMasters s t := by
  obtain ⟨ls, -, h⟩ := Option.bind_eq_some_iff.1 h
  split at h
  · exact absurd h nofun
  · obtain rfl := Option.some.inj h
    exact .foldl (f := fun s (x : Loc × Byte) => memoryWrite s x.1 [x.2]) (fun s x => masters_memoryWrite s x.1 [x.2]) _ s

theorem masters_writeErr (s : State) (part : BitVec 4) (q : BitVec 3) (code : ℕ) : SameMasters s (writeErr s part q code) := by
  unfold writeErr
  cases h : partWrite s part (queueAddr (partOf s part) q + 28) (leBytes 4 code) with
  | none => exact .refl s
  | some t => exact masters_partWrite h

/-! ## Records: errors, waybills, manifests -/

theorem masters_drainErrors (fuel : ℕ) (s : State) (p : BitVec 4) : SameMasters s (drainErrors fuel s p) := by
  induction fuel generalizing s with
  | zero => exact .refl s
  | succ n ih =>
    unfold drainErrors
    simp only
    split
    · exact .refl s
    · refine .ite (.refl s) ?_
      split
      · exact ((masters_metLines s _ _ _).trans (.onPart _ p _)).trans (masters_log _ _)
      · rename_i h
        exact (masters_physWrite h).trans ((SameMasters.onPart _ p _).trans ((masters_interrupt _ p 5).trans (ih _)))

theorem masters_recordError (s : State) (p : BitVec 4) (e : ErrorEntry) : SameMasters s (recordError s p e) :=
  (masters_queueError s p e).trans (masters_drainErrors 65 _ p)

theorem masters_drainWaybill (fuel : ℕ) (s : State) (p : BitVec 4) : SameMasters s (drainWaybill fuel s p) := by
  induction fuel generalizing s with
  | zero => exact .refl s
  | succ n ih =>
    unfold drainWaybill
    simp only
    split
    · exact .refl s
    · refine .ite (.refl s) (.ite (masters_interrupt s p 8) (.ite (.refl s) ?_))
      split
      · exact ((masters_metLines s _ _ _).trans (.onPart _ p _)).trans (masters_recordError _ p _)
      · rename_i h
        exact (masters_physWrite h).trans ((SameMasters.onPart _ p _).trans (ih _))

theorem masters_logEntry (s : State) (e : WaybillEntry) : SameMasters s (logEntry s e) :=
  .ite ((SameMasters.onPart s s.team.part _).trans (masters_drainWaybill _ _ _)) (.refl s)

theorem masters_followFailed (s : State) (pa : ℕ) : SameMasters s (followFailed s pa) := (masters_metLines s pa 0 32).trans (masters_recordError _ _ _)

theorem masters_waymarksMet (s : State) (part : BitVec 4) : SameMasters s (waymarksMet s part) :=
  .ite (.refl s) (.foldl (fun s _ => .ite (masters_metLines s _ _ _) (.refl s)) _ s)

theorem masters_writeRequests (part : BitVec 4) (mid : BitVec 32) (rs : List (ℕ × ℕ)) (s : State) :
    SameMasters s (writeRequests part mid rs s).2 ∧ ∀ t, (writeRequests part mid rs s).1 = some t → SameMasters s t := by
  induction rs generalizing s with
  | nil => exact ⟨.refl s, fun t h => by obtain rfl := Option.some.inj h; exact .refl s⟩
  | cons r rest ih =>
    obtain ⟨gpa, acc⟩ := r
    unfold writeRequests
    simp only
    split
    · exact ⟨((masters_metLines s _ _ _).trans (.onPart _ part _)).trans (masters_recordError _ _ _), fun t h => absurd h nofun⟩
    · rename_i u h
      have hu := (masters_physWrite h).trans ((SameMasters.onPart u part fun p => { p with
        requests := p.requests ++ [(p.nextTag, gpa)], nextTag := p.nextTag + 1#32, prq := { p.prq with tail := p.prq.tail + 1#32 } }).trans
          (masters_interrupt _ part 2))
      exact ⟨hu.trans (ih _).1, fun t ht => hu.trans ((ih _).2 t ht)⟩

theorem masters_numberManifest (s : State) (part : BitVec 4) (m : Manifest) : SameMasters s (numberManifest s part m).1 := by
  unfold numberManifest
  split
  · exact .refl s
  · exact .onPart s part _

theorem masters_writeEntry (s : State) (part : BitVec 4) (m : Manifest) : SameMasters s (writeEntry s part m).1 := by
  unfold writeEntry
  simp only
  split
  · exact ((masters_partMet s part _ _ _).trans (.onPart _ part _)).trans (masters_recordError _ _ _)
  · rename_i h
    exact (masters_partWrite h).trans ((SameMasters.onPart _ part _).trans (masters_interrupt _ part 1))

theorem masters_tryWrite (s : State) (part : BitVec 4) (m : Manifest) : SameMasters s (tryWrite s part m).1 := by
  have hn := masters_numberManifest s part m
  unfold tryWrite
  generalize numberManifest s part m = x at *
  obtain ⟨u, m'⟩ := x
  simp only at hn ⊢
  obtain ⟨hfail, hdone⟩ := masters_writeRequests part m'.mid (newRequests (partOf u part) m') u
  generalize writeRequests part m'.mid (newRequests (partOf u part) m') u = y at *
  obtain ⟨o, v⟩ := y
  cases o with
  | none => exact hn.trans hfail
  | some t => exact (hn.trans (hdone t rfl)).trans (masters_writeEntry t part _)

theorem masters_noteHeld (s : State) (part : BitVec 4) (m : Manifest) : SameMasters s (noteHeld s part m) := by
  unfold noteHeld
  simp only
  have h : SameMasters s (if fqRoom (partOf s part) = 0 then interrupt (onPart s part fun p => { p with fq := { p.fq with ovf := true } }) part 3 else s) :=
    .ite ((SameMasters.onPart s part _).trans (masters_interrupt _ part 3)) (.refl s)
  exact .ite (h.trans ((SameMasters.onPart _ part _).trans (masters_interrupt _ part 4))) h

theorem masters_keepManifest (s : State) (part : BitVec 4) (m : Manifest) : SameMasters s (keepManifest s part m) :=
  .ite (.refl s) (.onPart s part _)

theorem masters_postManifest (s : State) (part : BitVec 4) (m : Manifest) : SameMasters s (postManifest s part m) := by
  have ht := masters_tryWrite s part m
  unfold postManifest
  generalize tryWrite s part m = x at *
  obtain ⟨u, m'⟩ := x
  exact .ite ((ht.trans (.ite (.refl u) (masters_noteHeld u part m'))).trans (masters_keepManifest _ part m'))
    ((masters_noteHeld s part m).trans (masters_keepManifest _ part m))

theorem masters_freeResident (s : State) (tid : ℕ) (cs : List CoreRef) : SameMasters s (freeResident s tid cs) :=
  .foldl (f := fun s c => onCore s c fun x => { x with resident := x.resident.filter fun r => r.team != tid }) (fun _ _ => rfl) cs s

end Sys2Proof.Machine
end

section
/-! PROOF. A descriptor reads the same whatever the caravan master keeps of its queue, and the events of a queue (05_teams_and_warps.md R86, R87). -/
namespace Sys2Proof.Machine
open Sys2Proof

/-! ## What a translation reads of a partition -/

/-- The registers of a partition that translations read. -/
def Partition.roots (p : Partition) : Word × Word × Bool × BitVec 9 × BitVec 9 := (p.s1root, p.s2root, p.s2en, p.keybase, p.keycnt)

section
variable {s : State} {ps : Vector Partition 16} {part : BitVec 4}

theorem readEntry_parts (stage level pa kid gpa : ℕ) : readEntry { s with parts := ps } stage level pa kid gpa = readEntry s stage level pa kid gpa := rfl

theorem walk2_parts (gpa : ℕ) (table : Bool) (fuel level t : ℕ) :
    walk2 { s with parts := ps } gpa table fuel level t = walk2 s gpa table fuel level t := by
  induction fuel generalizing level t with
  | zero => rfl
  | succ n ih => simp only [walk2, readEntry_parts, ih]

variable (h : (ps.get part.toFin).roots = (s.parts.get part.toFin).roots)
include h

theorem keyAllowed_parts (kid : ℕ) : keyAllowed (ps.get part.toFin) kid = keyAllowed (s.parts.get part.toFin) kid := by
  simp only [Partition.roots, Prod.mk.injEq] at h
  simp only [keyAllowed, h]

theorem s2en_parts : (ps.get part.toFin).s2en = (s.parts.get part.toFin).s2en := congrArg (·.2.2.1) h

theorem walkStage2_parts (gpa : ℕ) (table : Bool) : walkStage2 { s with parts := ps } part gpa table = walkStage2 s part gpa table := by
  have hr : (ps.get part.toFin).s2root = (s.parts.get part.toFin).s2root := congrArg (·.2.1) h
  have hw : walk2 { s with parts := ps } gpa table = walk2 s gpa table := by
    funext fuel level t
    exact walk2_parts gpa table fuel level t
  simp only [walkStage2, hr, hw]
  rfl

theorem tablePlace_parts (level a : ℕ) : tablePlace { s with parts := ps } part level a = tablePlace s part level a := by
  simp only [tablePlace, walkStage2_parts h, s2en_parts h, keyAllowed_parts h]
  rfl

theorem walk1_parts (va fuel level t : ℕ) : walk1 { s with parts := ps } part va fuel level t = walk1 s part va fuel level t := by
  induction fuel generalizing level t with
  | zero => rfl
  | succ n ih => simp only [walk1, tablePlace_parts h, readEntry_parts, s2en_parts h, ih]

theorem walkStage1_parts (va : ℕ) : walkStage1 { s with parts := ps } part va = walkStage1 s part va := by
  have hr : (ps.get part.toFin).s1root = (s.parts.get part.toFin).s1root := congrArg (·.1) h
  have hw : walk1 { s with parts := ps } part va = walk1 s part va := by
    funext fuel level t
    exact walk1_parts h va fuel level t
  simp only [walkStage1, hr, hw]
  rfl

theorem combine_parts (acc : Access) (priv : Bool) (va : ℕ) (e1 : Word) (l1 : ℕ) (second : ℕ → Option Walk) :
    combine { s with parts := ps } (ps.get part.toFin) acc priv va e1 l1 second = combine s (s.parts.get part.toFin) acc priv va e1 l1 second := by
  simp only [combine, placeChecks, keyAllowed_parts h]
  rfl

theorem translate_parts (acc : Access) (priv : Bool) (va : ℕ) :
    translate { s with parts := ps } part acc priv va = translate s part acc priv va := by
  have hk : keptPage { s with parts := ps } part va = keptPage s part va := rfl
  simp only [translate, hk, combinedXlat, walkedXlat, combine_parts h, walkStage1_parts h, walkStage2_parts h, s2en_parts h]

theorem partLoc_parts (acc : Access) (va : ℕ) : partLoc { s with parts := ps } part acc va = partLoc s part acc va := by
  simp only [partLoc, translate_parts h]
  rfl

theorem partRead_parts (va n : ℕ) : partRead { s with parts := ps } part va n = partRead s part va n := by
  simp only [partRead, partPlaces, partPlace, partLoc_parts h]
  rfl

end

theorem get_set_toFin {α : Type} {w : ℕ} (v : Vector α (2 ^ w)) (i : BitVec w) (x : α) : (v.set i.toNat x i.isLt).get i.toFin = x :=
  Vector.getElem_set_self _

theorem partOf_onPart (s : State) (p : BitVec 4) (f : Partition → Partition) : partOf (onPart s p f) p = f (partOf s p) :=
  get_set_toFin (w := 4) _ _ _

theorem readQueue_onQueue (s : State) (p : BitVec 4) (q : BitVec 3) (f : QueueService → QueueService) :
    readQueue (onQueue s p q f) p q = readQueue s p q := by
  have hq : partOf (onQueue s p q f) p = { partOf s p with queues := (partOf s p).queues.set q.toNat (f (serviceOf s p q)) q.isLt } :=
    partOf_onPart s p _
  have hr : (partOf (onQueue s p q f) p).roots = (partOf s p).roots := by rw [hq]; rfl
  have ha : queueAddr (partOf (onQueue s p q f) p) q = queueAddr (partOf s p) q := by rw [hq]; rfl
  rw [readQueue, readQueue, ha]
  exact congrArg _ (partRead_parts hr _ _)

/-! ## What the caravan master keeps of a queue -/

/-- A queue's service replaced. -/
def putQueue (s : State) (p : BitVec 4) (q : BitVec 3) (y : QueueService) : State :=
  { s with parts := s.parts.set p.toNat { partOf s p with queues := (partOf s p).queues.set q.toNat y q.isLt } p.isLt }

section
variable (s : State) (p : BitVec 4) (q : BitVec 3)

theorem onQueue_eq_putQueue (f : QueueService → QueueService) : onQueue s p q f = putQueue s p q (f (serviceOf s p q)) := rfl

theorem putQueue_putQueue (y z : QueueService) : putQueue (putQueue s p q y) p q z = putQueue s p q z := by
  simp only [putQueue, partOf, get_set_toFin (w := 4), Vector.set_set]

theorem serviceOf_putQueue (y : QueueService) : serviceOf (putQueue s p q y) p q = y := by
  simp only [serviceOf, putQueue, partOf, get_set_toFin (w := 4)]
  exact get_set_toFin (w := 3) _ _ _

theorem serviceOf_writeErr (code : ℕ) : serviceOf (writeErr s p q code) p q = serviceOf s p q := by
  rw [serviceOf, serviceOf, (masters_writeErr s p q code).queues]

theorem interrupt_raised (bit : ℕ) (hb : bit < 10) : (partOf (interrupt s p bit) p).intstat.getLsbD bit = true := by
  have hs : (partOf (onPart s p fun q => { q with intstat := q.intstat ||| BitVec.ofNat 10 (2 ^ bit) }) p).intstat.getLsbD bit = true := by
    rw [partOf_onPart, BitVec.getLsbD_or, BitVec.getLsbD_ofNat, Nat.testBit_two_pow_self]
    simp [hb]
  unfold interrupt
  simp only
  split
  · assumption
  · split <;> exact hs

theorem serviceOf_interrupt (bit : ℕ) : serviceOf (interrupt s p bit) p q = serviceOf s p q := by
  rw [serviceOf, serviceOf, (masters_interrupt s p bit).queues]

/-- A queue in error is served no longer, and its interrupt is raised (R87). -/
theorem failQueue_fails (code : ℕ) :
    (serviceOf (failQueue s p q code) p q).serving = false ∧ (partOf (failQueue s p q code) p).intstat.getLsbD 0 = true := by
  refine ⟨?_, interrupt_raised _ p 0 (by decide)⟩
  rw [failQueue, serviceOf_interrupt, onQueue_eq_putQueue, serviceOf_putQueue]

end

/-! ## The events of a queue -/

section
variable {s : State} {p : BitVec 4} {q : BitVec 3} {d : QueueDesc}

theorem observeQueue_sound (hr : readQueue s p q = some d) (hf : d.fault = none) :
    observeQueue s p q = putQueue s p q { serviceOf s p q with serving := true, tail := d.tail } := by
  simp only [observeQueue, hr, hf]
  rfl

theorem observeQueue_fails (hr : readQueue s p q = some d) (hf : d.fault ≠ none) :
    (serviceOf (observeQueue s p q) p q).serving = false ∧ (partOf (observeQueue s p q) p).intstat.getLsbD 0 = true := by
  obtain ⟨code, hc⟩ := Option.ne_none_iff_exists'.1 hf
  simp only [observeQueue, hr, hc]
  exact failQueue_fails s p q code

theorem exec_tailObserved (hh : queueHeld s p q = none) :
    exec (.tailObserved p q) s = .next (if (serviceOf s p q).serving then observeQueue s p q else s) := by
  change execTailObserved p q s = _
  simp [execTailObserved, hh]

theorem exec_queueDisableWrite (hh : queueHeld s p q = none) (hr : readQueue s p q = some d) :
    exec (.queueDisableWrite p q) s = .next (if d.enable then s else putQueue s p q { serviceOf s p q with enabled := false, serving := false }) := by
  change execQueueDisableWrite p q s = _
  simp only [execQueueDisableWrite, hh, hr]
  rfl

/-- A queue that is served, or whose ENABLE reads 0, is left alone. -/
theorem exec_queueEnableWrite_idle (hr : readQueue s p q = some d) (h : (serviceOf s p q).serving = true ∨ d.enable = false) :
    exec (.queueEnableWrite p q) s = .next s := by
  change execQueueEnableWrite p q s = _
  rcases h with h | h <;> simp [execQueueEnableWrite, h, hr]

/-- A queue that is enabled has its descriptor observed afresh, its ERR cleared before. -/
theorem exec_queueEnableWrite (hh : queueHeld s p q = none) (hr : readQueue s p q = some d) (hs : (serviceOf s p q).serving = false)
    (he : d.enable = true) :
    exec (.queueEnableWrite p q) s =
      .next (observeQueue (putQueue (if d.err = 0#32 then s else writeErr s p q 0) p q { serviceOf s p q with enabled := true }) p q) := by
  change execQueueEnableWrite p q s = _
  have hx : serviceOf (if d.err = 0#32 then s else writeErr s p q 0) p q = serviceOf s p q := by
    split
    · rfl
    · exact serviceOf_writeErr s p q 0
  simp only [execQueueEnableWrite, hh, hr, hs, he, onQueue_eq_putQueue, hx]
  rfl

/-- The descriptor as it stands once the queue is enabled is observed. -/
theorem observe_enabled {m : State} {x : QueueService} (hr : readQueue m p q = some d) (hf : d.fault = none) :
    observeQueue (putQueue m p q { x with enabled := true }) p q = putQueue m p q { x with enabled := true, serving := true, tail := d.tail } := by
  have hr' : readQueue (putQueue m p q { x with enabled := true }) p q = some d := (readQueue_onQueue m p q fun _ => _).trans hr
  rw [observeQueue_sound hr' hf, putQueue_putQueue, serviceOf_putQueue]

theorem observe_enabled_fails {m : State} {x : QueueService} (hr : readQueue m p q = some d) (hf : d.fault ≠ none) :
    (serviceOf (observeQueue (putQueue m p q x) p q) p q).serving = false ∧
      (partOf (observeQueue (putQueue m p q x) p q) p).intstat.getLsbD 0 = true :=
  observeQueue_fails ((readQueue_onQueue m p q fun _ => x).trans hr) hf

end

end Sys2Proof.Machine
end

section
/-! PROOF. A record taken: its grid begins, or it is rejected (05_teams_and_warps.md R87, R90, R93). -/
namespace Sys2Proof.Machine
open Sys2Proof

/-! ## Launch channels -/

/-- A launch channel of a partition. -/
def launchChan (s : State) (p c : BitVec 4) : LaunchChannel := (partOf s p).chans.get c.toFin

theorem launchChan_onLaunch (s : State) (p c : BitVec 4) (f : LaunchChannel → LaunchChannel) :
    launchChan (onLaunch s p c f) p c = f (launchChan s p c) := by
  rw [launchChan, onLaunch, partOf_onPart]
  exact get_set_toFin (w := 4) _ _ _

theorem SameMasters.launchChan {s t : State} (h : SameMasters s t) (p c : BitVec 4) : launchChan t p c = Machine.launchChan s p c := by
  rw [Machine.launchChan, Machine.launchChan, h.chans]

/-! ## IDs given out and completed -/

theorem giveId_eq (s : State) (g : Grid) : giveId s g = { s with nextGrid := s.nextGrid + 1, parts := (giveId s g).parts } := by
  unfold giveId
  simp only
  split <;> rfl

theorem giveId_chan (s : State) (g : Grid) : launchChan (giveId s g) g.part g.launch.donech =
    if g.launch.donev then { launchChan s g.part g.launch.donech with n := ((launchChan s g.part g.launch.donech).n + 1) % 2 ^ 48 }
    else launchChan s g.part g.launch.donech := by
  unfold giveId
  simp only
  split
  · exact launchChan_onLaunch _ _ _ _
  · rfl

theorem masters_writeCompletion (s : State) (g : Grid) (status : ℕ) : SameMasters s (writeCompletion s g status) := by
  refine .ite (.refl s) ?_
  split
  · rename_i h
    exact masters_partWrite h
  · exact (masters_partMet s _ _ _ _).trans (masters_recordError _ _ _)

theorem endGrid_grids (s : State) (g : Grid) (status : ℕ) : (endGrid s g status).grids = s.grids.filter fun x => x.gid != g.gid := by
  unfold endGrid
  simp only
  split <;> simp only [onLaunch, onPart_grids, (masters_writeCompletion s g status).grids]

theorem endGrid_teams (s : State) (g : Grid) (status : ℕ) : (endGrid s g status).teams = s.teams := by
  unfold endGrid
  simp only
  split <;> simp only [onLaunch, onPart_teams, (masters_writeCompletion s g status).teams]

/-- The ID of a grid that ends is completed on its launch channel (R89). -/
theorem endGrid_chan (s : State) {g : Grid} (status : ℕ) (h : g.launch.donev = true) :
    launchChan (endGrid s g status) g.part g.launch.donech = (launchChan s g.part g.launch.donech).complete g.doneId := by
  unfold endGrid
  simp only [h, if_true]
  change launchChan (onLaunch (writeCompletion s g status) g.part g.launch.donech fun c => c.complete g.doneId) _ _ = _
  rw [launchChan_onLaunch, (masters_writeCompletion s g status).launchChan]

/-! ## The record that is taken -/

theorem masters_takeHead {s t : State} {h : Ready1} (ht : takeHead s h = some t) : SameMasters s t := by
  obtain ⟨u, hu, rfl⟩ := Option.map_eq_some_iff.1 ht
  exact (masters_partWrite hu).trans (.onPart _ _ _)

theorem recordStatus_ne_killed (s : State) (bs : List Byte) (g : Grid) : recordStatus s bs g ≠ 0x0009 := by
  unfold recordStatus
  simp only
  split_ifs <;> decide

/-- No queue's head is broken, and one of the heads that may be taken is the first. -/
theorem exec_recordTake {s : State} {h : Ready1} (hc : computeOn s = true) (hb : ∀ x ∈ allQueues, queueHead s x.1 x.2 ≠ .broken)
    (hp : pickHead s (readyHeads s) = some h) : exec .recordTake s = .next (takeRecord s.draw h) := by
  have hn : (allQueues.find? fun x => queueHead s x.1 x.2 == .broken) = none := List.find?_eq_none.2 fun x hx => by simpa using hb x hx
  change execRecordTake s = _
  simp only [execRecordTake, hc, hn, hp, Bool.true_or, Bool.not_true, Bool.false_eq_true, if_false]

theorem phase_of_computeOn {s : State} (h : computeOn s = true) : (s.mgmt.phase == .warming) = false := by
  cases hp : s.mgmt.phase <;> simp_all [computeOn]

section
variable {s s1 : State} {h : Ready1} (hc : computeOn s = true) (ht : takeHead s.draw h = some s1)
include hc ht

/-- The grid of a record that passes its checks joins the others (R93). -/
theorem takeRecord_begun (h0 : recordStatus s.draw h.bytes (gridOf s h) = 0) (hl : (gridOf s h).launch.coop = false) :
    takeRecord s.draw h = { giveId s1 (gridOf s h) with grids := s.grids ++ [gridOf s h] } := by
  have hd : (s.draw.mgmt.phase == .warming) = false := phase_of_computeOn hc
  have hs : (giveId s1 (gridOf s h)).grids = s.grids := by rw [giveId_eq]; exact (masters_takeHead ht).grids
  unfold takeRecord
  rw [show gridOf s.draw h = gridOf s h from rfl]
  generalize gridOf s h = g at *
  simp only [hd, h0, ht, hs, hl, Bool.false_eq_true, if_false, bne_self_eq_false]

/-- A cooperative grid that can be placed whole is placed at once (R95). -/
theorem takeRecord_whole (h0 : recordStatus s.draw h.bytes (gridOf s h) = 0) (hl : (gridOf s h).launch.coop = true) {t : State}
    (hw : placeWhole (gridOf s h).launch.total { giveId s1 (gridOf s h) with grids := s.grids ++ [gridOf s h] } (gridOf s h).gid = some t) :
    takeRecord s.draw h = t := by
  have hd : (s.draw.mgmt.phase == .warming) = false := phase_of_computeOn hc
  have hs : (giveId s1 (gridOf s h)).grids = s.grids := by rw [giveId_eq]; exact (masters_takeHead ht).grids
  unfold takeRecord
  rw [show gridOf s.draw h = gridOf s h from rfl]
  generalize gridOf s h = g at *
  simp only [hd, h0, ht, hs, hl, hw, Bool.false_eq_true, if_false, if_true, bne_self_eq_false]

/-- A record that fails a check is rejected with its status, and the host is told (R87). -/
theorem takeRecord_rejected (h0 : recordStatus s.draw h.bytes (gridOf s h) ≠ 0) :
    takeRecord s.draw h =
      interrupt (rejectGrid (giveId s1 (gridOf s h)) (gridOf s h) (recordStatus s.draw h.bytes (gridOf s h))) h.part 0 := by
  have hd : (s.draw.mgmt.phase == .warming) = false := phase_of_computeOn hc
  have h9 := recordStatus_ne_killed s.draw h.bytes (gridOf s h)
  have hp : (gridOf s h).part = h.part := rfl
  unfold takeRecord
  rw [show gridOf s.draw h = gridOf s h from rfl]
  generalize gridOf s h = g at *
  simp only [hd, ht, Bool.false_eq_true, if_false]
  generalize recordStatus s.draw h.bytes g = st at *
  simp only [h0, h9, hp, bne_iff_ne, ne_eq, not_false_eq_true, if_true, if_false]

end

/-- What a rejected record leaves: an ended grid that waits for its completion record's place, or none and its ID completed. -/
theorem rejectGrid_held {s : State} {g : Grid} {status : ℕ} (h : recordHeld s g.part g.launch = true) :
    rejectGrid s g status = { s with grids := s.grids ++ [{ g with ended := true, refusal := some status }] } := by
  rw [rejectGrid, if_pos h]

theorem rejectGrid_free {s : State} {g : Grid} {status : ℕ} (h : recordHeld s g.part g.launch = false) :
    rejectGrid s g status = endGrid s g status := by
  rw [rejectGrid, if_neg (by simp [h])]

theorem rejectGrid_teams (s : State) (g : Grid) (status : ℕ) : (rejectGrid s g status).teams = s.teams := by
  unfold rejectGrid
  split
  · rfl
  · exact endGrid_teams s g status

theorem exec_recordTake_off {s : State} (hc : computeOn s = false) (hw : s.mgmt.phase ≠ .warming) : exec .recordTake s = .next s := by
  change execRecordTake s = _
  have hp : (s.mgmt.phase == .warming) = false := by simpa using hw
  simp [execRecordTake, hc, hp]

end Sys2Proof.Machine
end

section
/-! PROOF. Warps that start: their initial state and their seats (02_words_and_registers.md R44; 05_teams_and_warps.md R96, R99). -/
namespace Sys2Proof.Machine
open Sys2Proof

/-! ## The initial state (R44) -/

theorem initialS_get (l : LaunchRecord) (base : ℕ) (i : ℕ) (hi : i < 64) :
    (initialS l base)[i] =
      if i = 60 then BitVec.ofNat 64 (Config.windowBase + base) else if 1 ≤ i ∧ i ≤ 4 then l.args.getD (i - 1) 0#64 else 0#64 := by
  have hr : List.range 4 = [0, 1, 2, 3] := rfl
  simp only [initialS, hr, List.foldl_cons, List.foldl_nil, Vector.getElem_setIfInBounds, Vector.getElem_set, Vector.getElem_replicate]
  by_cases h : 1 ≤ i ∧ i ≤ 4
  · have h60 : i ≠ 60 := by omega
    rw [if_neg h60, if_pos h]
    obtain rfl | rfl | rfl | rfl : i = 1 ∨ i = 2 ∨ i = 3 ∨ i = 4 := by omega
    all_goals rfl
  · simp only [if_neg h, show 0 + 1 ≠ i by omega, show 1 + 1 ≠ i by omega, show 2 + 1 ≠ i by omega, show 3 + 1 ≠ i by omega, if_false,
      eq_comm (a := 60)]

theorem newWarp_fresh (l : LaunchRecord) (base i : ℕ) (entry : Word) (c : CoreRef) (slot : ℕ) :
    FreshWarp l base i entry.toNat (newWarp l base i entry c slot) where
  runs := rfl
  index := rfl
  stands := rfl
  uniform r := by
    have hs : (newWarp l base i entry c slot).s.get r.toFin = (initialS l base)[r.toNat]'r.isLt := rfl
    have h60 : r = 60#6 ↔ r.toNat = 60 := BitVec.toNat_inj.symm
    rw [Warp.readS, hs, initialS_get]
    by_cases h0 : r = 0#6
    · subst h0; rfl
    · simp only [if_neg h0, h60]
  vectors := rfl
  masks r := by
    rw [Warp.readM]
    split
    · rfl
    · exact Vector.getElem_replicate _
  strip := ⟨rfl, rfl, rfl⟩
  float := ⟨rfl, rfl⟩
  streams _ := Vector.getElem_replicate _
  empty := ⟨rfl, rfl, rfl, rfl, rfl, rfl⟩

/-- A place, a trap to take and the membership of barriers are no part of the initial state. -/
theorem FreshWarp.placed {l : LaunchRecord} {base i hdr : ℕ} {w x : Warp} (h : FreshWarp l base i hdr w)
    (hx : x = { w with core := x.core, slot := x.slot, taken := x.taken, stopAt := x.stopAt, due := x.due, bars := x.bars }) :
    FreshWarp l base i hdr x := by
  rw [hx]
  exact ⟨h.runs, h.index, h.stands, h.uniform, h.vectors, h.masks, h.strip, h.float, h.streams, h.empty⟩

theorem newWarp_part (l : LaunchRecord) (base i : ℕ) (entry : Word) (c : CoreRef) (slot b : ℕ) : (newWarp l base i entry c slot).part b = {} := by
  change (List.replicate 16 ({} : Membership)).getD b {} = {}
  rw [List.getD_eq_getElem?_getD, List.getElem?_replicate]
  split <;> rfl

/-! ## Seats (R96, R434) -/

/-- A warp as it stands in its seat. -/
def Seated (w x : Warp) : Prop := x = { w with core := x.core, slot := x.slot, taken := x.taken, stopAt := x.stopAt, due := x.due }

theorem Seated.part {w x : Warp} (h : Seated w x) (b : ℕ) : x.part b = w.part b := by rw [h]; rfl

theorem Seated.fresh {l : LaunchRecord} {base i hdr : ℕ} {w x : Warp} (h : Seated w x) (hw : FreshWarp l base i hdr w) :
    FreshWarp l base i hdr x := hw.placed (by rw [h])

theorem Seated.due {w x : Warp} (h : Seated w x) (d : Option Report) : Seated w { x with due := d } := by
  unfold Seated at *
  rw [h]

theorem foldl_seat (ws : List Warp) (s : State) :
    ∃ ps, List.Forall₂ Seated ws ps ∧ ws.foldl seat s = s.onTeam fun t => { t with peers := t.peers ++ ps } := by
  induction ws generalizing s with
  | nil => exact ⟨[], .nil, by simp [State.onTeam]⟩
  | cons w rest ih =>
    obtain ⟨ps, hps, h⟩ := ih (seat s w)
    let c := coreFor s
    refine ⟨{ w with core := c, slot := freeSlot s c, taken := 0, stopAt := (coreOf s c).cycles } :: ps, .cons rfl hps, ?_⟩
    rw [List.foldl_cons, h]
    simp [seat, State.onTeam, c]

theorem SameMasters.onTeam {s t : State} (h : SameMasters s t) (f : Team → Team) : SameMasters (s.onTeam f) (t.onTeam f) := by
  simp only [SameMasters, masters, Prod.mk.injEq] at h ⊢
  obtain ⟨hteam, hrest⟩ := h
  exact ⟨congrArg f hteam, hrest⟩

/-- The placement trap changes no more than what its first warp has to take (15_system_and_traps.md R354). -/
theorem divergeAt_eq (s : State) (event : ℕ) {ws ps : List Warp} (h : List.Forall₂ Seated ws ps) (hp : s.team.peers = ps) :
    ∃ qs, List.Forall₂ Seated ws qs ∧ divergeAt s event = s.onTeam fun t => { t with peers := qs } := by
  subst hp
  unfold divergeAt State.onTeam
  cases hp : s.team.peers with
  | nil => exact ⟨[], hp ▸ h, by simp [hp]⟩
  | cons x rest =>
    rw [hp] at h
    cases h with
    | cons hx hrest => exact ⟨{ x with due := some (divergence event 0x81#8) } :: rest, .cons (hx.due _) hrest, by simp [hp]⟩

/-- The focused team in the place chosen for it, with its warps in their seats. -/
def settledTeam (s : State) (x : Site) (base : ℕ) (ps : List Warp) : Team :=
  { s.team with
    site := x, base := base, status := .running, order := s.nextPlace, placements := s.team.placements + 1, peers := ps
    miles := s.team.miles.map fun m => { m with core := { cls := x.cls, num := x.num } } }

theorem settleTeam_seats (s : State) (event : ℕ) (x : Site) (base : ℕ) (ws : List Warp) :
    ∃ ps, List.Forall₂ Seated ws ps ∧
      SameMasters { s with team := settledTeam s x base ps, nextPlace := s.nextPlace + 1 } (settleTeam s event x base ws) := by
  let u : State := { s with team := settledTeam s x base [], nextPlace := s.nextPlace + 1 }
  obtain ⟨ps, hps, hu⟩ := foldl_seat ws u
  have hs : u.onTeam (fun t => { t with peers := t.peers ++ ps }) = { s with team := settledTeam s x base ps, nextPlace := s.nextPlace + 1 } := rfl
  let e := teamEntry (ws.foldl seat u) event 0 0 (if x.pair then 1#64 else 0#64)
  have hl := masters_logEntry (ws.foldl seat u) e
  have hset : settleTeam s event x base ws = match logged s with
      | .missing => divergeAt (logEntry (ws.foldl seat u) e) event
      | .failed pa => divergeAt (followFailed (logEntry (ws.foldl seat u) e) pa) event
      | .own | .only _ | .held => logEntry (ws.foldl seat u) e := by rfl
  rw [hu, hs] at hl hset
  have diverged {v : State} (hv : SameMasters { s with team := settledTeam s x base ps, nextPlace := s.nextPlace + 1 } v) :
      ∃ qs, List.Forall₂ Seated ws qs ∧ SameMasters { s with team := settledTeam s x base qs, nextPlace := s.nextPlace + 1 } (divergeAt v event) := by
    obtain ⟨qs, hqs, hd⟩ := divergeAt_eq v event hps (congrArg Team.peers hv.team)
    exact ⟨qs, hqs, hd ▸ hv.onTeam fun t => { t with peers := qs }⟩
  rw [hset]
  cases logged s with
  | missing => exact diverged hl
  | failed pa => exact diverged (hl.trans (masters_followFailed _ _))
  | own => exact ⟨ps, hps, hl⟩
  | only y => exact ⟨ps, hps, hl⟩
  | held => exact ⟨ps, hps, hl⟩

/-- Where nothing is recorded or followed, a placement leaves memory as it is. -/
theorem settleTeam_mem {s : State} (event : ℕ) (x : Site) (base : ℕ) (ws : List Warp) (hr : s.team.launch.rrecord = false)
    (hf : s.team.launch.rfollow = false) : (settleTeam s event x base ws).mem = s.mem := by
  obtain ⟨ps, -, hu⟩ := foldl_seat ws { s with team := settledTeam s x base [], nextPlace := s.nextPlace + 1 }
  have hl : logged s = .own := by rw [logged, if_neg (by simp [hf])]
  have hset : settleTeam s event x base ws =
      logEntry (ws.foldl seat { s with team := settledTeam s x base [], nextPlace := s.nextPlace + 1 })
        (teamEntry (ws.foldl seat { s with team := settledTeam s x base [], nextPlace := s.nextPlace + 1 }) event 0 0
          (if x.pair then 1#64 else 0#64)) := by
    unfold settleTeam
    simp only [hl]
    rfl
  rw [hset, hu, logEntry, if_neg]
  · rfl
  · simpa [State.onTeam, settledTeam] using hr

theorem waymarksMet_mem (s : State) (part : BitVec 4) : (waymarksMet s part).mem = s.mem := by
  unfold waymarksMet
  simp only
  split
  · rfl
  · refine List.foldlRecOn (motive := fun u : State => u.mem = s.mem) _ _ rfl fun u hu i _ => ?_
    split
    · rw [metLines, metErrors_eq]; exact hu
    · exact hu

end Sys2Proof.Machine
end

section
/-! PROOF. A team placed, a warp attached (05_teams_and_warps.md R94 to R96, R99). -/
namespace Sys2Proof.Machine
open Sys2Proof

/-! ## A team placed -/

/-- The state in which the warps of a team that is placed are seated: no other team in focus, its scratchpad bytes zero. -/
def placingTeam (s : State) (g : Grid) (base : ℕ) : State := wipe { unfocus s with team := teamOf s g } base g.launch.scratch

/-- The next team of a grid in its place, the focus on it. -/
def placedTeam (s : State) (g : Grid) (x : Site) (base : ℕ) : State :=
  changeGrid
    (settleTeam (waymarksMet { placingTeam s g base with nextTeam := s.nextTeam + 1 } g.part) 1 x base (firstWarps (placingTeam s g base) g.launch base))
    g.gid fun y => { y with next := y.next + 1 }

section
variable {s : State} {g : Grid} {x : Site} {base : ℕ}

theorem exec_teamPlacement (hg : (s.grids.find? fun y => y.gid == g.gid) = some g) (hm : mayPlace s g = true)
    (hx : siteFor { unfocus s with team := teamOf s g } g.launch.initw [] = some (x, base)) :
    exec (.teamPlacement g.gid) s = .next (refocus s (placedTeam s g x base)) := by
  have hp : placeNext s g =
      (siteFor { unfocus s with team := teamOf s g } g.launch.initw []).map fun y => refocus s (placedTeam s g y.1 y.2) := rfl
  rw [hx, Option.map_some] at hp
  change execTeamPlacement g.gid s = _
  simp only [execTeamPlacement, hg, hm, hp, if_true]

/-- What the caravan masters keep once the team stands in its place. -/
theorem placedTeam_masters (s : State) (g : Grid) (x : Site) (base : ℕ) :
    ∃ ps, List.Forall₂ Seated (firstWarps (placingTeam s g base) g.launch base) ps ∧
      SameMasters
        { unfocus s with
          team := { teamOf s g with site := x, base := base, status := .running, order := s.nextPlace, placements := 1, peers := ps }
          nextTeam := s.nextTeam + 1, nextPlace := s.nextPlace + 1
          grids := s.grids.map fun y => if y.gid = g.gid then { y with next := y.next + 1 } else y }
        (placedTeam s g x base) := by
  have hw := masters_waymarksMet { placingTeam s g base with nextTeam := s.nextTeam + 1 } g.part
  obtain ⟨ps, hps, hs⟩ := settleTeam_seats (waymarksMet { placingTeam s g base with nextTeam := s.nextTeam + 1 } g.part) 1 x base
    (firstWarps (placingTeam s g base) g.launch base)
  refine ⟨ps, hps, ?_⟩
  unfold placedTeam
  generalize settleTeam (waymarksMet { placingTeam s g base with nextTeam := s.nextTeam + 1 } g.part) 1 x base _ = v at *
  generalize waymarksMet { placingTeam s g base with nextTeam := s.nextTeam + 1 } g.part = u at *
  have ht : settledTeam u x base ps =
      { teamOf s g with site := x, base := base, status := .running, order := s.nextPlace, placements := 1, peers := ps } := by
    rw [settledTeam, hw.team, hw.nextPlace]
    rfl
  simp only [SameMasters, masters, Prod.mk.injEq] at hw hs ⊢
  simp only [hw, hs, ht, changeGrid, beq_iff_eq]
  exact ⟨trivial, rfl, rfl, rfl, rfl, trivial, rfl, rfl, rfl⟩

theorem firstWarps_get {m : State} {l : LaunchRecord} {i : ℕ} {w : Warp} (h : (firstWarps m l base)[i]? = some w) :
    w = newWarp l base i (waymark m m.team.part l.entry) { cls := .m, num := 0 } 0 := by
  simp only [firstWarps, List.getElem?_map, Option.map_eq_some_iff] at h
  obtain ⟨j, hj, rfl⟩ := h
  obtain ⟨-, rfl⟩ := List.getElem?_eq_some_iff.1 hj
  simp

theorem firstWarps_length (m : State) (l : LaunchRecord) (base : ℕ) : (firstWarps m l base).length = l.initw := by simp [firstWarps]

/-- The warps of a team that is placed are in their initial state, members of every barrier from its first phase (R96). -/
theorem seated_fresh {m : State} {l : LaunchRecord} {ps : List Warp} (hps : List.Forall₂ Seated (firstWarps m l base) ps) {i : ℕ} {w : Warp}
    (hw : ps[i]? = some w) :
    FreshWarp l base i (waymark m m.team.part l.entry).toNat w ∧ ∀ b, (w.part b).member = true ∧ (w.part b).first = 0 ∧ (w.part b).last = none := by
  obtain ⟨hi, rfl⟩ := List.getElem?_eq_some_iff.1 hw
  have hi' : i < (firstWarps m l base).length := hps.length_eq ▸ hi
  have hseat := hps.get hi' hi
  have hnew := firstWarps_get (List.getElem?_eq_getElem hi')
  simp only [List.get_eq_getElem] at hseat
  rw [hnew] at hseat
  refine ⟨hseat.fresh (newWarp_fresh _ _ _ _ _ _), fun b => ?_⟩
  rw [hseat.part, newWarp_part]
  exact ⟨rfl, rfl, rfl⟩

theorem teamOf_bar (s : State) (g : Grid) {b : ℕ} (hb : b < 16) : (teamOf s g).bar b = { e := g.launch.initw } := by
  change (List.replicate 16 ({ e := g.launch.initw } : Barrier)).getD b {} = _
  rw [List.getD_eq_getElem?_getD, List.getElem?_replicate, if_pos hb]
  rfl

theorem placedTeam_mem (hr : g.launch.rrecord = false) (hf : g.launch.rfollow = false) :
    (placedTeam s g x base).mem = s.mem.filter fun c => !inRange (Config.windowBase + base) g.launch.scratch c.1 := by
  have hw := (masters_waymarksMet { placingTeam s g base with nextTeam := s.nextTeam + 1 } g.part).team
  have hl : (waymarksMet { placingTeam s g base with nextTeam := s.nextTeam + 1 } g.part).team.launch = g.launch := by rw [hw]; rfl
  exact (settleTeam_mem 1 x base _ (by rw [hl, hr]) (by rw [hl, hf])).trans (waymarksMet_mem _ _)

/-- The scratchpad bytes of the place are zero, and every other byte is as it was (R96). -/
theorem placedTeam_bytes (hr : g.launch.rrecord = false) (hf : g.launch.rfollow = false) (a : ℕ) :
    cellRead (placedTeam s g x base).mem a = if inRange (Config.windowBase + base) g.launch.scratch a then 0#8 else cellRead s.mem a := by
  rw [placedTeam_mem hr hf, cellRead_filter s.mem fun a => !inRange (Config.windowBase + base) g.launch.scratch a]
  cases inRange (Config.windowBase + base) g.launch.scratch a <;> rfl

end

/-! ## A warp attached -/

/-- The warp that attaches to the focused team (R99). -/
def attached (s : State) : Warp :=
  let c := coreFor s
  { newWarp s.team.launch s.team.base (freeIndex s) (waymark s s.team.part s.team.launch.attach) c (freeSlot s c) with
    bars := Vector.ofFn fun b => { first := (s.team.bar b.val).p + 1 } }

theorem attached_fresh (s : State) :
    FreshWarp s.team.launch s.team.base (attached s).idx (waymark s s.team.part s.team.launch.attach).toNat (attached s) :=
  (newWarp_fresh _ _ _ _ (coreFor s) (freeSlot s (coreFor s))).placed rfl

theorem attached_part (s : State) {b : ℕ} (hb : b < 16) : (attached s).part b = { first := (s.team.bar b).p + 1 } := by
  simp [attached, Warp.part, hb]

/-- The index of the warp is the lowest that is free, where one is. -/
theorem freeIndex_lowest {s : State} {i : ℕ} (hi : i < 64) (hf : ∀ x ∈ s.mates, x.idx ≠ i) : freeIndex s ≤ i ∧ ∀ x ∈ s.mates, x.idx ≠ freeIndex s := by
  unfold freeIndex
  cases h : (List.range 64).find? fun i => !s.mates.any fun w => w.idx == i with
  | none => exact absurd hf (by simpa using List.find?_eq_none.1 h i (by simpa using hi))
  | some j =>
    obtain ⟨hj, -, hlow⟩ := List.find?_range_eq_some.1 h
    refine ⟨?_, by simpa using hj⟩
    by_contra hlt
    exact absurd hf (by simpa using hlow i (by simpa using hlt))

theorem foldl_barEvent (bs : List ℕ) (s : State) (f : Barrier → Barrier) :
    bs.foldl (fun s b => barEvent s b f) s = { s with team := { s.team with bars := (bs.foldl (fun s b => barEvent s b f) s).team.bars } } := by
  induction bs generalizing s with
  | nil => rfl
  | cons b rest ih => rw [List.foldl_cons, ih]; rfl

/-- The log of an attach, and the errors met as its address was mapped. -/
def attachLogged (s : State) : State := waymarksMet (logEntry s (teamEntry s 4 (attached s).idx 0 0#64)) s.team.part

theorem attachWarp_eq (s : State) : attachWarp s =
    (List.range 16).foldl (fun s b => barEvent s b id) ((attachLogged s).onTeam fun t => { t with peers := t.peers ++ [attached s] }) := rfl

theorem masters_attachLogged (s : State) : SameMasters s (attachLogged s) := (masters_logEntry s _).trans (masters_waymarksMet _ _)

/-- An attach adds its warp to the team and tests every barrier; nothing else of the teams changes. -/
theorem attachWarp_teams (s : State) :
    (attachWarp s).team.peers = s.team.peers ++ [attached s] ∧ (attachWarp s).warp = s.warp ∧ (attachWarp s).teams = s.teams := by
  have h := masters_attachLogged s
  rw [attachWarp_eq, foldl_barEvent]
  exact ⟨congrArg (fun t : Team => t.peers ++ [attached s]) h.team, h.warp, h.teams⟩

theorem attachWarp_mem {s : State} (hr : s.team.launch.rrecord = false) : (attachWarp s).mem = s.mem := by
  rw [attachWarp_eq, foldl_barEvent]
  change (attachLogged s).mem = s.mem
  rw [attachLogged, waymarksMet_mem, logEntry, if_neg (by simp [hr])]

theorem exec_schedulerAttach {s : State} (hs : s.team.status = .running) :
    exec (.schedulerAttach s.team.tid) s = .next (if mayAttach s then attachWarp s else s) := by
  change execSchedulerAttach s.team.tid s = _
  simp [execSchedulerAttach, withTeam, hs]

end Sys2Proof.Machine
end

section
/-! PROOF. A team completed, and its grid with it (05_teams_and_warps.md R90, R103). -/
namespace Sys2Proof.Machine
open Sys2Proof

/-! ## A team that is no more -/

/-- No team with a number is placed, saved or in focus. -/
def NoTeam (n : ℕ) (s : State) : Prop := ∀ t ∈ allTeams s, t.status ≠ .absent → t.tid ≠ n

/-- The team that goes back among the others keeps its number and its status. -/
theorem mem_unfocus_teams {s : State} {t : Team} (h : t ∈ (unfocus s).teams) : t ∈ s.teams ∨ (t.tid = s.team.tid ∧ t.status = s.team.status) := by
  unfold unfocus at h
  simp only at h
  split at h
  all_goals
    split at h
    · exact .inl h
    · rcases List.mem_cons.1 h with rfl | h
      · exact .inr ⟨rfl, rfl⟩
      · exact .inl h

section
variable {n : ℕ} {s : State} (h : NoTeam n s)
include h

theorem NoTeam.unfocus : NoTeam n (Machine.unfocus s) := by
  intro t ht hs
  rcases List.mem_cons.1 ht with rfl | ht
  · exact absurd rfl hs
  · rcases mem_unfocus_teams ht with ht | ⟨hi, hst⟩
    · exact h t (List.mem_cons_of_mem _ ht) hs
    · exact hi ▸ h s.team List.mem_cons_self (hst ▸ hs)

theorem NoTeam.focusTeam (tid : ℕ) : NoTeam n (Machine.focusTeam s tid) := by
  have hu := h.unfocus
  unfold Machine.focusTeam
  simp only
  split
  · rename_i u hf
    intro t ht hs
    rcases List.mem_cons.1 ht with rfl | ht
    · exact hu _ (List.mem_cons_of_mem _ (List.mem_of_find?_eq_some hf)) hs
    · exact hu t (List.mem_cons_of_mem _ (List.mem_of_mem_filter ht)) hs
  · exact hu

theorem NoTeam.focusOn (r : WarpRef) : NoTeam n (Machine.focusOn s r) := by
  have hf := h.focusTeam r.team
  unfold Machine.focusOn
  split
  · exact h
  · simp only
    split
    · intro t ht hs
      rcases List.mem_cons.1 ht with rfl | ht
      · exact hf (Machine.focusTeam s r.team).team List.mem_cons_self hs
      · exact hf t (List.mem_cons_of_mem _ ht) hs
    · exact hf

theorem NoTeam.refocus (old : State) : NoTeam n (Machine.refocus old s) := by
  unfold Machine.refocus
  split
  · exact h.unfocus
  · split
    · exact h.focusTeam _
    · exact h.focusOn _

end

/-! ## Grids that complete -/

theorem endGrid_team (s : State) (g : Grid) (status : ℕ) : (endGrid s g status).team = s.team := by
  unfold endGrid
  simp only
  split <;> simp only [onLaunch, onPart_team, (masters_writeCompletion s g status).team]

theorem finishGrids_teams (s : State) : (finishGrids s).team = s.team ∧ (finishGrids s).teams = s.teams :=
  List.foldlRecOn (motive := fun u : State => u.team = s.team ∧ u.teams = s.teams) _ _ ⟨rfl, rfl⟩
    fun u hu g _ => ⟨(endGrid_team u g _).trans hu.1, (endGrid_teams u g _).trans hu.2⟩

/-- A grid that is alone and not done stays. -/
theorem finishGrids_waits {s : State} {g : Grid} (hg : s.grids = [g]) (hd : gridDone s g = false) : finishGrids s = s := by
  simp [finishGrids, hg, hd]

theorem finishGrids_ends {s : State} {g : Grid} (hg : s.grids = [g]) (hd : gridDone s g = true) : finishGrids s = endGrid s g g.status := by
  simp [finishGrids, hg, hd]

/-! ## The completion of a team -/

/-- The copy faults of a team reported. -/
def reported (s : State) (x : Team) : State := (unreported x).foldl (fun s e => postManifest s x.part (typeTwo x e.1 e.2)) s

/-- A team that is over is gone, its copy faults reported and its grid told; the grids that are done have not completed yet. -/
def teamGone (s : State) (x : Team) : State :=
  let u := freeResident (reported s x) x.tid x.site.cores
  changeGrid { u with teams := u.teams.filter fun t => t.tid != x.tid } x.gid fun g => g.teamDone x

theorem completeTeam_eq (s : State) (x : Team) : completeTeam s x = finishGrids (teamGone s x) := rfl

section
variable {s : State} {x : Team}

theorem masters_reported (s : State) (x : Team) : SameMasters s (reported s x) := by
  unfold reported
  generalize unreported x = es
  induction es generalizing s with
  | nil => exact .refl s
  | cons e rest ih => exact (masters_postManifest s x.part (typeTwo x e.1 e.2)).trans (ih _)

theorem masters_teamFreed (s : State) (x : Team) : SameMasters s (freeResident (reported s x) x.tid x.site.cores) :=
  (masters_reported s x).trans (masters_freeResident _ _ _)

theorem teamGone_team (s : State) (x : Team) : (teamGone s x).team = s.team := (masters_teamFreed s x).team

theorem teamGone_teams (s : State) (x : Team) : (teamGone s x).teams = s.teams.filter fun t => t.tid != x.tid :=
  congrArg (List.filter fun t : Team => t.tid != x.tid) (masters_teamFreed s x).teams

theorem teamGone_grids {y : Grid} (hg : s.grids = [y]) (hy : y.gid = x.gid) : (teamGone s x).grids = [y.teamDone x] := by
  have h := (masters_teamFreed s x).grids
  rw [hg] at h
  simp only [teamGone, changeGrid, h, List.map_cons, List.map_nil, hy, beq_self_eq_true, if_true]

theorem teamGone_parts (hu : unreported x = []) : (teamGone s x).parts = s.parts := by
  simp only [teamGone, reported, hu, List.foldl_nil, changeGrid]
  exact List.foldlRecOn (motive := fun u : State => u.parts = s.parts) _ _ rfl fun u hu _ _ => hu

theorem exec_teamComplete (hx : ((unfocus s).teams.find? fun y => y.tid == x.tid) = some x) (hp : x.peers = []) (hm : x.miles = [])
    (hl : x.late = []) (hc : ∀ c ∈ s.copies, c.ref.team ≠ x.tid) :
    exec (.teamComplete x.tid) s = .next (refocus s (completeTeam (unfocus s) x)) := by
  have ho : teamOver (unfocus s) x = true := by
    have hcs : (unfocus s).copies = s.copies := rfl
    simpa [teamOver, hp, hm, hl, hcs] using hc
  change execTeamComplete x.tid s = _
  simp only [execTeamComplete, hx, ho, if_true]

theorem completeTeam_noTeam (s : State) (x : Team) : NoTeam x.tid (completeTeam (unfocus s) x) := by
  obtain ⟨hteam, hteams⟩ := finishGrids_teams (teamGone (unfocus s) x)
  intro t ht hs
  rw [completeTeam_eq, allTeams, hteam, hteams, teamGone_team, teamGone_teams] at ht
  rcases List.mem_cons.1 ht with rfl | ht
  · exact absurd rfl hs
  · simpa using (List.mem_filter.1 ht).2

/-- A grid with teams to place stays, and counts the team that has completed. -/
theorem completeTeam_counted {y : Grid} (hg : s.grids = [y]) (hy : y.gid = x.gid) (he : y.ended = false) (hn : y.next < y.launch.total) :
    (completeTeam s x).grids = [y.teamDone x] := by
  have hgone := teamGone_grids hg hy
  have hd : gridDone (teamGone s x) (y.teamDone x) = false := by
    have hne : (y.next == y.launch.total) = false := by simpa using hn.ne
    simp [gridDone, Grid.teamDone, he, hne]
  rw [completeTeam_eq, finishGrids_waits hgone hd, hgone]

section
variable {y : Grid} (hg : s.grids = [y]) (hy : y.gid = x.gid) (hn : y.next = y.launch.total) (ht : y.teams + 1 = y.next)
  (hr : y.launch.comprec = 0#64) (hu : unreported x = []) (hm : ∀ m ∈ (partOf s y.part).manifests, m.who ≠ .grid y.gid)
include hg hy hn ht hr hu hm

/-- The last team of a grid completes it (R90). -/
theorem completeTeam_last : completeTeam s x = endGrid (teamGone s x) (y.teamDone x) (y.teamDone x).status := by
  have hp : partOf (teamGone s x) y.part = partOf s y.part := congrArg (·.get y.part.toFin) (teamGone_parts hu)
  have hd : gridDone (teamGone s x) (y.teamDone x) = true := by
    simpa [gridDone, Grid.teamDone, recordHeld, hr, hn, ht, hp] using hm
  rw [completeTeam_eq, finishGrids_ends (teamGone_grids hg hy) hd]

theorem completeTeam_ended : (completeTeam s x).grids = [] := by
  rw [completeTeam_last hg hy hn ht hr hu hm, endGrid_grids, teamGone_grids hg hy]
  simp

theorem completeTeam_id (hv : y.launch.donev = true) :
    launchChan (completeTeam s x) y.part y.launch.donech = (launchChan s y.part y.launch.donech).complete y.doneId := by
  have hc : launchChan (teamGone s x) y.part y.launch.donech = launchChan s y.part y.launch.donech := by
    rw [launchChan, launchChan, partOf, partOf, teamGone_parts hu]
  rw [completeTeam_last hg hy hn ht hr hu hm, ← hc]
  exact endGrid_chan (teamGone s x) (g := y.teamDone x) _ hv

end

end

end Sys2Proof.Machine
end

section
/-! PROOF. The events of the caravan masters (O44). -/
namespace Sys2Proof.Machine
open Sys2Proof

section
variable {s s1 : State} {h : Ready1} (hc : computeOn s = true) (hb : ∀ x ∈ allQueues, queueHead s x.1 x.2 ≠ .broken)
  (hp : pickHead s (readyHeads s) = some h) (ht : takeHead s.draw h = some s1)
include hc hb hp ht

/-- A record begins: its grid has the ID that its launch channel gives out (R89, R93). -/
theorem recordTake_begun (h0 : recordStatus s.draw h.bytes (gridOf s h) = 0) (hl : (launchOf h.bytes).coop = false) :
    ∃ t, exec .recordTake s = .next t ∧ t = { s1 with grids := s.grids ++ [gridOf s h], nextGrid := s.nextGrid + 1, parts := t.parts } ∧
      (launchChan t h.part (launchOf h.bytes).donech).n =
        if (launchOf h.bytes).donev then ((launchChan s h.part (launchOf h.bytes).donech).n + 1) % 2 ^ 48
        else (launchChan s h.part (launchOf h.bytes).donech).n := by
  have hm := masters_takeHead ht
  refine ⟨{ giveId s1 (gridOf s h) with grids := s.grids ++ [gridOf s h] }, ?_, ?_, ?_⟩
  · rw [exec_recordTake hc hb hp, takeRecord_begun hc ht h0 hl]
  · rw [giveId_eq, hm.nextGrid]
    rfl
  · have hn := giveId_chan s1 (gridOf s h)
    rw [hm.launchChan] at hn
    refine (congrArg LaunchChannel.n hn).trans ?_
    exact apply_ite LaunchChannel.n _ _ _

/-- A record rejected: its ID is completed, or its grid waits for the place of its completion record (R87, R90). -/
theorem recordTake_rejected (h0 : recordStatus s.draw h.bytes (gridOf s h) ≠ 0) :
    ∃ t, exec .recordTake s = .next t ∧ t.teams = s.teams ∧ (partOf t h.part).intstat.getLsbD 0 = true ∧
      (recordHeld (giveId s1 (gridOf s h)) h.part (launchOf h.bytes) = false → (∀ y ∈ t.grids, y ∈ s.grids) ∧
        ((launchOf h.bytes).donev = true → launchChan t h.part (launchOf h.bytes).donech =
          ({ launchChan s h.part (launchOf h.bytes).donech with
            n := ((launchChan s h.part (launchOf h.bytes).donech).n + 1) % 2 ^ 48 } : LaunchChannel).complete
              (launchChan s h.part (launchOf h.bytes).donech).n)) ∧
      (recordHeld (giveId s1 (gridOf s h)) h.part (launchOf h.bytes) = true →
        t.grids = s.grids ++ [{ gridOf s h with ended := true, refusal := some (recordStatus s.draw h.bytes (gridOf s h)) }]) := by
  have hm := masters_takeHead ht
  generalize hst : recordStatus s.draw h.bytes (gridOf s h) = st at h0
  let r := rejectGrid (giveId s1 (gridOf s h)) (gridOf s h) st
  have hi : SameMasters r (interrupt r h.part 0) := masters_interrupt r h.part 0
  have hgrids : (giveId s1 (gridOf s h)).grids = s.grids := by rw [giveId_eq]; exact hm.grids
  refine ⟨interrupt r h.part 0, ?_, ?_, interrupt_raised r h.part 0 (by decide), fun hf => ⟨fun y hy => ?_, fun hv => ?_⟩, fun hh => ?_⟩
  · rw [exec_recordTake hc hb hp, takeRecord_rejected hc ht (by rw [hst]; exact h0), hst]
  · rw [hi.teams]
    refine (rejectGrid_teams _ _ _).trans ?_
    rw [giveId_eq]
    exact hm.teams
  · rw [hi.grids] at hy
    change y ∈ (rejectGrid _ _ _).grids at hy
    rw [rejectGrid_free hf, endGrid_grids, hgrids] at hy
    exact List.mem_of_mem_filter hy
  · rw [hi.launchChan]
    change launchChan (rejectGrid _ _ _) _ _ = _
    rw [rejectGrid_free hf]
    refine (endGrid_chan _ (g := gridOf s h) st hv).trans ?_
    have hd : (gridOf s h).doneId = (launchChan s h.part (launchOf h.bytes).donech).n := if_pos hv
    rw [giveId_chan, hm.launchChan, hd]
    exact congrArg (LaunchChannel.complete · _) (if_pos hv)
  · rw [hi.grids]
    change (rejectGrid _ _ _).grids = _
    rw [rejectGrid_held hh, ← hgrids]

end

/-- A team that is placed: its warps in their initial state, its barriers, its scratchpad bytes, its grid counted on (R94, R96). -/
theorem teamPlacement_places {s : State} {g : Grid} {x : Site} {base : ℕ} (hg : (s.grids.find? fun y => y.gid == g.gid) = some g)
    (hm : mayPlace s g = true) (hx : siteFor { unfocus s with team := teamOf s g } g.launch.initw [] = some (x, base)) :
    ∃ v, exec (.teamPlacement g.gid) s = .next (refocus s v) ∧ v.warp = {} ∧ v.teams = (unfocus s).teams ∧ v.nextTeam = s.nextTeam + 1 ∧
      v.grids = s.grids.map (fun y => if y.gid = g.gid then { y with next := y.next + 1 } else y) ∧
      v.team = { teamOf s g with
        site := x, base := base, status := .running, order := s.nextPlace, placements := 1, peers := v.team.peers } ∧
      (∀ b, b < 16 → v.team.bar b = { e := g.launch.initw }) ∧ v.team.peers.length = g.launch.initw ∧
      (∀ i w, v.team.peers[i]? = some w → FreshWarp g.launch base i (waymark (placingTeam s g base) g.part g.launch.entry).toNat w ∧
        ∀ b, b < 16 → (w.part b).member = true ∧ (w.part b).first = 0 ∧ (w.part b).last = none) ∧
      (g.launch.rrecord = false → g.launch.rfollow = false →
        (∀ a, Config.windowBase + base ≤ a → a < Config.windowBase + base + g.launch.scratch → cellRead v.mem a = 0#8) ∧
        ∀ a, (a < Config.windowBase + base ∨ Config.windowBase + base + g.launch.scratch ≤ a) → cellRead v.mem a = cellRead s.mem a) := by
  obtain ⟨ps, hps, hv⟩ := placedTeam_masters s g x base
  have hpeers : (placedTeam s g x base).team.peers = ps := congrArg Team.peers hv.team
  refine ⟨placedTeam s g x base, exec_teamPlacement hg hm hx, hv.warp, hv.teams, hv.nextTeam, hv.grids, by rw [hpeers]; exact hv.team,
    fun b hb => ?_, ?_, fun i w hw => ?_, fun hr hf => ⟨fun a hlo hhi => ?_, fun a ha => ?_⟩⟩
  · rw [hv.team]
    exact teamOf_bar s g hb
  · rw [hpeers, ← hps.length_eq, firstWarps_length]
  · rw [hpeers] at hw
    obtain ⟨hfresh, hbars⟩ := seated_fresh hps hw
    exact ⟨hfresh, fun b _ => hbars b⟩
  · rw [placedTeam_bytes hr hf, if_pos (by simp [inRange, hlo, hhi])]
  · have hout : inRange (Config.windowBase + base) g.launch.scratch a = false := by
      rw [inRange, Bool.and_eq_false_iff, decide_eq_false_iff_not, decide_eq_false_iff_not]
      omega
    rw [placedTeam_bytes hr hf, if_neg (by simp [hout])]

/-- Settles O44: the events of queues, of records, of placements and attaches, and of the completion of a team, each by the lemmas of its part. -/
theorem placementEvents : Obligations.PlacementEvents := by
  unfold Obligations.PlacementEvents
  refine ⟨fun s p q d hh hr => ?_, fun s => ⟨fun h s1 hc hb hp ht => ⟨fun h0 hl => ?_, fun t h0 hl hw => ?_, fun h0 => ?_⟩,
    exec_recordTake_off, fun g x base hg hm hx => ?_, fun hs hm => ?_, fun hs hm => ?_, fun x hx hpe hmi hla hco => ?_⟩⟩
  · refine ⟨fun hs hf => ?_, fun hs hf => ⟨_, ?_, observeQueue_fails hr hf⟩, fun hs => ?_, fun he => ?_, fun he => ?_,
      fun hs he herr hf => ?_, fun hs he herr hf hc => ?_, fun hs he herr hf => ⟨_, exec_queueEnableWrite hh hr hs he, ?_⟩,
      exec_queueEnableWrite_idle hr⟩
    · rw [exec_tailObserved hh, if_pos hs, observeQueue_sound hr hf, ← hs]
      rfl
    · rw [exec_tailObserved hh, if_pos hs]
    · rw [exec_tailObserved hh, if_neg (by simp [hs])]
    · rw [exec_queueDisableWrite hh hr, if_neg (by simp [he])]
      rfl
    · rw [exec_queueDisableWrite hh hr, if_pos he]
    · rw [exec_queueEnableWrite hh hr hs he, if_pos herr, observe_enabled hr hf]
      rfl
    · rw [exec_queueEnableWrite hh hr hs he, if_neg herr, observe_enabled hc (by simpa [QueueDesc.fault, QueueDesc.sized] using hf)]
      rfl
    · rw [if_pos herr]
      exact observe_enabled_fails hr hf
  · obtain ⟨t, hx, hfr, hn⟩ := recordTake_begun hc hb hp ht h0 hl
    have hm := masters_takeHead ht
    exact ⟨t, hx, hfr, hm.team, hm.warp, hm.teams, rfl, rfl, rfl, hn⟩
  · rw [exec_recordTake hc hb hp, takeRecord_whole hc ht h0 hl hw]
  · exact recordTake_rejected hc hb hp ht h0
  · exact teamPlacement_places hg hm hx
  · obtain ⟨hpeers, hwarp, hteams⟩ := attachWarp_teams s
    refine ⟨attachWarp s, attached s, by rw [exec_schedulerAttach hs, if_pos hm], hpeers, hwarp, hteams, attached_fresh s,
      fun i hi hf => freeIndex_lowest hi hf, fun b hb => ?_, attachWarp_mem⟩
    rw [attached_part s hb]
    exact ⟨rfl, rfl, rfl⟩
  · rw [exec_schedulerAttach hs, if_neg (by simp [hm])]
  · have hmoved := refocus_moved s (completeTeam (unfocus s) x)
    refine ⟨_, exec_teamComplete hx hpe hmi hla hco, (completeTeam_noTeam s x).refocus s, fun y hg hy => ⟨fun he hn => ?_, fun hn ht hr hu hm => ?_⟩⟩
    · exact ⟨y.teamDone x, (congrArg State.grids hmoved).trans (completeTeam_counted (s := unfocus s) hg hy he hn), rfl, rfl⟩
    · exact ⟨(congrArg State.grids hmoved).trans (completeTeam_ended (s := unfocus s) hg hy hn ht hr hu hm),
        fun hv => (congrArg (launchChan · y.part y.launch.donech) hmoved).trans (completeTeam_id (s := unfocus s) hg hy hn ht hr hu hm hv)⟩

end Sys2Proof.Machine
end

section
/-! PROOF. The placement of clauses (03_assembly_language.md R60): the padding before a clause, the place it takes, and the clauses behind it. -/
namespace Sys2Proof.Ghas
open Sys2Proof Sys2Proof.Laws

/-- Every placed clause stands within one block, and no header position is left 8 bytes before a block end (R29, R60). -/
def Asm.Fitting (a : Asm) : Prop := a.pos % 8 = 0 ∧ a.pos % 4096 ≠ 4088 ∧ ∀ c ∈ a.placed, Fits c

/-- A clause of n words may stand at the next header position. -/
structure Asm.Room (a : Asm) (n : Nat) : Prop where
  aligned : a.pos % 8 = 0
  nonempty : 1 ≤ n
  short : n ≤ 7
  inside : a.pos % 4096 + 8 * (n + 1) ≤ 4096
  leaves : (a.pos + 8 * (n + 1)) % 4096 ≠ 4088

/-- The header that an open clause is placed with, its words not yet counted. -/
def OpenClause.header (o : OpenClause) : Header where
  n := 0#3
  wait := BitVec.ofNat 12 o.wait
  setA := BitVec.ofNat 4 o.setA
  setB := BitVec.ofNat 4 o.setB
  yld := BitVec.ofNat 2 o.yld
  cls := BitVec.ofNat 3 (o.cls.getD (sharedClass o.words))
  zero := 0#28

/-- The clause that `put` sets at the next header position. -/
def Asm.putClause (a : Asm) (h : Header) (ws : List (Option Draft)) : PlacedClause where
  offset := a.pos
  header := { h with n := BitVec.ofNat 3 ws.length }
  words := ws

@[simp] theorem Asm.put_pos (a : Asm) (h : Header) (ws : List (Option Draft)) : (a.put h ws).pos = a.pos + 8 * (ws.length + 1) := rfl

@[simp] theorem Asm.put_placed (a : Asm) (h : Header) (ws : List (Option Draft)) :
    (a.put h ws).placed = a.placed ++ [a.putClause h ws] := rfl

/-- Naming the labels of a header position leaves its room. -/
theorem Asm.Room.settle {a : Asm} {n : Nat} (r : a.Room n) : a.settle.Room n :=
  ⟨r.aligned, r.nonempty, r.short, r.inside, r.leaves⟩

/-- A clause that has room stands within one block, its words counted in its header. -/
theorem Asm.Room.fits {a : Asm} {ws : List (Option Draft)} (r : a.Room ws.length) (h : Header) : Fits (a.putClause h ws) := by
  have hn : (BitVec.ofNat 3 ws.length).toNat = ws.length := by
    rw [BitVec.toNat_ofNat]
    exact Nat.mod_eq_of_lt (Nat.lt_succ_of_le r.short)
  exact ⟨r.aligned, r.nonempty, r.short, hn, r.inside⟩

/-- A clause set where it has room, behind clauses that fit. -/
theorem Asm.Room.put_fitting {a : Asm} {ws : List (Option Draft)} (r : a.Room ws.length) (h : Header) (hp : ∀ c ∈ a.placed, Fits c) :
    (a.put h ws).Fitting := by
  have ha := r.aligned
  refine ⟨by rw [put_pos]; omega, r.leaves, fun c hc => ?_⟩
  rcases List.mem_append.mp hc with hc | hc
  · exact hp c hc
  · rw [List.mem_singleton.mp hc]
    exact r.fits h

/-- A header position that fits leaves at least 16 bytes in its block. -/
theorem Asm.Fitting.rest_ge {a : Asm} (ha : a.Fitting) : 16 ≤ a.rest := by
  obtain ⟨h8, hend, -⟩ := ha
  unfold rest
  omega

/-- Rules 1 and 2 of R60: a span that the block holds has room where it leaves no 8 bytes. -/
theorem Asm.Fitting.room {a : Asm} (ha : a.Fitting) {n : Nat} (h1 : 1 ≤ n) (h7 : n ≤ 7) (hr : 8 * (n + 1) ≤ a.rest)
    (hne : a.rest - 8 * (n + 1) ≠ 8) : a.Room n := by
  have h8 := ha.1
  unfold rest at hr hne
  exact ⟨h8, h1, h7, by omega, by omega⟩

/-- Rules 3 and 4 of R60: the rest of the block filled with padding clauses leaves a block start, where a clause has room. -/
theorem Asm.Fitting.fill_rest {a : Asm} (ha : a.Fitting) {n : Nat} (h1 : 1 ≤ n) (h7 : n ≤ 7) :
    ∃ pads, (a.fill 64 a.rest).placed = a.placed ++ pads ∧ (∀ p ∈ pads, Fits p ∧ IsPadding p) ∧ (a.fill 64 a.rest).Room n := by
  have h16 := ha.rest_ge
  have h8 := ha.1
  have hrest : a.rest = 4096 - a.pos % 4096 := rfl
  obtain ⟨pads, hfill, hpads⟩ := fill_spec 64 a a.rest (by omega) h16 (by omega) h8 (by omega)
  have hstart : (a.fill 64 a.rest).pos % 4096 = 0 := by
    rw [hfill]
    show (a.pos + a.rest) % 4096 = 0
    omega
  exact ⟨pads, by rw [hfill], hpads, by omega, h1, h7, by omega, by omega⟩

/-- What placing can do: padding clauses or none, then the clause where it has room, an automatic one perhaps with a `NOP` more. -/
theorem Asm.Fitting.place_cases {a : Asm} (ha : a.Fitting) {o : OpenClause} (h1 : 1 ≤ o.words.length) (h7 : o.words.length ≤ 7) :
    ∃ (b : Asm) (pads : List PlacedClause) (ws : List (Option Draft)), a.place o = b.put o.header ws ∧ b.placed = a.placed ++ pads ∧ (∀ p ∈ pads, Fits p ∧ IsPadding p) ∧ b.Room ws.length ∧
      (ws = o.words.map some ∨ o.auto = true ∧ ws = o.words.map some ++ [none]) := by
  have hlen : (o.words.map some).length = o.words.length := List.length_map _
  unfold place
  dsimp only
  split
  next hroom =>
    exact ⟨a.settle, [], _, rfl, (List.append_nil _).symm, by simp, (ha.room (hlen ▸ h1) (hlen ▸ h7) hroom.1 hroom.2).settle, .inl rfl⟩
  next htight =>
    split
    next hauto =>
      obtain ⟨hspan, hauto, hfew⟩ := hauto
      have hnop : (o.words.map some ++ [none]).length = o.words.length + 1 := by simp
      have hroom : a.Room (o.words.map some ++ [none]).length := ha.room (by omega) (by omega) (by omega) (by omega)
      exact ⟨a.settle, [], _, rfl, (List.append_nil _).symm, by simp, hroom.settle, .inr ⟨hauto, rfl⟩⟩
    next =>
      obtain ⟨pads, hplaced, hpads, hroom⟩ := ha.fill_rest (hlen ▸ h1) (hlen ▸ h7)
      exact ⟨(a.fill 64 a.rest).settle, pads, _, rfl, hplaced, hpads, hroom.settle, .inl rfl⟩

/-- Settles O53: each rule of R60 sets the clause where it has room, behind padding clauses that fill the block or behind none. -/
theorem clausesPlaced : Obligations.ClausesPlaced := by
  unfold Obligations.ClausesPlaced
  intro fits a o ha h1 h7
  have hfit : a.Fitting := ha
  obtain ⟨b, pads, ws, hplace, hplaced, hpads, hroom, hws⟩ := hfit.place_cases h1 h7
  have hall : ∀ c ∈ b.placed, Fits c := by
    rw [hplaced]
    exact List.forall_mem_append.mpr ⟨hfit.2.2, fun p hp => (hpads p hp).1⟩
  rw [hplace]
  exact ⟨hroom.put_fitting o.header hall, pads, b.putClause o.header ws, by rw [Asm.put_placed, hplaced], rfl,
    fun p hp => (hpads p hp).2, hws, rfl, rfl, rfl⟩

end Sys2Proof.Ghas
end

section
/-! PROOF. The values of the scalar words at every width (04_scalar_and_flow.md R76 to R78): each operation on bit vectors as the integer formula of its rule. -/
namespace Sys2Proof.Machine
open Sys2Proof

/-! ## Arithmetic and shifts (R76) -/

/-- A signed addend, taken modulo 2^n. -/
theorem add_ofInt_eq_ofInt {n : Nat} (x : BitVec n) (k : Int) : x + BitVec.ofInt n k = BitVec.ofInt n ((x.toNat : Int) + k) := by
  rw [BitVec.ofInt_add, BitVec.ofInt_natCast, BitVec.ofNat_toNat, BitVec.setWidth_eq]

theorem sub_eq_ofInt {n : Nat} (x y : BitVec n) : x - y = BitVec.ofInt n ((x.toNat : Int) - y.toNat) := by
  refine (BitVec.eq_sub_iff_add_eq.2 ?_).symm
  rw [BitVec.add_comm, add_ofInt_eq_ofInt, add_sub_cancel, BitVec.ofInt_natCast, BitVec.ofNat_toNat, BitVec.setWidth_eq]

theorem shiftLeft_eq_ofNat {n : Nat} (x : BitVec n) (k : Nat) : x <<< k = BitVec.ofNat n (x.toNat * 2 ^ k) := by
  rw [← Nat.shiftLeft_eq]
  rfl

theorem ushiftRight_eq_ofNat {n : Nat} (x : BitVec n) (k : Nat) : x >>> k = BitVec.ofNat n (x.toNat / 2 ^ k) := by
  rw [← Nat.shiftRight_eq_div_pow, ← BitVec.toNat_ushiftRight, BitVec.ofNat_toNat, BitVec.setWidth_eq]

theorem sshiftRight_eq_ofInt {n : Nat} (x : BitVec n) (k : Nat) : x.sshiftRight k = BitVec.ofInt n (x.toInt / 2 ^ k) := by
  rw [← Nat.cast_ofNat, ← Nat.cast_pow, ← Int.shiftRight_eq_div_pow]
  rfl

/-! ## Minima and maxima (R76) -/

theorem below_signed {n : Nat} (x y : BitVec n) : below .signed x y = true ↔ x.toInt < y.toInt := decide_eq_true_iff

theorem below_unsigned {n : Nat} (x y : BitVec n) : below .unsigned x y = true ↔ x.toNat < y.toNat := decide_eq_true_iff

theorem min_signed {n : Nat} (x y : BitVec n) : (if below .signed y x then y else x) = BitVec.ofInt n (min x.toInt y.toInt) := by
  simp only [below_signed, min_comm x.toInt, min_def_lt, apply_ite (BitVec.ofInt n), BitVec.ofInt_toInt]

theorem min_unsigned {n : Nat} (x y : BitVec n) : (if below .unsigned y x then y else x) = BitVec.ofNat n (min x.toNat y.toNat) := by
  simp only [below_unsigned, min_comm x.toNat, min_def_lt, apply_ite (BitVec.ofNat n), BitVec.ofNat_toNat, BitVec.setWidth_eq]

theorem max_signed {n : Nat} (x y : BitVec n) : (if below .signed x y then y else x) = BitVec.ofInt n (max x.toInt y.toInt) := by
  simp only [below_signed, max_def_lt, apply_ite (BitVec.ofInt n), BitVec.ofInt_toInt]

theorem max_unsigned {n : Nat} (x y : BitVec n) : (if below .unsigned x y then y else x) = BitVec.ofNat n (max x.toNat y.toNat) := by
  simp only [below_unsigned, max_def_lt, apply_ite (BitVec.ofNat n), BitVec.ofNat_toNat, BitVec.setWidth_eq]

/-! ## Bit counts (R76) -/

/-- Below 2^n the bits above the highest one bit are the zeros that lead. -/
theorem takeWhile_zeros_length : ∀ {n m : Nat}, m < 2 ^ n →
    ((List.range n).reverse.takeWhile fun i => !m.testBit i).length = if m = 0 then n else n - 1 - m.log2
  | 0, m, h => by simp
  | n + 1, m, h => by
    rw [List.range_succ, List.reverse_append, List.reverse_singleton, List.singleton_append]
    by_cases hm : m < 2 ^ n
    · have hlog : m ≠ 0 → m.log2 < n := fun h0 => (Nat.log2_lt h0).2 hm
      rw [List.takeWhile_cons_of_pos (by simp [Nat.testBit_lt_two_pow hm]), List.length_cons, takeWhile_zeros_length hm]
      split <;> omega
    · have hbit := Nat.testBit_of_two_pow_le_and_two_pow_add_one_gt (Nat.le_of_not_lt hm) h
      have h0 : m ≠ 0 := by rintro rfl; simp at hbit
      have hlog : m.log2 = n := (Nat.log2_eq_iff h0).2 ⟨Nat.le_of_not_lt hm, h⟩
      rw [List.takeWhile_cons_of_neg (by simp [hbit]), if_neg h0, hlog]
      simp

theorem leadingZeros_eq {n : Nat} (x : BitVec n) : leadingZeros x = ((List.range n).reverse.takeWhile fun i => !x.getLsbD i).length :=
  (takeWhile_zeros_length x.isLt).symm

theorem oneBits_eq {n : Nat} (x : BitVec n) : oneBits x = (List.range n).countP fun i => x.getLsbD i := List.countP_eq_length_filter.symm

/-! ## Conditions (R78) -/

theorem condHolds_iff {n : Nat} (x y : BitVec n) :
    (condHolds .eq x y = true ↔ x.toNat = y.toNat) ∧ (condHolds .ne x y = true ↔ x.toNat ≠ y.toNat) ∧
    (condHolds .lt x y = true ↔ x.toInt < y.toInt) ∧ (condHolds .le x y = true ↔ x.toInt ≤ y.toInt) ∧
    (condHolds .ltu x y = true ↔ x.toNat < y.toNat) ∧ (condHolds .leu x y = true ↔ x.toNat ≤ y.toNat) :=
  ⟨beq_iff_eq.trans BitVec.toNat_inj.symm, bne_iff_ne.trans BitVec.toNat_inj.symm.not, decide_eq_true_iff, decide_eq_true_iff,
    decide_eq_true_iff, decide_eq_true_iff⟩

/-! ## Division in a lane (R77, R84) -/

/-- The quotient of R77, by its sign and its magnitude, is the one that truncates toward zero. -/
theorem sign_mul_natAbs_div (a b : Int) : a.sign * b.sign * ((a.natAbs / b.natAbs : Nat) : Int) = a.tdiv b := by
  calc a.sign * b.sign * ((a.natAbs / b.natAbs : Nat) : Int)
      = a.sign * (b.sign * (Int.tdiv a.natAbs b.natAbs)) := by rw [mul_assoc]; rfl
    _ = (a.sign * a.natAbs).tdiv (b.sign * b.natAbs) := by
      rcases lt_trichotomy a 0 with ha | rfl | ha <;> rcases lt_trichotomy b 0 with hb | rfl | hb <;> simp [Int.sign_eq_one_of_pos, Int.sign_eq_neg_one_of_neg, *]
    _ = a.tdiv b := by rw [Int.sign_mul_natAbs, Int.sign_mul_natAbs]

/-- A lane's word as the number that R77 divides: extended by its sign, or by zeros. -/
def wideWord (sg : Sgn) (v : LaneWord) : Word :=
  match sg with
  | .signed => v.signExtend 64
  | .unsigned => v.setWidth 64

theorem toInt_wideWord (v : LaneWord) : (wideWord .signed v).toInt = v.toInt := BitVec.toInt_signExtend_of_le (by decide)

theorem toNat_wideWord (v : LaneWord) : (wideWord .unsigned v).toNat = v.toNat := BitVec.toNat_setWidth_of_le (by decide)

/-- No lane word is so low that the corner of the 64-bit division arises; the corner of the lane's own division is its quotient modulo 2^32. -/
theorem divide_signed (x y : LaneWord) : divide .signed 32 x y =
    if y.toInt = 0 then (BitVec.ofInt 32 (-1), BitVec.ofInt 32 x.toInt)
    else (BitVec.ofInt 32 (x.toInt.tdiv y.toInt), BitVec.ofInt 32 (x.toInt.tmod y.toInt)) := by
  have hy : y.toInt = 0 ↔ y = 0#32 := by rw [← BitVec.toInt_inj, BitVec.toInt_zero]
  simp only [divide, hy, BitVec.ofInt_toInt]
  split
  · rfl
  · split
    next hcorner =>
      obtain ⟨rfl, rfl⟩ : x = BitVec.intMin 32 ∧ y = BitVec.allOnes 32 := by simpa using hcorner
      decide
    next => rfl

theorem quotientOf_signed (x y : LaneWord) : quotientOf .signed (wideWord .signed x) (wideWord .signed y) =
    if y.toInt = 0 then -1 else x.toInt.tdiv y.toInt := by
  have hx := x.le_toInt
  have hcorner : x.toInt ≠ -2 ^ 63 := by omega
  simp only [quotientOf, toInt_wideWord, sign_mul_natAbs_div, hcorner, false_and, if_false]

theorem remainderOf_signed (x y : LaneWord) : remainderOf .signed (wideWord .signed x) (wideWord .signed y) =
    if y.toInt = 0 then x.toInt else x.toInt.tmod y.toInt := by
  have hx := x.le_toInt
  have hcorner : x.toInt ≠ -2 ^ 63 := by omega
  simp only [remainderOf, quotientOf_signed, toInt_wideWord, hcorner, false_and, if_false]
  split
  · rfl
  · rw [Int.tmod_def, mul_comm]

theorem divide_unsigned (x y : LaneWord) : divide .unsigned 32 x y =
    if y.toNat = 0 then (BitVec.ofInt 32 (2 ^ 64 - 1), BitVec.ofInt 32 x.toNat)
    else (BitVec.ofInt 32 (x.toNat / y.toNat : Nat), BitVec.ofInt 32 (x.toNat % y.toNat : Nat)) := by
  have hy : y.toNat = 0 ↔ y = 0#32 := by rw [← BitVec.toNat_inj, BitVec.toNat_ofNat, Nat.zero_mod]
  simp only [divide, hy, BitVec.ofInt_natCast, BitVec.ofNat_toNat, BitVec.setWidth_eq]
  rfl

/-- R77 in a lane: the quotient at 32 bits is that of the extended words, modulo 2^32. -/
theorem divide_quotient (sg : Sgn) (x y : LaneWord) :
    (divide sg 32 x y).1 = BitVec.ofInt 32 (quotientOf sg (wideWord sg x) (wideWord sg y)) := by
  cases sg with
  | signed =>
    rw [divide_signed, quotientOf_signed]
    split <;> rfl
  | unsigned =>
    simp only [divide_unsigned, quotientOf, toNat_wideWord]
    split <;> rfl

/-- R77 in a lane: the remainder at 32 bits is that of the extended words, modulo 2^32. -/
theorem divide_remainder (sg : Sgn) (x y : LaneWord) :
    (divide sg 32 x y).2 = BitVec.ofInt 32 (remainderOf sg (wideWord sg x) (wideWord sg y)) := by
  cases sg with
  | signed =>
    rw [divide_signed, remainderOf_signed]
    split <;> rfl
  | unsigned =>
    simp only [divide_unsigned, remainderOf, quotientOf, toNat_wideWord]
    split
    · rfl
    · rw [Int.natCast_mod, Int.emod_def, mul_comm, Int.natCast_ediv]

end Sys2Proof.Machine
end

section
/-! PROOF. The scalar words outside lane mode (04_scalar_and_flow.md R74 to R78; O1). -/
namespace Sys2Proof.Machine
open Sys2Proof

section Arms

/-! ## The scalar instructions by their form (R74): each a function of two operands, of one, or of one and an immediate -/

variable (s : State) (d a b c : BitVec 6) (imm : BitVec 32) (k : BitVec 6) (sg : Sgn) (cc : Cond)

theorem exec_mov_false : exec (.mov false d a) s = unary s d a fun _ x => x := rfl
theorem exec_movi : exec (.movi d imm) s = scalarWord s [d] d (imm.setWidth 64) fun _ => imm := rfl
theorem exec_add : exec (.add d a b) s = binary s d a b fun _ x y => x + y := rfl
theorem exec_sub : exec (.sub d a b) s = binary s d a b fun _ x y => x - y := rfl
theorem exec_mul : exec (.mul d a b) s = binary s d a b fun _ x y => x * y := rfl
theorem exec_mulhi : exec (.mulhi sg d a b) s = binary s d a b (mulHigh sg) := rfl
theorem exec_and : exec (.and d a b) s = binary s d a b fun _ x y => x &&& y := rfl
theorem exec_or : exec (.or d a b) s = binary s d a b fun _ x y => x ||| y := rfl
theorem exec_xor : exec (.xor d a b) s = binary s d a b fun _ x y => x ^^^ y := rfl
theorem exec_shl : exec (.shl d a b) s = binary s d a b fun n x y => x <<< (y.toNat % n) := rfl
theorem exec_shr : exec (.shr d a b) s = binary s d a b fun n x y => x >>> (y.toNat % n) := rfl
theorem exec_sar : exec (.sar d a b) s = binary s d a b fun n x y => x.sshiftRight (y.toNat % n) := rfl
theorem exec_min : exec (.min sg d a b) s = binary s d a b fun _ x y => if below sg y x then y else x := rfl
theorem exec_max : exec (.max sg d a b) s = binary s d a b fun _ x y => if below sg x y then y else x := rfl
theorem exec_cmp : exec (.cmp cc d a b) s = binary s d a b fun n x y => boolWord n (condHolds cc x y) := rfl
theorem exec_addi : exec (.addi d a imm) s = immediate s d a imm fun _ x y => x + y := rfl
theorem exec_andi : exec (.andi d a imm) s = immediate s d a imm fun _ x y => x &&& y := rfl
theorem exec_ori : exec (.ori d a imm) s = immediate s d a imm fun _ x y => x ||| y := rfl
theorem exec_xori : exec (.xori d a imm) s = immediate s d a imm fun _ x y => x ^^^ y := rfl
theorem exec_cmpi : exec (.cmpi cc d a imm) s = immediate s d a imm fun n x y => boolWord n (condHolds cc x y) := rfl
theorem exec_shli : exec (.shli d a k) s = shiftImm s d a k fun _ x k => x <<< k := rfl
theorem exec_shri : exec (.shri d a k) s = shiftImm s d a k fun _ x k => x >>> k := rfl
theorem exec_sari : exec (.sari d a k) s = shiftImm s d a k fun _ x k => x.sshiftRight k := rfl
theorem exec_clz : exec (.clz d a) s = unary s d a fun n x => BitVec.ofNat n (leadingZeros x) := rfl
theorem exec_popc : exec (.popc d a) s = unary s d a fun n x => BitVec.ofNat n (oneBits x) := rfl
theorem exec_sel : exec (.sel d a b c) s = scalarWord s [d, a, b, c] d
    (if s.warp.readS c ≠ 0#64 then s.warp.readS a else s.warp.readS b) fun l => if laneOf s c l ≠ 0#32 then laneOf s a l else laneOf s b l := rfl

end Arms

section Uniform

variable {i : Instr} {s : State} {regs : List (BitVec 6)} {d a b : BitVec 6} {v : Word}

/-! ## The forms of a scalar word (R74) -/

theorem gives_scalarWord {x : Word} {g : Nat → LaneWord} (hl : s.warp.lanes = none) (h : exec i s = scalarWord s regs d x g) (hv : x = v) :
    gives i s d v :=
  hv ▸ gives_of hl (h.trans (scalarWord_uniform hl ..))

theorem gives_binary {f : (n : Nat) → BitVec n → BitVec n → BitVec n} (hl : s.warp.lanes = none) (h : exec i s = binary s d a b f)
    (hv : f 64 (s.warp.readS a) (s.warp.readS b) = v) : gives i s d v :=
  gives_scalarWord hl h hv

theorem gives_immediate {f : (n : Nat) → BitVec n → BitVec n → BitVec n} {imm : BitVec 32} (hl : s.warp.lanes = none)
    (h : exec i s = immediate s d a imm f) (hv : f 64 (s.warp.readS a) (BitVec.ofInt 64 imm.toInt) = v) : gives i s d v :=
  gives_scalarWord hl h hv

theorem gives_unary {f : (n : Nat) → BitVec n → BitVec n} (hl : s.warp.lanes = none) (h : exec i s = unary s d a f)
    (hv : f 64 (s.warp.readS a) = v) : gives i s d v :=
  gives_scalarWord hl h hv

theorem gives_shiftImm {f : (n : Nat) → BitVec n → Nat → BitVec n} {k : BitVec 6} (hl : s.warp.lanes = none)
    (h : exec i s = shiftImm s d a k f) (hv : f 64 (s.warp.readS a) k.toNat = v) : gives i s d v :=
  gives_scalarWord hl h (by rwa [Nat.mod_eq_of_lt k.isLt])

/-- Outside lane mode a word that only vector mode permits passes its checks. -/
theorem uniformScalar_uniform (hl : s.warp.lanes = none) (regs : List (BitVec 6)) (f : State → State) :
    uniformScalar s regs f = .next (f s) :=
  guarded_pass (by simp [vectorOnly, inLanes_none _ hl])

/-- A word that only vector mode permits, with one destination. -/
theorem gives_uniformScalar {f : Warp → Word} (hl : s.warp.lanes = none)
    (h : exec i s = uniformScalar s regs fun s => (s.onWarp fun w => w.writeS d (f w)).advance) (hv : f s.warp = v) : gives i s d v :=
  hv ▸ gives_of hl (h.trans (uniformScalar_uniform hl ..))

/-- `NOP` outside lane mode goes on and changes nothing else. -/
theorem exec_nop_uniform (hl : s.warp.lanes = none) : ∃ t, exec .nop s = .next t ∧ t.warp.s = s.warp.s ∧
    t.warp.pending = s.warp.pending ∧ t.warp.pos = s.warp.pos.after ∧ UniformFrame s t := by
  obtain ⟨y, z, h⟩ := advance_uniform s.warp hl
  refine ⟨s.advance, rfl, ?_, ?_, ?_, ?_, ?_⟩ <;> simp only [State.advance, State.onWarp, h]

end Uniform

/-- The upper half given, the lower half kept (R75, `MOVHI`). -/
theorem append_setWidth_eq_ofNat (imm : BitVec 32) (x : Word) :
    imm ++ x.setWidth 32 = BitVec.ofNat 64 (imm.toNat * 2 ^ 32 + x.toNat % 2 ^ 32) := by
  apply BitVec.eq_of_toNat_eq
  have hlow := Nat.mod_lt x.toNat (Nat.two_pow_pos 32)
  rw [BitVec.toNat_append, BitVec.toNat_setWidth, ← Nat.shiftLeft_add_eq_or_of_lt hlow, Nat.shiftLeft_eq, BitVec.toNat_ofNat]
  omega

/-- Settles O1: each word writes the value of its form, and that value is the formula of its rule at n = 64. -/
theorem uniformResults : Obligations.UniformResults := by
  unfold Obligations.UniformResults
  refine ⟨fun s d a imm hl => ⟨?_, ?_, ?_, ?_⟩, fun s d a b hl => ⟨?_, ?_, ?_, ?_, ?_, ?_, ?_, ?_, ?_, ?_, ?_, ?_, ?_, ?_, ?_⟩,
    fun s d a b c imm k cc hl => ⟨?_, ?_, ?_, ?_, ?_, ?_, ?_, ?_, ?_, ?_, ?_, ?_, exec_nop_uniform hl⟩, fun _ => condHolds_iff⟩
  · exact gives_unary hl (exec_mov_false ..) rfl
  · exact gives_scalarWord hl (exec_movi ..) (BitVec.ofNat_toNat ..).symm
  · exact gives_uniformScalar hl rfl (append_setWidth_eq_ofNat ..)
  · exact gives_uniformScalar hl rfl (by rw [at_uniform _ hl]; rfl)
  · exact gives_binary hl (exec_add ..) rfl
  · exact gives_binary hl (exec_sub ..) (sub_eq_ofInt ..)
  · exact gives_binary hl (exec_mul ..) rfl
  · exact gives_binary hl (exec_mulhi ..) rfl
  · exact gives_binary hl (exec_mulhi ..) rfl
  · exact gives_binary hl (exec_and ..) rfl
  · exact gives_binary hl (exec_or ..) rfl
  · exact gives_binary hl (exec_xor ..) rfl
  · exact gives_binary hl (exec_shl ..) (shiftLeft_eq_ofNat ..)
  · exact gives_binary hl (exec_shr ..) (ushiftRight_eq_ofNat ..)
  · exact gives_binary hl (exec_sar ..) (sshiftRight_eq_ofInt ..)
  · exact gives_binary hl (exec_min ..) (min_signed ..)
  · exact gives_binary hl (exec_min ..) (min_unsigned ..)
  · exact gives_binary hl (exec_max ..) (max_signed ..)
  · exact gives_binary hl (exec_max ..) (max_unsigned ..)
  · exact gives_immediate hl (exec_addi ..) (add_ofInt_eq_ofInt ..)
  · exact gives_immediate hl (exec_andi ..) rfl
  · exact gives_immediate hl (exec_ori ..) rfl
  · exact gives_immediate hl (exec_xori ..) rfl
  · exact gives_shiftImm hl (exec_shli ..) (shiftLeft_eq_ofNat ..)
  · exact gives_shiftImm hl (exec_shri ..) (ushiftRight_eq_ofNat ..)
  · exact gives_shiftImm hl (exec_sari ..) (sshiftRight_eq_ofInt ..)
  · exact gives_unary hl (exec_clz ..) (congrArg _ (leadingZeros_eq _))
  · exact gives_unary hl (exec_popc ..) (congrArg _ (oneBits_eq _))
  · exact gives_binary hl (exec_cmp ..) rfl
  · exact gives_immediate hl (exec_cmpi ..) rfl
  · exact gives_scalarWord hl (exec_sel ..) rfl

end Sys2Proof.Machine
end

section
/-! PROOF. The words written out in the spec (04_scalar_and_flow.md R75, R81; 07_lengths_and_integer.md R168; 11_atomics_and_ordering.md R253; O55). -/
namespace Sys2Proof
open Sys2Proof.Machine

/-- A word of the table is read as the instruction that it encodes (R25 to R28). -/
theorem decodeTableWord_of_encode {i : Instr} {w : Nat} (hwf : i.wf = true) (he : encode i = some (BitVec.ofNat 64 w)) :
    decodeTableWord 64 w = some i := by
  have hd := decodeEncode.1 i _ hwf he
  simp only [decodeTableWord, le_refl, if_true, hd]

/-- Settles O55, by `decodeEncode`: each instruction is well-formed, and its encoding is the word that the spec writes. -/
theorem decodeWords : Obligations.DecodeWords := by
  unfold Obligations.DecodeWords
  refine ⟨?_, ?_, ?_, ?_, ?_, ?_⟩ <;> exact decodeTableWord_of_encode (by decide) (by decide)

end Sys2Proof
end

section
/-! PROOF. What the words of lane mode do to the lanes of the issuing group, and to no other (04_scalar_and_flow.md R84; 05_teams_and_warps.md R105). -/
namespace Sys2Proof.Machine
open Sys2Proof

/-! ## The issuing group (R105) -/

/-- The group stands among the lanes, lowest first. -/
theorem group_sorted (lm : LaneMode) : lm.group.Pairwise (· < ·) := by
  unfold LaneMode.group LaneMode.groupOf
  split
  · exact List.pairwise_lt_range.filter _
  · exact .nil

theorem lt_of_mem_group {lm : LaneMode} {l : Nat} (h : l ∈ lm.group) : l < lm.lanes.length := by
  unfold LaneMode.group LaneMode.groupOf at h
  split at h
  · exact List.mem_range.1 (List.mem_filter.1 h).1
  · cases h

theorem group_of_lanes {w : Warp} {lm : LaneMode} (h : w.lanes = some lm) : w.group = lm.group := by rw [Warp.group, h]

theorem inLanes_some {w : Warp} {lm : LaneMode} (h : w.lanes = some lm) : w.inLanes = true := by rw [Warp.inLanes, h]; rfl

/-! ## Positions -/

/-- A lane after a change of some lanes. -/
theorem lane_onLanes (lm : LaneMode) (is : List Nat) (f : Nat → Lane → Lane) (l : Nat) :
    (lm.onLanes is f).lane l = if l ∈ is ∧ l < lm.lanes.length then f l (lm.lane l) else lm.lane l := by
  simp only [LaneMode.onLanes, LaneMode.lane, List.getD_eq_getElem?_getD, List.getElem?_mapIdx, List.contains_iff_mem]
  by_cases hl : l < lm.lanes.length
  · by_cases hi : l ∈ is <;> simp [hl, hi]
  · simp [hl]

/-- Each lane of the group has its position moved, and no other lane has changed. -/
structure GroupMoved (lm lm' : LaneMode) (f : Nat → Position → Position) : Prop where
  moved : ∀ l ∈ lm.group, (lm'.lane l).pos = f l (lm.lane l).pos
  others : ∀ l, l ∉ lm.group → lm'.lane l = lm.lane l

/-- In lane mode the positions of the issuing group move, and nothing else of the warp. -/
theorem moveTo_lanes {w : Warp} {lm : LaneMode} (h : w.lanes = some lm) (f : Nat → Position → Position) :
    ∃ lm', w.moveTo f = { w with lanes := some lm' } ∧ GroupMoved lm lm' f := by
  cases hi : lm.leader with
  | none =>
    have hg : lm.group = [] := by rw [LaneMode.group, hi]
    exact ⟨lm, by simp only [Warp.moveTo, h, hi]; rw [← h], by simp [hg], fun _ _ => rfl⟩
  | some i =>
    have hg : lm.groupOf i = lm.group := by rw [LaneMode.group, hi]
    refine ⟨{ lm.onLanes lm.group (fun j l => { l with pos := f j l.pos }) with next := i + 1 }, by simp only [Warp.moveTo, h, hi, hg],
      fun l hl => ?_, fun l hl => ?_⟩
    · exact congrArg Lane.pos ((lane_onLanes lm _ _ l).trans (if_pos ⟨hl, lt_of_mem_group hl⟩))
    · exact (lane_onLanes lm _ _ l).trans (if_neg fun hm => hl hm.1)

/-- A word issued in lane mode moves its group, and does the issue bookkeeping. -/
theorem issued_moveTo_lanes {w : Warp} {lm : LaneMode} (h : w.lanes = some lm) (f : Nat → Position → Position) :
    ∃ y z lm', ((w.yieldHint w.at).moveTo f).issued = { w with
      lanes := some lm', yieldOff := y, yieldLow := z, wait := 0, urgent := false, park := .none, service := {}, paid := false } ∧ GroupMoved lm lm' f := by
  obtain ⟨y, z, hy⟩ := yieldHint_eq w w.at
  obtain ⟨lm', hm, hmoved⟩ := moveTo_lanes (w := { w with yieldOff := y, yieldLow := z }) h f
  exact ⟨y, z, lm', by rw [hy, hm]; rfl, hmoved⟩

/-- The group goes on at its next word. -/
theorem advance_lanes {w : Warp} {lm : LaneMode} (h : w.lanes = some lm) :
    ∃ y z lm', w.advance = { w with
      lanes := some lm', yieldOff := y, yieldLow := z, wait := 0, urgent := false, park := .none, service := {}, paid := false } ∧
      GroupMoved lm lm' fun _ p => p.after :=
  issued_moveTo_lanes h _

/-! ## Lane words -/

theorem blend_allOnes (old new : LaneWord) : blend (BitVec.allOnes 32) old new = new := by
  rw [blend, BitVec.not_allOnes, BitVec.and_zero, BitVec.and_allOnes, BitVec.zero_or]

/-- A lane word that whole writes name, all of them with one value. -/
theorem applyWrites_whole {v : List LaneWord} {ws : List LaneWrite} {i : Nat} {x : LaneWord} (hi : i < v.length)
    (hws : ∀ y ∈ ws, y.lane = i → y.mask = BitVec.allOnes 32 ∧ y.value = x) (hex : ∃ y ∈ ws, y.lane = i) :
    (applyWrites v ws).getD i 0#32 = x := by
  induction ws generalizing v with
  | nil => simp at hex
  | cons y rest ih =>
    rw [← List.singleton_append, applyWrites_append]
    by_cases hr : ∃ z ∈ rest, z.lane = i
    · exact ih (by rwa [applyWrites_length]) (fun z hz => hws z (List.mem_cons_of_mem y hz)) hr
    · have hy : y.lane = i := by
        obtain ⟨z, hz, hzi⟩ := hex
        rcases List.mem_cons.1 hz with rfl | hz
        · exact hzi
        · exact absurd ⟨z, hz, hzi⟩ hr
      obtain ⟨hmask, hval⟩ := hws y List.mem_cons_self hy
      rw [applyWrites_other _ _ _ fun z hz hzi => hr ⟨z, hz, hzi⟩, applyWrites_one, if_pos ⟨hy.symm, hi⟩, hmask, hval, blend_allOnes]

/-- The whole words of register `d` in some lanes. -/
def laneWrites (s : State) (d : BitVec 6) (ls : List Nat) (f : Nat → LaneWord) : List LaneWrite := ls.map fun l => laneWrite s d l (f l)

/-- What writes stop, named by another predicate on the bits of lane words. -/
theorem stopsV_congr {w x : Warp} {p q : Nat → Nat → Prop} (h : ∀ k b, b < 32 → (p k b ↔ q k b)) (hs : stopsV w x p) : stopsV w x q :=
  hs.imp fun _ _ ⟨hapart, hwrites⟩ => ⟨hapart, hwrites.imp fun _ _ ⟨hlane, hvalue, hmask⟩ =>
    ⟨hlane, hvalue, fun b hb => by rw [hmask b hb, h _ b hb]⟩⟩

section Written

variable {s : State} {lm : LaneMode} {d : BitVec 6} {f : Nat → LaneWord}

/-- A word of register `d` in a lane of the group, written. -/
theorem applyWrites_laneWrites {ls : List Nat} {l : Nat} (hl : l ∈ ls) (hi : d.toNat * s.w + l < s.warp.v.length) :
    (applyWrites s.warp.v (laneWrites s d ls f)).getD (d.toNat * s.w + l) 0#32 = f l := by
  refine applyWrites_whole hi (fun y hy hyl => ?_) ⟨_, List.mem_map_of_mem hl, rfl⟩
  obtain ⟨j, -, rfl⟩ := List.mem_map.1 hy
  obtain rfl : j = l := Nat.add_left_cancel hyl
  exact ⟨rfl, rfl⟩

/-- Every other lane word stays. -/
theorem applyWrites_laneWrites_other {ls : List Nat} {k : Nat} (hk : ∀ l ∈ ls, k ≠ d.toNat * s.w + l) :
    (applyWrites s.warp.v (laneWrites s d ls f)).getD k 0#32 = s.warp.v.getD k 0#32 := by
  refine applyWrites_other _ _ _ fun y hy hyk => ?_
  obtain ⟨j, hj, rfl⟩ := List.mem_map.1 hy
  exact hk j hj hyk.symm

/-- R36: writes of whole lane words stop every bit that earlier pending results still write there. -/
theorem laneWrites_stops (ls : List Nat) :
    stopsV s.warp (s.warp.writeLanes (laneWrites s d ls f)) fun k _ => ∃ l ∈ ls, k = d.toNat * s.w + l := by
  refine stopsV_congr (fun k b hb => ?_) (writeLanes_stops s.warp (laneWrites s d ls f))
  constructor
  · rintro ⟨y, hy, rfl, -⟩
    obtain ⟨l, hl, rfl⟩ := List.mem_map.1 hy
    exact ⟨l, hl, rfl⟩
  · rintro ⟨l, hl, rfl⟩
    exact ⟨_, List.mem_map_of_mem hl, rfl, BitVec.getLsbD_allOnes.trans (decide_eq_true hb)⟩

/-- A warp that has written words of the group of register `d`, set FPSTAT bits and gone on, as it stands to the warp of `s`. -/
structure LaneResult (s : State) (lm : LaneMode) (d : BitVec 6) (f : Nat → LaneWord) (status : BitVec 7) (x : Warp) (lm' : LaneMode) : Prop where
  mode : x.lanes = some lm'
  moves : GroupMoved lm lm' fun _ p => p.after
  words : ∀ l ∈ lm.group, x.readLane (d.toNat * s.w + l) = f l
  others : ∀ k, (∀ l ∈ lm.group, k ≠ d.toNat * s.w + l) → x.readLane k = s.warp.readLane k
  stops : stopsV s.warp x fun k _ => ∃ l ∈ lm.group, k = d.toNat * s.w + l
  pending : x.pending.map Outstanding.apartV = s.warp.pending.map Outstanding.apartV
  rest : x = { s.warp with
    v := x.v, pending := x.pending, lanes := x.lanes, fpstat := s.warp.fpstat ||| status, yieldOff := x.yieldOff, yieldLow := x.yieldLow,
    wait := 0, urgent := false, park := .none, service := {}, paid := false }

/-- The words of the group written, status bits set, and the group gone on: what every computing word of lane mode does (R84, R138). -/
theorem laneResult_advance (hs : LaneShape s lm) (hd : d.toNat < s.r) (status : BitVec 7) :
    ∃ lm', LaneResult s lm d f status (((s.warp.writeLanes (laneWrites s d lm.group f)).raise status).advance) lm' := by
  obtain ⟨hmode, hcount, hwords⟩ := hs
  obtain ⟨y, z, lm', hadv, hmoves⟩ := advance_lanes (w := (s.warp.writeLanes (laneWrites s d lm.group f)).raise status) hmode
  have hin : ∀ l ∈ lm.group, d.toNat * s.w + l < s.warp.v.length := fun l hl => by
    have hlt := hcount ▸ lt_of_mem_group hl
    calc d.toNat * s.w + l < (d.toNat + 1) * s.w := by rw [Nat.succ_mul]; exact Nat.add_lt_add_left hlt _
      _ ≤ s.r * s.w := Nat.mul_le_mul_right _ hd
      _ = s.warp.v.length := hwords.symm
  rw [hadv]
  exact ⟨lm', rfl, hmoves, fun l hl => applyWrites_laneWrites hl (hin l hl), fun k hk => applyWrites_laneWrites_other hk,
    laneWrites_stops lm.group, writeLanes_pending .., rfl⟩

end Written

end Sys2Proof.Machine
end

section
/-! PROOF. The scalar words of lane mode (04_scalar_and_flow.md R74, R77, R84; part of O3). -/
namespace Sys2Proof.Machine
open Sys2Proof

section Lanes

variable {i : Instr} {s : State} {lm : LaneMode} {regs : List (BitVec 6)} {d a b : BitVec 6} {v : Nat → LaneWord}

/-! ## The forms of a scalar word (R74) -/

/-- No status bits are set. -/
theorem raise_zero (w : Warp) : w.raise 0#7 = w := by rw [Warp.raise, BitVec.or_zero]

/-- A word of lane mode whose register fields are below R. -/
theorem givesLanes_laneWord (hs : LaneShape s lm) (hr : ∀ r ∈ regs, r.toNat < s.r) (hd : d.toNat < s.r)
    (h : exec i s = laneWord s regs d v) : givesLanes i s lm d v := by
  obtain ⟨lm', hres⟩ := laneResult_advance (f := v) hs hd 0#7
  rw [raise_zero] at hres
  have hrest := hres.rest
  rw [BitVec.or_zero] at hrest
  refine ⟨{ s with warp := (s.warp.writeLanes (laneWrites s d lm.group v)).advance }, lm', ?_, hres.mode,
    fun l hl => ⟨hres.words l hl, hres.moves.moved l hl⟩, hres.others, hres.moves.others, hres.stops,
    congrArg (fun w => { s with warp := w }) hrest, hres.pending⟩
  rw [h, laneWord_eq (fun r hm => decide_eq_true (hr r hm))]
  simp only [State.advance, State.onWarp, group_of_lanes hs.mode, laneWrites]

theorem givesLanes_scalarWord {f : Word} {g : Nat → LaneWord} (hs : LaneShape s lm) (hd : d.toNat < s.r) (hr : ∀ r ∈ regs, r.toNat < s.r)
    (h : exec i s = scalarWord s regs d f g) (hv : ∀ l, g l = v l) : givesLanes i s lm d v := by
  rw [scalarWord_lanes (inLanes_some hs.mode), funext hv] at h
  exact givesLanes_laneWord hs hr hd h

theorem givesLanes_binary {f : (n : Nat) → BitVec n → BitVec n → BitVec n} (hs : LaneShape s lm) (hd : d.toNat < s.r) (ha : a.toNat < s.r)
    (hb : b.toNat < s.r) (h : exec i s = binary s d a b f) (hv : ∀ l, f 32 (laneOf s a l) (laneOf s b l) = v l) : givesLanes i s lm d v :=
  givesLanes_scalarWord hs hd (by simp [hd, ha, hb]) h hv

theorem givesLanes_immediate {f : (n : Nat) → BitVec n → BitVec n → BitVec n} {imm : BitVec 32} (hs : LaneShape s lm) (hd : d.toNat < s.r)
    (ha : a.toNat < s.r) (h : exec i s = immediate s d a imm f) (hv : ∀ l, f 32 (laneOf s a l) imm = v l) : givesLanes i s lm d v :=
  givesLanes_scalarWord hs hd (by simp [hd, ha]) h (by simpa [signImm] using hv)

theorem givesLanes_unary {f : (n : Nat) → BitVec n → BitVec n} (hs : LaneShape s lm) (hd : d.toNat < s.r) (ha : a.toNat < s.r)
    (h : exec i s = unary s d a f) (hv : ∀ l, f 32 (laneOf s a l) = v l) : givesLanes i s lm d v :=
  givesLanes_scalarWord hs hd (by simp [hd, ha]) h hv

theorem givesLanes_shiftImm {f : (n : Nat) → BitVec n → Nat → BitVec n} {k : BitVec 6} (hs : LaneShape s lm) (hd : d.toNat < s.r)
    (ha : a.toNat < s.r) (h : exec i s = shiftImm s d a k f) (hv : ∀ l, f 32 (laneOf s a l) (k.toNat % 32) = v l) : givesLanes i s lm d v :=
  givesLanes_scalarWord hs hd (by simp [hd, ha]) h hv

/-! ## Division in the lanes (R77) -/

theorem exec_div (fs : FSel) (sg : Sgn) (d a b : BitVec 6) (s : State) :
    exec (.div fs sg d a b) s = division s fs d a b fun n x y => (divide sg n x y).1 := rfl

theorem exec_rem (fs : FSel) (sg : Sgn) (d a b : BitVec 6) (s : State) :
    exec (.rem fs sg d a b) s = division s fs d a b fun n x y => (divide sg n x y).2 := rfl

/-- With a sound divider the lanes divide their own words. -/
theorem givesLanes_division {f : (n : Nat) → BitVec n → BitVec n → BitVec n} (hs : LaneShape s lm) (hd : d.toNat < s.r) (ha : a.toNat < s.r)
    (hb : b.toNat < s.r) (h : exec i s = division s .none d a b f) (hv : ∀ l, f 32 (laneOf s a l) (laneOf s b l) = v l)
    (hsound : (coreOf s s.warp.core).divBad = false) : givesLanes i s lm d v := by
  have hdiv : division s .none d a b f = laneWord s [d, a, b] d fun l => f 32 (laneOf s a l) (laneOf s b l) := by
    rw [division, if_pos (inLanes_some hs.mode), if_pos rfl, dividerBad, hsound, if_neg Bool.false_ne_true]
  rw [hdiv, funext hv] at h
  exact givesLanes_laneWord hs (by simp [hd, ha, hb]) hd h

/-! ## `MOV` from a uniform register, and `NOP` -/

theorem givesLanes_mov_true (hs : LaneShape s lm) (hd : d.toNat < s.r) (r : BitVec 6) :
    givesLanes (.mov true d r) s lm d fun _ => BitVec.ofNat 32 (s.warp.readS r).toNat := by
  have hmov : exec (.mov true d r) s =
      if s.warp.inLanes then laneWord s [d] d fun _ => (s.warp.readS r).setWidth 32
      else guarded [(regOk s d, .register), (false, .laneMode)] s id := rfl
  rw [if_pos (inLanes_some hs.mode), ← BitVec.ofNat_toNat] at hmov
  exact givesLanes_laneWord hs (by simp [hd]) hd hmov

theorem exec_nop_lanes (hs : LaneShape s lm) : ∃ t lm', exec .nop s = .next t ∧ t.warp.lanes = some lm' ∧ t.warp.v = s.warp.v ∧
    t.warp.pending = s.warp.pending ∧ (∀ l ∈ lm.group, (lm'.lane l).pos = (lm.lane l).pos.after) ∧
    (∀ l, l ∉ lm.group → lm'.lane l = lm.lane l) ∧ LaneFrame s t := by
  obtain ⟨y, z, lm', hadv, hmoves⟩ := advance_lanes hs.mode
  refine ⟨s.advance, lm', rfl, ?_, ?_, ?_, hmoves.moved, hmoves.others, ?_, ?_⟩ <;> simp only [State.advance, State.onWarp, hadv]

end Lanes

end Sys2Proof.Machine
end

section
/-! PROOF. The floating words of lane mode (06_numbers_and_float.md R138), and the statement on the words of lane mode (O3). -/
namespace Sys2Proof.Machine
open Sys2Proof

/-! ## A charge and what goes on behind it -/

/-- Two states whose cores and lease agree show the same charge. -/
theorem ChargeTaken.congr {s u t : State} {n : Nat} (h : ChargeTaken s u n) (hc : t.cores = u.cores) (hl : t.warp.lease = u.warp.lease) :
    ChargeTaken s t n := by
  have hcore (c : CoreRef) : coreOf t c = coreOf u c := by rw [coreOf, hc, coreOf]
  exact ⟨fun hp => (hcore _).trans (h.core hp), hl.trans h.lease, fun c hne => (hcore c).trans (h.others c hne)⟩

/-- A dispatch charges the core, draws the lease, and notes that the word is paid. -/
theorem dispatched_spec (s : State) (n : Nat) : ∃ cores lease paid,
    s.dispatched n = { s with cores := cores, warp := { s.warp with lease := lease, paid := paid } } ∧
    ChargeTaken s { s with cores := cores, warp := { s.warp with lease := lease, paid := paid } } n :=
  ⟨_, _, _, dispatched_eq s n, dispatched_eq s n ▸ dispatched_charge s n⟩

/-- The first element that a test finds in an ascending list is the least that it accepts. -/
theorem find?_least {ls : List Nat} {p : Nat → Bool} {l : Nat} (hs : ls.Pairwise (· < ·)) (hl : l ∈ ls) (hp : p l = true)
    (hmin : ∀ j ∈ ls, j < l → p j = false) : ls.find? p = some l := by
  obtain ⟨as, bs, rfl⟩ := List.append_of_mem hl
  refine List.find?_eq_some_iff_append.2 ⟨hp, as, bs, rfl, fun j hj => ?_⟩
  have hlt : j < l := (List.pairwise_append.1 hs).2.2 j hj l List.mem_cons_self
  rw [hmin j (List.mem_append_left _ hj) hlt]
  rfl

/-- The status bits of the elements of some lanes. -/
def laneStatus (f : Nat → Elem) (ls : List Nat) : BitVec 7 := ls.foldl (fun acc l => acc ||| (f l).flags.bits) 0#7

theorem laneStatus_getLsbD (f : Nat → Elem) (ls : List Nat) (i : Nat) :
    (laneStatus f ls).getLsbD i = true ↔ ∃ l ∈ ls, (f l).flags.bits.getLsbD i = true := by
  rw [laneStatus, ← List.foldl_map (f := fun l => (f l).flags.bits) (g := (· ||| ·)), or_all_getLsbD]
  simp

section Lanes

variable {i : Instr} {s : State} {lm : LaneMode} {d : BitVec 6} {f : Nat → Elem} {toll : Nat}

/-- R138: a floating word of lane mode writes each lane of the group its element and sets the status of them all;
or it traps at the lowest lane with an enabled exception, with every lane unwritten. -/
def givesLaneFloat (i : Instr) (s : State) (lm : LaneMode) (d : BitVec 6) (toll : Nat) (f : Nat → Elem) : Prop :=
  affords s (lm.group.length * toll) →
    ((∀ l ∈ lm.group, enabledTrap s.warp.fpctl (f l).flags = false) →
      ∃ t lm', exec i s = .next t ∧ t.warp.lanes = some lm' ∧ (∀ l ∈ lm.group, laneOf t d l = (f l).bits) ∧
        (∀ k, (∀ l ∈ lm.group, k ≠ d.toNat * s.w + l) → t.warp.readLane k = s.warp.readLane k) ∧
        (∀ i, t.warp.fpstat.getLsbD i = true ↔ s.warp.fpstat.getLsbD i = true ∨ ∃ l ∈ lm.group, (f l).flags.bits.getLsbD i = true) ∧
        (∀ l ∈ lm.group, (lm'.lane l).pos = (lm.lane l).pos.after) ∧ (∀ l, l ∉ lm.group → lm'.lane l = lm.lane l) ∧
        stopsV s.warp t.warp (fun k _ => ∃ l ∈ lm.group, k = d.toNat * s.w + l) ∧ LaneChargedFrame s t (lm.group.length * toll)) ∧
    (∀ l ∈ lm.group, enabledTrap s.warp.fpctl (f l).flags = true →
      (∀ j ∈ lm.group, j < l → enabledTrap s.warp.fpctl (f j).flags = false) →
      ∃ u, exec i s = .next (takeTrap u (fpReport (f l).flags l 0x21#8) s.warp.site s.warp.at.pc) ∧ ChargeTaken s u (lm.group.length * toll) ∧
        u = { s with cores := u.cores, warp := { s.warp with lease := u.warp.lease, paid := u.warp.paid } })

/-- Behind its checks and the toll gate a floating word of lane mode looks for the lowest lane that traps, and else writes the group. -/
theorem laneFloat_eq {checks : List (Bool × IllegalReason)} {F : State → Nat → Elem} (hm : s.warp.lanes = some lm)
    (hc : ∀ c ∈ checks, c.1 = true) (ha : affords s (lm.group.length * toll)) :
    laneFloat s checks toll d F = .next (let u := s.dispatched (lm.group.length * toll)
      match u.warp.group.find? fun l => enabledTrap u.warp.fpctl (F u l).flags with
      | some l => trapHere u (fpReport (F u l).flags l 0x21#8) u.warp.vstart
      | none => (u.onWarp fun w => (w.writeLanes (laneWrites u d u.warp.group fun l => (F u l).bits)).raise (laneStatus (F u) u.warp.group)).advance) := by
  rw [laneFloat, guarded_pass hc, group_of_lanes hm, tolled_credit (affords_credit ha)]
  rfl

/-- A floating word of lane mode whose elements come from the lanes' own words. -/
theorem givesLaneFloat_laneFloat {checks : List (Bool × IllegalReason)} {F : State → Nat → Elem} (hs : LaneShape s lm) (hd : d.toNat < s.r)
    (hc : ∀ c ∈ checks, c.1 = true) (h : exec i s = laneFloat s checks toll d F)
    (hF : ∀ cores lease paid, F { s with cores := cores, warp := { s.warp with lease := lease, paid := paid } } = f) :
    givesLaneFloat i s lm d toll f := by
  intro ha
  rw [laneFloat_eq hs.mode hc ha] at h
  obtain ⟨cores, lease, paid, hu, hcharge⟩ := dispatched_spec s (lm.group.length * toll)
  have hgroup : ({ s.warp with lease := lease, paid := paid } : Warp).group = lm.group := group_of_lanes hs.mode
  simp only [hu, hF, hgroup] at h
  refine ⟨fun hquiet => ?_, fun l hl htrap hlow => ?_⟩
  · have hnone : (lm.group.find? fun l => enabledTrap s.warp.fpctl (f l).flags) = none :=
      List.find?_eq_none.2 fun l hl => by rw [hquiet l hl]; exact Bool.false_ne_true
    rw [hnone] at h
    obtain ⟨lm', hres⟩ := laneResult_advance (f := fun l => (f l).bits)
      (s := { s with cores := cores, warp := { s.warp with lease := lease, paid := paid } }) ⟨hs.mode, hs.count, hs.words⟩ hd (laneStatus f lm.group)
    have hstatus := congrArg Warp.fpstat hres.rest
    have hlease := congrArg Warp.lease hres.rest
    refine ⟨_, lm', h, hres.mode, hres.words, hres.others, fun k => ?_, hres.moves.moved, hres.moves.others, hres.stops, ?_,
      hcharge.congr rfl hlease⟩
    · rw [State.advance, onWarp_warp, onWarp_warp, hstatus, BitVec.getLsbD_or, Bool.or_eq_true, laneStatus_getLsbD]
    · simp only [State.advance, State.onWarp, hstatus, hlease]
      exact congrArg (fun w => { s with cores := cores, warp := w }) hres.rest
  · have hfind : (lm.group.find? fun l => enabledTrap s.warp.fpctl (f l).flags) = some l := find?_least (group_sorted lm) hl htrap hlow
    rw [hfind] at h
    exact ⟨_, h, hcharge, rfl⟩

/-- A floating word that lane mode permits: FP32, without a flag or a mask, its register fields below R. -/
theorem givesLaneFloat_floatWord {mz : Bool} {srcs : List (BitVec 6)} {g : List LaneWord → Elem} (hs : LaneShape s lm) (hd : d.toNat < s.r)
    (hr : ∀ r ∈ srcs, r.toNat < s.r) (h : exec i s = floatWord s .none 0#3 mz .fp32 toll d srcs g)
    (hv : ∀ l, g (srcs.map fun r => laneOf s r l) = f l) : givesLaneFloat i s lm d toll f := by
  rw [floatWord, inLanes_some hs.mode, if_pos (show (true && ET.fp32 == ET.fp32) = true from rfl)] at h
  refine givesLaneFloat_laneFloat hs hd (fun c hc => ?_) h fun _ _ _ => funext hv
  rcases List.mem_append.1 hc with hc | hc
  · obtain ⟨r, hm, rfl⟩ := List.mem_map.1 hc
    exact decide_eq_true ((List.forall_mem_cons (p := fun r => r.toNat < s.r)).2 ⟨hd, hr⟩ r hm)
  · rw [List.mem_singleton.1 hc]
    rfl

end Lanes

section Arms

/-! ## The floating instructions that lane mode permits, by their form (R138) -/

variable (s : State) (fs : FSel) (mk : BitVec 3) (mz : Bool) (md : Mode) (et : ET) (d a b c : BitVec 6)

theorem exec_vfadd : exec (.vfadd mk mz md et d a b) s = floatWord s .none mk mz et 2 d [a, b] fun x => faddElem et md (nth x 0) (nth x 1) := rfl
theorem exec_vfsub : exec (.vfsub mk mz md et d a b) s = floatWord s .none mk mz et 2 d [a, b] fun x => fsubElem et md (nth x 0) (nth x 1) := rfl
theorem exec_vfmul : exec (.vfmul mk mz md et d a b) s = floatWord s .none mk mz et 2 d [a, b] fun x => fmulElem et md (nth x 0) (nth x 1) := rfl
theorem exec_vfma : exec (.vfma mk mz md et d a b c) s =
    floatWord s .none mk mz et 2 d [a, b, c] fun x => ffmaElem et md false (nth x 0) (nth x 1) (nth x 2) := rfl
theorem exec_vfnma : exec (.vfnma mk mz md et d a b c) s =
    floatWord s .none mk mz et 2 d [a, b, c] fun x => ffmaElem et md true (nth x 0) (nth x 1) (nth x 2) := rfl
theorem exec_vfmin : exec (.vfmin mk mz et d a b) s =
    floatWord s .none mk mz et 2 d [a, b] fun x => { bits := fpick et false (nth x 0) (nth x 1) } := rfl
theorem exec_vfmax : exec (.vfmax mk mz et d a b) s =
    floatWord s .none mk mz et 2 d [a, b] fun x => { bits := fpick et true (nth x 0) (nth x 1) } := rfl
theorem exec_vfabs : exec (.vfabs mk mz et d a) s = floatWord s .none mk mz et 2 d [a] fun x => { bits := fabsBits et (nth x 0) } := rfl
theorem exec_vfdiv : exec (.vfdiv fs mk mz md et d a b) s = floatWord s fs mk mz et 8 d [a, b] fun x => fdivElem et md (nth x 0) (nth x 1) := rfl
theorem exec_vfsqrt : exec (.vfsqrt fs mk mz md et d a) s = floatWord s fs mk mz et 8 d [a] fun x => fsqrtElem et md (nth x 0) := rfl
theorem exec_vfrsq : exec (.vfrsq fs mk mz md et d a) s = floatWord s fs mk mz et 8 d [a] fun x => frsqElem et md (nth x 0) := rfl
theorem exec_vfrcp : exec (.vfrcp fs mk mz md et d a) s = floatWord s fs mk mz et 8 d [a] fun x => frcpElem et md (nth x 0) := rfl
theorem exec_vfexp2 : exec (.vfexp2 fs mk mz md et d a) s = floatWord s fs mk mz et 8 d [a] fun x => fexp2Elem et md (nth x 0) := rfl
theorem exec_vflog2 : exec (.vflog2 fs mk mz md et d a) s = floatWord s fs mk mz et 8 d [a] fun x => flog2Elem et md (nth x 0) := rfl

end Arms

/-- Settles O3: each scalar word writes the formula of its rule at n = 32 in the lanes of the group; each floating word writes their elements, or traps at the lowest. -/
theorem laneResults : Obligations.LaneResults := by
  unfold Obligations.LaneResults
  refine ⟨fun s lm d a b c imm n cc sg hs hd ha hb hc => ?_, fun s lm mz md d a b c hs hd ha hb hc => ?_⟩
  · refine ⟨?_, ?_, ?_, ?_, ?_, ?_, ?_, ?_, ?_, ?_, ?_, ?_, ?_, ?_, ?_, ?_, ?_, ?_, ?_, ?_, ?_, ?_, ?_, ?_, ?_, ?_, ?_, ?_, ?_, ?_, ?_,
      givesLanes_mov_true hs hd, exec_nop_lanes hs⟩
    · exact givesLanes_unary hs hd ha (exec_mov_false ..) fun _ => rfl
    · exact givesLanes_scalarWord hs hd (by simp [hd]) (exec_movi ..) fun _ => rfl
    · exact givesLanes_binary hs hd ha hb (exec_add ..) fun _ => rfl
    · exact givesLanes_immediate hs hd ha (exec_addi ..) fun l => by simpa using add_ofInt_eq_ofInt (laneOf s a l) imm.toInt
    · exact givesLanes_binary hs hd ha hb (exec_sub ..) fun _ => sub_eq_ofInt ..
    · exact givesLanes_binary hs hd ha hb (exec_mul ..) fun _ => rfl
    · exact givesLanes_binary hs hd ha hb (exec_mulhi ..) fun _ => rfl
    · exact givesLanes_binary hs hd ha hb (exec_mulhi ..) fun _ => rfl
    · exact givesLanes_division hs hd ha hb (exec_div ..) fun _ => divide_quotient ..
    · exact givesLanes_division hs hd ha hb (exec_rem ..) fun _ => divide_remainder ..
    · exact givesLanes_binary hs hd ha hb (exec_and ..) fun _ => rfl
    · exact givesLanes_immediate hs hd ha (exec_andi ..) fun _ => rfl
    · exact givesLanes_binary hs hd ha hb (exec_or ..) fun _ => rfl
    · exact givesLanes_immediate hs hd ha (exec_ori ..) fun _ => rfl
    · exact givesLanes_binary hs hd ha hb (exec_xor ..) fun _ => rfl
    · exact givesLanes_immediate hs hd ha (exec_xori ..) fun _ => rfl
    · exact givesLanes_binary hs hd ha hb (exec_shl ..) fun _ => shiftLeft_eq_ofNat ..
    · exact givesLanes_binary hs hd ha hb (exec_shr ..) fun _ => ushiftRight_eq_ofNat ..
    · exact givesLanes_binary hs hd ha hb (exec_sar ..) fun _ => sshiftRight_eq_ofInt ..
    · exact givesLanes_shiftImm hs hd ha (exec_shli ..) fun _ => shiftLeft_eq_ofNat ..
    · exact givesLanes_shiftImm hs hd ha (exec_shri ..) fun _ => ushiftRight_eq_ofNat ..
    · exact givesLanes_shiftImm hs hd ha (exec_sari ..) fun _ => sshiftRight_eq_ofInt ..
    · exact givesLanes_unary hs hd ha (exec_clz ..) fun _ => congrArg _ (leadingZeros_eq _)
    · exact givesLanes_unary hs hd ha (exec_popc ..) fun _ => congrArg _ (oneBits_eq _)
    · exact givesLanes_binary hs hd ha hb (exec_min ..) fun _ => min_signed ..
    · exact givesLanes_binary hs hd ha hb (exec_min ..) fun _ => min_unsigned ..
    · exact givesLanes_binary hs hd ha hb (exec_max ..) fun _ => max_signed ..
    · exact givesLanes_binary hs hd ha hb (exec_max ..) fun _ => max_unsigned ..
    · exact givesLanes_binary hs hd ha hb (exec_cmp ..) fun _ => rfl
    · exact givesLanes_immediate hs hd ha (exec_cmpi ..) fun _ => rfl
    · exact givesLanes_scalarWord hs hd (by simp [hd, ha, hb, hc]) (exec_sel ..) fun _ => rfl
  · refine ⟨?_, ?_, ?_, ?_, ?_, ?_, ?_, ?_, ?_, ?_, ?_, ?_, ?_, ?_⟩
    · exact givesLaneFloat_floatWord hs hd (by simp [ha, hb]) (exec_vfadd ..) fun _ => rfl
    · exact givesLaneFloat_floatWord hs hd (by simp [ha, hb]) (exec_vfsub ..) fun _ => rfl
    · exact givesLaneFloat_floatWord hs hd (by simp [ha, hb]) (exec_vfmul ..) fun _ => rfl
    · exact givesLaneFloat_floatWord hs hd (by simp [ha, hb, hc]) (exec_vfma ..) fun _ => rfl
    · exact givesLaneFloat_floatWord hs hd (by simp [ha, hb, hc]) (exec_vfnma ..) fun _ => rfl
    · exact givesLaneFloat_floatWord hs hd (by simp [ha, hb]) (exec_vfmin ..) fun _ => rfl
    · exact givesLaneFloat_floatWord hs hd (by simp [ha, hb]) (exec_vfmax ..) fun _ => rfl
    · exact givesLaneFloat_floatWord hs hd (by simp [ha]) (exec_vfabs ..) fun _ => rfl
    · exact givesLaneFloat_floatWord hs hd (by simp [ha, hb]) (exec_vfdiv ..) fun _ => rfl
    · exact givesLaneFloat_floatWord hs hd (by simp [ha]) (exec_vfsqrt ..) fun _ => rfl
    · exact givesLaneFloat_floatWord hs hd (by simp [ha]) (exec_vfrsq ..) fun _ => rfl
    · exact givesLaneFloat_floatWord hs hd (by simp [ha]) (exec_vfrcp ..) fun _ => rfl
    · exact givesLaneFloat_floatWord hs hd (by simp [ha]) (exec_vfexp2 ..) fun _ => rfl
    · exact givesLaneFloat_floatWord hs hd (by simp [ha]) (exec_vflog2 ..) fun _ => rfl

end Sys2Proof.Machine
end

section
/-! PROOF. The control transfers, outside lane mode and lane by lane (04_scalar_and_flow.md R79, R80, R84; O4). -/
namespace Sys2Proof.Machine
open Sys2Proof

/-- Behind the last word of a clause stands the next clause (R29). -/
theorem Position.after_last {p : Position} (h : p.idx = p.n) : p.after = { hdr := p.hdr + 8 * ((p.n : Int) + 1) } := by
  rw [Position.after, h, if_neg (Nat.lt_irrefl _), Position.nextHdr]

section Arms

/-! ## The control transfers by their form (R79) -/

variable (s : State) (a b : BitVec 6) (disp : BitVec 32) (cc : Cond)

theorem exec_br : exec (.br disp) s = branch s [] disp true fun _ => true := rfl
theorem exec_brc : exec (.brc cc a b disp) s =
    branch s [a, b] disp (condHolds cc (s.warp.readS a) (s.warp.readS b)) fun l => condHolds cc (laneOf s a l) (laneOf s b l) := rfl
theorem exec_brz : exec (.brz a disp) s = branch s [a] disp (s.warp.readS a == 0#64) fun l => laneOf s a l == 0#32 := rfl
theorem exec_brnz : exec (.brnz a disp) s = branch s [a] disp (s.warp.readS a != 0#64) fun l => laneOf s a l != 0#32 := rfl
theorem exec_call : exec (.call disp) s = transfer s [] fun w => (w.writeS 63#6 w.link).goto (w.at.relative disp) := rfl
theorem exec_callr : exec (.callr a) s = transfer s [a] fun w => (w.writeS 63#6 w.link).goto ((w.readS a).toNat : Nat) := rfl
theorem exec_ret : exec .ret s = transfer s [] fun w => w.goto ((w.readS 63#6).toNat : Nat) := rfl
theorem exec_jmpr : exec (.jmpr a) s = transfer s [a] fun w => w.goto ((w.readS a).toNat : Nat) := rfl

end Arms

/-! ## Outside lane mode -/

section Uniform

variable {i : Instr} {s : State} {regs : List (BitVec 6)} {disp : BitVec 32} {taken : Bool} {lanes : Nat → Bool} {target : Int}

theorem goesTo_goto {f : Warp → Int} (hl : s.warp.lanes = none) (h : exec i s = .next (s.onWarp fun w => w.goto (f w)))
    (ht : f s.warp = target) : goesTo i s target := by
  obtain ⟨y, z, hgo⟩ := goto_uniform s.warp (f s.warp) hl
  rw [ht] at hgo
  refine ⟨_, h, ?_, ?_, ?_, ?_, ?_⟩ <;> simp only [State.onWarp, ht, hgo]

theorem goesTo_transfer {f : Warp → Int} (hl : s.warp.lanes = none) (h : exec i s = transfer s regs fun w => w.goto (f w)) :
    goesTo i s (f s.warp) :=
  goesTo_goto hl (h.trans (uniformScalar_uniform hl ..)) rfl

/-- A branch that is not taken goes on at the next word. -/
theorem goesTo_advance (hl : s.warp.lanes = none) (hlast : s.warp.pos.idx = s.warp.pos.n) (h : exec i s = .next s.advance) :
    goesTo i s (s.warp.pos.hdr + 8 * ((s.warp.pos.n : Int) + 1)) := by
  obtain ⟨y, z, hadv⟩ := advance_uniform s.warp hl
  rw [Position.after_last hlast] at hadv
  refine ⟨_, h, ?_, ?_, ?_, ?_, ?_⟩ <;> simp only [State.advance, State.onWarp, hadv]

/-- A branch that stands last goes to its target, or to the next clause (R79). -/
theorem goesTo_branch (hl : s.warp.lanes = none) (hlast : s.warp.pos.idx = s.warp.pos.n) (h : exec i s = branch s regs disp taken lanes)
    (ht : (if taken then s.warp.pos.hdr + 8 * disp.toInt else s.warp.pos.hdr + 8 * ((s.warp.pos.n : Int) + 1)) = target) :
    goesTo i s target := by
  rw [branch, if_neg (by simp [inLanes_none _ hl])] at h
  subst ht
  cases taken with
  | true => exact goesTo_goto hl h (by rw [at_uniform _ hl]; rfl)
  | false => exact goesTo_advance hl hlast h

/-- A call writes the address of the next clause into s63, behind the read of its target (R79). -/
theorem calls_transfer {f : Warp → Int} (hl : s.warp.lanes = none)
    (h : exec i s = transfer s regs fun w => (w.writeS 63#6 w.link).goto (f w)) (ht : f s.warp = target) :
    ∃ t, exec i s = .next t ∧ t.warp.pos = { hdr := target } ∧
      wroteS s.warp t.warp 63#6 (BitVec.ofInt 64 (s.warp.pos.hdr + 8 * ((s.warp.pos.n : Int) + 1))) ∧
      t.warp.pending = s.warp.stoppedS 63#6 ∧ UniformFrame s t := by
  have hlink : s.warp.link = BitVec.ofInt 64 (s.warp.pos.hdr + 8 * ((s.warp.pos.n : Int) + 1)) := by
    rw [Warp.link, at_uniform _ hl]
    rfl
  have hlanes : (s.warp.writeS 63#6 s.warp.link).lanes = none := by rw [writeS_eq]; exact hl
  obtain ⟨y, z, hgo⟩ := goto_uniform _ (f s.warp) hlanes
  have hwrote := wroteS_writeS s.warp 63#6 s.warp.link
  refine ⟨s.onWarp fun w => (w.writeS 63#6 w.link).goto (f w), h.trans (uniformScalar_uniform hl ..), ?_, hlink ▸ ?_, ?_, ?_, ?_⟩ <;>
    simp only [State.onWarp, hgo]
  · rw [ht]
  · exact hwrote
  · exact writeS_stops ..
  · rw [writeS_eq]
  · exact writeS_pending ..

end Uniform

/-! ## Lane by lane (R84) -/

section Lanes

variable {i : Instr} {s : State} {lm : LaneMode} {regs : List (BitVec 6)} {disp : BitVec 32} {taken : Bool} {lanes : Nat → Bool}

/-- Each lane of the group decides for itself, and no other lane moves. -/
theorem branches_lanes {p : Nat → Prop} (hs : LaneShape s lm) (hr : ∀ r ∈ regs, r.toNat < s.r) (h : exec i s = branch s regs disp taken lanes)
    (hp : ∀ l, lanes l = true ↔ p l) :
    ∃ t lm', exec i s = .next t ∧ t.warp.lanes = some lm' ∧
      (∀ l ∈ lm.group, (p l → (lm'.lane l).pos = { hdr := (lm.lane l).pos.hdr + 8 * disp.toInt }) ∧
        (¬ p l → (lm'.lane l).pos = (lm.lane l).pos.after)) ∧
      (∀ l, l ∉ lm.group → lm'.lane l = lm.lane l) ∧ t.warp.v = s.warp.v ∧ t.warp.pending = s.warp.pending ∧ LaneFrame s t := by
  rw [branch, if_pos (inLanes_some hs.mode), guarded_pass (by simpa [regOk] using hr)] at h
  obtain ⟨y, z, lm', hmv, hmoves⟩ := issued_moveTo_lanes hs.mode fun l q => if lanes l then { hdr := q.relative disp } else q.after
  refine ⟨_, lm', h, ?_, fun l hl => ⟨fun hpl => ?_, fun hpl => ?_⟩, hmoves.others, ?_, ?_, ?_, ?_⟩
  · rw [onWarp_warp, hmv]
  · rw [hmoves.moved l hl, if_pos ((hp l).2 hpl)]
    rfl
  · rw [hmoves.moved l hl, if_neg fun ht => hpl ((hp l).1 ht)]
  all_goals simp only [State.onWarp, hmv]

end Lanes

/-- Settles O4: a transfer goes to its target or, as `Position.after_last` says, to the next clause; in lane mode each lane decides for itself. -/
theorem controlTransfers : Obligations.ControlTransfers := by
  unfold Obligations.ControlTransfers
  refine ⟨fun s cc a b disp hl hlast => ⟨?_, ?_, ?_, ?_⟩, fun s a disp hl => ⟨?_, ?_, ?_, ?_⟩,
    fun s lm cc a b disp hs ha hb => ⟨?_, ?_, ?_, ?_⟩⟩
  · exact goesTo_branch hl hlast (exec_br ..) rfl
  · exact goesTo_branch hl hlast (exec_brc ..) rfl
  · exact goesTo_branch hl hlast (exec_brz ..) (by simp [← BitVec.toNat_inj])
  · exact goesTo_branch hl hlast (exec_brnz ..) (by simp [← BitVec.toNat_inj])
  · exact goesTo_transfer hl (exec_jmpr ..)
  · exact goesTo_transfer hl (exec_ret ..)
  · exact calls_transfer hl (exec_call ..) (by rw [at_uniform _ hl]; rfl)
  · exact calls_transfer hl (exec_callr ..) rfl
  · exact branches_lanes hs (by simp) (exec_br ..) (by simp)
  · exact branches_lanes hs (by simp [ha, hb]) (exec_brc ..) fun _ => Iff.rfl
  · exact branches_lanes hs (by simp [ha]) (exec_brz ..) fun _ => beq_iff_eq
  · exact branches_lanes hs (by simp [ha]) (exec_brnz ..) fun _ => bne_iff_ne

end Sys2Proof.Machine
end

section
/-! PROOF. Division without a flag (04_scalar_and_flow.md R77; 02_words_and_registers.md R36, R43): O2 fails, since a result for `s0` is discarded before it could stop a pending one. -/
namespace Sys2Proof.Machine
open Sys2Proof

/-- A division without a flag into `s0` has no destination, so that no pending result is stopped. -/
theorem division_discarded {s : State} {a b : BitVec 6} {f : (n : Nat) → BitVec n → BitVec n → BitVec n} (hl : s.warp.lanes = none)
    (hsound : (coreOf s s.warp.core).divBad = false) : division s .none 0#6 a b f = .next s.advance := by
  rw [division, if_neg (by simp [inLanes_none _ hl]), guarded_pass (by simp [pendingOk]), dividerBad, hsound, if_neg Bool.false_ne_true, bear_none]
  simp only [sResult, if_true, writeLanes_nil, raise_zero]
  rfl

/-- A state in which a pending result names `s0`. Results that the model makes never do (`sResult`, R43), but O2 speaks of every state. -/
def pendingForZero : State :=
  State.reset.onWarp fun w => { w with seq := 1, pending := [{ seq := 0, pc := 0#64, flag := some 0, sWrite := some (0#6, 0#64) }] }

/-- Refutes O2: `gives` has a visible write of `s0` stop the pending result that names `s0`; `DIV s0` leaves that result as it was. -/
theorem not_division : ¬ Obligations.Division := by
  unfold Obligations.Division
  intro ⟨hsync, _⟩
  obtain ⟨⟨t, hnext, -, hstopped, -⟩, -⟩ := hsync pendingForZero .signed 0#6 0#6 0#6 rfl rfl
  rw [exec_div, division_discarded rfl rfl] at hnext
  obtain rfl := Host.Outcome.next.inj hnext
  obtain ⟨y, z, hadv⟩ := advance_uniform pendingForZero.warp rfl
  have hkept : pendingForZero.advance.warp.pending = pendingForZero.warp.pending := by rw [advance_warp, hadv]
  have hdiffer : pendingForZero.warp.pending ≠ pendingForZero.warp.stoppedS 0#6 := by decide
  exact hdiffer (hkept.symm.trans hstopped)

end Sys2Proof.Machine
end

section
/-! PROOF. What the device's own writes and records leave: everything but the memories, the records of errors and events, and what goes out with them (09_loads_stores_streams.md R200; 15_system_and_traps.md R353; 18_host_link_and_management.md R385). -/
namespace Sys2Proof.Machine
open Sys2Proof

/-- A partition apart from its records of errors and events. -/
def Partition.apartRecords (p : Partition) : Partition :=
  { p with wbr := {}, wbSeq := 0, wbWait := [], err := {}, errSeq := 0, errWait := [], intstat := 0 }

/-- The machine apart from its memories, its records of errors and events, and its messages. -/
def State.apartRecords (s : State) : State :=
  { s with
    mem := [], keytags := [], dirty := [], bad := [], badMap := [], bales := [], outbox := []
    mgmt := { s.mgmt with log := [] }
    parts := s.parts.map Partition.apartRecords }

/-- Only memories, records and messages may differ. -/
def RecordsMove (s t : State) : Prop := t.apartRecords = s.apartRecords

namespace RecordsMove

theorem refl (s : State) : RecordsMove s s := rfl

theorem trans {s t u : State} (h : RecordsMove s t) (g : RecordsMove t u) : RecordsMove s u := Eq.trans g h

theorem foldl {α : Type} {f : State → α → State} (h : ∀ s a, RecordsMove s (f s a)) (as : List α) (s : State) :
    RecordsMove s (as.foldl f s) := by
  induction as generalizing s with
  | nil => exact refl s
  | cons a rest ih => exact (h s a).trans (ih (f s a))

theorem ite {c : Prop} [Decidable c] {s t u : State} (h : RecordsMove s t) (k : RecordsMove s u) : RecordsMove s (if c then t else u) := by
  split
  · exact h
  · exact k

section
variable {s t : State} (h : RecordsMove s t)
include h

theorem field {α : Type} (f : State → α) : f t.apartRecords = f s.apartRecords := congrArg f h

theorem team : t.team = s.team := h.field State.team
theorem warp : t.warp = s.warp := h.field State.warp
theorem teams : t.teams = s.teams := h.field State.teams
theorem cores : t.cores = s.cores := h.field State.cores
theorem clusters : t.clusters = s.clusters := h.field State.clusters

theorem part (p : BitVec 4) : (partOf t p).apartRecords = (partOf s p).apartRecords := by
  have hp : t.parts.map Partition.apartRecords = s.parts.map Partition.apartRecords := h.field State.parts
  simpa [partOf, Vector.get] using congrArg (·.get p.toFin) hp

theorem qbase (p : BitVec 4) : (partOf t p).qbase = (partOf s p).qbase := by
  have hq : (partOf t p).apartRecords.qbase = (partOf s p).apartRecords.qbase := congrArg Partition.qbase (h.part p)
  exact hq

end

/-- A change of the records of a partition. -/
theorem onPart (s : State) (p : BitVec 4) (f : Partition → Partition) (hf : ∀ q, (f q).apartRecords = q.apartRecords := by exact fun _ => rfl) :
    RecordsMove s (Machine.onPart s p f) := by
  have hm : (s.parts.set p.toNat (f (s.parts.get p.toFin)) p.isLt).map Partition.apartRecords = s.parts.map Partition.apartRecords := by
    rw [Vector.map_set, hf]
    ext1 i hi
    by_cases hp : p.toNat = i <;> simp [hp, Vector.get]
  simp only [RecordsMove, State.apartRecords, onPart_parts, hm]
  rfl

end RecordsMove

/-! ## Memory -/

theorem recordsMove_metLines (s : State) (key kid n : ℕ) : RecordsMove s (metLines s key kid n) := by
  rw [metLines, metErrors_eq]
  rfl

theorem recordsMove_sideRun (s : State) (pa : ℕ) (pair : BitVec 512) (bs : List Byte) : RecordsMove s (sideRun s pa pair bs) := by
  induction bs generalizing s pa with
  | nil => exact .refl s
  | cons b rest ih =>
    have hw : RecordsMove s (sideWrite s pa pair b) := .ite rfl rfl
    exact hw.trans (ih _ _)

theorem recordsMove_sideWrites (s : State) (pa : ℕ) (pair : BitVec 512) (bs : List Byte) : RecordsMove s (sideWrites s pa pair bs) :=
  (RecordsMove.foldl (fun s _ => .ite (.refl s) (recordsMove_sideRun s _ _ _)) _ s).trans (recordsMove_sideRun _ pa pair bs)

theorem recordsMove_putStored (s : State) (n kid : ℕ) (x : List Byte) (form : ℕ) : RecordsMove s (putStored s n kid x form) := by
  have hwrites := recordsMove_sideWrites s (2048 * n) (keyPair s kid) x
  unfold putStored
  generalize sideWrites s (2048 * n) (keyPair s kid) x = u at *
  exact hwrites.trans rfl

theorem recordsMove_bad (s : State) (bad : List ℕ) : RecordsMove s { s with bad := bad } := rfl

theorem recordsMove_log (s : State) (l : List ErrorEntry) : RecordsMove s { s with mgmt := { s.mgmt with log := l } } := rfl

theorem recordsMove_mergeStored (s : State) (n off kid : ℕ) (bale : Bool) (data : List Byte) :
    RecordsMove s (mergeStored s n off kid bale data) :=
  .ite (recordsMove_sideWrites s _ _ data) (recordsMove_putStored s n kid _ _)

theorem recordsMove_recallLine (s : State) (line : ℕ) : RecordsMove s (recallLine s line) := by
  have hclean : RecordsMove s (cleanLine s line) := rfl
  unfold recallLine
  split
  · exact .refl s
  · simp only
    split
    · exact .ite ((hclean.trans (recordsMove_sideWrites _ _ _ _)).trans (recordsMove_bad _ _)) (hclean.trans (recordsMove_putStored _ _ _ _ _))
    all_goals rfl

theorem recordsMove_interrupt (s : State) (p : BitVec 4) (bit : ℕ) : RecordsMove s (interrupt s p bit) := by
  have hstat := RecordsMove.onPart s p fun q => { q with intstat := q.intstat ||| BitVec.ofNat 10 (2 ^ bit) }
  exact .ite (.refl s) (.ite (hstat.trans rfl) hstat)

theorem recordsMove_noteLoss (s : State) (kind : BitVec 8) (pa : ℕ) : RecordsMove s (noteLoss s kind pa) := by
  have hqueued (p : BitVec 4) : RecordsMove s (interrupt (queueError s p { kind := kind, addr := BitVec.ofNat 64 pa }) p 6) :=
    (RecordsMove.onPart s p _).trans (recordsMove_interrupt _ p 6)
  unfold noteLoss
  split
  · exact hqueued _
  · exact (hqueued 0#4).trans (recordsMove_log _ _)

theorem recordsMove_evict (s : State) (pa : ℕ) : RecordsMove s (evict s pa) := by
  have hclean : RecordsMove s (cleanLine s (pa / 128 * 128)) := rfl
  unfold evict
  simp only
  split
  · exact .refl s
  · exact .ite (hclean.trans ((recordsMove_putStored _ _ _ _ 8).trans (recordsMove_noteLoss _ _ _)))
      (.ite (recordsMove_recallLine s _) ((recordsMove_recallLine s _).trans (recordsMove_noteLoss _ _ _)))

theorem recordsMove_controllerWrites (fuel : ℕ) (s : State) (l : Loc) (bs : List Byte) : RecordsMove s (controllerWrites fuel s l bs) := by
  induction fuel generalizing s l bs with
  | zero => exact .refl s
  | succ n ih => exact .ite (recordsMove_mergeStored s _ _ _ _ _) ((recordsMove_mergeStored s _ _ _ _ _).trans (ih _ _ _))

theorem recordsMove_writeBytes (s : State) (pa kid : ℕ) (bs : List Byte) : RecordsMove s (writeBytes s pa kid bs) := by
  rw [writeBytes_eq]
  rfl

theorem recordsMove_memoryWrite (s : State) (l : Loc) (bs : List Byte) : RecordsMove s (memoryWrite s l bs) := by
  refine (RecordsMove.foldl (f := fun s x => evict s (128 * x)) (fun s x => recordsMove_evict s (128 * x)) (linesOf l.key bs.length) s).trans ?_
  change RecordsMove _ (sideStore _ l bs)
  unfold sideStore
  split
  · exact recordsMove_controllerWrites _ _ l bs
  all_goals exact recordsMove_writeBytes _ _ _ bs

theorem recordsMove_physWrite {s t : State} {pa : ℕ} {bs : List Byte} (h : physWrite s pa bs = some t) : RecordsMove s t := by
  unfold physWrite at h
  split at h
  · exact absurd h nofun
  · obtain rfl := Option.some.inj h
    exact recordsMove_memoryWrite s _ bs

theorem recordsMove_partWrite {s t : State} {p : BitVec 4} {va : ℕ} {bs : List Byte} (h : partWrite s p va bs = some t) : RecordsMove s t := by
  obtain ⟨ls, -, h⟩ := Option.bind_eq_some_iff.1 h
  split at h
  · exact absurd h nofun
  · obtain rfl := Option.some.inj h
    exact .foldl (f := fun s (x : Loc × Byte) => memoryWrite s x.1 [x.2]) (fun s x => recordsMove_memoryWrite s x.1 [x.2]) _ s

/-! ## Records -/

theorem recordsMove_drainErrors (fuel : ℕ) (s : State) (p : BitVec 4) : RecordsMove s (drainErrors fuel s p) := by
  induction fuel generalizing s with
  | zero => exact .refl s
  | succ n ih =>
    unfold drainErrors
    simp only
    split
    · exact .refl s
    · refine .ite (.refl s) ?_
      split
      · exact ((recordsMove_metLines s _ _ _).trans (.onPart _ p _)).trans (recordsMove_log _ _)
      · rename_i h
        exact (recordsMove_physWrite h).trans ((RecordsMove.onPart _ p _).trans ((recordsMove_interrupt _ p 5).trans (ih _)))

theorem recordsMove_recordError (s : State) (p : BitVec 4) (e : ErrorEntry) : RecordsMove s (recordError s p e) :=
  (RecordsMove.onPart s p _).trans (recordsMove_drainErrors 65 _ p)

theorem recordsMove_drainWaybill (fuel : ℕ) (s : State) (p : BitVec 4) : RecordsMove s (drainWaybill fuel s p) := by
  induction fuel generalizing s with
  | zero => exact .refl s
  | succ n ih =>
    unfold drainWaybill
    simp only
    split
    · exact .refl s
    · refine .ite (.refl s) (.ite (recordsMove_interrupt s p 8) (.ite (.refl s) ?_))
      split
      · exact ((recordsMove_metLines s _ _ _).trans (.onPart _ p _)).trans (recordsMove_recordError _ p _)
      · rename_i h
        exact (recordsMove_physWrite h).trans ((RecordsMove.onPart _ p _).trans (ih _))

theorem recordsMove_logEntry (s : State) (e : WaybillEntry) : RecordsMove s (logEntry s e) :=
  .ite ((RecordsMove.onPart s s.team.part _).trans (recordsMove_drainWaybill _ _ _)) (.refl s)

end Sys2Proof.Machine
end

section
/-! PROOF. Commits that meet nothing to wait for and no recorded fault, and the points behind them: a pre-emption taken, a warp that leaves (02_words_and_registers.md R35, R38; 05_teams_and_warps.md R97, R98, R112; 15_system_and_traps.md R346, R347). -/
namespace Sys2Proof.Machine
open Sys2Proof

/-! ## What a commit leaves pending -/

section Blind

/-! A commit changes what the instructions that stay pending still write, and nothing else of them. -/

variable {α : Type} {g : Outstanding → α} (hg : ∀ o y z, g { o with sWrite := y, vWrites := z } = g o)
include hg

theorem show1_map (w : Warp) (o : Outstanding) : (w.show1 o).pending.map g = w.pending.map g := by
  have hlanes (x : Outstanding) (ws : List LaneWrite) : g { x with vWrites := ws } = g x := hg x x.sWrite ws
  have hboth (x : Outstanding) (y : Option (BitVec 6 × Word)) : g { x with sWrite := y } = g x := hg x y x.vWrites
  cases hs : o.sWrite with
  | none =>
    simp only [Warp.show1, hs, Warp.raise, Warp.showLanes, List.map_map]
    refine List.map_congr_left fun x _ => ?_
    simp only [Function.comp]
    split
    · exact hlanes ..
    · rfl
  | some y =>
    simp only [Warp.show1, hs, Warp.raise, Warp.showS, Warp.showLanes, List.map_map]
    refine List.map_congr_left fun x _ => ?_
    simp only [Function.comp, apply_ite g, hlanes, hboth, ite_self]

theorem commit_map (w : Warp) (p : Outstanding → Bool) :
    (w.commit p).1.pending.map g = (w.pending.filter fun o => !p o).map g := by
  have hshown (os : List Outstanding) (x : Warp) : (os.foldl Warp.show1 x).pending.map g = x.pending.map g := by
    induction os generalizing x with
    | nil => rfl
    | cons o rest ih => rw [List.foldl_cons, ih, show1_map hg]
  rw [commit_eq]
  exact hshown _ _

end Blind

section

variable {q : Outstanding → Bool} (hq : ∀ o y z, q { o with sWrite := y, vWrites := z } = q o)
include hq

theorem commit_any (w : Warp) (p : Outstanding → Bool) : (w.commit p).1.pending.any q = (w.pending.filter fun o => !p o).any q := by
  have h := congrArg (List.any · id) (commit_map hq w p)
  simpa only [List.any_map, Function.id_comp] using h

/-- Nothing that stands behind a commit was not there before it. -/
theorem commit_any_false {w : Warp} (h : w.pending.any q = false) (p : Outstanding → Bool) : (w.commit p).1.pending.any q = false := by
  rw [commit_any hq]
  simp only [List.any_eq_false, List.mem_filter, and_imp] at h ⊢
  exact fun o ho _ => h o ho

end

/-- What a commit names is pending no longer. -/
theorem commit_clears {w : Warp} {p : Outstanding → Bool} (hp : ∀ o y z, p { o with sWrite := y, vWrites := z } = p o) :
    ∀ o ∈ (w.commit p).1.pending, p o = false := by
  have h : (w.commit p).1.pending.any p = false := by
    rw [commit_any hp]
    simp
  simpa using h

/-- A commit that names nothing pending changes nothing. -/
theorem commit_nothing {w : Warp} {p : Outstanding → Bool} (h : ∀ o ∈ w.pending, p o = false) : w.commit p = (w, none) := by
  have hchosen : w.pending.filter p = [] := List.filter_eq_nil_iff.2 fun o ho => by simp [h o ho]
  have hrest : (w.pending.filter fun o => !p o) = w.pending := List.filter_eq_self.2 fun o ho => by simp [h o ho]
  rw [commit_eq, hchosen, hrest]
  rfl

/-! ## Commit points -/

section

variable {s : State} {w : Warp} {p : Outstanding → Bool}

/-- The warp after a commit, by what a commit leaves. -/
theorem committed_eq (hc : s.warp.commit p = (w, none)) : w = { s.warp with s := w.s, v := w.v, fpstat := w.fpstat, pending := w.pending } := by
  have h := commit_frame s.warp p
  rwa [hc] at h

/-- A second commit finds nothing to wait for, and nothing to commit. -/
theorem committed_again (hc : s.warp.commit flagged = (w, none)) : w.mustWait flagged = false ∧ w.commit flagged = (w, none) := by
  have hclear := commit_clears (w := s.warp) (p := flagged) fun _ _ _ => rfl
  rw [hc] at hclear
  exact ⟨List.any_eq_false.2 fun o ho => by simp [hclear o ho], commit_nothing hclear⟩

theorem commitOf_commits (hw : s.warp.mustWait flagged = false) (hc : s.warp.commit p = (w, none)) (k : State → State) :
    commitOf p s k = k { s with warp := w } := by
  simp only [commitOf, hw, hc, Bool.false_eq_true, if_false]

section

variable (hw : s.warp.mustWait flagged = false) (hc : s.warp.commit flagged = (w, none))
include hw hc

/-- With a pre-emption pending outside a handler the point takes it (R346). -/
theorem preemptPoint_takes (hp : s.team.preempt = true) (hi : s.warp.intrap = false) (dead : Bool) (k : State → State) :
    preemptPoint s dead k = takePreemption { s with warp := w } dead := by
  have hi' : w.intrap = false := by rw [committed_eq hc]; exact hi
  rw [preemptPoint, commitPoint, commitOf_commits hw hc]
  simp only [hp, hi', Bool.not_false, Bool.and_true, if_true]

/-- With none pending the point is passed. -/
theorem preemptPoint_passes (hp : s.team.preempt = false) (dead : Bool) (k : State → State) :
    preemptPoint s dead k = k { s with warp := w } := by
  rw [preemptPoint_calm hp, commitPoint, commitOf_commits hw hc]

end

/-! ## A pre-emption taken (R346, R347) -/

theorem clusterOf_onCluster (s : State) (n m : Nat) (f : Cluster → Cluster) :
    clusterOf (onCluster s n f) m = if m = n ∧ n < 52 then f (clusterOf s n) else clusterOf s m := by
  simp only [clusterOf, onCluster, List.getD_eq_getElem?_getD, Vector.getElem?_toList, Vector.getElem?_setIfInBounds]
  by_cases h : m = n
  · by_cases hn : n < 52 <;> simp [h, hn]
  · simp [h, Ne.symm h]

/-- The unspent lease of the warp stands in its cluster's pool again (17_cryogenic_and_power.md R377). -/
def LeaseBack (s t : State) : Prop :=
  (coreCluster s.warp.core < 52 →
    (clusterOf t (coreCluster s.warp.core)).pool = (clusterOf s (coreCluster s.warp.core)).pool + s.warp.lease) ∧
  ∀ c, c ≠ coreCluster s.warp.core → clusterOf t c = clusterOf s c

theorem leaseBack_pool {s t : State}
    (h : t.clusters = (onCluster s (coreCluster s.warp.core) fun c => { c with pool := c.pool + s.warp.lease }).clusters) : LeaseBack s t := by
  have hall (n : Nat) : clusterOf t n = clusterOf (onCluster s (coreCluster s.warp.core) fun c => { c with pool := c.pool + s.warp.lease }) n := by
    rw [clusterOf, h]; rfl
  refine ⟨fun hn => ?_, fun c hc => ?_⟩
  · rw [hall, clusterOf_onCluster, if_pos ⟨rfl, hn⟩]
  · rw [hall, clusterOf_onCluster, if_neg fun hm => hc hm.1]

/-- A word at which the warp is saved, its results committed. -/
theorem takes_preemption {i : Instr} {dead : Bool} (hl : s.warp.lanes = none) (hc : s.warp.commit flagged = (w, none))
    (h : exec i s = .next (takePreemption { s with warp := w } dead)) :
    ∃ t, exec i s = .next t ∧ LeaseBack s t ∧
      t = { s with
        clusters := t.clusters
        team := { s.team with k := 0 }
        warp := { w with
          status := .saved dead, trapcause := 14#64, trappc := BitVec.ofInt 64 s.warp.pos.pc, trapnpc := BitVec.ofInt 64 s.warp.pos.pc
          traphdr := BitVec.ofInt 64 s.warp.pos.hdr, park := .none, wait := 0, urgent := false, lease := 0, service := {}, paid := false
          st := w.st.map fun x => { x with ahead := [], held := [] } } } := by
  have hw := committed_eq hc
  have hat : w.at = s.warp.pos := by rw [hw]; exact at_uniform s.warp hl
  have hcause : trapcauseOf 0#8 false false Cause.preemption.code = 14#64 := by decide
  refine ⟨_, h, leaseBack_pool ?_, ?_⟩
  · rw [hw]; rfl
  · simp only [takePreemption, hat, hcause, addrWord, onCluster]

/-! ## A warp that leaves (05_teams_and_warps.md R112) -/

/-- The focused warp has left its team, and what it had of its lease has gone back; `k` is what would be left of a shrink request. -/
structure Leaves (s t : State) (k : Nat) : Prop where
  gone : t.warp = {}
  lease : LeaseBack s t
  peers : t.team.peers = s.team.peers
  tid : t.team.tid = s.team.tid
  shrink : t.team.k = if s.team.peers.length ≤ s.team.launch.minw then 0 else k
  teams : t.teams = s.teams
  cores : t.cores = s.cores
  mem : s.team.launch.rrecord = false → t.mem = s.mem

/-- The barriers that a warp leaves: its memberships and the counts of the barriers change. -/
theorem foldl_leaveBar (bs : List Nat) (s : State) : ∃ ms xs,
    bs.foldl leaveBar s = { s with warp := { s.warp with bars := ms }, team := { s.team with bars := xs } } := by
  induction bs generalizing s with
  | nil => exact ⟨_, _, rfl⟩
  | cons b rest ih =>
    have hleave : ∃ ms xs, leaveBar s b = { s with warp := { s.warp with bars := ms }, team := { s.team with bars := xs } } := by
      unfold leaveBar
      simp only
      split
      · exact ⟨_, _, rfl⟩
      · exact ⟨_, _, rfl⟩
    obtain ⟨ms, xs, hb⟩ := hleave
    obtain ⟨ns, ys, hrest⟩ := ih (leaveBar s b)
    exact ⟨ns, ys, by rw [List.foldl_cons, hrest, hb]⟩

theorem logEntry_mem {s : State} {e : WaybillEntry} (hr : s.team.launch.rrecord = false) : (logEntry s e).mem = s.mem := by
  rw [logEntry, if_neg (by simp [hr])]

/-- The focused warp has left the barriers of its team, and its lease has gone back. -/
def leftBars (s : State) : State := ((List.range 16).foldl leaveBar (returnLease s)).onTeam fun t => t.orphan s.warp.idx

theorem leftBars_eq (s : State) : ∃ ms xs ys, leftBars s =
    { onCluster s (coreCluster s.warp.core) fun c => { c with pool := c.pool + s.warp.lease } with
      warp := { s.warp with lease := 0, bars := ms }, team := { s.team with bars := xs, miles := ys } } := by
  obtain ⟨ms, xs, hb⟩ := foldl_leaveBar (List.range 16) (returnLease s)
  rw [leftBars, hb]
  exact ⟨_, _, _, rfl⟩

/-- The focused warp is no more, and the shrink request of its team is settled. -/
def departed (s : State) (shrink : Bool) : State :=
  { s with warp := {}, team := s.team.settleShrink (s.count - 1) (if shrink then s.team.k - 1 else s.team.k) }

theorem leaveTeam_eq (s : State) (shrink : Bool) : leaveTeam s shrink =
    departed (logEntry (leftBars s) (teamEntry (leftBars s) 5 (leftBars s).warp.idx 0 (if shrink then 1#64 else 0#64))) shrink := by
  unfold leaveTeam departed leftBars
  rfl

theorem leaveTeam_leaves {s : State} (hr : s.warp.status = .running) (shrink : Bool) :
    Leaves s (leaveTeam s shrink) (if shrink then s.team.k - 1 else s.team.k) := by
  obtain ⟨ms, xs, ys, hleft⟩ := leftBars_eq s
  rw [leaveTeam_eq]
  generalize teamEntry _ _ _ _ _ = e
  rw [hleft]
  have hmem := logEntry_mem (s := leftBars s) (e := e)
  have hlog := recordsMove_logEntry (leftBars s) e
  rw [hleft] at hlog hmem
  generalize logEntry _ e = v at *
  have hcount : v.count = s.team.peers.length + 1 := by
    rw [State.count, State.mates, hlog.warp, hlog.team, if_neg (by simp [hr])]
    rfl
  rw [departed, hcount, hlog.team]
  exact
    { gone := rfl, lease := leaseBack_pool hlog.clusters, peers := rfl, tid := rfl, shrink := rfl
      teams := hlog.teams, cores := hlog.cores, mem := hmem }

/-- A commit changes neither the place of a warp nor its lease. -/
theorem Leaves.of_committed {t : State} {k : Nat} (hc : s.warp.commit p = (w, none)) (h : Leaves { s with warp := w } t k) : Leaves s t k := by
  rw [committed_eq hc] at h
  exact { h with lease := h.lease }

theorem mustWait_lateSync (h : ∀ o ∈ w.pending, o.late = true → o.flag = none → o.done = true) : w.mustWait lateSync = false := by
  refine List.any_eq_false.2 fun o ho hwait => ?_
  simp only [lateSync, Outstanding.onEngine, Bool.and_eq_true, Option.isNone_iff_eq_none, Bool.not_eq_true'] at hwait
  obtain ⟨⟨hlate, hflag⟩, -, hdone⟩ := hwait
  exact absurd (h o ho hlate hflag) (by simp [hdone])

theorem mustWait_committed (hc : s.warp.commit p = (w, none)) (hlate : s.warp.mustWait lateSync = false) : w.mustWait lateSync = false := by
  have h := commit_any_false (q := fun o => lateSync o && o.onEngine) (fun _ _ _ => rfl) hlate p
  rwa [hc] at h

/-- A leave that finds nothing to wait for and no recorded fault (R112; log 70). -/
theorem exitPoint_leaves (hr : s.warp.status = .running) (hw : s.warp.mustWait flagged = false) (hc : s.warp.commit everyFlag = (w, none))
    (hlate : s.warp.mustWait lateSync = false) (shrink : Bool) :
    Leaves s (exitPoint s fun s => departTeam s shrink) (if shrink then s.team.k - 1 else s.team.k) := by
  have hr' : w.status = .running := by rw [committed_eq hc]; exact hr
  have hnext : (exitPoint s fun s => departTeam s shrink) = leaveTeam { s with warp := w } shrink := by
    rw [exitPoint, commitOf_commits hw hc, departTeam]
    exact if_neg (by simp [mustWait_committed hc hlate])
  rw [hnext]
  exact (leaveTeam_leaves (s := { s with warp := w }) hr' shrink).of_committed hc

/-! ## The points of `SETVL` and `TSET` (R98) -/

section

variable (hw : s.warp.mustWait flagged = false) (hc : s.warp.commit flagged = (w, none))
include hw hc

theorem grantPoint_takes (hp : s.team.preempt = true) (hi : s.warp.intrap = false) (k : State → State) :
    grantPoint s k = takePreemption { s with warp := w } true :=
  preemptPoint_takes hw hc hp hi true _

/-- A shrink request that is due makes the warp leave. -/
theorem grantPoint_leaves (hp : s.team.preempt = false) (hi : s.warp.intrap = false) (hr : s.warp.status = .running) (hk : 0 < s.team.k)
    (hmin : s.team.launch.minw < s.team.peers.length + 1) (he : (w.commit everyFlag).2 = none) (hlate : s.warp.mustWait lateSync = false)
    (k : State → State) : Leaves s (grantPoint s k) (s.team.k - 1) := by
  obtain ⟨hw', -⟩ := committed_again hc
  have hfields := committed_eq hc
  have hr' : w.status = .running := by rw [hfields]; exact hr
  have hi' : w.intrap = false := by rw [hfields]; exact hi
  have hdue : shrinkDue { s with warp := w } = true := by
    simp [shrinkDue, State.count, State.mates, hr', hi', hk, hmin]
  have hpoint : grantPoint s k = exitPoint { s with warp := w } fun s => departTeam s true := by
    rw [grantPoint, preemptPoint_passes hw hc hp]
    exact if_pos hdue
  rw [hpoint]
  exact (exitPoint_leaves (s := { s with warp := w }) hr' hw' (Prod.ext rfl he) (mustWait_committed hc hlate) true).of_committed hc

end

end

end Sys2Proof.Machine
end

section
/-! PROOF. The pre-emption points (05_teams_and_warps.md R98; 15_system_and_traps.md R346, R347; O39). -/
namespace Sys2Proof.Machine
open Sys2Proof

section

variable {s : State} {w : Warp}

/-! ## The words that stand at a point, outside lane mode -/

theorem exec_setvl_point (hl : s.warp.lanes = none) (d a : BitVec 6) (et : ET) {blk : BitVec 3} {grp : BitVec 2}
    (hfits : stripLen blk.toNat ≤ s.w * 32 * 2 ^ grp.toNat / et.width) : ∃ k, exec (.setvl d a et blk grp) s = .next (grantPoint s k) := by
  change ∃ k, execSetvl d a et blk grp s = .next (grantPoint s k)
  unfold execSetvl
  exact ⟨_, guarded_pass (by simp [vectorOnly, inLanes_none _ hl, fits, hfits])⟩

/-- `TSET` commits before it looks at its slot, and again at its point. -/
theorem exec_tset_point (hl : s.warp.lanes = none) (hw : s.warp.mustWait flagged = false) (hc : s.warp.commit flagged = (w, none)) {n : BitVec 3}
    (hslot : n.toNat < s.team.launch.tiles) (htiles : s.team.tiles = true) (d a : BitVec 6) (aty bty : ET) (blk : BitVec 3) :
    ∃ k, exec (.tset n d a aty bty blk) s = .next (grantPoint { s with warp := w } k) := by
  change ∃ k, execTset n d a aty bty blk s = .next (grantPoint { s with warp := w } k)
  unfold execTset
  rw [guarded_pass (by simp [vectorOnly, slotOk, inLanes_none _ hl, hslot]), commitPoint, commitOf_commits hw hc, whenEnabled, if_pos (by exact htiles)]
  exact ⟨_, rfl⟩

theorem barrierWord_member {b : BitVec 4} (hl : s.warp.lanes = none) (hm : (s.warp.part b.toNat).member = true) (k : State → State) :
    barrierWord s b k = .next (k s) := by
  rw [barrierWord, guarded_pass (by simp [vectorOnly, inLanes_none _ hl]), if_pos hm]

theorem exec_barwait_point {b : BitVec 4} (hl : s.warp.lanes = none) (hm : (s.warp.part b.toNat).member = true) :
    exec (.barwait b) s = .next (preemptPoint s false fun s => barWaitFor s b.toNat true) :=
  barrierWord_member hl hm fun s => preemptPoint s false fun s => barWaitFor s b.toNat true

theorem exec_cwait_point (hl : s.warp.lanes = none) (a : BitVec 6) (ch : BitVec 4) :
    ∃ k, exec (.cwait a ch) s = .next (preemptPoint s false k) := by
  change ∃ k, execCwait a ch s = .next (preemptPoint s false k)
  unfold execCwait
  exact ⟨_, guarded_pass (by simp [vectorOnly, inLanes_none _ hl])⟩

theorem exec_yield_point (hl : s.warp.lanes = none) :
    exec .yield s = .next (preemptPoint s false fun s => s.onWarp Warp.yielded) := by
  change execYield s = _
  exact guarded_pass (by simp [vectorOnly, inLanes_none _ hl])

end

/-- Settles O39: each of the five words comes to its point with its results committed, and takes there what is due. -/
theorem preemptionPoints : Obligations.PreemptionPoints := by
  unfold Obligations.PreemptionPoints
  intro s w d a et aty bty blk n grp b ch hl hi hw hc
  obtain ⟨hw', hc'⟩ := committed_again hc
  have hi' : w.intrap = false := by rw [committed_eq hc]; exact hi
  refine ⟨fun hp => ?_, fun hp hr hk hmin he hlate => ?_⟩
  · refine ⟨fun hfits => ?_, fun ⟨hslot, htiles⟩ => ?_, fun hm => ?_, ?_, ?_⟩ <;> refine takes_preemption hl hc ?_
    · obtain ⟨k, hk⟩ := exec_setvl_point hl d a et hfits
      rw [hk, grantPoint_takes hw hc hp hi]
    · obtain ⟨k, hk⟩ := exec_tset_point hl hw hc hslot htiles d a aty bty blk
      rw [hk, grantPoint_takes (s := { s with warp := w }) hw' hc' hp hi']
    · rw [exec_barwait_point hl hm, preemptPoint_takes hw hc hp hi]
    · obtain ⟨k, hk⟩ := exec_cwait_point hl a ch
      rw [hk, preemptPoint_takes hw hc hp hi]
    · rw [exec_yield_point hl, preemptPoint_takes hw hc hp hi]
  · have hleft {i : Instr} {t : State} (hnext : exec i s = .next t) (h : Leaves s t (s.team.k - 1)) : ∃ t, exec i s = .next t ∧ t.warp = {} ∧
        LeaseBack s t ∧ t.team.peers = s.team.peers ∧ t.team.tid = s.team.tid ∧
        t.team.k = (if s.team.peers.length ≤ s.team.launch.minw then 0 else s.team.k - 1) ∧ t.teams = s.teams ∧ t.cores = s.cores ∧
        (s.team.launch.rrecord = false → t.mem = s.mem) :=
      ⟨t, hnext, h.gone, h.lease, h.peers, h.tid, h.shrink, h.teams, h.cores, h.mem⟩
    have hlate' := mustWait_lateSync hlate
    have hr' : w.status = .running := by rw [committed_eq hc]; exact hr
    refine ⟨fun hfits => ?_, fun ⟨hslot, htiles⟩ => ?_⟩
    · obtain ⟨k, hnext⟩ := exec_setvl_point hl d a et hfits
      exact hleft hnext (grantPoint_leaves hw hc hp hi hr hk hmin he hlate' k)
    · obtain ⟨k, hnext⟩ := exec_tset_point hl hw hc hslot htiles d a aty bty blk
      have hstands := grantPoint_leaves (s := { s with warp := w }) hw' hc' hp hi' hr' hk hmin he (mustWait_committed hc hlate') k
      exact hleft hnext (hstands.of_committed hc)

end Sys2Proof.Machine
end

section
/-! PROOF. Leaving, halting, yielding and launching (05_teams_and_warps.md R112, R118, R119; 15_system_and_traps.md R345; O42). -/
namespace Sys2Proof.Machine
open Sys2Proof

section

variable {s : State} {w : Warp}

/-! ## `TLEAVE`, `HALT` and `YIELD` -/

theorem exec_tleave_point (hl : s.warp.lanes = none) : exec .tleave s = .next (exitPoint s fun s => departTeam s false) := by
  change execTleave s = _
  exact guarded_pass (by simp [vectorOnly, inLanes_none _ hl])

theorem exec_haltWarp_point (hl : s.warp.lanes = none) (hi : s.warp.intrap = true) :
    exec .haltWarp s = .next (exitPoint s fun s => departTeam s false) := by
  change execHaltWarp s = _
  exact guarded_pass (by simp [vectorOnly, privileged, inLanes_none _ hl, hi])

/-- A team that is killed has no warp and no milestone left; the other teams stay (R345; log 23). -/
theorem killTeam_kills (s : State) : (killTeam s).warp = {} ∧ (killTeam s).team.killed = true ∧ (killTeam s).team.peers = [] ∧
    (killTeam s).team.miles = [] ∧ (killTeam s).teams = s.teams := by
  have hgone : SameMasters s (s.mates.foldl (fun s w =>
      dropManifests (onCluster s (coreCluster w.core) fun c => { c with pool := c.pool + w.lease })
        s.team.part (.warp { team := s.team.tid, warp := w.idx })) s) :=
    .foldl (fun u (x : Warp) => SameMasters.trans (t := onCluster u (coreCluster x.core) fun c => { c with pool := c.pool + x.lease }) rfl (.onPart _ _ _)) _ s
  exact ⟨rfl, rfl, rfl, rfl, hgone.teams⟩

theorem exec_haltTeam_kills (hl : s.warp.lanes = none) (hi : s.warp.intrap = true) (a : BitVec 6) :
    ∃ t, exec (.haltTeam a) s = .next t ∧ t.warp = {} ∧ t.team.killed = true ∧ t.team.peers = [] ∧ t.team.miles = [] ∧ t.teams = s.teams := by
  change ∃ t, execHaltTeam a s = .next t ∧ _
  unfold execHaltTeam
  rw [guarded_pass (by simp [vectorOnly, privileged, inLanes_none _ hl, hi])]
  obtain ⟨hwarp, hkilled, hpeers, hmiles, hteams⟩ := killTeam_kills (recordError s s.team.part
    { kind := 3#8, team := BitVec.ofNat 32 s.team.lin, value := (s.warp.readS a).setWidth 32, core := coreCode s.warp.core })
  exact ⟨_, rfl, hwarp, hkilled, hpeers, hmiles, hteams.trans (masters_recordError ..).teams⟩

/-- A warp that yields goes on as after a header with YLD = 2 (R119). -/
theorem yielded_uniform (hl : w.lanes = none) : w.yielded = { w with
    pos := w.pos.after, yieldOff := 5, yieldLow := 9, wait := 0, urgent := false, park := .none, service := {}, paid := false } := by
  obtain ⟨y, z, hadv⟩ := advance_uniform w hl
  rw [Warp.yielded, hadv]

theorem exec_yield_goesOn (hl : s.warp.lanes = none) (hw : s.warp.mustWait flagged = false) (hp : s.team.preempt = false)
    (hc : s.warp.commit flagged = (w, none)) : ∃ t, exec .yield s = .next t ∧ t = { s with warp := { w with
      pos := s.warp.pos.after, yieldOff := 5, yieldLow := 9, wait := 0, urgent := false, park := .none, service := {}, paid := false } } := by
  have hl' : w.lanes = none := by rw [committed_eq hc]; exact hl
  have hpos : w.pos = s.warp.pos := by rw [committed_eq hc]
  refine ⟨_, (exec_yield_point hl).trans (congrArg _ (preemptPoint_passes hw hc hp false _)), ?_⟩
  rw [← hpos]
  exact congrArg (fun x => { s with warp := x }) (yielded_uniform hl')

/-! ## `KLAUNCH` (R118) -/

/-- A state in which nothing but the translation caches and the free choices has moved. -/
def Settled (s u : State) : Prop := u = { s with xlate := u.xlate, tables := u.tables, draws := u.draws }

theorem settle_settled (s : State) (part : BitVec 4) (xs : List (Elt × Loc)) : Settled s (settle s part xs) := by
  unfold Settled settle keepOks
  rw [keepPages_eq]
  rfl

/-- What a uniform result changes, and that its warp goes on. -/
structure Replied (u t : State) (d : BitVec 6) (v : Word) : Prop where
  wrote : wroteS u.warp t.warp d v
  pending : t.warp.pending = u.warp.stoppedS d
  pos : t.warp.pos = u.warp.pos.after
  frame : UniformFrame u t

theorem launchReply_replied {u : State} (hl : u.warp.lanes = none) (d : BitVec 6) (code : Nat) (tail : BitVec 32) :
    Replied u (launchReply u d code tail) d (BitVec.ofNat 64 (code * 2 ^ 48 + tail.toNat)) := by
  have hlanes : (u.warp.writeS d (launchResult code tail)).lanes = none := by rw [writeS_eq]; exact hl
  obtain ⟨y, z, hadv⟩ := advance_uniform _ hlanes
  have hwrote := wroteS_writeS u.warp d (launchResult code tail)
  constructor <;> simp only [launchReply, State.advance, State.onWarp, hadv]
  · exact hwrote
  · exact writeS_stops ..
  · rw [writeS_eq]
  · exact ⟨by rw [writeS_eq], writeS_pending u.warp d (launchResult code tail)⟩

section

variable {s u : State} (h : Settled s u)
include h

theorem Settled.warp : u.warp = s.warp := by rw [show u = _ from h]
theorem Settled.team : u.team = s.team := by rw [show u = _ from h]
theorem Settled.part : u.part = s.part := by rw [show u = _ from h]; rfl

end

/-- A reply without an ID, after the access of the record has settled. -/
theorem launchReply_settled {s u : State} (h : Settled s u) (hl : s.warp.lanes = none) (d : BitVec 6) (code : Nat) :
    let t := launchReply u d code 0#32
    wroteS s.warp t.warp d (BitVec.ofNat 64 (code * 2 ^ 48)) ∧ t.warp.pending = s.warp.stoppedS d ∧ t.warp.pos = s.warp.pos.after ∧
      UniformFrame { s with xlate := t.xlate, tables := t.tables, draws := t.draws } t := by
  have hlanes : u.warp.lanes = none := by rw [h.warp, hl]
  obtain ⟨hwrote, hpending, hpos, hframe⟩ := launchReply_replied hlanes d code 0#32
  rw [h.warp, BitVec.toNat_zero, Nat.add_zero] at hwrote
  rw [h.warp] at hpending hpos
  have hsame : { s with xlate := u.xlate, tables := u.tables, draws := u.draws } = u := h.symm
  exact ⟨hwrote, hpending, hpos, hsame ▸ hframe⟩

theorem exec_klaunch_misaligned (hl : s.warp.lanes = none) {a : BitVec 6} (h : (s.warp.readS a).toNat % 128 ≠ 0) (d b : BitVec 6) :
    exec (.klaunch d a b) s = .next (launchReply s d 4 0#32) := by
  change execKlaunch d a b s = _
  unfold execKlaunch
  rw [guarded_pass (by simp [vectorOnly, inLanes_none _ hl]), if_pos (by simpa using h)]

/-- A record that is read at once is launched on (R118, step 3). -/
theorem exec_klaunch_runs (hl : s.warp.lanes = none) {a b : BitVec 6} {x : Elt × Loc} (h : (s.warp.readS a).toNat % 128 = 0)
    (hplan : planOf s { s.ask .read 1024 with trims := false } [{ k := 0, va := (s.warp.readS a).toNat }] = .run [x] none)
    (hheld : launchHeld s (s.warp.readS b).toNat = none) (d : BitVec 6) : exec (.klaunch d a b) s =
      .next (launchOn (settle s s.team.part [x]) d (s.warp.readS b).toNat (readBytes s x.2.key x.2.kid 128)) := by
  change execKlaunch d a b s = _
  unfold execKlaunch
  rw [guarded_pass (by simp [vectorOnly, inLanes_none _ hl]), if_neg (by simpa using h)]
  simp only [hplan, hheld]
  rfl

/-! ### Step 3, by its cases -/

section

variable {u : State} {d : BitVec 6} {queue : Nat} {bytes : List Byte} {q : QueueDesc}

theorem launchOn_noQueue (h : 8 ≤ queue) : launchOn u d queue bytes = launchReply u d 3 0#32 := if_pos h

variable (hq : queue < 8) (hr : readQueue u u.team.part (BitVec.ofNat 3 queue) = some q)
include hq hr

theorem launchOn_read : launchOn u d queue bytes =
    if !q.enable || q.err != 0#32 || !q.sized then launchReply u d 3 0#32
    else if !q.devfed then launchReply u d 2 0#32
    else if (q.tail - q.head).toNat = 2 ^ q.logsize then launchReply u d 1 0#32
    else appendRecord u d (BitVec.ofNat 3 queue) q bytes := by
  rw [launchOn, if_neg (Nat.not_le.2 hq)]
  simp only [hr]

theorem launchOn_refused (h : q.enable = false ∨ q.err ≠ 0#32 ∨ q.sized = false) :
    launchOn u d queue bytes = launchReply u d 3 0#32 := by
  rw [launchOn_read hq hr]
  exact if_pos (by rcases h with h | h | h <;> simp [h])

variable (he : q.enable = true) (hz : q.err = 0#32) (hs : q.sized = true)
include he hz hs

theorem launchOn_served : launchOn u d queue bytes =
    if !q.devfed then launchReply u d 2 0#32
    else if (q.tail - q.head).toNat = 2 ^ q.logsize then launchReply u d 1 0#32
    else appendRecord u d (BitVec.ofNat 3 queue) q bytes := by
  rw [launchOn_read hq hr, if_neg (by simp [he, hz, hs])]

end

/-- A record whose two writes succeed stands in its queue, and its ID is the reply. -/
theorem appendRecord_replied {u s2 s3 : State} {queue : Nat} {x : QueueDesc} {bytes : List Byte} (hl : u.warp.lanes = none) (hq : queue < 8)
    (hrec : partWrite u u.team.part (x.base + 128 * (x.tail.toNat % 2 ^ x.logsize)) bytes = some s2)
    (htail : partWrite s2 u.team.part (u.part.qbase.toNat + 64 * queue + 16) (leBytes 4 (x.tail + 1#32).toNat) = some s3) (d : BitVec 6) :
    let t := appendRecord u d (BitVec.ofNat 3 queue) x bytes
    wroteS u.warp t.warp d (BitVec.ofNat 64 x.tail.toNat) ∧ t.warp.pending = u.warp.stoppedS d ∧ t.warp.pos = u.warp.pos.after ∧
      UniformFrame { s3 with parts := t.parts } t := by
  have hwrote := recordsMove_partWrite hrec
  have hboth := hwrote.trans (recordsMove_partWrite htail)
  have haddr : queueAddr (partOf s2 u.team.part) (BitVec.ofNat 3 queue) + 16 = u.part.qbase.toNat + 64 * queue + 16 := by
    rw [queueAddr, hwrote.qbase, BitVec.toNat_ofNat, Nat.mod_eq_of_lt (show queue < 2 ^ 3 from hq)]
    rfl
  let v := onQueue s3 u.team.part (BitVec.ofNat 3 queue) fun v => if v.serving then { v with tail := x.tail + 1#32 } else v
  have happend : appendRecord u d (BitVec.ofNat 3 queue) x bytes = launchReply v d 0 x.tail := by
    rw [appendRecord, hrec, Option.bind_some, haddr, htail]
  have hwarp : v.warp = u.warp := hboth.warp
  have hreply := launchReply_replied (u := v) (hwarp ▸ hl) d 0 x.tail
  rw [Nat.zero_mul, Nat.zero_add] at hreply
  intro t
  have ht : t = launchReply v d 0 x.tail := happend
  rw [ht, ← hwarp]
  exact ⟨hreply.wrote, hreply.pending, hreply.pos, hreply.frame⟩

end

/-- Settles O42: the leaves by `exitPoint_leaves`, and `KLAUNCH` by the cases of its third step. -/
theorem warpsEnd : Obligations.WarpsEnd := by
  unfold Obligations.WarpsEnd
  intro s w d a b hl hw
  refine ⟨fun hr hc hlate => ?_, fun hi => exec_haltTeam_kills hl hi a, fun hp hc => exec_yield_goesOn hl hw hp hc, fun h => ?_,
    fun x hal hplan hheld => ?_⟩
  · have hleft {i : Instr} (hnext : exec i s = .next (exitPoint s fun s => departTeam s false)) : ∃ t, exec i s = .next t ∧ t.warp = {} ∧
        t.team.peers = s.team.peers ∧ t.team.tid = s.team.tid ∧ t.team.k = (if s.team.peers.length ≤ s.team.launch.minw then 0 else s.team.k) ∧
        t.teams = s.teams ∧ t.cores = s.cores ∧ (coreCluster s.warp.core < 52 →
          (clusterOf t (coreCluster s.warp.core)).pool = (clusterOf s (coreCluster s.warp.core)).pool + s.warp.lease) ∧
        (s.team.launch.rrecord = false → t.mem = s.mem) :=
      have h := exitPoint_leaves hr hw hc (mustWait_lateSync hlate) false
      ⟨_, hnext, h.gone, h.peers, h.tid, h.shrink, h.teams, h.cores, h.lease.1, h.mem⟩
    exact ⟨hleft (exec_tleave_point hl), fun hi => hleft (exec_haltWarp_point hl hi)⟩
  · have hreply := launchReply_replied hl d 4 0#32
    exact ⟨_, exec_klaunch_misaligned hl h d b, hreply.wrote, hreply.pending, hreply.pos, hreply.frame⟩
  · have hset := settle_settled s s.team.part [x]
    have hexec := exec_klaunch_runs hl hal hplan hheld d
    intro u
    have hreply {code : Nat} (h : launchOn u d (s.warp.readS b).toNat (readBytes s x.2.key x.2.kid 128) = launchReply u d code 0#32) :
        exec (.klaunch d a b) s = .next (launchReply u d code 0#32) := hexec.trans (congrArg _ h)
    refine ⟨fun h8 => ⟨_, hreply (launchOn_noQueue h8), launchReply_settled hset hl d 3⟩, fun q hq hr => ?_⟩
    rw [← hset.team] at hr
    refine ⟨fun h => ⟨_, hreply (launchOn_refused hq hr h), launchReply_settled hset hl d 3⟩, fun he hz hs => ?_⟩
    have hserved := launchOn_served (d := d) (bytes := readBytes s x.2.key x.2.kid 128) hq hr he hz hs
    refine ⟨fun hdev => ⟨_, hreply (hserved.trans (if_pos (by simp [hdev]))), launchReply_settled hset hl d 2⟩, fun hdev hfull => ?_,
      fun s2 s3 hdev hroom hrec htail => ?_⟩
    · have hone : launchOn u d (s.warp.readS b).toNat (readBytes s x.2.key x.2.kid 128) = launchReply u d 1 0#32 := by
        rw [hserved, if_neg (by simp [hdev]), if_pos hfull]
      exact ⟨_, hreply hone, launchReply_settled hset hl d 1⟩
    · rw [← hset.team] at hrec htail
      rw [← hset.part] at htail
      have happended := appendRecord_replied (u := u) (hset.warp ▸ hl) hq hrec htail d
      rw [hset.warp] at happended
      rw [if_neg (by simp [hdev]), if_neg hroom] at hserved
      exact ⟨_, hexec.trans (congrArg _ hserved), happended⟩

end Sys2Proof.Machine
end

section
/-! PROOF. Growth of a team (05_teams_and_warps.md R99, R111; 19_code_objects.md R406): O40 fails, since an entry of the waymark table that one attach cannot read is read by the next. -/
namespace Sys2Proof.Machine
open Sys2Proof

theorem logWarp_team (s : State) (event slot : Nat) (value : Word) : (logWarp s event slot value).team = s.team := by
  have hlog := (masters_logEntry (s.onWarp fun w => { w with events := w.events.modify event (· + 1) }) (teamEntry s event s.warp.idx slot value)).team
  unfold logWarp
  simp only
  split
  · exact hlog
  · exact hlog

/-- An attach adds its warp to the focused team and tests the barriers; the rest of the team is as it was. -/
theorem attachWarp_team (s : State) : ∃ bars, (attachWarp s).team = { s.team with bars := bars, peers := s.team.peers ++ [attached s] } := by
  have hteam := (masters_attachLogged s).team
  rw [attachWarp_eq, foldl_barEvent, onTeam_team, hteam]
  exact ⟨_, rfl⟩

/-- Without replay-follow `TGROW` attaches as many warps as it grants (R111). -/
theorem exec_tgrow {s : State} (hl : s.warp.lanes = none) (hf : s.team.launch.rfollow = false) (d a : BitVec 6) :
    ∃ t, exec (.tgrow d a) s = .next t ∧ t.team = (attachMany (min (s.warp.readS a).toNat (attachable s)) s).team := by
  have hexec : exec (.tgrow d a) s = guarded [vectorOnly s] s fun s =>
      followed s 6 (BitVec.ofNat 64 (min (s.warp.readS a).toNat (attachable s))) (fun g => if attachable s < g then some 0x82#8 else none) fun s g =>
        logWarp ((attachMany g.toNat s).onWarp fun w => w.writeS d g).advance 6 0 g := rfl
  have hword : (BitVec.ofNat 64 (min (s.warp.readS a).toNat (attachable s))).toNat = min (s.warp.readS a).toNat (attachable s) := by
    rw [BitVec.toNat_ofNat, Nat.mod_eq_of_lt (Nat.lt_of_le_of_lt (Nat.min_le_left ..) (s.warp.readS a).isLt)]
  refine ⟨_, hexec.trans (guarded_pass (by simp [vectorOnly, inLanes_none _ hl])), ?_⟩
  rw [followed, if_neg (by simp [hf]), logWarp_team, hword]
  rfl

/-- A team of one warp with room for three more, that asks for two. The one entry of its waymark table moves the block of its attach entry, 0x10000, to 0x20000, and stands in a granule with an uncorrectable error. -/
def staleTable : State :=
  { State.reset with
    warp := { status := .running, s := (Vector.replicate 64 0#64).set 1 2#64 }
    team := { status := .running, launch := { attach := 0x10000#64, elastic := true, minw := 1, maxw := 4 } }
    parts := State.reset.parts.set 0 { wmcount := 1#16 }
    mem := [(2, 1#8), (10, 2#8), (18, 1#8)]
    bad := [0] }

theorem attachable_staleTable : min (staleTable.warp.readS 1#6).toNat (attachable staleTable) = 2 := by decide +kernel

/-- The first attach finds no entry that it can read; it has met the error, and the second one reads the entry (09 R200). -/
theorem waymark_staleTable : waymark staleTable 0#4 0x10000#64 = 0x10000#64 ∧ waymark (attachWarp staleTable) 0#4 0x10000#64 = 0x20000#64 := by
  decide +kernel

theorem attachMany_staleTable : (attachMany 2 staleTable).team.peers = [attached staleTable, attached (attachWarp staleTable)] := by
  have hfirst := (attachWarp_teams staleTable).1
  have hsecond := (attachWarp_teams (attachWarp staleTable)).1
  rw [hfirst] at hsecond
  exact hsecond

/-- Refutes O40: of the two warps that one `TGROW` attaches, the second starts at 0x20000, where the waymark table moves the attach entry once its error has been met, and not where the table had it before the word. -/
theorem not_teamWords : ¬ Obligations.TeamWords := by
  unfold Obligations.TeamWords
  intro ⟨hteam, _⟩
  obtain ⟨-, -, -, -, -, -, -, -, -, hgrow⟩ := hteam staleTable 2#6 1#6 rfl
  obtain ⟨t, hnext, -, -, -, hstarts, -⟩ := hgrow rfl rfl
  obtain ⟨u, hu, hpeers⟩ := exec_tgrow (s := staleTable) rfl rfl 2#6 1#6
  obtain rfl : u = t := Host.Outcome.next.inj (hu.symm.trans hnext)
  have hsecond : attached (attachWarp staleTable) ∈ u.team.peers.drop staleTable.team.peers.length := by
    rw [hpeers, attachable_staleTable, attachMany_staleTable]
    exact List.mem_cons_of_mem _ (List.mem_singleton.2 rfl)
  obtain ⟨-, hpos, -⟩ := hstarts _ hsecond
  have hstands := (attached_fresh (attachWarp staleTable)).stands
  obtain ⟨bars, hteam⟩ := attachWarp_team staleTable
  rw [hteam] at hstands
  have hmoved : ((waymark (attachWarp staleTable) 0#4 0x10000#64).toNat : Int) = (waymark staleTable 0#4 0x10000#64).toNat :=
    congrArg Position.hdr (hstands.symm.trans hpos)
  rw [waymark_staleTable.1, waymark_staleTable.2] at hmoved
  exact absurd hmoved (by decide)

end Sys2Proof.Machine
end

section
/-! PROOF. Lanes that are let go, join or are thawed, and what follows when none of them can move (05_teams_and_warps.md R105 to R108; 15_system_and_traps.md R333). -/
namespace Sys2Proof.Machine
open Sys2Proof

section Lanes

variable {lm : LaneMode} {l lead : Nat}

/-! ## The issuing group (R105) -/

theorem leader_ready (h : lm.leader = some lead) : lead < lm.lanes.length ∧ (lm.lane lead).ready = true := by
  have hmem : lead ∈ lm.leaders := by
    unfold LaneMode.leader at h
    split at h
    next i hi => exact Option.some.inj h ▸ List.mem_of_find?_eq_some hi
    next => exact List.mem_of_mem_head? h
  have hfilter := List.mem_filter.1 hmem
  exact ⟨List.mem_range.1 hfilter.1, (Bool.and_eq_true_iff.1 hfilter.2).1⟩

/-- The lanes of the group can issue, and stand where its lowest lane stands. -/
theorem mem_group_iff (h : lm.leader = some lead) :
    l ∈ lm.group ↔ l < lm.lanes.length ∧ (lm.lane l).ready = true ∧ (lm.lane l).pos.hdr = (lm.lane lead).pos.hdr ∧
      (lm.lane l).pos.idx = (lm.lane lead).pos.idx := by
  simp [LaneMode.group, h, LaneMode.groupOf, Position.same]

theorem leader_mem_group (h : lm.leader = some lead) : lead ∈ lm.group :=
  (mem_group_iff h).2 ⟨(leader_ready h).1, (leader_ready h).2, rfl, rfl⟩

theorem ready_iff (x : Lane) : x.ready = true ↔ x.joined = false ∧ x.blocked = none := by
  simp [Lane.ready, Option.isNone_iff_eq_none]

theorem ready_of_mem_group (h : lm.leader = some lead) (hl : l ∈ lm.group) : (lm.lane l).joined = false ∧ (lm.lane l).blocked = none :=
  (ready_iff _).1 ((mem_group_iff h).1 hl).2.1

theorem pc_of_mem_group (h : lm.leader = some lead) (hl : l ∈ lm.group) : (lm.lane l).pos.pc = (lm.lane lead).pos.pc := by
  obtain ⟨-, -, hhdr, hidx⟩ := (mem_group_iff h).1 hl
  rw [Position.pc, Position.pc, hhdr, hidx]

/-! ## Changes of all lanes -/

/-- Beyond the lanes stands a lane that has joined and waits for nothing. -/
theorem lane_map (lm : LaneMode) {f : Lane → Lane} (hf : ∀ x : Lane, x.blocked = none → x.joinAt = none → f x = x) (n l : Nat) :
    LaneMode.lane { lanes := lm.lanes.map f, next := n } l = f (lm.lane l) := by
  simp only [LaneMode.lane, List.getD_eq_getElem?_getD, List.getElem?_map]
  cases lm.lanes[l]? with
  | some x => rfl
  | none => exact (hf _ rfl rfl).symm

theorem lane_release (lm : LaneMode) (w l : Nat) : (lm.release w).lane l =
    if (lm.lane l).blocked.isSome && lm.satisfied w (lm.lane l) then { lm.lane l with blocked := none, pos := (lm.lane l).pos.after }
    else lm.lane l :=
  lane_map lm (f := fun x => if x.blocked.isSome && lm.satisfied w x then { x with blocked := none, pos := x.pos.after } else x)
    (fun x hx _ => by simp [hx]) lm.next l

theorem lane_thaw (lm : LaneMode) (p : Position) (first l : Nat) : (lm.thaw p first).lane l =
    if (lm.lane l).pos.hdr = p.hdr ∧ (lm.lane l).pos.idx = p.idx ∧ ((lm.lane l).blocked ≠ none ∨ (lm.lane l).joinAt ≠ none)
    then { lm.lane l with blocked := none, joined := false, joinAt := none } else lm.lane l := by
  have hthaw := lane_map lm
    (f := fun x => if x.pos.same p && (x.blocked.isSome || x.joinAt.isSome) then { x with blocked := none, joined := false, joinAt := none } else x)
    (fun x hb hj => by simp [hb, hj]) first l
  refine hthaw.trans (if_congr ?_ rfl rfl)
  simp [Position.same, Option.isSome_iff_ne_none, and_assoc]

/-! ## No lane can move (R106, R107) -/

theorem any_ready_iff (lm : LaneMode) : lm.lanes.any Lane.ready = true ↔ ∃ l, l < lm.lanes.length ∧ (lm.lane l).ready = true := by
  simp only [List.any_eq_true, List.mem_iff_getElem]
  constructor
  · rintro ⟨x, ⟨l, hl, rfl⟩, hx⟩
    exact ⟨l, hl, by simpa [LaneMode.lane, hl] using hx⟩
  · rintro ⟨l, hl, hx⟩
    exact ⟨_, ⟨l, hl, rfl⟩, by simpa [LaneMode.lane, hl] using hx⟩

theorem none_ready (h : ∀ j, j < lm.lanes.length → (lm.lane j).ready = false) : ¬ lm.lanes.any Lane.ready = true := fun hany => by
  obtain ⟨j, hj, hr⟩ := (any_ready_iff lm).1 hany
  simp [h j hj] at hr

/-- The lowest lane that a predicate names. -/
structure Lowest (lm : LaneMode) (f : Lane → Bool) (l : Nat) : Prop where
  below : l < lm.lanes.length
  named : f (lm.lane l) = true
  least : ∀ j, j < l → f (lm.lane j) = false

theorem which_lowest {f : Lane → Bool} (h : Lowest lm f l) : ∃ rest, lm.which f = l :: rest := by
  have hhead : (lm.which f).head? = some l := by
    rw [LaneMode.which, List.head?_filter, List.find?_range_eq_some]
    exact ⟨h.named, List.mem_range.2 h.below, fun j hj => by simp [h.least j hj]⟩
  exact ⟨_, List.eq_cons_of_mem_head? hhead⟩

theorem which_none {f : Lane → Bool} (h : ∀ j, j < lm.lanes.length → f (lm.lane j) = false) : lm.which f = [] :=
  List.filter_eq_nil_iff.2 fun j hj => by simp [h j (List.mem_range.1 hj)]

theorem mem_which {f : Lane → Bool} {j : Nat} : j ∈ lm.which f ↔ j < lm.lanes.length ∧ f (lm.lane j) = true := by
  simp [LaneMode.which]

section Resolve

variable {s : State} (hs : s.warp.lanes = some lm)
include hs

theorem resolveLanes_moves (h : ∃ l, l < lm.lanes.length ∧ (lm.lane l).ready = true) : resolveLanes s = s := by
  rw [resolveLanes, hs]
  exact if_pos ((any_ready_iff lm).2 h)

variable (hstuck : ∀ j, j < lm.lanes.length → (lm.lane j).ready = false)
include hstuck

/-- A `WSYNC` that no lane can satisfy is reported at the lowest lane that waits. -/
theorem resolveLanes_blocked (hl : Lowest lm (fun x => x.blocked.isSome) l) :
    resolveLanes s = syncTrap s lm l (BitVec.ofNat 64 (l * 256 + 1)) := by
  obtain ⟨rest, hwhich⟩ := which_lowest hl
  rw [resolveLanes, hs]
  simp only
  rw [if_neg (none_ready hstuck), hwhich]

variable (hfree : ∀ j, j < lm.lanes.length → (lm.lane j).blocked = none)
include hfree

theorem resolveLanes_free {rest : List Nat} (hw : lm.which (fun x => x.joinAt.isSome) = l :: rest) : resolveLanes s =
    if rest.all fun j => (lm.lane j).joinAt == (lm.lane l).joinAt then rejoin s (lm.lane l).pos else syncTrap s lm l 0xFF02#64 := by
  rw [resolveLanes, hs]
  simp only
  rw [if_neg (none_ready hstuck), which_none fun j hj => by simp [hfree j hj], hw]

/-- Lanes that have joined at two words are reported at the lowest of them. -/
theorem resolveLanes_differ (hl : Lowest lm (fun x => x.joinAt.isSome) l) {j k : Nat} (hj : j < lm.lanes.length) (hk : k < lm.lanes.length)
    {a b : Int} (ha : (lm.lane j).joinAt = some a) (hb : (lm.lane k).joinAt = some b) (hab : a ≠ b) :
    resolveLanes s = syncTrap s lm l 0xFF02#64 := by
  obtain ⟨rest, hwhich⟩ := which_lowest hl
  rw [resolveLanes_free hs hstuck hfree hwhich]
  refine if_neg fun hall => hab ?_
  have hsame {i : Nat} (hi : i < lm.lanes.length) (hat : (lm.lane i).joinAt.isSome = true) : (lm.lane i).joinAt = (lm.lane l).joinAt := by
    have hmem : i ∈ l :: rest := hwhich ▸ mem_which.2 ⟨hi, hat⟩
    rcases List.mem_cons.1 hmem with rfl | hrest
    · rfl
    · exact beq_iff_eq.1 (List.all_eq_true.1 hall i hrest)
  have hboth := (hsame hj (by simp [ha])).trans (hsame hk (by simp [hb])).symm
  rw [ha, hb] at hboth
  exact Option.some.inj hboth

/-- Lanes that have all joined at one word go on together. -/
theorem resolveLanes_joins {pc : Int} (hall : ∀ j, j < lm.lanes.length → (lm.lane j).joinAt = none ∨ (lm.lane j).joinAt = some pc)
    (hex : ∃ j, j < lm.lanes.length ∧ (lm.lane j).joinAt = some pc) :
    ∃ l, l < lm.lanes.length ∧ (lm.lane l).joinAt = some pc ∧ resolveLanes s = rejoin s (lm.lane l).pos := by
  have hat {j : Nat} (hj : j ∈ lm.which fun l => l.joinAt.isSome) : j < lm.lanes.length ∧ (lm.lane j).joinAt = some pc := by
    obtain ⟨hlt, hsome⟩ := mem_which.1 hj
    exact ⟨hlt, (hall j hlt).resolve_left fun h => by simp [h] at hsome⟩
  cases hw : lm.which fun l => l.joinAt.isSome with
  | nil =>
    obtain ⟨j, hj, hpc⟩ := hex
    have hmem : j ∈ lm.which fun l => l.joinAt.isSome := mem_which.2 ⟨hj, by simp [hpc]⟩
    rw [hw] at hmem
    cases hmem
  | cons l rest =>
    obtain ⟨hlt, hpc⟩ := hat (hw ▸ List.mem_cons_self)
    refine ⟨l, hlt, hpc, (resolveLanes_free hs hstuck hfree hw).trans (if_pos (List.all_eq_true.2 fun j hj => ?_))⟩
    rw [(hat (hw ▸ List.mem_cons_of_mem l hj)).2, hpc]
    exact beq_self_eq_true _

end Resolve

end Lanes

end Sys2Proof.Machine
end

section
/-! PROOF. Forking, joining and waiting for other lanes (05_teams_and_warps.md R104 to R108, R116, R117; O41). -/
namespace Sys2Proof.Machine
open Sys2Proof

/-! ## What the words of lane mode change of a state -/

/-- Beside the lanes, the position and the yield hint, only the issue bookkeeping changes. -/
def Bookkept (s t : State) (w : Warp) : Prop :=
  t = { s with warp := { w with lanes := t.warp.lanes, pos := t.warp.pos, yieldOff := t.warp.yieldOff, yieldLow := t.warp.yieldLow,
                                wait := 0, urgent := false, park := .none, service := {}, paid := false } }

/-- The word issues, and the lanes become those given. -/
def withLanes (s : State) (lm : LaneMode) : State := s.onWarp fun w => { (w.yieldHint w.at).issued with lanes := some lm }

theorem withLanes_eq (s : State) (lm : LaneMode) : ∃ y z, withLanes s lm = { s with warp := { s.warp with
    lanes := some lm, yieldOff := y, yieldLow := z, wait := 0, urgent := false, park := .none, service := {}, paid := false } } := by
  obtain ⟨y, z, h⟩ := yieldHint_eq s.warp s.warp.at
  exact ⟨y, z, by rw [withLanes, State.onWarp, h]; rfl⟩

theorem withLanes_lanes (s : State) (lm : LaneMode) : (withLanes s lm).warp.lanes = some lm := rfl

theorem withLanes_keeps (s : State) (w : Warp) (lm : LaneMode) : (withLanes { s with warp := w } lm).warp.pos = w.pos ∧
    Bookkept s (withLanes { s with warp := w } lm) w := by
  obtain ⟨y, z, h⟩ := withLanes_eq { s with warp := w } lm
  rw [h]
  exact ⟨rfl, rfl⟩

theorem rejoin_keeps (s : State) (lm : LaneMode) (p : Position) :
    (rejoin (withLanes s lm) p).warp.vl = s.warp.vl ∧ (rejoin (withLanes s lm) p).warp.vpad = s.warp.vpad ∧
      (rejoin (withLanes s lm) p).warp.m = s.warp.m ∧ Bookkept s (rejoin (withLanes s lm) p) s.warp := by
  obtain ⟨y, z, h⟩ := withLanes_eq s lm
  rw [h]
  exact ⟨rfl, rfl, rfl, rfl⟩

/-- The sync-membership trap at a lane, the lanes being those given before those at its position are let go. -/
def LaneTrap (s : State) (lm : LaneMode) (i : Instr) (l : Nat) (info : Nat) (lane : Nat → Lane) : Prop :=
  let p := (lm.lane l).pos
  ∃ u lm', exec i s = .next (takeTrap u { cause := .sync, info := BitVec.ofNat 64 info } { pc := p.pc, npc := p.pc, hdr := p.hdr, vstart := s.warp.vstart } p.pc) ∧
    u.warp.lanes = some lm' ∧ u.warp.pos = s.warp.pos ∧ Bookkept s u s.warp ∧
    ∀ j, j < s.w → lm'.lane j =
      if (lm.lane j).pos.hdr = p.hdr ∧ (lm.lane j).pos.idx = p.idx ∧ ((lane j).blocked ≠ none ∨ (lane j).joinAt ≠ none)
      then { lane j with blocked := none, joined := false, joinAt := none } else lane j

theorem laneTrap_of_syncTrap {s : State} {lm lm1 : LaneMode} {i : Instr} {l info : Nat} {lane : Nat → Lane}
    (hexec : exec i s = .next (syncTrap (withLanes s lm1) lm1 l (BitVec.ofNat 64 info)))
    (hl : l < s.w) (hpos : ∀ j, (lane j).pos = (lm.lane j).pos) (hlane : ∀ j, j < s.w → lm1.lane j = lane j) : LaneTrap s lm i l info lane := by
  obtain ⟨y, z, hy⟩ := withLanes_eq s lm1
  have hat {j : Nat} (hj : j < s.w) : (lm1.lane j).pos = (lm.lane j).pos := (congrArg Lane.pos (hlane j hj)).trans (hpos j)
  refine ⟨(withLanes s lm1).onWarp fun w => { w with lanes := some (lm1.thaw (lm.lane l).pos l) }, lm1.thaw (lm.lane l).pos l, ?_, rfl, ?_, ?_, fun j hj => ?_⟩
  · rw [hexec, syncTrap, hat hl, hy]; rfl
  · rw [hy]; rfl
  · rw [hy]; rfl
  · rw [lane_thaw, hat hj, hlane j hj]

/-! ## `VFORK` -/

section Fork

variable {s : State} {w : Warp} {a : BitVec 3} {disp : BitVec 32} (hl : s.warp.lanes = none) (hw : s.warp.mustWait flagged = false)
  (hc : s.warp.commit flagged = (w, none))

theorem lane_forkLanes (n : Nat) (mask : BitVec 1024) (target : Int) {l : Nat} (h : l < n) :
    LaneMode.lane { lanes := forkLanes n mask target } l = { pos := { hdr := target }, joined := !mask.getLsbD l } := by
  simp [LaneMode.lane, forkLanes, h]

/-- The lanes that a `VFORK` makes. -/
def forked (s : State) (a : BitVec 3) (disp : BitVec 32) : LaneMode :=
  { lanes := forkLanes s.w (s.warp.readM a) (s.warp.pos.relative disp) }

theorem forked_all_joined : (forked s a disp).lanes.all (·.joined) = true ↔ ∀ l, l < s.w → (s.warp.readM a).getLsbD l = false := by
  simp [forked, forkLanes]

include hl hw hc in
theorem exec_vfork : exec (.vfork a disp) s = .next (if (forked s a disp).lanes.all (·.joined) then { s with warp := w.advance }
    else withLanes { s with warp := w } (forked s a disp)) := by
  have hframe := committed_eq hc
  have hm : w.readM a = s.warp.readM a := by rw [hframe]; rfl
  have hat : w.at = s.warp.pos := by rw [at_uniform w (by rw [hframe]; exact hl), hframe]
  change execVfork a disp s = _
  unfold execVfork
  rw [guarded_pass (by simp [vectorOnly, inLanes_none _ hl]), commitPoint, commitOf_commits hw hc]
  simp only [hm, hat]
  rfl

end Fork

/-! ## `LJOIN` -/

/-- The lanes of the group joined at their word; the rotation goes on behind the lowest of them. -/
def joinGroup (lm : LaneMode) : LaneMode :=
  { lm.onLanes lm.group fun _ x => { x with joined := true, joinAt := some x.pos.pc } with next := lm.group.headD 0 + 1 }

theorem exec_ljoin {s : State} {lm : LaneMode} (hs : s.warp.lanes = some lm) :
    exec .ljoin s = .next (resolveLanes (withLanes s (joinGroup lm))) := by
  change execLjoin s = _
  unfold execLjoin
  rw [guarded_pass (by simp [inLanes_some hs])]
  unfold joinLanes
  rw [hs]
  rfl

section Join

variable {lm : LaneMode} {lead l : Nat}

theorem joinGroup_length (lm : LaneMode) : (joinGroup lm).lanes.length = lm.lanes.length := List.length_mapIdx

/-- A lane after a join that the group has made at one word. -/
def joinedLane (lm : LaneMode) (lead l : Nat) : Lane :=
  if l ∈ lm.group then { lm.lane l with joined := true, joinAt := some (lm.lane lead).pos.pc } else lm.lane l

theorem joinedLane_mem (h : l ∈ lm.group) : joinedLane lm lead l = { lm.lane l with joined := true, joinAt := some (lm.lane lead).pos.pc } := if_pos h

theorem joinedLane_other (h : l ∉ lm.group) : joinedLane lm lead l = lm.lane l := if_neg h

theorem joinedLane_pos : (joinedLane lm lead l).pos = (lm.lane l).pos := by
  unfold joinedLane; split <;> rfl

theorem joinedLane_blocked : (joinedLane lm lead l).blocked = (lm.lane l).blocked := by
  unfold joinedLane; split <;> rfl

variable (hlead : lm.leader = some lead)
include hlead

theorem lane_joinGroup (l : Nat) : (joinGroup lm).lane l = joinedLane lm lead l := by
  refine (lane_onLanes lm lm.group _ l).trans ?_
  by_cases hmem : l ∈ lm.group
  · rw [if_pos ⟨hmem, lt_of_mem_group hmem⟩, joinedLane_mem hmem, pc_of_mem_group hlead hmem]
  · rw [if_neg fun h => hmem h.1, joinedLane_other hmem]

variable {s : State} (hlen : lm.lanes.length = s.w)
include hlen

/-- No lane is ready after the join when none outside the group was before it. -/
theorem joinGroup_stuck (h : ∀ j, j < s.w → j ∉ lm.group → (lm.lane j).joined = true ∨ (lm.lane j).blocked ≠ none) :
    ∀ j, j < (joinGroup lm).lanes.length → ((joinGroup lm).lane j).ready = false := by
  intro j hj
  rw [joinGroup_length, hlen] at hj
  rw [lane_joinGroup hlead, Bool.eq_false_iff, ne_eq, ready_iff]
  rintro ⟨hjoined, hblocked⟩
  by_cases hmem : j ∈ lm.group
  · simp [joinedLane_mem hmem] at hjoined
  · rw [joinedLane_other hmem] at hjoined hblocked
    rcases h j hj hmem with hx | hx
    · simp [hjoined] at hx
    · exact hx hblocked

theorem joinGroup_free (h : ∀ j, j < s.w → j ∉ lm.group → (lm.lane j).joined = true ∧ (lm.lane j).blocked = none) :
    ∀ j, j < (joinGroup lm).lanes.length → ((joinGroup lm).lane j).blocked = none := by
  intro j hj
  rw [joinGroup_length, hlen] at hj
  rw [lane_joinGroup hlead, joinedLane_blocked]
  by_cases hmem : j ∈ lm.group
  · exact (ready_of_mem_group hlead hmem).2
  · exact (h j hj hmem).2

variable (hs : s.warp.lanes = some lm)
include hs

/-- Where the other lanes have joined or wait, and one of them waits, its set cannot come any more (R107). -/
theorem ljoin_traps_blocked (h : ∀ j, j < s.w → j ∉ lm.group → (lm.lane j).joined = true ∨ (lm.lane j).blocked ≠ none)
    (hl : l < s.w) (hwaits : l ∉ lm.group ∧ (lm.lane l).blocked ≠ none) (hleast : ∀ j, j < l → ¬ (j ∉ lm.group ∧ (lm.lane j).blocked ≠ none)) :
    LaneTrap s lm .ljoin l (l * 256 + 1) (joinedLane lm lead) := by
  have hlow : Lowest (joinGroup lm) (fun x => x.blocked.isSome) l := by
    refine ⟨by rwa [joinGroup_length, hlen], ?_, fun j hj => ?_⟩
    · rw [lane_joinGroup hlead, joinedLane_blocked]
      exact Option.isSome_iff_ne_none.2 hwaits.2
    · rw [lane_joinGroup hlead, joinedLane_blocked, Option.isSome_eq_false_iff, Option.isNone_iff_eq_none]
      by_cases hmem : j ∈ lm.group
      · exact (ready_of_mem_group hlead hmem).2
      · exact Classical.not_not.1 fun hb => hleast j hj ⟨hmem, hb⟩
  refine laneTrap_of_syncTrap ?_ hl (fun _ => joinedLane_pos) fun j _ => lane_joinGroup hlead j
  rw [exec_ljoin hs, resolveLanes_blocked (withLanes_lanes ..) (joinGroup_stuck hlead hlen h) hlow]

/-- Where every other lane has joined, one of them at another word, the joins differ (R106). -/
theorem ljoin_traps_differ (h : ∀ j, j < s.w → j ∉ lm.group → (lm.lane j).joined = true ∧ (lm.lane j).blocked = none)
    (hdiffer : ∃ j at', j < s.w ∧ j ∉ lm.group ∧ (lm.lane j).joinAt = some at' ∧ at' ≠ (lm.lane lead).pos.pc)
    (hl : l < s.w) (hjoins : l ∈ lm.group ∨ (lm.lane l).joinAt ≠ none) (hleast : ∀ j, j < l → ¬ (j ∈ lm.group ∨ (lm.lane j).joinAt ≠ none)) :
    LaneTrap s lm .ljoin l 0xFF02 (joinedLane lm lead) := by
  have hlow : Lowest (joinGroup lm) (fun x => x.joinAt.isSome) l := by
    refine ⟨by rwa [joinGroup_length, hlen], ?_, fun j hj => ?_⟩
    · rw [lane_joinGroup hlead]
      by_cases hmem : l ∈ lm.group
      · rw [joinedLane_mem hmem]; rfl
      · rw [joinedLane_other hmem]
        exact Option.isSome_iff_ne_none.2 (hjoins.resolve_left hmem)
    · rw [lane_joinGroup hlead, joinedLane_other fun hmem => hleast j hj (.inl hmem), Option.isSome_eq_false_iff, Option.isNone_iff_eq_none]
      exact Classical.not_not.1 fun hat => hleast j hj (.inr hat)
  obtain ⟨j, at', hj, hother, hat, hne⟩ := hdiffer
  have hgroup := leader_mem_group hlead
  have hresolve := resolveLanes_differ (withLanes_lanes s (joinGroup lm)) (joinGroup_stuck hlead hlen fun j hj ho => .inl (h j hj ho).1)
    (joinGroup_free hlead hlen h) hlow (j := j) (k := lead) (a := at') (b := (lm.lane lead).pos.pc)
    (by rwa [joinGroup_length, hlen]) (by rw [joinGroup_length]; exact lt_of_mem_group hgroup)
    (by rw [lane_joinGroup hlead, joinedLane_other hother, hat]) (by rw [lane_joinGroup hlead, joinedLane_mem hgroup]) hne
  refine laneTrap_of_syncTrap ?_ hl (fun _ => joinedLane_pos) fun j _ => lane_joinGroup hlead j
  rw [exec_ljoin hs, hresolve]

/-- While a lane can still move the others wait for it. -/
theorem ljoin_waits (h : ∃ l, l < s.w ∧ l ∉ lm.group ∧ (lm.lane l).joined = false ∧ (lm.lane l).blocked = none) :
    exec .ljoin s = .next (withLanes s (joinGroup lm)) := by
  obtain ⟨l, hl, hother, hready⟩ := h
  rw [exec_ljoin hs, resolveLanes_moves (withLanes_lanes s (joinGroup lm))]
  exact ⟨l, by rwa [joinGroup_length, hlen], by rw [lane_joinGroup hlead, joinedLane_other hother]; exact (ready_iff _).2 hready⟩

/-- The last lanes to join go on in vector mode with those that have joined at their word (R106). -/
theorem ljoin_rejoins (h : ∀ l, l < s.w → l ∉ lm.group → (lm.lane l).joined = true ∧ (lm.lane l).blocked = none ∧
      ((lm.lane l).joinAt = none ∨ (lm.lane l).joinAt = some (lm.lane lead).pos.pc)) :
    ∃ l, l < s.w ∧ (l ∈ lm.group ∨ (lm.lane l).joinAt = some (lm.lane lead).pos.pc) ∧
      exec .ljoin s = .next (rejoin (withLanes s (joinGroup lm)) (lm.lane l).pos) := by
  have hgroup := leader_mem_group hlead
  have hat : ∀ j, j < (joinGroup lm).lanes.length →
      ((joinGroup lm).lane j).joinAt = none ∨ ((joinGroup lm).lane j).joinAt = some (lm.lane lead).pos.pc := by
    intro j hj
    rw [joinGroup_length, hlen] at hj
    rw [lane_joinGroup hlead]
    by_cases hmem : j ∈ lm.group
    · exact .inr (by rw [joinedLane_mem hmem])
    · rw [joinedLane_other hmem]
      exact (h j hj hmem).2.2
  obtain ⟨l, hl, hpc, hresolve⟩ := resolveLanes_joins (withLanes_lanes s (joinGroup lm)) (joinGroup_stuck hlead hlen fun j hj ho => .inl (h j hj ho).1)
    (joinGroup_free hlead hlen fun j hj ho => ⟨(h j hj ho).1, (h j hj ho).2.1⟩) hat
    ⟨lead, by rw [joinGroup_length]; exact lt_of_mem_group hgroup, by rw [lane_joinGroup hlead, joinedLane_mem hgroup]⟩
  rw [joinGroup_length, hlen] at hl
  rw [lane_joinGroup hlead] at hpc hresolve
  rw [joinedLane_pos] at hresolve
  refine ⟨l, hl, ?_, by rw [exec_ljoin hs, hresolve]⟩
  by_cases hmem : l ∈ lm.group
  · exact .inl hmem
  · exact .inr (by rwa [joinedLane_other hmem] at hpc)

end Join

/-! ## `WSYNC` -/

/-- c(l, j) after the group has executed its `WSYNC` on index `i` (R107). -/
def syncCount (lm : LaneMode) (i l j : Nat) : Nat := (lm.lane l).counts.getD j 0 + if l ∈ lm.group ∧ j = i then 1 else 0

/-- The set of lane `l` has come on index `j`. -/
def SetCame (s : State) (lm : LaneMode) (i l j : Nat) (set : BitVec 64) : Prop :=
  ∀ k, k < s.w → set.getLsbD k = true → syncCount lm i l j ≤ syncCount lm i k j

/-- A lane after the group has come to its `WSYNC`, and before any lane is let go. -/
def waitingLane (s : State) (lm : LaneMode) (i : Nat) (a : BitVec 6) (l : Nat) : Lane :=
  if l ∈ lm.group then { lm.lane l with counts := (lm.lane l).counts.modify i (· + 1), blocked := some (i, laneSet s a l) } else lm.lane l

def waitGroup (s : State) (lm : LaneMode) (i : Nat) (a : BitVec 6) : LaneMode :=
  lm.onLanes lm.group fun l x => { x with counts := x.counts.modify i (· + 1), blocked := some (i, laneSet s a l) }

/-- The lanes after a `WSYNC`: those whose set has come are let go. -/
def syncGroup (s : State) (lm : LaneMode) (i : Nat) (a : BitVec 6) : LaneMode :=
  { (waitGroup s lm i a).release s.w with next := lm.group.headD 0 + 1 }

section Sync

variable {s : State} {lm : LaneMode} {i : BitVec 4} {a : BitVec 6}

theorem wsync_passes (hreg : if s.w = 64 then pairField s a = true else a.toNat < s.r) :
    ∀ c ∈ [((if s.w = 64 then groupOk s a 2 else regOk s a), IllegalReason.register)], c.1 = true := by
  by_cases hw : s.w = 64
  · simpa [hw, groupOk, pairField] using hreg
  · simpa [hw, regOk] using hreg

theorem exec_wsync_vector (hl : s.warp.lanes = none) (hreg : if s.w = 64 then pairField s a = true else a.toNat < s.r) :
    exec (.wsync i a) s = .next s.advance := by
  change execWsync i a s = _
  unfold execWsync
  rw [guarded_pass (wsync_passes hreg)]
  simp [inLanes_none _ hl]

theorem exec_wsync (hs : s.warp.lanes = some lm) (hreg : if s.w = 64 then pairField s a = true else a.toNat < s.r) :
    exec (.wsync i a) s = .next (resolveLanes (withLanes s (syncGroup s lm i.toNat a))) := by
  change execWsync i a s = _
  unfold execWsync
  rw [guarded_pass (wsync_passes hreg), if_pos (inLanes_some hs)]
  unfold waitLanes
  rw [hs]
  rfl

theorem syncGroup_length (s : State) (lm : LaneMode) (i : Nat) (a : BitVec 6) : (syncGroup s lm i a).lanes.length = lm.lanes.length :=
  (List.length_map ..).trans List.length_mapIdx

variable {i : Nat} {l j : Nat} {set : BitVec 64}

theorem waitingLane_mem (h : l ∈ lm.group) : waitingLane s lm i a l =
    { lm.lane l with counts := (lm.lane l).counts.modify i (· + 1), blocked := some (i, laneSet s a l) } := if_pos h

theorem waitingLane_other (h : l ∉ lm.group) : waitingLane s lm i a l = lm.lane l := if_neg h

theorem waitingLane_pos : (waitingLane s lm i a l).pos = (lm.lane l).pos := by
  unfold waitingLane; split <;> rfl

theorem lane_waitGroup (s : State) (lm : LaneMode) (i : Nat) (a : BitVec 6) (l : Nat) : (waitGroup s lm i a).lane l = waitingLane s lm i a l := by
  refine (lane_onLanes lm lm.group _ l).trans ?_
  by_cases hmem : l ∈ lm.group
  · rw [if_pos ⟨hmem, lt_of_mem_group hmem⟩, waitingLane_mem hmem]
  · rw [if_neg fun h => hmem h.1, waitingLane_other hmem]

variable (hcounts : ∀ l ∈ lm.group, (lm.lane l).counts.length = 16) (hi : i < 16)
include hcounts hi

theorem count_waitingLane : (waitingLane s lm i a l).count j = syncCount lm i l j := by
  unfold syncCount Lane.count
  by_cases hmem : l ∈ lm.group
  · rw [waitingLane_mem hmem]
    simp only [List.getD_eq_getElem?_getD, List.getElem?_modify, hmem, true_and]
    by_cases hj : j = i
    · subst hj
      simp [hcounts l hmem, hi]
    · simp [hj, Ne.symm hj]
  · simp [waitingLane_other hmem, hmem]

theorem satisfied_iff (hb : (waitingLane s lm i a l).blocked = some (j, set)) :
    (waitGroup s lm i a).satisfied s.w (waitingLane s lm i a l) = true ↔ SetCame s lm i l j set := by
  unfold LaneMode.satisfied
  rw [hb]
  simp only [List.all_eq_true, List.mem_range, Bool.or_eq_true, Bool.not_eq_true', decide_eq_true_eq, lane_waitGroup,
    count_waitingLane hcounts hi]
  exact forall₂_congr fun k _ => by cases set.getLsbD k <;> simp

/-- A lane whose set has come goes on behind its `WSYNC`. -/
theorem lane_syncGroup_came (hb : (waitingLane s lm i a l).blocked = some (j, set)) (hcame : SetCame s lm i l j set) :
    (syncGroup s lm i a).lane l = { waitingLane s lm i a l with blocked := none, pos := (lm.lane l).pos.after } := by
  refine (lane_release (waitGroup s lm i a) s.w l).trans ?_
  rw [lane_waitGroup, if_pos (by simp [hb, (satisfied_iff hcounts hi hb).2 hcame]), waitingLane_pos]

/-- A lane that waits for no set, or whose set has not come, stays as it is. -/
theorem lane_syncGroup_stays (h : ∀ j set, (waitingLane s lm i a l).blocked = some (j, set) → ¬ SetCame s lm i l j set) :
    (syncGroup s lm i a).lane l = waitingLane s lm i a l := by
  refine (lane_release (waitGroup s lm i a) s.w l).trans ?_
  rw [lane_waitGroup]
  refine if_neg fun hgoes => ?_
  obtain ⟨hsome, hsat⟩ := Bool.and_eq_true_iff.1 hgoes
  obtain ⟨⟨j, set⟩, hb⟩ := Option.isSome_iff_exists.1 hsome
  exact h j set hb ((satisfied_iff hcounts hi hb).1 hsat)

section Group

variable (hmem : l ∈ lm.group)
include hmem

theorem lane_syncGroup_own_came (hcame : SetCame s lm i l i (laneSet s a l)) : (syncGroup s lm i a).lane l =
    { lm.lane l with counts := (lm.lane l).counts.modify i (· + 1), blocked := none, pos := (lm.lane l).pos.after } := by
  rw [lane_syncGroup_came hcounts hi (by rw [waitingLane_mem hmem]) hcame, waitingLane_mem hmem]

theorem lane_syncGroup_own_waits (hnot : ¬ SetCame s lm i l i (laneSet s a l)) : (syncGroup s lm i a).lane l = waitingLane s lm i a l := by
  refine lane_syncGroup_stays hcounts hi fun j set hb => ?_
  rw [waitingLane_mem hmem] at hb
  cases hb
  exact hnot

theorem count_syncGroup_own : ((syncGroup s lm i a).lane l).counts.getD j 0 = syncCount lm i l j := by
  rw [← count_waitingLane (s := s) (a := a) hcounts hi]
  by_cases hcame : SetCame s lm i l i (laneSet s a l)
  · rw [lane_syncGroup_own_came hcounts hi hmem hcame, waitingLane_mem hmem]; rfl
  · rw [lane_syncGroup_own_waits hcounts hi hmem hcame]; rfl

end Group

section Other

variable (hother : l ∉ lm.group)
include hother

theorem lane_syncGroup_other_came (hb : (lm.lane l).blocked = some (j, set)) (hcame : SetCame s lm i l j set) :
    (syncGroup s lm i a).lane l = { lm.lane l with blocked := none, pos := (lm.lane l).pos.after } := by
  rw [lane_syncGroup_came hcounts hi (by rw [waitingLane_other hother, hb]) hcame, waitingLane_other hother]

theorem lane_syncGroup_other_stays (h : ∀ j set, (lm.lane l).blocked = some (j, set) → ¬ SetCame s lm i l j set) :
    (syncGroup s lm i a).lane l = lm.lane l := by
  have hstays := lane_syncGroup_stays (s := s) (a := a) (l := l) hcounts hi (by rwa [waitingLane_other hother])
  rwa [waitingLane_other hother] at hstays

end Other

end Sync

/-- A lane of the group whose set has come, or another that waits for none or whose set has come. -/
def CanMove (s : State) (lm : LaneMode) (i : Nat) (a : BitVec 6) (l : Nat) : Prop :=
  (l ∈ lm.group ∧ SetCame s lm i l i (laneSet s a l)) ∨
    (l ∉ lm.group ∧ (lm.lane l).joined = false ∧ ∀ j set, (lm.lane l).blocked = some (j, set) → SetCame s lm i l j set)

section SyncWord

variable {s : State} {lm : LaneMode} {lead : Nat} {i : BitVec 4} {a : BitVec 6} (hs : s.warp.lanes = some lm) (hlen : lm.lanes.length = s.w)
  (hreg : if s.w = 64 then pairField s a = true else a.toNat < s.r)
  (hcounts : ∀ l ∈ lm.group, (lm.lane l).counts.length = 16)
include hs hlen hreg hcounts

theorem wsync_goes_on (hlead : lm.leader = some lead) (h : ∃ l, l < s.w ∧ CanMove s lm i.toNat a l) :
    exec (.wsync i a) s = .next (withLanes s (syncGroup s lm i.toNat a)) := by
  obtain ⟨l, hl, hmove⟩ := h
  rw [exec_wsync hs hreg, resolveLanes_moves (withLanes_lanes ..)]
  refine ⟨l, by rwa [syncGroup_length, hlen], (ready_iff _).2 ?_⟩
  rcases hmove with ⟨hmem, hcame⟩ | ⟨hother, hjoined, hcame⟩
  · rw [lane_syncGroup_own_came hcounts i.isLt hmem hcame]
    exact ⟨(ready_of_mem_group hlead hmem).1, rfl⟩
  · cases hb : (lm.lane l).blocked with
    | none =>
      rw [lane_syncGroup_other_stays hcounts i.isLt hother (by simp [hb])]
      exact ⟨hjoined, hb⟩
    | some x =>
      rw [lane_syncGroup_other_came hcounts i.isLt hother hb (hcame x.1 x.2 hb)]
      exact ⟨hjoined, rfl⟩

/-- Where no set has come and no lane is ready, none can come any more (R107, R108). -/
theorem wsync_traps {l : Nat} (h : ∀ j, j < s.w → (j ∈ lm.group → ¬ SetCame s lm i.toNat j i.toNat (laneSet s a j)) ∧
      (j ∉ lm.group → ((lm.lane j).joined = true ∧ (lm.lane j).blocked = none) ∨
        ∃ k set, (lm.lane j).blocked = some (k, set) ∧ ¬ SetCame s lm i.toNat j k set))
    (hl : l < s.w) (hwaits : l ∈ lm.group ∨ (lm.lane l).blocked ≠ none) (hleast : ∀ j, j < l → ¬ (j ∈ lm.group ∨ (lm.lane j).blocked ≠ none)) :
    LaneTrap s lm (.wsync i a) l (l * 256 + 1) (waitingLane s lm i.toNat a) := by
  have hlane (j : Nat) (hj : j < s.w) : (syncGroup s lm i.toNat a).lane j = waitingLane s lm i.toNat a j := by
    by_cases hmem : j ∈ lm.group
    · exact lane_syncGroup_own_waits hcounts i.isLt hmem ((h j hj).1 hmem)
    · rw [waitingLane_other hmem]
      refine lane_syncGroup_other_stays hcounts i.isLt hmem fun k set hb => ?_
      rcases (h j hj).2 hmem with ⟨-, hfree⟩ | ⟨k', set', hb', hnot⟩
      · simp [hfree] at hb
      · rw [hb'] at hb
        cases hb
        exact hnot
  have hstuck (j : Nat) (hj : j < (syncGroup s lm i.toNat a).lanes.length) : ((syncGroup s lm i.toNat a).lane j).ready = false := by
    rw [syncGroup_length, hlen] at hj
    rw [hlane j hj, Bool.eq_false_iff, ne_eq, ready_iff]
    rintro ⟨hjoined, hfree⟩
    by_cases hmem : j ∈ lm.group
    · simp [waitingLane_mem hmem] at hfree
    · rw [waitingLane_other hmem] at hjoined hfree
      rcases (h j hj).2 hmem with ⟨hj', -⟩ | ⟨k, set, hb, -⟩
      · simp [hjoined] at hj'
      · simp [hfree] at hb
  have hlow : Lowest (syncGroup s lm i.toNat a) (fun x => x.blocked.isSome) l := by
    refine ⟨by rwa [syncGroup_length, hlen], ?_, fun j hj => ?_⟩
    · rw [hlane l hl]
      by_cases hmem : l ∈ lm.group
      · rw [waitingLane_mem hmem]; rfl
      · rw [waitingLane_other hmem]
        exact Option.isSome_iff_ne_none.2 (hwaits.resolve_left hmem)
    · rw [hlane j (by omega), waitingLane_other fun hmem => hleast j hj (.inl hmem), Option.isSome_eq_false_iff, Option.isNone_iff_eq_none]
      exact Classical.not_not.1 fun hb => hleast j hj (.inr hb)
  refine laneTrap_of_syncTrap ?_ hl (fun _ => waitingLane_pos) hlane
  rw [exec_wsync hs hreg, resolveLanes_blocked (withLanes_lanes ..) hstuck hlow]

end SyncWord

/-! ## The words together -/

/-- A `VFORK` makes a lane of every set bit below W, and goes on where none is set (R104). -/
theorem vfork_forks {s : State} {w : Warp} (a : BitVec 3) (disp : BitVec 32) (hl : s.warp.lanes = none) (hw : s.warp.mustWait flagged = false)
    (hc : s.warp.commit flagged = (w, none)) (hon : ∃ l, l < s.w ∧ (s.warp.readM a).getLsbD l = true) :
    ∃ t lm, exec (.vfork a disp) s = .next t ∧ t.warp.lanes = some lm ∧ lm.lanes.length = s.w ∧
      (∀ l, l < s.w → lm.lane l = { pos := { hdr := s.warp.pos.hdr + 8 * disp.toInt }, joined := !(s.warp.readM a).getLsbD l }) ∧
      t.warp.pos = s.warp.pos ∧ Bookkept s t w := by
  have hsome : ¬ (forked s a disp).lanes.all (·.joined) = true := fun hall => by
    obtain ⟨l, hlt, hbit⟩ := hon
    simp [forked_all_joined.1 hall l hlt] at hbit
  have hpos : w.pos = s.warp.pos := by rw [committed_eq hc]
  obtain ⟨hkeeps, hbook⟩ := withLanes_keeps s w (forked s a disp)
  exact ⟨_, forked s a disp, (exec_vfork hl hw hc).trans (by rw [if_neg hsome]), rfl, by simp [forked, forkLanes],
    fun l hlt => lane_forkLanes _ _ _ hlt, hkeeps.trans hpos, hbook⟩

theorem vfork_goes_on {s : State} {w : Warp} (a : BitVec 3) (disp : BitVec 32) (hl : s.warp.lanes = none) (hw : s.warp.mustWait flagged = false)
    (hc : s.warp.commit flagged = (w, none)) (hoff : ∀ l, l < s.w → (s.warp.readM a).getLsbD l = false) :
    exec (.vfork a disp) s = .next { s with warp := w.advance } :=
  (exec_vfork hl hw hc).trans (by rw [if_pos (forked_all_joined.2 hoff)])

/-- Outside lane mode `LJOIN` is illegal (R106). -/
theorem ljoin_illegal {s : State} (hl : s.warp.lanes = none) :
    exec .ljoin s = .next (trapHere s { cause := .illegal, info := 0x09#64 } s.warp.vstart) := by
  change execLjoin s = _
  unfold execLjoin
  rw [inLanes_none _ hl]
  rfl

/-- Settles O41, word by word: where a lane can move the lanes' table is the group's change of it, and where none can the table decides between the trap and the join. -/
theorem laneWords : Obligations.LaneWords := by
  unfold Obligations.LaneWords
  intro s
  refine ⟨fun a disp w hl hw hc => ⟨vfork_forks a disp hl hw hc, vfork_goes_on a disp hl hw hc⟩,
    fun hl => ⟨ljoin_illegal hl, fun i a hreg => exec_wsync_vector hl hreg⟩, ?_⟩
  intro lm lead hs hlen hlead
  have hkeeps (lm' : LaneMode) := withLanes_keeps s s.warp lm'
  refine ⟨fun l h ⟨hl, hwaits, hleast⟩ => ljoin_traps_blocked hlead hlen hs h hl hwaits hleast,
    fun l h hdiffer ⟨hl, hjoins, hleast⟩ => ljoin_traps_differ hlead hlen hs h hdiffer hl hjoins hleast, fun h => ?_, fun h => ?_,
    fun i a hreg hcounts => ⟨fun l h ⟨hl, hwaits, hleast⟩ => wsync_traps hs hlen hreg hcounts h hl hwaits hleast, fun h => ?_⟩⟩
  · exact ⟨_, joinGroup lm, ljoin_waits hlead hlen hs h, rfl, fun l hl => by rw [lane_joinGroup hlead, joinedLane_mem hl],
      fun l _ hl => by rw [lane_joinGroup hlead, joinedLane_other hl], hkeeps _⟩
  · obtain ⟨l, hl, hat, hexec⟩ := ljoin_rejoins hlead hlen hs h
    obtain ⟨hvl, hvpad, hm, hbook⟩ := rejoin_keeps s (joinGroup lm) (lm.lane l).pos
    exact ⟨_, hexec, rfl, hvl, hvpad, hm, ⟨l, hl, hat, rfl⟩, hbook⟩
  · refine ⟨_, syncGroup s lm i.toNat a, wsync_goes_on hs hlen hreg hcounts hlead h, rfl, (hkeeps _).1, (hkeeps _).2, fun l hl => ?_, fun l hlt hl => ?_⟩
    · refine ⟨fun j _ => count_syncGroup_own hcounts i.isLt hl, fun hcame => ?_, fun hnot => ?_⟩
      · rw [lane_syncGroup_own_came hcounts i.isLt hl hcame]
        exact ⟨rfl, rfl⟩
      · rw [lane_syncGroup_own_waits hcounts i.isLt hl hnot, waitingLane_mem hl]
        exact ⟨rfl, rfl⟩
    · refine ⟨fun hfree => lane_syncGroup_other_stays hcounts i.isLt hl (by simp [hfree]), fun j set hb =>
        ⟨lane_syncGroup_other_came hcounts i.isLt hl hb, fun hnot => lane_syncGroup_other_stays hcounts i.isLt hl fun k set' hb' => ?_⟩⟩
      rw [hb] at hb'
      cases hb'
      exact hnot

end Sys2Proof.Machine
end

section
/-! PROOF. Elements packed in lane words (02_words_and_registers.md R48): what the writes of some elements of a register group do to each element (06_numbers_and_float.md R137). -/
namespace Sys2Proof.Machine
open Sys2Proof

/-! ## Widths -/

/-- Elements of every type of a vector lie within lane words. -/
theorem width_dvd {et : ET} (h : et ≠ .int64) : et.width ∣ 32 := by
  cases et
  case int64 => exact absurd rfl h
  all_goals decide

section
variable {e : ℕ} (he : e ∣ 32)
include he

/-- An element does not cross the end of its lane word. -/
theorem elemOffset_le (k : ℕ) : k * e % 32 + e ≤ 32 := by
  obtain ⟨c, hc⟩ := he
  have hpos : 0 < c := Nat.pos_of_ne_zero (by rintro rfl; simp at hc)
  rw [hc, mul_comm k, Nat.mul_mod_mul_left, ← Nat.mul_succ]
  exact Nat.mul_le_mul_left e (Nat.mod_lt k hpos)

theorem lowMask_getLsbD (i : ℕ) : (lowMask e).getLsbD i = decide (i < e) := by
  have hle := Nat.le_of_dvd (by decide) he
  rw [lowMask, BitVec.getLsbD_ofNat, Nat.testBit_two_pow_sub_one, Bool.and_eq_right_iff_imp, decide_eq_true_eq, decide_eq_true_eq]
  omega

/-- A bit of an element is a bit of its lane word. -/
theorem readElem_getLsbD (s : State) (r : BitVec 6) (k i : ℕ) :
    (readElem s r e k).getLsbD i = (decide (i < e) && (s.warp.readLane (r.toNat * s.w + k * e / 32)).getLsbD (k * e % 32 + i)) := by
  rw [readElem, BitVec.getLsbD_and, BitVec.getLsbD_ushiftRight, lowMask_getLsbD he, Bool.and_comm]

/-- The write of an element names its bits and no other. -/
theorem elemWrite_bit (s : State) (d : BitVec 6) (k : ℕ) (v : LaneWord) {lane b : ℕ} (hb : b < 32) :
    ((elemWrite s d e k v).lane = lane ∧ (elemWrite s d e k v).mask.getLsbD b = true) ↔ bitOf s d e k lane b := by
  simp only [elemWrite, bitOf, BitVec.getLsbD_shiftLeft, lowMask_getLsbD he, hb, decide_true, Bool.true_and, Bool.and_eq_true, Bool.not_eq_true',
    decide_eq_false_iff_not, decide_eq_true_eq]
  constructor <;> rintro ⟨rfl, h⟩ <;> exact ⟨rfl, by omega⟩

theorem elemWrite_value (s : State) (d : BitVec 6) (k : ℕ) (v : LaneWord) {i : ℕ} (hi : i < e) :
    (elemWrite s d e k v).value.getLsbD (k * e % 32 + i) = v.getLsbD i := by
  have hin := elemOffset_le he k
  simp only [elemWrite, BitVec.getLsbD_shiftLeft, BitVec.getLsbD_and, lowMask_getLsbD he, Nat.add_sub_cancel_left, hi, decide_true, Bool.and_true,
    show k * e % 32 + i < 32 by omega, show ¬ k * e % 32 + i < k * e % 32 by omega, decide_false, Bool.not_false, Bool.true_and]

end

/-- Two elements of a group share no bit. -/
theorem bitOf_unique {s : State} {d : BitVec 6} {e j k i : ℕ} (hi : i < e) (h : bitOf s d e j (d.toNat * s.w + k * e / 32) (k * e % 32 + i)) : j = k := by
  obtain ⟨hlane, low, high⟩ := h
  have below : j * e < (k + 1) * e := by rw [Nat.succ_mul]; omega
  have above : k * e < (j + 1) * e := by rw [Nat.succ_mul]; omega
  have := Nat.lt_of_mul_lt_mul_right below
  have := Nat.lt_of_mul_lt_mul_right above
  omega

/-! ## Lane words after writes -/

/-- A bit on whose value all writes that name it agree. -/
theorem writtenBit_agreed {ws : List LaneWrite} {k b : ℕ} {c : Bool} (hex : ∃ x ∈ ws, x.lane = k ∧ x.mask.getLsbD b = true)
    (hall : ∀ x ∈ ws, x.lane = k → x.mask.getLsbD b = true → x.value.getLsbD b = c) (old : Bool) : writtenBit ws k b old = c := by
  induction ws generalizing old with
  | nil => simp at hex
  | cons x rest ih =>
    have split : writtenBit (x :: rest) k b old = writtenBit rest k b (if x.lane = k ∧ x.mask.getLsbD b = true then x.value.getLsbD b else old) := rfl
    rw [split]
    by_cases later : ∃ y ∈ rest, y.lane = k ∧ y.mask.getLsbD b = true
    · exact ih later (fun y hy => hall y (List.mem_cons_of_mem x hy)) _
    · have own : x.lane = k ∧ x.mask.getLsbD b = true := by
        obtain ⟨y, hy, hbit⟩ := hex
        rcases List.mem_cons.1 hy with rfl | hy
        · exact hbit
        · exact absurd ⟨y, hy, hbit⟩ later
      rw [writtenBit_untouched later, if_pos own, hall x List.mem_cons_self own.1 own.2]

/-- A bit that no write names stays. -/
theorem applyWrites_bit_other (v : List LaneWord) {ws : List LaneWrite} {k b : ℕ} (hb : b < 32) (h : ¬∃ x ∈ ws, x.lane = k ∧ x.mask.getLsbD b = true) :
    ((applyWrites v ws).getD k 0#32).getLsbD b = (v.getD k 0#32).getLsbD b := by
  by_cases hk : k < v.length
  · rw [applyWrites_bit v ws hk hb, writtenBit_untouched h]
  · simp [hk]

/-! ## Elements after the writes of some elements -/

/-- The writes of some elements of the group at `d`. -/
def elementWrites (s : State) (d : BitVec 6) (e : ℕ) (ks : List ℕ) (val : ℕ → LaneWord) : List LaneWrite :=
  ks.map fun k => elemWrite s d e k (val k)

section
variable {s t : State} {d : BitVec 6} {e : ℕ} {ks : List ℕ} {val : ℕ → LaneWord}

/-- The bits that the writes name are those of the elements. -/
theorem elementWrites_bits (he : e ∣ 32) {lane b : ℕ} (hb : b < 32) :
    (∃ x ∈ elementWrites s d e ks val, x.lane = lane ∧ x.mask.getLsbD b = true) ↔ ∃ k ∈ ks, bitOf s d e k lane b := by
  simp only [elementWrites, List.mem_map, exists_exists_and_eq_and, elemWrite_bit he s d _ _ hb]

variable (he : e ∣ 32) (hw : t.w = s.w) (hv : t.warp.v = applyWrites s.warp.v (elementWrites s d e ks val))
include he hw hv

/-- An element that is written holds the low bits of its value. -/
theorem readElem_written {k : ℕ} (hk : k ∈ ks) (hin : d.toNat * s.w + k * e / 32 < s.warp.v.length) :
    readElem t d e k = val k &&& lowMask e := by
  refine BitVec.eq_of_getLsbD_eq fun i _ => ?_
  rw [readElem_getLsbD he, BitVec.getLsbD_and, lowMask_getLsbD he, Bool.and_comm (decide _)]
  by_cases hi : i < e
  · have hb : k * e % 32 + i < 32 := by have := elemOffset_le he k; omega
    rw [Warp.readLane, hw, hv, applyWrites_bit _ _ hin hb]
    congr 1
    refine writtenBit_agreed ((elementWrites_bits he hb).2 ⟨k, hk, rfl, by omega, by omega⟩) (fun x hx hlane hmask => ?_) _
    obtain ⟨j, -, rfl⟩ := List.mem_map.1 hx
    obtain rfl := bitOf_unique hi ((elemWrite_bit he s d j _ hb).1 ⟨hlane, hmask⟩)
    exact elemWrite_value he s d j _ hi
  · simp [hi]

/-- An element that is not written stays. -/
theorem readElem_unwritten {k : ℕ} (hk : k ∉ ks) : readElem t d e k = readElem s d e k := by
  refine BitVec.eq_of_getLsbD_eq fun i _ => ?_
  rw [readElem_getLsbD he, readElem_getLsbD he]
  by_cases hi : i < e
  · have hb : k * e % 32 + i < 32 := by have := elemOffset_le he k; omega
    rw [Warp.readLane, hw, hv, applyWrites_bit_other _ hb, Warp.readLane]
    rintro hex
    obtain ⟨j, hj, hbit⟩ := (elementWrites_bits he hb).1 hex
    exact hk (bitOf_unique hi hbit ▸ hj)
  · simp [hi]

end

/-! ## The elements of a vector instruction (R137) -/

theorem mem_activeElems {w : Warp} {k : ℕ} : k ∈ activeElems w ↔ w.vstart ≤ k ∧ k < w.vl := by
  rw [activeElems, List.mem_drop_iff_getElem]
  constructor
  · rintro ⟨i, hi, rfl⟩
    rw [List.length_range] at hi
    simp only [List.getElem_range]
    omega
  · rintro ⟨low, high⟩
    exact ⟨k - w.vstart, by rw [List.length_range]; omega, by simp only [List.getElem_range]; omega⟩

theorem activeElems_sorted (w : Warp) : (activeElems w).Pairwise (· < ·) := List.pairwise_lt_range.drop

/-- The elements below `stop` that an instruction under MK and MZ writes. -/
def writtenElems (w : Warp) (mk : BitVec 3) (mz : Bool) (stop : ℕ) : List ℕ :=
  (activeElems w).filter fun k => k < stop && (maskBit w mk k || mz)

theorem mem_writtenElems {w : Warp} {mk : BitVec 3} {mz : Bool} {stop k : ℕ} (h : stop ≤ w.vl) :
    k ∈ writtenElems w mk mz stop ↔ w.vstart ≤ k ∧ k < stop ∧ (maskBit w mk k = true ∨ mz = true) := by
  rw [writtenElems, List.mem_filter, mem_activeElems, Bool.and_eq_true, Bool.or_eq_true, decide_eq_true_eq]
  constructor
  · rintro ⟨⟨low, -⟩, high, on⟩
    exact ⟨low, high, on⟩
  · rintro ⟨low, high, on⟩
    exact ⟨⟨low, high.trans_le h⟩, high, on⟩

/-- What the mask makes of an element's result. -/
def maskedBits (w : Warp) (mk : BitVec 3) (f : ℕ → Elem) (k : ℕ) : LaneWord := if maskBit w mk k then (f k).bits else 0#32

theorem elemWrites_eq (s : State) (d : BitVec 6) (e : ℕ) (mk : BitVec 3) (mz : Bool) (stop : ℕ) (f : ℕ → Elem) :
    elemWrites s d e mk mz stop f = elementWrites s d e (writtenElems s.warp mk mz stop) (maskedBits s.warp mk f) := by
  rw [elemWrites, elementWrites, writtenElems, ← List.filterMap_eq_map, List.filterMap_filter]
  refine List.filterMap_congr fun k _ => ?_
  rcases Nat.lt_or_ge k stop with low | high
  · cases hm : maskBit s.warp mk k <;> cases mz <;> simp [low, Nat.not_le.2 low, hm, maskedBits]
  · simp [high, Nat.not_lt.2 high]

/-- The destination group holds the strip, within the registers of the warp. -/
structure GroupHolds (s : State) (d : BitVec 6) (e : ℕ) : Prop where
  words : s.warp.v.length = s.r * s.w
  group : groupOk s d (groupSize s.warp e) = true
  holds : s.warp.vl * e ≤ groupSize s.warp e * s.w * 32

theorem VectorReady.holds {s : State} {ops : List (BitVec 6 × ℕ)} (h : VectorReady s ops) {x : BitVec 6 × ℕ} (hx : x ∈ ops) : GroupHolds s x.1 x.2 :=
  ⟨h.words, (h.groups x hx).1, (h.groups x hx).2⟩

section
variable {s t : State} {d : BitVec 6} {e : ℕ} {mk : BitVec 3} {mz : Bool} {hi : ℕ} {f : ℕ → Elem} (hg : GroupHolds s d e) (he : e ∣ 32)
include hg he

/-- The lane word of an element below VL is one of the group's. -/
theorem GroupHolds.lane_lt {k : ℕ} (hk : k < s.warp.vl) : k * e / 32 < groupSize s.warp e * s.w := by
  have pos : 0 < e := Nat.pos_of_dvd_of_pos he (by decide)
  refine Nat.div_lt_of_lt_mul ?_
  calc k * e < (k + 1) * e := Nat.mul_lt_mul_of_pos_right (Nat.lt_succ_self k) pos
    _ ≤ s.warp.vl * e := Nat.mul_le_mul_right e hk
    _ ≤ 32 * (groupSize s.warp e * s.w) := by rw [mul_comm 32]; exact hg.holds

theorem GroupHolds.lane_length {k : ℕ} (hk : k < s.warp.vl) : d.toNat * s.w + k * e / 32 < s.warp.v.length := by
  have inside := hg.lane_lt he hk
  have bound : d.toNat + groupSize s.warp e ≤ s.r := by
    have := hg.group
    simp only [groupOk, Bool.and_eq_true, decide_eq_true_eq] at this
    exact this.2
  calc d.toNat * s.w + k * e / 32 < (d.toNat + groupSize s.warp e) * s.w := by rw [Nat.add_mul]; omega
    _ ≤ s.r * s.w := Nat.mul_le_mul_right _ bound
    _ = s.warp.v.length := hg.words.symm

/-- The elements of a vector instruction after its writes below `hi`. -/
theorem elementsTo_elemWrites (hle : hi ≤ s.warp.vl) (hw : t.w = s.w) (hv : t.warp.v = applyWrites s.warp.v (elemWrites s d e mk mz hi f)) :
    ElementsTo s t d e mk mz hi fun k => (f k).bits := by
  rw [elemWrites_eq] at hv
  refine ⟨fun k low high => ?_, fun k hk _ => ?_, fun i hi' => ?_⟩
  · by_cases on : maskBit s.warp mk k = true ∨ mz = true
    · rw [readElem_written he hw hv ((mem_writtenElems hle).2 ⟨low, high, on⟩) (hg.lane_length he (high.trans_le hle)), maskedBits]
      split
      · rfl
      · next hm => rw [if_pos (on.resolve_left hm), BitVec.zero_and]
    · rw [readElem_unwritten he hw hv fun hk => on ((mem_writtenElems hle).1 hk).2.2]
      rw [not_or] at on
      rw [if_neg on.1, if_neg on.2]
  · refine readElem_unwritten he hw hv fun hmem => ?_
    obtain ⟨low, high, -⟩ := (mem_writtenElems hle).1 hmem
    omega
  · rw [Warp.readLane, hv]
    refine applyWrites_other _ _ _ fun x hx hlane => ?_
    obtain ⟨k, hk, rfl⟩ := List.mem_map.1 hx
    have hk' : k < s.warp.vl := ((mem_writtenElems hle).1 hk).2.1.trans_le hle
    have inside := hg.lane_lt he hk'
    simp only [elemWrite, Nat.add_mul] at hlane hi'
    omega

end

/-- What the elements that a vector instruction writes stop of earlier pending results (R36). -/
theorem elemWrites_stops {s : State} {d : BitVec 6} {e : ℕ} {mk : BitVec 3} {mz : Bool} {hi : ℕ} (f : ℕ → Elem) (he : e ∣ 32) (hle : hi ≤ s.warp.vl) :
    stopsV s.warp (s.warp.writeLanes (elemWrites s d e mk mz hi f)) (stripBits s d e mk mz hi) := by
  refine stopsV_congr (fun lane b hb => ?_) (writeLanes_stops s.warp (elemWrites s d e mk mz hi f))
  rw [elemWrites_eq, elementWrites_bits he hb]
  simp only [mem_writtenElems hle, stripBits, and_assoc]

/-! ## The status of the elements, and the lowest that traps (R132, R134) -/

theorem elemStatus_eq (w : Warp) (mk : BitVec 3) (stop : ℕ) (f : ℕ → Elem) :
    elemStatus w mk stop f = laneStatus f ((activeElems w).filter fun k => k < stop && maskBit w mk k && !isPad w k) := by
  rw [elemStatus, laneStatus, List.foldl_filter]

theorem mem_counting {w : Warp} {mk : BitVec 3} {stop k : ℕ} :
    k ∈ (activeElems w).filter (fun k => k < stop && maskBit w mk k && !isPad w k) ↔ k < stop ∧ counts w mk k := by
  simp only [List.mem_filter, mem_activeElems, isPad, counts, Bool.and_eq_true, Bool.not_eq_true', decide_eq_true_eq, decide_eq_false_iff_not, not_le]
  tauto

theorem elemStatus_getLsbD (w : Warp) (mk : BitVec 3) (stop : ℕ) (f : ℕ → Elem) (i : ℕ) :
    (elemStatus w mk stop f).getLsbD i = true ↔ ∃ k, k < stop ∧ counts w mk k ∧ (f k).flags.bits.getLsbD i = true := by
  simp only [elemStatus_eq, laneStatus_getLsbD, mem_counting, and_assoc]

theorem trapElem_none {w : Warp} {mk : BitVec 3} {f : ℕ → Elem} (h : ∀ k, counts w mk k → enabledTrap w.fpctl (f k).flags = false) :
    trapElem w mk f = none := by
  rw [trapElem, Option.map_eq_none_iff, List.find?_eq_none]
  intro k hk htrap
  obtain ⟨low, high⟩ := mem_activeElems.1 hk
  simp only [Bool.and_eq_true, Bool.not_eq_true', isPad, decide_eq_false_iff_not, not_le] at htrap
  obtain ⟨⟨on, live⟩, traps⟩ := htrap
  rw [h k ⟨low, high, on, live⟩] at traps
  exact absurd traps Bool.false_ne_true

theorem trapElem_lowest {w : Warp} {mk : BitVec 3} {f : ℕ → Elem} {k : ℕ} (hk : counts w mk k) (htrap : enabledTrap w.fpctl (f k).flags = true)
    (hlow : ∀ j, j < k → counts w mk j → enabledTrap w.fpctl (f j).flags = false) : trapElem w mk f = some (k, (f k).flags) := by
  obtain ⟨low, high, on, live⟩ := hk
  have found : (activeElems w).find? (fun k => maskBit w mk k && !isPad w k && enabledTrap w.fpctl (f k).flags) = some k := by
    refine find?_least (activeElems_sorted w) (mem_activeElems.2 ⟨low, high⟩) ?_ fun j hj hlt => ?_
    · rw [on, htrap, isPad, decide_eq_false (not_le.2 live)]
      rfl
    · obtain ⟨low', high'⟩ := mem_activeElems.1 hj
      rw [Bool.eq_false_iff]
      intro hall
      simp only [Bool.and_eq_true, Bool.not_eq_true', isPad, decide_eq_false_iff_not, not_le] at hall
      obtain ⟨⟨on', live'⟩, traps⟩ := hall
      rw [hlow j hlt ⟨low', high', on', live'⟩] at traps
      exact absurd traps Bool.false_ne_true
  rw [trapElem, found, Option.map_some]

end Sys2Proof.Machine
end

section
/-! PROOF. Vector words outside lane mode: their elements and status (06_numbers_and_float.md R137), the FP trap at the lowest element (R134, R135), and their results under a flag (02_words_and_registers.md R34, R35). -/
namespace Sys2Proof.Machine
open Sys2Proof

/-! ## A charged word that completes -/

/-- A state after a dispatch: the core and the lease are charged, and the word is noted as paid. -/
abbrev State.withCharge (s : State) (cores : Vector Core 312) (lease : ℕ) (paid : Bool) : State :=
  { s with cores := cores, warp := { s.warp with lease := lease, paid := paid } }

/-- What a charged vector word that completes leaves of its warp: lane words, pending results, FPSTAT, `vstart` at 0 and the next position. -/
structure VectorEnd (s t : State) (n : ℕ) (v : List LaneWord) (P : List Outstanding) (q : ℕ) (F : BitVec 7) : Prop where
  words : t.warp.v = v
  pending : t.warp.pending = P
  order : t.warp.seq = q
  status : t.warp.fpstat = F
  start : t.warp.vstart = 0
  goes : t.warp.pos = s.warp.pos.after
  uniform : t.warp.s = s.warp.s
  masks : t.warp.m = s.warp.m
  streams : t.warp.st = s.warp.st
  team : t.team = s.team
  frame : ChargedFrame s t n

section
variable {s : State} {n : ℕ} {cores : Vector Core 312} {lease : ℕ} {paid : Bool}

theorem vectorEnd_advance (hl : s.warp.lanes = none) (hc : ChargeTaken s (s.withCharge cores lease paid) n) (v : List LaneWord)
    (P : List Outstanding) (q : ℕ) (F : BitVec 7) :
    VectorEnd s (State.advance (State.fromStart ((s.withCharge cores lease paid).onWarp fun w => { w with v := v, pending := P, seq := q, fpstat := F })))
      n v P q F := by
  obtain ⟨a, b, hab⟩ := advance_uniform
    { s.warp with v := v, pending := P, seq := q, fpstat := F, vstart := 0, lease := lease, paid := paid } hl
  simp only [State.advance, State.fromStart, State.onWarp, hab]
  exact
    { words := rfl, pending := rfl, order := rfl, status := rfl, start := rfl, goes := rfl, uniform := rfl, masks := rfl, streams := rfl, team := rfl
      frame := ⟨rfl, hc.congr rfl rfl⟩ }

/-- Lane words written and status set by a charged word that completes. -/
theorem vectorEnd_written (hl : s.warp.lanes = none) (hc : ChargeTaken s (s.withCharge cores lease paid) n) (ws : List LaneWrite) (st : BitVec 7) :
    VectorEnd s (State.advance (State.fromStart ((s.withCharge cores lease paid).onWarp fun w => (w.writeLanes ws).raise st)))
      n (applyWrites s.warp.v ws) (s.warp.writeLanes ws).pending s.warp.seq (s.warp.fpstat ||| st) :=
  vectorEnd_advance hl hc ..

end

/-- What writes stop shows in the pending results alone. -/
theorem stopsV_of_pending {w x y : Warp} {p : ℕ → ℕ → Prop} (h : x.pending = y.pending) (hs : stopsV w y p) : stopsV w x p := by
  rwa [stopsV, h]

/-! ## A vector word behind its checks and the toll gate -/

/-- What a vector word brings: the elements of its strip and their status. -/
def stripResult (s : State) (d : BitVec 6) (e : ℕ) (mk : BitVec 3) (mz : Bool) (f : ℕ → Elem) : Outstanding :=
  { seq := 0, pc := 0#64, flag := none, dests := groupSize s.warp e, vWrites := elemWrites s d e mk mz s.warp.vl f, status := elemStatus s.warp mk s.warp.vl f }

/-- What a vector word records under a flag at an element that traps. -/
def stripFault (s : State) (e k : ℕ) (x : FpFlags) : Outstanding :=
  { seq := 0, pc := 0#64, flag := none, dests := groupSize s.warp e, fault := some (fpReport x k 0x20#8, 0) }

/-- A state in which element k traps: the elements below it are written and their status is set. -/
def belowTrap (s u : State) (d : BitVec 6) (e : ℕ) (mk : BitVec 3) (mz : Bool) (k : ℕ) (f : ℕ → Elem) : State :=
  u.onWarp fun w => (w.writeLanes (elemWrites s d e mk mz k f)).raise (elemStatus s.warp mk k f)

section
variable {s : State} {checks : List (Bool × IllegalReason)} {toll : ℕ} {fs : FSel} {d : BitVec 6} {e : ℕ} {mk : BitVec 3} {mz : Bool}
  {F : State → ℕ → Elem} {f : ℕ → Elem}

/-- The checks of a vector word outside lane mode. -/
theorem vectorChecks_pass (hl : s.warp.lanes = none) (hd : groupOk s d (groupSize s.warp e) = true) (hc : ∀ c ∈ checks, c.1 = true)
    (hp : fs = .none ∨ s.warp.dests + groupSize s.warp e ≤ 16) :
    ∀ c ∈ [vecOk s d e] ++ checks ++ [vectorOnly s, pendingOk s fs (groupSize s.warp e)], c.1 = true := by
  have pending : (pendingOk s fs (groupSize s.warp e)).1 = true := by simpa [pendingOk] using hp
  simp only [List.forall_mem_append, List.forall_mem_singleton, List.forall_mem_cons]
  exact ⟨⟨hd, hc⟩, vectorOnly_uniform (inLanes_none _ hl), pending⟩

variable (hl : s.warp.lanes = none) (hd : groupOk s d (groupSize s.warp e) = true) (hc : ∀ c ∈ checks, c.1 = true)
  (ha : affords s (s.warp.vl * toll)) (hF : ∀ cores lease paid, F (s.withCharge cores lease paid) = f)
include hl hd hc ha hF

/-- While no element traps, the result is borne: visible at once without a flag, pending under one. -/
theorem vectorWord_quiet (hp : fs = .none ∨ s.warp.dests + groupSize s.warp e ≤ 16) (h : trapElem s.warp mk f = none) :
    ∃ cores lease paid, ChargeTaken s (s.withCharge cores lease paid) (s.warp.vl * toll) ∧
      vectorWord s checks toll fs d e mk mz F = .next (((s.withCharge cores lease paid).bear fs (stripResult s d e mk mz f)).fromStart.advance) := by
  obtain ⟨cores, lease, paid, hu, hcharge⟩ := dispatched_spec s (s.warp.vl * toll)
  have none : trapElem (s.withCharge cores lease paid).warp mk f = none := h
  refine ⟨cores, lease, paid, hcharge, ?_⟩
  rw [vectorWord, guarded_pass (vectorChecks_pass hl hd hc hp), tolled_credit (affords_credit ha), hu]
  simp only [hF, none]
  rfl

/-- Without a flag the lowest element that traps takes its trap, with the elements below it written. -/
theorem vectorWord_traps {k : ℕ} {x : FpFlags} (h : trapElem s.warp mk f = some (k, x)) :
    ∃ cores lease paid, ChargeTaken s (s.withCharge cores lease paid) (s.warp.vl * toll) ∧
      vectorWord s checks toll .none d e mk mz F = .next (trapHere (belowTrap s (s.withCharge cores lease paid) d e mk mz k f) (fpReport x k 0x20#8) k) := by
  obtain ⟨cores, lease, paid, hu, hcharge⟩ := dispatched_spec s (s.warp.vl * toll)
  have some : trapElem (s.withCharge cores lease paid).warp mk f = some (k, x) := h
  refine ⟨cores, lease, paid, hcharge, ?_⟩
  rw [vectorWord, guarded_pass (vectorChecks_pass hl hd hc (.inl rfl)), tolled_credit (affords_credit ha), hu]
  simp only [hF, some]
  rfl

/-- Under a flag the fault of the lowest element that traps is borne in place of the result. -/
theorem vectorWord_records (hfs : fs ≠ .none) (hp : s.warp.dests + groupSize s.warp e ≤ 16) {k : ℕ} {x : FpFlags} (h : trapElem s.warp mk f = some (k, x)) :
    ∃ cores lease paid, ChargeTaken s (s.withCharge cores lease paid) (s.warp.vl * toll) ∧
      vectorWord s checks toll fs d e mk mz F = .next (((s.withCharge cores lease paid).bear fs (stripFault s e k x)).fromStart.advance) := by
  obtain ⟨cores, lease, paid, hu, hcharge⟩ := dispatched_spec s (s.warp.vl * toll)
  have some : trapElem (s.withCharge cores lease paid).warp mk f = some (k, x) := h
  refine ⟨cores, lease, paid, hcharge, ?_⟩
  rw [vectorWord, guarded_pass (vectorChecks_pass hl hd hc (.inr hp)), tolled_credit (affords_credit ha), hu]
  simp only [hF, some]
  cases fs with
  | none => exact absurd rfl hfs
  | a => rfl
  | b => rfl

end

/-! ## Its elements and status -/

section
variable {i : Instr} {s : State} {checks : List (Bool × IllegalReason)} {toll : ℕ} {d : BitVec 6} {e : ℕ} {mk : BitVec 3} {mz : Bool}
  {F : State → ℕ → Elem} {f : ℕ → Elem}

/-- Without a flag the elements are written and their status is set at once. -/
theorem bear_stripResult (u s : State) (d : BitVec 6) (e : ℕ) (mk : BitVec 3) (mz : Bool) (f : ℕ → Elem) :
    u.bear .none (stripResult s d e mk mz f) =
      u.onWarp fun w => (w.writeLanes (elemWrites s d e mk mz s.warp.vl f)).raise (elemStatus s.warp mk s.warp.vl f) := bear_none u _

/-- FPSTAT after the elements of a strip: those that count below `stop`. -/
theorem fpstat_elemStatus (s : State) (mk : BitVec 3) (stop : ℕ) (f : ℕ → Elem) (i : ℕ) :
    (s.warp.fpstat ||| elemStatus s.warp mk stop f).getLsbD i = true ↔
      s.warp.fpstat.getLsbD i = true ∨ ∃ k, k < stop ∧ counts s.warp mk k ∧ (f k).flags.bits.getLsbD i = true := by
  rw [BitVec.getLsbD_or, Bool.or_eq_true, elemStatus_getLsbD]

/-- A vector word without a flag, none of whose elements traps, gives every element and its status. -/
theorem givesVector_vectorWord (hl : s.warp.lanes = none) (hg : GroupHolds s d e) (he : e ∣ 32) (hc : ∀ c ∈ checks, c.1 = true)
    (h : exec i s = vectorWord s checks toll .none d e mk mz F) (hF : ∀ cores lease paid, F (s.withCharge cores lease paid) = f) :
    givesVector i s toll d e mk mz f := by
  intro ha quiet
  obtain ⟨cores, lease, paid, hcharge, word⟩ := vectorWord_quiet (mz := mz) hl hg.group hc ha hF (.inl rfl) (trapElem_none quiet)
  rw [word, bear_stripResult] at h
  have done := vectorEnd_written hl hcharge (elemWrites s d e mk mz s.warp.vl f) (elemStatus s.warp mk s.warp.vl f)
  refine ⟨_, h, elementsTo_elemWrites hg he le_rfl (congrArg (·.launch.warpw) done.team) done.words, fun i => ?_, done.start, done.goes, done.uniform,
    done.masks, done.streams, done.order, stopsV_of_pending done.pending (elemWrites_stops f he le_rfl), done.frame⟩
  rw [done.status, fpstat_elemStatus]
  exact or_congr_right (exists_congr fun k => ⟨fun ⟨_, hk⟩ => hk, fun hk => ⟨hk.1.2.1, hk⟩⟩)

/-- R134, R135: the lowest enabled element k with an enabled exception takes the FP trap, with the elements below it written and their status set. -/
def trapsVector (i : Instr) (s : State) (toll : ℕ) (d : BitVec 6) (e : ℕ) (mk : BitVec 3) (mz : Bool) (k : ℕ) (f : ℕ → Elem) : Prop :=
  affords s (s.warp.vl * toll) → counts s.warp mk k → enabledTrap s.warp.fpctl (f k).flags = true →
    (∀ j, j < k → counts s.warp mk j → enabledTrap s.warp.fpctl (f j).flags = false) →
    ∃ u, exec i s = .next (takeTrap u (fpReport (f k).flags k 0x20#8) { s.warp.site with vstart := k } s.warp.pos.pc) ∧
      (∀ j, s.warp.vstart ≤ j → j < k → readElem u d e j =
        if maskBit s.warp mk j then (f j).bits &&& lowMask e else if mz then 0#32 else readElem s d e j) ∧
      (∀ j, (j < s.warp.vstart ∨ k ≤ j) → (j + 1) * e ≤ groupSize s.warp e * s.w * 32 → readElem u d e j = readElem s d e j) ∧
      (∀ i, u.warp.fpstat.getLsbD i = true ↔ s.warp.fpstat.getLsbD i = true ∨
        ∃ j, j < k ∧ counts s.warp mk j ∧ (f j).flags.bits.getLsbD i = true) ∧
      u.warp.s = s.warp.s ∧ u.warp.m = s.warp.m ∧ u.warp.pos = s.warp.pos ∧ u.mem = s.mem ∧ u.parts = s.parts ∧ u.team = s.team ∧
      ChargeTaken s u (s.warp.vl * toll)

/-- Outside lane mode a trap at the word that issues names the position of the warp. -/
theorem trapHere_uniform (u : State) (w : Warp) (hl : u.warp.lanes = none) (hw : w.lanes = none) (hp : u.warp.pos = w.pos) (r : Report) (k : ℕ) :
    trapHere u r k = takeTrap u r { w.site with vstart := k } w.pos.pc := by
  simp only [trapHere, Warp.site, at_uniform _ hl, at_uniform _ hw, hp]

theorem trapsVector_vectorWord {k : ℕ} (hl : s.warp.lanes = none) (hg : GroupHolds s d e) (he : e ∣ 32) (hc : ∀ c ∈ checks, c.1 = true)
    (h : exec i s = vectorWord s checks toll .none d e mk mz F) (hF : ∀ cores lease paid, F (s.withCharge cores lease paid) = f) :
    trapsVector i s toll d e mk mz k f := by
  intro ha hk htrap hlow
  obtain ⟨cores, lease, paid, hcharge, word⟩ := vectorWord_traps (mz := mz) hl hg.group hc ha hF (trapElem_lowest hk htrap hlow)
  have elements := elementsTo_elemWrites (t := belowTrap s (s.withCharge cores lease paid) d e mk mz k f) (mz := mz) (f := f) hg he hk.2.1.le rfl rfl
  rw [word, trapHere_uniform (belowTrap s (s.withCharge cores lease paid) d e mk mz k f) s.warp hl hl rfl] at h
  exact ⟨_, h, elements.live, elements.rest, fpstat_elemStatus s mk k f, rfl, rfl, rfl, rfl, rfl, rfl, hcharge.congr rfl rfl⟩

end

/-! ## Under a flag (R142; R34, R35) -/

/-- Under a flag a long word changes no register: its result, its status or its fault waits for the commit. -/
def pendsVector (i : Instr) (s : State) (toll : ℕ) (fs : FSel) (d : BitVec 6) (e : ℕ) (mk : BitVec 3) (mz : Bool) (f : ℕ → Elem) : Prop :=
  ∃ t o, exec i s = .next t ∧ t.warp.pending = s.warp.pending ++ [o] ∧ o.flag = flagOf s.warp.pos fs ∧
    o.done = false ∧ o.dests = groupSize s.warp e ∧ t.warp.v = s.warp.v ∧ t.warp.fpstat = s.warp.fpstat ∧ t.warp.vstart = 0 ∧
    t.warp.s = s.warp.s ∧ t.warp.m = s.warp.m ∧ t.warp.st = s.warp.st ∧ t.warp.pos = s.warp.pos.after ∧ ChargedFrame s t (s.warp.vl * toll) ∧
    o.seq = s.warp.seq ∧ t.warp.seq = s.warp.seq + 1 ∧
    ((∀ k, counts s.warp mk k → enabledTrap s.warp.fpctl (f k).flags = false) →
      o.fault = none ∧ o.vWrites = elemWrites s d e mk mz s.warp.vl f ∧ o.status = elemStatus s.warp mk s.warp.vl f) ∧
    (∀ k, counts s.warp mk k → enabledTrap s.warp.fpctl (f k).flags = true →
      (∀ j, j < k → counts s.warp mk j → enabledTrap s.warp.fpctl (f j).flags = false) →
      o.fault = some (fpReport (f k).flags k 0x20#8, 0) ∧ o.vWrites = [] ∧ o.status = 0#7)

section
variable {i : Instr} {s : State} {checks : List (Bool × IllegalReason)} {n toll : ℕ} {fs : FSel} {d : BitVec 6} {e : ℕ} {mk : BitVec 3} {mz : Bool}
  {F : State → ℕ → Elem} {f : ℕ → Elem} {cores : Vector Core 312} {lease : ℕ} {paid : Bool}

/-- A result borne under a flag, as it joins the pending ones. -/
def Outstanding.borne (o : Outstanding) (w : Warp) (fs : FSel) : Outstanding :=
  { o with seq := w.seq, pc := addrWord w.at.pc, home := w.at.hdr, flag := flagOf w.at fs, fault := o.fault.map fun x => (x.1.settled, x.2) }

/-- A result whose fault met no error in memory is borne under a flag: one pending result more, and nothing visible. -/
theorem vectorEnd_borne (hl : s.warp.lanes = none) (hc : ChargeTaken s (s.withCharge cores lease paid) n) (hfs : fs ≠ .none) (o : Outstanding)
    (hm : ∀ u : State, u.meeting o.fault = u) :
    VectorEnd s (State.advance (State.fromStart ((s.withCharge cores lease paid).bear fs o))) n s.warp.v (s.warp.pending ++ [o.borne s.warp fs])
      (s.warp.seq + 1) s.warp.fpstat := by
  rw [bear_flag _ _ _ hfs, hm]
  exact vectorEnd_advance hl hc ..

/-- The FP trap meets no error in memory. -/
theorem meeting_fpReport (u : State) (x : FpFlags) (k : ℕ) (r : BitVec 8) : u.meeting (some (fpReport x k r, 0)) = u := met_none u rfl rfl

theorem pendsVector_vectorWord (hl : s.warp.lanes = none) (hd : groupOk s d (groupSize s.warp e) = true) (hc : ∀ c ∈ checks, c.1 = true) (hfs : fs ≠ .none)
    (hp : s.warp.dests + groupSize s.warp e ≤ 16) (ha : affords s (s.warp.vl * toll)) (h : exec i s = vectorWord s checks toll fs d e mk mz F)
    (hF : ∀ cores lease paid, F (s.withCharge cores lease paid) = f) : pendsVector i s toll fs d e mk mz f := by
  cases trap : trapElem s.warp mk f with
  | none =>
    obtain ⟨cores, lease, paid, hcharge, word⟩ := vectorWord_quiet (mz := mz) hl hd hc ha hF (.inr hp) trap
    have done := vectorEnd_borne hl hcharge hfs (stripResult s d e mk mz f) fun _ => rfl
    refine ⟨_, _, h.trans word, done.pending, congrArg (flagOf · fs) (at_uniform _ hl), rfl, rfl, done.words, done.status, done.start, done.uniform, done.masks, done.streams, done.goes,
      done.frame, rfl, done.order, fun _ => ⟨rfl, rfl, rfl⟩, fun k hk htrap hlow => ?_⟩
    rw [trapElem_lowest hk htrap hlow] at trap
    exact absurd trap (by simp)
  | some x =>
    obtain ⟨cores, lease, paid, hcharge, word⟩ := vectorWord_records (mz := mz) hl hd hc ha hF hfs hp trap
    have done := vectorEnd_borne hl hcharge hfs (stripFault s e x.1 x.2) fun u => meeting_fpReport u _ _ _
    refine ⟨_, _, h.trans word, done.pending, congrArg (flagOf · fs) (at_uniform _ hl), rfl, rfl, done.words, done.status, done.start, done.uniform, done.masks, done.streams, done.goes,
      done.frame, rfl, done.order, fun quiet => ?_, fun k hk htrap hlow => ?_⟩
    · rw [trapElem_none quiet] at trap
      exact absurd trap (by simp)
    · obtain rfl : (k, (f k).flags) = x := by simpa [trapElem_lowest hk htrap hlow] using trap
      exact ⟨rfl, rfl, rfl⟩

end

end Sys2Proof.Machine
end

section
/-! PROOF. The floating words outside lane mode, conversion and dequantisation by their form (06_numbers_and_float.md R137, R139, R146, R150), and the statement on their exceptions (O13). -/
namespace Sys2Proof.Machine
open Sys2Proof

section Arms
variable (s : State) (mk : BitVec 3) (mz nsat : Bool) (md : Mode) (src et : ET) (d a b : BitVec 6)

theorem exec_vfclass : exec (.vfclass mk mz et d a) s =
    vectorWord s [vecOk s a et.width] 2 .none d et.width mk mz fun s k => { bits := fclass (fmtOf et) (fVal et (vElem s et a k)) } := rfl
theorem exec_vcvt : exec (.vcvt mk mz md nsat src et d a) s =
    vectorWord s [vecOk s a src.width] 2 .none d et.width mk mz fun s k =>
      { bits := (convert et md nsat (elemValue src (vElem s src a k))).bits, flags := (convert et md nsat (elemValue src (vElem s src a k))).flags } := rfl
theorem exec_vdqnt : exec (.vdqnt mk mz md src et d a b) s =
    vectorWord s (vecOk s a src.width :: scaleOk s b) 2 .none d et.width mk mz fun s k =>
      dequantElem src et md (vElem s src a k) (readElem s b 16 (k / blockLen (stripBlock s.warp))) := rfl

end Arms

/-- The first of the operands is the destination. -/
theorem VectorReady.dest {s : State} {d : BitVec 6} {e : ℕ} {ops : List (BitVec 6 × ℕ)} (h : VectorReady s ((d, e) :: ops)) : GroupHolds s d e :=
  h.holds List.mem_cons_self

theorem VectorReady.vecOk {s : State} {r : BitVec 6} {e : ℕ} {ops : List (BitVec 6 × ℕ)} (h : VectorReady s ops) (hr : (r, e) ∈ ops) :
    (vecOk s r e).1 = true := (h.groups _ hr).1

section
variable {i : Instr} {s : State} {ops : List (BitVec 6 × ℕ)} {fs : FSel} {mk : BitVec 3} {mz : Bool} {et : ET} {toll : ℕ} {d : BitVec 6}
  {srcs : List (BitVec 6)} {g : List LaneWord → Elem} {f : ℕ → Elem}

theorem floatWord_vector (hl : s.warp.lanes = none) : floatWord s fs mk mz et toll d srcs g =
    vectorWord s (srcs.map fun r => vecOk s r et.width) toll fs d et.width mk mz fun s k => g (srcs.map fun r => vElem s et r k) := by
  rw [floatWord, inLanes_none _ hl, Bool.false_and, if_neg Bool.false_ne_true]

variable (hr : VectorReady s ((d, et.width) :: ops)) (het : et ≠ .int64) (hs : ∀ r ∈ srcs, (r, et.width) ∈ ops)
include hr hs

theorem floatChecks_pass : ∀ c ∈ srcs.map fun r => vecOk s r et.width, c.1 = true :=
  List.forall_mem_map.2 fun r hm => hr.vecOk (List.mem_cons_of_mem _ (hs r hm))

/-- Under a flag a floating word keeps its result, or its fault, for the commit. -/
theorem pendsVector_floatWord (hfs : fs ≠ .none) (hp : s.warp.dests + groupSize s.warp et.width ≤ 16) (ha : affords s (s.warp.vl * toll))
    (h : exec i s = floatWord s fs mk mz et toll d srcs g) (hv : ∀ k, g (srcs.map fun r => vElem s et r k) = f k) :
    pendsVector i s toll fs d et.width mk mz f :=
  pendsVector_vectorWord hr.mode hr.dest.group (floatChecks_pass hr hs) hfs hp ha (h.trans (floatWord_vector hr.mode)) fun _ _ _ => funext hv

include het

/-- A floating word without a flag gives its elements while none of them traps. -/
theorem givesVector_floatWord (h : exec i s = floatWord s .none mk mz et toll d srcs g) (hv : ∀ k, g (srcs.map fun r => vElem s et r k) = f k) :
    givesVector i s toll d et.width mk mz f :=
  givesVector_vectorWord hr.mode hr.dest (width_dvd het) (floatChecks_pass hr hs) (h.trans (floatWord_vector hr.mode)) fun _ _ _ => funext hv

/-- A floating word without a flag traps at the lowest element with an enabled exception. -/
theorem trapsVector_floatWord {k : ℕ} (h : exec i s = floatWord s .none mk mz et toll d srcs g) (hv : ∀ k, g (srcs.map fun r => vElem s et r k) = f k) :
    trapsVector i s toll d et.width mk mz k f :=
  trapsVector_vectorWord hr.mode hr.dest (width_dvd het) (floatChecks_pass hr hs) (h.trans (floatWord_vector hr.mode)) fun _ _ _ => funext hv

end

/-- Settles O13: each word is a vector word whose elements come from its sources; the lowest element that traps decides. -/
theorem floatExceptions : Obligations.FloatExceptions := by
  unfold Obligations.FloatExceptions
  refine ⟨fun s mk mz nsat md src et d a b c k het hsrc hr => ?_, fun s fs mk mz md et d a b het hfs hr hp ha => ?_⟩
  · intro x y z traps
    have named : traps = fun toll i f => trapsVector i s toll d et.width mk mz k f := rfl
    clear_value traps
    subst named
    refine ⟨?_, ?_, ?_, ?_, ?_, ?_, ?_, ?_, ?_, ?_, ?_, fun hb => ?_, fun hb hscale => ?_⟩
    · exact trapsVector_floatWord hr het (by simp) (exec_vfadd ..) fun _ => rfl
    · exact trapsVector_floatWord hr het (by simp) (exec_vfsub ..) fun _ => rfl
    · exact trapsVector_floatWord hr het (by simp) (exec_vfmul ..) fun _ => rfl
    · exact trapsVector_floatWord hr het (by simp) (exec_vfma ..) fun _ => rfl
    · exact trapsVector_floatWord hr het (by simp) (exec_vfnma ..) fun _ => rfl
    · exact trapsVector_floatWord hr het (by simp) (exec_vfdiv ..) fun _ => rfl
    · exact trapsVector_floatWord hr het (by simp) (exec_vfsqrt ..) fun _ => rfl
    · exact trapsVector_floatWord hr het (by simp) (exec_vfrsq ..) fun _ => rfl
    · exact trapsVector_floatWord hr het (by simp) (exec_vfrcp ..) fun _ => rfl
    · exact trapsVector_floatWord hr het (by simp) (exec_vfexp2 ..) fun _ => rfl
    · exact trapsVector_floatWord hr het (by simp) (exec_vflog2 ..) fun _ => rfl
    · exact trapsVector_vectorWord hr.mode hr.dest (width_dvd het) (List.forall_mem_singleton.2 (hb.vecOk (by simp))) (exec_vcvt ..)
        fun _ _ _ => rfl
    · exact trapsVector_vectorWord hr.mode hr.dest (width_dvd het) (List.forall_mem_cons.2 ⟨hb.vecOk (by simp), hscale⟩) (exec_vdqnt ..)
        fun _ _ _ => rfl
  · intro x pends
    have named : pends = fun i f => pendsVector i s 8 fs d et.width mk mz f := rfl
    clear_value pends
    subst named
    refine ⟨?_, ?_, ?_, ?_, ?_, ?_⟩
    · exact pendsVector_floatWord hr (by simp) hfs hp ha (exec_vfdiv ..) fun _ => rfl
    · exact pendsVector_floatWord hr (by simp) hfs hp ha (exec_vfsqrt ..) fun _ => rfl
    · exact pendsVector_floatWord hr (by simp) hfs hp ha (exec_vfrsq ..) fun _ => rfl
    · exact pendsVector_floatWord hr (by simp) hfs hp ha (exec_vfrcp ..) fun _ => rfl
    · exact pendsVector_floatWord hr (by simp) hfs hp ha (exec_vfexp2 ..) fun _ => rfl
    · exact pendsVector_floatWord hr (by simp) hfs hp ha (exec_vflog2 ..) fun _ => rfl

end Sys2Proof.Machine
end

section
/-! PROOF. Quantisation of the blocks of a strip, and its FP trap (06_numbers_and_float.md R134, R135, R137, R148, R149; O14). -/
namespace Sys2Proof.Machine
open Sys2Proof

/-! ## The blocks of a strip -/

/-- Block j of a strip, quantised from the values of its live positions, with +0 elsewhere (R148). -/
def blockAt (s : State) (et : ET) (x : ℕ → Exact) (j : ℕ) : QuantBlock :=
  let n := blockLen (stripBlock s.warp)
  quantBlock et ((List.range n).map fun i => if j * n + i < s.warp.vl - s.warp.vpad then x (j * n + i) else .zero) (s.warp.vl - s.warp.vpad - j * n)

/-- The writes of some blocks. -/
def blockWrites (s : State) (et : ET) (d sc : BitVec 6) (x : ℕ → Exact) (js : List ℕ) : List LaneWrite :=
  js.flatMap fun j => quantWrites s et d sc (blockLen (stripBlock s.warp)) j (blockAt s et x j)

/-- The status of some blocks. -/
def blockStatus (s : State) (et : ET) (x : ℕ → Exact) (js : List ℕ) : BitVec 7 := js.foldl (fun acc j => acc ||| (blockAt s et x j).flags.bits) 0#7

theorem fpstat_blockStatus (s : State) (et : ET) (x : ℕ → Exact) (js : List ℕ) (i : ℕ) :
    (s.warp.fpstat ||| blockStatus s et x js).getLsbD i = true ↔
      s.warp.fpstat.getLsbD i = true ∨ ∃ j ∈ js, (blockAt s et x j).flags.bits.getLsbD i = true := by
  rw [BitVec.getLsbD_or, Bool.or_eq_true, blockStatus, ← List.foldl_map (f := fun j => (blockAt s et x j).flags.bits) (g := (· ||| ·)), or_all_getLsbD]
  simp

theorem quantBlocks_sorted (w : Warp) (b : ℕ) : (quantBlocks w b).Pairwise (· < ·) := by
  unfold quantBlocks
  split
  · exact .nil
  · exact List.pairwise_lt_range.drop

/-- A strip without elements to act on has no blocks (R137). -/
theorem quantBlocks_nil {w : Warp} (h : w.vl ≤ w.vstart) (b : ℕ) : quantBlocks w b = [] := if_pos h

section
variable {s : State} {et : ET} {d sc : BitVec 6} {x : ℕ → Exact}

/-- A state with some blocks written and their status set. -/
def quantised (s : State) (et : ET) (d sc : BitVec 6) (x : ℕ → Exact) (js : List ℕ) : State :=
  s.onWarp fun w => (w.writeLanes (blockWrites s et d sc x js)).raise (blockStatus s et x js)

/-- While no block traps all are written. -/
theorem quantise_quiet (h : ∀ j ∈ quantBlocks s.warp (blockLen (stripBlock s.warp)), (blockAt s et x j).trap s.warp.fpctl = none) :
    quantise s et d sc x = (quantised s et d sc x (quantBlocks s.warp (blockLen (stripBlock s.warp)))).fromStart.advance := by
  have none : (quantBlocks s.warp (blockLen (stripBlock s.warp))).find? (fun j => ((blockAt s et x j).trap s.warp.fpctl).isSome) = none :=
    List.find?_eq_none.2 fun j hj => by simp [h j hj]
  unfold blockAt at none
  simp only [quantise, none]
  rfl

/-- The first block with a trap takes it, with the blocks below it written. -/
theorem quantise_traps {j i : ℕ} {f : FpFlags} (hj : j ∈ quantBlocks s.warp (blockLen (stripBlock s.warp)))
    (htrap : (blockAt s et x j).trap s.warp.fpctl = some (i, f))
    (hlow : ∀ j' ∈ quantBlocks s.warp (blockLen (stripBlock s.warp)), j' < j → (blockAt s et x j').trap s.warp.fpctl = none) :
    quantise s et d sc x = trapHere (quantised s et d sc x ((quantBlocks s.warp (blockLen (stripBlock s.warp))).filter (· < j)))
      (fpReport f (j * blockLen (stripBlock s.warp) + i) 0x20#8) (j * blockLen (stripBlock s.warp) + i) := by
  have some : (quantBlocks s.warp (blockLen (stripBlock s.warp))).find? (fun j => ((blockAt s et x j).trap s.warp.fpctl).isSome) = some j :=
    find?_least (quantBlocks_sorted _ _) hj (by rw [htrap]; rfl) fun j' hj' hlt => by rw [hlow j' hj' hlt]; rfl
  unfold blockAt at some htrap
  simp only [quantise, some, htrap]
  rfl

end

/-! ## The word -/

/-- The value of element k of the source, or of its transpose (R149). -/
def stripValue (s : State) (tr : Bool) (src : ET) (a : BitVec 6) (k : ℕ) : Exact :=
  fVal src (if tr then transposed s src.width a k else vElem s src a k)

section
variable {s : State} {tr : Bool} {src et : ET} {d a b : BitVec 6}

/-- Behind its checks and the toll gate `VQNT` quantises the strip. -/
theorem exec_vqnt (hl : s.warp.lanes = none) (hd : (vecOk s d et.width).1 = true) (hsrc : groupSize s.warp src.width ≤ 8)
    (ha : (if tr then groupOk s a 8 else groupOk s a (groupSize s.warp src.width)) = true) (hsc : ∀ x ∈ scaleOk s b, x.1 = true)
    (haff : affords s (s.warp.vl * 2)) : ∃ cores lease paid, ChargeTaken s (s.withCharge cores lease paid) (s.warp.vl * 2) ∧
      exec (.vqnt tr src et d a b) s = .next (quantise (s.withCharge cores lease paid) et d b (stripValue s tr src a)) := by
  obtain ⟨cores, lease, paid, hu, hcharge⟩ := dispatched_spec s (s.warp.vl * 2)
  refine ⟨cores, lease, paid, hcharge, ?_⟩
  change execVqnt tr src et d a b s = _
  rw [execVqnt, guarded_pass, tolled_credit (affords_credit haff), hu]
  · rfl
  · simp only [List.forall_mem_append, List.forall_mem_cons, decide_eq_true_eq]
    exact ⟨⟨⟨hd, hsrc, ha, List.forall_mem_nil _⟩, hsc⟩, vectorOnly_uniform (inLanes_none _ hl), List.forall_mem_nil _⟩

end

/-- Settles O14: behind its checks `VQNT` writes every block, or those below the first that traps. -/
theorem quantisation : Obligations.Quantisation := by
  unfold Obligations.Quantisation
  intro s tr src et d a b hl hd hsrc ha hsc n live x block written gained haff
  obtain ⟨cores, lease, paid, hcharge, word⟩ := exec_vqnt hl hd hsrc ha hsc haff
  have quiet : (∀ j ∈ quantBlocks s.warp n, (block j).trap s.warp.fpctl = none) →
      ∃ t, exec (.vqnt tr src et d a b) s = .next t ∧ VectorEnd s t (s.warp.vl * 2) (applyWrites s.warp.v (written (quantBlocks s.warp n)))
        (s.warp.writeLanes (written (quantBlocks s.warp n))).pending s.warp.seq
        (s.warp.fpstat ||| blockStatus s et (stripValue s tr src a) (quantBlocks s.warp n)) := fun h =>
    ⟨_, word.trans (congrArg _ (quantise_quiet (s := s.withCharge cores lease paid) h)), vectorEnd_written hl hcharge ..⟩
  refine ⟨fun h => ?_, fun j i f hj htrap hlow => ?_, fun hstart => ?_⟩
  · obtain ⟨t, ht, done⟩ := quiet h
    refine ⟨t, ht, done.words, fun i => ?_, stopsV_of_pending done.pending (writeLanes_stops ..), done.start, done.goes, done.uniform, done.masks,
      done.streams, done.order, done.frame⟩
    rw [done.status]
    exact fpstat_blockStatus ..
  · have trapped := quantise_traps (s := s.withCharge cores lease paid) (d := d) (sc := b) (x := stripValue s tr src a) hj htrap hlow
    refine ⟨_, word.trans (congrArg _ (trapped.trans (trapHere_uniform _ s.warp (by exact hl) hl (by rfl) ..))), rfl,
      fpstat_blockStatus s et (stripValue s tr src a) _, rfl, rfl, rfl, rfl, rfl, rfl, hcharge.congr rfl rfl⟩
  · obtain ⟨t, ht, done⟩ := quiet (by simp [quantBlocks_nil hstart])
    have words := done.words
    have status := done.status
    rw [quantBlocks_nil hstart] at words status
    exact ⟨t, ht, words, status.trans (BitVec.or_zero ..), done.start⟩

end Sys2Proof.Machine
end

section
/-! PROOF. Correct rounding of real values (00_scope.md R10, 06_numbers_and_float.md R131, R132, R142): quotients, reciprocals and roots. -/
namespace Sys2Proof.Machine
open Sys2Proof

/-! ## Real magnitudes that a format does not tell apart -/

/-- Two magnitudes stand alike to every code of a format and to every middle between two codes. -/
structure FloatFmt.Like (f : FloatFmt) (v w : ℝ) : Prop where
  below : ∀ c, (f.codeValue c : ℝ) < v ↔ (f.codeValue c : ℝ) < w
  above : ∀ c, v < f.codeValue c ↔ w < f.codeValue c
  belowMiddle : ∀ c, (f.codeValue c + f.codeValue (c + 1) : ℝ) < 2 * v ↔ (f.codeValue c + f.codeValue (c + 1) : ℝ) < 2 * w
  aboveMiddle : ∀ c, 2 * v < (f.codeValue c + f.codeValue (c + 1) : ℝ) ↔ 2 * w < (f.codeValue c + f.codeValue (c + 1) : ℝ)

theorem FloatFmt.Like.refl (f : FloatFmt) (v : ℝ) : f.Like v v := ⟨fun _ => .rfl, fun _ => .rfl, fun _ => .rfl, fun _ => .rfl⟩

theorem FloatFmt.Like.eq_iff {f : FloatFmt} {v w : ℝ} (h : f.Like v w) (c : ℕ) : (f.codeValue c : ℝ) = v ↔ (f.codeValue c : ℝ) = w := by
  have low := h.below c
  have high := h.above c
  grind

/-- The smallest normal magnitude is a code's. -/
theorem FloatFmt.codeValue_emin (f : FloatFmt) : f.codeValue (2 ^ f.mbits) = 2 ^ f.emin := by
  have value := f.codeValue_of (k := 0) (r := 2 ^ f.mbits) (Nat.pow_le_pow_right two_pos (Nat.le_succ _)) (.inl rfl)
  rw [Nat.zero_mul, Nat.zero_add] at value
  rw [value, Nat.cast_pow, Nat.cast_ofNat, ← zpow_natCast, ← zpow_add₀ two_ne_zero, ulpMin]
  congr 1
  push_cast
  ring

/-- A real magnitude rounds to the code that a number does from which the format does not tell it apart. -/
theorem FloatFmt.Like.rounds {f : FloatFmt} {v : ℝ} {q : ℚ} (h : f.Like v q) {md : Mode} {neg : Bool} {r : ℕ} (hr : f.rounds md neg q r) :
    f.roundsReal md neg v r := by
  obtain ⟨c, low, high, rfl⟩ := rounds_iff.1 hr
  refine ⟨c, ?_, ?_, ?_⟩
  · rw [← not_lt, h.above c, not_lt]
    exact_mod_cast low
  · rw [h.above (c + 1)]
    exact_mod_cast high
  · have own := h.eq_iff c
    have below := h.belowMiddle c
    have above := h.aboveMiddle c
    norm_cast at own below above
    by_cases exact : f.codeValue c = q
    · exact .inl ⟨(own.2 exact).symm, by rw [← exact, neighbour_self]⟩
    · refine .inr ⟨fun hv => exact (own.1 hv.symm), ?_⟩
      cases md with
      | rz => simp [neighbour, Ne.symm exact]
      | ru => simp [neighbour, Ne.symm exact]
      | rd => simp [neighbour, Ne.symm exact]
      | rne =>
        simp only [neighbour, Ne.symm exact, if_false]
        push_cast at below above
        refine ⟨fun hv => if_pos (above.1 hv), fun hv => ?_, fun hv => ?_⟩
        · rw [if_neg (not_lt.2 (below.1 hv).le), if_pos (below.1 hv)]
        · rw [if_neg fun hq => (above.2 hq).ne hv, if_neg fun hq => (below.2 hq).ne' hv]

/-- A rounded number is the correctly rounded value of every real magnitude that the format does not tell apart from its own. -/
theorem roundedTo_of_like {et : ET} {md : Mode} {neg : Bool} {m : ℕ} {e : ℤ} {v : ℝ} (h : (fmtOf et).Like v (m * 2 ^ e)) :
    roundedTo et md neg v (roundElem et md (.fin neg m e, false)) := by
  obtain ⟨r, hr, fits, overflows⟩ := rnd_spec et md neg m e
  have h' : (fmtOf et).Like v ((m * 2 ^ e : ℚ) : ℝ) := by push_cast; exact h
  have exact : ((fmtOf et).codeValue r : ℝ) = v ↔ (fmtOf et).codeValue r = m * 2 ^ e := by
    rw [h'.eq_iff r]
    norm_cast
  have tiny : v < (2 : ℝ) ^ (fmtOf et).emin ↔ (m : ℚ) * 2 ^ e < 2 ^ (fmtOf et).emin := by
    have unit : (2 : ℝ) ^ (fmtOf et).emin = ((fmtOf et).codeValue (2 ^ (fmtOf et).mbits) : ℚ) := by
      rw [FloatFmt.codeValue_emin, Rat.cast_zpow, Rat.cast_ofNat]
    rw [unit, h'.above, FloatFmt.codeValue_emin, Rat.cast_lt]
  refine ⟨r, h'.rounds hr, fun hle => ?_, fun hgt => ?_⟩
  · simp [roundElem, fits hle, exact, tiny]
  · simp only [roundElem, overflows hgt, overflow_eq, and_self]

/-- A number is rounded correctly to itself. -/
theorem roundedTo_number (et : ET) (md : Mode) (neg : Bool) (m : ℕ) (e : ℤ) :
    roundedTo et md neg (m * 2 ^ e) (roundElem et md (.fin neg m e, false)) := roundedTo_of_like (.refl _ _)

/-! ## Real magnitudes that no short number tells apart -/

/-- No number of 64 significant bits stands between the two magnitudes, or on one of them only. -/
def AlikeReal (v w : ℝ) : Prop :=
  ∀ (a : ℕ) (g : ℤ), a < 2 ^ 64 → ((a : ℝ) * 2 ^ g < v ↔ (a : ℝ) * 2 ^ g < w) ∧ (v < a * 2 ^ g ↔ w < a * 2 ^ g)

theorem Alike.real {v w : ℚ} (h : Alike v w) : AlikeReal v w := fun a g ha => by
  obtain ⟨low, high⟩ := h a g ha
  have cast : ((a : ℝ) * 2 ^ g) = ((a * 2 ^ g : ℚ) : ℝ) := by push_cast; rfl
  rw [cast]
  exact ⟨by exact_mod_cast low, by exact_mod_cast high⟩

/-- A code's value and the middle behind it are short numbers. -/
theorem AlikeReal.like {f : FloatFmt} (hf : f.mbits < 62) {v w : ℝ} (h : AlikeReal v w) : f.Like v w := by
  have short (c : ℕ) : ∃ (a : ℕ) (g : ℤ), a < 2 ^ 64 ∧ (f.codeValue c : ℝ) = a * 2 ^ g := by
    obtain ⟨a, g, ha, own, -⟩ := f.codeValue_short hf c
    exact ⟨a, g, by omega, by rw [own]; push_cast; rfl⟩
  have middle (c : ℕ) : ∃ (a : ℕ) (g : ℤ), a < 2 ^ 64 ∧ (f.codeValue c + f.codeValue (c + 1) : ℝ) = 2 * (a * 2 ^ g) := by
    obtain ⟨a, g, ha, own, next⟩ := f.codeValue_short hf c
    refine ⟨2 * a + 1, g - 1, by omega, ?_⟩
    rw [own, next, zpow_sub_one₀ two_ne_zero]
    push_cast
    ring
  refine ⟨fun c => ?_, fun c => ?_, fun c => ?_, fun c => ?_⟩
  · obtain ⟨a, g, ha, value⟩ := short c
    rw [value]
    exact (h a g ha).1
  · obtain ⟨a, g, ha, value⟩ := short c
    rw [value]
    exact (h a g ha).2
  · obtain ⟨a, g, ha, value⟩ := middle c
    rw [value, mul_lt_mul_iff_right₀ two_pos, mul_lt_mul_iff_right₀ two_pos]
    exact (h a g ha).1
  · obtain ⟨a, g, ha, value⟩ := middle c
    rw [value, mul_lt_mul_iff_right₀ two_pos, mul_lt_mul_iff_right₀ two_pos]
    exact (h a g ha).2

theorem roundedTo_of_alike {et : ET} {md : Mode} {neg : Bool} {m : ℕ} {e : ℤ} {v : ℝ} (h : AlikeReal v (m * 2 ^ e)) :
    roundedTo et md neg v (roundElem et md (.fin neg m e, false)) := roundedTo_of_like (h.like (fmtOf_mbits_lt et))

/-- A short number is a multiple of a unit, or below 2^64 of it. -/
theorem short_cases {a : ℕ} (ha : a < 2 ^ 64) (g e : ℤ) : (∃ j : ℕ, (a : ℝ) * 2 ^ g = j * 2 ^ e) ∨ (a : ℝ) * 2 ^ g < 2 ^ 64 * 2 ^ e := by
  rcases le_or_gt e g with h | h
  · refine .inl ⟨onGrid a g e, ?_⟩
    have grid := onGrid_mul (m := a) h
    have cast := congrArg (Rat.cast (K := ℝ)) grid.symm
    push_cast at cast
    exact cast
  · refine .inr ?_
    calc (a : ℝ) * 2 ^ g < 2 ^ 64 * 2 ^ g := by gcongr; exact_mod_cast ha
      _ ≤ 2 ^ 64 * 2 ^ e := by gcongr; norm_num

/-- Two magnitudes inside one unit of a count of more than 64 bits are alike. -/
theorem alikeReal_inside {q : ℕ} (hq : 2 ^ 64 ≤ q) {v w : ℝ} (hv : (q : ℝ) < v) (hv' : v < q + 1) (hw : (q : ℝ) < w) (hw' : w < q + 1) (e : ℤ) :
    AlikeReal (v * 2 ^ e) (w * 2 ^ e) := fun a g ha => by
  have unit : (0 : ℝ) < 2 ^ e := by positivity
  have big : (2 : ℝ) ^ 64 ≤ q := by exact_mod_cast hq
  rcases short_cases ha g e with ⟨j, hj⟩ | below
  · rw [hj]
    simp only [mul_lt_mul_iff_left₀ unit]
    rcases le_or_gt j q with small | large
    · have : (j : ℝ) ≤ q := by exact_mod_cast small
      constructor <;> constructor <;> intro h <;> linarith
    · have : (q : ℝ) + 1 ≤ j := by exact_mod_cast large
      constructor <;> constructor <;> intro h <;> linarith
  · have inside {x : ℝ} (hx : (q : ℝ) < x) : (a : ℝ) * 2 ^ g < x * 2 ^ e := below.trans (by gcongr; linarith)
    exact ⟨iff_of_true (inside hv) (inside hw), iff_of_false (inside hv).not_gt (inside hw).not_gt⟩

/-- A count with a last bit for what lies below is like the magnitude itself. -/
theorem alikeReal_sticky {q : ℕ} (hq : 2 ^ 64 ≤ q) {v : ℝ} (low : (q : ℝ) ≤ v) (high : v < q + 1) {inexact : Bool} (hi : inexact = true ↔ v ≠ q) (e : ℤ) :
    AlikeReal (v * 2 ^ e) ((2 * q + if inexact then 1 else 0 : ℕ) * 2 ^ (e - 1)) := by
  cases inexact with
  | false =>
    obtain rfl : v = q := by simpa using hi
    have same : ((2 * q + if false then 1 else 0 : ℕ) : ℝ) * 2 ^ (e - 1) = q * 2 ^ e := by
      rw [zpow_sub_one₀ two_ne_zero, if_neg Bool.false_ne_true]
      push_cast
      ring
    rw [same]
    exact fun _ _ _ => ⟨.rfl, .rfl⟩
  | true =>
    have half : ((2 * q + if true then 1 else 0 : ℕ) : ℝ) * 2 ^ (e - 1) = (q + 1 / 2) * 2 ^ e := by
      rw [zpow_sub_one₀ two_ne_zero, if_pos rfl]
      push_cast
      ring
    rw [half]
    exact alikeReal_inside hq (lt_of_le_of_ne low (hi.1 rfl).symm) high (by linarith) (by linarith) e

/-! ## Quotients and reciprocals (R142) -/

theorem roundedTo_quotient {ma mb : ℕ} (ha : ma ≠ 0) (hb : mb ≠ 0) (et : ET) (md : Mode) (na nb : Bool) (ea eb : ℤ) :
    roundedTo et md (na != nb) (ma * 2 ^ ea / (mb * 2 ^ eb)) (roundElem et md (quotient na ma ea nb mb eb, false)) := by
  obtain ⟨m, e, quot, alike⟩ := quotient_alike ha hb na nb ea eb
  rw [quot]
  refine roundedTo_of_alike ?_
  have := alike.real
  push_cast at this
  exact this

/-! ## Square roots (R142) -/

theorem isqrtStep_eq (n : ℕ) : ∀ k r, r * r ≤ n → n < (r + 2 ^ k) * (r + 2 ^ k) → isqrtStep n k r = Nat.sqrt n
  | 0, r, low, high => Nat.eq_sqrt.2 ⟨low, high⟩
  | k + 1, r, low, high => by
    have double : r + 2 ^ (k + 1) = r + 2 ^ k + 2 ^ k := by ring
    rw [double] at high
    simp only [isqrtStep]
    split
    · next taken => exact isqrtStep_eq n k _ taken high
    · next left => exact isqrtStep_eq n k r low (not_le.1 left)

/-- The root by bits is the integer square root. -/
theorem isqrt_eq (n : ℕ) : isqrt n = Nat.sqrt n := by
  refine isqrtStep_eq n _ 0 (Nat.zero_le n) ?_
  rw [Nat.zero_add, ← pow_add]
  calc n < 2 ^ (Nat.log2 n + 1) := Nat.lt_log2_self
    _ ≤ 2 ^ (Nat.log2 n / 2 + 1 + (Nat.log2 n / 2 + 1)) := Nat.pow_le_pow_right two_pos (by omega)

/-- Half of an even exponent. -/
theorem even_scale (m : ℕ) (e : ℤ) : ∃ h : ℤ, (if e % 2 == 0 then e else e - 1) = h + h ∧
    ((if e % 2 == 0 then m else 2 * m : ℕ) : ℝ) * 2 ^ (h + h) = m * 2 ^ e := by
  rcases Int.emod_two_eq_zero_or_one e with even | odd
  · refine ⟨e / 2, by simp only [even, beq_self_eq_true, if_true]; omega, ?_⟩
    simp only [even, beq_self_eq_true, if_true, show e / 2 + e / 2 = e by omega]
  · have odd' : (e % 2 == 0) = false := by simp [odd]
    refine ⟨e / 2, by simp only [odd', Bool.false_eq_true, if_false]; omega, ?_⟩
    simp only [odd', Bool.false_eq_true, if_false, show e / 2 + e / 2 = e - 1 by omega]
    rw [zpow_sub_one₀ two_ne_zero]
    push_cast
    ring

/-- The root of a magnitude scaled by a square. -/
theorem sqrt_scaled (x : ℝ) (h : ℤ) : √(x * 2 ^ (h + h)) = √x * 2 ^ h := by
  have unit : (0 : ℝ) ≤ 2 ^ h := by positivity
  rw [zpow_add₀ two_ne_zero, Real.sqrt_mul' _ (mul_nonneg unit unit), Real.sqrt_mul_self unit]

theorem roundedTo_squareRoot {m : ℕ} (hm : m ≠ 0) (et : ET) (md : Mode) (e : ℤ) :
    roundedTo et md false √(m * 2 ^ e) (roundElem et md (squareRoot m e, false)) := by
  obtain ⟨h, even, scaled⟩ := even_scale m e
  simp only [squareRoot, even, show (h + h) / 2 = h by omega, isqrt_eq, withSticky]
  rw [← scaled, sqrt_scaled]
  have hm' : (if e % 2 == 0 then m else 2 * m) ≠ 0 := by split <;> omega
  generalize (if e % 2 == 0 then m else 2 * m) = m' at hm' ⊢
  have root : √(m' : ℝ) * 2 ^ h = √((m' * 2 ^ (2 * guardBits) : ℕ) : ℝ) * 2 ^ (h - guardBits) := by
    have scale := sqrt_scaled m' (guardBits : ℤ)
    rw [← Nat.cast_add, zpow_natCast, zpow_natCast, ← two_mul] at scale
    rw [Nat.cast_mul, Nat.cast_pow, Nat.cast_ofNat, scale, zpow_sub₀ two_ne_zero, zpow_natCast]
    field_simp
  rw [root]
  refine roundedTo_of_alike (alikeReal_sticky ?_ Real.nat_sqrt_le_real_sqrt Real.real_sqrt_lt_nat_sqrt_succ ?_ _)
  · rw [Nat.le_sqrt]
    calc 2 ^ 64 * 2 ^ 64 ≤ 1 * 2 ^ (2 * guardBits) := by decide
      _ ≤ m' * 2 ^ (2 * guardBits) := Nat.mul_le_mul_right _ (Nat.pos_of_ne_zero hm')
  · rw [bne_iff_ne, not_iff_not, Real.sqrt_eq_iff_mul_self_eq (by positivity) (by positivity), ← Nat.cast_mul, Nat.cast_inj, eq_comm]

/-- The reciprocal of a root, as a root. -/
theorem inv_sqrt_scaled (x : ℝ) (hx : 0 < x) (h : ℤ) (k : ℕ) : 1 / √(x * 2 ^ (h + h)) = √(2 ^ (2 * k) / x) * 2 ^ (-h - k) := by
  have scale := sqrt_scaled x⁻¹ (k : ℤ)
  rw [← Nat.cast_add, zpow_natCast, zpow_natCast, ← two_mul, Real.sqrt_inv] at scale
  rw [div_eq_inv_mul (2 ^ (2 * k)), scale, sqrt_scaled, zpow_sub₀ two_ne_zero, zpow_neg, zpow_natCast]
  field_simp

theorem roundedTo_reciprocalRoot {m : ℕ} (hm : m ≠ 0) (et : ET) (md : Mode) (e : ℤ) :
    roundedTo et md false (1 / √(m * 2 ^ e)) (roundElem et md (reciprocalRoot m e, false)) := by
  obtain ⟨h, even, scaled⟩ := even_scale m e
  simp only [reciprocalRoot, even, show (h + h) / 2 = h by omega, isqrt_eq, withSticky]
  rw [← scaled]
  have hm' : (if e % 2 == 0 then m else 2 * m) ≠ 0 := by split <;> omega
  generalize (if e % 2 == 0 then m else 2 * m) = m' at hm' ⊢
  have pos : (0 : ℝ) < m' := by exact_mod_cast Nat.pos_of_ne_zero hm'
  rw [inv_sqrt_scaled _ pos h (guardBits + Nat.log2 m' + 1)]
  have size : m' < 2 ^ (Nat.log2 m' + 1) := Nat.lt_log2_self
  obtain ⟨k, many⟩ : ∃ k, k = guardBits + Nat.log2 m' + 1 := ⟨_, rfl⟩
  rw [← many]
  have low : ((Nat.sqrt (2 ^ (2 * k) / m') : ℕ) : ℝ) ≤ √(2 ^ (2 * k) / m') := by
    refine Real.nat_sqrt_le_real_sqrt.trans (Real.sqrt_le_sqrt ?_)
    exact_mod_cast Nat.cast_div_le (α := ℝ) (m := 2 ^ (2 * k)) (n := m')
  refine roundedTo_of_alike (alikeReal_sticky ?_ low ?_ ?_ _)
  · rw [Nat.le_sqrt, Nat.le_div_iff_mul_le (Nat.pos_of_ne_zero hm')]
    calc 2 ^ 64 * 2 ^ 64 * m' ≤ 2 ^ (2 * guardBits) * 2 ^ (Nat.log2 m' + 1) := Nat.mul_le_mul (by decide) size.le
      _ = 2 ^ (2 * guardBits + (Nat.log2 m' + 1)) := (pow_add ..).symm
      _ ≤ 2 ^ (2 * k) := Nat.pow_le_pow_right two_pos (by omega)
  · rw [Real.sqrt_lt' (by positivity), div_lt_iff₀ pos, sq]
    have next : 2 ^ (2 * k) / m' < (Nat.sqrt (2 ^ (2 * k) / m') + 1) * (Nat.sqrt (2 ^ (2 * k) / m') + 1) := Nat.lt_succ_sqrt _
    exact_mod_cast (Nat.div_lt_iff_lt_mul (Nat.pos_of_ne_zero hm')).1 next
  · rw [bne_iff_ne, not_iff_not, Real.sqrt_eq_iff_mul_self_eq (by positivity) (by positivity), div_eq_iff pos.ne', eq_comm]
    norm_cast

end Sys2Proof.Machine
end

section
/-! PROOF. Powers of two (06_numbers_and_float.md R142; log 6): 2^a to 320 bits, exact where a is an integer. -/
namespace Sys2Proof.Machine
open Sys2Proof

/-! ## Inexact results -/

/-- A magnitude that no code of the format has sets NX. -/
theorem nx_of_roundedTo {et : ET} {md : Mode} {neg : Bool} {v : ℝ} {x : Elem} (h : roundedTo et md neg v x)
    (hv : ∀ c, ((fmtOf et).codeValue c : ℝ) ≠ v) : x.flags.nx = true := by
  obtain ⟨r, -, fits, overflows⟩ := h
  rcases le_or_gt r (fmtOf et).maxCode with hr | hr
  · obtain ⟨-, nx, -⟩ := fits hr
    exact nx.2 (hv r)
  · rw [(overflows hr).1]

/-- An odd count of more than 64 bits is no code's magnitude. -/
theorem codeValue_ne_odd (et : ET) {m : ℕ} (odd : m % 2 = 1) (hm : 2 ^ 64 ≤ m) (e : ℤ) (c : ℕ) : ((fmtOf et).codeValue c : ℝ) ≠ m * 2 ^ e := by
  obtain ⟨a, g, ha, own, -⟩ := (fmtOf et).codeValue_short (fmtOf_mbits_lt et) c
  intro h
  have carried : (m : ℝ) * 2 ^ e = ((m * 2 ^ e : ℚ) : ℝ) := by push_cast; rfl
  have same : (a : ℚ) * 2 ^ g = m * 2 ^ e := by
    rwa [own, carried, Rat.cast_inj] at h
  rw [← onGrid_eq_iff (min_le_left g e) (min_le_right g e), onGrid, onGrid] at same
  rcases le_or_gt g e with le | gt
  · rw [min_eq_left le, sub_self, Int.toNat_zero, pow_zero, mul_one] at same
    have : m ≤ m * 2 ^ (e - g).toNat := Nat.le_mul_of_pos_right m (by positivity)
    omega
  · obtain ⟨j, hj⟩ : ∃ j, (g - e).toNat = j + 1 := ⟨(g - e).toNat - 1, by omega⟩
    rw [min_eq_right gt.le, sub_self, Int.toNat_zero, pow_zero, mul_one, hj, pow_succ, ← mul_assoc] at same
    omega

/-! ## Beyond the largest code, and below the smallest -/

/-- Every magnitude stands at a code or between two. -/
theorem FloatFmt.exists_below (f : FloatFmt) {v : ℝ} (hv : 0 ≤ v) : ∃ c, (f.codeValue c : ℝ) ≤ v ∧ v < f.codeValue (c + 1) := by
  have far : ∃ c, v < f.codeValue c := by
    obtain ⟨n, hn⟩ := pow_unbounded_of_one_lt v (one_lt_two (α := ℝ))
    have value := f.codeValue_of (k := n + (-f.emin).toNat) (r := 2 ^ f.mbits) (Nat.pow_le_pow_right two_pos (Nat.le_succ _)) (.inr le_rfl)
    refine ⟨(n + (-f.emin).toNat) * 2 ^ f.mbits + 2 ^ f.mbits, hn.trans_le ?_⟩
    rw [value, Nat.cast_pow, Nat.cast_ofNat, ← zpow_natCast (2 : ℚ), ← zpow_add₀ two_ne_zero, ← zpow_natCast (2 : ℝ), Rat.cast_zpow, Rat.cast_ofNat]
    refine zpow_le_zpow_right₀ one_le_two ?_
    rw [ulpMin]
    omega
  have pos : Nat.find far ≠ 0 := fun h0 => by
    have found := Nat.find_spec far
    rw [h0, f.codeValue_zero, Rat.cast_zero] at found
    exact absurd found (not_lt.2 hv)
  obtain ⟨c, hc⟩ := Nat.exists_eq_succ_of_ne_zero pos
  have found := Nat.find_spec far
  rw [hc] at found
  exact ⟨c, not_lt.1 (Nat.find_min far (by omega)), found⟩

/-- A magnitude rounds to some code, and to none below those that it reaches. -/
theorem FloatFmt.roundsReal_exists (f : FloatFmt) (md : Mode) (neg : Bool) {v : ℝ} (hv : 0 ≤ v) :
    ∃ r, f.roundsReal md neg v r ∧ ∀ b, (f.codeValue b : ℝ) ≤ v → b ≤ r := by
  obtain ⟨c, low, high⟩ := f.exists_below hv
  obtain ⟨r, hr, le⟩ : ∃ r, f.roundsReal md neg v r ∧ c ≤ r := by
    by_cases exact : v = f.codeValue c
    · exact ⟨c, ⟨c, low, high, .inl ⟨exact, rfl⟩⟩, le_rfl⟩
    · cases md with
      | rz => exact ⟨c, ⟨c, low, high, .inr ⟨exact, rfl⟩⟩, le_rfl⟩
      | ru => exact ⟨_, ⟨c, low, high, .inr ⟨exact, rfl⟩⟩, by split <;> omega⟩
      | rd => exact ⟨_, ⟨c, low, high, .inr ⟨exact, rfl⟩⟩, by split <;> omega⟩
      | rne =>
        rcases lt_trichotomy (2 * v) (f.codeValue c + f.codeValue (c + 1)) with below | tie | above
        · exact ⟨c, ⟨c, low, high, .inr ⟨exact, fun _ => rfl, fun h => absurd h below.not_gt, fun h => absurd h below.ne⟩⟩, le_rfl⟩
        · exact ⟨_, ⟨c, low, high, .inr ⟨exact, fun h => absurd tie h.ne, fun h => absurd tie h.ne', fun _ => rfl⟩⟩, Nat.le_add_right c _⟩
        · exact ⟨_, ⟨c, low, high, .inr ⟨exact, fun h => absurd h above.not_gt, fun _ => rfl, fun h => absurd h above.ne'⟩⟩, Nat.le_succ c⟩
  refine ⟨r, hr, fun b hb => le.trans' (Nat.lt_succ_iff.1 (f.codeValue_strictMono.lt_iff_lt.1 ?_))⟩
  exact_mod_cast hb.trans_lt high

theorem roundElem_overflow {et : ET} {md : Mode} {neg : Bool} {m : ℕ} {e : ℤ} (h : (fmtOf et).codeValue ((fmtOf et).maxCode + 1) ≤ m * 2 ^ e) :
    roundElem et md (.fin neg m e, false) = { bits := (fmtOf et).overflow md neg, flags := { ovf := true, nx := true } } := by
  obtain ⟨r, hr, -, overflows⟩ := rnd_spec et md neg m e
  rw [roundElem, overflows (FloatFmt.le_rounds hr h)]

/-- Every magnitude beyond the largest code overflows alike. -/
theorem roundedTo_overflow {et : ET} {md : Mode} {neg : Bool} {v : ℝ} (h : ((fmtOf et).codeValue ((fmtOf et).maxCode + 1) : ℝ) ≤ v) :
    roundedTo et md neg v { bits := (fmtOf et).overflow md neg, flags := { ovf := true, nx := true } } := by
  have pos : (0 : ℝ) ≤ (fmtOf et).codeValue ((fmtOf et).maxCode + 1) := by exact_mod_cast (fmtOf et).codeValue_nonneg _
  obtain ⟨r, hr, above⟩ := (fmtOf et).roundsReal_exists md neg (pos.trans h)
  exact ⟨r, hr, fun hle => absurd (above _ h) (by omega), fun _ => ⟨rfl, overflow_eq et md neg⟩⟩

theorem codeValue_beyond_le (et : ET) : (fmtOf et).codeValue ((fmtOf et).maxCode + 1) ≤ 2 ^ (128 : ℤ) := by
  cases et <;> norm_num [FloatFmt.codeValue, FloatFmt.magnitude, FloatFmt.maxCode, fmtOf, FloatFmt.ulpMin, FloatFmt.emin]

theorem FloatFmt.codeValue_first (f : FloatFmt) : f.codeValue 1 = 2 ^ f.ulpMin := by
  have value := f.codeValue_of (k := 0) (r := 1) Nat.one_le_two_pow (.inl rfl)
  simpa using value

theorem FloatFmt.codeValue_first_le (f : FloatFmt) (c : ℕ) : (f.codeValue 1 : ℝ) ≤ f.codeValue (c + 1) := by
  exact_mod_cast f.codeValue_strictMono.monotone (Nat.succ_le_succ (Nat.zero_le c))

/-- Below half the smallest code all magnitudes are alike. -/
theorem FloatFmt.like_tiny {f : FloatFmt} {v w : ℝ} (hv : 0 < v) (hv' : 2 * v < f.codeValue 1) (hw : 0 < w) (hw' : 2 * w < f.codeValue 1) : f.Like v w := by
  have first := f.codeValue_first_le
  have nonneg (c : ℕ) : (0 : ℝ) ≤ f.codeValue c := by exact_mod_cast f.codeValue_nonneg c
  refine ⟨fun c => ?_, fun c => ?_, fun c => ?_, fun c => ?_⟩
  · cases c with
    | zero => simp [hv, hw]
    | succ c => exact iff_of_false (by linarith [first c]) (by linarith [first c])
  · cases c with
    | zero => simp [hv.not_gt, hw.not_gt]
    | succ c => exact iff_of_true (by linarith [first c]) (by linarith [first c])
  · exact iff_of_false (by linarith [first c, nonneg c]) (by linarith [first c, nonneg c])
  · exact iff_of_true (by linarith [first c, nonneg c]) (by linarith [first c, nonneg c])

theorem codeValue_ne_tiny {f : FloatFmt} {v : ℝ} (hv : 0 < v) (hv' : 2 * v < f.codeValue 1) (c : ℕ) : (f.codeValue c : ℝ) ≠ v := by
  cases c with
  | zero => simpa using hv.ne
  | succ c => exact (by linarith [f.codeValue_first_le c] : v < f.codeValue (c + 1)).ne'

theorem codeValue_first_ge (et : ET) : (2 : ℝ) ^ (-149 : ℤ) ≤ (fmtOf et).codeValue 1 := by
  rw [FloatFmt.codeValue_first, Rat.cast_zpow, Rat.cast_ofNat]
  exact zpow_le_zpow_right₀ one_le_two (by cases et <;> decide)

/-! ## The fraction's power, root by root -/

/-- A power of two of many bits, by its exponent. -/
theorem pow_longBits : (2 : ℝ) ^ longBits = (2 : ℝ) ^ (320 : ℤ) := by
  rw [← zpow_natCast]
  rfl

/-- A count of units 2^−320 that stands just below 2^t. -/
def PowerNear (t : ℝ) (r : ℕ) : Prop := 2 ^ longBits * (2 : ℝ) ^ t * (1 - 2 ^ (-310 : ℤ)) ≤ r ∧ (r : ℝ) ≤ 2 ^ longBits * (2 : ℝ) ^ t

theorem powerNear_start : PowerNear 0 (2 ^ longBits) := by
  have unit : (0 : ℝ) < 2 ^ longBits := by positivity
  rw [PowerNear, Real.rpow_zero, Nat.cast_pow, Nat.cast_ofNat, mul_one]
  exact ⟨mul_le_of_le_one_right unit.le (sub_le_self 1 (by positivity)), le_rfl⟩

/-- One square root, of a power with one bit more: what rounding down loses is less than what the root gains. -/
theorem powerNear_sqrt {t : ℝ} (ht : 0 ≤ t) {r : ℕ} (h : PowerNear t r) (b : ℕ) :
    PowerNear ((t + b) / 2) (Nat.sqrt (r * 2 ^ longBits * 2 ^ b)) := by
  obtain ⟨low, high⟩ := h
  have square : (2 ^ longBits * (2 : ℝ) ^ ((t + b) / 2)) * (2 ^ longBits * (2 : ℝ) ^ ((t + b) / 2)) =
      2 ^ longBits * (2 : ℝ) ^ t * (2 ^ longBits * 2 ^ b) := by
    rw [mul_mul_mul_comm, ← Real.rpow_add two_pos, add_halves, Real.rpow_add two_pos, Real.rpow_natCast]
    ring
  have unit : (2 : ℝ) ^ longBits ≤ 2 ^ longBits * (2 : ℝ) ^ ((t + b) / 2) :=
    le_mul_of_one_le_right (by positivity) (Real.one_le_rpow one_le_two (by positivity))
  have scale : (0 : ℝ) < 2 ^ longBits * 2 ^ b := by positivity
  have slack : (1 : ℝ) ≤ 2 ^ longBits * (2 ^ (-310 : ℤ) / 4) := by
    rw [pow_longBits, ← mul_div_assoc, ← zpow_add₀ two_ne_zero]
    norm_num
  have product : ((r * 2 ^ longBits * 2 ^ b : ℕ) : ℝ) = r * (2 ^ longBits * 2 ^ b) := by push_cast; ring
  rw [PowerNear]
  generalize 2 ^ longBits * (2 : ℝ) ^ ((t + b) / 2) = T at square unit ⊢
  have pos : 0 < T := lt_of_lt_of_le (by positivity) unit
  obtain ⟨δ, hδ⟩ : ∃ δ : ℝ, δ = 2 ^ (-310 : ℤ) := ⟨_, rfl⟩
  have small : 0 < δ ∧ δ ≤ 1 / 2 := by
    rw [hδ, ← (show (2 : ℝ) ^ (-1 : ℤ) = 1 / 2 by norm_num)]
    exact ⟨by positivity, zpow_le_zpow_right₀ one_le_two (by norm_num)⟩
  rw [← hδ] at low slack ⊢
  constructor
  · have root : T * (1 - 3 / 4 * δ) ≤ √((r * 2 ^ longBits * 2 ^ b : ℕ) : ℝ) := by
      refine Real.le_sqrt_of_sq_le ?_
      rw [product]
      calc (T * (1 - 3 / 4 * δ)) ^ 2 = T * T * (1 - 3 / 4 * δ) ^ 2 := by ring
        _ ≤ T * T * (1 - δ) := mul_le_mul_of_nonneg_left (by nlinarith [small.1, small.2]) (by positivity)
        _ = 2 ^ longBits * (2 : ℝ) ^ t * (1 - δ) * (2 ^ longBits * 2 ^ b) := by rw [square]; ring
        _ ≤ r * (2 ^ longBits * 2 ^ b) := mul_le_mul_of_nonneg_right low scale.le
    have next := Real.real_sqrt_lt_nat_sqrt_succ (a := r * 2 ^ longBits * 2 ^ b)
    have gain : 2 ^ longBits * (δ / 4) ≤ T * (δ / 4) := mul_le_mul_of_nonneg_right unit (by linarith [small.1])
    linarith
  · refine Real.nat_sqrt_le_real_sqrt.trans (Real.sqrt_le_iff.2 ⟨pos.le, ?_⟩)
    rw [product, sq, square]
    exact mul_le_mul_of_nonneg_right high scale.le

theorem exp2Frac_zero (n r : ℕ) : exp2Frac n 0 r = r := rfl

/-- One step of `exp2Frac`; the unit stands apart, as a numeral of 320 bits is too large to compare. -/
theorem exp2Frac_succ (n k r : ℕ) {c : ℕ} (hc : c = 2 ^ longBits) :
    exp2Frac n (k + 1) r = exp2Frac (n / 2) k (isqrt (r * c * (if n % 2 == 1 then 2 else 1))) := by
  subst hc
  conv_lhs => delta exp2Frac
  conv_rhs => delta exp2Frac

/-- The roots of a fraction's bits, from the lowest, give its power. -/
theorem powerNear_exp2Frac : ∀ (k n r : ℕ) (t : ℝ), 0 ≤ t → PowerNear t r → PowerNear ((t + (n % 2 ^ k : ℕ)) / 2 ^ k) (exp2Frac n k r)
  | 0, n, r, t, _, h => by simpa [exp2Frac_zero, Nat.mod_one] using h
  | k + 1, n, r, t, ht, h => by
    have bit : (if (n % 2 == 1) = true then 2 else 1) = 2 ^ (n % 2) := by
      rcases Nat.mod_two_eq_zero_or_one n with h | h <;> simp [h]
    have split : n % 2 ^ (k + 1) = n % 2 + 2 * (n / 2 % 2 ^ k) := by rw [pow_succ', Nat.mod_mul]
    have rest : (t + (n % 2 ^ (k + 1) : ℕ)) / 2 ^ (k + 1) = ((t + (n % 2 : ℕ)) / 2 + (n / 2 % 2 ^ k : ℕ)) / 2 ^ k := by
      rw [split, pow_succ]
      push_cast
      field_simp
      ring
    rw [rest, exp2Frac_succ n k r rfl, isqrt_eq, bit]
    exact powerNear_exp2Frac k (n / 2) _ _ (by positivity) (powerNear_sqrt ht h (n % 2))

section
variable {t : ℝ} {q : ℕ} (ht : 0 ≤ t) (h : PowerNear t q)
include ht h

/-- A power not below 1 has more than 64 bits. -/
theorem powerNear_large : 2 ^ 64 ≤ q := by
  have fine : (2 : ℝ) ^ (-310 : ℤ) ≤ 1 := zpow_le_one_of_nonpos₀ one_le_two (by norm_num)
  have one_le : (1 : ℝ) ≤ (2 : ℝ) ^ t := Real.one_le_rpow one_le_two ht
  have : (2 : ℝ) ^ 64 ≤ q :=
    calc (2 : ℝ) ^ 64 ≤ 2 ^ longBits * 1 * (1 - 2 ^ (-310 : ℤ)) := by
          rw [mul_one, mul_sub, mul_one, pow_longBits, ← zpow_add₀ two_ne_zero]
          have : (2 : ℝ) ^ (65 : ℤ) ≤ 2 ^ (320 : ℤ) := zpow_le_zpow_right₀ one_le_two (by norm_num)
          refine le_trans ?_ (sub_le_sub_right this _)
          norm_num
      _ ≤ 2 ^ longBits * (2 : ℝ) ^ t * (1 - 2 ^ (-310 : ℤ)) :=
          mul_le_mul_of_nonneg_right (mul_le_mul_of_nonneg_left one_le (by positivity)) (sub_nonneg.2 fine)
      _ ≤ q := h.1
  exact_mod_cast this

/-- The middle of the count's unit stands within 2^−300 of the power. -/
theorem powerNear_middle : |(q + 1 / 2) / 2 ^ longBits - (2 : ℝ) ^ t| ≤ (2 : ℝ) ^ t * 2 ^ (-300 : ℤ) := by
  obtain ⟨low, high⟩ := h
  have one_le : (1 : ℝ) ≤ (2 : ℝ) ^ t := Real.one_le_rpow one_le_two ht
  generalize (2 : ℝ) ^ t = P at low high one_le ⊢
  have scale : (0 : ℝ) < 2 ^ longBits := by positivity
  have half : (1 / 2 : ℝ) ≤ 2 ^ longBits * (2 ^ (-300 : ℤ)) := by
    rw [pow_longBits, ← zpow_add₀ two_ne_zero]
    norm_num
  have coarse : (2 : ℝ) ^ (-310 : ℤ) ≤ 2 ^ (-300 : ℤ) := zpow_le_zpow_right₀ one_le_two (by norm_num)
  have low' : 2 ^ longBits * P * (1 - 2 ^ (-300 : ℤ)) ≤ q := le_trans (by gcongr) low
  have more : 2 ^ longBits * (2 ^ (-300 : ℤ)) * 1 ≤ 2 ^ longBits * (2 ^ (-300 : ℤ)) * P := by gcongr
  refine abs_le.2 ⟨?_, ?_⟩
  · rw [le_sub_iff_add_le, le_div_iff₀ scale]
    linarith
  · rw [sub_le_iff_le_add, div_le_iff₀ scale]
    linarith

end

/-! ## 2^a -/

/-- A real stands for the power of two of a number: within 2^−300 of it, and it itself where that is exact; and an element rounds it correctly. -/
def powerRounded (et : ET) (md : Mode) (p : ℝ) (x : Elem) : Prop :=
  ∃ v : ℝ, |v - (2 : ℝ) ^ p| ≤ (2 : ℝ) ^ p * (2 : ℝ) ^ (-300 : ℤ) ∧ roundedTo et md false v x ∧
    ((∃ n : ℤ, p = n) → v = (2 : ℝ) ^ p) ∧ ((∀ n : ℤ, p ≠ n) → x.flags.nx = true)

section
variable {et : ET} {md : Mode}

/-- The power itself, correctly rounded. -/
theorem powerRounded_exact {p : ℝ} {x : Elem} (h : roundedTo et md false ((2 : ℝ) ^ p) x) (nx : (∀ n : ℤ, p ≠ n) → x.flags.nx = true) :
    powerRounded et md p x :=
  ⟨_, by rw [sub_self, abs_zero]; positivity, h, fun _ => rfl, nx⟩

theorem powerRounded_int (n : ℤ) : powerRounded et md n (roundElem et md (.fin false 1 n, false)) := by
  refine powerRounded_exact ?_ fun h => absurd rfl (h n)
  have number := roundedTo_number et md false 1 n
  rwa [Nat.cast_one, one_mul, ← Real.rpow_intCast] at number

/-- Powers beyond 2^16384 overflow. -/
theorem powerRounded_large {p : ℝ} (hp : 16384 < p) : powerRounded et md p (roundElem et md (.fin false 1 16384, false)) := by
  have beyond := codeValue_beyond_le et
  rw [roundElem_overflow]
  · refine powerRounded_exact (roundedTo_overflow ?_) fun _ => rfl
    calc ((fmtOf et).codeValue ((fmtOf et).maxCode + 1) : ℝ) ≤ ((2 ^ (128 : ℤ) : ℚ) : ℝ) := by exact_mod_cast beyond
      _ = (2 : ℝ) ^ (128 : ℝ) := by rw [Rat.cast_zpow, Rat.cast_ofNat, ← Real.rpow_intCast]; norm_cast
      _ ≤ (2 : ℝ) ^ p := Real.rpow_le_rpow_of_exponent_le one_le_two (by linarith)
  · rw [Nat.cast_one, one_mul]
    exact beyond.trans (zpow_le_zpow_right₀ one_le_two (by norm_num))

/-- Powers below 2^−16384 stand below half the smallest code. -/
theorem powerRounded_small {p : ℝ} (hp : p < -16384) : powerRounded et md p (roundElem et md (.fin false 1 (-16384), false)) := by
  have first := codeValue_first_ge et
  have tiny {q : ℝ} (hq : q ≤ -16384) : 2 * (2 : ℝ) ^ q < (fmtOf et).codeValue 1 := by
    refine lt_of_lt_of_le ?_ first
    calc 2 * (2 : ℝ) ^ q = (2 : ℝ) ^ (q + 1) := by rw [Real.rpow_add_one two_ne_zero, mul_comm]
      _ < (2 : ℝ) ^ (((-149 : ℤ)) : ℝ) := Real.rpow_lt_rpow_of_exponent_lt one_lt_two (by push_cast; linarith)
      _ = (2 : ℝ) ^ (-149 : ℤ) := Real.rpow_intCast ..
  have carried : ((1 : ℕ) : ℝ) * (2 : ℝ) ^ (-16384 : ℤ) = (2 : ℝ) ^ (-16384 : ℝ) := by
    rw [Nat.cast_one, one_mul, ← Real.rpow_intCast]
    norm_cast
  have pos (q : ℝ) : (0 : ℝ) < (2 : ℝ) ^ q := Real.rpow_pos_of_pos two_pos q
  have rounded : roundedTo et md false ((2 : ℝ) ^ p) (roundElem et md (.fin false 1 (-16384), false)) := by
    refine roundedTo_of_like ?_
    rw [carried]
    exact FloatFmt.like_tiny (pos p) (tiny hp.le) (pos _) (tiny le_rfl)
  exact powerRounded_exact rounded fun _ => nx_of_roundedTo rounded fun c => codeValue_ne_tiny (pos p) (tiny hp.le) c

/-- A power whose exponent has a fraction, as its bits are computed. -/
theorem powerRounded_fraction (whole : ℤ) {part k : ℕ} (h0 : part ≠ 0) (hk : part < 2 ^ k) :
    powerRounded et md (whole + part / 2 ^ k) (roundElem et md (withSticky false (exp2Frac part k (2 ^ longBits)) true (whole - longBits), false)) := by
  have near := powerNear_exp2Frac k part _ 0 le_rfl powerNear_start
  rw [Nat.mod_eq_of_lt hk, zero_add] at near
  generalize exp2Frac part k (2 ^ longBits) = q at near
  have unit : (0 : ℝ) < 2 ^ k := by positivity
  have part_pos : (0 : ℝ) < part / 2 ^ k := by
    have : (0 : ℝ) < part := by exact_mod_cast Nat.pos_of_ne_zero h0
    positivity
  have part_lt : (part : ℝ) / 2 ^ k < 1 := by
    rw [div_lt_one unit]
    exact_mod_cast hk
  have big := powerNear_large part_pos.le near
  have middle := powerNear_middle part_pos.le near
  have power : (2 : ℝ) ^ (whole + (part : ℝ) / 2 ^ k) = 2 ^ whole * (2 : ℝ) ^ ((part : ℝ) / 2 ^ k) := by
    rw [Real.rpow_add two_pos, Real.rpow_intCast]
  have value : ((2 * q + 1 : ℕ) : ℝ) * 2 ^ (whole - longBits - 1) = 2 ^ whole * ((q + 1 / 2) / 2 ^ longBits) := by
    rw [zpow_sub_one₀ two_ne_zero, zpow_sub₀ two_ne_zero, zpow_natCast]
    push_cast
    field_simp
  have rounded := roundedTo_number et md false (2 * q + 1) (whole - longBits - 1)
  refine ⟨_, ?_, rounded, fun ⟨n, hn⟩ => ?_, fun _ => nx_of_roundedTo rounded (codeValue_ne_odd et (by omega) (by omega) _)⟩
  · rw [value, power, ← mul_sub, abs_mul, abs_of_pos (by positivity), mul_assoc]
    exact mul_le_mul_of_nonneg_left middle (by positivity)
  · have below : whole < n := by exact_mod_cast (by linarith : (whole : ℝ) < n)
    have above : n < whole + 1 := by exact_mod_cast (by linarith : (n : ℝ) < whole + 1)
    omega

end

/-! What `exp2` computes, by the size of its operand and by the bits behind the point. -/

theorem exp2_far (neg : Bool) {m : ℕ} (hm : m ≠ 0) {e : ℤ} (far : magLt 16384 0 m e = true) :
    exp2 neg m e = .fin false 1 (if neg then -16384 else 16384) := by
  simp [exp2, hm, far]

theorem exp2_integer (neg : Bool) {m : ℕ} (hm : m ≠ 0) {n : ℕ} (near : magLt 16384 0 m n = false) :
    exp2 neg m n = .fin false 1 (if neg then -((m * 2 ^ n : ℕ) : ℤ) else (m * 2 ^ n : ℕ)) := by
  simp [exp2, hm, near]

theorem exp2_fraction (neg : Bool) {m : ℕ} (hm : m ≠ 0) {k : ℕ} (hk : k ≠ 0) (near : magLt 16384 0 m (-k) = false) {y : ℤ}
    (hy : y = if neg then -(m : ℤ) else m) : exp2 neg m (-k) = if (y % (2 ^ k : ℕ)).toNat = 0 then .fin false 1 (y / (2 ^ k : ℕ))
      else withSticky false (exp2Frac (y % (2 ^ k : ℕ)).toNat k (2 ^ longBits)) true (y / (2 ^ k : ℕ) - longBits) := by
  have negative : ¬0 ≤ -(k : ℤ) := by omega
  subst hy
  simp only [exp2, beq_iff_eq, hm, near, negative, if_false, neg_neg, Int.toNat_natCast, Bool.false_eq_true]

theorem powerRounded_exp2 (et : ET) (md : Mode) (neg : Bool) {m : ℕ} (hm : m ≠ 0) (e : ℤ) :
    powerRounded et md (if neg then -(m * (2 : ℝ) ^ e) else m * (2 : ℝ) ^ e) (roundElem et md (exp2 neg m e, false)) := by
  have size : magLt 16384 0 m e = true ↔ (16384 : ℝ) < m * 2 ^ e := by
    rw [magLt_iff, ← Rat.cast_lt (K := ℝ)]
    push_cast
    rw [mul_one]
  cases far : magLt 16384 0 m e with
  | true =>
    rw [exp2_far neg hm far]
    cases neg with
    | false => exact powerRounded_large (size.1 far)
    | true => exact powerRounded_small (neg_lt_neg (size.1 far))
  | false =>
    rcases le_or_gt 0 e with integer | fraction
    · obtain ⟨n, rfl⟩ := Int.eq_ofNat_of_zero_le integer
      rw [exp2_integer neg hm far]
      have value : (if neg then -(m * (2 : ℝ) ^ (n : ℤ)) else m * (2 : ℝ) ^ (n : ℤ)) = ((if neg then -((m * 2 ^ n : ℕ) : ℤ) else (m * 2 ^ n : ℕ) : ℤ) : ℝ) := by
        cases neg <;> simp
      rw [value]
      exact powerRounded_int _
    · obtain ⟨k, rfl⟩ : ∃ k : ℕ, e = -(k : ℤ) := ⟨(-e).toNat, by omega⟩
      obtain ⟨y, hy⟩ : ∃ y : ℤ, y = if neg then -(m : ℤ) else m := ⟨_, rfl⟩
      have value : (if neg then -(m * (2 : ℝ) ^ (-(k : ℤ))) else m * (2 : ℝ) ^ (-(k : ℤ))) = (y : ℝ) / 2 ^ k := by
        rw [hy, zpow_neg, zpow_natCast]
        cases neg <;> simp <;> ring
      have unit : (0 : ℤ) < (2 ^ k : ℕ) := by positivity
      obtain ⟨part, hpart⟩ := Int.eq_ofNat_of_zero_le (Int.emod_nonneg y unit.ne')
      have bound : part < 2 ^ k := by exact_mod_cast hpart ▸ Int.emod_lt_of_pos y unit
      have parts : (y : ℝ) / 2 ^ k = (y / (2 ^ k : ℕ) : ℤ) + (part : ℝ) / 2 ^ k := by
        have whole := congrArg (Int.cast (R := ℝ)) (Int.mul_ediv_add_emod y (2 ^ k : ℕ))
        rw [hpart] at whole
        push_cast at whole
        rw [div_eq_iff (by positivity), ← whole]
        push_cast
        field_simp
      rw [value, exp2_fraction neg hm (by omega) far hy, parts, hpart, Int.toNat_natCast]
      split
      · next exact => rw [exact, Nat.cast_zero, zero_div, add_zero]; exact powerRounded_int _
      · next inexact => exact powerRounded_fraction _ inexact bound

end Sys2Proof.Machine
end

section
/-! PROOF. Logarithms (06_numbers_and_float.md R142; log 6): log2 a to 160 bits behind the point, exact where a is a power of two. -/
namespace Sys2Proof.Machine
open Sys2Proof

/-! ## Logarithms of counts -/

/-- What one more adds to a logarithm. -/
theorem logb_succ_le {y : ℝ} (hy : 1 ≤ y) : Real.logb 2 (y + 1) ≤ Real.logb 2 y + 2 / y := by
  have pos : 0 < y := by linarith
  have two : (1 : ℝ) / 2 ≤ Real.log 2 := by linarith [Real.log_two_gt_d9]
  have gain : Real.logb 2 (1 + 1 / y) ≤ 2 / y := by
    rw [Real.logb, div_le_div_iff₀ (by linarith) pos]
    have bound : Real.log (1 + 1 / y) ≤ 1 / y := by linarith [Real.log_le_sub_one_of_pos (show 0 < 1 + 1 / y by positivity)]
    calc Real.log (1 + 1 / y) * y ≤ 1 / y * y := mul_le_mul_of_nonneg_right bound pos.le
      _ = 1 := by field_simp
      _ ≤ 2 * Real.log 2 := by linarith
  have factor : y + 1 = y * (1 + 1 / y) := by field_simp
  rw [factor, Real.logb_mul pos.ne' (by positivity)]
  linarith

theorem logb_pow_mul (n : ℕ) {y : ℝ} (hy : 0 < y) : Real.logb 2 (2 ^ n * y) = n + Real.logb 2 y := by
  rw [Real.logb_mul (by positivity) hy.ne', Real.logb_pow, Real.logb_self_eq_one one_lt_two, mul_one]

/-- The logarithm of a count of units 2^−320. -/
noncomputable def unitLog (y : ℝ) : ℝ := Real.logb 2 y - longBits

/-- The error of a count of 320 bits in its logarithm. -/
noncomputable def logError : ℝ := 2 / 2 ^ longBits

theorem unitLog_mono {x y : ℝ} (hx : 0 < x) (h : x ≤ y) : unitLog x ≤ unitLog y :=
  sub_le_sub_right (Real.logb_le_logb_of_le one_lt_two hx h) _

theorem unitLog_succ {y : ℕ} (hy : 2 ^ longBits ≤ y) : unitLog (y + 1) ≤ unitLog y + logError := by
  have big : (2 : ℝ) ^ longBits ≤ y := by exact_mod_cast hy
  have unit : (1 : ℝ) ≤ 2 ^ longBits := one_le_pow₀ one_le_two
  have gain := logb_succ_le (unit.trans big)
  have error : 2 / (y : ℝ) ≤ logError := div_le_div_of_nonneg_left two_pos.le (by positivity) big
  rw [unitLog, unitLog]
  linarith

theorem unitLog_bounds {y : ℕ} (low : 2 ^ longBits ≤ y) (high : y < 2 ^ (longBits + 1)) : 0 ≤ unitLog y ∧ unitLog y ≤ 1 := by
  have low' : (2 : ℝ) ^ longBits ≤ y := by exact_mod_cast low
  have high' : (y : ℝ) ≤ 2 ^ (longBits + 1) := by exact_mod_cast high.le
  have pos : (0 : ℝ) < 2 ^ longBits := by positivity
  have least := Real.logb_le_logb_of_le one_lt_two pos low'
  have largest := Real.logb_le_logb_of_le one_lt_two (pos.trans_le low') high'
  rw [Real.logb_pow, Real.logb_self_eq_one one_lt_two, mul_one] at least largest
  push_cast at largest
  rw [unitLog]
  constructor <;> linarith

/-- One squaring: the logarithm's next bit and what is left behind it. -/
theorem unitLog_square {b y y' : ℕ} (hy : 0 < y) (hy' : 2 ^ longBits ≤ y') (low : 2 ^ b * y' * 2 ^ longBits ≤ y * y)
    (high : y * y ≤ 2 ^ b * (y' + 1) * 2 ^ longBits) :
    b + unitLog y' ≤ 2 * unitLog y ∧ 2 * unitLog y ≤ b + unitLog y' + logError := by
  have pos : (0 : ℝ) < y := by exact_mod_cast hy
  have pos' : (0 : ℝ) < y' := by exact_mod_cast (Nat.two_pow_pos longBits).trans_le hy'
  have scaled {x : ℝ} (hx : 0 < x) : Real.logb 2 (2 ^ b * x * 2 ^ longBits) = b + Real.logb 2 x + longBits := by
    rw [mul_comm, logb_pow_mul _ (by positivity), logb_pow_mul b hx]
    ring
  have square : Real.logb 2 ((y : ℝ) * y) = 2 * Real.logb 2 y := by
    rw [Real.logb_mul pos.ne' pos.ne', two_mul]
  have low' : (2 : ℝ) ^ b * y' * 2 ^ longBits ≤ y * y := by exact_mod_cast low
  have high' : (y : ℝ) * y ≤ 2 ^ b * (y' + 1) * 2 ^ longBits := by exact_mod_cast high
  have least := Real.logb_le_logb_of_le one_lt_two (by positivity) low'
  have largest := Real.logb_le_logb_of_le one_lt_two (by positivity) high'
  rw [scaled pos', square] at least
  rw [scaled (by positivity), square] at largest
  have next := unitLog_succ hy'
  simp only [unitLog] at next ⊢
  constructor <;> linarith

/-! ## The fraction's bits -/

theorem log2Frac_zero (y acc : ℕ) : log2Frac 0 y acc = acc := rfl

/-- One step of `log2Frac`; the unit stands apart, as a numeral of 320 bits is too large to compare. -/
theorem log2Frac_succ (k y acc : ℕ) {c : ℕ} (hc : c = 2 ^ longBits) : log2Frac (k + 1) y acc =
    if 2 ^ (longBits + 1) ≤ y * y / c then log2Frac k (y * y / c / 2) (2 * acc + 1) else log2Frac k (y * y / c) (2 * acc) := by
  subst hc
  rfl

/-- The bits that `log2Frac` appends are a fraction just below the logarithm. -/
theorem log2Frac_near : ∀ (k y acc : ℕ), 2 ^ longBits ≤ y → y < 2 ^ (longBits + 1) → ∃ g, g < 2 ^ k ∧ log2Frac k y acc = acc * 2 ^ k + g ∧
    g ≤ 2 ^ k * unitLog y ∧ 2 ^ k * unitLog y ≤ g + 1 + (2 ^ k - 1) * logError
  | 0, y, acc, low, high => by
    obtain ⟨least, largest⟩ := unitLog_bounds low high
    exact ⟨0, by simp [log2Frac_zero, least, largest]⟩
  | k + 1, y, acc, low, high => by
    obtain ⟨c, hc⟩ : ∃ c, c = 2 ^ longBits := ⟨_, rfl⟩
    rw [pow_succ, ← hc] at high
    rw [← hc] at low
    have pos : 0 < c := by rw [hc]; exact Nat.two_pow_pos _
    have quotient_le : y * y / c * c ≤ y * y := Nat.div_mul_le_self _ _
    have lt_next : y * y < (y * y / c + 1) * c := Nat.lt_div_mul_add pos |>.trans_eq (by ring)
    have low' : c ≤ y * y / c := (Nat.le_div_iff_mul_le pos).2 (Nat.mul_le_mul low low)
    have high' : y * y / c < 4 * c := by
      rw [Nat.div_lt_iff_lt_mul pos]
      nlinarith
    obtain ⟨b, y', taken, least, most, below, above, bit⟩ : ∃ b y', log2Frac (k + 1) y acc = log2Frac k y' (2 * acc + b) ∧ c ≤ y' ∧ y' < c * 2 ∧
        2 ^ b * y' * c ≤ y * y ∧ y * y ≤ 2 ^ b * (y' + 1) * c ∧ b < 2 := by
      rw [log2Frac_succ k y acc hc, pow_succ, ← hc]
      generalize y * y / c = z at *
      split
      · refine ⟨1, z / 2, rfl, by omega, by omega, ?_, ?_, by norm_num⟩
        · exact (Nat.mul_le_mul_right c (by omega)).trans quotient_le
        · exact lt_next.le.trans (Nat.mul_le_mul_right c (by omega))
      · exact ⟨0, z, rfl, low', by omega, by simpa using quotient_le, by simpa using lt_next.le, by norm_num⟩
    obtain ⟨g, bound, value, under, beyond⟩ := log2Frac_near k y' (2 * acc + b) (hc ▸ least) (by rw [pow_succ, ← hc]; exact most)
    obtain ⟨squareLow, squareHigh⟩ := unitLog_square (pos.trans_le low) (hc ▸ least) (hc ▸ below) (hc ▸ above)
    refine ⟨b * 2 ^ k + g, ?_, ?_, ?_, ?_⟩
    · have : b * 2 ^ k ≤ 1 * 2 ^ k := Nat.mul_le_mul_right _ (by omega)
      omega
    · rw [taken, value]
      ring
    · have scaled := mul_le_mul_of_nonneg_left squareLow (show (0 : ℝ) ≤ 2 ^ k by positivity)
      push_cast
      rw [pow_succ]
      linarith
    · have scaled := mul_le_mul_of_nonneg_left squareHigh (show (0 : ℝ) ≤ 2 ^ k by positivity)
      push_cast
      rw [pow_succ]
      linarith

/-! ## log2 a -/

/-- A significand's logarithm is below its first bit's by what its rest shows. -/
theorem logb_significand {l m : ℕ} (low : 2 ^ l < m) (high : m < 2 ^ (l + 1)) :
    ((2 : ℝ) ^ l)⁻¹ ≤ Real.logb 2 (m / 2 ^ l) ∧ Real.logb 2 (m / 2 ^ l) ≤ 1 - ((2 : ℝ) ^ (l + 1))⁻¹ := by
  have unit : (0 : ℝ) < 2 ^ l := by positivity
  have low' : (2 : ℝ) ^ l + 1 ≤ m := by exact_mod_cast low
  have high' : (m : ℝ) + 1 ≤ 2 ^ l * 2 := by rw [← pow_succ]; exact_mod_cast high
  obtain ⟨y, hy⟩ : ∃ y : ℝ, y = m / 2 ^ l := ⟨_, rfl⟩
  have hm : (m : ℝ) = y * 2 ^ l := by rw [hy]; field_simp
  have concave {p : ℝ} (h0 : 0 ≤ p) (h1 : p ≤ 1) : p ≤ Real.logb 2 (1 + p) := by
    rw [Real.le_logb_iff_rpow_le one_lt_two (by linarith)]
    have bernoulli := rpow_one_add_le_one_add_mul_self (s := 1) (by norm_num) h0 h1
    rwa [one_add_one_eq_two, mul_one] at bernoulli
  rw [← hy]
  rw [hm] at low' high'
  have least : 1 + (2 ^ l)⁻¹ ≤ y := by
    rw [← mul_le_mul_iff_left₀ unit, add_mul, inv_mul_cancel₀ unit.ne', one_mul]
    exact low'
  have most : y + (2 ^ l)⁻¹ ≤ 2 := by
    rw [← mul_le_mul_iff_left₀ unit, add_mul, inv_mul_cancel₀ unit.ne']
    linarith
  have inv : (0 : ℝ) < (2 ^ l)⁻¹ := by positivity
  constructor
  · have bound := concave (p := y - 1) (by linarith) (by linarith)
    rw [add_sub_cancel] at bound
    linarith
  · have pos : 0 < y := by linarith
    have gap : ((2 : ℝ) ^ (l + 1))⁻¹ ≤ 2 / y - 1 := by
      rw [le_sub_iff_add_le, le_div_iff₀ pos, pow_succ, mul_inv]
      nlinarith
    have bound := concave (p := 2 / y - 1) (le_trans (by positivity) gap) (by rw [sub_le_iff_le_add, div_le_iff₀ pos]; linarith)
    rw [add_sub_cancel, Real.logb_div two_ne_zero pos.ne', Real.logb_self_eq_one one_lt_two] at bound
    linarith

/-- A real stands for the logarithm of a magnitude: within 2^−160 of it, and it itself where that is exact; and an element rounds it correctly. -/
def logRounded (et : ET) (md : Mode) (a : ℝ) (x : Elem) : Prop :=
  ∃ (v : ℝ) (neg : Bool), |v - Real.logb 2 a| ≤ (2 : ℝ) ^ (-160 : ℤ) ∧ (neg = true ↔ a < 1) ∧ roundedTo et md neg |v| x ∧
    ((∃ n : ℤ, a = (2 : ℝ) ^ n) → v = Real.logb 2 a) ∧ ((∀ n : ℤ, a ≠ (2 : ℝ) ^ n) → x.flags.nx = true)

/-- The logarithm of a power of two is an integer. -/
theorem logRounded_int (et : ET) (md : Mode) (n : ℤ) : logRounded et md (2 ^ n) (roundElem et md (Exact.ofInt n, false)) := by
  have value : Real.logb 2 ((2 : ℝ) ^ n) = n := by
    rw [← Real.rpow_intCast, Real.logb_rpow two_pos (by norm_num)]
  refine ⟨n, decide (n < 0), ?_, ?_, ?_, fun _ => value.symm, fun h => absurd rfl (h n)⟩
  · rw [value, sub_self, abs_zero]
    positivity
  · rw [decide_eq_true_iff, zpow_lt_one_iff_right₀ one_lt_two]
  · have number := roundedTo_number et md (decide (n < 0)) n.natAbs 0
    rwa [zpow_zero, mul_one, Nat.cast_natAbs, Int.cast_abs] at number

/-- `binaryLog` of a number that is no power of two. -/
theorem binaryLog_fraction {m l : ℕ} (hl : l = Nat.log2 m) (hm : m ≠ 2 ^ l) (e : ℤ) {f : ℕ} (hf : f = log2Frac logBits (m * 2 ^ longBits / 2 ^ l) 0) {n : ℤ}
    (hn : n = 2 * ((e + l) * (2 ^ logBits : ℕ) + f) + 1) : binaryLog m e = .fin (n < 0) n.natAbs (-161) := by
  subst hl hn hf
  simp only [binaryLog, beq_iff_eq, hm, if_false]
  rfl

/-- The bits that a significand's logarithm has behind the point. -/
theorem log2Frac_significand {l m : ℕ} (low : 2 ^ l < m) (high : m < 2 ^ (l + 1)) : ∃ f, f = log2Frac logBits (m * 2 ^ longBits / 2 ^ l) 0 ∧
    f < 2 ^ 160 ∧ (f : ℝ) ≤ 2 ^ 160 * Real.logb 2 (m / 2 ^ l) ∧ 2 ^ 160 * Real.logb 2 (m / 2 ^ l) ≤ f + 5 / 4 := by
  obtain ⟨c, hc⟩ : ∃ c, c = 2 ^ longBits := ⟨_, rfl⟩
  have unit : 0 < 2 ^ l := Nat.two_pow_pos l
  have pos : 0 < c := by rw [hc]; exact Nat.two_pow_pos _
  have least : 2 ^ longBits ≤ m * c / 2 ^ l := by
    rw [← hc, Nat.le_div_iff_mul_le unit, mul_comm]
    exact Nat.mul_le_mul_right c low.le
  have most : m * c / 2 ^ l < 2 ^ (longBits + 1) := by
    rw [pow_succ, ← hc, Nat.div_lt_iff_lt_mul unit, mul_assoc, ← pow_succ', mul_comm c]
    exact Nat.mul_lt_mul_of_pos_right high pos
  obtain ⟨f, bound, value, under, beyond⟩ := log2Frac_near logBits _ 0 least most
  rw [zero_mul, zero_add] at value
  have below : ((m * c / 2 ^ l : ℕ) : ℝ) ≤ m * c / 2 ^ l := by exact_mod_cast Nat.cast_div_le (α := ℝ) (m := m * c) (n := 2 ^ l)
  have above : (m : ℝ) * c / 2 ^ l ≤ (m * c / 2 ^ l : ℕ) + 1 := by
    rw [div_le_iff₀ (by positivity)]
    exact_mod_cast (Nat.lt_div_mul_add unit).le.trans_eq (by ring)
  have start : unitLog (m * c / 2 ^ l) = Real.logb 2 (m / 2 ^ l) := by
    have : (0 : ℝ) < m := by exact_mod_cast unit.trans low
    rw [unitLog, mul_div_right_comm, mul_comm, hc, Nat.cast_pow, Nat.cast_ofNat, logb_pow_mul _ (by positivity), add_sub_cancel_left]
  have positive : (0 : ℝ) < (m * c / 2 ^ l : ℕ) := by exact_mod_cast (Nat.two_pow_pos _).trans_le least
  have first := unitLog_mono positive below
  have last := unitLog_mono (positive.trans_le below) above
  have next := unitLog_succ least
  have error : (2 : ℝ) ^ 161 * logError ≤ 1 / 4 := by
    have large : (2 : ℝ) ^ (164 : ℤ) ≤ 2 ^ (320 : ℤ) := zpow_le_zpow_right₀ one_le_two (by norm_num)
    rw [logError, pow_longBits, ← mul_div_assoc, div_le_iff₀ (by positivity)]
    generalize (2 : ℝ) ^ (320 : ℤ) = unit at large ⊢
    norm_num at large ⊢
    linarith
  rw [start] at first last
  generalize Real.logb 2 ((m : ℝ) / 2 ^ l) = t at *
  generalize unitLog ((m * c / 2 ^ l : ℕ) : ℝ) = t' at *
  refine ⟨f, by rw [← hc, value], bound, ?_, ?_⟩
  · exact under.trans (mul_le_mul_of_nonneg_left first (by positivity))
  · have error_nonneg : 0 ≤ logError := by rw [logError]; positivity
    rw [logBits] at beyond
    linarith

section
variable {l m f : ℕ} (e : ℤ)

/-- A magnitude's logarithm, by its first bit and its significand. -/
theorem logb_number (hm : m ≠ 0) : Real.logb 2 (m * (2 : ℝ) ^ e) = (e + l : ℤ) + Real.logb 2 (m / 2 ^ l) := by
  have pos : (0 : ℝ) < m := by exact_mod_cast Nat.pos_of_ne_zero hm
  have unit : (2 : ℝ) ^ e = 2 ^ (e : ℝ) := (Real.rpow_intCast ..).symm
  rw [Real.logb_mul pos.ne' (by positivity), Real.logb_div pos.ne' (by positivity), unit, Real.logb_rpow two_pos (by norm_num), Real.logb_pow,
    Real.logb_self_eq_one one_lt_two]
  push_cast
  ring

/-- The fraction of a short significand's logarithm is far from both ends. -/
theorem logPart_inside (hl : l < 24) {t : ℝ} (least : ((2 : ℝ) ^ l)⁻¹ ≤ t) (most : t ≤ 1 - ((2 : ℝ) ^ (l + 1))⁻¹) (under : (f : ℝ) ≤ 2 ^ 160 * t)
    (beyond : 2 ^ 160 * t ≤ f + 5 / 4) : 2 ^ 130 ≤ f ∧ f + 2 ^ 130 ≤ 2 ^ 160 := by
  have small : (2 ^ 24 : ℝ)⁻¹ ≤ (2 ^ (l + 1))⁻¹ := inv_anti₀ (by positivity) (pow_le_pow_right₀ one_le_two (by omega))
  have smaller : ((2 : ℝ) ^ (l + 1))⁻¹ ≤ (2 ^ l)⁻¹ := inv_anti₀ (by positivity) (pow_le_pow_right₀ one_le_two (by omega))
  have low : ((2 ^ 130 : ℕ) : ℝ) ≤ f := by push_cast; linarith
  have high : (f : ℝ) + (2 ^ 130 : ℕ) ≤ 2 ^ 160 := by push_cast; linarith
  exact ⟨by exact_mod_cast low, by exact_mod_cast high⟩

/-- A logarithm computed to 160 bits, and half of a bit. -/
theorem logRounded_fraction (et : ET) (md : Mode) (low : 2 ^ l < m) (high : m < 2 ^ (l + 1)) (hl : l < 24) (bound : f < 2 ^ 160)
    (under : (f : ℝ) ≤ 2 ^ 160 * Real.logb 2 (m / 2 ^ l)) (beyond : 2 ^ 160 * Real.logb 2 (m / 2 ^ l) ≤ f + 5 / 4) {n : ℤ}
    (hn : n = 2 * ((e + l) * (2 ^ 160 : ℕ) + f) + 1) :
    logRounded et md (m * 2 ^ e) (roundElem et md (.fin (n < 0) n.natAbs (-161), false)) := by
  obtain ⟨least, most⟩ := logb_significand low high
  have number := logb_number (l := l) e (m := m) (by omega)
  generalize Real.logb 2 ((m : ℝ) / 2 ^ l) = t at *
  obtain ⟨w, hw⟩ : ∃ w : ℤ, w = e + l := ⟨_, rfl⟩
  rw [← hw] at hn number
  have t_pos : 0 < t := lt_of_lt_of_le (by positivity) least
  have t_lt : t < 1 := lt_of_le_of_lt most (sub_lt_self 1 (by positivity))
  have pos : (0 : ℝ) < m * 2 ^ e := by
    have : (0 : ℝ) < m := by exact_mod_cast (Nat.two_pow_pos l).trans low
    positivity
  obtain ⟨f_low, f_high⟩ := logPart_inside hl least most under beyond
  have sign : w < 0 ↔ (m : ℝ) * 2 ^ e < 1 := by
    rw [← Real.logb_neg_iff one_lt_two pos, number, ← Int.cast_lt_zero (R := ℝ)]
    refine ⟨fun h => ?_, fun h => by linarith⟩
    have : (w : ℝ) ≤ -1 := by exact_mod_cast Int.le_sub_one_of_lt (Int.cast_lt_zero.1 h)
    linarith
  have between (i : ℤ) : (m : ℝ) * 2 ^ e ≠ 2 ^ i := fun h => by
    rw [h, ← Real.rpow_intCast, Real.logb_rpow two_pos (by norm_num)] at number
    have below : w < i := by exact_mod_cast (by linarith : (w : ℝ) < i)
    have above : i < w + 1 := by exact_mod_cast (by linarith : (i : ℝ) < w + 1)
    omega
  have rounded := roundedTo_number et md (decide (n < 0)) n.natAbs (-161)
  refine ⟨n * 2 ^ (-161 : ℤ), decide (n < 0), ?_, ?_, ?_, fun ⟨i, hi⟩ => absurd hi (between i), fun _ => ?_⟩
  · have cast : (n : ℝ) = 2 * (w * 2 ^ 160 + f) + 1 := by rw [hn]; push_cast; ring
    rw [number, cast, abs_le]
    norm_num at under beyond ⊢
    constructor <;> linarith
  · rw [decide_eq_true_iff, ← sign]
    omega
  · rwa [abs_mul, abs_of_pos (show (0 : ℝ) < 2 ^ (-161 : ℤ) by positivity), ← Int.cast_abs, ← Nat.cast_natAbs]
  · exact nx_of_roundedTo rounded (codeValue_ne_odd et (by omega) (by omega) _)

end

/-- What `binaryLog` computes of a significand of at most 24 bits. -/
theorem logRounded_binaryLog (et : ET) (md : Mode) {m : ℕ} (hm : m ≠ 0) (short : m < 2 ^ 24) (e : ℤ) :
    logRounded et md (m * 2 ^ e) (roundElem et md (binaryLog m e, false)) := by
  have low := Nat.log2_self_le hm
  have high : m < 2 ^ (Nat.log2 m + 1) := Nat.lt_log2_self
  have hl : Nat.log2 m < 24 := (Nat.pow_lt_pow_iff_right one_lt_two).1 (low.trans_lt short)
  by_cases power : m = 2 ^ Nat.log2 m
  · have value : (m : ℝ) * 2 ^ e = 2 ^ (e + Nat.log2 m : ℤ) := by
      rw [zpow_add₀ two_ne_zero, zpow_natCast, mul_comm]
      congr 1
      exact_mod_cast power
    rw [value, binaryLog]
    simp only [beq_iff_eq, ← power, if_true]
    exact logRounded_int et md _
  · obtain ⟨f, hf, bound, under, beyond⟩ := log2Frac_significand (lt_of_le_of_ne low (Ne.symm power)) high
    rw [binaryLog_fraction rfl power e hf rfl]
    exact logRounded_fraction e et md (lt_of_le_of_ne low (Ne.symm power)) high hl bound under beyond rfl

end Sys2Proof.Machine
end

section
/-! PROOF. The results of the floating words (06_numbers_and_float.md R140 to R142, R145, R146, R150): the order and the classes of values, the long operations' elements, and the statement on them (O12). -/
namespace Sys2Proof.Machine
open Sys2Proof

/-! ## The order of values (R141) -/

/-- Finite numbers in order. -/
theorem Exact.lt_fin (na nb : Bool) (ma mb : ℕ) (ea eb : ℤ) :
    (Exact.fin na ma ea).lt (.fin nb mb eb) = true ↔ (Exact.fin na ma ea).rat < (Exact.fin nb mb eb).rat := by
  have positive {m : ℕ} (e : ℤ) (h : m ≠ 0) : (0 : ℚ) < m * 2 ^ e := by
    have : (0 : ℚ) < m := by exact_mod_cast Nat.pos_of_ne_zero h
    positivity
  simp only [Exact.lt, Exact.rat_fin, Bool.and_eq_true, beq_iff_eq]
  by_cases ha : ma = 0
  · by_cases hb : mb = 0
    · simp [ha, hb]
    · have := positive eb hb
      cases nb <;> simp [ha, hb, this, this.le]
  · have hpos := positive ea ha
    by_cases hb : mb = 0
    · cases na <;> simp [ha, hb, hpos, hpos.le]
    · have hpos' := positive eb hb
      cases na <;> cases nb <;> simp only [ha, hb, Bool.not_true, Bool.not_false, Bool.false_eq_true, and_true, and_false, if_true, if_false,
        magLt_iff, one_mul, neg_mul, neg_lt_neg_iff, true_iff, false_iff, not_lt] <;> linarith

/-- The order of values that are no NaN is that of the extended reals. -/
theorem Exact.lt_iff {x y : Exact} (hx : x ≠ .nan) (hy : y ≠ .nan) : x.lt y = true ↔ x.extended < y.extended := by
  cases x with
  | nan => exact absurd rfl hx
  | inf n =>
    cases y with
    | nan => exact absurd rfl hy
    | inf n' => cases n <;> cases n' <;> simp [Exact.lt, Exact.extended]
    | fin n' m' e' => cases n <;> simp [Exact.lt, Exact.extended]
  | fin n m e =>
    cases y with
    | nan => exact absurd rfl hy
    | inf n' => cases n' <;> simp [Exact.lt, Exact.extended]
    | fin n' m' e' => rw [Exact.lt_fin, Exact.extended, Exact.extended, EReal.coe_lt_coe_iff, Rat.cast_lt]

theorem fless_iff {x y : Exact} (hx : x ≠ .nan) (hy : y ≠ .nan) : fless x y = true ↔ x.below y := by
  simp only [fless, Exact.below, Bool.or_eq_true, Bool.and_eq_true, Bool.not_eq_true', Exact.lt_iff hx hy, and_assoc]

theorem Exact.extended_zero {x : Exact} (h : x.isZero = true) : x.extended = 0 := by
  cases x with
  | nan => rfl
  | inf n => exact absurd h Bool.false_ne_true
  | fin n m e =>
    rw [Exact.isZero, beq_iff_eq] at h
    simp [Exact.extended, Exact.rat_fin, h]

theorem Exact.below_asymm {x y : Exact} (h : x.below y) : ¬y.below x := by
  rintro (back | ⟨hy, hx, negY, -⟩)
  · rcases h with low | ⟨hx, hy, -, -⟩
    · exact low.asymm back
    · rw [Exact.extended_zero hx, Exact.extended_zero hy] at back
      exact lt_irrefl _ back
  · rcases h with low | ⟨-, -, -, posY⟩
    · rw [Exact.extended_zero hx, Exact.extended_zero hy] at low
      exact lt_irrefl _ low
    · exact absurd (negY.symm.trans posY) (by decide)

theorem Exact.isNaN_iff {x : Exact} : x.isNaN = true ↔ x = .nan := by
  cases x <;> simp [Exact.isNaN]

section
variable {et : ET} {x y : LaneWord}

/-- Beside one NaN the other operand is picked, and for two the canonical NaN. -/
theorem fpick_nan (largest : Bool) : (fVal et x = .nan → fVal et y = .nan → fpick et largest x y = (fmtOf et).canonicalNaN) ∧
    (fVal et x = .nan → fVal et y ≠ .nan → fpick et largest x y = y) ∧ (fVal et x ≠ .nan → fVal et y = .nan → fpick et largest x y = x) := by
  refine ⟨fun hx hy => ?_, fun hx hy => ?_, fun hx hy => ?_⟩ <;> simp [fpick, Exact.isNaN_iff, hx, hy]

variable (hx : fVal et x ≠ .nan) (hy : fVal et y ≠ .nan)
include hx hy

/-- Of two numbers the one at the end of the order is picked. -/
theorem fpick_number (largest : Bool) : fpick et largest x y = if largest then (if fless (fVal et x) (fVal et y) then y else x)
    else if fless (fVal et y) (fVal et x) then y else x := by
  simp [fpick, Exact.isNaN_iff, hx, hy]

theorem fpick_either (largest : Bool) : fpick et largest x y = x ∨ fpick et largest x y = y := by
  rw [fpick_number hx hy]
  split <;> split <;> simp

theorem fpick_below (h : (fVal et x).below (fVal et y)) : fpick et false x y = x ∧ fpick et true x y = y := by
  rw [fpick_number hx hy, fpick_number hx hy]
  simp [(fless_iff hx hy).2 h, fless_iff hy hx, Exact.below_asymm h]

theorem fpick_above (h : (fVal et y).below (fVal et x)) : fpick et false x y = y ∧ fpick et true x y = x := by
  rw [fpick_number hx hy, fpick_number hx hy]
  simp [(fless_iff hy hx).2 h, fless_iff hx hy, Exact.below_asymm h]

end

/-! ## Magnitudes and classes (R141, R145) -/

theorem fabsBits_nan {et : ET} {x : LaneWord} (h : fVal et x = .nan) : fabsBits et x = (fmtOf et).canonicalNaN := by
  rw [fabsBits, if_pos (Exact.isNaN_iff.2 h)]

theorem fabsBits_getLsbD {et : ET} {x : LaneWord} (h : fVal et x ≠ .nan) (i : ℕ) :
    (fabsBits et x).getLsbD i = (decide (i < (fmtOf et).ebits + (fmtOf et).mbits) && x.getLsbD i) := by
  rw [fabsBits, if_neg (mt Exact.isNaN_iff.1 h), BitVec.getLsbD_and, BitVec.getLsbD_ofNat, Nat.testBit_two_pow_sub_one]
  by_cases hi : i < 32
  · simp [hi, Bool.and_comm]
  · simp [BitVec.getLsbD_of_ge x i (not_lt.1 hi)]

theorem fclass_fin (f : FloatFmt) (n : Bool) (m : ℕ) (e : ℤ) : fclass f (.fin n m e) = if m = 0 then (if n then 0x008#32 else 0x010#32)
    else if |(Exact.fin n m e).rat| < (2 : ℚ) ^ f.emin then (if n then 0x004#32 else 0x020#32) else (if n then 0x002#32 else 0x040#32) := by
  by_cases hm : m = 0
  · simp [fclass, hm]
  · obtain ⟨low, high⟩ := log2_bounds hm e
    have subnormal : e + (Nat.log2 m : ℕ) < f.emin ↔ |(Exact.fin n m e).rat| < (2 : ℚ) ^ f.emin := by
      rw [abs_rat]
      refine ⟨fun h => high.trans_le (zpow_le_zpow_right₀ one_le_two (by omega)), fun h => ?_⟩
      exact (zpow_lt_zpow_iff_right₀ one_lt_two).1 (low.trans_lt h)
    simp only [fclass, beq_iff_eq, hm, if_false, subnormal]

/-! ## The long operations on finite numbers other than zero (R142) -/

/-- An element's significand has at most 24 bits. -/
theorem fVal_significand_lt {et : ET} {x : LaneWord} {n : Bool} {m : ℕ} {e : ℤ} (h : fVal et x = .fin n m e) : m < 2 ^ 24 := by
  rcases (fmtOf et).value_cases (fmtOf_ebits_pos et) x with nan | ⟨inf, -⟩ | ⟨c, -, -, fin⟩
  · exact absurd (h.symm.trans nan) (by simp)
  · exact absurd (h.symm.trans inf) (by simp)
  · obtain ⟨-, rfl, -⟩ := Exact.fin.inj (h.symm.trans fin)
    have size : (fmtOf et).mbits + 1 ≤ 24 := by cases et <;> decide
    have rest := Nat.mod_lt c (Nat.two_pow_pos (fmtOf et).mbits)
    refine lt_of_lt_of_le ?_ (Nat.pow_le_pow_right two_pos size)
    rw [FloatFmt.magnitude, pow_succ]
    split <;> dsimp only <;> omega

section
variable {et : ET} {md : Mode} {x : LaneWord} {n : Bool} {m : ℕ} {e : ℤ} (hx : fVal et x = .fin n m e) (hm : m ≠ 0)
include hx hm

theorem fdivElem_number {y : LaneWord} {n' : Bool} {m' : ℕ} {e' : ℤ} (hy : fVal et y = .fin n' m' e') (hm' : m' ≠ 0) :
    roundedTo et md (n != n') (m * 2 ^ e / (m' * 2 ^ e')) (fdivElem et md x y) := by
  have value : fdivElem et md x y = roundElem et md (quotient n m e n' m' e', false) := by simp [fdivElem, hx, hy, hm, hm']
  rw [value]
  exact roundedTo_quotient hm hm' et md n n' e e'

theorem frcpElem_number : roundedTo et md n (1 / (m * 2 ^ e)) (frcpElem et md x) := by
  have value : frcpElem et md x = roundElem et md (quotient false 1 0 n m e, false) := by simp [frcpElem, hx, hm]
  have rounded := roundedTo_quotient one_ne_zero hm et md false n 0 e
  rw [value]
  simpa using rounded

theorem fsqrtElem_number (hn : n = false) : roundedTo et md false √(m * 2 ^ e) (fsqrtElem et md x) := by
  have value : fsqrtElem et md x = roundElem et md (squareRoot m e, false) := by simp [fsqrtElem, hx, hm, hn]
  rw [value]
  exact roundedTo_squareRoot hm et md e

theorem frsqElem_number (hn : n = false) : roundedTo et md false (1 / √(m * 2 ^ e)) (frsqElem et md x) := by
  have value : frsqElem et md x = roundElem et md (reciprocalRoot m e, false) := by simp [frsqElem, hx, hm, hn]
  rw [value]
  exact roundedTo_reciprocalRoot hm et md e

theorem fexp2Elem_number : powerRounded et md (if n then -(m * (2 : ℝ) ^ e) else m * (2 : ℝ) ^ e) (fexp2Elem et md x) := by
  have value : fexp2Elem et md x = roundElem et md (exp2 n m e, false) := by rw [fexp2Elem, hx]
  rw [value]
  exact powerRounded_exp2 et md n hm e

theorem flog2Elem_number (hn : n = false) : logRounded et md (m * 2 ^ e) (flog2Elem et md x) := by
  have value : flog2Elem et md x = roundElem et md (binaryLog m e, false) := by simp [flog2Elem, hx, hm, hn]
  rw [value]
  exact logRounded_binaryLog et md hm (fVal_significand_lt hx) e

end

/-- Settles O12: each word is a vector word whose elements come from its sources, each rounded once; the long operations compute one number that no code and no middle of two tells from the real result. -/
theorem floatResults : Obligations.FloatResults := by
  unfold Obligations.FloatResults
  refine ⟨fun s mk mz md et d a b c het hr => ?_, fun s mk mz md et d a b het hr => ?_, fun et md x y nx ny mx my ex ey hx hm => ?_,
    fun et x y n m e => ?_, fun s mk mz nsat md src et d a b het hsrc hr => ?_⟩
  · intro x y z gives
    have named : gives = fun i f => givesVector i s 2 d et.width mk mz f := rfl
    clear_value gives
    subst named
    refine ⟨?_, ?_, ?_, ?_, ?_, ?_, ?_, ?_, ?_⟩
    · exact givesVector_floatWord hr het (by simp) (exec_vfadd ..) fun _ => rfl
    · exact givesVector_floatWord hr het (by simp) (exec_vfsub ..) fun _ => rfl
    · exact givesVector_floatWord hr het (by simp) (exec_vfmul ..) fun _ => rfl
    · exact givesVector_floatWord hr het (by simp) (exec_vfma ..) fun _ => rfl
    · exact givesVector_floatWord hr het (by simp) (exec_vfnma ..) fun _ => rfl
    · exact givesVector_floatWord hr het (by simp) (exec_vfmin ..) fun _ => rfl
    · exact givesVector_floatWord hr het (by simp) (exec_vfmax ..) fun _ => rfl
    · exact givesVector_floatWord hr het (by simp) (exec_vfabs ..) fun _ => rfl
    · exact givesVector_vectorWord hr.mode hr.dest (width_dvd het) (List.forall_mem_singleton.2 (hr.vecOk (by simp))) (exec_vfclass ..)
        fun _ _ _ => rfl
  · intro x gives
    have named : gives = fun i f => givesVector i s 8 d et.width mk mz f := rfl
    clear_value gives
    subst named
    refine ⟨?_, ?_, ?_, ?_, ?_, ?_⟩
    · exact givesVector_floatWord hr het (by simp) (exec_vfdiv ..) fun _ => rfl
    · exact givesVector_floatWord hr het (by simp) (exec_vfsqrt ..) fun _ => rfl
    · exact givesVector_floatWord hr het (by simp) (exec_vfrsq ..) fun _ => rfl
    · exact givesVector_floatWord hr het (by simp) (exec_vfrcp ..) fun _ => rfl
    · exact givesVector_floatWord hr het (by simp) (exec_vfexp2 ..) fun _ => rfl
    · exact givesVector_floatWord hr het (by simp) (exec_vflog2 ..) fun _ => rfl
  · exact ⟨fun hy hm' => fdivElem_number hx hm hy hm', frcpElem_number hx hm, fun hn => ⟨fsqrtElem_number hx hm hn, frsqElem_number hx hm hn⟩,
      fexp2Elem_number hx hm, fun hn => flog2Elem_number hx hm hn⟩
  · refine ⟨fun largest => ?_, fun ha hb => ⟨fpick_below ha hb, fpick_above ha hb⟩, fabsBits_nan, fabsBits_getLsbD, rfl, ?_, fclass_fin _ n m e⟩
    · obtain ⟨both, left, right⟩ := fpick_nan (et := et) (x := x) (y := y) largest
      exact ⟨both, left, right, fun ha hb => fpick_either ha hb largest⟩
    · cases n <;> rfl
  · refine ⟨?_, fun hscale => ?_⟩
    · exact givesVector_vectorWord hr.mode hr.dest (width_dvd het) (List.forall_mem_singleton.2 (hr.vecOk (by simp))) (exec_vcvt ..)
        fun _ _ _ => rfl
    · exact givesVector_vectorWord hr.mode hr.dest (width_dvd het) (List.forall_mem_cons.2 ⟨hr.vecOk (by simp), hscale⟩) (exec_vdqnt ..)
        fun _ _ _ => rfl

end Sys2Proof.Machine
end

section
/-! PROOF. The strip words (07_lengths_and_integer.md R153 to R159; O5): the count of `SVLOOP`, what `GETVL` reads, the grant of `SETVL` and the lengths that it can grant. -/
namespace Sys2Proof.Machine
open Sys2Proof

section Arms
variable (s : State) (d a : BitVec 6) (disp : BitVec 32) (sel : GetVlSel) (et : ET) (blk : BitVec 3) (grp : BitVec 2)

theorem exec_svloop : exec (.svloop a disp) s = execSvloop a disp s := rfl
theorem exec_getvl : exec (.getvl sel d) s = execGetvl sel d s := rfl
theorem exec_setvl : exec (.setvl d a et blk grp) s = execSetvl d a et blk grp s := rfl

end Arms

/-! ## Lengths (R152, R153, R156) -/

theorem stripLen_pos (code : ℕ) : 0 < stripLen code := by
  unfold stripLen
  split
  · exact one_pos
  · exact Nat.two_pow_pos _

/-- R154: the codes of blocks give blocks of at most 128 elements. -/
theorem stripLen_le {code : ℕ} (h : code ≤ 5) : stripLen code ≤ 128 := by
  unfold stripLen
  split
  · decide
  · exact Nat.pow_le_pow_right two_pos (by omega : code + 2 ≤ 7)

/-- A cap is 1,024 or a multiple of 128, and so leaves room for the longest block (R153). -/
theorem capOf_ge (p : Partition) : 128 ≤ capOf p := by
  unfold capOf
  split
  · decide
  · next h =>
    have : p.capq.toNat ≠ 0 := fun h0 => h (BitVec.eq_of_toNat_eq h0)
    omega

theorem vlmaxOf_eq_rule (s : State) (e b g : ℕ) : vlmaxOf s e b g = vlmaxRule s.w e b g (capOf s.part) := by
  rw [vlmaxOf, vlmaxRule, fits, min_assoc]

theorem vlmaxOf_le (s : State) (e b g : ℕ) : vlmaxOf s e b g ≤ min 1024 (min (capOf s.part) (fits s e g)) := Nat.div_mul_le_self ..

section
variable {m b n : ℕ}

/-- Below the maximum the grant is the count, rounded up to whole blocks. -/
theorem grantLen_of_lt (h : n < m) : grantLen m b n = (n + b - 1) / b * b := if_neg (not_le.2 h)

theorem grantLen_of_le (h : m ≤ n) : grantLen m b n = m := if_pos h

/-- A count rounded up to whole blocks reaches the count, by less than a block. -/
theorem roundedUp_bounds (hb : 0 < b) (n : ℕ) : n ≤ (n + b - 1) / b * b ∧ (n + b - 1) / b * b < n + b := by
  have hdiv := Nat.div_add_mod' (n + b - 1) b
  have hmod := Nat.mod_lt (n + b - 1) hb
  omega

theorem dvd_grantLen (hm : b ∣ m) : b ∣ grantLen m b n := by
  unfold grantLen
  split
  · exact hm
  · exact Nat.dvd_mul_left ..

/-- A grant stays within a maximum of whole blocks. -/
theorem grantLen_le (hb : 0 < b) (hm : b ∣ m) : grantLen m b n ≤ m := by
  rcases Nat.lt_or_ge n m with h | h
  · rw [grantLen_of_lt h]
    obtain ⟨c, rfl⟩ := hm
    rw [mul_comm b c]
    refine Nat.mul_le_mul_right b (Nat.le_of_lt_succ (Nat.div_lt_of_lt_mul ?_))
    rw [Nat.mul_succ]
    omega
  · rw [grantLen_of_le h]

/-- Less than a block of a grant is padding. -/
theorem grantLen_lt (hb : 0 < b) : grantLen m b n < n + b := by
  rcases Nat.lt_or_ge n m with h | h
  · rw [grantLen_of_lt h]
    exact (roundedUp_bounds hb n).2
  · rw [grantLen_of_le h]
    omega

theorem grantLen_pos (hb : 0 < b) (hm : 0 < m) (hn : 0 < n) : 0 < grantLen m b n := by
  rcases Nat.lt_or_ge n m with h | h
  · rw [grantLen_of_lt h]
    exact hn.trans_le (roundedUp_bounds hb n).1
  · rwa [grantLen_of_le h]

end

theorem grantLen_vlmaxOf_le (s : State) (e g n : ℕ) {b : ℕ} (hb : 0 < b) :
    grantLen (vlmaxOf s e b g) b n ≤ min 1024 (min (capOf s.part) (fits s e g)) :=
  (grantLen_le hb (Nat.dvd_mul_left ..)).trans (vlmaxOf_le ..)

/-- R153, R156: every length that `SETVL` can grant. -/
theorem grantLen_bounds (s : State) (e g n : ℕ) {code : ℕ} (hcode : code ≤ 5) :
    let b := stripLen code
    let vl := grantLen (vlmaxOf s e b g) b n
    vl ≤ 1024 ∧ vl ≤ capOf s.part ∧ vl * e ≤ s.w * 32 * g ∧ vl % b = 0 ∧ vl - n < b ∧ (b ≤ fits s e g → 0 < n → 0 < vl) := by
  intro b vl
  have hb : 0 < b := stripLen_pos code
  obtain ⟨hmax, hcap, hfits⟩ : vl ≤ 1024 ∧ vl ≤ capOf s.part ∧ vl ≤ fits s e g := by
    simpa only [le_min_iff] using grantLen_vlmaxOf_le s e g n hb
  refine ⟨hmax, hcap, (Nat.mul_le_mul_right e hfits).trans (Nat.div_mul_le_self ..),
    Nat.mod_eq_zero_of_dvd (dvd_grantLen (Nat.dvd_mul_left ..)), ?_, fun hroom hn => ?_⟩
  · have := grantLen_lt (m := vlmaxOf s e b g) (n := n) hb
    omega
  · have hlen := stripLen_le hcode
    have hcap' := capOf_ge s.part
    have hone : b ≤ min 1024 (min (capOf s.part) (fits s e g)) := by
      simp only [le_min_iff]
      omega
    exact grantLen_pos hb (Nat.mul_pos (Nat.div_pos hone hb) hb) hn

/-! ## `SVLOOP` (R158) and `GETVL` (R159) -/

/-- A uniform result and a move to a position are all that changes. -/
theorem uniformFrame_moved (s : State) (d : BitVec 6) (v : Word) (p : Position) (x y : ℕ) :
    let t : State := { s with warp := { s.warp.writeS d v with
      pos := p, yieldOff := x, yieldLow := y, wait := 0, urgent := false, park := .none, service := {}, paid := false } }
    wroteS s.warp t.warp d v ∧ t.warp.pending = s.warp.stoppedS d ∧ UniformFrame s t :=
  ⟨wroteS_writeS .., writeS_stops s.warp d v, by rw [writeS_eq], writeS_pending s.warp d v⟩

/-- Behind its check `SVLOOP` writes the count, then goes to its target or on. -/
theorem exec_svloop_uniform {s : State} (hl : s.warp.lanes = none) (a : BitVec 6) (disp : BitVec 32) {left : ℕ}
    (hleft : remaining s.warp (s.warp.readS a).toNat = left) :
    let w := s.warp.writeS a (BitVec.ofNat 64 left)
    exec (.svloop a disp) s = .next { s with warp := if left ≠ 0 then w.goto (w.at.relative disp) else w.advance } := by
  intro w
  subst hleft
  rw [exec_svloop, execSvloop, guarded_pass (by simp [vectorOnly, inLanes_none _ hl])]
  by_cases h : remaining s.warp (s.warp.readS a).toNat ≠ 0
  · simp only [if_pos h]
    rfl
  · simp only [if_neg h]
    rfl

/-- The elements of the strip come off the count; the loop goes on while some are left. -/
theorem svloop_loops {s : State} (hl : s.warp.lanes = none) (hlast : s.warp.pos.idx = s.warp.pos.n) (a : BitVec 6) (disp : BitVec 32) {left : ℕ}
    (hleft : remaining s.warp (s.warp.readS a).toNat = left) :
    ∃ t, exec (.svloop a disp) s = .next t ∧ wroteS s.warp t.warp a (BitVec.ofNat 64 left) ∧ t.warp.pending = s.warp.stoppedS a ∧ UniformFrame s t ∧
      t.warp.pos = { hdr := if left ≠ 0 then s.warp.pos.hdr + 8 * disp.toInt else s.warp.pos.hdr + 8 * ((s.warp.pos.n : Int) + 1) } := by
  have hnext := exec_svloop_uniform hl a disp hleft
  have hlanes : (s.warp.writeS a (BitVec.ofNat 64 left)).lanes = none := by rw [writeS_eq]; exact hl
  have hpos : (s.warp.writeS a (BitVec.ofNat 64 left)).pos = s.warp.pos := by rw [writeS_eq]
  by_cases h : left ≠ 0
  · simp only [if_pos h] at hnext ⊢
    obtain ⟨x, y, hgo⟩ := goto_uniform _ (Warp.at (s.warp.writeS a (BitVec.ofNat 64 left)) |>.relative disp) hlanes
    rw [hgo, at_uniform _ hlanes, hpos] at hnext
    obtain ⟨hwrote, hstop, hframe⟩ := uniformFrame_moved s a (BitVec.ofNat 64 left) { hdr := s.warp.pos.relative disp } x y
    exact ⟨_, hnext, hwrote, hstop, hframe, rfl⟩
  · simp only [if_neg h] at hnext ⊢
    obtain ⟨x, y, hgo⟩ := advance_uniform _ hlanes
    rw [hgo, hpos] at hnext
    obtain ⟨hwrote, hstop, hframe⟩ := uniformFrame_moved s a (BitVec.ofNat 64 left) s.warp.pos.after x y
    exact ⟨_, hnext, hwrote, hstop, hframe, Position.after_last hlast⟩

theorem gives_getvl {s : State} (hl : s.warp.lanes = none) (sel : GetVlSel) (d : BitVec 6) :
    gives (.getvl sel d) s d (BitVec.ofNat 64 (getvlValue s sel)) :=
  gives_of hl ((exec_getvl ..).trans (uniformWord_eq hl _))

/-! ## `SETVL` (R155, R156) -/

/-- The descriptor that `SETVL` leaves (R154). -/
theorem descOf_toNat (et : ET) (blk : BitVec 3) (grp : BitVec 2) :
    (descOf et blk grp).toNat = et.code.toNat + 16 * blk.toNat + 128 * grp.toNat := by
  have hcode := et.code.isLt
  have hblk := blk.isLt
  rw [descOf, BitVec.toNat_append, BitVec.toNat_append, ← Nat.shiftLeft_add_eq_or_of_lt (BitVec.isLt _),
    ← Nat.shiftLeft_add_eq_or_of_lt (BitVec.isLt _), Nat.shiftLeft_eq, Nat.shiftLeft_eq, BitVec.ofNat_toNat, BitVec.setWidth_eq]
  omega

/-- An event of a warp is counted; its entry may make the warp wait. -/
theorem logWarp_warp (s : State) (event slot : ℕ) (value : Word) :
    ∃ p, (logWarp s event slot value).warp = { s.warp with events := s.warp.events.modify event (· + 1), park := p } := by
  have hlog := (recordsMove_logEntry (s.onWarp fun w => { w with events := w.events.modify event (· + 1) }) (teamEntry s event s.warp.idx slot value)).warp
  unfold logWarp
  simp only
  split
  · exact ⟨.waybill, by rw [State.parkOn, onWarp_warp]; exact congrArg (fun w : Warp => { w with park := .waybill }) hlog⟩
  · exact ⟨_, hlog⟩

/-- Where nothing is recorded the count of events is all that changes. -/
theorem logWarp_unrecorded {s : State} (hr : s.team.launch.rrecord = false) (event slot : ℕ) (value : Word) :
    logWarp s event slot value = s.onWarp fun w => { w with events := w.events.modify event (· + 1) } := by
  simp [logWarp, logEntry, hr]

section
variable {s : State} {w : Warp} (hw : s.warp.mustWait flagged = false) (hc : s.warp.commit flagged = (w, none))
include hw hc

/-- Without a pre-emption and a shrink request the point is its commit (R98). -/
theorem grantPoint_passes (hp : s.team.preempt = false) (hk : s.team.k = 0) (k : State → State) : grantPoint s k = k { s with warp := w } := by
  rw [grantPoint, preemptPoint_passes hw hc hp, if_neg (by simp [shrinkDue, hk])]

/-- The strip that `SETVL` grants, behind its checks and its commit. -/
theorem exec_setvl_grants (hl : s.warp.lanes = none) (hp : s.team.preempt = false) (hk : s.team.k = 0) (hf : s.team.launch.rfollow = false)
    (d a : BitVec 6) {et : ET} {blk : BitVec 3} {grp : BitVec 2} {n vl : ℕ} (hn : (w.readS a).toNat = n)
    (hfits : stripLen blk.toNat ≤ fits s et.width (2 ^ grp.toNat))
    (hvl : grantLen (vlmaxOf s et.width (stripLen blk.toNat) (2 ^ grp.toNat)) (stripLen blk.toNat) n = vl) :
    exec (.setvl d a et blk grp) s =
      .next (logWarp (takeStrip { s with warp := w } d (descOf et blk grp) vl n).advance 2 0 (BitVec.ofNat 64 vl)) := by
  have hword : (BitVec.ofNat 64 vl).toNat = vl := by
    have hle := grantLen_vlmaxOf_le s et.width (2 ^ grp.toNat) n (stripLen_pos blk.toNat)
    rw [hvl, le_min_iff] at hle
    rw [BitVec.toNat_ofNat, Nat.mod_eq_of_lt (by omega)]
  subst hn
  rw [exec_setvl, execSetvl, guarded_pass (by simp [vectorOnly, inLanes_none _ hl, hfits]), grantPoint_passes hw hc hp hk]
  simp only [followed, hf, Bool.false_eq_true, if_false]
  have hvl' : grantLen (vlmaxOf { s with warp := w } et.width (stripLen blk.toNat) (2 ^ grp.toNat)) (stripLen blk.toNat) (w.readS a).toNat = vl := hvl
  rw [hvl', hword]

end

/-- R155: a block that does not fit its group. -/
theorem exec_setvl_illegal {s : State} (hl : s.warp.lanes = none) (d a : BitVec 6) {et : ET} {blk : BitVec 3} {grp : BitVec 2}
    (h : fits s et.width (2 ^ grp.toNat) < stripLen blk.toNat) :
    exec (.setvl d a et blk grp) s = .next (trapHere s { cause := .illegal, info := 0x0B#64 } s.warp.vstart) := by
  have hchecks : [vectorOnly s, (decide (stripLen blk.toNat ≤ fits s et.width (2 ^ grp.toNat)), IllegalReason.blockFit)] =
      [vectorOnly s] ++ [(false, .blockFit)] := by simp [h]
  rw [exec_setvl, execSetvl]
  simp only [hchecks]
  rw [guarded_fail .blockFit (by simp [vectorOnly, inLanes_none _ hl])]
  rfl

/-- What the grant of a strip leaves, outside lane mode. -/
theorem takeStrip_advance {s : State} (hl : s.warp.lanes = none) (d : BitVec 6) (desc : BitVec 9) (vl n : ℕ) : ∃ x y,
    (takeStrip s d desc vl n).advance = { s with warp := { s.warp.writeS d (BitVec.ofNat 64 vl) with
      vl := vl, vpad := vl - n, vstart := 0, desc := desc, pos := s.warp.pos.after
      yieldOff := x, yieldLow := y, wait := 0, urgent := false, park := .none, service := {}, paid := false } } := by
  have hlanes : (s.warp.writeS d (BitVec.ofNat 64 vl)).lanes = none := by rw [writeS_eq]; exact hl
  have hpos : (s.warp.writeS d (BitVec.ofNat 64 vl)).pos = s.warp.pos := by rw [writeS_eq]
  obtain ⟨x, y, hadv⟩ := advance_uniform
    { s.warp.writeS d (BitVec.ofNat 64 vl) with vl := vl, vpad := vl - n, vstart := 0, desc := desc } hlanes
  rw [← hpos]
  exact ⟨x, y, congrArg (fun w : Warp => { s with warp := w }) hadv⟩

/-- R156: the strip granted, with its registers, its descriptor and its event. -/
theorem setvl_grants {s : State} {w : Warp} (hl : s.warp.lanes = none) (hw : s.warp.mustWait flagged = false) (hc : s.warp.commit flagged = (w, none))
    (hp : s.team.preempt = false) (hk : s.team.k = 0) (hf : s.team.launch.rfollow = false) (d a : BitVec 6) {et : ET} {blk : BitVec 3}
    {grp : BitVec 2} {n vl : ℕ} (hn : (w.readS a).toNat = n) (hfits : stripLen blk.toNat ≤ fits s et.width (2 ^ grp.toNat))
    (hvl : grantLen (vlmaxOf s et.width (stripLen blk.toNat) (2 ^ grp.toNat)) (stripLen blk.toNat) n = vl) :
    ∃ t, exec (.setvl d a et blk grp) s = .next t ∧ t.warp.vl = vl ∧ t.warp.vpad = vl - n ∧ t.warp.vstart = 0 ∧
      t.warp.desc.toNat = et.code.toNat + 16 * blk.toNat + 128 * grp.toNat ∧
      wroteS w t.warp d (BitVec.ofNat 64 vl) ∧ t.warp.pos = s.warp.pos.after ∧ t.warp.v = w.v ∧ t.warp.m = w.m ∧
      t.warp.pending = w.stoppedS d ∧
      (s.team.launch.rrecord = false → t = { s with warp := { w with
        s := t.warp.s, pending := t.warp.pending, vl := vl, vpad := vl - n, vstart := 0, desc := t.warp.desc, pos := t.warp.pos,
        events := w.events.modify 2 (· + 1), yieldOff := t.warp.yieldOff, yieldLow := t.warp.yieldLow,
        wait := 0, urgent := false, park := .none, service := {}, paid := false } }) := by
  have hnext := exec_setvl_grants hw hc hl hp hk hf d a hn hfits hvl
  have hlanes : w.lanes = none := by rw [committed_eq hc]; exact hl
  have hpos : w.pos = s.warp.pos := by rw [committed_eq hc]
  obtain ⟨x, y, hgrant⟩ := takeStrip_advance (s := { s with warp := w }) hlanes d (descOf et blk grp) vl n
  rw [hgrant] at hnext
  have hwrote := wroteS_writeS w d (BitVec.ofNat 64 vl)
  have hstop := writeS_stops w d (BitVec.ofNat 64 vl)
  obtain ⟨p, hlog⟩ := logWarp_warp { s with warp := { w.writeS d (BitVec.ofNat 64 vl) with
      vl := vl, vpad := vl - n, vstart := 0, desc := descOf et blk grp, pos := w.pos.after
      yieldOff := x, yieldLow := y, wait := 0, urgent := false, park := .none, service := {}, paid := false } } 2 0 (BitVec.ofNat 64 vl)
  refine ⟨_, hnext, ?_, ?_, ?_, ?_, ?_, ?_, ?_, ?_, ?_, fun hr => ?_⟩
  · rw [hlog]
  · rw [hlog]
  · rw [hlog]
  · rw [hlog]; exact descOf_toNat ..
  · rw [hlog]; exact hwrote
  · rw [hlog, ← hpos]
  · rw [hlog, writeS_eq]
  · rw [hlog, writeS_eq]
  · rw [hlog]; exact hstop
  · rw [logWarp_unrecorded (by exact hr), writeS_eq]
    rfl

/-- Settles O5: the words by their grants, counts and answers, and the lengths by the arithmetic of whole blocks. -/
theorem strips : Obligations.Strips := by
  unfold Obligations.Strips
  have hcode (b : BitVec 3) : (if b = 0#3 then 1 else 2 ^ (b.toNat + 2)) = stripLen b.toNat := by
    simp [stripLen, ← BitVec.toNat_inj]
  refine ⟨fun s a disp hl hlast => ?_, fun s d hl => ?_, fun s w d a et blk grp hl hw hc hp hk hf => ?_, fun s d a et blk grp hl h => ?_,
    fun s e g n _ hc _ _ => grantLen_bounds s e g n hc⟩
  · refine svloop_loops hl hlast a disp ?_
    simp only [remaining]
    split <;> omega
  · intro cap b
    refine ⟨gives_getvl hl .vl d, gives_getvl hl .pad d, ?_, gives_getvl hl .cap d, gives_getvl hl .desc d, gives_getvl hl .start d⟩
    have hmax := gives_getvl hl .max d
    rwa [getvlValue, vlmaxOf_eq_rule] at hmax
  · intro b g cap vlmax n vl hfits
    refine setvl_grants hl hw hc hp hk hf d a rfl ?_ ?_
    · rw [← hcode]; exact hfits
    · rw [← hcode, vlmaxOf_eq_rule]; rfl
  · rw [hcode] at h
    exact exec_setvl_illegal hl d a h

end Sys2Proof.Machine
end

section
/-! PROOF. Integers in elements (06_numbers_and_float.md R122; 07_lengths_and_integer.md R162): what is stored of an integer, what an element's bits stand for, and the nearest value of a type. -/
namespace Sys2Proof.Machine
open Sys2Proof

theorem width_pos (et : ET) : 0 < et.width := by cases et <;> decide

/-! ## The low bits of a word -/

section
variable {e : ℕ} (he : e ∣ 32)
include he

theorem toNat_and_lowMask (x : LaneWord) : (x &&& lowMask e).toNat = x.toNat % 2 ^ e := by
  have hle : 2 ^ e ≤ 2 ^ 32 := Nat.pow_le_pow_right two_pos (Nat.le_of_dvd (by decide) he)
  have hpos := Nat.two_pow_pos e
  rw [BitVec.toNat_and, lowMask, BitVec.toNat_ofNat, Nat.mod_eq_of_lt (by omega), Nat.and_two_pow_sub_one_eq_mod]

theorem readElem_lt (s : State) (r : BitVec 6) (k : ℕ) : (readElem s r e k).toNat < 2 ^ e := by
  rw [readElem, toNat_and_lowMask he]
  exact Nat.mod_lt _ (Nat.two_pow_pos e)

/-- R162: what is stored of an integer is the integer modulo 2^e. -/
theorem toNat_wrapTo (y : ℤ) : ((wrapTo e y).toNat : ℤ) = y % 2 ^ e := by
  have hle : (2 : ℤ) ^ e ≤ 2 ^ 32 := pow_le_pow_right₀ one_le_two (Nat.le_of_dvd (by decide) he)
  have hpos : (0 : ℤ) < 2 ^ e := by positivity
  have low := Int.emod_nonneg y hpos.ne'
  have high := Int.emod_lt_of_pos y hpos
  rw [wrapTo, BitVec.toNat_ofNat, Nat.cast_pow, Nat.cast_ofNat, Nat.mod_eq_of_lt (by omega), Int.toNat_of_nonneg low]

theorem wrapTo_eq (y : ℤ) : wrapTo e y = BitVec.ofInt 32 y &&& lowMask e := by
  refine BitVec.eq_of_toNat_eq (Int.ofNat_inj.1 ?_)
  have hdvd : (2 : ℤ) ^ e ∣ 2 ^ 32 := pow_dvd_pow 2 (Nat.le_of_dvd (by decide) he)
  rw [toNat_wrapTo he, toNat_and_lowMask he, BitVec.toNat_ofInt, Int.natCast_mod, Int.toNat_of_nonneg (Int.emod_nonneg _ (by decide)), Nat.cast_pow,
    Nat.cast_ofNat, Nat.cast_pow, Nat.cast_ofNat, Int.emod_emod_of_dvd _ hdvd]

end

/-! ## Values -/

/-- The low bits of a number are the number modulo 2^w. -/
theorem two_pow_dvd_mod_sub (w n : ℕ) : (2 : ℤ) ^ w ∣ ((n % 2 ^ w : ℕ) : ℤ) - n := by
  rw [Int.natCast_mod, Nat.cast_pow, Nat.cast_ofNat, dvd_sub_comm]
  exact Int.dvd_self_sub_emod

/-- A signed element differs from its pattern by a multiple of 2^e, and lies between the limits of its width. -/
theorem signedOf_bounds {w : ℕ} (hw : 0 < w) (x : LaneWord) :
    -2 ^ (w - 1) ≤ signedOf w x ∧ signedOf w x ≤ 2 ^ (w - 1) - 1 ∧ (2 : ℤ) ^ w ∣ signedOf w x - x.toNat := by
  obtain ⟨v, rfl⟩ := Nat.exists_eq_succ_of_ne_zero hw.ne'
  have hmod := Nat.mod_lt x.toNat (Nat.two_pow_pos (v + 1))
  have hdiv := two_pow_dvd_mod_sub (v + 1) x.toNat
  have hhalf : ((2 ^ v : ℕ) : ℤ) = 2 ^ v := by push_cast; rfl
  have hpow : ((2 ^ (v + 1) : ℕ) : ℤ) = 2 ^ (v + 1) := by push_cast; rfl
  have hdouble : (2 : ℤ) ^ (v + 1) = 2 ^ v * 2 := pow_succ ..
  simp only [signedOf, Nat.succ_eq_add_one, Nat.add_sub_cancel]
  split
  · refine ⟨by omega, by omega, ?_⟩
    rw [hpow, sub_right_comm]
    exact dvd_sub hdiv dvd_rfl
  · exact ⟨by omega, by omega, hdiv⟩

theorem unsignedOf_bounds (w : ℕ) (x : LaneWord) :
    (0 : ℤ) ≤ unsignedOf w x ∧ (unsignedOf w x : ℤ) ≤ 2 ^ w - 1 ∧ (2 : ℤ) ^ w ∣ (unsignedOf w x : ℤ) - x.toNat := by
  have hmod := Nat.mod_lt x.toNat (Nat.two_pow_pos w)
  have hpow : ((2 ^ w : ℕ) : ℤ) = 2 ^ w := by push_cast; rfl
  refine ⟨Int.natCast_nonneg _, ?_, two_pow_dvd_mod_sub w x.toNat⟩
  rw [unsignedOf]
  omega

/-- R162: the value of an element lies in the range of its type and is its pattern modulo 2^e. -/
theorem intValue_bounds (et : ET) (x : LaneWord) :
    intMin et ≤ intValue et x ∧ intValue et x ≤ intMax et ∧ (2 : ℤ) ^ et.width ∣ intValue et x - x.toNat := by
  rw [intMin_eq, intMax_eq, intValue]
  split
  · exact signedOf_bounds (width_pos et) x
  · exact unsignedOf_bounds et.width x

theorem intMin_le_intMax (et : ET) : intMin et ≤ intMax et := by cases et <;> decide

/-- R162: the nearest value of the range. -/
theorem clampTo_fst (et : ET) (y : ℤ) : (clampTo et y).1 = max (intMin et) (min (intMax et) y) := by
  have order := intMin_le_intMax et
  unfold clampTo
  split_ifs <;> dsimp only <;> omega

theorem clampTo_snd (et : ET) (y : ℤ) : (clampTo et y).2 = true ↔ (clampTo et y).1 ≠ y := by
  unfold clampTo
  split_ifs with below above
  · exact iff_of_true rfl below.ne'
  · exact iff_of_true rfl above.ne
  · exact iff_of_false (by simp) (not_not.2 rfl)

theorem saturated_eq (et : ET) (y : ℤ) :
    saturated et y = { bits := intBits et (clampTo et y).1, flags := { is := decide ((clampTo et y).1 ≠ y) } } := by
  have flag : (clampTo et y).2 = decide ((clampTo et y).1 ≠ y) := Bool.eq_iff_iff.2 ((clampTo_snd et y).trans decide_eq_true_iff.symm)
  rw [saturated, flag]

/-- R132: IS is no exception that FPCTL can enable. -/
theorem enabledTrap_is (fpctl : BitVec 6) (b : Bool) : enabledTrap fpctl { is := b } = false := by
  have low : ∀ b : Bool, ({ is := b } : FpFlags).bits.setWidth 6 = 0#6 := by decide
  simp [enabledTrap, low]

end Sys2Proof.Machine
end

section
/-! PROOF. The vector integer words by their form (07_lengths_and_integer.md R162 to R168): each a function of the elements of its sources; and the statements on their values (O7) and on bits, shifts and counts (O8). -/
namespace Sys2Proof.Machine
open Sys2Proof

section Arms
variable (s : State) (mk : BitVec 3) (mz : Bool) (src et : ET) (d a b c : BitVec 6) (n : BitVec 3) (imm : BitVec 32)

theorem exec_vadd : exec (.vadd mk mz et d a b) s = vBinary s mk mz et d a b fun x y => wrapped et (x + y) := rfl
theorem exec_vadds : exec (.vadds mk mz et d a b) s = vBinary s mk mz et d a b fun x y => saturated et (x + y) := rfl
theorem exec_vsub : exec (.vsub mk mz et d a b) s = vBinary s mk mz et d a b fun x y => wrapped et (x - y) := rfl
theorem exec_vsubs : exec (.vsubs mk mz et d a b) s = vBinary s mk mz et d a b fun x y => saturated et (x - y) := rfl
theorem exec_vmul : exec (.vmul mk mz et d a b) s = vBinary s mk mz et d a b fun x y => wrapped et (x * y) := rfl
theorem exec_vmulhi : exec (.vmulhi mk mz et d a b) s = vBinary s mk mz et d a b fun x y => wrapped et (x * y / (2 ^ et.width : ℕ)) := rfl
theorem exec_vmin : exec (.vmin mk mz et d a b) s = vBinary s mk mz et d a b fun x y => wrapped et (min x y) := rfl
theorem exec_vmax : exec (.vmax mk mz et d a b) s = vBinary s mk mz et d a b fun x y => wrapped et (max x y) := rfl
theorem exec_vmad : exec (.vmad mk mz et d a b c) s =
    vecWord s mk mz et d [a, b, c] fun s k => wrapped et (vVal s et a k * vVal s et b k + vVal s et c k) := rfl
theorem exec_vabs_wrapped : exec (.vabs mk mz false et d a) s = vecWord s mk mz et d [a] fun s k => wrapped et ((vVal s et a k).natAbs : ℕ) := rfl
theorem exec_vabs_saturated : exec (.vabs mk mz true et d a) s = vecWord s mk mz et d [a] fun s k => saturated et ((vVal s et a k).natAbs : ℕ) := rfl
theorem exec_vwid : exec (.vwid mk mz src et d a) s =
    vectorWord s [vecOk s a src.width] 1 .none d et.width mk mz fun s k => wrapped et (vVal s src a k) := rfl
theorem exec_vsatn : exec (.vsatn mk mz src et d a) s =
    vectorWord s [vecOk s a src.width] 1 .none d et.width mk mz fun s k => saturated et (vVal s src a k) := rfl
theorem exec_vaddi : exec (.vaddi mk mz d a imm) s = execVaddi mk mz d a imm s := rfl
theorem exec_vand : exec (.vand mk mz et d a b) s = vBits s mk mz et d a b fun x y => x &&& y := rfl
theorem exec_vor : exec (.vor mk mz et d a b) s = vBits s mk mz et d a b fun x y => x ||| y := rfl
theorem exec_vxor : exec (.vxor mk mz et d a b) s = vBits s mk mz et d a b fun x y => x ^^^ y := rfl
theorem exec_vshl : exec (.vshl mk mz et d a b) s = vBits s mk mz et d a b fun x y => x <<< vShift et y := rfl
theorem exec_vshr : exec (.vshr mk mz et d a b) s = vBits s mk mz et d a b fun x y => x >>> vShift et y := rfl
theorem exec_vsar : exec (.vsar mk mz et d a b) s =
    vBits s mk mz et d a b fun x y => wrapTo et.width (signedOf et.width x / (2 ^ vShift et y : ℕ)) := rfl
theorem exec_vbcs : exec (.vbcs mk mz et d a) s = vecWord s mk mz et d [] fun s _ => { bits := container et ((s.warp.readS a).setWidth 32) } := rfl
theorem exec_vmrg : exec (.vmrg mk et d a b) s = vecWord s 0#3 false et d [a, b] fun s k =>
    { bits := container et (if maskBit s.warp mk k then vElem s et b k else vElem s et a k) } := rfl
theorem exec_vpopc : exec (.vpopc mk mz et d a) s = vecWord s mk mz et d [a] fun s k => wrapped et ((onesIn et.width (vElem s et a k) : ℕ) : ℤ) := rfl
theorem exec_vclz : exec (.vclz mk mz et d a) s = vecWord s mk mz et d [a] fun s k => wrapped et ((leadingIn et.width (vElem s et a k) : ℕ) : ℤ) := rfl
theorem exec_viota_index : exec (.viota mk mz false et d n) s = vecWord s mk mz et d [] fun _ k => wrapped et ((k : ℕ) : ℤ) := rfl
theorem exec_viota_count : exec (.viota mk mz true et d n) s =
    vecWord s mk mz et d [] fun s k => wrapped et ((countBelow (s.warp.readM n) k : ℕ) : ℤ) := rfl

end Arms

/-! ## The form of a word -/

section
variable {i : Instr} {s : State} {ops : List (BitVec 6 × ℕ)} {mk : BitVec 3} {mz : Bool} {et : ET} {d : BitVec 6} {srcs : List (BitVec 6)}
  {F : State → ℕ → Elem} {f : ℕ → Elem}

/-- Elements of width e that are stored as the same bits and raise the same status. -/
structure Elem.StoredAs (e : ℕ) (x y : Elem) : Prop where
  bits : x.bits &&& lowMask e = y.bits &&& lowMask e
  flags : x.flags = y.flags

theorem Elem.StoredAs.refl (e : ℕ) (x : Elem) : x.StoredAs e x := ⟨rfl, rfl⟩

/-- Of its elements a vector word shows what is stored and the status. -/
theorem givesVector_storedAs {toll e : ℕ} {g : ℕ → Elem} (hv : ∀ k, (g k).StoredAs e (f k)) (h : givesVector i s toll d e mk mz g) :
    givesVector i s toll d e mk mz f := by
  intro ha quiet
  obtain ⟨t, ht, elements, status, rest⟩ := h ha fun k hk => (hv k).flags ▸ quiet k hk
  refine ⟨t, ht, ⟨fun k low high => ?_, elements.rest, elements.outside⟩, fun i => (status i).trans ?_, rest⟩
  · rw [elements.live k low high, (hv k).bits]
  · simp only [(hv _).flags]

/-- A vector word of one type over groups that hold the strip. -/
theorem givesVector_vecWord (hr : VectorReady s ((d, et.width) :: ops)) (het : et ≠ .int64) (hs : ∀ r ∈ srcs, (r, et.width) ∈ ops)
    (h : exec i s = vecWord s mk mz et d srcs F) (hF : ∀ cores lease paid, F (s.withCharge cores lease paid) = F s)
    (hv : ∀ k, (F s k).StoredAs et.width (f k)) : givesVector i s 1 d et.width mk mz f :=
  givesVector_storedAs hv (givesVector_vectorWord hr.mode hr.dest (width_dvd het) (floatChecks_pass hr hs) h hF)

theorem givesVector_vBinary {a b : BitVec 6} {g : ℤ → ℤ → Elem} (hr : VectorReady s ((d, et.width) :: ops)) (het : et ≠ .int64)
    (hs : ∀ r ∈ [a, b], (r, et.width) ∈ ops) (h : exec i s = vBinary s mk mz et d a b g) (hv : ∀ k, g (vVal s et a k) (vVal s et b k) = f k) :
    givesVector i s 1 d et.width mk mz f :=
  givesVector_vecWord hr het hs h (fun _ _ _ => rfl) fun k => hv k ▸ .refl ..

theorem givesVector_vBits {a b : BitVec 6} {g : LaneWord → LaneWord → LaneWord} (hr : VectorReady s ((d, et.width) :: ops)) (het : et ≠ .int64)
    (hs : ∀ r ∈ [a, b], (r, et.width) ∈ ops) (h : exec i s = vBits s mk mz et d a b g)
    (hv : ∀ k, ({ bits := container et (g (vElem s et a k) (vElem s et b k)) } : Elem).StoredAs et.width (f k)) :
    givesVector i s 1 d et.width mk mz f :=
  givesVector_vecWord hr het hs h (fun _ _ _ => rfl) hv

end

/-! ## Values (R162, R164, R167, R168) -/

/-- R162: the nearest value of the type, with IS where it is another. -/
def nearestElem (et : ET) (y : ℤ) : Elem := { bits := intBits et (clampTo et y).1, flags := { is := decide ((clampTo et y).1 ≠ y) } }

/-- A saturating word gives the nearest values; none of its elements traps. -/
def givesNearest (i : Instr) (s : State) (mk : BitVec 3) (mz : Bool) (et : ET) (d : BitVec 6) (f : ℕ → ℤ) : Prop :=
  givesVector i s 1 d et.width mk mz (fun k => nearestElem et (f k)) ∧ ∀ k, enabledTrap s.warp.fpctl (nearestElem et (f k)).flags = false

theorem givesNearest_of {i : Instr} {s : State} {mk : BitVec 3} {mz : Bool} {et : ET} {d : BitVec 6} {f : ℕ → ℤ}
    (h : givesVector i s 1 d et.width mk mz fun k => saturated et (f k)) : givesNearest i s mk mz et d f :=
  ⟨givesVector_storedAs (fun k => saturated_eq et (f k) ▸ .refl ..) h, fun _ => enabledTrap_is _ _⟩

/-- R167: the type of `VADDI` is that of the strip. -/
theorem exec_vaddi_int (s : State) (mk : BitVec 3) (mz : Bool) (d a : BitVec 6) (imm : BitVec 32) (h : (stripEt s.warp).isInt = true) :
    exec (.vaddi mk mz d a imm) s =
      vecWord s mk mz (stripEt s.warp) d [a] fun u k => wrapped (stripEt s.warp) (vVal u (stripEt s.warp) a k + imm.toInt) := by
  rw [exec_vaddi, execVaddi]
  exact if_pos h

theorem exec_vaddi_illegal (s : State) (mk : BitVec 3) (mz : Bool) (d a : BitVec 6) (imm : BitVec 32) (h : (stripEt s.warp).isInt = false) :
    exec (.vaddi mk mz d a imm) s = .next (trapHere s { cause := .illegal, info := 0x08#64 } s.warp.vstart) := by
  rw [exec_vaddi, execVaddi]
  exact if_neg (by simp [h])

/-- Settles O7: each word is a function of its sources' values, and what it stores of an integer is the integer modulo 2^e. -/
theorem vectorIntegers : Obligations.VectorIntegers := by
  unfold Obligations.VectorIntegers
  refine ⟨fun et y x _ het => ?_, fun s mk mz et d a b c _ het hr => ?_, fun s mk mz et src d a b _ het _ hsrc hr => ?_,
    fun s mk mz src et d a imm => ⟨fun _ het _ hsrc hr => ?_, fun hint het hr => ?_, fun _ hint => exec_vaddi_illegal s mk mz d a imm hint⟩⟩
  · obtain ⟨low, high, pattern⟩ := intValue_bounds et x
    rw [← intMin_eq, ← intMax_eq]
    exact ⟨toNat_wrapTo (width_dvd het) y, low, high, Int.emod_eq_zero_of_dvd pattern, clampTo_fst et y, clampTo_snd et y⟩
  · refine ⟨?_, ?_, ?_, ?_, ?_, ?_, ?_, ?_⟩
    · exact givesVector_vBinary hr het (by simp) (exec_vadd ..) fun _ => rfl
    · exact givesVector_vBinary hr het (by simp) (exec_vsub ..) fun _ => rfl
    · exact givesVector_vBinary hr het (by simp) (exec_vmul ..) fun _ => rfl
    · exact givesVector_vBinary hr het (by simp) (exec_vmulhi ..) fun _ => by rw [wrapped, Nat.cast_pow, Nat.cast_ofNat]
    · exact givesVector_vecWord hr het (by simp) (exec_vmad ..) (fun _ _ _ => rfl) fun _ => .refl ..
    · exact givesVector_vBinary hr het (by simp) (exec_vmin ..) fun _ => rfl
    · exact givesVector_vBinary hr het (by simp) (exec_vmax ..) fun _ => rfl
    · exact givesVector_vecWord hr het (by simp) (exec_vabs_wrapped ..) (fun _ _ _ => rfl) fun _ => by rw [wrapped, Int.natCast_natAbs]; exact .refl ..
  · intro sat gives
    have named : gives = fun i f => givesNearest i s mk mz et d f := rfl
    clear_value gives
    subst named
    refine ⟨givesNearest_of ?_, givesNearest_of ?_, givesNearest_of ?_, givesNearest_of ?_⟩
    · exact givesVector_vBinary hr het (by simp) (exec_vadds ..) fun _ => rfl
    · exact givesVector_vBinary hr het (by simp) (exec_vsubs ..) fun _ => rfl
    · exact givesVector_vecWord hr het (by simp) (exec_vabs_saturated ..) (fun _ _ _ => rfl) fun _ => by rw [Int.natCast_natAbs]; exact .refl ..
    · exact givesVector_vectorWord hr.mode hr.dest (width_dvd het) (List.forall_mem_singleton.2 (hr.vecOk (by simp))) (exec_vsatn ..) fun _ _ _ => rfl
  · exact givesVector_vectorWord hr.mode hr.dest (width_dvd het) (List.forall_mem_singleton.2 (hr.vecOk (by simp))) (exec_vwid ..) fun _ _ _ => rfl
  · exact givesVector_vecWord hr het (by simp) (exec_vaddi_int s mk mz d a imm hint) (fun _ _ _ => rfl) fun _ => .refl ..

/-! ## Bits, shifts and counts (R164 to R166; 06_numbers_and_float.md R126) -/

/-- Every write of an SC12 element sets bits 15 to 12 to zero (R126). -/
theorem container_eq (et : ET) (v : LaneWord) : container et v = if et = .sc12 then v &&& 0xFFF#32 else v := by simp [container]

theorem container_int {et : ET} (h : et.isInt = true) (v : LaneWord) : container et v = v := by
  rw [container_eq, if_neg (by rintro rfl; exact absurd h Bool.false_ne_true)]

/-- What is stored of a count. -/
theorem wrapped_storedAs {et : ET} (het : et ≠ .int64) {m n : ℕ} (h : m = n) : (wrapped et m).StoredAs et.width { bits := BitVec.ofNat 32 n } := by
  subst h
  refine ⟨?_, rfl⟩
  rw [wrapped, intBits, wrapTo_eq (width_dvd het), BitVec.ofInt_natCast, BitVec.and_assoc, BitVec.and_self]

/-- R164: an element shifts by its amount modulo the width. -/
theorem vShift_vElem {et : ET} (het : et ≠ .int64) (s : State) (r : BitVec 6) (k : ℕ) : vShift et (vElem s et r k) = (vElem s et r k).toNat % et.width := by
  rw [vShift, unsignedOf, vElem, Nat.mod_eq_of_lt (readElem_lt (width_dvd het) s r k)]

theorem leadingIn_eq {n : ℕ} {x : LaneWord} (h : x.toNat < 2 ^ n) : leadingIn n x = ((List.range n).reverse.takeWhile fun i => !x.getLsbD i).length := by
  have zero : x = 0#32 ↔ x.toNat = 0 := by rw [← BitVec.toNat_inj, BitVec.toNat_ofNat, Nat.zero_mod]
  simp only [leadingIn, beq_iff_eq, zero]
  exact (takeWhile_zeros_length h).symm

/-- Settles O8: each word is a function of its sources' patterns; below the width a stored element is the formula's. -/
theorem vectorBits : Obligations.VectorBits := by
  unfold Obligations.VectorBits
  intro s mk mz et d a b n het hr x y keep
  have kept (v : LaneWord) : ({ bits := container et v } : Elem).StoredAs et.width (keep v) := by rw [container_eq]; exact .refl ..
  refine ⟨?_, ?_, ?_, ?_, ?_, fun hint => ⟨?_, ?_, ?_, ?_, ?_, ?_, ?_⟩⟩
  · exact givesVector_vBits hr het (by simp) (exec_vand ..) fun _ => kept _
  · exact givesVector_vBits hr het (by simp) (exec_vor ..) fun _ => kept _
  · exact givesVector_vBits hr het (by simp) (exec_vxor ..) fun _ => kept _
  · exact givesVector_vecWord hr het (by simp) (exec_vbcs ..) (fun _ _ _ => rfl) fun _ => kept _
  · exact givesVector_vecWord hr het (by simp) (exec_vmrg ..) (fun _ _ _ => rfl) fun _ => kept _
  · refine givesVector_vBits hr het (by simp) (exec_vshl ..) fun k => ?_
    rw [container_int hint, vShift_vElem het, shiftLeft_eq_ofNat]
    exact .refl ..
  · refine givesVector_vBits hr het (by simp) (exec_vshr ..) fun k => ?_
    rw [container_int hint, vShift_vElem het, ushiftRight_eq_ofNat]
    exact .refl ..
  · refine givesVector_vBits hr het (by simp) (exec_vsar ..) fun k => ⟨?_, rfl⟩
    rw [container_int hint, vShift_vElem het, wrapTo_eq (width_dvd het), BitVec.and_assoc, BitVec.and_self, Nat.cast_pow, Nat.cast_ofNat]
  · exact givesVector_vecWord hr het (by simp) (exec_vpopc ..) (fun _ _ _ => rfl) fun _ => wrapped_storedAs het List.countP_eq_length_filter.symm
  · exact givesVector_vecWord hr het (by simp) (exec_vclz ..) (fun _ _ _ => rfl) fun k =>
      wrapped_storedAs het (leadingIn_eq (readElem_lt (width_dvd het) s a k))
  · exact givesVector_vecWord hr het (by simp) (exec_viota_index ..) (fun _ _ _ => rfl) fun _ => wrapped_storedAs het rfl
  · exact givesVector_vecWord hr het (by simp) (exec_viota_count ..) (fun _ _ _ => rfl) fun _ => wrapped_storedAs het List.countP_eq_length_filter.symm

end Sys2Proof.Machine
end

section
/-! PROOF. Mask registers (07_lengths_and_integer.md R160, R161, R165; 06_numbers_and_float.md R143, R144): the bits that the mask words and the comparisons write, and the statements on them (O6, O9). -/
namespace Sys2Proof.Machine
open Sys2Proof

section Arms
variable (s : State) (mk d a b : BitVec 3) (r x y : BitVec 6) (mz : Bool) (sel : MsetSel) (cc : Cond) (fc : FCond) (et : ET)

theorem exec_mand : exec (.mand d a b) s = maskWord s d fun w => w.readM a &&& w.readM b := rfl
theorem exec_mor : exec (.mor d a b) s = maskWord s d fun w => w.readM a ||| w.readM b := rfl
theorem exec_mxor : exec (.mxor d a b) s = maskWord s d fun w => w.readM a ^^^ w.readM b := rfl
theorem exec_mandn : exec (.mandn d a b) s = maskWord s d fun w => w.readM a &&& ~~~w.readM b := rfl
theorem exec_mnot : exec (.mnot d a) s = maskWord s d fun w => ~~~w.readM a := rfl
theorem exec_mmov : exec (.mmov d a) s = maskWord s d fun w => w.readM a := rfl
theorem exec_mset : exec (.mset sel d r) s = maskWord s d fun w => msetBits w sel r := rfl
theorem exec_mpopc : exec (.mpopc r a) s = maskCount s r fun w => BitVec.ofNat 64 ((List.range w.vl).filter fun k => maskBit w a k).length := rfl
theorem exec_mfirst : exec (.mfirst r a) s = execMfirst r a s := rfl
theorem exec_vcmp : exec (.vcmp mk mz cc et d x y) s = execVcmp mk mz cc et d x y s := rfl
theorem exec_vfcmp : exec (.vfcmp mk mz fc et d x y) s = execVfcmp mk mz fc et d x y s := rfl

end Arms

/-! ## Bits of masks -/

theorem liveBits_getLsbD (n : ℕ) {k : ℕ} (hk : k < 1024) : (liveBits n).getLsbD k = decide (k < n) := by
  rw [liveBits, BitVec.getLsbD_ofNat, Nat.testBit_two_pow_sub_one, decide_eq_true hk, Bool.true_and]

/-- The bits below VL of a result over an older mask. -/
theorem belowVl_getLsbD (old new : BitVec 1024) (n : ℕ) {k : ℕ} (hk : k < 1024) :
    ((old &&& ~~~liveBits n) ||| (new &&& liveBits n)).getLsbD k = if k < n then new.getLsbD k else old.getLsbD k := by
  rw [BitVec.getLsbD_or, BitVec.getLsbD_and, BitVec.getLsbD_and, BitVec.getLsbD_not, liveBits_getLsbD n hk]
  by_cases h : k < n <;> simp [h, hk]

/-- What becomes of the mask bit of an active element: its result, zero, or its old value (R143, R165). -/
def resultBit (w : Warp) (mk : BitVec 3) (mz : Bool) (f : ℕ → Bool) (k : ℕ) (old : Bool) : Bool :=
  if maskBit w mk k then f k else if mz then false else old

theorem resultBit_idem (w : Warp) (mk : BitVec 3) (mz : Bool) (f : ℕ → Bool) (k : ℕ) (old : Bool) :
    resultBit w mk mz f k (resultBit w mk mz f k old) = resultBit w mk mz f k old := by
  unfold resultBit
  split_ifs <;> rfl

/-- One element's bit written to a mask. -/
def writeBit (w : Warp) (mk : BitVec 3) (mz : Bool) (f : ℕ → Bool) (m : BitVec 1024) (j : ℕ) : BitVec 1024 :=
  if maskBit w mk j then (if f j then m ||| 1#1024 <<< j else m &&& ~~~(1#1024 <<< j))
  else if mz then m &&& ~~~(1#1024 <<< j)
  else m

theorem maskResult_eq (w : Warp) (old : BitVec 1024) (mk : BitVec 3) (mz : Bool) (f : ℕ → Bool) :
    maskResult w old mk mz f = (activeElems w).foldl (writeBit w mk mz f) old := rfl

theorem oneBit_getLsbD (j : ℕ) {k : ℕ} (hk : k < 1024) : (1#1024 <<< j).getLsbD k = decide (k = j) := by
  rw [BitVec.getLsbD_shiftLeft, BitVec.getLsbD_one, decide_eq_true hk, ← Bool.decide_and, ← decide_not, Bool.true_and, ← Bool.decide_and,
    decide_eq_decide]
  omega

theorem writeBit_getLsbD (w : Warp) (mk : BitVec 3) (mz : Bool) (f : ℕ → Bool) (m : BitVec 1024) (j : ℕ) {k : ℕ} (hk : k < 1024) :
    (writeBit w mk mz f m j).getLsbD k = if k = j then resultBit w mk mz f k (m.getLsbD k) else m.getLsbD k := by
  have raised : (m ||| 1#1024 <<< j).getLsbD k = if k = j then true else m.getLsbD k := by
    rw [BitVec.getLsbD_or, oneBit_getLsbD j hk]
    by_cases h : k = j <;> simp [h]
  have cleared : (m &&& ~~~(1#1024 <<< j)).getLsbD k = if k = j then false else m.getLsbD k := by
    rw [BitVec.getLsbD_and, BitVec.getLsbD_not, oneBit_getLsbD j hk]
    by_cases h : k = j <;> simp [h, hk]
  unfold writeBit resultBit
  by_cases h : k = j
  · subst h
    split_ifs <;> simp_all
  · split_ifs <;> simp_all

/-- A comparison writes the bits of the active elements and no other. -/
theorem maskResult_getLsbD (w : Warp) (old : BitVec 1024) (mk : BitVec 3) (mz : Bool) (f : ℕ → Bool) {k : ℕ} (hk : k < 1024) :
    (maskResult w old mk mz f).getLsbD k = if w.vstart ≤ k ∧ k < w.vl then resultBit w mk mz f k (old.getLsbD k) else old.getLsbD k := by
  have fold (ks : List ℕ) (m : BitVec 1024) : (ks.foldl (writeBit w mk mz f) m).getLsbD k =
      if k ∈ ks then resultBit w mk mz f k (m.getLsbD k) else m.getLsbD k := by
    induction ks generalizing m with
    | nil => simp
    | cons j rest ih =>
      rw [List.foldl_cons, ih, writeBit_getLsbD w mk mz f m j hk]
      by_cases hj : k = j <;> by_cases hrest : k ∈ rest <;> simp [hj, hrest, resultBit_idem]
  simp only [maskResult_eq, fold, mem_activeElems]

/-! ## Charged words that write a mask -/

/-- What a charged word leaves that writes the mask register `d`: FPSTAT, `vstart` and the next position, and every other register as it was. -/
structure MaskEnd (s t : State) (toll : ℕ) (d : BitVec 3) (m : BitVec 1024) (F : BitVec 7) (start : ℕ) : Prop where
  written : ∀ k, k < 1024 → (t.warp.readM d).getLsbD k = if d = 0#3 then true else m.getLsbD k
  others : ∀ r, r ≠ d → t.warp.readM r = s.warp.readM r
  status : t.warp.fpstat = F
  start : t.warp.vstart = start
  goes : t.warp.pos = s.warp.pos.after
  uniform : t.warp.s = s.warp.s
  words : t.warp.v = s.warp.v
  streams : t.warp.st = s.warp.st
  pending : t.warp.pending = s.warp.pending
  order : t.warp.seq = s.warp.seq
  frame : ChargedFrame s t toll

section
variable {i : Instr} {s : State} {n : ℕ} {cores : Vector Core 312} {lease : ℕ} {paid : Bool} {d : BitVec 3}

/-- A charged word whose effect on its warp is a mask written, with FPSTAT and `vstart` set. -/
theorem maskEnd_advance {g : Warp → Warp} (m : BitVec 1024) {F : BitVec 7} {start : ℕ} (hl : s.warp.lanes = none)
    (hc : ChargeTaken s (s.withCharge cores lease paid) n)
    (hg : g (s.withCharge cores lease paid).warp =
      { (s.withCharge cores lease paid).warp with m := (s.warp.setM d m).m, fpstat := F, vstart := start }) :
    MaskEnd s (State.advance ((s.withCharge cores lease paid).onWarp g)) n d m F start := by
  obtain ⟨x, y, hadv⟩ := advance_uniform
    { s.warp with m := (s.warp.setM d m).m, fpstat := F, vstart := start, lease := lease, paid := paid } hl
  rw [State.advance, State.onWarp, State.onWarp, hg]
  simp only [hadv]
  have hread (r : BitVec 3) := readM_setM s.warp d r m
  refine { written := fun k hk => (congrArg (BitVec.getLsbD · k) (hread d)).trans ?_, others := fun r hr => (hread r).trans (if_neg hr), status := rfl,
           start := rfl, goes := rfl, uniform := rfl, words := rfl, streams := rfl, pending := rfl, order := rfl, frame := ⟨rfl, hc.congr rfl rfl⟩ }
  simp only [if_true, apply_ite (BitVec.getLsbD · k), BitVec.getLsbD_allOnes, hk, decide_true]

/-- A mask written in a charged warp is that of the warp before. -/
theorem setM_withCharge (d : BitVec 3) (m : BitVec 1024) : (s.withCharge cores lease paid).warp.setM d m =
    { (s.withCharge cores lease paid).warp with m := (s.warp.setM d m).m } := by
  unfold Warp.setM
  split <;> rfl

/-- The mask words (R160, R161): bits below VL from the result. -/
theorem maskWord_ends {F : Warp → BitVec 1024} (hl : s.warp.lanes = none) (h : exec i s = maskWord s d F)
    (hF : ∀ cores lease paid, F (s.withCharge cores lease paid).warp = F s.warp) (ha : affords s s.warp.vl) :
    ∃ t, exec i s = .next t ∧ MaskEnd s t s.warp.vl d ((s.warp.readM d &&& ~~~liveBits s.warp.vl) ||| (F s.warp &&& liveBits s.warp.vl))
      s.warp.fpstat s.warp.vstart := by
  obtain ⟨cores, lease, paid, hu, hcharge⟩ := dispatched_spec s s.warp.vl
  rw [maskWord, guarded_pass (by simp [vectorOnly, inLanes_none _ hl]), tolled_credit (affords_credit ha), hu] at h
  rw [← hF cores lease paid]
  exact ⟨_, h, maskEnd_advance _ hl hcharge (setM_withCharge d _)⟩

theorem givesMask_maskWord {F : Warp → BitVec 1024} {f : ℕ → Bool} (hl : s.warp.lanes = none) (h : exec i s = maskWord s d F)
    (hF : ∀ cores lease paid, F (s.withCharge cores lease paid).warp = F s.warp)
    (hf : ∀ k, k < 1024 → k < s.warp.vl → (F s.warp).getLsbD k = f k) : givesMask i s d f := by
  intro ha
  obtain ⟨t, ht, done⟩ := maskWord_ends hl h hF ha
  refine ⟨t, ht, fun k hk => ?_, done.others, done.uniform, done.words, done.streams, done.pending, done.order, done.status, done.start, done.goes,
    done.frame⟩
  rw [done.written k hk, belowVl_getLsbD _ _ _ hk]
  split
  · rfl
  · split
    next hlive => exact hf k hk hlive
    next => rfl

end

/-! ## Charged words that write a uniform register -/

/-- `MPOPC` and `MFIRST` give a value to a uniform register, and leave `vstart`. -/
theorem givesCharged_maskCount {i : Instr} {s : State} {d : BitVec 6} {F : Warp → Word} {v : Word} (hl : s.warp.lanes = none)
    (h : exec i s = maskCount s d F) (hF : ∀ cores lease paid, F (s.withCharge cores lease paid).warp = v) :
    givesCharged i s s.warp.vstart d v := by
  intro ha
  obtain ⟨cores, lease, paid, hu, hcharge⟩ := dispatched_spec s s.warp.vl
  rw [maskCount, guarded_pass (by simp [vectorOnly, inLanes_none _ hl]), tolled_credit (affords_credit ha), hu] at h
  have hlanes : ((s.withCharge cores lease paid).warp.writeS d v).lanes = none := by rw [writeS_eq]; exact hl
  obtain ⟨x, y, hadv⟩ := advance_uniform _ hlanes
  have hwrote := wroteS_writeS (s.withCharge cores lease paid).warp d v
  have hstops := writeS_stops (s.withCharge cores lease paid).warp d v
  have hnext : exec i s = .next { s.withCharge cores lease paid with warp := ((s.withCharge cores lease paid).warp.writeS d v).advance } := by
    rw [h, ← hF cores lease paid]
    rfl
  rw [hadv] at hnext
  refine ⟨_, hnext, hwrote, ?_, ?_, ?_, hstops, ?_, ?_, ?_, ?_, ?_, hcharge.congr ?_ ?_⟩
  all_goals rw [writeS_eq]

/-! ## The mask words (R160, R161) -/

/-- The elements of the strip whose bits a mask has, in ascending order. -/
def setElems (w : Warp) (a : BitVec 3) : List ℕ := (List.range w.vl).filter fun k => (w.readM a).getLsbD k

/-- `MFIRST` gives the first of them, or 2^64 − 1. -/
theorem exec_mfirst_head (s : State) (d : BitVec 6) (a : BitVec 3) :
    exec (.mfirst d a) s = maskCount s d fun w => (setElems w a).head?.elim (BitVec.allOnes 64) (BitVec.ofNat 64) := by
  rw [exec_mfirst, execMfirst]
  congr 1
  funext w
  rw [setElems, List.head?_filter]
  change _ = ((List.range w.vl).find? fun k => maskBit w a k).elim _ _
  cases (List.range w.vl).find? fun k => maskBit w a k <;> rfl

/-- Settles O6: each mask word by the bits of its result, each count by the elements whose bits are set. -/
theorem masks : Obligations.Masks := by
  unfold Obligations.Masks
  refine ⟨fun s d a b r hl => ?_, fun s d a hl => ?_⟩
  · intro x y
    refine ⟨?_, ?_, ?_, ?_, ?_, ?_, ?_, ?_, ?_, ?_⟩
    · exact givesMask_maskWord hl (exec_mand ..) (fun _ _ _ => rfl) fun _ _ _ => BitVec.getLsbD_and
    · exact givesMask_maskWord hl (exec_mor ..) (fun _ _ _ => rfl) fun _ _ _ => BitVec.getLsbD_or
    · exact givesMask_maskWord hl (exec_mxor ..) (fun _ _ _ => rfl) fun _ _ _ => BitVec.getLsbD_xor
    · exact givesMask_maskWord hl (exec_mandn ..) (fun _ _ _ => rfl) fun k hk _ => by rw [BitVec.getLsbD_and, BitVec.getLsbD_not, decide_eq_true hk, Bool.true_and]
    · exact givesMask_maskWord hl (exec_mnot ..) (fun _ _ _ => rfl) fun k hk _ => by rw [BitVec.getLsbD_not, decide_eq_true hk, Bool.true_and]
    · exact givesMask_maskWord hl (exec_mmov ..) (fun _ _ _ => rfl) fun _ _ _ => rfl
    · refine givesMask_maskWord hl (exec_mset ..) (fun _ _ _ => rfl) fun k hk hlive => ?_
      rw [msetBits, liveBits_getLsbD _ hk, decide_eq_decide, lt_min_iff, and_iff_right hlive]
    · refine givesMask_maskWord hl (exec_mset ..) (fun _ _ _ => rfl) fun k hk hlive => ?_
      rw [msetBits, liveBits_getLsbD _ hk, decide_eq_true hlive]
    · exact givesMask_maskWord hl (exec_mset ..) (fun _ _ _ => rfl) fun _ _ _ => BitVec.getLsbD_zero
    · exact givesMask_maskWord hl (exec_mset ..) (fun _ _ _ => rfl) fun k hk _ => liveBits_getLsbD _ hk
  · intro set
    refine ⟨givesCharged_maskCount hl (exec_mpopc ..) fun _ _ _ => rfl, givesCharged_maskCount hl (exec_mfirst_head ..) fun _ _ _ => ?_⟩
    change set.head?.elim _ _ = _
    cases set <;> rfl

/-! ## Comparisons (R165; 06_numbers_and_float.md R143, R144) -/

section
variable {s : State} {mk d : BitVec 3} {mz : Bool} {et : ET} {a b : BitVec 6}

theorem compareChecks_pass (hr : VectorReady s [(a, et.width), (b, et.width)]) :
    ∀ c ∈ [vecOk s a et.width, vecOk s b et.width, vectorOnly s], c.1 = true := by
  simp only [List.forall_mem_cons]
  exact ⟨hr.vecOk (by simp), hr.vecOk (by simp), vectorOnly_uniform (inLanes_none _ hr.mode), List.forall_mem_nil _⟩

/-- The comparison's bits of a mask, as it leaves them. -/
theorem compared_getLsbD (f : ℕ → Bool) {k : ℕ} (hk : k < 1024) :
    (if d = 0#3 then true else (maskResult s.warp (s.warp.readM d) mk mz f).getLsbD k) =
      if d = 0#3 then true
      else if s.warp.vstart ≤ k ∧ k < s.warp.vl then
        (if maskBit s.warp mk k then f k else if mz then false else (s.warp.readM d).getLsbD k)
      else (s.warp.readM d).getLsbD k := by
  rw [maskResult_getLsbD _ _ _ _ _ hk, resultBit]

theorem vcmp_gives (cc : Cond) (hr : VectorReady s [(a, et.width), (b, et.width)]) (ha : affords s s.warp.vl) :
    ∃ t, exec (.vcmp mk mz cc et d a b) s = .next t ∧ MaskEnd s t s.warp.vl d
      (maskResult s.warp (s.warp.readM d) mk mz fun k => condElem cc et (vElem s et a k) (vElem s et b k)) s.warp.fpstat 0 := by
  obtain ⟨cores, lease, paid, hu, hcharge⟩ := dispatched_spec s s.warp.vl
  have h := exec_vcmp s mk d a b mz cc et
  rw [execVcmp, guarded_pass (compareChecks_pass hr), tolled_credit (affords_credit ha), hu] at h
  exact ⟨_, h, maskEnd_advance _ hr.mode hcharge (by rw [setM_withCharge]; rfl)⟩

/-- R133: NV does not trap where FPCTL does not enable it. -/
theorem enabledTrap_nv {fpctl : BitVec 6} (h : fpctl.getLsbD 0 = false) (b : Bool) : enabledTrap fpctl { nv := b } = false := by
  have all : ∀ (c : BitVec 6) (b : Bool), c.getLsbD 0 = false → enabledTrap c { nv := b } = false := by decide
  exact all fpctl b h

/-- NV is bit 0 of FPSTAT (R132, Table 5). -/
theorem nv_getLsbD (b : Bool) (i : ℕ) : ({ nv := b } : FpFlags).bits.getLsbD i = true ↔ i = 0 ∧ b = true := by
  have bits : ({ nv := b } : FpFlags).bits = if b then 1#7 else 0#7 := by cases b <;> rfl
  rw [bits]
  cases b <;> simp [BitVec.getLsbD_one]

/-- `VFCMP` where NV is not enabled: the comparison's bits and its status. -/
theorem vfcmp_gives (cc : FCond) (hr : VectorReady s [(a, et.width), (b, et.width)]) (hnv : s.warp.fpctl.getLsbD 0 = false)
    (ha : affords s (s.warp.vl * 2)) {c : ℕ → Bool × Bool} (hc : ∀ k, fcondHolds cc (fVal et (vElem s et a k)) (fVal et (vElem s et b k)) = c k) :
    ∃ t, exec (.vfcmp mk mz cc et d a b) s = .next t ∧ MaskEnd s t (s.warp.vl * 2) d
      (maskResult s.warp (s.warp.readM d) mk mz fun k => (c k).1)
      (s.warp.fpstat ||| elemStatus s.warp mk s.warp.vl fun k => { bits := 0#32, flags := { nv := (c k).2 } }) 0 := by
  obtain rfl : (fun k => fcondHolds cc (fVal et (vElem s et a k)) (fVal et (vElem s et b k))) = c := funext hc
  obtain ⟨cores, lease, paid, hu, hcharge⟩ := dispatched_spec s (s.warp.vl * 2)
  have h := exec_vfcmp s mk d a b mz cc et
  have quiet := trapElem_none (w := (s.withCharge cores lease paid).warp) (mk := mk)
    (f := fun k => { bits := 0#32, flags := { nv := (fcondHolds cc (fVal et (vElem (s.withCharge cores lease paid) et a k))
      (fVal et (vElem (s.withCharge cores lease paid) et b k))).2 } })
    fun k _ => enabledTrap_nv hnv _
  rw [execVfcmp, guarded_pass (compareChecks_pass hr), tolled_credit (affords_credit ha), hu] at h
  simp only [quiet] at h
  exact ⟨_, h, maskEnd_advance _ hr.mode hcharge (by rw [setM_withCharge]; rfl)⟩

end

/-! ### The conditions (R144, Table 10) -/

theorem Exact.lt_nan (x : Exact) : x.lt .nan = false := by cases x <;> rfl

theorem fcondHolds_nan {a b : Exact} (h : a = .nan ∨ b = .nan) :
    fcondHolds .eq a b = (false, false) ∧ fcondHolds .ne a b = (true, false) ∧ fcondHolds .lt a b = (false, true) ∧
      fcondHolds .le a b = (false, true) ∧ fcondHolds .un a b = (true, false) ∧ fcondHolds .or a b = (false, false) := by
  have unordered : (a.isNaN || b.isNaN) = true := by simpa only [Bool.or_eq_true, Exact.isNaN_iff] using h
  have equal : a.eq b = false := by
    rw [Exact.eq, ← Bool.not_or, unordered]
    rfl
  have less : a.lt b = false := by
    rcases h with rfl | rfl
    · rfl
    · exact Exact.lt_nan a
  simp [fcondHolds, unordered, equal, less]

/-- Two numbers are equal where neither is below the other. -/
theorem Exact.eq_iff {a b : Exact} (ha : a ≠ .nan) (hb : b ≠ .nan) : a.eq b = true ↔ a.extended = b.extended := by
  have na := mt Exact.isNaN_iff.1 ha
  have nb := mt Exact.isNaN_iff.1 hb
  simp only [Exact.eq, Bool.and_eq_true, Bool.not_eq_true', Bool.eq_false_iff, ne_eq, na, nb, true_and, Exact.lt_iff ha hb,
    Exact.lt_iff hb ha, not_lt]
  exact ⟨fun h => le_antisymm h.2 h.1, fun h => ⟨h.ge, h.le⟩⟩

theorem fcondHolds_number {a b : Exact} (ha : a ≠ .nan) (hb : b ≠ .nan) :
    (∀ cc, (fcondHolds cc a b).2 = false) ∧ ((fcondHolds .eq a b).1 = true ↔ a.extended = b.extended) ∧
      ((fcondHolds .ne a b).1 = true ↔ a.extended ≠ b.extended) ∧ ((fcondHolds .lt a b).1 = true ↔ a.extended < b.extended) ∧
      ((fcondHolds .le a b).1 = true ↔ a.extended ≤ b.extended) ∧ (fcondHolds .un a b).1 = false ∧ (fcondHolds .or a b).1 = true := by
  have ordered : (a.isNaN || b.isNaN) = false := by
    rw [Bool.or_eq_false_iff, Bool.eq_false_iff, Bool.eq_false_iff]
    exact ⟨mt Exact.isNaN_iff.1 ha, mt Exact.isNaN_iff.1 hb⟩
  refine ⟨fun cc => ?_, Exact.eq_iff ha hb, ?_, Exact.lt_iff ha hb, ?_, ordered, ?_⟩
  · cases cc with
    | lt | le => exact ordered
    | eq | ne | un | or => rfl
  · rw [ne_eq, ← Exact.eq_iff ha hb, Bool.not_eq_true, ← Bool.not_eq_true']
    rfl
  · rw [← not_lt, ← Exact.lt_iff hb ha, fcondHolds, ordered]
    simp
  · rw [fcondHolds, ordered]
    rfl

/-- Settles O9: the comparisons by the bits and the status that they set, the conditions by the order of the extended reals. -/
theorem vectorCompares : Obligations.VectorCompares := by
  unfold Obligations.VectorCompares
  refine ⟨fun s mk d mz cc et a b _ _ hr _ ha => ?_, fun s mk d mz cc et a b _ _ hr hnv ha => ?_, fun a b => ⟨fcondHolds_nan, fcondHolds_number⟩⟩
  · obtain ⟨t, ht, done⟩ := vcmp_gives (mk := mk) (d := d) (mz := mz) cc hr ha
    exact ⟨t, ht, fun k hk => (done.written k hk).trans (compared_getLsbD _ hk), done.others, done.start, done.goes, done.words, done.uniform,
      done.streams, done.status, done.pending, done.order, done.frame⟩
  · intro c
    obtain ⟨t, ht, done⟩ := vfcmp_gives (mk := mk) (d := d) (mz := mz) cc hr hnv ha (c := c) fun _ => rfl
    refine ⟨t, ht, fun k hk => (done.written k hk).trans (compared_getLsbD _ hk), done.others, fun i => ?_, done.start, done.goes, done.words,
      done.uniform, done.streams, done.pending, done.order, done.frame⟩
    rw [done.status, fpstat_elemStatus]
    simp only [nv_getLsbD]
    refine or_congr_right ⟨fun ⟨k, _, hk, hi, hnan⟩ => ⟨hi, k, hk, hnan⟩, fun ⟨hi, k, hk, hnan⟩ => ⟨k, hk.2.1, hk, hi, hnan⟩⟩

end Sys2Proof.Machine
end
